-- ==== Sys2Proof/Word.lean ====
section
/-! DEFINITION. The word types of the Olilith (03 R44, 00 R4) and the sparse-map type that every
large piece of state is held in. -/

namespace Sys2Proof

/-- A 64-bit scalar word (R44). -/
abbrev Word := BitVec 64

/-- A 32-bit word: an instruction word (R66), a lane field (R45) or a stack-unit lane (R314). -/
abbrev Word32 := BitVec 32

/-- One byte of memory (R4). -/
abbrev Byte := BitVec 8

/-- The number of a scalar, vector or scale register. -/
abbrev Reg := BitVec 5

/-- A sparse map from numbers to values in one canonical form: keys strictly rising, and no entry
that holds the value an unlisted key reads as. -/
abbrev SMap (α : Type) := List (Nat × α)

end Sys2Proof
end

