-- ==== Sys2Proof/Syntax.lean ====
section
/-! DEFINITION. The abstract syntax: one constructor of `Instr` for every row of the opcode table.
The first part holds the operands of the rows that are events of the device and have no encoding. -/

namespace Sys2Proof

/-- Names a strand: the completion counter of its launch and its index within the launch (R28, R459). -/
structure StrandId where
  launch : Nat
  index : Nat
  deriving DecidableEq, Repr, Inhabited

/-- A free target that the hub offers to the ready pool (R385). -/
inductive Target where
  /-- An idle strand slot of a hoop. -/
  | slot (hoop slot : Nat)
  /-- A matrix-free engine of a hoop that serves node commands: the copy engine. -/
  | copyEngine (hoop : Nat)
  /-- A stack unit, for NEAR nodes. -/
  | unit (u : Nat)
  /-- The filet walker of a die, for WALK nodes. -/
  | walker (die : Nat)
  /-- The hub itself, for WAIT and HOST nodes. -/
  | hub
  deriving DecidableEq, Repr, Inhabited

/-- The payload header of a Garzar message (R329). -/
structure GarzarHeader where
  kind : BitVec 8
  count : BitVec 8
  sequence : BitVec 16
  source : BitVec 16
  dest : BitVec 16
  context : BitVec 16
  deriving DecidableEq, Repr, Inhabited

/-- The header flit of a base-die mesh packet with its first payload bytes (R325). -/
structure MeshHeader where
  kind : BitVec 8
  vc : BitVec 8
  dest : BitVec 8
  source : BitVec 8
  unit : BitVec 8
  flits : BitVec 8
  tag : BitVec 16
  asid : BitVec 16
  payload : List Byte
  deriving DecidableEq, Repr, Inhabited

/-- What a background check finds in a row (R439, R440). -/
inductive StorageError where
  | none
  | correctable
  | uncorrectable
  deriving DecidableEq, Repr, Inhabited

/-- The kinds of error that service firmware counts (R442). -/
inductive ErrorKind where
  | sramCorrectable
  | sramUncorrectable
  | hbmCorrectable
  | hbmUncorrectable
  | link
  deriving DecidableEq, Repr, Inhabited

/-- The steps of the machine: the 384 instructions that have an encoding (R66 to R81) and the 122
events of the device. Operand fields keep the names of the table: `d` bits [11:7] (or the stack
unit's d), `a` bits [19:15], `b` bits [24:20], `i` an immediate, `m` the mask bit. Branch, jump and
store immediates are joined in their semantic order (branch and jump offsets without bit 0). A comment
line before a group names the rule that gives the group its effect. -/
inductive Instr where
  -- R93
  | lui (d : BitVec 5) (i : BitVec 20)
  | auipc (d : BitVec 5) (i : BitVec 20)
  | jal (d : BitVec 5) (i : BitVec 20)
  | jalr (d a : BitVec 5) (i : BitVec 12)
  | beq (a b : BitVec 5) (i : BitVec 12)
  | bne (a b : BitVec 5) (i : BitVec 12)
  | blt (a b : BitVec 5) (i : BitVec 12)
  | bge (a b : BitVec 5) (i : BitVec 12)
  | bltu (a b : BitVec 5) (i : BitVec 12)
  | bgeu (a b : BitVec 5) (i : BitVec 12)
  -- R96
  | lb (d a : BitVec 5) (i : BitVec 12)
  | lh (d a : BitVec 5) (i : BitVec 12)
  | lw (d a : BitVec 5) (i : BitVec 12)
  | ld (d a : BitVec 5) (i : BitVec 12)
  | lbu (d a : BitVec 5) (i : BitVec 12)
  | lhu (d a : BitVec 5) (i : BitVec 12)
  | lwu (d a : BitVec 5) (i : BitVec 12)
  | sb (a b : BitVec 5) (i : BitVec 12)
  | sh (a b : BitVec 5) (i : BitVec 12)
  | sw (a b : BitVec 5) (i : BitVec 12)
  | sd (a b : BitVec 5) (i : BitVec 12)
  -- R94
  | addi (d a : BitVec 5) (i : BitVec 12)
  | slti (d a : BitVec 5) (i : BitVec 12)
  | sltiu (d a : BitVec 5) (i : BitVec 12)
  | xori (d a : BitVec 5) (i : BitVec 12)
  | ori (d a : BitVec 5) (i : BitVec 12)
  | andi (d a : BitVec 5) (i : BitVec 12)
  | slli (d a : BitVec 5) (h : BitVec 6)
  | srli (d a : BitVec 5) (h : BitVec 6)
  | srai (d a : BitVec 5) (h : BitVec 6)
  | add (d a b : BitVec 5)
  | sub (d a b : BitVec 5)
  | sll (d a b : BitVec 5)
  | slt (d a b : BitVec 5)
  | sltu (d a b : BitVec 5)
  | xor (d a b : BitVec 5)
  | srl (d a b : BitVec 5)
  | sra (d a b : BitVec 5)
  | or (d a b : BitVec 5)
  | and (d a b : BitVec 5)
  | addiw (d a : BitVec 5) (i : BitVec 12)
  | slliw (d a h : BitVec 5)
  | srliw (d a h : BitVec 5)
  | sraiw (d a h : BitVec 5)
  | addw (d a b : BitVec 5)
  | subw (d a b : BitVec 5)
  | sllw (d a b : BitVec 5)
  | srlw (d a b : BitVec 5)
  | sraw (d a b : BitVec 5)
  -- R95
  | mul (d a b : BitVec 5)
  | mulh (d a b : BitVec 5)
  | mulhsu (d a b : BitVec 5)
  | mulhu (d a b : BitVec 5)
  | div (d a b : BitVec 5)
  | divu (d a b : BitVec 5)
  | rem (d a b : BitVec 5)
  | remu (d a b : BitVec 5)
  | mulw (d a b : BitVec 5)
  | divw (d a b : BitVec 5)
  | divuw (d a b : BitVec 5)
  | remw (d a b : BitVec 5)
  | remuw (d a b : BitVec 5)
  -- R97
  | lrW (d a : BitVec 5) (q l : BitVec 1)
  | lrD (d a : BitVec 5) (q l : BitVec 1)
  | scW (d a b : BitVec 5) (q l : BitVec 1)
  | scD (d a b : BitVec 5) (q l : BitVec 1)
  -- R98
  | amoswapW (d a b : BitVec 5) (q l : BitVec 1)
  | amoaddW (d a b : BitVec 5) (q l : BitVec 1)
  | amoxorW (d a b : BitVec 5) (q l : BitVec 1)
  | amoandW (d a b : BitVec 5) (q l : BitVec 1)
  | amoorW (d a b : BitVec 5) (q l : BitVec 1)
  | amominW (d a b : BitVec 5) (q l : BitVec 1)
  | amomaxW (d a b : BitVec 5) (q l : BitVec 1)
  | amominuW (d a b : BitVec 5) (q l : BitVec 1)
  | amomaxuW (d a b : BitVec 5) (q l : BitVec 1)
  | amoswapD (d a b : BitVec 5) (q l : BitVec 1)
  | amoaddD (d a b : BitVec 5) (q l : BitVec 1)
  | amoxorD (d a b : BitVec 5) (q l : BitVec 1)
  | amoandD (d a b : BitVec 5) (q l : BitVec 1)
  | amoorD (d a b : BitVec 5) (q l : BitVec 1)
  | amominD (d a b : BitVec 5) (q l : BitVec 1)
  | amomaxD (d a b : BitVec 5) (q l : BitVec 1)
  | amominuD (d a b : BitVec 5) (q l : BitVec 1)
  | amomaxuD (d a b : BitVec 5) (q l : BitVec 1)
  -- R100
  | fence (f p s : BitVec 4)
  | fenceTso
  -- R101
  | ecall
  | ebreak
  -- R102
  | csrrw (d a : BitVec 5) (c : BitVec 12)
  | csrrs (d a : BitVec 5) (c : BitVec 12)
  | csrrc (d a : BitVec 5) (c : BitVec 12)
  | csrrwi (d : BitVec 5) (c : BitVec 12) (u : BitVec 5)
  | csrrsi (d : BitVec 5) (c : BitVec 12) (u : BitVec 5)
  | csrrci (d : BitVec 5) (c : BitVec 12) (u : BitVec 5)
  -- R61
  | flagCsrAccess (sat : Bool) (wr : Option (BitVec 64)) (d : BitVec 5)
  -- R59
  | vstartWrite (v : BitVec 64)
  -- R62
  | vfrmWrite (v : BitVec 64)
  -- R456
  | dwdataAccess (wr : Option (BitVec 64)) (d : BitVec 5)
  | dwdataiAccess (wr : Option (BitVec 64)) (d : BitVec 5)
  -- R178
  | vaddVv (d a b : BitVec 5) (m : BitVec 1)
  | vaddVx (d a b : BitVec 5) (m : BitVec 1)
  | vaddVi (d a b : BitVec 5) (m : BitVec 1)
  | vsubVv (d a b : BitVec 5) (m : BitVec 1)
  | vsubVx (d a b : BitVec 5) (m : BitVec 1)
  | vrsubVx (d a b : BitVec 5) (m : BitVec 1)
  | vrsubVi (d a b : BitVec 5) (m : BitVec 1)
  | vminuVv (d a b : BitVec 5) (m : BitVec 1)
  | vminuVx (d a b : BitVec 5) (m : BitVec 1)
  | vminVv (d a b : BitVec 5) (m : BitVec 1)
  | vminVx (d a b : BitVec 5) (m : BitVec 1)
  | vmaxuVv (d a b : BitVec 5) (m : BitVec 1)
  | vmaxuVx (d a b : BitVec 5) (m : BitVec 1)
  | vmaxVv (d a b : BitVec 5) (m : BitVec 1)
  | vmaxVx (d a b : BitVec 5) (m : BitVec 1)
  | vandVv (d a b : BitVec 5) (m : BitVec 1)
  | vandVx (d a b : BitVec 5) (m : BitVec 1)
  | vandVi (d a b : BitVec 5) (m : BitVec 1)
  | vorVv (d a b : BitVec 5) (m : BitVec 1)
  | vorVx (d a b : BitVec 5) (m : BitVec 1)
  | vorVi (d a b : BitVec 5) (m : BitVec 1)
  | vxorVv (d a b : BitVec 5) (m : BitVec 1)
  | vxorVx (d a b : BitVec 5) (m : BitVec 1)
  | vxorVi (d a b : BitVec 5) (m : BitVec 1)
  | vsllVv (d a b : BitVec 5) (m : BitVec 1)
  | vsllVx (d a b : BitVec 5) (m : BitVec 1)
  | vsllVi (d a b : BitVec 5) (m : BitVec 1)
  | vsrlVv (d a b : BitVec 5) (m : BitVec 1)
  | vsrlVx (d a b : BitVec 5) (m : BitVec 1)
  | vsrlVi (d a b : BitVec 5) (m : BitVec 1)
  | vsraVv (d a b : BitVec 5) (m : BitVec 1)
  | vsraVx (d a b : BitVec 5) (m : BitVec 1)
  | vsraVi (d a b : BitVec 5) (m : BitVec 1)
  | vmulVv (d a b : BitVec 5) (m : BitVec 1)
  | vmulVx (d a b : BitVec 5) (m : BitVec 1)
  | vmulhVv (d a b : BitVec 5) (m : BitVec 1)
  | vmulhVx (d a b : BitVec 5) (m : BitVec 1)
  | vmulhuVv (d a b : BitVec 5) (m : BitVec 1)
  | vmulhuVx (d a b : BitVec 5) (m : BitVec 1)
  | vdivuVv (d a b : BitVec 5) (m : BitVec 1)
  | vdivuVx (d a b : BitVec 5) (m : BitVec 1)
  | vdivVv (d a b : BitVec 5) (m : BitVec 1)
  | vdivVx (d a b : BitVec 5) (m : BitVec 1)
  | vremuVv (d a b : BitVec 5) (m : BitVec 1)
  | vremuVx (d a b : BitVec 5) (m : BitVec 1)
  | vremVv (d a b : BitVec 5) (m : BitVec 1)
  | vremVx (d a b : BitVec 5) (m : BitVec 1)
  | vmaccVv (d a b : BitVec 5) (m : BitVec 1)
  | vmaccVx (d a b : BitVec 5) (m : BitVec 1)
  -- R180
  | vsadduVv (d a b : BitVec 5) (m : BitVec 1)
  | vsadduVx (d a b : BitVec 5) (m : BitVec 1)
  | vsadduVi (d a b : BitVec 5) (m : BitVec 1)
  | vsaddVv (d a b : BitVec 5) (m : BitVec 1)
  | vsaddVx (d a b : BitVec 5) (m : BitVec 1)
  | vsaddVi (d a b : BitVec 5) (m : BitVec 1)
  | vssubuVv (d a b : BitVec 5) (m : BitVec 1)
  | vssubuVx (d a b : BitVec 5) (m : BitVec 1)
  | vssubVv (d a b : BitVec 5) (m : BitVec 1)
  | vssubVx (d a b : BitVec 5) (m : BitVec 1)
  | vnclipuVv (d a b : BitVec 5) (m : BitVec 1)
  | vnclipuVx (d a b : BitVec 5) (m : BitVec 1)
  | vnclipuVi (d a b : BitVec 5) (m : BitVec 1)
  | vnclipVv (d a b : BitVec 5) (m : BitVec 1)
  | vnclipVx (d a b : BitVec 5) (m : BitVec 1)
  | vnclipVi (d a b : BitVec 5) (m : BitVec 1)
  -- R181
  | vcvti (d b : BitVec 5) (m s : BitVec 1) (w : BitVec 3)
  -- R179
  | vmergeVv (d a b : BitVec 5)
  | vmergeVx (d a b : BitVec 5)
  | vmergeVi (d a b : BitVec 5)
  | vmvVv (d a : BitVec 5) (m : BitVec 1)
  | vmvVx (d a : BitVec 5) (m : BitVec 1)
  | vmvVi (d a : BitVec 5) (m : BitVec 1)
  -- R178
  | vabs (d b : BitVec 5) (m : BitVec 1)
  | vbcnt (d b : BitVec 5) (m : BitVec 1)
  -- R182
  | vmseqVv (d a b : BitVec 5) (m : BitVec 1)
  | vmseqVx (d a b : BitVec 5) (m : BitVec 1)
  | vmseqVi (d a b : BitVec 5) (m : BitVec 1)
  | vmsneVv (d a b : BitVec 5) (m : BitVec 1)
  | vmsneVx (d a b : BitVec 5) (m : BitVec 1)
  | vmsneVi (d a b : BitVec 5) (m : BitVec 1)
  | vmsltuVv (d a b : BitVec 5) (m : BitVec 1)
  | vmsltuVx (d a b : BitVec 5) (m : BitVec 1)
  | vmsltVv (d a b : BitVec 5) (m : BitVec 1)
  | vmsltVx (d a b : BitVec 5) (m : BitVec 1)
  | vmsleuVv (d a b : BitVec 5) (m : BitVec 1)
  | vmsleuVx (d a b : BitVec 5) (m : BitVec 1)
  | vmsleuVi (d a b : BitVec 5) (m : BitVec 1)
  | vmsleVv (d a b : BitVec 5) (m : BitVec 1)
  | vmsleVx (d a b : BitVec 5) (m : BitVec 1)
  | vmsleVi (d a b : BitVec 5) (m : BitVec 1)
  | vmsgtuVv (d a b : BitVec 5) (m : BitVec 1)
  | vmsgtuVx (d a b : BitVec 5) (m : BitVec 1)
  | vmsgtuVi (d a b : BitVec 5) (m : BitVec 1)
  | vmsgtVv (d a b : BitVec 5) (m : BitVec 1)
  | vmsgtVx (d a b : BitVec 5) (m : BitVec 1)
  | vmsgtVi (d a b : BitVec 5) (m : BitVec 1)
  -- R184
  | vfaddVv (d a b : BitVec 5) (m : BitVec 1)
  | vfaddVf (d a b : BitVec 5) (m : BitVec 1)
  | vfsubVv (d a b : BitVec 5) (m : BitVec 1)
  | vfsubVf (d a b : BitVec 5) (m : BitVec 1)
  | vfrsubVf (d a b : BitVec 5) (m : BitVec 1)
  | vfmulVv (d a b : BitVec 5) (m : BitVec 1)
  | vfmulVf (d a b : BitVec 5) (m : BitVec 1)
  | vfmaccVv (d a b : BitVec 5) (m : BitVec 1)
  | vfmaccVf (d a b : BitVec 5) (m : BitVec 1)
  | vfnmsacVv (d a b : BitVec 5) (m : BitVec 1)
  | vfnmsacVf (d a b : BitVec 5) (m : BitVec 1)
  | vfminVv (d a b : BitVec 5) (m : BitVec 1)
  | vfminVf (d a b : BitVec 5) (m : BitVec 1)
  | vfmaxVv (d a b : BitVec 5) (m : BitVec 1)
  | vfmaxVf (d a b : BitVec 5) (m : BitVec 1)
  | vfsgnjVv (d a b : BitVec 5) (m : BitVec 1)
  | vfsgnjVf (d a b : BitVec 5) (m : BitVec 1)
  | vfsgnjnVv (d a b : BitVec 5) (m : BitVec 1)
  | vfsgnjnVf (d a b : BitVec 5) (m : BitVec 1)
  | vfsgnjxVv (d a b : BitVec 5) (m : BitVec 1)
  | vfsgnjxVf (d a b : BitVec 5) (m : BitVec 1)
  -- R159
  | vfrcp (d b : BitVec 5) (m : BitVec 1)
  | vfrsqrt (d b : BitVec 5) (m : BitVec 1)
  | vfexp2 (d b : BitVec 5) (m : BitVec 1)
  -- R187
  | vfclass (d b : BitVec 5) (m : BitVec 1)
  -- R188
  | vfcvt (d b : BitVec 5) (m : BitVec 1) (k : BitVec 5)
  -- R186
  | vmfeqVv (d a b : BitVec 5) (m : BitVec 1)
  | vmfeqVf (d a b : BitVec 5) (m : BitVec 1)
  | vmfneVv (d a b : BitVec 5) (m : BitVec 1)
  | vmfneVf (d a b : BitVec 5) (m : BitVec 1)
  | vmfltVv (d a b : BitVec 5) (m : BitVec 1)
  | vmfltVf (d a b : BitVec 5) (m : BitVec 1)
  | vmfleVv (d a b : BitVec 5) (m : BitVec 1)
  | vmfleVf (d a b : BitVec 5) (m : BitVec 1)
  | vmfgtVv (d a b : BitVec 5) (m : BitVec 1)
  | vmfgtVf (d a b : BitVec 5) (m : BitVec 1)
  | vmfgeVv (d a b : BitVec 5) (m : BitVec 1)
  | vmfgeVf (d a b : BitVec 5) (m : BitVec 1)
  | vmfordVv (d a b : BitVec 5) (m : BitVec 1)
  | vmfordVf (d a b : BitVec 5) (m : BitVec 1)
  -- R197
  | vsrch (d a b : BitVec 5) (m : BitVec 1)
  | vsrng (d a b : BitVec 5) (m : BitVec 1)
  -- R198
  | vcpop (d b : BitVec 5) (m : BitVec 1)
  | vfirst (d b : BitVec 5) (m : BitVec 1)
  -- R199
  | vmand (d a b : BitVec 5)
  | vmor (d a b : BitVec 5)
  | vmxor (d a b : BitVec 5)
  | vmandn (d a b : BitVec 5)
  | vmnand (d a b : BitVec 5)
  | vmnor (d a b : BitVec 5)
  | vmorn (d a b : BitVec 5)
  | vmxnor (d a b : BitVec 5)
  -- R200
  | vmsbf (d b : BitVec 5) (m : BitVec 1)
  | vmsif (d b : BitVec 5) (m : BitVec 1)
  | vmsof (d b : BitVec 5) (m : BitVec 1)
  -- R201
  | viota (d b : BitVec 5) (m : BitVec 1)
  | vid (d : BitVec 5) (m : BitVec 1)
  -- R202
  | vcompress (d a b : BitVec 5)
  | vcompi (d a : BitVec 5)
  -- R203
  | vtopk (d a b : BitVec 5) (m : BitVec 1)
  -- R204
  | vlut (d a b : BitVec 5) (m : BitVec 1)
  -- R205
  | vbfly (d a b : BitVec 5) (m : BitVec 1)
  -- R206
  | vhad (d a b : BitVec 5)
  -- R207
  | vxchg (d a b : BitVec 5)
  -- R208
  | vslideup (d a b : BitVec 5) (m : BitVec 1)
  | vslidedown (d a b : BitVec 5) (m : BitVec 1)
  -- R209
  | vrgather (d a b : BitVec 5) (m : BitVec 1)
  -- R210
  | vredsum (d a b : BitVec 5) (m : BitVec 1)
  | vredmax (d a b : BitVec 5) (m : BitVec 1)
  | vredmin (d a b : BitVec 5) (m : BitVec 1)
  | vredmaxu (d a b : BitVec 5) (m : BitVec 1)
  | vredminu (d a b : BitVec 5) (m : BitVec 1)
  -- R164
  | vfredsum (d a b : BitVec 5) (m : BitVec 1)
  -- R163
  | vfredosum (d a b : BitVec 5) (m : BitVec 1)
  -- R210
  | vfredmax (d a b : BitVec 5) (m : BitVec 1)
  | vfredmin (d a b : BitVec 5) (m : BitVec 1)
  -- R211
  | vmvxs (d b : BitVec 5)
  | vmvsx (d a : BitVec 5)
  -- R227
  | qcomp (d b : BitVec 5) (m : BitVec 1)
  -- R228
  | vquant (d a b : BitVec 5) (m : BitVec 1)
  -- R229
  | vdequant (d b : BitVec 5) (m : BitVec 1)
  -- R230
  | qbind (d a : BitVec 5)
  | qunbind (d : BitVec 5)
  -- R232
  | qmul (d a b : BitVec 5)
  | qmulx (d a b : BitVec 5)
  | qmax (d a b : BitVec 5)
  | qrcp (d b : BitVec 5)
  -- R233
  | qcvt (d a b : BitVec 5)
  -- R232
  | qmv (d b : BitVec 5)
  -- R230
  | qtag (d a : BitVec 5)
  -- R231
  | qbindt (d a b : BitVec 5)
  | qunbindt (d : BitVec 5)
  -- R141
  | vle (d a : BitVec 5) (t : BitVec 3) (m : BitVec 1) (w : BitVec 3)
  | vse (d a : BitVec 5) (t : BitVec 3) (m : BitVec 1) (w : BitVec 3)
  | vlse (d a b : BitVec 5) (t : BitVec 3) (m : BitVec 1) (w : BitVec 3)
  | vsse (d a b : BitVec 5) (t : BitVec 3) (m : BitVec 1) (w : BitVec 3)
  -- R138
  | vlxe (d a b : BitVec 5) (t : BitVec 3) (m : BitVec 1) (w : BitVec 3)
  | vsxe (d a b : BitVec 5) (t : BitVec 3) (m : BitVec 1) (w : BitVec 3)
  -- R225
  | vlq (d a b : BitVec 5) (t : BitVec 3)
  | vsq (d a b : BitVec 5) (t : BitVec 3)
  -- R226
  | qld (d a b : BitVec 5) (t : BitVec 3)
  | qst (d a : BitVec 5) (t : BitVec 3)
  -- R214
  | wsrch (d a b : BitVec 5) (t : BitVec 3) (m : BitVec 1)
  | wdot (d a b : BitVec 5) (t : BitVec 3) (m : BitVec 1)
  | wtopk (d a b : BitVec 5) (t : BitVec 3) (m : BitVec 1)
  -- R284
  | vamoAdd (d a b : BitVec 5) (m : BitVec 1)
  | vamoAnd (d a b : BitVec 5) (m : BitVec 1)
  | vamoOr (d a b : BitVec 5) (m : BitVec 1)
  | vamoXor (d a b : BitVec 5) (m : BitVec 1)
  | vamoSmin (d a b : BitVec 5) (m : BitVec 1)
  | vamoSmax (d a b : BitVec 5) (m : BitVec 1)
  | vamoUmax (d a b : BitVec 5) (m : BitVec 1)
  | vamoSwap (d a b : BitVec 5) (m : BitVec 1)
  -- R286
  | vlgl (d a b : BitVec 5) (m : BitVec 1)
  -- R287
  | vssc (d a b : BitVec 5) (m : BitVec 1)
  -- R285
  | vfascan (d a : BitVec 5) (m : BitVec 1)
  -- R251
  | mld (a : BitVec 5) (t : BitVec 3) (e : BitVec 1)
  | mldg (a b : BitVec 5) (t : BitVec 3) (e : BitVec 1)
  -- R252
  | mflip (t : BitVec 3) (e : BitVec 1)
  -- R253
  | mmac (a : BitVec 5) (t : BitVec 3) (e : BitVec 1)
  -- R256
  | mgrp (a b : BitVec 5) (t : BitVec 3) (e : BitVec 1)
  -- R255
  | mst (a b : BitVec 5) (t : BitVec 3) (e : BitVec 1)
  -- R254
  | mzero (t : BitVec 3) (e : BitVec 1)
  -- R257
  | mtile (a : BitVec 5) (t : BitVec 3) (e : BitVec 1)
  -- R301
  | cpy (a : BitVec 5) (t : BitVec 3)
  -- R302
  | cpyx (a : BitVec 5) (t : BitVec 3)
  -- R303
  | cpyf (a : BitVec 5) (t : BitVec 3)
  -- R309
  | vsend (a b : BitVec 5) (t : BitVec 3) (m : BitVec 1)
  -- R310
  | vrecv (d a : BitVec 5) (t : BitVec 3)
  -- R311
  | msgx (a b : BitVec 5) (t : BitVec 3)
  -- R320
  | nmq (a b : BitVec 5) (t : BitVec 3)
  -- R344
  | kvsplice (a : BitVec 5) (t : BitVec 3)
  -- R348
  | kvrepair (a : BitVec 5) (t : BitVec 3)
  -- R350
  | kvcommit (a : BitVec 5) (t : BitVec 3)
  -- R342
  | kvseal (a : BitVec 5) (t : BitVec 3)
  -- R354
  | kvgather (a : BitVec 5) (t : BitVec 3)
  -- R365
  | gwalk (a : BitVec 5) (t : BitVec 3)
  -- R370
  | gins (a : BitVec 5) (t : BitVec 3)
  -- R372
  | gdel (a : BitVec 5) (t : BitVec 3)
  -- R104
  | vsetvli (d a : BitVec 5) (i : BitVec 11)
  | vsetivli (d : BitVec 5) (i : BitVec 11) (u : BitVec 5)
  | vsetvl (d a b : BitVec 5)
  -- R107
  | vsetmt (d a : BitVec 5)
  -- R108
  | loop (a : BitVec 5) (i : BitVec 12)
  | loopi (i : BitVec 12) (u : BitVec 5)
  -- R110
  | lpbrk
  | lpidx (d l : BitVec 5)
  -- R112
  | tkpost (q : BitVec 5)
  | tkwait (q : BitVec 5)
  -- R277
  | bararv (a : BitVec 5)
  | barwait (a : BitVec 5)
  | barsync (a : BitVec 5)
  -- R275
  | fenceS (i e v s : BitVec 1) (c : BitVec 5)
  -- R280
  | publish (a : BitVec 5)
  -- R282
  | pubwait (a : BitVec 5)
  -- R113
  | yield
  -- R114
  | sexit
  -- R117
  | launch (d a : BitVec 5)
  | gsubmit (d a b : BitVec 5)
  -- R119
  | cntwait (a b : BitVec 5)
  | cntread (d a : BitVec 5)
  -- R120
  | cancel (a : BitVec 5)
  -- R388
  | hpart (a : BitVec 5)
  -- R121
  | cntnew (d a : BitVec 5)
  -- R116
  | tret
  -- R115
  | idle
  -- R400
  | ctxsave (a : BitVec 5)
  | ctxload (a : BitVec 5)
  -- R414
  | tlbinv (a b : BitVec 5)
  -- R413
  | keyinv (a : BitVec 5)
  -- R316
  | suLd (d a : BitVec 5) (i : BitVec 1)
  | suSt (d a : BitVec 5) (i : BitVec 1)
  | suAdd (d a b : BitVec 5)
  | suSub (d a b : BitVec 5)
  | suMul (d a b : BitVec 5)
  | suFma (d a b : BitVec 5)
  | suFms (d a b : BitVec 5)
  | suMin (d a b : BitVec 5)
  | suMax (d a b : BitVec 5)
  | suAbs (d a : BitVec 5)
  | suCmp (d a b : BitVec 5) (r : BitVec 2)
  | suSel (d a b : BitVec 5) (k : BitVec 2)
  | suAnd (d a b : BitVec 5)
  | suOr (d a b : BitVec 5)
  | suXor (d a b : BitVec 5)
  | suCvt (d a : BitVec 5) (c : BitVec 4)
  | suRcp (d a : BitVec 5)
  | suRsqrt (d a : BitVec 5)
  | suBc (d a : BitVec 5)
  | suMov (d a : BitVec 5)
  -- R317
  | suLp1 (a : BitVec 5) (l : BitVec 11)
  | suLp2 (a : BitVec 5) (l : BitVec 11)
  -- R316
  | suPadd (d a : BitVec 5) (i : BitVec 11)
  | suEnd
  -- R319
  | loadProgram (u : Nat)
  | run (u : Nat)
  | spill (u : Nat)
  -- R323
  | contextReschedule (asid : BitVec 12)
  -- R26
  | launchAccept (c : Nat)
  -- R381
  | graphAccept (c : Nat)
  -- R117
  | submissionResult
  -- R425
  | jobPacketRead (j : Nat)
  -- R23
  | jobNextPhase (c : Nat)
  | phaseNextSubmission (c : Nat)
  -- R380
  | nodeComplete (c : Nat) (node : Nat)
  -- R385
  | readyPoolDispatch (t : Target)
  -- R39
  | slotBeginIssue (i : StrandId)
  -- R384
  | readyEntryAge (n : Nat)
  -- R386
  | timeSliceExpiry (i : StrandId)
  | preemptionRequest (i : StrandId)
  -- R392
  | preemptionStop
  -- R391
  | graceExpiry (i : StrandId)
  -- R396
  | contextSave (i : StrandId)
  | saveComplete (i : StrandId)
  -- R395
  | saveBegin (i : StrandId)
  -- R397
  | saveRestart (i : StrandId)
  -- R398
  | strandRestore (i : StrandId) (hoop slot : Nat)
  -- R390
  | arrayWipe (hoop array : Nat)
  | partitionPartApply (hoop slot : Nat)
  -- R42
  | strandCancelStop
  -- R41
  | counterIncrement (c : Nat)
  -- R38
  | stall (q : BitVec 3)
  -- R39
  | waitEnd
  -- R36
  | feResultWrite
  -- R35
  | tokenPush (q : BitVec 3)
  -- R112
  | tokenMarkerHead (q : BitVec 3)
  -- R242
  | commandAccept (q : BitVec 3)
  -- R243
  | matrixStep (e : BitVec 1)
  | commandRetire (q : BitVec 3) (e : BitVec 1)
  -- R259
  | followOnAccept
  -- R301
  | copyChunk
  -- R340
  | kvStep
  -- R352
  | darnerListWrite (sess : Nat)
  -- R353
  | repairSessionAbandon (sess : Nat)
  -- R366
  | walkerRound
  -- R367
  | resultRound
  -- R431
  | trapTake
  -- R281
  | publishInstallation (set : Nat)
  -- R133
  | pageWalk (asid : BitVec 12) (va : BitVec 64)
  -- R312
  | messageAccept (n : Nat)
  -- R329
  | join (port : Nat) (h : GarzarHeader)
  | elem (port : Nat) (h : GarzarHeader) (data : List (BitVec 64))
  | accept (port : Nat) (h : GarzarHeader)
  | busy (port : Nat) (h : GarzarHeader)
  | leave (port : Nat) (h : GarzarHeader)
  -- R330
  | elemRetry (n : Nat)
  -- R325
  | meshCommand (h : MeshHeader)
  | meshTranslationRequest (h : MeshHeader)
  | meshTranslationResponse (h : MeshHeader)
  | meshCompletion (h : MeshHeader)
  | meshFaultRecord (h : MeshHeader)
  | meshImageData (h : MeshHeader)
  -- R326
  | meshCredit (router out vc : Nat)
  -- R427
  | bar2Read (port : Nat) (off len : Nat)
  | bar2Write (port : Nat) (off : Nat) (data : List (BitVec 8))
  -- R327
  | configurationRequest (port : Nat) (reg : Nat) (wr : Option (BitVec 32))
  | unsupportedRequest (port : Nat) (tag : Nat)
  -- R5
  | registerWrite (off : Nat) (v : BitVec 64)
  -- R424
  | jobQueueDoorbell (j : Nat) (tail : BitVec 16)
  -- R412
  | alloc
  -- R413
  | erase
  -- R423
  | seal
  | unseal
  -- R418
  | attest
  -- R423
  | debugAuth
  | mailboxResponse
  -- R406
  | contextInvalidate (asid : BitVec 12)
  | contextTeardown (asid : BitVec 12)
  -- R426
  | msixSend (v : Nat) (data : BitVec 32)
  | msixUnmask (v : Nat)
  -- R460
  | halt (win : Option Nat) (w : BitVec 64)
  | resume (win : Option Nat) (w : BitVec 64)
  -- R459
  | strandEndRequest (w : BitVec 64)
  -- R458
  | traceRingEnable (w : BitVec 64)
  -- R455
  | tabgidelOpen (valid : Bool) (serial : BitVec 128) (asids : List (BitVec 12))
  | tabgidelAccess (off : Nat) (wr : Option (BitVec 64))
  -- R469
  | sample (hoop : Nat)
  -- R474
  | traceRecordsLost (hoop : Nat)
  -- R115
  | idleWake (i : StrandId)
  -- R16
  | powerLimit (rate : Nat)
  -- R18
  | thermalWarning (die temp : Nat)
  -- R454
  | thermalCriticalStop (die temp : Nat)
  | thermalResume
  -- R439
  | backgroundCheck (hoop array row : Nat) (e : StorageError)
  -- R447
  | errorRecordWrite
  -- R442
  | lastingFault (k : ErrorKind) (unit : Nat)
  -- R443
  | spareReplacement (hoop array : Nat)
  | spareRemap (hoop array : Nat)
  -- R444
  | arrayWithdraw (hoop array : Nat)
  -- R445
  | dieFence (die : Nat)
  -- R327
  | linkTraining (port width rate : Nat)
  -- R446
  | channelPowerDownRequest (c : Nat)
  | channelDrainEnd (c : Nat)
  | channelSpillEnd (c : Nat)
  | channelWake (c : Nat)
  | channelRestoreEnd (c : Nat)
  -- R450
  | checkpointRequest (stay : Bool)
  | checkpointCut
  | checkpointTimeout
  -- R453
  | checkpointRestore (imgs : List Nat)
  -- R417: the image, and its security version where its signature verifies
  | deviceReset (image : List (BitVec 8)) (version : Option (BitVec 64))
  | serviceRelease (image : List (BitVec 8)) (version : Option (BitVec 64))
  | deviceReady (descr : List (BitVec 8))
  -- R421
  | deviceDescriptionUpdate (off : Nat) (data : List (BitVec 8))
  -- R17
  | dutyCycling (hoop : Nat) (e : BitVec 1)
  -- R18
  | temperatureFall (die temp : Nat)
  -- R264
  | pcieCompletion (port : Nat)
  -- R325
  | meshOtherKind (h : MeshHeader)
  -- R329
  | garzarOtherType (port : Nat) (h : GarzarHeader)
  -- R423
  | unknownOpcode
  | mailboxRequestIgnored (sequence : BitVec 64)
  deriving DecidableEq, Repr

end Sys2Proof
end

