-- ==== Sys2Proof/Config.lean ====
section
/-! DEFINITION. What the spec leaves open. Every constant here is opaque: nothing can be proved about
the value of one, so a statement that holds of the model holds whatever the value is. -/

namespace Sys2Proof.Config

/-- A choice the spec leaves open, fresh for each value of the counter that the state holds. -/
opaque freeChoice : Nat → Nat

/-- A word whose value the spec leaves open, fresh for each value of the counter. -/
opaque freeWord : Nat → Word

/-- The ac that step number n takes: the spec fixes the times of many operations and leaves the others
open, and this model keeps none of them. -/
opaque stepAc : Nat → Nat

/-- The ticks of the 1 GHz timestamp that pass with step number n, and its value at power-on (R13, R62): the spec
gives no start, and the count is unrelated to ac (R3). -/
opaque stepNs : Nat → Nat
opaque timeStart : Nat

/-- The thermal thresholds that the fuses hold, in units of 1/8 °C (R18, R421). -/
opaque fusedWarning : BitVec 16
opaque fusedCritical : BitVec 16

/-- The 64-byte line of HBM in which the check of a read has found an error, by its number, and whether it cannot be
corrected (R439), if a step of the model takes one as its turn. -/
opaque lineError : (ctr : Nat) → Option (Nat × Bool)

/-- The SRAM row in which the check of a use has found an error, by hoop, array and row, and whether it cannot be corrected
(R439), if a step of the model takes one as its turn. -/
opaque rowError : (ctr : Nat) → Option (Nat × Nat × Nat × Bool)

/-- The byte that a read under one key gives of a cipher block of 16 bytes written under another (R410, R411): the numbers
of the two keys, the block's number, and the byte's place in it, over the block's stored bytes. -/
opaque garbled : (readKey writeKey block off : Nat) → List Byte → Byte

/-- A byte read from a host or peer window (R428): its contents belong to the other side. -/
opaque windowByte : (ctr pa : Nat) → Byte

/-- The security version that the fuses hold (R417, R418, R421). -/
opaque fusedVersion : BitVec 64

/-- The bytes of a segment of a checkpoint image that are ciphertext, or whose layout the spec does not give (R451): by
the segment's kind and the image's number. -/
opaque segmentBytes : (kind seq : Nat) → List Byte

/-- A Falcon-1024 signature of the device's identity key (R418, R451). -/
opaque signature : List Byte → List Byte

/-- The length of such a signature, by the bytes before the length field (R418). -/
opaque signatureLength : List Byte → Nat

/-- Krovnis's PCIe vendor ID (R419). -/
opaque vendorId : BitVec 16

/-- The bytes of a sealed blob that the security core draws and encrypts (R423): the initialisation vector of
12 bytes, then the key pair and the tag. -/
opaque sealedBytes : (ctr : Nat) → List Byte

/-- Whether the tag of a blob that this device's run has not issued verifies, and the number of its key (R423). -/
opaque tagVerifies : List Byte → Option Nat

/-- A trace record finds its hoop's queue full, or the port busy beyond its buffer (R474). -/
opaque queueFull : (ctr : Nat) → Bool
opaque portBusy : (ctr : Nat) → Bool

/-- The fused weights of the energy classes (R472). -/
opaque energyWeight : (hub : Bool) → (cls : Nat) → BitVec 16

end Sys2Proof.Config
end

