-- ==== Sys2Proof/Decode.lean ====
section
/-! DEFINITION. Decoding of the instruction words of strands (R66 to R80) and of stack units (R81),
total on any word and refusing by name; after it the encoder, written from the same tables.
`noncomputable` marks what builds an instruction: Lean's compiler has no object tag above 243, and `Instr`
has more constructors; the kernel evaluates these definitions like any other. -/

namespace Sys2Proof

/-- Why a word names no instruction. -/
inductive DecodeError where
  /-- Bits [1:0] are not 11 (R66, R67). -/
  | notOpcode
  /-- The major opcode or category is unallocated (R67, R70). -/
  | unallocatedMajor
  /-- A funct, subop or command field names no instruction, or the operand kind is not allocated. -/
  | unallocatedFunct
  /-- A field that the instruction's table shows as 0 is not 0. -/
  | reservedField
  /-- The same in a system instruction, where the level check of R68 comes first. -/
  | reservedSystem
  /-- A stack-unit word that R81 does not list (R322: illegal op). -/
  | illegalStackOp
  deriving DecidableEq, Repr

/-- The subcode of ILL (R68). -/
def DecodeError.subcode : DecodeError → Nat
  | .notOpcode | .unallocatedMajor | .unallocatedFunct => 1
  | .reservedField | .reservedSystem => 6
  | .illegalStackOp => 1

/-- The six fields of every strand word (R69, R70, R76, R78, R79). -/
structure Fields where
  f7 : BitVec 7
  r2 : BitVec 5
  r1 : BitVec 5
  f3 : BitVec 3
  rd : BitVec 5
  op : BitVec 7
  deriving DecidableEq, Repr

def Fields.ofWord (w : Word32) : Fields where
  f7 := w.extractLsb' 25 7
  r2 := w.extractLsb' 20 5
  r1 := w.extractLsb' 15 5
  f3 := w.extractLsb' 12 3
  rd := w.extractLsb' 7 5
  op := w.extractLsb' 0 7

/-- The word that holds the six fields. -/
def Fields.pack (f7 : BitVec 7) (r2 r1 : BitVec 5) (f3 : BitVec 3) (rd : BitVec 5) (op : BitVec 7) :
    Word32 := f7 ++ (r2 ++ (r1 ++ (f3 ++ (rd ++ op))))

/-- The I immediate (R69). -/
def Fields.immI (f : Fields) : BitVec 12 := f.f7 ++ f.r2

/-- The S immediate (R69). -/
def Fields.immS (f : Fields) : BitVec 12 := f.f7 ++ f.rd

/-- The B immediate without its bit 0: bits [12:1] of the offset (R69). -/
def Fields.immB (f : Fields) : BitVec 12 :=
  f.f7.extractLsb' 6 1 ++ (f.rd.extractLsb' 0 1 ++ (f.f7.extractLsb' 0 6 ++ f.rd.extractLsb' 1 4))

/-- The U immediate, bits [31:12] (R69). -/
def Fields.immU (f : Fields) : BitVec 20 := f.f7 ++ (f.r2 ++ (f.r1 ++ f.f3))

/-- The J immediate without its bit 0: bits [20:1] of the offset (R69). -/
def Fields.immJ (f : Fields) : BitVec 20 :=
  f.f7.extractLsb' 6 1 ++ ((f.r1 ++ f.f3) ++
    (f.r2.extractLsb' 0 1 ++ (f.f7.extractLsb' 0 6 ++ f.r2.extractLsb' 1 4)))

/-- The five fields of a stack-unit word (R81). -/
structure SuFields where
  op : BitVec 6
  d : BitVec 5
  a : BitVec 5
  b : BitVec 5
  i : BitVec 11
  deriving DecidableEq, Repr

def SuFields.ofWord (w : Word32) : SuFields where
  op := w.extractLsb' 26 6
  d := w.extractLsb' 21 5
  a := w.extractLsb' 16 5
  b := w.extractLsb' 11 5
  i := w.extractLsb' 0 11

/-- The stack-unit word that holds the five fields. -/
def SuFields.pack (op : BitVec 6) (d a b : BitVec 5) (i : BitVec 11) : Word32 :=
  op ++ (d ++ (a ++ (b ++ i)))

/-- BRANCH (R93): the condition is funct3; 010 and 011 name no instruction. -/
def decodeBranch (f : Fields) : Except DecodeError Instr :=
  match f.f3 with
  | 0b000#3 => .ok (.beq f.r1 f.r2 f.immB)
  | 0b001#3 => .ok (.bne f.r1 f.r2 f.immB)
  | 0b100#3 => .ok (.blt f.r1 f.r2 f.immB)
  | 0b101#3 => .ok (.bge f.r1 f.r2 f.immB)
  | 0b110#3 => .ok (.bltu f.r1 f.r2 f.immB)
  | 0b111#3 => .ok (.bgeu f.r1 f.r2 f.immB)
  | _ => .error .unallocatedFunct

/-- LOAD (R96). -/
def decodeLoad (f : Fields) : Except DecodeError Instr :=
  match f.f3 with
  | 0b000#3 => .ok (.lb f.rd f.r1 f.immI)
  | 0b001#3 => .ok (.lh f.rd f.r1 f.immI)
  | 0b010#3 => .ok (.lw f.rd f.r1 f.immI)
  | 0b011#3 => .ok (.ld f.rd f.r1 f.immI)
  | 0b100#3 => .ok (.lbu f.rd f.r1 f.immI)
  | 0b101#3 => .ok (.lhu f.rd f.r1 f.immI)
  | 0b110#3 => .ok (.lwu f.rd f.r1 f.immI)
  | _ => .error .unallocatedFunct

/-- STORE (R96). -/
def decodeStore (f : Fields) : Except DecodeError Instr :=
  match f.f3 with
  | 0b000#3 => .ok (.sb f.r1 f.r2 f.immS)
  | 0b001#3 => .ok (.sh f.r1 f.r2 f.immS)
  | 0b010#3 => .ok (.sw f.r1 f.r2 f.immS)
  | 0b011#3 => .ok (.sd f.r1 f.r2 f.immS)
  | _ => .error .unallocatedFunct

/-- OP-IMM (R94): the shifts also read imm[11:6]. -/
def decodeOpImm (f : Fields) : Except DecodeError Instr :=
  match f.f3 with
  | 0b000#3 => .ok (.addi f.rd f.r1 f.immI)
  | 0b001#3 => if f.f7.extractLsb' 1 6 = 0b000000#6 then .ok (.slli f.rd f.r1 (f.f7.extractLsb' 0 1 ++ f.r2))
      else .error .unallocatedFunct
  | 0b010#3 => .ok (.slti f.rd f.r1 f.immI)
  | 0b011#3 => .ok (.sltiu f.rd f.r1 f.immI)
  | 0b100#3 => .ok (.xori f.rd f.r1 f.immI)
  | 0b101#3 => if f.f7.extractLsb' 1 6 = 0b000000#6 then .ok (.srli f.rd f.r1 (f.f7.extractLsb' 0 1 ++ f.r2))
      else if f.f7.extractLsb' 1 6 = 0b010000#6 then .ok (.srai f.rd f.r1 (f.f7.extractLsb' 0 1 ++ f.r2))
      else .error .unallocatedFunct
  | 0b110#3 => .ok (.ori f.rd f.r1 f.immI)
  | 0b111#3 => .ok (.andi f.rd f.r1 f.immI)

/-- OP-IMM-32 (R94): the shifts also read funct7. -/
def decodeOpImm32 (f : Fields) : Except DecodeError Instr :=
  match f.f3 with
  | 0b000#3 => .ok (.addiw f.rd f.r1 f.immI)
  | 0b001#3 => if f.f7 = 0b0000000#7 then .ok (.slliw f.rd f.r1 f.r2)
      else .error .unallocatedFunct
  | 0b101#3 => if f.f7 = 0b0000000#7 then .ok (.srliw f.rd f.r1 f.r2)
      else if f.f7 = 0b0100000#7 then .ok (.sraiw f.rd f.r1 f.r2)
      else .error .unallocatedFunct
  | _ => .error .unallocatedFunct

/-- OP (R94, R95): funct7 and funct3. -/
def decodeOp (f : Fields) : Except DecodeError Instr :=
  match f.f7 ++ f.f3 with
  | 0b0000000000#10 => .ok (.add f.rd f.r1 f.r2)
  | 0b0000000001#10 => .ok (.sll f.rd f.r1 f.r2)
  | 0b0000000010#10 => .ok (.slt f.rd f.r1 f.r2)
  | 0b0000000011#10 => .ok (.sltu f.rd f.r1 f.r2)
  | 0b0000000100#10 => .ok (.xor f.rd f.r1 f.r2)
  | 0b0000000101#10 => .ok (.srl f.rd f.r1 f.r2)
  | 0b0000000110#10 => .ok (.or f.rd f.r1 f.r2)
  | 0b0000000111#10 => .ok (.and f.rd f.r1 f.r2)
  | 0b0000001000#10 => .ok (.mul f.rd f.r1 f.r2)
  | 0b0000001001#10 => .ok (.mulh f.rd f.r1 f.r2)
  | 0b0000001010#10 => .ok (.mulhsu f.rd f.r1 f.r2)
  | 0b0000001011#10 => .ok (.mulhu f.rd f.r1 f.r2)
  | 0b0000001100#10 => .ok (.div f.rd f.r1 f.r2)
  | 0b0000001101#10 => .ok (.divu f.rd f.r1 f.r2)
  | 0b0000001110#10 => .ok (.rem f.rd f.r1 f.r2)
  | 0b0000001111#10 => .ok (.remu f.rd f.r1 f.r2)
  | 0b0100000000#10 => .ok (.sub f.rd f.r1 f.r2)
  | 0b0100000101#10 => .ok (.sra f.rd f.r1 f.r2)
  | _ => .error .unallocatedFunct

/-- OP-32 (R94, R95): funct7 and funct3. -/
def decodeOp32 (f : Fields) : Except DecodeError Instr :=
  match f.f7 ++ f.f3 with
  | 0b0000000000#10 => .ok (.addw f.rd f.r1 f.r2)
  | 0b0000000001#10 => .ok (.sllw f.rd f.r1 f.r2)
  | 0b0000000101#10 => .ok (.srlw f.rd f.r1 f.r2)
  | 0b0000001000#10 => .ok (.mulw f.rd f.r1 f.r2)
  | 0b0000001100#10 => .ok (.divw f.rd f.r1 f.r2)
  | 0b0000001101#10 => .ok (.divuw f.rd f.r1 f.r2)
  | 0b0000001110#10 => .ok (.remw f.rd f.r1 f.r2)
  | 0b0000001111#10 => .ok (.remuw f.rd f.r1 f.r2)
  | 0b0100000000#10 => .ok (.subw f.rd f.r1 f.r2)
  | 0b0100000101#10 => .ok (.sraw f.rd f.r1 f.r2)
  | _ => .error .unallocatedFunct

/-- AMO (R97, R98): funct5 and funct3. -/
def decodeAmo (f : Fields) : Except DecodeError Instr :=
  match f.f7.extractLsb' 2 5 ++ f.f3 with
  | 0b00000010#8 => .ok (.amoaddW f.rd f.r1 f.r2 (f.f7.extractLsb' 1 1) (f.f7.extractLsb' 0 1))
  | 0b00000011#8 => .ok (.amoaddD f.rd f.r1 f.r2 (f.f7.extractLsb' 1 1) (f.f7.extractLsb' 0 1))
  | 0b00001010#8 => .ok (.amoswapW f.rd f.r1 f.r2 (f.f7.extractLsb' 1 1) (f.f7.extractLsb' 0 1))
  | 0b00001011#8 => .ok (.amoswapD f.rd f.r1 f.r2 (f.f7.extractLsb' 1 1) (f.f7.extractLsb' 0 1))
  | 0b00010010#8 => if f.r2 = 0b00000#5 then .ok (.lrW f.rd f.r1 (f.f7.extractLsb' 1 1) (f.f7.extractLsb' 0 1)) else .error .reservedField
  | 0b00010011#8 => if f.r2 = 0b00000#5 then .ok (.lrD f.rd f.r1 (f.f7.extractLsb' 1 1) (f.f7.extractLsb' 0 1)) else .error .reservedField
  | 0b00011010#8 => .ok (.scW f.rd f.r1 f.r2 (f.f7.extractLsb' 1 1) (f.f7.extractLsb' 0 1))
  | 0b00011011#8 => .ok (.scD f.rd f.r1 f.r2 (f.f7.extractLsb' 1 1) (f.f7.extractLsb' 0 1))
  | 0b00100010#8 => .ok (.amoxorW f.rd f.r1 f.r2 (f.f7.extractLsb' 1 1) (f.f7.extractLsb' 0 1))
  | 0b00100011#8 => .ok (.amoxorD f.rd f.r1 f.r2 (f.f7.extractLsb' 1 1) (f.f7.extractLsb' 0 1))
  | 0b01000010#8 => .ok (.amoorW f.rd f.r1 f.r2 (f.f7.extractLsb' 1 1) (f.f7.extractLsb' 0 1))
  | 0b01000011#8 => .ok (.amoorD f.rd f.r1 f.r2 (f.f7.extractLsb' 1 1) (f.f7.extractLsb' 0 1))
  | 0b01100010#8 => .ok (.amoandW f.rd f.r1 f.r2 (f.f7.extractLsb' 1 1) (f.f7.extractLsb' 0 1))
  | 0b01100011#8 => .ok (.amoandD f.rd f.r1 f.r2 (f.f7.extractLsb' 1 1) (f.f7.extractLsb' 0 1))
  | 0b10000010#8 => .ok (.amominW f.rd f.r1 f.r2 (f.f7.extractLsb' 1 1) (f.f7.extractLsb' 0 1))
  | 0b10000011#8 => .ok (.amominD f.rd f.r1 f.r2 (f.f7.extractLsb' 1 1) (f.f7.extractLsb' 0 1))
  | 0b10100010#8 => .ok (.amomaxW f.rd f.r1 f.r2 (f.f7.extractLsb' 1 1) (f.f7.extractLsb' 0 1))
  | 0b10100011#8 => .ok (.amomaxD f.rd f.r1 f.r2 (f.f7.extractLsb' 1 1) (f.f7.extractLsb' 0 1))
  | 0b11000010#8 => .ok (.amominuW f.rd f.r1 f.r2 (f.f7.extractLsb' 1 1) (f.f7.extractLsb' 0 1))
  | 0b11000011#8 => .ok (.amominuD f.rd f.r1 f.r2 (f.f7.extractLsb' 1 1) (f.f7.extractLsb' 0 1))
  | 0b11100010#8 => .ok (.amomaxuW f.rd f.r1 f.r2 (f.f7.extractLsb' 1 1) (f.f7.extractLsb' 0 1))
  | 0b11100011#8 => .ok (.amomaxuD f.rd f.r1 f.r2 (f.f7.extractLsb' 1 1) (f.f7.extractLsb' 0 1))
  | _ => .error .unallocatedFunct

/-- Zicsr (R102). -/
def decodeCsr (f : Fields) : Except DecodeError Instr :=
  match f.f3 with
  | 0b001#3 => .ok (.csrrw f.rd f.r1 f.immI)
  | 0b010#3 => .ok (.csrrs f.rd f.r1 f.immI)
  | 0b011#3 => .ok (.csrrc f.rd f.r1 f.immI)
  | 0b101#3 => .ok (.csrrwi f.rd f.immI f.r1)
  | 0b110#3 => .ok (.csrrsi f.rd f.immI f.r1)
  | 0b111#3 => .ok (.csrrci f.rd f.immI f.r1)
  | _ => .error .unallocatedFunct

/-- OP-VA category 000, integer .vv (R71). -/
def decodeIntVv (f : Fields) : Except DecodeError Instr :=
  match f.f7.extractLsb' 1 6 with
  | 0b000000#6 => .ok (.vaddVv f.rd f.r1 f.r2 (f.f7.extractLsb' 0 1))
  | 0b000001#6 => .ok (.vsubVv f.rd f.r1 f.r2 (f.f7.extractLsb' 0 1))
  | 0b000011#6 => .ok (.vminuVv f.rd f.r1 f.r2 (f.f7.extractLsb' 0 1))
  | 0b000100#6 => .ok (.vminVv f.rd f.r1 f.r2 (f.f7.extractLsb' 0 1))
  | 0b000101#6 => .ok (.vmaxuVv f.rd f.r1 f.r2 (f.f7.extractLsb' 0 1))
  | 0b000110#6 => .ok (.vmaxVv f.rd f.r1 f.r2 (f.f7.extractLsb' 0 1))
  | 0b000111#6 => .ok (.vandVv f.rd f.r1 f.r2 (f.f7.extractLsb' 0 1))
  | 0b001000#6 => .ok (.vorVv f.rd f.r1 f.r2 (f.f7.extractLsb' 0 1))
  | 0b001001#6 => .ok (.vxorVv f.rd f.r1 f.r2 (f.f7.extractLsb' 0 1))
  | 0b001010#6 => .ok (.vsllVv f.rd f.r1 f.r2 (f.f7.extractLsb' 0 1))
  | 0b001011#6 => .ok (.vsrlVv f.rd f.r1 f.r2 (f.f7.extractLsb' 0 1))
  | 0b001100#6 => .ok (.vsraVv f.rd f.r1 f.r2 (f.f7.extractLsb' 0 1))
  | 0b001101#6 => .ok (.vmulVv f.rd f.r1 f.r2 (f.f7.extractLsb' 0 1))
  | 0b001110#6 => .ok (.vmulhVv f.rd f.r1 f.r2 (f.f7.extractLsb' 0 1))
  | 0b001111#6 => .ok (.vmulhuVv f.rd f.r1 f.r2 (f.f7.extractLsb' 0 1))
  | 0b010000#6 => .ok (.vdivuVv f.rd f.r1 f.r2 (f.f7.extractLsb' 0 1))
  | 0b010001#6 => .ok (.vdivVv f.rd f.r1 f.r2 (f.f7.extractLsb' 0 1))
  | 0b010010#6 => .ok (.vremuVv f.rd f.r1 f.r2 (f.f7.extractLsb' 0 1))
  | 0b010011#6 => .ok (.vremVv f.rd f.r1 f.r2 (f.f7.extractLsb' 0 1))
  | 0b010100#6 => .ok (.vmaccVv f.rd f.r1 f.r2 (f.f7.extractLsb' 0 1))
  | 0b010101#6 => .ok (.vsadduVv f.rd f.r1 f.r2 (f.f7.extractLsb' 0 1))
  | 0b010110#6 => .ok (.vsaddVv f.rd f.r1 f.r2 (f.f7.extractLsb' 0 1))
  | 0b010111#6 => .ok (.vssubuVv f.rd f.r1 f.r2 (f.f7.extractLsb' 0 1))
  | 0b011000#6 => .ok (.vssubVv f.rd f.r1 f.r2 (f.f7.extractLsb' 0 1))
  | 0b011001#6 => .ok (.vnclipuVv f.rd f.r1 f.r2 (f.f7.extractLsb' 0 1))
  | 0b011010#6 => .ok (.vnclipVv f.rd f.r1 f.r2 (f.f7.extractLsb' 0 1))
  | 0b011011#6 => if f.r1.extractLsb' 3 1 = 0b0#1 ∧ f.r1.extractLsb' 0 3 ≠ 0b111#3 then .ok (.vcvti f.rd f.r2 (f.f7.extractLsb' 0 1) (f.r1.extractLsb' 4 1) (f.r1.extractLsb' 0 3)) else .error .reservedField
  | 0b011100#6 => if f.f7.extractLsb' 0 1 = 0b1#1 then .ok (.vmergeVv f.rd f.r1 f.r2) else .error .unallocatedFunct
  | 0b011101#6 => if f.r2 = 0b00000#5 then .ok (.vmvVv f.rd f.r1 (f.f7.extractLsb' 0 1)) else .error .reservedField
  | 0b100000#6 => .ok (.vmseqVv f.rd f.r1 f.r2 (f.f7.extractLsb' 0 1))
  | 0b100001#6 => .ok (.vmsneVv f.rd f.r1 f.r2 (f.f7.extractLsb' 0 1))
  | 0b100010#6 => .ok (.vmsltuVv f.rd f.r1 f.r2 (f.f7.extractLsb' 0 1))
  | 0b100011#6 => .ok (.vmsltVv f.rd f.r1 f.r2 (f.f7.extractLsb' 0 1))
  | 0b100100#6 => .ok (.vmsleuVv f.rd f.r1 f.r2 (f.f7.extractLsb' 0 1))
  | 0b100101#6 => .ok (.vmsleVv f.rd f.r1 f.r2 (f.f7.extractLsb' 0 1))
  | 0b100110#6 => .ok (.vmsgtuVv f.rd f.r1 f.r2 (f.f7.extractLsb' 0 1))
  | 0b100111#6 => .ok (.vmsgtVv f.rd f.r1 f.r2 (f.f7.extractLsb' 0 1))
  | 0b101000#6 => if f.r1 = 0b00000#5 then .ok (.vabs f.rd f.r2 (f.f7.extractLsb' 0 1)) else .error .reservedField
  | 0b101001#6 => if f.r1 = 0b00000#5 then .ok (.vbcnt f.rd f.r2 (f.f7.extractLsb' 0 1)) else .error .reservedField
  | _ => .error .unallocatedFunct

/-- OP-VA category 001, integer .vx (R71). -/
def decodeIntVx (f : Fields) : Except DecodeError Instr :=
  match f.f7.extractLsb' 1 6 with
  | 0b000000#6 => .ok (.vaddVx f.rd f.r1 f.r2 (f.f7.extractLsb' 0 1))
  | 0b000001#6 => .ok (.vsubVx f.rd f.r1 f.r2 (f.f7.extractLsb' 0 1))
  | 0b000010#6 => .ok (.vrsubVx f.rd f.r1 f.r2 (f.f7.extractLsb' 0 1))
  | 0b000011#6 => .ok (.vminuVx f.rd f.r1 f.r2 (f.f7.extractLsb' 0 1))
  | 0b000100#6 => .ok (.vminVx f.rd f.r1 f.r2 (f.f7.extractLsb' 0 1))
  | 0b000101#6 => .ok (.vmaxuVx f.rd f.r1 f.r2 (f.f7.extractLsb' 0 1))
  | 0b000110#6 => .ok (.vmaxVx f.rd f.r1 f.r2 (f.f7.extractLsb' 0 1))
  | 0b000111#6 => .ok (.vandVx f.rd f.r1 f.r2 (f.f7.extractLsb' 0 1))
  | 0b001000#6 => .ok (.vorVx f.rd f.r1 f.r2 (f.f7.extractLsb' 0 1))
  | 0b001001#6 => .ok (.vxorVx f.rd f.r1 f.r2 (f.f7.extractLsb' 0 1))
  | 0b001010#6 => .ok (.vsllVx f.rd f.r1 f.r2 (f.f7.extractLsb' 0 1))
  | 0b001011#6 => .ok (.vsrlVx f.rd f.r1 f.r2 (f.f7.extractLsb' 0 1))
  | 0b001100#6 => .ok (.vsraVx f.rd f.r1 f.r2 (f.f7.extractLsb' 0 1))
  | 0b001101#6 => .ok (.vmulVx f.rd f.r1 f.r2 (f.f7.extractLsb' 0 1))
  | 0b001110#6 => .ok (.vmulhVx f.rd f.r1 f.r2 (f.f7.extractLsb' 0 1))
  | 0b001111#6 => .ok (.vmulhuVx f.rd f.r1 f.r2 (f.f7.extractLsb' 0 1))
  | 0b010000#6 => .ok (.vdivuVx f.rd f.r1 f.r2 (f.f7.extractLsb' 0 1))
  | 0b010001#6 => .ok (.vdivVx f.rd f.r1 f.r2 (f.f7.extractLsb' 0 1))
  | 0b010010#6 => .ok (.vremuVx f.rd f.r1 f.r2 (f.f7.extractLsb' 0 1))
  | 0b010011#6 => .ok (.vremVx f.rd f.r1 f.r2 (f.f7.extractLsb' 0 1))
  | 0b010100#6 => .ok (.vmaccVx f.rd f.r1 f.r2 (f.f7.extractLsb' 0 1))
  | 0b010101#6 => .ok (.vsadduVx f.rd f.r1 f.r2 (f.f7.extractLsb' 0 1))
  | 0b010110#6 => .ok (.vsaddVx f.rd f.r1 f.r2 (f.f7.extractLsb' 0 1))
  | 0b010111#6 => .ok (.vssubuVx f.rd f.r1 f.r2 (f.f7.extractLsb' 0 1))
  | 0b011000#6 => .ok (.vssubVx f.rd f.r1 f.r2 (f.f7.extractLsb' 0 1))
  | 0b011001#6 => .ok (.vnclipuVx f.rd f.r1 f.r2 (f.f7.extractLsb' 0 1))
  | 0b011010#6 => .ok (.vnclipVx f.rd f.r1 f.r2 (f.f7.extractLsb' 0 1))
  | 0b011100#6 => if f.f7.extractLsb' 0 1 = 0b1#1 then .ok (.vmergeVx f.rd f.r1 f.r2) else .error .unallocatedFunct
  | 0b011101#6 => if f.r2 = 0b00000#5 then .ok (.vmvVx f.rd f.r1 (f.f7.extractLsb' 0 1)) else .error .reservedField
  | 0b100000#6 => .ok (.vmseqVx f.rd f.r1 f.r2 (f.f7.extractLsb' 0 1))
  | 0b100001#6 => .ok (.vmsneVx f.rd f.r1 f.r2 (f.f7.extractLsb' 0 1))
  | 0b100010#6 => .ok (.vmsltuVx f.rd f.r1 f.r2 (f.f7.extractLsb' 0 1))
  | 0b100011#6 => .ok (.vmsltVx f.rd f.r1 f.r2 (f.f7.extractLsb' 0 1))
  | 0b100100#6 => .ok (.vmsleuVx f.rd f.r1 f.r2 (f.f7.extractLsb' 0 1))
  | 0b100101#6 => .ok (.vmsleVx f.rd f.r1 f.r2 (f.f7.extractLsb' 0 1))
  | 0b100110#6 => .ok (.vmsgtuVx f.rd f.r1 f.r2 (f.f7.extractLsb' 0 1))
  | 0b100111#6 => .ok (.vmsgtVx f.rd f.r1 f.r2 (f.f7.extractLsb' 0 1))
  | _ => .error .unallocatedFunct

/-- OP-VA category 010, integer .vi (R71). -/
def decodeIntVi (f : Fields) : Except DecodeError Instr :=
  match f.f7.extractLsb' 1 6 with
  | 0b000000#6 => .ok (.vaddVi f.rd f.r1 f.r2 (f.f7.extractLsb' 0 1))
  | 0b000010#6 => .ok (.vrsubVi f.rd f.r1 f.r2 (f.f7.extractLsb' 0 1))
  | 0b000111#6 => .ok (.vandVi f.rd f.r1 f.r2 (f.f7.extractLsb' 0 1))
  | 0b001000#6 => .ok (.vorVi f.rd f.r1 f.r2 (f.f7.extractLsb' 0 1))
  | 0b001001#6 => .ok (.vxorVi f.rd f.r1 f.r2 (f.f7.extractLsb' 0 1))
  | 0b001010#6 => .ok (.vsllVi f.rd f.r1 f.r2 (f.f7.extractLsb' 0 1))
  | 0b001011#6 => .ok (.vsrlVi f.rd f.r1 f.r2 (f.f7.extractLsb' 0 1))
  | 0b001100#6 => .ok (.vsraVi f.rd f.r1 f.r2 (f.f7.extractLsb' 0 1))
  | 0b010101#6 => .ok (.vsadduVi f.rd f.r1 f.r2 (f.f7.extractLsb' 0 1))
  | 0b010110#6 => .ok (.vsaddVi f.rd f.r1 f.r2 (f.f7.extractLsb' 0 1))
  | 0b011001#6 => .ok (.vnclipuVi f.rd f.r1 f.r2 (f.f7.extractLsb' 0 1))
  | 0b011010#6 => .ok (.vnclipVi f.rd f.r1 f.r2 (f.f7.extractLsb' 0 1))
  | 0b011100#6 => if f.f7.extractLsb' 0 1 = 0b1#1 then .ok (.vmergeVi f.rd f.r1 f.r2) else .error .unallocatedFunct
  | 0b011101#6 => if f.r2 = 0b00000#5 then .ok (.vmvVi f.rd f.r1 (f.f7.extractLsb' 0 1)) else .error .reservedField
  | 0b100000#6 => .ok (.vmseqVi f.rd f.r1 f.r2 (f.f7.extractLsb' 0 1))
  | 0b100001#6 => .ok (.vmsneVi f.rd f.r1 f.r2 (f.f7.extractLsb' 0 1))
  | 0b100100#6 => .ok (.vmsleuVi f.rd f.r1 f.r2 (f.f7.extractLsb' 0 1))
  | 0b100101#6 => .ok (.vmsleVi f.rd f.r1 f.r2 (f.f7.extractLsb' 0 1))
  | 0b100110#6 => .ok (.vmsgtuVi f.rd f.r1 f.r2 (f.f7.extractLsb' 0 1))
  | 0b100111#6 => .ok (.vmsgtVi f.rd f.r1 f.r2 (f.f7.extractLsb' 0 1))
  | _ => .error .unallocatedFunct

/-- OP-VA category 011, float .vv (R73). -/
def decodeFloatVv (f : Fields) : Except DecodeError Instr :=
  match f.f7.extractLsb' 1 6 with
  | 0b000000#6 => .ok (.vfaddVv f.rd f.r1 f.r2 (f.f7.extractLsb' 0 1))
  | 0b000001#6 => .ok (.vfsubVv f.rd f.r1 f.r2 (f.f7.extractLsb' 0 1))
  | 0b000011#6 => .ok (.vfmulVv f.rd f.r1 f.r2 (f.f7.extractLsb' 0 1))
  | 0b000100#6 => .ok (.vfmaccVv f.rd f.r1 f.r2 (f.f7.extractLsb' 0 1))
  | 0b000101#6 => .ok (.vfnmsacVv f.rd f.r1 f.r2 (f.f7.extractLsb' 0 1))
  | 0b000110#6 => .ok (.vfminVv f.rd f.r1 f.r2 (f.f7.extractLsb' 0 1))
  | 0b000111#6 => .ok (.vfmaxVv f.rd f.r1 f.r2 (f.f7.extractLsb' 0 1))
  | 0b001000#6 => .ok (.vfsgnjVv f.rd f.r1 f.r2 (f.f7.extractLsb' 0 1))
  | 0b001001#6 => .ok (.vfsgnjnVv f.rd f.r1 f.r2 (f.f7.extractLsb' 0 1))
  | 0b001010#6 => .ok (.vfsgnjxVv f.rd f.r1 f.r2 (f.f7.extractLsb' 0 1))
  | 0b001101#6 => if f.r1 = 0b00000#5 then .ok (.vfrcp f.rd f.r2 (f.f7.extractLsb' 0 1)) else .error .reservedField
  | 0b001110#6 => if f.r1 = 0b00000#5 then .ok (.vfrsqrt f.rd f.r2 (f.f7.extractLsb' 0 1)) else .error .reservedField
  | 0b001111#6 => if f.r1 = 0b00000#5 then .ok (.vfexp2 f.rd f.r2 (f.f7.extractLsb' 0 1)) else .error .reservedField
  | 0b010000#6 => if f.r1 = 0b00000#5 then .ok (.vfclass f.rd f.r2 (f.f7.extractLsb' 0 1)) else .error .reservedField
  | 0b010001#6 => if f.r1.extractLsb' 3 2 = 0b01#2 ∨ f.r1.extractLsb' 1 2 ≠ 0b11#2 then .ok (.vfcvt f.rd f.r2 (f.f7.extractLsb' 0 1) f.r1) else .error .unallocatedFunct
  | 0b100000#6 => .ok (.vmfeqVv f.rd f.r1 f.r2 (f.f7.extractLsb' 0 1))
  | 0b100001#6 => .ok (.vmfneVv f.rd f.r1 f.r2 (f.f7.extractLsb' 0 1))
  | 0b100010#6 => .ok (.vmfltVv f.rd f.r1 f.r2 (f.f7.extractLsb' 0 1))
  | 0b100011#6 => .ok (.vmfleVv f.rd f.r1 f.r2 (f.f7.extractLsb' 0 1))
  | 0b100100#6 => .ok (.vmfgtVv f.rd f.r1 f.r2 (f.f7.extractLsb' 0 1))
  | 0b100101#6 => .ok (.vmfgeVv f.rd f.r1 f.r2 (f.f7.extractLsb' 0 1))
  | 0b100110#6 => .ok (.vmfordVv f.rd f.r1 f.r2 (f.f7.extractLsb' 0 1))
  | _ => .error .unallocatedFunct

/-- OP-VA category 100, float .vf (R73). -/
def decodeFloatVf (f : Fields) : Except DecodeError Instr :=
  match f.f7.extractLsb' 1 6 with
  | 0b000000#6 => .ok (.vfaddVf f.rd f.r1 f.r2 (f.f7.extractLsb' 0 1))
  | 0b000001#6 => .ok (.vfsubVf f.rd f.r1 f.r2 (f.f7.extractLsb' 0 1))
  | 0b000010#6 => .ok (.vfrsubVf f.rd f.r1 f.r2 (f.f7.extractLsb' 0 1))
  | 0b000011#6 => .ok (.vfmulVf f.rd f.r1 f.r2 (f.f7.extractLsb' 0 1))
  | 0b000100#6 => .ok (.vfmaccVf f.rd f.r1 f.r2 (f.f7.extractLsb' 0 1))
  | 0b000101#6 => .ok (.vfnmsacVf f.rd f.r1 f.r2 (f.f7.extractLsb' 0 1))
  | 0b000110#6 => .ok (.vfminVf f.rd f.r1 f.r2 (f.f7.extractLsb' 0 1))
  | 0b000111#6 => .ok (.vfmaxVf f.rd f.r1 f.r2 (f.f7.extractLsb' 0 1))
  | 0b001000#6 => .ok (.vfsgnjVf f.rd f.r1 f.r2 (f.f7.extractLsb' 0 1))
  | 0b001001#6 => .ok (.vfsgnjnVf f.rd f.r1 f.r2 (f.f7.extractLsb' 0 1))
  | 0b001010#6 => .ok (.vfsgnjxVf f.rd f.r1 f.r2 (f.f7.extractLsb' 0 1))
  | 0b100000#6 => .ok (.vmfeqVf f.rd f.r1 f.r2 (f.f7.extractLsb' 0 1))
  | 0b100001#6 => .ok (.vmfneVf f.rd f.r1 f.r2 (f.f7.extractLsb' 0 1))
  | 0b100010#6 => .ok (.vmfltVf f.rd f.r1 f.r2 (f.f7.extractLsb' 0 1))
  | 0b100011#6 => .ok (.vmfleVf f.rd f.r1 f.r2 (f.f7.extractLsb' 0 1))
  | 0b100100#6 => .ok (.vmfgtVf f.rd f.r1 f.r2 (f.f7.extractLsb' 0 1))
  | 0b100101#6 => .ok (.vmfgeVf f.rd f.r1 f.r2 (f.f7.extractLsb' 0 1))
  | 0b100110#6 => .ok (.vmfordVf f.rd f.r1 f.r2 (f.f7.extractLsb' 0 1))
  | _ => .error .unallocatedFunct

/-- OP-VA category 101, mask and associative (R74). -/
noncomputable def decodeMaskAssoc (f : Fields) : Except DecodeError Instr :=
  match f.f7.extractLsb' 1 6 with
  | 0b000000#6 => .ok (.vsrch f.rd f.r1 f.r2 (f.f7.extractLsb' 0 1))
  | 0b000001#6 => .ok (.vsrng f.rd f.r1 f.r2 (f.f7.extractLsb' 0 1))
  | 0b000010#6 => if f.r1 = 0b00000#5 then .ok (.vcpop f.rd f.r2 (f.f7.extractLsb' 0 1)) else .error .reservedField
  | 0b000011#6 => if f.r1 = 0b00000#5 then .ok (.vfirst f.rd f.r2 (f.f7.extractLsb' 0 1)) else .error .reservedField
  | 0b000100#6 => if f.f7.extractLsb' 0 1 = 0b0#1 then .ok (.vmand f.rd f.r1 f.r2) else .error .reservedField
  | 0b000101#6 => if f.f7.extractLsb' 0 1 = 0b0#1 then .ok (.vmor f.rd f.r1 f.r2) else .error .reservedField
  | 0b000110#6 => if f.f7.extractLsb' 0 1 = 0b0#1 then .ok (.vmxor f.rd f.r1 f.r2) else .error .reservedField
  | 0b000111#6 => if f.f7.extractLsb' 0 1 = 0b0#1 then .ok (.vmandn f.rd f.r1 f.r2) else .error .reservedField
  | 0b001000#6 => if f.f7.extractLsb' 0 1 = 0b0#1 then .ok (.vmnand f.rd f.r1 f.r2) else .error .reservedField
  | 0b001001#6 => if f.f7.extractLsb' 0 1 = 0b0#1 then .ok (.vmnor f.rd f.r1 f.r2) else .error .reservedField
  | 0b001010#6 => if f.f7.extractLsb' 0 1 = 0b0#1 then .ok (.vmorn f.rd f.r1 f.r2) else .error .reservedField
  | 0b001011#6 => if f.f7.extractLsb' 0 1 = 0b0#1 then .ok (.vmxnor f.rd f.r1 f.r2) else .error .reservedField
  | 0b001100#6 => if f.r1 = 0b00000#5 then .ok (.vmsbf f.rd f.r2 (f.f7.extractLsb' 0 1)) else .error .reservedField
  | 0b001101#6 => if f.r1 = 0b00000#5 then .ok (.vmsif f.rd f.r2 (f.f7.extractLsb' 0 1)) else .error .reservedField
  | 0b001110#6 => if f.r1 = 0b00000#5 then .ok (.vmsof f.rd f.r2 (f.f7.extractLsb' 0 1)) else .error .reservedField
  | 0b001111#6 => if f.r1 = 0b00000#5 then .ok (.viota f.rd f.r2 (f.f7.extractLsb' 0 1)) else .error .reservedField
  | 0b010000#6 => if f.r2 = 0b00000#5 ∧ f.r1 = 0b00000#5 then .ok (.vid f.rd (f.f7.extractLsb' 0 1)) else .error .reservedField
  | 0b010001#6 => if f.f7.extractLsb' 0 1 = 0b0#1 then .ok (.vcompress f.rd f.r1 f.r2) else .error .reservedField
  | 0b010010#6 => if f.f7.extractLsb' 0 1 = 0b0#1 ∧ f.r2 = 0b00000#5 then .ok (.vcompi f.rd f.r1) else .error .reservedField
  | 0b010011#6 => .ok (.vtopk f.rd f.r1 f.r2 (f.f7.extractLsb' 0 1))
  | 0b010100#6 => .ok (.vlut f.rd f.r1 f.r2 (f.f7.extractLsb' 0 1))
  | 0b010101#6 => .ok (.vbfly f.rd f.r1 f.r2 (f.f7.extractLsb' 0 1))
  | 0b010110#6 => if f.f7.extractLsb' 0 1 = 0b0#1 then .ok (.vhad f.rd f.r1 f.r2) else .error .reservedField
  | 0b010111#6 => if f.f7.extractLsb' 0 1 = 0b0#1 then .ok (.vxchg f.rd f.r1 f.r2) else .error .reservedField
  | 0b011000#6 => .ok (.vslideup f.rd f.r1 f.r2 (f.f7.extractLsb' 0 1))
  | 0b011001#6 => .ok (.vslidedown f.rd f.r1 f.r2 (f.f7.extractLsb' 0 1))
  | 0b011010#6 => .ok (.vrgather f.rd f.r1 f.r2 (f.f7.extractLsb' 0 1))
  | 0b011011#6 => .ok (.vredsum f.rd f.r1 f.r2 (f.f7.extractLsb' 0 1))
  | 0b011100#6 => .ok (.vredmax f.rd f.r1 f.r2 (f.f7.extractLsb' 0 1))
  | 0b011101#6 => .ok (.vredmin f.rd f.r1 f.r2 (f.f7.extractLsb' 0 1))
  | 0b011110#6 => .ok (.vredmaxu f.rd f.r1 f.r2 (f.f7.extractLsb' 0 1))
  | 0b011111#6 => .ok (.vredminu f.rd f.r1 f.r2 (f.f7.extractLsb' 0 1))
  | 0b100000#6 => .ok (.vfredsum f.rd f.r1 f.r2 (f.f7.extractLsb' 0 1))
  | 0b100001#6 => .ok (.vfredosum f.rd f.r1 f.r2 (f.f7.extractLsb' 0 1))
  | 0b100010#6 => .ok (.vfredmax f.rd f.r1 f.r2 (f.f7.extractLsb' 0 1))
  | 0b100011#6 => .ok (.vfredmin f.rd f.r1 f.r2 (f.f7.extractLsb' 0 1))
  | 0b100101#6 => if f.f7.extractLsb' 0 1 = 0b0#1 ∧ f.r1 = 0b00000#5 then .ok (.vmvxs f.rd f.r2) else .error .reservedField
  | 0b100110#6 => if f.f7.extractLsb' 0 1 = 0b0#1 ∧ f.r2 = 0b00000#5 then .ok (.vmvsx f.rd f.r1) else .error .reservedField
  | _ => .error .unallocatedFunct

/-- OP-VA category 110, scale (R75). -/
noncomputable def decodeScale (f : Fields) : Except DecodeError Instr :=
  match f.f7.extractLsb' 1 6 with
  | 0b000000#6 => if f.r1 = 0b00000#5 then .ok (.qcomp f.rd f.r2 (f.f7.extractLsb' 0 1)) else .error .reservedField
  | 0b000001#6 => .ok (.vquant f.rd f.r1 f.r2 (f.f7.extractLsb' 0 1))
  | 0b000010#6 => if f.r1 = 0b00000#5 then .ok (.vdequant f.rd f.r2 (f.f7.extractLsb' 0 1)) else .error .reservedField
  | 0b000011#6 => if f.f7.extractLsb' 0 1 = 0b0#1 ∧ f.r2 = 0b00000#5 then .ok (.qbind f.rd f.r1) else .error .reservedField
  | 0b000100#6 => if f.f7.extractLsb' 0 1 = 0b0#1 ∧ f.r2 = 0b00000#5 ∧ f.r1 = 0b00000#5 then .ok (.qunbind f.rd) else .error .reservedField
  | 0b000101#6 => if f.f7.extractLsb' 0 1 = 0b0#1 then .ok (.qmul f.rd f.r1 f.r2) else .error .reservedField
  | 0b000110#6 => if f.f7.extractLsb' 0 1 = 0b0#1 then .ok (.qmulx f.rd f.r1 f.r2) else .error .reservedField
  | 0b000111#6 => if f.f7.extractLsb' 0 1 = 0b0#1 then .ok (.qmax f.rd f.r1 f.r2) else .error .reservedField
  | 0b001000#6 => if f.f7.extractLsb' 0 1 = 0b0#1 ∧ f.r1 = 0b00000#5 then .ok (.qrcp f.rd f.r2) else .error .reservedField
  | 0b001001#6 => if f.f7.extractLsb' 0 1 = 0b0#1 ∧ f.r1.extractLsb' 2 3 = 0b000#3 ∧ f.r1.extractLsb' 0 2 ≠ 0b11#2 then .ok (.qcvt f.rd f.r1 f.r2) else .error .reservedField
  | 0b001010#6 => if f.f7.extractLsb' 0 1 = 0b0#1 ∧ f.r1 = 0b00000#5 then .ok (.qmv f.rd f.r2) else .error .reservedField
  | 0b001011#6 => if f.f7.extractLsb' 0 1 = 0b0#1 ∧ f.r2 = 0b00000#5 then .ok (.qtag f.rd f.r1) else .error .reservedField
  | 0b001100#6 => if f.f7.extractLsb' 0 1 = 0b0#1 then .ok (.qbindt f.rd f.r1 f.r2) else .error .reservedField
  | 0b001101#6 => if f.f7.extractLsb' 0 1 = 0b0#1 ∧ f.r2 = 0b00000#5 ∧ f.r1 = 0b00000#5 then .ok (.qunbindt f.rd) else .error .reservedField
  | _ => .error .unallocatedFunct

/-- OP-VM with a width code, mop 000 to 101 (R76). -/
noncomputable def decodeVmWidth (f : Fields) : Except DecodeError Instr :=
  match f.f7.extractLsb' 4 3 with
  | 0b000#3 => if f.r2 = 0b00000#5 ∧ f.f3.extractLsb' 1 2 ≠ 0b11#2 then .ok (.vle f.rd f.r1 (f.f7.extractLsb' 1 3) (f.f7.extractLsb' 0 1) f.f3) else .error .reservedField
  | 0b001#3 => if f.r2 = 0b00000#5 ∧ f.f3.extractLsb' 1 2 ≠ 0b11#2 then .ok (.vse f.rd f.r1 (f.f7.extractLsb' 1 3) (f.f7.extractLsb' 0 1) f.f3) else .error .reservedField
  | 0b010#3 => if f.f3.extractLsb' 1 2 ≠ 0b11#2 then .ok (.vlse f.rd f.r1 f.r2 (f.f7.extractLsb' 1 3) (f.f7.extractLsb' 0 1) f.f3) else .error .reservedField
  | 0b011#3 => if f.f3.extractLsb' 1 2 ≠ 0b11#2 then .ok (.vsse f.rd f.r1 f.r2 (f.f7.extractLsb' 1 3) (f.f7.extractLsb' 0 1) f.f3) else .error .reservedField
  | 0b100#3 => if f.f3.extractLsb' 1 2 ≠ 0b11#2 then .ok (.vlxe f.rd f.r1 f.r2 (f.f7.extractLsb' 1 3) (f.f7.extractLsb' 0 1) f.f3) else .error .reservedField
  | 0b101#3 => if f.f3.extractLsb' 1 2 ≠ 0b11#2 then .ok (.vsxe f.rd f.r1 f.r2 (f.f7.extractLsb' 1 3) (f.f7.extractLsb' 0 1) f.f3) else .error .reservedField
  | _ => .error .unallocatedFunct

/-- OP-VM mop 110, by subop (R76). -/
noncomputable def decodeVmScaled (f : Fields) : Except DecodeError Instr :=
  match f.f3 with
  | 0b000#3 => if f.f7.extractLsb' 0 1 = 0b0#1 then .ok (.vlq f.rd f.r1 f.r2 (f.f7.extractLsb' 1 3)) else .error .reservedField
  | 0b001#3 => if f.f7.extractLsb' 0 1 = 0b0#1 then .ok (.vsq f.rd f.r1 f.r2 (f.f7.extractLsb' 1 3)) else .error .reservedField
  | 0b010#3 => if f.f7.extractLsb' 0 1 = 0b0#1 then .ok (.qld f.rd f.r1 f.r2 (f.f7.extractLsb' 1 3)) else .error .reservedField
  | 0b011#3 => if f.f7.extractLsb' 0 1 = 0b0#1 ∧ f.r2 = 0b00000#5 then .ok (.qst f.rd f.r1 (f.f7.extractLsb' 1 3)) else .error .reservedField
  | 0b100#3 => .ok (.wsrch f.rd f.r1 f.r2 (f.f7.extractLsb' 1 3) (f.f7.extractLsb' 0 1))
  | 0b101#3 => .ok (.wdot f.rd f.r1 f.r2 (f.f7.extractLsb' 1 3) (f.f7.extractLsb' 0 1))
  | 0b110#3 => .ok (.wtopk f.rd f.r1 f.r2 (f.f7.extractLsb' 1 3) (f.f7.extractLsb' 0 1))
  | _ => .error .unallocatedFunct

/-- `vamo`, by atomic op (R76). -/
noncomputable def decodeVamo (f : Fields) : Except DecodeError Instr :=
  match f.f7.extractLsb' 1 3 with
  | 0b000#3 => .ok (.vamoAdd f.rd f.r1 f.r2 (f.f7.extractLsb' 0 1))
  | 0b001#3 => .ok (.vamoAnd f.rd f.r1 f.r2 (f.f7.extractLsb' 0 1))
  | 0b010#3 => .ok (.vamoOr f.rd f.r1 f.r2 (f.f7.extractLsb' 0 1))
  | 0b011#3 => .ok (.vamoXor f.rd f.r1 f.r2 (f.f7.extractLsb' 0 1))
  | 0b100#3 => .ok (.vamoSmin f.rd f.r1 f.r2 (f.f7.extractLsb' 0 1))
  | 0b101#3 => .ok (.vamoSmax f.rd f.r1 f.r2 (f.f7.extractLsb' 0 1))
  | 0b110#3 => .ok (.vamoUmax f.rd f.r1 f.r2 (f.f7.extractLsb' 0 1))
  | 0b111#3 => .ok (.vamoSwap f.rd f.r1 f.r2 (f.f7.extractLsb' 0 1))
  | _ => .error .unallocatedFunct

/-- OP-VM mop 111 subops 001 to 011 (R76). -/
noncomputable def decodeVmAtomic (f : Fields) : Except DecodeError Instr :=
  match f.f3 with
  | 0b001#3 => if f.f7.extractLsb' 1 3 = 0b000#3 then .ok (.vlgl f.rd f.r1 f.r2 (f.f7.extractLsb' 0 1)) else .error .reservedField
  | 0b010#3 => if f.f7.extractLsb' 1 3 = 0b000#3 then .ok (.vssc f.rd f.r1 f.r2 (f.f7.extractLsb' 0 1)) else .error .reservedField
  | 0b011#3 => if f.f7.extractLsb' 1 3 = 0b000#3 ∧ f.r2 = 0b00000#5 then .ok (.vfascan f.rd f.r1 (f.f7.extractLsb' 0 1)) else .error .reservedField
  | _ => .error .unallocatedFunct

/-- OP-EX, by command (R78). -/
noncomputable def decodeEx (f : Fields) : Except DecodeError Instr :=
  match f.f7 with
  | 0b0000001#7 => if f.r2 = 0b00000#5 ∧ f.rd.extractLsb' 1 4 = 0b0000#4 then .ok (.mld f.r1 f.f3 (f.rd.extractLsb' 0 1)) else .error .reservedField
  | 0b0000010#7 => if f.rd.extractLsb' 1 4 = 0b0000#4 then .ok (.mldg f.r1 f.r2 f.f3 (f.rd.extractLsb' 0 1)) else .error .reservedField
  | 0b0000011#7 => if f.r2 = 0b00000#5 ∧ f.r1 = 0b00000#5 ∧ f.rd.extractLsb' 1 4 = 0b0000#4 then .ok (.mflip f.f3 (f.rd.extractLsb' 0 1)) else .error .reservedField
  | 0b0000100#7 => if f.r2 = 0b00000#5 ∧ f.rd.extractLsb' 1 4 = 0b0000#4 then .ok (.mmac f.r1 f.f3 (f.rd.extractLsb' 0 1)) else .error .reservedField
  | 0b0000101#7 => if f.rd.extractLsb' 1 4 = 0b0000#4 then .ok (.mgrp f.r1 f.r2 f.f3 (f.rd.extractLsb' 0 1)) else .error .reservedField
  | 0b0000110#7 => if f.rd.extractLsb' 1 4 = 0b0000#4 then .ok (.mst f.r1 f.r2 f.f3 (f.rd.extractLsb' 0 1)) else .error .reservedField
  | 0b0000111#7 => if f.r2 = 0b00000#5 ∧ f.r1 = 0b00000#5 ∧ f.rd.extractLsb' 1 4 = 0b0000#4 then .ok (.mzero f.f3 (f.rd.extractLsb' 0 1)) else .error .reservedField
  | 0b0001000#7 => if f.r2 = 0b00000#5 ∧ f.rd.extractLsb' 1 4 = 0b0000#4 then .ok (.mtile f.r1 f.f3 (f.rd.extractLsb' 0 1)) else .error .reservedField
  | 0b0100000#7 => if f.r2 = 0b00000#5 ∧ f.rd = 0b00000#5 then .ok (.cpy f.r1 f.f3) else .error .reservedField
  | 0b0100001#7 => if f.r2 = 0b00000#5 ∧ f.rd = 0b00000#5 then .ok (.cpyx f.r1 f.f3) else .error .reservedField
  | 0b0100010#7 => if f.r2 = 0b00000#5 ∧ f.rd = 0b00000#5 then .ok (.cpyf f.r1 f.f3) else .error .reservedField
  | 0b0110000#7 => if f.rd.extractLsb' 1 4 = 0b0000#4 then .ok (.vsend f.r1 f.r2 f.f3 (f.rd.extractLsb' 0 1)) else .error .reservedField
  | 0b0110001#7 => if f.r2 = 0b00000#5 then .ok (.vrecv f.rd f.r1 f.f3) else .error .reservedField
  | 0b0110010#7 => if f.rd = 0b00000#5 then .ok (.msgx f.r1 f.r2 f.f3) else .error .reservedField
  | 0b0111000#7 => if f.rd = 0b00000#5 then .ok (.nmq f.r1 f.r2 f.f3) else .error .reservedField
  | 0b1000000#7 => if f.r2 = 0b00000#5 ∧ f.rd = 0b00000#5 then .ok (.kvsplice f.r1 f.f3) else .error .reservedField
  | 0b1000001#7 => if f.r2 = 0b00000#5 ∧ f.rd = 0b00000#5 then .ok (.kvrepair f.r1 f.f3) else .error .reservedField
  | 0b1000010#7 => if f.r2 = 0b00000#5 ∧ f.rd = 0b00000#5 then .ok (.kvcommit f.r1 f.f3) else .error .reservedField
  | 0b1000011#7 => if f.r2 = 0b00000#5 ∧ f.rd = 0b00000#5 then .ok (.kvseal f.r1 f.f3) else .error .reservedField
  | 0b1000100#7 => if f.r2 = 0b00000#5 ∧ f.rd = 0b00000#5 then .ok (.kvgather f.r1 f.f3) else .error .reservedField
  | 0b1001000#7 => if f.r2 = 0b00000#5 ∧ f.rd = 0b00000#5 then .ok (.gwalk f.r1 f.f3) else .error .reservedField
  | 0b1001001#7 => if f.r2 = 0b00000#5 ∧ f.rd = 0b00000#5 then .ok (.gins f.r1 f.f3) else .error .reservedField
  | 0b1001010#7 => if f.r2 = 0b00000#5 ∧ f.rd = 0b00000#5 then .ok (.gdel f.r1 f.f3) else .error .reservedField
  | _ => .error .unallocatedFunct

/-- OP-CX funct3 010 (R79). -/
noncomputable def decodeCxSet (f : Fields) : Except DecodeError Instr :=
  match f.f7 with
  | 0b0000000#7 => .ok (.vsetvl f.rd f.r1 f.r2)
  | 0b0000001#7 => if f.r2 = 0b00000#5 then .ok (.vsetmt f.rd f.r1) else .error .reservedField
  | _ => .error .unallocatedFunct

/-- OP-CX funct3 101, synchronisation (R80). -/
noncomputable def decodeCxSync (f : Fields) : Except DecodeError Instr :=
  match f.f7 with
  | 0b0000000#7 => if f.r2 = 0b00000#5 ∧ f.r1 = 0b00000#5 ∧ f.rd = 0b00000#5 then .ok .lpbrk else .error .reservedField
  | 0b0000001#7 => if f.r1 = 0b00000#5 then .ok (.lpidx f.rd f.r2) else .error .reservedField
  | 0b0000010#7 => if f.r1 = 0b00000#5 ∧ f.rd = 0b00000#5 then .ok (.tkpost f.r2) else .error .reservedField
  | 0b0000011#7 => if f.r1 = 0b00000#5 ∧ f.rd = 0b00000#5 then .ok (.tkwait f.r2) else .error .reservedField
  | 0b0000100#7 => if f.r2 = 0b00000#5 ∧ f.rd = 0b00000#5 then .ok (.bararv f.r1) else .error .reservedField
  | 0b0000101#7 => if f.r2 = 0b00000#5 ∧ f.rd = 0b00000#5 then .ok (.barwait f.r1) else .error .reservedField
  | 0b0000110#7 => if f.r2 = 0b00000#5 ∧ f.rd = 0b00000#5 then .ok (.barsync f.r1) else .error .reservedField
  | 0b0000111#7 => if f.r2.extractLsb' 4 1 = 0b0#1 ∧ f.rd = 0b00000#5 then .ok (.fenceS (f.r2.extractLsb' 3 1) (f.r2.extractLsb' 2 1) (f.r2.extractLsb' 1 1) (f.r2.extractLsb' 0 1) f.r1) else .error .reservedField
  | 0b0001000#7 => if f.r2 = 0b00000#5 ∧ f.rd = 0b00000#5 then .ok (.publish f.r1) else .error .reservedField
  | 0b0001001#7 => if f.r2 = 0b00000#5 ∧ f.rd = 0b00000#5 then .ok (.pubwait f.r1) else .error .reservedField
  | 0b0001010#7 => if f.r2 = 0b00000#5 ∧ f.r1 = 0b00000#5 ∧ f.rd = 0b00000#5 then .ok .yield else .error .reservedField
  | 0b0001011#7 => if f.r2 = 0b00000#5 ∧ f.r1 = 0b00000#5 ∧ f.rd = 0b00000#5 then .ok .sexit else .error .reservedField
  | _ => .error .unallocatedFunct

/-- OP-CX funct3 110, graph (R80). -/
noncomputable def decodeCxGraph (f : Fields) : Except DecodeError Instr :=
  match f.f7 with
  | 0b0000000#7 => if f.r2 = 0b00000#5 then .ok (.launch f.rd f.r1) else .error .reservedField
  | 0b0000001#7 => .ok (.gsubmit f.rd f.r1 f.r2)
  | 0b0000010#7 => if f.rd = 0b00000#5 then .ok (.cntwait f.r1 f.r2) else .error .reservedField
  | 0b0000011#7 => if f.r2 = 0b00000#5 then .ok (.cntread f.rd f.r1) else .error .reservedField
  | 0b0000100#7 => if f.r2 = 0b00000#5 ∧ f.rd = 0b00000#5 then .ok (.cancel f.r1) else .error .reservedField
  | 0b0000101#7 => if f.r2 = 0b00000#5 ∧ f.rd = 0b00000#5 then .ok (.hpart f.r1) else .error .reservedSystem
  | 0b0000110#7 => if f.r2 = 0b00000#5 then .ok (.cntnew f.rd f.r1) else .error .reservedField
  | _ => .error .unallocatedFunct

/-- OP-CX funct3 111, system (R80). -/
noncomputable def decodeCxSystem (f : Fields) : Except DecodeError Instr :=
  match f.f7 with
  | 0b0000000#7 => if f.r2 = 0b00000#5 ∧ f.r1 = 0b00000#5 ∧ f.rd = 0b00000#5 then .ok .tret else .error .reservedSystem
  | 0b0000001#7 => if f.r2 = 0b00000#5 ∧ f.r1 = 0b00000#5 ∧ f.rd = 0b00000#5 then .ok .idle else .error .reservedSystem
  | 0b0000010#7 => if f.r2 = 0b00000#5 ∧ f.rd = 0b00000#5 then .ok (.ctxsave f.r1) else .error .reservedSystem
  | 0b0000011#7 => if f.r2 = 0b00000#5 ∧ f.rd = 0b00000#5 then .ok (.ctxload f.r1) else .error .reservedSystem
  | 0b0000100#7 => if f.rd = 0b00000#5 then .ok (.tlbinv f.r1 f.r2) else .error .reservedSystem
  | 0b0000101#7 => if f.r2 = 0b00000#5 ∧ f.rd = 0b00000#5 then .ok (.keyinv f.r1) else .error .reservedSystem
  | _ => .error .unallocatedFunct

/-- OP-CX (R79). -/
noncomputable def decodeCx (f : Fields) : Except DecodeError Instr :=
  match f.f3 with
  | 0b000#3 => if f.f7.extractLsb' 6 1 = 0b0#1 then .ok (.vsetvli f.rd f.r1 (f.f7.extractLsb' 0 6 ++ f.r2)) else .error .reservedField
  | 0b001#3 => if f.f7.extractLsb' 6 1 = 0b0#1 then .ok (.vsetivli f.rd (f.f7.extractLsb' 0 6 ++ f.r2) f.r1) else .error .reservedField
  | 0b010#3 => decodeCxSet f
  | 0b011#3 => if f.rd = 0b00000#5 then .ok (.loop f.r1 f.immI) else .error .reservedField
  | 0b100#3 => if f.rd = 0b00000#5 then .ok (.loopi f.immI f.r1) else .error .reservedField
  | 0b101#3 => decodeCxSync f
  | 0b110#3 => decodeCxGraph f
  | 0b111#3 => decodeCxSystem f

/-- MISC-MEM (R69, R100): only `fence`; its rd and rs1 fields are reserved, fm is 0 or 8, and fm 8
with rw, rw is `fence.tso`. -/
def decodeMiscMem (f : Fields) : Except DecodeError Instr :=
  if f.f3 ≠ 0b000#3 then .error .unallocatedFunct
  else if f.rd ≠ 0#5 ∨ f.r1 ≠ 0#5 then .error .reservedField
  else if f.immI = 0b100000110011#12 then .ok .fenceTso
  else if f.immI.extractLsb' 8 4 = 0b0000#4 ∨ f.immI.extractLsb' 8 4 = 0b1000#4 then
    .ok (.fence (f.immI.extractLsb' 8 4) (f.immI.extractLsb' 4 4) (f.immI.extractLsb' 0 4))
  else .error .reservedField

/-- SYSTEM (R69, R101, R102): funct3 000 holds `ecall` and `ebreak`, whose rs1 and rd are reserved. -/
def decodeSystem (f : Fields) : Except DecodeError Instr :=
  if f.f3 = 0b000#3 then
    match f.immI with
    | 0#12 => if f.r1 = 0#5 ∧ f.rd = 0#5 then .ok .ecall else .error .reservedField
    | 1#12 => if f.r1 = 0#5 ∧ f.rd = 0#5 then .ok .ebreak else .error .reservedField
    | _ => .error .unallocatedFunct
  else decodeCsr f

/-- OP-VA, by category (R70). -/
noncomputable def decodeVa (f : Fields) : Except DecodeError Instr :=
  match f.f3 with
  | 0b000#3 => decodeIntVv f
  | 0b001#3 => decodeIntVx f
  | 0b010#3 => decodeIntVi f
  | 0b011#3 => decodeFloatVv f
  | 0b100#3 => decodeFloatVf f
  | 0b101#3 => decodeMaskAssoc f
  | 0b110#3 => decodeScale f
  | _ => .error .unallocatedMajor

/-- OP-VM, by mop and, for mop 111, by subop (R76). -/
noncomputable def decodeVm (f : Fields) : Except DecodeError Instr :=
  match f.f7.extractLsb' 4 3 with
  | 0b110#3 => decodeVmScaled f
  | 0b111#3 => if f.f3 = 0b000#3 then decodeVamo f else decodeVmAtomic f
  | _ => decodeVmWidth f

/-- The fields of a strand word, by major opcode (R67). -/
noncomputable def decodeFields (f : Fields) : Except DecodeError Instr :=
  match f.op with
  | 0b0110111#7 => .ok (.lui f.rd f.immU)
  | 0b0010111#7 => .ok (.auipc f.rd f.immU)
  | 0b1101111#7 => .ok (.jal f.rd f.immJ)
  | 0b1100111#7 => if f.f3 = 0b000#3 then .ok (.jalr f.rd f.r1 f.immI) else .error .unallocatedFunct
  | 0b1100011#7 => decodeBranch f
  | 0b0000011#7 => decodeLoad f
  | 0b0100011#7 => decodeStore f
  | 0b0010011#7 => decodeOpImm f
  | 0b0011011#7 => decodeOpImm32 f
  | 0b0110011#7 => decodeOp f
  | 0b0111011#7 => decodeOp32 f
  | 0b0101111#7 => decodeAmo f
  | 0b0001111#7 => decodeMiscMem f
  | 0b1110011#7 => decodeSystem f
  | 0b0001011#7 => decodeVa f
  | 0b0101011#7 => decodeVm f
  | 0b1011011#7 => decodeEx f
  | 0b1111011#7 => decodeCx f
  | op => if op.extractLsb' 0 2 = 0b11#2 then .error .unallocatedMajor else .error .notOpcode

/-- Decodes the word of a strand instruction (R66). -/
noncomputable def decode (w : Word32) : Except DecodeError Instr := decodeFields (Fields.ofWord w)

/-- A stack-unit word (R81). Every word that names no instruction, or holds a non-zero field shown as 0, is an illegal op. -/
noncomputable def decodeSuFields (f : SuFields) : Except DecodeError Instr :=
  match f.op with
  | 0b000000#6 => if f.b = 0b00000#5 ∧ f.i.extractLsb' 1 10 = 0b0000000000#10 then .ok (.suLd f.d f.a (f.i.extractLsb' 0 1)) else .error .illegalStackOp
  | 0b000001#6 => if f.b = 0b00000#5 ∧ f.i.extractLsb' 1 10 = 0b0000000000#10 then .ok (.suSt f.d f.a (f.i.extractLsb' 0 1)) else .error .illegalStackOp
  | 0b000010#6 => if f.i = 0b00000000000#11 then .ok (.suAdd f.d f.a f.b) else .error .illegalStackOp
  | 0b000011#6 => if f.i = 0b00000000000#11 then .ok (.suSub f.d f.a f.b) else .error .illegalStackOp
  | 0b000100#6 => if f.i = 0b00000000000#11 then .ok (.suMul f.d f.a f.b) else .error .illegalStackOp
  | 0b000101#6 => if f.i = 0b00000000000#11 then .ok (.suFma f.d f.a f.b) else .error .illegalStackOp
  | 0b000110#6 => if f.i = 0b00000000000#11 then .ok (.suFms f.d f.a f.b) else .error .illegalStackOp
  | 0b000111#6 => if f.i = 0b00000000000#11 then .ok (.suMin f.d f.a f.b) else .error .illegalStackOp
  | 0b001000#6 => if f.i = 0b00000000000#11 then .ok (.suMax f.d f.a f.b) else .error .illegalStackOp
  | 0b001001#6 => if f.b = 0b00000#5 ∧ f.i = 0b00000000000#11 then .ok (.suAbs f.d f.a) else .error .illegalStackOp
  | 0b001010#6 => if f.i.extractLsb' 2 9 = 0b000000000#9 then .ok (.suCmp f.d f.a f.b (f.i.extractLsb' 0 2)) else .error .illegalStackOp
  | 0b001011#6 => if f.i.extractLsb' 2 9 = 0b000000000#9 then .ok (.suSel f.d f.a f.b (f.i.extractLsb' 0 2)) else .error .illegalStackOp
  | 0b001100#6 => if f.i = 0b00000000000#11 then .ok (.suAnd f.d f.a f.b) else .error .illegalStackOp
  | 0b001101#6 => if f.i = 0b00000000000#11 then .ok (.suOr f.d f.a f.b) else .error .illegalStackOp
  | 0b001110#6 => if f.i = 0b00000000000#11 then .ok (.suXor f.d f.a f.b) else .error .illegalStackOp
  | 0b001111#6 => if f.b = 0b00000#5 ∧ f.i.extractLsb' 4 7 = 0b0000000#7 then .ok (.suCvt f.d f.a (f.i.extractLsb' 0 4)) else .error .illegalStackOp
  | 0b010000#6 => if f.b = 0b00000#5 ∧ f.i = 0b00000000000#11 then .ok (.suRcp f.d f.a) else .error .illegalStackOp
  | 0b010001#6 => if f.b = 0b00000#5 ∧ f.i = 0b00000000000#11 then .ok (.suRsqrt f.d f.a) else .error .illegalStackOp
  | 0b010010#6 => if f.b = 0b00000#5 ∧ f.i = 0b00000000000#11 then .ok (.suBc f.d f.a) else .error .illegalStackOp
  | 0b010011#6 => if f.b = 0b00000#5 ∧ f.i = 0b00000000000#11 then .ok (.suMov f.d f.a) else .error .illegalStackOp
  | 0b010100#6 => if f.d = 0b00000#5 ∧ f.b = 0b00000#5 then .ok (.suLp1 f.a f.i) else .error .illegalStackOp
  | 0b010101#6 => if f.d = 0b00000#5 ∧ f.b = 0b00000#5 then .ok (.suLp2 f.a f.i) else .error .illegalStackOp
  | 0b010110#6 => if f.b = 0b00000#5 then .ok (.suPadd f.d f.a f.i) else .error .illegalStackOp
  | 0b010111#6 => if f.d = 0b00000#5 ∧ f.a = 0b00000#5 ∧ f.b = 0b00000#5 ∧ f.i = 0b00000000000#11 then .ok .suEnd else .error .illegalStackOp
  | _ => .error .illegalStackOp

/-- Decodes a stack-unit word (R81). -/
noncomputable def decodeSu (w : Word32) : Except DecodeError Instr := decodeSuFields (SuFields.ofWord w)

/-- Decodes a word in either format: a word whose low bits are 11 as a strand word first, any other,
and one that names no strand instruction, as a stack-unit word. Only the host's question about a table
row uses it: a strand never reads the format of R81 and a stack unit never that of R66. -/
noncomputable def decodeAny (w : Word32) : Except DecodeError Instr :=
  if w.extractLsb' 0 2 = 0b11#2 then
    match decode w with
    | .ok i => .ok i
    | .error _ => decodeSu w
  else decodeSu w

/-- The four bytes of a word, the lowest address first (R66, R81). -/
def wordBytes (w : Word32) : List Byte :=
  [w.extractLsb' 0 8, w.extractLsb' 8 8, w.extractLsb' 16 8, w.extractLsb' 24 8]

/-- The word that four bytes hold, little-endian (R66); more or fewer bytes hold none. -/
def wordOfBytes : List Byte → Option Word32
  | [b0, b1, b2, b3] => some (b3 ++ (b2 ++ (b1 ++ b0)))
  | _ => none

/-- The word of an instruction, from the encoding tables of R69 to R81; the events of the device have none. -/
def encode : Instr → Option Word32
  | .lui d i => some (Fields.pack (i.extractLsb' 13 7) (i.extractLsb' 8 5) (i.extractLsb' 3 5) (i.extractLsb' 0 3) d 0b0110111#7)
  | .auipc d i => some (Fields.pack (i.extractLsb' 13 7) (i.extractLsb' 8 5) (i.extractLsb' 3 5) (i.extractLsb' 0 3) d 0b0010111#7)
  | .jal d i => some (Fields.pack (i.extractLsb' 19 1 ++ i.extractLsb' 4 6) (i.extractLsb' 0 4 ++ i.extractLsb' 10 1) (i.extractLsb' 14 5) (i.extractLsb' 11 3) d 0b1101111#7)
  | .jalr d a i => some (Fields.pack (i.extractLsb' 5 7) (i.extractLsb' 0 5) a 0b000#3 d 0b1100111#7)
  | .beq a b i => some (Fields.pack (i.extractLsb' 11 1 ++ i.extractLsb' 4 6) b a 0b000#3 (i.extractLsb' 0 4 ++ i.extractLsb' 10 1) 0b1100011#7)
  | .bne a b i => some (Fields.pack (i.extractLsb' 11 1 ++ i.extractLsb' 4 6) b a 0b001#3 (i.extractLsb' 0 4 ++ i.extractLsb' 10 1) 0b1100011#7)
  | .blt a b i => some (Fields.pack (i.extractLsb' 11 1 ++ i.extractLsb' 4 6) b a 0b100#3 (i.extractLsb' 0 4 ++ i.extractLsb' 10 1) 0b1100011#7)
  | .bge a b i => some (Fields.pack (i.extractLsb' 11 1 ++ i.extractLsb' 4 6) b a 0b101#3 (i.extractLsb' 0 4 ++ i.extractLsb' 10 1) 0b1100011#7)
  | .bltu a b i => some (Fields.pack (i.extractLsb' 11 1 ++ i.extractLsb' 4 6) b a 0b110#3 (i.extractLsb' 0 4 ++ i.extractLsb' 10 1) 0b1100011#7)
  | .bgeu a b i => some (Fields.pack (i.extractLsb' 11 1 ++ i.extractLsb' 4 6) b a 0b111#3 (i.extractLsb' 0 4 ++ i.extractLsb' 10 1) 0b1100011#7)
  | .lb d a i => some (Fields.pack (i.extractLsb' 5 7) (i.extractLsb' 0 5) a 0b000#3 d 0b0000011#7)
  | .lh d a i => some (Fields.pack (i.extractLsb' 5 7) (i.extractLsb' 0 5) a 0b001#3 d 0b0000011#7)
  | .lw d a i => some (Fields.pack (i.extractLsb' 5 7) (i.extractLsb' 0 5) a 0b010#3 d 0b0000011#7)
  | .ld d a i => some (Fields.pack (i.extractLsb' 5 7) (i.extractLsb' 0 5) a 0b011#3 d 0b0000011#7)
  | .lbu d a i => some (Fields.pack (i.extractLsb' 5 7) (i.extractLsb' 0 5) a 0b100#3 d 0b0000011#7)
  | .lhu d a i => some (Fields.pack (i.extractLsb' 5 7) (i.extractLsb' 0 5) a 0b101#3 d 0b0000011#7)
  | .lwu d a i => some (Fields.pack (i.extractLsb' 5 7) (i.extractLsb' 0 5) a 0b110#3 d 0b0000011#7)
  | .sb a b i => some (Fields.pack (i.extractLsb' 5 7) b a 0b000#3 (i.extractLsb' 0 5) 0b0100011#7)
  | .sh a b i => some (Fields.pack (i.extractLsb' 5 7) b a 0b001#3 (i.extractLsb' 0 5) 0b0100011#7)
  | .sw a b i => some (Fields.pack (i.extractLsb' 5 7) b a 0b010#3 (i.extractLsb' 0 5) 0b0100011#7)
  | .sd a b i => some (Fields.pack (i.extractLsb' 5 7) b a 0b011#3 (i.extractLsb' 0 5) 0b0100011#7)
  | .addi d a i => some (Fields.pack (i.extractLsb' 5 7) (i.extractLsb' 0 5) a 0b000#3 d 0b0010011#7)
  | .slti d a i => some (Fields.pack (i.extractLsb' 5 7) (i.extractLsb' 0 5) a 0b010#3 d 0b0010011#7)
  | .sltiu d a i => some (Fields.pack (i.extractLsb' 5 7) (i.extractLsb' 0 5) a 0b011#3 d 0b0010011#7)
  | .xori d a i => some (Fields.pack (i.extractLsb' 5 7) (i.extractLsb' 0 5) a 0b100#3 d 0b0010011#7)
  | .ori d a i => some (Fields.pack (i.extractLsb' 5 7) (i.extractLsb' 0 5) a 0b110#3 d 0b0010011#7)
  | .andi d a i => some (Fields.pack (i.extractLsb' 5 7) (i.extractLsb' 0 5) a 0b111#3 d 0b0010011#7)
  | .slli d a h => some (Fields.pack (0b000000#6 ++ h.extractLsb' 5 1) (h.extractLsb' 0 5) a 0b001#3 d 0b0010011#7)
  | .srli d a h => some (Fields.pack (0b000000#6 ++ h.extractLsb' 5 1) (h.extractLsb' 0 5) a 0b101#3 d 0b0010011#7)
  | .srai d a h => some (Fields.pack (0b010000#6 ++ h.extractLsb' 5 1) (h.extractLsb' 0 5) a 0b101#3 d 0b0010011#7)
  | .add d a b => some (Fields.pack 0b0000000#7 b a 0b000#3 d 0b0110011#7)
  | .sub d a b => some (Fields.pack 0b0100000#7 b a 0b000#3 d 0b0110011#7)
  | .sll d a b => some (Fields.pack 0b0000000#7 b a 0b001#3 d 0b0110011#7)
  | .slt d a b => some (Fields.pack 0b0000000#7 b a 0b010#3 d 0b0110011#7)
  | .sltu d a b => some (Fields.pack 0b0000000#7 b a 0b011#3 d 0b0110011#7)
  | .xor d a b => some (Fields.pack 0b0000000#7 b a 0b100#3 d 0b0110011#7)
  | .srl d a b => some (Fields.pack 0b0000000#7 b a 0b101#3 d 0b0110011#7)
  | .sra d a b => some (Fields.pack 0b0100000#7 b a 0b101#3 d 0b0110011#7)
  | .or d a b => some (Fields.pack 0b0000000#7 b a 0b110#3 d 0b0110011#7)
  | .and d a b => some (Fields.pack 0b0000000#7 b a 0b111#3 d 0b0110011#7)
  | .addiw d a i => some (Fields.pack (i.extractLsb' 5 7) (i.extractLsb' 0 5) a 0b000#3 d 0b0011011#7)
  | .slliw d a h => some (Fields.pack 0b0000000#7 h a 0b001#3 d 0b0011011#7)
  | .srliw d a h => some (Fields.pack 0b0000000#7 h a 0b101#3 d 0b0011011#7)
  | .sraiw d a h => some (Fields.pack 0b0100000#7 h a 0b101#3 d 0b0011011#7)
  | .addw d a b => some (Fields.pack 0b0000000#7 b a 0b000#3 d 0b0111011#7)
  | .subw d a b => some (Fields.pack 0b0100000#7 b a 0b000#3 d 0b0111011#7)
  | .sllw d a b => some (Fields.pack 0b0000000#7 b a 0b001#3 d 0b0111011#7)
  | .srlw d a b => some (Fields.pack 0b0000000#7 b a 0b101#3 d 0b0111011#7)
  | .sraw d a b => some (Fields.pack 0b0100000#7 b a 0b101#3 d 0b0111011#7)
  | .mul d a b => some (Fields.pack 0b0000001#7 b a 0b000#3 d 0b0110011#7)
  | .mulh d a b => some (Fields.pack 0b0000001#7 b a 0b001#3 d 0b0110011#7)
  | .mulhsu d a b => some (Fields.pack 0b0000001#7 b a 0b010#3 d 0b0110011#7)
  | .mulhu d a b => some (Fields.pack 0b0000001#7 b a 0b011#3 d 0b0110011#7)
  | .div d a b => some (Fields.pack 0b0000001#7 b a 0b100#3 d 0b0110011#7)
  | .divu d a b => some (Fields.pack 0b0000001#7 b a 0b101#3 d 0b0110011#7)
  | .rem d a b => some (Fields.pack 0b0000001#7 b a 0b110#3 d 0b0110011#7)
  | .remu d a b => some (Fields.pack 0b0000001#7 b a 0b111#3 d 0b0110011#7)
  | .mulw d a b => some (Fields.pack 0b0000001#7 b a 0b000#3 d 0b0111011#7)
  | .divw d a b => some (Fields.pack 0b0000001#7 b a 0b100#3 d 0b0111011#7)
  | .divuw d a b => some (Fields.pack 0b0000001#7 b a 0b101#3 d 0b0111011#7)
  | .remw d a b => some (Fields.pack 0b0000001#7 b a 0b110#3 d 0b0111011#7)
  | .remuw d a b => some (Fields.pack 0b0000001#7 b a 0b111#3 d 0b0111011#7)
  | .lrW d a q l => some (Fields.pack (0b00010#5 ++ q ++ l) 0b00000#5 a 0b010#3 d 0b0101111#7)
  | .lrD d a q l => some (Fields.pack (0b00010#5 ++ q ++ l) 0b00000#5 a 0b011#3 d 0b0101111#7)
  | .scW d a b q l => some (Fields.pack (0b00011#5 ++ q ++ l) b a 0b010#3 d 0b0101111#7)
  | .scD d a b q l => some (Fields.pack (0b00011#5 ++ q ++ l) b a 0b011#3 d 0b0101111#7)
  | .amoswapW d a b q l => some (Fields.pack (0b00001#5 ++ q ++ l) b a 0b010#3 d 0b0101111#7)
  | .amoaddW d a b q l => some (Fields.pack (0b00000#5 ++ q ++ l) b a 0b010#3 d 0b0101111#7)
  | .amoxorW d a b q l => some (Fields.pack (0b00100#5 ++ q ++ l) b a 0b010#3 d 0b0101111#7)
  | .amoandW d a b q l => some (Fields.pack (0b01100#5 ++ q ++ l) b a 0b010#3 d 0b0101111#7)
  | .amoorW d a b q l => some (Fields.pack (0b01000#5 ++ q ++ l) b a 0b010#3 d 0b0101111#7)
  | .amominW d a b q l => some (Fields.pack (0b10000#5 ++ q ++ l) b a 0b010#3 d 0b0101111#7)
  | .amomaxW d a b q l => some (Fields.pack (0b10100#5 ++ q ++ l) b a 0b010#3 d 0b0101111#7)
  | .amominuW d a b q l => some (Fields.pack (0b11000#5 ++ q ++ l) b a 0b010#3 d 0b0101111#7)
  | .amomaxuW d a b q l => some (Fields.pack (0b11100#5 ++ q ++ l) b a 0b010#3 d 0b0101111#7)
  | .amoswapD d a b q l => some (Fields.pack (0b00001#5 ++ q ++ l) b a 0b011#3 d 0b0101111#7)
  | .amoaddD d a b q l => some (Fields.pack (0b00000#5 ++ q ++ l) b a 0b011#3 d 0b0101111#7)
  | .amoxorD d a b q l => some (Fields.pack (0b00100#5 ++ q ++ l) b a 0b011#3 d 0b0101111#7)
  | .amoandD d a b q l => some (Fields.pack (0b01100#5 ++ q ++ l) b a 0b011#3 d 0b0101111#7)
  | .amoorD d a b q l => some (Fields.pack (0b01000#5 ++ q ++ l) b a 0b011#3 d 0b0101111#7)
  | .amominD d a b q l => some (Fields.pack (0b10000#5 ++ q ++ l) b a 0b011#3 d 0b0101111#7)
  | .amomaxD d a b q l => some (Fields.pack (0b10100#5 ++ q ++ l) b a 0b011#3 d 0b0101111#7)
  | .amominuD d a b q l => some (Fields.pack (0b11000#5 ++ q ++ l) b a 0b011#3 d 0b0101111#7)
  | .amomaxuD d a b q l => some (Fields.pack (0b11100#5 ++ q ++ l) b a 0b011#3 d 0b0101111#7)
  | .fence f p s => some (Fields.pack (f ++ p.extractLsb' 1 3) (p.extractLsb' 0 1 ++ s) 0b00000#5 0b000#3 0b00000#5 0b0001111#7)
  | .fenceTso => some (Fields.pack 0b1000001#7 0b10011#5 0b00000#5 0b000#3 0b00000#5 0b0001111#7)
  | .ecall => some (Fields.pack 0b0000000#7 0b00000#5 0b00000#5 0b000#3 0b00000#5 0b1110011#7)
  | .ebreak => some (Fields.pack 0b0000000#7 0b00001#5 0b00000#5 0b000#3 0b00000#5 0b1110011#7)
  | .csrrw d a c => some (Fields.pack (c.extractLsb' 5 7) (c.extractLsb' 0 5) a 0b001#3 d 0b1110011#7)
  | .csrrs d a c => some (Fields.pack (c.extractLsb' 5 7) (c.extractLsb' 0 5) a 0b010#3 d 0b1110011#7)
  | .csrrc d a c => some (Fields.pack (c.extractLsb' 5 7) (c.extractLsb' 0 5) a 0b011#3 d 0b1110011#7)
  | .csrrwi d c u => some (Fields.pack (c.extractLsb' 5 7) (c.extractLsb' 0 5) u 0b101#3 d 0b1110011#7)
  | .csrrsi d c u => some (Fields.pack (c.extractLsb' 5 7) (c.extractLsb' 0 5) u 0b110#3 d 0b1110011#7)
  | .csrrci d c u => some (Fields.pack (c.extractLsb' 5 7) (c.extractLsb' 0 5) u 0b111#3 d 0b1110011#7)
  | .flagCsrAccess _ _ _ => none
  | .vstartWrite _ => none
  | .vfrmWrite _ => none
  | .dwdataAccess _ _ => none
  | .dwdataiAccess _ _ => none
  | .vaddVv d a b m => some (Fields.pack (0b000000#6 ++ m) b a 0b000#3 d 0b0001011#7)
  | .vaddVx d a b m => some (Fields.pack (0b000000#6 ++ m) b a 0b001#3 d 0b0001011#7)
  | .vaddVi d a b m => some (Fields.pack (0b000000#6 ++ m) b a 0b010#3 d 0b0001011#7)
  | .vsubVv d a b m => some (Fields.pack (0b000001#6 ++ m) b a 0b000#3 d 0b0001011#7)
  | .vsubVx d a b m => some (Fields.pack (0b000001#6 ++ m) b a 0b001#3 d 0b0001011#7)
  | .vrsubVx d a b m => some (Fields.pack (0b000010#6 ++ m) b a 0b001#3 d 0b0001011#7)
  | .vrsubVi d a b m => some (Fields.pack (0b000010#6 ++ m) b a 0b010#3 d 0b0001011#7)
  | .vminuVv d a b m => some (Fields.pack (0b000011#6 ++ m) b a 0b000#3 d 0b0001011#7)
  | .vminuVx d a b m => some (Fields.pack (0b000011#6 ++ m) b a 0b001#3 d 0b0001011#7)
  | .vminVv d a b m => some (Fields.pack (0b000100#6 ++ m) b a 0b000#3 d 0b0001011#7)
  | .vminVx d a b m => some (Fields.pack (0b000100#6 ++ m) b a 0b001#3 d 0b0001011#7)
  | .vmaxuVv d a b m => some (Fields.pack (0b000101#6 ++ m) b a 0b000#3 d 0b0001011#7)
  | .vmaxuVx d a b m => some (Fields.pack (0b000101#6 ++ m) b a 0b001#3 d 0b0001011#7)
  | .vmaxVv d a b m => some (Fields.pack (0b000110#6 ++ m) b a 0b000#3 d 0b0001011#7)
  | .vmaxVx d a b m => some (Fields.pack (0b000110#6 ++ m) b a 0b001#3 d 0b0001011#7)
  | .vandVv d a b m => some (Fields.pack (0b000111#6 ++ m) b a 0b000#3 d 0b0001011#7)
  | .vandVx d a b m => some (Fields.pack (0b000111#6 ++ m) b a 0b001#3 d 0b0001011#7)
  | .vandVi d a b m => some (Fields.pack (0b000111#6 ++ m) b a 0b010#3 d 0b0001011#7)
  | .vorVv d a b m => some (Fields.pack (0b001000#6 ++ m) b a 0b000#3 d 0b0001011#7)
  | .vorVx d a b m => some (Fields.pack (0b001000#6 ++ m) b a 0b001#3 d 0b0001011#7)
  | .vorVi d a b m => some (Fields.pack (0b001000#6 ++ m) b a 0b010#3 d 0b0001011#7)
  | .vxorVv d a b m => some (Fields.pack (0b001001#6 ++ m) b a 0b000#3 d 0b0001011#7)
  | .vxorVx d a b m => some (Fields.pack (0b001001#6 ++ m) b a 0b001#3 d 0b0001011#7)
  | .vxorVi d a b m => some (Fields.pack (0b001001#6 ++ m) b a 0b010#3 d 0b0001011#7)
  | .vsllVv d a b m => some (Fields.pack (0b001010#6 ++ m) b a 0b000#3 d 0b0001011#7)
  | .vsllVx d a b m => some (Fields.pack (0b001010#6 ++ m) b a 0b001#3 d 0b0001011#7)
  | .vsllVi d a b m => some (Fields.pack (0b001010#6 ++ m) b a 0b010#3 d 0b0001011#7)
  | .vsrlVv d a b m => some (Fields.pack (0b001011#6 ++ m) b a 0b000#3 d 0b0001011#7)
  | .vsrlVx d a b m => some (Fields.pack (0b001011#6 ++ m) b a 0b001#3 d 0b0001011#7)
  | .vsrlVi d a b m => some (Fields.pack (0b001011#6 ++ m) b a 0b010#3 d 0b0001011#7)
  | .vsraVv d a b m => some (Fields.pack (0b001100#6 ++ m) b a 0b000#3 d 0b0001011#7)
  | .vsraVx d a b m => some (Fields.pack (0b001100#6 ++ m) b a 0b001#3 d 0b0001011#7)
  | .vsraVi d a b m => some (Fields.pack (0b001100#6 ++ m) b a 0b010#3 d 0b0001011#7)
  | .vmulVv d a b m => some (Fields.pack (0b001101#6 ++ m) b a 0b000#3 d 0b0001011#7)
  | .vmulVx d a b m => some (Fields.pack (0b001101#6 ++ m) b a 0b001#3 d 0b0001011#7)
  | .vmulhVv d a b m => some (Fields.pack (0b001110#6 ++ m) b a 0b000#3 d 0b0001011#7)
  | .vmulhVx d a b m => some (Fields.pack (0b001110#6 ++ m) b a 0b001#3 d 0b0001011#7)
  | .vmulhuVv d a b m => some (Fields.pack (0b001111#6 ++ m) b a 0b000#3 d 0b0001011#7)
  | .vmulhuVx d a b m => some (Fields.pack (0b001111#6 ++ m) b a 0b001#3 d 0b0001011#7)
  | .vdivuVv d a b m => some (Fields.pack (0b010000#6 ++ m) b a 0b000#3 d 0b0001011#7)
  | .vdivuVx d a b m => some (Fields.pack (0b010000#6 ++ m) b a 0b001#3 d 0b0001011#7)
  | .vdivVv d a b m => some (Fields.pack (0b010001#6 ++ m) b a 0b000#3 d 0b0001011#7)
  | .vdivVx d a b m => some (Fields.pack (0b010001#6 ++ m) b a 0b001#3 d 0b0001011#7)
  | .vremuVv d a b m => some (Fields.pack (0b010010#6 ++ m) b a 0b000#3 d 0b0001011#7)
  | .vremuVx d a b m => some (Fields.pack (0b010010#6 ++ m) b a 0b001#3 d 0b0001011#7)
  | .vremVv d a b m => some (Fields.pack (0b010011#6 ++ m) b a 0b000#3 d 0b0001011#7)
  | .vremVx d a b m => some (Fields.pack (0b010011#6 ++ m) b a 0b001#3 d 0b0001011#7)
  | .vmaccVv d a b m => some (Fields.pack (0b010100#6 ++ m) b a 0b000#3 d 0b0001011#7)
  | .vmaccVx d a b m => some (Fields.pack (0b010100#6 ++ m) b a 0b001#3 d 0b0001011#7)
  | .vsadduVv d a b m => some (Fields.pack (0b010101#6 ++ m) b a 0b000#3 d 0b0001011#7)
  | .vsadduVx d a b m => some (Fields.pack (0b010101#6 ++ m) b a 0b001#3 d 0b0001011#7)
  | .vsadduVi d a b m => some (Fields.pack (0b010101#6 ++ m) b a 0b010#3 d 0b0001011#7)
  | .vsaddVv d a b m => some (Fields.pack (0b010110#6 ++ m) b a 0b000#3 d 0b0001011#7)
  | .vsaddVx d a b m => some (Fields.pack (0b010110#6 ++ m) b a 0b001#3 d 0b0001011#7)
  | .vsaddVi d a b m => some (Fields.pack (0b010110#6 ++ m) b a 0b010#3 d 0b0001011#7)
  | .vssubuVv d a b m => some (Fields.pack (0b010111#6 ++ m) b a 0b000#3 d 0b0001011#7)
  | .vssubuVx d a b m => some (Fields.pack (0b010111#6 ++ m) b a 0b001#3 d 0b0001011#7)
  | .vssubVv d a b m => some (Fields.pack (0b011000#6 ++ m) b a 0b000#3 d 0b0001011#7)
  | .vssubVx d a b m => some (Fields.pack (0b011000#6 ++ m) b a 0b001#3 d 0b0001011#7)
  | .vnclipuVv d a b m => some (Fields.pack (0b011001#6 ++ m) b a 0b000#3 d 0b0001011#7)
  | .vnclipuVx d a b m => some (Fields.pack (0b011001#6 ++ m) b a 0b001#3 d 0b0001011#7)
  | .vnclipuVi d a b m => some (Fields.pack (0b011001#6 ++ m) b a 0b010#3 d 0b0001011#7)
  | .vnclipVv d a b m => some (Fields.pack (0b011010#6 ++ m) b a 0b000#3 d 0b0001011#7)
  | .vnclipVx d a b m => some (Fields.pack (0b011010#6 ++ m) b a 0b001#3 d 0b0001011#7)
  | .vnclipVi d a b m => some (Fields.pack (0b011010#6 ++ m) b a 0b010#3 d 0b0001011#7)
  | .vcvti d b m s w => some (Fields.pack (0b011011#6 ++ m) b (s ++ 0b0#1 ++ w) 0b000#3 d 0b0001011#7)
  | .vmergeVv d a b => some (Fields.pack 0b0111001#7 b a 0b000#3 d 0b0001011#7)
  | .vmergeVx d a b => some (Fields.pack 0b0111001#7 b a 0b001#3 d 0b0001011#7)
  | .vmergeVi d a b => some (Fields.pack 0b0111001#7 b a 0b010#3 d 0b0001011#7)
  | .vmvVv d a m => some (Fields.pack (0b011101#6 ++ m) 0b00000#5 a 0b000#3 d 0b0001011#7)
  | .vmvVx d a m => some (Fields.pack (0b011101#6 ++ m) 0b00000#5 a 0b001#3 d 0b0001011#7)
  | .vmvVi d a m => some (Fields.pack (0b011101#6 ++ m) 0b00000#5 a 0b010#3 d 0b0001011#7)
  | .vabs d b m => some (Fields.pack (0b101000#6 ++ m) b 0b00000#5 0b000#3 d 0b0001011#7)
  | .vbcnt d b m => some (Fields.pack (0b101001#6 ++ m) b 0b00000#5 0b000#3 d 0b0001011#7)
  | .vmseqVv d a b m => some (Fields.pack (0b100000#6 ++ m) b a 0b000#3 d 0b0001011#7)
  | .vmseqVx d a b m => some (Fields.pack (0b100000#6 ++ m) b a 0b001#3 d 0b0001011#7)
  | .vmseqVi d a b m => some (Fields.pack (0b100000#6 ++ m) b a 0b010#3 d 0b0001011#7)
  | .vmsneVv d a b m => some (Fields.pack (0b100001#6 ++ m) b a 0b000#3 d 0b0001011#7)
  | .vmsneVx d a b m => some (Fields.pack (0b100001#6 ++ m) b a 0b001#3 d 0b0001011#7)
  | .vmsneVi d a b m => some (Fields.pack (0b100001#6 ++ m) b a 0b010#3 d 0b0001011#7)
  | .vmsltuVv d a b m => some (Fields.pack (0b100010#6 ++ m) b a 0b000#3 d 0b0001011#7)
  | .vmsltuVx d a b m => some (Fields.pack (0b100010#6 ++ m) b a 0b001#3 d 0b0001011#7)
  | .vmsltVv d a b m => some (Fields.pack (0b100011#6 ++ m) b a 0b000#3 d 0b0001011#7)
  | .vmsltVx d a b m => some (Fields.pack (0b100011#6 ++ m) b a 0b001#3 d 0b0001011#7)
  | .vmsleuVv d a b m => some (Fields.pack (0b100100#6 ++ m) b a 0b000#3 d 0b0001011#7)
  | .vmsleuVx d a b m => some (Fields.pack (0b100100#6 ++ m) b a 0b001#3 d 0b0001011#7)
  | .vmsleuVi d a b m => some (Fields.pack (0b100100#6 ++ m) b a 0b010#3 d 0b0001011#7)
  | .vmsleVv d a b m => some (Fields.pack (0b100101#6 ++ m) b a 0b000#3 d 0b0001011#7)
  | .vmsleVx d a b m => some (Fields.pack (0b100101#6 ++ m) b a 0b001#3 d 0b0001011#7)
  | .vmsleVi d a b m => some (Fields.pack (0b100101#6 ++ m) b a 0b010#3 d 0b0001011#7)
  | .vmsgtuVv d a b m => some (Fields.pack (0b100110#6 ++ m) b a 0b000#3 d 0b0001011#7)
  | .vmsgtuVx d a b m => some (Fields.pack (0b100110#6 ++ m) b a 0b001#3 d 0b0001011#7)
  | .vmsgtuVi d a b m => some (Fields.pack (0b100110#6 ++ m) b a 0b010#3 d 0b0001011#7)
  | .vmsgtVv d a b m => some (Fields.pack (0b100111#6 ++ m) b a 0b000#3 d 0b0001011#7)
  | .vmsgtVx d a b m => some (Fields.pack (0b100111#6 ++ m) b a 0b001#3 d 0b0001011#7)
  | .vmsgtVi d a b m => some (Fields.pack (0b100111#6 ++ m) b a 0b010#3 d 0b0001011#7)
  | .vfaddVv d a b m => some (Fields.pack (0b000000#6 ++ m) b a 0b011#3 d 0b0001011#7)
  | .vfaddVf d a b m => some (Fields.pack (0b000000#6 ++ m) b a 0b100#3 d 0b0001011#7)
  | .vfsubVv d a b m => some (Fields.pack (0b000001#6 ++ m) b a 0b011#3 d 0b0001011#7)
  | .vfsubVf d a b m => some (Fields.pack (0b000001#6 ++ m) b a 0b100#3 d 0b0001011#7)
  | .vfrsubVf d a b m => some (Fields.pack (0b000010#6 ++ m) b a 0b100#3 d 0b0001011#7)
  | .vfmulVv d a b m => some (Fields.pack (0b000011#6 ++ m) b a 0b011#3 d 0b0001011#7)
  | .vfmulVf d a b m => some (Fields.pack (0b000011#6 ++ m) b a 0b100#3 d 0b0001011#7)
  | .vfmaccVv d a b m => some (Fields.pack (0b000100#6 ++ m) b a 0b011#3 d 0b0001011#7)
  | .vfmaccVf d a b m => some (Fields.pack (0b000100#6 ++ m) b a 0b100#3 d 0b0001011#7)
  | .vfnmsacVv d a b m => some (Fields.pack (0b000101#6 ++ m) b a 0b011#3 d 0b0001011#7)
  | .vfnmsacVf d a b m => some (Fields.pack (0b000101#6 ++ m) b a 0b100#3 d 0b0001011#7)
  | .vfminVv d a b m => some (Fields.pack (0b000110#6 ++ m) b a 0b011#3 d 0b0001011#7)
  | .vfminVf d a b m => some (Fields.pack (0b000110#6 ++ m) b a 0b100#3 d 0b0001011#7)
  | .vfmaxVv d a b m => some (Fields.pack (0b000111#6 ++ m) b a 0b011#3 d 0b0001011#7)
  | .vfmaxVf d a b m => some (Fields.pack (0b000111#6 ++ m) b a 0b100#3 d 0b0001011#7)
  | .vfsgnjVv d a b m => some (Fields.pack (0b001000#6 ++ m) b a 0b011#3 d 0b0001011#7)
  | .vfsgnjVf d a b m => some (Fields.pack (0b001000#6 ++ m) b a 0b100#3 d 0b0001011#7)
  | .vfsgnjnVv d a b m => some (Fields.pack (0b001001#6 ++ m) b a 0b011#3 d 0b0001011#7)
  | .vfsgnjnVf d a b m => some (Fields.pack (0b001001#6 ++ m) b a 0b100#3 d 0b0001011#7)
  | .vfsgnjxVv d a b m => some (Fields.pack (0b001010#6 ++ m) b a 0b011#3 d 0b0001011#7)
  | .vfsgnjxVf d a b m => some (Fields.pack (0b001010#6 ++ m) b a 0b100#3 d 0b0001011#7)
  | .vfrcp d b m => some (Fields.pack (0b001101#6 ++ m) b 0b00000#5 0b011#3 d 0b0001011#7)
  | .vfrsqrt d b m => some (Fields.pack (0b001110#6 ++ m) b 0b00000#5 0b011#3 d 0b0001011#7)
  | .vfexp2 d b m => some (Fields.pack (0b001111#6 ++ m) b 0b00000#5 0b011#3 d 0b0001011#7)
  | .vfclass d b m => some (Fields.pack (0b010000#6 ++ m) b 0b00000#5 0b011#3 d 0b0001011#7)
  | .vfcvt d b m k => some (Fields.pack (0b010001#6 ++ m) b k 0b011#3 d 0b0001011#7)
  | .vmfeqVv d a b m => some (Fields.pack (0b100000#6 ++ m) b a 0b011#3 d 0b0001011#7)
  | .vmfeqVf d a b m => some (Fields.pack (0b100000#6 ++ m) b a 0b100#3 d 0b0001011#7)
  | .vmfneVv d a b m => some (Fields.pack (0b100001#6 ++ m) b a 0b011#3 d 0b0001011#7)
  | .vmfneVf d a b m => some (Fields.pack (0b100001#6 ++ m) b a 0b100#3 d 0b0001011#7)
  | .vmfltVv d a b m => some (Fields.pack (0b100010#6 ++ m) b a 0b011#3 d 0b0001011#7)
  | .vmfltVf d a b m => some (Fields.pack (0b100010#6 ++ m) b a 0b100#3 d 0b0001011#7)
  | .vmfleVv d a b m => some (Fields.pack (0b100011#6 ++ m) b a 0b011#3 d 0b0001011#7)
  | .vmfleVf d a b m => some (Fields.pack (0b100011#6 ++ m) b a 0b100#3 d 0b0001011#7)
  | .vmfgtVv d a b m => some (Fields.pack (0b100100#6 ++ m) b a 0b011#3 d 0b0001011#7)
  | .vmfgtVf d a b m => some (Fields.pack (0b100100#6 ++ m) b a 0b100#3 d 0b0001011#7)
  | .vmfgeVv d a b m => some (Fields.pack (0b100101#6 ++ m) b a 0b011#3 d 0b0001011#7)
  | .vmfgeVf d a b m => some (Fields.pack (0b100101#6 ++ m) b a 0b100#3 d 0b0001011#7)
  | .vmfordVv d a b m => some (Fields.pack (0b100110#6 ++ m) b a 0b011#3 d 0b0001011#7)
  | .vmfordVf d a b m => some (Fields.pack (0b100110#6 ++ m) b a 0b100#3 d 0b0001011#7)
  | .vsrch d a b m => some (Fields.pack (0b000000#6 ++ m) b a 0b101#3 d 0b0001011#7)
  | .vsrng d a b m => some (Fields.pack (0b000001#6 ++ m) b a 0b101#3 d 0b0001011#7)
  | .vcpop d b m => some (Fields.pack (0b000010#6 ++ m) b 0b00000#5 0b101#3 d 0b0001011#7)
  | .vfirst d b m => some (Fields.pack (0b000011#6 ++ m) b 0b00000#5 0b101#3 d 0b0001011#7)
  | .vmand d a b => some (Fields.pack 0b0001000#7 b a 0b101#3 d 0b0001011#7)
  | .vmor d a b => some (Fields.pack 0b0001010#7 b a 0b101#3 d 0b0001011#7)
  | .vmxor d a b => some (Fields.pack 0b0001100#7 b a 0b101#3 d 0b0001011#7)
  | .vmandn d a b => some (Fields.pack 0b0001110#7 b a 0b101#3 d 0b0001011#7)
  | .vmnand d a b => some (Fields.pack 0b0010000#7 b a 0b101#3 d 0b0001011#7)
  | .vmnor d a b => some (Fields.pack 0b0010010#7 b a 0b101#3 d 0b0001011#7)
  | .vmorn d a b => some (Fields.pack 0b0010100#7 b a 0b101#3 d 0b0001011#7)
  | .vmxnor d a b => some (Fields.pack 0b0010110#7 b a 0b101#3 d 0b0001011#7)
  | .vmsbf d b m => some (Fields.pack (0b001100#6 ++ m) b 0b00000#5 0b101#3 d 0b0001011#7)
  | .vmsif d b m => some (Fields.pack (0b001101#6 ++ m) b 0b00000#5 0b101#3 d 0b0001011#7)
  | .vmsof d b m => some (Fields.pack (0b001110#6 ++ m) b 0b00000#5 0b101#3 d 0b0001011#7)
  | .viota d b m => some (Fields.pack (0b001111#6 ++ m) b 0b00000#5 0b101#3 d 0b0001011#7)
  | .vid d m => some (Fields.pack (0b010000#6 ++ m) 0b00000#5 0b00000#5 0b101#3 d 0b0001011#7)
  | .vcompress d a b => some (Fields.pack 0b0100010#7 b a 0b101#3 d 0b0001011#7)
  | .vcompi d a => some (Fields.pack 0b0100100#7 0b00000#5 a 0b101#3 d 0b0001011#7)
  | .vtopk d a b m => some (Fields.pack (0b010011#6 ++ m) b a 0b101#3 d 0b0001011#7)
  | .vlut d a b m => some (Fields.pack (0b010100#6 ++ m) b a 0b101#3 d 0b0001011#7)
  | .vbfly d a b m => some (Fields.pack (0b010101#6 ++ m) b a 0b101#3 d 0b0001011#7)
  | .vhad d a b => some (Fields.pack 0b0101100#7 b a 0b101#3 d 0b0001011#7)
  | .vxchg d a b => some (Fields.pack 0b0101110#7 b a 0b101#3 d 0b0001011#7)
  | .vslideup d a b m => some (Fields.pack (0b011000#6 ++ m) b a 0b101#3 d 0b0001011#7)
  | .vslidedown d a b m => some (Fields.pack (0b011001#6 ++ m) b a 0b101#3 d 0b0001011#7)
  | .vrgather d a b m => some (Fields.pack (0b011010#6 ++ m) b a 0b101#3 d 0b0001011#7)
  | .vredsum d a b m => some (Fields.pack (0b011011#6 ++ m) b a 0b101#3 d 0b0001011#7)
  | .vredmax d a b m => some (Fields.pack (0b011100#6 ++ m) b a 0b101#3 d 0b0001011#7)
  | .vredmin d a b m => some (Fields.pack (0b011101#6 ++ m) b a 0b101#3 d 0b0001011#7)
  | .vredmaxu d a b m => some (Fields.pack (0b011110#6 ++ m) b a 0b101#3 d 0b0001011#7)
  | .vredminu d a b m => some (Fields.pack (0b011111#6 ++ m) b a 0b101#3 d 0b0001011#7)
  | .vfredsum d a b m => some (Fields.pack (0b100000#6 ++ m) b a 0b101#3 d 0b0001011#7)
  | .vfredosum d a b m => some (Fields.pack (0b100001#6 ++ m) b a 0b101#3 d 0b0001011#7)
  | .vfredmax d a b m => some (Fields.pack (0b100010#6 ++ m) b a 0b101#3 d 0b0001011#7)
  | .vfredmin d a b m => some (Fields.pack (0b100011#6 ++ m) b a 0b101#3 d 0b0001011#7)
  | .vmvxs d b => some (Fields.pack 0b1001010#7 b 0b00000#5 0b101#3 d 0b0001011#7)
  | .vmvsx d a => some (Fields.pack 0b1001100#7 0b00000#5 a 0b101#3 d 0b0001011#7)
  | .qcomp d b m => some (Fields.pack (0b000000#6 ++ m) b 0b00000#5 0b110#3 d 0b0001011#7)
  | .vquant d a b m => some (Fields.pack (0b000001#6 ++ m) b a 0b110#3 d 0b0001011#7)
  | .vdequant d b m => some (Fields.pack (0b000010#6 ++ m) b 0b00000#5 0b110#3 d 0b0001011#7)
  | .qbind d a => some (Fields.pack 0b0000110#7 0b00000#5 a 0b110#3 d 0b0001011#7)
  | .qunbind d => some (Fields.pack 0b0001000#7 0b00000#5 0b00000#5 0b110#3 d 0b0001011#7)
  | .qmul d a b => some (Fields.pack 0b0001010#7 b a 0b110#3 d 0b0001011#7)
  | .qmulx d a b => some (Fields.pack 0b0001100#7 b a 0b110#3 d 0b0001011#7)
  | .qmax d a b => some (Fields.pack 0b0001110#7 b a 0b110#3 d 0b0001011#7)
  | .qrcp d b => some (Fields.pack 0b0010000#7 b 0b00000#5 0b110#3 d 0b0001011#7)
  | .qcvt d a b => some (Fields.pack 0b0010010#7 b a 0b110#3 d 0b0001011#7)
  | .qmv d b => some (Fields.pack 0b0010100#7 b 0b00000#5 0b110#3 d 0b0001011#7)
  | .qtag d a => some (Fields.pack 0b0010110#7 0b00000#5 a 0b110#3 d 0b0001011#7)
  | .qbindt d a b => some (Fields.pack 0b0011000#7 b a 0b110#3 d 0b0001011#7)
  | .qunbindt d => some (Fields.pack 0b0011010#7 0b00000#5 0b00000#5 0b110#3 d 0b0001011#7)
  | .vle d a t m w => some (Fields.pack (0b000#3 ++ t ++ m) 0b00000#5 a w d 0b0101011#7)
  | .vse d a t m w => some (Fields.pack (0b001#3 ++ t ++ m) 0b00000#5 a w d 0b0101011#7)
  | .vlse d a b t m w => some (Fields.pack (0b010#3 ++ t ++ m) b a w d 0b0101011#7)
  | .vsse d a b t m w => some (Fields.pack (0b011#3 ++ t ++ m) b a w d 0b0101011#7)
  | .vlxe d a b t m w => some (Fields.pack (0b100#3 ++ t ++ m) b a w d 0b0101011#7)
  | .vsxe d a b t m w => some (Fields.pack (0b101#3 ++ t ++ m) b a w d 0b0101011#7)
  | .vlq d a b t => some (Fields.pack (0b110#3 ++ t ++ 0b0#1) b a 0b000#3 d 0b0101011#7)
  | .vsq d a b t => some (Fields.pack (0b110#3 ++ t ++ 0b0#1) b a 0b001#3 d 0b0101011#7)
  | .qld d a b t => some (Fields.pack (0b110#3 ++ t ++ 0b0#1) b a 0b010#3 d 0b0101011#7)
  | .qst d a t => some (Fields.pack (0b110#3 ++ t ++ 0b0#1) 0b00000#5 a 0b011#3 d 0b0101011#7)
  | .wsrch d a b t m => some (Fields.pack (0b110#3 ++ t ++ m) b a 0b100#3 d 0b0101011#7)
  | .wdot d a b t m => some (Fields.pack (0b110#3 ++ t ++ m) b a 0b101#3 d 0b0101011#7)
  | .wtopk d a b t m => some (Fields.pack (0b110#3 ++ t ++ m) b a 0b110#3 d 0b0101011#7)
  | .vamoAdd d a b m => some (Fields.pack (0b111000#6 ++ m) b a 0b000#3 d 0b0101011#7)
  | .vamoAnd d a b m => some (Fields.pack (0b111001#6 ++ m) b a 0b000#3 d 0b0101011#7)
  | .vamoOr d a b m => some (Fields.pack (0b111010#6 ++ m) b a 0b000#3 d 0b0101011#7)
  | .vamoXor d a b m => some (Fields.pack (0b111011#6 ++ m) b a 0b000#3 d 0b0101011#7)
  | .vamoSmin d a b m => some (Fields.pack (0b111100#6 ++ m) b a 0b000#3 d 0b0101011#7)
  | .vamoSmax d a b m => some (Fields.pack (0b111101#6 ++ m) b a 0b000#3 d 0b0101011#7)
  | .vamoUmax d a b m => some (Fields.pack (0b111110#6 ++ m) b a 0b000#3 d 0b0101011#7)
  | .vamoSwap d a b m => some (Fields.pack (0b111111#6 ++ m) b a 0b000#3 d 0b0101011#7)
  | .vlgl d a b m => some (Fields.pack (0b111000#6 ++ m) b a 0b001#3 d 0b0101011#7)
  | .vssc d a b m => some (Fields.pack (0b111000#6 ++ m) b a 0b010#3 d 0b0101011#7)
  | .vfascan d a m => some (Fields.pack (0b111000#6 ++ m) 0b00000#5 a 0b011#3 d 0b0101011#7)
  | .mld a t e => some (Fields.pack 0b0000001#7 0b00000#5 a t (0b0000#4 ++ e) 0b1011011#7)
  | .mldg a b t e => some (Fields.pack 0b0000010#7 b a t (0b0000#4 ++ e) 0b1011011#7)
  | .mflip t e => some (Fields.pack 0b0000011#7 0b00000#5 0b00000#5 t (0b0000#4 ++ e) 0b1011011#7)
  | .mmac a t e => some (Fields.pack 0b0000100#7 0b00000#5 a t (0b0000#4 ++ e) 0b1011011#7)
  | .mgrp a b t e => some (Fields.pack 0b0000101#7 b a t (0b0000#4 ++ e) 0b1011011#7)
  | .mst a b t e => some (Fields.pack 0b0000110#7 b a t (0b0000#4 ++ e) 0b1011011#7)
  | .mzero t e => some (Fields.pack 0b0000111#7 0b00000#5 0b00000#5 t (0b0000#4 ++ e) 0b1011011#7)
  | .mtile a t e => some (Fields.pack 0b0001000#7 0b00000#5 a t (0b0000#4 ++ e) 0b1011011#7)
  | .cpy a t => some (Fields.pack 0b0100000#7 0b00000#5 a t 0b00000#5 0b1011011#7)
  | .cpyx a t => some (Fields.pack 0b0100001#7 0b00000#5 a t 0b00000#5 0b1011011#7)
  | .cpyf a t => some (Fields.pack 0b0100010#7 0b00000#5 a t 0b00000#5 0b1011011#7)
  | .vsend a b t m => some (Fields.pack 0b0110000#7 b a t (0b0000#4 ++ m) 0b1011011#7)
  | .vrecv d a t => some (Fields.pack 0b0110001#7 0b00000#5 a t d 0b1011011#7)
  | .msgx a b t => some (Fields.pack 0b0110010#7 b a t 0b00000#5 0b1011011#7)
  | .nmq a b t => some (Fields.pack 0b0111000#7 b a t 0b00000#5 0b1011011#7)
  | .kvsplice a t => some (Fields.pack 0b1000000#7 0b00000#5 a t 0b00000#5 0b1011011#7)
  | .kvrepair a t => some (Fields.pack 0b1000001#7 0b00000#5 a t 0b00000#5 0b1011011#7)
  | .kvcommit a t => some (Fields.pack 0b1000010#7 0b00000#5 a t 0b00000#5 0b1011011#7)
  | .kvseal a t => some (Fields.pack 0b1000011#7 0b00000#5 a t 0b00000#5 0b1011011#7)
  | .kvgather a t => some (Fields.pack 0b1000100#7 0b00000#5 a t 0b00000#5 0b1011011#7)
  | .gwalk a t => some (Fields.pack 0b1001000#7 0b00000#5 a t 0b00000#5 0b1011011#7)
  | .gins a t => some (Fields.pack 0b1001001#7 0b00000#5 a t 0b00000#5 0b1011011#7)
  | .gdel a t => some (Fields.pack 0b1001010#7 0b00000#5 a t 0b00000#5 0b1011011#7)
  | .vsetvli d a i => some (Fields.pack (0b0#1 ++ i.extractLsb' 5 6) (i.extractLsb' 0 5) a 0b000#3 d 0b1111011#7)
  | .vsetivli d i u => some (Fields.pack (0b0#1 ++ i.extractLsb' 5 6) (i.extractLsb' 0 5) u 0b001#3 d 0b1111011#7)
  | .vsetvl d a b => some (Fields.pack 0b0000000#7 b a 0b010#3 d 0b1111011#7)
  | .vsetmt d a => some (Fields.pack 0b0000001#7 0b00000#5 a 0b010#3 d 0b1111011#7)
  | .loop a i => some (Fields.pack (i.extractLsb' 5 7) (i.extractLsb' 0 5) a 0b011#3 0b00000#5 0b1111011#7)
  | .loopi i u => some (Fields.pack (i.extractLsb' 5 7) (i.extractLsb' 0 5) u 0b100#3 0b00000#5 0b1111011#7)
  | .lpbrk => some (Fields.pack 0b0000000#7 0b00000#5 0b00000#5 0b101#3 0b00000#5 0b1111011#7)
  | .lpidx d l => some (Fields.pack 0b0000001#7 l 0b00000#5 0b101#3 d 0b1111011#7)
  | .tkpost q => some (Fields.pack 0b0000010#7 q 0b00000#5 0b101#3 0b00000#5 0b1111011#7)
  | .tkwait q => some (Fields.pack 0b0000011#7 q 0b00000#5 0b101#3 0b00000#5 0b1111011#7)
  | .bararv a => some (Fields.pack 0b0000100#7 0b00000#5 a 0b101#3 0b00000#5 0b1111011#7)
  | .barwait a => some (Fields.pack 0b0000101#7 0b00000#5 a 0b101#3 0b00000#5 0b1111011#7)
  | .barsync a => some (Fields.pack 0b0000110#7 0b00000#5 a 0b101#3 0b00000#5 0b1111011#7)
  | .fenceS i e v s c => some (Fields.pack 0b0000111#7 (0b0#1 ++ i ++ e ++ v ++ s) c 0b101#3 0b00000#5 0b1111011#7)
  | .publish a => some (Fields.pack 0b0001000#7 0b00000#5 a 0b101#3 0b00000#5 0b1111011#7)
  | .pubwait a => some (Fields.pack 0b0001001#7 0b00000#5 a 0b101#3 0b00000#5 0b1111011#7)
  | .yield => some (Fields.pack 0b0001010#7 0b00000#5 0b00000#5 0b101#3 0b00000#5 0b1111011#7)
  | .sexit => some (Fields.pack 0b0001011#7 0b00000#5 0b00000#5 0b101#3 0b00000#5 0b1111011#7)
  | .launch d a => some (Fields.pack 0b0000000#7 0b00000#5 a 0b110#3 d 0b1111011#7)
  | .gsubmit d a b => some (Fields.pack 0b0000001#7 b a 0b110#3 d 0b1111011#7)
  | .cntwait a b => some (Fields.pack 0b0000010#7 b a 0b110#3 0b00000#5 0b1111011#7)
  | .cntread d a => some (Fields.pack 0b0000011#7 0b00000#5 a 0b110#3 d 0b1111011#7)
  | .cancel a => some (Fields.pack 0b0000100#7 0b00000#5 a 0b110#3 0b00000#5 0b1111011#7)
  | .hpart a => some (Fields.pack 0b0000101#7 0b00000#5 a 0b110#3 0b00000#5 0b1111011#7)
  | .cntnew d a => some (Fields.pack 0b0000110#7 0b00000#5 a 0b110#3 d 0b1111011#7)
  | .tret => some (Fields.pack 0b0000000#7 0b00000#5 0b00000#5 0b111#3 0b00000#5 0b1111011#7)
  | .idle => some (Fields.pack 0b0000001#7 0b00000#5 0b00000#5 0b111#3 0b00000#5 0b1111011#7)
  | .ctxsave a => some (Fields.pack 0b0000010#7 0b00000#5 a 0b111#3 0b00000#5 0b1111011#7)
  | .ctxload a => some (Fields.pack 0b0000011#7 0b00000#5 a 0b111#3 0b00000#5 0b1111011#7)
  | .tlbinv a b => some (Fields.pack 0b0000100#7 b a 0b111#3 0b00000#5 0b1111011#7)
  | .keyinv a => some (Fields.pack 0b0000101#7 0b00000#5 a 0b111#3 0b00000#5 0b1111011#7)
  | .suLd d a i => some (SuFields.pack 0b000000#6 d a 0b00000#5 (0b0000000000#10 ++ i))
  | .suSt d a i => some (SuFields.pack 0b000001#6 d a 0b00000#5 (0b0000000000#10 ++ i))
  | .suAdd d a b => some (SuFields.pack 0b000010#6 d a b 0b00000000000#11)
  | .suSub d a b => some (SuFields.pack 0b000011#6 d a b 0b00000000000#11)
  | .suMul d a b => some (SuFields.pack 0b000100#6 d a b 0b00000000000#11)
  | .suFma d a b => some (SuFields.pack 0b000101#6 d a b 0b00000000000#11)
  | .suFms d a b => some (SuFields.pack 0b000110#6 d a b 0b00000000000#11)
  | .suMin d a b => some (SuFields.pack 0b000111#6 d a b 0b00000000000#11)
  | .suMax d a b => some (SuFields.pack 0b001000#6 d a b 0b00000000000#11)
  | .suAbs d a => some (SuFields.pack 0b001001#6 d a 0b00000#5 0b00000000000#11)
  | .suCmp d a b r => some (SuFields.pack 0b001010#6 d a b (0b000000000#9 ++ r))
  | .suSel d a b k => some (SuFields.pack 0b001011#6 d a b (0b000000000#9 ++ k))
  | .suAnd d a b => some (SuFields.pack 0b001100#6 d a b 0b00000000000#11)
  | .suOr d a b => some (SuFields.pack 0b001101#6 d a b 0b00000000000#11)
  | .suXor d a b => some (SuFields.pack 0b001110#6 d a b 0b00000000000#11)
  | .suCvt d a c => some (SuFields.pack 0b001111#6 d a 0b00000#5 (0b0000000#7 ++ c))
  | .suRcp d a => some (SuFields.pack 0b010000#6 d a 0b00000#5 0b00000000000#11)
  | .suRsqrt d a => some (SuFields.pack 0b010001#6 d a 0b00000#5 0b00000000000#11)
  | .suBc d a => some (SuFields.pack 0b010010#6 d a 0b00000#5 0b00000000000#11)
  | .suMov d a => some (SuFields.pack 0b010011#6 d a 0b00000#5 0b00000000000#11)
  | .suLp1 a l => some (SuFields.pack 0b010100#6 0b00000#5 a 0b00000#5 l)
  | .suLp2 a l => some (SuFields.pack 0b010101#6 0b00000#5 a 0b00000#5 l)
  | .suPadd d a i => some (SuFields.pack 0b010110#6 d a 0b00000#5 i)
  | .suEnd => some (SuFields.pack 0b010111#6 0b00000#5 0b00000#5 0b00000#5 0b00000000000#11)
  | .loadProgram _ => none
  | .run _ => none
  | .spill _ => none
  | .contextReschedule _ => none
  | .launchAccept _ => none
  | .graphAccept _ => none
  | .submissionResult => none
  | .jobPacketRead _ => none
  | .jobNextPhase _ => none
  | .phaseNextSubmission _ => none
  | .nodeComplete _ _ => none
  | .readyPoolDispatch _ => none
  | .slotBeginIssue _ => none
  | .readyEntryAge _ => none
  | .timeSliceExpiry _ => none
  | .preemptionRequest _ => none
  | .preemptionStop => none
  | .graceExpiry _ => none
  | .contextSave _ => none
  | .saveComplete _ => none
  | .saveBegin _ => none
  | .saveRestart _ => none
  | .strandRestore _ _ _ => none
  | .arrayWipe _ _ => none
  | .partitionPartApply _ _ => none
  | .strandCancelStop => none
  | .counterIncrement _ => none
  | .stall _ => none
  | .waitEnd => none
  | .feResultWrite => none
  | .tokenPush _ => none
  | .tokenMarkerHead _ => none
  | .commandAccept _ => none
  | .matrixStep _ => none
  | .commandRetire _ _ => none
  | .followOnAccept => none
  | .copyChunk => none
  | .kvStep => none
  | .darnerListWrite _ => none
  | .repairSessionAbandon _ => none
  | .walkerRound => none
  | .resultRound => none
  | .trapTake => none
  | .publishInstallation _ => none
  | .pageWalk _ _ => none
  | .messageAccept _ => none
  | .join _ _ => none
  | .elem _ _ _ => none
  | .accept _ _ => none
  | .busy _ _ => none
  | .leave _ _ => none
  | .elemRetry _ => none
  | .meshCommand _ => none
  | .meshTranslationRequest _ => none
  | .meshTranslationResponse _ => none
  | .meshCompletion _ => none
  | .meshFaultRecord _ => none
  | .meshImageData _ => none
  | .meshCredit _ _ _ => none
  | .bar2Read _ _ _ => none
  | .bar2Write _ _ _ => none
  | .configurationRequest _ _ _ => none
  | .unsupportedRequest _ _ => none
  | .registerWrite _ _ => none
  | .jobQueueDoorbell _ _ => none
  | .alloc => none
  | .erase => none
  | .seal => none
  | .unseal => none
  | .attest => none
  | .debugAuth => none
  | .mailboxResponse => none
  | .contextInvalidate _ => none
  | .contextTeardown _ => none
  | .msixSend _ _ => none
  | .msixUnmask _ => none
  | .halt _ _ => none
  | .resume _ _ => none
  | .strandEndRequest _ => none
  | .traceRingEnable _ => none
  | .tabgidelOpen _ _ _ => none
  | .tabgidelAccess _ _ => none
  | .sample _ => none
  | .traceRecordsLost _ => none
  | .idleWake _ => none
  | .powerLimit _ => none
  | .thermalWarning _ _ => none
  | .thermalCriticalStop _ _ => none
  | .thermalResume => none
  | .backgroundCheck _ _ _ _ => none
  | .errorRecordWrite => none
  | .lastingFault _ _ => none
  | .spareReplacement _ _ => none
  | .spareRemap _ _ => none
  | .arrayWithdraw _ _ => none
  | .dieFence _ => none
  | .linkTraining _ _ _ => none
  | .channelPowerDownRequest _ => none
  | .channelDrainEnd _ => none
  | .channelSpillEnd _ => none
  | .channelWake _ => none
  | .channelRestoreEnd _ => none
  | .checkpointRequest _ => none
  | .checkpointCut => none
  | .checkpointTimeout => none
  | .checkpointRestore _ => none
  | .deviceReset _ _ => none
  | .serviceRelease _ _ => none
  | .deviceReady _ => none
  | .deviceDescriptionUpdate _ _ => none
  | .dutyCycling _ _ => none
  | .temperatureFall _ _ => none
  | .pcieCompletion _ => none
  | .meshOtherKind _ => none
  | .garzarOtherType _ _ => none
  | .unknownOpcode => none
  | .mailboxRequestIgnored _ => none

/-- An instruction of a stack unit's program, in the format of R81; every other one with a word has the format of R66. -/
def Instr.forUnit : Instr → Bool
  | .suLd .. | .suSt .. | .suAdd .. | .suSub .. | .suMul .. | .suFma .. | .suFms .. | .suMin .. | .suMax ..
  | .suAbs .. | .suCmp .. | .suSel .. | .suAnd .. | .suOr .. | .suXor .. | .suCvt .. | .suRcp .. | .suRsqrt ..
  | .suBc .. | .suMov .. | .suLp1 .. | .suLp2 .. | .suPadd .. | .suEnd .. => true
  | _ => false

/-- Reads the instruction whose bits are `w`, numbered from the least significant bit of its first byte. -/
noncomputable def decodeTableWord (nbits w : Nat) : Option Instr :=
  match wordOfBytes (wordBytes (BitVec.ofNat 32 (w % 2 ^ nbits))) with
  | some v =>
    match decodeAny v with
    | .ok i => some i
    | .error _ => none
  | none => none

end Sys2Proof
end

