-- ==== Sys2Proof/Machine/Maps.lean ====
section
/-! DEFINITION. Operations on sparse maps: lists of key and value with rising keys. -/

namespace Sys2Proof.Machine

/-- The value at a key, if one is listed. -/
def smGet {α : Type} : SMap α → Nat → Option α
  | [], _ => none
  | (j, v) :: m, k => if j = k then some v else smGet m k

/-- Lists a value at a key. -/
def smSet {α : Type} : SMap α → Nat → α → SMap α
  | [], k, v => [(k, v)]
  | (j, w) :: m, k, v =>
    if j = k then (k, v) :: m
    else if j < k then (j, w) :: smSet m k v
    else (k, v) :: (j, w) :: m

/-- Takes a key off the list. -/
def smDel {α : Type} : SMap α → Nat → SMap α
  | [], _ => []
  | (j, w) :: m, k => if j = k then smDel m k else (j, w) :: smDel m k

/-- The value at a key of a map whose unlisted keys read as `d`. -/
def smRead {α : Type} (d : α) (m : SMap α) (k : Nat) : α := (smGet m k).getD d

/-- Writes a key of a map whose unlisted keys read as `d`: the entry goes when `d` is written. -/
def smWrite {α : Type} [DecidableEq α] (d : α) (m : SMap α) (k : Nat) (v : α) : SMap α :=
  if v = d then smDel m k else smSet m k v

/-- Writes consecutive keys. -/
def smWriteList {α : Type} [DecidableEq α] (d : α) (m : SMap α) (k : Nat) : List α → SMap α
  | [] => m
  | v :: vs => smWriteList d (smWrite d m k v) (k + 1) vs

/-- Reads n consecutive keys. -/
def smReadList {α : Type} (d : α) (m : SMap α) (k : Nat) : Nat → List α
  | 0 => []
  | n + 1 => smRead d m k :: smReadList d m (k + 1) n

/-- Applies a function to the value of every listed key and lists what it keeps. -/
def smMap {α : Type} [DecidableEq α] (d : α) (f : Nat → α → α) : SMap α → SMap α
  | [] => []
  | (k, v) :: m => if f k v = d then smDel (smMap d f m) k else (k, f k v) :: smMap d f m

/-- The keys rise strictly. -/
def smRising {α : Type} (m : SMap α) : Bool := decide (m.Pairwise fun a b => a.1 < b.1)

/-- The keys rise strictly and no listed value equals what an unlisted key reads as. -/
def smWf {α : Type} [DecidableEq α] (d : α) (m : SMap α) : Bool :=
  smRising m && m.all fun e => e.2 ≠ d

/-- Puts an element in place of the n-th of a list. -/
def listSet {α : Type} : List α → Nat → α → List α
  | [], _, _ => []
  | _ :: xs, 0, y => y :: xs
  | x :: xs, n + 1, y => x :: listSet xs n y

/-- Takes the n-th element out of a list. -/
def listDel {α : Type} : List α → Nat → List α
  | [], _ => []
  | _ :: xs, 0 => xs
  | x :: xs, n + 1 => x :: listDel xs n

/-- Applies a function to the elements that meet a test. -/
def listUpd {α : Type} (p : α → Bool) (f : α → α) (xs : List α) : List α :=
  xs.map fun x => if p x then f x else x

/-- The bytes of a number, the lowest first (R4). -/
def leBytes : (n : Nat) → Nat → List Byte
  | 0, _ => []
  | n + 1, v => BitVec.ofNat 8 v :: leBytes n (v / 256)

/-- The number that bytes hold, the lowest first (R4). -/
def leNat : List Byte → Nat
  | [] => 0
  | b :: bs => b.toNat + 256 * leNat bs

/-- Bits hi down to lo of a number. -/
def natBits (v hi lo : Nat) : Nat := v / 2 ^ lo % 2 ^ (hi + 1 - lo)

/-- A field of bytes as a number: n bytes from an offset. -/
def field (bs : List Byte) (off n : Nat) : Nat := leNat ((bs.drop off).take n)

/-- All bytes of a range are zero. -/
def allZero (bs : List Byte) (off n : Nat) : Bool := ((bs.drop off).take n).all (· = 0)

/-- A number of w bits read as signed. -/
def signed (w v : Nat) : Int := if v % 2 ^ w < 2 ^ (w - 1) then (v % 2 ^ w : Nat) else (v % 2 ^ w : Nat) - 2 ^ w

/-- An integer modulo 2^w. -/
def wrap (w : Nat) (i : Int) : Nat := (i % (2 ^ w : Nat)).toNat

/-- Rounds up to the next integer. -/
def ceilDiv (a b : Nat) : Nat := (a + b - 1) / b

end Sys2Proof.Machine
end

