-- ==== Sys2Proof/Machine/State.lean ====
section
/-! DEFINITION. The state of the machine as plain data: one strand in focus, the other strands, the
engines, the stack units, the hub, memory and the registers that the host sees. The rule that names a
component stands beside it. -/

namespace Sys2Proof.Machine

/-- The five queues of a strand (R33), numbered as R38 codes them. -/
inductive Queue where
  | s | v | m | c | n
  deriving DecidableEq, Repr, Inhabited

/-- The states of a strand (R39). -/
inductive RunState where
  | idle | ready | running | waiting | halted | saving | saved | faulted | exited
  deriving DecidableEq, Repr, Inhabited

/-- Why a strand is halted (R465). -/
inductive HaltReason where
  | none | request | breakpoint | watchpoint | step | ebreak | group
  deriving DecidableEq, Repr, Inhabited

/-- What an instruction waits for, in the wait kinds of R38: a token from one queue to another, or room for one; a
barrier by its pending bit; a register; a count, or the state of a publish set at an address; a message. The last is
every wait that the watchdog does not count. -/
inductive WaitKind where
  | token (src dst : Queue) (room : Bool)
  | barrier (bit : Nat)
  | fe (r : BitVec 5)
  | counter (c n : Nat)
  | publish (addr : Nat)
  | message
  | uncounted
  deriving DecidableEq, Repr, Inhabited

/-- A trap as it is raised (R431): the cause code, tval and telem. -/
structure Trap where
  cause : BitVec 8
  tval : Word
  telem : BitVec 32
  deriving DecidableEq, Repr, Inhabited

/-- A fault that has been reported to the front and not yet taken (R433): the queue it came from, the
place of its instruction in program order, and the element or step it stopped at. -/
structure PendingFault where
  trap : Trap
  queue : Queue
  seq : Nat
  elem : Nat
  deriving DecidableEq, Repr, Inhabited

/-- One entry of the loop stack (R56). -/
structure LoopEntry where
  count : Word
  index : Word
  start : BitVec 48
  stop : BitVec 48
  deriving DecidableEq, Repr, Inhabited

/-- A scale register (R52). -/
structure QReg where
  entries : SMap (BitVec 16)
  fmt : BitVec 2
  len : Nat
  gen : BitVec 12
  deriving DecidableEq, Repr, Inhabited

/-- One entry of the tile-binding table: the 128 bits of R55 and, beside them, the physical pieces (address
and length) of its range that it watches and the virtual pages (address and log2 of the size) that mapped them (R222). -/
structure TileEntry where
  bits : BitVec 128
  pages : List (Nat × Nat)
  maps : List (Nat × Nat)
  deriving DecidableEq, Repr, Inhabited

/-- The lane rows and their poison as an instruction found them, and its first element. -/
structure LaneCopy where
  v : Vector (SMap (BitVec 32)) 32
  poison : Vector (SMap Unit) 32
  start : Nat
  deriving DecidableEq, Repr, Inhabited

/-- An instruction in the V queue with the values that it captured (R106, R435). -/
structure VEntry where
  word : Word32
  popped : Bool
  vl : Nat
  vstart : Nat
  vtype : Word
  mtype : BitVec 2
  csr : BitVec 22
  frm : BitVec 4
  xrm : BitVec 2
  a : Word
  b : Word
  pc : Word
  /-- Its place in program order. -/
  seq : Nat
  /-- All its effects are performed and only the push of its token waits (R35). -/
  done : Bool
  /-- A `vsend` that has been checked and stands at the element in vstart (R309). -/
  begun : Bool
  /-- The lane rows and their poison as the first of its element steps found them (R50, R468). -/
  lanes : Option LaneCopy
  deriving DecidableEq, Repr, Inhabited

/-- A scale value with the format that it is read in (R217). -/
structure ScaleVal where
  fmt : BitVec 2
  bits : BitVec 32
  deriving DecidableEq, Repr, Inhabited

/-- The scales of one operand row (R248): a value per position (or none, for an unscaled row), whether they
apply to each term (μ) or to the sum of a chunk (σ, R165), and the band scale of a KF4 row. -/
structure RowScale where
  mu : Bool
  vals : List ScaleVal
  band : Option ScaleVal
  deriving DecidableEq, Repr, Inhabited

/-- A query of a walker's batch (R365): the visited ids, the candidates and the result set as distance and id in
order, hops, flags, and whether it has stopped. -/
structure WalkQuery where
  visited : List Nat
  cands : List (Int × Nat)
  best : List (Int × Nat)
  hops : Nat
  limit : Bool
  malformed : Bool
  stopped : Bool
  deriving DecidableEq, Repr, Inhabited

/-- The progress that an engine keeps of a command beyond its step index. -/
structure Progress where
  /-- The descriptor and lists as read at acceptance (R249, R298, R302). -/
  desc : List Byte
  list : List Byte
  /-- Addresses and lengths of the pending chunk or step. -/
  pos : List Nat
  /-- Values found by earlier steps, by number. -/
  vals : SMap Word
  /-- The publish set that it has registered with as a writer (R279), or 0. -/
  set : Word
  /-- The tile-binding table and the scale registers as captured at acceptance (R249). -/
  tiles : List TileEntry
  qs : List QReg
  /-- The queries of a search (R365). -/
  walk : List WalkQuery
  deriving DecidableEq, Repr, Inhabited

/-- Nothing kept yet. -/
def Progress.none : Progress :=
  { desc := [], list := [], pos := [], vals := [], set := 0, tiles := [], qs := [], walk := [] }

/-- A command in an M, C or N queue with what it captured (R241, R298, R436). -/
structure CEntry where
  word : Word32
  popped : Bool
  step : Nat
  /-- The copy-complete flag (R436). -/
  copied : Bool
  a : Word
  b : Word
  aux : Word
  mcfg : Word
  seq : Nat
  /-- Its engine or unit has accepted it (R242). -/
  accepted : Bool
  /-- Every step is performed and only its retirement is left. -/
  done : Bool
  /-- The publish set that it has registered with and not yet unregistered (R279). -/
  writer : Option Word
  prog : Progress
  deriving DecidableEq, Repr, Inhabited

/-- The CSRs that a strand holds as words (R62, R456); vl, vtype and mtype stand in the strand, and the
counters and identity registers are computed. -/
structure Csrs where
  vfflags : Word
  vfrm : Word
  vxrm : Word
  vxsat : Word
  vstart : Word
  qcfg : Word
  wcfg : Word
  mcfg : Word
  xfep : Word
  srseed : Word
  kvdev : Word
  kvcfg : Word
  tstatus : Word
  tcause : Word
  tval : Word
  tpc : Word
  tvcp : Word
  tvec : Word
  tscratch : Word
  telem : Word
  tvq : Word
  atp : Word
  racectl : Word
  dwaddr : Word
  deriving DecidableEq, Repr, Inhabited

/-- A result that the scalar front still has to write (R36): an AMO, `cntread` or the answer of the hub. -/
structure PendWrite where
  rd : Reg
  val : Word
  seq : Nat
  deriving DecidableEq, Repr, Inhabited

/-- A PE plane of a matrix engine (R237): weights row-major as k × 256 + n, the type that they were
loaded as (R253), and the scales captured with them. -/
structure Plane where
  typ : Option (BitVec 4)
  w : SMap (BitVec 16)
  scales : List RowScale
  deriving DecidableEq, Repr, Inhabited

/-- A matrix engine (R237). -/
structure MatEngine where
  active : Plane
  shadow : Plane
  /-- Accumulators row-major as m × 256 + n. -/
  acc : SMap (BitVec 32)
  /-- The bobbin: word and step of the command that it runs (R466). -/
  cmd : Word32
  step : Nat
  /-- The ASID of the last strand that used it (R240). -/
  asid : Option (BitVec 12)
  deriving DecidableEq, Repr, Inhabited

/-- A strand: everything that R22 says it owns, and where it runs. -/
structure Strand where
  id : StrandId
  /-- The number of strands of its launch (R27). -/
  count : Nat
  asid : BitVec 12
  /-- Leader hoop and slot (R30). -/
  hoop : Nat
  slot : Nat
  /-- Priority level of its job (R118, R383). -/
  level : Nat
  state : RunState
  /-- The state that a resume returns to (R461). -/
  resumeTo : RunState
  haltReason : HaltReason
  wait : Option WaitKind
  pc : Word
  x : Vector Word 32
  /-- E bits: register n is empty (R36). -/
  empty : BitVec 32
  loops : List LoopEntry
  csr : Csrs
  vl : Nat
  vtype : Word
  mtype : BitVec 2
  /-- A set-length instruction has zeroed the granted rows (R64). -/
  zeroed : Bool
  /-- Field of register n in row ρ (R45 to R47). -/
  v : Vector (SMap (BitVec 32)) 32
  /-- Poisoned fields: register n, row ρ (R440). -/
  vpoison : Vector (SMap Unit) 32
  /-- Binding tags (R53). -/
  tags : Vector (BitVec 32) 32
  q : Vector QReg 32
  tiles : Vector TileEntry 16
  /-- The granted arrays as hoop and array, in the order of R46. -/
  arrays : List (Nat × Nat)
  /-- The follower slots that lend lanes (R31), as hoop and slot. -/
  followers : List (Nat × Nat)
  /-- A reduced grant that the next set-length instruction applies (R105). -/
  pendingGrant : Option (List (Nat × Nat))
  /-- Token counters, from queue × 5 + to queue (R34). -/
  tokens : Vector (BitVec 4) 25
  vq : List VEntry
  mq : List CEntry
  cq : List CEntry
  nq : List CEntry
  /-- The images as they were last dumped, with what an image has no room for (R433). -/
  dumpedV : List VEntry
  dumpedE : List CEntry
  /-- The targets of the tokens that the darner has pushed from C since a save wrote the counters (R352, R396). -/
  lateLists : List Queue
  nextSeq : Nat
  pending : List PendingFault
  fePend : List PendWrite
  /-- The requests to the hub that are not answered (R37), and a halt that waits for their answers. -/
  asked : Nat
  haltWait : Option HaltReason
  /-- LR/SC reservation: the 64-byte granule (R97). -/
  resv : Option Nat
  /-- Lines on which `vlgl` holds a link (R286). -/
  links : SMap Unit
  recvq : List Word
  /-- Barrier pending bits: hoop barriers 0 to 15, launch barrier 16 (R277). -/
  barPending : BitVec 17
  /-- The pcs of `barsync` instructions that have made their arrival and not completed (R277). -/
  barArrived : List Word
  /-- Watchdog counters of the five queues (R38). -/
  waits : Vector Nat 5
  /-- The value of the ac counter at the strand's start: `cycle` counts from it (R62). -/
  startAc : Int
  instret : Nat
  slip : Vector Nat 5
  /-- Counters of the launches and graphs that it submitted and of its free-standing counters (R118, R121). -/
  subs : List Nat
  /-- A cancel or pre-emption has been requested and not reached its point (R42, R391). -/
  cancelled : Bool
  preempt : Bool
  graceOut : Bool
  /-- The last instruction completed an iteration of the innermost loop (R391). -/
  atLoopPoint : Bool
  /-- Issue of the next instruction is not matched by breakpoints (R463). -/
  skipBreak : Bool
  /-- `idle` has been issued; a wake event has been posted (R115). -/
  idling : Bool
  woken : Bool
  /-- Control bits of the slot view: instruction step, element step, step action, armed (R465). -/
  dbgStep : Bool
  dbgElem : Bool
  dbgTrap : Bool
  dbgArmed : Bool
  /-- The queue images as a debugger has edited them while it is Halted (R465). -/
  editImage : Option (List Byte)
  /-- The save area that it holds (R395), where `ctxsave` names it, and the state of the save. -/
  saveArea : Option Word
  /-- The area was named by a `ctxsave` (R400). -/
  saveNamed : Bool
  /-- The next section of the save, 0 before it has begun and 9 when all are written, and the bytes of it that are
  written (R395); the save has stopped (R397). -/
  saveSec : Nat
  saveOff : Nat
  /-- It has stopped, or the record has been written that it cannot begin (R395) or that a Saved strand cannot be
  restored (R398). -/
  saveStop : Bool
  /-- The state of the engines that the save wrote in section 8 (R396), by engine number. -/
  savedEngines : List (Nat × MatEngine)
  /-- A debug halt, or one of its group, arrived while it was Saving (R393, R462). -/
  haltDue : Option HaltReason
  /-- It is Saved and due for restore through the ready pool (R383). -/
  due : Bool
  /-- The ac of the grace that have run (R391), and of its time slice (R386). -/
  graceAc : Nat
  sliceAc : Nat
  /-- It stands for a node command on an engine (R379, R387): graph instance, node index, and whether the node
  has a valid affinity. -/
  node : Option (Nat × Nat × Bool)
  deriving DecidableEq, Repr, Inhabited

/-- A lane entry of a hoop's TLB (R136). -/
structure TlbEntry where
  asid : BitVec 12
  global : Bool
  /-- The virtual page: its base and the log2 of its size. -/
  va : Nat
  bits : Nat
  pa : Nat
  pte : Word
  deriving DecidableEq, Repr, Inhabited

/-- A stream buffer of a hoop (R123): a 4 KiB block of HBM as it stood when a vector load filled it, with the
ASID (R411) and the key slot (R413) of that load: the stored bytes, the keys of their cipher blocks, the poisoned
words. -/
structure StreamBuf where
  block : Nat
  asid : BitVec 12
  key : Nat
  bytes : SMap Byte
  blockKey : SMap Nat
  poison : SMap Unit
  deriving DecidableEq, Repr, Inhabited

/-- The grant of one slot in the hoop partition (R388). -/
structure SlotGrant where
  enabled : Bool
  asid : BitVec 12
  engines : BitVec 2
  sram : BitVec 256
  lanes : BitVec 32
  deriving DecidableEq, Repr, Inhabited

/-- A hoop barrier or a launch barrier (R276, R277). -/
structure Barrier where
  slots : BitVec 8
  asid : BitVec 12
  participants : Nat
  count : Nat
  phase : Bool
  deriving DecidableEq, Repr, Inhabited

/-- The parts of a partition that still wait, and the descriptor that they report to (R390). -/
structure PartWait where
  desc : Word
  asid : BitVec 12
  root : Word
  slots : Vector (Option SlotGrant) 8
  /-- New participant slots and ASID of the barriers whose old participants are still resident. -/
  bars : Vector (Option (BitVec 8 × BitVec 12)) 16
  deriving DecidableEq, Repr, Inhabited

/-- A hoop: its partition, engines, barriers and TLB. -/
structure Hoop where
  grants : Vector SlotGrant 8
  waiting : Option PartWait
  barriers : Vector Barrier 16
  engines : Vector MatEngine 2
  tlb : List TlbEntry
  /-- The TLB banks of 16 entries, by lane block (R136), and the stream buffers (R123). -/
  banks : SMap (List TlbEntry)
  buffers : List StreamBuf
  /-- Arrays that must be wiped before a later grant (R390). -/
  dirty : BitVec 256
  withdrawn : BitVec 256
  /-- Arrays that anchor firmware has retired and no spare has replaced yet (R443). -/
  retired : BitVec 256
  /-- Arrays whose rows are being copied to a spare (R443). -/
  replacing : BitVec 256
  spares : Nat
  duty : BitVec 2
  /-- The requester that each matrix engine, the copy engine and the message unit served last: a slot, or 8 for node
  commands (R33, R387). -/
  served : Vector Nat 4
  /-- The trace records dropped since the last record of type 15 (R474). -/
  lost : Nat
  /-- The ac of the last sampling period (R469). -/
  sampledAt : Nat
  deriving DecidableEq, Repr, Inhabited

/-- A command waiting at or running on a stack unit (R319 to R321). -/
structure SuCmd where
  asid : BitVec 12
  packet : Word
  bytes : List Byte
  root : Word
  /-- The strand or graph node that issued it (R321, R379). -/
  issuer : Option StrandId
  node : Option (Nat × Nat)
  deriving DecidableEq, Repr, Inhabited

/-- Power states of an HBM channel and its unit (R446). -/
inductive Power where
  | active | drain | spill | down | restore
  deriving DecidableEq, Repr, Inhabited

/-- A stack unit (R314), its queue, and where its running command stands (R317). -/
structure StackUnit where
  /-- n0 to n23 lane-major: register × 64 + lane. -/
  n : SMap Word32
  k : Vector (BitVec 64) 4
  p : Vector (BitVec 48) 8
  c : Vector Word32 16
  buf : Vector Word32 96
  owner : Option (BitVec 12)
  queue : List SuCmd
  running : Option SuCmd
  /-- The command has been started: its program or image is loaded and `entry` is the next entry. -/
  started : Bool
  entry : Nat
  /-- The loop levels 1 and 2: first entry of the body, last entry, iterations left, index. -/
  loop1 : Option (Nat × Nat × Nat)
  loop2 : Option (Nat × Nat × Nat)
  idx1 : Nat
  idx2 : Nat
  power : Power
  wake : Bool
  deriving DecidableEq, Repr, Inhabited

/-- What a completion counter counts (R22, R121). -/
inductive ObjKind where
  | launch | graph | phase | job | free
  deriving DecidableEq, Repr, Inhabited

/-- A completion counter (R40): the fields that its word shows, and its object's place in the tree. -/
structure Counter where
  kind : ObjKind
  asid : BitVec 12
  cancelled : Bool
  rejected : Bool
  reason : BitVec 6
  final : Bool
  count : BitVec 32
  expected : Nat
  parent : Option Nat
  /-- The strand that submitted or allocated it (R118, R121). -/
  owner : Option StrandId
  /-- Of a free-standing counter: the counter of its strand's job (R121). -/
  job : Option Nat
  level : Nat
  deriving DecidableEq, Repr, Inhabited

/-- A launch (R22, R24): its packet, once accepted, and its strands. -/
structure Launch where
  counter : Nat
  packet : Word
  accepted : Bool
  bytes : List Byte
  placed : Nat
  /-- The launch barrier assigned to it (R276). -/
  barrier : Option Nat
  affinity : Option Nat
  root : Word
  sysLevel : Bool
  deriving DecidableEq, Repr, Inhabited

/-- A node of a graph instance (R377 to R380). -/
inductive NodeState where
  | blocked | ready | running | finished | complete
  deriving DecidableEq, Repr, Inhabited

/-- An instance of a graph object (R401) with its predecessor counts and patch copy. -/
structure Graph where
  counter : Nat
  addr : Word
  /-- The parameter patch (R382), where there is one. -/
  patchAddr : Option Word
  accepted : Bool
  header : List Byte
  patch : List (Nat × Nat × Word)
  preds : SMap Nat
  nodes : SMap NodeState
  /-- The counter of a LAUNCH node. -/
  children : SMap Nat
  /-- The records of the nodes that have been dispatched, patched, as the dispatch read them (R382, R401). -/
  records : SMap (List Byte)
  root : Word
  deriving DecidableEq, Repr, Inhabited

/-- A phase (R23): its submissions and the next one. -/
structure Phase where
  counter : Nat
  list : List (Word × Word)
  next : Nat
  deriving DecidableEq, Repr, Inhabited

/-- A job (R425): its phases, each a list of graph and patch addresses, and the next one. -/
structure Job where
  counter : Nat
  queue : Nat
  list : List (List (Word × Word))
  next : Nat
  result : Word
  root : Word
  deriving DecidableEq, Repr, Inhabited

/-- An entry of the ready pool (R383): a node of a graph instance, or a strand to restore. -/
structure PoolEntry where
  graph : Nat
  node : Nat
  strand : Option StrandId
  /-- A launch made by a `launch` instruction has no node. -/
  launch : Option Nat
  level : Nat
  job : Nat
  age : Nat
  deriving DecidableEq, Repr, Inhabited

/-- A request to the hub that has not been answered (R117, R121). -/
structure HubReq where
  strand : StrandId
  rd : Reg
  kind : ObjKind
  a : Word
  b : Word
  patched : Bool
  deriving DecidableEq, Repr, Inhabited

/-- A publish set with writers or in state 1 (R279, R281). -/
structure PubSet where
  addr : Word
  asid : BitVec 12
  root : Word
  writers : Nat
  publishing : Bool
  owner : StrandId
  /-- The validated entries: the address of the slot, the new PTE, the VA and the bits of its page (R280). -/
  entries : List (Nat × Nat × Nat × Nat)
  deriving DecidableEq, Repr, Inhabited

/-- An error record before the hub writes it (R447). -/
structure ErrRec where
  typ : Nat
  severity : Nat
  asid : BitVec 12
  unit : Nat
  hoop : Nat
  slot : Nat
  channel : Nat
  array : Nat
  row : Nat
  events : Nat
  pa : Nat
  detail : List Byte
  deriving DecidableEq, Repr, Inhabited

/-- A trace record (R473). -/
structure TraceRec where
  typ : Nat
  hoop : Nat
  slot : Nat
  time : Nat
  payload : Word
  deriving DecidableEq, Repr, Inhabited

/-- A key slot (R409). The key stands as a number of its own for each key drawn, 0 for none. -/
structure KeySlot where
  loaded : Bool
  owner : BitVec 12
  epoch : BitVec 32
  key : Nat
  deriving DecidableEq, Repr, Inhabited

/-- A message that has not been accepted (R308, R330): from, to, payload. -/
structure Msg where
  src : BitVec 16
  dst : BitVec 16
  asid : BitVec 12
  data : List Word
  seq : BitVec 16
  sent : Bool
  busy : Bool
  port : Nat
  refused : Bool
  /-- The strand and queue whose instruction offers it. -/
  sender : StrandId
  queue : Queue
  deriving DecidableEq, Repr, Inhabited

/-- A repair session whose owner the hub tracks (R347, R353). -/
structure Session where
  addr : Word
  asid : BitVec 12
  root : Word
  owner : Option StrandId
  /-- Tokens that wait to be written to the session's list (R352). -/
  pending : List Word
  /-- The physical address of the record, by which commits find their session (R347). -/
  place : Nat
  /-- The publish set that the last commit has published, and its layer (R350). -/
  set : Word
  layer : Nat
  deriving DecidableEq, Repr, Inhabited

/-- An interrupt message that has not been sent (R426): its vector, its data (none: the table's), whether its
pending bit is set, and the HOST node that it belongs to. -/
structure Irq where
  vector : Nat
  data : Option Word32
  pended : Bool
  node : Option (Nat × Nat)
  deriving DecidableEq, Repr, Inhabited

/-- The hub (R40, R377 to R390, R406, R447). -/
structure Hub where
  counters : SMap Counter
  /-- Completions that the hub's arbiter has not yet counted: parent counter, and cancelled (R41, R43). -/
  incs : List (Nat × Bool)
  launches : List Launch
  graphs : List Graph
  phases : List Phase
  jobs : List Job
  ready : List PoolEntry
  /-- Deficits, by level × 4096 + job (R383). -/
  deficits : SMap Nat
  turn : Vector Nat 8
  /-- The quanta of jobs that service firmware has set (R383), the grace and the time slice in ac (R386, R391). -/
  quanta : SMap Nat
  grace : Nat
  slice : Nat
  irqs : List Irq
  reqs : List HubReq
  barriers : SMap Barrier
  sets : List PubSet
  keys : SMap KeySlot
  /-- The number of the next key that the random source draws, and the sealed blobs with their keys (R412). -/
  nextKey : Nat
  sealed : List (List Byte × Nat)
  /-- A mailbox request has been carried out and its response sequence is not yet written (R423). -/
  mailDone : Bool
  /-- Contexts whose valid bit has been cleared and whose entry is still in force (R406). -/
  closing : List (BitVec 12)
  /-- Energy weights that service firmware has changed, as unit × 64 + class, unit 48 for the hub (R472). -/
  weights : SMap (BitVec 16)
  /-- Trace records lost at the port and at the ring since the last record of type 15 (R474). -/
  portLost : Nat
  ringLost : Nat
  epochs : SMap Nat
  records : List ErrRec
  sessions : List Session
  messages : List Msg
  /-- The next sequence number, by source node × 65536 + destination node (R329). -/
  sequences : SMap Nat
  /-- The domain numbers that have joined (R329). -/
  members : List Nat
  /-- Time at which dispatch and reading of job queues stopped (R450). -/
  stopped : Bool
  quiesce : Bool
  thermal : Bool
  stay : Bool
  imageSeq : Nat
  /-- The ac of the request of a checkpoint (R450), and the cancels that wait for its end. -/
  quiescedAt : Nat
  deferred : List Nat
  fenced : BitVec 4
  /-- Dies that are being fenced off (R445). -/
  fencing : BitVec 4
  /-- Contexts descheduled after a stack-unit fault (R323). -/
  descheduled : List (BitVec 12)
  /-- Sliding windows of counted errors: kind code, unit, ac (R442). -/
  errors : List (Nat × Nat × Nat)
  /-- The threshold of each kind of counted error by its code, and its window in ac: service firmware sets them (R442). -/
  errorLimits : Vector (Nat × Nat) 5
  portClosed : Bool
  portAsids : List (BitVec 12)
  measure : Vector (List Byte) 8
  /-- The flits that the flit buffers of a mesh link hold, by link and virtual channel, oldest first (R326). -/
  credits : SMap (List (List Byte))
  /-- Packets and messages discarded and counted (R325, R329). -/
  discarded : Nat
  /-- The device's writes on each port that a completion has marked performed (R264). -/
  pcieDone : Vector Nat 4
  temps : Vector Nat 4
  /-- The 4-byte configuration registers that have been written (R419). -/
  config : SMap Word32
  /-- The requester that the walker of each die served last: nine for each hoop of the die (R33, R387). -/
  walkerServed : Vector Nat 4
  powerRate : Nat
  deriving DecidableEq, Repr, Inhabited

/-- A write or message that left the device through a port: port, kind, address, bytes. A vendor-defined message has the
vendor ID for an address (R327). -/
structure Tlp where
  port : Nat
  kind : Nat
  addr : Nat
  data : List Byte
  deriving DecidableEq, Repr, Inhabited

/-- What service firmware does to the device beside the rows of the opcode table: it sets the grace, the time slice and a
job's quantum (R391, R386, R383) and a threshold with its window in seconds (R442), extends a measurement register (R417),
and writes BAR0 (R420). -/
inductive FirmwareAct where
  | setGrace (ac : Nat)
  | setSlice (ac : Nat)
  | setQuantum (job n : Nat)
  | setErrorLimit (kind : Fin 5) (events seconds : Nat)
  | extend (i : Nat) (data : List Byte)
  | write (off : Nat) (v : Word)
  deriving DecidableEq, Repr

/-- Who takes the next step: the front or the vector side of the strand in focus, a stack unit, a
change of focus to the n-th strand of the pool, an event of the device, the check of a read that finds an error in line l
of HBM, correctable or not, service firmware, a read of 8 bytes of BAR0 by the host, or the passing of time. -/
inductive Turn where
  | front
  | vec
  | unit (u : Nat)
  | focus (n : Nat)
  | ev (i : Instr)
  | line (l : Nat) (bad : Bool)
  | firmware (f : FirmwareAct)
  | hostRead (port off : Nat)
  | pass
  deriving DecidableEq, Repr

/-- Which side of the strand executes the instruction. -/
inductive Actor where
  | front | vec
  deriving DecidableEq, Repr, Inhabited

/-- Memory and the registers on the bus. -/
structure Mem where
  /-- Bytes of HBM (interleaved addresses) and SRAM (window addresses) (R128). -/
  bytes : SMap Byte
  /-- The number of the key under which a cipher block of 16 bytes of HBM was last written (R411). -/
  blockKey : SMap Nat
  /-- Poisoned 8-byte words (R440). -/
  poison : SMap Unit
  /-- Race stamps of SRAM rows, and of HBM lines by context (R291). -/
  stamps : SMap (BitVec 16)
  /-- Dirty 256 KiB pages (R452). -/
  dirty : SMap Unit
  /-- BAR0 (R420): bytes of the description, status, mailbox, tables and debug windows. -/
  bar0 : SMap Byte
  deriving DecidableEq, Repr, Inhabited

/-- A checkpoint image (R451), which lies in the windows of the host: its number, the number of the image it
follows or 0, the serial of its device, the HBM pages that it holds (none: every page), the sealed blobs of the loaded key
slots, the state at the cut, and its signature. -/
structure Image where
  seq : Nat
  base : Nat
  serial : Nat
  pages : Option (List Nat)
  blobs : List (List Byte)
  signature : List Byte
  strand : Strand
  pool : List Strand
  hoops : SMap Hoop
  units : SMap StackUnit
  hub : Hub
  mem : Mem
  deriving DecidableEq, Repr

/-- The whole machine. -/
structure State where
  strand : Strand
  pool : List Strand
  hoops : SMap Hoop
  units : SMap StackUnit
  hub : Hub
  mem : Mem
  /-- What left the device, oldest first: MSI-X messages, Garzar messages, host writes, completions. -/
  out : List Tlp
  trace : List TraceRec
  images : List Image
  /-- The ac since power-on (R3), and the ticks of the 1 GHz timestamp (R13). -/
  ac : Nat
  ns : Nat
  agenda : List Turn
  actor : Actor
  /-- The word that is being executed, and the unit that executes a stack-unit instruction. -/
  fetched : Word32
  curUnit : Nat
  /-- The counter of free values and the counter of steps. -/
  freeCtr : Nat
  tick : Nat
  deriving DecidableEq, Repr

/-- A step that stops the machine. -/
inductive Fault where
  /-- Raised by the step when its agenda names a strand of the pool or a stack unit that does not exist.
  Safe: the spec gives such a turn no meaning. -/
  | noSuchAgent
  deriving DecidableEq, Repr

/-- Why an instruction has no meaning in this model. -/
inductive Refusal where
  /-- Raised by an arm of `exec` whose instruction has no meaning yet. Safe: nothing follows from it. -/
  | notModelled (mnemonic : String)
  deriving DecidableEq, Repr

/-- CSRs at strand start (R62, R64). -/
def Csrs.reset : Csrs where
  vfflags := 0
  vfrm := 0
  vxrm := 0
  vxsat := 0
  vstart := 0
  qcfg := 0
  wcfg := 0
  mcfg := 0
  xfep := 0
  srseed := 0
  kvdev := 0x7F800000#64
  kvcfg := 0
  tstatus := 0
  tcause := 0
  tval := 0
  tpc := 0
  tvcp := 0
  tvec := 0
  tscratch := 0
  telem := 0
  tvq := 0
  atp := 0
  racectl := 0
  dwaddr := 0

/-- A scale register at strand start (R64). -/
def QReg.empty : QReg := { entries := [], fmt := 3, len := 0, gen := 0 }

/-- A strand that has not been placed, with the values that R27, R34 and R64 give a strand's start. -/
def Strand.idle : Strand where
  id := { launch := 0, index := 0 }
  count := 0
  asid := 0
  hoop := 0
  slot := 0
  level := 0
  state := .idle
  resumeTo := .idle
  haltReason := .none
  wait := none
  pc := 0
  x := Vector.replicate 32 0
  empty := 0
  loops := []
  csr := Csrs.reset
  vl := 0
  vtype := 0x8000000000000000#64
  mtype := 0
  zeroed := false
  v := Vector.replicate 32 []
  vpoison := Vector.replicate 32 []
  tags := Vector.replicate 32 0
  q := Vector.replicate 32 QReg.empty
  tiles := Vector.replicate 16 { bits := 0, pages := [], maps := [] }
  arrays := []
  followers := []
  pendingGrant := none
  tokens := Vector.replicate 25 0
  vq := []
  mq := []
  cq := []
  nq := []
  dumpedV := []
  dumpedE := []
  lateLists := []
  nextSeq := 0
  pending := []
  fePend := []
  asked := 0
  haltWait := none
  resv := none
  links := []
  recvq := []
  barPending := 0
  barArrived := []
  waits := Vector.replicate 5 0
  startAc := 0
  instret := 0
  slip := Vector.replicate 5 0
  subs := []
  cancelled := false
  preempt := false
  graceOut := false
  atLoopPoint := false
  skipBreak := false
  idling := false
  woken := false
  dbgStep := false
  dbgElem := false
  dbgTrap := false
  dbgArmed := false
  editImage := none
  saveArea := none
  saveNamed := false
  saveSec := 0
  saveOff := 0
  saveStop := false
  savedEngines := []
  haltDue := none
  due := false
  graceAc := 0
  sliceAc := 0
  node := none

/-- An empty plane: every weight +0, and no type of its own (R237, R253; after `mgrp` and `mtile` too: DESIGN CHOICE, log
99). -/
def Plane.zero : Plane := { typ := none, w := [], scales := [] }

/-- A matrix engine after reset (R237). -/
def MatEngine.reset : MatEngine where
  active := Plane.zero
  shadow := Plane.zero
  acc := []
  cmd := 0
  step := 0
  asid := none

def SlotGrant.none : SlotGrant := { enabled := false, asid := 0, engines := 0, sram := 0, lanes := 0 }

def Barrier.reset : Barrier := { slots := 0, asid := 0, participants := 0, count := 0, phase := false }

/-- A hoop after reset: no partition, eight spares (R421), every TLB empty. -/
def Hoop.reset : Hoop where
  grants := Vector.replicate 8 SlotGrant.none
  waiting := none
  barriers := Vector.replicate 16 Barrier.reset
  engines := Vector.replicate 2 MatEngine.reset
  tlb := []
  banks := []
  buffers := []
  dirty := 0
  withdrawn := 0
  retired := 0
  replacing := 0
  spares := 8
  duty := 0
  served := Vector.replicate 4 8
  lost := 0
  sampledAt := 0

/-- A stack unit after reset (R314). -/
def StackUnit.reset : StackUnit where
  n := []
  k := Vector.replicate 4 0
  p := Vector.replicate 8 0
  c := Vector.replicate 16 0
  buf := Vector.replicate 96 0
  owner := none
  queue := []
  running := none
  started := false
  entry := 0
  loop1 := none
  loop2 := none
  idx1 := 0
  idx2 := 0
  power := .active
  wake := false

/-- A key slot that holds no key. -/
def KeySlot.empty : KeySlot := { loaded := false, owner := 0, epoch := 0, key := 0 }

/-- The hub after reset: nothing submitted, no key loaded, the debug port closed (R455). -/
def Hub.reset : Hub where
  counters := []
  incs := []
  launches := []
  graphs := []
  phases := []
  jobs := []
  ready := []
  deficits := []
  turn := Vector.replicate 8 0
  quanta := []
  grace := 40000
  slice := 8000000
  irqs := []
  reqs := []
  barriers := []
  sets := []
  keys := []
  nextKey := 1
  sealed := []
  mailDone := false
  closing := []
  weights := []
  portLost := 0
  ringLost := 0
  epochs := []
  records := []
  sessions := []
  messages := []
  sequences := []
  members := []
  stopped := false
  quiesce := false
  thermal := false
  stay := false
  imageSeq := 0
  quiescedAt := 0
  deferred := []
  fenced := 0
  fencing := 0
  descheduled := []
  errors := []
  errorLimits := #v[(4, 24 * 3600 * 800000000), (2, 30 * 24 * 3600 * 800000000), (4, 24 * 3600 * 800000000),
    (2, 30 * 24 * 3600 * 800000000), (8, 3600 * 800000000)]
  portClosed := true
  portAsids := []
  measure := Vector.replicate 8 []
  credits := []
  discarded := 0
  pcieDone := Vector.replicate 4 0
  temps := Vector.replicate 4 0
  config := []
  walkerServed := Vector.replicate 4 107
  powerRate := 0

/-- Memory after power-on: nothing listed, and of BAR0 the one reset value that is not zero, n = 8 of
the trace output control (R458). -/
def Mem.reset : Mem :=
  { bytes := [], blockKey := [], poison := [], stamps := [], dirty := [], bar0 := [(0xE00101, 8)] }

/-- The machine right after reset. -/
def State.reset : State where
  strand := Strand.idle
  pool := []
  hoops := []
  units := []
  hub := Hub.reset
  mem := Mem.reset
  out := []
  trace := []
  images := []
  ac := 0
  ns := 0
  agenda := []
  actor := .front
  fetched := 0
  curUnit := 0
  freeCtr := 0
  tick := 0

end Sys2Proof.Machine
end

