-- ==== Sys2Proof/Machine/Access.lean ====
section
/-! DEFINITION. How an instruction's work is written (a state-passing action that may stop), the one
place through which each register is read and written, and the small reads of the hub's tables. -/

namespace Sys2Proof.Machine

/-- Why an action does not complete: it traps, waits (and will be tried again), waits with what it has
done so far kept, meets a breakpoint or
watchpoint that halts, or stops the machine. -/
inductive Stop where
  | trap (t : Trap)
  | wait (k : WaitKind)
  | hold (k : WaitKind)
  | halt (r : HaltReason)
  | fault (f : Fault)
  | refuse (r : Refusal)
  deriving DecidableEq, Repr

/-- Work on the state that may stop; what it changed before it stopped stays changed. -/
abbrev Act (α : Type) := ExceptT Stop (StateM State) α

abbrev Out := Host.Outcome State Fault Refusal

/-- Runs an action from a state. -/
def runAct {α : Type} (m : Act α) (s : State) : Except Stop α × State := m s

def stopWith {α : Type} (r : Stop) : Act α := fun s => (.error r, s)

def raise {α : Type} (cause : BitVec 8) (tval : Nat) : Act α :=
  stopWith (.trap { cause := cause, tval := BitVec.ofNat 64 tval, telem := 0 })

def waitFor {α : Type} (k : WaitKind) : Act α := stopWith (.wait k)

/-- Changes the trap that an action raises: an element or step number is added (R143, R246). -/
def mapTrap {α : Type} (f : Trap → Trap) (m : Act α) : Act α := fun s =>
  match m s with
  | (.error (.trap t), s') => (.error (.trap (f t)), s')
  | r => r

/-- Runs an action and gives its trap as a value. -/
def tryTrap {α : Type} (m : Act α) : Act (Except Trap α) := fun s =>
  match m s with
  | (.ok a, s') => (.ok (.ok a), s')
  | (.error (.trap t), s') => (.ok (.error t), s')
  | (.error r, s') => (.error r, s')

/-- Runs an action and gives its trap or halt as a value. -/
def attempt {α : Type} (m : Act α) : Act (Except Stop α) := fun s =>
  match m s with
  | (.ok a, s') => (.ok (.ok a), s')
  | (.error (.trap t), s') => (.ok (.error (.trap t)), s')
  | (.error (.halt r), s') => (.ok (.error (.halt r)), s')
  | (.error r, s') => (.error r, s')

def getS : Act State := fun s => (.ok s, s)

def modS (f : State → State) : Act Unit := fun s => (.ok (), f s)

def getStrand : Act Strand := fun s => (.ok s.strand, s)

def modStrand (f : Strand → Strand) : Act Unit := modS fun s => { s with strand := f s.strand }

def modHub (f : Hub → Hub) : Act Unit := modS fun s => { s with hub := f s.hub }

def modMem (f : Mem → Mem) : Act Unit := modS fun s => { s with mem := f s.mem }

/-- A value or choice that the spec leaves open. -/
def freeWordM : Act Word := fun s => (.ok (Config.freeWord s.freeCtr), { s with freeCtr := s.freeCtr + 1 })

/-- One of n outcomes, which one the spec leaves open. -/
def pick (n : Nat) : Act Nat := fun s =>
  (.ok (Config.freeChoice s.freeCtr % n), { s with freeCtr := s.freeCtr + 1 })

/-- The trap causes (R438). -/
def causeIll : BitVec 8 := 0x01
def causeBrk : BitVec 8 := 0x02
def causeSys : BitVec 8 := 0x03
def causePf : BitVec 8 := 0x04
def causeAcc : BitVec 8 := 0x05
def causeAlign : BitVec 8 := 0x06
def causeFe : BitVec 8 := 0x07
def causeRace : BitVec 8 := 0x08
def causeStaleq : BitVec 8 := 0x09
def causeStalekv : BitVec 8 := 0x0A
def causeReport : BitVec 8 := 0x0B
def causePoison : BitVec 8 := 0x0C
def causeXdie : BitVec 8 := 0x0D
def causeGrpb : BitVec 8 := 0x0E
def causeKeyiso : BitVec 8 := 0x0F
def causeWatch : BitVec 8 := 0x10
def causeStep : BitVec 8 := 0x11
def causeStall : BitVec 8 := 0x12
def causeCancel : BitVec 8 := 0x14

/-- ILL with a subcode (R68). -/
def ill {α : Type} (subcode : Nat) : Act α := raise causeIll subcode

/-- Raises ILL with the subcode when the condition does not hold. -/
def require (c : Bool) (subcode : Nat) : Act Unit := if c then pure () else ill subcode

/-- x0 reads as zero (R44). -/
def readReg (st : Strand) (r : Reg) : Word := if r = 0 then 0 else st.x.get r.toFin

/-- A write of x0 is ignored (R44). -/
def writeReg (st : Strand) (r : Reg) (v : Word) : Strand :=
  if r = 0 then st else { st with x := st.x.set r.toNat v r.isLt }

/-- x0 is always full (R44). -/
def isEmpty (st : Strand) (r : Reg) : Bool := r ≠ 0 && st.empty.getLsbD r.toNat

def setEmpty (st : Strand) (r : Reg) : Strand :=
  if r = 0 then st else { st with empty := st.empty ||| (1#32 <<< r.toNat) }

def setFull (st : Strand) (r : Reg) : Strand :=
  { st with empty := st.empty &&& ~~~(1#32 <<< r.toNat) }

def getX (r : Reg) : Act Word := fun s => (.ok (readReg s.strand r), s)

def setX (r : Reg) (v : Word) : Act Unit := modStrand fun st => writeReg st r v

/-- A level change reads tstatus [1]: 1 is system level (R62). -/
def sysLevel (st : Strand) : Bool := st.csr.tstatus.getLsbD 1

/-- The number of granted rows (R46). -/
def rg (st : Strand) : Nat := 512 * st.arrays.length

/-- A strand record that stands for a strand: an Idle one is only a free place, and one with a node is a
node command. -/
def isStrand (st : Strand) : Bool := st.state ≠ .idle && st.node.isNone

/-- The strand is in a slot (R39): every state but Idle, Saved and Exited. -/
def resident (st : Strand) : Bool :=
  match st.state with
  | .idle | .saved | .exited => false
  | _ => true

/-- Every strand of the machine, the one in focus first. -/
def allStrands (s : State) : List Strand := (s.strand :: s.pool).filter isStrand

/-- Every strand and node command, the one in focus first. -/
def allAgents (s : State) : List Strand := (s.strand :: s.pool).filter fun t => t.state ≠ .idle

def findStrand (s : State) (i : StrandId) : Option Strand := (allStrands s).find? fun t => t.id = i

/-- Changes every strand record that meets a test. -/
def updStrands (p : Strand → Bool) (f : Strand → Strand) (s : State) : State :=
  { s with strand := if p s.strand then f s.strand else s.strand
           pool := listUpd p f s.pool }

def updStrand (i : StrandId) (f : Strand → Strand) (s : State) : State :=
  updStrands (fun t => isStrand t && t.id = i) f s

/-- The strand that occupies a slot (R308). -/
def strandAt (s : State) (hoop slot : Nat) : Option Strand :=
  (allStrands s).find? fun t => resident t && t.hoop = hoop && t.slot = slot

def hoopOf (s : State) (h : Nat) : Hoop := smRead Hoop.reset s.hoops h

def setHoop (h : Nat) (v : Hoop) (s : State) : State := { s with hoops := smWrite Hoop.reset s.hoops h v }

def modHoop (h : Nat) (f : Hoop → Hoop) : Act Unit := modS fun s => setHoop h (f (hoopOf s h)) s

def unitOf (s : State) (u : Nat) : StackUnit := smRead StackUnit.reset s.units u

def setUnit (u : Nat) (v : StackUnit) (s : State) : State :=
  { s with units := smWrite StackUnit.reset s.units u v }

/-- A queue of commands of a strand. -/
def cmdQueue (st : Strand) : Queue → List CEntry
  | .m => st.mq
  | .c => st.cq
  | .n => st.nq
  | _ => []

def setCmdQueue (st : Strand) (q : Queue) (l : List CEntry) : Strand :=
  match q with
  | .m => { st with mq := l }
  | .c => { st with cq := l }
  | .n => { st with nq := l }
  | _ => st

def Queue.code : Queue → Nat
  | .s => 0
  | .v => 1
  | .m => 2
  | .c => 3
  | .n => 4

def Queue.ofCode : Nat → Option Queue
  | 0 => some .s
  | 1 => some .v
  | 2 => some .m
  | 3 => some .c
  | 4 => some .n
  | _ => none

/-- Bytes of BAR0 as a number (R420). -/
def bar0 (s : State) (off n : Nat) : Nat := leNat (smReadList 0 s.mem.bar0 off n)

def setBar0 (off n v : Nat) (s : State) : State :=
  { s with mem := { s.mem with bar0 := smWriteList 0 s.mem.bar0 off (leBytes n v) } }

/-- Word k of a context table entry (R406). -/
def ctxWord (s : State) (asid k : Nat) : Nat := bar0 s (0x200000 + 32 * asid + 8 * k) 8

/-- The entry is in force: valid, its ASID its index, its reserved fields zero (R406). -/
def ctxValid (s : State) (asid : Nat) : Bool :=
  let w0 := ctxWord s asid 0
  let w1 := ctxWord s asid 1
  let w2 := ctxWord s asid 2
  natBits w0 63 63 = 1 && natBits w0 11 0 = asid && natBits w0 62 52 = 0 && natBits w0 12 12 = 0 &&
  natBits w1 63 33 = 0 && natBits w1 31 31 = 0 && natBits w1 15 10 = 0 &&
  natBits w2 63 52 = 0 && natBits w2 11 0 = 0

def ctxRoot (s : State) (asid : Nat) : Nat := natBits (ctxWord s asid 0) 51 13 * 2 ^ 13

def ctxBaseKey (s : State) (asid : Nat) : Nat := natBits (ctxWord s asid 1) 9 0

def ctxJoined (s : State) (asid : Nat) : Bool := natBits (ctxWord s asid 1) 32 32 = 1

def ctxLevelCap (s : State) (asid : Nat) : Nat := natBits (ctxWord s asid 1) 30 28

def ctxQuota (s : State) (asid : Nat) : Nat := natBits (ctxWord s asid 1) 27 16

def ctxSaveList (s : State) (asid : Nat) : Nat := natBits (ctxWord s asid 2) 51 12 * 2 ^ 12

def ctxDomain (s : State) (asid : Nat) : Nat := natBits (ctxWord s asid 3) 63 48

/-- The trap table entry of an ASID (R408): handler and image base. -/
def trapHandler (s : State) (asid : Nat) : Nat := natBits (bar0 s (0x220000 + 16 * asid) 8) 47 2 * 4

def trapImageBase (s : State) (asid : Nat) : Nat :=
  natBits (bar0 s (0x220000 + 16 * asid + 8) 8) 47 12 * 2 ^ 12

/-- The hoop is present and not fenced off, as the device description says (R421). -/
def hoopPresent (s : State) (h : Nat) : Bool :=
  h < 48 && natBits (bar0 s 0x28 8) h h = 1 && !s.hub.fenced.getLsbD (h / 12)

def keySlot (s : State) (k : Nat) : KeySlot :=
  smRead KeySlot.empty s.hub.keys k

def setKeySlot (k : Nat) (v : KeySlot) (s : State) : State :=
  { s with hub := { s.hub with
      keys := smWrite KeySlot.empty s.hub.keys k v } }

/-- Queues an error record for the hub to write (R447). -/
def addErr (e : ErrRec) (s : State) : State :=
  { s with hub := { s.hub with records := s.hub.records ++ [e] } }

/-- A record of a type with the fields that most records leave as "none". -/
def errRec (typ severity : Nat) (asid : BitVec 12) (detail : List Byte) : ErrRec where
  typ := typ
  severity := severity
  asid := asid
  unit := 0xFF
  hoop := 0xFF
  slot := 0xFF
  channel := 0
  array := 0
  row := 0
  events := 0
  pa := 0
  detail := detail

/-- An interrupt message waits to be sent (R426). -/
def postIrq (v : Nat) (data : Option Word32) (node : Option (Nat × Nat)) (s : State) : State :=
  { s with hub := { s.hub with irqs := s.hub.irqs ++ [{ vector := v, data := data, pended := false, node := node }] } }

/-- Writes the pending bit of a vector (R426). -/
def setPending (v : Nat) (on : Bool) (s : State) : State :=
  let w := bar0 s 0x30800 8
  setBar0 0x30800 8 (if on then w ||| 2 ^ v else w &&& (2 ^ 64 - 1 - 2 ^ v)) s

/-- Messages that will not be sent go, and the pending bit of a vector that no other message keeps (R42, R426). -/
def withdrawIrqs (gone : Irq → Bool) (s : State) : State :=
  let rest := s.hub.irqs.filter fun i => !gone i
  ((s.hub.irqs.filter fun i => gone i && i.pended).filter fun i => !rest.any fun r => r.pended && r.vector = i.vector).foldl
    (init := { s with hub := { s.hub with irqs := rest } }) fun s i => setPending i.vector false s

/-- A cause bit of the status page is set, which sends one message (R422): causes 0, 2 and 4 on the error-record
vector, 1 and 3 on the mailbox vector (R421). -/
def setCause (c : Nat) (s : State) : State :=
  let v := if c = 1 ∨ c = 3 then bar0 s 0x32 1 else bar0 s 0x31 1
  postIrq v none none (setBar0 0x10008 1 (bar0 s 0x10008 1 ||| 2 ^ c) s)

/-- The 64-bit timestamp (R13). -/
def timeNow (s : State) : Word := BitVec.ofNat 64 (Config.timeStart + s.ns)

/-- The context epoch advances (R292). -/
def advanceEpoch (asid : BitVec 12) (s : State) : State :=
  { s with hub := { s.hub with
      epochs := smWrite 0 s.hub.epochs asid.toNat (smRead 0 s.hub.epochs asid.toNat + 1) } }

end Sys2Proof.Machine
end

