-- ==== Sys2Proof/Machine/Memory.lean ====
section
/-! DEFINITION. Memory: the physical map, the bytes and what is kept beside them (keys, poison, race
stamps, dirty pages), translation, and the checked access that every agent goes through. -/

namespace Sys2Proof.Machine

/-- The ranges of the physical map (R128). HBM is named by its interleaved address, SRAM by its GS
offset, MMIO by its BAR0 offset and a window by its number and the offset in it. -/
inductive Region where
  | hbm (a : Nat)
  | sram (gs : Nat)
  | mmio (off : Nat)
  | window (n off : Nat)
  | unmapped
  deriving DecidableEq, Repr

/-- The interleaved address of a channel's local address (R129). -/
def interleave (chan loc : Nat) : Nat := loc / 2 ^ 12 * 2 ^ 20 + chan * 2 ^ 12 + loc % 2 ^ 12

/-- The channel of an interleaved address (R129). -/
def channelOf (a : Nat) : Nat := natBits a 19 12

def regionOf (pa : Nat) : Region :=
  if pa < 2 ^ 39 then .hbm pa
  else if 2 ^ 40 ≤ pa ∧ pa < 2 ^ 40 + 2 ^ 39 then .hbm (interleave (natBits pa 38 31) (natBits pa 30 0))
  else if 2 ^ 41 ≤ pa ∧ pa < 2 ^ 41 + 2 ^ 31 then .sram (pa - 2 ^ 41)
  else if 3 * 2 ^ 40 ≤ pa ∧ pa < 4 * 2 ^ 40 then .mmio (pa - 3 * 2 ^ 40)
  else if 2 ^ 51 ≤ pa ∧ pa < 2 ^ 52 then .window (natBits pa 50 45) (natBits pa 44 0)
  else .unmapped

/-- The one name of a byte of HBM or SRAM: both aliases of R129 give the same. -/
def canonical (pa : Nat) : Nat :=
  match regionOf pa with
  | .hbm a => a
  | _ => pa

/-- The canonical form of memory and of what is kept beside it: keys strictly rising, and no byte, stamp or BAR0 byte
listed that equals what an unlisted one reads as. -/
def Mem.wf (m : Mem) : Bool :=
  smWf 0 m.bytes && smRising m.blockKey && smRising m.poison && smWf 0 m.stamps && smRising m.dirty && smWf 0 m.bar0

/-- The number of the key that a slot holds (R409). -/
def keyName (s : State) (slot : Nat) : Nat := (keySlot s slot).key

/-- A byte of HBM read under a key: of a cipher block of 16 bytes written under another key it is unrelated to what was
written (R410, R411). -/
def keyedByte (m : Mem) (key a : Nat) : Byte :=
  match smGet m.blockKey (a / 16) with
  | some k => if k = key then smRead 0 m.bytes a
      else Config.garbled key k (a / 16) (a % 16) (smReadList 0 m.bytes (a / 16 * 16) 16)
  | none => smRead 0 m.bytes a

/-- Brings a cipher block under a key before bytes of it are written: what the new key reads of it is what the
block then holds. -/
def rekeyBlock (m : Mem) (key block : Nat) : Mem :=
  match smGet m.blockKey block with
  | some k => if k = key then m else
      { m with bytes := smWriteList 0 m.bytes (block * 16)
                 ((List.range 16).map fun o => keyedByte m key (block * 16 + o))
               blockKey := smSet m.blockKey block key }
  | none => { m with blockKey := smSet m.blockKey block key }

/-- The numbers of the units of a size that a range of n bytes touches. -/
def touched (size a n : Nat) : List Nat :=
  if n = 0 then [] else (List.range ((a + n - 1) / size + 1 - a / size)).map (a / size + ·)

/-- A write clears the poison of the words it touches; of a word that it covers in part and that was
poisoned, the other bytes become zero (R440). -/
def clearPoison (m : Mem) (a n : Nat) : Mem :=
  (touched 8 a n).foldl (init := m) fun m w =>
    match smGet m.poison w with
    | none => m
    | some _ =>
      { m with poison := smDel m.poison w
               bytes := (List.range 8).foldl (init := m.bytes) fun b o =>
                 if a ≤ w * 8 + o ∧ w * 8 + o < a + n then b else smDel b (w * 8 + o) }

/-- Some word of the range is poisoned (R440). -/
def isPoisoned (m : Mem) (a n : Nat) : Bool := (touched 8 a n).any fun w => (smGet m.poison w).isSome

/-- Poisons every word that a range touches (R440). -/
def addPoison (m : Mem) (a n : Nat) : Mem :=
  { m with poison := (touched 8 a n).foldl (init := m.poison) fun p w => smSet p w () }

/-- Writes bytes at a canonical address of HBM (with the name of a key) or SRAM (without). -/
def storeBytes (m : Mem) (key : Option Nat) (a : Nat) (bs : List Byte) : Mem :=
  let m1 := match key with
    | some k => (touched 16 a bs.length).foldl (init := m) fun m l => rekeyBlock m k l
    | none => m
  let m2 := clearPoison m1 a bs.length
  { m2 with bytes := smWriteList 0 m2.bytes a bs
            dirty := match key with
              | some _ => (touched (2 ^ 18) a bs.length).foldl (init := m2.dirty) fun d p => smSet d p ()
              | none => m2.dirty }

/-- Reads bytes at a canonical address of HBM (with the name of a key) or SRAM (without). -/
def loadBytes (m : Mem) (key : Option Nat) (a n : Nat) : List Byte :=
  match key with
  | some k => (List.range n).map fun o => keyedByte m k (a + o)
  | none => smReadList 0 m.bytes a n

/-- The bytes of HBM at an interleaved address under a key slot, without a check. -/
def hbmRead (s : State) (slot a n : Nat) : List Byte := loadBytes s.mem (some (keyName s slot)) a n

def hbmWrite (slot a : Nat) (bs : List Byte) (s : State) : State :=
  { s with mem := storeBytes s.mem (some (keyName s slot)) a bs }

/-- Who makes an access: the context and its tables, the level, and for a strand's own side or engine
the strand and its place. `agent` is the code of R448. -/
structure Port where
  asid : BitVec 12
  root : Nat
  sys : Bool
  agent : Nat
  id : Option StrandId
  hoop : Option Nat
  slot : Nat
  /-- Race detection on HBM lines and on SRAM rows (R62). -/
  race : BitVec 2
  /-- The TLB bank that serves an element of an indexed access: hoop and lane block (R136). -/
  bank : Option (Nat × Nat) := none
  deriving DecidableEq, Repr

/-- The accesses of a strand: code 1 its scalar side, 2 its vector side, 3 to 5 its engine commands. -/
def strandPort (st : Strand) (agent : Nat) : Port where
  asid := st.asid
  root := natBits st.csr.atp.toNat 51 13 * 2 ^ 13
  sys := sysLevel st && agent ≤ 2
  agent := agent
  id := some st.id
  hoop := some st.hoop
  slot := st.slot
  race := st.csr.racectl.setWidth 2

/-- The accesses of a context's work that no strand issued. -/
def contextPort (asid : BitVec 12) (root : Nat) (sys : Bool) (agent : Nat) (hoop : Option Nat) : Port where
  asid := asid
  root := root
  sys := sys
  agent := agent
  id := none
  hoop := hoop
  slot := 0
  race := 0

inductive AccKind where
  | load | store | fetch
  deriving DecidableEq, Repr

/-- Where a translation leads: physical address, key slot, whether through a global entry, and for a write through
a translation whose D is clear the VA (R135). -/
structure Place where
  pa : Nat
  key : Nat
  foreign : Bool
  first : Option Nat := none
  deriving DecidableEq, Repr

/-- A write marks every valid tile-binding entry that watches one of its bytes (R222). -/
def markTiles (a n : Nat) (t : Strand) : Strand :=
  if t.tiles.all fun e => e.pages.isEmpty then t else
    { t with tiles := t.tiles.map fun e =>
        if e.bits.getLsbD 48 && e.pages.any (fun (q, k) => q < a + n && a < q + k) then
          { e with bits := e.bits ||| (1 <<< 49) } else e }

/-- Loss of reservations and links by a write (R97, R286): the scalar side of a strand keeps its own
reservation, and every side of a strand its own links. -/
def noteWrite (p : Port) (a n : Nat) (s : State) : State :=
  updStrands (fun _ => true) (fun t0 =>
    let t := markTiles a n t0
    let t1 := match t.resv with
      | some g => if (touched 64 a n).contains g && !(p.agent = 1 && p.id = some t.id) then
          { t with resv := none } else t
      | none => t
    if (p.agent ≤ 2 && p.id = some t.id) || t1.links.isEmpty then t1 else
      { t1 with links := (touched 64 a n).foldl (init := t1.links) fun l k => smDel l k }) s

/-- The key check of R410: the slot is loaded and its owner is the agent's ASID. -/
def keyOk (s : State) (p : Port) (slot : Nat) : Bool :=
  (keySlot s slot).loaded && (keySlot s slot).owner = p.asid

/-- A record of an HBM channel names the channel and its stack (R10, R447). -/
def ErrRec.ofChannel (e : ErrRec) (c : Nat) : ErrRec := { e with channel := c, unit := c / 32 }

/-- A record of a hoop names the hoop and its die (R10, R447). -/
def ErrRec.ofHoop (e : ErrRec) (h : Nat) : ErrRec := if h < 48 then { e with hoop := h, unit := h / 12 } else e

/-- A record of a physical address: of an HBM address with its channel. -/
def ErrRec.atPa (e : ErrRec) (pa : Nat) : ErrRec :=
  match regionOf pa with
  | .hbm a => { e.ofChannel (channelOf a) with pa := pa }
  | _ => { e with pa := pa }

/-- A type 3 error record: poison consumed or carried on (R441, R448). -/
def notePoison (p : Port) (cause : BitVec 8) (pa : Nat) : Act Unit :=
  modS (addErr ({ (errRec 3 1 p.asid [BitVec.ofNat 8 p.agent, cause]).ofHoop (p.hoop.getD 0xFF) with
    slot := if p.id.isSome then p.slot else 0xFF }.atPa pa))

/-- Consumed poison (R441). -/
def raisePoison {α : Type} (p : Port) (pa tval : Nat) : Act α := do
  notePoison p causePoison pa
  raise causePoison tval

/-- The 6688 bytes of a unit's state image (R319). -/
def unitImage (u : StackUnit) : List Byte :=
  ((List.range 1536).map fun i => leBytes 4 (smRead 0 u.n i).toNat).flatten ++
  (u.k.toList.map fun x => leBytes 8 x.toNat).flatten ++ (u.p.toList.map fun x => leBytes 8 x.toNat).flatten ++
  (u.c.toList.map fun x => leBytes 4 x.toNat).flatten ++ (u.buf.toList.map fun x => leBytes 4 x.toNat).flatten

/-- Where a unit's state image is kept: the last 8 KiB of its channel. -/
def spillAddr (c k : Nat) : Nat := interleave c (0x7FFFE000 + 4096 * k)

/-- The spill area is written and read as stored, in its two 4 KiB parts. -/
def writeSpill (c : Nat) (bs : List Byte) (s : State) : State :=
  hbmWrite 0 (spillAddr c 1) (bs.drop 4096) (hbmWrite 0 (spillAddr c 0) (bs.take 4096) s)

def readSpill (c : Nat) (s : State) : List Byte :=
  hbmRead s 0 (spillAddr c 0) 4096 ++ hbmRead s 0 (spillAddr c 1) 2592

/-- A unit from its state image (R319). -/
def unitOfImage (bs : List Byte) (u : StackUnit) : StackUnit :=
  let n := (List.range 1536).foldl (init := ([] : SMap Word32)) fun m i =>
    smWrite 0 m i (BitVec.ofNat 32 (field bs (4 * i) 4))
  { u with n := n
           k := Vector.ofFn fun i => BitVec.ofNat 64 (field bs (6144 + 8 * i.val) 8)
           p := Vector.ofFn fun i => BitVec.ofNat 48 (field bs (6176 + 8 * i.val) 8)
           c := Vector.ofFn fun i => BitVec.ofNat 32 (field bs (6240 + 4 * i.val) 4)
           buf := Vector.ofFn fun i => BitVec.ofNat 32 (field bs (6304 + 4 * i.val) 4) }

def setPower (c : Nat) (p : Power) (s : State) : State := setUnit c { unitOf s c with power := p } s

/-- A channel comes back (R446): the unit's image is reloaded; one that cannot be reloaded leaves the unit zeroed, without
an owner. -/
def reloadUnit (c : Nat) (s : State) : State :=
  let u := unitOf s c
  if u.owner.isNone then setUnit c { u with power := .active, wake := false } s
  else if isPoisoned s.mem (spillAddr c 0) 4096 || isPoisoned s.mem (spillAddr c 1) 2592 then
    addErr { (errRec 2 1 0 []).ofChannel c with pa := spillAddr c 0 } (setUnit c { StackUnit.reset with queue := u.queue } s)
  else setUnit c { unitOfImage (readSpill c s) u with power := .active, wake := false } s

/-- The channel is down, or on its way there or back. -/
def Power.asleep : Power → Bool
  | .active | .drain => false
  | .spill | .down | .restore => true

/-- An access brings back the channels that it touches, and waits until they are active (R446). The wait is time only, and
none is left after it (DESIGN CHOICE, log 63). -/
def wakeChannels (a n : Nat) (s : State) : State :=
  let cs := (s.units.filter fun (_, u) => u.power.asleep).map (·.1)
  (cs.filter fun c => (touched 4096 a n).any fun b => channelOf (b * 4096) = c).foldl (init := s) fun s c => reloadUnit c s

/-- One page-table entry as the walker reads it (R133), under the context's base key slot (R407). -/
def readPte (p : Port) (va a : Nat) : Act Nat := fun s =>
  match regionOf a with
  | .hbm h =>
    let slot := ctxBaseKey s p.asid.toNat
    if !keyOk s p slot then raise causeKeyiso va s
    else if isPoisoned s.mem h 8 then raisePoison p h va s
    else (.ok (leNat (hbmRead s slot h 8)), wakeChannels h 8 s)
  | _ => raise causeAcc va s

/-- The index of a virtual address at a level (R131). -/
def vaIndex (va level : Nat) : Nat := natBits va (9 + 18 + 10 * (level - 1)) (18 + 10 * (level - 1))

/-- The walk of R133 from a table at a level: the address of the leaf, the leaf and its level. -/
def walkFrom (p : Port) (va : Nat) : Nat → Nat → Act (Nat × Nat × Nat)
  | 0, _ => raise causePf va
  | level + 1, a => do
    let slot := a + 8 * vaIndex va (level + 1)
    let pte ← readPte p va slot
    if natBits pte 0 0 = 0 ∨ natBits pte 63 54 ≠ 0 ∨ natBits pte 9 9 ≠ 0 then raise causePf va
    else if natBits pte 3 1 = 0 then
      if level = 0 ∨ natBits pte 8 4 ≠ 0 ∨ natBits pte 19 15 ≠ 0 then raise causePf va
      else walkFrom p va level (natBits pte 53 20 * 2 ^ 18 + natBits pte 14 10 * 2 ^ 13)
    else if level = 2 then raise causePf va
    else if natBits pte 2 2 = 1 ∧ natBits pte 1 1 = 0 then raise causePf va
    else if level = 1 ∧ natBits pte 29 20 ≠ 0 then raise causePf va
    else pure (slot, pte, level + 1)

/-- The log2 of the page size of a leaf at a level (R131). -/
def pageBits (level : Nat) : Nat := if level = 2 then 28 else 18

/-- Sets bits of a page-table entry as the walker does (R135). -/
def updatePte (p : Port) (slot pte : Nat) : Act Unit := modS fun s =>
  match regionOf slot with
  | .hbm h => hbmWrite (ctxBaseKey s p.asid.toNat) h (leBytes 8 pte) s
  | _ => s

/-- Walks the tables for an address, sets A, and gives the TLB entry (R133, R135). -/
def walk (p : Port) (va : Nat) : Act TlbEntry := do
  let (slot, pte, level) ← walkFrom p va 3 p.root
  let set := if natBits pte 6 6 = 0 then 2 ^ 6 else 0
  if set ≠ 0 then updatePte p slot (pte + set)
  pure { asid := p.asid, global := natBits pte 5 5 = 1 ∧ p.asid = 0
         va := va / 2 ^ pageBits level * 2 ^ pageBits level, bits := pageBits level
         pa := natBits pte 53 20 * 2 ^ 18, pte := BitVec.ofNat 64 (pte + set) }

/-- A TLB entry serves an address for an ASID (R136). -/
def tlbHits (asid : BitVec 12) (va : Nat) (e : TlbEntry) : Bool :=
  (e.global || e.asid = asid) && e.va ≤ va && va < e.va + 2 ^ e.bits

/-- A translation through which no write has gone yet: it may write and its D is clear (R135). -/
def TlbEntry.clean (e : TlbEntry) : Bool := e.pte.getLsbD 2 && !e.pte.getLsbD 7

/-- The entry of the hoop's TLB for an address, walked and installed if there is none; the first write through one
walks the tables of its own agent again (R135, R136: log 69). A full TLB gives up its oldest entry. -/
def hoopLookup (p : Port) (h va : Nat) (k : AccKind) : Act TlbEntry := do
  let s ← getS
  match (hoopOf s h).tlb.find? (tlbHits p.asid va) with
  | some e =>
    if k = .store && e.clean then do
      let e' ← walk p va
      modHoop h fun hp => { hp with tlb := e' :: (hp.tlb.filter fun x => x ≠ e) }
      pure e'
    else pure e
  | none => do
    let e ← walk p va
    modHoop h fun hp => { hp with tlb := (e :: hp.tlb).take 2048 }
    pure e

/-- The TLB bank of a lane block (R136). -/
def bankOf (s : State) (b : Nat × Nat) : List TlbEntry := smRead [] (hoopOf s b.1).banks b.2

def setBank (b : Nat × Nat) (f : List TlbEntry → List TlbEntry) : Act Unit :=
  modHoop b.1 fun hp => { hp with banks := smWrite [] hp.banks b.2 (f (smRead [] hp.banks b.2)) }

/-- The entry that serves an access: of its lane block's bank for an element of an indexed access, filled from the
hoop's TLB or by a walk (R138), else of the hoop's TLB; an agent outside the hoops walks the tables each time. -/
def lookup (p : Port) (va : Nat) (k : AccKind) : Act TlbEntry := do
  match p.hoop, p.bank with
  | none, _ => walk p va
  | some h, none => hoopLookup p h va k
  | some h, some b => do
    let s ← getS
    match (bankOf s b).find? (tlbHits p.asid va) with
    | some e =>
      if k = .store && e.clean then do
        let e' ← walk p va
        setBank b fun l => e' :: l.filter fun x => x ≠ e
        pure e'
      else pure e
    | none => do
      let e ← hoopLookup p h va k
      setBank b fun l => (e :: l).take 16
      pure e

/-- Translates a virtual address (R131 to R134): PF for the range, the walk and the permissions. -/
def translate (p : Port) (va : Nat) (k : AccKind) : Act Place := do
  if 2 ^ 48 ≤ va then raise causePf va
  let e ← lookup p va k
  let allowed := match k with
    | .load => e.pte.getLsbD 1
    | .store => e.pte.getLsbD 2
    | .fetch => e.pte.getLsbD 3
  if allowed && (p.sys || e.pte.getLsbD 4) then
    pure { pa := e.pa + (va - e.va), key := natBits e.pte.toNat 19 10, foreign := e.global && p.asid ≠ 0
           first := if k = .store && e.clean then some va else none }
  else raise causePf va

/-- The entries of the tables and of the TLBs of the access show that a page has been written (R135): the update is
made in the entry as the tables hold it. -/
def setDirty (p : Port) (va : Nat) : Act Unit := do
  match ← tryTrap (walkFrom p va 3 p.root) with
  | .error _ => pure ()
  | .ok (slot, pte, _) => do
    if natBits pte 2 2 = 1 ∧ natBits pte 7 7 = 0 then updatePte p slot (pte + 2 ^ 7)
    let mark (e : TlbEntry) : TlbEntry :=
      if tlbHits p.asid va e && e.clean then { e with pte := e.pte ||| 0x80 } else e
    match p.hoop with
    | none => pure ()
    | some h => do
      modHoop h fun hp => { hp with tlb := hp.tlb.map mark }
      match p.bank with
      | none => pure ()
      | some b => setBank b fun l => l.map mark

/-- The checks of R127 on a GS offset: the array lies in an SRAM grant held by a slot that runs a
strand of the same ASID. -/
def sramOk (s : State) (asid : BitVec 12) (gs : Nat) : Bool :=
  let h := gs / 2 ^ 25
  let a := natBits gs 15 8
  gs < 2 ^ 31 && hoopPresent s h && !(hoopOf s h).withdrawn.getLsbD a &&
  (hoopOf s h).grants.toList.zipIdx.any fun (g, i) =>
    g.enabled && g.asid = asid && g.sram.getLsbD a &&
    match strandAt s h i with
    | some t => t.asid = asid
    | none => false

/-- A window access is inside an enabled entry of the agent's own ASID (R428). -/
def windowOk (s : State) (asid : BitVec 12) (n off size : Nat) : Bool :=
  let w0 := bar0 s (0x60000 + 32 * n) 8
  let lg := natBits (bar0 s (0x60000 + 32 * n + 8) 8) 5 0
  natBits w0 63 63 = 1 && natBits w0 11 0 = asid.toNat && off + size ≤ 2 ^ lg

/-- MMIO that device agents at system level reach (R420). -/
def mmioListed (off size : Nat) : Bool :=
  off + size ≤ 0x10000 || (0x40000 ≤ off && off + size ≤ 0x44000)

/-- The checks on a physical place that follow translation (R127, R128, R130, R134, R136, R410, R428): of a place in
SRAM for every row that it touches.
`mmio` says whether the agent may reach MMIO at all. -/
def checkPlace (p : Port) (va n : Nat) (mmio : Bool) (pl : Place) : Act Unit := fun s =>
  match regionOf pl.pa with
  | .hbm h => if keyOk s p pl.key then (.ok (), wakeChannels h n s) else raise causeKeyiso va s
  | .sram gs =>
    match (touched 256 gs n).find? fun r => !(pl.key = 0 && sramOk s p.asid (r * 256)) with
    | none => (.ok (), s)
    | some r => raise causeAcc (va + (max gs (r * 256) - gs)) s
  | .mmio off =>
    if pl.key = 0 && mmio && p.sys && !pl.foreign && mmioListed off n then (.ok (), s)
    else raise causeAcc va s
  | .window w off =>
    if pl.key = 0 && windowOk s p.asid w off n then (.ok (), s) else raise causeAcc va s
  | .unmapped => raise causeAcc va s

/-- A strand is in the group of a control word: its ASID, and its slot in the mask or its launch
(R460, R462). -/
def inGroup (t : Strand) (hoop : Option Nat) (asid mask : Nat) (byLaunch : Bool) (launch : Nat) : Bool :=
  isStrand t && t.asid.toNat = asid && (hoop = none || hoop = some t.hoop) &&
  if byLaunch then t.id.launch = launch else natBits mask t.slot t.slot = 1

/-- The offset of a hoop's debug window in BAR0 (R455). -/
def windowBase (h : Nat) : Nat := 0x800000 + 0x20000 * h

/-- Writes the results that the front still owes its registers (R37, R432): the instructions that
produce them have been issued. -/
def settlePending (st : Strand) : Strand :=
  let st1 := st.fePend.foldl (init := st) fun t w => setFull (writeReg t w.rd w.val) w.rd
  { st1 with fePend := [] }

/-- What follows an instruction at pc in the loop stack (R109): the next pc, the stack, and whether an
iteration was completed. An entry whose count ends is popped and the same rule applies to the next. -/
def loopEnd (pc : Word) : List LoopEntry → Word × List LoopEntry × Bool
  | [] => (pc + 4, [], false)
  | e :: es =>
    if e.stop.setWidth 64 = pc then
      if e.count - 1 = 0 then
        let r := loopEnd pc es
        (r.1, r.2.1, true)
      else (e.start.setWidth 64, { e with count := e.count - 1, index := e.index + 1 } :: es, true)
    else (pc + 4, e :: es, false)

/-- The state of a strand whose front has completed an instruction: a wait is over; a halt that the instruction
brought on itself stays. -/
def issued : RunState → RunState
  | .waiting => .running
  | r => r

/-- The front of a strand has completed an instruction without a jump: the loop rule of R109; n says how many
instructions have retired with it (R62). -/
def advanceStrand (n : Nat) (st : Strand) : Strand :=
  let r := loopEnd st.pc st.loops
  { st with pc := r.1, loops := r.2.1, atLoopPoint := r.2.2, state := issued st.state, wait := none
            waits := st.waits.set 0 0, skipBreak := false, nextSeq := st.nextSeq + 1, instret := st.instret + n }

/-- A debug halt reaches a strand (R39, R460): what its front has issued completes first (R37), an answer of the hub
included; reservation and links go (R97, R286), and an `idle` ends (R115). -/
def haltStrand (r : HaltReason) (t : Strand) : Strand :=
  match t.state with
  | .ready | .running | .waiting =>
    if t.asked ≠ 0 then { t with haltWait := some r }
    else
      let t1 := settlePending t
      let t2 := if t1.idling then { advanceStrand 1 t1 with idling := false } else t1
      { t2 with state := .halted, resumeTo := t2.state, haltReason := r, haltWait := none, resv := none, links := [] }
  | _ => t

/-- A debug halt of a strand; one that is being saved halts when it is restored (R393). -/
def haltRequest (r : HaltReason) (t : Strand) : Strand :=
  if t.state = .saving then { t with haltDue := some r } else haltStrand r t

/-- An entry of breakpoints or watchpoints at a BAR0 offset fires for a strand (R462): it counts, and
with group halt it halts the other strands of its group. -/
def fireEntry (off : Nat) (self : StrandId) (s : State) : State :=
  let ctl := bar0 s (off + 0x10) 8
  let g := bar0 s (off + 8) 8
  let hits := natBits ctl 63 32
  let s1 := setBar0 (off + 0x14) 4 (if hits = 2 ^ 32 - 1 then hits else hits + 1) s
  if natBits ctl 2 2 = 1 then
    updStrands (fun t => t.id ≠ self &&
        inGroup t (some ((off - 0x800000) / 0x20000)) (natBits g 11 0) (natBits g 19 12)
          (natBits g 20 20 = 1) (natBits g 32 21)) (haltRequest .group) s1
  else s1

/-- The watchpoint at a BAR0 offset matches an access (R464). -/
def watchMatches (s : State) (p : Port) (t : Strand) (off space va n : Nat) (rd wr : Bool) : Bool :=
  let ctl := bar0 s (off + 0x10) 8
  let g := bar0 s (off + 8) 8
  let lg := natBits ctl 15 10
  let base := natBits (bar0 s off 8) 47 0 / 2 ^ lg * 2 ^ lg
  natBits ctl 0 0 = 1 &&
  ((rd && natBits ctl 3 3 = 1) || (wr && natBits ctl 4 4 = 1)) &&
  (if p.agent = 1 then natBits ctl 5 5 = 1 else if p.agent = 2 then natBits ctl 6 6 = 1
    else natBits ctl 7 7 = 1) &&
  natBits ctl 9 8 = space && lg ≤ 47 && base < va + n && va < base + 2 ^ lg &&
  inGroup t none (natBits g 11 0) (natBits g 19 12) (natBits g 20 20 = 1) (natBits g 32 21)

/-- Watchpoints act before the access is performed (R464). -/
def checkWatch (p : Port) (space va n : Nat) (rd wr : Bool) : Act Unit := do
  let s ← getS
  match p.id, p.hoop with
  | some i, some h =>
    match findStrand s i with
    | none => pure ()
    | some t =>
      let hit := (List.range 8).find? fun k =>
        watchMatches s p t (windowBase h + 0x200 + 32 * k) space va n rd wr
      match hit with
      | none => pure ()
      | some k => do
        let off := windowBase h + 0x200 + 32 * k
        let ctl := bar0 s (off + 0x10) 8
        let lg := natBits ctl 15 10
        let base := natBits (bar0 s off 8) 47 0 / 2 ^ lg * 2 ^ lg
        modS (fireEntry off i)
        if natBits ctl 1 1 = 1 then raise causeWatch (max base va) else stopWith (.halt .watchpoint)
  | _, _ => pure ()

/-- The stamp that an access leaves (R291, R292), or the race that it makes. State 11 names its second reader, and a
later one leaves it as it is (DESIGN CHOICE, log 113). -/
def stampStep (old : BitVec 16) (hoop slot epoch : Nat) (wr : Bool) : Except Unit (BitVec 16) :=
  let self := BitVec.ofNat 6 hoop ++ BitVec.ofNat 3 slot
  let other := old.extractLsb' 5 9 ≠ self
  let st := old.extractLsb' 14 2
  let mk (k : BitVec 2) : BitVec 16 := k ++ (self ++ BitVec.ofNat 5 epoch)
  if st = 0 ∨ old.extractLsb' 0 5 ≠ BitVec.ofNat 5 epoch then .ok (mk (if wr then 2 else 1))
  else if st = 3 then (if wr then .error () else .ok old)
  else if other then
    (if wr ∨ st = 2 then .error () else .ok (mk 3))
  else if wr then .ok (mk 2) else .ok old

/-- The pieces of a range of n bytes that lie in one 4 KiB block each. -/
def blockPieces (a n : Nat) : List (Nat × Nat) :=
  if a % 4096 + n ≤ 4096 then [(a, n)] else
  (touched 4096 a n).map fun q =>
    let lo := max a (q * 4096)
    (lo, min (a + n) ((q + 1) * 4096) - lo)

/-- The key of the stamp of an HBM line in the carve-out of a context (R291). -/
def lineStamp (asid : BitVec 12) (l : Nat) : Nat := (asid.toNat + 1) * 2 ^ 50 + l

/-- The carve-out of a context is zeroed (R291). -/
def zeroCarveOut (asid : BitVec 12) (m : Mem) : Mem :=
  { m with stamps := m.stamps.filter fun (k, _) => k / 2 ^ 50 ≠ asid.toNat + 1 }

/-- Race detection (R291 to R293) of a strand's or engine's access: SRAM per 256-byte row, HBM per
64-byte line. `va` is the address that tval reports. -/
def checkRace (p : Port) (va pa n : Nat) (wr : Bool) : Act Unit := do
  let units := (blockPieces pa n).flatMap fun (b, k) => match regionOf b with
    | .hbm a => if p.race.getLsbD 1 then (touched 64 a k).map fun l => (lineStamp p.asid l, b - pa + (l * 64 - a)) else []
    | .sram _ => if p.race.getLsbD 0 then (touched 256 b k).map fun r => (2 ^ 40 + r, b - pa + (r * 256 - b)) else []
    | _ => []
  units.forM fun (k, o) => do
    let s ← getS
    match stampStep (smRead 0 s.mem.stamps k) (p.hoop.getD 63) p.slot
        (smRead 0 s.hub.epochs p.asid.toNat) wr with
    | .ok v => modMem fun m => { m with stamps := smWrite 0 m.stamps k v }
    | .error _ =>
      let old := smRead 0 s.mem.stamps k
      raise causeRace ((if old.extractLsb' 14 2 = 2 then 2 ^ 57 else 0) +
        (old.extractLsb' 8 6).toNat * 2 ^ 51 + (old.extractLsb' 5 3).toNat * 2 ^ 48 +
        (va + o) % 2 ^ 48)

/-- Bytes of MMIO (R420). -/
def mmioRead (s : State) (off n : Nat) : List Byte := smReadList 0 s.mem.bar0 off n

/-- A doorbell write of a job queue's tail (R424). -/
def doorbell (j tail : Nat) (s : State) : State :=
  let base := 0x40000 + 64 * j
  let cfg := bar0 s (base + 8) 8
  let head := bar0 s (base + 0x18) 2
  let ahead := (tail + 2 ^ 16 - head) % 2 ^ 16
  if natBits cfg 63 63 = 0 ∨ 2 ^ natBits cfg 19 16 < ahead then
    setCause 2 (setBar0 (0x10020 + j / 8) 1 (bar0 s (0x10020 + j / 8) 1 ||| 2 ^ (j % 8)) s)
  else setBar0 (base + 0x10) 2 tail s

/-- The value a 64-bit register of a job queue keeps of a write (R424): other bits are reserved. -/
def jobQueueMask : Nat → Nat
  | 0x00 => 2 ^ 48 - 2 ^ 6
  | 0x08 => 2 ^ 63 + 2 ^ 30 + 63 * 2 ^ 24 + 15 * 2 ^ 16 + 7 * 2 ^ 12 + 4095
  | 0x10 => 0xFFFF
  | _ => 0

/-- A write to a job queue's registers (R424). -/
def jobQueueWrite (off v : Nat) (s : State) : State :=
  let j := (off - 0x40000) / 64
  let r := (off - 0x40000) % 64 / 8 * 8
  if r = 0x10 then doorbell j (v % 2 ^ 16) s
  else if r = 0 ∨ r = 8 then setBar0 (0x40000 + 64 * j + r) 8 (v &&& jobQueueMask r) s
  else s

/-- A device agent's write to MMIO: the device description is read-only, job queues are registers. -/
def mmioWrite (off : Nat) (bs : List Byte) (s : State) : State :=
  if 0x40000 ≤ off ∧ off < 0x44000 then
    let old := bar0 s (off / 8 * 8) 8
    let new := leNat ((leBytes 8 old).take (off % 8) ++ bs ++ (leBytes 8 old).drop (off % 8 + bs.length))
    jobQueueWrite (off / 8 * 8) new s
  else s

/-- The pieces of a place that are one range of the memory behind it: within 4 KiB both aliases of HBM are (R129), and
a request to a port stays in such a block. -/
def placePieces (pl : Place) (n : Nat) : List (Place × Nat × Nat) :=
  (blockPieces pl.pa n).map fun (b, k) => ({ pl with pa := b }, b - pl.pa, k)

/-- What leaves through the port of a window (R327, R428): kind 0 a read request of some bytes, kind 1 a write. -/
def windowTlp (s : State) (w off kind : Nat) (bs : List Byte) : Tlp :=
  ⟨natBits (bar0 s (0x60000 + 32 * w) 8) 17 16, kind, bar0 s (0x60000 + 32 * w + 0x10) 8 + off, bs⟩

/-- The pieces of at most 1024 bytes that one write request carries (R327), with their offsets. -/
def payloads : (fuel off : Nat) → List Byte → List (Nat × List Byte)
  | 0, _, _ => []
  | _, _, [] => []
  | fuel + 1, off, bs => (off, bs.take 1024) :: payloads fuel (off + 1024) (bs.drop 1024)

/-- The physical read of one piece of a checked place. -/
def readPiece (pl : Place) (n : Nat) : Act (List Byte) := fun s =>
  match regionOf pl.pa with
  | .hbm a => (.ok (hbmRead s pl.key a n), s)
  | .sram _ => (.ok (loadBytes s.mem none pl.pa n), s)
  | .mmio off => (.ok (mmioRead s off n), s)
  | .window w off =>
    (.ok ((List.range n).map fun o => Config.windowByte s.freeCtr (pl.pa + o)),
      { s with freeCtr := s.freeCtr + 1, out := s.out ++ [windowTlp s w off 0 (leBytes 2 n)] })
  | .unmapped => (.ok [], s)

/-- The physical read of a checked place. -/
def readPlace (pl : Place) (n : Nat) : Act (List Byte) :=
  match placePieces pl n with
  | [(q, _, k)] => readPiece q k
  | ps => do
    let parts ← ps.mapM fun (q, _, k) => readPiece q k
    pure parts.flatten

/-- A hoop's stream buffers are invalidated (R123). -/
def dropBuffers (h : Nat) (s : State) : State :=
  if (hoopOf s h).buffers = [] then s else setHoop h { hoopOf s h with buffers := [] } s

/-- A hoop's stream buffers of the blocks that a range of HBM touches are invalidated (R123, R269). -/
def dropBlocks (h a n : Nat) (s : State) : State :=
  if (hoopOf s h).buffers = [] then s else
    setHoop h { hoopOf s h with buffers := (hoopOf s h).buffers.filter fun b => !(touched 4096 a n).contains b.block } s

/-- An acquire of the strand in focus (R123): no vector load after it reads what a buffer held before. -/
def acquire : Act Unit := modS fun s => dropBuffers s.strand.hoop s

/-- The hoop whose buffers an access of a strand's own sides concerns. -/
def Port.sideHoop (p : Port) : Option Nat := if p.id.isSome && p.agent ≤ 2 then p.hoop else none

/-- The physical write of one piece of a checked place; every reservation, link, tile binding and stream buffer of the
own hoop sees it. -/
def writePiece (p : Port) (pl : Place) (bs : List Byte) (s : State) : State :=
  match regionOf pl.pa with
  | .hbm a =>
    let s1 := noteWrite p a bs.length (hbmWrite pl.key a bs s)
    match p.sideHoop with
    | some h => dropBlocks h a bs.length s1
    | none => s1
  | .sram _ => noteWrite p pl.pa bs.length { s with mem := storeBytes s.mem none pl.pa bs }
  | .mmio off => noteWrite p pl.pa bs.length (mmioWrite off bs s)
  | .window w off =>
    noteWrite p pl.pa bs.length { s with
      out := s.out ++ (payloads bs.length off bs).map fun (o, d) => windowTlp s w o 1 d }
  | .unmapped => s

/-- The physical write of a checked place; the first one through its translation sets D (R135). -/
def writePlace (p : Port) (pl : Place) (bs : List Byte) : Act Unit := do
  match pl.first with
  | some va => setDirty p va
  | none => pure ()
  modS fun s => (placePieces pl bs.length).foldl (init := s) fun s (q, o, k) => writePiece p q ((bs.drop o).take k) s

/-- A place's bytes are poisoned (R440). -/
def placePoisoned (s : State) (pl : Place) (n : Nat) : Bool :=
  (placePieces pl n).any fun (q, _, k) =>
    match regionOf q.pa with
    | .hbm _ | .sram _ => isPoisoned s.mem (canonical q.pa) k
    | _ => false

/-! ### Stream buffers (R123) -/

/-- The entries of a map from one key up to another. -/
def smSlice {α : Type} (m : SMap α) (lo hi : Nat) : SMap α := m.filter fun e => lo ≤ e.1 && e.1 < hi

/-- A block of HBM as it stands. -/
def StreamBuf.fill (s : State) (asid : BitVec 12) (key block : Nat) : StreamBuf where
  block := block
  asid := asid
  key := key
  bytes := smSlice s.mem.bytes (4096 * block) (4096 * block + 4096)
  blockKey := smSlice s.mem.blockKey (256 * block) (256 * block + 256)
  poison := smSlice s.mem.poison (512 * block) (512 * block + 512)

/-- A buffer's block as a vector load sees it. -/
def StreamBuf.asMem (b : StreamBuf) : Mem :=
  { bytes := b.bytes, blockKey := b.blockKey, poison := b.poison, stamps := [], dirty := [], bar0 := [] }

/-- The stream buffer that serves a vector load of a block: one that the hoop holds under the load's ASID (R411), or a
fresh one; how long a buffer is kept is open, and the eight newest stay. -/
def streamBlock (h : Nat) (asid : BitVec 12) (key block : Nat) : Act StreamBuf := do
  let s ← getS
  let own (b : StreamBuf) : Bool := b.block = block && b.asid = asid && b.key = key
  let fresh := StreamBuf.fill s asid key block
  let fill : Act StreamBuf := do
    modHoop h fun hp => { hp with buffers := (fresh :: hp.buffers.filter fun b => !own b).take 8 }
    pure fresh
  match (hoopOf s h).buffers.find? own with
  | none => fill
  | some b => do
    if (← pick 2) = 0 then pure b else fill

/-- A poisoned byte of a piece of memory: the offset of the first. -/
def firstPoison (m : Mem) (a n : Nat) : Option Nat :=
  if isPoisoned m a n then (List.range n).find? fun o => isPoisoned m (a + o) 1 else none

/-- The read of one piece of a place by a load: a vector load of HBM goes through the hoop's stream buffers, a scalar
load of HBM invalidates the one of its block (R123, R269); poison is consumed at its first byte (R441). -/
def loadPiece (p : Port) (pl : Place) (n va : Nat) : Act (List Byte) := do
  match regionOf pl.pa, p.sideHoop with
  | .hbm a, some h =>
    if p.agent = 2 then do
      let b ← streamBlock h p.asid pl.key (a / 4096)
      let s ← getS
      match firstPoison b.asMem a n with
      | some o => raisePoison p (pl.pa + o) (va + o)
      | none => pure (loadBytes b.asMem (some (keyName s pl.key)) a n)
    else do
      modS (dropBlocks h a n)
      let s ← getS
      match firstPoison s.mem a n with
      | some o => raisePoison p (pl.pa + o) (va + o)
      | none => readPiece pl n
  | _, _ => do
    let s ← getS
    match (if placePoisoned s pl n then firstPoison s.mem (canonical pl.pa) n else none) with
    | some o => raisePoison p (pl.pa + o) (va + o)
    | none => readPiece pl n

/-- The read of a checked place by a load. -/
def loadPlace (p : Port) (pl : Place) (n va : Nat) : Act (List Byte) :=
  match placePieces pl n with
  | [(q, _, k)] => loadPiece p q k va
  | ps => do
    let parts ← ps.mapM fun (q, o, k) => loadPiece p q k (va + o)
    pure parts.flatten

/-- A read of a checked place that passes the stream buffers by, and leaves none of its block behind, so that no later
load reads an older value (R265, R288). -/
def freshPlace (p : Port) (pl : Place) (n va : Nat) : Act (List Byte) := do
  match regionOf pl.pa, p.sideHoop with
  | .hbm a, some h => modS (dropBlocks h a n)
  | _, _ => pure ()
  let s ← getS
  if placePoisoned s pl n then raisePoison p pl.pa va
  readPlace pl n

/-- Translation and every check of an access of n bytes within one page. -/
def access (p : Port) (va n : Nat) (rd wr atomic mmio : Bool) : Act Place := do
  let pl ← translate p va (if wr then .store else .load)
  if atomic && rd && wr then
    match regionOf pl.pa with
    | .hbm _ | .sram _ => pure ()
    | _ => raise causeAcc va
  checkPlace p va n mmio pl
  checkWatch p 0 va n rd wr
  if !atomic then checkRace p va pl.pa n wr
  pure pl

/-- A checked read through VS of n bytes within one page; poison is consumed (R441). -/
def vsRead (p : Port) (va n : Nat) (mmio : Bool) : Act (List Byte) := do
  let pl ← access p va n true false false mmio
  loadPlace p pl n va

/-- A checked write through VS within one page. -/
def vsWrite (p : Port) (va : Nat) (bs : List Byte) (mmio : Bool) : Act Unit := do
  let pl ← access p va bs.length false true false mmio
  writePlace p pl bs

/-- The pieces of a range of n bytes that lie in one 256 KiB page each. -/
def pagePieces (va n : Nat) : List (Nat × Nat) :=
  (touched (2 ^ 18) va n).map fun q =>
    let lo := max va (q * 2 ^ 18)
    (lo, min (va + n) ((q + 1) * 2 ^ 18) - lo)

/-- A read through VS that may cross pages. -/
def vsReadBlock (p : Port) (va n : Nat) : Act (List Byte) := do
  let parts ← (pagePieces va n).mapM fun (a, k) => vsRead p a k false
  pure parts.flatten

/-- A write through VS that may cross pages; the pages are checked in order before any is written. -/
def vsWriteBlock (p : Port) (va : Nat) (bs : List Byte) : Act Unit := do
  let pls ← (pagePieces va bs.length).mapM fun (a, k) => do
    let pl ← access p a k false true false false
    pure (pl, a, k)
  pls.forM fun (pl, a, k) => writePlace p pl ((bs.drop (a - va)).take k)

/-- A number read through VS. -/
def vsReadNat (p : Port) (va n : Nat) : Act Nat := do
  let bs ← vsRead p va n false
  pure (leNat bs)

/-- The physical address of an LS or GS offset (R130): LS has the hoop added (R126). -/
def spaceBase (space hoop : Nat) : Nat := if space = 1 then 2 ^ 41 + hoop * 2 ^ 25 else 2 ^ 41

/-- An offset of LS or GS is in range (R125, R126). -/
def offsetOk (space off : Nat) : Bool := off < (if space = 1 then 2 ^ 25 else 2 ^ 31)

/-- The checks of an access of n bytes to a space (R124): 0 VS, 1 LS, 2 GS. -/
def spaceAccess (p : Port) (space addr n : Nat) (rd wr atomic : Bool) : Act Place := do
  if space = 0 then access p addr n rd wr atomic false
  else
    let hoop := p.hoop.getD 0
    let s ← getS
    let pa := spaceBase space hoop + addr
    if offsetOk space addr && sramOk s p.asid (pa - 2 ^ 41) then
      checkWatch p space addr n rd wr
      if !atomic then checkRace p addr pa n wr
      pure { pa := pa, key := 0, foreign := false, first := none }
    else raise causeAcc addr

/-- The checks of the probe pass on an address (R138): translation, permissions, key and space, without the
access itself. `memOnly` refuses MMIO and windows (R283). -/
def spaceProbe (p : Port) (space addr n : Nat) (wr memOnly : Bool) : Act Unit := do
  if space = 0 then
    let pl ← translate p addr (if wr then .store else .load)
    match regionOf pl.pa with
    | .hbm _ | .sram _ => pure ()
    | _ => if memOnly then raise causeAcc addr
    checkPlace p addr n false pl
  else
    let s ← getS
    if offsetOk space addr && sramOk s p.asid (spaceBase space (p.hoop.getD 0) + addr - 2 ^ 41) then pure ()
    else raise causeAcc addr

/-- The pieces of a range of a space that are checked on their own: pages in VS, rows in SRAM. -/
def spacePieces (space addr n : Nat) : List (Nat × Nat) :=
  if space = 0 then pagePieces addr n else
    (touched 256 addr n).map fun q =>
      let lo := max addr (q * 256)
      (lo, min (addr + n) ((q + 1) * 256) - lo)

/-- Checks a whole range of a space. -/
def spacePlaces (p : Port) (space addr n : Nat) (wr : Bool) : Act (List (Place × Nat × Nat)) :=
  (spacePieces space addr n).mapM fun (a, k) => do
    let pl ← spaceAccess p space a k (!wr) wr false
    pure (pl, a, k)

/-- Reads a range of a space; poison is consumed, and reported at its first byte. -/
def spaceRead (p : Port) (space addr n : Nat) : Act (List Byte) := do
  let pls ← spacePlaces p space addr n false
  let parts ← pls.mapM fun (pl, a, k) => loadPlace p pl k a
  pure parts.flatten

/-- What a V-side write takes from a poisoned lane field: its words become poisoned, and the record has
cause code 0 (R440). -/
def carryPoison (p : Port) (pl : Place) (n : Nat) : Act Unit :=
  match regionOf pl.pa with
  | .hbm _ | .sram _ => do
    modMem fun m => (placePieces pl n).foldl (init := m) fun m (q, _, k) => addPoison m (canonical q.pa) k
    notePoison p 0 pl.pa
  | _ => pure ()

/-- Writes a range of a space, after checking all of it. -/
def spaceWrite (p : Port) (space addr : Nat) (bs : List Byte) : Act Unit := do
  let pls ← spacePlaces p space addr bs.length true
  pls.forM fun (pl, a, k) => writePlace p pl ((bs.drop (a - addr)).take k)

end Sys2Proof.Machine
end

