-- ==== Sys2Proof/Machine/Ops.lean ====
section
/-! DEFINITION. The named operations that instructions are built from: trace and error records, tokens,
the queues and their images, taking a trap and returning from one, and the step of the scalar front and
of the vector side around an instruction's own work. -/

namespace Sys2Proof.Machine

/-- A trace record goes out through the Tabgidel port, where the trace output control sends it (R458); one that
finds the port busy is dropped and counted (R474). -/
def portTrace (r : TraceRec) (s : State) : State :=
  if natBits (bar0 s 0xE00100 8) 0 0 = 0 || s.hub.portClosed then s
  else if Config.portBusy s.freeCtr then
    setBar0 0xE00120 8 (bar0 s 0xE00120 8 + 1) { s with
      freeCtr := s.freeCtr + 1, hub := { s.hub with portLost := s.hub.portLost + 1 } }
  else { s with freeCtr := s.freeCtr + 1, trace := s.trace ++ [r] }

/-- The log2 of the records of the ring (R458). -/
def ringLog (s : State) : Nat :=
  let n := natBits (bar0 s 0xE00100 8) 12 8
  if 8 ≤ n ∧ n ≤ 24 then n else 8

/-- The ring is full (R458). -/
def ringFull (s : State) : Bool :=
  (bar0 s 0xE00110 4 + 2 ^ 32 - bar0 s 0xE00118 4) % 2 ^ 32 = 2 ^ ringLog s

/-- The bytes of a trace record (R473). -/
def traceBytes (r : TraceRec) : List Byte :=
  leBytes 1 r.typ ++ leBytes 1 r.hoop ++ leBytes 1 r.slot ++ leBytes 5 r.time ++ leBytes 8 r.payload.toNat

/-- A trace record goes into the HBM ring, where the trace output control sends it (R458); one that finds the ring
full is dropped and counted (R474). -/
def ringTrace (r : TraceRec) (s : State) : State :=
  if natBits (bar0 s 0xE00100 8) 1 1 = 0 then s
  else if ringFull s then
    setBar0 0xE00128 8 (bar0 s 0xE00128 8 + 1) { s with hub := { s.hub with ringLost := s.hub.ringLost + 1 } }
  else
    let w := bar0 s 0xE00110 4
    let base := natBits (bar0 s 0xE00108 8) 51 12 * 2 ^ 12
    let s1 := match regionOf (base + 16 * (w % 2 ^ ringLog s)) with
      | .hbm a => hbmWrite (ctxBaseKey s 0) a (traceBytes r) s
      | _ => s
    setBar0 0xE00110 4 (w + 1) s1

def writeTrace (r : TraceRec) (s : State) : State := ringTrace r (portTrace r s)

/-- The time of a trace record (R473). -/
def traceTime (s : State) : Nat := (timeNow s).toNat % 2 ^ 40

/-- A hoop's trace record is emitted when its type and ASID are selected (R469); one that finds the hoop's queue
full is dropped and counted (R474). -/
def emitHoop (h slot : Nat) (asid : BitVec 12) (typ payload : Nat) (s : State) : State :=
  let ctl := bar0 s (windowBase h + 0x308) 8
  if natBits ctl typ typ = 1 && natBits ctl 43 32 = asid.toNat then
    let s1 := { s with freeCtr := s.freeCtr + 1 }
    if Config.queueFull s.freeCtr then
      setBar0 (windowBase h + 0x310) 8 (bar0 s (windowBase h + 0x310) 8 + 1)
        (setHoop h { hoopOf s1 h with lost := (hoopOf s1 h).lost + 1 } s1)
    else
      writeTrace { typ := typ, hoop := h, slot := slot, time := traceTime s
                   payload := BitVec.ofNat 64 payload } s1
  else s

/-- A trace record of the hub (R473). -/
def emitHub (typ payload : Nat) (s : State) : State :=
  writeTrace { typ := typ, hoop := 0x3F, slot := 0, time := traceTime s
               payload := BitVec.ofNat 64 payload } s

def emitStrand (t : Strand) (typ payload : Nat) (s : State) : State :=
  emitHoop t.hoop t.slot t.asid typ payload s

/-- The code of a strand state (R465); the states of a save use theirs. -/
def stateCode : RunState → Nat
  | .idle => 0
  | .ready => 1
  | .running => 2
  | .waiting => 3
  | .halted => 4
  | .saving => 5
  | .saved => 6
  | .faulted => 7
  | .exited => 8

/-- The record of a strand's change of state (R475): of its slot, and of each follower slot as the follower of its
strand (R31; DEDUCED, log 72). -/
def emitChange (t : Strand) (old new : RunState) (cause : Nat) (s : State) : State :=
  let payload := stateCode old + 16 * stateCode new + 256 * (t.id.index % 256) + 65536 * cause
  t.followers.foldl (init := emitStrand t 2 payload s) fun s (h, k) => emitHoop h k t.asid 2 payload s

/-- Moves the strand in focus to a state and records it (R39, R475). The step records the changes between Running,
Waiting and Halted. -/
def enterState (new : RunState) (cause : Nat) (s : State) : State :=
  if s.strand.state = new then s else
    let s1 := { s with strand := { s.strand with state := new } }
    if new = .running then s1 else emitChange s.strand s.strand.state new cause s1

/-- The five slip records of a strand, at a save and at its end, in the order of R470 (R475). -/
def emitSlip (t : Strand) (s : State) : State :=
  [2, 1, 0, 3, 4].zipIdx.foldl (init := s) fun s (c, k) =>
    emitStrand t 13 (k * 2 ^ 61 + (t.slip.toList.getD c 0) % 2 ^ 61) s

/-- The index of the token counter from one queue to another (R34). -/
def tokenIx (src dst : Queue) : Fin 25 :=
  ⟨src.code * 5 + dst.code, by cases src <;> cases dst <;> decide⟩

def tokens (st : Strand) (src dst : Queue) : BitVec 4 := st.tokens.get (tokenIx src dst)

def setTokens (st : Strand) (src dst : Queue) (v : BitVec 4) : Strand :=
  { st with tokens := st.tokens.set (tokenIx src dst).val v (tokenIx src dst).isLt }

/-- The other three of V, M, C and N, in that order (R35). -/
def otherQueues : Queue → List Queue
  | .v => [.m, .c, .n]
  | .m => [.v, .c, .n]
  | .c => [.v, .m, .n]
  | .n => [.v, .m, .c]
  | .s => []

/-- What a tk code does in a queue (R35): a push (true) or pop, and the other queue. -/
def tkMeaning (q : Queue) (tk : BitVec 3) : Option (Bool × Queue) :=
  match tk.toNat with
  | 0 => none
  | 1 => some (true, .s)
  | 2 => (otherQueues q)[0]?.map (true, ·)
  | 3 => (otherQueues q)[1]?.map (true, ·)
  | 4 => (otherQueues q)[2]?.map (true, ·)
  | 5 => (otherQueues q)[0]?.map (false, ·)
  | 6 => (otherQueues q)[1]?.map (false, ·)
  | _ => (otherQueues q)[2]?.map (false, ·)

/-- The tk field of a word (R77): OP-VM with mop 000 to 110, and OP-EX. -/
def tkOf (w : Word32) : BitVec 3 :=
  let f := Fields.ofWord w
  if f.op = 0b0101011#7 ∧ f.f7.extractLsb' 4 3 ≠ 0b111#3 then f.f7.extractLsb' 1 3
  else if f.op = 0b1011011#7 then f.f3
  else 0

/-- The word with its tk field cleared (R435, R436). -/
def clearTk (w : Word32) : Word32 :=
  let f := Fields.ofWord w
  if f.op = 0b0101011#7 ∧ f.f7.extractLsb' 4 3 ≠ 0b111#3 then w &&& ~~~(7#32 <<< 26)
  else if f.op = 0b1011011#7 then w &&& ~~~(7#32 <<< 12)
  else w

/-- The word of a `tkpost`, which stands as a marker in its target queue (R112, R435). -/
def isMarker (w : Word32) : Bool :=
  let f := Fields.ofWord w
  f.op = 0b1111011#7 && f.f3 = 0b101#3 && f.f7 = 0b0000010#7

/-- A token push for a trace record and its counter (R35, R475). -/
def pushToken (src dst : Queue) (s : State) : State :=
  let n := tokens s.strand src dst + 1
  emitStrand s.strand 4 (src.code + 8 * dst.code + 128 * n.toNat)
    { s with strand := setTokens s.strand src dst n }

/-- A token pop, an acquire (R35, R123). -/
def popToken (src dst : Queue) (s : State) : State :=
  let n := tokens s.strand src dst - 1
  dropBuffers s.strand.hoop <| emitStrand s.strand 4 (src.code + 8 * dst.code + 64 + 128 * n.toNat)
    { s with strand := setTokens s.strand src dst n }

/-- The register that a V instruction writes as a result and holds empty until then (R36): `vrecv`,
`vcpop`, `vfirst`, the reductions and `vmvxs`. -/
def vResultReg (w : Word32) : Reg :=
  let f := Fields.ofWord w
  let f6 := (f.f7.extractLsb' 1 6).toNat
  if f.op = 0b1011011#7 ∧ f.f7 = 0b0110001#7 then f.rd
  else if f.op = 0b0001011#7 ∧ f.f3 = 0b101#3 ∧
      (f6 = 2 ∨ f6 = 3 ∨ (27 ≤ f6 ∧ f6 ≤ 35) ∨ f6 = 37) then f.rd
  else 0

/-- The command number of an M, C or N word (R78). -/
def cmdOf (w : Word32) : Nat := (Fields.ofWord w).f7.toNat

/-! ### Queue images (R434 to R436) -/

/-- A V entry as 32 bytes (R435). -/
def vEntryBytes (e : VEntry) : List Byte :=
  leBytes 4 (if e.popped then clearTk e.word else e.word).toNat ++ leBytes 4 e.vl ++ leBytes 4 e.vstart ++
  leBytes 4 (e.vtype.toNat % 2 ^ 10 + e.mtype.toNat * 2 ^ 10 + natBits e.csr.toNat 21 16 * 2 ^ 12 +
    e.frm.toNat * 2 ^ 18 + e.xrm.toNat * 2 ^ 22) ++
  leBytes 8 e.a.toNat ++ leBytes 8 e.b.toNat

/-- The extension of a V entry (R435). -/
def vEntryExt (e : VEntry) : List Byte :=
  leBytes 6 e.pc.toNat ++ leBytes 2 (e.csr.toNat % 2 ^ 16)

/-- An M, C or N entry as 32 bytes (R436). -/
def cEntryBytes (e : CEntry) : List Byte :=
  let w := if e.popped then clearTk e.word else e.word
  let step := e.step % 2 ^ 24 + (if e.copied then 2 ^ 31 else 0)
  let row (step a b aux : Nat) := leBytes 4 w.toNat ++ leBytes 4 step ++ leBytes 8 a ++ leBytes 8 b ++ leBytes 8 aux
  if isMarker e.word then row 0 0 0 0 else
  match cmdOf e.word with
  | 0x01 | 0x02 | 0x04 | 0x05 => row step e.a.toNat e.b.toNat e.mcfg.toNat
  | 0x03 | 0x07 => row 0 0 0 0
  | 0x06 =>
    row (natBits e.mcfg.toNat 21 8 + natBits e.mcfg.toNat 33 33 * 2 ^ 14 + natBits e.mcfg.toNat 34 34 * 2 ^ 15)
      e.a.toNat e.b.toNat e.aux.toNat
  | 0x08 | 0x20 | 0x21 | 0x22 => row step e.a.toNat e.mcfg.toNat e.aux.toNat
  | 0x41 => row step e.a.toNat e.b.toNat 0
  | 0x32 | 0x38 => row step e.a.toNat e.b.toNat 0
  | _ => row step e.a.toNat 0 0

/-- Bytes padded with zeros to a length. -/
def padTo (n : Nat) (bs : List Byte) : List Byte := (bs ++ List.replicate (n - bs.length) 0).take n

/-- The 4096 bytes of the queue images (R434). -/
def queueImage (st : Strand) : List Byte :=
  padTo 2048 (st.vq.map vEntryBytes).flatten ++ padTo 512 (st.mq.map cEntryBytes).flatten ++
  padTo 512 (st.cq.map cEntryBytes).flatten ++ padTo 512 (st.nq.map cEntryBytes).flatten ++
  padTo 512 (st.vq.map vEntryExt).flatten

/-- A V entry read from its image (R435, R437). What the image has no room for comes from the entry that
was dumped in its place, if the image still shows that one. -/
def vEntryOf (bs ext : List Byte) (old : Option VEntry) : VEntry :=
  let m := field bs 0x0C 4
  let e : VEntry :=
    { word := BitVec.ofNat 32 (field bs 0 4), popped := false, vl := field bs 4 4, vstart := field bs 8 4
      vtype := BitVec.ofNat 64 (m % 2 ^ 10), mtype := BitVec.ofNat 2 (natBits m 11 10)
      csr := BitVec.ofNat 22 (natBits m 17 12 * 2 ^ 16 + field ext 6 2)
      frm := BitVec.ofNat 4 (natBits m 21 18), xrm := BitVec.ofNat 2 (natBits m 23 22)
      a := BitVec.ofNat 64 (field bs 0x10 8), b := BitVec.ofNat 64 (field bs 0x18 8)
      pc := BitVec.ofNat 64 (field ext 0 6), seq := 0, done := false, begun := false, lanes := none }
  match old with
  | some o => if vEntryBytes o = bs ∧ vEntryExt o = ext then { e with vtype := o.vtype, done := o.done, begun := o.begun, lanes := o.lanes } else e
  | none => e

/-- Two entries are one command (R279): the same word but for tk, with the same descriptor. -/
def sameCommand (o e : CEntry) : Bool := clearTk o.word = clearTk e.word && o.a = e.a

/-- An M, C or N entry read from its image (R436, R437). It stays a writer of its set while it is the command that was
dumped in its place (R279). While the image shows a finished one unchanged it has only to retire (R244, R449); a KV
command and a `gins` keep what they have read (R339, R348, R363), and a `gwalk` begins again (R368). -/
def cEntryOf (bs : List Byte) (old : Option CEntry) : CEntry :=
  let w := BitVec.ofNat 32 (field bs 0 4)
  let st := field bs 4 4
  let a := BitVec.ofNat 64 (field bs 8 8)
  let b := BitVec.ofNat 64 (field bs 16 8)
  let x := BitVec.ofNat 64 (field bs 24 8)
  let base : CEntry :=
    { word := w, popped := false, step := st % 2 ^ 24, copied := natBits st 31 31 = 1, a := a, b := b
      aux := 0, mcfg := 0, seq := 0, accepted := false, done := false, writer := none
      prog := Progress.none }
  let e : CEntry := match cmdOf w with
    | 0x01 | 0x02 | 0x04 | 0x05 => { base with mcfg := x }
    | 0x06 => { base with step := 0, copied := false, aux := x
                          mcfg := BitVec.ofNat 64 (natBits st 13 0 * 2 ^ 8 + natBits st 15 14 * 2 ^ 33) }
    | 0x08 | 0x20 | 0x21 | 0x22 => { base with b := 0, mcfg := b, aux := x }
    | 0x48 => { base with step := 0 }
    | _ => base
  match old with
  | some o =>
    let finished : Bool := o.done && cEntryBytes o = bs
    if sameCommand o e then { e with
      writer := o.writer, done := finished, accepted := finished
      prog := if finished ∨ (0x40 ≤ cmdOf w ∧ cmdOf w ≤ 0x44) ∨ cmdOf w = 0x49 then o.prog
        else { e.prog with set := o.prog.set } }
    else e
  | none => e

/-- The pieces of a length of a list of bytes. -/
def chunksOf (n : Nat) : (count : Nat) → List Byte → List (List Byte)
  | 0, _ => []
  | k + 1, bs => bs.take n :: chunksOf n k (bs.drop n)

/-- An image entry is used: its word is not zero (R434). -/
def usedEntry (bs : List Byte) : Bool := field bs 0 4 ≠ 0

/-- The dumped commands of a queue, by its code. -/
def dumpedOf (st : Strand) (q : Nat) : List CEntry := st.dumpedE.filter fun e =>
  if isMarker e.word then (Fields.ofWord e.word).r2.toNat = q
  else if cmdOf e.word < 0x20 then q = 2 else if cmdOf e.word = 0x32 ∨ cmdOf e.word = 0x38 ∨ 0x48 ≤ cmdOf e.word then q = 4 else q = 3

/-- The place in program order, among the dumped entries and the reissued ones, of entry i of a queue: that of the
entry dumped in its place, and for one that a handler has added a place after all of those, V before M, C and N
(DESIGN CHOICE, log 97). -/
def placeOf (st : Strand) (q i : Nat) (old : Option Nat) : Nat :=
  old.getD ((st.dumpedV.map VEntry.seq ++ st.dumpedE.map CEntry.seq).foldl max 0 + 1 + 64 * q + i)

/-- The V entries of an image (R435, R437). -/
def imageV (img : List Byte) (st : Strand) : List VEntry :=
  ((chunksOf 32 64 img).zip (chunksOf 8 64 (img.drop 0xE00))).zipIdx.filterMap fun ((b, x), i) =>
    if usedEntry b then
      some { vEntryOf b x st.dumpedV[i]? with seq := placeOf st 0 i (st.dumpedV[i]?.map VEntry.seq) }
    else none

/-- The entries of queue q of an image (R436, R437). -/
def imageC (img : List Byte) (st : Strand) (q off : Nat) : List CEntry :=
  (chunksOf 32 16 (img.drop off)).zipIdx.filterMap fun (b, i) =>
    let old := (dumpedOf st q)[i]?
    if usedEntry b then some { cEntryOf b old with seq := placeOf st q i (old.map CEntry.seq) } else none

/-- Puts the entries of an image back into the queues (R437): V entries ahead of younger ones, commands at the heads, in
program order, and the scalar destinations of those that have not finished empty again. -/
def reissue (img : List Byte) (st : Strand) : Strand :=
  let vs := imageV img st
  let st1 := { st with
    vq := vs ++ st.vq, mq := imageC img st 2 0x800 ++ st.mq, cq := imageC img st 3 0xA00 ++ st.cq
    nq := imageC img st 4 0xC00 ++ st.nq, dumpedV := [], dumpedE := [] }
  (vs.filter fun e => !e.done).foldl (init := st1) fun t e => setEmpty t (vResultReg e.word)

/-- Scalar destinations of V entries that have not retired hold their old values, full (R191, R432). -/
def fillResults (st : Strand) : Strand := st.vq.foldl (init := st) fun t e => setFull t (vResultReg e.word)

/-- Takes every entry out of the queues and keeps the dumped ones beside the image. The engines forget the strand's
commands. What the handler issues comes after every entry that it may put back. -/
def dumpQueues (st : Strand) : Strand :=
  let st1 := fillResults st
  { st1 with vq := [], mq := [], cq := [], nq := [], dumpedV := st.vq
             dumpedE := st.mq ++ st.cq ++ st.nq, nextSeq := st.nextSeq + 384 }

/-- A strand's own queues are put back from an image of them (R398, R465). What the images of a handler have dumped
stays. -/
def requeue (img : List Byte) (st : Strand) : Strand :=
  let t := reissue img { st with
    vq := [], mq := [], cq := [], nq := [], dumpedV := st.vq, dumpedE := st.mq ++ st.cq ++ st.nq }
  { t with dumpedV := st.dumpedV, dumpedE := st.dumpedE, nextSeq := st.nextSeq + 384 }

/-- The detail of a type 9 record (R448): tcause, tval, tpc, tvcp. -/
def faultedDetail (st : Strand) : List Byte :=
  leBytes 8 st.csr.tcause.toNat ++ leBytes 8 st.csr.tval.toNat ++ leBytes 8 st.csr.tpc.toNat ++
    leBytes 8 st.csr.tvcp.toNat

def strandErr (typ severity : Nat) (st : Strand) (detail : List Byte) : ErrRec :=
  let e := errRec typ severity st.asid detail
  if resident st then { e.ofHoop st.hoop with slot := st.slot } else e

/-- The messages that a strand's units offer go when its queues go (R309). -/
def withdrawMessages (i : StrandId) (s : State) : State :=
  { s with hub := { s.hub with messages := s.hub.messages.filter fun m => m.sender ≠ i } }

/-- The record of a strand that becomes Faulted (R431, R448). -/
def faultedRecord (st : Strand) : State → State := addErr (strandErr 9 1 st (faultedDetail st))

/-- The strand becomes Faulted, with its record (R431). -/
def becomeFaulted (s : State) : State := faultedRecord s.strand (enterState .faulted s.strand.csr.tcause.toNat s)

/-- The image write has failed: a record names the original cause and the failed write, its cause and address, and the
strand becomes Faulted (R431). -/
def imageFailed (t : Trap) (cause : BitVec 8) (addr : Word) (s : State) : State :=
  becomeFaulted (addErr (strandErr 9 1 s.strand (leBytes 8 t.cause.toNat ++ leBytes 8 t.tval.toNat ++
    leBytes 8 cause.toNat ++ leBytes 8 addr.toNat)) s)

/-- Taking a trap (R431, R432): the strand stops at (tpc, tvcp), the level before it is kept and system
level entered, the cause and its values are recorded, the queue images are written to the 4096 bytes at
tvq, and the pc goes to the handler. With no handler, at system level, or when the images cannot be
written, the strand becomes Faulted and its images stay in the slot. The image write is no access of an instruction, and no
watchpoint matches it (DESIGN CHOICE, log 103). -/
def takeTrap (t : Trap) (s : State) : State :=
  let st := fillResults (settlePending s.strand)
  let tvcp := match st.vq with
    | e :: _ => e.pc
    | [] => st.pc
  let vstart := match st.vq with
    | e :: _ => BitVec.ofNat 64 e.vstart
    | [] => st.csr.vstart
  let wasSys := sysLevel st
  let csr := { st.csr with
    tstatus := (st.csr.tstatus >>> 1 &&& 1) ||| 2
    tcause := t.cause.setWidth 64
    tval := t.tval
    telem := t.telem.setWidth 64
    tpc := st.pc &&& (2 ^ 48 - 1)
    tvcp := tvcp &&& (2 ^ 48 - 1)
    vstart := vstart }
  let st1 := { st with csr := csr, resv := none, links := [], pending := [], wait := none
                       waits := Vector.replicate 5 0, atLoopPoint := false, idling := false }
  let s1 := emitStrand st1 9 (t.cause.toNat + 256 * (csr.tpc.toNat % 2 ^ 48))
    (withdrawMessages st.id { s with strand := st1 })
  if csr.tvec = 0 ∨ wasSys then becomeFaulted s1
  else if csr.tvq.toNat % 4096 ≠ 0 then imageFailed t causeAlign csr.tvq s1
  else match runAct (vsWriteBlock { strandPort st1 1 with sys := true, race := 0, id := none } csr.tvq.toNat (queueImage st1)) s1 with
    | (.ok _, s2) =>
      enterState .running 0
        { s2 with strand := { dumpQueues s2.strand with pc := csr.tvec &&& ~~~3, skipBreak := false } }
    | (.error (.trap w), s2) => imageFailed t w.cause w.tval s2
    | (.error _, s2) => becomeFaulted s2

/-- The oldest pending fault (R433): the oldest instruction in program order, then the lowest element. -/
def oldestFault : List PendingFault → Option PendingFault
  | [] => none
  | f :: fs =>
    match oldestFault fs with
    | none => some f
    | some g => if g.seq < f.seq ∨ (g.seq = f.seq ∧ g.elem < f.elem) then some g else some f

/-- The front is at an instruction boundary with faults pending: it takes the oldest (R433). -/
def takePending (s : State) : State :=
  match oldestFault s.strand.pending with
  | some f => takeTrap f.trap s
  | none => s

/-- A trap of the front's own instruction: it is pending with those reported before it. -/
def frontTrap (t : Trap) (s : State) : State :=
  takePending { s with strand := { s.strand with
    pending := s.strand.pending ++ [{ trap := t, queue := .s, seq := s.strand.nextSeq, elem := 0 }] } }

/-- A writer unregisters; a set with no writer that is not being published is no longer tracked (R279). -/
def unregisterWriter (asid : BitVec 12) (addr : Nat) (s : State) : State :=
  let l := listUpd (fun d => d.addr.toNat = addr && d.asid = asid) (fun d => { d with writers := d.writers - 1 }) s.hub.sets
  { s with hub := { s.hub with sets := l.filter fun d => d.publishing || d.writers ≠ 0 } }

/-- The registrations as writers that the commands of a strand hold, dumped ones too (R279). -/
def writersOf (st : Strand) : List Word := (st.mq ++ st.cq ++ st.nq ++ st.dumpedE).filterMap CEntry.writer

/-- The registrations that a strand held and no longer holds end (R279). -/
def dropWriters (before after : Strand) (s : State) : State :=
  ((writersOf before).diff (writersOf after)).foldl (init := s) fun s a => unregisterWriter after.asid a.toNat s

/-- The commands that an edited image no longer holds are gone, and their registrations with them (R279, R437). -/
def leaveGone (before : Strand) : Act Unit := do
  modS fun s => dropWriters before s.strand s

/-- Return from a trap (R116, R437): back to the level before it, the images of tvq back into the
queues with entry 0 at the element in vstart, vstart cleared, and the pc from tpc. -/
def returnFromTrap : Act (Option Word) := do
  let st ← getStrand
  let img ← vsReadBlock { strandPort st 1 with sys := true, race := 0 } st.csr.tvq.toNat 4096
  modStrand fun st =>
    let start := st.csr.vstart.toNat
    let st1 := reissue img { st with csr := { st.csr with
      tstatus := (st.csr.tstatus &&& 1) ||| (st.csr.tstatus &&& 1) <<< 1, vstart := 0 }
                                     barArrived := st.barArrived.filter fun p => p = st.csr.tpc }
    let st2 := if usedEntry img then
        match st1.vq with
        | e :: es => { st1 with vq := { e with vstart := start } :: es }
        | [] => st1
      else st1
    st2
  leaveGone st
  pure (some st.csr.tpc)

/-- The front's next instruction is not matched by breakpoints (R463). -/
def skipNext (s : State) : State := { s with strand := { s.strand with skipBreak := true } }

/-! ### The scalar front -/

/-- The front has completed an instruction without a jump: the loop rule of R109, and one more
instruction retired. -/
def advance (s : State) : State := { s with strand := advanceStrand 1 s.strand }

/-- The front has passed an instruction on to its queue, where it retires (R33, R62). -/
def leaveFront (s : State) : State := { s with strand := advanceStrand 0 s.strand }

/-- The front has completed a jump or a taken branch: the loop stack does not change (R109). -/
def jump (target : Word) (s : State) : State :=
  { s with strand := { s.strand with pc := target, atLoopPoint := false, state := issued s.strand.state
                                     wait := none, waits := s.strand.waits.set 0 0, skipBreak := false
                                     nextSeq := s.strand.nextSeq + 1, instret := s.strand.instret + 1 } }

/-- The word of an instruction that the front passes on to a queue (R33): OP-VA, OP-VM and OP-EX. -/
def isQueuedWord (w : Word32) : Bool :=
  let op := (Fields.ofWord w).op
  op = 0b0001011#7 || op = 0b0101011#7 || op = 0b1011011#7

/-- The front waits at its instruction: Waiting for an S instruction and the kinds of R38, else still Running (R39). A
wait that follows another of its kind counts anew (R38). While an instruction for a queue waits here for a register, no
queue holds it yet: the model counts that wait in the counter of S (DESIGN CHOICE, log 70). -/
def frontWait (k : WaitKind) (s : State) : State :=
  { s with strand := { s.strand with
      wait := some k
      state := if k = .uncounted ∨ isQueuedWord s.fetched then .running else .waiting
      waits := if s.strand.wait = some k then s.strand.waits else s.strand.waits.set 0 0 } }

/-- In instruction-step mode the front stops after the instruction: it halts or traps STEP (R467). -/
def afterStep (s : State) : State :=
  if s.strand.dbgStep ∧ s.strand.state = .running then
    if s.strand.dbgTrap then
      takeTrap { cause := causeStep, tval := 0, telem := 0 } s
    else { s with strand := haltStrand .step s.strand }
  else s

/-- One instruction of the scalar front: its own work, and what becomes of the front; `fin` completes one that does
not jump. An instruction that waits has done nothing and is issued again. -/
def frontStepWith (fin : State → State) (m : Act (Option Word)) (s : State) : Out :=
  match m s with
  | (.ok none, s') => .next (afterStep (fin s'))
  | (.ok (some t), s') => .next (afterStep (jump t s'))
  | (.error (.trap t), s') => .next (frontTrap t s')
  | (.error (.wait k), _) => .next (frontWait k s)
  | (.error (.hold k), s') => .next (frontWait k s')
  | (.error (.halt r), s') => .next { s' with strand := haltStrand r s'.strand }
  | (.error (.fault f), _) => .fault f
  | (.error (.refuse r), _) => .refused r

/-- One S instruction. -/
def frontStep (m : Act (Option Word)) (s : State) : Out := frontStepWith advance m s

/-- Every register that the instruction reads or writes must be full (R36). Of several empty ones the first in the order
of the operand fields rs1, rs2, rd decides between the wait and FE, and is the one that tval names: the spec leaves open
which (DESIGN CHOICE, log 71). -/
def needFull : List Reg → Act Unit
  | [] => pure ()
  | r :: rs => do
    let st ← getStrand
    if isEmpty st r then
      if st.csr.xfep.getLsbD r.toNat then raise causeFe r.toNat else waitFor (.fe r)
    needFull rs

/-- An S instruction: checks, the registers that must be full, and its work. -/
def frontInstr (check : Act Unit) (regs : List Reg) (work : Act (Option Word)) (s : State) : Out :=
  frontStep (do check; needFull regs; work) s

/-- An S instruction without a check of its own that computes one register from the state. -/
def writeInstr (d : Reg) (regs : List Reg) (f : Strand → Word) (s : State) : Out :=
  frontInstr (pure ()) (regs ++ [d]) (do
    modStrand fun st => writeReg st d (f st)
    pure none) s

/-- A jump to a target that must be a multiple of 4 (R66). -/
def checkTarget (t : Word) : Act Unit := if t.toNat % 4 = 0 then pure () else raise causeAlign t.toNat

/-! ### Entering the V queue and issuing from it -/

/-- Which of `qcfg` and `wcfg` an instruction captures (R402, R435). -/
inductive CsrCapture where
  | none | qcfg | wcfg
  deriving DecidableEq, Repr

/-- The entry that the front makes of a V instruction (R106, R174): operands, vl, vtype, vstart, mtype,
rounding controls and the CSR it reads. -/
def captureV (st : Strand) (w : Word32) (a b : Word) (c : CsrCapture) : VEntry where
  word := w
  popped := false
  vl := st.vl
  vstart := st.csr.vstart.toNat
  vtype := st.vtype
  mtype := st.mtype
  csr := match c with
    | .none => 0
    | .qcfg => st.csr.qcfg.setWidth 22
    | .wcfg => st.csr.wcfg.setWidth 22
  frm := st.csr.vfrm.setWidth 4
  xrm := st.csr.vxrm.setWidth 2
  a := a
  b := b
  pc := st.pc
  seq := st.nextSeq
  done := false
  begun := false
  lanes := none

/-- The odd constant by which `srseed` advances (R157). -/
def seedStep : Word := 0x9E3779B97F4A7C15#64

/-- The operands that a V instruction reads at the front. -/
structure VShape where
  /-- It reads x[rs1]. -/
  r1 : Option Reg
  /-- It reads x[rs2]. -/
  r2 : Option Reg
  /-- It rounds under SR and so captures the seed and advances it (R157). -/
  seed : Strand → Bool
  /-- Which CSR it reads and so captures (R402). -/
  csr : Strand → CsrCapture

/-- The entry of a V instruction at the front, with a value that stands for the operands whose registers are empty. -/
def frontEntry (sh : VShape) (w : Word32) (st : Strand) (unknown : Word) : VEntry :=
  let val (r : Reg) : Word := if isEmpty st r then unknown else readReg st r
  captureV st w ((sh.r1.map val).getD 0)
    (match sh.r2 with
      | some r => val r
      | none => if sh.seed st then st.csr.srseed else 0) (sh.csr st)

/-- The ILL that the checks of a V instruction give whatever its empty operands hold (R68): with 0 and with 1 for them,
one of which every check of an operand value lets pass. -/
def illAhead (sh : VShape) (work : VEntry → Act Unit) (s : State) : Option Trap :=
  let found := [1, 0].map fun x =>
    let e := frontEntry sh s.fetched s.strand x
    match (work e { s with strand := { s.strand with vq := [e] } }).1 with
    | .error (.trap t) => if t.cause = causeIll then some t else none
    | _ => none
  if found.contains none then none
  else (found.filterMap id).foldl (init := none) fun acc t =>
    match acc with
    | some u => if u.tval = 6 then some t else some u
    | none => some t

/-- An empty register would raise FE for a V instruction, whose other checks come first (R68): with an ILL among them it
waits for the older V instructions, on which such a check may depend, and raises the ILL (DEDUCED, log 71). -/
def illBeforeFe (sh : VShape) (regs : List Reg) (work : VEntry → Act Unit) : Act Unit := do
  let s ← getS
  if regs.any fun r => isEmpty s.strand r && s.strand.csr.xfep.getLsbD r.toNat then
    match illAhead sh work s with
    | some t => if s.strand.vq = [] then stopWith (.trap t) else waitFor .uncounted
    | none => pure ()

/-- A V instruction leaves the front (R33, R36, R106): it waits for room and for its registers, its
result register becomes empty, and vstart becomes 0 (R59). -/
def enterV (sh : VShape) (work : VEntry → Act Unit) (s : State) : Out :=
  let regs := sh.r1.toList ++ sh.r2.toList ++ [vResultReg s.fetched]
  frontStepWith leaveFront (do
    illBeforeFe sh regs work
    needFull regs
    let st ← getStrand
    if 64 ≤ st.vq.length then waitFor .uncounted
    let a := (sh.r1.map (readReg st)).getD 0
    let b := match sh.r2 with
      | some r => readReg st r
      | none => if sh.seed st then st.csr.srseed else 0
    modStrand fun t => setEmpty { t with
      vq := t.vq ++ [captureV st s.fetched a b (sh.csr st)]
      csr := { t.csr with vstart := 0, srseed := if sh.seed st then t.csr.srseed + seedStep else t.csr.srseed } }
      (vResultReg s.fetched)
    pure none) s

/-- Changes the entry at the head of the V queue. -/
def modHead (f : VEntry → VEntry) : Act Unit := modStrand fun st =>
  match st.vq with
  | e :: es => { st with vq := f e :: es }
  | [] => st

/-- The word belongs to the accesses of the vector side (R263): OP-VM and the table reads of `vlut`. -/
def isVMem (w : Word32) : Bool :=
  let f := Fields.ofWord w
  f.op = 0b0101011#7 || (f.op = 0b0001011#7 && f.f3 = 0b101#3 && f.f7.extractLsb' 1 6 = 20#6)

/-- The vector memory instructions that read no memory: the stores of R139, `vsq` and `qst`. -/
def isVStore (w : Word32) : Bool :=
  let f := Fields.ofWord w
  f.op = 0b0101011#7 &&
  (let mop := f.f7.extractLsb' 4 3
   mop = 0b001#3 || mop = 0b011#3 || mop = 0b101#3 || (mop = 0b110#3 && (f.f3 = 0b001#3 || f.f3 = 0b011#3)))

/-- `qld` and `qst`, which do not read vl (R224). -/
def isQStream (w : Word32) : Bool :=
  let f := Fields.ofWord w
  f.op = 0b0101011#7 && f.f7.extractLsb' 4 3 = 0b110#3 && (f.f3 = 0b010#3 || f.f3 = 0b011#3)

/-- A V instruction has something to perform: elements from vstart to vl, or a stream that asks for none (R106, R224). -/
def performs (e : VEntry) : Bool := e.vstart < e.vl || isQStream e.word

/-- The pop and the push of a V entry: the other queue, of a pop that is not yet taken (R35). -/
def vPop (e : VEntry) : Option Queue :=
  if e.popped then none else
    match tkMeaning .v (tkOf e.word) with
    | some (false, q) => some q
    | _ => none

def vPush (e : VEntry) : Option Queue :=
  match tkMeaning .v (tkOf e.word) with
  | some (true, q) => some q
  | _ => none

/-- The counter of a V entry's push holds 15 (R35). -/
def pushBlocked (st : Strand) (e : VEntry) : Bool :=
  match vPush e with
  | some q => tokens st .v q = 15
  | none => false

/-- An entry that writes registers alone, and no memory or message, waits with its work until its push has room, so that
a stop before it retires finds its destinations as they were (R432): loads, window operations and `vrecv`. -/
def holdsForPush (st : Strand) (e : VEntry) : Bool :=
  pushBlocked st e && !isVStore e.word && !((Fields.ofWord e.word).op = 0b1011011#7 && cmdOf e.word = 0x30)

/-- The head of the V queue retires: its token is pushed, or it stays, done, until the counter has room
(R35). What it performed is then behind its vstart (R432). -/
def retireV (s : State) : State :=
  match s.strand.vq with
  | [] => s
  | e :: es =>
    let out : State := { s with strand := { s.strand with
      vq := es, waits := s.strand.waits.set 1 0, instret := s.strand.instret + 1 } }
    match vPush e with
    | some q =>
      if tokens s.strand .v q = 15 then
        { s with strand := { s.strand with
          vq := { e with done := true, vstart := if isQStream e.word then e.vstart else max e.vstart e.vl } :: es } }
      else pushToken .v q out
    | none => out

/-- A fault of the V side is reported to the front (R433). -/
def reportV (e : VEntry) (t : Trap) (s : State) : State :=
  { s with strand := { s.strand with
    pending := s.strand.pending ++ [{ trap := t, queue := .v, seq := e.seq, elem := t.telem.toNat }] } }

/-- In element-step mode a V instruction that has retired ends a step: it halts or traps STEP (R468). -/
def afterElem (e : VEntry) (s : State) : State :=
  if s.strand.dbgElem then
    if s.strand.dbgTrap then reportV e { cause := causeStep, tval := 0, telem := 0 } s
    else { s with strand := haltStrand .step s.strand }
  else s

/-- The head of the V queue takes its pop as it issues: an acquire, ahead of all its effects (R35, R123, R266). -/
def takePop (s : State) : State :=
  match s.strand.vq with
  | [] => s
  | e :: es =>
    match vPop e with
    | some q => popToken q .v { s with strand := { s.strand with
        waits := s.strand.waits.set 1 0, vq := { e with popped := true } :: es } }
    | none => s

/-- The head of the V queue may not issue: its pop finds no token, or it holds its work for its push (R35). -/
def issueBlocked (st : Strand) (e : VEntry) : Bool :=
  holdsForPush st e || match vPop e with
    | some q => tokens st q .v = 0
    | none => false

/-- The head of the V queue issues (R35, R68): its pop is taken, its checks are made, its work done, and it retires. An
ILL leaves the pop as it was, since a checked instruction has had no effect; any other fault leaves it satisfied. -/
def vecStep (work : VEntry → Act Unit) (s : State) : Out :=
  match s.strand.vq with
  | [] => .next s
  | e :: _ =>
    if e.done then .next (retireV s)
    else if issueBlocked s.strand e then .next s
    else
      match work e (takePop s) with
      | (.ok _, s') => .next (afterElem e (retireV s'))
      | (.error (.trap t), s') => .next (reportV e t (if t.cause = causeIll then s else s'))
      | (.error (.wait _), s') | (.error (.hold _), s') => .next s'
      | (.error (.halt r), s') => .next { s' with strand := haltStrand r s'.strand }
      | (.error (.fault f), _) => .fault f
      | (.error (.refuse r), _) => .refused r

/-- A V instruction: it leaves the front, or issues from the head of its queue. -/
def vInstr (sh : VShape) (work : VEntry → Act Unit) (s : State) : Out :=
  match s.actor with
  | .front => enterV sh work s
  | .vec => vecStep work s

/-- Every write that the device has sent on a port is performed at system scope (R264). -/
def portsSettled (s : State) : Bool := (List.range 4).all fun p =>
  (s.out.filter fun t => t.port = p && t.kind = 1).length ≤ s.hub.pcieDone.toList.getD p 0

/-! ### Entering an engine queue -/

/-- What a command captures (R241, R298): registers, `mcfg`, a seed, and the CSRs of `kvrepair`. -/
structure CShape where
  r1 : Option Reg
  r2 : Option Reg
  mcfg : Bool
  seed : Strand → Bool
  kv : Bool

/-- An instruction waits for those of its empty registers that it may wait for (R36). -/
def waitUnarmed (rs : List Reg) : Act Unit := do
  let st ← getStrand
  match rs.find? fun r => isEmpty st r && !st.csr.xfep.getLsbD r.toNat with
  | some r => waitFor (.fe r)
  | none => pure ()

/-- The value of an operand register that is full. -/
def knownReg (st : Strand) (r : Option Reg) : Option Word :=
  match r with
  | some r => if isEmpty st r then none else some (readReg st r)
  | none => some 0

/-- A command leaves the front for its queue (R33, R241, R298): it waits for its registers, its checks are made, those
on operand values with the values that are known, an empty register raises FE after them (R68, log 71), and it waits for
room. -/
def enterC (q : Queue) (sh : CShape) (check : Strand → (a b : Option Word) → Act Unit) (s : State) : Out :=
  let regs := sh.r1.toList ++ sh.r2.toList
  frontStepWith leaveFront (do
    waitUnarmed regs
    let st ← getStrand
    let a := (sh.r1.map (readReg st)).getD 0
    let b := if sh.kv then st.csr.kvdev.setWidth 32 |>.setWidth 64 |>.or ((st.csr.kvcfg.setWidth 14).setWidth 64 <<< 32)
      else (sh.r2.map (readReg st)).getD 0
    check st (knownReg st sh.r1) (knownReg st sh.r2)
    needFull regs
    if 16 ≤ (cmdQueue st q).length then waitFor .uncounted
    let e : CEntry :=
      { word := s.fetched, popped := false, step := 0, copied := false, a := a, b := b
        aux := if sh.seed st then st.csr.srseed else 0
        mcfg := if sh.mcfg then st.csr.mcfg else 0
        seq := st.nextSeq, accepted := false, done := false, writer := none
        prog := Progress.none }
    modStrand fun t => setCmdQueue { t with csr := { t.csr with
      srseed := if sh.seed st then t.csr.srseed + seedStep else t.csr.srseed } } q (cmdQueue t q ++ [e])
    pure none) s

end Sys2Proof.Machine
end

