-- ==== Sys2Proof/Machine/Scalar.lean ====
section
/-! DEFINITION. The RV64IMA base of the strands: arithmetic, control transfer, loads, stores, LR/SC,
atomics and fences (R92 to R101). -/

namespace Sys2Proof.Machine

/-- The low 32 bits of a result, sign-extended (R92). -/
def sextW (v : Word32) : Word := v.signExtend 64

def lowW (v : Word) : Word32 := v.setWidth 32

def boolWord (b : Bool) : Word := if b then 1 else 0

/-- Division rounding toward zero: by zero every bit set, the minimum by -1 itself (R95). -/
def divS {w : Nat} (a b : BitVec w) : BitVec w := if b = 0 then BitVec.allOnes w else a.sdiv b

/-- Remainder with the sign of the dividend: by zero the dividend (R95). -/
def remS {w : Nat} (a b : BitVec w) : BitVec w := if b = 0 then a else a.srem b

def divU {w : Nat} (a b : BitVec w) : BitVec w := if b = 0 then BitVec.allOnes w else a / b

def remU {w : Nat} (a b : BitVec w) : BitVec w := if b = 0 then a else a % b

/-- The high 64 bits of a product of integers (R95). -/
def mulHigh (a b : Int) : Word := BitVec.ofInt 64 (a * b / 2 ^ 64)

/-- A register-register instruction. -/
def opRR (d a b : Reg) (f : Word → Word → Word) (s : State) : Out :=
  writeInstr d [a, b] (fun st => f (readReg st a) (readReg st b)) s

/-- A register-immediate instruction; the immediate is sign-extended (R94). -/
def opRI (d a : Reg) (i : BitVec 12) (f : Word → Word → Word) (s : State) : Out :=
  writeInstr d [a] (fun st => f (readReg st a) (i.signExtend 64)) s

/-- A shift by an immediate amount. -/
def opSh (d a : Reg) (h : Nat) (f : Word → Nat → Word) (s : State) : Out :=
  writeInstr d [a] (fun st => f (readReg st a) h) s

/-- The upper-immediate value (R93). -/
def upperImm (i : BitVec 20) : Word := (i ++ 0#12).signExtend 64

/-- A control transfer with a link: the target is checked before rd is written (R66, R93). -/
def linkTo (d : Reg) (t : Strand → Word) : Act (Option Word) := do
  let st ← getStrand
  checkTarget (t st)
  modStrand fun st => writeReg st d (st.pc + 4)
  pure (some (t st))

/-- A branch; the offset has its bit 0 zero (R69, R93). -/
def branch (a b : Reg) (i : BitVec 12) (c : Word → Word → Bool) (s : State) : Out :=
  frontInstr (pure ()) [a, b] (do
    let st ← getStrand
    if c (readReg st a) (readReg st b) then
      let t := st.pc + (i ++ 0#1).signExtend 64
      checkTarget t
      pure (some t)
    else pure none) s

/-- LUI (R93). -/
def execLui (d : BitVec 5) (i : BitVec 20) (s : State) : Out :=
  writeInstr d [] (fun _ => upperImm i) s

/-- AUIPC (R93). -/
def execAuipc (d : BitVec 5) (i : BitVec 20) (s : State) : Out :=
  writeInstr d [] (fun st => st.pc + upperImm i) s

/-- JAL (R93). -/
def execJal (d : BitVec 5) (i : BitVec 20) (s : State) : Out :=
  frontInstr (pure ()) [d] (linkTo d fun st => st.pc + (i ++ 0#1).signExtend 64) s

/-- JALR: bit 0 of the target is cleared (R93). -/
def execJalr (d a : BitVec 5) (i : BitVec 12) (s : State) : Out :=
  frontInstr (pure ()) [a, d] (linkTo d fun st => (readReg st a + i.signExtend 64) &&& ~~~1) s

/-- BEQ: branches on = (R93). -/
def execBeq (a b : BitVec 5) (i : BitVec 12) (s : State) : Out :=
  branch a b i (fun x y => x = y) s

/-- BNE: branches on ≠ (R93). -/
def execBne (a b : BitVec 5) (i : BitVec 12) (s : State) : Out :=
  branch a b i (fun x y => x ≠ y) s

/-- BLT: branches on signed < (R93). -/
def execBlt (a b : BitVec 5) (i : BitVec 12) (s : State) : Out :=
  branch a b i (BitVec.slt) s

/-- BGE: branches on signed ≥ (R93). -/
def execBge (a b : BitVec 5) (i : BitVec 12) (s : State) : Out :=
  branch a b i (fun x y => !x.slt y) s

/-- BLTU: branches on unsigned < (R93). -/
def execBltu (a b : BitVec 5) (i : BitVec 12) (s : State) : Out :=
  branch a b i (BitVec.ult) s

/-- BGEU: branches on unsigned ≥ (R93). -/
def execBgeu (a b : BitVec 5) (i : BitVec 12) (s : State) : Out :=
  branch a b i (fun x y => !x.ult y) s

/-- ADDI: sum with the immediate (R94). -/
def execAddi (d a : BitVec 5) (i : BitVec 12) (s : State) : Out :=
  opRI d a i (· + ·) s

/-- SLTI: signed less-than with the immediate (R94). -/
def execSlti (d a : BitVec 5) (i : BitVec 12) (s : State) : Out :=
  opRI d a i (fun x y => boolWord (x.slt y)) s

/-- SLTIU: unsigned less-than with the immediate (R94). -/
def execSltiu (d a : BitVec 5) (i : BitVec 12) (s : State) : Out :=
  opRI d a i (fun x y => boolWord (x.ult y)) s

/-- XORI: exclusive or with the immediate (R94). -/
def execXori (d a : BitVec 5) (i : BitVec 12) (s : State) : Out :=
  opRI d a i (· ^^^ ·) s

/-- ORI: or with the immediate (R94). -/
def execOri (d a : BitVec 5) (i : BitVec 12) (s : State) : Out :=
  opRI d a i (· ||| ·) s

/-- ANDI: and with the immediate (R94). -/
def execAndi (d a : BitVec 5) (i : BitVec 12) (s : State) : Out :=
  opRI d a i (· &&& ·) s

/-- ADDIW: 32-bit sum with the immediate (R94). -/
def execAddiw (d a : BitVec 5) (i : BitVec 12) (s : State) : Out :=
  opRI d a i (fun x y => sextW (lowW x + lowW y)) s

/-- SLLI: shift left (R94). -/
def execSlli (d a : BitVec 5) (h : BitVec 6) (s : State) : Out :=
  opSh d a h.toNat (fun x h => x <<< h) s

/-- SRLI: shift logical right (R94). -/
def execSrli (d a : BitVec 5) (h : BitVec 6) (s : State) : Out :=
  opSh d a h.toNat (fun x h => x >>> h) s

/-- SRAI: shift arithmetic right (R94). -/
def execSrai (d a : BitVec 5) (h : BitVec 6) (s : State) : Out :=
  opSh d a h.toNat (fun x h => x.sshiftRight h) s

/-- SLLIW: 32-bit shift left (R94). -/
def execSlliw (d a h : BitVec 5) (s : State) : Out :=
  opSh d a h.toNat (fun x h => sextW (lowW x <<< h)) s

/-- SRLIW: 32-bit shift logical right (R94). -/
def execSrliw (d a h : BitVec 5) (s : State) : Out :=
  opSh d a h.toNat (fun x h => sextW (lowW x >>> h)) s

/-- SRAIW: 32-bit shift arithmetic right (R94). -/
def execSraiw (d a h : BitVec 5) (s : State) : Out :=
  opSh d a h.toNat (fun x h => sextW ((lowW x).sshiftRight h)) s

/-- ADD: sum (R94). -/
def execAdd (d a b : BitVec 5) (s : State) : Out :=
  opRR d a b (· + ·) s

/-- SUB: difference (R94). -/
def execSub (d a b : BitVec 5) (s : State) : Out :=
  opRR d a b (· - ·) s

/-- SLL: shift left (R94). -/
def execSll (d a b : BitVec 5) (s : State) : Out :=
  opRR d a b (fun x y => x <<< (y.toNat % 64)) s

/-- SLT: signed less-than (R94). -/
def execSlt (d a b : BitVec 5) (s : State) : Out :=
  opRR d a b (fun x y => boolWord (x.slt y)) s

/-- SLTU: unsigned less-than (R94). -/
def execSltu (d a b : BitVec 5) (s : State) : Out :=
  opRR d a b (fun x y => boolWord (x.ult y)) s

/-- XOR: exclusive or (R94). -/
def execXor (d a b : BitVec 5) (s : State) : Out :=
  opRR d a b (· ^^^ ·) s

/-- SRL: logical shift right (R94). -/
def execSrl (d a b : BitVec 5) (s : State) : Out :=
  opRR d a b (fun x y => x >>> (y.toNat % 64)) s

/-- SRA: arithmetic shift right (R94). -/
def execSra (d a b : BitVec 5) (s : State) : Out :=
  opRR d a b (fun x y => x.sshiftRight (y.toNat % 64)) s

/-- OR: or (R94). -/
def execOr (d a b : BitVec 5) (s : State) : Out :=
  opRR d a b (· ||| ·) s

/-- AND: and (R94). -/
def execAnd (d a b : BitVec 5) (s : State) : Out :=
  opRR d a b (· &&& ·) s

/-- ADDW: 32-bit sum (R94). -/
def execAddw (d a b : BitVec 5) (s : State) : Out :=
  opRR d a b (fun x y => sextW (lowW x + lowW y)) s

/-- SUBW: 32-bit difference (R94). -/
def execSubw (d a b : BitVec 5) (s : State) : Out :=
  opRR d a b (fun x y => sextW (lowW x - lowW y)) s

/-- SLLW: 32-bit shift left (R94). -/
def execSllw (d a b : BitVec 5) (s : State) : Out :=
  opRR d a b (fun x y => sextW (lowW x <<< (y.toNat % 32))) s

/-- SRLW: 32-bit logical shift right (R94). -/
def execSrlw (d a b : BitVec 5) (s : State) : Out :=
  opRR d a b (fun x y => sextW (lowW x >>> (y.toNat % 32))) s

/-- SRAW: 32-bit arithmetic shift right (R94). -/
def execSraw (d a b : BitVec 5) (s : State) : Out :=
  opRR d a b (fun x y => sextW ((lowW x).sshiftRight (y.toNat % 32))) s

/-- MUL: low product (R95). -/
def execMul (d a b : BitVec 5) (s : State) : Out :=
  opRR d a b (· * ·) s

/-- MULH: high product, signed (R95). -/
def execMulh (d a b : BitVec 5) (s : State) : Out :=
  opRR d a b (fun x y => mulHigh x.toInt y.toInt) s

/-- MULHSU: high product, signed by unsigned (R95). -/
def execMulhsu (d a b : BitVec 5) (s : State) : Out :=
  opRR d a b (fun x y => mulHigh x.toInt y.toNat) s

/-- MULHU: high product, unsigned (R95). -/
def execMulhu (d a b : BitVec 5) (s : State) : Out :=
  opRR d a b (fun x y => mulHigh x.toNat y.toNat) s

/-- DIV: signed quotient (R95). -/
def execDiv (d a b : BitVec 5) (s : State) : Out :=
  opRR d a b divS s

/-- DIVU: unsigned quotient (R95). -/
def execDivu (d a b : BitVec 5) (s : State) : Out :=
  opRR d a b divU s

/-- REM: signed remainder (R95). -/
def execRem (d a b : BitVec 5) (s : State) : Out :=
  opRR d a b remS s

/-- REMU: unsigned remainder (R95). -/
def execRemu (d a b : BitVec 5) (s : State) : Out :=
  opRR d a b remU s

/-- MULW: 32-bit product (R95). -/
def execMulw (d a b : BitVec 5) (s : State) : Out :=
  opRR d a b (fun x y => sextW (lowW x * lowW y)) s

/-- DIVW: 32-bit signed quotient (R95). -/
def execDivw (d a b : BitVec 5) (s : State) : Out :=
  opRR d a b (fun x y => sextW (divS (lowW x) (lowW y))) s

/-- DIVUW: 32-bit unsigned quotient (R95). -/
def execDivuw (d a b : BitVec 5) (s : State) : Out :=
  opRR d a b (fun x y => sextW (divU (lowW x) (lowW y))) s

/-- REMW: 32-bit signed remainder (R95). -/
def execRemw (d a b : BitVec 5) (s : State) : Out :=
  opRR d a b (fun x y => sextW (remS (lowW x) (lowW y))) s

/-- REMUW: 32-bit unsigned remainder (R95). -/
def execRemuw (d a b : BitVec 5) (s : State) : Out :=
  opRR d a b (fun x y => sextW (remU (lowW x) (lowW y))) s

/-- Some vector memory instruction of the strand has not retired: the vector commit pointer has not passed it (R99,
R118); one whose push waits has not (R35). -/
def vMemBusy (st : Strand) : Bool := st.vq.any fun e => isVMem e.word

/-- Some vector instruction of the strand still has to read memory. A younger scalar write is performed after those
reads: else a load could return what depends on its own store (R269, R271). -/
def vReadBusy (st : Strand) : Bool := st.vq.any fun e => !e.done && isVMem e.word && !isVStore e.word && performs e

/-- The address and length of element i of a unit-stride or strided entry (R139). -/
def vElemAt (e : VEntry) (i : Nat) : Nat × Nat :=
  let f := Fields.ofWord e.word
  let bits := 2 ^ natBits e.vtype.toNat 5 3
  if f.f7.extractLsb' 4 3 = 0b010#3 ∨ f.f7.extractLsb' 4 3 = 0b011#3 then
    ((e.a + BitVec.ofNat 64 i * e.b).toNat, max 1 (bits / 8))
  else ((e.a.toNat + i * bits / 8) % 2 ^ 64, max 1 (bits / 8))

/-- The physical range behind an address of a space (0 VS, 1 LS, 2 GS), where there is one. -/
def physRange (s : State) (p : Port) (space a : Nat) : Option Nat :=
  if space = 0 then
    match (runAct (translate p a .load) s).1 with
    | .ok pl => some (canonical pl.pa)
    | .error _ => none
  else some (spaceBase space (p.hoop.getD 0) + a)

/-- Two ranges of bytes meet. -/
def rangesMeet (a n b k : Nat) : Bool := a < b + k && b < a + n

/-- A scalar access waits for an older vector memory instruction that may touch one of its bytes (R265), by its
address or through another mapping of the byte: for indexed, window and atomic instructions until they retire. -/
def vMayTouch (s : State) (va n : Nat) (e : VEntry) : Bool :=
  isVMem e.word && performs e &&
  let f := Fields.ofWord e.word
  let p := strandPort s.strand 2
  if f.op = 0b0101011#7 ∧ f.f7.extractLsb' 6 1 = 0#1 then
    !e.done && (List.range e.vl).any fun i =>
      let (a, k) := vElemAt e i
      e.vstart ≤ i &&
      ((e.mtype = 0 && rangesMeet a k va n) ||
       match physRange s p e.mtype.toNat a, physRange s p 0 va with
       | some x, some y => rangesMeet x k y n
       | _, _ => false)
  else true

/-- The scalar access waits behind the vector side where R265 orders them. -/
def waitV (va n : Nat) : Act Unit := do
  let s ← getS
  if s.strand.vq.any (vMayTouch s va n) then waitFor .uncounted

/-- A scalar write waits behind the older vector reads as well (R269, R271). -/
def waitVReads : Act Unit := do
  let st ← getStrand
  if vReadBusy st then waitFor .uncounted

/-- The address of a base load or store (R96), which must be aligned (R92). -/
def baseAddr (st : Strand) (a : Reg) (i : BitVec 12) : Nat := (readReg st a + i.signExtend 64).toNat

def checkAlign (va n : Nat) : Act Unit := if va % n = 0 then pure () else raise causeAlign va

/-- A base load of n bytes (R96). -/
def loadInstr (d a : Reg) (i : BitVec 12) (n : Nat) (ext : Nat → Word) (s : State) : Out :=
  frontInstr (pure ()) [a, d] (do
    let st ← getStrand
    let va := baseAddr st a i
    checkAlign va n
    waitV va n
    let bs ← vsRead (strandPort st 1) va n true
    setX d (ext (leNat bs))
    pure none) s

/-- A base store of n bytes (R96). -/
def storeInstr (a b : Reg) (i : BitVec 12) (n : Nat) (s : State) : Out :=
  frontInstr (pure ()) [a, b] (do
    let st ← getStrand
    let va := baseAddr st a i
    checkAlign va n
    waitV va n
    waitVReads
    vsWrite (strandPort st 1) va (leBytes n (readReg st b).toNat) true
    pure none) s

/-- Sign extension of an n-byte value. -/
def sextBytes (n v : Nat) : Word := BitVec.ofInt 64 (signed (8 * n) v)

def zextBytes (v : Nat) : Word := BitVec.ofNat 64 v

/-- LB (R96). -/
def execLb (d a : BitVec 5) (i : BitVec 12) (s : State) : Out :=
  loadInstr d a i 1 (sextBytes 1) s

/-- LH (R96). -/
def execLh (d a : BitVec 5) (i : BitVec 12) (s : State) : Out :=
  loadInstr d a i 2 (sextBytes 2) s

/-- LW (R96). -/
def execLw (d a : BitVec 5) (i : BitVec 12) (s : State) : Out :=
  loadInstr d a i 4 (sextBytes 4) s

/-- LD (R96). -/
def execLd (d a : BitVec 5) (i : BitVec 12) (s : State) : Out :=
  loadInstr d a i 8 zextBytes s

/-- LBU (R96). -/
def execLbu (d a : BitVec 5) (i : BitVec 12) (s : State) : Out :=
  loadInstr d a i 1 zextBytes s

/-- LHU (R96). -/
def execLhu (d a : BitVec 5) (i : BitVec 12) (s : State) : Out :=
  loadInstr d a i 2 zextBytes s

/-- LWU (R96). -/
def execLwu (d a : BitVec 5) (i : BitVec 12) (s : State) : Out :=
  loadInstr d a i 4 zextBytes s

/-- SB (R96). -/
def execSb (a b : BitVec 5) (i : BitVec 12) (s : State) : Out :=
  storeInstr a b i 1 s

/-- SH (R96). -/
def execSh (a b : BitVec 5) (i : BitVec 12) (s : State) : Out :=
  storeInstr a b i 2 s

/-- SW (R96). -/
def execSw (a b : BitVec 5) (i : BitVec 12) (s : State) : Out :=
  storeInstr a b i 4 s

/-- SD (R96). -/
def execSd (a b : BitVec 5) (i : BitVec 12) (s : State) : Out :=
  storeInstr a b i 8 s

/-- rl = 1: the instruction waits until the vector side has performed its older accesses (R99). -/
def waitRelease (l : BitVec 1) : Act Unit := do
  let st ← getStrand
  if l = 1 ∧ vMemBusy st then waitFor .uncounted

/-- aq = 1: the hoop's stream buffers are invalidated (R99, R123). -/
def acquireIf (q : BitVec 1) : Act Unit := if q = 1 then acquire else pure ()

/-- LR of n bytes (R97): the reservation covers the aligned 64-byte granule. -/
def loadReserved (d a : Reg) (q l : BitVec 1) (n : Nat) (s : State) : Out :=
  frontInstr (pure ()) [a, d] (do
    let st ← getStrand
    let va := (readReg st a).toNat
    checkAlign va n
    waitV va n
    waitRelease l
    let p := strandPort st 1
    let pl ← access p va n true false true true
    let bs ← loadPlace p pl n va
    modStrand fun st => { writeReg st d (sextBytes n (leNat bs)) with resv := some (canonical pl.pa / 64) }
    if l = 1 then modS (advanceEpoch st.asid)
    acquireIf q
    pure none) s

/-- SC of n bytes (R97): it writes if the reservation is held and covers the address, and clears it. -/
def storeConditional (d a b : Reg) (q l : BitVec 1) (n : Nat) (s : State) : Out :=
  frontInstr (pure ()) [a, b, d] (do
    let st ← getStrand
    let va := (readReg st a).toNat
    checkAlign va n
    waitV va n
    waitVReads
    waitRelease l
    let p := strandPort st 1
    let covers ← match st.resv with
      | none => pure false
      | some g => do
        match ← tryTrap (translate p va .load) with
        | .ok pl => pure (decide (canonical pl.pa / 64 = g))
        | .error _ => pure false
    if covers then
      let pl ← access p va n false true true true
      writePlace p pl (leBytes n (readReg st b).toNat)
    modStrand fun st => { writeReg st d (boolWord (!covers)) with resv := none }
    if l = 1 then modS (advanceEpoch st.asid)
    acquireIf q
    pure none) s

/-- The functions of the AMOs (R98). -/
inductive AmoOp where
  | swap | add | xor | and | or | min | max | minu | maxu
  deriving DecidableEq, Repr

/-- The operation on the old value, sign-extended, and the whole of x[rs2] (R98). -/
def amoFun (op : AmoOp) (old x : Word) : Word :=
  match op with
  | .swap => x
  | .add => old + x
  | .xor => old ^^^ x
  | .and => old &&& x
  | .or => old ||| x
  | .min => if x.slt old then x else old
  | .max => if old.slt x then x else old
  | .minu => if x.ult old then x else old
  | .maxu => if old.ult x then x else old

/-- An AMO of n bytes (R98): one indivisible access of HBM or SRAM; rd is empty until the old value
returns (R36). -/
def amo (op : AmoOp) (d a b : Reg) (q l : BitVec 1) (n : Nat) (s : State) : Out :=
  frontInstr (pure ()) [a, b, d] (do
    let st ← getStrand
    let va := (readReg st a).toNat
    checkAlign va n
    waitV va n
    waitVReads
    waitRelease l
    let p := strandPort st 1
    let pl ← access p va n true true true false
    let bs ← loadPlace p pl n va
    let old := sextBytes n (leNat bs)
    writePlace p pl (leBytes n (amoFun op old (readReg st b)).toNat)
    if d ≠ 0 then
      modStrand fun st => { setEmpty st d with
        fePend := st.fePend ++ [{ rd := d, val := old, seq := st.nextSeq }] }
    if l = 1 then modS (advanceEpoch st.asid)
    acquireIf q
    pure none) s

/-- LR.W (R97, R99). -/
def execLrW (d a : BitVec 5) (q l : BitVec 1) (s : State) : Out :=
  loadReserved d a q l 4 s

/-- SC.W (R97, R99). -/
def execScW (d a b : BitVec 5) (q l : BitVec 1) (s : State) : Out :=
  storeConditional d a b q l 4 s

/-- AMOSWAP.W (R98, R99). -/
def execAmoswapW (d a b : BitVec 5) (q l : BitVec 1) (s : State) : Out :=
  amo .swap d a b q l 4 s

/-- AMOADD.W (R98, R99). -/
def execAmoaddW (d a b : BitVec 5) (q l : BitVec 1) (s : State) : Out :=
  amo .add d a b q l 4 s

/-- AMOXOR.W (R98, R99). -/
def execAmoxorW (d a b : BitVec 5) (q l : BitVec 1) (s : State) : Out :=
  amo .xor d a b q l 4 s

/-- AMOAND.W (R98, R99). -/
def execAmoandW (d a b : BitVec 5) (q l : BitVec 1) (s : State) : Out :=
  amo .and d a b q l 4 s

/-- AMOOR.W (R98, R99). -/
def execAmoorW (d a b : BitVec 5) (q l : BitVec 1) (s : State) : Out :=
  amo .or d a b q l 4 s

/-- AMOMIN.W (R98, R99). -/
def execAmominW (d a b : BitVec 5) (q l : BitVec 1) (s : State) : Out :=
  amo .min d a b q l 4 s

/-- AMOMAX.W (R98, R99). -/
def execAmomaxW (d a b : BitVec 5) (q l : BitVec 1) (s : State) : Out :=
  amo .max d a b q l 4 s

/-- AMOMINU.W (R98, R99). -/
def execAmominuW (d a b : BitVec 5) (q l : BitVec 1) (s : State) : Out :=
  amo .minu d a b q l 4 s

/-- AMOMAXU.W (R98, R99). -/
def execAmomaxuW (d a b : BitVec 5) (q l : BitVec 1) (s : State) : Out :=
  amo .maxu d a b q l 4 s

/-- LR.D (R97, R99). -/
def execLrD (d a : BitVec 5) (q l : BitVec 1) (s : State) : Out :=
  loadReserved d a q l 8 s

/-- SC.D (R97, R99). -/
def execScD (d a b : BitVec 5) (q l : BitVec 1) (s : State) : Out :=
  storeConditional d a b q l 8 s

/-- AMOSWAP.D (R98, R99). -/
def execAmoswapD (d a b : BitVec 5) (q l : BitVec 1) (s : State) : Out :=
  amo .swap d a b q l 8 s

/-- AMOADD.D (R98, R99). -/
def execAmoaddD (d a b : BitVec 5) (q l : BitVec 1) (s : State) : Out :=
  amo .add d a b q l 8 s

/-- AMOXOR.D (R98, R99). -/
def execAmoxorD (d a b : BitVec 5) (q l : BitVec 1) (s : State) : Out :=
  amo .xor d a b q l 8 s

/-- AMOAND.D (R98, R99). -/
def execAmoandD (d a b : BitVec 5) (q l : BitVec 1) (s : State) : Out :=
  amo .and d a b q l 8 s

/-- AMOOR.D (R98, R99). -/
def execAmoorD (d a b : BitVec 5) (q l : BitVec 1) (s : State) : Out :=
  amo .or d a b q l 8 s

/-- AMOMIN.D (R98, R99). -/
def execAmominD (d a b : BitVec 5) (q l : BitVec 1) (s : State) : Out :=
  amo .min d a b q l 8 s

/-- AMOMAX.D (R98, R99). -/
def execAmomaxD (d a b : BitVec 5) (q l : BitVec 1) (s : State) : Out :=
  amo .max d a b q l 8 s

/-- AMOMINU.D (R98, R99). -/
def execAmominuD (d a b : BitVec 5) (q l : BitVec 1) (s : State) : Out :=
  amo .minu d a b q l 8 s

/-- AMOMAXU.D (R98, R99). -/
def execAmomaxuD (d a b : BitVec 5) (q l : BitVec 1) (s : State) : Out :=
  amo .maxu d a b q l 8 s

/-- FENCE (R100): it orders the accesses of the scalar side, which this model performs in program order,
each when its instruction runs; nothing is left to wait for. -/
def execFence (_f _p _s : BitVec 4) (s : State) : Out :=
  frontInstr (pure ()) [] (pure none) s

/-- FENCE.TSO (R100): as FENCE. -/
def execFenceTso (s : State) : Out :=
  frontInstr (pure ()) [] (pure none) s

/-- ECALL raises SYS, precise at the instruction (R101). -/
def execEcall (s : State) : Out :=
  frontInstr (pure ()) [] (raise causeSys 0) s

/-- EBREAK raises BRK; where the debugger is armed it halts the strand instead (R101, R465). -/
def execEbreak (s : State) : Out :=
  frontInstr (pure ()) [] (do
    let st ← getStrand
    if st.dbgArmed then stopWith (.halt .ebreak) else raise causeBrk 0) s

end Sys2Proof.Machine
end

