-- ==== Sys2Proof/Machine/Publish.lean ====
section
/-! DEFINITION. Publish sets (R279 to R282): their validation, their writers, their installation, and the two
instructions. -/

namespace Sys2Proof.Machine

/-- An entry is a valid non-leaf entry at a level (R132, R133). -/
def isNonLeaf (pte level : Nat) : Bool :=
  natBits pte 0 0 = 1 && natBits pte 3 1 = 0 && natBits pte 63 54 = 0 && natBits pte 9 9 = 0 &&
  natBits pte 8 4 = 0 && natBits pte 19 15 = 0 && level ≠ 1

/-- The slot of a VA (R280): the first entry on its walk that is not a valid non-leaf entry, as its address,
level and content; `none` where a table cannot be read. -/
def findSlot (p : Port) (va : Nat) : Nat → Nat → Act (Option (Nat × Nat × Nat))
  | 0, _ => pure none
  | level + 1, a => do
    let slot := a + 8 * vaIndex va (level + 1)
    match ← tryTrap (readPte p va slot) with
    | .error _ => pure none
    | .ok pte =>
      if isNonLeaf pte (level + 1) then findSlot p va level (natBits pte 53 20 * 2 ^ 18 + natBits pte 14 10 * 2 ^ 13)
      else pure (some (slot, level + 1, pte))

/-- A PTE is a valid leaf with S = 1 that keeps R132 and the rules of R133 for a level (reason 5). -/
def leafOk (pte level : Nat) : Bool :=
  natBits pte 0 0 = 1 && natBits pte 63 54 = 0 && natBits pte 9 9 = 0 && natBits pte 3 1 ≠ 0 && natBits pte 8 8 = 1 &&
  !(natBits pte 2 2 = 1 && natBits pte 1 1 = 0) && !(level = 2 && natBits pte 29 20 ≠ 0)

/-- The key slot of a new PTE suits what it maps (reason 8). -/
def leafKeyOk (s : State) (asid : BitVec 12) (pte : Nat) : Bool :=
  match regionOf (natBits pte 53 20 * 2 ^ 18) with
  | .hbm _ => (keySlot s (natBits pte 19 10)).loaded && (keySlot s (natBits pte 19 10)).owner = asid
  | _ => natBits pte 19 10 = 0

/-- The checks of entry j (R280): the reason of the first that fails, or the slot, the new PTE, the VA and the
bits of the page. -/
def checkEntry (p : Port) (below : List Nat) (bs : List Byte) : Act (Except Nat (Nat × Nat × Nat × Nat)) := do
  let va := field bs 0 8
  let pte := field bs 8 8
  if field bs 0x18 8 ≠ 0 then pure (.error 2)
  else if 2 ^ 48 ≤ va then pure (.error 3)
  else do
    match ← findSlot p va 3 p.root with
    | none => pure (.error 3)
    | some (slot, level, cur) => do
      let s ← getS
      if level = 3 ∨ va % 2 ^ pageBits level ≠ 0 then pure (.error 3)
      else if natBits cur 8 8 = 0 then pure (.error 4)
      else if !leafOk pte level then pure (.error 5)
      else if below.contains va then pure (.error 6)
      else if !leafKeyOk s p.asid pte then pure (.error 8)
      else pure (.ok (slot, pte, va, pageBits level))

/-- Checks entries in ascending order; a failure gives its reason and index. -/
def checkEntries (p : Port) : Nat → List (List Byte) → List (Nat × Nat × Nat × Nat) →
    Act (Except (Nat × Nat) (List (Nat × Nat × Nat × Nat)))
  | _, [], acc => pure (.ok acc)
  | j, e :: es, acc => do
    match ← checkEntry p (acc.map fun x => x.2.2.1) e with
    | .error r => pure (.error (r, j))
    | .ok x => checkEntries p (j + 1) es (acc ++ [x])

/-- A set is the one at an address of a context. -/
def isSet (p : Port) (addr : Nat) (d : PubSet) : Bool :=
  d.addr.toNat = addr && d.asid = p.asid && d.root.toNat = p.root

def emitPublish (p : Port) (addr state : Nat) (s : State) : State :=
  match p.hoop with
  | some h => emitHoop h p.slot p.asid 8 (natBits addr 47 6 + state * 2 ^ 42) s
  | none => emitHub 8 (natBits addr 47 6 + state * 2 ^ 42) s

/-- The hub knows a set as one in state 1, with its entries. -/
def markPublishing (p : Port) (addr : Nat) (owner : StrandId) (es : List (Nat × Nat × Nat × Nat)) (s : State) : State :=
  let start (d : PubSet) : PubSet := { d with publishing := true, owner := owner, entries := es }
  let fresh : PubSet := { addr := BitVec.ofNat 64 addr, asid := p.asid, root := BitVec.ofNat 64 p.root, writers := 0
                          publishing := true, owner := owner, entries := es }
  { s with hub := { s.hub with sets :=
      if (s.hub.sets.any (isSet p addr)) then listUpd (isSet p addr) start s.hub.sets else s.hub.sets ++ [fresh] } }

/-- Validates a set and begins its publication, or writes state 4 with the reason (R280). The engines that
publish on their own come here too. The hub tracks at most 256 sets; it knows of the publication once state 1 is
written. On success the result word stays as software wrote it: R280 writes the state alone (DESIGN CHOICE, log 95). -/
def publishSet (p : Port) (addr : Nat) (owner : StrandId) : Act Unit := do
  let head ← vsReadBlock p addr 64
  let n := field head 0 4
  let fail (reason j : Nat) : Act Unit := do
    vsWriteBlock p (addr + 8) (leBytes 4 4 ++ leBytes 4 (reason * 256 + j))
    modS (emitPublish p addr 4)
  if n < 1 ∨ 64 < n then fail 1 0
  else do
    let body ← vsReadBlock p (addr + 64) (32 * n)
    if field head 4 4 ≠ 0 ∨ !allZero head 0x10 48 then fail 2 0
    else if field head 8 4 ≠ 0 then fail 7 0
    else do
      match ← checkEntries p 0 (chunksOf 32 n body) [] with
      | .error (r, j) => fail r j
      | .ok es => do
        let s ← getS
        if !(s.hub.sets.any (isSet p addr)) && 256 ≤ s.hub.sets.length then waitFor .uncounted
        vsWriteBlock p (addr + 8) (leBytes 4 1)
        modS fun s => emitPublish p addr 1 (markPublishing p addr owner es s)

/-- An engine command names a set as it is first accepted (R279): a state other than 0 raises ACC. -/
def registerWriter (p : Port) (addr : Nat) (owner : StrandId) : Act Unit := do
  let state ← vsReadNat p (addr + 8) 4
  if state ≠ 0 then raise causeAcc addr
  let s ← getS
  if s.hub.sets.any (isSet p addr) then
    modHub fun h => { h with sets := listUpd (isSet p addr) (fun d => { d with writers := d.writers + 1 }) h.sets }
  else do
    if 256 ≤ s.hub.sets.length then waitFor .uncounted
    modHub fun h => { h with sets := h.sets ++ [{ addr := BitVec.ofNat 64 addr, asid := p.asid
                                                  root := BitVec.ofNat 64 p.root, writers := 1
                                                  publishing := false, owner := owner, entries := [] }] }

/-- Every TLB drops the entries of some addresses for an ASID, global ones too (R281, R414). -/
def dropTlb (hit : TlbEntry → Bool) (s : State) : State :=
  { s with hoops := s.hoops.map fun (h, hp) => (h, { hp with
      tlb := hp.tlb.filter fun e => !hit e
      banks := smMap [] (fun _ l => l.filter fun e => !hit e) hp.banks }) }

/-- Every stream buffer that meets a test is invalidated (R123, R413). -/
def dropStreams (hit : StreamBuf → Bool) (s : State) : State :=
  { s with hoops := s.hoops.map fun (h, hp) => (h, { hp with buffers := hp.buffers.filter fun b => !hit b }) }

/-- Tile-binding entries of a context of whose range a page holds a part, or that a page maps which meets it, become
stale (R222). -/
def markTilesVa (asid : BitVec 12) (va bits : Nat) (s : State) : State :=
  updStrands (fun t => isStrand t && t.asid = asid) (fun t => { t with tiles := t.tiles.map fun e =>
    let base := natBits e.bits.toNat 47 0
    let w := if natBits e.bits.toNat 99 97 = 2 then 4 else 8
    let n := natBits e.bits.toNat 80 65 * natBits e.bits.toNat 96 81 * w / 8
    let hit : Bool := e.bits.getLsbD 48 && ((decide (base < va + 2 ^ bits) && decide (va < base + n)) ||
      e.maps.any fun (v, b) => v < va + 2 ^ bits && va < v + 2 ^ b)
    if hit then { e with bits := e.bits ||| (1 <<< 49) } else e }) s

/-- Puts one new PTE into its slot and the old one into the descriptor (R281). A table whose key slot the context does
not own is not reached (R407, R410). -/
def installEntry (d : PubSet) (p : Port) (j : Nat) (e : Nat × Nat × Nat × Nat) (s : State) : State :=
  let (pa, pte, va, bits) := e
  match regionOf pa with
  | .hbm h =>
    let slot := ctxBaseKey s d.asid.toNat
    if !keyOk s p slot then s else
    let old := hbmRead s slot h 8
    let s1 := hbmWrite slot h (leBytes 8 pte) s
    let s2 := (runAct (vsWriteBlock p (d.addr.toNat + 0x50 + 32 * j) old) s1).2
    markTilesVa d.asid va bits (dropTlb (fun t => (t.asid = d.asid || t.global) &&
      t.va ≤ va && va < t.va + 2 ^ t.bits) s2)
  | _ => s

/-- A `kvgather` that an engine has accepted reads through a page of the set, one that a trap has stopped too (R356). -/
def gatherHolds (s : State) (asid : BitVec 12) (va n : Nat) : Bool :=
  (allAgents s).any fun t => t.asid = asid && (t.cq ++ t.dumpedE).any fun e => cmdOf e.word = 0x44 &&
    e.prog.vals.any fun (k, _) => va ≤ k * 2 ^ 18 && k * 2 ^ 18 < va + n

/-- A command of a context runs in a stack unit; an installation waits for it, as it uses one mapping of a set
throughout (R281). -/
def unitRuns (s : State) (asid : BitVec 12) : Bool := s.units.any fun (_, x) => x.running.any fun c => c.asid = asid

/-- PUBLISH (R280): a release at package scope, then the set's validation. -/
def execPublish (a : BitVec 5) (s : State) : Out :=
  frontInstr (pure ()) [a] (do
    let st ← getStrand
    let x := (readReg st a).toNat
    checkAlign x 64
    if vMemBusy st then waitFor .uncounted
    publishSet (strandPort st 1) x st.id
    pure none) s

/-- PUBWAIT (R282): waits for state 2, 3 or 4 and acquires. -/
def execPubwait (a : BitVec 5) (s : State) : Out :=
  frontInstr (pure ()) [a] (do
    let st ← getStrand
    let x := (readReg st a).toNat
    checkAlign x 64
    let state ← vsReadNat (strandPort st 1) (x + 8) 4
    if state = 2 ∨ state = 3 ∨ state = 4 then
      acquire
      pure none
    else waitFor (.publish x)) s

end Sys2Proof.Machine
end

