-- ==== Sys2Proof/Machine/Hub.lean ====
section
/-! DEFINITION. The hub's counters, barriers, cancellation and the end of strands (R22, R23, R40 to R43,
R114, R276 to R278). -/

namespace Sys2Proof.Machine

/-- The word of a counter (R40). -/
def counterWord (c : Counter) : Word :=
  BitVec.ofNat 64 ((if c.cancelled then 2 ^ 63 else 0) + (if c.rejected then 2 ^ 62 else 0) +
    c.reason.toNat * 2 ^ 56 + (if c.final then 2 ^ 32 else 0) + c.count.toNat)

def counterOf (s : State) (c : Nat) : Option Counter := smGet s.hub.counters c

def setCounter (c : Nat) (v : Counter) (s : State) : State :=
  { s with hub := { s.hub with counters := smSet s.hub.counters c v } }

def modCounter (c : Nat) (f : Counter → Counter) (s : State) : State :=
  match counterOf s c with
  | some v => setCounter c (f v) s
  | none => s

/-- The number of strands that a launch packet asks for (R24). -/
def Launch.strands (l : Launch) : Nat := field l.bytes 0x10 2

def findLaunch (s : State) (c : Nat) : Option Launch := s.hub.launches.find? fun l => l.counter = c

/-- Entries of the ready pool go; a job with no entry left in a level leaves its round, with deficit 0 (R383). -/
def dropEntries (gone : PoolEntry → Bool) (s : State) : State :=
  let rest := s.hub.ready.filter fun e => !gone e
  { s with hub := { s.hub with
      ready := rest, deficits := s.hub.deficits.filter fun d => rest.any fun e => e.level * 4096 + e.job = d.1 } }

def findGraph (s : State) (c : Nat) : Option Graph := s.hub.graphs.find? fun g => g.counter = c

/-- Marks arrays to be wiped before a later grant (R390, R415). -/
def dirtyArrays (as : List (Nat × Nat)) (s : State) : State :=
  as.foldl (init := s) fun s (h, a) =>
    setHoop h { hoopOf s h with dirty := (hoopOf s h).dirty ||| (1#256 <<< a) } s

/-- A completed phase of a barrier: no arrivals, the phase bit flipped (R277). -/
def Barrier.flip (b : Barrier) : Barrier := { b with count := 0, phase := !b.phase }

/-- A phase of a hoop barrier completes when the arrivals reach the participants (R277). -/
def settleHoopBarrier (h b : Nat) (s : State) : State :=
  let hp := hoopOf s h
  match hp.barriers[b]? with
  | none => s
  | some v =>
    if v.count < v.participants ∨ v.count = 0 then s
    else
      let s1 := setHoop h { hp with barriers := hp.barriers.setIfInBounds b v.flip } s
      advanceEpoch v.asid (updStrands (fun t => isStrand t && t.hoop = h && v.slots.getLsbD t.slot)
        (fun t => { t with barPending := t.barPending &&& ~~~(1#17 <<< b) }) s1)

/-- The trace record of a phase that the exit of a strand completes (R475): `handle` names the barrier, which has
lost a participant already. -/
def emitPhase (t : Strand) (handle : Nat) (v : Barrier) (s : State) : State :=
  if v.count < v.participants ∨ v.count = 0 then s else emitStrand t 3 (handle + 2 ^ 9 + v.count * 2 ^ 10) s

/-- The same for the launch barrier of a launch, number b of the hub. -/
def settleLaunchBarrier (c b : Nat) (s : State) : State :=
  match smGet s.hub.barriers b with
  | none => s
  | some v =>
    if v.count < v.participants ∨ v.count = 0 then s
    else
      let s1 := { s with hub := { s.hub with barriers := smSet s.hub.barriers b v.flip } }
      advanceEpoch v.asid (updStrands (fun t => isStrand t && t.id.launch = c)
        (fun t => { t with barPending := t.barPending &&& ~~~(1#17 <<< 16) }) s1)

/-- A strand that ends no longer takes part in its barriers (R278). -/
def leaveBarriers (t : Strand) (s : State) : State :=
  let s1 := (List.range 16).foldl (init := s) fun s b =>
    let hp := hoopOf s t.hoop
    match hp.barriers[b]? with
    | some v =>
      if v.slots.getLsbD t.slot && v.asid = t.asid then
        let v1 := { v with participants := v.participants - 1 }
        settleHoopBarrier t.hoop b (emitPhase t b v1 (setHoop t.hoop { hp with
          barriers := hp.barriers.setIfInBounds b v1 } s))
      else s
    | none => s
  match (findLaunch s1 t.id.launch).bind Launch.barrier with
  | some b =>
    match smGet s1.hub.barriers b with
    | some v =>
      let v1 := { v with participants := v.participants - 1 }
      settleLaunchBarrier t.id.launch b (emitPhase t (2 ^ 8) v1 { s1 with hub := { s1.hub with
        barriers := smSet s1.hub.barriers b v1 } })
    | none => s1
  | none => s1

/-- A child has completed or been cancelled: its parent's counter will count it (R41, R43). -/
def countChild (parent : Nat) (cancelled : Bool) (s : State) : State :=
  { s with hub := { s.hub with incs := s.hub.incs ++ [(parent, cancelled)] } }

/-- The commands of a strand that is gone are no longer writers of their sets (R279). -/
def leaveSets (t : Strand) (s : State) : State :=
  (writersOf t).foldl (init := s) fun s a => unregisterWriter t.asid a.toNat s

/-- The trace record of a state that the hub has written into a set (R475). -/
def emitSet (addr state : Nat) (s : State) : State := emitHub 8 (natBits addr 47 6 + state * 2 ^ 42) s

/-- Sets in state 0 or 1 are discarded: state 3 is written, with its trace record, and no entry is installed (R42, R282,
R353, R475). -/
def dropSets (gone : PubSet → Bool) (s : State) : State :=
  let s1 := (s.hub.sets.filter gone).foldl (init := s) fun s d =>
    emitSet d.addr.toNat 3
      (runAct (vsWriteBlock (contextPort d.asid d.root.toNat true 1 none) (d.addr.toNat + 8) [3, 0, 0, 0]) s).2
  { s1 with hub := { s1.hub with sets := s1.hub.sets.filter fun d => !gone d } }

/-- The publish set of a commit in progress: the one that it is a writer of, or that it has published. -/
def commitSet (e : CEntry) : Nat := (e.writer.map BitVec.toNat).getD (e.prog.set.toNat / 64 * 64)

/-- The sets of the commits that a strand has in progress for a session of its own (R353): such a command keeps the place
of the record in `pos`. -/
def ownCommitSets (s : State) (t : Strand) : List Nat :=
  ((t.cq ++ t.dumpedE).filter fun e => cmdOf e.word = 0x42 &&
    s.hub.sessions.any fun d => d.owner = some t.id && e.prog.pos = [d.place]).map commitSet

/-- A strand ends (R39, R114, R278): slot, lanes, followers, tokens and reservation are released, the registers that its
dropped instructions would have written are full (R191), it leaves the ready pool, and its launch counts it. A set that a
cancelled strand has issued and that is not installed yet is discarded (R282), and so is that of a commit of a repair
session of its own (R353). -/
def endStrand (i : StrandId) (cancelled : Bool) (cause : Nat) (s : State) : State :=
  match findStrand s i with
  | none => s
  | some t =>
    if t.state = .exited then s else
    let inSlot := resident t
    let own := ownCommitSets s t
    let s := dropEntries (fun e => e.strand = some i)
      (dropSets (fun d => (cancelled && d.owner = i) || (d.asid = t.asid && own.contains d.addr.toNat)) s)
    let s1 := emitChange t t.state .exited cause s
    let s1 := if inSlot then emitSlip t s1 else s1
    let s2 := updStrand i (fun t => { t with
      state := .exited, wait := none, empty := 0, resv := none, links := [], recvq := []
      tokens := Vector.replicate 25 0, vq := [], mq := [], cq := [], nq := [], dumpedV := [], dumpedE := []
      pending := [], fePend := [], arrays := [], followers := [], pendingGrant := none
      cancelled := false, preempt := false, graceOut := false, saveArea := none, due := false }) s1
    let s3 := withdrawMessages i (if inSlot then dirtyArrays t.arrays s2 else s2)
    countChild i.launch cancelled (advanceEpoch t.asid (leaveBarriers t (leaveSets t s3)))

/-- A final counter is counted by its parent (R41). A launch below a graph is not: the hub counts its node when it
completes the node (R380). -/
def countFinal (v : Counter) (cancelled : Bool) (s : State) : State :=
  match v.kind, v.parent with
  | .launch, _ | _, none => s
  | _, some p => countChild p cancelled s

/-- What follows a counter that becomes final, `v` as it then stands: a launch returns its barrier (R278) and has its
trace record (R475), the queue of a job sends its notification (R426). -/
def counterFinal (c : Nat) (v : Counter) (s : State) : State :=
  match v.kind with
  | .launch =>
    let s1 := match (findLaunch s c).bind Launch.barrier with
      | some b => { s with hub := { s.hub with barriers := smDel s.hub.barriers b } }
      | none => s
    let s1 := dropEntries (fun e => e.launch = some c) s1
    emitHub 1 (c + ((findLaunch s1 c).map Launch.strands).getD 0 * 2 ^ 12 + 2 ^ 28 + (if v.cancelled then 2 ^ 29 else 0)) s1
  | .job =>
    match s.hub.jobs.find? fun j => j.counter = c with
    | some j =>
      let cfg := bar0 s (0x40008 + 64 * j.queue) 8
      if natBits cfg 30 30 = 1 then postIrq (natBits cfg 29 24) none none s else s
    | none => s
  | _ => s

/-- One more child is counted (R41): the last one makes the counter final in the same update, and a final
counter is counted by its parent. A counter that is final does not change. -/
def incCounter (c : Nat) (cancelled : Bool) (s : State) : State :=
  match counterOf s c with
  | none => s
  | some v =>
    if v.final then s else
    let v1 := { v with count := v.count + 1, cancelled := v.cancelled || cancelled }
    let v2 := { v1 with final := decide (v.expected ≤ v1.count.toNat) }
    let s1 := advanceEpoch v.asid (setCounter c v2 s)
    if v2.final then countFinal v v2.cancelled (counterFinal c v2 s1) else s1

/-- A counter is final with count as it stands: rejected objects and objects with no live child. -/
def finalise (c : Nat) (cancelled : Bool) (s : State) : State :=
  match counterOf s c with
  | none => s
  | some v =>
    if v.final then s else
    let v1 := { v with final := true, cancelled := v.cancelled || cancelled }
    countFinal v v1.cancelled (counterFinal c v1 (setCounter c v1 s))

/-- A rejected launch, graph or job is final with count 0 and its reason (R26, R40, R41). -/
def reject (c : Nat) (reason : Nat) (s : State) : State :=
  finalise c false (modCounter c (fun v => { v with rejected := true, reason := BitVec.ofNat 6 reason }) s)

/-- The counters at or beneath a set of objects (R42, R118): children, and what their strands submitted. -/
def beneath (s : State) : Nat → List Nat → List Nat
  | 0, cs => cs
  | n + 1, cs => beneath s n (cs ++ (s.hub.counters.filter fun (c, v) =>
      !cs.contains c && v.kind ≠ .free &&
      ((v.parent.map cs.contains).getD false || (v.owner.map fun o => cs.contains o.launch).getD false)).map (·.1))

/-- Writes the header of a discarded save (R393, R459). -/
def discardSave (t : Strand) (s : State) : State :=
  match t.saveArea with
  | some a =>
    let p := contextPort t.asid (natBits t.csr.atp.toNat 51 13 * 2 ^ 13) true 1 (some t.hoop)
    (runAct (vsWriteBlock p (a.toNat + 0x26) [5]) s).2
  | none => s

/-- A cancel reaches a strand (R39, R393): at its next pre-emption point if it runs or is halted, at once
if it is saved, saving or faulted. -/
def cancelStrand (t : Strand) (s : State) : State :=
  match t.state with
  | .ready | .running | .waiting | .halted =>
    updStrand t.id (fun t => { t with cancelled := true }) s
  | .saving | .saved => endStrand t.id true 0x14 (discardSave t s)
  | .faulted => endStrand t.id true 0x14 s
  | .idle | .exited => s

/-- Sets that launches or graphs have issued, by their counters. -/
def discardSets (cs : List Nat) : State → State := dropSets fun d => cs.contains d.owner.launch

/-- The node commands of a graph instance stop at their step boundaries and do nothing more (R42, R379). -/
def stopNodes (c : Nat) (s : State) : State :=
  let mine (t : Strand) : Bool := t.state ≠ .exited && (t.node.map (·.1)) = some c
  let s1 := (s.strand :: s.pool).foldl (init := s) fun s t => if mine t then leaveSets t s else s
  updStrands mine (fun t => { t with state := .exited, cq := [], nq := [], pending := [] }) s1

/-- n children that were never started are counted as cancelled (R42). -/
def countUnstarted (c n : Nat) (s : State) : State :=
  (List.range n).foldl (init := s) fun s _ => countChild c true s

/-- The work of a running graph node is done; the hub then completes the node (R380). -/
def nodeFinished (g n : Nat) (s : State) : State :=
  let done (x : Graph) : Graph :=
    if smGet x.nodes n = some .running then { x with nodes := smSet x.nodes n .finished } else x
  { s with hub := { s.hub with graphs := listUpd (fun x => x.counter = g) done s.hub.graphs } }

/-- The command of a NEAR node runs in a stack unit, which finishes it whatever becomes of the graph (R321). -/
def nodeInUnit (s : State) (g n : Nat) : Bool := s.units.any fun (_, w) => w.running.any fun q => q.node = some (g, n)

/-- What a cancel leaves of a node: a LAUNCH node ends with its launch, work that is done is still counted as completed
(R43), a command that runs in a stack unit runs to its end (R321), and every other node is stopped. -/
def nodeKept (s : State) (g : Graph) (n : Nat) (st : NodeState) : Bool :=
  st = .finished || st = .complete || (smGet g.children n).isSome || nodeInUnit s g.counter n

/-- Commands that wait at stack units are discarded (R42, R321). A NEAR node whose command goes because its packet's
counter is cancelled, and not its graph, is finished with it (DESIGN CHOICE, log 101). -/
def dropCommands (gone : SuCmd → Bool) (s : State) : State :=
  (s.units.flatMap fun (_, w) => (w.queue.filter gone).filterMap SuCmd.node).foldl (fun s (g, n) => nodeFinished g n s)
    { s with units := s.units.map fun (u, w) => (u, { w with queue := w.queue.filter fun q => !gone q }) }

/-- What a cancel does to one object (R42): children that have not started are counted as cancelled, the
others are stopped or left to their own cancel. A launch or graph that has not been accepted is checked first, and its
acceptance counts its children. -/
def cancelObject (c : Nat) (s : State) : State :=
  match counterOf s c with
  | none => s
  | some v =>
    if v.final then s else
    let s0 := setCounter c { v with cancelled := true } s
    match v.kind with
    | .free => finalise c true s0
    | .launch =>
      match findLaunch s0 c with
      | none => finalise c true s0
      | some l =>
        if !l.accepted then s0
        else
          let s1 := dropEntries (fun e => e.launch = some c) { s0 with hub := { s0.hub with
            launches := listUpd (fun l => l.counter = c) (fun l => { l with placed := l.strands }) s0.hub.launches } }
          let s2 := countUnstarted c (l.strands - l.placed) s1
          ((allStrands s2).filter fun t => t.id.launch = c).foldl (init := s2) fun s t => cancelStrand t s
    | .graph =>
      match findGraph s0 c with
      | none => finalise c true s0
      | some g =>
        if !g.accepted then s0
        else
          let live := g.nodes.filter fun (n, st) => !nodeKept s0 g n st
          let s1 := dropEntries (fun e => e.graph = c && e.strand.isNone && e.launch.isNone) { s0 with hub := { s0.hub with
            graphs := listUpd (fun g => g.counter = c) (fun g =>
              { g with nodes := g.nodes.map fun (n, st) => (n, if nodeKept s0 g n st then st else .complete) })
              s0.hub.graphs } }
          countUnstarted c live.length (withdrawIrqs (fun i => i.node.map (·.1) = some c)
            (dropCommands (fun q => q.node.map (·.1) = some c) (stopNodes c s1)))
    | .phase | .job =>
      let left := ((s0.hub.phases.filter fun p => p.counter = c).map fun p => p.list.length - p.next).sum +
        ((s0.hub.jobs.filter fun p => p.counter = c).map fun p => p.list.length - p.next).sum
      countUnstarted c left { s0 with hub := { s0.hub with
        phases := listUpd (fun p => p.counter = c) (fun p => { p with list := p.list.take p.next }) s0.hub.phases
        jobs := listUpd (fun p => p.counter = c) (fun p => { p with list := p.list.take p.next }) s0.hub.jobs } }

/-- Commands of stack units that a cancel discards are counted as cancelled before they go (R42, R321). -/
def countDiscarded (cs : List Nat) (s : State) : State :=
  s.units.foldl (init := s) fun s (_, w) => w.queue.foldl (init := s) fun s q =>
    let id := field q.bytes 4 2
    let cancelled := (q.issuer.map fun i => cs.contains i.launch).getD false || (q.node.map fun n => cs.contains n.1).getD false
    if cancelled && id < 2 ^ 12 then incCounter id true s else s

/-- Cancel of the object of a counter and of everything beneath it (R42). A final counter is unaffected (R120). Sets
that the objects have issued are discarded while they are still known (R282). -/
def cancelTree (c : Nat) (s : State) : State :=
  match counterOf s c with
  | none => s
  | some v =>
    if v.final then s else
    let cs := beneath s s.hub.counters.length [c]
    let s1 := cs.foldl (init := discardSets cs (countDiscarded cs s)) fun s c => cancelObject c s
    dropCommands (fun q => (q.issuer.map fun i => cs.contains i.launch).getD false ||
      (field q.bytes 4 2 < 2 ^ 12 && cs.contains (field q.bytes 4 2))) s1

/-- `cancel` as the hub carries it out; during a checkpoint it waits for the end (R450). -/
def cancelAll (c : Nat) (s : State) : State :=
  if s.hub.quiesce then { s with hub := { s.hub with deferred := s.hub.deferred ++ [c] } } else cancelTree c s

/-- A node fault (R379): an error record that names the graph, the instance and the node, and the graph is
cancelled. -/
def nodeFault (g n : Nat) (asid : BitVec 12) (cause : Nat) (s : State) : State :=
  let addr := ((findGraph s g).map fun x => x.addr.toNat).getD 0
  cancelAll g (addErr (errRec 11 1 asid (leBytes 8 addr ++ leBytes 2 g ++ leBytes 2 n ++ leBytes 1 cause)) s)

/-- A counter id that a strand may name: allocated to its ASID, upper bits zero (R119). -/
def ownCounter (s : State) (asid : BitVec 12) (x : Word) : Option Counter :=
  if x.toNat < 2 ^ 12 then
    match counterOf s x.toNat with
    | some c => if c.asid = asid then some c else none
    | none => none
  else none

/-- The root of the tree of objects that a counter belongs to: its job, or the outermost submission. -/
def jobOf (s : State) : Nat → Nat → Nat
  | 0, c => c
  | n + 1, c =>
    match counterOf s c with
    | none => c
    | some v =>
      match v.parent, v.owner with
      | some p, _ => jobOf s n p
      | none, some o => if o.launch = c then c else jobOf s n o.launch
      | none, none => c

/-- A counter may be reused (R118, R121): of a submission whose strand's launch is final, of a free-standing
counter that is final and whose strand's job is, of an object below a final one, and of a final object with none
above it. -/
def mayRelease (s : State) (v : Counter) : Bool :=
  let above := match v.kind, v.owner with
    | .free, _ => v.job
    | _, some o => some o.launch
    | _, none => v.parent
  v.final && (above.bind (counterOf s)).all fun w => w.final

/-- The ids that a context may be given: those that no object has held, and of those it has held the ones that may be
reused (R118, R121). -/
def freeCounters (s : State) (asid : BitVec 12) : List Nat :=
  (List.range 4096).filter fun c => (counterOf s c).all fun v => v.asid = asid && mayRelease s v

/-- Counters that a context holds (R406). -/
def heldCounters (s : State) (asid : BitVec 12) : Nat :=
  (s.hub.counters.filter fun (_, v) => v.asid = asid && !mayRelease s v).length

/-- What names an object that goes names what stood above it: its strands' submissions stay descendants of that (R118).
Nothing stands above a job, which is final then. -/
def unnameObject (c : Nat) (above : Option Nat) (v : Counter) : Counter :=
  { v with
    owner := if v.owner.any fun o => o.launch = c then above.map fun a => { launch := a, index := 0 } else v.owner
    job := if v.job = some c then none else v.job }

/-- What the hub still holds of the last object of an id goes when the id is released or reused. -/
def forgetObject (c : Nat) (s : State) : State :=
  let gone (t : Strand) : Bool := t.state = .exited && t.id.launch = c
  let above := (counterOf s c).bind fun v => v.parent.orElse fun _ => v.owner.map StrandId.launch
  { s with
    strand := if gone s.strand then Strand.idle else s.strand
    pool := s.pool.filter fun t => !gone t
    hub := { s.hub with
      counters := s.hub.counters.map fun (k, v) => (k, unnameObject c above v)
      launches := s.hub.launches.filter fun l => l.counter ≠ c
      graphs := s.hub.graphs.filter fun g => g.counter ≠ c
      phases := s.hub.phases.filter fun p => p.counter ≠ c
      jobs := s.hub.jobs.filter fun j => j.counter ≠ c } }

/-- Allocates a counter for an object, one of the free ids: which one the spec leaves open. A context at
its quota, or a hub without a free counter, refuses. -/
def allocCounter (v : Counter) : Act (Option Nat) := do
  let s ← getS
  let ids := freeCounters s v.asid
  if ids = [] ∨ ctxQuota s v.asid.toNat ≤ heldCounters s v.asid then pure none
  else
    let k ← pick ids.length
    let c := ids[k]?.getD 0
    modS fun s => setCounter c v (forgetObject c s)
    pure (some c)

/-- A counter before its first child (R40, R121). -/
def newCounter (kind : ObjKind) (asid : BitVec 12) (expected : Nat) (parent : Option Nat)
    (owner : Option StrandId) (level : Nat) : Counter where
  kind := kind
  asid := asid
  cancelled := false
  rejected := false
  reason := 0
  final := false
  count := 0
  expected := expected
  parent := parent
  owner := owner
  job := none
  level := level

/-- COUNTER_INCREMENT: the arbiter counts the oldest completion that waits for the counter (R41, R43). -/
def execCounterIncrement (c : Nat) (s : State) : Out :=
  match s.hub.incs.findIdx? fun x => x.1 = c with
  | none => .next s
  | some k => .next (incCounter c ((s.hub.incs[k]?.map (·.2)).getD false)
      { s with hub := { s.hub with incs := listDel s.hub.incs k } })

end Sys2Proof.Machine
end

