-- ==== Sys2Proof/Machine/Control.lean ====
section
/-! DEFINITION. Set-length, loops, tokens, ending and yielding, submissions and counters, barriers and
`fence.s` (R103 to R121, R274 to R278). -/

namespace Sys2Proof.Machine

/-! ### Setting the vector length -/

/-- SEW in bits of a vtype (R57). -/
def sewOf (vt : Word) : Nat := 2 ^ natBits vt.toNat 5 3

/-- LMUL of a vtype (R57). -/
def lmulOf (vt : Word) : Nat := 2 ^ natBits vt.toNat 2 0

/-- A vtype is legal (R57, R58): no reserved bit, a defined width and group, and a format of the table. -/
def vtypeLegal (vt : Word) : Bool :=
  let v := vt.toNat
  v < 2 ^ 10 && natBits v 5 3 < 7 && natBits v 2 0 < 4 &&
  match natBits v 7 6 with
  | 0 => natBits v 5 3 < 6 || natBits v 2 0 ≠ 0
  | 1 => natBits v 5 3 = 5 || natBits v 5 3 = 4 || natBits v 5 3 = 3 || natBits v 5 3 = 2
  | 2 => natBits v 5 3 = 4 || natBits v 5 3 = 3
  | _ => false

/-- VLMAX (R48). -/
def vlmax (rows : Nat) (vt : Word) : Nat :=
  if sewOf vt = 64 then rows * lmulOf vt / 2 else rows * (32 / sewOf vt) * lmulOf vt

def vill : Word := 0x8000000000000000#64

/-- Zero in every field of every granted row (R64, R65). -/
def zeroFields (st : Strand) : Strand :=
  { st with v := Vector.replicate 32 [], vpoison := Vector.replicate 32 [] }

/-- The followers that still lend a block (R31). -/
def keptFollowers (st : Strand) (arrays : List (Nat × Nat)) : List (Nat × Nat) :=
  st.followers.filter fun (h, _) => arrays.any fun (a, _) => a = h

/-- A pending reduced grant is applied (R65, R105): the blocks no longer granted are released, every
field becomes zero and every vector tag clear. -/
def applyGrant (s : State) : State :=
  match s.strand.pendingGrant with
  | none => s
  | some g =>
    let gone := s.strand.arrays.filter fun a => !g.contains a
    let st := { zeroFields s.strand with arrays := g, followers := keptFollowers s.strand g
                                         pendingGrant := none, tags := Vector.replicate 32 0 }
    dirtyArrays gone { s with strand := st }

/-- The value of AVL (R104). -/
inductive AvlSource where
  | imm (u : Nat)
  | reg (a : Reg)

/-- A set-length instruction (R104, R105). -/
def setLength (d : Reg) (avl : AvlSource) (regs : List Reg) (vtypeOf : Strand → Word) (s : State) : Out :=
  frontInstr (pure ()) (regs ++ [d]) (do
    let st ← getStrand
    if st.pendingGrant.isSome ∧ st.vq ≠ [] then waitFor .uncounted
    modS applyGrant
    modStrand fun st => if st.zeroed then st else { zeroFields st with zeroed := true }
    modStrand fun st =>
      let vt := vtypeOf st
      let st1 := if vtypeLegal vt then
          let m := vlmax (rg st) vt
          let v := match avl with
            | .imm u => u
            | .reg a => if a ≠ 0 then (readReg st a).toNat else if d ≠ 0 then m else st.vl
          { st with vtype := vt, vl := min v m }
        else { st with vtype := vill, vl := 0 }
      writeReg { st1 with csr := { st1.csr with vstart := 0 } } d (BitVec.ofNat 64 st1.vl)
    pure none) s

/-- VSETVLI (R103, R104). -/
def execVsetvli (d a : BitVec 5) (i : BitVec 11) (s : State) : Out :=
  setLength d (.reg a) [a] (fun _ => i.setWidth 64) s

/-- VSETIVLI (R103, R104). -/
def execVsetivli (d : BitVec 5) (i : BitVec 11) (u : BitVec 5) (s : State) : Out :=
  setLength d (.imm u.toNat) [] (fun _ => i.setWidth 64) s

/-- VSETVL (R103, R104). -/
def execVsetvl (d a b : BitVec 5) (s : State) : Out :=
  setLength d (.reg a) [a, b] (fun st => readReg st b) s

/-- VSETMT (R107): the old space to rd, then the new one. -/
def execVsetmt (d a : BitVec 5) (s : State) : Out :=
  frontInstr (pure ()) [a, d] (do
    let st ← getStrand
    let x := readReg st a
    require (x.toNat < 3) 6
    modStrand fun st => writeReg { st with mtype := x.setWidth 2 } d (st.mtype.setWidth 64)
    pure none) s

/-! ### Hardware loops -/

/-- `loop` and `loopi` (R108): the end offset is 1 to 4095. -/
def startLoop (regs : List Reg) (i : BitVec 12) (count : Strand → Word) (s : State) : Out :=
  frontInstr (require (i ≠ 0) 6) regs (do
    let st ← getStrand
    let n := count st
    let stop := st.pc + 4 * i.setWidth 64
    if n = 0 then pure (some (stop + 4))
    else
      let nested : Bool := match st.loops with
        | e :: _ => decide (e.stop.toNat < stop.toNat)
        | [] => false
      require (st.loops.length < 6 && !nested) 6
      let e : LoopEntry := { count := n, index := 0, start := (st.pc + 4).setWidth 48, stop := stop.setWidth 48 }
      modStrand fun st => { st with loops := e :: st.loops }
      pure (some (st.pc + 4))) s

/-- LOOP (R108). -/
def execLoop (a : BitVec 5) (i : BitVec 12) (s : State) : Out :=
  startLoop [a] i (fun st => readReg st a) s

/-- LOOPI (R108). -/
def execLoopi (i : BitVec 12) (u : BitVec 5) (s : State) : Out :=
  startLoop [] i (fun _ => u.setWidth 64) s

/-- LPBRK (R110): pops the top entry and goes past its end PC. The spec leaves open whether it, or a loop push or a
skipped loop, counts as a taken jump when it stands at an end PC itself; it does here, so that no iteration is completed
(DESIGN CHOICE, log 73). -/
def execLpbrk (s : State) : Out :=
  frontInstr (pure ()) [] (do
    let st ← getStrand
    match st.loops with
    | [] => ill 6
    | e :: es => do
      modStrand fun st => { st with loops := es }
      pure (some (e.stop.setWidth 64 + 4))) s

/-- LPIDX (R110): the index of the entry `l` positions below the top. -/
def execLpidx (d l : BitVec 5) (s : State) : Out :=
  frontInstr (do
    let st ← getStrand
    require (l.toNat < st.loops.length) 6) [d] (do
    let st ← getStrand
    match st.loops[l.toNat]? with
    | some e => setX d e.index
    | none => ill 6
    pure none) s

/-! ### Tokens -/

/-- A queue number of `tkpost` and `tkwait` (R112): 1 V, 2 M, 3 C, 4 N. -/
def tokenQueue (q : BitVec 5) : Act Queue :=
  match Queue.ofCode q.toNat with
  | some .s | none => ill 6
  | some q => pure q

/-- TKPOST (R112): the S-to-q counter rises and a marker enters queue q. Scalar accesses are performed
when they run, so none is outstanding. A counter at 15 makes a token wait, a full queue an uncounted one. -/
def execTkpost (q : BitVec 5) (s : State) : Out :=
  frontInstr (do let _ ← tokenQueue q) [] (do
    let q ← tokenQueue q
    let st ← getStrand
    if tokens st .s q = 15 then waitFor (.token .s q true)
    match q with
    | .v =>
      if 64 ≤ st.vq.length then waitFor .uncounted
      modStrand fun t => { t with vq := t.vq ++ [captureV st s.fetched 0 0 .none] }
    | q =>
      if 16 ≤ (cmdQueue st q).length then waitFor .uncounted
      let e : CEntry :=
        { word := s.fetched, popped := false, step := 0, copied := false, a := 0, b := 0, aux := 0
          mcfg := 0, seq := st.nextSeq, accepted := false, done := false, writer := none
          prog := Progress.none }
      modStrand fun t => setCmdQueue t q (cmdQueue t q ++ [e])
    modS (pushToken .s q)
    pure none) s

/-- TKWAIT (R112): waits until the q-to-S counter is non-zero and takes one. -/
def execTkwait (q : BitVec 5) (s : State) : Out :=
  frontInstr (do let _ ← tokenQueue q) [] (do
    let q ← tokenQueue q
    let st ← getStrand
    if tokens st q .s = 0 then waitFor (.token q .s false)
    modS (popToken q .s)
    pure none) s

/-- TOKEN_MARKER_HEAD: a marker at the head of its queue pops the S-to-q counter (R112). In V it is at the
head when every older entry has issued: entries issue and perform together, so only ones whose push waits, and a `vsend`
or `vrecv` that waits for a message, may stand before it. In the others, every older command has been accepted. -/
def execTokenMarkerHead (q : BitVec 3) (s : State) : Out :=
  match Queue.ofCode q.toNat with
  | some .v =>
    match s.strand.vq.span fun e => e.done || e.begun with
    | (ds, e :: es) =>
      if isMarker e.word ∧ tokens s.strand .s .v ≠ 0 then
        .next (popToken .s .v { s with strand := { s.strand with vq := ds ++ es, waits := s.strand.waits.set 1 0 } })
      else .next s
    | _ => .next s
  | some .s | none => .next s
  | some q =>
    match (cmdQueue s.strand q).span fun e => e.accepted with
    | (ds, e :: es) =>
      if isMarker e.word ∧ tokens s.strand .s q ≠ 0 then
        .next (popToken .s q { s with strand := setCmdQueue s.strand q (ds ++ es) })
      else .next s
    | _ => .next s

/-- TOKEN_PUSH: the head of the V queue has performed its effects and its push waited for room (R35). -/
def execTokenPush (q : BitVec 3) (s : State) : Out :=
  if q = 1 then
    match s.strand.vq with
    | e :: _ => if e.done then .next (retireV s) else .next s
    | [] => .next s
  else .next s

/-! ### Ending and yielding -/

/-- YIELD (R113): a pre-emption point; with nothing pending it has no effect. A pending stop is made by
the events of R391 and R42 at this boundary. -/
def execYield (s : State) : Out :=
  match frontInstr (pure ()) [] (pure none) s with
  | .next s' => .next { s' with strand := { s'.strand with atLoopPoint := s'.strand.atLoopPoint ||
      (s'.strand.cancelled || s'.strand.preempt) } }
  | r => r

/-- Every condition of `sexit` holds (R114): queues empty, every producer complete, and every submitted
launch and graph final. -/
def exitReady (s : State) : Bool :=
  let st := s.strand
  st.vq.isEmpty && st.mq.isEmpty && st.cq.isEmpty && st.nq.isEmpty && st.fePend.isEmpty &&
  !(s.hub.reqs.any fun r => r.strand = st.id) && st.empty = 0 &&
  st.subs.all fun c => match counterOf s c with
    | some v => v.final || v.kind = .free || v.owner ≠ some st.id
    | none => true

/-- SEXIT (R114): it stops fetch and waits until everything of the strand is complete; the strand becomes
Exited and is counted once. -/
def execSexit (s : State) : Out :=
  if exitReady s then .next (endStrand s.strand.id false 0 s)
  else .next (frontWait .uncounted s)

/-- A system instruction at strand level raises ILL subcode 7 (R68, R116). -/
def systemOnly : Act Unit := do
  let st ← getStrand
  require (sysLevel st) 7

/-- IDLE (R115): stops issue until a pre-emption request, a cancel or a wake event; a debug halt acts on
the strand itself. -/
def execIdle (s : State) : Out :=
  frontInstr systemOnly [] (do
    let st ← getStrand
    if st.woken || st.preempt || st.cancelled then
      modStrand fun st => { st with woken := false, idling := false }
      pure none
    else do
      modStrand fun st => { st with idling := true }
      stopWith (.hold .uncounted)) s

/-- IDLE_WAKE: service firmware posts a wake event to the strand's slot (R115). One that finds the strand not in `idle`
ends its next `idle` (DESIGN CHOICE, log 74). -/
def execIdleWake (i : StrandId) (s : State) : Out :=
  .next (updStrand i (fun t => { t with woken := true }) s)

/-- TRET (R116, R437): return from a trap; no breakpoint fires at the next instruction (R463). -/
def execTret (s : State) : Out :=
  match (do systemOnly; returnFromTrap : Act (Option Word)) s with
  | (.ok (some t), s') => .next (afterStep (skipNext (jump t s')))
  | _ => frontInstr systemOnly [] returnFromTrap s

/-! ### Submissions and counters -/

/-- A request goes to the hub: its register is empty until the answer (R117, R121). -/
def askHub (r : HubReq) : Act Unit := do
  modStrand fun st => { (setEmpty st r.rd) with asked := st.asked + 1 }
  modHub fun h => { h with reqs := h.reqs ++ [r] }

/-- LAUNCH (R117, R118): the packet's address goes to the hub; rd is empty until it answers. -/
def execLaunch (d a : BitVec 5) (s : State) : Out :=
  frontInstr (pure ()) [a, d] (do
    let st ← getStrand
    let x := readReg st a
    checkAlign x.toNat 64
    if vMemBusy st then waitFor .uncounted
    askHub ⟨st.id, d, .launch, x, 0, false⟩
    modS (advanceEpoch st.asid)
    pure none) s

/-- GSUBMIT (R117, R118). -/
def execGsubmit (d a b : BitVec 5) (s : State) : Out :=
  frontInstr (pure ()) [a, b, d] (do
    let st ← getStrand
    let x := readReg st a
    checkAlign x.toNat 128
    if vMemBusy st then waitFor .uncounted
    askHub ⟨st.id, d, .graph, x, readReg st b, b ≠ 0⟩
    modS (advanceEpoch st.asid)
    pure none) s

/-- CNTNEW (R121): a free-standing counter with its expected count. -/
def execCntnew (d a : BitVec 5) (s : State) : Out :=
  frontInstr (pure ()) [a, d] (do
    let st ← getStrand
    let x := readReg st a
    require (x ≠ 0 && x.toNat < 2 ^ 32) 6
    askHub ⟨st.id, d, .free, x, 0, false⟩
    pure none) s

/-- The hub's answer reaches the strand; a halt that has waited for its last answer takes place (R37). -/
def answered (r : HubReq) (v : Word) (t : Strand) : Strand :=
  let t1 : Strand := { t with fePend := t.fePend ++ [{ rd := r.rd, val := v, seq := 0 }], asked := t.asked - 1 }
  match t1.haltWait with
  | some h => if t1.asked = 0 then haltStrand h t1 else t1
  | none => t1

/-- The word of a refused request (R117). -/
def refusedWord (why : Nat) : Word := BitVec.ofNat 64 (2 ^ 63 + why * 2 ^ 12)

/-- The strand of a request has been cancelled: so is what it submits (R118, R42). -/
def requestCancelled (s : State) (r : HubReq) : Bool :=
  match findStrand s r.strand with
  | some t => t.cancelled || t.state = .exited
  | none => true

/-- The hub's record of an accepted submission. -/
def submit (r : HubReq) (c : Nat) (root : Word) (s : State) : State :=
  match r.kind with
  | .launch => { s with hub := { s.hub with launches := s.hub.launches ++
      [{ counter := c, packet := r.a, accepted := false, bytes := [], placed := 0, barrier := none
         affinity := none, root := root, sysLevel := false }] } }
  | .graph => { s with hub := { s.hub with graphs := s.hub.graphs ++
      [{ counter := c, addr := r.a, patchAddr := if r.patched then some r.b else none, accepted := false
         header := [], patch := [], preds := [], nodes := [], children := [], records := [], root := root }] } }
  | _ => s

/-- SUBMISSION_RESULT: the hub answers the oldest submission or `cntnew` with the result word (R117,
R121): a counter, or refused with reason 1 or 2. Where both reasons hold, the spec leaves open which is given; the pool
is looked at first (DESIGN CHOICE, log 75). -/
def execSubmissionResult (s : State) : Out :=
  match s.hub.reqs with
  | [] => .next s
  | r :: rs =>
    let s0 := { s with hub := { s.hub with reqs := rs } }
    let (asid, level, root) := match findStrand s r.strand with
      | some t => (t.asid, t.level, BitVec.ofNat 64 (natBits t.csr.atp.toNat 51 13 * 2 ^ 13))
      | none => (0, 0, 0)
    let answer (v : Word) (s : State) : State := updStrand r.strand (answered r v) s
    if r.kind ≠ .free ∧ 16384 ≤ s.hub.ready.length then .next (answer (refusedWord 2) s0)
    else
      match runAct (allocCounter { newCounter r.kind asid (if r.kind = .free then r.a.toNat else 0) none
          (some r.strand) level with job := if r.kind = .free then some (jobOf s0 64 r.strand.launch) else none }) s0 with
      | (.ok (some c), s1) =>
        let s2 := updStrand r.strand (fun t => { t with subs := t.subs ++ [c] }) s1
        let s3 := answer (BitVec.ofNat 64 c) (submit r c root s2)
        .next (if requestCancelled s r && r.kind ≠ .free then cancelAll c s3 else s3)
      | (_, s1) => .next (answer (refusedWord 1) s1)

/-- FE_RESULT_WRITE: the oldest producer of the front writes its register, full (R36). -/
def execFeResultWrite (s : State) : Out :=
  match s.strand.fePend with
  | [] => .next s
  | w :: ws => .next { s with strand :=
      { setFull (writeReg s.strand w.rd w.val) w.rd with fePend := ws } }

/-- CNTWAIT (R119): waits for the count or for the counter to be final. -/
def execCntwait (a b : BitVec 5) (s : State) : Out :=
  frontInstr (pure ()) [a, b] (do
    let st ← getStrand
    let s ← getS
    let x := readReg st a
    match ownCounter s st.asid x with
    | none => raise causeAcc x.toNat
    | some c =>
      if c.final ∨ natBits (readReg st b).toNat 31 0 ≤ c.count.toNat then do
        acquire
        pure none
      else waitFor (.counter x.toNat (natBits (readReg st b).toNat 31 0))) s

/-- CNTREAD (R119): the counter's word; rd is empty until it arrives. -/
def execCntread (d a : BitVec 5) (s : State) : Out :=
  frontInstr (pure ()) [a, d] (do
    let st ← getStrand
    let s ← getS
    let x := readReg st a
    match ownCounter s st.asid x with
    | none => raise causeAcc x.toNat
    | some c => do
      if d ≠ 0 then
        modStrand fun st => { setEmpty st d with
          fePend := st.fePend ++ [{ rd := d, val := counterWord c, seq := st.nextSeq }] }
      acquire
      pure none) s

/-- CANCEL (R120): the hub accepts the request; a final object is unaffected. -/
def execCancel (a : BitVec 5) (s : State) : Out :=
  frontInstr (pure ()) [a] (do
    let st ← getStrand
    let s ← getS
    let x := readReg st a
    match ownCounter s st.asid x with
    | none => raise causeAcc x.toNat
    | some _ => do
      modS (cancelAll x.toNat)
      pure none) s

/-- The strand stands at a pre-emption point (R391): outside every loop, where an iteration of the innermost loop or a
`yield` has just ended, or at any boundary once the grace of a pre-emption request is over. -/
def atStopPoint (st : Strand) : Bool := st.loops = [] || st.atLoopPoint || (st.preempt && st.graceOut)

/-- STRAND_CANCEL_STOP: a cancelled strand stops at its next pre-emption point (R42, R391). Its
queues go, no handler is entered, and its launch counts it as cancelled. -/
def execStrandCancelStop (s : State) : Out :=
  let st := s.strand
  if st.cancelled ∧ atStopPoint st ∧ resident st then
    .next (endStrand st.id true 0x14 s)
  else .next s

/-! ### Barriers -/

/-- The barrier that a handle names (R276): a hoop barrier of the leader hoop, the launch barrier of the
strand's launch, or none for a launch of one strand. -/
inductive BarRef where
  | hoop (b : Nat)
  | launch (b : Nat)
  | none
  deriving DecidableEq, Repr

/-- The pending bit of a barrier. -/
def BarRef.bit : BarRef → Nat
  | .hoop b => b
  | .launch _ => 16
  | .none => 16

/-- Checks a handle (R276). -/
def barrierOf (x : Word) : Act BarRef := do
  let s ← getS
  let st := s.strand
  let v := x.toNat
  require (v < 2 ^ 9 && natBits v 7 4 = 0 && (natBits v 8 8 = 0 || natBits v 3 0 = 0)) 6
  if natBits v 8 8 = 1 then
    match (findLaunch s st.id.launch).bind Launch.barrier with
    | some b => pure (.launch b)
    | none => pure .none
  else
    match (hoopOf s st.hoop).barriers[natBits v 3 0]? with
    | some b =>
      if b.slots.getLsbD st.slot && b.asid = st.asid then pure (.hoop (natBits v 3 0))
      else raise causeAcc v
    | none => raise causeAcc v

def barPendingOf (st : Strand) (r : BarRef) : Bool := r ≠ .none && st.barPending.getLsbD r.bit

/-- An arrival (R277): counted, pending, and the phase completes with the last one. -/
def arrive (r : BarRef) : Act Unit := do
  let st ← getStrand
  let s ← getS
  match r with
  | .none => pure ()
  | .hoop b =>
    match (hoopOf s st.hoop).barriers[b]? with
    | none => pure ()
    | some v =>
      modStrand fun t => { t with barPending := t.barPending ||| (1#17 <<< b) }
      modS fun s => setHoop st.hoop { hoopOf s st.hoop with
        barriers := (hoopOf s st.hoop).barriers.setIfInBounds b { v with count := v.count + 1 } } s
      modS (settleHoopBarrier st.hoop b)
      modS (emitStrand st 3 (b + (if v.participants ≤ v.count + 1 then 2 ^ 9 else 0) + (v.count + 1) * 2 ^ 10))
  | .launch b =>
    match smGet s.hub.barriers b with
    | none => pure ()
    | some v =>
      modStrand fun t => { t with barPending := t.barPending ||| (1#17 <<< 16) }
      modHub fun h => { h with barriers := smSet h.barriers b { v with count := v.count + 1 } }
      modS (settleLaunchBarrier st.id.launch b)
      modS (emitStrand st 3 (2 ^ 8 + (if v.participants ≤ v.count + 1 then 2 ^ 9 else 0) + (v.count + 1) * 2 ^ 10))

/-- The release of an arrival: the vector side has performed its older accesses (R273). -/
def releaseV : Act Unit := do
  let st ← getStrand
  if vMemBusy st then waitFor .uncounted

/-- BARARV (R277). -/
def execBararv (a : BitVec 5) (s : State) : Out :=
  frontInstr (pure ()) [a] (do
    let st ← getStrand
    let r ← barrierOf (readReg st a)
    if barPendingOf st r then waitFor (.barrier r.bit)
    releaseV
    arrive r
    pure none) s

/-- BARWAIT (R277). -/
def execBarwait (a : BitVec 5) (s : State) : Out :=
  frontInstr (pure ()) [a] (do
    let st ← getStrand
    let r ← barrierOf (readReg st a)
    if barPendingOf st r then waitFor (.barrier r.bit)
    acquire
    pure none) s

/-- BARSYNC (R277): `bararv`, then `barwait`. One that a trap or a pre-emption has stopped between the two has made its
arrival, and is reissued for the wait alone (DEDUCED, log 76). -/
def execBarsync (a : BitVec 5) (s : State) : Out :=
  frontInstr (pure ()) [a] (do
    let st ← getStrand
    let r ← barrierOf (readReg st a)
    if barPendingOf st r then waitFor (.barrier r.bit)
    if !st.barArrived.contains st.pc then
      releaseV
      arrive r
      let st ← getStrand
      if barPendingOf st r then
        modStrand fun t => { t with barArrived := t.pc :: t.barArrived }
        stopWith (.hold (.barrier r.bit))
    modStrand fun t => { t with barArrived := t.barArrived.filter fun p => p ≠ t.pc }
    acquire
    pure none) s

/-! ### fence.s -/

/-- FENCE.S (R274, R275): waits until the older accesses of its sides are performed: scalar ones are,
vector memory instructions when they have left the V queue, commands when they have retired, and at system
scope what was written to windows. With side I later fetches see the memory, which fetches of this model always
read. -/
def execFenceS (_i e v _s : BitVec 1) (c : BitVec 5) (s : State) : Out :=
  frontInstr (require (c.toNat ≤ 4 && !(_i = 0 && e = 0 && v = 0 && _s = 0)) 6) [] (do
    let st ← getStrand
    if v = 1 ∧ vMemBusy st then waitFor .uncounted
    if e = 1 ∧ !(st.mq.isEmpty && st.cq.isEmpty && st.nq.isEmpty) then waitFor .uncounted
    let s ← getS
    if c.toNat = 4 ∧ !portsSettled s then waitFor .uncounted
    if v = 1 ∧ 3 ≤ c.toNat then acquire
    pure none) s

end Sys2Proof.Machine
end

