-- ==== Sys2Proof/Machine/Floats.lean ====
section
/-! DEFINITION. Numbers as chapter 07 promises them: the formats, exact values, rounding, flags,
conversions, approximations and scale derivation. -/

namespace Sys2Proof.Machine

/-- The float formats of R150, and the scale code E3M5 of R151. -/
inductive Fmt where
  | fp32 | fp16 | bf16 | e4m3 | e5m2 | e2m1 | e3m5
  deriving DecidableEq, Repr, Inhabited

def Fmt.expBits : Fmt → Nat
  | .fp32 => 8
  | .fp16 => 5
  | .bf16 => 8
  | .e4m3 => 4
  | .e5m2 => 5
  | .e2m1 => 2
  | .e3m5 => 3

def Fmt.fracBits : Fmt → Nat
  | .fp32 => 23
  | .fp16 => 10
  | .bf16 => 7
  | .e4m3 => 3
  | .e5m2 => 2
  | .e2m1 => 1
  | .e3m5 => 5

def Fmt.bias : Fmt → Nat
  | .fp32 => 127
  | .fp16 => 15
  | .bf16 => 127
  | .e4m3 => 7
  | .e5m2 => 15
  | .e2m1 => 1
  | .e3m5 => 3

/-- The width of a code: E3M5 is the one format without a sign. -/
def Fmt.width (f : Fmt) : Nat := f.expBits + f.fracBits + (if f = .e3m5 then 0 else 1)

/-- The code of the largest finite magnitude (R150, R151). -/
def Fmt.maxCode : Fmt → Nat
  | .fp32 => 0x7F7FFFFF
  | .fp16 => 0x7BFF
  | .bf16 => 0x7F7F
  | .e4m3 => 0x7E
  | .e5m2 => 0x7B
  | .e2m1 => 0x7
  | .e3m5 => 0xFE

/-- The formats with infinities, whose code follows the largest finite one (R150). -/
def Fmt.hasInf : Fmt → Bool
  | .fp32 | .fp16 | .bf16 | .e5m2 => true
  | .e4m3 | .e2m1 | .e3m5 => false

/-- The canonical NaN (R150), the invalid code of E3M5 (R151), and 0 for E2M1, which has none (R158). -/
def Fmt.canon : Fmt → Nat
  | .fp32 => 0x7FC00000
  | .fp16 => 0x7E00
  | .bf16 => 0x7FC0
  | .e4m3 => 0x7F
  | .e5m2 => 0x7E
  | .e2m1 => 0
  | .e3m5 => 0xFF

/-- The sign bit of a code in place. -/
def Fmt.signed (f : Fmt) (neg : Bool) (mag : Nat) : Nat :=
  if neg ∧ f ≠ .e3m5 then mag + 2 ^ (f.width - 1) else mag

/-- An exact value: a zero keeps its sign, and a denominator is never 0. -/
inductive Val where
  | nan
  | inf (neg : Bool)
  | fin (neg : Bool) (num den : Nat)
  deriving DecidableEq, Repr, Inhabited

def Val.zero : Val := .fin false 0 1

def Val.isNan : Val → Bool
  | .nan => true
  | _ => false

def Val.isZero : Val → Bool
  | .fin _ 0 _ => true
  | _ => false

def Val.neg : Val → Val
  | .nan => .nan
  | .inf n => .inf (!n)
  | .fin n a b => .fin (!n) a b

def Val.abs : Val → Val
  | .nan => .nan
  | .inf _ => .inf false
  | .fin _ a b => .fin false a b

def Val.isNeg : Val → Bool
  | .nan => false
  | .inf n => n
  | .fin n a _ => n && a ≠ 0

/-- num × 2^e as a value. -/
def Val.scaled (neg : Bool) (num : Nat) (e : Int) : Val :=
  if 0 ≤ e then .fin neg (num * 2 ^ e.toNat) 1 else .fin neg num (2 ^ (-e).toNat)

def Val.ofInt (i : Int) : Val := .fin (i < 0) i.natAbs 1

/-- The magnitude part of a code. -/
def Fmt.mag (f : Fmt) (c : Nat) : Nat := c % 2 ^ (f.expBits + f.fracBits)

def Fmt.signBit (f : Fmt) (c : Nat) : Bool := f ≠ .e3m5 && natBits c (f.width - 1) (f.width - 1) = 1

/-- A code is a NaN, or invalid (R150, R151). -/
def Fmt.isNanCode (f : Fmt) (c : Nat) : Bool :=
  f ≠ .e2m1 && (if f.hasInf then f.maxCode + 1 < f.mag c else f.maxCode < f.mag c)

/-- A signalling NaN: its fraction's most significant bit is 0; every E4M3 NaN is quiet (R186). -/
def Fmt.isSnan (f : Fmt) (c : Nat) : Bool :=
  f.hasInf && f.isNanCode c && natBits c (f.fracBits - 1) (f.fracBits - 1) = 0

/-- The value of a code (R150, R151). -/
def Fmt.val (f : Fmt) (c : Nat) : Val :=
  let m := f.mag c
  let s := f.signBit c
  if f.isNanCode c then .nan
  else if f.hasInf ∧ m = f.maxCode + 1 then .inf s
  else
    let e := m / 2 ^ f.fracBits
    let frac := m % 2 ^ f.fracBits
    if e = 0 then .scaled s frac (1 - (f.bias : Int) - f.fracBits)
    else .scaled s (2 ^ f.fracBits + frac) ((e : Int) - f.bias - f.fracBits)

/-! ### Exact operations -/

/-- The sum of two exact values over a common denominator; `down` is RDN, which decides the sign of an
exact zero of opposite signs (R152). -/
def Val.add (down : Bool) : Val → Val → Val
  | .nan, _ | _, .nan => .nan
  | .inf a, .inf b => if a = b then .inf a else .nan
  | .inf a, _ => .inf a
  | _, .inf b => .inf b
  | .fin s a b, .fin t c d =>
    let (x, y, den) := if b % d = 0 then (a, c * (b / d), b)
      else if d % b = 0 then (a * (d / b), c, d) else (a * d, c * b, b * d)
    let sum : Int := (if s then -(x : Int) else x) + (if t then -(y : Int) else y)
    if sum = 0 then .fin (if s = t then s else down) 0 1 else .fin (sum < 0) sum.natAbs den

def Val.mul : Val → Val → Val
  | .nan, _ | _, .nan => .nan
  | .inf a, .inf b => .inf (a != b)
  | .inf a, .fin s n _ => if n = 0 then .nan else .inf (a != s)
  | .fin s n _, .inf b => if n = 0 then .nan else .inf (b != s)
  | .fin s a b, .fin t c d => .fin (s != t) (a * c) (b * d)

/-- An exact quotient. A non-zero or infinite value over zero is infinite, zero over zero invalid (R162). -/
def Val.div : Val → Val → Val
  | .nan, _ | _, .nan => .nan
  | .inf _, .inf _ => .nan
  | .inf a, .fin s _ _ => .inf (a != s)
  | .fin s _ _, .inf b => .fin (s != b) 0 1
  | .fin s a b, .fin t c d =>
    if c = 0 then (if a = 0 then .nan else .inf (s != t)) else .fin (s != t) (a * d) (b * c)

/-- The order of two values that are not NaN; zeros compare equal. -/
def Val.cmp : Val → Val → Ordering
  | .inf a, .inf b => if a = b then .eq else if a then .lt else .gt
  | .inf a, _ => if a then .lt else .gt
  | _, .inf b => if b then .gt else .lt
  | .fin s a b, .fin t c d =>
    compare ((if s then -(a : Int) else a) * d) ((if t then -(c : Int) else c) * b)
  | _, _ => .eq

/-! ### Flags and rounding -/

/-- The bits of `vfflags` (R62). -/
abbrev Flags := BitVec 5

def fNV : Flags := 16
def fDZ : Flags := 8
def fOF : Flags := 4
def fUF : Flags := 2
def fNX : Flags := 1

def flagIf (c : Bool) (f : Flags) : Flags := if c then f else 0

/-- A rounding mode (R154); SR carries its 24 random bits (R157). -/
inductive Mode where
  | rne | rtz | rdn | rup | rmm
  | sr (r : Nat)
  deriving DecidableEq, Repr, Inhabited

/-- srbits of R157. -/
def srbits (seed : Word) (i : Nat) : Nat :=
  let z := seed + BitVec.ofNat 64 (i + 1) * 0x9E3779B97F4A7C15#64
  let z := (z ^^^ (z >>> 30)) * 0xBF58476D1CE4E5B9#64
  let z := (z ^^^ (z >>> 27)) * 0x94D049BB133111EB#64
  let z := z ^^^ (z >>> 31)
  (z >>> 40).toNat

/-- The mode of `vfrm` [2:0] for an instruction that does not honour SR (R154). -/
def modeOf (frm : BitVec 4) : Mode :=
  match frm.toNat % 8 with
  | 1 => .rtz
  | 2 => .rdn
  | 3 => .rup
  | 4 => .rmm
  | _ => .rne

/-- The mode of `vfrm` [2:0] for an instruction that honours SR. -/
def modeSr (frm : BitVec 4) (seed : Word) (i : Nat) : Mode :=
  if frm.toNat % 8 = 5 then .sr (srbits seed i) else modeOf frm

def isRdn (m : Mode) : Bool := m = .rdn

/-- Rounds a non-negative rational with a sign to an integer magnitude, and says whether that is inexact
(R154, R157). -/
def roundInt (m : Mode) (neg : Bool) (num den : Nat) : Nat × Bool :=
  let q := num / den
  let r := num % den
  let up := match m with
    | .rne => den < 2 * r || (2 * r = den && q % 2 = 1)
    | .rtz => false
    | .rdn => neg && r ≠ 0
    | .rup => !neg && r ≠ 0
    | .rmm => den ≤ 2 * r
    | .sr b => r ≠ 0 && 2 ^ 24 ≤ 2 ^ 24 * r / den + b
  (if up then q + 1 else q, r ≠ 0)

/-- Rounds to a multiple of 2^q. -/
def roundGrid (m : Mode) (neg : Bool) (num den : Nat) (q : Int) : Nat × Bool :=
  if 0 ≤ q then roundInt m neg num (den * 2 ^ q.toNat) else roundInt m neg (num * 2 ^ (-q).toNat) den

/-- The floor of the binary logarithm of a positive rational. -/
def ilog2 (num den : Nat) : Int :=
  let e : Int := (num.log2 : Int) - den.log2
  let below := if 0 ≤ e then num < den * 2 ^ e.toNat else num * 2 ^ (-e).toNat < den
  if below then e - 1 else e

/-- What an overflow becomes (R155). `infinite` says that the value itself was infinite. -/
def overflow (f : Fmt) (m : Mode) (sat neg infinite : Bool) : Nat × Flags :=
  let fl := if infinite then 0 else fOF ||| fNX
  match f with
  | .e4m3 => if sat then (f.signed neg f.maxCode, fOF ||| fl) else (f.canon, if infinite then fNV else fl)
  | .e2m1 => (f.signed neg f.maxCode, fOF ||| fl)
  | .e3m5 => (f.maxCode, fOF ||| fl)
  | f =>
    let toMax : Bool := match m with
      | .rtz => true
      | .rdn => !neg
      | .rup => neg
      | _ => false
    if infinite then (f.signed neg (f.maxCode + 1), 0)
    else if (f = .e5m2 && sat) || toMax then (f.signed neg f.maxCode, fl)
    else (f.signed neg (f.maxCode + 1), fl)

/-- A positive magnitude rounded into a format: its code on the unbounded grid, which exceeds the largest
finite code when it overflows, whether it is inexact, and whether it is tiny (R154, R156). -/
def roundMag (f : Fmt) (m : Mode) (neg : Bool) (num den : Nat) : Nat × Bool × Bool :=
  let emin : Int := 1 - f.bias
  let e := ilog2 num den
  let q := max e emin - f.fracBits
  let (n, inexact) := roundGrid m neg num den q
  let code := n + (q - (emin - f.fracBits)).toNat * 2 ^ f.fracBits
  let tiny : Bool := if emin ≤ e then false
    else if e < emin - 1 then true
    else decide ((roundGrid m neg num den (e - f.fracBits)).1 < 2 ^ (f.fracBits + 1))
  (code, inexact, tiny)

/-- rnd of R154 to R156: an exact value as a code of a format, with the flags it raises. `sat` is
`vfrm` [3]. A NaN gives the canonical NaN; into E2M1 it gives 0 and NV (R158). -/
def rnd (f : Fmt) (m : Mode) (sat : Bool) : Val → Nat × Flags
  | .nan => (f.canon, flagIf (f = .e2m1) fNV)
  | .inf s => overflow f m sat s true
  | .fin s 0 _ => (f.signed s 0, 0)
  | .fin s num den =>
    let (code, inexact, tiny) := roundMag f m s num den
    if f.maxCode < code then overflow f m sat s false
    else (f.signed s code, flagIf inexact fNX ||| flagIf (inexact && tiny) fUF)

/-- The rounding controls of an instruction: mode and `vfrm` [3]. -/
structure Round where
  mode : Mode
  sat : Bool
  deriving DecidableEq, Repr, Inhabited

def roundOf (frm : BitVec 4) : Round := { mode := modeOf frm, sat := frm.getLsbD 3 }

def roundSr (frm : BitVec 4) (seed : Word) (i : Nat) : Round :=
  { mode := modeSr frm seed i, sat := frm.getLsbD 3 }

/-! ### Arithmetic on codes -/

/-- NV for a signalling operand, and for a NaN made of operands that are none (R152, R156). -/
def nvFlags (f : Fmt) (ops : List Nat) (r : Val) : Flags :=
  flagIf (ops.any f.isSnan) fNV ||| flagIf (r.isNan && !ops.any f.isNanCode) fNV

def finish (f : Fmt) (rm : Round) (ops : List Nat) (r : Val) : Nat × Flags :=
  let (c, fl) := rnd f rm.mode rm.sat r
  (c, nvFlags f ops r ||| fl)

def fadd (f : Fmt) (rm : Round) (a b : Nat) : Nat × Flags :=
  finish f rm [a, b] (Val.add (isRdn rm.mode) (f.val a) (f.val b))

def fsub (f : Fmt) (rm : Round) (a b : Nat) : Nat × Flags :=
  finish f rm [a, b] (Val.add (isRdn rm.mode) (f.val a) (f.val b).neg)

def fmul (f : Fmt) (rm : Round) (a b : Nat) : Nat × Flags :=
  finish f rm [a, b] (Val.mul (f.val a) (f.val b))

/-- ∞ × 0 is invalid whatever is added to it (R156). -/
def badProduct (x y : Val) : Bool := !x.isNan && !y.isNan && (Val.mul x y).isNan

/-- d + a × b, one rounding; `minus` subtracts the product (R184). -/
def fma (f : Fmt) (rm : Round) (minus : Bool) (a b d : Nat) : Nat × Flags :=
  let p := Val.mul (f.val a) (f.val b)
  let r := Val.add (isRdn rm.mode) (if minus then p.neg else p) (f.val d)
  let (c, fl) := finish f rm [a, b, d] r
  (c, fl ||| flagIf (badProduct (f.val a) (f.val b)) fNV)

/-- maximumNumber and minimumNumber (R153): a NaN gives way to a number, and −0 is less than +0. -/
def fminmax (f : Fmt) (isMax : Bool) (a b : Nat) : Nat × Flags :=
  let fl := flagIf (f.isSnan a || f.isSnan b) fNV
  let c :=
    if f.isNanCode a then (if f.isNanCode b then f.canon else b)
    else if f.isNanCode b then a
    else match Val.cmp (f.val a) (f.val b) with
      | .lt => if isMax then b else a
      | .gt => if isMax then a else b
      | .eq => if f.signBit a = isMax then b else a
  (c, fl)

/-- Sign injection copies bits (R184). -/
def fsgn (f : Fmt) (a : Nat) (neg : Bool) : Nat := f.signed neg (f.mag a)

/-- The float relations of R186. -/
inductive FRel where
  | eq | ne | lt | le | gt | ge | ord
  deriving DecidableEq, Repr

def fcompare (f : Fmt) (r : FRel) (a b : Nat) : Bool × Flags :=
  let snan := f.isSnan a || f.isSnan b
  let un := f.isNanCode a || f.isNanCode b
  let o := Val.cmp (f.val a) (f.val b)
  match r with
  | .eq => (!un && o = .eq, flagIf snan fNV)
  | .ne => (un || o ≠ .eq, flagIf snan fNV)
  | .lt => (!un && o = .lt, flagIf un fNV)
  | .le => (!un && o ≠ .gt, flagIf un fNV)
  | .gt => (!un && o = .gt, flagIf un fNV)
  | .ge => (!un && o ≠ .lt, flagIf un fNV)
  | .ord => (!un, flagIf snan fNV)

/-- The class number of a code (R187). -/
def fclass (f : Fmt) (c : Nat) : Nat :=
  if f.isNanCode c then (if f.isSnan c then 8 else 9)
  else
    let m := f.mag c
    let k := if m = 0 then 0 else if f.hasInf ∧ m = f.maxCode + 1 then 3
      else if m < 2 ^ f.fracBits then 1 else 2
    if f.signBit c then 3 - k else 4 + k

/-! ### Conversions (R158) -/

/-- Float to float: a signalling NaN sets NV. A NaN converted to E2M1 sets NV (through `rnd`). -/
def convFF (src dst : Fmt) (rm : Round) (c : Nat) : Nat × Flags :=
  let (r, fl) := rnd dst rm.mode rm.sat (src.val c)
  (r, fl ||| flagIf (src.isSnan c) fNV)

/-- Float to a w-bit integer. -/
def toInt (w : Nat) (sgn : Bool) (m : Mode) (v : Val) : Nat × Flags :=
  let top := if sgn then 2 ^ (w - 1) - 1 else 2 ^ w - 1
  let bot := if sgn then 2 ^ (w - 1) else 0
  match v with
  | .nan => (top, fNV)
  | .inf s => (if s then bot else top, fNV)
  | .fin s num den =>
    let (n, inexact) := roundInt m s num den
    if s then (if bot < n then (bot, fNV) else (wrap w (-(n : Int)), flagIf inexact fNX))
    else if top < n then (top, fNV) else (n, flagIf inexact fNX)

/-! ### Approximations (R159) -/

/-- Rounds a positive rational to some significant bits, RNE. -/
def sigBits (k : Nat) (neg : Bool) (num den : Nat) : Val :=
  let q := ilog2 num den - (k - 1)
  Val.scaled neg (roundGrid .rne neg num den q).1 q

/-- x = 2^e × s with s cut to seven fraction bits: the numerator of s8 over 2^7, and e. -/
def cut7 (num den : Nat) : Nat × Int :=
  let e := ilog2 num den
  ((roundGrid .rtz false num den (e - 7)).1, e)

def approxRcp (s : Bool) (num den : Nat) : Val :=
  let (n, e) := cut7 num den
  match Val.scaled s n (e - 7) with
  | .fin _ a b => sigBits 10 s b a
  | v => v

/-- The largest k-bit number that meets a test which holds downwards, found from its top bit. -/
def bitSearch (ok : Nat → Bool) : Nat → Nat → Nat
  | 0, acc => acc
  | k + 1, acc => bitSearch ok k (if ok (acc + 2 ^ k) then acc + 2 ^ k else acc)

/-- The root of b / a to 10 significant bits, RNE. -/
def rootTo10 (b a : Nat) : Val :=
  let k := (ilog2 b a) / 2
  let sh := 2 * (k - 9)
  let (b', a') := if 0 ≤ sh then (b, a * 2 ^ sh.toNat) else (b * 2 ^ (-sh).toNat, a)
  let n := bitSearch (fun n => n * n * a' ≤ b') 11 0
  let h := (2 * n + 1) * (2 * n + 1) * a'
  let n' := if h < 4 * b' ∨ (h = 4 * b' ∧ n % 2 = 1) then n + 1 else n
  Val.scaled false n' (k - 9)

def approxRsqrt (num den : Nat) : Val :=
  let (n, e) := cut7 num den
  match Val.scaled false n (e - 7) with
  | .fin _ a b => rootTo10 b a
  | v => v

/-- 2^(j / 2^16) to 12 significant bits, RNE, for 0 ≤ j < 2^16, as a multiple of 2^−11. -/
def exp2Frac (j : Nat) : Nat :=
  let g := Nat.gcd j 65536
  let p := 65536 / g
  let t := j / g
  let n := bitSearch (fun n => n ^ p ≤ 2 ^ (11 * p + t)) 12 0
  if 2 ^ (12 * p + t) < (2 * n + 1) ^ p then n else n + 1

/-- 2^x for a finite non-zero x. Beyond ±1024 every format overflows or rounds to zero as at ±1024. -/
def approxExp2 (s : Bool) (num den : Nat) : Val :=
  let t := num * 65536 / den
  let t' : Int := if 1024 * 65536 ≤ t then 1024 * 65536 else t
  let x : Int := if s then -t' else t'
  Val.scaled false (exp2Frac (x % 65536).toNat) (x / 65536 - 11)

inductive Approx where
  | rcp | rsqrt | exp2
  deriving DecidableEq, Repr

/-- The approximation instructions (R159): the final rounding is RNE under R155. -/
def fapprox (f : Fmt) (op : Approx) (sat : Bool) (c : Nat) : Nat × Flags :=
  let out (v : Val) (fl : Flags) : Nat × Flags :=
    let (r, g) := rnd f .rne sat v
    (r, g ||| fl ||| flagIf (f.isSnan c) fNV)
  match op, f.val c with
  | _, .nan => out .nan 0
  | .rcp, .inf s => out (.fin s 0 1) 0
  | .rcp, .fin s 0 _ => out (.inf s) fDZ
  | .rcp, .fin s n d => out (approxRcp s n d) 0
  | .rsqrt, .inf s => if s then out .nan fNV else out Val.zero 0
  | .rsqrt, .fin s 0 _ => out (.inf s) fDZ
  | .rsqrt, .fin s n d => if s then out .nan fNV else out (approxRsqrt n d) 0
  | .exp2, .inf s => if s then out Val.zero 0 else out (.inf false) 0
  | .exp2, .fin _ 0 _ => out (.fin false 1 1) 0
  | .exp2, .fin s n d => out (approxExp2 s n d) 0

/-! ### Fixed point (R149) -/

def roundoff (xrm : BitVec 2) (v : Int) (d : Nat) : Int :=
  if d = 0 then v else
    let q := v / (2 ^ d : Nat)
    let lost := (v % (2 ^ d : Nat)).toNat
    let half := natBits lost (d - 1) (d - 1)
    match xrm.toNat with
    | 0 => q + half
    | 1 => if half = 1 ∧ (lost % 2 ^ (d - 1) ≠ 0 ∨ q % 2 = 1) then q + 1 else q
    | 2 => q
    | _ => if lost ≠ 0 ∧ q % 2 = 0 then q + 1 else q

/-! ### Data and scale formats (R53, R63, R160 to R162) -/

/-- A data format: a float format or INT8 (R53). -/
inductive DFmt where
  | flt (f : Fmt)
  | int8
  deriving DecidableEq, Repr, Inhabited

def DFmt.ofCode : Nat → Option DFmt
  | 0 => some (.flt .e4m3)
  | 1 => some (.flt .e5m2)
  | 2 => some (.flt .e2m1)
  | 3 => some .int8
  | _ => none

def DFmt.width : DFmt → Nat
  | .flt f => f.width
  | .int8 => 8

def DFmt.val (d : DFmt) (c : Nat) : Val :=
  match d with
  | .flt f => f.val c
  | .int8 => Val.ofInt (signed 8 c)

/-- The largest magnitude (R161). -/
def DFmt.fmax : DFmt → Nat
  | .flt .e2m1 => 6
  | .flt .e4m3 => 448
  | .flt .e5m2 => 57344
  | _ => 127

/-- The format of scale values (R52): 00 E3M5, 01 BF16, 10 FP32. -/
def scaleFmt : Nat → Fmt
  | 0 => .e3m5
  | 1 => .bf16
  | _ => .fp32

/-- amax / divisor rounded up into a scale format (R161): zero gives the smallest positive value, NaN the
invalid scale with NV, and what exceeds the maximum that maximum with OF. -/
def deriveScale (f : Fmt) (amax divisor : Val) : Nat × Flags :=
  match amax with
  | .nan => (f.canon, fNV)
  | .inf _ => (f.maxCode, fOF)
  | .fin _ 0 _ => (1, 0)
  | a =>
    match Val.div a divisor with
    | .fin _ num den =>
      if num = 0 then (1, 0) else
        let (code, _, _) := roundMag f .rup false num den
        if f.maxCode < code then (f.maxCode, fOF) else (code, 0)
    | _ => (f.maxCode, fOF)

/-- Quantisation of x by its effective scale (R162): overflow saturates whatever `vfrm` [3] says. UF is set as R156 says,
for a code of zero too, which Example 7.3 does not show (DEDUCED, log 25). -/
def quantise (d : DFmt) (m : Mode) (x scale : Val) : Nat × Flags :=
  match Val.div x scale, d with
  | .nan, _ => (0, fNV)
  | .inf s, .flt f => (f.signed s f.maxCode, fOF ||| fNX)
  | .inf s, .int8 => (if s then 129 else 127, fOF ||| fNX)
  | .fin s n b, .flt f =>
    if n = 0 then (f.signed s 0, 0) else
      let (code, inexact, tiny) := roundMag f m s n b
      if f.maxCode < code then (f.signed s f.maxCode, fOF ||| fNX)
      else (f.signed s code, flagIf inexact fNX ||| flagIf (inexact && tiny) fUF)
  | .fin s n b, .int8 =>
    let (k, inexact) := roundInt m s n b
    if 127 < k then (if s then 129 else 127, fOF ||| fNX)
    else (wrap 8 (if s then -(k : Int) else k), flagIf inexact fNX)

/-- A scale result (R232): rounded under the mode, saturated to the maximum with OF; a negative or NaN
result is the invalid code with NV. -/
def roundScale (f : Fmt) (m : Mode) (v : Val) : Nat × Flags :=
  match v with
  | .nan => (f.canon, fNV)
  | .inf s => if s then (f.canon, fNV) else (f.maxCode, fOF)
  | .fin s n b =>
    if n = 0 then (f.signed s 0, 0)
    else if s then (f.canon, fNV)
    else
      let (code, inexact, tiny) := roundMag f m false n b
      if f.maxCode < code then (f.maxCode, fOF ||| fNX)
      else (code, flagIf inexact fNX ||| flagIf (inexact && tiny) fUF)

end Sys2Proof.Machine
end

