-- ==== Sys2Proof/Machine/Flags.lean ====
section
/-! DEFINITION. The sticky flags of the vector side: `vfflags` and `vxsat` (R62, R148, R156). -/

namespace Sys2Proof.Machine

/-- What one element computes: its bits, the float flags it raises, and whether it was clamped. -/
structure ElemOut where
  val : Nat
  flags : Flags
  sat : Bool
  deriving DecidableEq, Repr, Inhabited

/-- A result that raises nothing. -/
def plain (v : Nat) : ElemOut := { val := v, flags := 0, sat := false }

/-- A float result with its flags. -/
def flagged (r : Nat × Flags) : ElemOut := { val := r.1, flags := r.2, sat := false }

/-- The union of the flags of some elements (R156). -/
def joinFlags (os : List ElemOut) : Flags := os.foldl (fun f o => f ||| o.flags) 0

/-- Sets sticky bits of `vfflags`, and of `vxsat` when an element was clamped (R148, R156). -/
def raiseFlags (f : Flags) (sat : Bool) (st : Strand) : Strand :=
  { st with csr := { st.csr with
      vfflags := st.csr.vfflags ||| f.setWidth 64
      vxsat := if sat then st.csr.vxsat ||| 1 else st.csr.vxsat } }

end Sys2Proof.Machine
end

