-- ==== Sys2Proof/Machine/Operands.lean ====
section
/-! DEFINITION. The operands of vector instructions: where an element and a mask bit lie (R46 to R50), how
a destination is written (R51, R174, R175), and what stops an instruction part-way (R177, R468). -/

namespace Sys2Proof.Machine

/-- The numbers from a up to but not including b. -/
def span (a b : Nat) : List Nat := (List.range (b - a)).map (a + ·)

theorem mod32_lt (r : Nat) : r % 32 < 32 := Nat.mod_lt _ (by decide)

/-- The fields of register r by row. -/
def fieldsOf (st : Strand) (r : Nat) : SMap (BitVec 32) := st.v[r % 32]'(mod32_lt r)

def setFields (r : Nat) (m : SMap (BitVec 32)) (st : Strand) : Strand :=
  { st with v := st.v.set (r % 32) m (mod32_lt r) }

/-- The poisoned rows of register r. -/
def poisonOf (st : Strand) (r : Nat) : SMap Unit := st.vpoison[r % 32]'(mod32_lt r)

def setPoison (r : Nat) (m : SMap Unit) (st : Strand) : Strand :=
  { st with vpoison := st.vpoison.set (r % 32) m (mod32_lt r) }

/-- The field of register r in row ρ. -/
def fieldAt (st : Strand) (r row : Nat) : BitVec 32 := smRead 0 (fieldsOf st r) row

def setField (st : Strand) (r row : Nat) (v : BitVec 32) : Strand :=
  setFields r (smWrite 0 (fieldsOf st r) row v) st

/-- Puts w bits into a field at an offset. -/
def putBits (old : BitVec 32) (off w v : Nat) : BitVec 32 :=
  let mask := BitVec.ofNat 32 ((2 ^ w - 1) * 2 ^ off)
  (old &&& ~~~mask) ||| (BitVec.ofNat 32 (v * 2 ^ off) &&& mask)

/-- Element i of the group at a base register, at width w (R47). -/
def getElem (st : Strand) (base w i : Nat) : Nat :=
  let row := i % rg st
  let slot := i / rg st
  if w ≤ 32 then
    natBits (fieldAt st (base + slot / (32 / w)) row).toNat (slot % (32 / w) * w + w - 1) (slot % (32 / w) * w)
  else (fieldAt st (base + 2 * slot) row).toNat + (fieldAt st (base + 2 * slot + 1) row).toNat * 2 ^ 32

/-- Writes element i of a group (R47). -/
def setElem (st : Strand) (base w i v : Nat) : Strand :=
  let row := i % rg st
  let slot := i / rg st
  if w ≤ 32 then
    let r := base + slot / (32 / w)
    setField st r row (putBits (fieldAt st r row) (slot % (32 / w) * w) w v)
  else
    setField (setField st (base + 2 * slot) row (BitVec.ofNat 32 v)) (base + 2 * slot + 1) row
      (BitVec.ofNat 32 (v / 2 ^ 32))

/-- The mask bit of element i in a register (R49). -/
def maskBit (st : Strand) (r i : Nat) : Bool := (fieldAt st r (i % rg st)).getLsbD (i / rg st)

/-- The field of register r in a row is poisoned (R440). -/
def fieldPoisoned (st : Strand) (r row : Nat) : Bool :=
  (smGet (poisonOf st r) row).isSome

/-- The registers, relative to the base, that hold element slot σ at width w. -/
def slotRegs (w slot : Nat) : List Nat := if w ≤ 32 then [slot / (32 / w)] else [2 * slot, 2 * slot + 1]

/-- An operand that an instruction reads: elements of a group, or mask bits of a register. -/
inductive Src where
  | elems (base w : Nat)
  | bits (r : Nat)
  deriving DecidableEq, Repr

/-- The row field that holds element i of an operand is poisoned. -/
def Src.poisoned (st : Strand) (i : Nat) : Src → Bool
  | .elems base w => (slotRegs w (i / rg st)).any fun k => fieldPoisoned st (base + k) (i % rg st)
  | .bits r => fieldPoisoned st r (i % rg st)

/-- A destination: elements of width w of a group of G registers, or mask bits of one register. -/
inductive Dst where
  | elems (base w group : Nat)
  | bits (r : Nat)
  deriving DecidableEq, Repr

/-- What an instruction at the head of the V queue works with. -/
structure VEnv where
  e : VEntry
  st : Strand
  sew : Nat
  lmul : Nat
  vmax : Nat
  masked : Bool

/-- The number of element slots in a row (R169). -/
def VEnv.slots (v : VEnv) : Nat := 32 * v.lmul / v.sew

def VEnv.ftype (v : VEnv) : Nat := natBits v.e.vtype.toNat 7 6

def VEnv.zeroTail (v : VEnv) : Bool := v.e.vtype.getLsbD 8

def VEnv.zeroMasked (v : VEnv) : Bool := v.e.vtype.getLsbD 9

/-- An element takes part: the instruction is not masked, or its bit of v0 is 1 (R49). -/
def VEnv.active (v : VEnv) (i : Nat) : Bool := !v.masked || maskBit v.st 0 i

/-- The element at which the instruction began, before any element step (R468). -/
def VEnv.first (v : VEnv) : Nat := (v.e.lanes.map LaneCopy.start).getD v.e.vstart

/-- Element i of a group at the width of vtype. -/
def VEnv.elem (v : VEnv) (r : Reg) (i : Nat) : Nat := getElem v.st r.toNat v.sew i

/-- The float format that vtype names (R58). -/
def fmtOf (ftype w : Nat) : Option Fmt :=
  match ftype, w with
  | 1, 32 => some .fp32
  | 1, 16 => some .bf16
  | 1, 8 => some .e4m3
  | 1, 4 => some .e2m1
  | 2, 16 => some .fp16
  | 2, 8 => some .e5m2
  | _, _ => none

/-- The formats for which R153 implements arithmetic. -/
def arithFmt (f : Option Fmt) : Bool := f.isSome && f ≠ some .e2m1

def VEnv.fmt (v : VEnv) : Option Fmt := fmtOf v.ftype v.sew

/-- The strand as an instruction reads its sources: with the lane rows that its first element step found (R468). -/
def laneView (e : VEntry) (st : Strand) : Strand :=
  match e.lanes with
  | some c => { st with v := c.v, vpoison := c.poison }
  | none => st

def vEnv (e : VEntry) (masked : Bool) : Act VEnv := do
  let st ← getStrand
  pure { e := e, st := laneView e st, sew := sewOf e.vtype, lmul := lmulOf e.vtype
         vmax := vlmax (rg st) e.vtype, masked := masked }

/-- The alignment and range of operand groups (R50): every alignment before any range. -/
def checkGroups (gs : List (Nat × Nat)) : Act Unit := do
  require (gs.all fun (r, g) => r % g = 0) 3
  require (gs.all fun (r, g) => r + g ≤ 32) 4

/-- The checks of R68 that follow the field checks of decoding, in its order: an operand value (subcode
6), vill and the mask rule of R49 (2), the groups (3, 4), and the stated combination (5). -/
def vCheck (e : VEntry) (value mask : Bool) (groups : List (Nat × Nat)) (combo : Bool) : Act Unit := do
  require value 6
  require (!e.vtype.getLsbD 63) 2
  require (!mask || 32 * lmulOf e.vtype ≤ 32 * sewOf e.vtype) 2
  checkGroups groups
  require combo 5

/-- A whole-vector instruction starts at element 0 (R190, R224). -/
def wholeVector (e : VEntry) : Bool := e.vstart = 0

/-- The group size of an operand of width w (R181, R189, R140). -/
def groupFor (v : VEnv) (w : Nat) : Nat :=
  let g := max 1 (v.lmul * w / v.sew)
  if w = 64 then max 2 g else g

/-- The elements that share the field of a register and row, as offsets of slots. -/
def slotsOf (w k : Nat) : List Nat := if w ≤ 32 then span (k * (32 / w)) ((k + 1) * (32 / w)) else [k / 2]

/-- Clears or keeps the poison of a destination's fields (R440): a field is clean once every bit of it has
been written anew. -/
def settleDst (st : Strand) (d : Dst) (slots : Nat) (written : List Nat) : Strand :=
  let keep (covers : Nat → List Nat) (r : Nat) (st : Strand) : Strand :=
    setPoison r ((poisonOf st r).filter fun (row, _) => !(covers row).all written.contains) st
  match d with
  | .elems base w g => (List.range g).foldl (init := st) fun t k =>
      keep (fun row => (slotsOf w k).map fun sl => row + rg st * sl) (base + k) t
  | .bits r => keep (fun row => (List.range slots).map fun sl => row + rg st * sl) r st

/-- Writes values to a destination (R174, R175). A mask destination's bits beyond the slots become zero, in every row
with the first part of an instruction that stops on the way: the spec leaves open when (DESIGN CHOICE, log 78). -/
def writeDst (st : Strand) (d : Dst) (slots : Nat) (ws : List (Nat × Nat)) : Strand :=
  let st1 := match d with
    | .elems base w _ => ws.foldl (init := st) fun t (i, x) => setElem t base w i x
    | .bits r =>
      let low := BitVec.ofNat 32 (2 ^ slots - 1)
      let cut := setFields r (smMap 0 (fun _ f => f &&& low) (fieldsOf st r)) st
      ws.foldl (init := cut) fun t (i, x) =>
        setField t r (i % rg st) (putBits (fieldAt t r (i % rg st)) (i / rg st) 1 x)
  settleDst st1 d slots (ws.map (·.1))

def setTag (r : Nat) (t : BitVec 32) (st : Strand) : Strand :=
  { st with tags := st.tags.set (r % 32) t (mod32_lt r) }

def tagOf (st : Strand) (r : Nat) : BitVec 32 := st.tags[r % 32]'(mod32_lt r)

/-- A write by a non-scaling instruction (R53): the base's valid bit and the other members' tags go. -/
def clearTags (base group : Nat) (st : Strand) : Strand :=
  (span 1 group).foldl (init := setTag base (tagOf st base &&& ~~~1) st) fun t k => setTag (base + k) 0 t

def Dst.clearTags (d : Dst) (st : Strand) : Strand :=
  match d with
  | .elems base _ g => Machine.clearTags base g st
  | .bits r => Machine.clearTags r 1 st

/-- Poison in a lane row (R177, R195): the record names the row, and telem is the element. -/
def lanePoison {α : Type} (i : Nat) : Act α := do
  let st ← getStrand
  let row := i % rg st
  let loc := (st.arrays[row / 512]?).getD (0, 0)
  modS (addErr { (errRec 3 1 st.asid [2, causePoison]).ofHoop loc.1 with
    slot := st.slot, array := loc.2, row := row % 512 })
  mapTrap (fun t => { t with telem := BitVec.ofNat 32 i }) (raise causePoison 0)

/-- The end of what one issue processes: in element-step mode the end of vstart's group of 512 (R468). -/
def stepEnd (v : VEnv) : Nat :=
  if v.st.dbgElem then min v.e.vl ((v.e.vstart / 512 + 1) * 512) else v.e.vl

/-- An element step has stopped short of vl: it halts or traps STEP at the next group, and the later steps read the
sources that this one read (R50, R438, R468). -/
def stopStep (v : VEnv) (hi : Nat) : Act Unit :=
  if hi < v.e.vl then do
    modHead fun e => { e with vstart := hi, lanes := some { v := v.st.v, poison := v.st.vpoison, start := v.first } }
    if v.st.dbgTrap then raise causeStep 0 else stopWith (.halt .step)
  else pure ()

/-- The mask bit of an element, or an operand of an active one, is poisoned. -/
def elemPoisoned (v : VEnv) (srcs : List Src) (i : Nat) : Bool :=
  (v.masked && (Src.bits 0).poisoned v.st i) || (v.active i && srcs.any fun x => x.poisoned v.st i)

/-- The element-wise effect (R174, R175) with its own test of activity: active elements computed from the
old registers (`none` keeps the old value), masked-off and tail elements under their policies, the flags of
what was computed, and a stop at the first element whose operands are poisoned (R177). -/
def elementRun (v : VEnv) (d : Dst) (act poisoned : Nat → Bool) (f : Nat → Option ElemOut) : Act Unit :=
  if v.e.vl ≤ v.e.vstart then pure ()
  else do
    let lim := stepEnd v
    let bad := (span v.e.vstart lim).find? poisoned
    let hi := bad.getD lim
    let outs := (span v.e.vstart hi).filterMap fun i =>
      if act i then (f i).map fun o => (i, o) else if v.zeroMasked then some (i, plain 0) else none
    let tail := if hi = v.e.vl ∧ v.zeroTail then (span v.e.vl v.vmax).map fun i => (i, 0) else []
    modStrand fun st => raiseFlags (joinFlags (outs.map (·.2))) (outs.any fun o => o.2.sat)
      (writeDst st d v.slots (outs.map (fun o => (o.1, o.2.val)) ++ tail))
    match bad with
    | some i => do
      modHead fun e => { e with vstart := i, lanes := none }
      lanePoison i
    | none =>
      if hi < v.e.vl then stopStep v hi else modStrand d.clearTags

/-- The element-wise effect with the mask's activity. -/
def elementWise (v : VEnv) (d : Dst) (srcs : List Src) (f : Nat → ElemOut) : Act Unit :=
  elementRun v d v.active (elemPoisoned v srcs) fun i => some (f i)

/-- A whole-vector instruction reads its operands first: poison stops it with vstart 0 (R195). -/
def wholePoison (v : VEnv) (srcs : List Src) : Act Unit :=
  match (List.range v.e.vl).find? (elemPoisoned v srcs) with
  | some i => lanePoison i
  | none => pure ()

/-- Writes a destination of a whole-vector instruction, tags included. -/
def putDst (v : VEnv) (d : Dst) (ws : List (Nat × Nat)) : Act Unit :=
  modStrand fun st => d.clearTags (writeDst st d v.slots ws)

/-- The tail of a destination under its policy, from a first element (R202). -/
def tailFrom (v : VEnv) (n : Nat) : List (Nat × Nat) :=
  if v.zeroTail then (span n v.vmax).map fun i => (i, 0) else []

/-- The active elements below vl. -/
def VEnv.actives (v : VEnv) : List Nat := (List.range v.e.vl).filter v.active

/-- A result register is written and becomes full at retirement (R191). -/
def writeResult (d : Reg) (x : Word) : Act Unit := modStrand fun st => setFull (writeReg st d x) d

/-! ### The second operand -/

/-- op1 of R174: a vector register, x[rs1], or an immediate. -/
inductive Op1 where
  | vec (r : Reg)
  | scal (r : Reg)
  | imm (i : Int)
  deriving DecidableEq, Repr

def Op1.shape : Op1 → VShape
  | .scal r => { r1 := some r, r2 := none, seed := fun _ => false, csr := fun _ => .none }
  | _ => { r1 := none, r2 := none, seed := fun _ => false, csr := fun _ => .none }

/-- The operand of element i, of w bits. -/
def Op1.get (o : Op1) (v : VEnv) (w i : Nat) : Nat :=
  match o with
  | .vec r => getElem v.st r.toNat w i
  | .scal _ => v.e.a.toNat % 2 ^ w
  | .imm k => wrap w k

def Op1.srcs (o : Op1) (w : Nat) : List Src :=
  match o with
  | .vec r => [.elems r.toNat w]
  | _ => []

def Op1.groups (o : Op1) (g : Nat) : List (Nat × Nat) :=
  match o with
  | .vec r => [(r.toNat, g)]
  | _ => []

/-- A signed and an unsigned 5-bit immediate (R72). -/
def simm (i : BitVec 5) : Op1 := .imm i.toInt

def uimm (i : BitVec 5) : Op1 := .imm i.toNat

/-- No register is read at the front. -/
def noRegs : VShape := { r1 := none, r2 := none, seed := fun _ => false, csr := fun _ => .none }

def oneReg (r : Reg) : VShape := { r1 := some r, r2 := none, seed := fun _ => false, csr := fun _ => .none }

end Sys2Proof.Machine
end

