-- ==== Sys2Proof/Machine/ScaleOps.lean ====
section
/-! DEFINITION. The scale register file as instructions and engines use it (R52 to R54, R216 to R223): values,
bands, bindings and generations, scale streams, derivation and quantisation of a group. -/

namespace Sys2Proof.Machine

/-- The fields of `qcfg` (R63). -/
structure QCfg where
  dcode : Nat
  data : DFmt
  src : Fmt
  bcode : Nat
  sfmt : Nat
  deriving DecidableEq, Repr

/-- `qcfg` as an instruction reads it that uses the data format and the block size, and also the source format or the
scale format where `src` or `scale` says so. A reserved field that it uses, or band rows other than 6, gives none (R63,
R224). -/
def qcfgUse (src scale : Bool) (c : Nat) : Option QCfg :=
  match DFmt.ofCode (natBits c 2 0), natBits c 5 3 with
  | some d, s =>
    if (src → s ≤ 2) ∧ natBits c 8 6 ≤ 4 ∧ (scale → natBits c 10 9 ≤ 2) ∧ natBits c 14 11 = 6 then
      some { dcode := natBits c 2 0, data := d
             src := if s = 0 then .fp32 else if s = 1 then .bf16 else .fp16
             bcode := natBits c 8 6, sfmt := natBits c 10 9 }
    else none
  | none, _ => none

/-- `qcfg` as an instruction reads it that uses all its fields. -/
def qcfgOf : Nat → Option QCfg := qcfgUse true true

/-- The data format that `qcfg` names, whatever its other fields hold: it sizes the code group (R216). -/
def qcfgData (c : Nat) : Option DFmt := DFmt.ofCode (natBits c 2 0)

/-- The block size of a code (R53). -/
def blockSize (code : Nat) : Nat := 8 * 2 ^ code

/-- The values that a format holds (R217). -/
def qCapacity (fmt : Nat) : Nat := if fmt = 2 then 1024 else if fmt = 3 then 0 else 2048

/-- KF4 with E3M5 micro-scales has band scales (R216). -/
def isBanded (d : DFmt) (sfmt : Nat) : Bool := d = .flt .e2m1 && sfmt = 0

def qRegOf (st : Strand) (n : Nat) : QReg := st.q[n % 32]'(mod32_lt n)

def setQ (n : Nat) (v : QReg) (st : Strand) : Strand := { st with q := st.q.set (n % 32) v (mod32_lt n) }

def QReg.entry (q : QReg) (k : Nat) : Nat := (smRead 0 q.entries k).toNat

/-- Value j as a code (R217). -/
def QReg.code (q : QReg) (j : Nat) : Nat :=
  match q.fmt.toNat with
  | 0 => natBits (q.entry (j / 2)) (8 * (j % 2) + 7) (8 * (j % 2))
  | 1 => q.entry j
  | _ => q.entry (2 * j) + q.entry (2 * j + 1) * 2 ^ 16

/-- Band value b as a BF16 code (R217). -/
def QReg.band (q : QReg) (b : Nat) : Nat := q.entry (1024 + b)

def QReg.codes (q : QReg) : List Nat := (List.range q.len).map q.code

/-- The number of band values that a format 00 register holds. -/
def bandCount (n : Nat) : Nat := ceilDiv n 64

def QReg.bands (q : QReg) : List Nat :=
  if q.fmt = 0 then (List.range (bandCount q.len)).map q.band else []

/-- The effective scale of block j (R216). -/
def QReg.eff (q : QReg) (banded : Bool) (j : Nat) : Val :=
  let v := (scaleFmt q.fmt.toNat).val (q.code j)
  if banded then Val.mul v (Fmt.bf16.val (q.band (j / 64))) else v

/-- The effective scale of block j holds a signalling NaN (R152). -/
def QReg.snanAt (q : QReg) (banded : Bool) (j : Nat) : Bool :=
  (scaleFmt q.fmt.toNat).isSnan (q.code j) || (banded && Fmt.bf16.isSnan (q.band (j / 64)))

/-- The entries that hold some values and bands (R217). -/
def qEntries (fmt : Nat) (codes bands : List Nat) : SMap (BitVec 16) :=
  let words : List Nat := match fmt with
    | 0 => (List.range (ceilDiv codes.length 2)).map fun k => codes.getD (2 * k) 0 + 256 * codes.getD (2 * k + 1) 0
    | 1 => codes
    | _ => (codes.map fun c => [c % 2 ^ 16, c / 2 ^ 16]).flatten
  smWriteList 0 (smWriteList 0 [] 0 (words.map (BitVec.ofNat 16))) 1024
    ((if fmt = 0 then bands else []).map (BitVec.ofNat 16))

/-- The stale bit of a tag that names a register is set, whether it is valid or not (R54). -/
def staleTag (n : Nat) (t : BitVec 32) : BitVec 32 :=
  if natBits t.toNat 6 2 = n then t ||| 2 else t

def staleTile (n : Nat) (t : TileEntry) : TileEntry :=
  if natBits t.bits.toNat 107 103 = n then { t with bits := t.bits ||| (1 <<< 49) } else t

/-- A write of a scale register: the generation advances, and at its wrap every binding that names the
register becomes stale (R54, R220). -/
def writeQ (n fmt : Nat) (codes bands : List Nat) (st : Strand) : Strand :=
  let gen := (qRegOf st n).gen + 1
  let st1 := setQ n { entries := qEntries fmt codes bands, fmt := BitVec.ofNat 2 fmt, len := codes.length
                      gen := gen } st
  if gen = 0 then { st1 with tags := st1.tags.map (staleTag (n % 32)), tiles := st1.tiles.map (staleTile (n % 32)) }
  else st1

/-- The bands of a register that is written for an operand without bands: 1.0 (R217). -/
def onesBands (fmt n : Nat) : List Nat := if fmt = 0 then List.replicate (bandCount n) 0x3F80 else []

/-- The tag of a binding (R53). -/
def tagBits (dcode bcode gen q : Nat) : BitVec 32 :=
  BitVec.ofNat 32 (dcode * 2 ^ 22 + bcode * 2 ^ 19 + gen * 2 ^ 7 + q * 4 + 1)

/-- Sets the tag of a group: its base's, and clears the other members' (R219). -/
def setGroupTag (base group : Nat) (t : BitVec 32) (st : Strand) : Strand :=
  (span 1 group).foldl (init := setTag base t st) fun u k => setTag (base + k) 0 u

/-- Binds a code group to a register with its current generation (R219). -/
def bindTo (base group q dcode bcode : Nat) (st : Strand) : Strand :=
  setGroupTag base group (tagBits dcode bcode (qRegOf st q).gen.toNat (q % 32)) st

/-- What a tag or a tile-binding entry says (R53, R55). -/
structure Binding where
  valid : Bool
  stale : Bool
  gen : Nat
  q : Nat
  dcode : Nat
  bcode : Nat
  deriving DecidableEq, Repr

def bindingOfTag (t : BitVec 32) : Binding :=
  let n := t.toNat
  { valid := t.getLsbD 0, stale := t.getLsbD 1, gen := natBits n 18 7, q := natBits n 6 2
    dcode := natBits n 24 22, bcode := natBits n 21 19 }

def bindingOfTile (t : BitVec 128) : Binding :=
  let n := t.toNat
  { valid := t.getLsbD 48, stale := t.getLsbD 49, gen := natBits n 119 108, q := natBits n 107 103
    dcode := natBits n 99 97, bcode := natBits n 102 100 }

def Binding.data (b : Binding) : DFmt := (DFmt.ofCode b.dcode).getD .int8

/-- The reason for which a binding cannot be consumed, in the order of R221. -/
def staleReason (st : Strand) (b : Binding) (nb : Nat) : Option Nat :=
  if !b.valid then some 1
  else if b.stale then some 3
  else if (qRegOf st b.q).gen.toNat ≠ b.gen then some 2
  else if (qRegOf st b.q).len < nb then some 4
  else none

/-- The trap value of STALEQ (R221). -/
def staleTval (tile : Bool) (num reason : Nat) : Nat := (if tile then 2 ^ 15 else 0) + num * 2 ^ 8 + reason

/-- The binding check of R221 for a vector register or a tile-binding entry. -/
def consume (tile : Bool) (num : Nat) (b : Binding) (nb : Nat) : Act Unit := do
  let st ← getStrand
  match staleReason st b nb with
  | some r => raise causeStaleq (staleTval tile num r)
  | none => pure ()

/-- The group of the codes of an operand (R216). -/
def codeGroup (v : VEnv) (d : DFmt) : Nat := max 1 (v.lmul * d.width / v.sew)

/-- The group of the codes that an instruction writes under a captured `qcfg` (R216): for a reserved data format, which
has no width, one register (DESIGN CHOICE, log 96). -/
def writtenGroup (v : VEnv) (c : Nat) : Nat := ((qcfgData c).map (codeGroup v)).getD 1

/-! ### Scale streams (R218) -/

/-- Bytes of one value of a format. -/
def scaleBytes (fmt : Nat) : Nat := if fmt = 0 then 1 else if fmt = 1 then 2 else 4

/-- The offset at which band values follow. -/
def bandOffset (n : Nat) : Nat := 4 * ceilDiv n 4

def codesOfBytes (size : Nat) : Nat → List Byte → List Nat
  | 0, _ => []
  | n + 1, bs => leNat (bs.take size) :: codesOfBytes size n (bs.drop size)

/-- Reads n values, and their bands if `banded`, from a stream (R218). -/
def readStream (p : Port) (space addr fmt n : Nat) (banded : Bool) : Act (List Nat × List Nat) := do
  if addr % 4 ≠ 0 then raise causeAlign addr
  let bs ← spaceRead p space addr (n * scaleBytes fmt)
  let codes := codesOfBytes (scaleBytes fmt) n bs
  if banded then do
    let bb ← spaceRead p space (addr + bandOffset n) (2 * bandCount n)
    pure (codes, codesOfBytes 2 (bandCount n) bb)
  else pure (codes, [])

/-- Writes values, and bands if there are any, to a stream (R218). -/
def writeStream (p : Port) (space addr fmt : Nat) (codes bands : List Nat) : Act Unit := do
  if addr % 4 ≠ 0 then raise causeAlign addr
  spaceWrite p space addr (codes.map (leBytes (scaleBytes fmt))).flatten
  if bands ≠ [] then spaceWrite p space (addr + bandOffset codes.length) (bands.map (leBytes 2)).flatten

/-! ### Derivation and quantisation (R161, R162, R227, R228) -/

/-- The largest magnitude of some values, 0 of none; a NaN is passed over. -/
def amaxOf (vs : List Val) : Val :=
  vs.foldl (init := Val.zero) fun a v => if v.isNan then a else if Val.cmp a v.abs = .lt then v.abs else a

/-- The amax of a block, NaN if it holds one (R161). -/
def blockAmax (vs : List Val) : Val := if vs.any Val.isNan then .nan else amaxOf vs

/-- The active values of block j. -/
def blockVals (B : Nat) (vals : List (Nat × Val)) (j : Nat) : List Val :=
  (vals.filter fun x => x.1 / B = j).map (·.2)

/-- The scale values, the bands and the flags of `qcomp` (R161, R227) for active elements given with their
numbers. A block that holds a NaN gets the invalid scale; what its finite elements add to their band the spec leaves
open, and the model counts them (DESIGN CHOICE, log 24). -/
def deriveAll (c : QCfg) (vals : List (Nat × Val)) (nb : Nat) : List Nat × List Nat × Flags :=
  let B := blockSize c.bcode
  let blocks := (List.range nb).map (blockVals B vals)
  if isBanded c.data c.sfmt then
    let bands := (List.range (bandCount nb)).map fun k =>
      deriveScale .bf16 (amaxOf ((blocks.drop (64 * k)).take 64).flatten) (.fin false 186 1)
    let micros := blocks.zipIdx.map fun (vs, j) =>
      deriveScale .e3m5 (blockAmax vs) (Val.mul (.fin false 6 1) (Fmt.bf16.val ((bands.getD (j / 64) (0, 0)).1)))
    (micros.map (·.1), bands.map (·.1), (micros ++ bands).foldl (fun f x => f ||| x.2) 0)
  else
    let ss := blocks.map fun vs => deriveScale (scaleFmt c.sfmt) (blockAmax vs) (.fin false c.data.fmax 1)
    (ss.map (·.1), onesBands c.sfmt nb, ss.foldl (fun f x => f ||| x.2) 0)

/-- The codes of active elements under a register's scales (R228). -/
def quantAll (c : QCfg) (q : QReg) (frm : BitVec 4) (seed : Word) (vals : List (Nat × Val)) : List (Nat × ElemOut) :=
  vals.map fun (i, x) =>
    (i, flagged (quantise c.data (modeSr frm seed i) x (q.eff (isBanded c.data c.sfmt) (i / blockSize c.bcode))))

end Sys2Proof.Machine
end

