-- ==== Sys2Proof/Machine/Engine.lean ====
section
/-! DEFINITION. What the commands of the M, C and N queues share: when an engine works for a strand, how it
reports a fault (R246), and the changes of an entry. -/

namespace Sys2Proof.Machine

/-- The ASID of the group that a halt control register names (R460): the register at a BAR0 offset. -/
def haltAsid (s : State) (base : Nat) : Nat :=
  natBits (bar0 s base 8) 11 3 + natBits (bar0 s (base + 8) 8) 2 0 * 2 ^ 9

/-- Run-out is set for a halted strand, in its hoop's register or the hub's (R460). -/
def runsOut (s : State) (t : Strand) : Bool :=
  [windowBase t.hoop, 0xE00000].any fun b => natBits (bar0 s b 8) 2 2 = 1 && haltAsid s b = t.asid.toNat

/-- The engines work for a strand that runs or waits, and with run-out for a halted one, until it is cancelled (R42,
R244, R461); node commands stop for a checkpoint (R450). -/
def engineServes (s : State) (t : Strand) : Bool :=
  !(t.node.isSome && s.hub.quiesce) && !t.cancelled &&
  match t.state with
  | .running | .waiting => true
  | .halted => runsOut s t
  | _ => false

def engineLive (s : State) : Bool := engineServes s s.strand

/-! ### Turns (R33, R387) -/

/-- The requesters of an engine of a hoop: the queues of the slots, then node commands (R387). -/
def requester (t : Strand) : Nat := if t.node.isSome then 8 else t.slot

/-- The requester, of n, that is served next after the last one served. -/
def nextServed (n last : Nat) (wants : Nat → Bool) : Option Nat :=
  ((List.range n).map fun i => (last + 1 + i) % n).find? wants

/-- The requester that an engine of the hoop of the strand in focus served last: engines 0 and 1, the copy engine (2)
and the message unit (3). -/
def lastServed (s : State) (unit : Nat) : Nat := (hoopOf s s.strand.hoop).served.toList.getD unit 8

/-- It is the turn of the strand or node command in focus at an engine of its hoop, of those that want work done there or
whose head command the engine can accept (R376, R387). An acceptance ends no turn (DESIGN CHOICE, log 80). -/
def myTurn (s : State) (unit : Nat) (want : Strand → Bool) : Bool :=
  decide (nextServed 9 (lastServed s unit) (fun k => (allAgents s).any fun t =>
    t.hoop = s.strand.hoop && requester t = k && engineServes s t && want t) = some (requester s.strand))

/-- The engine has served the strand in focus of a state. -/
def serve (s : State) (unit : Nat) : Out → Out
  | .next s' => .next (setHoop s.strand.hoop { hoopOf s' s.strand.hoop with
      served := (hoopOf s' s.strand.hoop).served.setIfInBounds unit (requester s.strand) } s')
  | o => o

/-- telem of an engine-detected fault (R246). -/
def engineTelem (q : Queue) (followOn : Bool) (engine step : Nat) : BitVec 32 :=
  BitVec.ofNat 32 (2 ^ 31 + q.code * 2 ^ 28 + (if followOn then 2 ^ 27 else 0) + engine * 2 ^ 26 + step % 2 ^ 24)

/-- An older command of the queue is accepted and has not retired. -/
def olderBusy (st : Strand) (q : Queue) (e : CEntry) : Bool :=
  (cmdQueue st q).any fun o => o.seq < e.seq && o.accepted

/-- An older command of the queue has finished and waits to retire; younger ones wait behind it (R35). -/
def olderDone (st : Strand) (q : Queue) (e : CEntry) : Bool :=
  (cmdQueue st q).any fun o => o.seq < e.seq && o.done

/-- Changes the entry of a queue with a number. -/
def setEntry (q : Queue) (seq : Nat) (f : CEntry → CEntry) (st : Strand) : Strand :=
  setCmdQueue st q (listUpd (fun e => e.seq = seq) f (cmdQueue st q))

def modEntry (q : Queue) (seq : Nat) (f : CEntry → CEntry) : Act Unit := modStrand (setEntry q seq f)

/-- The work of an engine for an entry. A fault is reported with the step (R246), once the older commands of
the queue have retired; a watchpoint halts the strand; work that waits has done nothing. -/
def engineWork (q : Queue) (followOn : Bool) (engine : Nat) (e : CEntry) (work : Act Unit) (s : State) : Out :=
  match work s with
  | (.ok _, s') | (.error (.hold _), s') => .next s'
  | (.error (.trap t), s') =>
    if olderBusy s.strand q e then .next s else
      .next { s' with strand := { s'.strand with
        pending := s'.strand.pending ++ [{ trap := { t with telem := engineTelem q followOn engine e.step }
                                           queue := q, seq := e.seq, elem := e.step }] } }
  | (.error (.halt r), s') => .next { s' with strand := haltStrand r s'.strand }
  | (.error (.wait _), _) => .next s
  | (.error (.fault f), _) => .fault f
  | (.error (.refuse r), _) => .refused r

/-- A queue whose command has reported a fault has stopped (R246). -/
def queueStopped (st : Strand) (q : Queue) : Bool := st.pending.any fun f => f.queue = q

/-- The oldest entry of a queue that has been accepted and is not finished. -/
def runningEntry (st : Strand) (q : Queue) : Option CEntry :=
  (cmdQueue st q).find? fun e => e.accepted && !e.done

/-- A strand has been halted with its group (R462). -/
def groupHalted (s : State) (i : StrandId) : Bool :=
  (findStrand s i).any fun u => u.haltReason = .group || u.haltDue = some .group || u.haltWait = some .group

/-- The state before work that has stopped in another one: what stays of that work is its reports, the records that it
has queued and the entries of the debug windows that have fired, with the halts that they made (R447, R462). -/
def undone (s s' : State) : State :=
  updStrands (fun t => isStrand t && groupHalted s' t.id && !groupHalted s t.id) (haltRequest .group)
    { s with freeCtr := s'.freeCtr, mem := { s.mem with bar0 := s'.mem.bar0 }, hub := { s.hub with records := s'.hub.records } }

/-- A step that has no effect when it faults or a watchpoint stops it (R245, R464). -/
def allOrNone (m : Act Unit) : Act Unit := fun s =>
  match m s with
  | (.error (.trap t), s') => (.error (.trap t), undone s s')
  | (.error (.halt r), s') => (.error (.halt r), undone s s')
  | r => r

/-- One step of a command is done: the next, or the last, which finishes it. -/
def stepDone (q : Queue) (e : CEntry) (last : Bool) : Act Unit :=
  modEntry q e.seq fun x => { x with step := e.step + 1, done := last }

/-- A node command names LS only where its node has a valid affinity (R379). -/
def spaceAllowed (st : Strand) (space : Nat) : Bool :=
  match st.node with
  | some (_, _, affine) => affine || space ≠ 1
  | none => true

/-- The port of a command of an engine for the strand in focus: 3 matrix, 4 copy, 5 walker. -/
def enginePort (agent : Nat) : Act Port := do
  let st ← getStrand
  pure (strandPort st agent)

end Sys2Proof.Machine
end

