-- ==== Sys2Proof/Machine/Matrix.lean ====
section
/-! DEFINITION. The matrix engine and its bobbin (R237 to R260, R165 to R168). -/

namespace Sys2Proof.Machine

/-- The fields of `mcfg` (R63). -/
structure MCfg where
  a : Nat
  b : Nat
  int : Bool
  out : Nat
  rows : Nat
  kb : Nat
  accumulate : Bool
  sat : Bool
  sr : Bool
  deriving DecidableEq, Repr

def mcfgOf (w : Word) : MCfg :=
  let n := w.toNat
  { a := natBits n 3 0, b := natBits n 7 4, int := w.getLsbD 8, out := natBits n 12 9, rows := natBits n 21 13 + 1
    kb := natBits n 29 22 + 1, accumulate := w.getLsbD 32, sat := w.getLsbD 33, sr := w.getLsbD 34 }

/-- The combinations of types and accumulator (R168). -/
def comboOk (a b : Nat) (int : Bool) : Bool :=
  match a, b with
  | 0, 0 | 1, 1 | 2, 2 | 2, 3 | 3, 2 | 3, 3 | 4, 4 | 4, 2 => !int
  | 5, 5 => int
  | _, _ => false

/-- The output types (R63, R168). -/
def outOk (t : Nat) : Bool := t < 8 && t ≠ 4

/-- W of R238. -/
def matWidth (t : Nat) : Nat := if t ≤ 1 then 16 else if t = 4 then 4 else 8

/-- Bytes of n values of a type. -/
def matBytes (t n : Nat) : Nat := n * matWidth t / 8

def matFmt : Nat → Option Fmt
  | 0 => some .bf16
  | 1 => some .fp16
  | 2 => some .e4m3
  | 3 => some .e5m2
  | 4 => some .e2m1
  | _ => none

def matVal (t c : Nat) : Val :=
  match matFmt t with
  | some f => f.val c
  | none => Val.ofInt (signed 8 c)

/-- The 256 codes of an operand row (R238). -/
def rowCodes (t : Nat) (bs : List Byte) : List Nat :=
  (List.range 256).map fun n => natBits (leNat bs) (n * matWidth t + matWidth t - 1) (n * matWidth t)

/-- The checks of R241 on an M command: operand values (0 stands for one that is not known yet), types, and the grant
of the engine. -/
def matCheck (cmd engine : Nat) (mcfg : Word) (b : Word) (st : Strand) : Act Unit := do
  let c := mcfgOf mcfg
  let x := b.toNat
  if cmd = 2 then require (x < 2 ^ 41 && natBits x 31 25 = 0 && natBits x 40 32 ≤ 256 && x % 4 = 0) 6
  if cmd = 1 ∨ cmd = 2 ∨ cmd = 4 ∨ cmd = 5 then require (comboOk c.a c.b c.int) 5
  if cmd = 2 then require (c.b ≠ 4) 5
  if cmd = 6 then require (outOk c.out) 5
  let s ← getS
  match (hoopOf s st.hoop).grants[st.slot]? with
  | some g => if g.enabled && g.engines.getLsbD engine then pure () else raise causeAcc engine
  | none => raise causeAcc engine

/-- An M command leaves the front (R241). -/
def enterM (cmd : Nat) (r1 r2 : Option Reg) (e : BitVec 1) (seed : Strand → Bool) (s : State) : Out :=
  enterC .m { r1 := r1, r2 := r2, mcfg := cmd ≠ 3 && cmd ≠ 7, seed := seed, kv := false }
    (fun st _ b => matCheck cmd e.toNat st.csr.mcfg (b.getD 0) st) s

/-- MLD (R251). -/
def execMld (a : BitVec 5) (_t : BitVec 3) (e : BitVec 1) (s : State) : Out :=
  enterM 1 (some a) none e (fun _ => false) s

/-- MLDG (R251). -/
def execMldg (a b : BitVec 5) (_t : BitVec 3) (e : BitVec 1) (s : State) : Out :=
  enterM 2 (some a) (some b) e (fun _ => false) s

/-- MFLIP (R252). -/
def execMflip (_t : BitVec 3) (e : BitVec 1) (s : State) : Out := enterM 3 none none e (fun _ => false) s

/-- MMAC (R253). -/
def execMmac (a : BitVec 5) (_t : BitVec 3) (e : BitVec 1) (s : State) : Out :=
  enterM 4 (some a) none e (fun _ => false) s

/-- MGRP (R256). -/
def execMgrp (a b : BitVec 5) (_t : BitVec 3) (e : BitVec 1) (s : State) : Out :=
  enterM 5 (some a) (some b) e (fun _ => false) s

/-- MST (R255): it captures the seed when `mcfg` [34] is 1 (R241). -/
def execMst (a b : BitVec 5) (_t : BitVec 3) (e : BitVec 1) (s : State) : Out :=
  enterM 6 (some a) (some b) e (fun st => st.csr.mcfg.getLsbD 34) s

/-- MZERO (R254). -/
def execMzero (_t : BitVec 3) (e : BitVec 1) (s : State) : Out := enterM 7 none none e (fun _ => false) s

/-- MTILE (R257): it always captures the seed (R241). -/
def execMtile (a : BitVec 5) (_t : BitVec 3) (e : BitVec 1) (s : State) : Out :=
  enterM 8 (some a) none e (fun _ => true) s

/-! ### The engine's state -/

def engineAt (s : State) (engine : Nat) : MatEngine :=
  ((hoopOf s s.strand.hoop).engines[engine]?).getD MatEngine.reset

def modEngine (engine : Nat) (f : MatEngine → MatEngine) : Act Unit := do
  let st ← getStrand
  modHoop st.hoop fun hp =>
    { hp with engines := hp.engines.setIfInBounds engine (f ((hp.engines[engine]?).getD MatEngine.reset)) }

/-! ### Scales of operand rows (R247 to R249) -/

/-- The offset of a physical address in the recorded pieces of an entry. -/
def pieceOffset (pa : Nat) : List (Nat × Nat) → Option Nat
  | [] => none
  | (q, n) :: ps => if q ≤ pa ∧ pa < q + n then some (pa - q) else (pieceOffset pa ps).map (n + ·)

/-- What covers an operand row: the entry's number and contents, and the place of the row's first value. -/
structure Cover where
  num : Nat
  bind : Binding
  rows : Nat
  cols : Nat
  r : Nat
  c : Nat
  deriving DecidableEq, Repr

/-- The lowest-numbered valid entry of the operand's format whose recorded pages hold an address (R247). -/
def coverOf (t pa : Nat) : Nat → List TileEntry → Option Cover
  | _, [] => none
  | k, e :: es =>
    let b := bindingOfTile e.bits
    match pieceOffset pa e.pages with
    | some o =>
      if b.valid ∧ b.dcode + 2 = t then
        let cols := natBits e.bits.toNat 96 81
        some { num := k, bind := b, rows := natBits e.bits.toNat 80 65, cols := cols
               r := o / matBytes t cols, c := o % matBytes t cols * 8 / matWidth t }
      else coverOf t pa (k + 1) es
    | none => coverOf t pa (k + 1) es

/-- The types that may be scaled (R247). -/
def scaledType (t : Nat) : Bool := t = 2 || t = 3 || t = 4

/-- The entry that an operand row uses. A KF4 row must be covered. -/
def rowCover (tiles : List TileEntry) (t pa : Nat) : Act (Option Cover) :=
  if !scaledType t then pure none
  else match coverOf t pa 0 tiles with
    | some c => pure (some c)
    | none => if t = 4 then raise causeStaleq (staleTval true 31 1) else pure none

/-- The conditions of R248 on an entry: `first` marks the first row of a weight tile. -/
def coverOk (t : Nat) (bSide first : Bool) (len : Nat) (c : Cover) : Bool :=
  let B := blockSize c.bind.bcode
  c.cols = len && c.c = 0 &&
  (if bSide then c.rows % B = 0 && (!first || c.r % (if t = 4 then 64 else B) = 0) else c.cols % B = 0)

/-- The covers of the operand rows of one side, given by the physical addresses of their first bytes; for
weights every 256th row begins a tile. -/
def sideCovers (tiles : List TileEntry) (t : Nat) (bSide : Bool) (len : Nat) (pas : List Nat) : Act (List Nat) := do
  let cs ← pas.zipIdx.mapM fun (pa, i) => do
    match ← rowCover tiles t pa with
    | none => pure none
    | some c => do
      require (coverOk t bSide (i % 256 = 0) len c) 5
      pure (some c.num)
  pure (cs.filterMap id)

/-- The binding checks of R221 on the entries that a command uses, by entry number (R249). -/
def checkEntriesUsed (tiles : List TileEntry) (used : List Nat) : Act Unit :=
  (tiles.zipIdx.filter fun (_, k) => used.contains k).forM fun (e, k) =>
    let b := bindingOfTile e.bits
    consume true k b (natBits e.bits.toNat 80 65 * natBits e.bits.toNat 96 81 / blockSize b.bcode)

def unscaled : RowScale := { mu := false, vals := [], band := none }

/-- A captured scale register (R249). -/
def capturedQ (p : Progress) (n : Nat) : QReg := (p.qs[n]?).getD QReg.empty

/-- The scales of 256 values of a row from column `off` on (R248). -/
def rowScale (p : Progress) (t : Nat) (bSide : Bool) (pa off : Nat) : RowScale :=
  if !scaledType t then unscaled
  else match coverOf t pa 0 p.tiles with
    | none => unscaled
    | some c =>
      let B := blockSize c.bind.bcode
      let q := capturedQ p c.bind.q
      let index (n : Nat) : Nat := if bSide then c.r / B * c.cols + (c.c + n) else c.r * (c.cols / B) + (c.c + n) / B
      { mu := t = 4 || B < 32
        vals := (List.range 256).map fun n => { fmt := q.fmt, bits := BitVec.ofNat 32 (q.code (index (off + n))) }
        band := if t = 4 ∧ q.fmt = 0 then some { fmt := 1, bits := BitVec.ofNat 32 (q.band (c.r / 64)) } else none }

def ScaleVal.val (v : ScaleVal) : Val := (scaleFmt v.fmt.toNat).val v.bits.toNat

def oneVal : Val := .fin false 1 1

/-- μ of a value of a row (R165). -/
def RowScale.muAt (r : RowScale) (n : Nat) : Val := if r.mu then ((r.vals[n]?).map ScaleVal.val).getD oneVal else oneVal

/-- σ of a chunk at a value of a row (R165). -/
def RowScale.sigmaAt (r : RowScale) (n : Nat) : Val :=
  Val.mul (if r.mu then oneVal else ((r.vals[n]?).map ScaleVal.val).getD oneVal) ((r.band.map ScaleVal.val).getD oneVal)

/-! ### The sum of an output (R165, R166) -/

/-- The exact sum of some terms; an exact zero is −0 only if every term is (R166). -/
def termSum : List Val → Val
  | [] => Val.zero
  | v :: vs => vs.foldl (Val.add false) v

/-- One activation row: its codes and its scales. -/
structure ActRow where
  codes : List Nat
  scale : RowScale

/-- P of chunk j for column n (R165). -/
def chunkProduct (ta tb : Nat) (row : ActRow) (pl : Plane) (n j : Nat) : Nat :=
  let bScale (k : Nat) : RowScale := (pl.scales[k]?).getD unscaled
  let terms := (List.range 32).map fun i =>
    let k := 32 * j + i
    Val.mul (Val.mul (matVal ta (row.codes.getD k 0)) (row.scale.muAt k))
      (Val.mul (matVal tb (smRead 0 pl.w (k * 256 + n)).toNat) ((bScale k).muAt n))
  (rnd .fp32 .rne false (Val.mul (Val.mul (termSum terms) (row.scale.sigmaAt (32 * j)))
    ((bScale (32 * j)).sigmaAt n))).1

/-- The new accumulator of column n: the eight chunks in order, from +0 or from what it holds. `ow` is
overwrite mode at the first chunk. -/
def accumulate (ta tb : Nat) (ow : Bool) (row : ActRow) (pl : Plane) (n : Nat) (old : BitVec 32) : BitVec 32 :=
  if ta = 5 then
    let terms := (List.range 256).map fun k =>
      signed 8 (row.codes.getD k 0) * signed 8 (smRead 0 pl.w (k * 256 + n)).toNat
    BitVec.ofInt 32 ((if ow then 0 else (old.toNat : Int)) + terms.sum)
  else
    (List.range 8).foldl (init := old) fun acc j =>
      let p := chunkProduct ta tb row pl n j
      if ow ∧ j = 0 then BitVec.ofNat 32 p
      else BitVec.ofNat 32 (rnd .fp32 .rne false (Val.add false (Fmt.fp32.val acc.toNat) (Fmt.fp32.val p))).1

/-- Streams activation rows into accumulator rows from `base` on (R253). -/
def streamRows (ta tb : Nat) (ow : Bool) (pl : Plane) (base : Nat) (rows : List ActRow)
    (acc : SMap (BitVec 32)) : SMap (BitVec 32) :=
  rows.zipIdx.foldl (init := acc) fun acc (row, m) =>
    smWriteList 0 acc ((base + m) * 256) ((List.range 256).map fun n =>
      accumulate ta tb ow row pl n (smRead 0 acc ((base + m) * 256 + n)))

/-! ### Reading operands -/

/-- An LS operand row (R239), at an address modulo 2^64 (R124). -/
def lsRow (p : Port) (t address : Nat) : Act (List Nat) := do
  let addr := wrap 64 address
  checkAlign addr 128
  if 2 ^ 25 ≤ addr then raise causeAcc addr
  let bs ← spaceRead p 1 addr (matBytes t 256)
  pure (rowCodes t bs)

/-- The physical address of an LS offset of a hoop (R247). -/
def lsPa (hoop addr : Nat) : Nat := 2 ^ 41 + hoop * 2 ^ 25 + wrap 64 addr

/-- A plane from its 256 rows. -/
def planeOf (t : Nat) (rows : List (List Nat)) (scales : List RowScale) : Plane where
  typ := some (BitVec.ofNat 4 t)
  w := rows.zipIdx.foldl (init := []) fun w (r, k) => smWriteList 0 w (k * 256) (r.map (BitVec.ofNat 16))
  scales := if scales.all (· = unscaled) then [] else scales

/-- The 256 weight rows at an LS address with their scales, as `mld` loads them (R251). -/
def loadTile (p : Port) (prog : Progress) (hoop t addr : Nat) : Act Plane := do
  let rows ← (List.range 256).mapM fun k => lsRow p t (addr + k * matBytes t 256)
  pure (planeOf t rows ((List.range 256).map fun k => rowScale prog t true (lsPa hoop (addr + k * matBytes t 256)) 0))

/-- Activation rows at an LS address (R253). -/
def loadActs (p : Port) (prog : Progress) (hoop t addr n : Nat) : Act (List ActRow) :=
  (List.range n).mapM fun m => do
    let row := addr + m * matBytes t 256
    let codes ← lsRow p t row
    pure { codes := codes, scale := rowScale prog t false (lsPa hoop row) 0 }

/-! ### Output conversion (R167) -/

/-- Bytes of an output type. -/
def outBytes (t : Nat) : Nat := if t ≤ 1 then 2 else if t ≤ 5 then 1 else 4

/-- The conversion of an accumulator; to an integer it rounds RNE, for SR too (R158). -/
def convOut (out : Nat) (int : Bool) (m : Mode) (sat : Bool) (x : BitVec 32) : Nat :=
  if int then
    match out with
    | 7 => x.toNat
    | 5 => if sat then wrap 8 (max (-128) (min 127 x.toInt)) else x.toNat % 256
    | 6 => (rnd .fp32 m sat (Val.ofInt x.toInt)).1
    | t => (rnd ((matFmt t).getD .fp32) m sat (Val.ofInt x.toInt)).1
  else
    let v := Fmt.fp32.val x.toNat
    match out with
    | 7 => (toInt 32 true .rne v).1
    | 5 => (toInt 8 true .rne v).1
    | 6 => (rnd .fp32 m sat v).1
    | t => (rnd ((matFmt t).getD .fp32) m sat v).1

/-- What an output conversion uses. -/
structure OutCfg where
  out : Nat
  int : Bool
  sat : Bool
  sr : Bool
  seed : Word

/-- Stores a tile of accumulator rows in ascending order (R255): writes performed before a fault stay. -/
def storeTile (p : Port) (o : OutCfg) (acc : SMap (BitVec 32)) (addr stride rows : Nat) : Act Unit :=
  (List.range rows).forM fun m => (List.range 256).forM fun n =>
    let i := m * 256 + n
    let mode := if o.sr then Mode.sr (srbits o.seed i) else Mode.rne
    vsWrite p ((addr + m * stride + n * outBytes o.out) % 2 ^ 64)
      (leBytes (outBytes o.out) (convOut o.out o.int mode o.sat (smRead 0 acc i))) false

/-! ### mgrp (R256) -/

/-- The groups with rows: the number of rows, the sum of the rows before, and the weight tile. -/
def groupsFrom (bs : List Byte) (base : Nat) : Nat → Nat → List (Nat × Nat × Nat)
  | _, 0 => []
  | g, n + 1 =>
    let rows := field bs (0x10 + 16 * g) 4
    if rows = 0 then groupsFrom bs base (g + 1) n
    else (rows, base, field bs (0x18 + 16 * g) 8) :: groupsFrom bs (base + rows) (g + 1) n

def groupsOf (bs : List Byte) : List (Nat × Nat × Nat) := groupsFrom bs 0 0 (field bs 0 4)

/-- Reads and checks the group table at acceptance. -/
def readGroups (p : Port) (addr rowsMax : Nat) : Act (List Byte) := do
  let head ← spaceRead p 1 addr 16
  let G := field head 0 4
  if G < 1 ∨ 64 < G then raise causeGrpb (1 * 2 ^ 32)
  let body ← spaceRead p 1 (addr + 16) (16 * G)
  let bs := head ++ body
  let sum := ((List.range G).map fun g => field bs (0x10 + 16 * g) 4).sum
  let said := min sum (2 ^ 32 - 1)
  let clean := allZero bs 4 12 && (List.range G).all fun g => allZero bs (0x14 + 16 * g) 4
  if !clean then raise causeGrpb (3 * 2 ^ 32 + said)
  if 512 < sum ∨ rowsMax < sum then raise causeGrpb (2 * 2 ^ 32 + said)
  pure bs

/-! ### mtile (R257, R258) -/

/-- A descriptor of `mtile`, with what it takes from `mcfg`. -/
structure TileDesc where
  a : Nat
  b : Nat
  c : Nat
  stride : Nat
  rows : Nat
  nb : Nat
  kb : Nat
  cfg : MCfg

def tileDesc (bs : List Byte) (mcfg : Word) : TileDesc :=
  let t := field bs 0x28 8
  let m := mcfgOf mcfg
  let use : Bool := natBits t 15 15 = 1
  { a := field bs 0 8, b := field bs 8 8, c := field bs 0x10 8, stride := field bs 0x18 8
    rows := if use then m.rows else field bs 0x20 4
    nb := field bs 0x24 2
    kb := if use then m.kb else field bs 0x26 2
    cfg := if use then m else
      { m with a := natBits t 3 0, b := natBits t 7 4, int := natBits t 8 8 = 1, out := natBits t 12 9
               sat := natBits t 13 13 = 1, sr := natBits t 14 14 = 1 } }

/-- Bytes from one row of A, or of B, to the next. -/
def TileDesc.strideA (d : TileDesc) : Nat := matBytes d.cfg.a (d.kb * 256)
def TileDesc.strideB (d : TileDesc) : Nat := matBytes d.cfg.b (d.nb * 256)
/-- MT of R258, and the steps of one column of tiles. -/
def TileDesc.mt (d : TileDesc) : Nat := ceilDiv d.rows 512
def TileDesc.steps (d : TileDesc) : Nat := d.nb * d.mt * (d.kb + 1)

/-- The limits of R257 on fields that need no memory. -/
def tileFieldsOk (bs : List Byte) (d : TileDesc) : Bool :=
  let t := field bs 0x28 8
  let use : Bool := natBits t 15 15 = 1
  t < 2 ^ 16 && allZero bs 0x30 16 && d.a % 128 = 0 && d.b % 128 = 0 &&
  1 ≤ d.nb && d.nb ≤ 256 &&
  (if use then t = 2 ^ 15 && field bs 0x20 4 = 0 && field bs 0x26 2 = 0
    else 1 ≤ d.rows && d.rows ≤ 65536 && 1 ≤ d.kb && d.kb ≤ 256)

/-- Every page of an operand maps the SRAM window (R257). -/
def pagesInSram (p : Port) (va n : Nat) : Act Unit :=
  (pagePieces va n).forM fun (a, _) => do
    let pl ← translate p a .load
    match regionOf pl.pa with
    | .sram _ => pure ()
    | _ => ill 6

/-- The descriptor of `mtile` is read and checked at acceptance (R257). -/
def readTileDesc (p : Port) (addr : Nat) (mcfg : Word) : Act (List Byte) := do
  checkAlign addr 64
  let bs ← vsReadBlock p addr 64
  let d := tileDesc bs mcfg
  require (tileFieldsOk bs d) 6
  require (comboOk d.cfg.a d.cfg.b d.cfg.int && outOk d.cfg.out) 5
  require (d.c % outBytes d.cfg.out = 0 && d.stride % outBytes d.cfg.out = 0) 6
  pagesInSram p d.a (d.rows * d.strideA)
  pagesInSram p d.b (d.kb * 256 * d.strideB)
  pure bs

/-- The physical address to which a row's first byte is mapped. -/
def rowPa (p : Port) (va : Nat) : Act Nat := do
  let pl ← translate p va .load
  pure pl.pa

/-! ### Acceptance (R242, R249) -/

/-- The places in a command's values at which `mtile` keeps the physical addresses of its rows of A and of B. -/
def rowsOfA : Nat := 2 ^ 21
def rowsOfB : Nat := 2 ^ 22

/-- The scales that a command captures, and their checks (R249); the physical addresses of the scaled rows of A and of
B of an `mtile`, which bind them for good. -/
def captureScales (e : CEntry) (p : Port) : Act (List Nat × List Nat) := do
  let st ← getStrand
  let c := mcfgOf e.mcfg
  let tiles := st.tiles.toList
  let rows (t addr n : Nat) : List Nat := (List.range n).map fun k => lsPa st.hoop (addr + k * matBytes t 256)
  match cmdOf e.word with
  | 1 => do
    checkAlign e.a.toNat 128
    checkEntriesUsed tiles (← sideCovers tiles c.b true 256 (rows c.b e.a.toNat 256))
    pure ([], [])
  | 4 => do
    checkAlign e.a.toNat 128
    checkEntriesUsed tiles (← sideCovers tiles c.a false 256 (rows c.a e.a.toNat c.rows))
    pure ([], [])
  | 5 => do
    let gs := groupsOf e.prog.desc
    if gs ≠ [] then checkAlign e.b.toNat 128
    let ua ← sideCovers tiles c.a false 256 (rows c.a e.b.toNat (gs.map (·.1)).sum)
    let ub ← gs.mapM fun (_, _, w) => do
      checkAlign w 128
      sideCovers tiles c.b true 256 (rows c.b w 256)
    checkEntriesUsed tiles (ua ++ ub.flatten)
    pure ([], [])
  | 8 => do
    let d := tileDesc e.prog.desc e.mcfg
    let pa ← (if scaledType d.cfg.a then List.range d.rows else []).mapM fun m => rowPa p (wrap 64 (d.a + m * d.strideA))
    let pb ← (if scaledType d.cfg.b then List.range (d.kb * 256) else []).mapM fun k =>
      rowPa p (wrap 64 (d.b + k * d.strideB))
    let ua ← sideCovers tiles d.cfg.a false (d.kb * 256) pa
    let ub ← sideCovers tiles d.cfg.b true (d.nb * 256) pb
    checkEntriesUsed tiles (ua ++ ub)
    pure (pa, pb)
  | _ => pure ([], [])

/-- The engine of an M command word (R78). -/
def engineOf (w : Word32) : Nat := if w.getLsbD 7 then 1 else 0

/-- Acceptance of an M command: tables and descriptors are read, scales captured and checked. The entry as
it then stands. -/
def matAccept (e : CEntry) : Act CEntry := do
  let p ← enginePort 3
  let desc ← match cmdOf e.word with
    | 5 => readGroups p e.a.toNat (mcfgOf e.mcfg).rows
    | 8 => readTileDesc p e.a.toNat e.mcfg
    | _ => pure []
  let e1 := { e with prog := { e.prog with desc := desc } }
  let (pa, pb) ← captureScales e1 p
  let st ← getStrand
  modEngine (engineOf e.word) fun m => { m with cmd := e.word, step := e.step, asid := some st.asid }
  pure { e1 with accepted := true, prog := { e1.prog with
    tiles := st.tiles.toList, qs := st.q.toList
    vals := smWriteList 0 (smWriteList 0 e1.prog.vals rowsOfA (pa.map (BitVec.ofNat 64))) rowsOfB
      (pb.map (BitVec.ofNat 64)) } }

/-! ### Steps (R243) -/

/-- Whether a step is the last of its command (R243). -/
def lastStep (e : CEntry) : Bool :=
  match cmdOf e.word with
  | 5 => (groupsOf e.prog.desc).length ≤ e.step + 1
  | 8 => (tileDesc e.prog.desc e.mcfg).steps ≤ e.step + 1
  | _ => true

/-- `mldg`: the index list, then the gathered rows (R251). -/
def gatherTile (p : Port) (t addr x : Nat) : Act Plane := do
  let n := natBits x 40 32
  let list ← if n = 0 then pure [] else spaceRead p 1 (natBits x 24 0) (4 * n)
  let rows ← (List.range n).mapM fun k => lsRow p t (addr + field list (4 * k) 4 * matBytes t 256)
  pure (planeOf t rows [])

/-- A step of `mgrp`: one group with rows (R256). The shadow plane is then +0 and has no type of its own, as if it had
not been loaded (R253; DESIGN CHOICE, log 99). An address of the group's tile outside LS is found in its own step, after
the groups before it, and a misaligned one at acceptance (DESIGN CHOICE, log 100). -/
def groupStep (e : CEntry) (p : Port) (eng : Nat) : Act Unit := do
  let st ← getStrand
  let c := mcfgOf e.mcfg
  match (groupsOf e.prog.desc)[e.step]? with
  | none => pure ()
  | some (n, base, w) => do
    let pl ← loadTile p e.prog st.hoop c.b w
    let acts ← loadActs p e.prog st.hoop c.a (e.b.toNat + base * matBytes c.a 256) n
    modEngine eng fun m => { m with
      active := pl, shadow := Plane.zero, acc := streamRows c.a c.b (!c.accumulate) pl base acts m.acc }

/-- The block of B of a compute step, given by the tile and the step in it (R258). -/
def tileBlock (e : CEntry) (p : Port) (d : TileDesc) (tile kb : Nat) : Act Plane := do
  let nb := tile / d.mt
  let c := d.cfg
  let rows ← (List.range 256).mapM fun k => do
    let bs ← vsReadBlock p (wrap 64 (d.b + (256 * kb + k) * d.strideB + matBytes c.b (256 * nb))) (matBytes c.b 256)
    pure (rowCodes c.b bs)
  pure (planeOf c.b rows ((List.range 256).map fun k =>
    rowScale e.prog c.b true (smRead 0 e.prog.vals (rowsOfB + (256 * kb + k))).toNat (256 * nb)))

/-- The next compute step after one, of a tile (R258). -/
def nextCompute (d : TileDesc) (tile kb : Nat) : Option (Nat × Nat) :=
  if kb + 1 < d.kb then some (tile, kb + 1)
  else if tile + 1 < d.nb * d.mt then some (tile + 1, 0)
  else none

/-- A step of `mtile`: a compute step or a store step (R258). A compute step takes its block of B from the shadow
plane, where the step before it has loaded it, and loads the next one there; a fault of that load is found in the step
that makes it, and after the last compute step, which loads none, the shadow plane holds the block before (DESIGN CHOICE,
log 81). -/
def tileStep (e : CEntry) (p : Port) (eng : Nat) : Act Unit := do
  let d := tileDesc e.prog.desc e.mcfg
  let c := d.cfg
  let kb := e.step % (d.kb + 1)
  let tile := e.step / (d.kb + 1)
  let nb := tile / d.mt
  let mt := tile % d.mt
  let rows := min 512 (d.rows - 512 * mt)
  if kb < d.kb then
    let s ← getS
    let pl ← if e.step = 0 then tileBlock e p d tile kb else pure (engineAt s eng).shadow
    let next ← match nextCompute d tile kb with
      | some (t, k) => tileBlock e p d t k
      | none => pure (engineAt s eng).active
    let acts ← (List.range rows).mapM fun m => do
      let row := d.a + (512 * mt + m) * d.strideA
      let bs ← vsReadBlock p (wrap 64 (row + matBytes c.a (256 * kb))) (matBytes c.a 256)
      let pa := (smRead 0 e.prog.vals (rowsOfA + (512 * mt + m))).toNat
      pure { codes := rowCodes c.a bs, scale := rowScale e.prog c.a false pa (256 * kb) : ActRow }
    modEngine eng fun m => { m with active := pl, shadow := next, acc := streamRows c.a c.b (kb = 0) pl 0 acts m.acc }
  else do
    let s ← getS
    (if lastStep e then id else allOrNone) <| storeTile p
      { out := c.out, int := c.int, sat := c.sat, sr := c.sr, seed := e.aux } (engineAt s eng).acc
      (d.c + 512 * mt * d.stride + 256 * nb * outBytes c.out) d.stride rows
    if lastStep e then
      modEngine eng fun m => { m with active := Plane.zero, shadow := Plane.zero, acc := [] }

/-- One step of an accepted M command (R251 to R258). -/
def matStep (e : CEntry) : Act Unit := do
  let p ← enginePort 3
  let eng := engineOf e.word
  let st ← getStrand
  let s ← getS
  let c := mcfgOf e.mcfg
  match cmdOf e.word with
  | 1 => do
    let pl ← loadTile p e.prog st.hoop c.b e.a.toNat
    modEngine eng fun m => { m with shadow := pl }
  | 2 => do
    let pl ← gatherTile p c.b e.a.toNat e.b.toNat
    modEngine eng fun m => { m with shadow := pl }
  | 3 => modEngine eng fun m => { m with active := m.shadow, shadow := m.active }
  | 4 => do
    let pl := (engineAt s eng).active
    let tb := (pl.typ.map BitVec.toNat).getD c.b
    require (comboOk c.a tb c.int) 5
    let acts ← loadActs p e.prog st.hoop c.a e.a.toNat c.rows
    modEngine eng fun m => { m with acc := streamRows c.a tb (!c.accumulate) pl 0 acts m.acc }
  | 5 => groupStep e p eng
  | 6 => do
    let w := outBytes c.out
    checkAlign e.a.toNat w
    if e.b.toNat % w ≠ 0 then raise causeAlign (e.a + e.b).toNat
    storeTile p { out := c.out, int := c.int, sat := c.sat, sr := c.sr, seed := e.aux } (engineAt s eng).acc
      e.a.toNat e.b.toNat c.rows
  | 7 => modEngine eng fun m => { m with acc := [] }
  | _ => tileStep e p eng
  modEngine eng fun m => { m with cmd := e.word, step := e.step + 1, asid := some st.asid }
  modS (emitStrand st 7 (eng + cmdOf e.word * 2 + (e.step + 1) % 2 ^ 24 * 2 ^ 8))

/-- M-queue order in memory (R242): an entry waits for older `mst`, and an `mst` also for older `mtile`. -/
def memoryOrder (st : Strand) (e : CEntry) : Bool :=
  !(st.mq.any fun o => o.seq < e.seq && !o.done && !isMarker o.word &&
    (cmdOf o.word = 6 || (cmdOf e.word = 6 && cmdOf o.word = 8)))

/-- A matrix command may be accepted: the engine has finished the older ones of the strand, whose tables
and descriptors are read in memory order (R242). -/
def matReady (st : Strand) (e : CEntry) : Bool :=
  !(st.mq.any fun o => o.seq < e.seq && o.accepted && !o.done && engineOf o.word = engineOf e.word) &&
  memoryOrder st e

/-- The follow-on of a copy as an entry of its own (R259): its word and operands from the descriptor. -/
def followEntry (e : CEntry) : CEntry :=
  { e with word := BitVec.ofNat 32 (field e.prog.desc 0x28 4), a := BitVec.ofNat 64 (field e.prog.desc 0x2C 6)
           b := BitVec.ofNat 64 (field e.prog.desc 0x32 8)
           prog := { e.prog with desc := e.prog.list, list := [] } }

/-- A copy whose every byte has been moved carries a follow-on (R259): `pos` then holds 0, and 1 once the engine has
accepted it. One that a stop has sent back shows it by its copy-complete flag alone, until its descriptor is read again. -/
def presents (e : CEntry) (engine : Nat) : Bool :=
  0x20 ≤ cmdOf e.word && cmdOf e.word ≤ 0x22 && !e.done &&
  if e.accepted then
    e.prog.pos ≠ [] && natBits (field e.prog.desc 0x24 4) 4 4 = 1 && engineOf (followEntry e).word = engine
  else e.copied

/-- The copy of a strand that presents a follow-on to an engine, from its last byte on (R259). -/
def presented (st : Strand) (engine : Nat) : Option CEntry := st.cq.find? fun e => presents e engine

/-- The copy of a strand whose follow-on an engine has accepted. -/
def followOn (st : Strand) (engine : Nat) : Option CEntry :=
  (presented st engine).filter fun e => e.accepted && e.copied && e.prog.pos = [1]

/-- The copy of a strand whose follow-on an engine can accept: what the copy does at its end is done, and the engine has
finished what it has accepted (R259). -/
def followReady (st : Strand) (engine : Nat) : Option CEntry :=
  if queueStopped st .c || st.mq.any (fun o => o.accepted && !o.done && engineOf o.word = engine) then none
  else (presented st engine).filter fun e => e.accepted && e.copied && e.prog.pos = [0]

/-- The command of a strand of which an engine would take a step: its accepted one, else a follow-on. -/
def matWork (engine : Nat) (st : Strand) : Option (Queue × CEntry) :=
  match st.mq.find? fun e => e.accepted && !e.done && engineOf e.word = engine with
  | some e => if queueStopped st .m || !memoryOrder st e || olderDone st .m e then none else some (.m, e)
  | none => if queueStopped st .c then none else (followOn st engine).map fun e => (.c, e)

/-- Older accesses of the vector side still have to be performed, for which `nmq` and the walker's commands wait (R320,
R363). -/
def olderVMem (st : Strand) (e : CEntry) : Bool := st.vq.any fun v => v.seq < e.seq && !v.done && isVMem v.word

/-- The unit of a queue is ready for its next command: an engine that has finished the older ones and is presented no
follow-on (R242, R259), with none that waits to retire (R35); the copy engine and the units of N one command at a
time, and a release of N once the older accesses are performed. -/
def unitReady (st : Strand) (q : Queue) (e : CEntry) : Bool :=
  match q with
  | .m => matReady st e && !olderDone st .m e && (presented st (engineOf e.word)).isNone
  | .n => !olderBusy st .n e && !(cmdOf e.word ≠ 0x32 && olderVMem st e)
  | q => !olderBusy st q e

/-- The command that heads a queue and is not accepted, with the queue of its pop, if its unit may take it now. For a
Halted strand no command is newly accepted: run-out completes those that are (R461). -/
def acceptable (q : Queue) (st : Strand) : Option (CEntry × Option Queue) :=
  match (cmdQueue st q).find? fun e => !e.accepted with
  | none => none
  | some e =>
    let pop := if e.popped then none else
      match tkMeaning q (tkOf e.word) with
      | some (false, src) => some src
      | _ => none
    let blocked : Bool := match pop with
      | some src => decide (tokens st src q = 0)
      | none => false
    if isMarker e.word || blocked || st.state = .halted || queueStopped st q || !unitReady st q e then none
    else some (e, pop)

/-- A strand wants a matrix engine (R376, R387): for a step, for its head command or for a follow-on. -/
def matWants (engine : Nat) (st : Strand) : Bool :=
  (matWork engine st).isSome || (acceptable .m st).any (fun x => engineOf x.1.word = engine) ||
  (followReady st engine).isSome

/-- MATRIX_STEP: the engine takes one step for the strand in focus when it is its turn (R240, R243, R258, R387): of its
accepted command, else of a follow-on. -/
def execMatrixStep (engine : BitVec 1) (s : State) : Out :=
  let n := engine.toNat
  if !engineLive s || !myTurn s n (matWants n) then .next s else
  match matWork n s.strand with
  | none => .next s
  | some (.c, e) =>
    serve s n (engineWork .c true n e (do
      matStep (followEntry e)
      stepDone .c e (lastStep (followEntry e))) s)
  | some (_, e) =>
    serve s n (engineWork .m false n e (do
      matStep e
      stepDone .m e (lastStep e)) s)

end Sys2Proof.Machine
end

