-- ==== Sys2Proof/Machine/Copy.lean ====
section
/-! DEFINITION. The copy engine (R298 to R307) and the follow-on of a copy (R259). -/

namespace Sys2Proof.Machine

/-- A copy command leaves the front (R298): it captures `mcfg` and the seed, and ALIGN is found here. -/
def enterCopy (a : Reg) (s : State) : Out :=
  enterC .c { r1 := some a, r2 := none, mcfg := true, seed := fun _ => true, kv := false }
    (fun _ x _ => checkAlign (x.getD 0).toNat 64) s

/-- CPY (R298, R301). -/
def execCpy (a : BitVec 5) (_t : BitVec 3) (s : State) : Out := enterCopy a s

/-- CPYX (R298, R302). -/
def execCpyx (a : BitVec 5) (_t : BitVec 3) (s : State) : Out := enterCopy a s

/-- CPYF (R298, R303). -/
def execCpyf (a : BitVec 5) (_t : BitVec 3) (s : State) : Out := enterCopy a s

/-! ### The descriptor -/

/-- A copy descriptor (R299, R300). -/
structure CopyDesc where
  src : Nat
  dst : Nat
  x : Nat
  y : Nat
  z : Nat
  sy : Int
  dy : Int
  sz : Int
  dz : Int
  ctl : Nat
  setAddr : Nat
  deriving DecidableEq, Repr

def copyDesc (bs : List Byte) : CopyDesc :=
  { src := field bs 0 6, dst := field bs 6 6, x := field bs 0x0C 4, y := field bs 0x10 2, z := field bs 0x12 2
    sy := signed 32 (field bs 0x14 4), dy := signed 32 (field bs 0x18 4), sz := signed 32 (field bs 0x1C 4)
    dz := signed 32 (field bs 0x20 4), ctl := field bs 0x24 4, setAddr := field bs 0x3A 6 }

def CopyDesc.srcSpace (d : CopyDesc) : Nat := natBits d.ctl 1 0
def CopyDesc.dstSpace (d : CopyDesc) : Nat := natBits d.ctl 3 2
def CopyDesc.follows (d : CopyDesc) : Bool := natBits d.ctl 4 4 = 1
def CopyDesc.publishMode (d : CopyDesc) : Nat := natBits d.ctl 6 5

/-- The limits and reserved fields of R299 and R300 for a command 0x20 to 0x22. -/
def copyFieldsOk (cmd : Nat) (bs : List Byte) (d : CopyDesc) : Bool :=
  d.ctl < 2 ^ 7 && d.publishMode ≠ 3 && d.srcSpace ≠ 3 && d.dstSpace ≠ 3 &&
  1 ≤ d.y && 1 ≤ d.z && (cmd ≠ 0x21 || (d.x = 0 && d.y ≤ 4096 && d.z = 1)) &&
  (cmd = 0x20 || (d.sy = 0 && d.sz = 0)) &&
  d.setAddr % 64 = 0 && (d.publishMode ≠ 0 || d.setAddr = 0) &&
  (d.follows || allZero bs 0x28 18)

/-- A row of a copy: source address, destination address and bytes. -/
abbrev CopyRow := Nat × Nat × Nat

/-- An address moved by signed strides, modulo 2^64. -/
def moved (base : Nat) (by_ : Int) : Nat := wrap 64 (base + by_)

/-- The rows of `cpy` and `cpyf` (R301). -/
def copyRows (d : CopyDesc) : List CopyRow :=
  ((List.range d.z).map fun (z : Nat) => (List.range d.y).map fun (y : Nat) =>
    (moved d.src (z * d.sz + y * d.sy), moved d.dst (z * d.dz + y * d.dy), d.x)).flatten

/-- The rows of `cpyx` (R302): its extents, one after another at the destination. -/
def extentRows (list : List Byte) (dst : Nat) (e : Nat) : Nat → List CopyRow
  | 0 => []
  | n + 1 =>
    let len := field list (16 * e + 8) 4
    (field list (16 * e) 8, dst, len) :: extentRows list (dst + len) (e + 1) n

/-- The chunks of a row (R301): it is cut at every 4 KiB boundary of the destination. -/
def rowChunks (r : CopyRow) : List CopyRow :=
  (touched 4096 r.2.1 r.2.2).map fun q =>
    let lo := max r.2.1 (q * 4096)
    (r.1 + (lo - r.2.1), lo, min (r.2.1 + r.2.2) ((q + 1) * 4096) - lo)

def copyChunks (cmd : Nat) (d : CopyDesc) (list : List Byte) : List CopyRow :=
  ((if cmd = 0x21 then extentRows list d.dst 0 d.y else copyRows d).map rowChunks).flatten

/-- More than 2^24 chunks (R300); rows that hold no byte make none. -/
def tooManyChunks (cmd : Nat) (d : CopyDesc) (list : List Byte) : Bool :=
  if cmd ≠ 0x21 ∧ d.x = 0 then false
  else if cmd ≠ 0x21 ∧ 2 ^ 24 < d.y * d.z then true
  else decide (2 ^ 24 < (copyChunks cmd d list).length)

/-- The list of `cpyx` has valid entries (R302). -/
def extentsOk (list : List Byte) (n : Nat) : Bool :=
  (List.range n).all fun e => allZero list (16 * e + 6) 2 && allZero list (16 * e + 12) 4

/-- The word of a follow-on is an M command without tk and register fields (R259). -/
def followWordOk (w : Word32) : Bool :=
  let f := Fields.ofWord w
  f.op = 0b1011011#7 && 1 ≤ cmdOf w && cmdOf w ≤ 8 && f.f3 = 0 && f.r1 = 0 && f.r2 = 0 && w.extractLsb' 8 4 = 0

/-- The offsets of the poisoned bytes of a checked range that starts at an address. -/
def poisonedOffsets (s : State) (base : Nat) (pls : List (Place × Nat × Nat)) : List Nat :=
  (pls.map fun (pl, a, k) => ((List.range k).filter fun o =>
    placePoisoned s { pl with pa := pl.pa + o } 1).map fun o => a - base + o).flatten

/-! ### Acceptance -/

/-- Joins the publish set as a writer, once per command (R279, R306): not after it has left the set. -/
def joinSet (q : Queue) (e : CEntry) (p : Port) (mode addr : Nat) : Act Unit := do
  let st ← getStrand
  if mode ≠ 0 && e.writer.isNone && e.prog.set = 0 then
    registerWriter p addr st.id
    modEntry q e.seq fun x => { x with writer := some (BitVec.ofNat 64 addr) }

/-- Acceptance of a copy (R298 to R303, R306): descriptor, list or pattern, follow-on and publish set. A node command
has no follow-on (R379). -/
def copyAccept (e : CEntry) : Act Unit := do
  let p ← enginePort 4
  let bs ← vsReadBlock p e.a.toNat 64
  let cmd := cmdOf e.word
  let d := copyDesc bs
  require (copyFieldsOk cmd bs d) 6
  let st ← getStrand
  require (!(d.follows && st.node.isSome) && spaceAllowed st d.srcSpace && spaceAllowed st d.dstSpace) 6
  if d.follows then
    let w := BitVec.ofNat 32 (field bs 0x28 4)
    require (followWordOk w) 6
    let st ← getStrand
    matCheck (cmdOf w) (engineOf w) e.mcfg (BitVec.ofNat 64 (field bs 0x32 8)) st
  let list ← match cmd with
    | 0x21 => do
      checkAlign d.src 16
      let l ← spaceRead p d.srcSpace d.src (16 * d.y)
      require (extentsOk l d.y) 6
      pure l
    | 0x22 => do
      checkAlign d.src 8
      let pls ← spacePlaces p d.srcSpace d.src 8 false
      let parts ← pls.mapM fun (pl, _, k) => readPlace pl k
      let s ← getS
      let bad := poisonedOffsets s d.src pls
      pure (parts.flatten ++ (List.range 8).map fun o => if bad.contains o then 1 else 0)
    | _ => pure []
  require (!tooManyChunks cmd d list) 6
  joinSet .c e p d.publishMode d.setAddr
  let st ← getStrand
  let count := (copyChunks cmd d list).length
  modS (emitStrand st 5 (natBits e.a.toNat 47 6 * 2 ^ 6 + min 0xFFFF count * 2 ^ 48))
  modEntry .c e.seq fun x => { x with accepted := true, prog := { x.prog with
    desc := bs, list := list, pos := if e.copied || count ≤ e.step then [0] else []
    tiles := [], qs := [], vals := [(0, BitVec.ofNat 64 count)] } }

/-- The chunks of an accepted copy, as its acceptance counted them. -/
def chunkCount (e : CEntry) : Nat := (smRead 0 e.prog.vals 0).toNat

/-! ### Chunks -/

/-- Poison that a chunk carries on: the destination granule of a byte becomes poisoned (R304). -/
def poisonGranule (pl : Place) (off : Nat) (m : Mem) : Mem :=
  match regionOf (pl.pa + off) with
  | .hbm a => addPoison m (a / 64 * 64) 64
  | .sram _ => addPoison m ((pl.pa + off) / 256 * 256) 256
  | _ => m

/-- Moves a chunk (R301, R304, R305): every page is checked, then all is read, then all is written. A pattern gives
each of its bytes and whether it is poisoned. -/
def moveChunk (p : Port) (d : CopyDesc) (c : CopyRow) (pattern : Option (List (Byte × Bool))) : Act Unit := do
  let (src, dst, n) := c
  let sp ← match pattern with
    | some _ => pure []
    | none => spacePlaces p d.srcSpace src n false
  let dp ← spacePlaces p d.dstSpace dst n true
  let bytes ← match pattern with
    | some b => pure ((List.range n).map fun o => ((b[o % 8]?).getD (0, false)).1)
    | none => do
      let parts ← sp.mapM fun (pl, _, k) => readPlace pl k
      pure parts.flatten
  let s ← getS
  let bad := match pattern with
    | some b => (List.range n).filter fun o => ((b[o % 8]?).getD (0, false)).2
    | none => poisonedOffsets s src sp
  dp.forM fun (pl, a, k) => writePlace p pl ((bytes.drop (a - dst)).take k)
  if bad ≠ [] then
    bad.forM fun o => match dp.find? fun (_, a, k) => a ≤ dst + o && dst + o < a + k with
      | some (pl, a, _) => modMem (poisonGranule pl (dst + o - a))
      | none => pure ()
    notePoison p 0 ((dp.head?.map fun x => x.1.pa).getD 0)

/-- The fill pattern, kept as its bytes and a flag for each that is poisoned, from the chunk's place in its row on
(R303, R304): a fill has no source stride, so that place is how far the chunk's source address lies past the
descriptor's. -/
def patternFor (cmd : Nat) (list : List Byte) (offset : Nat) : Option (List (Byte × Bool)) :=
  if cmd = 0x22 then some ((List.range 8).map fun i =>
    let j := (offset + i) % 8
    ((list[j]?).getD 0, (list[8 + j]?).getD 0 ≠ 0)) else none

/-- A set that a command has written is published once (R306, R350, R370): it leaves the set as a writer, and then
validates and publishes it. The entry's `set` then holds the set's address and 2 once it has left, so that it does not
leave again after a fault, and 1 once it has published. -/
def publishOnce (q : Queue) (e : CEntry) (p : Port) (setAddr : Nat) : Act Unit := do
  let st ← getStrand
  let mark (k : Nat) : Act Unit :=
    modEntry q e.seq fun x => { x with writer := none, prog := { x.prog with set := BitVec.ofNat 64 (setAddr + k) } }
  if e.prog.set = 0 then
    modS (unregisterWriter st.asid setAddr)
    mark 2
  if e.prog.set.toNat % 64 ≠ 1 then
    publishSet p setAddr st.id
    mark 1

/-- A command has published its set, and the set's address. -/
def publishedSet (e : CEntry) : Option Nat :=
  if e.prog.set.toNat % 64 = 1 then some (e.prog.set.toNat - 1) else none

/-- The set that a command names by its descriptor, if it writes one (R299, R343, R350, R370). -/
def namedSet (cmd : Nat) (bs : List Byte) : Option Nat :=
  if bs = [] then none
  else if 0x20 ≤ cmd ∧ cmd ≤ 0x22 then if (copyDesc bs).publishMode = 0 then none else some (copyDesc bs).setAddr
  else if cmd = 0x40 then if field bs 0x1E 2 = 0 then none else some (field bs 0x28 8)
  else if cmd = 0x42 then some (field bs 0x10 8)
  else if cmd = 0x49 then some (field bs 0x30 8)
  else none

/-- A command waits on a full table of publish sets (R279, R387): it has still to join or to publish a set that is not
among the 256 that the hub tracks. -/
def tableWaits (s : State) (t : Strand) (e : CEntry) : Bool :=
  256 ≤ s.hub.sets.length && (publishedSet e).isNone &&
  let p := strandPort t 4
  let bs := if e.prog.desc ≠ [] then e.prog.desc else
    match (runAct (vsReadBlock p e.a.toNat 64) { s with strand := t }).1 with
    | .ok bs => bs
    | .error _ => []
  match namedSet (cmdOf e.word) bs with
  | some a => !s.hub.sets.any (isSet p a)
  | none => false

/-- The work after the last chunk (R306, R307): a publication, and the follow-on is presented. -/
def copyEnd (e : CEntry) (p : Port) (d : CopyDesc) : Act Unit := do
  if d.publishMode = 2 then publishOnce .c e p d.setAddr
  if d.follows then modEntry .c e.seq fun x => { x with copied := true, step := 0 }
  else modEntry .c e.seq fun x => { x with done := true }

/-- The command of a strand at which the copy engine would work. -/
def copyWork (st : Strand) : Option CEntry :=
  if queueStopped st .c then none else (runningEntry st .c).filter fun e => !e.copied

/-- A strand wants the copy engine (R376, R387): for a step or for its head command, either of which may wait on a full
table and is then passed over. -/
def copyWants (s : State) (t : Strand) : Bool :=
  ((copyWork t).orElse fun _ => (acceptable .c t).map (·.1)).any fun e => !tableWaits s t e

/-- COPY_CHUNK: the copy engine performs the next chunk of the strand's copy, or what follows the last, when it is the
strand's turn (R301, R306, R387). -/
def execCopyChunk (s : State) : Out :=
  match copyWork s.strand with
  | none => .next s
  | some e =>
    let cmd := cmdOf e.word
    if !engineLive s || !myTurn s 2 (copyWants s) || cmd < 0x20 || 0x22 < cmd then .next s
    else
      let d := copyDesc e.prog.desc
      let chunks := copyChunks cmd d e.prog.list
      serve s 2 <| engineWork .c false 0 e (do
        let p ← enginePort 4
        match chunks[e.step]? with
        | some c => do
          allOrNone <| moveChunk p d c (patternFor cmd e.prog.list (c.1 - d.src))
          modEntry .c e.seq fun x => { x with
            step := e.step + 1, prog := { x.prog with pos := if chunks.length ≤ e.step + 1 then [0] else [] } }
        | none => copyEnd e p d) s

/-- FOLLOW_ON_ACCEPT: the engine accepts the follow-on behind the commands that it has accepted (R259). -/
def execFollowOnAccept (s : State) : Out :=
  match [0, 1].findSome? (followReady s.strand) with
  | none => .next s
  | some e =>
    let f := followEntry { e with prog := { e.prog with list := [] } }
    if !engineLive s then .next s
    else engineWork .c true (engineOf f.word) e (do
      let g ← matAccept f
      modEntry .c e.seq fun x => { x with prog := { x.prog with
        list := g.prog.desc, pos := [1], tiles := g.prog.tiles, qs := g.prog.qs, vals := g.prog.vals } }) s

/-- A copy may retire: a set that it published has reached state 2, 3 or 4 (R306). -/
def copySettled (e : CEntry) : Act Bool := do
  match publishedSet e with
  | none => pure true
  | some a => do
    let p ← enginePort 4
    let v ← vsReadNat p (a + 8) 4
    pure (v = 2 || v = 3 || v = 4)

end Sys2Proof.Machine
end

