-- ==== Sys2Proof/Machine/Message.lean ====
section
/-! DEFINITION. Messages between strand slots (R308 to R313), the Garzar messages that carry them across
links (R328 to R330, R429), and the base-die mesh (R324 to R326). -/

namespace Sys2Proof.Machine

/-! ### Nodes -/

/-- The device's own domain number (R421); without one its nodes have device field 0. -/
def ownDomain (s : State) : Nat := if bar0 s 0x33 1 = 0xFF then 0 else bar0 s 0x33 1 % 64

/-- The node address of a slot (R308). -/
def nodeAddr (s : State) (hoop slot : Nat) : BitVec 16 :=
  BitVec.ofNat 16 (ownDomain s * 2 ^ 10 + hoop * 2 ^ 4 + slot * 2)

def nodeDevice (n : BitVec 16) : Nat := natBits n.toNat 15 10
def nodeHoop (n : BitVec 16) : Nat := natBits n.toNat 9 4
def nodeSlot (n : BitVec 16) : Nat := natBits n.toNat 3 1

/-- The port through which another member of the domain is reached, 0 where the table has none (R328). -/
def memberPort (s : State) (device : Nat) : Nat := bar0 s (0x61000 + 16 * device) 1 % 4

/-- A node is valid for a context (R308, R429). -/
def nodeValid (s : State) (asid : BitVec 12) (n : BitVec 16) : Bool :=
  !n.getLsbD 0 &&
  if nodeDevice n = ownDomain s then hoopPresent s (nodeHoop n)
  else ctxJoined s asid.toNat && memberPort s (nodeDevice n) ≠ 0

/-- The strand that takes entries at a node for a context, if its queue has room (R308). One that is being saved takes
none, so that its queue is saved whole. -/
def receiver (s : State) (asid : BitVec 12) (n : BitVec 16) (count : Nat) : Option Strand :=
  match strandAt s (nodeHoop n) (nodeSlot n) with
  | some t => if t.asid = asid ∧ t.state ≠ .saving ∧ t.recvq.length + count ≤ 4096 then some t else none
  | none => none

/-! ### Garzar messages -/

/-- The bytes of a Garzar message (R329). -/
def garzarBytes (kind count : Nat) (seq src dst ctx : Nat) (data : List Word) : List Byte :=
  leBytes 1 kind ++ leBytes 1 count ++ leBytes 2 seq ++ leBytes 2 src ++ leBytes 2 dst ++ leBytes 2 ctx ++
  leBytes 6 0 ++ (data.map fun w => leBytes 8 w.toNat).flatten

/-- A Garzar message leaves through a port: kind 2 of what leaves the device, a vendor-defined message with Krovnis's
vendor ID (R327). -/
def sendGarzar (port : Nat) (bs : List Byte) (s : State) : State :=
  { s with out := s.out ++ [{ port := port, kind := 2, addr := Config.vendorId.toNat, data := bs }] }

/-- Sends or sends again the ELEM of a message. -/
def sendElem (m : Msg) (s : State) : State :=
  sendGarzar m.port (garzarBytes 2 m.data.length m.seq.toNat m.src.toNat m.dst.toNat
    (ctxDomain s m.asid.toNat) m.data) s

/-- A message unit already holds an unaccepted entry of a strand for a node (R330). -/
def pairBusy (s : State) (i : StrandId) (dst : BitVec 16) : Bool :=
  s.hub.messages.any fun m => m.sender = i && m.dst = dst

/-- An entry is offered (R309, R311, R330): to a slot of this device, or as an ELEM on a link once the older accesses are
performed at system scope (R313). -/
def offerEntry (q : Queue) (dst : BitVec 16) (x : Word) : Act Unit := do
  let s ← getS
  let st := s.strand
  let src := nodeAddr s st.hoop st.slot
  if nodeDevice dst ≠ ownDomain s ∧ !portsSettled s then stopWith (.hold .message)
  let here : Bool := nodeDevice dst = ownDomain s
  let key := src.toNat * 65536 + dst.toNat
  let seq := smRead 0 s.hub.sequences key
  let m : Msg := { src := src, dst := dst, asid := st.asid, data := [x], seq := BitVec.ofNat 16 seq
                   sent := !here, busy := false, port := if here then 0 else memberPort s (nodeDevice dst)
                   refused := false, sender := st.id, queue := q }
  modHub fun h => { h with messages := h.messages ++ [m]
                           sequences := smWrite 0 h.sequences key (seq + 1) }
  if !here then modS (sendElem m)

/-- The sender's side of an accepted entry: a `vsend` goes on to its next element, a `msgx` is done (R309,
R311). The context epoch advances (R292). -/
def entryAccepted (m : Msg) (s : State) : State :=
  advanceEpoch m.asid (updStrand m.sender (fun t =>
    if m.queue = .v then
      match t.vq with
      | e :: es => { t with vq := { e with vstart := e.vstart + 1 } :: es, waits := t.waits.set 1 0 }
      | [] => t
    else setCmdQueue t m.queue (listUpd (fun e => e.accepted && !e.done) (fun e => { e with done := true })
      (cmdQueue t m.queue))) s)

/-- MESSAGE_ACCEPT: the receive queue of the addressed slot takes the n-th waiting message (R308, R312). -/
def execMessageAccept (n : Nat) (s : State) : Out :=
  match s.hub.messages[n]? with
  | none => .next s
  | some m =>
    if m.sent then .next s else
    match receiver s m.asid m.dst m.data.length with
    | none => .next s
    | some t =>
      .next (entryAccepted m (updStrand t.id (fun t => { t with recvq := t.recvq ++ m.data })
        { s with hub := { s.hub with messages := listDel s.hub.messages n } }))

/-- The ASID of this device whose domain context is a tag (R328, R429). -/
def contextOfTag (s : State) (tag : BitVec 16) : Option (BitVec 12) :=
  ((List.range 4096).find? fun a => ctxValid s a && ctxJoined s a && ctxDomain s a = tag.toNat).map (BitVec.ofNat 12)

def discard (s : State) : State := { s with hub := { s.hub with discarded := s.hub.discarded + 1 } }

/-- The domain context that the device puts into a message of its own about the domain: that of its lowest context in
it, as the spec names none (DESIGN CHOICE, log 82). -/
def anyContext (s : State) : Nat :=
  (((List.range 4096).find? fun a => ctxValid s a && ctxJoined s a).map (ctxDomain s)).getD 0

/-- A JOIN or LEAVE from this device goes to some members of its domain table (R328, R329). -/
def announce (kind : Nat) (devices : List Nat) (s : State) : State :=
  if bar0 s 0x33 1 = 0xFF then s
  else (devices.filter fun d => d ≠ ownDomain s && memberPort s d ≠ 0).foldl (init := s) fun s d =>
    sendGarzar (memberPort s d) (garzarBytes kind 0 0 (ownDomain s * 2 ^ 10) (d * 2 ^ 10) (anyContext s) []) s

/-- The device leaves its domain, reset or fenced off (R329). -/
def announceLeave (s : State) : State := announce 5 (List.range 64) s

/-- JOIN: the sender's domain number is announced, and answered by a JOIN (R329). -/
def execJoin (port : Nat) (h : GarzarHeader) (s : State) : Out :=
  let d := nodeDevice h.source
  if h.kind ≠ 1 then .next s
  else if (contextOfTag s h.context).isNone then .next (discard s)
  else .next (sendGarzar port (garzarBytes 1 0 h.sequence.toNat (ownDomain s * 2 ^ 10) h.source.toNat h.context.toNat [])
    { s with hub := { s.hub with members := if s.hub.members.contains d then s.hub.members else s.hub.members ++ [d] } })

/-- ELEM: the entries go to the strand of the mapped context at the slot, whose epoch advances (R292), or BUSY answers
(R329, R429). -/
def execElem (port : Nat) (h : GarzarHeader) (data : List (BitVec 64)) (s : State) : Out :=
  if h.kind ≠ 2 ∨ h.count.toNat ≠ data.length ∨ 64 < data.length then .next s else
  let reply (kind : Nat) (s : State) : State :=
    sendGarzar port (garzarBytes kind 0 h.sequence.toNat h.source.toNat h.dest.toNat h.context.toNat []) s
  match contextOfTag s h.context with
  | none => .next (discard s)
  | some asid =>
    match if nodeDevice h.dest = ownDomain s ∧ !h.dest.getLsbD 0 then receiver s asid h.dest data.length else none with
    | some t => .next (reply 3 (advanceEpoch asid (updStrand t.id (fun t => { t with recvq := t.recvq ++ data }) s)))
    | none => .next (reply 4 s)

/-- A message that an answer names: its sequence and its pair of nodes. -/
def answers (h : GarzarHeader) (m : Msg) : Bool :=
  m.sent && m.seq = h.sequence && m.src = h.source && m.dst = h.dest

/-- ACCEPT: the ELEM of that sequence has been taken (R329). -/
def execAccept (_port : Nat) (h : GarzarHeader) (s : State) : Out :=
  if h.kind ≠ 3 then .next s
  else if (contextOfTag s h.context).isNone then .next (discard s)
  else match s.hub.messages.find? (answers h) with
    | some m => .next (entryAccepted m { s with hub := { s.hub with messages := s.hub.messages.filter fun x => !answers h x } })
    | none => .next s

/-- BUSY: the ELEM was not taken and will be offered again (R329, R330). -/
def execBusy (_port : Nat) (h : GarzarHeader) (s : State) : Out :=
  if h.kind ≠ 4 then .next s
  else if (contextOfTag s h.context).isNone then .next (discard s)
  else .next { s with hub := { s.hub with messages := listUpd (answers h) (fun m => { m with busy := true }) s.hub.messages } }

/-- LEAVE: the waiting ELEMs to that device are refused (R329, R330). -/
def execLeave (_port : Nat) (h : GarzarHeader) (s : State) : Out :=
  let d := nodeDevice h.source
  if h.kind ≠ 5 then .next s
  else if (contextOfTag s h.context).isNone then .next (discard s)
  else .next { s with hub := { s.hub with
      members := s.hub.members.filter fun x => x ≠ d
      messages := listUpd (fun m => m.sent && nodeDevice m.dst = d) (fun m => { m with refused := true })
        s.hub.messages } }

/-- ELEM_RETRY: the message unit offers the same ELEM again (R330). -/
def execElemRetry (n : Nat) (s : State) : Out :=
  match s.hub.messages[n]? with
  | some m =>
    if m.sent && m.busy && !m.refused then
      .next (sendElem m { s with hub := { s.hub with messages := listSet s.hub.messages n { m with busy := false } } })
    else .next s
  | none => .next s

/-- GARZAR_OTHER_TYPE: another type, or an unknown domain context, is discarded and counted (R329). -/
def execGarzarOtherType (_port : Nat) (h : GarzarHeader) (s : State) : Out :=
  if (1 ≤ h.kind.toNat ∧ h.kind.toNat ≤ 5) ∧ (contextOfTag s h.context).isSome then .next s else .next (discard s)

/-! ### Message instructions -/

/-- The first active element at or after a number. -/
def nextActive (v : VEnv) (i : Nat) : Option Nat := (span i v.e.vl).find? v.active

/-- VSEND (R309): its checks and its probe once, then element after element; an element that is not accepted
is waited for. -/
def execVsend (a b : BitVec 5) (_t : BitVec 3) (m : BitVec 1) (s : State) : Out :=
  vInstr noRegs (fun e => do
    if !e.begun then
      vCheck e (wholeVector e) (m = 1) [(a.toNat, lmulOf e.vtype), (b.toNat, lmulOf e.vtype)]
        (sewOf e.vtype = 16 || sewOf e.vtype = 32 || sewOf e.vtype = 64)
    let v ← vEnv e (m = 1)
    let node (i : Nat) : BitVec 16 := BitVec.ofNat 16 (v.elem b i)
    if !e.begun then
      wholePoison v [.elems a.toNat v.sew, .elems b.toNat v.sew]
      let s ← getS
      match v.actives.find? fun i => !nodeValid s v.st.asid (node i) with
      | some i => mapTrap (fun t => { t with telem := BitVec.ofNat 32 i }) (raise causeAcc (node i).toNat)
      | none => modHead fun e => { e with begun := true }
    let s ← getS
    if s.hub.messages.any fun x => x.sender = v.st.id && x.queue = .v then stopWith (.hold .message)
    match nextActive v e.vstart with
    | none => pure ()
    | some i => do
      modHead fun e => { e with vstart := i }
      if !pairBusy s v.st.id (node i) then
        offerEntry .v (node i) (BitVec.ofNat 64 (v.elem a i))
      stopWith (.hold .message)) s

/-- VRECV (R310). -/
def execVrecv (d a : BitVec 5) (_t : BitVec 3) (s : State) : Out :=
  vInstr noRegs (fun e => do
    vCheck e (wholeVector e) false [(a.toNat, lmulOf e.vtype)] (8 ≤ sewOf e.vtype)
    let v ← vEnv e false
    if e.vl = 0 then writeResult d 0
    else do
      if v.st.recvq = [] then
        modHead fun e => { e with begun := true }
        stopWith (.hold .message)
      let n := min e.vl v.st.recvq.length
      acquire
      let got := (v.st.recvq.take n).zipIdx.map fun (x, i) => (i, x.toNat % 2 ^ v.sew)
      putDst v (.elems a.toNat v.sew v.lmul) (got ++ tailFrom v n)
      modStrand fun st => { st with recvq := st.recvq.drop n }
      writeResult d (BitVec.ofNat 64 n)) s

/-- MSGX (R311): it goes to the N queue. -/
def execMsgx (a b : BitVec 5) (_t : BitVec 3) (s : State) : Out :=
  enterC .n { r1 := some a, r2 := some b, mcfg := false, seed := fun _ => false, kv := false }
    (fun _ _ _ => pure ()) s

/-- The N queue takes a `msgx` (R311): the node is checked and the entry offered. -/
def msgxAccept (e : CEntry) : Act Unit := do
  let s ← getS
  let n := BitVec.ofNat 16 e.a.toNat
  if 2 ^ 16 ≤ e.a.toNat ∨ !nodeValid s s.strand.asid n then raise causeAcc e.a.toNat
  if pairBusy s s.strand.id n then waitFor .message
  if nodeDevice n ≠ ownDomain s ∧ !portsSettled s then waitFor .message
  offerEntry .n n e.b
  modEntry .n e.seq fun x => { x with accepted := true }

/-! ### The base-die mesh (R324 to R326) -/

/-- The router of a code: the hub's ports are at routers 0 and 7 (R324). -/
def meshRouter (c : Nat) : Nat := if c = 8 then 0 else if c = 9 then 7 else c

/-- The links that a packet takes, as router and output: in, along its column's way, to the other row, out (R324).
Outputs: 0 to the stack, 1 to the hub, 2 one column on, 3 one column back, 4 the other row, 5 and 6 from the stack and
the hub into their router. -/
def meshLinks (src dst : Nat) : List (Nat × Nat) :=
  let a := meshRouter src
  let b := meshRouter dst
  let row := a / 4 * 4
  let along := if a % 4 ≤ b % 4 then (span (a % 4) (b % 4)).map fun c => (row + c, 2)
    else ((span (b % 4) (a % 4)).map fun c => (row + c + 1, 3)).reverse
  (a, if src < 8 then 5 else 6) :: along ++ (if a / 4 = b / 4 then [] else [(row + b % 4, 4)]) ++
    [(b, if dst < 8 then 0 else 1)]

/-- Traffic between a stack and the hub uses port A for stacks 0, 1, 4 and 5, and B for the others (R324). -/
def meshPortOk (src dst : Nat) : Bool :=
  let ok (stack port : Nat) : Bool := (port = 8) = (stack % 4 < 2)
  if 8 ≤ src then dst < 8 && ok dst src else dst < 8 || ok src dst

/-- The header flit of a packet, up to its payload (R325). -/
def meshBytes (h : MeshHeader) : List Byte :=
  [h.kind, h.vc, h.dest, h.source, h.unit, h.flits] ++ leBytes 2 h.tag.toNat ++ leBytes 2 h.asid.toNat ++
    List.replicate 6 0

/-- The flits of a packet (R325). -/
def meshPacket (h : MeshHeader) : List (List Byte) :=
  chunksOf 32 h.flits.toNat (padTo (32 * h.flits.toNat) (meshBytes h ++ h.payload))

/-- The key of the buffers of a link for a virtual channel. -/
def creditKey (router out vc : Nat) : Nat := router * 16 + out * 2 + vc

/-- How far a sender's free-buffer count stands below 8: the flits that its link's buffers hold (R326). -/
def creditsUsed (s : State) (router out vc : Nat) : Nat := (smRead [] s.hub.credits (creditKey router out vc)).length

/-- The buffers of a link take the flits of a packet. -/
def takeFlits (h : MeshHeader) (s : State) (l : Nat × Nat) : State :=
  let k := creditKey l.1 l.2 h.vc.toNat
  { s with hub := { s.hub with credits := smWrite [] s.hub.credits k (smRead [] s.hub.credits k ++ meshPacket h) } }

/-- The header names a packet that the mesh carries (R324, R325). -/
def meshLegal (h : MeshHeader) : Bool :=
  1 ≤ h.flits.toNat && h.flits.toNat ≤ 3 && h.dest.toNat ≤ 9 && h.source.toNat ≤ 9 && h.vc.toNat ≤ 1 &&
  (h.unit.toNat < 32 || h.unit = 0xFF) && meshPortOk h.source.toNat h.dest.toNat

/-- The flits of a packet take buffers on every link of its way; a header is sent only when each count covers the
packet (R326). -/
def meshArrive (h : MeshHeader) (effect : State → State) (s : State) : Out :=
  let ls := meshLinks h.source.toNat h.dest.toNat
  if !meshLegal h || ls.any fun l => 8 < creditsUsed s l.1 l.2 h.vc.toNat + h.flits.toNat then .next s
  else .next (effect (ls.foldl (takeFlits h) s))

/-- The arrival of a packet of a kind. R325 gives no layout for what it carries, which takes effect in the unit that it
addresses as that unit's own rules state: a command by `nmq`, a translation by the walk, a completion by the counter's
increment, a fault record by the hub's queue, image data by the spill. -/
def meshKind (k : Nat) (h : MeshHeader) (s : State) : Out :=
  if h.kind.toNat = k then meshArrive h id s else .next s

/-- MESH_COMMAND (R325). -/
def execMeshCommand (h : MeshHeader) (s : State) : Out := meshKind 1 h s

/-- MESH_TRANSLATION_REQUEST (R325). -/
def execMeshTranslationRequest (h : MeshHeader) (s : State) : Out := meshKind 2 h s

/-- MESH_TRANSLATION_RESPONSE (R325). -/
def execMeshTranslationResponse (h : MeshHeader) (s : State) : Out := meshKind 3 h s

/-- MESH_COMPLETION (R325). -/
def execMeshCompletion (h : MeshHeader) (s : State) : Out := meshKind 4 h s

/-- MESH_FAULT_RECORD (R325). -/
def execMeshFaultRecord (h : MeshHeader) (s : State) : Out := meshKind 5 h s

/-- MESH_IMAGE_DATA (R325). -/
def execMeshImageData (h : MeshHeader) (s : State) : Out := meshKind 6 h s

/-- MESH_OTHER_KIND: discarded and counted (R325). -/
def execMeshOtherKind (h : MeshHeader) (s : State) : Out :=
  if 1 ≤ h.kind.toNat ∧ h.kind.toNat ≤ 6 then .next s else meshArrive h discard s

/-- MESH_CREDIT: the receiver has freed a buffer; the count rises by one, to at most 8 (R326). -/
def execMeshCredit (router out vc : Nat) (s : State) : Out :=
  let k := creditKey router out vc
  .next { s with hub := { s.hub with credits := smWrite [] s.hub.credits k (smRead [] s.hub.credits k).tail } }

end Sys2Proof.Machine
end

