-- ==== Sys2Proof/Machine/CsrFile.lean ====
section
/-! DEFINITION. The CSRs of R62 as a file: what each reads as and what a write stores. -/

namespace Sys2Proof.Machine

/-- The numbers of the writable user CSRs (R62). -/
def userCsrs : List Nat := [0x001, 0x002, 0x003, 0x004, 0x008, 0x010, 0x011, 0x012, 0x013, 0x016, 0x018, 0x019]

/-- The numbers of the system CSRs (R62). -/
def systemCsrs : List Nat :=
  [0x100, 0x101, 0x102, 0x103, 0x104, 0x105, 0x106, 0x107, 0x108, 0x110, 0x111]

/-- The numbers of the read-only CSRs (R62). -/
def readOnlyCsrs : List Nat :=
  [0xC00, 0xC01, 0xC02, 0xC10, 0xC11, 0xC12, 0xC13, 0xC20, 0xC21, 0xC22, 0xC23, 0xC30, 0xC31, 0xC32, 0xC33, 0xC34]

/-- The value that a write stores: reserved bits read as zero (R62, R63). -/
def csrStore (n : Nat) (v : Word) : Word :=
  match n with
  | 0x001 => v &&& 0x1F
  | 0x002 => if 6 ≤ v.toNat % 8 then v &&& 8 else v &&& 0xF
  | 0x003 => v &&& 3
  | 0x004 => v &&& 1
  | 0x008 | 0x107 | 0x018 => v &&& 0xFFFFFFFF
  | 0x010 => v &&& 0x7FFF
  | 0x011 => v &&& 0x3FFFFF
  | 0x012 => v &&& 0x73FFFFFFF
  | 0x013 => v &&& 0xFFFFFFFE
  | 0x019 => v &&& 0x3FFF
  | 0x100 | 0x111 => v &&& 3
  | 0x101 => v &&& 0xFF
  | 0x103 | 0x104 => v &&& 0xFFFFFFFFFFFF
  | 0x105 => v &&& 0xFFFFFFFFFFFC
  | 0x110 => v &&& 0xFFFFFFFFFEFFF
  | _ => v

/-- `cycle`: ac since the strand's start. -/
def cycleOf (s : State) (st : Strand) : Word := BitVec.ofInt 64 ((s.ac : Int) - st.startAc)

/-- `strandid` (R62). -/
def strandIdWord (st : Strand) : Word := BitVec.ofNat 64 (st.id.index * 2 ^ 16 + st.hoop * 2 ^ 4 + st.slot)

/-- What a CSR reads as. -/
def csrRead (s : State) (st : Strand) (n : Nat) : Word :=
  match n with
  | 0x001 => st.csr.vfflags
  | 0x002 => st.csr.vfrm
  | 0x003 => st.csr.vxrm
  | 0x004 => st.csr.vxsat
  | 0x008 => st.csr.vstart
  | 0x010 => st.csr.qcfg
  | 0x011 => st.csr.wcfg
  | 0x012 => st.csr.mcfg
  | 0x013 => st.csr.xfep
  | 0x016 => st.csr.srseed
  | 0x018 => st.csr.kvdev
  | 0x019 => st.csr.kvcfg
  | 0x100 => st.csr.tstatus
  | 0x101 => st.csr.tcause
  | 0x102 => st.csr.tval
  | 0x103 => st.csr.tpc
  | 0x104 => st.csr.tvcp
  | 0x105 => st.csr.tvec
  | 0x106 => st.csr.tscratch
  | 0x107 => st.csr.telem
  | 0x108 => st.csr.tvq
  | 0x110 => st.csr.atp
  | 0x111 => st.csr.racectl
  | 0xC00 => cycleOf s st
  | 0xC01 => timeNow s
  | 0xC02 => BitVec.ofNat 64 st.instret
  | 0xC10 => strandIdWord st
  | 0xC11 => BitVec.ofNat 64 (st.id.launch % 2 ^ 12)
  | 0xC12 => st.asid.setWidth 64
  | 0xC13 => (nodeAddr s st.hoop st.slot).setWidth 64
  | 0xC20 => BitVec.ofNat 64 st.vl
  | 0xC21 => st.vtype
  | 0xC22 => BitVec.ofNat 64 (rg st)
  | 0xC23 => st.mtype.setWidth 64
  | 0xC30 => BitVec.ofNat 64 (st.slip.get 0)
  | 0xC31 => BitVec.ofNat 64 (st.slip.get 1)
  | 0xC32 => BitVec.ofNat 64 (st.slip.get 2)
  | 0xC33 => BitVec.ofNat 64 (st.slip.get 3)
  | 0xC34 => BitVec.ofNat 64 (st.slip.get 4)
  | _ => 0

/-- A write of a CSR (R62). -/
def csrWrite (n : Nat) (v : Word) (st : Strand) : Strand :=
  let x := csrStore n v
  let c := st.csr
  let put (c : Csrs) : Strand := { st with csr := c }
  match n with
  | 0x001 => put { c with vfflags := x }
  | 0x002 => put { c with vfrm := x }
  | 0x003 => put { c with vxrm := x }
  | 0x004 => put { c with vxsat := x }
  | 0x008 => put { c with vstart := x }
  | 0x010 => put { c with qcfg := x }
  | 0x011 => put { c with wcfg := x }
  | 0x012 => put { c with mcfg := x }
  | 0x013 => put { c with xfep := x }
  | 0x016 => put { c with srseed := x }
  | 0x018 => put { c with kvdev := x }
  | 0x019 => put { c with kvcfg := x }
  | 0x100 => put { c with tstatus := x }
  | 0x101 => put { c with tcause := x }
  | 0x102 => put { c with tval := x }
  | 0x103 => put { c with tpc := x }
  | 0x104 => put { c with tvcp := x }
  | 0x105 => put { c with tvec := x }
  | 0x106 => put { c with tscratch := x }
  | 0x107 => put { c with telem := x }
  | 0x108 => put { c with tvq := x }
  | 0x110 => put { c with atp := x }
  | 0x111 => put { c with racectl := x }
  | _ => st

end Sys2Proof.Machine
end

