-- ==== Sys2Proof/Machine/StackUnit.lean ====
section
/-! DEFINITION. Stack units (R314 to R323): the packet, the commands, the instructions, loops and faults. -/

namespace Sys2Proof.Machine

/-! ### Registers -/

/-- Lane l of register n. -/
def StackUnit.lane (u : StackUnit) (n l : Nat) : Nat := (smRead 0 u.n (n * 64 + l)).toNat

/-- Writes every lane of a register. -/
def StackUnit.setLanes (u : StackUnit) (n : Nat) (f : Nat → Nat) : StackUnit :=
  { u with n := smWriteList 0 u.n (n * 64) ((List.range 64).map fun l => BitVec.ofNat 32 (f l)) }

def StackUnit.preg (u : StackUnit) (k : Nat) : Nat := ((u.p[k]?).getD 0).toNat

def StackUnit.creg (u : StackUnit) (k : Nat) : BitVec 32 := (u.c[k]?).getD 0

def StackUnit.kreg (u : StackUnit) (k : Nat) : BitVec 64 := (u.k[k]?).getD 0

/-! ### The packet (R319) -/

/-- The limits of R319. -/
def packetOk (b : List Byte) : Bool :=
  let type := field b 0 1
  let flags := field b 1 1
  let len := field b 2 2
  let load : Bool := natBits flags 1 1 = 1
  1 ≤ type && type ≤ 3 && flags < 4 && (type = 2 || flags = 0) &&
  (if type = 1 || load then 1 ≤ len && len ≤ 96 else len = 0) &&
  natBits (field b 4 2) 14 12 = 0 && field b 6 2 = 0 && field b 8 8 % 64 = 0 &&
  field b 0x10 8 % 4 = 0 &&
  (type ≠ 2 || field b 0x18 8 % 64 = 0) && (type ≠ 3 || field b 0x18 8 % 256 = 0) && allZero b 0x20 32

/-- The counter field of a packet: none, or an id (R319). -/
def packetCounter (b : List Byte) : Option Nat :=
  if natBits (field b 4 2) 15 15 = 1 then none else some (natBits (field b 4 2) 11 0)

/-! ### Translation of a unit's accesses (R315) -/

def unitPort (c : SuCmd) : Port := contextPort c.asid c.root.toNat false 6 none

/-- Causes of a fault record (R322), carried as a trap's cause inside a unit's work. -/
def raiseUnit {α : Type} (cause : BitVec 8) (addr : Nat) : Act α := raise cause addr

/-- One access of n bytes within a page, with the causes of R315 and R322. -/
def unitPlace (p : Port) (va : Nat) (wr : Bool) : Act Place := do
  match ← tryTrap (walk p va) with
  | .error t => raiseUnit (if t.cause = causeKeyiso then 6 else if t.cause = causePoison then 1 else 4) va
  | .ok e => do
    if !e.pte.getLsbD 4 || !(if wr then e.pte.getLsbD 2 else e.pte.getLsbD 1) then raiseUnit 5 va
    let pl : Place := { pa := e.pa + (va - e.va), key := natBits e.pte.toNat 19 10, foreign := false
                        first := if wr && e.clean then some va else none }
    let s ← getS
    match regionOf pl.pa with
    | .hbm _ => if keyOk s p pl.key then pure pl else raiseUnit 6 va
    | _ => pure pl

/-- A unit's own control data lie where a context may reach them: HBM or its SRAM. -/
def unitData (p : Port) (va n : Nat) (pl : Place) : Act Unit := do
  match ← tryTrap (checkPlace p va n false pl) with
  | .ok _ => pure ()
  | .error t => raiseUnit (if t.cause = causeKeyiso then 6 else 5) va

/-- Reads or writes a block of control data of a command. -/
def unitRead (p : Port) (va n : Nat) : Act (List Byte) := do
  let parts ← (pagePieces va n).mapM fun (a, k) => do
    if 2 ^ 48 ≤ a then raiseUnit 4 a
    let pl ← unitPlace p a false
    unitData p a k pl
    let s ← getS
    if placePoisoned s pl k then do
      notePoison p 1 pl.pa
      raiseUnit 1 a
    readPlace pl k
  pure parts.flatten

def unitWrite (p : Port) (va : Nat) (bs : List Byte) : Act Unit := do
  let pls ← (pagePieces va bs.length).mapM fun (a, k) => do
    if 2 ^ 48 ≤ a then raiseUnit 4 a
    let pl ← unitPlace p a true
    unitData p a k pl
    pure (pl, a, k)
  pls.forM fun (pl, a, k) => writePlace p pl ((bs.drop (a - va)).take k)

/-- The place of the 256 bytes of `ld` or `st` in the unit's own channel (R315). -/
def lanePlace (p : Port) (unit va : Nat) (wr : Bool) : Act Place := do
  if va % 4 ≠ 0 ∨ 4096 < va % 4096 + 256 then raiseUnit 5 va
  let pl ← unitPlace p va wr
  match regionOf pl.pa with
  | .hbm a => if channelOf a = unit then pure pl else raiseUnit 2 va
  | _ => raiseUnit 2 va

/-! ### Faults (R322, R323) -/

/-- The 64 bytes of a fault record. -/
def faultRecord (cause unit entry addr : Nat) (w : Word32) (u : StackUnit) (c : SuCmd) (time : Word) : List Byte :=
  leBytes 1 cause ++ leBytes 1 unit ++ leBytes 2 c.asid.toNat ++ leBytes 2 (field c.bytes 4 2) ++ leBytes 1 entry ++
  leBytes 1 0 ++ leBytes 8 c.packet.toNat ++ leBytes 4 u.idx1 ++ leBytes 4 u.idx2 ++ leBytes 8 addr ++
  leBytes 8 time.toNat ++ leBytes 4 w.toNat ++ List.replicate 20 0

/-- The hub writes a record to the fault queue, or counts it as lost (R322). -/
def deliverFault (c : SuCmd) (rec : List Byte) (s : State) : State :=
  let p := contextPort c.asid c.root.toNat false 7 none
  let q := field c.bytes 8 8
  let undelivered (s : State) : State := addErr (errRec 14 1 c.asid (rec.take 32)) s
  match runAct (vsReadBlock p q 64) s with
  | (.ok h, s1) =>
    let cap := field h 0 4
    let w := field h 4 4
    let rd := field h 8 4
    let lost (s : State) : Option State :=
      match runAct (vsWriteBlock p (q + 0x0C) (leBytes 4 (field h 0x0C 4 + 1))) s with
      | (.ok _, s2) => some s2
      | _ => none
    if !((List.range 13).any fun k => cap = 2 ^ k) then undelivered s1
    else if (w + 2 ^ 32 - rd) % 2 ^ 32 < cap then
      match runAct (access p (q + 4) 4 false true false false) s1 with
      | (.error _, _) => undelivered s1
      | (.ok _, _) =>
        match runAct (vsWriteBlock p (q + 64 + 64 * (w % cap)) rec) s1 with
        | (.ok _, s2) => (runAct (vsWriteBlock p (q + 4) (leBytes 4 (w + 1))) s2).2
        | (.error _, _) => undelivered ((lost s1).getD s1)
    else (lost s1).getD (undelivered s1)
  | (.error _, _) => undelivered s

/-- A unit faults (R323): the record, the context descheduled, its strands asked to stop. The command of a graph node is a
node fault too, whose cause is that of the unit's record (R322, R379). -/
def unitFault (un cause entry addr : Nat) (w : Word32) (s : State) : State :=
  let u := unitOf s un
  match u.running with
  | none => s
  | some c =>
    let s1 := setUnit un { u with running := none, started := false } s
    let s2 := deliverFault c (faultRecord cause un entry addr w u c (timeNow s)) s1
    let s3 := updStrands (fun t => isStrand t && t.asid = c.asid) (fun t => { t with preempt := true }) s2
    let s4 := { s3 with hub := { s3.hub with
      descheduled := if s3.hub.descheduled.contains c.asid then s3.hub.descheduled
        else s3.hub.descheduled ++ [c.asid] } }
    match c.node with
    | some (g, n) => nodeFault g n c.asid cause s4
    | none => s4

/-! ### Commands -/

/-- The command of a unit is complete (R321): its counter is counted, and the node that posted it has finished. -/
def unitComplete (un : Nat) (s : State) : State :=
  let u := unitOf s un
  match u.running with
  | none => s
  | some c =>
    let s1 := setUnit un { u with running := none, started := false } s
    let s2 := match packetCounter c.bytes with
      | some k => incCounter k false s1
      | none => s1
    match c.node with
    | some (g, n) => nodeFinished g n s2
    | none => s2

def modUnit (un : Nat) (f : StackUnit → StackUnit) : Act Unit := modS fun s => setUnit un (f (unitOf s un)) s

/-- The registers and the buffer of a unit that a new owner loads are zero (R314, R319). -/
def ownedBy (asid : BitVec 12) (u : StackUnit) : StackUnit :=
  if u.owner = some asid then u else
    { u with n := [], k := Vector.replicate 4 0, p := Vector.replicate 8 0, c := Vector.replicate 16 0
             buf := Vector.replicate 96 0, owner := some asid }

/-- Entries of the buffer from words. -/
def setBuffer (bs : List Byte) : Nat → Nat → Vector Word32 96 → Vector Word32 96
  | _, 0, b => b
  | i, n + 1, b => setBuffer bs (i + 1) n (b.setIfInBounds i (BitVec.ofNat 32 (field bs (4 * i) 4)))

/-- Loads the program of a command (R319): a new owner takes the unit first. -/
def loadBuffer (un : Nat) (c : SuCmd) : Act Unit := do
  let len := field c.bytes 2 2
  modUnit un (ownedBy c.asid)
  let bs ← unitRead (unitPort c) (field c.bytes 0x10 8) (4 * len)
  modUnit un fun u => { u with buf := setBuffer bs 0 len u.buf }

/-- The register image of a RUN (R319): p with its upper bits zero, then c. -/
def loadImage (un : Nat) (c : SuCmd) : Act Unit := do
  let a := field c.bytes 0x18 8
  let bs ← unitRead (unitPort c) a 128
  if (List.range 8).any fun k => field bs (8 * k + 6) 2 ≠ 0 then raiseUnit 8 0
  modUnit un fun u => { u with
    p := Vector.ofFn fun k => BitVec.ofNat 48 (field bs (8 * k.val) 6)
    c := Vector.ofFn fun k => BitVec.ofNat 32 (field bs (64 + 4 * k.val) 4) }

/-- The command at the head of a unit's queue may start (R321, R323, R446): the unit is idle and active and
the context is not descheduled. Commands of one context keep their order. -/
def nextCommand (un : Nat) (s : State) : Option (SuCmd × List SuCmd) :=
  let u := unitOf s un
  if u.running.isSome ∨ u.power ≠ .active ∨ s.hub.quiesce then none
  else
    match u.queue.span fun c => s.hub.descheduled.contains c.asid with
    | (held, c :: cs) => some (c, held ++ cs)
    | (_, []) => none

/-- A command of a type is taken from the queue and its work done; a fault is recorded with no entry, and what the work
has done before it stays. -/
def startCommand (un type : Nat) (work : SuCmd → Act Unit) (ends : Bool) (s : State) : Out :=
  if 256 ≤ un then .next s else
  match nextCommand un s with
  | none => .next s
  | some (c, rest) =>
    if field c.bytes 0 1 ≠ type then .next s
    else
      let s1 := setUnit un { unitOf s un with running := some c, started := false, queue := rest, idx1 := 0, idx2 := 0 } s
      match work c s1 with
      | (.ok _, s2) => .next (if ends then unitComplete un s2 else s2)
      | (.error (.trap t), s2) => .next (unitFault un t.cause.toNat 0xFF t.tval.toNat 0 s2)
      | (.error _, _) => .next s

/-- A RUN without load, and a SPILL, belong to the owner alone (R319). -/
def needOwner (un : Nat) (c : SuCmd) : Act Unit := do
  let s ← getS
  if (unitOf s un).owner = some c.asid then pure () else raiseUnit 7 0

/-- LOAD_PROGRAM (R319). -/
def execLoadProgram (u : Nat) (s : State) : Out := startCommand u 1 (loadBuffer u) true s

/-- RUN (R319): the program and the registers are loaded, and the unit starts at entry 0. -/
def execRun (u : Nat) (s : State) : Out :=
  startCommand u 2 (fun c => do
    let flags := field c.bytes 1 1
    if natBits flags 1 1 = 1 then loadBuffer u c else needOwner u c
    if natBits flags 0 0 = 0 then modUnit u fun x => { x with n := [], k := Vector.replicate 4 0 }
    loadImage u c
    modUnit u fun x => { x with started := true, entry := 0, loop1 := none, loop2 := none }) false s

/-- SPILL (R319). -/
def execSpill (u : Nat) (s : State) : Out :=
  startCommand u 3 (fun c => do
    needOwner u c
    let s ← getS
    unitWrite (unitPort c) (field c.bytes 0x18 8) (unitImage (unitOf s u))) true s

/-- CONTEXT_RESCHEDULE: the held commands of the context may run again (R323). -/
def execContextReschedule (asid : BitVec 12) (s : State) : Out :=
  .next { s with hub := { s.hub with descheduled := s.hub.descheduled.filter fun a => a ≠ asid } }

/-! ### Instructions -/

/-- The next entry after entry i (R317). -/
def afterEntry (i : Nat) (u : StackUnit) : StackUnit :=
  let end1 (u : StackUnit) : StackUnit :=
    match u.loop1 with
    | some (first, last, left) =>
      if i = last then
        if left ≤ 1 then { u with loop1 := none, idx1 := u.idx1 + 1, entry := i + 1 }
        else { u with loop1 := some (first, last, left - 1), idx1 := u.idx1 + 1, entry := first }
      else { u with entry := i + 1 }
    | none => { u with entry := i + 1 }
  match u.loop2 with
  | some (first, last, left) =>
    if i = last then
      if left ≤ 1 then end1 { u with loop2 := none, idx2 := u.idx2 + 1 }
      else { u with loop2 := some (first, last, left - 1), idx2 := u.idx2 + 1, entry := first }
    else { u with entry := i + 1 }
  | none => end1 u

/-- One instruction of the unit whose turn it is (R316): an illegal operand stops it (R81), its work is done,
and the unit goes to the next entry. -/
def suInstr (legal : Bool) (work : SuCmd → StackUnit → Act StackUnit) (next : Nat → StackUnit → StackUnit)
    (s : State) : Out :=
  let un := s.curUnit
  let u := unitOf s un
  match u.running with
  | none => .next s
  | some c =>
    if !u.started then .next s
    else if !legal then .next (unitFault un 3 u.entry 0 s.fetched s)
    else
      match work c u s with
      | (.ok u', s') => .next (setUnit un (next u.entry u') s')
      | (.error (.trap t), s') => .next (unitFault un t.cause.toNat u.entry t.tval.toNat s.fetched s')
      | (.error _, _) => .next s

def regsN (rs : List (BitVec 5)) : Bool := rs.all fun r => r.toNat < 24

/-- An instruction that computes each lane of n[d] from the registers. -/
def suLanes (d : BitVec 5) (srcs : List (BitVec 5)) (f : StackUnit → Nat → Nat) (s : State) : Out :=
  suInstr (regsN (d :: srcs)) (fun _ u => pure (u.setLanes d.toNat (f u))) afterEntry s

def rneOnly : Round := { mode := .rne, sat := false }

/-- FP32 arithmetic of two registers (R318). -/
def suArith (d a b : BitVec 5) (f : Fmt → Round → Nat → Nat → Nat × Flags) (s : State) : Out :=
  suLanes d [a, b] (fun u l => (f .fp32 rneOnly (u.lane a.toNat l) (u.lane b.toNat l)).1) s

/-- SU_LD (R315, R316); of poison the record names the line (R332). -/
def execSuLd (d a : BitVec 5) (i : BitVec 1) (s : State) : Out :=
  suInstr (regsN [d] && a.toNat < 8) (fun c u => do
    let va := u.preg a.toNat
    let p := unitPort c
    let s ← getS
    let pl ← lanePlace p s.curUnit va false
    match (List.range 256).find? fun o => placePoisoned s { pl with pa := pl.pa + o } 1 with
    | some o => do
      notePoison p 1 (pl.pa + o)
      raiseUnit 1 ((va + o) / 64 * 64)
    | none => pure ()
    let bs ← readPlace pl 256
    let u1 := u.setLanes d.toNat fun l => field bs (4 * l) 4
    pure (if i = 1 then { u1 with p := u1.p.setIfInBounds a.toNat (BitVec.ofNat 48 (va + 256)) } else u1)) afterEntry s

/-- SU_ST (R315, R316). -/
def execSuSt (d a : BitVec 5) (i : BitVec 1) (s : State) : Out :=
  suInstr (regsN [d] && a.toNat < 8) (fun c u => do
    let va := u.preg a.toNat
    let p := unitPort c
    let s ← getS
    let pl ← lanePlace p s.curUnit va true
    writePlace p pl ((List.range 64).map fun l => leBytes 4 (u.lane d.toNat l)).flatten
    pure (if i = 1 then { u with p := u.p.setIfInBounds a.toNat (BitVec.ofNat 48 (va + 256)) } else u)) afterEntry s

/-- SU_ADD (R316). -/
def execSuAdd (d a b : BitVec 5) (s : State) : Out := suArith d a b fadd s

/-- SU_SUB (R316). -/
def execSuSub (d a b : BitVec 5) (s : State) : Out := suArith d a b fsub s

/-- SU_MUL (R316). -/
def execSuMul (d a b : BitVec 5) (s : State) : Out := suArith d a b fmul s

/-- `fma` and `fms` (R316): one rounding. -/
def suFused (minus : Bool) (d a b : BitVec 5) (s : State) : Out :=
  suLanes d [a, b] (fun u l =>
    (fma .fp32 rneOnly minus (u.lane a.toNat l) (u.lane b.toNat l) (u.lane d.toNat l)).1) s

/-- SU_FMA (R316). -/
def execSuFma (d a b : BitVec 5) (s : State) : Out := suFused false d a b s

/-- SU_FMS (R316). -/
def execSuFms (d a b : BitVec 5) (s : State) : Out := suFused true d a b s

/-- SU_MIN (R316). -/
def execSuMin (d a b : BitVec 5) (s : State) : Out := suArith d a b (fun f _ x y => fminmax f false x y) s

/-- SU_MAX (R316). -/
def execSuMax (d a b : BitVec 5) (s : State) : Out := suArith d a b (fun f _ x y => fminmax f true x y) s

/-- SU_ABS (R316). -/
def execSuAbs (d a : BitVec 5) (s : State) : Out := suLanes d [a] (fun u l => u.lane a.toNat l % 2 ^ 31) s

/-- SU_CMP (R316): relation 3 is illegal (R81). -/
def execSuCmp (d a b : BitVec 5) (r : BitVec 2) (s : State) : Out :=
  suInstr (regsN [a, b] && d.toNat < 4 && r ≠ 3) (fun _ u =>
    let rel : FRel := if r = 0 then .eq else if r = 1 then .lt else .le
    let bit (l : Nat) : Nat := if (fcompare .fp32 rel (u.lane a.toNat l) (u.lane b.toNat l)).1 then 2 ^ l else 0
    pure { u with k := u.k.setIfInBounds d.toNat (BitVec.ofNat 64 ((List.range 64).map bit).sum) }) afterEntry s

/-- SU_SEL (R316). -/
def execSuSel (d a b : BitVec 5) (k : BitVec 2) (s : State) : Out :=
  suLanes d [a, b] (fun u l => if (u.kreg k.toNat).getLsbD l then u.lane a.toNat l else u.lane b.toNat l) s

/-- SU_AND (R316). -/
def execSuAnd (d a b : BitVec 5) (s : State) : Out :=
  suLanes d [a, b] (fun u l => u.lane a.toNat l &&& u.lane b.toNat l) s

/-- SU_OR (R316). -/
def execSuOr (d a b : BitVec 5) (s : State) : Out :=
  suLanes d [a, b] (fun u l => u.lane a.toNat l ||| u.lane b.toNat l) s

/-- SU_XOR (R316). -/
def execSuXor (d a b : BitVec 5) (s : State) : Out :=
  suLanes d [a, b] (fun u l => u.lane a.toNat l ^^^ u.lane b.toNat l) s

/-- The conversions of R316. -/
def suConvert (c x : Nat) : Nat :=
  match c with
  | 0 => (toInt 32 true .rne (Fmt.fp32.val x)).1
  | 1 => (rnd .fp32 .rne false (Val.ofInt (signed 32 x))).1
  | 2 => (rnd .bf16 .rne false (Fmt.fp32.val x)).1
  | 3 => (rnd .fp32 .rne false (Fmt.bf16.val (x % 2 ^ 16))).1
  | 4 => (rnd .fp32 .rne false (Fmt.fp16.val (x % 2 ^ 16))).1
  | _ => (rnd .fp16 .rne false (Fmt.fp32.val x)).1

/-- SU_CVT (R316): codes 6 to 15 are illegal. -/
def execSuCvt (d a : BitVec 5) (c : BitVec 4) (s : State) : Out :=
  suInstr (regsN [d, a] && c.toNat < 6) (fun _ u =>
    pure (u.setLanes d.toNat fun l => suConvert c.toNat (u.lane a.toNat l))) afterEntry s

/-- SU_RCP (R316, R159). -/
def execSuRcp (d a : BitVec 5) (s : State) : Out :=
  suLanes d [a] (fun u l => (fapprox .fp32 .rcp false (u.lane a.toNat l)).1) s

/-- SU_RSQRT (R316, R159). -/
def execSuRsqrt (d a : BitVec 5) (s : State) : Out :=
  suLanes d [a] (fun u l => (fapprox .fp32 .rsqrt false (u.lane a.toNat l)).1) s

/-- SU_BC (R316). -/
def execSuBc (d a : BitVec 5) (s : State) : Out :=
  suInstr (regsN [d] && a.toNat < 16) (fun _ u =>
    pure (u.setLanes d.toNat fun _ => (u.creg a.toNat).toNat)) afterEntry s

/-- SU_MOV (R316). -/
def execSuMov (d a : BitVec 5) (s : State) : Out := suLanes d [a] (fun u l => u.lane a.toNat l) s

/-- SU_LP1 (R317): a body that passes entry 95, or a loop of level 1 inside another, is illegal. -/
def execSuLp1 (a : BitVec 5) (l : BitVec 11) (s : State) : Out :=
  let u := unitOf s s.curUnit
  let len := l.toNat
  suInstr (a.toNat < 16 && 1 ≤ len && len ≤ 96 && u.entry + len ≤ 95 && u.loop1.isNone)
    (fun _ u => pure { u with idx1 := 0, idx2 := 0 })
    (fun i u =>
      let n := (u.creg a.toNat).toNat
      if n = 0 then { u with entry := i + len + 1 }
      else { u with loop1 := some (i + 1, i + len, n), entry := i + 1 }) s

/-- SU_LP2 (R317): only inside a body of level 1, and ending no later than it does. A skip that passes that
body's last entry ends an iteration of it. -/
def execSuLp2 (a : BitVec 5) (l : BitVec 11) (s : State) : Out :=
  let u := unitOf s s.curUnit
  let len := l.toNat
  let inside := (u.loop1.map fun x => decide (u.entry + len ≤ x.2.1)).getD false
  suInstr (a.toNat < 16 && 1 ≤ len && len ≤ 96 && u.entry + len ≤ 95 && u.loop2.isNone && inside)
    (fun _ u => pure { u with idx2 := 0 })
    (fun i u =>
      let n := (u.creg a.toNat).toNat
      if n = 0 then afterEntry (i + len) u
      else { u with loop2 := some (i + 1, i + len, n), entry := i + 1 }) s

/-- SU_PADD (R316): the offset is a multiple of 4 (R81). -/
def execSuPadd (d a : BitVec 5) (i : BitVec 11) (s : State) : Out :=
  suInstr (d.toNat < 8 && a.toNat < 8 && i.toNat % 4 = 0) (fun _ u =>
    pure { u with p := u.p.setIfInBounds d.toNat (BitVec.ofNat 48 (u.preg a.toNat) + i.signExtend 48) }) afterEntry s

/-- SU_END (R316). -/
def execSuEnd (s : State) : Out :=
  let u := unitOf s s.curUnit
  if u.running.isSome ∧ u.started then .next (unitComplete s.curUnit s) else .next s

/-! ### nmq (R320) -/

/-- NMQ: ALIGN is found at the front; the rest is the N queue's. -/
def execNmq (a b : BitVec 5) (_t : BitVec 3) (s : State) : Out :=
  enterC .n { r1 := some a, r2 := some b, mcfg := false, seed := fun _ => false, kv := false }
    (fun _ x _ => checkAlign (x.getD 0).toNat 64) s

/-- Posts a command to a unit's queue of 16, or waits for room; a unit that is down wakes (R320, R446). -/
def postCommand (un : Nat) (c : SuCmd) : Act Unit := do
  let s ← getS
  let u := unitOf s un
  if 16 ≤ u.queue.length then waitFor .uncounted
  modS (setUnit un { u with queue := u.queue ++ [c], wake := u.wake || u.power ≠ .active })

/-- The N queue takes an `nmq` (R320), its release done (`unitReady`). -/
def nmqAccept (e : CEntry) : Act Unit := do
  let st ← getStrand
  if 256 ≤ e.b.toNat then raise causeAcc e.b.toNat
  let bs ← vsReadBlock (strandPort st 1) e.a.toNat 64
  require (packetOk bs) 6
  let s ← getS
  match packetCounter bs with
  | none => pure ()
  | some k =>
    match ownCounter s st.asid (BitVec.ofNat 64 k) with
    | some c => if c.kind = .free then pure () else raise causeAcc (field bs 4 2)
    | none => raise causeAcc (field bs 4 2)
  postCommand e.b.toNat { asid := st.asid, packet := e.a, bytes := bs
                          root := BitVec.ofNat 64 (strandPort st 1).root, issuer := some st.id, node := none }
  modS (advanceEpoch st.asid)
  modEntry .n e.seq fun x => { x with accepted := true, done := true }

end Sys2Proof.Machine
end

