-- ==== Sys2Proof/Machine/Trig.lean ====
section
/-! DEFINITION. Cosine and sine of an exact rational, correctly rounded to FP32 (R345): fixed-point sums
with an error bound, at growing precision until both ends of the bound round to one code. -/

namespace Sys2Proof.Machine

/-- 2^P × atan(1/n) by its series: `t` is 2^P / n^(2k+1) and `k` the term. -/
def atanSeries (n : Nat) : (fuel k t : Nat) → Int
  | 0, _, _ => 0
  | fuel + 1, k, t =>
    (if k % 2 = 0 then ((t / (2 * k + 1) : Nat) : Int) else -((t / (2 * k + 1) : Nat) : Int)) +
      atanSeries n fuel (k + 1) (t / (n * n))

/-- 2^P × π. -/
def piFix (P : Nat) : Int := 4 * (4 * atanSeries 5 P 0 (2 ^ P / 5) - atanSeries 239 P 0 (2 ^ P / 239))

/-- The terms of the series of sine and cosine at r / 2^P, from term k on: each is the one before it times
−r² / ((k + 1)(k + 2)). -/
def trigSeries (P : Nat) (r2 : Int) : (fuel k : Nat) → (t : Int) → Int
  | 0, _, _ => 0
  | fuel + 1, k, t => t + trigSeries P r2 fuel (k + 2) (-(t * r2 / 2 ^ P) / ((k + 1) * (k + 2) : Nat))

/-- 2^P × cos and 2^P × sin of num / den, and a bound of their errors. -/
def trigFix (P : Nat) (neg : Bool) (num den : Nat) : Int × Int × Int :=
  let phi : Int := (num * 2 ^ P / den : Nat)
  let half := piFix P / 2
  let q := (2 * phi + half) / (2 * half)
  let r := phi - q * half
  let r2 := r * r / 2 ^ P
  let c := trigSeries P r2 P 0 (2 ^ P)
  let s := trigSeries P r2 P 1 r
  let (c', s') := match (q % 4).toNat with
    | 0 => (c, s)
    | 1 => (-s, c)
    | 2 => (-c, -s)
    | _ => (s, -c)
  (c', if neg then -s' else s', (q + 2) * (32 * P))

/-- v / 2^P as a value. -/
def fixVal (P : Nat) (v : Int) : Val := .fin (v < 0) v.natAbs (2 ^ P)

/-- Tries the precisions in turn. -/
def trigTry (pick : Int × Int × Int → Int) (neg : Bool) (num den : Nat) : List Nat → Nat
  | [] => Fmt.fp32.canon
  | P :: ps =>
    let r := trigFix P neg num den
    let lo := (rnd .fp32 .rne false (fixVal P (pick r - r.2.2))).1
    let hi := (rnd .fp32 .rne false (fixVal P (pick r + r.2.2))).1
    if lo = hi ∨ ps = [] then (rnd .fp32 .rne false (fixVal P (pick r))).1 else trigTry pick neg num den ps

/-- The precisions in bits. -/
def trigBits : List Nat := [512, 1024, 2048]

/-- cos φ and sin φ, RNE into FP32. The cosine of 0 is 1 and its sine 0; of a NaN or ∞ both are NaN. -/
def cosFp32 : Val → Nat
  | .fin _ 0 _ => 0x3F800000
  | .fin s n d => trigTry (·.1) s n d trigBits
  | _ => Fmt.fp32.canon

def sinFp32 : Val → Nat
  | .fin s 0 _ => Fmt.fp32.signed s 0
  | .fin s n d => trigTry (·.2.1) s n d trigBits
  | _ => Fmt.fp32.canon

end Sys2Proof.Machine
end

