-- ==== Sys2Proof/Machine/Kv.lean ====
section
/-! DEFINITION. The KV commands of the copy engine and the darner (R334 to R357). -/

namespace Sys2Proof.Machine

/-! ### Entering the C queue (R339) -/

def enterKv (align : Nat) (a : Reg) (s : State) : Out :=
  enterC .c { r1 := some a, r2 := none, mcfg := false, seed := fun _ => false, kv := false }
    (fun _ x _ => checkAlign (x.getD 0).toNat align) s

/-- KVSPLICE (R339, R343). -/
def execKvsplice (a : BitVec 5) (_t : BitVec 3) (s : State) : Out := enterKv 64 a s

/-- A `kvcfg` without reserved values (R63). -/
def kvcfgOk (c : Nat) : Bool := 1 ≤ natBits c 11 8 && natBits c 11 8 ≤ 8 && natBits c 13 12 ≤ 1

/-- KVREPAIR (R339, R348): it captures `kvdev` and `kvcfg`. -/
def execKvrepair (a : BitVec 5) (_t : BitVec 3) (s : State) : Out :=
  enterC .c { r1 := some a, r2 := none, mcfg := false, seed := fun _ => false, kv := true }
    (fun st x _ => do
      require (kvcfgOk st.csr.kvcfg.toNat) 5
      checkAlign (x.getD 0).toNat 128) s

/-- KVCOMMIT (R339, R350). -/
def execKvcommit (a : BitVec 5) (_t : BitVec 3) (s : State) : Out := enterKv 64 a s

/-- KVSEAL (R339, R342). -/
def execKvseal (a : BitVec 5) (_t : BitVec 3) (s : State) : Out := enterKv 64 a s

/-- KVGATHER (R339, R354). -/
def execKvgather (a : BitVec 5) (_t : BitVec 3) (s : State) : Out := enterKv 64 a s

/-! ### Sequences and blocks (R334 to R338) -/

/-- A sequence descriptor (R336): extents are base, length and stride. -/
structure KvSeq where
  t : Nat
  nl : Nat
  h : Nat
  d : Nat
  halves : Bool
  ls : Nat
  rotary : Nat
  docs : Nat
  entries : Nat
  exts : List (Nat × Nat × Nat)
  head : List Byte
  deriving DecidableEq, Repr

/-- BS of R334. -/
def blockBytes (d : Nat) : Nat := ceilDiv (260 * d + 64) 256 * 256

def KvSeq.bs (q : KvSeq) : Nat := blockBytes q.d
def KvSeq.n (q : KvSeq) : Nat := ceilDiv q.t 128

/-- Where the side record of a block begins (R334). -/
def KvSeq.side (q : KvSeq) : Nat := 260 * q.d

def isPow2 (v hi : Nat) : Bool := v ≤ hi && (List.range 25).any fun k => v = 2 ^ k

def extsOf (bs : List Byte) : Nat → Nat → List (Nat × Nat × Nat)
  | _, 0 => []
  | e, n + 1 => (field bs (16 * e) 8, field bs (16 * e + 8) 4, field bs (16 * e + 12) 4) :: extsOf bs (e + 1) n

/-- The limits of extents (R336). -/
def extsOk (minStride : Nat) (l : List (Nat × Nat × Nat)) : Bool :=
  l.all fun (base, len, stride) =>
    base % 256 = 0 && base < 2 ^ 48 && isPow2 len 4096 && stride % 256 = 0 && minStride ≤ stride

/-- A sequence descriptor from its bytes (R336). -/
def seqOf (h : List Byte) : KvSeq :=
  { t := field h 0 4, nl := field h 4 2, h := field h 6 2, d := 64 * 2 ^ field h 8 1, halves := field h 9 1 = 1
    ls := field h 0x10 8, rotary := field h 0x18 8, docs := field h 0x20 8
    entries := field h 0x28 4, exts := extsOf (h.drop 64) 0 (field h 10 2), head := h.take 64 }

/-- The bytes of a sequence descriptor whose header is given. -/
def seqLen (h : List Byte) : Nat := 64 + 16 * field h 10 2

/-- Reads and checks a sequence descriptor (R336, R340): its bytes. -/
def readSeq (p : Port) (va : Nat) : Act (List Byte) := do
  require (va % 64 = 0) 6
  let h ← vsReadBlock p va 64
  let n := field h 10 2
  let q := seqOf h
  require (q.t ≤ 2 ^ 24 && 1 ≤ q.nl && q.nl ≤ 256 && 1 ≤ q.h && q.h ≤ 256 && field h 8 1 ≤ 2 && field h 9 1 ≤ 1 &&
    1 ≤ n && n ≤ 64 && allZero h 12 4 && allZero h 0x2C 20 && q.ls % 2 ^ 18 = 0 && q.rotary % 4 = 0 &&
    q.docs % 64 = 0 && isPow2 q.entries (2 ^ 24)) 6
  let es ← vsReadBlock p (va + 64) (16 * n)
  let exts := extsOf es 0 n
  require (extsOk (q.h * q.bs) exts && q.n ≤ (exts.map fun x => x.2.1).sum) 6
  pure (h ++ es)

/-- The base and stride of a block index's extent, and the index within it (R337). -/
def extentAt : List (Nat × Nat × Nat) → Nat → Option (Nat × Nat × Nat)
  | [], _ => none
  | (base, len, stride) :: es, b => if b < len then some (base, stride, b) else extentAt es (b - len)

/-- The address of block (l, h, b) (R337). -/
def blockAddr (q : KvSeq) (l h b : Nat) : Act Nat :=
  match if b < q.n then extentAt q.exts b else none with
  | some (base, stride, k) => pure (base + l * q.ls + k * stride + h * q.bs)
  | none => raise causeAcc b

/-- Fields of a block's bytes. -/
def validMask (q : KvSeq) (blk : List Byte) : Nat := field blk q.side 16
def slotValid (q : KvSeq) (blk : List Byte) (t : Nat) : Bool := natBits (validMask q blk) t t = 1
def kScale (q : KvSeq) (blk : List Byte) : Nat := field blk (q.side + 0x20) 4
def vScale (q : KvSeq) (blk : List Byte) : Nat := field blk (q.side + 0x24) 4
def repairByte (q : KvSeq) (blk : List Byte) : Nat := field blk (q.side + 0x30) 1
def repairState (b : Nat) : Nat := natBits b 3 1
def isSealed (b : Nat) : Bool := natBits b 0 0 = 1
def withRepair (b st : Nat) : Nat := b - repairState b * 2 + st * 2

/-- Puts bytes over a list at an offset. -/
def patchBytes (bs : List Byte) (off : Nat) (new : List Byte) : List Byte :=
  bs.take off ++ new ++ bs.drop (off + new.length)

/-- Writes the repair state of a block in place (R348, R350 to R353). -/
def setRepair (p : Port) (q : KvSeq) (l h b st : Nat) : Act Unit := do
  let a ← blockAddr q l h b
  let old ← vsReadNat p (a + q.side + 0x30) 1
  vsWriteBlock p (a + q.side + 0x30) (leBytes 1 (withRepair old st))

/-! ### Requantisation and summaries (R341) -/

def v448 : Val := .fin false 448 1

/-- One side of a block under R341: `vals` gives the new values of the valid slots, `carried` the slots that
are carried over. The codes and the scale. -/
def requant (d : Nat) (codes : List Byte) (vals : Nat → Option (Nat → Val)) (carried : Nat → Bool) (old : Nat) :
    List Byte × Nat :=
  let all := ((List.range 128).map fun t => match vals t with
    | some f => (List.range d).map f
    | none => []).flatten
  let a := blockAmax all
  let keep : Bool := match a, Val.mul v448 (Fmt.fp32.val old) with
    | .nan, _ | _, .nan => false
    | x, y => Val.cmp x y ≠ .gt
  let scale := if keep then old else (deriveScale .fp32 a v448).1
  let sv := Fmt.fp32.val scale
  (((List.range 128).map fun t => (List.range d).map fun c => match vals t with
    | some f => if keep && carried t then (codes[t * d + c]?).getD 0
        else BitVec.ofNat 8 (quantise (.flt .e4m3) .rne (f c) sv).1
    | none => 0).flatten, scale)

/-- A K value of a block as its code and scale represent it. -/
def codeVal (scale : Nat) (b : Byte) : Val := Val.mul (Fmt.e4m3.val b.toNat) (Fmt.fp32.val scale)

/-- The least (or greatest) of some values. -/
def extreme (want : Ordering) : List Val → Val
  | [] => .nan
  | v :: vs => vs.foldl (init := v) fun a x => if Val.cmp x a = want then x else a

/-- The page summary of a block (R341). -/
def summary (q : KvSeq) (blk : List Byte) : List Byte :=
  let cols := (List.range q.d).map fun c =>
    ((List.range 128).filter (slotValid q blk)).map fun t => codeVal (kScale q blk) ((blk[t * q.d + c]?).getD 0)
  let bound (none_ : Nat) (want : Ordering) (m : Mode) (vs : List Val) : Nat :=
    if vs = [] then none_ else if vs.any Val.isNan then Fmt.bf16.canon else (rnd .bf16 m false (extreme want vs)).1
  ((cols.map fun vs => leBytes 2 (bound 0x7F80 .lt .rdn vs)).flatten ++
    (cols.map fun vs => leBytes 2 (bound 0xFF80 .gt .rup vs)).flatten)

/-- A block with a fresh summary. -/
def withSummary (q : KvSeq) (blk : List Byte) : List Byte := patchBytes blk (256 * q.d) (summary q blk)

/-! ### kvseal (R342) -/

/-- A step of a KV command: the numbers of a block. -/
structure KvStep where
  b : Nat
  l : Nat
  h : Nat

/-- The blocks of a range in the order b, l, h. -/
def kvSteps (b0 nb l0 nl h0 nh : Nat) : List KvStep :=
  ((List.range nb).map fun b => ((List.range nl).map fun l => (List.range nh).map fun h =>
    ({ b := b0 + b, l := l0 + l, h := h0 + h } : KvStep)).flatten).flatten

/-- One side of an open block quantised from its staging rows. -/
def sealSide (q : KvSeq) (blk raw : List Byte) (side : Nat) : List Byte × Nat :=
  let scale := (deriveScale .fp32 (Fmt.fp32.val (field blk (q.side + 0x28 + 4 * side) 4)) v448).1
  let sv := Fmt.fp32.val scale
  (((List.range 128).map fun t => (List.range q.d).map fun c =>
    if slotValid q blk t then
      BitVec.ofNat 8 (quantise (.flt .e4m3) .rne (Fmt.bf16.val (field raw (256 * q.d * side + 2 * (t * q.d + c)) 2)) sv).1
    else 0).flatten, scale)

/-- Seals one block; a sealed one is left alone. -/
def sealBlock (p : Port) (q : KvSeq) (k : KvStep) : Act Unit := do
  let a ← blockAddr q k.l k.h k.b
  let blk ← vsReadBlock p a q.bs
  if isSealed (repairByte q blk) then pure ()
  else do
    let raw ← vsReadBlock p (field blk (q.side + 0x38) 8) (512 * q.d)
    let (kc, ks) := sealSide q blk raw 0
    let (vc, vs) := sealSide q blk raw 1
    let b1 := patchBytes (patchBytes blk 0 (kc ++ vc)) (q.side + 0x20) (leBytes 4 ks ++ leBytes 4 vs)
    vsWriteBlock p a (withSummary q b1)
    vsWriteBlock p (a + q.side + 0x30) (leBytes 1 (repairByte q blk ||| 1))

/-- The steps of `kvseal`. -/
def sealPlan (q : KvSeq) (d : List Byte) : List KvStep :=
  kvSteps (field d 8 4) (field d 12 4) (field d 0x10 2) (field d 0x12 2) 0 q.h

/-! ### kvsplice (R343 to R346) -/

/-- A document record (R338). -/
structure DocRec where
  w0 : Nat
  version : Nat
  seq : Nat
  n : Nat
  p0 : Nat

/-- The source of a new block (R344). -/
structure SpliceRow where
  newB : Nat
  doc : Bool
  srcB : Nat
  shift : Nat
  mask : Nat

/-- What `kvsplice` works with. -/
structure Splice where
  q : KvSeq
  qd : KvSeq
  out : KvSeq
  docRec : DocRec
  rows : List SpliceRow
  outAddr : Nat

/-- The rows of R344. -/
def spliceRows (q : KvSeq) (r : DocRec) (pos : Nat) : List SpliceRow :=
  let bp := pos / 128
  let o := pos % 128
  let m := ceilDiv r.n 128
  let h1 := if o = 0 then 0 else 1
  let full := 2 ^ 128 - 1
  (if h1 = 1 then [{ newB := bp, doc := false, srcB := bp, shift := 0, mask := 2 ^ o - 1 }] else []) ++
  ((List.range m).map fun j =>
    { newB := bp + h1 + j, doc := true, srcB := r.p0 / 128 + j, shift := 0, mask := full }) ++
  (if h1 = 1 ∧ pos < q.t then
    [{ newB := bp + m + 1, doc := false, srcB := bp, shift := 128 * (m + h1), mask := full - (2 ^ o - 1) }] else []) ++
  (((List.range q.n).filter fun b => bp + h1 ≤ b).map fun b =>
    { newB := b + m + h1, doc := false, srcB := b, shift := 128 * (m + h1), mask := full })

/-- The extents below a block index, the last one cut there (R344). -/
def cutExts : List (Nat × Nat × Nat) → Nat → List (Nat × Nat × Nat)
  | [], _ => []
  | (base, len, stride) :: es, n => if n = 0 then [] else (base, min len n, stride) :: cutExts es (n - len)

/-- A document record from its bytes (R338). -/
def docOf (b : List Byte) : DocRec :=
  { w0 := field b 0 8, version := field b 8 8, seq := field b 0x10 8, n := field b 0x18 4, p0 := field b 0x1C 4 }

/-- What a `kvsplice` works with, from its descriptor and what that names: the document record, the input sequence, the
document's sequence and the destination extents, one after another (R343, R344). -/
def spliceOf (d bs : List Byte) : Splice :=
  let pos := field d 0x18 4
  let r := docOf bs
  let b1 := bs.drop 64
  let q := seqOf b1
  let b2 := b1.drop (seqLen b1)
  let dest := extsOf (b2.drop (seqLen b2)) 0 (field d 0x1C 2)
  let bp := pos / 128
  let h1 := if pos % 128 = 0 then 0 else 1
  let t' := if pos = q.t then 128 * (bp + h1) + r.n else q.t + 128 * (ceilDiv r.n 128 + h1)
  { q := q, qd := seqOf b2, docRec := r, rows := spliceRows q r pos, outAddr := field d 8 8
    out := { q with t := t', exts := cutExts q.exts bp ++ dest } }

/-- Reads what a `kvsplice` descriptor names, with every limit of R343 and every check of R346 but those on
the blocks. -/
def readSplice (p : Port) (d : List Byte) : Act (List Byte) := do
  let pos := field d 0x18 4
  let dn := field d 0x1C 2
  let ctl := field d 0x1E 2
  let setAddr := field d 0x28 8
  require (field d 8 8 % 64 = 0 && field d 0x10 8 % 64 = 0 && 1 ≤ dn && dn ≤ 64 && ctl < 3 &&
    setAddr % 64 = 0 && (ctl ≠ 0 || setAddr = 0) && allZero d 0x30 16) 6
  let qb ← readSeq p (field d 0 8)
  let rb ← vsReadBlock p (field d 0x10 8) 64
  let r := docOf rb
  require (pos ≤ (seqOf qb).t && natBits r.w0 39 0 ≠ 0 && r.w0 < 2 ^ 56 && 1 ≤ r.n && r.n ≤ 2 ^ 24 &&
    allZero rb 0x20 32) 6
  let db ← readSeq p r.seq
  let es ← vsReadBlock p (field d 0x20 8) (16 * dn)
  let bs := rb ++ qb ++ db ++ es
  let x := spliceOf d bs
  let dest := extsOf es 0 dn
  require (extsOk (x.q.h * x.q.bs) dest && x.qd.nl = x.q.nl && x.qd.h = x.q.h && x.qd.d = x.q.d &&
    x.qd.halves = x.q.halves && x.qd.t = r.p0 + r.n && r.p0 % 128 = 0 &&
    (dest.map fun x => x.2.1).sum = x.out.n - pos / 128 && x.out.exts.length ≤ 64) 6
  pure bs

/-- The checks of R346 on the source blocks. -/
def spliceBlocksOk (p : Port) (x : Splice) : Act Unit :=
  x.rows.forM fun r => (kvSteps r.srcB 1 0 x.q.nl 0 x.q.h).forM fun k => do
    let q := if r.doc then x.qd else x.q
    let a ← blockAddr q k.l k.h k.b
    let b ← vsReadNat p (a + q.side + 0x30) 1
    require (isSealed b && (r.doc || (repairState b ≠ 1 && repairState b ≠ 2))) 6

/-- The rotation of a block's K rows by a shift (R345), requantised (R341). -/
def rotateBlock (q : KvSeq) (table : List Byte) (shift : Int) (blk : List Byte) : List Byte :=
  let half := q.d / 2
  let scale := kScale q blk
  let trig := (List.range half).map fun i =>
    let phi := Val.mul (Val.ofInt shift) (Fmt.fp32.val (field table (4 * i) 4))
    (Fmt.fp32.val (cosFp32 phi), Fmt.fp32.val (sinFp32 phi))
  let x (t c : Nat) : Val := codeVal scale ((blk[t * q.d + c]?).getD 0)
  let y (t c : Nat) : Val :=
    let (i, second) := if q.halves then (c % half, decide (half ≤ c)) else (c / 2, decide (c % 2 = 1))
    let (c0, c1) := if q.halves then (i, i + half) else (2 * i, 2 * i + 1)
    let (cs, sn) := trig.getD i (.nan, .nan)
    let v := if second then Val.add false (Val.mul (x t c0) sn) (Val.mul (x t c1) cs)
      else Val.add false (Val.mul (x t c0) cs) (Val.mul (x t c1) sn).neg
    Fmt.fp32.val (rnd .fp32 .rne false v).1
  let (codes, s) := requant q.d (blk.take (128 * q.d))
    (fun t => if slotValid q blk t then some (y t) else none) (fun _ => false) scale
  patchBytes (patchBytes blk 0 codes) (q.side + 0x20) (leBytes 4 s)

/-- The position shift of a row (R344). -/
def SpliceRow.delta (x : Splice) (r : SpliceRow) : Int :=
  if r.doc then 128 * (((x.rows.find? fun y => y.doc).map fun y => y.newB).getD 0 : Nat) - (x.docRec.p0 : Int) else r.shift

/-- One block of a splice (R344). -/
def spliceBlock (p : Port) (x : Splice) (r : SpliceRow) (l h : Nat) : Act Unit := do
  let q := if r.doc then x.qd else x.q
  let a ← blockAddr q l h r.srcB
  let blk ← vsReadBlock p a q.bs
  let o := q.side
  let w10 := field blk (o + 0x10) 8
  let w10' := if r.doc then natBits x.docRec.w0 55 0 + 2 ^ 56
    else if r.shift ≠ 0 ∧ natBits w10 59 56 = 0 then w10 + 2 * 2 ^ 56 else w10
  let version := if r.doc then x.docRec.version else field blk (o + 0x18) 8
  let b1 := patchBytes blk o (leBytes 16 (validMask q blk &&& r.mask) ++ leBytes 8 w10' ++ leBytes 8 version)
  let b2 := patchBytes b1 (o + 0x30) (leBytes 1 (withRepair (repairByte q blk) 0))
  let shift := r.delta x
  let table ← if shift = 0 then pure [] else vsReadBlock p x.q.rotary (2 * x.q.d)
  let b3 := if shift = 0 then b2 else rotateBlock x.q table shift b2
  let dst ← blockAddr x.out l h r.newB
  vsWriteBlock p dst (withSummary x.q b3)

/-- The output descriptor (R344). -/
def outDescriptor (x : Splice) : List Byte :=
  patchBytes (patchBytes x.q.head 0 (leBytes 4 x.out.t)) 10 (leBytes 2 x.out.exts.length) ++
  (x.out.exts.map fun (a, n, st) => leBytes 8 a ++ leBytes 4 n ++ leBytes 4 st).flatten

/-! ### Sessions (R347 to R353) -/

/-- A session record's fields (R347). -/
structure SessRec where
  q : KvSeq
  b0 : Nat
  blocks : Nat
  buf : Nat
  list : Nat
  target : Nat
  state : Nat
  next : Nat
  ns : Nat
  dev : Nat
  cfg : Nat

def SessRec.f (r : SessRec) : Nat := natBits r.cfg 7 0
def SessRec.c (r : SessRec) : Nat := natBits r.cfg 11 8
def SessRec.both (r : SessRec) : Bool := natBits r.cfg 13 12 = 1

/-- A session from the bytes of its record and of its sequence descriptor (R347). -/
def sessionOf (r qb : List Byte) : SessRec :=
  { q := seqOf qb, b0 := field r 8 4, blocks := field r 12 4, buf := field r 0x10 8, list := field r 0x18 8
    target := field r 0x20 1, state := field r 0x40 4, next := field r 0x44 4, ns := field r 0x48 4
    dev := field r 0x50 4, cfg := field r 0x54 4 }

/-- Reads a session record and its sequence descriptor: the bytes of both. -/
def readSession (p : Port) (addr : Nat) : Act (List Byte × List Byte) := do
  let r ← vsReadBlock p addr 128
  let q ← readSeq p (field r 0 8)
  pure (r, q)

/-- The limits of R347 on what software writes. -/
def sessionOk (bs : List Byte) (r : SessRec) : Bool :=
  1 ≤ r.blocks && r.blocks ≤ 32 && r.buf % 64 = 0 && r.list % 256 = 0 && r.target ≤ 3 &&
    allZero bs 0x21 31 && allZero bs 0x60 32

/-- The spliced tokens: positions of valid slots by the masks of layer F, head 0 (R347). -/
def splicedTokens (p : Port) (r : SessRec) (f : Nat) : Act (List Nat) := do
  let parts ← (List.range r.blocks).mapM fun k => do
    let a ← blockAddr r.q f 0 (r.b0 + k)
    let m ← vsReadBlock p (a + r.q.side) 16
    pure (((List.range 128).filter fun t => natBits (leNat m) t t = 1).map fun t => 128 * (r.b0 + k) + t)
  pure parts.flatten

/-- The session blocks of a range of layers. -/
def sessionSteps (r : SessRec) (l0 nl : Nat) : List KvStep := kvSteps r.b0 r.blocks l0 nl 0 r.q.h

/-- The checks of step 1 of R348 on the session blocks. -/
def sessionBlocksOk (p : Port) (r : SessRec) (f : Nat) : Act Unit :=
  (sessionSteps r f (r.q.nl - f)).forM fun k => do
    let a ← blockAddr r.q k.l k.h k.b
    let x ← vsReadBlock p (a + r.q.side) 0x31
    let a0 ← blockAddr r.q f 0 k.b
    let m ← vsReadBlock p (a0 + r.q.side) 16
    let b := field x 0x30 1
    require (isSealed b && repairState b ≠ 1 && repairState b ≠ 2 && x.take 16 = m) 6

/-- The session whose record lies at a physical address (R347). -/
def findSession (s : State) (pa : Nat) : Option Session := s.hub.sessions.find? fun x => x.place = pa

def modSession (pa : Nat) (f : Session → Session) : Act Unit := modHub fun h =>
  { h with sessions := listUpd (fun x => x.place = pa) f h.sessions }

/-- The physical address of a record. -/
def recordPlace (p : Port) (va : Nat) : Act Nat := do
  let pl ← translate p va .load
  pure (canonical pl.pa)

/-- The commits in progress of a session, stopped ones too, with their strands (R351): such a command keeps the place
of the record in `pos`. -/
def commitsOf (s : State) (pa : Nat) : List (Strand × CEntry) :=
  (allAgents s).flatMap fun t => ((t.cq ++ t.dumpedE).filter fun e =>
    cmdOf e.word = 0x42 && e.prog.pos = [pa]).map fun e => (t, e)

/-- |buffer value − code × scale| of a token over the channels of one side (R349), the largest; NaN wins. -/
def deviation (d : Nat) (codes row : List Byte) (scale t : Nat) : Val :=
  blockAmax ((List.range d).map fun c =>
    (Val.add false (Fmt.fp32.val (field row (4 * c) 4)) (codeVal scale ((codes[t * d + c]?).getD 0)).neg).abs)

/-- The larger of two deviations. -/
def maxDev (a b : Val) : Val := if a.isNan || b.isNan then .nan else if Val.cmp a b = .lt then b else a

/-- The deviations of the spliced tokens in a check layer (R349). -/
def measure (p : Port) (r : SessRec) (layer : Nat) (toks : List Nat) : Act (List Val) :=
  toks.zipIdx.mapM fun (pos, j) => do
    let hs ← (List.range r.q.h).mapM fun h => do
      let a ← blockAddr r.q layer h (pos / 128)
      let blk ← vsReadBlock p a r.q.bs
      let row ← vsReadBlock p (r.buf + (h * toks.length + j) * 8 * r.q.d) (8 * r.q.d)
      let dk := deviation r.q.d blk row (kScale r.q blk) (pos % 128)
      let dv := deviation r.q.d (blk.drop (128 * r.q.d)) (row.drop (4 * r.q.d)) (vScale r.q blk) (pos % 128)
      pure (if r.both then maxDev dk dv else dk)
    pure (hs.foldl maxDev Val.zero)

/-- Whether a deviation marks its token (R349, R62). -/
def marksToken (dev : Val) (kvdev : Nat) : Bool :=
  let k := Fmt.fp32.val kvdev
  !k.isNan && (dev.isNan || Val.cmp dev k = .gt)

def bitmapOf (p : Port) (r : SessRec) : Act Nat := do
  let b ← vsReadBlock p (r.list + 0x8200) (ceilDiv r.ns 8)
  pure (leNat b)

/-- The marked tokens. -/
def markedOf (bits : Nat) (toks : List Nat) : List Nat :=
  (toks.zipIdx.filter fun (_, j) => natBits bits j j = 1).map (·.1)

/-- The pages of a set as base and log2 size, by the level of each entry's slot (R350, R280). -/
def setPages (p : Port) (setAddr : Nat) : Act (List (Nat × Nat)) := do
  let n ← vsReadNat p setAddr 4
  if n < 1 ∨ 64 < n then pure []
  else (List.range n).mapM fun j => do
    let va ← vsReadNat p (setAddr + 0x40 + 32 * j) 8
    let slot ← if 2 ^ 48 ≤ va then pure none else findSlot p va 3 p.root
    pure (va, match slot with
      | some (_, 2, _) => 28
      | _ => 18)

/-- The pages are exactly those that hold a byte of a session block of the layer (R350). -/
def pagesMatch (r : SessRec) (layer : Nat) (pages : List (Nat × Nat)) : Act Bool := do
  let spans ← (sessionSteps r layer 1).mapM fun k => do
    let a ← blockAddr r.q k.l k.h k.b
    pure (a, a + r.q.bs)
  let holds (pg : Nat × Nat) (x : Nat × Nat) : Bool := pg.1 < x.2 && x.1 < pg.1 + 2 ^ pg.2
  pure (decide pages.Nodup && pages.all (fun pg => pg.1 % 2 ^ pg.2 = 0 && spans.any (holds pg)) &&
    spans.all fun x => (touched (2 ^ 18) x.1 (x.2 - x.1)).all fun g =>
      pages.any fun pg => pg.1 ≤ g * 2 ^ 18 && g * 2 ^ 18 < pg.1 + 2 ^ pg.2)

/-- A session fails (R351). -/
def failSession (p : Port) (pa addr : Nat) (r : SessRec) (reason layer : Nat) : Act Unit := do
  (sessionSteps r layer (r.q.nl - layer)).forM fun k => setRepair p r.q k.l k.h k.b 4
  vsWriteBlock p (addr + 0x5C) (leBytes 4 reason)
  vsWriteBlock p (addr + 0x40) (leBytes 4 5)
  modHub fun h => { h with sessions := h.sessions.filter fun x => x.place ≠ pa }

/-- What a commit does before its first block (R350, 1 to 3). True when the pages match. -/
def commitBegin (p : Port) (pa addr : Nat) (bs : List Byte) (r : SessRec) (layer setAddr shadow : Nat) : Act Bool := do
  (sessionSteps r layer 1).forM fun k => setRepair p r.q k.l k.h k.b 2
  let toks ← splicedTokens p r r.f
  if layer < r.f + r.c then
    let devs ← measure p r layer toks
    let old ← bitmapOf p r
    let bits := devs.zipIdx.foldl (init := old) fun b (dv, j) => if marksToken dv r.dev then b ||| 2 ^ j else b
    vsWriteBlock p (r.list + 0x8200) (leBytes (ceilDiv r.ns 8) bits)
    vsWriteBlock p (addr + 0x4C) (leBytes 4 (markedOf bits toks).length)
    vsWriteBlock p (addr + 0x58) (leBytes 4
      (rnd .fp32 .rup false (devs.foldl maxDev (Fmt.fp32.val (field bs 0x58 4)))).1)
  let pages ← setPages p setAddr
  if !(← pagesMatch r layer pages) then
    vsWriteBlock p (setAddr + 8) (leBytes 4 4 ++ leBytes 4 (16 * 256))
    modS (emitPublish p setAddr 4)
    failSession p pa addr r 16 layer
    pure false
  else do
    pages.forM fun (va, lg) => do
      let b ← vsReadBlock p va (2 ^ lg)
      vsWriteBlock p ((va + shadow) % 2 ^ 64) b
    pure true

/-- One block of a commit, written anew into its copied page (R350, 4). -/
def commitBlock (p : Port) (r : SessRec) (layer shadow : Nat) (k : KvStep) : Act Unit := do
  let q := r.q
  let toks ← splicedTokens p r r.f
  let bits ← bitmapOf p r
  let rows := if layer < r.f + r.c then toks else markedOf bits toks
  let a0 ← blockAddr q layer k.h k.b
  let a := (a0 + shadow) % 2 ^ 64
  let blk ← vsReadBlock p a q.bs
  let new (t : Nat) : Option Nat := rows.findIdx? fun pos => pos = 128 * k.b + t
  let bufs ← (List.range 128).mapM fun t => match new t with
    | some j => vsReadBlock p (r.buf + (k.h * rows.length + j) * 8 * q.d) (8 * q.d)
    | none => pure []
  let side (n scale : Nat) : List Byte × Nat :=
    let codes := (blk.drop (128 * q.d * n)).take (128 * q.d)
    requant q.d codes (fun t => if !slotValid q blk t then none
      else if (new t).isSome then some fun c => Fmt.fp32.val (field (bufs.getD t []) (4 * (n * q.d + c)) 4)
      else some fun c => codeVal scale ((codes[t * q.d + c]?).getD 0)) (fun t => (new t).isNone) scale
  let (kc, ks) := side 0 (kScale q blk)
  let (vc, vs) := side 1 (vScale q blk)
  let b1 := patchBytes (patchBytes blk 0 (kc ++ vc)) (q.side + 0x20) (leBytes 4 ks ++ leBytes 4 vs)
  let w10 := field b1 (q.side + 0x10) 8
  let hit := (List.range 128).any fun t => slotValid q blk t && (new t).isSome
  let b2 := if hit then patchBytes b1 (q.side + 0x10) (leBytes 8 (w10 - natBits w10 59 56 * 2 ^ 56 + 3 * 2 ^ 56)) else b1
  let b3 := patchBytes b2 (q.side + 0x30) (leBytes 1 (withRepair (repairByte q blk) 3))
  vsWriteBlock p a (withSummary q b3)

/-- What the darner still has to do after a layer is installed (R352): the layers of lists to write, or the
closing header, numbered 2^32 − 1. -/
def darnerWork (r : SessRec) (marked layer : Nat) : List Word :=
  let x := r.f + r.c
  if layer + 1 = x then
    if marked = 0 ∨ r.q.nl ≤ x then [0xFFFFFFFF#64]
    else ([x, x + 1].filter fun l => l < r.q.nl).map (BitVec.ofNat 64)
  else if x ≤ layer ∧ layer + 2 < r.q.nl then [BitVec.ofNat 64 (layer + 2)]
  else []

/-- A layer of a session is installed (R350, R352): the next layer, the state, and what the darner has to do. -/
def layerInstalled (d : Session) : Act Unit := do
  let p := contextPort d.asid d.root.toNat false 4 none
  let addr := d.addr.toNat
  let layer := d.layer
  let (bs, qb) ← readSession p addr
  let r := sessionOf bs qb
  vsWriteBlock p (addr + 0x44) (leBytes 4 (layer + 1))
  let work := darnerWork r (field bs 0x4C 4) layer
  if layer + 1 = r.f + r.c then vsWriteBlock p (addr + 0x40) (leBytes 4 2)
  if layer + 1 = r.q.nl ∧ r.f + r.c ≤ layer then vsWriteBlock p (addr + 0x40) (leBytes 4 3)
  modSession d.place fun x => { x with pending := x.pending ++ work, set := 0 }

/-- The queue that a session's tokens go to (R347). -/
def sessionTarget (t : Nat) : Queue := if t = 0 then .s else if t = 1 then .v else if t = 2 then .m else .n

/-- The next list of a session, or its closing header, is written (R352). -/
def writeList (p : Port) (d : Session) (r : SessRec) (x : Word) : Act Unit := do
  let slot (l : Nat) : Nat := r.list + 0x4100 * (l % 2)
  if x = 0xFFFFFFFF#64 then
    (sessionSteps r (r.f + r.c) (r.q.nl - (r.f + r.c))).forM fun k => setRepair p r.q k.l k.h k.b 3
    vsWriteBlock p (slot (r.f + r.c)) (leBytes 4 0xFFFFFFFF ++ leBytes 12 0)
    vsWriteBlock p (d.addr.toNat + 0x40) (leBytes 4 3)
  else
    let toks ← splicedTokens p r r.f
    let bits ← bitmapOf p r
    let l := markedOf bits toks
    vsWriteBlock p (slot x.toNat) (leBytes 4 x.toNat ++ leBytes 4 l.length ++ leBytes 8 0 ++ (l.map (leBytes 4)).flatten)

/-- The owner's counter from C gets the token of a written list (R352), also after a save has written the counters. -/
def listToken (o : Strand) (q : Queue) (s : State) : State :=
  emitStrand o 4 (Queue.c.code + 8 * q.code + 128 * (tokens o .c q + 1).toNat)
    (updStrand o.id (fun t => { setTokens t .c q (tokens t .c q + 1) with
      lateLists := if t.state = .saved ∨ (t.state = .saving ∧ 6 < t.saveSec) then t.lateLists ++ [q] else t.lateLists }) s)

/-- DARNER_LIST_WRITE: the next list of a session is written, and its token pushed into the owner's counter from
C; at 15 tokens the darner waits (R352). A session that no known strand owns has no counter to push into. -/
def execDarnerListWrite (n : Nat) (s : State) : Out :=
  match s.hub.sessions[n]? with
  | none => .next s
  | some d =>
    match d.pending with
    | [] => .next s
    | x :: rest =>
      let p := contextPort d.asid d.root.toNat false 4 none
      let work : Act Unit := do
        let (bs, qb) ← readSession p d.addr.toNat
        let r := sessionOf bs qb
        let q := sessionTarget r.target
        let owner := d.owner.bind (findStrand s)
        if (owner.map fun o => decide (tokens o .c q = 15)).getD false then waitFor .uncounted
        writeList p d r x
        match owner with
        | some o => modS (listToken o q)
        | none => pure ()
        modHub fun h => { h with sessions := listSet h.sessions n { d with pending := rest } }
      match work s with
      | (.ok _, s') => .next s'
      | (.error _, _) => .next s

/-- REPAIR_SESSION_ABANDON: the owner has exited or been cancelled in state 1 or 2 (R353). Its commits stop, as they
find no session any more. -/
def execRepairSessionAbandon (n : Nat) (s : State) : Out :=
  match s.hub.sessions[n]? with
  | none => .next s
  | some d =>
    let gone : Bool := match d.owner with
      | none => false
      | some i => match findStrand s i with
        | some o => o.state = .exited
        | none => true
    if !gone then .next s else
    let p := contextPort d.asid d.root.toNat false 4 none
    let s0 := { s with hub := { s.hub with sessions := listDel s.hub.sessions n } }
    let work : Act Unit := do
      let (bs, qb) ← readSession p d.addr.toNat
      let r := sessionOf bs qb
      if r.state = 1 ∨ r.state = 2 then
        (commitsOf s d.place).forM fun (_, e) => do
          let a := commitSet e
          let st ← tryTrap (vsReadNat p (a + 8) 4)
          if st = .ok 0 ∨ st = .ok 1 then
            vsWriteBlock p (a + 8) (leBytes 4 3)
            modS (emitSet a 3)
            modHub fun h => { h with sets := h.sets.filter fun x => !(x.addr.toNat = a && x.asid = d.asid) }
        (sessionSteps r r.next (r.q.nl - r.next)).forM fun k => setRepair p r.q k.l k.h k.b 4
        vsWriteBlock p (d.addr.toNat + 0x40) (leBytes 4 4)
    .next (work s0).2

/-! ### kvgather (R354 to R356) -/

/-- The pages that a gather has translated: the page of a virtual address to its place (R356). -/
def gatherPage (pl : Place) (va : Nat) : Word :=
  BitVec.ofNat 64 (pl.pa - va % 2 ^ 18 + pl.key * 2 ^ 52 + (if pl.foreign then 2 ^ 62 else 0))

def gatherPlace (w : Word) (va : Nat) : Place :=
  { pa := natBits w.toNat 51 0 + va % 2 ^ 18, key := natBits w.toNat 61 52, foreign := w.getLsbD 62 }

/-- Reads a block through the translations of acceptance. -/
def gatherRead (p : Port) (pages : SMap Word) (va n : Nat) : Act (List Byte) := do
  let parts ← (pagePieces va n).mapM fun (a, k) => do
    if (smGet pages (a / 2 ^ 18)).isNone then raise causePf a
    let pl := gatherPlace (smRead 0 pages (a / 2 ^ 18)) a
    checkPlace p a k false pl
    checkWatch p 0 a k true false
    checkRace p a pl.pa k false
    let s ← getS
    if placePoisoned s pl k then raisePoison p pl.pa a
    readPlace pl k
  pure parts.flatten

/-- The limits of R354. -/
def gatherOk (q : KvSeq) (d : List Byte) : Bool :=
  let fl := field d 0x1A 2
  field d 8 8 % 4 = 0 && 1 ≤ field d 0x10 4 && field d 0x10 4 ≤ 4096 && field d 0x14 2 < q.nl &&
  field d 0x16 2 + field d 0x18 2 ≤ q.h && fl < 64 && natBits fl 3 2 ≤ 1 && natBits fl 5 4 ≤ 2 &&
  allZero d 0x1C 4 && field d 0x20 8 % 64 = 0 && allZero d 0x28 24

/-- The blocks of a gather, one per step. -/
def gatherPlan (d list : List Byte) : List KvStep :=
  ((List.range (field d 0x10 4)).map fun i => (List.range (field d 0x18 2)).map fun h =>
    ({ b := field list (4 * i) 4, l := field d 0x14 2, h := field d 0x16 2 + h } : KvStep)).flatten

/-- The test of a checked step (R355). -/
def gatherCheck (p : Port) (q : KvSeq) (d : List Byte) (k : KvStep) (side : List Byte) : Act Unit := do
  let fl := field d 0x1A 2
  let w10 := field side 0x10 8
  let origin := natBits w10 59 56
  let id := natBits w10 39 0
  let stale (why : Nat) : Act Unit := raise causeStalekv (k.b * 2 ^ 32 + k.h * 2 ^ 16 + k.l % 256 * 2 ^ 8 + why)
  if natBits fl 0 0 = 1 ∧ (origin = 1 ∨ origin = 3) then
    let r ← vsReadBlock p (q.docs + 64 * (id % q.entries)) 16
    if natBits (field r 0 8) 39 0 ≠ id then stale 3
    if field r 8 8 ≠ field side 0x18 8 then stale 1
  let rs := repairState (field side 0x30 1)
  if natBits fl 1 1 = 1 ∧ (rs = 1 ∨ rs = 2 ∨ rs = 4) then stale 2

/-- The record of a block in BF16 (R354). -/
def bf16Side (q : KvSeq) (blk : List Byte) (side scale : Nat) : List Byte :=
  ((List.range 128).map fun t => ((List.range q.d).map fun c =>
    leBytes 2 (if slotValid q blk t then
      (rnd .bf16 .rne false (codeVal scale ((blk[128 * q.d * side + t * q.d + c]?).getD 0))).1 else 0)).flatten).flatten

/-- One record of a gather (R354, R355). -/
def gatherStep (p : Port) (q : KvSeq) (d : List Byte) (pages : SMap Word) (n : Nat) (k : KvStep) : Act Unit := do
  let a ← blockAddr q k.l k.h k.b
  let blk ← gatherRead p pages a q.bs
  let side := (blk.drop q.side).take 64
  gatherCheck p q d k side
  let fl := field d 0x1A 2
  let codes : Bool := natBits fl 3 2 = 0
  let out := if codes then
      (side.drop 0x20).take 8 ++ leBytes 8 0 ++ side.take 16 ++ (side.drop 0x10).take 16 ++ leBytes 16 0 ++ blk.take (256 * q.d)
    else bf16Side q blk 0 (kScale q blk) ++ bf16Side q blk 1 (vScale q blk)
  let size := if codes then 64 + 256 * q.d else 512 * q.d
  spaceWrite p (natBits fl 5 4) (field d 0x20 8 + n * size) out

/-! ### Acceptance and steps -/

/-- A KV command is accepted with what it has read: its descriptor, and what that names (R339). -/
def keepDesc (e : CEntry) (desc list : List Byte) : Act Unit :=
  modEntry .c e.seq fun x => { x with accepted := true, prog := { x.prog with desc := desc, list := list } }

/-- A `kvcommit` is accepted (R350, R351): the session's state first, then the order. -/
def commitAccept (e : CEntry) (p : Port) (d : List Byte) : Act Unit := do
  let st ← getStrand
  let sess := field d 0 8
  let layer := field d 8 4
  let setAddr := field d 0x10 8
  require (sess % 128 = 0 && allZero d 12 4 && setAddr % 64 = 0 && allZero d 0x20 32) 6
  let pa ← recordPlace p sess
  let s ← getS
  match findSession s pa with
  | some x => if x.pending ≠ [] then waitFor .uncounted
  | none => pure ()
  let (bs, qb) ← readSession p sess
  let r := sessionOf bs qb
  require (r.state = 1 || r.state = 2) 6
  if layer ≠ r.next ∨ commitsOf s pa ≠ [] then
    raise causeReport (sess / 128 % 2 ^ 16 * 2 ^ 16 + r.next % 256 * 2 ^ 8 + layer % 256)
  joinSet .c e p 1 setAddr
  if (findSession s pa).isNone then
    modHub fun h => { h with sessions := h.sessions ++ [{ addr := BitVec.ofNat 64 sess, asid := st.asid
                                                          root := BitVec.ofNat 64 p.root, owner := none, pending := []
                                                          place := pa, set := 0, layer := 0 }] }
  keepDesc e d (bs ++ qb)
  modEntry .c e.seq fun x => { x with step := 0, prog := { x.prog with pos := [pa] } }

/-- A KV command that was stopped goes on with what it has read (R339, R348): a commit begins again at step 0, or waits
for the set that it has published (R350). -/
def kvResume (e : CEntry) : Act Unit :=
  modEntry .c e.seq fun x => { x with
    accepted := true
    step := if cmdOf e.word = 0x42 then 0 else x.step
    done := x.done || (cmdOf e.word = 0x42 && (publishedSet x).isSome) }

/-- Acceptance of a KV command (R340). -/
def kvAccept (e : CEntry) : Act Unit := do
  let p ← enginePort 4
  if e.prog.desc ≠ [] then kvResume e
  else match cmdOf e.word with
  | 0x40 => do
    let d ← vsReadBlock p e.a.toNat 64
    let bs ← readSplice p d
    if e.step = 0 then spliceBlocksOk p (spliceOf d bs)
    joinSet .c e p (field d 0x1E 2) (field d 0x28 8)
    keepDesc e d bs
  | 0x41 => do
    let (bs, qb) ← readSession p e.a.toNat
    let r := sessionOf bs qb
    let cfg := natBits e.b.toNat 45 32
    let f := natBits cfg 7 0
    require (kvcfgOk cfg) 5
    if e.step = 0 then
      require (sessionOk bs r && r.state = 0 && f + natBits cfg 11 8 ≤ r.q.nl) 6
      let toks ← splicedTokens p r f
      require (toks.length ≤ 4096) 6
      sessionBlocksOk p r f
    keepDesc e bs qb
  | 0x42 => do
    let d ← vsReadBlock p e.a.toNat 64
    commitAccept e p d
  | 0x43 => do
    let d ← vsReadBlock p e.a.toNat 64
    let qb ← readSeq p (field d 0 8)
    require (1 ≤ field d 12 4 && field d 12 4 ≤ 4096 &&
      field d 0x10 2 + field d 0x12 2 ≤ (seqOf qb).nl && allZero d 0x14 44) 6
    keepDesc e d qb
  | _ => do
    let d ← vsReadBlock p e.a.toNat 64
    let qb ← readSeq p (field d 0 8)
    let q := seqOf qb
    let st ← getStrand
    require (gatherOk q d && spaceAllowed st (natBits (field d 0x1A 2) 5 4)) 6
    let list ← vsReadBlock p (field d 8 8) (4 * field d 0x10 4)
    let pages ← (gatherPlan d list).mapM fun k => do
      let a ← blockAddr q k.l k.h k.b
      (pagePieces a q.bs).mapM fun (va, _) => do
        let pl ← translate p va .load
        pure (va / 2 ^ 18, gatherPage pl va)
    let seen := pages.flatten.foldl (init := ([] : SMap Word)) fun m (k, w) => smSet m k w
    keepDesc e d (qb ++ list)
    modEntry .c e.seq fun x => { x with prog := { x.prog with vals := seen } }

/-- The last step of a `kvrepair` (R348, 3 and 4). -/
def openSession (e : CEntry) (p : Port) (r : SessRec) (f : Nat) : Act Unit := do
  let st ← getStrand
  let toks ← splicedTokens p r f
  let addr := e.a.toNat
  vsWriteBlock p (addr + 0x44) (leBytes 4 f ++ leBytes 4 toks.length ++ leBytes 4 0 ++ leBytes 4 (natBits e.b.toNat 31 0) ++
    leBytes 4 (natBits e.b.toNat 45 32) ++ leBytes 8 0 ++ List.replicate 32 0)
  vsWriteBlock p (r.list + 0x8200) (List.replicate (ceilDiv toks.length 8) 0)
  vsWriteBlock p (addr + 0x40) (leBytes 4 1)
  let pa ← recordPlace p addr
  let x : Session := { addr := e.a, asid := st.asid, root := BitVec.ofNat 64 p.root, owner := some st.id
                       pending := [], place := pa, set := 0, layer := 0 }
  modHub fun h => { h with sessions := h.sessions.filter (fun y => y.place ≠ pa) ++ [x] }

/-- The end of a commit (R350, 5): the set is validated, or the session fails. -/
def commitEnd (e : CEntry) (p : Port) (pa sess layer setAddr : Nat) (r : SessRec) : Act Unit := do
  publishOnce .c e p setAddr
  let state ← vsReadNat p (setAddr + 8) 4
  if state = 4 then
    let why ← vsReadNat p (setAddr + 13) 1
    allOrNone (failSession p pa sess r why layer)
  else modSession pa fun x => { x with set := BitVec.ofNat 64 setAddr, layer := layer }
  modEntry .c e.seq fun x => { x with done := true }

/-- A step of a `kvsplice` (R344): a block, the output descriptor, or the publication that mode 10 adds. -/
def spliceStep (e : CEntry) (p : Port) : Act Unit := do
  let d := e.prog.desc
  let x := spliceOf d e.prog.list
  let per := x.q.nl * x.q.h
  let publishes : Bool := field d 0x1E 2 = 2
  match x.rows[e.step / per]? with
  | some r => do
    allOrNone (spliceBlock p x r (e.step % per / x.q.h) (e.step % x.q.h))
    stepDone .c e false
  | none =>
    if e.step = x.rows.length * per then do
      allOrNone (vsWriteBlock p x.outAddr (outDescriptor x))
      stepDone .c e (!publishes)
    else do
      if publishes then publishOnce .c e p (field d 0x28 8)
      modEntry .c e.seq fun y => { y with done := true }

/-- A step of a `kvrepair` (R348): a block, or the opening of the session. -/
def repairStep (e : CEntry) (p : Port) : Act Unit := do
  let r := sessionOf e.prog.desc e.prog.list
  let f := natBits e.b.toNat 39 32
  match (sessionSteps r f (r.q.nl - f))[e.step]? with
  | some k => do
    allOrNone (setRepair p r.q k.l k.h k.b 1)
    stepDone .c e false
  | none => do
    allOrNone (openSession e p r f)
    stepDone .c e true

/-- A step of a `kvcommit` (R350): block k in step k, the first after what precedes them all, then the end. A commit of a
session that has been abandoned or has failed does nothing more (R353). -/
def commitStep (e : CEntry) (p : Port) : Act Unit := do
  let d := e.prog.desc
  let bs := e.prog.list.take 128
  let r := sessionOf bs (e.prog.list.drop 128)
  let sess := field d 0 8
  let layer := field d 8 4
  let shadow := field d 0x18 8
  let pa := e.prog.pos.headD 0
  let s ← getS
  if (findSession s pa).isNone then stepDone .c e true
  else match (sessionSteps r layer 1)[e.step]? with
    | some k => allOrNone do
      let ok ← if e.step = 0 then commitBegin p pa sess bs r layer (field d 0x10 8) shadow else pure true
      if ok then commitBlock p r layer shadow k
      stepDone .c e (!ok)
    | none => commitEnd e p pa sess layer (field d 0x10 8) r

/-- A step of a `kvseal` (R342). -/
def sealStep (e : CEntry) (p : Port) : Act Unit := do
  let d := e.prog.desc
  let q := seqOf e.prog.list
  match (sealPlan q d)[e.step]? with
  | some k => do
    allOrNone (sealBlock p q k)
    stepDone .c e ((sealPlan q d).length ≤ e.step + 1)
  | none => stepDone .c e true

/-- A step of a `kvgather` (R354). -/
def gatherNext (e : CEntry) (p : Port) : Act Unit := do
  let d := e.prog.desc
  let qb := e.prog.list
  let plan := gatherPlan d (qb.drop (seqLen qb))
  match plan[e.step]? with
  | some k => do
    allOrNone (gatherStep p (seqOf qb) d e.prog.vals e.step k)
    stepDone .c e (plan.length ≤ e.step + 1)
  | none => stepDone .c e true

/-- One step of a KV command (R340). -/
def kvStep (e : CEntry) : Act Unit := do
  let p ← enginePort 4
  match cmdOf e.word with
  | 0x40 => spliceStep e p
  | 0x41 => repairStep e p
  | 0x42 => commitStep e p
  | 0x43 => sealStep e p
  | _ => gatherNext e p

/-- KV_STEP: the copy engine writes the next block of the strand's KV command, when it is the strand's turn (R340,
R387). -/
def execKvStep (s : State) : Out :=
  match copyWork s.strand with
  | none => .next s
  | some e =>
    let cmd := cmdOf e.word
    if !engineLive s || !myTurn s 2 (copyWants s) || cmd < 0x40 || 0x44 < cmd then .next s
    else serve s 2 (engineWork .c false 0 e (kvStep e) s)

/-! ### Installation (R281) -/

/-- A layer whose commit waits for a set is installed with it (R350, 6). -/
def commitsInstalled (addr : Nat) (asid : BitVec 12) (s : State) : State :=
  s.hub.sessions.foldl (init := s) fun s d =>
    let waits : Bool := (commitsOf s d.place).any fun (_, e) => e.prog.set.toNat = addr + 1
    if d.asid = asid && d.set.toNat = addr && waits then (layerInstalled d s).2 else s

/-- PUBLISH_INSTALLATION: set number n is in state 1 and has no writer left; every entry is installed at one
point, and the state becomes 2 (R281); it waits for a stack-unit command of the context, and for a gather that reads
one of its pages (R356). -/
def execPublishInstallation (n : Nat) (s : State) : Out :=
  match s.hub.sets[n]? with
  | none => .next s
  | some d =>
    if !d.publishing || d.writers ≠ 0 || unitRuns s d.asid || d.entries.any (fun e => gatherHolds s d.asid e.2.2.1 (2 ^ e.2.2.2)) then .next s
    else
      let p := contextPort d.asid d.root.toNat true 7 none
      let s1 := dropStreams (fun _ => true) (d.entries.zipIdx.foldl (init := s) fun t (e, j) => installEntry d p j e t)
      let s2 := (runAct (vsWriteBlock p (d.addr.toNat + 8) (leBytes 4 2)) s1).2
      let s3 := advanceEpoch d.asid { s2 with hub := { s2.hub with sets := listDel s2.hub.sets n } }
      .next (commitsInstalled d.addr.toNat d.asid (emitPublish p d.addr.toNat 2 s3))

end Sys2Proof.Machine
end

