-- ==== Sys2Proof/Machine/Walker.lean ====
section
/-! DEFINITION. The filet walker (R360 to R373). -/

namespace Sys2Proof.Machine

/-- A walker command leaves the front (R363). -/
def enterWalk (a : Reg) (s : State) : Out :=
  enterC .n { r1 := some a, r2 := none, mcfg := false, seed := fun _ => false, kv := false }
    (fun _ x _ => checkAlign (x.getD 0).toNat 64) s

/-- GWALK (R363, R365). -/
def execGwalk (a : BitVec 5) (_t : BitVec 3) (s : State) : Out := enterWalk a s

/-- GINS (R363, R370). -/
def execGins (a : BitVec 5) (_t : BitVec 3) (s : State) : Out := enterWalk a s

/-- GDEL (R363, R372). -/
def execGdel (a : BitVec 5) (_t : BitVec 3) (s : State) : Out := enterWalk a s

/-! ### Records, vectors and distances (R360 to R362) -/

/-- Reads walker data: the leaf must lead to HBM or the channel view (R360). -/
def walkRead (p : Port) (va n : Nat) : Act (List Byte) := do
  let parts ← (pagePieces va n).mapM fun (a, k) => do
    let pl ← access p a k true false false false
    match regionOf pl.pa with
    | .hbm _ => pure ()
    | _ => raise causeAcc a
    let s ← getS
    if placePoisoned s pl k then raisePoison p pl.pa a
    readPlace pl k
  pure parts.flatten

/-- Writes walker data, which must lie where it is read from (R360). -/
def walkWrite (p : Port) (va : Nat) (bs : List Byte) : Act Unit := do
  (pagePieces va bs.length).forM fun (a, _) => do
    let pl ← translate p a .store
    match regionOf pl.pa with
    | .hbm _ => pure ()
    | _ => raise causeAcc a
  vsWriteBlock p va bs

def recId (r : List Byte) : Nat := field r 0 4
def recDegree (r : List Byte) : Nat := field r 4 2
def recFlags (r : List Byte) : Nat := field r 6 1
def recFree (r : List Byte) : Bool := natBits (recFlags r) 2 1 = 1
def recTombstone (r : List Byte) : Bool := natBits (recFlags r) 0 0 = 1
def recNeighbour (r : List Byte) (s : Nat) : Nat := field r (0x40 + 4 * s) 4

/-- A malformed record (R361). -/
def recMalformed (r : List Byte) (v : Nat) : Bool :=
  48 < recDegree r || 2 ≤ natBits (recFlags r) 2 1 || recId r ≠ v

def readRecord (p : Port) (base v : Nat) : Act (List Byte) := walkRead p (base + 256 * v) 256

/-- The `gwalk` descriptor (R364). -/
structure WalkDesc where
  index : Nat
  vectors : Nat
  n : Nat
  stride : Nat
  dims : Nat
  metric : Nat
  q : Nat
  ef : Nat
  k : Nat
  hops : Nat
  entry : Nat
  queries : Nat
  filter : Nat
  result : Nat

def walkDesc (d : List Byte) : WalkDesc :=
  { index := field d 0 8, vectors := field d 8 8, n := field d 0x10 4, stride := field d 0x14 2, dims := field d 0x16 2
    metric := field d 0x18 1, q := field d 0x19 1, ef := field d 0x1A 2, k := field d 0x1C 1, hops := field d 0x1E 2
    entry := field d 0x20 4, queries := field d 0x28 8, filter := field d 0x30 8, result := field d 0x38 8 }

/-- Bytes of a vector (R362). -/
def WalkDesc.bytes (d : WalkDesc) : Nat := if d.metric = 2 then d.dims / 8 else d.dims

/-- The limits of R362 and R364. -/
def walkOk (bs : List Byte) (d : WalkDesc) : Bool :=
  d.index % 256 = 0 && d.vectors % 64 = 0 && 1 ≤ d.n && d.metric ≤ 2 &&
  (if d.metric = 2 then 8 ≤ d.dims && d.dims ≤ 2048 && d.dims % 8 = 0 else 1 ≤ d.dims && d.dims ≤ 256) &&
  d.stride % 64 = 0 && d.bytes ≤ d.stride && d.stride ≤ 65472 && 1 ≤ d.q && d.q ≤ 64 && 1 ≤ d.ef && d.ef ≤ 256 &&
  1 ≤ d.k && d.k ≤ 64 && d.k ≤ d.ef && field bs 0x1D 1 = 0 && 1 ≤ d.hops && d.entry < d.n && allZero bs 0x24 4 &&
  d.queries % 64 = 0 && d.result % 64 = 0

/-- The distance of two vectors (R362). -/
def distance (metric : Nat) (a b : List Byte) : Int :=
  match metric with
  | 0 => -(List.zipWith (fun x y => x.toInt * y.toInt) a b).sum
  | 1 => (List.zipWith (fun x y => (x.toInt - y.toInt) * (x.toInt - y.toInt)) a b).sum
  | _ => ((List.zipWith (fun x y => ((List.range 8).filter fun i => (x ^^^ y).getLsbD i).length) a b).sum : Nat)

/-- The order of candidates (R362). -/
def before (a b : Int × Nat) : Bool := a.1 < b.1 || (a.1 = b.1 && a.2 < b.2)

def insertCand (x : Int × Nat) : List (Int × Nat) → List (Int × Nat)
  | [] => [x]
  | y :: ys => if before x y then x :: y :: ys else y :: insertCand x ys

/-! ### The search (R365, R366) -/

def walkVector (p : Port) (d : WalkDesc) (u : Nat) : Act (List Byte) := walkRead p (d.vectors + u * d.stride) d.bytes

def walkQuery (p : Port) (d : WalkDesc) (q : Nat) : Act (List Byte) := vsReadBlock p (d.queries + q * d.stride) d.bytes

/-- The candidate that a query expands next (R365): none when it stops, or has stopped before. -/
def popCand (d : WalkDesc) (x : WalkQuery) : WalkQuery × Option Nat :=
  if x.stopped then (x, none)
  else match x.cands with
    | [] => ({ x with stopped := true }, none)
    | c :: cs =>
      let x1 := { x with cands := cs }
      let late : Bool := match x.best.getLast? with
        | some l => before l c
        | none => false
      if x.best.length = d.ef ∧ late then ({ x1 with stopped := true }, none)
      else if x.hops = d.hops then ({ x1 with stopped := true, limit := true }, none)
      else (x1, some c.2)

/-- The ids that the record of an expanded node names. -/
def neighbours (r : List Byte) : List Nat := (List.range (recDegree r)).map (recNeighbour r)

/-- A record is expanded: it is neither malformed nor free (R361). -/
def recOk (r : List Byte) (v : Nat) : Bool := !recMalformed r v && !recFree r

/-- A neighbour of the expanded node (R365), with its vector. -/
def visit (d : WalkDesc) (vecs : List (Nat × List Byte)) (query : List Byte) (x : WalkQuery) (u : Nat) : WalkQuery :=
  if d.n ≤ u then { x with malformed := true }
  else if x.visited.contains u then x
  else
    let c := (distance d.metric (((vecs.find? fun v => v.1 = u).map (·.2)).getD []) query, u)
    let x1 := { x with visited := x.visited ++ [u] }
    let closer : Bool := match x.best.getLast? with
      | some l => before c l
      | none => true
    if x.best.length < d.ef ∨ closer then
      { x1 with cands := insertCand c x.cands, best := (insertCand c x.best).take d.ef }
    else x1

/-- A query expands its candidate with the record read for it (R365). -/
def expand (d : WalkDesc) (recs vecs : List (Nat × List Byte)) (query : List Byte) (x : WalkQuery) (c : Nat) : WalkQuery :=
  let r := ((recs.find? fun r => r.1 = c).map (·.2)).getD []
  if recOk r c then (neighbours r).foldl (visit d vecs query) { x with hops := x.hops + 1 }
  else { x with malformed := true }

/-- Round 1 begins with the entry vector, against which every query is measured (R366). -/
def firstRound (p : Port) (d : WalkDesc) (qs : List (WalkQuery × List Byte)) : Act (List (WalkQuery × List Byte)) := do
  if qs.all fun x => x.1.visited ≠ [] then pure qs
  else do
    let vec ← walkVector p d d.entry
    pure (qs.map fun (x, query) => if x.visited ≠ [] then (x, query) else
      let c := (distance d.metric vec query, d.entry)
      ({ x with visited := [d.entry], cands := [c], best := [c] }, query))

/-- The nodes that a round's queries need, each once, in the order in which they ask. -/
def distinct (l : List Nat) : List Nat := l.foldl (fun acc u => if acc.contains u then acc else acc ++ [u]) []

/-- One round of the batch (R366): every distinct record is read once, and then every distinct vector. It gives the
queries afterwards, and whether one of them read anything. The queries' own vectors, and in round 1 the entry
vector, are read ahead of the records (DESIGN CHOICE, log 83). -/
def walkRound (p : Port) (d : WalkDesc) (qs : List WalkQuery) : Act (List WalkQuery × Bool) := do
  let withQuery ← qs.zipIdx.mapM fun (x, q) => do
    let goes : Bool := x.visited = [] || (popCand d x).2.isSome
    let query ← if goes then walkQuery p d q else pure []
    pure (x, query)
  let started ← firstRound p d withQuery
  let popped := started.map fun (x, query) => (popCand d x, query)
  let recs ← (distinct (popped.filterMap fun x => x.1.2)).mapM fun v => do
    let r ← readRecord p d.index v
    pure (v, r)
  let wanted := popped.flatMap fun ((x, c), _) => match c.bind fun v => recs.find? fun r => r.1 = v with
    | some (v, r) => if recOk r v then (neighbours r).filter fun u => u < d.n && !x.visited.contains u else []
    | none => []
  let vecs ← (distinct wanted).mapM fun u => do
    let v ← walkVector p d u
    pure (u, v)
  pure (popped.map fun ((x, c), query) => match c with
    | some v => expand d recs vecs query x v
    | none => x, popped.any fun x => x.1.2.isSome)

/-! ### The result round (R367) -/

/-- The bytes of a result block. -/
def resultBlock (d : WalkDesc) (x : WalkQuery) (kept : List (Int × Nat)) : List Byte :=
  let l := kept.take d.k
  leBytes 4 l.length ++ leBytes 4 x.hops ++ leBytes 4 x.visited.length ++
  leBytes 4 ((if x.limit then 1 else 0) + (if l.length < d.k then 2 else 0) + (if x.malformed then 4 else 0)) ++
  (l.map fun (dist, u) => leBytes 4 u ++ leBytes 4 (wrap 32 dist)).flatten ++
  (List.replicate (d.k - l.length) (leBytes 4 0xFFFFFFFF ++ leBytes 4 0x7FFFFFFF)).flatten

/-- One query's result: the members of W read afresh. -/
def resultOf (p : Port) (d : WalkDesc) (q : Nat) (x : WalkQuery) : Act (List Byte) := do
  let mask ← if d.filter = 0 then pure [] else vsReadBlock p (d.filter + 8 * q) 8
  let rs ← x.best.mapM fun c => do
    let r ← readRecord p d.index c.2
    pure (c, r)
  let bad := rs.any fun (c, r) => !recOk r c.2
  let kept := (rs.filter fun (c, r) => recOk r c.2 && !recTombstone r &&
    field mask 0 8 &&& field r 8 8 = field mask 0 8).map (·.1)
  pure (resultBlock d { x with malformed := x.malformed || bad } kept)

/-! ### Updates (R370 to R372) -/

/-- The `gins` descriptor (R370). -/
structure InsDesc where
  index : Nat
  n : Nat
  v : Nat
  attr : Nat
  degree : Nat
  edits : Nat
  neighbours : Nat
  list : Nat
  set : Nat
  shadow : Nat

def insDesc (d : List Byte) : InsDesc :=
  { index := field d 0 8, n := field d 8 4, v := field d 12 4, attr := field d 0x10 8, degree := field d 0x18 2
    edits := field d 0x1A 2, neighbours := field d 0x20 8, list := field d 0x28 8, set := field d 0x30 8
    shadow := field d 0x38 8 }

def insOk (bs : List Byte) (d : InsDesc) : Bool :=
  d.index % 256 = 0 && 1 ≤ d.n && d.v < d.n && d.degree ≤ 48 && d.edits ≤ 256 && allZero bs 0x1C 4 &&
  d.neighbours % 4 = 0 && d.list % 8 = 0 && d.set % 64 = 0

/-- An edit: node, slot, and whether it appends. -/
def editOf (list : List Byte) (i : Nat) : Nat × Nat × Bool :=
  let w := field list (8 * i) 8
  (natBits w 31 0, natBits w 37 32, natBits w 38 38 = 1)

def editsOk (d : InsDesc) (list : List Byte) : Bool :=
  (List.range d.edits).all fun i => field list (8 * i) 8 < 2 ^ 39 && (editOf list i).1 < d.n && (editOf list i).2.1 ≤ 47

/-- Pairs of numbers, as `pos` keeps the pages of an insert. -/
def pairsOf : List Nat → List (Nat × Nat)
  | a :: b :: r => (a, b) :: pairsOf r
  | _ => []

/-- The sets of other inserts of a context that have begun to copy: each set's address, whether it has been
published or has failed, and its pages. -/
def walkerSets (s : State) (asid : BitVec 12) (id : StrandId) (seq : Nat) : List (Nat × Bool × List (Nat × Nat)) :=
  (s.strand :: s.pool).flatMap fun t => (t.nq.map (·, true) ++ t.dumpedE.map (·, false)).filterMap fun (e, queued) =>
    if t.asid = asid && !(queued && t.id = id && e.seq = seq) && !isMarker e.word && cmdOf e.word = 0x49 && 1 ≤ e.step then
      some ((insDesc e.prog.desc).set, (publishedSet e).isSome, pairsOf e.prog.pos)
    else none

/-- The pages of other walker sets that are being copied or are in state 1 (R371). The hub sees the state of a set
without an access of the walker's own. -/
def walkerPages (p : Port) (self : StrandId) (seq : Nat) : Act (List (Nat × Nat)) := do
  let s ← getS
  let settled (a : Nat) : Bool := match (runAct (vsReadNat { p with race := 0, id := none } (a + 8) 4) s).1 with
    | .ok v => v ≠ 1
    | .error _ => false
  pure ((walkerSets s p.asid self seq).flatMap fun (a, published, pages) => if published && settled a then [] else pages)

def pagesMeet (a b : List (Nat × Nat)) : Bool :=
  a.any fun x => b.any fun y => x.1 < y.1 + 2 ^ y.2 && y.1 < x.1 + 2 ^ x.2

/-- The pages are exactly those that hold a byte of one of some records (R370, 2). -/
def recordPages (d : InsDesc) (ids : List Nat) (pages : List (Nat × Nat)) : Bool :=
  let at_ (u : Nat) : Nat := d.index + 256 * u
  let holds (pg : Nat × Nat) (u : Nat) : Bool := pg.1 ≤ at_ u && at_ u < pg.1 + 2 ^ pg.2
  decide pages.Nodup && pages.all (fun pg => pg.1 % 2 ^ pg.2 = 0 && ids.any (holds pg)) &&
    ids.all fun u => pages.any fun pg => holds pg u

/-- A walker's set fails (R370, 4 and 5). -/
def failSet (p : Port) (e : CEntry) (setAddr : Nat) : Act Unit := do
  let st ← getStrand
  vsWriteBlock p (setAddr + 8) (leBytes 4 4 ++ leBytes 4 (16 * 256))
  modS (emitPublish p setAddr 4)
  modS (unregisterWriter st.asid setAddr)
  modEntry .n e.seq fun x => { x with done := true, writer := none, prog := { x.prog with set := BitVec.ofNat 64 (setAddr + 1) } }

/-- Applies an edit in the shadow copy (R370, 4): false when it cannot be made. -/
def applyEdit (p : Port) (d : InsDesc) (ed : Nat × Nat × Bool) : Act Bool := do
  let (u, slot, append) := ed
  let a := (d.index + 256 * u + d.shadow) % 2 ^ 64
  let r ← walkRead p a 256
  let deg := recDegree r
  if append then
    if 48 ≤ deg then pure false
    else do
      walkWrite p (a + 0x40 + 4 * deg) (leBytes 4 d.v)
      walkWrite p (a + 4) (leBytes 2 (deg + 1))
      pure true
  else if deg ≤ slot then pure false
  else do
    walkWrite p (a + 0x40 + 4 * slot) (leBytes 4 d.v)
    pure true

def applyEdits (p : Port) (d : InsDesc) : List (Nat × Nat × Bool) → Act Bool
  | [] => pure true
  | x :: xs => do
    if ← applyEdit p d x then applyEdits p d xs else pure false

/-- Steps 1 to 4 of an insert (R370). -/
def insertStep (e : CEntry) (p : Port) : Act Unit := do
  let st ← getStrand
  let d := insDesc e.prog.desc
  let edits := (List.range d.edits).map (editOf e.prog.list)
  let rv ← readRecord p d.index d.v
  require (recFree rv) 6
  edits.forM fun x => do
    let r ← readRecord p d.index x.1
    require (!recFree r && !recMalformed r x.1) 6
  let pages ← setPages p d.set
  if pagesMeet pages (← walkerPages p st.id e.seq) then waitFor .uncounted
  if !recordPages d (d.v :: edits.map (·.1)) pages then failSet p e d.set
  else do
    pages.forM fun (va, lg) => do
      let b ← vsReadBlock p va (2 ^ lg)
      walkWrite p ((va + d.shadow) % 2 ^ 64) b
    let nb ← vsReadBlock p d.neighbours (4 * d.degree)
    walkWrite p ((d.index + 256 * d.v + d.shadow) % 2 ^ 64)
      (padTo 256 (leBytes 4 d.v ++ leBytes 2 d.degree ++ leBytes 2 0 ++ leBytes 8 d.attr ++ List.replicate 48 0 ++ nb))
    if ← applyEdits p d edits then
      modEntry .n e.seq fun x => { x with step := 1, prog := { x.prog with pos := pages.flatMap fun g => [g.1, g.2] } }
    else failSet p e d.set

/-- Step 5 of an insert: validation and publication, once. -/
def insertEnd (e : CEntry) (p : Port) : Act Unit := do
  publishOnce .n e p (insDesc e.prog.desc).set
  modEntry .n e.seq fun x => { x with done := true }

/-- A deletion (R372). -/
def deleteStep (e : CEntry) (p : Port) : Act Unit := do
  let st ← getStrand
  let d := e.prog.desc
  let v := field d 12 4
  let r ← readRecord p (field d 0 8) v
  require (!recFree r && !recMalformed r v) 6
  let a := field d 0 8 + 256 * v
  if pagesMeet [(a, 8)] (← walkerPages p st.id e.seq) then waitFor .uncounted
  if !recTombstone r then walkWrite p (a + 6) (leBytes 1 (recFlags r ||| 1))
  modEntry .n e.seq fun x => { x with step := 0, done := true }

/-! ### Acceptance and steps -/

/-- The walker accepts a command (R363), its release done (`unitReady`): the descriptor and its limits. -/
def walkAccept (e : CEntry) : Act Unit := do
  let p ← enginePort 5
  if cmdOf e.word = 0x49 ∧ e.prog.desc ≠ [] then modEntry .n e.seq fun x => { x with accepted := true }
  else do
  let bs ← vsReadBlock p e.a.toNat 64
  match cmdOf e.word with
  | 0x48 => do
    let d := walkDesc bs
    require (walkOk bs d) 6
    let fresh : WalkQuery := { visited := [], cands := [], best := [], hops := 0, limit := false, malformed := false
                               stopped := false }
    modEntry .n e.seq fun x => { x with accepted := true, step := 0, prog := { x.prog with
      desc := bs, pos := [], walk := List.replicate d.q fresh } }
  | 0x49 => do
    let d := insDesc bs
    require (insOk bs d) 6
    let list ← vsReadBlock p d.list (8 * d.edits)
    require (editsOk d list) 6
    let nb ← vsReadBlock p d.neighbours (4 * d.degree)
    require ((List.range d.degree).all fun i => field nb (4 * i) 4 < d.n) 6
    joinSet .n e p 1 d.set
    modEntry .n e.seq fun x => { x with accepted := true, prog := { x.prog with desc := bs, list := list } }
  | _ => do
    require (field bs 12 4 < field bs 8 4 && allZero bs 0x10 48) 6
    modEntry .n e.seq fun x => { x with accepted := true, prog := { x.prog with desc := bs } }

/-- The command of a strand at which the walker of its die would work. -/
def walkWork (st : Strand) : Option CEntry :=
  if queueStopped st .n then none else (runningEntry st .n).filter fun e => 0x48 ≤ cmdOf e.word && cmdOf e.word ≤ 0x4A

/-- The requesters of a walker: those of the 12 hoops of its die (R360, R387). -/
def walkRequester (t : Strand) : Nat := t.hoop % 12 * 9 + requester t

/-- A strand wants the walker of its die (R376, R387): for a step, or for its head command unless that waits on a full
table. -/
def walkWants (s : State) (t : Strand) : Bool :=
  (walkWork t).isSome || (acceptable .n t).any fun x => 0x48 ≤ cmdOf x.1.word && cmdOf x.1.word ≤ 0x4A && !tableWaits s t x.1

/-- It is the turn of the strand in focus at the walker of its die (R33, R387). -/
def walkerTurn (s : State) : Bool :=
  let die := s.strand.hoop / 12
  decide (nextServed 108 (s.hub.walkerServed.toList.getD die 107) (fun k => (allAgents s).any fun t =>
    t.hoop / 12 = die && walkRequester t = k && engineServes s t && walkWants s t) = some (walkRequester s.strand))

/-- The walker has served the strand in focus of a state. -/
def walkerServe (s : State) : Out → Out
  | .next s' => .next { s' with hub := { s'.hub with
      walkerServed := s'.hub.walkerServed.setIfInBounds (s.strand.hoop / 12) (walkRequester s.strand) } }
  | o => o

/-- WALKER_ROUND: the walker runs the next round of the strand's search (R366), or the next part of its update, when
it is the strand's turn (R387). A round in which nothing is read is not counted: the search is over. Rounds count
from 1, so that a fault of acceptance reports 0 (R368). -/
def execWalkerRound (s : State) : Out :=
  match walkWork s.strand with
  | none => .next s
  | some e =>
    let cmd := cmdOf e.word
    if !engineLive s || !walkerTurn s then .next s
    else walkerServe s <| engineWork .n false 0 (if cmd = 0x48 then { e with step := e.step + 1 } else e) (do
      let p ← enginePort 5
      match cmd with
      | 0x48 =>
        if e.prog.pos = [1] then pure ()
        else do
          let (qs, read) ← walkRound p (walkDesc e.prog.desc) e.prog.walk
          modEntry .n e.seq fun x => { x with
            step := if read then e.step + 1 else e.step
            prog := { x.prog with walk := qs, pos := if read then [] else [1] } }
      | 0x49 => if e.step = 0 then allOrNone (insertStep e p) else insertEnd e p
      | _ => deleteStep e p) s

/-- RESULT_ROUND: the last step of a search writes the result blocks (R367). -/
def execResultRound (s : State) : Out :=
  match walkWork s.strand with
  | none => .next s
  | some e =>
    if !engineLive s || !walkerTurn s || cmdOf e.word ≠ 0x48 || e.prog.pos ≠ [1] then .next s
    else walkerServe s <| engineWork .n false 0 { e with step := e.step + 1 } (do
      let p ← enginePort 5
      let d := walkDesc e.prog.desc
      let blocks ← e.prog.walk.zipIdx.mapM fun (x, q) => resultOf p d q x
      allOrNone (vsWriteBlock p d.result blocks.flatten)
      stepDone .n e true) s

/-- An insert may retire: its set has reached state 2 or 4 (R370, 6). -/
def walkSettled (e : CEntry) : Act Bool := do
  match publishedSet e with
  | none => pure true
  | some a => do
    let p ← enginePort 5
    let v ← vsReadNat p (a + 8) 4
    pure (v = 2 || v = 4)

end Sys2Proof.Machine
end

