-- ==== Sys2Proof/Machine/Engines.lean ====
section
/-! DEFINITION. Acceptance and retirement of the commands of the M, C and N queues (R35, R242, R246, R259), and
the trap that the front takes for faults reported to it (R433), node faults included (R379). -/

namespace Sys2Proof.Machine

/-- The command numbers that a queue holds (R78). -/
def listedCmd (q : Queue) (c : Nat) : Bool :=
  match q with
  | .m => 1 ≤ c && c ≤ 8
  | .c => (0x20 ≤ c && c ≤ 0x22) || (0x40 ≤ c && c ≤ 0x44)
  | .n => c = 0x32 || c = 0x38 || (0x48 ≤ c && c ≤ 0x4A)
  | _ => false

/-- The fields that R78 shows as zero for a command are zero. -/
def cmdZeros (w : Word32) : Bool :=
  let f := Fields.ofWord w
  let c := cmdOf w
  (if c ≤ 8 then w.extractLsb' 8 4 = 0 else f.rd = 0) &&
  (c = 2 || c = 5 || c = 6 || c = 0x32 || c = 0x38 || f.r2 = 0) && (!(c = 3 || c = 7) || f.r1 = 0)

/-- The check of an entry as at issue (R68, R437): a word that a handler has edited may have become illegal. -/
def recheckCommand (q : Queue) (w : Word32) : Act Unit := do
  require ((Fields.ofWord w).op = 0b1011011#7 && listedCmd q (cmdOf w)) 1
  require (cmdZeros w) 6

/-- The engine or unit of a command takes it (R242, R298, R340, R363). -/
def acceptEntry (q : Queue) (e : CEntry) : Act Unit :=
  match q with
  | .m => do
    let st ← getStrand
    let g ← do
      matCheck (cmdOf e.word) (engineOf e.word) e.mcfg e.b st
      matAccept e
    modEntry .m e.seq fun x => { g with popped := x.popped }
  | .c => if cmdOf e.word ≤ 0x22 then copyAccept e else kvAccept e
  | _ =>
    if cmdOf e.word = 0x32 then msgxAccept e
    else if cmdOf e.word = 0x38 then nmqAccept e
    else walkAccept e

/-- A unit of N takes its turns by whole commands, as it accepts them, but for the walker's, which have turns of their own
(R33, R387). -/
def acceptTurn (s : State) (e : CEntry) : Bool :=
  !(cmdOf e.word = 0x32 || cmdOf e.word = 0x38) ||
    myTurn s 3 fun t => (acceptable .n t).any fun x => cmdOf x.1.word = 0x32 || cmdOf x.1.word = 0x38

/-- COMMAND_ACCEPT: the command at the head of a queue is accepted once its pop is satisfied and its unit is
ready (R35, R242). -/
def execCommandAccept (q : BitVec 3) (s : State) : Out :=
  match Queue.ofCode q.toNat with
  | none | some .s | some .v => .next s
  | some q =>
    match acceptable q s.strand with
    | none => .next s
    | some (e, pop) =>
      if !engineLive s || !acceptTurn s e then .next s
      else
        let work : Act Unit := do
          recheckCommand q e.word
          match pop with
          | some src => do
            modS (popToken src q)
            modStrand fun st => { st with waits := st.waits.setIfInBounds q.code 0 }
            modEntry q e.seq fun x => { x with popped := true }
          | none => pure ()
          acceptEntry q { e with popped := e.popped || pop.isSome }
        let o := engineWork q false (if q = .m then engineOf e.word else 0) e work s
        if cmdOf e.word = 0x32 ∨ cmdOf e.word = 0x38 then serve s 3 o else o

/-- The command of a queue that retires next: the oldest one, when it has finished (R35); of M, the engine that ran it
is named. -/
def retiringEntry (st : Strand) (q : Queue) (engine : Nat) : Option CEntry :=
  (cmdQueue st q).head?.filter fun e =>
    e.accepted && e.done && !isMarker e.word && (q ≠ .m || engineOf e.word = engine)

/-- What a retirement still waits for (R306, R350, R369). -/
def settled (q : Queue) (e : CEntry) : Act Bool :=
  match q with
  | .c => copySettled e
  | .n => walkSettled e
  | _ => pure true

/-- A command as a fault at its retirement reports it: a copy with its chunk count (R306). -/
def atEnd (e : CEntry) : CEntry :=
  if 0x20 ≤ cmdOf e.word ∧ cmdOf e.word ≤ 0x22 then { e with step := chunkCount e } else e

/-- COMMAND_RETIRE: a finished command leaves its queue, with its push (R35); it is no longer a writer of its
publish set (R279). The command of a graph node finishes the node. -/
def execCommandRetire (q : BitVec 3) (engine : BitVec 1) (s : State) : Out :=
  match Queue.ofCode q.toNat with
  | none | some .s | some .v => .next s
  | some q =>
    match retiringEntry s.strand q engine.toNat with
    | none => .next s
    | some e =>
      let push := match tkMeaning q (tkOf e.word) with
        | some (true, dst) => some dst
        | _ => none
      let full : Bool := match push with
        | some dst => decide (tokens s.strand q dst = 15)
        | none => false
      if full || !engineLive s || queueStopped s.strand q then .next s
      else
        engineWork q false 0 (atEnd e) (do
          if !(← settled q e) then waitFor .uncounted
          let st ← getStrand
          match e.writer with
          | some a => modS (unregisterWriter st.asid a.toNat)
          | none => pure ()
          modStrand fun st => { setCmdQueue st q ((cmdQueue st q).filter fun x => x.seq ≠ e.seq) with
            instret := st.instret + 1 }
          match push with
          | some dst => modS (pushToken q dst)
          | none => pure ()
          if 0x20 ≤ cmdOf e.word ∧ cmdOf e.word ≤ 0x22 then
            modS (emitStrand st 6 (natBits e.a.toNat 47 6 * 2 ^ 6 + min 0xFFFF (chunkCount e) * 2 ^ 48))
          match st.node with
          | some (g, n, _) => do
            modS (nodeFinished g n)
            modStrand fun st => { st with state := .exited }
          | none => pure ()) s

/-- TRAP_TAKE: the front stands at an instruction boundary with faults reported to it and takes the oldest
(R246, R431, R433); the fault of a node command is reported by the hub. -/
def execTrapTake (s : State) : Out :=
  match oldestFault s.strand.pending, s.strand.node with
  | none, _ => .next s
  | some f, some (g, n, _) => .next (nodeFault g n s.strand.asid f.trap.cause.toNat s)
  | some _, none =>
    match s.strand.state with
    | .running | .waiting => .next (takePending s)
    | _ => .next s

end Sys2Proof.Machine
end

