-- ==== Sys2Proof/Machine/Hoops.lean ====
section
/-! DEFINITION. The hoop partition and the wipes (R388 to R390, R415). -/

namespace Sys2Proof.Machine

/-- Moves any strand to a state and records it (R39, R475). -/
def setRunState (i : StrandId) (new : RunState) (cause : Nat) (s : State) : State :=
  match findStrand s i with
  | none => s
  | some t =>
    let s1 := updStrand i (fun t => { t with state := new }) s
    if new = .running then s1 else emitChange t t.state new cause s1

/-! ### Wipes (R390) -/

/-- An SRAM window address lies in an array. -/
def inArray (h a pa : Nat) : Bool := 2 ^ 41 + h * 2 ^ 25 ≤ pa && pa < 2 ^ 41 + (h + 1) * 2 ^ 25 && natBits pa 15 8 = a

/-- A wipe: zero data, check and stamp columns in every row of an array, poison included (R390, R440). -/
def wipeArray (h a : Nat) (s : State) : State :=
  let s1 := { s with mem := { s.mem with
    bytes := s.mem.bytes.filter fun (k, _) => !inArray h a k
    poison := s.mem.poison.filter fun (k, _) => !inArray h a (8 * k)
    stamps := s.mem.stamps.filter fun (k, _) => !(2 ^ 40 ≤ k && inArray h a (256 * (k - 2 ^ 40))) } }
  setHoop h { hoopOf s1 h with dirty := (hoopOf s1 h).dirty &&& ~~~(1#256 <<< a) } s1

/-- The hoop and array of a lane block (R29). -/
def blockArrays (h b : Nat) : List (Nat × Nat) := (List.range 8).map fun k => (h, 8 * b + k)

/-- The arrays that a grant holds, in lane or memory mode. -/
def SlotGrant.arrays (g : SlotGrant) : BitVec 256 :=
  (List.range 32).foldl (init := g.sram) fun m b =>
    if g.lanes.getLsbD b then m ||| (0xFF#256 <<< (8 * b)) else m

def bitsOf (m : BitVec 256) : List Nat := (List.range 256).filter fun a => m.getLsbD a

/-! ### The descriptor -/

/-- The grant of slot k in a descriptor (R388). -/
def descGrant (bs : List Byte) (k : Nat) : SlotGrant where
  enabled := natBits (field bs (0x40 + 48 * k) 2) 15 15 = 1
  asid := BitVec.ofNat 12 (field bs (0x40 + 48 * k) 2)
  engines := BitVec.ofNat 2 (field bs (0x42 + 48 * k) 1)
  sram := BitVec.ofNat 256 (field bs (0x50 + 48 * k) 32)
  lanes := BitVec.ofNat 32 (field bs (0x44 + 48 * k) 4)

/-- Participant slots and ASID of barrier k (R388). -/
def descBarrier (bs : List Byte) (k : Nat) : BitVec 8 × BitVec 12 :=
  (BitVec.ofNat 8 (field bs (0x1C0 + 4 * k) 1), BitVec.ofNat 12 (natBits (field bs (0x1C0 + 4 * k) 4) 19 8))

/-- A slot holds a strand, or lends its lanes as a follower (R31). -/
def slotOccupied (s : State) (h k : Nat) : Bool :=
  (strandAt s h k).isSome || (allStrands s).any fun t => resident t && t.followers.contains (h, k)

/-- The block of a walker in a hoop (R15, R421). -/
def walkerBlock (s : State) (h : Nat) : Option Nat :=
  ((List.range 4).find? fun n =>
    natBits (bar0 s (0x40 + 4 * n) 4) 5 0 = h && natBits (bar0 s (0x40 + 4 * n) 4) 31 31 = 0 && n = h / 12).map fun n =>
    natBits (bar0 s (0x40 + 4 * n) 4) 10 6

/-- The first slot, or pair of slots, with a property. -/
def firstSlot (p : Nat → Bool) : Option Nat := (List.range 8).find? p

/-- Reserved fields of slot k are zero and a disabled slot holds no grant (R388). -/
def slotFieldsOk (bs : List Byte) (k : Nat) : Bool :=
  let o := 48 * k
  let g := descGrant bs k
  natBits (field bs (0x40 + o) 2) 14 12 = 0 && field bs (0x42 + o) 1 < 4 && allZero bs (0x43 + o) 1 &&
  allZero bs (0x48 + o) 8 && (g.enabled || (g.lanes = 0 && g.engines = 0 && g.sram = 0))

/-- A change of grant gains blocks, engines or arrays, or changes ASID. -/
def grantGrows (old new : SlotGrant) : Bool :=
  new.lanes &&& ~~~old.lanes ≠ 0 || new.engines &&& ~~~old.engines ≠ 0 || new.sram &&& ~~~old.sram ≠ 0 ||
    new.asid ≠ old.asid

/-- The first failing check of R389, as reason and index. -/
def partitionFault (s : State) (bs : List Byte) : Option (Nat × Nat) :=
  let h := field bs 0 1
  let g := descGrant bs
  let hp := hoopOf s h
  let clash (f : SlotGrant → SlotGrant → Bool) : Option Nat :=
    firstSlot fun k => (List.range k).any fun j => f (g j) (g k)
  if !hoopPresent s h then some (1, 0) else
  match clash fun a b => a.lanes &&& b.lanes ≠ 0 || a.sram &&& b.sram ≠ 0 ||
      a.sram &&& b.arrays ≠ 0 || a.arrays &&& b.sram ≠ 0 with
  | some k => some (2, k)
  | none =>
  match firstSlot fun k => (bitsOf (g k).sram).any fun a => (g k).lanes.getLsbD (a / 8) with
  | some k => some (2, k)
  | none =>
  match firstSlot fun k =>
      ((walkerBlock s h).any fun b => (g k).lanes.getLsbD b || (bitsOf (g k).sram).any fun a => a / 8 = b) ||
      (g k).arrays &&& hp.withdrawn ≠ 0 with
  | some k => some (3, k)
  | none =>
  if !(allZero bs 1 1 && allZero bs 8 56) then some (4, 0) else
  match firstSlot fun k => !slotFieldsOk bs k with
  | some k => some (4, k)
  | none =>
  match (List.range 16).find? fun b => natBits (field bs (0x1C0 + 4 * b) 4) 31 20 ≠ 0 with
  | some b => some (4, b)
  | none =>
  match firstSlot fun k => slotOccupied s h k && grantGrows ((hp.grants[k]?).getD SlotGrant.none) (g k) with
  | some k => some (5, k)
  | none =>
  match clash fun a b => a.engines &&& b.engines ≠ 0 && a.asid ≠ b.asid with
  | some k => some (6, k)
  | none =>
  match (List.range 16).find? fun b => (List.range 8).any fun k =>
      (descBarrier bs b).1.getLsbD k && (!(g k).enabled || (g k).asid ≠ (descBarrier bs b).2) with
  | some b => some (7, b)
  | none => if hp.waiting.isSome then some (8, 0) else none

/-! ### Applying a partition (R390) -/

/-- An engine that passes to another ASID returns to its reset state (R240). -/
def passEngines (h : Nat) (s : State) : State :=
  let hp := hoopOf s h
  let holder (k : Nat) : Option (BitVec 12) :=
    (hp.grants.toList.find? fun g => g.enabled && g.engines.getLsbD k).map SlotGrant.asid
  let pass (k : Nat) (e : MatEngine) : MatEngine :=
    match holder k, e.asid with
    | some a, some b => if a = b then e else MatEngine.reset
    | _, _ => e
  setHoop h { hp with engines := hp.engines.mapFinIdx fun k e _ => pass k e } s

/-- The grant of a slot. -/
def grantOf (s : State) (h k : Nat) : SlotGrant := ((hoopOf s h).grants[k]?).getD SlotGrant.none

/-- A change of a slot can take effect together with those of a list of slots: its strand is gone, or only its lanes
shrink and the strand has released them; and no slot outside the list still holds an array that it gains, or under another
ASID an engine (R240, R390). -/
def partReady (s : State) (h : Nat) (with_ : List Nat) (k : Nat) (new : SlotGrant) : Bool :=
  let old := grantOf s h k
  let free := !slotOccupied s h k
  let shrunk := new.engines = old.engines && new.sram = old.sram && new.asid = old.asid &&
    new.enabled = old.enabled &&
    (allStrands s).all fun t => !resident t || !((t.hoop = h && t.slot = k) || t.followers.contains (h, k)) ||
      t.arrays.all fun (x, a) => x ≠ h || !old.arrays.getLsbD a || new.arrays.getLsbD a
  (free || shrunk) && (List.range 8).all fun j => with_.contains j ||
    (new.arrays &&& ~~~old.arrays &&& (grantOf s h j).arrays = 0 &&
      (new.engines &&& (grantOf s h j).engines = 0 || new.asid = (grantOf s h j).asid))

/-- The changes of a list of slots without those that cannot take effect with the others: what is left takes effect at
once. -/
def readyParts (s : State) (h : Nat) : Nat → List (Nat × SlotGrant) → List (Nat × SlotGrant)
  | 0, ps => ps
  | n + 1, ps => readyParts s h n (ps.filter fun p => partReady s h (ps.map (·.1)) p.1 p.2)

/-- The arrays of a new grant that hold what an old holder, another mode or another ASID has left (R390, R415). -/
def SlotGrant.stale (old new : SlotGrant) (dirty : BitVec 256) : BitVec 256 :=
  new.arrays &&& ((dirty &&& ~~~old.arrays) ||| (old.arrays &&& if old.asid = new.asid then old.sram ^^^ new.sram else ~~~0))

/-- Changes of slots take effect together: arrays that leave a grant are wiped before any later grant, those that a
grant gains before it holds them (R390, R415). -/
def applyParts (h : Nat) (ps : List (Nat × SlotGrant)) (s : State) : State :=
  let hp := hoopOf s h
  let lost := ps.foldl (init := hp.dirty) fun m (k, g) => m ||| ((grantOf s h k).arrays &&& ~~~g.arrays)
  let wipe := ps.foldl (init := 0#256) fun m (k, g) => m ||| (grantOf s h k).stale g lost
  let s1 := setHoop h { hp with
    dirty := lost, grants := ps.foldl (init := hp.grants) fun l (k, g) => l.setIfInBounds k g } s
  (bitsOf wipe).foldl (init := passEngines h s1) fun s a => wipeArray h a s

/-- A smaller lane grant of an occupied slot is recorded for its strand, or for the leader that it lends to, as a
pending reduced grant (R390, R394). -/
def shrinkStrand (h k : Nat) (new : SlotGrant) (s : State) : State :=
  updStrands (fun t => isStrand t && resident t && ((t.hoop = h && t.slot = k) || t.followers.contains (h, k)))
    (fun t =>
      let old := ((hoopOf s h).grants[k]?).getD SlotGrant.none
      let base := t.pendingGrant.getD t.arrays
      let kept := base.filter fun (x, a) => x ≠ h || !old.arrays.getLsbD a || new.lanes.getLsbD (a / 8)
      if kept = t.arrays then t else { t with pendingGrant := some kept }) s

/-- A barrier is set anew: every participant, no arrival (R278, R390). -/
def freshBarrier (slots : BitVec 8) (asid : BitVec 12) : Barrier :=
  { slots := slots, asid := asid, participants := ((List.range 8).filter fun k => slots.getLsbD k).length
    count := 0, phase := false }

/-- A barrier can be set: none of its old participants is resident, or its participants do not change. -/
def barrierReady (s : State) (h b : Nat) (slots : BitVec 8) (asid : BitVec 12) : Bool :=
  match (hoopOf s h).barriers[b]? with
  | none => false
  | some o => (o.slots = slots && o.asid = asid) || (List.range 8).all fun k => !o.slots.getLsbD k || !slotOccupied s h k

/-- Sets a barrier; one whose participants do not change keeps its phase and regains its full count (R278). -/
def setBarrier (h b : Nat) (slots : BitVec 8) (asid : BitVec 12) (s : State) : State :=
  let hp := hoopOf s h
  let f := freshBarrier slots asid
  let clear (s : State) : State := updStrands (fun t => isStrand t && t.hoop = h && slots.getLsbD t.slot)
    (fun t => { t with barPending := t.barPending &&& ~~~(1#17 <<< b) }) s
  match hp.barriers[b]? with
  | none => s
  | some o =>
    if o.slots = slots ∧ o.asid = asid then
      setHoop h { hp with barriers := hp.barriers.setIfInBounds b { o with participants := f.participants } } s
    else clear (setHoop h { hp with barriers := hp.barriers.setIfInBounds b f } s)

/-- Writes state 2 to the descriptor when every part has taken effect. -/
def finishPartition (h : Nat) (s : State) : State :=
  match (hoopOf s h).waiting with
  | none => s
  | some w =>
    if w.slots.toList.all (·.isNone) && w.bars.toList.all (·.isNone) then
      let s1 := setHoop h { hoopOf s h with waiting := none } s
      (runAct (vsWriteBlock (contextPort w.asid w.root.toNat true 1 none) (w.desc.toNat + 2) [2, 0]) s1).2
    else s

/-- The changes of slots that wait. -/
def PartWait.changes (w : PartWait) : List (Nat × SlotGrant) :=
  w.slots.toList.zipIdx.filterMap fun (g, k) => g.map fun g => (k, g)

/-- A waiting barrier is set, if it can be. -/
def tryBarrier (h : Nat) (s : State) (b : Nat) : State :=
  match (hoopOf s h).waiting with
  | none => s
  | some w =>
    match w.bars[b]? with
    | some (some (m, a)) =>
      if barrierReady s h b m a then
        let s' := setBarrier h b m a s
        setHoop h { hoopOf s' h with waiting := some { w with bars := w.bars.setIfInBounds b none } } s'
      else s
    | _ => s

/-- The waiting changes of slots that can take effect together do, and the waiting barriers that can be set are set
(R390). -/
def tryParts (h : Nat) (s : State) : State :=
  match (hoopOf s h).waiting with
  | none => s
  | some w =>
    let ps := readyParts s h 8 w.changes
    let s1 := applyParts h ps s
    let rest := ps.foldl (init := w.slots) fun l p => l.setIfInBounds p.1 none
    let s2 := setHoop h { hoopOf s1 h with waiting := some { w with slots := rest } } s1
    finishPartition h ((List.range 16).foldl (init := s2) (tryBarrier h))

/-- HPART (R388 to R390): the descriptor is read and checked; a valid partition takes effect for unoccupied slots at
once, and the parts that cannot yet wait. -/
def execHpart (a : BitVec 5) (s : State) : Out :=
  frontInstr systemOnly [a] (do
    let st ← getStrand
    let x := (readReg st a).toNat
    checkAlign x 64
    let p := strandPort st 1
    let bs ← vsReadBlock p x 512
    let s ← getS
    spaceProbe p 0 (x + 2) 6 true false
    match partitionFault s bs with
    | some (reason, ix) => vsWriteBlock p (x + 2) (leBytes 2 3 ++ leBytes 4 (reason * 256 + ix))
    | none => do
      let h := field bs 0 1
      let w : PartWait :=
        { desc := BitVec.ofNat 64 x, asid := st.asid, root := BitVec.ofNat 64 p.root
          slots := Vector.ofFn fun k => if descGrant bs k.val = grantOf s h k.val then none else some (descGrant bs k.val)
          bars := Vector.ofFn fun b => some (descBarrier bs b.val) }
      modS fun s => setHoop h { hoopOf s h with waiting := some w } s
      modS fun s => (List.range 8).foldl (init := s) fun s k => shrinkStrand h k (descGrant bs k) s
      modS (tryParts h)
      let s ← getS
      if (hoopOf s h).waiting.isSome then vsWriteBlock p (x + 2) (leBytes 2 1 ++ leBytes 4 0)
    pure none) s

/-- ARRAY_WIPE: an array that must be wiped, and that no strand and no grant of SRAM holds, is wiped (R390). -/
def execArrayWipe (hoop array : Nat) (s : State) : Out :=
  let held := ((allStrands s).any fun t => resident t && t.arrays.contains (hoop, array)) ||
    (hoopOf s hoop).grants.toList.any fun g => g.sram.getLsbD array
  if array < 256 ∧ hoop < 48 ∧ (hoopOf s hoop).dirty.getLsbD array ∧ !held then .next (wipeArray hoop array s)
  else .next s

/-- PARTITION_PART_APPLY: the part of a partition that waited for a slot takes effect, with those that only wait for one
another (R390). -/
def execPartitionPartApply (hoop slot : Nat) (s : State) : Out :=
  if slot < 8 then .next (tryParts hoop s) else .next s

end Sys2Proof.Machine
end

