-- ==== Sys2Proof/Machine/VecMem.lean ====
section
/-! DEFINITION. Vector loads and stores (R137 to R143), and the transfer of elements that `vlq` and `vsq`
share with them (R225). -/

namespace Sys2Proof.Machine

/-- The width of a code of OP-VM (R76). -/
def codedWidth (w : BitVec 3) : Nat :=
  match w.toNat with
  | 0 => 8
  | 1 => 16
  | 2 => 32
  | 3 => 64
  | 4 => 4
  | _ => 1

/-- The bytes that an access of one element of w bits takes. -/
def accBytes (w : Nat) : Nat := max 1 (w / 8)

/-- Reads one element of w bits whose first byte lies at an address; `bit` is its place in that byte. -/
def loadElem (p : Port) (space addr bit w : Nat) : Act Nat := do
  let pl ← spaceAccess p space addr (accBytes w) true false false
  let bs ← loadPlace p pl (accBytes w) addr
  pure (natBits (leNat bs) (bit + w - 1) bit)

/-- Writes one element; a sub-byte one leaves the other bits of its byte (R141). -/
def storeElem (p : Port) (space addr bit w x : Nat) (poisoned : Bool) : Act Unit := do
  let pl ← spaceAccess p space addr (accBytes w) false true false
  if 8 ≤ w then writePlace p pl (leBytes (w / 8) x)
  else do
    let old ← readPlace pl 1
    let o := leNat old
    writePlace p pl (leBytes 1 (o - natBits o (bit + w - 1) bit * 2 ^ bit + x % 2 ^ w * 2 ^ bit))
  if poisoned then carryPoison p pl (accBytes w)

/-- Runs the work of elements in ascending order until one stops: what was gathered, and where and why it
stopped. -/
def elemLoop {α : Type} (work : Nat → Act α) : List Nat → List (Nat × α) → Act (List (Nat × α) × Option (Nat × Stop))
  | [], acc => pure (acc.reverse, none)
  | i :: is, acc => do
    match ← attempt (work i) with
    | .ok x => elemLoop work is ((i, x) :: acc)
    | .error r => pure (acc.reverse, some (i, r))

/-- A stop at an element: vstart and telem are that element (R143). -/
def stopAt {α : Type} (i : Nat) (r : Stop) : Act α := do
  modHead fun e => { e with vstart := i, lanes := none }
  match r with
  | .trap t => stopWith (.trap { t with telem := BitVec.ofNat 32 i })
  | r => stopWith r

/-- The active elements that one issue takes. -/
def stepElems (v : VEnv) : List Nat := (span v.e.vstart (stepEnd v)).filter v.active

/-- The element address of a unit-stride form for w-bit elements, with the bit of a sub-byte one (R139, R141). -/
def unitAddr (base w i : Nat) : Nat × Nat := ((base + i * w / 8) % 2 ^ 64, i * w % 8)

/-- The active elements that the instruction has still to perform, in however many steps. -/
def restElems (v : VEnv) : List Nat := (span v.e.vstart v.e.vl).filter v.active

/-- The port of an element's access: of an indexed form through the TLB bank of its lane block (R136, R138). -/
def elemPort (v : VEnv) (indexed : Bool) (i : Nat) : Port :=
  if indexed then
    let loc := (v.st.arrays[i % rg v.st / 512]?).getD (0, 0)
    { strandPort v.st 2 with bank := some (loc.1, loc.2 / 8) }
  else strandPort v.st 2

/-- The lowest element whose mask bit or sources are poisoned, of those still to perform: a load stops there, after
those below it (R143, R177, R441). -/
def badElem (v : VEnv) (srcs : List Src) : Option Nat := (span v.e.vstart v.e.vl).find? (elemPoisoned v srcs)

/-- The elements below a poisoned one. -/
def belowBad (bad : Option Nat) (l : List Nat) : List Nat :=
  match bad with
  | some b => l.filter (· < b)
  | none => l

/-- ALIGN at the lowest misaligned active element below a poisoned one, before any is performed (R141, R143). -/
def alignAll (v : VEnv) (w : Nat) (bad : Option Nat) (addr : Nat → Nat × Nat) : Act Unit :=
  match (belowBad bad (restElems v)).find? fun i => (addr i).1 % accBytes w ≠ 0 with
  | some i => mapTrap (fun t => { t with telem := BitVec.ofNat 32 i }) (raise causeAlign (addr i).1)
  | none => pure ()

/-- The probe pass of an indexed form (R138), up to a poisoned element: the lowest that fails decides. -/
def probeAll (v : VEnv) (w : Nat) (wr memOnly : Bool) (bad : Option Nat) (addr : Nat → Nat × Nat) : Act Unit :=
  (belowBad bad (restElems v)).forM fun i => mapTrap (fun t => { t with telem := BitVec.ofNat 32 i }) do
    checkAlign (addr i).1 (accBytes w)
    spaceProbe (elemPort v true i) v.e.mtype.toNat (addr i).1 (accBytes w) wr memOnly

/-- The elements that one issue takes up to a poisoned one, which is the last and stops the others. -/
def stepUpTo (v : VEnv) (bad : Option Nat) : List Nat :=
  match bad with
  | some b => belowBad bad (stepElems v) ++ if b < stepEnd v then [b] else []
  | none => stepElems v

/-- Gathers a value per active element in order, then applies the policies; `done` finishes the destination. -/
def gatherAll (v : VEnv) (d : Dst) (bad : Option Nat) (work : Nat → Act Nat) (done : Act Unit) : Act Unit := do
  let (got, stop) ← elemLoop (fun i => if bad = some i then lanePoison i else work i) (stepUpTo v bad) []
  let hi := (stop.map (·.1)).getD (stepEnd v)
  let zeros := if v.zeroMasked then ((span v.e.vstart hi).filter fun i => !v.active i).map fun i => (i, 0) else []
  let tail := if hi = v.e.vl then tailFrom v v.e.vl else []
  modStrand fun st => writeDst st d v.slots (got ++ zeros ++ tail)
  match stop with
  | some (i, r) => stopAt i r
  | none => if hi < v.e.vl then stopStep v hi else done

/-- The data of a load (R141). -/
def loadAll (v : VEnv) (indexed : Bool) (d : Dst) (w : Nat) (bad : Option Nat) (addr : Nat → Nat × Nat)
    (done : Act Unit) : Act Unit :=
  gatherAll v d bad (fun i => loadElem (elemPort v indexed i) v.e.mtype.toNat (addr i).1 (addr i).2 w) done

/-- The data of a store (R141): only active elements are written; poison in a source field goes along (R143). -/
def storeAll (v : VEnv) (indexed : Bool) (base w : Nat) (addr : Nat → Nat × Nat) : Act Unit := do
  let (_, stop) ← elemLoop (fun i => storeElem (elemPort v indexed i) v.e.mtype.toNat (addr i).1 (addr i).2 w
    (getElem v.st base w i) ((Src.elems base w).poisoned v.st i)) (stepElems v) []
  match stop with
  | some (i, r) => stopAt i r
  | none => stopStep v (stepEnd v)

/-- Unit-stride and strided forms (R139, R140). `sub` allows sub-byte widths. A poisoned field stops a load and no store:
a store takes its mask as it stands (R143, R441). -/
def stridedOp (sh : VShape) (d : Reg) (m : BitVec 1) (w : BitVec 3) (sub load : Bool)
    (addr : VEntry → Nat → Nat → Nat × Nat) (s : State) : Out :=
  vInstr sh (fun e => do
    let g := lmulOf e.vtype
    let cw := codedWidth w
    vCheck e (w.toNat < 6) (m = 1) [(d.toNat, g)] (cw = sewOf e.vtype && (sub || 8 ≤ cw))
    if e.vl ≤ e.vstart then pure ()
    else do
      let v ← vEnv e (m = 1)
      let bad := if load then badElem v [] else none
      alignAll v cw bad (addr e cw)
      if load then loadAll v false (.elems d.toNat cw g) cw bad (addr e cw) (modStrand (clearTags d.toNat g))
      else storeAll v false d.toNat cw (addr e cw)) s

/-- Indexed forms (R138 to R140): SEW-wide data at offsets of the coded width. -/
def indexedOp (d a b : Reg) (m : BitVec 1) (w : BitVec 3) (load : Bool) (s : State) : Out :=
  vInstr (oneReg a) (fun e => do
    let g := lmulOf e.vtype
    let ow := codedWidth w
    let v ← vEnv e (m = 1)
    let og := groupFor v ow
    vCheck e (w.toNat < 6) (m = 1) [(d.toNat, g), (b.toNat, og)] (8 ≤ ow && 8 ≤ v.sew && og ≤ 8)
    if e.vl ≤ e.vstart then pure ()
    else do
      let addr (i : Nat) : Nat × Nat := ((e.a.toNat + getElem v.st b.toNat ow i) % 2 ^ 64, 0)
      let bad := if load then badElem v [.elems b.toNat ow] else none
      probeAll v v.sew (!load) false bad addr
      if load then loadAll v true (.elems d.toNat v.sew g) v.sew bad addr (modStrand (clearTags d.toNat g))
      else storeAll v true d.toNat v.sew addr) s

/-- The address of a strided element: the stride is signed (R139). -/
def stridedAddr (e : VEntry) (_w i : Nat) : Nat × Nat := ((e.a + BitVec.ofNat 64 i * e.b).toNat, 0)

/-- VLE (R139, R141). -/
def execVle (d a : BitVec 5) (_t : BitVec 3) (m : BitVec 1) (w : BitVec 3) (s : State) : Out :=
  stridedOp (oneReg a) d m w true true (fun e => unitAddr e.a.toNat) s

/-- VSE (R139, R141). -/
def execVse (d a : BitVec 5) (_t : BitVec 3) (m : BitVec 1) (w : BitVec 3) (s : State) : Out :=
  stridedOp (oneReg a) d m w true false (fun e => unitAddr e.a.toNat) s

/-- VLSE (R139, R141). -/
def execVlse (d a b : BitVec 5) (_t : BitVec 3) (m : BitVec 1) (w : BitVec 3) (s : State) : Out :=
  stridedOp { oneReg a with r2 := some b } d m w false true stridedAddr s

/-- VSSE (R139, R141). -/
def execVsse (d a b : BitVec 5) (_t : BitVec 3) (m : BitVec 1) (w : BitVec 3) (s : State) : Out :=
  stridedOp { oneReg a with r2 := some b } d m w false false stridedAddr s

/-- VLXE (R138 to R141). -/
def execVlxe (d a b : BitVec 5) (_t : BitVec 3) (m : BitVec 1) (w : BitVec 3) (s : State) : Out :=
  indexedOp d a b m w true s

/-- VSXE (R138 to R141). -/
def execVsxe (d a b : BitVec 5) (_t : BitVec 3) (m : BitVec 1) (w : BitVec 3) (s : State) : Out :=
  indexedOp d a b m w false s

end Sys2Proof.Machine
end

