-- ==== Sys2Proof/Machine/VecScale.lean ====
section
/-! DEFINITION. The instructions of the scale register file (R224 to R233). -/

namespace Sys2Proof.Machine

/-- Both registers are read at the front. -/
def twoRegs (a b : Reg) : VShape := { oneReg a with r2 := some b }

def withQcfg (sh : VShape) : VShape := { sh with csr := fun _ => .qcfg }

/-- The number of blocks of vl elements (R216). -/
def blocksOf (e : VEntry) (bcode : Nat) : Nat := ceilDiv e.vl (blockSize bcode)

/-- telem of a fault before any element is the vstart at issue (R225). -/
def atStart {α : Type} (e : VEntry) (m : Act α) : Act α :=
  mapTrap (fun t => { t with telem := BitVec.ofNat 32 e.vstart }) m

/-- VLQ (R225): scales first, then codes; the register whose number equals vd takes the scales. -/
def execVlq (d a b : BitVec 5) (_t : BitVec 3) (s : State) : Out :=
  vInstr (withQcfg (twoRegs a b)) (fun e => do
    let v ← vEnv e false
    let c := qcfgUse false true e.csr.toNat
    let g := writtenGroup v e.csr.toNat
    let nb := (c.map fun c => blocksOf e c.bcode).getD 0
    vCheck e true false [(d.toNat, g)] (match c with
      | some c => g ≤ 8 && nb ≤ qCapacity c.sfmt
      | none => false)
    match c with
    | none => ill 5
    | some c =>
      if e.vl ≤ e.vstart then pure ()
      else do
        let banded := isBanded c.data c.sfmt
        let (codes, bands) ← atStart e (readStream (strandPort v.st 2) e.mtype.toNat e.b.toNat c.sfmt nb banded)
        loadAll v false (.elems d.toNat c.data.width g) c.data.width none (unitAddr e.a.toNat c.data.width)
          (modStrand fun st => bindTo d.toNat g d.toNat c.dcode c.bcode
            (writeQ d.toNat c.sfmt codes (if banded then bands else onesBands c.sfmt nb) st))) s

/-- VSQ (R225): the binding is consumed, the scales written, then the codes. -/
def execVsq (d a b : BitVec 5) (_t : BitVec 3) (s : State) : Out :=
  vInstr (twoRegs a b) (fun e => do
    let v ← vEnv e false
    let t := bindingOfTag (tagOf v.st d.toNat)
    let g := if t.valid then codeGroup v t.data else 1
    vCheck e true false [(d.toNat, g)] (g ≤ 8)
    if e.vl ≤ e.vstart then pure ()
    else do
      let nb := blocksOf e t.bcode
      consume false d.toNat t nb
      let q := qRegOf v.st t.q
      let bands := if isBanded t.data q.fmt.toNat then (List.range (bandCount nb)).map q.band else []
      atStart e (writeStream (strandPort v.st 2) e.mtype.toNat e.b.toNat q.fmt.toNat (q.codes.take nb) bands)
      storeAll v false d.toNat t.data.width (unitAddr e.a.toNat t.data.width)) s

/-- QLD (R226), whose stream, as that of QST, lies in the space of the captured `mtype` (DESIGN CHOICE, log 112). -/
def execQld (d a b : BitVec 5) (_t : BitVec 3) (s : State) : Out :=
  vInstr (twoRegs a b) (fun e => do
    let x := e.b.toNat
    let fmt := natBits x 13 12
    let n := natBits x 11 0
    let banded : Bool := decide (natBits x 14 14 = 1)
    vCheck e (wholeVector e && natBits x 63 15 = 0 && fmt ≠ 3 && 1 ≤ n && n ≤ qCapacity fmt && (!banded || fmt = 0))
      false [] true
    let st ← getStrand
    let (codes, bands) ← readStream (strandPort st 2) e.mtype.toNat e.a.toNat fmt n banded
    modStrand (writeQ d.toNat fmt codes (if banded then bands else onesBands fmt n))) s

/-- QST (R226). -/
def execQst (d a : BitVec 5) (_t : BitVec 3) (s : State) : Out :=
  vInstr (oneReg a) (fun e => do
    let st ← getStrand
    let q := qRegOf st d.toNat
    vCheck e (wholeVector e) false [] (q.fmt ≠ 3)
    writeStream (strandPort st 2) e.mtype.toNat e.a.toNat q.fmt.toNat q.codes q.bands) s

/-- The active elements with their values. -/
def activeVals (v : VEnv) (b : Reg) (f : Fmt) : List (Nat × Val) := v.actives.map fun i => (i, f.val (v.elem b i))

/-- QCOMP (R227). -/
def execQcomp (d b : BitVec 5) (m : BitVec 1) (s : State) : Out :=
  vInstr (withQcfg noRegs) (fun e => do
    let v ← vEnv e (m = 1)
    let c := qcfgOf e.csr.toNat
    let nb := (c.map fun c => blocksOf e c.bcode).getD 0
    vCheck e (wholeVector e) (m = 1) [(b.toNat, v.lmul)] (match c with
      | some c => v.fmt = some c.src && nb ≤ qCapacity c.sfmt
      | none => false)
    match c with
    | none => ill 5
    | some c => if e.vl = 0 then pure () else do
      wholePoison v [.elems b.toNat v.sew]
      let (codes, bands, fl) := deriveAll c (activeVals v b c.src) nb
      modStrand fun st => raiseFlags fl false (writeQ d.toNat c.sfmt codes bands st)) s

/-- VQUANT (R228); `a` is the scale register. -/
def execVquant (d a b : BitVec 5) (m : BitVec 1) (s : State) : Out :=
  vInstr { withQcfg noRegs with seed := fun st => st.csr.vfrm.toNat % 8 = 5 } (fun e => do
    let v ← vEnv e (m = 1)
    let c := qcfgOf e.csr.toNat
    let g := writtenGroup v e.csr.toNat
    let q := qRegOf v.st a.toNat
    vCheck e (wholeVector e) (m = 1) [(d.toNat, g), (b.toNat, v.lmul)] (match c with
      | some c => g ≤ 8 && v.fmt = some c.src && q.fmt.toNat = c.sfmt && blocksOf e c.bcode ≤ q.len
      | none => false)
    match c with
    | none => ill 5
    | some c => if e.vl = 0 then pure () else do
      wholePoison v [.elems b.toNat v.sew]
      let outs := quantAll c q e.frm e.b (activeVals v b c.src)
      let zeros := if v.zeroMasked then ((List.range e.vl).filter fun i => !v.active i).map fun i => (i, 0) else []
      modStrand fun st => raiseFlags (joinFlags (outs.map (·.2))) false
        (bindTo d.toNat g a.toNat c.dcode c.bcode
          (writeDst st (.elems d.toNat c.data.width g) v.slots
            (outs.map (fun o => (o.1, o.2.val)) ++ zeros ++ tailFrom v e.vl)))) s

/-- VDEQUANT (R229). -/
def execVdequant (d b : BitVec 5) (m : BitVec 1) (s : State) : Out :=
  vInstr noRegs (fun e => do
    let v ← vEnv e (m = 1)
    let t := bindingOfTag (tagOf v.st b.toNat)
    let g := if t.valid then codeGroup v t.data else 1
    vCheck e (wholeVector e) (m = 1) [(b.toNat, g), (d.toNat, v.lmul)] (g ≤ 8 && v.fmt.isSome)
    if e.vl = 0 then pure () else do
      consume false b.toNat t (blocksOf e t.bcode)
      let w := t.data.width
      wholePoison v [.elems b.toNat w]
      let q := qRegOf v.st t.q
      let rm := roundOf e.frm
      let banded := isBanded t.data q.fmt.toNat
      let one (i : Nat) : ElemOut :=
        let c := getElem v.st b.toNat w i
        let j := i / blockSize t.bcode
        let x := t.data.val c
        let y := q.eff banded j
        let (r, fl) := rnd (v.fmt.getD .fp32) rm.mode rm.sat (Val.mul x y)
        let snan := (match t.data with
          | .flt f => f.isSnan c
          | .int8 => false) || q.snanAt banded j
        { val := r, flags := fl ||| flagIf (snan || badProduct x y) fNV, sat := false }
      let outs := v.actives.map fun i => (i, one i)
      let zeros := if v.zeroMasked then ((List.range e.vl).filter fun i => !v.active i).map fun i => (i, 0) else []
      modStrand (raiseFlags (joinFlags (outs.map (·.2))) false)
      putDst v (.elems d.toNat v.sew v.lmul) (outs.map (fun o => (o.1, o.2.val)) ++ zeros ++ tailFrom v e.vl)) s

/-! ### Binding instructions -/

/-- QBIND (R230). -/
def execQbind (d a : BitVec 5) (s : State) : Out :=
  vInstr (withQcfg noRegs) (fun e => do
    let v ← vEnv e false
    let c := qcfgUse false false e.csr.toNat
    let g := writtenGroup v e.csr.toNat
    vCheck e (wholeVector e) false [(d.toNat, g)] (c.isSome && g ≤ 8 && (qRegOf v.st a.toNat).fmt ≠ 3)
    match c with
    | none => ill 5
    | some c => if e.vl = 0 then pure () else modStrand (bindTo d.toNat g a.toNat c.dcode c.bcode)) s

/-- QUNBIND (R230). -/
def execQunbind (d : BitVec 5) (s : State) : Out :=
  vInstr noRegs (fun e => do
    let v ← vEnv e false
    let t := bindingOfTag (tagOf v.st d.toNat)
    let g := if t.valid then codeGroup v t.data else 1
    vCheck e (wholeVector e) false [(d.toNat, g)] (g ≤ 8)
    if e.vl = 0 then pure () else modStrand (setGroupTag d.toNat g 0)) s

/-- A tag value that `qtag` may write (R230). -/
def tagValueOk (x : Nat) : Bool :=
  natBits x 63 25 = 0 && (natBits x 0 0 = 0 || (natBits x 24 22 ≤ 3 && natBits x 21 19 ≤ 4))

/-- QTAG (R230): the other members are those of the group that the written tag, if valid, gives. -/
def execQtag (d a : BitVec 5) (s : State) : Out :=
  vInstr (oneReg a) (fun e => do
    let v ← vEnv e false
    let x := e.a.setWidth 32
    let t := bindingOfTag x
    let g := if t.valid then codeGroup v t.data else 1
    vCheck e (wholeVector e && tagValueOk e.a.toNat) false [(d.toNat, g)] (g ≤ 8)
    if e.vl = 0 then pure () else modStrand (setGroupTag d.toNat g x)) s

def setTile (n : Nat) (t : TileEntry) (st : Strand) : Strand :=
  if h : n < 16 then { st with tiles := st.tiles.set n t h } else st

/-- The physical pieces that a range maps, and the virtual pages that map them (R222, R231): each page translates once,
in order. -/
def watchedPieces (p : Port) (va n : Nat) : Act (List (Nat × Nat) × List (Nat × Nat)) := do
  let parts ← (pagePieces va n).mapM fun (a, k) => do
    let pl ← translate p a .load
    let e ← lookup p a .load
    pure ((blockPieces a k).map fun (b, j) => (canonical (pl.pa + (b - a)), j), (e.va, e.bits))
  pure ((parts.map (·.1)).flatten, parts.map (·.2))

/-- The bits of a tile-binding entry (R55). -/
def tileBits (gen q bcode dcode cols rows base : Nat) : BitVec 128 :=
  BitVec.ofNat 128 (gen * 2 ^ 108 + q * 2 ^ 103 + bcode * 2 ^ 100 + dcode * 2 ^ 97 + cols * 2 ^ 81 +
    rows * 2 ^ 65 + 2 ^ 48 + base)

/-- QBINDT (R231); `d` is the entry, `b` the scale register. -/
def execQbindt (d a b : BitVec 5) (s : State) : Out :=
  vInstr (withQcfg (oneReg a)) (fun e => do
    let x := e.a.toNat
    let cols := (natBits x 63 56 + 1) * 8
    let rows := (natBits x 55 48 + 1) * 8
    let base := natBits x 47 0
    let st ← getStrand
    let c := qcfgUse false false e.csr.toNat
    let q := qRegOf st b.toNat
    require (wholeVector e && base % 256 = 0) 6
    require (!e.vtype.getLsbD 63) 2
    require (d.toNat < 16) 4
    match c with
    | none => ill 5
    | some c => do
      require (q.fmt ≠ 3 && rows * cols ≤ q.len * blockSize c.bcode) 5
      if e.vl = 0 then pure () else do
        let (ps, ms) ← watchedPieces (strandPort st 2) base (rows * cols * c.data.width / 8)
        modStrand (setTile d.toNat
          { bits := tileBits q.gen.toNat b.toNat c.bcode c.dcode cols rows base, pages := ps, maps := ms })) s

/-- QUNBINDT (R231). -/
def execQunbindt (d : BitVec 5) (s : State) : Out :=
  vInstr noRegs (fun e => do
    require (wholeVector e) 6
    require (!e.vtype.getLsbD 63) 2
    require (d.toNat < 16) 4
    if e.vl = 0 then pure () else modStrand (setTile d.toNat { bits := 0, pages := [], maps := [] })) s

/-! ### Scale-only arithmetic -/

/-- Writes a result register: each value and each band with its flags (R232). -/
def putScales (d fmt : Nat) (codes bands : List (Nat × Flags)) : Act Unit :=
  modStrand fun st => raiseFlags ((codes ++ bands).foldl (fun f x => f ||| x.2) 0) false
    (writeQ d fmt (codes.map (·.1)) (bands.map (·.1)) st)

/-- A code that is copied raises nothing. -/
def same (c : Nat) : Nat × Flags := (c, 0)

/-- An instruction on two registers of one format and length (R232). -/
def scaleTwo (d a b : Reg) (f : Mode → Fmt → Nat → Nat → Nat × Flags) (s : State) : Out :=
  vInstr noRegs (fun e => do
    let st ← getStrand
    let x := qRegOf st b.toNat
    let y := qRegOf st a.toNat
    vCheck e (wholeVector e) false [] (x.fmt ≠ 3 && x.fmt = y.fmt && x.len = y.len)
    if e.vl = 0 then pure () else do
      let mode := modeOf e.frm
      putScales d.toNat x.fmt.toNat (List.zipWith (f mode (scaleFmt x.fmt.toNat)) x.codes y.codes)
        (List.zipWith (f mode .bf16) x.bands y.bands)) s

/-- An instruction on one register (R232): what becomes of values and of bands. -/
def scaleOne (d b : Reg) (sh : VShape) (f g : VEntry → Fmt → Nat → Nat × Flags) (s : State) : Out :=
  vInstr sh (fun e => do
    let st ← getStrand
    let x := qRegOf st b.toNat
    vCheck e (wholeVector e) false [] (x.fmt ≠ 3)
    if e.vl = 0 then pure () else
      putScales d.toNat x.fmt.toNat (x.codes.map (f e (scaleFmt x.fmt.toNat))) (x.bands.map (g e .bf16))) s

/-- QMUL (R232). -/
def execQmul (d a b : BitVec 5) (s : State) : Out :=
  scaleTwo d a b (fun mode f x y => roundScale f mode (Val.mul (f.val x) (f.val y))) s

/-- QMAX (R232): an invalid operand gives the invalid code; NV for a result that is NaN or negative. -/
def execQmax (d a b : BitVec 5) (s : State) : Out :=
  scaleTwo d a b (fun mode f x y =>
    if f.isNanCode x || f.isNanCode y then
      (f.canon, flagIf ((f.isNanCode x && f.isNanCode y) || f.isSnan x || f.isSnan y) fNV)
    else roundScale f mode (f.val (fminmax f true x y).1)) s

/-- QMULX (R232): values by the FP32 factor, or for format 00 the bands only. -/
def execQmulx (d a b : BitVec 5) (s : State) : Out :=
  scaleOne d b (oneReg a)
    (fun e f c => if f = .e3m5 then same c
      else roundScale f (modeOf e.frm) (Val.mul (f.val c) (Fmt.fp32.val (e.a.toNat % 2 ^ 32))))
    (fun e f c => roundScale f (modeOf e.frm) (Val.mul (f.val c) (Fmt.fp32.val (e.a.toNat % 2 ^ 32)))) s

/-- A reciprocal (R232): of zero the maximum, with DZ. -/
def scaleRcp (mode : Mode) (f : Fmt) (c : Nat) : Nat × Flags :=
  if (f.val c).isZero then (f.maxCode, fDZ) else roundScale f mode (Val.div (.fin false 1 1) (f.val c))

/-- QRCP (R232). -/
def execQrcp (d b : BitVec 5) (s : State) : Out :=
  scaleOne d b noRegs (fun e f c => scaleRcp (modeOf e.frm) f c) (fun e f c => scaleRcp (modeOf e.frm) f c) s

/-- QMV (R232): a copy. -/
def execQmv (d b : BitVec 5) (s : State) : Out :=
  scaleOne d b noRegs (fun _ _ c => same c) (fun _ _ c => same c) s

/-- QCVT (R233): the effective values in the target format `a`. -/
def execQcvt (d a b : BitVec 5) (s : State) : Out :=
  vInstr noRegs (fun e => do
    let st ← getStrand
    let x := qRegOf st b.toNat
    let t := a.toNat
    vCheck e (wholeVector e && t < 3) false [] (x.fmt ≠ 3 && x.len ≤ qCapacity t)
    if e.vl = 0 then pure () else
      putScales d.toNat t ((List.range x.len).map fun j =>
        roundScale (scaleFmt t) (modeOf e.frm) (x.eff (x.fmt = 0) j)) ((onesBands t x.len).map same)) s

end Sys2Proof.Machine
end

