-- ==== Sys2Proof/Machine/Save.lean ====
section
/-! DEFINITION. The save area: its header and sections, saving a strand and restoring it (R235, R236, R391 to
R400). -/

namespace Sys2Proof.Machine

/-! ### The sections (R396) -/

/-- A word of at most 8 bytes. -/
def wordBytes (v : Word) : List Byte := leBytes 8 v.toNat

/-- Section 1: x1 to x31, full bits, pc. -/
def section1 (st : Strand) : List Byte :=
  padTo 512 (((List.range 31).map fun k => wordBytes (readReg st (BitVec.ofNat 5 (k + 1)))).flatten ++
    leBytes 4 (~~~st.empty).toNat ++ wordBytes st.pc)

def loopBytes (e : LoopEntry) : List Byte :=
  wordBytes e.count ++ wordBytes e.index ++ leBytes 8 e.start.toNat ++ leBytes 8 e.stop.toNat

/-- Section 2: the loop stack, its bottom first. -/
def section2 (st : Strand) : List Byte :=
  padTo 256 (leBytes 8 st.loops.length ++ (st.loops.reverse.map loopBytes).flatten)

/-- The CSRs of section 4, in ascending number. -/
def savedCsrs : List Nat := userCsrs ++ systemCsrs ++ [0xC00, 0xC02, 0xC10, 0xC11, 0xC12, 0xC13, 0xC20, 0xC21, 0xC23]

def section4 (s : State) (st : Strand) : List Byte :=
  (savedCsrs.map fun n => wordBytes (csrRead s st n)).flatten

/-- A header of a scale register in the paired block (R235). -/
def qHeader (q : QReg) : List Byte := leBytes 8 (q.len + q.fmt.toNat * 2 ^ 12 + q.gen.toNat * 2 ^ 16)

/-- The entries of a scale register outside the parts of R217 are zero. -/
def qEntryUsed (q : QReg) (k : Nat) : Bool :=
  match q.fmt.toNat with
  | 0 => k < ceilDiv q.len 2 || (1024 ≤ k && k < 1024 + bandCount q.len)
  | 1 => k < q.len
  | 2 => k < 2 * q.len
  | _ => false

def qBytes (q : QReg) : List Byte :=
  ((List.range 2048).map fun k => leBytes 2 (if qEntryUsed q k then q.entry k else 0)).flatten

/-- Section 5: the paired block (R235). -/
def section5 (st : Strand) : List Byte :=
  padTo 64 (leBytes 4 (rg st)) ++ (st.tiles.toList.map fun t => leBytes 16 t.bits.toNat).flatten ++
  (st.q.toList.map qHeader).flatten ++ List.replicate 448 0 ++ (st.q.toList.map qBytes).flatten ++
  ((List.range 32).map fun n => padTo 64 (leBytes 4 (st.tags.toList.getD n 0).toNat) ++
    ((smReadList 0 (st.v.toList.getD n []) 0 (rg st)).map fun f => leBytes 4 f.toNat).flatten).flatten

/-- The token counters in the order of R34. -/
def tokenOrder : List (Queue × Queue) :=
  [(.v, .m), (.v, .c), (.v, .n), (.m, .v), (.m, .c), (.m, .n), (.c, .v), (.c, .m), (.c, .n), (.n, .v), (.n, .m), (.n, .c),
   (.v, .s), (.m, .s), (.c, .s), (.n, .s), (.s, .v), (.s, .m), (.s, .c), (.s, .n)]

/-- Section 6: tokens and barrier pending bits. -/
def section6 (st : Strand) : List Byte :=
  padTo 256 ((tokenOrder.map fun (a, b) => BitVec.ofNat 8 (tokens st a b).toNat) ++
    leBytes 2 (st.barPending.toNat % 2 ^ 16) ++ leBytes 1 (st.barPending.toNat / 2 ^ 16))

/-- Section 7: the receive queue. -/
def section7 (st : Strand) : List Byte :=
  padTo 33024 (leBytes 8 st.recvq.length ++ (st.recvq.map wordBytes).flatten)

/-- The size of the state of one engine (R396). The spec does not say what its bytes are: they are free values. -/
def engineBytes : Nat := 823296

/-- A section of the strand as it stands in its slot; empty registers of unissued V instructions are saved full. -/
def sectionBytes (s : State) (st : Strand) (n : Nat) : List Byte :=
  match n with
  | 1 => section1 (dumpQueues st)
  | 2 => section2 st
  | 3 => queueImage st
  | 4 => section4 s st
  | 5 => section5 st
  | 6 => section6 st
  | 7 => section7 st
  | 8 => (List.range (st.savedEngines.length * engineBytes / 8)).map (fun k => wordBytes (Config.freeWord (s.freeCtr + k))) |>.flatten
  | _ => []

/-- The size of a section for a number of rows and of engines. -/
def sectionSize (rows engines n : Nat) : Nat :=
  match n with
  | 1 => 512
  | 2 => 256
  | 3 => 4096
  | 4 => 256
  | 5 => 0x20400 + 32 * (64 + 4 * rows)
  | 6 => 256
  | 7 => 33024
  | 8 => engines * engineBytes
  | _ => 0

/-- Where a section begins in the area. -/
def sectionStart (rows engines n : Nat) : Nat :=
  256 + ((List.range (n - 1)).map fun k => sectionSize rows engines (k + 1)).sum

def requiredSize (rows engines : Nat) : Nat := sectionStart rows engines 9

/-! ### The save -/

/-- The save engine translates under the strand's tables (R395). -/
def savePort (t : Strand) : Port :=
  contextPort t.asid (natBits t.csr.atp.toNat 51 13 * 2 ^ 13) true 1 (some t.hoop)

/-- Reason codes of a stopped save for a trap (R395, R397). -/
def stopReason (t : Trap) : Nat := if t.cause = causePf then 1 else if t.cause = causePoison then 4 else 3

/-- The present-engine bits of a save. -/
def engineMask (t : Strand) : Nat := (t.savedEngines.map fun e => 2 ^ e.1).sum

/-- A save area lies in HBM (R395): a page of it that is mapped elsewhere is refused as ACC. -/
def inHbm (p : Port) (addr n : Nat) (k : AccKind) : Act Unit :=
  (pagePieces addr n).forM fun (a, _) => do
    let pl ← translate p a k
    match regionOf pl.pa with
    | .hbm _ => pure ()
    | _ => raise causeAcc a

/-- Reads and writes of a save area. -/
def areaRead (p : Port) (addr n : Nat) : Act (List Byte) := do
  inHbm p addr n .load
  vsReadBlock p addr n

def areaWrite (p : Port) (addr : Nat) (bs : List Byte) : Act Unit := do
  inHbm p addr bs.length .store
  vsWriteBlock p addr bs

/-- Writes the fields of the header that the device writes (R395): the state last. -/
def writeHeader (t : Strand) (area state reason fault : Nat) : Act Unit := do
  let p := savePort t
  areaWrite p area (leBytes 4 1)
  areaWrite p (area + 0x10) (leBytes 8 (requiredSize (rg t) t.savedEngines.length) ++
    leBytes 1 (max 1 t.saveSec) ++ leBytes 4 t.saveOff ++ leBytes 3 0 ++ leBytes 4 (rg t) ++ leBytes 2 t.asid.toNat)
  areaWrite p (area + 0x28) (leBytes 8 fault ++ leBytes 4 ((t.pendingGrant.map fun g => 512 * g.length).getD 0) ++
    leBytes 4 (engineMask t))
  areaWrite p (area + 0x26) (leBytes 1 state ++ leBytes 1 reason)

/-- The record of a failed save or restore (R448): header state and reason, required size. -/
def saveError (t : Strand) (state reason : Nat) (s : State) : State :=
  addErr (strandErr 10 1 t (leBytes 1 state ++ leBytes 1 reason ++
    leBytes 8 (requiredSize (rg t) t.savedEngines.length))) s

/-- The save stops (R397): the strand stays in Saving, and the header shows why, if it can be written. -/
def stopSave (i : StrandId) (reason fault : Nat) (s : State) : State :=
  match findStrand s i with
  | none => s
  | some t =>
    let s1 := updStrand i (fun t => { t with saveStop := true }) s
    let s2 := match t.saveArea with
      | some a => (runAct (writeHeader t a.toNat 3 reason fault) s1).2
      | none => s1
    saveError t 3 reason s2

/-- The areas that saved strands and saves in progress hold (R395). -/
def heldAreas (s : State) (asid : BitVec 12) : List Word :=
  (allStrands s).filterMap fun t => if t.asid = asid then t.saveArea else none

/-- The lowest-numbered free entry of the context's list, from entry k on (R395). The list lies in HBM under the context's
base key slot, and an entry is read as a page-table entry is (R407, R410). -/
def freeArea (p : Port) (held : List Word) : (n k : Nat) → Act (Option Word)
  | 0, _ => pure none
  | n + 1, k => do
    let s ← getS
    let a := ctxSaveList s p.asid.toNat + 8 * k
    let v := BitVec.ofNat 64 (← readPte p a a)
    if v = 0 ∨ held.contains v then freeArea p held n (k + 1) else pure (some v)

/-- The engines that no other resident strand of their grant still needs: the save that begins last for a grant
writes their state (R396). -/
def enginesToSave (s : State) (t : Strand) : List (Nat × MatEngine) :=
  let hp := hoopOf s t.hoop
  (List.range 2).filterMap fun k =>
    match hp.engines[k]?, hp.grants[t.slot]? with
    | some e, some g =>
      if g.engines.getLsbD k && !(hp.grants.toList.zipIdx.any fun (o, j) => j ≠ t.slot && o.engines.getLsbD k &&
          (strandAt s t.hoop j).any fun u => u.state ≠ .saving || u.saveSec = 0) then some (k, e) else none
    | _, _ => none

/-- Begins the save in an area: the header is read and the size checked before any section is written. -/
def beginSave (t : Strand) (area : Word) (s : State) : State :=
  let t1 := { t with saveArea := some area, savedEngines := enginesToSave s t, saveSec := 1, saveOff := 0, saveStop := false
                     lateLists := [] }
  let s1 := updStrand t.id (fun _ => t1) s
  match runAct (areaRead (savePort t1) area.toNat 256) s1 with
  | (.error (.trap w), s2) => stopSave t.id (stopReason w) w.tval.toNat s2
  | (.error _, _) => s1
  | (.ok h, s2) =>
    if field h 8 8 < requiredSize (rg t1) t1.savedEngines.length then stopSave t.id 2 0 s2
    else match runAct (writeHeader t1 area.toNat 1 0 0) s2 with
      | (.error (.trap w), s3) => stopSave t.id (stopReason w) w.tval.toNat s3
      | (_, s3) => s3

/-- The save cannot begin: the strand stays in Saving, with one record of the reason and the size that it needs
(R395). -/
def holdSave (t : Strand) (reason : Nat) (s : State) : State :=
  if t.saveStop then s
  else saveError { t with savedEngines := enginesToSave s t } 3 reason (updStrand t.id (fun t => { t with saveStop := true }) s)

/-- A save that has not begun takes an area and begins, or is held: when no area of the list is free, or the list cannot be
read (R395, R410). -/
def startSave (t : Strand) (s : State) : State :=
  match runAct (if t.saveNamed then pure t.saveArea else freeArea (savePort t) (heldAreas s t.asid) 64 0) s with
  | (.ok (some a), s1) => beginSave t a s1
  | (.ok none, s1) => holdSave t 2 s1
  | (.error (.trap w), s1) => holdSave t (stopReason w) s1
  | (.error _, _) => s

/-- SAVE_BEGIN (R395). -/
def execSaveBegin (i : StrandId) (s : State) : Out :=
  match findStrand s i with
  | some t => if t.state = .saving ∧ t.saveSec = 0 then .next (startSave t s) else .next s
  | none => .next s

/-- Writes bytes in pieces of one page; the bytes of earlier pages stay written (R397). -/
def savePieces (p : Port) (i : StrandId) (addr : Nat) (bs : List Byte) : List (Nat × Nat) → Act Unit
  | [] => pure ()
  | (a, k) :: rest => do
    areaWrite p a ((bs.drop (a - addr)).take k)
    modS (updStrand i fun t => { t with saveOff := t.saveOff + k })
    savePieces p i addr bs rest

/-- The save carries the poison of lane fields to the words that receive them (R440). -/
def savePoison (t : Strand) (area : Nat) : Act Unit :=
  (List.range 32).forM fun n => (t.vpoison.toList.getD n []).forM fun (r, _) => do
    let a := area + sectionStart (rg t) t.savedEngines.length 5 + 0x20400 + n * (64 + 4 * rg t) + 64 + 4 * r
    let pl ← translate (savePort t) a .store
    carryPoison (savePort t) pl 4

/-- CONTEXT_SAVE: the save engine writes the next section, or what is left of it (R396, R397). -/
def execContextSave (i : StrandId) (s : State) : Out :=
  match findStrand s i with
  | none => .next s
  | some t =>
    match t.saveArea with
    | none => .next s
    | some area =>
      if t.state ≠ .saving ∨ t.saveSec = 0 ∨ 8 < t.saveSec ∨ t.saveStop then .next s
      else
        let bs := (sectionBytes s t t.saveSec).drop t.saveOff
        let at_ := area.toNat + sectionStart (rg t) t.savedEngines.length t.saveSec + t.saveOff
        let work : Act Unit := do
          savePieces (savePort t) i at_ bs (pagePieces at_ bs.length)
          if t.saveSec = 5 then savePoison t area.toNat
        match runAct work s with
        | (.ok _, s1) =>
          .next { updStrand i (fun t => { t with saveSec := t.saveSec + 1, saveOff := 0 }) s1 with
            freeCtr := if t.saveSec = 8 then s1.freeCtr + bs.length else s1.freeCtr }
        | (.error (.trap w), s1) => .next (stopSave i (stopReason w) w.tval.toNat s1)
        | (.error _, s1) => .next s1

/-- SAVE_RESTART: service firmware restarts a stopped save, which continues from its progress word (R397). -/
def execSaveRestart (i : StrandId) (s : State) : Out :=
  match findStrand s i with
  | none => .next s
  | some t =>
    match t.saveArea with
    | none => .next s
    | some area =>
      if t.state ≠ .saving ∨ !t.saveStop then .next s
      else
        match runAct (areaRead (savePort t) area.toNat 256) s with
        | (.error (.trap w), s1) => .next (stopSave i (stopReason w) w.tval.toNat s1)
        | (.error _, s1) => .next s1
        | (.ok h, s1) =>
          if field h 8 8 < requiredSize (rg t) t.savedEngines.length then .next (stopSave i 2 0 s1)
          else .next (updStrand i (fun t => { t with saveStop := false, saveSec := max 1 t.saveSec }) s1)

/-- An entry of the ready pool for a strand to restore (R383). -/
def restoreEntry (s : State) (t : Strand) : PoolEntry :=
  { graph := 0, node := 0, strand := some t.id, launch := none, level := t.level, job := jobOf s 64 t.id.launch
    age := s.ac }

/-- An entry joins the ready pool, which holds up to 16,384 (R383). -/
def joinPool (e : PoolEntry) (s : State) : State :=
  if s.hub.ready.length < 16384 then { s with hub := { s.hub with ready := s.hub.ready ++ [e] } } else s

/-- A saved strand enters the ready pool, at once or when there is room (R383). -/
def enterPool (t : Strand) (s : State) : State :=
  if t.due then s else joinPool (restoreEntry s t) (updStrand t.id (fun t => { t with due := true }) s)

/-- SAVE_COMPLETE: the header is written last, and the strand is Saved; its slot, lanes and followers are released
(R31, R39, R396). Its queues stand as they were saved until it is restored. -/
def execSaveComplete (i : StrandId) (s : State) : Out :=
  match findStrand s i with
  | none => .next s
  | some t =>
    match t.saveArea with
    | none => .next s
    | some area =>
      if t.state ≠ .saving ∨ t.saveSec ≠ 9 ∨ t.saveStop then .next s
      else
        match runAct (writeHeader t area.toNat 2 0 0) s with
        | (.error (.trap w), s1) => .next (stopSave i (stopReason w) w.tval.toNat s1)
        | (.error _, s1) => .next s1
        | (.ok _, s1) =>
          let s2 := dirtyArrays t.arrays (emitSlip t (setRunState i .saved 0 s1))
          let s3 := updStrand i (fun t => { t with
            followers := [], preempt := false, graceOut := false, graceAc := 0, resv := none, links := [] }) s2
          .next (if t.saveNamed then s3 else enterPool t s3)

/-! ### The stop (R391, R392) -/

/-- The element at which a `vsend` stands that waits for a message to be accepted (R309). -/
def sendElement (st : Strand) : Option Nat :=
  match st.vq with
  | e :: _ => if e.begun && !isMarker e.word && cmdOf e.word = 0x30 then some e.vstart else none
  | [] => none

/-- A `kvgather` that is pre-empted begins again with fresh translations (R356). -/
def restartGather (e : CEntry) : CEntry :=
  if cmdOf e.word = 0x44 ∧ !isMarker e.word ∧ !e.done then { e with step := 0, accepted := false, prog := Progress.none } else e

/-- The strand drains and enters Saving: the front's producers have finished, reservation and links are lost, what
waits at the message unit is withdrawn, tvcp names the oldest V instruction that has not retired, and telem the element
of a waiting `vsend` (R309, R392). -/
def drain (s : State) : State :=
  let st := settlePending s.strand
  let telem := ((sendElement st).map (BitVec.ofNat 64)).getD st.csr.telem
  let tvcp := ((st.vq.head?).map VEntry.pc).getD st.pc &&& (2 ^ 48 - 1)
  let s1 := withdrawMessages st.id { s with strand := { st with
    csr := { st.csr with telem := telem, tvcp := tvcp }, cq := st.cq.map restartGather
    resv := none, links := [], wait := none, waits := Vector.replicate 5 0, atLoopPoint := false
    saveSec := 0, saveOff := 0, saveStop := false } }
  enterState .saving 0 s1

/-- No answer of the hub is outstanding: such a producer finishes before the strand is saved (R37). -/
def noRequests (s : State) : Bool := !(s.hub.reqs.any fun r => r.strand = s.strand.id)

/-- PREEMPTION_STOP: the strand in focus stands at a pre-emption point, or its grace is over (R391). -/
def execPreemptionStop (s : State) : Out :=
  let st := s.strand
  let atPoint : Bool := st.loops = [] || st.atLoopPoint || st.graceOut
  let live : Bool := match st.state with
    | .running | .waiting => true
    | _ => false
  if live && st.node.isNone && st.preempt && !st.cancelled && atPoint && !st.idling && st.pending.isEmpty && noRequests s then
    .next (drain s)
  else .next s

/-- The work of CTXSAVE: the area is named once the queues have released what they hold. -/
def nameSaveArea (a : BitVec 5) : Act (Option Word) := do
  let st ← getStrand
  checkAlign (readReg st a).toNat 4096
  releaseV
  if !noRequests (← getS) then waitFor .uncounted
  acquire
  modStrand fun t => { t with saveArea := some (readReg st a), saveNamed := true }
  pure none

/-- CTXSAVE (R400): the strand's own pre-emption point; it drains with the pc after the instruction and saves into the
area that its operand names. A strand in instruction-step mode is saved too: its next boundary is after the restore. -/
def execCtxsave (a : BitVec 5) (s : State) : Out :=
  match (do systemOnly; needFull [a]; nameSaveArea a : Act (Option Word)) s with
  | (.ok _, s') => .next (drain (advance s'))
  | _ => frontInstr systemOnly [a] (nameSaveArea a) s

/-- The saved strand of a context that an area holds: the one that was saved there, else the one that the saved
`strandid` and `launchid` name. -/
def strandOfArea (s : State) (asid : BitVec 12) (area : Word) (ids : Nat × Nat) : Option Strand :=
  match (allStrands s).find? fun t => t.state = .saved && t.asid = asid && t.saveArea = some area with
  | some t => some t
  | none => (allStrands s).find? fun t => t.state = .saved && t.asid = asid && t.id.launch = ids.2 && t.id.index = ids.1

/-- CTXLOAD (R400): the header is checked and the strand enters the ready pool. -/
def execCtxload (a : BitVec 5) (s : State) : Out :=
  frontInstr systemOnly [a] (do
    let st ← getStrand
    let area := readReg st a
    checkAlign area.toNat 4096
    releaseV
    let p := strandPort st 1
    match ← tryTrap (vsReadBlock p area.toNat 256) with
    | .error _ => raise causeAcc area.toNat
    | .ok h => do
      if field h 0x26 1 ≠ 2 ∨ field h 0x24 2 ≠ st.asid.toNat then raise causeAcc area.toNat
      let ids ← match ← tryTrap (vsReadBlock p (area.toNat + sectionStart 0 0 4) 256) with
        | .ok c => pure (natBits (field c (8 * 25) 8) 23 16, field c (8 * 26) 8)
        | .error _ => pure (0, 4096)
      let s ← getS
      match strandOfArea s st.asid area ids with
      | some t => do
        modS (updStrand t.id fun t => { t with saveArea := some area })
        modS fun s => match findStrand s t.id with
          | some t => enterPool t s
          | none => s
      | none => pure ()
    acquire
    pure none) s

/-! ### Restore (R398, R399) -/

/-- The blocks of lanes that a slot's grant holds. -/
def grantBlocks (s : State) (h k : Nat) : List Nat :=
  match (hoopOf s h).grants[k]? with
  | some g => (List.range 32).filter fun b => g.lanes.getLsbD b
  | none => []

/-- A slot of a context that can take a strand or lend its lanes (R385, R390); none does while the context is
descheduled, not for a system-level strand either: R323 and R332 do not say which strands may be placed then (DESIGN
CHOICE, log 102). -/
def slotIdle (s : State) (asid : BitVec 12) (h k : Nat) : Bool :=
  !s.hub.descheduled.contains asid && hoopPresent s h && !s.hub.fencing.getLsbD (h / 12) && !slotOccupied s h k &&
  (match (hoopOf s h).grants[k]? with
    | some g => g.enabled && g.asid = asid
    | none => false) &&
  match (hoopOf s h).waiting with
  | some w => (w.slots[k]?).all (·.isNone)
  | none => true

/-- The mesh distance of two hoops of a die (4 columns by 3 rows). -/
def meshDistance (a b : Nat) : Nat :=
  let d (x y : Nat) : Nat := (x - y) + (y - x)
  d (a % 12 % 4) (b % 12 % 4) + d (a % 12 / 4) (b % 12 / 4)

/-- The order in which hoops are tried (R385). -/
def hoopOrder : Option Nat → List Nat
  | none => List.range 48
  | some h =>
    ((List.range 6).map fun d => (List.range 48).filter fun x => x / 12 = h / 12 && meshDistance x h = d).flatten ++
      (List.range 48).filter fun x => x / 12 ≠ h / 12

/-- Sorts by hoop and array (R46). -/
def insertArray (x : Nat × Nat) : List (Nat × Nat) → List (Nat × Nat)
  | [] => [x]
  | y :: ys => if x.1 < y.1 ∨ (x.1 = y.1 ∧ x.2 ≤ y.2) then x :: y :: ys else y :: insertArray x ys

def sortArrays : List (Nat × Nat) → List (Nat × Nat)
  | [] => []
  | x :: xs => insertArray x (sortArrays xs)

/-- Blocks lent by the first idle slot with lanes of each other hoop, until enough are found: blocks and followers
(R30, R31). -/
def lendBlocks (s : State) (asid : BitVec 12) : List Nat → Nat → List (Nat × Nat) × List (Nat × Nat)
  | [], _ => ([], [])
  | h :: hs, need =>
    if need = 0 then ([], []) else
    match (List.range 8).find? fun k => slotIdle s asid h k && grantBlocks s h k ≠ [] with
    | none => lendBlocks s asid hs need
    | some k =>
      let bs := (grantBlocks s h k).take need
      let r := lendBlocks s asid hs (need - bs.length)
      (bs.map (fun b => (h, b)) ++ r.1, (h, k) :: r.2)

/-- The arrays and followers that a strand receives in a slot (R29, R30, R385): the lowest-numbered k blocks, or all
of them for a request of 0. Every array must have been wiped. -/
def grantFor (s : State) (asid : BitVec 12) (h slot k : Nat) (spans : Bool) : Option (List (Nat × Nat) × List (Nat × Nat)) :=
  if !slotIdle s asid h slot then none else
  let own := grantBlocks s h slot
  let want := if k = 0 then own.length else k
  let (lent, foll) := if want ≤ own.length ∨ !spans then ([], [])
    else lendBlocks s asid ((hoopOrder (some h)).filter fun x => x ≠ h) (want - own.length)
  let blocks := (own.take want).map (fun b => (h, b)) ++ lent
  let arrays := sortArrays (blocks.map fun (x, b) => blockArrays x b).flatten
  if blocks.length ≠ want ∨ want = 0 ∨ arrays.any fun (x, a) => (hoopOf s x).dirty.getLsbD a then none
  else some (arrays, foll)

/-- The span flag of a strand's launch (R25). -/
def spansOf (s : State) (t : Strand) : Bool :=
  (findLaunch s t.id.launch).any fun l => natBits (field l.bytes 0x16 2) 0 0 = 1

/-- A reason of R399 as a stop of the restore. -/
abbrev Restoring (α : Type) := Except Nat α

def failIf (c : Bool) (reason : Nat) : Restoring Unit := if c then .error reason else .ok ()

/-- Section 1. -/
def restore1 (b : List Byte) (t : Strand) : Restoring Strand := do
  failIf (!allZero b 260 252) 20
  let t1 := { t with x := Vector.ofFn fun k => if k.val = 0 then 0 else BitVec.ofNat 64 (field b (8 * (k.val - 1)) 8)
                     empty := ~~~(BitVec.ofNat 32 (field b 248 4)) &&& ~~~1, pc := BitVec.ofNat 64 (field b 252 8) }
  pure t1

/-- Section 2. -/
def restore2 (b : List Byte) (t : Strand) : Restoring Strand := do
  let n := field b 0 8
  failIf (6 < n) 20
  let at_ (k o n : Nat) : Nat := field b (8 + 32 * k + o) n
  let es := (List.range n).map fun k =>
    { count := BitVec.ofNat 64 (at_ k 0 8), index := BitVec.ofNat 64 (at_ k 8 8)
      start := BitVec.ofNat 48 (at_ k 16 6), stop := BitVec.ofNat 48 (at_ k 24 6) : LoopEntry }
  let t1 := { t with loops := es.reverse }
  failIf (section2 t1 ≠ b) 20
  pure t1

/-- Section 3: the queue images, each entry from its own image (R398). What a handler's own images dumped stays. -/
def restore3 (b : List Byte) (t : Strand) : Restoring Strand := do
  let v := (chunksOf 32 64 b).zip (chunksOf 8 64 (b.drop 0xE00))
  let c := chunksOf 32 48 (b.drop 0x800)
  failIf (v.any fun (e, x) =>
    if usedEntry e then vEntryBytes (vEntryOf e x none) ≠ e || vEntryExt (vEntryOf e x none) ≠ x
    else !(e ++ x).all (· = 0)) 20
  failIf (c.any fun e => if usedEntry e then cEntryBytes (cEntryOf e none) ≠ e else !e.all (· = 0)) 20
  pure (requeue b t)

/-- Section 4: the CSRs that are written, and vl, vtype, mtype and the counters. A vl above VLMAX and an mtype of 3, for
which R399 names no rejection, are taken as they stand (DESIGN CHOICE, log 104). -/
def restore4 (s : State) (b : List Byte) (t : Strand) : Restoring Strand := do
  let vals := savedCsrs.zipIdx.map fun (n, k) => (n, BitVec.ofNat 64 (field b (8 * k) 8))
  failIf (vals.any fun (n, v) => n < 0xC00 && csrStore n v ≠ v) 20
  let of (n : Nat) : Word := ((vals.find? fun x => x.1 = n).map (·.2)).getD 0
  failIf (2 ^ 32 ≤ (of 0xC20).toNat || (!vtypeLegal (of 0xC21) && of 0xC21 ≠ vill) || 4 ≤ (of 0xC23).toNat) 20
  let t1 := vals.foldl (init := t) fun t (n, v) => csrWrite n v t
  pure { t1 with vl := (of 0xC20).toNat, vtype := of 0xC21, mtype := BitVec.ofNat 2 (of 0xC23).toNat
                 startAc := (s.ac : Int) - (of 0xC00).toNat, instret := (of 0xC02).toNat }

/-- A scale register of the paired block (R235, R236). -/
def qOf (header entries : List Byte) : Restoring QReg := do
  let len := natBits (field header 0 8) 11 0
  let fmt := natBits (field header 0 8) 13 12
  let q : QReg := { entries := smWriteList 0 [] 0 ((chunksOf 2 2048 entries).map fun e => BitVec.ofNat 16 (leNat e))
                    fmt := BitVec.ofNat 2 fmt, len := len, gen := BitVec.ofNat 12 (natBits (field header 0 8) 27 16) }
  failIf (qCapacity fmt < len) 19
  failIf (qHeader q ≠ header || qBytes q ≠ entries) 19
  pure q

/-- Section 5 into a grant of the same number of rows: Rg, the reserved bits of tags and tile entries (R53, R55), then the
checks of R236 (DEDUCED, log 105). A tile entry that became stale while its strand was out stays
stale (R222, R236). -/
def restore5 (b : List Byte) (rows : Nat) (t : Strand) : Restoring Strand := do
  failIf (field b 0 4 ≠ rows) 18
  let unit (n : Nat) : List Byte := (b.drop (0x20400 + n * (64 + 4 * rows))).take (64 + 4 * rows)
  let reserved (k : Nat) : Nat := field b (0x40 + 16 * k) 16
  failIf ((List.range 16).any fun k => natBits (reserved k) 127 120 ≠ 0 || natBits (reserved k) 64 50 ≠ 0) 20
  failIf ((List.range 32).any fun n => natBits (field (unit n) 0 4) 31 25 ≠ 0) 20
  failIf (!allZero b 4 60 || !allZero b 0x240 448) 19
  let qs ← (List.range 32).mapM fun n => qOf ((b.drop (0x140 + 8 * n)).take 8) ((b.drop (0x400 + 4096 * n)).take 4096)
  failIf ((List.range 32).any fun n => !allZero (unit n) 4 60) 19
  let tile (k : Nat) : TileEntry :=
    let bits := BitVec.ofNat 128 (field b (0x40 + 16 * k) 16)
    match t.tiles.toList[k]? with
    | some o => if o.bits ||| 1 <<< 49 = bits ||| 1 <<< 49 then { o with bits := o.bits ||| bits }
      else { bits := bits, pages := [], maps := [] }
    | none => { bits := bits, pages := [], maps := [] }
  let fields (n : Nat) : SMap (BitVec 32) :=
    smWriteList 0 [] 0 ((chunksOf 4 rows ((unit n).drop 64)).map fun e => BitVec.ofNat 32 (leNat e))
  pure { t with tiles := Vector.ofFn fun k => tile k.val, q := Vector.ofFn fun k => (qs[k.val]?).getD QReg.empty
                tags := Vector.ofFn fun k => BitVec.ofNat 32 (field (unit k.val) 0 4)
                v := Vector.ofFn fun k => fields k.val, vpoison := Vector.replicate 32 [] }

/-- A token that the darner pushed while the counters were out (R352). -/
def latePush (t : Strand) (q : Queue) : Strand :=
  if tokens t .c q = 15 then t else setTokens t .c q (tokens t .c q + 1)

/-- Section 6, with the tokens that have been pushed since. -/
def restore6 (b : List Byte) (t : Strand) : Restoring Strand := do
  let t1 := tokenOrder.zipIdx.foldl (init := t) fun t ((q, r), k) => setTokens t q r (BitVec.ofNat 4 (field b k 1))
  let t2 := { t1 with barPending := BitVec.ofNat 17 (field b 20 2 + field b 22 1 * 2 ^ 16) }
  failIf (section6 t2 ≠ b) 20
  pure { t.lateLists.foldl latePush t2 with lateLists := [] }

/-- Section 7. -/
def restore7 (b : List Byte) (t : Strand) : Restoring Strand := do
  let n := field b 0 8
  failIf (4096 < n) 20
  let t1 := { t with recvq := (chunksOf 8 n (b.drop 8)).map fun e => BitVec.ofNat 64 (leNat e) }
  failIf (section7 t1 ≠ b) 20
  pure t1

def restoreSection (s : State) (rows n : Nat) (b : List Byte) (t : Strand) : Restoring Strand :=
  match n with
  | 1 => restore1 b t
  | 2 => restore2 b t
  | 3 => restore3 b t
  | 4 => restore4 s b t
  | 5 => restore5 b rows t
  | 6 => restore6 b t
  | 7 => restore7 b t
  | _ => pure t

/-- The checks of the header (R399), in their order. -/
def headerChecks (h : List Byte) (t : Strand) : Restoring Unit := do
  failIf (field h 0x26 1 ≠ 2 || field h 0 4 ≠ 1) 16
  failIf (field h 0x24 2 ≠ t.asid.toNat) 17
  let mask := field h 0x34 4
  let need := requiredSize (field h 0x20 4) (mask % 2 + mask / 2 % 2)
  failIf (field h 0x10 8 ≠ need || field h 8 8 < need || field h 0x20 4 ≠ rg t) 18
  failIf (!allZero h 4 4 || natBits (field h 0x18 8) 63 40 ≠ 0 || 4 ≤ mask || !allZero h 0x38 200) 20

/-- Reads and checks the body section by section. -/
def restoreBody (area rows engines : Nat) (p : Port) : List Nat → Strand → Act (Restoring Strand)
  | [], t => pure (.ok t)
  | n :: ns, t => do
    match ← tryTrap (areaRead p (area + sectionStart rows engines n) (sectionSize rows engines n)) with
    | .error _ => pure (.error 21)
    | .ok b => do
      let s ← getS
      match restoreSection s rows n b t with
      | .error r => pure (.error r)
      | .ok t1 => restoreBody area rows engines p ns t1

/-- The image of a strand as a strand, or the reason of its rejection (R399). A pending reduced grant and the engines whose
state is present are those of the header (R393, R395); the layout of an engine's state is not given, and it is what the save
wrote (log 47). -/
def readImage (t : Strand) (area : Nat) : Act (Restoring Strand) := do
  match ← tryTrap (areaRead (savePort t) area 256) with
  | .error _ => pure (.error 21)
  | .ok h =>
    match headerChecks h t with
    | .error r => pure (.error r)
    | .ok _ =>
      let reduced := field h 0x30 4 / 512
      let present := t.savedEngines.filter fun e => natBits (field h 0x34 4) e.1 e.1 = 1
      restoreBody area (rg t) (natBits (field h 0x34 4) 0 0 + natBits (field h 0x34 4) 1 1) (savePort t) [1, 2, 3, 4, 5, 6, 7, 8]
        { t with savedEngines := present, pendingGrant := if reduced = 0 then none else some (t.arrays.take reduced) }

/-- Tile entries whose ranges no longer map the pages that they watched become stale (R236). -/
def retranslate (p : Port) (s : State) (e : TileEntry) : TileEntry :=
  let rows := (e.bits.extractLsb' 65 16).toNat
  let cols := (e.bits.extractLsb' 81 16).toNat
  let width := if (e.bits.extractLsb' 97 3).toNat = 2 then 4 else 8
  if !e.bits.getLsbD 48 then e else
    match runAct (watchedPieces p (e.bits.extractLsb' 0 48).toNat (rows * cols * width / 8)) s with
    | (.ok (ps, ms), _) => if ps = e.pages ∨ e.pages = [] then { e with pages := ps, maps := ms }
        else { bits := e.bits ||| (1#128 <<< 49), pages := ps, maps := ms }
    | (.error _, _) => { e with bits := e.bits ||| (1#128 <<< 49) }

/-- The strand takes its place (R398): rows in the order of the new grant, `tvq` from the trap table (R408), a pending
reduced grant recorded again, the leader's blocks kept first; the state of an engine goes to a slot whose grant holds that
engine (R240). -/
def placeRestored (t : Strand) (h slot : Nat) (grant : List (Nat × Nat) × List (Nat × Nat)) (s : State) : State :=
  let reduced := t.pendingGrant.map fun g =>
    sortArrays (((grant.1.filter fun x => x.1 = h) ++ grant.1.filter fun x => x.1 ≠ h).take g.length)
  let csr := { t.csr with tvq := BitVec.ofNat 64 (trapImageBase s t.asid.toNat + 4096 * (8 * h + slot)) }
  let t1 : Strand := { t with
    hoop := h, slot := slot, arrays := grant.1, followers := grant.2, pendingGrant := reduced, csr := csr, state := .ready
    due := false, saveArea := none, saveNamed := false, saveSec := 0, savedEngines := [], wait := none, sliceAc := 0
    skipBreak := false, haltDue := none, slip := Vector.replicate 5 0, editImage := none }
  let t2 : Strand := { t1 with tiles := t1.tiles.map (retranslate (strandPort t1 2) s) }
  let t3 := (t.haltDue.map fun r => haltStrand r t2).getD t2
  let s0 := updStrand t.id (fun _ => t3) s
  let s1 := if t3.state = .halted then s0 else emitChange t3 .saved t3.state 0 s0
  let s2 := dropEntries (fun e => e.strand = some t.id) s1
  (t.savedEngines.filter fun (k, _) => (grantOf s h slot).engines.getLsbD k).foldl (init := s2) fun s (k, e) =>
    setHoop h { hoopOf s h with engines := (hoopOf s h).engines.setIfInBounds k { e with asid := some t.asid } } s

/-- A rejected image (R399): the header shows why, and the strand is Faulted, in no slot. -/
def rejectImage (t : Strand) (area reason : Nat) (s : State) : State :=
  let s1 := (runAct (areaWrite (savePort t) (area + 0x26) [4, BitVec.ofNat 8 reason]) s).2
  let s2 := faultedRecord t (saveError t 4 reason (setRunState t.id .faulted 0 s1))
  updStrand t.id (fun t => { t with hoop := 63, slot := 255, arrays := [], due := false, saveArea := none })
    (dropEntries (fun e => e.strand = some t.id) s2)

/-- A saved strand is restored into a slot (R398, R399). An arrival whose phase completed while the strand was Saved
is no longer pending (R277, R278), and a command that the image no longer holds is no writer (R279). -/
def restoreInto (t : Strand) (h slot : Nat) (s : State) : State :=
  match t.saveArea, grantFor s t.asid h slot (t.arrays.length / 8) (spansOf s t) with
  | some area, some grant =>
    match runAct (readImage t area.toNat) s with
    | (.ok (.ok t1), s1) =>
      let s2 := dropWriters t t1 s1
      dropBuffers h (placeRestored { t1 with barPending := t1.barPending &&& t.barPending } h slot grant s2)
    | (.ok (.error r), s1) => rejectImage t area.toNat r s1
    | (.error _, s1) => s1
  | _, _ => s

end Sys2Proof.Machine
end

