-- ==== Sys2Proof/Machine/Watchdog.lean ====
section
/-! DEFINITION. The wait counters and the stall watchdog (R38), and the end of a wait (R39). -/

namespace Sys2Proof.Machine

/-- The wait kind that STALL reports, for the waits that the watchdog counts (R38). -/
def WaitKind.code : WaitKind → Option Nat
  | .token .. => some 0
  | .barrier _ => some 1
  | .fe _ => some 2
  | .counter .. | .publish _ => some 3
  | .message => some 4
  | .uncounted => none

/-- The pop of an entry that its counter cannot satisfy yet. -/
def waitingPop (st : Strand) (q : Queue) (w : Word32) (popped : Bool) : Bool :=
  !popped && match tkMeaning q (tkOf w) with
    | some (false, src) => tokens st src q = 0
    | _ => false

/-- The kind of wait of the V head: a pop, or a message of `vsend` and `vrecv` (R309, R310). -/
def vecWait (st : Strand) : Option Nat :=
  match st.vq with
  | [] => none
  | e :: _ =>
    let f := Fields.ofWord e.word
    if e.done then none
    else if isMarker e.word then (if tokens st .s .v = 0 then some 0 else none)
    else if waitingPop st .v e.word e.popped then some 0
    else if f.op = 0b1011011#7 ∧ f.f7 = 0b0110001#7 ∧ st.recvq = [] then some 4
    else if e.begun then some 4
    else none

/-- The command of an engine's queue that waits, with the kind of its wait: an accepted `msgx` for its message (R311),
else the next command to be accepted for its pop, or a marker for its token (R35, R112). -/
def engineWait (s : State) (st : Strand) (q : Queue) : Option (CEntry × Nat) :=
  match (cmdQueue st q).find? fun e => q = .n && e.accepted && !e.done && cmdOf e.word = 0x32 with
  | some e => some (e, 4)
  | none =>
    match (cmdQueue st q).find? fun e => !e.accepted with
    | none => none
    | some e =>
      if isMarker e.word then (if tokens st .s q = 0 then some (e, 0) else none)
      else if waitingPop st q e.word e.popped then some (e, 0)
      else if q = .n && cmdOf e.word = 0x32 &&
        (s.hub.messages.any fun m => m.sender = st.id && m.dst = BitVec.ofNat 16 e.a.toNat) then some (e, 4)
      else none

/-- The condition of a wait of the front is met. -/
def waitOver (s : State) (st : Strand) : WaitKind → Bool
  | .token a b true => tokens st a b ≠ 15
  | .token a b false => tokens st a b ≠ 0
  | .barrier k => !st.barPending.getLsbD k
  | .fe r => !isEmpty st r
  | .counter c n => (counterOf s c).all fun v => v.final || n ≤ v.count.toNat
  | .publish a =>
    match (runAct (vsReadNat { strandPort st 1 with race := 0 } (a + 8) 4) s).1 with
    | .ok v => v = 2 || v = 3 || v = 4
    | .error _ => true
  | .message | .uncounted => true

/-- The kind of wait that stands at the head of a queue, until its condition is met (R38). -/
def queueWait (s : State) (st : Strand) (q : Queue) : Option Nat :=
  match q with
  | .s => (st.wait.filter fun k => !waitOver s st k).bind WaitKind.code
  | .v => vecWait st
  | q => (engineWait s st q).map (·.2)

/-- The watchdog of a strand counts while it runs or waits. -/
def counted (st : Strand) : Bool := st.state = .running || st.state = .waiting

/-- The wait counters after an amount of ac (R38). -/
def advanceWaits (s : State) (st : Strand) (dt : Nat) : Strand :=
  if !counted st then st else
    { st with waits := Vector.ofFn fun (k : Fin 5) =>
        match Queue.ofCode k.val with
        | some q => if (queueWait s st q).isSome then st.waits.get k + dt else 0
        | none => 0 }

/-- STALL: the wait counter of a queue has reached 2^32 ac and the waiting instruction traps (R38). -/
def execStall (q : BitVec 3) (s : State) : Out :=
  match Queue.ofCode q.toNat with
  | none => .next s
  | some q =>
    let st := s.strand
    match queueWait s st q with
    | none => .next s
    | some kind =>
      if !counted st || !isStrand st || st.waits.toList.getD q.code 0 < 2 ^ 32 then .next s
      else
        let t : Trap := { cause := causeStall, tval := BitVec.ofNat 64 (kind * 16 + q.code), telem := 0 }
        match q with
        | .s => .next (frontTrap t s)
        | .v =>
          match st.vq with
          | e :: _ => .next (reportV e t s)
          | [] => .next s
        | q =>
          match engineWait s st q with
          | some (e, _) => .next { s with strand := { st with
              pending := st.pending ++ [{ trap := t, queue := q, seq := e.seq, elem := e.step }] } }
          | none => .next s

/-- WAIT_END: the condition of a Waiting strand is met and it runs again (R39): the front issues its instruction
anew. -/
def execWaitEnd (s : State) : Out :=
  match s.strand.state, s.strand.wait with
  | .waiting, some k =>
    if waitOver s s.strand k then
      .next { s with strand := { s.strand with state := .running, wait := none, waits := s.strand.waits.set 0 0 } }
    else .next s
  | _, _ => .next s

end Sys2Proof.Machine
end

