-- ==== Sys2Proof/Machine/Debug.lean ====
section
/-! DEFINITION. The debug windows and their users, halts, breakpoints, sampling and lost trace records (R455 to
R475). -/

namespace Sys2Proof.Machine

/-- Who uses a window (R455, R456): the host through BAR0, a tool through the port, a strand at system level of
a context, or service firmware. -/
inductive WinUser where
  | host
  | port
  | strand (asid : BitVec 12)
  | firmware
  deriving DecidableEq, Repr

/-- The user holds an authorisation for an ASID (R455, R456, R458). -/
def mayUse (s : State) (u : WinUser) (asid : Nat) : Bool :=
  match u with
  | .host => (List.range 64).any fun k =>
      let w := bar0 s (0xE00400 + 8 * k) 8
      natBits w 15 15 = 1 && natBits w 11 0 = asid
  | .port => s.hub.portAsids.any fun a => a.toNat = asid
  | .strand a => a.toNat = asid
  | .firmware => asid = 0

/-- The user is service firmware (R406). -/
def isFirmware (u : WinUser) : Bool := u = .firmware || u = .strand 0

/-- An item whose ASID field is 0 belongs to no context. -/
def itemOpen (s : State) (u : WinUser) (asid : Nat) : Bool := asid = 0 || mayUse s u asid

/-- The ASID that a user's write puts into an ASID field (R456). -/
def storedAsid (u : WinUser) (asid : Nat) : Nat :=
  match u with
  | .strand a => a.toNat
  | _ => asid

/-! ### Halt control (R460, R461) -/

/-- The group of a halt control word. -/
def haltGroup (hoop : Option Nat) (asid w : Nat) (t : Strand) : Bool :=
  resident t && inGroup t hoop asid (natBits w 19 12) (natBits w 24 24 = 1) (natBits w 36 25)

/-- A debugger resumes a strand (R461, R463, R465): an edited image goes back into the queues under R437. -/
def resumeStrand (t : Strand) : Strand :=
  if t.state = .halted then
    let t1 := match t.editImage with
      | some img => requeue img (fillResults t)
      | none => t
    { t1 with state := t.resumeTo, haltReason := .none, skipBreak := true, editImage := none }
  else t

/-- A write of the first word of a halt control register: the group is resumed, then halted, as its bits say. -/
def haltAct (u : WinUser) (hoop : Option Nat) (base w : Nat) (s : State) : State :=
  let asid := haltAsid s base
  if !mayUse s u asid then s
  else
    let s1 := if natBits w 1 1 = 1 then
        let redo := (allStrands s).filter fun t => haltGroup hoop asid w t && t.state = .halted && t.editImage.isSome
        updStrands (haltGroup hoop asid w) resumeStrand (redo.foldl (init := s) fun s t => dropWriters t (resumeStrand t) s)
      else s
    if natBits w 0 0 = 1 then updStrands (haltGroup hoop asid w) (haltRequest .request) s1 else s1

/-- A write to a halt control register (word 0) or its extension (word 1). -/
def haltWrite (u : WinUser) (hoop : Option Nat) (base k v : Nat) (s : State) : State :=
  let old := haltAsid s base
  let low (w : Nat) : Nat := natBits w 11 3
  let given := if k = 0 then low v + old / 512 * 512 else old % 512 + natBits v 2 0 * 512
  let new := storedAsid u given
  if !(itemOpen s u old && itemOpen s u new) then s
  else
    let w0 := if k = 0 then v else bar0 s base 8
    let keep := natBits w0 36 24 * 2 ^ 24 + natBits w0 19 12 * 2 ^ 12 + new % 512 * 8 + natBits w0 2 2 * 4
    let s1 := setBar0 (base + 8) 8 (new / 512) (setBar0 base 8 keep s)
    if k = 0 then haltAct u hoop base v s1 else s1

/-! ### Entries of breakpoints and watchpoints (R462, R463) -/

/-- The masks of the three words of an entry that a write replaces. -/
def entryMask : Nat → Nat
  | 0 => 2 ^ 48 - 1
  | 1 => 2 ^ 33 - 1
  | 2 => 2 ^ 16 - 1
  | _ => 0

/-- A write of a word of an entry; the hits are cleared by ones. -/
def entryWrite (u : WinUser) (base k v : Nat) (s : State) : State :=
  let old := natBits (bar0 s (base + 8) 8) 11 0
  let new := if k = 1 then storedAsid u (natBits v 11 0) else old
  let live := natBits (if k = 2 then v else bar0 s (base + 0x10) 8) 0 0 = 1
  if !(itemOpen s u old && itemOpen s u new) || (live && !mayUse s u new) then s
  else
    let x := if k = 1 then v / 4096 * 4096 + new else v
    let hits := if k = 2 then (bar0 s (base + 0x10) 8 / 2 ^ 32 * 2 ^ 32) &&& (2 ^ 64 - 1 - v % 2 ^ 64) else 0
    setBar0 (base + 8 * k) 8 ((x &&& entryMask k) + hits / 2 ^ 32 * 2 ^ 32) s

/-- The breakpoint that fires at the strand's next instruction (R463). -/
def breakAt (s : State) (t : Strand) : Option Nat :=
  if t.skipBreak then none
  else ((List.range 8).map fun k => windowBase t.hoop + 0x100 + 32 * k).find? fun off =>
    let g := bar0 s (off + 8) 8
    natBits (bar0 s (off + 0x10) 8) 0 0 = 1 && natBits (bar0 s off 8) 47 2 = t.pc.toNat / 4 &&
    inGroup t none (natBits g 11 0) (natBits g 19 12) (natBits g 20 20 = 1) (natBits g 32 21)

/-- A breakpoint fires: the strand halts, or the instruction traps WATCH. -/
def breakFires (off : Nat) (s : State) : State :=
  let s1 := fireEntry off s.strand.id s
  if natBits (bar0 s (off + 0x10) 8) 1 1 = 1 then
    frontTrap { cause := causeWatch, tval := s1.strand.pc, telem := 0 } s1
  else { s1 with strand := haltStrand .breakpoint s1.strand }

/-! ### Slot views (R465) -/

/-- The code of a halt reason. -/
def haltCode : HaltReason → Nat
  | .none => 0
  | .request => 1
  | .breakpoint => 2
  | .watchpoint => 3
  | .step => 4
  | .ebreak => 5
  | .group => 6

def controlWord (t : Strand) : Nat :=
  stateCode t.state + haltCode t.haltReason * 16 + t.dbgStep.toNat * 2 ^ 8 + t.dbgElem.toNat * 2 ^ 9 +
    t.dbgTrap.toNat * 2 ^ 10 + t.dbgArmed.toNat * 2 ^ 11

/-- The fields marked RW while Halted show. -/
def shown (t : Strand) : Bool := t.state = .halted || t.state = .faulted

/-- The queue image that the view shows. -/
def viewImage (t : Strand) : List Byte := t.editImage.getD (queueImage t)

/-- The element at which the V head stands. -/
def viewStart (t : Strand) : Nat :=
  if usedEntry (viewImage t) then field (viewImage t) 8 4 else t.csr.vstart.toNat

/-- `tvcp` of a strand as it stands. -/
def viewVcp (t : Strand) : Nat := if usedEntry (viewImage t) then field (viewImage t) 0xE00 6 else t.pc.toNat

/-- Sections 1, 2, 4 and 6 with the fields that only a halted strand shows. -/
def viewSections (s : State) (t : Strand) : List Byte :=
  let hide (n : Nat) (bs : List Byte) : List Byte := if shown t then bs else List.replicate n 0 ++ bs.drop n
  hide 252 (section1 t) ++ section2 t ++ hide 96 (section4 s t) ++ section6 t

def slotRead (s : State) (t : Strand) (o : Nat) : Nat :=
  if o = 0 then controlWord t
  else if o = 8 ∨ o = 0x10 ∨ o = 0x18 then
    if !shown t then 0
    else if o = 8 then (if t.state = .faulted then t.csr.tpc.toNat else t.pc.toNat % 2 ^ 48)
    else if o = 0x10 then (if t.state = .faulted then t.csr.tvcp.toNat else viewVcp t % 2 ^ 48)
    else viewStart t
  else if 0x100 ≤ o ∧ o < 0x600 then field (viewSections s t) (o - 0x100) 8
  else if 0x1000 ≤ o ∧ o < 0x2000 then (if shown t then field (viewImage t) (o - 0x1000) 8 else 0)
  else 0

/-- Eight bytes of a block replaced. -/
def patch8 (bs : List Byte) (off v : Nat) : List Byte := bs.take off ++ leBytes 8 v ++ bs.drop (off + 8)

/-- A write into section 1 changes x registers and full bits; pc is read-only there. -/
def writeSection1 (o v : Nat) (t : Strand) : Strand :=
  let b := patch8 (section1 t) o v
  let t1 := (List.range 31).foldl (init := t) fun t k =>
    writeReg t (BitVec.ofNat 5 (k + 1)) (BitVec.ofNat 64 (field b (8 * k) 8))
  { t1 with empty := ~~~(BitVec.ofNat 32 (field b 248 4)) &&& 0xFFFFFFFE }

/-- A write of `vstart` through the view is one of the head's element, if there is a head. -/
def writeStart (v : Nat) (t : Strand) : Strand :=
  if usedEntry (viewImage t) then
    { t with editImage := some ((viewImage t).take 8 ++ leBytes 4 v ++ (viewImage t).drop 12) }
  else { t with csr := { t.csr with vstart := BitVec.ofNat 64 (v % 2 ^ 32) } }

/-- A write of `tvcp` through the view is one of the head's pc, if there is a head. -/
def writeVcp (v : Nat) (t : Strand) : Strand :=
  if usedEntry (viewImage t) then
    { t with editImage := some ((viewImage t).take 0xE00 ++ leBytes 6 v ++ (viewImage t).drop 0xE06) }
  else t

def slotWrite (o v : Nat) (t : Strand) : Strand :=
  if o = 0 then
    { t with dbgStep := natBits v 8 8 = 1, dbgElem := natBits v 9 9 = 1, dbgTrap := natBits v 10 10 = 1
             dbgArmed := natBits v 11 11 = 1 }
  else if t.state ≠ .halted then t
  else if o = 8 then { t with pc := BitVec.ofNat 64 (v % 2 ^ 48)
                              barArrived := t.barArrived.filter fun p => p = BitVec.ofNat 64 (v % 2 ^ 48) }
  else if o = 0x10 then writeVcp v t
  else if o = 0x18 then writeStart v t
  else if 0x100 ≤ o ∧ o < 0x200 then writeSection1 (o - 0x100) v t
  else if 0x400 ≤ o ∧ o < 0x460 then csrWrite (userCsrs.getD ((o - 0x400) / 8) 0) (BitVec.ofNat 64 v) t
  else if 0x1000 ≤ o ∧ o < 0x2000 then { t with editImage := some (patch8 (viewImage t) (o - 0x1000) v) }
  else t

/-! ### Engine views (R466) -/

/-- The strands of which a matrix engine holds a command, or a follow-on, that it has accepted and not finished. -/
def engineUsers (s : State) (h k : Nat) : List Strand := (allStrands s).filter fun t =>
  resident t && t.hoop = h &&
    (t.mq.any (fun e => e.accepted && !e.done && engineOf e.word = k) || (followOn t k).isSome)

/-- A halt holds what an engine would do for a strand. -/
def pausedBy (s : State) (t : Strand) : Bool := t.state = .halted && !runsOut s t

/-- An engine is paused when all that it holds is held by a halt, and busy when some is not. -/
def enginePaused (s : State) (h k : Nat) : Bool :=
  !(engineUsers s h k).isEmpty && (engineUsers s h k).all (pausedBy s)

def engineBusy (s : State) (h k : Nat) : Bool := (engineUsers s h k).any fun t => !pausedBy s t

def engineRead (s : State) (h k o : Nat) : Nat :=
  let e := (hoopOf s h).engines.toList.getD k MatEngine.reset
  let paused := enginePaused s h k
  let busy := engineBusy s h k
  if o = 0 then paused.toNat + busy.toNat * 2 + cmdOf e.cmd % 2 ^ 8 * 2 ^ 8 + e.step % 2 ^ 48 * 2 ^ 16
  else if o = 8 then bar0 s (windowBase h + 0x11000 + 0x800 * k + 8) 8
  else if 0x400 ≤ o ∧ o < 0x800 then
    if busy then 2 ^ 64 - 1
    else
      let row := bar0 s (windowBase h + 0x11000 + 0x800 * k + 8) 8
      let c := row * 256 + (o - 0x400) / 4
      (smRead 0 e.acc c).toNat + (smRead 0 e.acc (c + 1)).toNat * 2 ^ 32
  else 0

/-- The ASIDs whose slots hold an engine's grant (R240). -/
def engineOpen (s : State) (u : WinUser) (h k : Nat) : Bool :=
  (hoopOf s h).grants.toList.any fun g => g.enabled && g.engines.getLsbD k && mayUse s u g.asid.toNat

/-! ### Energy weights and banks (R471, R472) -/

/-- The weight of an energy class of a hoop, or of the hub as unit 48. -/
def energyWeight (s : State) (unit cls : Nat) : BitVec 16 :=
  (smGet s.hub.weights (unit * 64 + cls)).getD (Config.energyWeight (unit = 48) cls)

/-- Four weights as a word. -/
def weightWord (s : State) (unit cls : Nat) : Nat :=
  ((List.range 4).map fun k => (energyWeight s unit (cls + k)).toNat * 2 ^ (16 * k)).sum

def writeWeights (unit cls v : Nat) (s : State) : State :=
  let w := (List.range 4).foldl (init := s.hub.weights) fun m k =>
    smSet m (unit * 64 + cls + k) (BitVec.ofNat 16 (v / 2 ^ (16 * k)))
  { s with hub := { s.hub with weights := w } }

/-- The ASID of a valid bank, else 0. -/
def bankAsid (s : State) (base : Nat) : Nat :=
  let w := bar0 s base 8
  if natBits w 15 15 = 1 then natBits w 11 0 else 0

/-- A write of service firmware to a bank's first word. -/
def bankWrite (off v : Nat) (s : State) : State :=
  if off % 16 = 0 then setBar0 off 8 (v &&& 0x8FFF) s else setBar0 off 8 v s

/-! ### The windows (R455 to R458) -/

/-- The word of two hoop barriers (R457), each shown to users of its ASID. -/
def barrierWord (s : State) (u : WinUser) (h k : Nat) : Nat :=
  let one (j : Nat) : Nat := match (hoopOf s h).barriers.toList[j]? with
    | some b => if itemOpen s u b.asid.toNat then
        b.count % 16 + b.phase.toNat * 16 + b.slots.toNat * 32 else 0
    | none => 0
  one k + one (k + 1) * 2 ^ 32

/-- A read of 8 bytes of a hoop window. -/
def hoopRead (s : State) (u : WinUser) (h o : Nat) : Nat :=
  let wb := windowBase h
  if o < 0x10 then (if itemOpen s u (haltAsid s wb) then bar0 s (wb + o) 8 else 0)
  else if 0x100 ≤ o ∧ o < 0x300 then
    if itemOpen s u (natBits (bar0 s (wb + o / 32 * 32 + 8) 8) 11 0) then bar0 s (wb + o) 8 else 0
  else if 0x300 ≤ o ∧ o < 0x340 then
    if itemOpen s u (natBits (bar0 s (wb + 0x308) 8) 43 32) then bar0 s (wb + o) 8 else 0
  else if 0x400 ≤ o ∧ o < 0x480 then weightWord s h ((o - 0x400) / 2)
  else if 0x500 ≤ o ∧ o < 0x600 then
    if itemOpen s u (bankAsid s (wb + o / 16 * 16)) then bar0 s (wb + o) 8 else 0
  else if 0x600 ≤ o ∧ o < 0x640 then barrierWord s u h ((o - 0x600) / 4)
  else if 0x1000 ≤ o ∧ o < 0x11000 then
    match strandAt s h ((o - 0x1000) / 0x2000) with
    | some t => if mayUse s u t.asid.toNat then slotRead s t ((o - 0x1000) % 0x2000) else 0
    | none => 0
  else if 0x11000 ≤ o ∧ o < 0x12000 then
    let k := (o - 0x11000) / 0x800
    if engineOpen s u h k then engineRead s h k ((o - 0x11000) % 0x800) else 0
  else 0

/-- The sampling and trace control (R469). -/
def sampleWrite (u : WinUser) (wb o v : Nat) (s : State) : State :=
  let old := natBits (bar0 s (wb + 0x308) 8) 43 32
  let new := if o = 0x308 then storedAsid u (natBits v 43 32) else old
  if !(itemOpen s u old && itemOpen s u new) then s
  else if o = 0x300 then setBar0 (wb + o) 8 (v % 2 ^ 32) s
  else if o = 0x308 then
    if new = 0 ∧ !mayUse s u 0 ∧ v % 2 ^ 32 ≠ 0 then s
    else setBar0 (wb + o) 8 (v % 2 ^ 32 + new * 2 ^ 32) s
  else if o = 0x310 then setBar0 (wb + o) 8 (bar0 s (wb + o) 8 &&& (2 ^ 64 - 1 - v % 2 ^ 64)) s
  else s

/-- A write of 8 bytes to a hoop window. -/
def hoopWrite (u : WinUser) (h o v : Nat) (s : State) : State :=
  let wb := windowBase h
  if o < 0x10 then haltWrite u (some h) wb (o / 8) v s
  else if 0x100 ≤ o ∧ o < 0x300 then entryWrite u (wb + o / 32 * 32) (o % 32 / 8) v s
  else if 0x300 ≤ o ∧ o < 0x340 then sampleWrite u wb o v s
  else if 0x400 ≤ o ∧ o < 0x480 then (if isFirmware u then writeWeights h ((o - 0x400) / 2) v s else s)
  else if 0x500 ≤ o ∧ o < 0x600 then (if isFirmware u then bankWrite (wb + o) v s else s)
  else if 0x1000 ≤ o ∧ o < 0x11000 then
    match strandAt s h ((o - 0x1000) / 0x2000) with
    | some t => if mayUse s u t.asid.toNat then updStrand t.id (slotWrite ((o - 0x1000) % 0x2000) v) s else s
    | none => s
  else if 0x11000 ≤ o ∧ o < 0x12000 then
    let k := (o - 0x11000) / 0x800
    if (o - 0x11000) % 0x800 = 8 ∧ engineOpen s u h k then setBar0 (wb + o) 8 (v % 512) s else s
  else s

/-- The strand end request is carried out (R459): 1 ended, 2 no such strand, 3 in another state. -/
def endRequest (asid : Nat) (i : StrandId) (s : State) : Nat × State :=
  match findStrand s i with
  | none => (2, s)
  | some t =>
    if t.asid.toNat ≠ asid then (2, s)
    else match t.state with
      | .faulted => (1, endStrand i true 0x14 s)
      | .saved => (1, endStrand i true 0x14 (discardSave t s))
      | _ => (3, s)

/-- A write of the strand end request (R459). -/
def endWrite (u : WinUser) (v : Nat) (s : State) : State :=
  let old := natBits (bar0 s 0xE00040 8) 39 28
  let new := natBits v 39 28
  let may (a : Nat) : Bool := isFirmware u || itemOpen s u a
  if !(may old && may new) then s
  else
    let s1 := setBar0 0xE00040 8 (v % 2 ^ 40) s
    if natBits v 63 63 = 1 ∧ (isFirmware u ∨ mayUse s u new) then
      let r := endRequest new { launch := natBits v 11 0, index := natBits v 27 12 } s1
      setBar0 0xE00048 8 r.1 r.2
    else s1

/-- A write of the trace output control (R458). -/
def traceWrite (o v : Nat) (s : State) : State :=
  let old := bar0 s 0xE00100 8
  let ring := natBits old 1 1 = 1
  if o = 0x100 then
    let n := if ring then natBits old 12 8 else natBits v 12 8
    let s1 := setBar0 0xE00100 8 (v % 4 + n * 2 ^ 8) s
    if !ring && natBits v 1 1 = 1 then setBar0 0xE00110 8 0 (setBar0 0xE00118 8 0 s1) else s1
  else if o = 0x108 then (if ring then s else setBar0 0xE00108 8 (natBits v 51 12 * 2 ^ 12) s)
  else if o = 0x118 then setBar0 0xE00118 8 (v % 2 ^ 32) s
  else if o = 0x120 ∨ o = 0x128 then
    setBar0 (0xE00000 + o) 8 (bar0 s (0xE00000 + o) 8 &&& (2 ^ 64 - 1 - v % 2 ^ 64)) s
  else s

/-- A read of 8 bytes of the hub window. -/
def hubRead (s : State) (u : WinUser) (o : Nat) : Nat :=
  let at_ := 0xE00000 + o
  if o < 0x10 then (if itemOpen s u (haltAsid s 0xE00000) then bar0 s at_ 8 else 0)
  else if o = 0x40 ∨ o = 0x48 then
    if isFirmware u || itemOpen s u (natBits (bar0 s 0xE00040 8) 39 28) then bar0 s at_ 8 else 0
  else if 0x100 ≤ o ∧ o < 0x140 then bar0 s at_ 8
  else if 0x200 ≤ o ∧ o < 0x280 then weightWord s 48 ((o - 0x200) / 2)
  else if 0x300 ≤ o ∧ o < 0x400 then
    if itemOpen s u (bankAsid s (0xE00000 + o / 16 * 16)) then bar0 s at_ 8 else 0
  else if 0x400 ≤ o ∧ o < 0x600 then bar0 s at_ 8
  else if 0x10000 ≤ o ∧ o < 0x18000 then
    match counterOf s ((o - 0x10000) / 8) with
    | some c => if mayUse s u c.asid.toNat then (counterWord c).toNat else 0
    | none => 0
  else 0

/-- A write of 8 bytes to the hub window. -/
def hubWrite (u : WinUser) (o v : Nat) (s : State) : State :=
  if o < 0x10 then haltWrite u none 0xE00000 (o / 8) v s
  else if o = 0x40 then endWrite u v s
  else if 0x100 ≤ o ∧ o < 0x140 then traceWrite o v s
  else if 0x200 ≤ o ∧ o < 0x280 then (if isFirmware u then writeWeights 48 ((o - 0x200) / 2) v s else s)
  else if 0x300 ≤ o ∧ o < 0x400 then (if isFirmware u then bankWrite (0xE00000 + o) v s else s)
  else s

/-- The window that a BAR0 offset lies in: a hoop's, with the offset in it, or the hub's. -/
def windowOf (off : Nat) : Option (Option Nat × Nat) :=
  if 0x800000 ≤ off ∧ off < 0x800000 + 48 * 0x20000 then
    some (some ((off - 0x800000) / 0x20000), (off - 0x800000) % 0x20000)
  else if 0xE00000 ≤ off ∧ off < 0x1000000 then some (none, off - 0xE00000)
  else none

/-- A read of the 8 bytes at an offset of the windows. -/
def windowRead (s : State) (u : WinUser) (off : Nat) : Nat :=
  match windowOf (off / 8 * 8) with
  | some (some h, o) => hoopRead s u h o
  | some (none, o) => hubRead s u o
  | none => 0

/-- A write of 8 bytes at an offset of the windows. -/
def windowWrite (u : WinUser) (off v : Nat) (s : State) : State :=
  match windowOf (off / 8 * 8) with
  | some (some h, o) => hoopWrite u h o v s
  | some (none, o) => hubWrite u o v s
  | none => s

/-! ### The events -/

/-- The window of a halt control register: a hoop's, or the hub's. -/
def haltBase (win : Option Nat) : Nat := (win.map windowBase).getD 0xE00000

/-- HALT: the host writes a halt control register with its halt bit (R460). -/
def execHalt (win : Option Nat) (w : Word) (s : State) : Out :=
  if w.getLsbD 0 ∧ win.all (· < 48) then .next (windowWrite .host (haltBase win) w.toNat s) else .next s

/-- RESUME: the host writes a halt control register with its resume bit (R460). -/
def execResume (win : Option Nat) (w : Word) (s : State) : Out :=
  if w.getLsbD 1 ∧ win.all (· < 48) then .next (windowWrite .host (haltBase win) w.toNat s) else .next s

/-- STRAND_END_REQUEST: a write of the request with its go bit (R459). -/
def execStrandEndRequest (w : Word) (s : State) : Out :=
  if w.getLsbD 63 then .next (windowWrite .host 0xE00040 w.toNat s) else .next s

/-- TRACE_RING_ENABLE: a write of the trace output control that sets its ring bit (R458). -/
def execTraceRingEnable (w : Word) (s : State) : Out :=
  if w.getLsbD 1 then .next (windowWrite .host 0xE00100 w.toNat s) else .next s

/-- TABGIDEL_OPEN: anchor firmware opens the port after it has verified a certificate, which names the device
serial and up to 64 ASIDs (R455). -/
def execTabgidelOpen (valid : Bool) (serial : BitVec 128) (asids : List (BitVec 12)) (s : State) : Out :=
  if valid ∧ serial.toNat = bar0 s 0x10 16 ∧ asids.length ≤ 64 then
    .next { s with hub := { s.hub with portClosed := false, portAsids := asids } }
  else .next s

/-- TABGIDEL_ACCESS: a read or write of 8 bytes through the port while it is open (R455). -/
def execTabgidelAccess (off : Nat) (wr : Option Word) (s : State) : Out :=
  if s.hub.portClosed ∨ (windowOf off).isNone then .next s
  else match wr with
    | some v => .next (windowWrite .port off v.toNat s)
    | none => .next { s with out := s.out ++ [⟨4, 5, off, leBytes 8 (windowRead s .port off)⟩] }

/-- A power limit, duty-cycling or throttling may cost the strand time (R16 to R19). -/
def powerSlowed (s : State) (t : Strand) : Bool :=
  s.hub.powerRate ≠ 0 || (hoopOf s t.hoop).duty ≠ 0 ||
    decide (Config.fusedWarning.toNat ≤ s.hub.temps.toList.getD (t.hoop / 12) 0)

/-- An array of the strand is being replaced by a spare (R443). -/
def beingReplaced (s : State) (t : Strand) : Bool := t.arrays.any fun (h, a) => (hoopOf s h).replacing.getLsbD a

/-- The V side may await load data: a load stands in its queue, and its head does not wait for a token or a message. -/
def loadQueued (t : Strand) : Bool := (vecWait t).isNone && t.vq.any fun e => isVMem e.word && !isVStore e.word

/-- The front's reason in a sample (R469), by priority from code 1 upward: what its instruction waits for, then what may
cost it time, of which the spec leaves open whether it does so at this moment. -/
def frontReason (s : State) (t : Strand) (free : Nat) : Nat :=
  let idleOr (k : Nat) : Nat :=
    if powerSlowed s t ∧ free % 2 = 1 then 12
    else if beingReplaced s t ∧ free / 2 % 2 = 1 then 13
    else if t.preempt then 14 else k
  if 64 ≤ t.vq.length then 1
  else if 16 ≤ t.mq.length ∨ 16 ≤ t.cq.length ∨ 16 ≤ t.nq.length then 2
  else match t.wait with
  | some (.token ..) => 3
  | some (.barrier _) => 4
  | some (.fe _) => 5
  | some (.counter ..) | some (.publish _) => 6
  | some .message => 7
  | _ => idleOr (if t.idling then 15 else 0)

/-- The reason of the V side in a sample (R469): idle without an instruction, and where the head waits for a token or a
message; else what of the others is the case the spec leaves to timing, awaiting load data only with a load in the queue. -/
def vecReason (t : Strand) (free : Nat) : Nat :=
  if t.vq = [] ∨ (vecWait t).isSome then 11
  else if loadQueued t ∧ free % 3 = 0 then 8 else 9 + free / 3 % 2

/-- The sample records of a strand (R469, R475). -/
def sampleStrand (t : Strand) (s : State) : State :=
  let c := Config.freeChoice s.freeCtr
  let vcp : Nat := match t.vq with
    | e :: _ => e.pc.toNat % 2 ^ 48
    | [] => t.pc.toNat % 2 ^ 48
  let d : Int := ((vcp : Int) - (t.pc.toNat % 2 ^ 48 : Nat)) / 4
  let far := d ≤ -512 || 512 ≤ d
  let s1 := emitStrand t 10 (natBits t.pc.toNat 47 2 + frontReason s t c * 2 ^ 46 + vecReason t (c / 4) * 2 ^ 50 +
    (if far then 0x200 else wrap 10 d) * 2 ^ 54) { s with freeCtr := s.freeCtr + 1 }
  if far then emitStrand t 11 vcp s1 else s1

/-- SAMPLE: a sampling period of a hoop has passed (R469). -/
def execSample (hoop : Nat) (s : State) : Out :=
  let w := bar0 s (windowBase hoop + 0x300) 8
  let period := natBits w 23 0
  if period = 0 ∨ s.ac < (hoopOf s hoop).sampledAt + max 64 period ∨ 48 ≤ hoop then .next s
  else
    let ts := (allStrands s).filter fun t => t.hoop = hoop && counted t && natBits w (24 + t.slot) (24 + t.slot) = 1
    .next (ts.foldl (init := setHoop hoop { hoopOf s hoop with sampledAt := s.ac } s) fun s t => sampleStrand t s)

/-- The port, or the ring, would take a record at this moment, where it is to get any (R458, R474). -/
def portTakes (s : State) : Bool :=
  natBits (bar0 s 0xE00100 8) 0 0 = 0 || s.hub.portClosed || !Config.portBusy s.freeCtr

def ringTakes (s : State) : Bool := natBits (bar0 s 0xE00100 8) 1 1 = 0 || !ringFull s

/-- TRACE_RECORDS_LOST: where space has returned, a record of type 15 carries the number dropped since the last one
(R474): a hoop's queue, or for number 0x3F the port and the ring. Where the record would be lost itself, the count stays. -/
def execTraceRecordsLost (hoop : Nat) (s : State) : Out :=
  let lost (h n : Nat) : TraceRec := { typ := 15, hoop := h, slot := 0, time := traceTime s, payload := BitVec.ofNat 64 n }
  if hoop < 48 then
    let n := (hoopOf s hoop).lost
    if n = 0 ∨ natBits (bar0 s (windowBase hoop + 0x308) 8) 15 15 = 0 then .next s
    else if portTakes s && ringTakes s then
      .next (writeTrace (lost hoop n) (setHoop hoop { hoopOf s hoop with lost := 0 } s))
    else .next { s with freeCtr := s.freeCtr + 1 }
  else
    let s1 := if s.hub.ringLost ≠ 0 ∧ natBits (bar0 s 0xE00100 8) 1 1 = 1 ∧ !ringFull s then
        ringTrace (lost 0x3F s.hub.ringLost) { s with hub := { s.hub with ringLost := 0 } } else s
    if s1.hub.portLost = 0 then .next s1
    else if natBits (bar0 s1 0xE00100 8) 0 0 = 1 ∧ !s1.hub.portClosed ∧ !Config.portBusy s1.freeCtr then
      .next (portTrace (lost 0x3F s1.hub.portLost) { s1 with hub := { s1.hub with portLost := 0 } })
    else .next { s1 with freeCtr := s1.freeCtr + 1 }

end Sys2Proof.Machine
end

