-- ==== Sys2Proof/Machine/Csr.lean ====
section
/-! DEFINITION. The Zicsr instructions (R61, R62, R102) and the debug-window CSRs (R456). -/

namespace Sys2Proof.Machine

/-- The CSRs of the own hoop window (R456). -/
def isWindowCsr (n : Nat) : Bool := 0x120 ≤ n && n ≤ 0x12F

/-- The number is listed (R61, R62). -/
def csrListed (n : Nat) : Bool :=
  userCsrs.contains n || systemCsrs.contains n || readOnlyCsrs.contains n || isWindowCsr n

/-- The checks of an access (R61). -/
def csrCheck (n : Nat) (wr : Bool) : Act Unit := do
  require (csrListed n) 1
  if 0x100 ≤ n ∧ n ≤ 0x1FF then systemOnly
  require (!(wr && readOnlyCsrs.contains n)) 7

/-- The BAR0 offset that `dwaddr` names (R456). -/
def dwTarget (st : Strand) : Nat := windowBase st.hoop + natBits st.csr.dwaddr.toNat 16 3 * 8

/-- The value of a CSR; `dwdata` and `dwdatai` read the window. -/
def csrGet (n : Nat) : Act Word := do
  let s ← getS
  match n with
  | 0x120 => pure s.strand.csr.dwaddr
  | 0x121 | 0x122 => pure (BitVec.ofNat 64 (windowRead s (.strand s.strand.asid) (dwTarget s.strand)))
  | n => pure (csrRead s s.strand n)

/-- HBM race detection is on for some strand of a context. -/
def lineRace (s : State) (asid : BitVec 12) : Bool :=
  (allStrands s).any fun t => t.asid = asid && t.state ≠ .exited && t.csr.racectl.getLsbD 1

/-- A write of a CSR; `dwdata` and `dwdatai` write the window, and a first bit 1 of `racectl` in a context zeroes its
carve-out (R291). -/
def csrPut (n : Nat) (v : Word) : Act Unit :=
  match n with
  | 0x120 => modStrand fun st => { st with csr := { st.csr with dwaddr := v &&& 0x1FFF8 } }
  | 0x121 | 0x122 => modS fun s => windowWrite (.strand s.strand.asid) (dwTarget s.strand) v.toNat s
  | 0x111 => do
    let s ← getS
    if v.getLsbD 1 && !lineRace s s.strand.asid then modMem (zeroCarveOut s.strand.asid)
    modStrand (csrWrite 0x111 v)
  | n => modStrand (csrWrite n v)

/-- After an access to `dwdatai`, `dwaddr` advances by 8 within the window (R456). -/
def csrAfter (n : Nat) : Act Unit :=
  if n = 0x122 then modStrand fun st =>
    { st with csr := { st.csr with dwaddr := BitVec.ofNat 64 ((st.csr.dwaddr.toNat + 8) % 0x20000) } }
  else pure ()

/-- An access to a CSR: checks, the registers, the wait of `vfflags` and `vxsat` for older vector instructions
(R61), the read, the write and the destination. `f` gives the value written from the state and the old value. -/
def csrAccess (n : Nat) (d : Reg) (src : List Reg) (rd : Bool) (f : Option (Strand → Word → Word)) (s : State) : Out :=
  frontInstr (csrCheck n f.isSome) (src ++ [d]) (do
    let st ← getStrand
    if (n = 1 ∨ n = 4) ∧ st.vq ≠ [] then waitFor .uncounted
    let old ← if rd then csrGet n else pure 0
    match f with
    | some g => csrPut n (g st old)
    | none => pure ()
    csrAfter n
    modStrand fun st => writeReg st d old
    pure none) s

/-- CSRRW (R102): with rd = x0 the CSR is not read. -/
def execCsrrw (d a : BitVec 5) (c : BitVec 12) (s : State) : Out :=
  csrAccess c.toNat d [a] (d ≠ 0) (some fun st _ => readReg st a) s

/-- CSRRS (R102): with rs1 = x0 the CSR is not written. -/
def execCsrrs (d a : BitVec 5) (c : BitVec 12) (s : State) : Out :=
  csrAccess c.toNat d [a] true (if a = 0 then none else some fun st t => t ||| readReg st a) s

/-- CSRRC (R102). -/
def execCsrrc (d a : BitVec 5) (c : BitVec 12) (s : State) : Out :=
  csrAccess c.toNat d [a] true (if a = 0 then none else some fun st t => t &&& ~~~(readReg st a)) s

/-- CSRRWI (R102). -/
def execCsrrwi (d : BitVec 5) (c : BitVec 12) (u : BitVec 5) (s : State) : Out :=
  csrAccess c.toNat d [] (d ≠ 0) (some fun _ _ => u.setWidth 64) s

/-- CSRRSI (R102). -/
def execCsrrsi (d : BitVec 5) (c : BitVec 12) (u : BitVec 5) (s : State) : Out :=
  csrAccess c.toNat d [] true (if u = 0 then none else some fun _ t => t ||| u.setWidth 64) s

/-- CSRRCI (R102). -/
def execCsrrci (d : BitVec 5) (c : BitVec 12) (u : BitVec 5) (s : State) : Out :=
  csrAccess c.toNat d [] true (if u = 0 then none else some fun _ t => t &&& ~~~(u.setWidth 64)) s

/-- An access that is named by its effect: the front of a strand that runs makes it. -/
def namedAccess (n : Nat) (d : Reg) (wr : Option Word) (s : State) : Out :=
  if counted s.strand then csrAccess n d [] (d ≠ 0 || wr.isNone) (wr.map fun v _ _ => v) s else .next s

/-- FLAG_CSR_ACCESS: an access to `vfflags` or `vxsat` (R61). -/
def execFlagCsrAccess (sat : Bool) (wr : Option Word) (d : BitVec 5) (s : State) : Out :=
  namedAccess (if sat then 4 else 1) d wr s

/-- VSTART_WRITE: the next vector instruction captures the value (R59, R106). -/
def execVstartWrite (v : Word) (s : State) : Out := namedAccess 8 0 (some v) s

/-- VFRM_WRITE: codes 6 and 7 store 0 (R62). -/
def execVfrmWrite (v : Word) (s : State) : Out := namedAccess 2 0 (some v) s

/-- DWDATA_ACCESS (R456). -/
def execDwdataAccess (wr : Option Word) (d : BitVec 5) (s : State) : Out := namedAccess 0x121 d wr s

/-- DWDATAI_ACCESS (R456). -/
def execDwdataiAccess (wr : Option Word) (d : BitVec 5) (s : State) : Out := namedAccess 0x122 d wr s

end Sys2Proof.Machine
end

