-- ==== Sys2Proof/Machine/Shake.lean ====
section
/-! DEFINITION. SHAKE256 with 64 bytes of output, which measures images and keys (R417, R418). The spec names the function
and does not define it: PRESUMED, FIPS 202 (log 106). -/

namespace Sys2Proof.Machine

/-- The rotations of the lanes, lane (x, y) at x + 5y. -/
def keccakOffsets : List Nat :=
  [0, 1, 62, 28, 27, 36, 44, 6, 55, 20, 3, 10, 43, 25, 39, 41, 45, 15, 21, 8, 18, 2, 61, 56, 14]

/-- The constants of the 24 rounds. -/
def keccakConstants : List Word :=
  [0x0000000000000001, 0x0000000000008082, 0x800000000000808A, 0x8000000080008000, 0x000000000000808B, 0x0000000080000001,
   0x8000000080008081, 0x8000000000008009, 0x000000000000008A, 0x0000000000000088, 0x0000000080008009, 0x000000008000000A] ++
  [0x000000008000808B, 0x800000000000008B, 0x8000000000008089, 0x8000000000008003, 0x8000000000008002, 0x8000000000000080,
   0x000000000000800A, 0x800000008000000A, 0x8000000080008081, 0x8000000000008080, 0x0000000080000001, 0x8000000080008008]

/-- Lane (x, y), both taken modulo 5. -/
def lane5 (a : List Word) (x y : Nat) : Word := a.getD (x % 5 + 5 * (y % 5)) 0

/-- The 25 lanes by a rule for lane (x, y). -/
def lanes5 (f : Nat → Nat → Word) : List Word := (List.range 25).map fun i => f (i % 5) (i / 5)

/-- One round: the columns' parities, the rotations and places, the rows, the constant. -/
def keccakRound (a : List Word) (rc : Word) : List Word :=
  let c := (List.range 5).map fun x => ((List.range 5).map (lane5 a x)).foldl (· ^^^ ·) 0
  let t := lanes5 fun x y => lane5 a x y ^^^ c.getD ((x + 4) % 5) 0 ^^^ (c.getD ((x + 1) % 5) 0).rotateLeft 1
  let b := lanes5 fun x y =>
    let x' := (x + 3 * y) % 5
    (lane5 t x' x).rotateLeft (keccakOffsets.getD (x' + 5 * x) 0)
  let r := lanes5 fun x y => lane5 b x y ^^^ (~~~(lane5 b (x + 1) y) &&& lane5 b (x + 2) y)
  listSet r 0 (lane5 r 0 0 ^^^ rc)

/-- SHAKE256: the data, padded, is absorbed in blocks of 136 bytes; the output is the first 64 bytes of the state. -/
def shake256 (data : List Byte) : List Byte :=
  let n := data.length
  let blocks := n / 136 + 1
  let padded := data ++ [0x1F] ++ List.replicate (136 * blocks - n - 1) 0
  let last := 136 * blocks - 1
  let all := listSet padded last (padded.getD last 0 ||| 0x80)
  let s := (List.range blocks).foldl (init := List.replicate 25 0) fun a k =>
    let block := (all.drop (136 * k)).take 136
    keccakConstants.foldl keccakRound
      (a.zipIdx.map fun (w, i) => w ^^^ BitVec.ofNat 64 (leNat ((block.drop (8 * i)).take 8)))
  ((s.take 8).map fun w => leBytes 8 w.toNat).flatten

end Sys2Proof.Machine
end

