-- ==== Sys2Proof/Machine/HostIf.lean ====
section
/-! DEFINITION. The host interface (R406 to R429): translation and key invalidation, BAR2, the registers of BAR0,
the mailbox with its key, attestation and authorisation requests, the life of a context, and interrupts. -/

namespace Sys2Proof.Machine

/-! ### Translation and keys (R412 to R414) -/

/-- A TLB entry covers an address of the context, or any (R414). -/
def coversFor (asid : BitVec 12) (va : Option Nat) (e : TlbEntry) : Bool :=
  (e.asid = asid || e.global) && va.all fun a => e.va ≤ a && a < e.va + 2 ^ e.bits

/-- The tables of a strand of the context map an address by a page of 256 MiB. -/
def largePage (s : State) (asid : BitVec 12) (va : Nat) : Bool :=
  (allStrands s).any fun t => t.asid = asid &&
    match (runAct (walkFrom (strandPort t 1) va 3 (strandPort t 1).root) s).1 with
    | .ok (_, _, level) => level = 2
    | .error _ => false

/-- The log2 of the page that holds an address: 256 MiB if the tables map it so, or an entry that goes is so large. -/
def pageAt (s : State) (asid : BitVec 12) (va : Nat) : Nat :=
  let held : Bool := s.hoops.any fun (_, h) => (h.tlb ++ h.banks.flatMap (·.2)).any fun e =>
    coversFor asid (some va) e && e.bits = 28
  if held || largePage s asid va then 28 else 18

/-- The entries of a page, or all of them, go from every TLB, and tile bindings whose range it covers become
stale (R414, R222). -/
def invalidate (asid : BitVec 12) (va : Option Nat) (s : State) : State :=
  let bits := va.map (pageAt s asid)
  let s1 := dropTlb (coversFor asid va) s
  match va, bits with
  | some a, some b => markTilesVa asid (a / 2 ^ b * 2 ^ b) b s1
  | _, _ => markTilesVa asid 0 48 s1

/-- A gather reads the page (R356). -/
def gatherMeets (s : State) (asid : BitVec 12) (va : Option Nat) : Bool :=
  match va with
  | some a => gatherHolds s asid (a / 2 ^ pageAt s asid a * 2 ^ pageAt s asid a) (2 ^ pageAt s asid a)
  | none => gatherHolds s asid 0 (2 ^ 48)

/-- TLBINV (R414). -/
def execTlbinv (a b : BitVec 5) (s : State) : Out :=
  frontInstr systemOnly [a, b] (do
    let st ← getStrand
    let x := readReg st b
    require (x.toNat < 2 ^ 12) 6
    if x ≠ st.asid.setWidth 64 then raise causeAcc x.toNat
    let va := if a = 0 then none else some (readReg st a).toNat
    let s ← getS
    if gatherMeets s st.asid va then waitFor .uncounted
    modS (invalidate st.asid va)
    pure none) s

/-- Erases a key slot, and what stream buffers hold under it (R413). -/
def eraseKey (k : Nat) (s : State) : State :=
  dropStreams (fun b => b.key = k)
    (setKeySlot k { loaded := false, owner := 0, epoch := (keySlot s k).epoch + 1, key := 0 } s)

/-- KEYINV (R413): accesses that have passed the check are performed when they pass it. -/
def execKeyinv (a : BitVec 5) (s : State) : Out :=
  frontInstr systemOnly [a] (do
    let st ← getStrand
    let x := (readReg st a).toNat
    require (1 ≤ x && x ≤ 1023) 6
    let s ← getS
    if (keySlot s x).owner ≠ st.asid then raise causeKeyiso x
    modS (eraseKey x)
    pure none) s

/-- PAGE_WALK: a walker translates an address of a context through its tables (R133) and sets A (R135). -/
def execPageWalk (asid : BitVec 12) (va : Word) (s : State) : Out :=
  if ctxValid s asid.toNat ∧ va.toNat < 2 ^ 48 then
    .next (runAct (walk (contextPort asid (ctxRoot s asid.toNat) true 0 none) va.toNat) s).2
  else .next s

/-! ### BAR2 (R427) -/

/-- The device answers at a BAR0 offset: in recovery only the status and the mailbox do (R417). -/
def respondsAt (s : State) (off : Nat) : Bool :=
  natBits (bar0 s 0x10000 8) 1 1 = 0 || (0x10000 ≤ off && off < 0x30000)

/-- The accesses of the host and of peers through the BAR2 window. -/
def bar2Port (s : State) : Port :=
  let asid := natBits (bar0 s 0x50000 8) 43 32
  contextPort (BitVec.ofNat 12 asid) (ctxRoot s asid) true 7 none

/-- The VA of a BAR2 offset. -/
def bar2Va (s : State) (off : Nat) : Nat := natBits (bar0 s 0x50000 8) 29 0 * 2 ^ 18 + off

/-- Checks every byte of a request, page by page. -/
def bar2Check (p : Port) (va n : Nat) (rd wr : Bool) : Act (List (Place × Nat × Nat)) := do
  let s ← getS
  if natBits (bar0 s 0x50000 8) 63 63 = 0 ∨ !ctxValid s p.asid.toNat then raise causeAcc va
  (pagePieces va n).mapM fun (a, k) => do
    let pl ← access p a k rd wr false false
    pure (pl, a, k)

/-- A message of the device to a port. -/
def sendTlp (port kind addr : Nat) (bs : List Byte) (s : State) : State :=
  { s with out := s.out ++ [⟨port, kind, addr, bs⟩] }

/-- A request that has been served is completed in pieces of at most 1024 bytes (R327). -/
def sendCompletion (port kind addr : Nat) (bs : List Byte) (s : State) : State :=
  if bs.length ≤ 1024 then sendTlp port kind addr bs s
  else (payloads bs.length 0 bs).foldl (init := s) fun s (o, c) => sendTlp port kind (addr + o) c s

/-- The record of a refused request (R427, R448). -/
def bar2Refused (p : Port) (va : Nat) (s : State) : State :=
  addErr (errRec 13 1 p.asid (leBytes 8 va ++ leBytes 2 p.asid.toNat)) s

/-- BAR2_READ: a read is checked whole and completed with its bytes, with EP set where they are poisoned (R441), or
as an Unsupported Request. -/
def execBar2Read (port off len : Nat) (s : State) : Out :=
  let p := bar2Port s
  let va := bar2Va s off
  if !respondsAt s 0x50000 then .next s
  else match runAct (bar2Check p va len true false) s with
  | (.ok pls, s1) =>
    match runAct (pls.mapM fun (pl, _, k) => readPlace pl k) s1 with
    | (.ok bs, s2) =>
      match pls.find? fun (pl, _, k) => placePoisoned s2 pl k with
      | some (pl, _, _) => .next (sendCompletion port 6 off bs.flatten (runAct (notePoison p 0 pl.pa) s2).2)
      | none => .next (sendCompletion port 3 off bs.flatten s2)
    | (.error _, s2) => .next s2
  | (.error (.trap t), s1) => .next (sendTlp port 4 off [] (bar2Refused p t.tval.toNat s1))
  | (.error _, s1) => .next s1

/-- BAR2_WRITE: a write is checked whole and performed, or dropped with a record (R427). -/
def execBar2Write (port off : Nat) (data : List Byte) (s : State) : Out :=
  let p := bar2Port s
  let va := bar2Va s off
  if 4 ≤ port ∨ !respondsAt s 0x50000 then .next s
  else match runAct (bar2Check p va data.length false true) s with
  | (.ok pls, s1) =>
    .next (runAct (pls.forM fun (pl, a, k) => writePlace p pl ((data.drop (a - va)).take k)) s1).2
  | (.error (.trap t), s1) => .next (bar2Refused p t.tval.toNat s1)
  | (.error _, s1) => .next s1

/-- The 4-byte configuration registers that R419 gives a value, as reset leaves them: the IDs, BAR0 (64-bit,
non-prefetchable) and BAR2 (64-bit, prefetchable), the MSI-X capability with 64 vectors, its table and pending bits in BAR0
(R420), and the Resizable BAR capability with 1 GiB to 512 GiB. Their places and encodings are the PCIe standard's and the
capabilities' offsets the model's (PRESUMED, log 107). -/
def configReset : Nat → Option Word32
  | 0 => some (BitVec.ofNat 32 (Config.vendorId.toNat + 0x0A48 * 2 ^ 16))
  | 4 => some 0x4
  | 5 => some 0
  | 6 => some 0xC
  | 7 => some 0
  | 13 => some 0x40
  | 16 => some 0x003F0011
  | 17 => some 0x30000
  | 18 => some 0x30800
  | 64 => some 0x00010015
  | 65 => some 0x00FFC000
  | 66 => some 0xA22
  | _ => none

/-- The log2 of the size of BAR2 that the Resizable BAR control selects: 30 to 39. -/
def bar2Bits (s : State) : Nat := 30 + min 9 (natBits (((smGet s.hub.config 66).getD 0xA22).toNat) 13 8 - 10)

/-- The bits of a configuration register that software writes: of a BAR those above its size. -/
def configMask (s : State) (reg : Nat) : Nat :=
  match reg with
  | 4 => 0xFF000000
  | 5 => 2 ^ 32 - 1
  | 6 => (2 ^ 64 - 2 ^ bar2Bits s) % 2 ^ 32
  | 7 => (2 ^ 64 - 2 ^ bar2Bits s) / 2 ^ 32
  | 16 => 0xC0000000
  | 66 => 0x3F00
  | _ => 0

/-- CONFIGURATION_REQUEST: it is completed (R327). The registers that R419 does not describe are the standard's, whose
values the spec does not give; a write of them has no effect. -/
def execConfigurationRequest (port reg : Nat) (wr : Option Word32) (s : State) : Out :=
  let old := (smGet s.hub.config reg).or (configReset reg)
  match wr, old with
  | some v, some w =>
    let m := BitVec.ofNat 32 (configMask s reg)
    .next (sendTlp port 3 reg [] { s with hub := { s.hub with config := smSet s.hub.config reg (v &&& m ||| w &&& ~~~m) } })
  | some _, none => .next (sendTlp port 3 reg [] s)
  | none, old =>
    let v := old.getD ((Config.freeWord s.freeCtr).setWidth 32)
    .next (sendTlp port 3 reg (leBytes 4 v.toNat) { s with freeCtr := s.freeCtr + 1 })

/-- UNSUPPORTED_REQUEST (R327). -/
def execUnsupportedRequest (port tag : Nat) (s : State) : Out := .next (sendTlp port 4 tag [] s)

/-- PCIE_COMPLETION: every write that the device has sent on the port is performed at system scope (R264). -/
def execPcieCompletion (port : Nat) (s : State) : Out :=
  let n := (s.out.filter fun t => t.port = port && t.kind = 1).length
  .next { s with hub := { s.hub with pcieDone := s.hub.pcieDone.setIfInBounds port n } }

/-! ### Contexts (R406) -/

/-- A write clears the valid bit of an entry in force: the context's jobs are cancelled, and the entry stays until
its counters are final. -/
def invalidateContext (asid : BitVec 12) (s : State) : State :=
  if !ctxValid s asid.toNat ∨ s.hub.closing.contains asid then s
  else
    let js := s.hub.counters.filter fun (_, v) => v.kind = .job && v.asid = asid && !v.final
    let s1 := js.foldl (init := s) fun s (c, _) => cancelAll c s
    { s1 with hub := { s1.hub with closing := s1.hub.closing ++ [asid] } }

/-- CONTEXT_INVALIDATE (R406). -/
def execContextInvalidate (asid : BitVec 12) (s : State) : Out := .next (invalidateContext asid s)

/-- CONTEXT_TEARDOWN: every counter of the context is final (R406). -/
def execContextTeardown (asid : BitVec 12) (s : State) : Out :=
  if !s.hub.closing.contains asid ∨ s.hub.counters.any (fun (_, v) => v.asid = asid && !v.final) then .next s
  else
    let s1 := dropTlb (fun e => e.asid = asid) s
    let ks := s1.hub.keys.filter fun (_, k) => k.loaded && k.owner = asid
    let s2 := ks.foldl (init := s1) fun s (k, _) => eraseKey k s
    .next (setBar0 (0x200000 + 32 * asid.toNat) 32 0
      { s2 with hub := { s2.hub with closing := s2.hub.closing.filter fun a => a ≠ asid } })

/-! ### The registers of BAR0 (R420) -/

/-- A request sequence is not answered (R423). -/
def mailBusy (s : State) : Bool := bar0 s 0x20000 8 ≠ bar0 s 0x20008 8

/-- A write of the request sequence: it submits a request, or is ignored while one is unanswered (R423). -/
def mailWrite (v : Nat) (s : State) : State :=
  if mailBusy s then setCause 3 s else setBar0 0x20000 8 v s

/-- The bits that a write of a register keeps; the others are reserved, and registers not listed keep none. -/
def registerMask (off : Nat) : Nat :=
  if 0x20100 ≤ off ∧ off < 0x21000 then 2 ^ 64 - 1
  else if 0x30000 ≤ off ∧ off < 0x30400 then (if off % 16 = 0 then 2 ^ 64 - 1 else 2 ^ 33 - 1)
  else if off = 0x50000 then 2 ^ 63 + 4095 * 2 ^ 32 + (2 ^ 30 - 1)
  else if 0x60000 ≤ off ∧ off < 0x60800 then
    if off % 32 = 0 then 2 ^ 63 + 3 * 2 ^ 16 + 4095 else if off % 32 = 8 then 63
    else if off % 32 = 16 then 2 ^ 64 - 1 else 0
  else if 0x61000 ≤ off ∧ off < 0x61400 then 2 ^ 64 - 1
  else if 0x220000 ≤ off ∧ off < 0x230000 then
    if off % 16 = 0 then 2 ^ 48 - 4 else 2 ^ 48 - 2 ^ 12
  else 0

/-- The table in which the write of 8 bytes lies is read-only for the host, or for service firmware (R420). -/
def hostReadOnly (o : Nat) : Bool := o < 0x10000 || (0x200000 ≤ o && o < 0x220000)
def firmwareReadOnly (o : Nat) : Bool := (0x30000 ≤ o && o < 0x40000) || (0x50000 ≤ o && o < 0x62000)

/-- A write that clears the valid bit of a context in force cancels its jobs, and the entry stays (R406). -/
def contextWrite (o v : Nat) (s : State) : State :=
  if o % 32 = 0 ∧ ctxValid s ((o - 0x200000) / 32) ∧ natBits v 63 63 = 0 then
    invalidateContext (BitVec.ofNat 12 ((o - 0x200000) / 32)) s
  else setBar0 o 8 v s

/-- A write of 8 bytes to a BAR0 register by the host (R5, R420). -/
def registerWrite (off v : Nat) (s : State) : State :=
  let o := off / 8 * 8
  if hostReadOnly o then s
  else if o = 0x10008 ∨ (0x10020 ≤ o ∧ o < 0x10040) then
    setBar0 o 8 (bar0 s o 8 &&& (2 ^ 64 - 1 - v % 2 ^ 64)) s
  else if o = 0x20000 then mailWrite v s
  else if 0x40000 ≤ o ∧ o < 0x44000 then jobQueueWrite o v s
  else if 0x800000 ≤ o then windowWrite .host o v s
  else if registerMask o = 0 then s
  else setBar0 o 8 (v &&& registerMask o) s

/-- A write of 8 bytes by service firmware (R420): it writes the description, the status page, the mailbox's response and
the context table too, and no table that the host alone writes. -/
def firmwareWrite (off v : Nat) (s : State) : State :=
  let o := off / 8 * 8
  if firmwareReadOnly o then s
  else if o < 0x30000 then setBar0 o 8 v s
  else if 0x40000 ≤ o ∧ o < 0x44000 then jobQueueWrite o v s
  else if 0x200000 ≤ o ∧ o < 0x220000 then contextWrite o v s
  else if 0x800000 ≤ o then windowWrite .firmware o v s
  else if registerMask o = 0 then s
  else setBar0 o 8 (v &&& registerMask o) s

/-- The member of the domain table that a register write adds (R328). -/
def newMember (off : Nat) (before after : State) : List Nat :=
  if 0x61000 ≤ off ∧ off < 0x61400 then
    [(off - 0x61000) / 16].filter fun d => memberPort before d = 0 && memberPort after d ≠ 0
  else []

/-- REGISTER_WRITE (R5): a write by the host. The device announces itself to a member that the domain table gains (R329, log 82). -/
def execRegisterWrite (off : Nat) (v : Word) (s : State) : Out :=
  let s1 := registerWrite off v.toNat s
  .next (if respondsAt s off then announce 1 (newMember off s s1) s1 else s)

/-- JOB_QUEUE_DOORBELL (R424). -/
def execJobQueueDoorbell (j : Nat) (tail : BitVec 16) (s : State) : Out :=
  if j < 256 ∧ respondsAt s 0x40000 then .next (doorbell j tail.toNat s) else .next s

/-- The status word of a key slot (R409). -/
def keyStatus (s : State) (k : Nat) : Nat :=
  let x := keySlot s k
  x.loaded.toNat * 2 ^ 63 + x.epoch.toNat * 2 ^ 12 + x.owner.toNat

/-- What the host reads at an offset of BAR0 (R420). -/
def hostRead (s : State) (off : Nat) : Nat :=
  let o := off / 8 * 8
  if !respondsAt s o then 0
  else if 0x100000 ≤ o ∧ o < 0x102000 then keyStatus s ((o - 0x100000) / 8)
  else if 0x800000 ≤ o then windowRead s .host o
  else bar0 s o 8

/-- A read of 8 bytes of BAR0 by the host is completed (R327). -/
def completeRead (port off : Nat) (s : State) : Out :=
  if respondsAt s off then .next (sendTlp port 3 off (leBytes 8 (hostRead s off)) s) else .next s

/-! ### The mailbox (R412, R418, R423) -/

/-- The request that waits to be carried out has an opcode. -/
def requested (s : State) (op : Nat) : Bool := mailBusy s && !s.hub.mailDone && bar0 s 0x20100 4 = op

def requestBytes (s : State) (n : Nat) : List Byte := smReadList 0 s.mem.bar0 0x20108 n

/-- The response: payload, status and length; the response sequence follows (R423). -/
def respond (status : Nat) (payload : List Byte) (s : State) : State :=
  let b := smWriteList 0 s.mem.bar0 0x21000 payload
  let s1 := setBar0 0x20014 4 payload.length (setBar0 0x20010 4 status { s with mem := { s.mem with bar0 := b } })
  { s1 with hub := { s1.hub with mailDone := true } }

/-- A request whose length must be n. -/
def request (op n : Nat) (work : List Byte → State → State) (s : State) : Out :=
  if !requested s op then .next s
  else if bar0 s 0x20104 4 ≠ n then .next (respond 2 [] s)
  else .next (work (requestBytes s n) s)

/-- ALLOC: a free slot gets a fresh key (R412). -/
def execAlloc (s : State) : Out :=
  request 1 2 (fun b s =>
    let asid := field b 0 2
    let free := (List.range 1024).filter fun k => k ≠ 0 && !(keySlot s k).loaded
    if 2 ^ 12 ≤ asid then respond 2 [] s
    else if free = [] then respond 0 (leBytes 2 0) s
    else
      let k := free.getD (Config.freeChoice s.freeCtr % free.length) 0
      let slot : KeySlot := { keySlot s k with loaded := true, owner := BitVec.ofNat 12 asid, key := s.hub.nextKey }
      let s1 := setKeySlot k slot { s with
        freeCtr := s.freeCtr + 1, hub := { s.hub with nextKey := s.hub.nextKey + 1 } }
      respond 0 (leBytes 2 k) s1) s

/-- A slot number of a request (R423). -/
def slotArg (b : List Byte) : Option Nat :=
  let k := field b 0 2
  if 1 ≤ k ∧ k ≤ 1023 then some k else none

/-- ERASE (R412, R413). -/
def execErase (s : State) : Out :=
  request 2 2 (fun b s =>
    match slotArg b with
    | none => respond 2 [] s
    | some k => if (keySlot s k).loaded then respond 0 [] (eraseKey k s) else respond 1 [] s) s

/-- The blob of a slot (R423). -/
def sealedBlob (s : State) (k : Nat) : List Byte :=
  let x := keySlot s k
  let r := padTo 92 (Config.sealedBytes s.freeCtr)
  leBytes 4 1 ++ leBytes 2 k ++ leBytes 2 x.owner.toNat ++ leBytes 4 x.epoch.toNat ++ leBytes 4 0 ++
    r.take 12 ++ leBytes 4 0 ++ r.drop 12 ++ List.replicate 16 0

/-- SEAL (R412, R423). -/
def execSeal (s : State) : Out :=
  request 3 2 (fun b s =>
    match slotArg b with
    | none => respond 2 [] s
    | some k =>
      if !(keySlot s k).loaded then respond 1 [] s
      else
        let blob := sealedBlob s k
        let h := { s.hub with sealed := s.hub.sealed ++ [(blob, (keySlot s k).key)] }
        respond 0 blob { s with freeCtr := s.freeCtr + 1, hub := h }) s

/-- The key of a blob whose tag verifies. -/
def openBlob (s : State) (b : List Byte) : Option Nat :=
  match s.hub.sealed.find? fun x => x.1 = b with
  | some x => some x.2
  | none => Config.tagVerifies b

/-- Loads the key of a blob into its slot; `none` when it is refused (R423). -/
def unsealBlob (b : List Byte) (s : State) : Option State :=
  let k := field b 4 2
  match openBlob s b with
  | none => none
  | some key =>
    if k = 0 ∨ 1023 < k ∨ (keySlot s k).loaded ∨ (keySlot s k).epoch.toNat ≠ field b 8 4 then none
    else some (setKeySlot k { keySlot s k with loaded := true, owner := BitVec.ofNat 12 (field b 6 2), key := key } s)

/-- UNSEAL (R412, R423). -/
def execUnseal (s : State) : Out :=
  request 4 128 (fun b s =>
    match unsealBlob b s with
    | some s1 => respond 0 (leBytes 2 (field b 4 2)) s1
    | none => respond 1 [] s) s

/-- The report of R418. -/
def attestReport (s : State) (nonce : List Byte) (who : Nat) : List Byte :=
  let count := (s.hub.keys.filter fun (_, k) => k.loaded && k.owner.toNat = who).length
  let key := smReadList 0 s.mem.bar0 0xA00 (bar0 s 0x814 2)
  let body := leBytes 4 1 ++ leBytes 4 2048 ++ nonce ++ smReadList 0 s.mem.bar0 0x10 16 ++
    leBytes 8 (bar0 s 0x20 8) ++ (s.hub.measure.toList.map (padTo 64)).flatten ++ padTo 64 (shake256 key) ++
    leBytes 8 who ++ leBytes 8 count
  let signed := padTo 0x300 (body ++ leBytes 2 (Config.signatureLength body))
  signed ++ padTo 1280 (Config.signature signed)

/-- ATTEST (R418). -/
def execAttest (s : State) : Out :=
  request 5 40 (fun b s =>
    let who := field b 32 8
    if 2 ^ 12 ≤ who ∧ who ≠ 2 ^ 64 - 1 then respond 2 [] s
    else respond 0 (attestReport s (b.take 32) who) s) s

/-- The entries of the authorisation table (R458). -/
def authEntry (s : State) (k : Nat) : Nat := bar0 s (0xE00400 + 8 * k) 8

/-- DEBUG_AUTH: a host authorisation is granted or revoked (R423, R455, R458). -/
def execDebugAuth (s : State) : Out :=
  request 6 3 (fun b s =>
    let asid := field b 0 2
    let held := (List.range 64).filter fun k => authEntry s k = 2 ^ 15 + asid
    if 2 ^ 12 ≤ asid ∨ 1 < field b 2 1 then respond 2 [] s
    else if field b 2 1 = 0 then
      respond 0 [] (held.foldl (init := s) fun s k => setBar0 (0xE00400 + 8 * k) 8 0 s)
    else if held ≠ [] then respond 0 [] s
    else match (List.range 64).find? fun k => natBits (authEntry s k) 15 15 = 0 with
      | some k => respond 0 [] (setBar0 (0xE00400 + 8 * k) 8 (2 ^ 15 + asid) s)
      | none => respond 1 [] s) s

/-- UNKNOWN_OPCODE: an opcode that is not listed is answered with status 3 (R423). -/
def execUnknownOpcode (s : State) : Out :=
  let op := bar0 s 0x20100 4
  if mailBusy s ∧ !s.hub.mailDone ∧ (op = 0 ∨ 6 < op) then .next (respond 3 [] s) else .next s

/-- MAILBOX_RESPONSE: the response sequence is written, then the cause is set (R423). -/
def execMailboxResponse (s : State) : Out :=
  if s.hub.mailDone then
    let s1 := setBar0 0x20008 8 (bar0 s 0x20000 8) s
    .next (setCause 1 { s1 with hub := { s1.hub with mailDone := false } })
  else .next s

/-- MAILBOX_REQUEST_IGNORED (R423). -/
def execMailboxRequestIgnored (sequence : Word) (s : State) : Out :=
  if mailBusy s then .next (mailWrite sequence.toNat s) else .next s

/-! ### Interrupts (R426) -/

/-- A vector of the MSI-X table is masked. -/
def vectorMasked (s : State) (v : Nat) : Bool := natBits (bar0 s (0x3000C + 16 * v) 4) 0 0 = 1

/-- The data of a message: its own, or the table's. -/
def irqData (s : State) (i : Irq) : Word32 := i.data.getD (BitVec.ofNat 32 (bar0 s (0x30008 + 16 * i.vector) 4))

/-- A message goes to the host, and its HOST node is finished. -/
def sendIrq (i : Irq) (s : State) : State :=
  let s1 := sendTlp 0 1 (bar0 s (0x30000 + 16 * i.vector) 8) (leBytes 4 (irqData s i).toNat) s
  match i.node with
  | some (g, n) => nodeFinished g n s1
  | none => s1

/-- MSIX_SEND: the oldest message with a vector and data is sent, or its vector is masked and its pending bit is
set, once what its event releases is performed at system scope (R426). -/
def execMsixSend (v : Nat) (data : BitVec 32) (s : State) : Out :=
  match s.hub.irqs.findIdx? fun i => i.vector = v && !i.pended && irqData s i = data with
  | none => .next s
  | some k =>
    match s.hub.irqs[k]? with
    | none => .next s
    | some i =>
      if !portsSettled s then .next s
      else if vectorMasked s v then
        .next (setPending v true { s with hub := { s.hub with irqs := listSet s.hub.irqs k { i with pended := true } } })
      else .next (sendIrq i { s with hub := { s.hub with irqs := listDel s.hub.irqs k } })

/-- MSIX_UNMASK: a vector that is no longer masked sends what is pending (R426). -/
def execMsixUnmask (v : Nat) (s : State) : Out :=
  let due := s.hub.irqs.filter fun i => i.vector = v && i.pended
  if vectorMasked s v ∨ due = [] ∨ !portsSettled s then .next s
  else
    let rest := s.hub.irqs.filter fun i => !(i.vector = v && i.pended)
    .next (due.foldl (init := setPending v false { s with hub := { s.hub with irqs := rest } }) fun s i => sendIrq i s)

end Sys2Proof.Machine
end

