-- ==== Sys2Proof/Machine/Sched.lean ====
section
/-! DEFINITION. The scheduler: launch and graph acceptance, the ready pool, placement, node commands, jobs and
phases, and pre-emption (R23 to R31, R377 to R387, R391, R401, R424, R425). -/

namespace Sys2Proof.Machine

/-- The hub reads packets, graphs and lists in the context of their owner, at strand level. -/
def hubPort (asid : BitVec 12) (root : Nat) : Port := contextPort asid root false 7 none

/-! ### Launches -/

/-- The lane blocks that the package offers (R421). -/
def offeredBlocks (s : State) : Nat :=
  ((List.range 48).map fun h => if hoopPresent s h then natBits (bar0 s (0x80 + 8 * h) 8) 5 0 else 0).sum

/-- The lowest-numbered failing reason of a readable packet (R26). -/
def packetFault (s : State) (b : List Byte) : Option Nat :=
  let count := field b 0x10 2
  let blocks := field b 0x12 2
  let flags := field b 0x16 2
  if count = 0 ∨ 192 < count then some 1
  else if (if natBits flags 0 0 = 1 then 1536 else 32) < blocks ∨ offeredBlocks s < blocks then some 2
  else if natBits flags 9 2 ≠ 0 then some 3
  else if field b 0 8 % 4 ≠ 0 then some 4
  else if field b 0x18 8 % 16 ≠ 0 ∨ 2 ^ 48 < field b 0x18 8 + count * field b 0x14 2 * 1024 then some 5
  else none

def updLaunch (c : Nat) (f : Launch → Launch) (s : State) : State :=
  { s with hub := { s.hub with launches := listUpd (fun l => l.counter = c) f s.hub.launches } }

def updGraph (c : Nat) (f : Graph → Graph) (s : State) : State :=
  { s with hub := { s.hub with graphs := listUpd (fun g => g.counter = c) f s.hub.graphs } }

/-- The preferred hoop of a packet; a hint that names an absent hoop is ignored (R25). -/
def packetAffinity (s : State) (b : List Byte) : Option Nat :=
  let flags := field b 0x16 2
  if natBits flags 1 1 = 1 ∧ hoopPresent s (natBits flags 15 10) then some (natBits flags 15 10) else none

/-- LAUNCH_ACCEPT: the scheduler checks a launch packet (R26) and enters the launch in the ready pool, once that has room
(R383). The strands of a
launch that has been cancelled are counted as cancelled and not started (R42). -/
def execLaunchAccept (c : Nat) (s : State) : Out :=
  match findLaunch s c, counterOf s c with
  | some l, some v =>
    let entered := s.hub.ready.any fun x => x.launch = some c
    if l.accepted ∨ v.final ∨ (!entered ∧ 16384 ≤ s.hub.ready.length) then .next s
    else
      match runAct (vsReadBlock (hubPort v.asid l.root.toNat) l.packet.toNat 64) s with
      | (.error _, s1) => .next (reject c 6 s1)
      | (.ok b, s1) =>
        match packetFault s1 b with
        | some r => .next (reject c r s1)
        | none =>
          let s2 := updLaunch c (fun l => { l with accepted := true, bytes := b, affinity := packetAffinity s1 b })
            (modCounter c (fun v => { v with expected := field b 0x10 2 }) s1)
          let e : PoolEntry := { graph := 0, node := 0, strand := none, launch := some c, level := v.level
                                 job := jobOf s2 64 c, age := s2.ac }
          if v.cancelled then
            .next (countUnstarted c (field b 0x10 2) (updLaunch c (fun l => { l with placed := field b 0x10 2 }) s2))
          else .next (if entered then s2 else joinPool e s2)
  | _, _ => .next s

/-- The registers of a strand at its start (R27). -/
def startRegs (l : Launch) (index : Nat) : Vector Word 32 :=
  let b := l.bytes
  Vector.ofFn fun k => BitVec.ofNat 64 <| match k.val with
    | 2 => field b 0x18 8 + (index + 1) * field b 0x14 2 * 1024
    | 10 => field b 8 8
    | 11 => index
    | 12 => l.strands
    | 13 => field b 0x20 8
    | 14 => field b 0x28 8
    | 15 => field b 0x30 8
    | 16 => field b 0x38 8
    | 17 => l.packet.toNat
    | _ => 0

/-- A strand as it is placed (R27, R64, R408). -/
def newStrand (s : State) (l : Launch) (v : Counter) (index h slot : Nat)
    (grant : List (Nat × Nat) × List (Nat × Nat)) : Strand :=
  let csr := { Csrs.reset with
    tvec := BitVec.ofNat 64 (trapHandler s v.asid.toNat)
    tvq := BitVec.ofNat 64 (trapImageBase s v.asid.toNat + 4096 * (8 * h + slot))
    atp := BitVec.ofNat 64 (ctxRoot s v.asid.toNat + v.asid.toNat) }
  { Strand.idle with
    id := { launch := l.counter, index := index }, count := l.strands, asid := v.asid, hoop := h, slot := slot
    level := v.level, state := .ready, pc := BitVec.ofNat 64 (field l.bytes 0 8), x := startRegs l index, csr := csr
    arrays := grant.1, followers := grant.2, startAc := s.ac }

/-- A place for a new strand record: the focus if it holds none. -/
def addStrand (t : Strand) (s : State) : State :=
  if s.strand.state = .idle ∧ s.strand.node = none then { s with strand := t } else { s with pool := s.pool ++ [t] }

/-- The launch barriers in use (R276). -/
def freeBarrier (s : State) : Option Nat := (List.range 256).find? fun b => (smGet s.hub.barriers b).isNone

/-- Placement of the next strand of a launch (R27, R276). R28 leaves the order of the indices open: the model places them
in ascending order (DESIGN CHOICE, log 77). -/
def placeStrand (l : Launch) (v : Counter) (h slot : Nat) (grant : List (Nat × Nat) × List (Nat × Nat)) (s : State) : State :=
  let i := l.placed
  let t := newStrand s l v i h slot grant
  let bar := if 2 ≤ l.strands ∧ l.barrier.isNone then freeBarrier s else l.barrier
  let fresh : Barrier := { slots := 0, asid := v.asid, participants := l.strands, count := 0, phase := false }
  let s1 := match l.barrier, bar with
    | none, some b => { s with hub := { s.hub with barriers := smSet s.hub.barriers b fresh } }
    | _, _ => s
  let s2 := updLaunch l.counter (fun l => { l with placed := i + 1, barrier := bar }) s1
  let s3 := emitChange t .idle .ready 0 (addStrand t (dropBuffers h s2))
  if i + 1 = l.strands then emitHub 1 (l.counter + l.strands * 2 ^ 12) s3 else s3

/-- The blocks and the span flag that a launch asks for. -/
def launchAsks (l : Launch) : Nat × Bool := (field l.bytes 0x12 2, natBits (field l.bytes 0x16 2) 0 0 = 1)

/-- Some slot of a hoop can take a strand that asks for blocks. -/
def hoopTakes (s : State) (asid : BitVec 12) (h k : Nat) (spans : Bool) : Bool :=
  (List.range 8).any fun j => (grantFor s asid h j k spans).isSome

/-- A slot takes a strand when it can, and no hoop that is tried earlier can (R385). -/
def slotTakes (s : State) (asid : BitVec 12) (aff : Option Nat) (h slot k : Nat) (spans : Bool) : Bool :=
  (grantFor s asid h slot k spans).isSome &&
  (hoopOrder aff).find? (fun x => hoopTakes s asid x k spans) = some h

/-! ### Graph objects -/

/-- The array addresses and limits of a graph header (R377). -/
def graphHeaderOk (addr : Nat) (h : List Byte) : Bool :=
  addr % 128 = 0 && field h 4 4 < 2 && field h 8 8 % 128 = 0 && field h 0x10 8 % 2 = 0 && field h 0x18 4 ≤ 2 ^ 20 &&
  allZero h 0x1C 100

/-- The work that R379 allows for a kind. -/
def nodeWorkOk (r : List Byte) : Bool :=
  let target := field r 8 8
  let cmd := field r 0x10 2
  let arg := field r 0x12 2
  let value := field r 0x14 4
  match field r 0 1 with
  | 1 => target % 64 = 0 && cmd = 0 && arg = 0 && value = 0
  | 2 => 0x20 ≤ cmd && cmd ≤ 0x22 && arg = 0 && value = 0
  | 3 => cmd = 0x38 && arg < 256 && value = 0
  | 4 => 0x48 ≤ cmd && cmd ≤ 0x4A && arg = 0 && value = 0
  | 5 => 0x40 ≤ cmd && cmd ≤ 0x44 && arg = 0 && value = 0
  | 6 => target < 2 ^ 12 && cmd = 0 && arg = 0
  | 7 => target = 0 && cmd = 0 && arg < 64
  | _ => false

/-- A node record keeps R378 and R379. -/
def nodeOk (entries : Nat) (r : List Byte) : Bool :=
  let ops := field r 1 1
  nodeWorkOk r && ops ≤ 8 && field r 2 2 < 4096 && field r 4 2 < 4096 && field r 6 2 + field r 4 2 ≤ entries &&
  natBits (field r 0x18 1) 6 6 = 0 && allZero r 0x19 39 &&
  (List.range 8).all fun j =>
    if j < ops then field r (0x40 + 8 * j) 8 % 256 = 0 else allZero r (0x40 + 8 * j) 8

/-- The successor entries of a node. -/
def succsOf (succ : List Nat) (r : List Byte) : List Nat := (succ.drop (field r 6 2)).take (field r 4 2)

/-- Takes nodes without open predecessors away until none is left to take. -/
def peel (succs : List (List Nat)) : Nat → SMap Nat → List Nat → Nat → Nat
  | 0, _, _, done => done
  | _, _, [], done => done
  | fuel + 1, preds, n :: rest, done =>
    let (p, new) := (succs.getD n []).foldl (init := (preds, ([] : List Nat))) fun (p, new) m =>
      let k := smRead 0 p m
      (smSet p m (k - 1), if k = 1 then m :: new else new)
    peel succs fuel p (new ++ rest) (done + 1)

/-- A patch: its entries as node, offset and value (R382). -/
def patchOf (bs : List Byte) (nodes : Nat) : Option (List (Nat × Nat × Word)) :=
  ((List.range (bs.length / 16)).mapM fun k =>
    let w := field bs (16 * k) 8
    let off := natBits w 23 16
    if natBits w 15 0 < nodes ∧ off % 8 = 0 ∧ 8 ≤ off ∧ off ≤ 0x18 ∧ natBits w 63 24 = 0 then
      some (natBits w 15 0, off, BitVec.ofNat 64 (field bs (16 * k + 8) 8)) else none)

/-- What a graph's memory gives, or the reason of its rejection (R381). -/
def readGraph (p : Port) (addr : Nat) (patchAddr : Option Nat) (instances : Nat) :
    Act (Except Nat (List Byte × List (Nat × Nat × Word) × List (List Byte))) := do
  let unreadable {α : Type} (m : Act α) : Act (Except Nat α) := do
    match ← tryTrap m with
    | .ok x => pure (.ok x)
    | .error _ => pure (.error 13)
  match ← unreadable (vsReadBlock p addr 128) with
  | .error r => pure (.error r)
  | .ok h =>
    let n := field h 0 4
    if n = 0 ∨ 4096 < n then pure (.error 8)
    else if !graphHeaderOk addr h then pure (.error 9)
    else
      match ← unreadable (do
          let nodes ← vsReadBlock p (field h 8 8) (128 * n)
          let succ ← vsReadBlock p (field h 0x10 8) (2 * field h 0x18 4)
          let patch ← match patchAddr with
            | none => pure none
            | some a => do
              let w ← vsReadBlock p a 8
              let body ← vsReadBlock p (a + 8) (16 * min 256 (field w 0 4))
              pure (some (w, body))
          pure (nodes, succ, patch)) with
      | .error r => pure (.error r)
      | .ok (nb, sb, patch) =>
        let nodes := chunksOf 128 n nb
        let succ := (chunksOf 2 (field h 0x18 4) sb).map leNat
        let tally (l : List Nat) : SMap Nat := l.foldl (init := []) fun m x => smSet m x (smRead 0 m x + 1)
        let counts := tally succ
        let entries : Option (List (Nat × Nat × Word)) := match patch with
          | none => some []
          | some (w, body) => if 256 < field w 0 4 ∨ field w 4 4 ≠ 0 ∨ (patchAddr.getD 0) % 8 ≠ 0 then none else patchOf body n
        if nodes.any fun r => !nodeOk (field h 0x18 4) r then pure (.error 9)
        else if succ.any fun x => n ≤ x then pure (.error 10)
        else if nodes.zipIdx.any fun (r, i) => field r 2 2 ≠ smRead 0 counts i then pure (.error 11)
        else
          let succs := nodes.map (succsOf succ)
          let edges := tally succs.flatten
          let starts := (List.range n).filter fun i => smRead 0 edges i = 0
          if peel succs (n + 1) edges starts 0 ≠ n then pure (.error 12)
          else match entries with
            | none => pure (.error 14)
            | some es => if 64 ≤ instances then pure (.error 15) else pure (.ok (h, es, nodes))

/-- Other instances of a graph object that are unfinished (R401). -/
def otherInstances (s : State) (g : Graph) (asid : BitVec 12) : List Graph :=
  s.hub.graphs.filter fun o => o.counter ≠ g.counter && o.addr = g.addr &&
    (counterOf s o.counter).any fun v => v.asid = asid && !v.final

/-- A node record with the instance's patch (R382). -/
def patched (g : Graph) (node : Nat) (r : List Byte) : List Byte :=
  g.patch.foldl (init := r) fun r (n, off, v) => if n = node then patchBytes r off (leBytes 8 v.toNat) else r

/-- Reads a node as a dispatch sees it; a record that cannot be read, or that its patch has spoiled, is a node
fault (R382). -/
def readNode (g : Graph) (asid : BitVec 12) (node : Nat) : Act (List Byte) := do
  let r ← vsReadBlock (hubPort asid g.root.toNat) (field g.header 8 8 + 128 * node) 128
  let r1 := patched g node r
  require (nodeOk (field g.header 0x18 4) r1) 6
  pure r1

/-- The node of a graph may enter the pool now: without the concurrent flag, only when every earlier instance of the
object is final (R401). -/
def graphEligible (s : State) (g : Graph) (asid : BitVec 12) : Bool :=
  natBits (field g.header 4 4) 0 0 = 1 ||
  !((s.hub.graphs.takeWhile fun o => o.counter ≠ g.counter).any fun o => o.addr = g.addr &&
    (counterOf s o.counter).any fun v => v.asid = asid && !v.final)

/-- A dispatched LAUNCH node becomes a launch with its own counter. -/
def openLaunch (g : Graph) (v : Counter) (node : Nat) (r : List Byte) : Act (Option Nat) := do
  match ← allocCounter (newCounter .launch v.asid 0 (some g.counter) none v.level) with
  | none => waitFor .uncounted
  | some c => do
    modHub fun h => { h with launches := h.launches ++
      [{ counter := c, packet := BitVec.ofNat 64 (field r 8 8), accepted := false, bytes := [], placed := 0, barrier := none
         affinity := none, root := g.root, sysLevel := false }] }
    modS (updGraph g.counter fun g => { g with children := smSet g.children node c, records := smSet g.records node r })
    pure (some c)

/-- The entry of a ready node. -/
def nodeEntryOf (s : State) (g : Graph) (v : Counter) (node : Nat) : PoolEntry :=
  { graph := g.counter, node := node, strand := none, launch := none, level := v.level, job := jobOf s 64 g.counter
    age := s.ac }

/-- Ready nodes, and saved strands that are due, enter the pool while it has room (R383). -/
def fillPool (s : State) : State :=
  let nodes := s.hub.graphs.flatMap fun g =>
    match counterOf s g.counter with
    | some v =>
      if !g.accepted || v.final || v.cancelled || !graphEligible s g v.asid then []
      else (g.nodes.filter fun (n, st) => st = .ready && (smGet g.children n).isNone &&
        !(s.hub.ready.any fun e => e.graph = g.counter && e.node = n && e.strand.isNone)).map fun (n, _) => nodeEntryOf s g v n
    | none => []
  let due := ((allStrands s).filter fun t => t.state = .saved && t.due &&
    !(s.hub.ready.any fun e => e.strand = some t.id)).map (restoreEntry s)
  (nodes ++ due).foldl (init := s) fun s e => joinPool e s

/-- GRAPH_ACCEPT: the hub checks a graph (R381) and starts its instance; the nodes of one that has been cancelled are
counted as cancelled (R42). -/
def execGraphAccept (c : Nat) (s : State) : Out :=
  match findGraph s c, counterOf s c with
  | some g, some v =>
    if g.accepted ∨ v.final then .next s
    else
      let others := (otherInstances s g v.asid).filter fun o => o.accepted
      match runAct (readGraph (hubPort v.asid g.root.toNat) g.addr.toNat (g.patchAddr.map BitVec.toNat) others.length) s with
      | (.ok (.error r), s1) => .next (reject c r s1)
      | (.error _, s1) => .next s1
      | (.ok (.ok (h, es, nodes)), s1) =>
        let start : Graph → Graph := fun g =>
          { g with accepted := true, header := h, patch := es
                   preds := nodes.zipIdx.map (fun (r, i) => (i, field r 2 2))
                   nodes := nodes.zipIdx.map fun (r, i) =>
                     (i, if v.cancelled then .complete else if field r 2 2 = 0 then .ready else .blocked) }
        let s2 := updGraph c start (modCounter c (fun v => { v with expected := nodes.length }) s1)
        .next (if v.cancelled then countUnstarted c nodes.length s2 else fillPool s2)
  | _, _ => .next s

/-- The work of a running node is done (R379). -/
def nodeDone (s : State) (g : Graph) (asid : BitVec 12) (node : Nat) : Bool :=
  match smGet g.nodes node with
  | some .finished => true
  | some .complete | some .blocked | none => false
  | some st =>
    match smGet g.children node with
    | some c => (counterOf s c).all fun v => v.final
    | none =>
      let r := smRead [] g.records node
      st = .running && field r 0 1 = 6 && (ownCounter s asid (BitVec.ofNat 64 (field r 8 8))).any fun v =>
        v.final || field r 0x14 4 ≤ v.count.toNat

/-- NODE_COMPLETE (R380): the successors' counts drop, the graph counts the node, and the launch counter of a LAUNCH
node is released. -/
def execNodeComplete (c node : Nat) (s : State) : Out :=
  match findGraph s c, counterOf s c with
  | some g, some v =>
    if v.final ∨ !nodeDone s g v.asid node then .next s
    else
      let child := smGet g.children node
      let was := (child.bind (counterOf s)).any fun w => w.cancelled
      match runAct (if v.cancelled then pure [] else do
          let r := smRead [] g.records node
          let succ ← vsReadBlock (hubPort v.asid g.root.toNat) (field g.header 0x10 8 + 2 * field r 6 2) (2 * field r 4 2)
          pure ((chunksOf 2 (field r 4 2) succ).map leNat)) s with
      | (.error (.trap t), s1) => .next (nodeFault c node v.asid t.cause.toNat s1)
      | (.error _, s1) => .next s1
      | (.ok succ, s1) =>
        let step (g : Graph) (m : Nat) : Graph :=
          let k := smRead 0 g.preds m
          { g with preds := smSet g.preds m (k - 1)
                   nodes := if k = 1 ∧ smGet g.nodes m = some .blocked then smSet g.nodes m .ready else g.nodes }
        let done (g : Graph) : Graph := succ.foldl step { g with nodes := smSet g.nodes node .complete }
        let s2 := countChild c was (updGraph c done s1)
        let release (l : Nat) (s : State) : State := { s with hub := { s.hub with counters := smDel s.hub.counters l } }
        let s3 := match child with
          | some l => release l (forgetObject l s2)
          | none => s2
        .next (fillPool s3)
  | _, _ => .next s

/-! ### Dispatch (R383, R385) -/

/-- A node command occupies a copy engine (queue C) of a hoop or the walker (queue N) of a die. -/
def nodeBusy (s : State) (walker : Bool) (place : Nat) : Bool :=
  (s.strand :: s.pool).any fun t => t.node.isSome && t.state ≠ .exited &&
    (if walker then !t.nq.isEmpty && t.hoop / 12 = place else !t.cq.isEmpty && t.hoop = place)

/-- The bytes of a node's tile operands that each hoop holds in SRAM. -/
def operandBytes (s : State) (p : Port) (r : List Byte) (h : Nat) : Nat :=
  ((List.range (field r 1 1)).map fun j =>
    let w := field r (0x40 + 8 * j) 8
    ((pagePieces (natBits w 47 0) (256 * (natBits w 62 48 + 1))).map fun (a, k) =>
      match runAct (translate p a .load) s with
      | (.ok pl, _) =>
        match regionOf pl.pa with
        | .sram gs => if gs / 2 ^ 25 = h then k else 0
        | _ => 0
      | _ => 0).sum).sum

/-- The hoop of an engine node: its affinity, else the hoop with the most operand bytes, else any (R385). -/
def placeHoop (s : State) (p : Port) (r : List Byte) : Option Nat :=
  let aff := field r 0x18 1
  if natBits aff 7 7 = 1 ∧ hoopPresent s (natBits aff 5 0) then some (natBits aff 5 0)
  else
    let counts := (List.range 48).map fun h => (h, operandBytes s p r h)
    let best := counts.foldl (init := (0, 0)) fun b c => if b.2 < c.2 then c else b
    if best.2 = 0 then none else some best.1

/-- The context may be given one more counter (R406). -/
def mayAllocate (s : State) (asid : BitVec 12) : Bool :=
  freeCounters s asid ≠ [] && heldCounters s asid < ctxQuota s asid.toNat

/-- The walker of a die is in service (R421, R445). -/
def walkerThere (s : State) (d : Nat) : Bool :=
  d < 4 && natBits (bar0 s (0x40 + 4 * d) 4) 31 31 = 0 && !s.hub.fenced.getLsbD d

/-- A node can use a target (R385): a LAUNCH node is opened at the hub (log 77). A record that is unreadable or ill-formed
takes any: its dispatch is a fault. -/
def nodeTakes (s : State) (g : Graph) (asid : BitVec 12) (node : Nat) (t : Target) : Bool :=
  match runAct (readNode g asid node) s with
  | (.error _, _) => true
  | (.ok r, _) =>
    let hoop := placeHoop s (hubPort asid g.root.toNat) r
    match field r 0 1, t with
    | 1, .hub => mayAllocate s asid
    | 2, .copyEngine h | 5, .copyEngine h => hoopPresent s h && hoop.all (· = h) && !nodeBusy s false h
    | 3, .unit u => field r 0x12 2 = u && (unitOf s u).queue.length < 16
    | 4, .walker d => walkerThere s d && !nodeBusy s true d && (hoop.all fun h => h / 12 = d || !walkerThere s (h / 12))
    | 6, .hub | 7, .hub => true
    | _, _ => false

/-- An entry of the pool can use a target; no entry of a descheduled context can (R323). -/
def entryTakes (s : State) (e : PoolEntry) (t : Target) : Bool :=
  match e.strand, e.launch, t with
  | some i, _, .slot h k =>
    (findStrand s i).any fun t => t.state = .saved && t.due &&
      slotTakes s t.asid ((findLaunch s i.launch).bind Launch.affinity) h k (t.arrays.length / 8) (spansOf s t)
  | none, some c, .slot h k =>
    match findLaunch s c, counterOf s c with
    | some l, some v => l.accepted && !v.final && !v.cancelled && l.placed < l.strands &&
        (l.strands < 2 || l.barrier.isSome || (freeBarrier s).isSome) &&
        slotTakes s v.asid l.affinity h k (launchAsks l).1 (launchAsks l).2
    | _, _ => false
  | none, none, t =>
    match findGraph s e.graph, counterOf s e.graph with
    | some g, some v => smGet g.nodes e.node = some .ready && !s.hub.descheduled.contains v.asid && nodeTakes s g v.asid e.node t
    | _, _ => false
  | _, _, _ => false

/-- The quantum of a job (R383): 16 unless service firmware has set another. -/
def quantumOf (s : State) (job : Nat) : Nat := smRead 16 s.hub.quanta job

/-- The jobs with entries at a level, from the one whose turn it is on. -/
def turnsOf (s : State) (level : Nat) : List Nat :=
  let jobs := (List.range 4096).filter fun j => s.hub.ready.any fun e => e.level = level && e.job = j
  let turn := (s.hub.turn[level]?).getD 0
  (jobs.filter fun j => turn ≤ j) ++ jobs.filter fun j => j < turn

def deficitOf (s : State) (level job : Nat) : Nat := smRead 0 s.hub.deficits (level * 4096 + job)

def setDeficit (level job v : Nat) (s : State) : State :=
  { s with hub := { s.hub with deficits := smWrite 0 s.hub.deficits (level * 4096 + job) v } }

/-- What the dispatch of an entry costs (R383): opening a LAUNCH node places no strand yet and costs nothing. -/
def entryCost (s : State) (e : PoolEntry) : Nat :=
  match e.strand, e.launch, findGraph s e.graph, counterOf s e.graph with
  | none, none, some g, some v =>
    match runAct (readNode g v.asid e.node) s with
    | (.ok r, _) => if field r 0 1 = 1 then 0 else 1
    | _ => 1
  | _, _, _, _ => 1

/-- Deficit round-robin over a list of turns (R383): the job and entry that dispatch, with the deficits then. A job
whose oldest entry cannot be placed is passed over; one whose deficit is too small grows it and passes. -/
def servedEntry (level : Nat) (t : Target) : List Nat → State → Option (Nat × PoolEntry × State)
  | [], _ => none
  | j :: js, s =>
    match s.hub.ready.find? fun e => e.level = level && e.job = j && entryTakes s e t with
    | none => servedEntry level t js s
    | some e =>
      let cost := entryCost s e
      if cost ≤ deficitOf s level j then some (j, e, setDeficit level j (deficitOf s level j - cost) s)
      else servedEntry level t js (setDeficit level j (deficitOf s level j + quantumOf s j) s)

/-- The entry that a free target is offered to: the highest level that holds one able to use it (R385). -/
def offeredEntry (t : Target) (s : State) : Nat → Option (Nat × PoolEntry × State)
  | 0 => none
  | n + 1 =>
    match servedEntry n t (turnsOf s n ++ turnsOf s n) s with
    | some (j, e, s1) => some (j, e, { s1 with hub := { s1.hub with turn := s1.hub.turn.setIfInBounds n j } })
    | none => offeredEntry t s n

def sameEntry (a b : PoolEntry) : Bool :=
  a.graph = b.graph && a.node = b.node && a.strand = b.strand && a.launch = b.launch

/-- An entry leaves the pool (R383). -/
def leavePool (e : PoolEntry) : State → State := dropEntries (sameEntry e)

/-- Race detection that any strand of a context has enabled (R385). -/
def contextRace (s : State) (asid : BitVec 12) : BitVec 2 :=
  (allStrands s).foldl (init := 0) fun m t => if t.asid = asid && t.state ≠ .exited then m ||| t.csr.racectl.setWidth 2 else m

/-- The declared operands are checked and stamped as one access of the node (R385, R292). -/
def checkOperands (p : Port) (r : List Byte) : Act Unit :=
  (List.range (field r 1 1)).forM fun j => do
    let w := field r (0x40 + 8 * j) 8
    let wr : Bool := natBits w 63 63 = 1
    (pagePieces (natBits w 47 0) (256 * (natBits w 62 48 + 1))).forM fun (a, k) => do
      let pl ← translate p a (if wr then .store else .load)
      checkRace p a pl.pa k wr

/-- The command word of a node (R379): no operands in registers, tk 000. -/
def nodeWord (cmd : Nat) : Word32 := BitVec.ofNat 32 (cmd * 2 ^ 25 + 0b1011011)

/-- The entry that a node command is to its engine; a `kvrepair` runs with the reset values of `kvdev` and `kvcfg`. -/
def nodeEntry (cmd target : Nat) : CEntry where
  word := nodeWord cmd
  popped := false
  step := 0
  copied := false
  a := BitVec.ofNat 64 target
  b := if cmd = 0x41 then Csrs.reset.kvdev else 0
  aux := 0
  mcfg := 0
  seq := 0
  accepted := false
  done := false
  writer := none
  prog := Progress.none

/-- A node command at an engine of a hoop (R379, R387). -/
def nodeCommand (s : State) (g : Graph) (v : Counter) (node h : Nat) (r : List Byte) : Strand :=
  let cmd := field r 0x10 2
  let e := nodeEntry cmd (field r 8 8)
  { Strand.idle with
    id := { launch := g.counter, index := 4096 + node }, asid := v.asid, hoop := h, slot := 8, level := v.level
    state := .running, csr := { Csrs.reset with atp := g.root ||| v.asid.setWidth 64 }
    cq := if cmd < 0x48 then [e] else [], nq := if cmd < 0x48 then [] else [e]
    startAc := s.ac, node := some (g.counter, node, natBits (field r 0x18 1) 7 7 = 1) }

/-- The checks that the front makes of such a command's operand: its alignment (R298, R339, R363). -/
def nodeAlign (r : List Byte) : Act Unit :=
  let cmd := field r 0x10 2
  if 0x20 ≤ cmd ∧ cmd ≠ 0x38 then checkAlign (field r 8 8) (if cmd = 0x41 then 128 else 64) else pure ()

/-- A NEAR node posts its command packet to the unit (R320, R379). -/
def nodeNear (g : Graph) (v : Counter) (node : Nat) (r : List Byte) : Act Unit := do
  let p := hubPort v.asid g.root.toNat
  checkAlign (field r 8 8) 64
  let bs ← vsReadBlock p (field r 8 8) 64
  require (packetOk bs) 6
  let s ← getS
  match packetCounter bs with
  | none => pure ()
  | some k =>
    match ownCounter s v.asid (BitVec.ofNat 64 k) with
    | some c => if c.kind = .free then pure () else raise causeAcc (field bs 4 2)
    | none => raise causeAcc (field bs 4 2)
  postCommand (field r 0x12 2) { asid := v.asid, packet := BitVec.ofNat 64 (field r 8 8), bytes := bs, root := g.root
                                 issuer := none, node := some (g.counter, node) }
  modS (advanceEpoch v.asid)

/-- The hoop at which a node command stands. -/
def targetPlace : Target → Nat
  | .copyEngine h => h
  | .walker d => 12 * d
  | _ => 0

/-- A dispatched node starts (R379, R382, R385); a LAUNCH node gives the counter of its launch. -/
def startNode (g : Graph) (v : Counter) (node : Nat) (t : Target) : Act (Option Nat) := do
  let r ← readNode g v.asid node
  let s ← getS
  if contextRace s v.asid ≠ 0 then
    checkOperands { hubPort v.asid g.root.toNat with race := contextRace s v.asid, hoop := some (targetPlace t), slot := 8 } r
  if field r 0 1 = 1 then openLaunch g v node r else do
  nodeAlign r
  match field r 0 1 with
  | 3 => nodeNear g v node r
  | 6 =>
    match ownCounter s v.asid (BitVec.ofNat 64 (field r 8 8)) with
    | some _ => pure ()
    | none => raise causeAcc (field r 8 8)
  | 7 => modS (postIrq (field r 0x12 2) (some (BitVec.ofNat 32 (field r 0x14 4))) (some (g.counter, node)))
  | _ => modS fun s => { s with pool := s.pool ++ [nodeCommand s g v node (targetPlace t) r] }
  modS (updGraph g.counter fun g => { g with nodes := smSet g.nodes node .running, records := smSet g.records node r })
  pure none

/-- The entry is dispatched to the target. -/
def dispatch (e : PoolEntry) (t : Target) (s : State) : State :=
  match e.strand, e.launch, t with
  | some i, _, .slot h k =>
    match findStrand s i with
    | some u => restoreInto u h k (leavePool e s)
    | none => leavePool e s
  | none, some c, .slot h k =>
    match findLaunch s c, counterOf s c with
    | some l, some v =>
      match grantFor s v.asid h k (launchAsks l).1 (launchAsks l).2 with
      | some grant =>
        let s1 := placeStrand l v h k grant s
        if l.placed + 1 = l.strands then leavePool e s1
        else { s1 with hub := { s1.hub with ready := listUpd (sameEntry e) (fun x => { x with age := s.ac }) s1.hub.ready } }
      | none => s
    | _, _ => leavePool e s
  | none, none, t =>
    match findGraph s e.graph, counterOf s e.graph with
    | some g, some v =>
      match runAct (startNode g v e.node t) s with
      | (.ok none, s1) => leavePool e s1
      | (.ok c, s1) =>
        { s1 with hub := { s1.hub with ready := listUpd (sameEntry e) (fun x => { x with launch := c }) s1.hub.ready } }
      | (.error (.trap w), s1) => nodeFault g.counter e.node v.asid w.cause.toNat (leavePool e s1)
      | (.error _, s1) => s1
    | _, _ => leavePool e s
  | _, _, _ => s

/-- READY_POOL_DISPATCH: a target has become free (R385). While dispatch is stopped nothing is placed (R450). -/
def execReadyPoolDispatch (t : Target) (s : State) : Out :=
  if s.hub.stopped then .next s else
  let s0 := fillPool s
  match offeredEntry t s0 8 with
  | some (_, e, s1) => .next (dispatch e t s1)
  | none => .next s0

/-- The package cannot supply the rows of a saved strand (R398): so many blocks are offered in no hoop, or with the span
flag in all of them together. -/
def cannotSupply (s : State) (t : Strand) : Bool :=
  let offered := (List.range 48).map fun h => if hoopPresent s h then natBits (bar0 s (0x80 + 8 * h) 8) 5 0 else 0
  decide ((if spansOf s t then offered.sum else offered.foldl max 0) < t.arrays.length / 8)

/-- STRAND_RESTORE: a Saved strand that is due is restored into an idle slot when that slot is offered to its entry of the
ready pool (R383, R385, R398). A strand whose rows the package cannot supply stays Saved, with one record. -/
def execStrandRestore (i : StrandId) (hoop slot : Nat) (s : State) : Out :=
  match findStrand s i with
  | none => .next s
  | some t =>
    if t.state ≠ .saved ∨ !t.due ∨ s.hub.stopped then .next s
    else if cannotSupply s t then
      .next (if t.saveStop then s else saveError t 2 0 (updStrand i (fun t => { t with saveStop := true }) s))
    else
      match offeredEntry (.slot hoop slot) (fillPool s) 8 with
      | some (_, e, s1) => if e.strand = some i then .next (dispatch e (.slot hoop slot) s1) else .next s
      | none => .next s

/-- SLOT_BEGIN_ISSUE: a Ready strand begins to issue (R39); its time slice starts. -/
def execSlotBeginIssue (i : StrandId) (s : State) : Out :=
  match findStrand s i with
  | some t => if t.state = .ready then .next (updStrand i (fun t => { t with sliceAc := 0 }) (setRunState i .running 0 s)) else .next s
  | none => .next s

/-- READY_ENTRY_AGE: an entry that has waited 2 ms rises one level, up to 6 (R384). -/
def execReadyEntryAge (n : Nat) (s : State) : Out :=
  match s.hub.ready[n]? with
  | none => .next s
  | some e =>
    if e.level < 6 ∧ e.age + 1600000 ≤ s.ac then
      .next (dropEntries (fun _ => false)
        { s with hub := { s.hub with ready := listSet s.hub.ready n { e with level := e.level + 1, age := e.age + 1600000 } } })
    else .next s

/-! ### Pre-emption requests (R386, R391) -/

/-- A request reaches a resident strand; a second one is merged with the first (R393). -/
def requestStop (i : StrandId) (s : State) : State :=
  updStrand i (fun t => if t.preempt then t else { t with preempt := true, graceOut := false, graceAc := 0 }) s

/-- A strand that can be stopped: in a slot and not saving or Faulted. -/
def stoppable (t : Strand) : Bool :=
  match t.state with
  | .ready | .running | .waiting | .halted => true
  | _ => false

/-- An entry of the same level and context waits. -/
def peerWaits (s : State) (t : Strand) : Bool :=
  s.hub.ready.any fun e => e.level = t.level &&
    match e.strand, e.launch with
    | some i, _ => (findStrand s i).any fun u => u.asid = t.asid
    | none, some c => (counterOf s c).any fun v => v.asid = t.asid
    | none, none => (counterOf s e.graph).any fun v => v.asid = t.asid

/-- TIME_SLICE_EXPIRY: the strand has run for its time slice while an entry of its level and context waits (R386). -/
def execTimeSliceExpiry (i : StrandId) (s : State) : Out :=
  match findStrand s i with
  | some t => if stoppable t ∧ s.hub.slice ≤ t.sliceAc ∧ peerWaits s t then .next (requestStop i s) else .next s
  | none => .next s

/-- Every target that the ready pool may serve (R385): the slots that a partition has enabled, and the engines, units,
walkers and the hub for the nodes of graphs. -/
def poolTargets (s : State) : List Target :=
  (s.hoops.flatMap fun (h, x) => (List.range 8).filterMap fun k =>
    if (x.grants.toList.getD k SlotGrant.none).enabled then some (.slot h k) else none) ++
  (if s.hub.graphs.isEmpty then []
   else .hub :: (List.range 4).map .walker ++ (List.range 48).map .copyEngine ++ (List.range 256).map .unit)

/-- The cases of R386 in which a request is carried out. -/
def mayPreempt (s : State) (t : Strand) : Bool :=
  s.hub.ready.any (fun e => decide (t.level < e.level) && !((poolTargets s).any (entryTakes s e))) || (s.hub.slice ≤ t.sliceAc && peerWaits s t) ||
  (t.state = .waiting && t.wait = some (.barrier 16) && t.barPending.getLsbD 16 &&
    (findLaunch s t.id.launch).any fun l => l.placed < l.strands) ||
  s.hub.quiesce || s.hub.thermal

/-- PREEMPTION_REQUEST: service firmware asks for a strand's place (R386). -/
def execPreemptionRequest (i : StrandId) (s : State) : Out :=
  match findStrand s i with
  | some t => if stoppable t ∧ mayPreempt s t then .next (requestStop i s) else .next s
  | none => .next s

/-- GRACE_EXPIRY: the grace is over: the strand stops at its next instruction boundary (R391). -/
def execGraceExpiry (i : StrandId) (s : State) : Out :=
  match findStrand s i with
  | some t =>
    if t.preempt && s.hub.grace ≤ t.graceAc && t.state ≠ .halted then
      .next (updStrand i (fun t => { t with graceOut := true }) s)
    else .next s
  | none => .next s

/-! ### Jobs and phases (R23, R424, R425) -/

/-- The lists of a job: for each phase its graph and patch addresses. -/
def readPhases (p : Port) (list n : Nat) : Act (Option (List (List (Word × Word)))) := do
  let bs ← vsReadBlock p list (16 * n)
  let ents := (List.range n).map fun k => (field bs (16 * k) 8, field bs (16 * k + 8) 4, field bs (16 * k + 12) 4)
  if ents.any fun (_, c, z) => c = 0 || 256 < c || z ≠ 0 then pure none
  else do
    let subs ← ents.mapM fun (a, c, _) => do
      let l ← vsReadBlock p a (16 * c)
      pure ((List.range c).map fun k => (BitVec.ofNat 64 (field l (16 * k) 8), BitVec.ofNat 64 (field l (16 * k + 8) 8)))
    pure (some subs)

/-- The limits of a job packet's own fields (R425). -/
def jobFieldsOk (b : List Byte) : Bool :=
  field b 0 1 = 1 && allZero b 1 7 && field b 8 8 % 16 = 0 && 1 ≤ field b 0x10 2 && field b 0x10 2 ≤ 256 &&
  allZero b 0x12 6 && field b 0x18 8 % 8 = 0 && allZero b 0x20 32

/-- JOB_PACKET_READ: the hub reads the next packet of a queue (R424, R425): a job counter, the result word, and the
job's lists. A job that is refused has no counter and starts nothing. -/
def execJobPacketRead (j : Nat) (s : State) : Out :=
  let base := 0x40000 + 64 * j
  let cfg := bar0 s (base + 8) 8
  let head := bar0 s (base + 0x18) 2
  let asid := BitVec.ofNat 12 (natBits cfg 11 0)
  if 256 ≤ j ∨ s.hub.stopped ∨ natBits cfg 63 63 = 0 ∨ head = bar0 s (base + 0x10) 2 ∨ !ctxValid s asid.toNat then .next s
  else
    let p := hubPort asid (ctxRoot s asid.toNat)
    let s0 := setBar0 (base + 0x18) 2 (head + 1) s
    let at_ := natBits (bar0 s base 8) 47 6 * 64 + 64 * (head % 2 ^ natBits cfg 19 16)
    let level := min (natBits cfg 14 12) (ctxLevelCap s asid.toNat)
    match runAct (tryTrap (vsReadBlock p at_ 64)) s0 with
    | (.ok pkt, s1) =>
      let bytes := match pkt with
        | .ok b => b
        | .error _ => []
      let answer (w : Nat) (s : State) : State :=
        match pkt with
        | .ok b => (runAct (vsWriteBlock p (field b 0x18 8) (leBytes 8 w)) s).2
        | .error _ => s
      if 16384 ≤ s1.hub.ready.length then .next (answer (2 ^ 63 + 2 * 2 ^ 12) s1)
      else match runAct (allocCounter (newCounter .job asid 0 none none level)) s1 with
        | (.ok (some c), s2) =>
          let job (l : List (List (Word × Word))) : Job :=
            { counter := c, queue := j, list := l, next := 0, result := BitVec.ofNat 64 (field bytes 0x18 8)
              root := BitVec.ofNat 64 p.root }
          let s3 := answer c { s2 with hub := { s2.hub with jobs := s2.hub.jobs ++ [job []] } }
          match pkt with
          | .error _ => .next (reject c 17 s3)
          | .ok b =>
            if !jobFieldsOk b then .next (reject c 16 s3)
            else match runAct (readPhases p (field b 8 8) (field b 0x10 2)) s3 with
              | (.ok (some l), s4) =>
                .next (modCounter c (fun v => { v with expected := l.length }) { s4 with hub := { s4.hub with
                  jobs := listUpd (fun x => x.counter = c) (fun _ => job l) s4.hub.jobs } })
              | (.ok none, s4) => .next (reject c 16 s4)
              | (.error _, s4) => .next (reject c 17 s4)
        | (_, s2) => .next (answer (2 ^ 63 + 1 * 2 ^ 12) s2)
    | (.error _, s1) => .next s1

/-- No child of an object is unfinished. -/
def noLiveChild (s : State) (c : Nat) : Bool := !(s.hub.counters.any fun (_, w) => w.parent = some c && !w.final)

/-- JOB_NEXT_PHASE: the next phase of a job starts when the one before it is final (R23). After a cancelled phase no
other starts: those left are counted as cancelled, and the job is final with them (R41, R42). -/
def execJobNextPhase (c : Nat) (s : State) : Out :=
  match s.hub.jobs.find? (fun j => j.counter = c), counterOf s c with
  | some j, some v =>
    if v.final ∨ !noLiveChild s c ∨ s.hub.incs.any (fun x => x.1 = c) then .next s
    else if v.cancelled then
      .next (countUnstarted c (j.list.length - j.next) { s with hub := { s.hub with
        jobs := listUpd (fun x => x.counter = c) (fun x => { x with list := x.list.take x.next }) s.hub.jobs } })
    else match j.list[j.next]? with
      | none => .next s
      | some subs =>
        match runAct (allocCounter (newCounter .phase v.asid subs.length (some c) none v.level)) s with
        | (.ok (some p), s1) =>
          .next { s1 with hub := { s1.hub with
            phases := s1.hub.phases ++ [{ counter := p, list := subs, next := 0 }]
            jobs := listUpd (fun x => x.counter = c) (fun x => { x with next := x.next + 1 }) s1.hub.jobs } }
        | (_, s1) => .next s1
  | _, _ => .next s

/-- PHASE_NEXT_SUBMISSION: the next graph of a phase is submitted when the counter of the one before it is final
(R23). -/
def execPhaseNextSubmission (c : Nat) (s : State) : Out :=
  match s.hub.phases.find? (fun p => p.counter = c), counterOf s c with
  | some ph, some v =>
    if v.final ∨ !noLiveChild s c ∨ s.hub.incs.any (fun x => x.1 = c) then .next s
    else match ph.list[ph.next]? with
      | none => .next s
      | some (graph, patch) =>
        match runAct (allocCounter (newCounter .graph v.asid 0 (some c) none v.level)) s with
        | (.ok (some g), s1) =>
          .next { s1 with hub := { s1.hub with
            graphs := s1.hub.graphs ++ [{ counter := g, addr := graph, patchAddr := if patch = 0 then none else some patch, accepted := false, header := []
                                          patch := [], preds := [], nodes := [], children := [], records := []
                                          root := BitVec.ofNat 64 (ctxRoot s v.asid.toNat) }]
            phases := listUpd (fun x => x.counter = c) (fun x => { x with next := x.next + 1 }) s1.hub.phases } }
        | (_, s1) => .next s1
  | _, _ => .next s

end Sys2Proof.Machine
end

