-- ==== Sys2Proof/Machine/Recovery.lean ====
section
/-! DEFINITION. Power, temperature, storage errors, retirement, channels, checkpoints and boot (R16 to R21, R327,
R417, R421, R439 to R454). -/

namespace Sys2Proof.Machine

/-! ### Error records (R447) -/

/-- The 64 bytes of a record. -/
def recordBytes (e : ErrRec) (time : Word) : List Byte :=
  leBytes 1 e.typ ++ leBytes 1 e.severity ++ leBytes 2 e.asid.toNat ++ leBytes 1 e.unit ++ leBytes 1 e.hoop ++
  leBytes 1 e.slot ++ leBytes 1 e.channel ++ leBytes 2 e.array ++ leBytes 2 e.row ++ leBytes 4 e.events ++
  leBytes 8 e.pa ++ leBytes 8 time.toNat ++ padTo 32 e.detail

/-- ERROR_RECORD_WRITE: the hub writes its oldest record into the ring and advances the count; the cause bit is set and
the vector raised (R422, R447). -/
def execErrorRecordWrite (s : State) : Out :=
  match s.hub.records with
  | [] => .next s
  | e :: es =>
    let w := bar0 s 0x10100 8
    let b := smWriteList 0 s.mem.bar0 (0x18000 + 64 * (w % 512)) (recordBytes e (timeNow s))
    let s1 := { s with hub := { s.hub with records := es }, mem := { s.mem with bar0 := b } }
    .next (setCause 0 (setBar0 0x10100 8 (w + 1) s1))

/-! ### The device description (R421) -/

/-- Service firmware rewrites part of the description: the change count is odd meanwhile and even again after. -/
def describe (f : State → State) (s : State) : State := setBar0 8 8 (bar0 s 8 8 + 2) (f s)

/-- DEVICE_DESCRIPTION_UPDATE (R421). -/
def execDeviceDescriptionUpdate (off : Nat) (data : List Byte) (s : State) : Out :=
  if 0x10000 < off + data.length ∨ (off < 16 ∧ 8 < off + data.length) then .next s
  else .next (describe (fun s => { s with mem := { s.mem with bar0 := smWriteList 0 s.mem.bar0 off data } }) s)

/-- The lane blocks and arrays that the device offers, for a record of type 5 (R448): those of fenced hoops count no
more. -/
def capacityDetail (s : State) : List Byte :=
  leBytes 4 (offeredBlocks s) ++ leBytes 4 (bar0 s 0x808 8 / 2 ^ 17)

/-! ### Boot (R417) -/

/-- A status bit. -/
def setStatus (bit : Nat) (on : Bool) (s : State) : State :=
  let w := bar0 s 0x10000 8
  setBar0 0x10000 8 (if on then w ||| 2 ^ bit else w &&& (2 ^ 64 - 1 - 2 ^ bit)) s

/-- Measurement register i is extended with data. -/
def extend (i : Nat) (data : List Byte) (s : State) : State :=
  let v := padTo 64 (shake256 (padTo 64 (s.hub.measure.toList.getD i []) ++ data))
  { s with hub := { s.hub with measure := s.hub.measure.setIfInBounds i v } }

/-- The device as reset leaves it: the contents of HBM stay, unreadable without their keys; what has left the device, sealed
blobs among it, which still open under the fused key (R412), and the count of time stay. It has left its Garzar domain (R329). -/
def afterReset (s : State) : State :=
  { State.reset with
    hub := { Hub.reset with nextKey := s.hub.nextKey, sealed := s.hub.sealed }
    mem := { Mem.reset with bytes := s.mem.bytes.filter fun e => e.1 < 2 ^ 39
                            blockKey := s.mem.blockKey, poison := s.mem.poison.filter fun e => e.1 < 2 ^ 36 }
    out := (announceLeave s).out, trace := s.trace, images := s.images, ac := s.ac, ns := s.ns, agenda := s.agenda, actor := s.actor
    fetched := s.fetched, curUnit := s.curUnit, freeCtr := s.freeCtr, tick := s.tick }

/-- The checks of an image (R417): its signature verifies, so that its security version is known, and that version is at least
the fused one. -/
def imageOk (version : Option (BitVec 64)) : Bool := version.any fun v => Config.fusedVersion ≤ v

/-- DEVICE_RESET: the ROM checks the anchor image and measures it (R417); a check that fails leaves the device in
recovery. -/
def execDeviceReset (image : List Byte) (version : Option (BitVec 64)) (s : State) : Out :=
  let s1 := afterReset s
  if imageOk version then
    .next { s1 with hub := { s1.hub with measure := s1.hub.measure.set 0 (padTo 64 (shake256 image)) } }
  else .next (setStatus 1 true s1)

/-- The anchor has been started. -/
def anchored (s : State) : Bool := s.hub.measure.toList.getD 0 [] ≠ []

/-- SERVICE_RELEASE: the anchor checks the service image and extends register 1 (R417). -/
def execServiceRelease (image : List Byte) (version : Option (BitVec 64)) (s : State) : Out :=
  if !anchored s then .next s
  else if imageOk version then .next (extend 1 image s)
  else .next (setStatus 1 true s)

/-- Hoop h takes its spares and withdrawn arrays from the description. -/
def describedHoop (h : Nat) (s : State) : State :=
  let hp := { hoopOf s h with
    spares := natBits (bar0 s (0x80 + 8 * h) 8) 9 6
    withdrawn := BitVec.ofNat 256 (leNat (smReadList 0 s.mem.bar0 (0x200 + 32 * h) 32)) }
  setHoop h hp s

/-- The description as service firmware writes it: with the security version and the thresholds of the fuses (R18, R417,
R421). -/
def fusedDescription (descr : List Byte) : List Byte :=
  (padTo 0x20 descr).take 0x20 ++ leBytes 8 Config.fusedVersion.toNat ++ ((padTo 0x34 descr).take 0x34).drop 0x28 ++
    leBytes 2 Config.fusedWarning.toNat ++ leBytes 2 Config.fusedCritical.toNat ++ descr.drop 0x38

/-- DEVICE_READY: the description is handed over and extended into register 2, and the device is ready (R417). -/
def execDeviceReady (given : List Byte) (s : State) : Out :=
  let descr := fusedDescription given
  if s.hub.measure.toList.getD 1 [] = [] ∨ 0x10000 < descr.length then .next s
  else
    let s1 := { s with mem := { s.mem with bar0 := smWriteList 0 s.mem.bar0 0 descr } }
    let s2 := (List.range 48).foldl (init := s1) fun s h => describedHoop h s
    let s3 := { s2 with hub := { s2.hub with fenced := BitVec.ofNat 4 (bar0 s2 0x30 1) } }
    .next (setStatus 0 true (extend 2 descr s3))

/-! ### Power and temperature (R16 to R19) -/

/-- POWER_LIMIT: firmware lowers issue rates (R16), which changes timing only (R19). -/
def execPowerLimit (rate : Nat) (s : State) : Out := .next { s with hub := { s.hub with powerRate := rate } }

/-- DUTY_CYCLING: an engine inserts idle ac between steps (R17), which changes timing only (R19). -/
def execDutyCycling (hoop : Nat) (e : BitVec 1) (s : State) : Out :=
  if hoop < 48 then .next (setHoop hoop { hoopOf s hoop with duty := (hoopOf s hoop).duty ||| (1#2 <<< e.toNat) } s)
  else .next s

/-- The thresholds of R18. -/
def warnLevel : Nat := Config.fusedWarning.toNat
def criticalLevel : Nat := Config.fusedCritical.toNat

def setTemp (die temp : Nat) (s : State) : State :=
  { s with hub := { s.hub with temps := s.hub.temps.setIfInBounds die temp } }

/-- A record of type 7 (R448). -/
def thermalRecord (severity die temp threshold : Nat) (s : State) : State :=
  addErr { errRec 7 severity 0 (leBytes 2 temp ++ leBytes 2 threshold) with unit := die } s

/-- THERMAL_WARNING: a die reaches the warning threshold; the cause is set and a record written (R18, R422). Whether the hub
die is one of the dies the spec leaves open: the model has temperatures of dies 0 to 3, the ones that R447 numbers
(DESIGN CHOICE, log 108). -/
def execThermalWarning (die temp : Nat) (s : State) : Out :=
  if die < 4 ∧ warnLevel ≤ temp then
    .next (setCause 4 (thermalRecord 1 die temp (warnLevel) (setTemp die temp s)))
  else .next s

/-- TEMPERATURE_FALL: a die is below the warning threshold, and its throttling ends (R18). -/
def execTemperatureFall (die temp : Nat) (s : State) : Out :=
  if die < 4 ∧ temp < warnLevel then .next (setTemp die temp s) else .next s

/-! ### Checkpoints (R450 to R454) -/

/-- Steps 1 and 2 of a checkpoint begin: dispatch and reading of job queues stop, and every resident strand is asked to
stop (R450). -/
def quiesce (s : State) : State :=
  let s1 := { s with hub := { s.hub with stopped := true, quiesce := true, quiescedAt := s.ac } }
  ((allStrands s1).filter stoppable).foldl (init := s1) fun s t => requestStop t.id s

/-- CHECKPOINT_REQUEST (R450). -/
def execCheckpointRequest (stay : Bool) (s : State) : Out :=
  if s.hub.quiesce ∨ s.hub.stopped then .next s
  else
    let s1 := quiesce s
    .next (setStatus 2 true { s1 with hub := { s1.hub with stay := stay } })

/-- Steps 2 to 4 are complete: no strand is left that runs or is being saved, no set waits for its installation, and
no unit still has to spill. -/
def quiesced (s : State) : Bool :=
  !((allStrands s).any fun t => stoppable t || t.state = .saving) &&
  !(s.hub.sets.any fun d => d.publishing && d.writers = 0)

/-- Execution goes on: dispatch resumes and the cancels that waited take effect (R450). -/
def resumeDevice (s : State) : State :=
  let cs := s.hub.deferred
  let s1 := setStatus 3 false { s with hub := { s.hub with
    stopped := false, quiesce := false, thermal := false, stay := false, deferred := [] } }
  cs.foldl (init := s1) fun s c => cancelAll c s

/-- Step 6: the device resumes, or stays stopped. -/
def endCheckpoint (s : State) : State :=
  let s1 := setStatus 2 false s
  if s1.hub.stay then setStatus 3 true s1 else resumeDevice s1

/-- An SRAM address lies in an array of an SRAM grant (R451). -/
def sramGranted (s : State) (a : Nat) : Bool :=
  match regionOf a with
  | .sram gs => (hoopOf s (gs / 2 ^ 25)).grants.toList.any fun g => g.enabled && g.sram.getLsbD (natBits gs 15 8)
  | _ => false

/-- The address of an SRAM row (R126). -/
def rowAddr (h a r : Nat) : Nat := 2 ^ 41 + h * 2 ^ 25 + r * 2 ^ 16 + a * 2 ^ 8

/-- What an image holds of memory: HBM, of an incremental one only the pages given, and SRAM in grants (R451, R452).
The SRAM bytes stand here as they were; `openArrays` says what a restore reads of them. -/
def imageMem (s : State) (pages : Option (List Nat)) : Mem :=
  let keep (a : Nat) : Bool :=
    if a < 2 ^ 39 then pages.all fun l => l.contains (a / 2 ^ 18) else sramGranted s a
  { s.mem with bytes := s.mem.bytes.filter fun e => keep e.1
               blockKey := s.mem.blockKey.filter fun e => keep (16 * e.1)
               poison := s.mem.poison.filter fun e => keep (8 * e.1) }

/-- A sealed blob of every loaded key slot (R412, R451), and the state after the security core has drawn their bytes. -/
def sealLoaded (s : State) : List (List Byte) × State :=
  (s.hub.keys.filter fun (_, x) => x.loaded).foldl (init := ([], s)) fun (bs, s) (k, x) =>
    let b := sealedBlob s k
    (bs ++ [b], { s with freeCtr := s.freeCtr + 1, hub := { s.hub with sealed := s.hub.sealed ++ [(b, x.key)] } })

/-- The 64-byte position of a stack unit (R450): packet address, next entry, counts and indices of both loop levels, 8 bytes
each (DESIGN CHOICE, log 109). -/
def unitPosition (u : StackUnit) : List Byte :=
  let left (l : Option (Nat × Nat × Nat)) : List Byte := leBytes 8 (l.elim 0 fun x => x.2.2)
  padTo 64 (leBytes 8 (u.running.elim 0 fun c => c.packet.toNat) ++ leBytes 8 u.entry ++ left u.loop1 ++ leBytes 8 u.idx1 ++
    left u.loop2 ++ leBytes 8 u.idx2)

/-- The segments of an image before its signature (R451), by kind: those of ciphertext, and that of the hub's state, for
which the spec gives no layout, are bytes of the device's own. -/
def imageSegments (i : Image) : List (Nat × List Byte) :=
  [(1, smReadList 0 i.mem.bar0 0 0x10000), (2, i.blobs.flatten), (3, smReadList 0 i.mem.bar0 0x200000 0x20000),
   (4, Config.segmentBytes 4 i.seq),
   (5, ((i.units.filter fun (_, u) => u.owner.isSome).map fun (k, u) => leBytes 4 k ++ unitImage u ++ unitPosition u).flatten),
   (6, Config.segmentBytes 6 i.seq), (7, Config.segmentBytes 7 i.seq)]

/-- The 4096-byte header of an image (R451); its signature fills the 1280 bytes of segment 8. -/
def imageHeader (i : Image) : List Byte :=
  let table := ((imageSegments i).map fun (k, b) => (k, b.length)) ++ [(8, 1280)]
  let entries := (table.foldl (init := (([] : List Byte), 4096)) fun (bs, off) (k, n) =>
    (bs ++ leBytes 4 k ++ leBytes 4 0 ++ leBytes 8 off ++ leBytes 8 n, off + n)).1
  padTo 4096 (leBytes 4 1 ++ leBytes 16 i.serial ++ leBytes 8 i.seq ++ leBytes 8 i.base ++ leBytes 4 table.length ++ entries)

/-- The bytes of an image that its signature covers, and the signature (R451). -/
def imageBody (i : Image) : List Byte := imageHeader i ++ ((imageSegments i).map (·.2)).flatten

def imageSignature (i : Image) : List Byte := padTo 1280 (Config.signature (shake256 (imageBody i)))

/-- The hub sends an image over two of ports 1 to 3, to windows that service firmware names (R450): which ports and
addresses, and how the image is shared between them, stays open. -/
def sendImage (i : Image) (s : State) : State :=
  let c := Config.freeChoice s.freeCtr
  let p := 1 + c % 3
  let q := 1 + (c + 1 + c / 3 % 2) % 3
  let bytes := imageBody i ++ i.signature
  let cut := c / 6 % (bytes.length + 1)
  let send (port addr : Nat) (bs : List Byte) (s : State) : State :=
    (payloads bs.length 0 bs).foldl (init := s) fun s (o, b) => sendTlp port 1 (addr + o) b s
  send q (Config.freeWord (s.freeCtr + 1)).toNat (bytes.drop cut)
    (send p (Config.freeWord s.freeCtr).toNat (bytes.take cut) { s with freeCtr := s.freeCtr + 2 })

/-- CHECKPOINT_CUT: the hub copies the image over the ports (R450, R451), full, or incremental after an earlier one; the
dirty bits are cleared (R452). -/
def execCheckpointCut (s : State) : Out :=
  if !s.hub.quiesce ∨ s.hub.thermal ∨ natBits (bar0 s 0x10000 8) 2 2 = 0 ∨ !quiesced s then .next s
  else
    let seq := s.hub.imageSeq + 1
    let full : Bool := s.hub.imageSeq = 0 || Config.freeChoice s.freeCtr % 2 = 0
    let pages := if full then none else some (s.mem.dirty.map (·.1))
    let (blobs, s1) := sealLoaded { s with freeCtr := s.freeCtr + 1 }
    let plain : Image :=
      { seq := seq, base := if full then 0 else s.hub.imageSeq, serial := bar0 s 0x10 16, pages := pages, blobs := blobs
        signature := [], strand := s.strand, pool := s.pool, hoops := s.hoops, units := s.units, hub := s.hub
        mem := imageMem s pages }
    let img := { plain with signature := imageSignature plain }
    .next (endCheckpoint (sendImage img { s1 with
      images := s1.images ++ [img], mem := { s1.mem with dirty := [] }, hub := { s1.hub with imageSeq := seq } }))

/-- CHECKPOINT_TIMEOUT: a save that has stopped is not resolved within 2.0 s: the checkpoint fails (R450). -/
def execCheckpointTimeout (s : State) : Out :=
  match (allStrands s).find? fun t => t.state = .saving && t.saveStop with
  | none => .next s
  | some _ =>
    if !s.hub.quiesce ∨ s.hub.thermal ∨ s.ac < s.hub.quiescedAt + 1600000000 then .next s
    else .next (endCheckpoint (addErr (errRec 12 3 0 (leBytes 1 2 ++ leBytes 1 0)) s))

/-- The chain of images that a list of numbers names: a full one, then each following the one before it (R453). -/
def imageChain (s : State) : Nat → List Nat → Option (List Image)
  | _, [] => some []
  | base, n :: ns =>
    match s.images.find? fun i => i.seq = n with
    | none => none
    | some i => if i.base = base then (imageChain s n ns).map (i :: ·) else none

/-- An image restores only into the device that wrote it, and with its signature (R453). -/
def imageValid (s : State) (i : Image) : Bool := i.serial = bar0 s 0x10 16 && i.signature = imageSignature i

/-- Brings the pages of an incremental image over those of the images before it. -/
def overlay (old new : Image) : Mem :=
  let fresh (a : Nat) : Bool := 2 ^ 39 ≤ a || new.pages.all fun l => l.contains (a / 2 ^ 18)
  let join {α : Type} (f : Nat → Bool) (a b : SMap α) : SMap α :=
    (b.filter fun e => f e.1).foldl (init := a.filter fun e => !f e.1) fun m e => smSet m e.1 e.2
  { new.mem with bytes := join fresh old.mem.bytes new.mem.bytes
                 blockKey := join (fun l => fresh (16 * l)) old.mem.blockKey new.mem.blockKey
                 poison := join (fun w => fresh (8 * w)) old.mem.poison new.mem.poison }

def overlayAll : Image → List Image → Image
  | i, [] => i
  | i, j :: js => overlayAll { j with mem := overlay i j } js

/-- A key slot of an image opens only if its epoch is the current one (R412). -/
def restoreKeys (s : State) (i : Image) : SMap KeySlot :=
  (i.hub.keys.filter fun (_, x) => x.loaded).foldl (init := s.hub.keys) fun m (k, x) =>
    let cur := smRead KeySlot.empty s.hub.keys k
    if !cur.loaded && cur.epoch = x.epoch then smWrite KeySlot.empty m k x else m

/-- The contexts whose grants hold arrays that have been withdrawn or lie on a fenced die, with those arrays (R453). -/
def lostGrants (s : State) (i : Image) : List (BitVec 12 × Nat × Nat) :=
  i.hoops.flatMap fun (h, hp) => hp.grants.toList.flatMap fun g =>
    (bitsOf g.sram).filterMap fun a =>
      if g.enabled && ((hoopOf s h).withdrawn.getLsbD a || s.hub.fenced.getLsbD (h / 12)) then some (g.asid, h, a) else none

/-- Cancels every job of a context (R406, R445, R453). -/
def cancelJobs (asid : BitVec 12) (s : State) : State :=
  (s.hub.counters.filter fun (_, v) => v.kind = .job && v.asid = asid && !v.final).foldl (init := s) fun s (c, _) =>
    cancelAll c s

/-- The bytes of an SRAM array under a key that is not the one it was written under (R410). -/
def garbleArray (read write h a : Nat) (m : Mem) : Mem :=
  (List.range 8192).foldl (init := m) fun m k =>
    let at_ := rowAddr h a (k / 16) + 16 * (k % 16)
    let stored := smReadList 0 m.bytes at_ 16
    { m with bytes := smWriteList 0 m.bytes at_ ((List.range 16).map fun o =>
        Config.garbled read write (at_ / 16) o stored) }

/-- An image holds the arrays of each grant encrypted under the base key slot of the grant's context: one whose key is
not the one of the cut does not open them (R412, R451). -/
def openArrays (i : Image) (s : State) : State :=
  let cut := { s with hub := i.hub }
  let arrays := i.hoops.flatMap fun (h, hp) => hp.grants.toList.flatMap fun g =>
    if g.enabled then (bitsOf g.sram).map fun a => (h, a, ctxBaseKey s g.asid.toNat) else []
  arrays.foldl (init := s) fun s (h, a, slot) =>
    if keyName s slot = keyName cut slot then s
    else { s with mem := garbleArray (keyName s slot) (keyName cut slot) h a s.mem }

/-- BAR0 after a restore: the job queues and the context table of the image (R451); the description, the status page and
what the host has set up stay as they are. -/
def restoredBar0 (i : Image) (s : State) : SMap Byte :=
  let mine (a : Nat) : Bool := (0x40000 ≤ a && a < 0x44000) || (0x200000 ≤ a && a < 0x220000)
  (i.mem.bar0.filter fun e => mine e.1).foldl (init := s.mem.bar0.filter fun e => !mine e.1) fun m e => smSet m e.1 e.2

/-- The state of an image on this device: its arrays, dies and keys as they now are, and what the image does not hold. -/
def applyImage (i : Image) (s : State) : State :=
  let hub := { i.hub with
    keys := restoreKeys s i, nextKey := s.hub.nextKey, sealed := s.hub.sealed, fenced := s.hub.fenced
    fencing := s.hub.fencing, measure := s.hub.measure, records := s.hub.records, temps := s.hub.temps
    imageSeq := i.seq, mailDone := s.hub.mailDone, weights := s.hub.weights, portLost := s.hub.portLost
    ringLost := s.hub.ringLost, sequences := s.hub.sequences, members := s.hub.members, errors := s.hub.errors
    errorLimits := s.hub.errorLimits, portClosed := s.hub.portClosed, portAsids := s.hub.portAsids
    credits := s.hub.credits, discarded := s.hub.discarded, pcieDone := s.hub.pcieDone, config := s.hub.config
    powerRate := s.hub.powerRate, grace := s.hub.grace, slice := s.hub.slice, quanta := s.hub.quanta }
  let hoops := (List.range 48).foldl (init := i.hoops) fun m h =>
    let now := hoopOf s h
    let old := smRead Hoop.reset m h
    smWrite Hoop.reset m h { old with
      withdrawn := now.withdrawn, retired := now.retired, spares := now.spares, tlb := [], banks := [], buffers := [] }
  { s with strand := i.strand, pool := i.pool, hoops := hoops, units := i.units, hub := hub
           mem := { i.mem with dirty := [], bar0 := restoredBar0 i s } }

/-- CHECKPOINT_RESTORE: the base image and the incremental ones in order are applied, and the device continues from the
cut (R453). A chain that does not match is rejected, and so is an image of another device or without its signature. -/
def execCheckpointRestore (imgs : List Nat) (s : State) : Out :=
  match imageChain s 0 imgs with
  | none | some [] => .next s
  | some (i :: is) =>
    if (i :: is).any fun x => !imageValid s x then .next s
    else
    let img := overlayAll i is
    let lost := lostGrants s img
    let s1 := resumeDevice (openArrays img (applyImage img s))
    let s2 := lost.foldl (init := s1) fun s (asid, h, a) => cancelJobs asid (wipeArray h a s)
    .next (if lost = [] then s2 else addErr (errRec 12 3 0 (leBytes 1 6 ++ leBytes 1 0)) s2)

/-- THERMAL_CRITICAL_STOP: a die reaches the critical threshold: steps 1 to 4 of a checkpoint without a copy (R18,
R454). -/
def execThermalCriticalStop (die temp : Nat) (s : State) : Out :=
  if 4 ≤ die ∨ temp < criticalLevel then .next s
  else
    let s1 := thermalRecord 3 die temp (criticalLevel) (setTemp die temp s)
    let s2 := quiesce s1
    .next (setStatus 3 true { s2 with hub := { s2.hub with thermal := true } })

/-- THERMAL_RESUME: every die is below the warning threshold and the stop is complete (R454). -/
def execThermalResume (s : State) : Out :=
  if s.hub.thermal ∧ s.hub.temps.toList.all (· < warnLevel) ∧ quiesced s then
    .next (resumeDevice (thermalRecord 3 0xFF (s.hub.temps.toList.foldl max 0) (warnLevel) s))
  else .next s

/-! ### Storage errors (R439 to R442) -/

/-- The number of a kind. -/
def errorCode : ErrorKind → Nat
  | .sramCorrectable => 0
  | .sramUncorrectable => 1
  | .hbmCorrectable => 2
  | .hbmUncorrectable => 3
  | .link => 4

/-- When a kind is lasting, as service firmware has set it: events, and the window in ac (R442). -/
def errorLimit (s : State) (k : ErrorKind) : Nat × Nat := s.hub.errorLimits.toList.getD (errorCode k) (1, 0)

/-- The events of a kind and unit in the current window. -/
def errorCount (s : State) (k : ErrorKind) (unit : Nat) : Nat :=
  (s.hub.errors.filter fun e => e.1 = errorCode k && e.2.1 = unit && s.ac < e.2.2 + (errorLimit s k).2).length

def countError (k : ErrorKind) (unit : Nat) (s : State) : State :=
  { s with hub := { s.hub with errors := s.hub.errors ++ [(errorCode k, unit, s.ac)] } }

/-- Poisons a row of an array: its words in memory mode, every field of a strand's row in lane mode (R440, R46). -/
def poisonRow (h a r : Nat) (s : State) : State :=
  let s1 := { s with mem := addPoison s.mem (rowAddr h a r) 256 }
  updStrands (fun t => isStrand t && resident t && t.arrays.contains (h, a)) (fun t =>
    let row := 512 * t.arrays.idxOf (h, a) + r
    { t with vpoison := t.vpoison.map fun m => smSet m row () }) s1

/-- BACKGROUND_CHECK: a row is checked while its port is idle, or as it passes its port (R439): a single error is corrected,
an uncorrectable one poisons the row; both are counted and recorded. The model lets a use find an error between any two
steps (DESIGN CHOICE, log 84). -/
def execBackgroundCheck (hoop array row : Nat) (e : StorageError) (s : State) : Out :=
  if 48 ≤ hoop ∨ 256 ≤ array ∨ 512 ≤ row then .next s
  else
    let unit := hoop * 256 + array
    let note (typ sev : Nat) (k : ErrorKind) (detail : List Byte) (s : State) : State :=
      let s1 := countError k unit s
      addErr { (errRec typ sev 0 detail).ofHoop hoop with
        array := array, row := row, events := errorCount s1 k unit } s1
    match e with
    | .none => .next s
    | .correctable =>
      .next (note 1 0 .sramCorrectable (leBytes 4 (Config.freeWord s.freeCtr).toNat) { s with freeCtr := s.freeCtr + 1 })
    | .uncorrectable => .next (note 2 1 .sramUncorrectable [] (poisonRow hoop array row s))

/-- The check of a read of HBM finds an error in a line (R439): a single error is corrected, an uncorrectable one poisons
the line; both are counted and recorded. The model lets it happen between any two steps (DESIGN CHOICE, log 84). -/
def lineCheck (l : Nat) (bad : Bool) (s : State) : State :=
  let a := l % 2 ^ 33 * 64
  let k : ErrorKind := if bad then .hbmUncorrectable else .hbmCorrectable
  let s1 := countError k (a / 2 ^ 18) (if bad then { s with mem := addPoison s.mem a 64 } else s)
  let detail := if bad then [] else leBytes 4 (Config.freeWord s.freeCtr).toNat
  addErr { (errRec (if bad then 2 else 1) (if bad then 1 else 0) 0 detail).ofChannel (channelOf a) with
    pa := a, events := errorCount s1 k (a / 2 ^ 18) } { s1 with freeCtr := s1.freeCtr + 1 }

/-- The errors of a unit are counted anew. -/
def clearErrors (k : ErrorKind) (unit : Nat) (s : State) : State :=
  { s with hub := { s.hub with errors := s.hub.errors.filter fun e => e.1 ≠ errorCode k || e.2.1 ≠ unit } }

/-- A port goes down (R327, R448). -/
def portDown (port width rate : Nat) (s : State) : State :=
  let w := bar0 s 0x38 4
  let s1 := describe (setBar0 0x38 4 (w &&& (2 ^ 32 - 1 - 2 ^ port - 2 ^ (port + 4)))) s
  addErr { errRec 8 2 0 (leBytes 1 width ++ leBytes 2 rate) with channel := port } s1

/-- LASTING_FAULT: the count of a kind crosses its threshold (R442): an SRAM array is retired, an HBM page listed, a
link taken down. -/
def execLastingFault (k : ErrorKind) (unit : Nat) (s : State) : Out :=
  if errorCount s k unit < (errorLimit s k).1 then .next s
  else
    let s1 := clearErrors k unit s
    match k with
    | .sramCorrectable | .sramUncorrectable =>
      let h := unit / 256
      let hp := hoopOf s1 h
      if hp.withdrawn.getLsbD (unit % 256) then .next s1
      else .next (setHoop h { hp with retired := hp.retired ||| (1#256 <<< (unit % 256)) } s1)
    | .hbmCorrectable | .hbmUncorrectable =>
      let n := bar0 s1 0x810 4
      if 4096 ≤ n then .next s1
      else .next (describe (fun s => setBar0 0x810 4 (n + 1) (setBar0 (0x2200 + 8 * n) 8 (unit * 2 ^ 18) s)) s1)
    | .link => if unit < 4 then .next (portDown unit 0 0 s1) else .next s1

/-! ### Retiring arrays and dies (R443 to R445) -/

/-- SPARE_REPLACEMENT: the rows of a retired array begin to be copied to a spare (R443). -/
def execSpareReplacement (hoop array : Nat) (s : State) : Out :=
  let hp := hoopOf s hoop
  if 48 ≤ hoop ∨ 256 ≤ array ∨ !hp.retired.getLsbD array ∨ hp.replacing.getLsbD array ∨ hp.spares = 0 then .next s
  else .next (setHoop hoop { hp with replacing := hp.replacing ||| (1#256 <<< array) } s)

/-- SPARE_REMAP: the copy is done and the spare takes the array's number, with its data and poison (R443). -/
def execSpareRemap (hoop array : Nat) (s : State) : Out :=
  let hp := hoopOf s hoop
  if 48 ≤ hoop ∨ 256 ≤ array ∨ !hp.replacing.getLsbD array ∨ hp.spares = 0 then .next s
  else
    let m := ~~~(1#256 <<< array)
    let s1 := setHoop hoop { hp with retired := hp.retired &&& m, replacing := hp.replacing &&& m, spares := hp.spares - 1 } s
    let w := bar0 s1 (0x80 + 8 * hoop) 8
    let s2 := describe (setBar0 (0x80 + 8 * hoop) 8 (w - natBits w 9 6 * 2 ^ 6 + (hp.spares - 1) * 2 ^ 6)) s1
    .next (addErr { (errRec 4 2 0 (leBytes 1 (8 - hp.spares))).ofHoop hoop with array := array } s2)

/-- The lane block of an array becomes a pending reduced grant of the strand that holds it (R444). -/
def reclaimBlock (h b : Nat) (s : State) : State :=
  let gone (x : Nat × Nat) : Bool := x.1 = h && x.2 / 8 = b
  updStrands (fun t => isStrand t && resident t && t.arrays.any gone)
    (fun t => { t with pendingGrant := some ((t.pendingGrant.getD t.arrays).filter fun x => !gone x) }) s

/-- An array leaves service: the slots no longer offer its lane block, and the description drops it (R444, R421). -/
def withdraw (h a : Nat) (s : State) : State :=
  let hp := hoopOf s h
  let block := 0xFF#256 <<< (a / 8 * 8)
  let first : Bool := hp.withdrawn &&& block = 0 && walkerBlock s h ≠ some (a / 8)
  let mine : BitVec 32 := ~~~(1#32 <<< (a / 8))
  let s1 := setHoop h { hp with
    withdrawn := hp.withdrawn ||| (1#256 <<< a), retired := hp.retired &&& ~~~(1#256 <<< a)
    grants := hp.grants.map fun g => { g with lanes := g.lanes &&& mine } } s
  let w := bar0 s1 (0x80 + 8 * h) 8
  let w1 := w + 2 ^ 10 - (if first ∧ natBits w 5 0 ≠ 0 then 1 else 0)
  let byte := bar0 s1 (0x200 + 32 * h + a / 8) 1
  let s2 := describe (fun s => setBar0 (0x80 + 8 * h) 8 w1 (setBar0 (0x200 + 32 * h + a / 8) 1 (byte ||| 2 ^ (a % 8))
    (setBar0 0x808 8 (bar0 s 0x808 8 - 2 ^ 17) s))) s1
  addErr { (errRec 5 2 0 (capacityDetail s2)).ofHoop h with array := a } s2

/-- ARRAY_WITHDRAW: no spare is left. An array whose lane block a strand holds becomes a pending reduced grant; one that
no strand and no SRAM grant holds is withdrawn (R444). -/
def execArrayWithdraw (hoop array : Nat) (s : State) : Out :=
  let hp := hoopOf s hoop
  if 48 ≤ hoop ∨ 256 ≤ array ∨ !hp.retired.getLsbD array ∨ hp.spares ≠ 0 then .next s
  else
    let held := (allStrands s).any fun t => resident t && t.arrays.any fun x => x.1 = hoop && x.2 / 8 = array / 8
    let granted := hp.grants.toList.any fun g => g.sram.getLsbD array
    if held then .next (reclaimBlock hoop (array / 8) s)
    else if granted then .next s
    else .next (withdraw hoop array s)

/-- A hoop lies on a die (R8). -/
def onDie (die h : Nat) : Bool := h / 12 = die

/-- A node command of the die is placed again at a hoop of another die; a walk restarts (R445, R368). -/
def moveNode (s : State) (die : Nat) (t : Strand) : Strand :=
  let h := ((List.range 48).find? fun h => !onDie die h && hoopPresent s h).getD 0
  let again (e : CEntry) : CEntry :=
    if 0x48 ≤ cmdOf e.word then { e with step := 0, accepted := false, done := false, prog := Progress.none } else e
  { t with hoop := h, nq := t.nq.map again }

/-- The die leaves service: its lent lanes, its SRAM, what the description offers of it, and the jobs that held it
(R445, R421). With its last die the device has left its Garzar domain (R329). -/
def fenceDie (die : Nat) (s : State) : State :=
  let stuck := (allStrands s).filter fun t => resident t && onDie die t.hoop && t.state = .saving
  let s1 := stuck.foldl (init := s) fun s t =>
    saveError t 3 0 (faultedRecord t (setRunState t.id .faulted 0 s))
  let s2 := updStrands (fun t => t.node.isSome && t.state = .running && onDie die t.hoop) (moveNode s1 die) s1
  let s3 := updStrands (fun t => isStrand t && resident t && t.arrays.any fun x => onDie die x.1)
    (fun t => { t with pendingGrant := some ((t.pendingGrant.getD t.arrays).filter fun x => !onDie die x.1) }) s2
  let asids := (((List.range 48).filter (onDie die)).flatMap fun h =>
    ((hoopOf s3 h).grants.toList.filter fun g => g.enabled && g.sram ≠ 0).map SlotGrant.asid).eraseDups
  let lost (a : Nat) : Bool := match regionOf a with
    | .sram gs => onDie die (gs / 2 ^ 25)
    | _ => false
  let s4 := { s3 with
    mem := { s3.mem with bytes := s3.mem.bytes.filter fun e => !lost e.1
                         poison := s3.mem.poison.filter fun e => !lost (8 * e.1) }
    hub := { s3.hub with fenced := s3.hub.fenced ||| (1#4 <<< die), fencing := s3.hub.fencing &&& ~~~(1#4 <<< die) } }
  let s5 := describe (fun s =>
    let hoops := bar0 s 0x28 8 &&& (2 ^ 64 - 1 - (2 ^ 12 - 1) * 2 ^ (12 * die))
    let walker := bar0 s (0x40 + 4 * die) 4 ||| 2 ^ 31
    let arrays := (((List.range 48).filter (onDie die)).map fun h => 256 - (bitsOf (hoopOf s h).withdrawn).length).sum
    let s := ((List.range 48).filter (onDie die)).foldl (init := s) fun s h =>
      setBar0 (0x80 + 8 * h) 1 (bar0 s (0x80 + 8 * h) 1 &&& 0xC0) s
    setBar0 0x808 8 (bar0 s 0x808 8 - 2 ^ 17 * arrays) <| setBar0 0x28 8 hoops (setBar0 0x30 1 s.hub.fenced.toNat (setBar0 (0x40 + 4 * die) 4 walker s))) s4
  let s6 := addErr { errRec 6 3 0 (leBytes 1 0) with unit := die } (addErr (errRec 5 2 0 (capacityDetail s5)) s5)
  let s7 := asids.foldl (init := s6) fun s a => cancelJobs a s
  if s7.hub.fenced = 15 then announceLeave s7 else s7

/-- DIE_FENCE: the strands led from the die are asked to stop; when they have left it, or cannot be saved, the die is
fenced off (R445). -/
def execDieFence (die : Nat) (s : State) : Out :=
  if 4 ≤ die ∨ s.hub.fenced.getLsbD die then .next s
  else
    let mine := (allStrands s).filter fun t => resident t && onDie die t.hoop && t.state ≠ .faulted
    if !s.hub.fencing.getLsbD die then
      let s1 := { s with hub := { s.hub with fencing := s.hub.fencing ||| (1#4 <<< die) } }
      .next ((mine.filter stoppable).foldl (init := s1) fun s t => requestStop t.id s)
    else if mine.all fun t => t.state = .saving && t.saveStop then .next (fenceDie die s)
    else .next s

/-- LINK_TRAINING: a port trains at ×16, at 128 or 64 GT/s, or stays or goes down (R327, R448); the events are counted
(R442). -/
def execLinkTraining (port width rate : Nat) (s : State) : Out :=
  if 4 ≤ port then .next s
  else
    let w := bar0 s 0x38 4
    let was : Bool := natBits w port port = 1
    let full : Bool := width = 16 && rate = 128
    let slow : Bool := width = 16 && rate = 64
    let s1 := if was || slow then countError .link port s else s
    if full || slow then
      let w1 := (w &&& (2 ^ 32 - 1 - 2 ^ port - 2 ^ (port + 4))) + 2 ^ port + (if slow then 2 ^ (port + 4) else 0)
      let s2 := describe (setBar0 0x38 4 w1) s1
      .next (if slow then addErr { errRec 8 1 0 (leBytes 1 width ++ leBytes 2 rate) with
        channel := port, events := errorCount s1 .link port } s2 else s2)
    else if width = 0 then .next (portDown port width rate s1)
    else
      let s2 := describe (setBar0 0x38 4 (w &&& (2 ^ 32 - 1 - 2 ^ port - 2 ^ (port + 4)))) s1
      .next (addErr { errRec 8 1 0 (leBytes 1 width ++ leBytes 2 rate) with channel := port } s2)

/-! ### Channel power-down (R446) -/

/-- CHANNEL_POWER_DOWN_REQUEST (R446): a second request is merged with the first. -/
def execChannelPowerDownRequest (c : Nat) (s : State) : Out :=
  let u := unitOf s c
  if 256 ≤ c ∨ u.power ≠ .active then .next s
  else .next (setUnit c { u with power := if u.owner.isSome then .drain else .down, wake := !u.queue.isEmpty } s)

/-- CHANNEL_DRAIN_END: the running command has ended, and the unit, which executes no more, begins to write its state
image (R446). -/
def execChannelDrainEnd (c : Nat) (s : State) : Out :=
  if (unitOf s c).power = .drain ∧ (unitOf s c).running.isNone then
    .next (setPower c .spill (writeSpill c (unitImage (unitOf s c)) s))
  else .next s

/-- CHANNEL_SPILL_END: the state image is written; the channel goes down, or comes back if a wake is pending (R446). -/
def execChannelSpillEnd (c : Nat) (s : State) : Out :=
  let u := unitOf s c
  if u.power ≠ .spill then .next s
  else .next (setUnit c { u with power := if u.wake then .restore else .down } (writeSpill c (unitImage u) s))

/-- CHANNEL_WAKE: a wake request, a posted command or an access brings a channel back that is down, or is remembered by
one that goes down (R446). -/
def execChannelWake (c : Nat) (s : State) : Out :=
  let u := unitOf s c
  match u.power with
  | .down => .next (setPower c .restore s)
  | .drain | .spill => .next (setUnit c { u with wake := true } s)
  | _ => .next s

/-- CHANNEL_RESTORE_END: the image is reloaded and the channel is active (R446). -/
def execChannelRestoreEnd (c : Nat) (s : State) : Out :=
  if (unitOf s c).power = .restore then .next (reloadUnit c s) else .next s

/-! ### Service firmware -/

/-- What service firmware sets, within the bounds that the spec gives: the grace (R391), thresholds and windows (R442), and
measurement registers 3 to 7 (R417); a write of BAR0 (R420). -/
def firmwareAct (f : FirmwareAct) (s : State) : State :=
  match f with
  | .setGrace ac => if 800 ≤ ac ∧ ac ≤ 8000000 then { s with hub := { s.hub with grace := ac } } else s
  | .setSlice ac => { s with hub := { s.hub with slice := ac } }
  | .setQuantum job n => { s with hub := { s.hub with quanta := smSet s.hub.quanta job n } }
  | .setErrorLimit k events seconds =>
    if 1 ≤ events ∧ events ≤ 255 ∧ 1 ≤ seconds ∧ seconds ≤ 2 ^ 32 then
      { s with hub := { s.hub with errorLimits := s.hub.errorLimits.set k (events, seconds * 800000000) } }
    else s
  | .extend i data => if 3 ≤ i ∧ i < 8 then extend i data s else s
  | .write off v => firmwareWrite off v.toNat s

end Sys2Proof.Machine
end

