-- ==== Sys2Proof/Machine/VecAssoc.lean ====
section
/-! DEFINITION. The associative, mask, permute and reduction instructions (R190 to R211). -/

namespace Sys2Proof.Machine

/-- The die of element i of the strand (R32). -/
def dieOf (st : Strand) (i : Nat) : Nat := ((st.arrays[i % rg st / 512]?).getD (0, 0)).1 / 12

/-- XDIE at the lowest destination element whose source lies on another die (R194). -/
def checkDie (v : VEnv) (src : Nat → Option Nat) : Act Unit :=
  match (span v.e.vstart v.e.vl).find? fun i =>
      match src i with
      | some j => dieOf v.st i ≠ dieOf v.st j
      | none => false with
  | some i => mapTrap (fun t => { t with telem := BitVec.ofNat 32 i }) (raise causeXdie ((src i).getD 0))
  | none => pure ()

/-- Something is done only for a vl above vstart (R106). -/
def unlessEmpty (e : VEntry) (act : Act Unit) : Act Unit := if e.vl ≤ e.vstart then pure () else act

/-- The chosen places of a mask: active, and its bit 1 (R198, R200). -/
def VEnv.chosen (v : VEnv) (r : Reg) : List Nat := v.actives.filter (maskBit v.st r.toNat)

/-! ### Search, counts and mask logic -/

/-- `vsrch` and `vsrng` (R197). -/
def searchOp (d a b : Reg) (m : BitVec 1) (f : (w lo hi x : Nat) → Bool) (s : State) : Out :=
  vInstr (oneReg a) (fun e => do
    vCheck e true true [(d.toNat, 1), (b.toNat, lmulOf e.vtype)] (sewOf e.vtype ≤ 32)
    let v ← vEnv e (m = 1)
    let lo := e.a.toNat % 2 ^ 32
    let hi := e.a.toNat / 2 ^ 32
    elementWise v (.bits d.toNat) [.elems b.toNat v.sew] fun i =>
      plain (if f v.sew (lo % 2 ^ v.sew) (hi % 2 ^ v.sew) (v.elem b i) then 1 else 0)) s

/-- VSRCH: a key and its care mask (R197). -/
def execVsrch (d a b : BitVec 5) (m : BitVec 1) (s : State) : Out :=
  searchOp d a b m (fun _ key care x => (x ^^^ key) &&& care = 0) s

/-- VSRNG: an unsigned range (R197). -/
def execVsrng (d a b : BitVec 5) (m : BitVec 1) (s : State) : Out :=
  searchOp d a b m (fun _ lo hi x => lo ≤ x && x ≤ hi) s

/-- `vcpop` and `vfirst` (R191, R198): a result of the chosen places; with vl = 0 the result of none. -/
def countOp (d b : Reg) (m : BitVec 1) (f : List Nat → Word) (s : State) : Out :=
  vInstr noRegs (fun e => do
    vCheck e (wholeVector e) true [(b.toNat, 1)] true
    let v ← vEnv e (m = 1)
    wholePoison v [.bits b.toNat]
    writeResult d (f (v.chosen b))) s

/-- VCPOP (R198). -/
def execVcpop (d b : BitVec 5) (m : BitVec 1) (s : State) : Out :=
  countOp d b m (fun l => BitVec.ofNat 64 l.length) s

/-- VFIRST (R198). -/
def execVfirst (d b : BitVec 5) (m : BitVec 1) (s : State) : Out :=
  countOp d b m (fun l => match l with
    | [] => -1
    | i :: _ => BitVec.ofNat 64 i) s

/-- A mask logical (R199): unmasked, from vstart. -/
def maskOp (d a b : Reg) (f : Bool → Bool → Bool) (s : State) : Out :=
  vInstr noRegs (fun e => do
    vCheck e true true [(d.toNat, 1), (b.toNat, 1), (a.toNat, 1)] true
    let v ← vEnv e false
    elementWise v (.bits d.toNat) [.bits b.toNat, .bits a.toNat] fun i =>
      plain (if f (maskBit v.st b.toNat i) (maskBit v.st a.toNat i) then 1 else 0)) s

/-- VMAND (R199). -/
def execVmand (d a b : BitVec 5) (s : State) : Out :=
  maskOp d a b (fun x y => x && y) s

/-- VMOR (R199). -/
def execVmor (d a b : BitVec 5) (s : State) : Out :=
  maskOp d a b (fun x y => x || y) s

/-- VMXOR (R199). -/
def execVmxor (d a b : BitVec 5) (s : State) : Out :=
  maskOp d a b (fun x y => x != y) s

/-- VMANDN (R199). -/
def execVmandn (d a b : BitVec 5) (s : State) : Out :=
  maskOp d a b (fun x y => x && !y) s

/-- VMNAND (R199). -/
def execVmnand (d a b : BitVec 5) (s : State) : Out :=
  maskOp d a b (fun x y => !(x && y)) s

/-- VMNOR (R199). -/
def execVmnor (d a b : BitVec 5) (s : State) : Out :=
  maskOp d a b (fun x y => !(x || y)) s

/-- VMORN (R199). -/
def execVmorn (d a b : BitVec 5) (s : State) : Out :=
  maskOp d a b (fun x y => x || !y) s

/-- VMXNOR (R199). -/
def execVmxnor (d a b : BitVec 5) (s : State) : Out :=
  maskOp d a b (fun x y => x == y) s

/-- What a whole-vector instruction writes: active elements a value, masked-off ones under the policy, and the
tail (R192, R201). -/
def wholeWrites (v : VEnv) (f : Nat → Nat) : List (Nat × Nat) :=
  ((List.range v.e.vl).filterMap fun i =>
    if v.active i then some (i, f i) else if v.zeroMasked then some (i, 0) else none) ++ tailFrom v v.e.vl

/-- `vmsbf`, `vmsif` and `vmsof` (R200): `f first i`, with vl for no first place. -/
def beforeOp (d b : Reg) (m : BitVec 1) (f : Nat → Nat → Bool) (s : State) : Out :=
  vInstr noRegs (fun e => do
    vCheck e (wholeVector e) true [(d.toNat, 1), (b.toNat, 1)] true
    unlessEmpty e do
      let v ← vEnv e (m = 1)
      wholePoison v [.bits b.toNat]
      let first := ((v.chosen b).head?).getD e.vl
      putDst v (.bits d.toNat) (wholeWrites v fun i => if f first i then 1 else 0)) s

/-- VMSBF (R200). -/
def execVmsbf (d b : BitVec 5) (m : BitVec 1) (s : State) : Out := beforeOp d b m (fun first i => i < first) s

/-- VMSIF (R200). -/
def execVmsif (d b : BitVec 5) (m : BitVec 1) (s : State) : Out := beforeOp d b m (fun first i => i ≤ first) s

/-- VMSOF (R200). -/
def execVmsof (d b : BitVec 5) (m : BitVec 1) (s : State) : Out := beforeOp d b m (fun first i => i = first) s

/-- VIOTA (R201): the number of chosen places below i. -/
def execViota (d b : BitVec 5) (m : BitVec 1) (s : State) : Out :=
  vInstr noRegs (fun e => do
    vCheck e (wholeVector e) true [(d.toNat, lmulOf e.vtype), (b.toNat, 1)] true
    unlessEmpty e do
      let v ← vEnv e (m = 1)
      wholePoison v [.bits b.toNat]
      let set := v.chosen b
      putDst v (.elems d.toNat v.sew v.lmul)
        (wholeWrites v fun i => (set.filter (· < i)).length % 2 ^ v.sew)) s

/-- VID (R201). -/
def execVid (d : BitVec 5) (m : BitVec 1) (s : State) : Out :=
  vInstr noRegs (fun e => do
    vCheck e true (m = 1) [(d.toNat, lmulOf e.vtype)] true
    let v ← vEnv e (m = 1)
    elementWise v (.elems d.toNat v.sew v.lmul) [] fun i => plain (i % 2 ^ v.sew)) s

/-! ### Packing and top-k -/

/-- `vcompress` and `vcompi` (R202): the values of the selected places, packed from element 0, and the rest as
tail. A grant on more than one die raises XDIE (R194). -/
def packOp (d a : Reg) (groups : Nat → List (Nat × Nat)) (srcs : Nat → List Src) (f : VEnv → Nat → Nat) (s : State) :
    Out :=
  vInstr noRegs (fun e => do
    let g := lmulOf e.vtype
    vCheck e (wholeVector e) true ([(d.toNat, g), (a.toNat, 1)] ++ groups g) true
    unlessEmpty e do
      let v ← vEnv e false
      if (List.range v.st.arrays.length).any fun k => dieOf v.st (512 * k) ≠ dieOf v.st 0 then raise causeXdie 0
      wholePoison v (.bits a.toNat :: srcs v.sew)
      let sel := v.chosen a
      putDst v (.elems d.toNat v.sew g)
        ((sel.zipIdx.map fun (i, j) => (j, f v i)) ++ tailFrom v sel.length)) s

/-- VCOMPRESS (R202). -/
def execVcompress (d a b : BitVec 5) (s : State) : Out :=
  packOp d a (fun g => [(b.toNat, g)]) (fun w => [.elems b.toNat w]) (fun v i => v.elem b i) s

/-- VCOMPI (R202). -/
def execVcompi (d a : BitVec 5) (s : State) : Out :=
  packOp d a (fun _ => []) (fun _ => []) (fun v i => i % 2 ^ v.sew) s

/-- The unsigned key by which `vtopk` selects (R203). -/
def topKey (w : Nat) (order : Nat) (smallest : Bool) (x : Nat) : Nat :=
  let top := 2 ^ (w - 1)
  let k := if order = 0 then x
    else if order = 1 then x ^^^ top
    else if x.testBit (w - 1) then 2 ^ w - 1 - x else x ^^^ top
  if smallest then 2 ^ w - 1 - k else k

/-- The narrowing of R203 from a bit downwards: the candidates with their keys, what is left to choose, and
what has been chosen. -/
def topNarrow : Nat → List (Nat × Nat) → Nat → List Nat → List Nat
  | 0, cand, rem, acc => acc ++ (cand.take rem).map (·.1)
  | b + 1, cand, rem, acc =>
    let ones := cand.filter fun x => x.2.testBit b
    if ones.length ≤ rem then
      topNarrow b (cand.filter fun x => !x.2.testBit b) (rem - ones.length) (acc ++ ones.map (·.1))
    else topNarrow b ones rem acc

/-- The places that a top-k operand selects among candidates with their values (R203). -/
def topSelect (w x : Nat) (cand : List (Nat × Nat)) : List Nat :=
  let keyed := cand.map fun (i, y) => (i, topKey w (natBits x 34 33) (natBits x 32 32 = 1) y)
  topNarrow w keyed (min (x % 2 ^ 32) cand.length) []

/-- The operand of a top-k is allowed (R203). -/
def topOperandOk (x : Nat) : Bool := natBits x 63 35 = 0 && natBits x 34 33 ≠ 3

/-- VTOPK (R203): every bit below vl is written, whatever the mask policy. -/
def execVtopk (d a b : BitVec 5) (m : BitVec 1) (s : State) : Out :=
  vInstr (oneReg a) (fun e => do
    let x := e.a.toNat
    vCheck e (wholeVector e && topOperandOk x) true [(d.toNat, 1), (b.toNat, lmulOf e.vtype)]
      (sewOf e.vtype ≤ 32 && (natBits x 34 33 ≠ 2 || natBits e.vtype.toNat 7 6 ≠ 0))
    unlessEmpty e do
      let v ← vEnv e (m = 1)
      wholePoison v [.elems b.toNat v.sew]
      let sel := topSelect v.sew x (v.actives.map fun i => (i, v.elem b i))
      putDst v (.bits d.toNat)
        (((List.range e.vl).map fun i => (i, if sel.contains i then 1 else 0)) ++ tailFrom v e.vl)) s

/-! ### Table lookup -/

/-- The bits of a string of bytes, the lowest first (R141). -/
def bitsAt (bs : List Byte) (off w : Nat) : Nat := natBits (leNat bs) (off + w - 1) off

/-- VLUT (R204): the table is read in full before any element; a fault has telem at vstart. -/
def execVlut (d a b : BitVec 5) (m : BitVec 1) (s : State) : Out :=
  vInstr (oneReg a) (fun e => do
    let g := lmulOf e.vtype
    let sew := sewOf e.vtype
    vCheck e true (m = 1) [(d.toNat, g), (b.toNat, g)] (sew ≤ 32)
    unlessEmpty e do
      let v ← vEnv e (m = 1)
      let bits := min sew 8
      let table ← mapTrap (fun t => { t with telem := BitVec.ofNat 32 e.vstart }) do
        checkAlign e.a.toNat (max 1 (sew / 8))
        spaceRead (strandPort v.st 2) e.mtype.toNat e.a.toNat (ceilDiv (2 ^ bits * sew) 8)
      elementWise v (.elems d.toNat sew g) [.elems b.toNat sew] fun i =>
        plain (bitsAt table (v.elem b i % 2 ^ bits * sew) sew)) s

/-! ### Butterflies, transforms and exchanges -/

/-- A distance of R205 and R207: a power of two from 1 to 2^31. -/
def distanceOk (x : Nat) : Bool := (List.range 32).any fun k => x = 2 ^ k

/-- One butterfly of two elements (R205): the sum at the lower place, the difference at the higher. -/
def butterfly (f : Option Fmt) (w : Nat) (rm : Round) (lower : Bool) (lo hi : Nat) : ElemOut :=
  match f with
  | none => plain (wrap w (if lower then (lo : Int) + hi else (lo : Int) - hi))
  | some f => flagged (if lower then fadd f rm lo hi else fsub f rm lo hi)

/-- VBFLY (R205): a place whose partner is not an active one below vl counts as masked-off. -/
def execVbfly (d a b : BitVec 5) (m : BitVec 1) (s : State) : Out :=
  vInstr (oneReg a) (fun e => do
    let g := lmulOf e.vtype
    let v ← vEnv e (m = 1)
    vCheck e (distanceOk e.a.toNat) (m = 1) [(d.toNat, g), (b.toNat, g)] (v.ftype = 0 || arithFmt v.fmt)
    unlessEmpty e do
      let mate (i : Nat) : Nat := i ^^^ e.a.toNat
      let mated (i : Nat) : Bool := v.active i && v.first ≤ mate i && mate i < e.vl
      let act (i : Nat) : Bool := mated i && v.active (mate i)
      checkDie v fun i => if act i then some (mate i) else none
      elementRun v (.elems d.toNat v.sew g) act
        (fun i => elemPoisoned v [] i || (mated i && elemPoisoned v [] (mate i)) || (act i && ((Src.elems b.toNat v.sew).poisoned v.st i ||
          (Src.elems b.toNat v.sew).poisoned v.st (mate i))))
        fun i => some (butterfly v.fmt v.sew (roundOf e.frm) (i < mate i) (v.elem b (min i (mate i)))
          (v.elem b (max i (mate i))))) s
/-- One stage of a transform over a block (R205, R206). -/
def hadStage (f : Option Fmt) (w : Nat) (rm : Round) (dist : Nat) (xs : List ElemOut) : List ElemOut :=
  xs.zipIdx.map fun (_, i) =>
    let j := i ^^^ dist
    let r := butterfly f w rm (i < j) (xs.getD (min i j) default).val (xs.getD (max i j) default).val
    { r with flags := r.flags ||| (xs.getD i default).flags }

/-- The stages 1, 2, …, 2^(k−1) in order; each element carries the flags of its own operations. -/
def hadBlock (f : Option Fmt) (w : Nat) (rm : Round) (kh : Nat) (xs : List Nat) : List ElemOut :=
  (List.range kh).foldl (init := xs.map plain) fun l k => hadStage f w rm (2 ^ k) l

/-- fn of R206: 1/√(2^kh) rounded RNE, which for odd kh is the root of 2 cut to the precision of the format. -/
def hadNorm (f : Fmt) (kh : Nat) : Nat :=
  if kh % 2 = 0 then (rnd f .rne false (.fin false 1 (2 ^ (kh / 2)))).1
  else
    let p := f.fracBits + 1
    let n := bitSearch (fun n => n * n ≤ 2 ^ (2 * p - 1)) p 0
    let n' := if (2 * n + 1) * (2 * n + 1) < 2 ^ (2 * p + 1) then n + 1 else n
    (rnd f .rne false (.fin false n' (2 ^ (p - 1 + (kh + 1) / 2)))).1

/-- The transformed and scaled elements below vl, and the flags of everything computed (R206). -/
def hadAll (v : VEnv) (b : Reg) (kh : Nat) (scale : Bool) : List Nat × Flags :=
  let n := 2 ^ kh
  let rm := roundOf v.e.frm
  let blocks := (List.range (ceilDiv v.e.vl n)).map fun k =>
    hadBlock v.fmt v.sew rm kh ((List.range n).map fun j => if n * k + j < v.e.vl then v.elem b (n * k + j) else 0)
  let fl := joinFlags blocks.flatten
  let ys := (blocks.flatten.map (·.val)).take v.e.vl
  match v.fmt, scale with
  | some f, true =>
    let zs := ys.map fun y => fmul f rm y (hadNorm f kh)
    (zs.map (·.1), zs.foldl (fun g z => g ||| z.2) fl)
  | _, _ => (ys, fl)

/-- VHAD (R206): transforms blocks of 2^kh elements, scales them, and quantises them into a bound group. -/
def execVhad (d a b : BitVec 5) (s : State) : Out :=
  vInstr { r1 := some a, r2 := none, csr := fun st => if (readReg st a).getLsbD 4 then .qcfg else .none
           seed := fun st => st.csr.vfrm.toNat % 8 = 5 && (readReg st a).getLsbD 4 } (fun e => do
    let x := e.a.toNat
    let quant : Bool := decide (natBits x 4 4 = 1)
    let scale : Bool := decide (natBits x 3 3 = 1)
    let kh := natBits x 2 0
    let v ← vEnv e false
    let c := qcfgOf e.csr.toNat
    let dst : Dst := match qcfgData e.csr.toNat, quant with
      | some f, true => .elems d.toNat f.width (codeGroup v f)
      | none, true => .elems d.toNat 8 1
      | _, false => .elems d.toNat v.sew v.lmul
    let gd := match dst with
      | .elems _ _ g => g
      | .bits _ => 1
    let nb := match c with
      | some c => ceilDiv e.vl (blockSize c.bcode)
      | none => 0
    let quantOk := match c with
      | some c => gd ≤ 8 && v.fmt = some c.src && nb ≤ qCapacity c.sfmt
      | none => false
    vCheck e (wholeVector e && natBits x 63 10 = 0 && kh ≠ 0) false [(d.toNat, gd), (b.toNat, v.lmul)]
      ((v.ftype = 0 || (arithFmt v.fmt)) && (!(scale || quant) || v.ftype ≠ 0) &&
        (!quant || quantOk))
    unlessEmpty e do
      wholePoison v [.elems b.toNat v.sew]
      let (ys, fl) := hadAll v b kh scale
      modStrand (raiseFlags fl false)
      match c, quant with
      | some c, true => do
        let q := natBits x 9 5
        let vals := ys.zipIdx.map fun (y, i) => (i, c.src.val y)
        let (codes, bands, fq) := deriveAll c vals nb
        modStrand fun st => raiseFlags fq false (writeQ q c.sfmt codes bands st)
        let st ← getStrand
        let outs := quantAll c (qRegOf st q) e.frm e.b vals
        modStrand fun st => raiseFlags (joinFlags (outs.map (·.2))) false
          (bindTo d.toNat gd q c.dcode c.bcode
            (writeDst st dst v.slots (outs.map (fun o => (o.1, o.2.val)) ++ tailFrom v e.vl)))
      | _, _ => putDst v dst (ys.zipIdx.map (fun (y, i) => (i, y)) ++ tailFrom v e.vl)) s

/-- VXCHG (R207): exchanges elements at a distance, across dies too. -/
def execVxchg (d a b : BitVec 5) (s : State) : Out :=
  vInstr (oneReg a) (fun e => do
    let g := lmulOf e.vtype
    vCheck e (distanceOk e.a.toNat) false [(d.toNat, g), (b.toNat, g)] true
    let v ← vEnv e false
    let src (i : Nat) : Nat := if i ^^^ e.a.toNat < e.vl then i ^^^ e.a.toNat else i
    elementRun v (.elems d.toNat v.sew g) v.active
      (fun i => (Src.elems b.toNat v.sew).poisoned v.st (src i))
      fun i => some (plain (v.elem b (src i)))) s

/-! ### Slides and gathers -/

/-- What moves into element i: element j of vs2, zero, or nothing. -/
inductive Move where
  | take (j : Nat)
  | zero
  | keep

/-- An instruction that moves elements of vs2 (R208, R209). The probe of the dies takes an index of vrgather as it stands, and
its XDIE comes before POISON of an index (R194; DESIGN CHOICE, log 110). -/
def moveElems (v : VEnv) (d b : Reg) (srcs : List Src) (f : Nat → Move) : Act Unit :=
  unlessEmpty v.e do
    checkDie v fun i => if v.active i then (match f i with
      | .take j => some j
      | _ => none) else none
    elementRun v (.elems d.toNat v.sew v.lmul) v.active
      (fun i => elemPoisoned v srcs i || (v.active i && match f i with
        | .take j => (Src.elems b.toNat v.sew).poisoned v.st j
        | _ => false))
      fun i => match f i with
        | .take j => some (plain (v.elem b j))
        | .zero => some (plain 0)
        | .keep => none

/-- VSLIDEUP (R208): elements below the offset stay as they are. -/
def execVslideup (d a b : BitVec 5) (m : BitVec 1) (s : State) : Out :=
  vInstr (oneReg a) (fun e => do
    let g := lmulOf e.vtype
    vCheck e true (m = 1) [(d.toNat, g), (b.toNat, g)] true
    let v ← vEnv e (m = 1)
    moveElems v d b [] fun i => if e.a.toNat ≤ i then .take (i - e.a.toNat) else .keep) s

/-- VSLIDEDOWN (R208): what comes from beyond VLMAX is 0. -/
def execVslidedown (d a b : BitVec 5) (m : BitVec 1) (s : State) : Out :=
  vInstr (oneReg a) (fun e => do
    let g := lmulOf e.vtype
    vCheck e true (m = 1) [(d.toNat, g), (b.toNat, g)] true
    let v ← vEnv e (m = 1)
    moveElems v d b [] fun i => if i + e.a.toNat < v.vmax then .take (i + e.a.toNat) else .zero) s

/-- VRGATHER (R209): every index is probed before anything is written. -/
def execVrgather (d a b : BitVec 5) (m : BitVec 1) (s : State) : Out :=
  vInstr noRegs (fun e => do
    let g := lmulOf e.vtype
    vCheck e true (m = 1) [(d.toNat, g), (b.toNat, g), (a.toNat, g)] true
    let v ← vEnv e (m = 1)
    moveElems v d b [.elems a.toNat v.sew] fun i =>
      if v.elem a i < v.vmax then .take (v.elem a i) else .zero) s

/-! ### Reductions and scalar moves -/

/-- An integer reduction (R163, R210): the seed of w bits and every active element, folded. -/
def reduceInt (d a b : Reg) (m : BitVec 1) (sgn : Bool) (f : (w x y : Nat) → Nat) (s : State) : Out :=
  vInstr (oneReg a) (fun e => do
    vCheck e (wholeVector e) (m = 1) [(b.toNat, lmulOf e.vtype)] true
    let v ← vEnv e (m = 1)
    wholePoison v [.elems b.toNat v.sew]
    let r := v.actives.foldl (fun acc i => f v.sew acc (v.elem b i)) (e.a.toNat % 2 ^ v.sew)
    writeResult d (if sgn then BitVec.ofInt 64 (signed v.sew r) else BitVec.ofNat 64 r)) s

/-- VREDSUM (R210). -/
def execVredsum (d a b : BitVec 5) (m : BitVec 1) (s : State) : Out :=
  reduceInt d a b m true (fun w x y => (x + y) % 2 ^ w) s

/-- VREDMAX (R210). -/
def execVredmax (d a b : BitVec 5) (m : BitVec 1) (s : State) : Out :=
  reduceInt d a b m true (fun w x y => if signed w x < signed w y then y else x) s

/-- VREDMIN (R210). -/
def execVredmin (d a b : BitVec 5) (m : BitVec 1) (s : State) : Out :=
  reduceInt d a b m true (fun w x y => if signed w y < signed w x then y else x) s

/-- VREDMAXU (R210). -/
def execVredmaxu (d a b : BitVec 5) (m : BitVec 1) (s : State) : Out :=
  reduceInt d a b m false (fun _ x y => max x y) s

/-- VREDMINU (R210). -/
def execVredminu (d a b : BitVec 5) (m : BitVec 1) (s : State) : Out :=
  reduceInt d a b m false (fun _ x y => min x y) s

/-- A float reduction (R163, R210): a result with its flags from the seed and the active elements. -/
def reduceFloat (d a b : Reg) (m : BitVec 1)
    (f : VEnv → Fmt → (seed : Nat) → Act (Nat × Flags)) (s : State) : Out :=
  vInstr (oneReg a) (fun e => do
    let v ← vEnv e (m = 1)
    vCheck e (wholeVector e) (m = 1) [(b.toNat, v.lmul)] (arithFmt v.fmt)
    wholePoison v [.elems b.toNat v.sew]
    let (r, fl) ← f v (v.fmt.getD .fp32) (e.a.toNat % 2 ^ v.sew)
    modStrand (raiseFlags fl false)
    writeResult d (BitVec.ofNat 64 r)) s

/-- Adds codes one after the other, each sum rounded, with the union of the flags. -/
def sumFrom (f : Fmt) (rm : Round) (acc : Nat × Flags) (xs : List Nat) : Nat × Flags :=
  xs.foldl (fun r x => let q := fadd f rm r.1 x; (q.1, r.2 ||| q.2)) acc

/-- VFREDOSUM (R163): in ascending element order. -/
def execVfredosum (d a b : BitVec 5) (m : BitVec 1) (s : State) : Out :=
  reduceFloat d a b m (fun v f seed =>
    pure (sumFrom f (roundOf v.e.frm) (seed, 0) (v.actives.map (v.elem b)))) s

/-- The partial sum of each lane that holds an active element (R164). -/
def lanePartials (v : VEnv) (f : Fmt) (b : Reg) : List (Nat × Flags) :=
  (List.range v.st.arrays.length).filterMap fun lane =>
    match (v.actives.filter fun i => i % rg v.st / 512 = lane).map (v.elem b) with
    | [] => none
    | x :: xs => some (sumFrom f (roundOf v.e.frm) (x, 0) xs)

/-- Adds two of the leaves, which two the spec leaves open, until one is left (R164). -/
def combineLeaves (f : Fmt) (rm : Round) : Nat → List Nat → Flags → Act (Nat × Flags)
  | 0, l, fl => pure (l.headD 0, fl)
  | k + 1, l, fl =>
    if l.length ≤ 1 then pure (l.headD 0, fl)
    else do
      let i ← pick l.length
      let x := l.getD i 0
      let l1 := listDel l i
      let j ← pick l1.length
      let (r, g) := fadd f rm x (l1.getD j 0)
      combineLeaves f rm k (r :: listDel l1 j) (fl ||| g)

/-- VFREDSUM (R164): any binary tree over the seed and the lanes' partial sums. -/
def execVfredsum (d a b : BitVec 5) (m : BitVec 1) (s : State) : Out :=
  reduceFloat d a b m (fun v f seed => do
    let ps := lanePartials v f b
    combineLeaves f (roundOf v.e.frm) ps.length (seed :: ps.map (·.1)) (ps.foldl (fun g p => g ||| p.2) 0)) s

/-- The fold of `vfredmax` and `vfredmin` (R153, R163). -/
def foldMinmax (isMax : Bool) (v : VEnv) (f : Fmt) (b : Reg) (seed : Nat) : Nat × Flags :=
  (v.actives.map (v.elem b)).foldl (fun r x => let q := fminmax f isMax r.1 x; (q.1, r.2 ||| q.2)) (seed, 0)

/-- VFREDMAX (R163). -/
def execVfredmax (d a b : BitVec 5) (m : BitVec 1) (s : State) : Out :=
  reduceFloat d a b m (fun v f seed => pure (foldMinmax true v f b seed)) s

/-- VFREDMIN (R163). -/
def execVfredmin (d a b : BitVec 5) (m : BitVec 1) (s : State) : Out :=
  reduceFloat d a b m (fun v f seed => pure (foldMinmax false v f b seed)) s

/-- VMVXS (R211): element 0, sign-extended; with vl = 0 it writes 0 (R191). -/
def execVmvxs (d b : BitVec 5) (s : State) : Out :=
  vInstr noRegs (fun e => do
    vCheck e (wholeVector e) false [(b.toNat, lmulOf e.vtype)] true
    let v ← vEnv e false
    if e.vl = 0 then writeResult d 0
    else do
      if (Src.elems b.toNat v.sew).poisoned v.st 0 then lanePoison 0
      writeResult d (BitVec.ofInt 64 (signed v.sew (v.elem b 0)))) s

/-- VMVSX (R211): element 0 from x[rs1]; the elements from 1 are tail. -/
def execVmvsx (d a : BitVec 5) (s : State) : Out :=
  vInstr (oneReg a) (fun e => do
    let g := lmulOf e.vtype
    vCheck e true false [(d.toNat, g)] true
    unlessEmpty e do
      let v ← vEnv e false
      putDst v (.elems d.toNat v.sew g)
        ((if e.vstart = 0 then [(0, e.a.toNat % 2 ^ v.sew)] else []) ++ tailFrom v (max 1 e.vstart))) s

end Sys2Proof.Machine
end

