-- ==== Sys2Proof/Machine/VecAtomic.lean ====
section
/-! DEFINITION. The vector atomics (R283 to R287). -/

namespace Sys2Proof.Machine

/-- The checks of an atomic at issue (R76, R283): SEW 32 or 64. -/
def atomicCheck (e : VEntry) (value mask : Bool) (regs : List Reg) : Act Unit :=
  vCheck e value mask (regs.map fun r => (r.toNat, lmulOf e.vtype)) (32 ≤ sewOf e.vtype)

/-- The address of an element at an offset of SEW bits (R283). -/
def offsetAddr (v : VEnv) (b : Reg) (i : Nat) : Nat × Nat := ((v.e.a.toNat + v.elem b i) % 2 ^ 64, 0)

/-- One indivisible update of a word: gives the old value. Poison on it is consumed (R283); what is written from a
poisoned lane field is poisoned (R440). -/
def atomicUpdate (v : VEnv) (p : Port) (addr : Nat) (poisoned : Bool) (f : Nat → Nat) : Act Nat := do
  let n := v.sew / 8
  let pl ← spaceAccess p v.e.mtype.toNat addr n true true true
  let s ← getS
  if placePoisoned s pl n then raisePoison p pl.pa addr
  let old := leNat (← readPlace pl n)
  writePlace p pl (leBytes n (f old % 2 ^ v.sew))
  if poisoned then carryPoison p pl n
  pure old

/-- `vamo` (R284): the elements in order, each old value into vd. -/
def vamoOp (d a b : Reg) (m : BitVec 1) (f : (w old x : Nat) → Nat) (s : State) : Out :=
  vInstr (oneReg a) (fun e => do
    atomicCheck e true (m = 1) [d, b]
    unlessEmpty e do
      let v ← vEnv e (m = 1)
      let bad := badElem v [.elems b.toNat v.sew]
      probeAll v v.sew true true bad (offsetAddr v b)
      gatherAll v (.elems d.toNat v.sew v.lmul) bad
        (fun i => atomicUpdate v (elemPort v true i) (offsetAddr v b i).1 ((Src.elems d.toNat v.sew).poisoned v.st i)
          fun old => f v.sew old (v.elem d i))
        (modStrand (clearTags d.toNat v.lmul))) s

/-- VAMO_ADD (R284). -/
def execVamoAdd (d a b : BitVec 5) (m : BitVec 1) (s : State) : Out := vamoOp d a b m (fun _ x y => x + y) s

/-- VAMO_AND (R284). -/
def execVamoAnd (d a b : BitVec 5) (m : BitVec 1) (s : State) : Out := vamoOp d a b m (fun _ x y => x &&& y) s

/-- VAMO_OR (R284). -/
def execVamoOr (d a b : BitVec 5) (m : BitVec 1) (s : State) : Out := vamoOp d a b m (fun _ x y => x ||| y) s

/-- VAMO_XOR (R284). -/
def execVamoXor (d a b : BitVec 5) (m : BitVec 1) (s : State) : Out := vamoOp d a b m (fun _ x y => x ^^^ y) s

/-- VAMO_SMIN (R284). -/
def execVamoSmin (d a b : BitVec 5) (m : BitVec 1) (s : State) : Out :=
  vamoOp d a b m (fun w x y => if signed w y < signed w x then y else x) s

/-- VAMO_SMAX (R284). -/
def execVamoSmax (d a b : BitVec 5) (m : BitVec 1) (s : State) : Out :=
  vamoOp d a b m (fun w x y => if signed w x < signed w y then y else x) s

/-- VAMO_UMAX (R284). -/
def execVamoUmax (d a b : BitVec 5) (m : BitVec 1) (s : State) : Out := vamoOp d a b m (fun _ x y => max x y) s

/-- VAMO_SWAP (R284). -/
def execVamoSwap (d a b : BitVec 5) (m : BitVec 1) (s : State) : Out := vamoOp d a b m (fun _ _ y => y) s

/-- A whole-vector instruction stops with vstart 0 and the element in telem (R195, R283). -/
def wholeStop {α : Type} (i : Nat) (m : Act α) : Act α :=
  mapTrap (fun t => { t with telem := BitVec.ofNat 32 i }) m

/-- VFASCAN (R285): one update of the word, and exclusive prefixes. A poisoned field of vd goes into the word, which it
poisons (R440), and into the prefixes as it stands (DESIGN CHOICE, log 98). -/
def execVfascan (d a : BitVec 5) (m : BitVec 1) (s : State) : Out :=
  vInstr (oneReg a) (fun e => do
    atomicCheck e (wholeVector e) (m = 1) [d]
    unlessEmpty e do
      let v ← vEnv e (m = 1)
      wholePoison v []
      match v.actives with
      | [] => putDst v (.elems d.toNat v.sew v.lmul) (wholeWrites v fun _ => 0)
      | i :: is => do
        let n := v.sew / 8
        let sum (l : List Nat) : Nat := (l.map (v.elem d)).sum
        let old ← wholeStop i do
          checkAlign e.a.toNat n
          spaceProbe (strandPort v.st 2) e.mtype.toNat e.a.toNat n true true
          atomicUpdate v (elemPort v false i) e.a.toNat ((i :: is).any ((Src.elems d.toNat v.sew).poisoned v.st))
            fun old => old + sum (i :: is)
        putDst v (.elems d.toNat v.sew v.lmul)
          (wholeWrites v fun k => (old + sum ((i :: is).filter (· < k))) % 2 ^ v.sew)) s

/-- The array or channel that owns a line, by the line's number (R286). -/
def lineOwner (line : Nat) : Nat :=
  if line * 64 < 2 ^ 39 then channelOf (line * 64)
  else 2 ^ 20 + (line * 64 - 2 ^ 41) / 2 ^ 25 * 256 + natBits (line * 64) 15 8

/-- The links that an owner holds, of every strand. -/
def linksAt (s : State) (owner : Nat) : Nat :=
  ((allStrands s).map fun t => (t.links.filter fun l => lineOwner l.1 = owner).length).sum

/-- Sets a link on a line unless its owner already holds 64 (R286). -/
def setLink (line : Nat) : Act Unit := modS fun s =>
  if 64 ≤ linksAt s (lineOwner line) ∧ (smGet s.strand.links line).isNone then s
  else { s with strand := { s.strand with links := smSet s.strand.links line () } }

/-- VLGL (R286): loads the active elements as `vlxe` does and links their lines. It reads memory itself and no stream
buffer, whose older values its link would not protect (R288). -/
def execVlgl (d a b : BitVec 5) (m : BitVec 1) (s : State) : Out :=
  vInstr (oneReg a) (fun e => do
    atomicCheck e (wholeVector e) (m = 1) [d, b]
    unlessEmpty e do
      let v ← vEnv e (m = 1)
      wholePoison v [.elems b.toNat v.sew]
      modStrand fun st => { st with links := [] }
      probeAll v v.sew false true none (offsetAddr v b)
      let n := v.sew / 8
      let got ← v.actives.mapM fun i => wholeStop i do
        let p := elemPort v true i
        let addr := (offsetAddr v b i).1
        let pl ← spaceAccess p e.mtype.toNat addr n true false true
        let bs ← freshPlace p pl n addr
        pure (i, leNat bs, canonical pl.pa / 64)
      got.forM fun g => setLink g.2.2
      putDst v (.elems d.toNat v.sew v.lmul)
        (wholeWrites v fun i => ((got.find? fun g => g.1 = i).map fun g => g.2.1).getD 0)) s

/-- VSSC (R287): each write needs the link of its line; v0 takes the successes, and every link goes. -/
def execVssc (d a b : BitVec 5) (m : BitVec 1) (s : State) : Out :=
  vInstr (oneReg a) (fun e => do
    atomicCheck e (wholeVector e) true [d, b]
    unlessEmpty e do
      let v ← vEnv e (m = 1)
      wholePoison v [.elems b.toNat v.sew]
      probeAll v v.sew true true none (offsetAddr v b)
      let oks ← v.actives.mapM fun i => wholeStop i do
        let p := elemPort v true i
        let pl ← spaceAccess p e.mtype.toNat (offsetAddr v b i).1 (v.sew / 8) true true true
        let st ← getStrand
        if (smGet st.links (canonical pl.pa / 64)).isSome then do
          writePlace p pl (leBytes (v.sew / 8) (v.elem d i))
          if (Src.elems d.toNat v.sew).poisoned v.st i then carryPoison p pl (v.sew / 8)
          pure (i, 1)
        else pure (i, 0)
      modStrand fun st => { st with links := [] }
      let off := ((List.range e.vl).filter fun i => !v.active i).map fun i => (i, 0)
      putDst v (.bits 0) (oks ++ off ++ tailFrom v e.vl)) s

end Sys2Proof.Machine
end

