-- ==== Sys2Proof/Machine/VecFloat.lean ====
section
/-! DEFINITION. The floating-point vector instructions (R183 to R189). In a meaning, x is the element of vs2,
y the element of op1 and o the old element of vd, as codes of the element format. -/

namespace Sys2Proof.Machine

/-- An element-wise float instruction (R183): the format of vtype, which the operation must implement. -/
def floatOp (d b : Reg) (m : BitVec 1) (k : Op1) (old : Bool) (f : Fmt → Round → (x y o : Nat) → Nat × Flags)
    (s : State) : Out :=
  vInstr k.shape (fun e => do
    let g := lmulOf e.vtype
    let v ← vEnv e (m = 1)
    vCheck e true (m = 1) ([(d.toNat, g), (b.toNat, g)] ++ k.groups g) (arithFmt v.fmt)
    elementWise v (.elems d.toNat v.sew g)
      ([.elems b.toNat v.sew] ++ k.srcs v.sew ++ if old then [.elems d.toNat v.sew] else [])
      fun i => flagged (f (v.fmt.getD .fp32) (roundOf e.frm) (v.elem b i) (k.get v v.sew i) (v.elem d i))) s

/-- Minimum, maximum and class, which every format implements (R153). -/
def anyFloatOp (d b : Reg) (m : BitVec 1) (k : Op1) (f : Fmt → (x y : Nat) → Nat × Flags) (s : State) : Out :=
  vInstr k.shape (fun e => do
    let g := lmulOf e.vtype
    let v ← vEnv e (m = 1)
    vCheck e true (m = 1) ([(d.toNat, g), (b.toNat, g)] ++ k.groups g) v.fmt.isSome
    elementWise v (.elems d.toNat v.sew g) ([.elems b.toNat v.sew] ++ k.srcs v.sew)
      fun i => flagged (f (v.fmt.getD .fp32) (v.elem b i) (k.get v v.sew i))) s

/-- A float compare (R175, R186). -/
def floatCompare (d b : Reg) (m : BitVec 1) (k : Op1) (r : FRel) (s : State) : Out :=
  vInstr k.shape (fun e => do
    let g := lmulOf e.vtype
    let v ← vEnv e (m = 1)
    vCheck e true true ([(d.toNat, 1), (b.toNat, g)] ++ k.groups g) v.fmt.isSome
    elementWise v (.bits d.toNat) ([.elems b.toNat v.sew] ++ k.srcs v.sew) fun i =>
      let (c, fl) := fcompare (v.fmt.getD .fp32) r (v.elem b i) (k.get v v.sew i)
      { val := if c then 1 else 0, flags := fl, sat := false }) s

/-- The source format of a `vfcvt` code (R188). -/
def cvtFmt (k : BitVec 5) : Fmt :=
  match k.toNat % 8 with
  | 0 => .fp32
  | 1 => .bf16
  | 2 => .fp16
  | 3 => .e4m3
  | 4 => .e5m2
  | _ => .e2m1

/-- The conversion rounds under SR (R154, R157): an integer source, or a float source that the destination
does not hold exactly: a wider one, or another format of its width. -/
def cvtRounds (vt : Word) (k : BitVec 5) : Bool :=
  match k.toNat / 8 with
  | 1 => true
  | 0 =>
    match fmtOf (natBits vt.toNat 7 6) (sewOf vt) with
    | some dst => dst.width < (cvtFmt k).width || (dst.width = (cvtFmt k).width && dst ≠ cvtFmt k)
    | none => false
  | _ => false

/-- One conversion (R158, R188, R189). -/
def cvtElem (v : VEnv) (k : BitVec 5) (i c : Nat) : ElemOut :=
  let rm := if cvtRounds v.e.vtype k then roundSr v.e.frm v.e.b i else roundOf v.e.frm
  let dst := v.fmt.getD .fp32
  match k.toNat / 8 with
  | 0 =>
    if cvtFmt k = dst then
      { val := if dst.isNanCode c then dst.canon else c, flags := flagIf (dst.isSnan c) fNV, sat := false }
    else flagged (convFF (cvtFmt k) dst rm c)
  | 1 =>
    let w := 8 * 2 ^ (k.toNat % 4)
    flagged (rnd dst rm.mode rm.sat (Val.ofInt (if k.getLsbD 2 then signed w c else c)))
  | q =>
    let (r, fl) := toInt v.sew (q = 3) rm.mode ((cvtFmt k).val c)
    flagged (r, fl)

/-- vfcvt (R188, R189). -/
def execVfcvt (d b : BitVec 5) (m : BitVec 1) (k : BitVec 5) (s : State) : Out :=
  vInstr { r1 := none, r2 := none, seed := fun st => st.csr.vfrm.toNat % 8 = 5 && cvtRounds st.vtype k, csr := fun _ => .none }
    (fun e => do
      let g := lmulOf e.vtype
      let v ← vEnv e (m = 1)
      let ws := if k.toNat / 8 = 1 then 8 * 2 ^ (k.toNat % 4) else (cvtFmt k).width
      let gs := groupFor v ws
      vCheck e true (m = 1) [(d.toNat, g), (b.toNat, gs)]
        (gs ≤ 8 && if k.toNat / 8 < 2 then v.fmt.isSome else v.ftype = 0 && 8 ≤ v.sew)
      elementWise v (.elems d.toNat v.sew g) [.elems b.toNat ws] fun i =>
        cvtElem v k i (getElem v.st b.toNat ws i)) s

/-- vfadd.vv (R184). -/
def execVfaddVv (d a b : BitVec 5) (m : BitVec 1) (s : State) : Out :=
  floatOp d b m (.vec a) false (fun f r x y _ => fadd f r x y) s

/-- vfadd.vf (R184). -/
def execVfaddVf (d a b : BitVec 5) (m : BitVec 1) (s : State) : Out :=
  floatOp d b m (.scal a) false (fun f r x y _ => fadd f r x y) s

/-- vfsub.vv (R184). -/
def execVfsubVv (d a b : BitVec 5) (m : BitVec 1) (s : State) : Out :=
  floatOp d b m (.vec a) false (fun f r x y _ => fsub f r x y) s

/-- vfsub.vf (R184). -/
def execVfsubVf (d a b : BitVec 5) (m : BitVec 1) (s : State) : Out :=
  floatOp d b m (.scal a) false (fun f r x y _ => fsub f r x y) s

/-- vfrsub.vf (R184). -/
def execVfrsubVf (d a b : BitVec 5) (m : BitVec 1) (s : State) : Out :=
  floatOp d b m (.scal a) false (fun f r x y _ => fsub f r y x) s

/-- vfmul.vv (R184). -/
def execVfmulVv (d a b : BitVec 5) (m : BitVec 1) (s : State) : Out :=
  floatOp d b m (.vec a) false (fun f r x y _ => fmul f r x y) s

/-- vfmul.vf (R184). -/
def execVfmulVf (d a b : BitVec 5) (m : BitVec 1) (s : State) : Out :=
  floatOp d b m (.scal a) false (fun f r x y _ => fmul f r x y) s

/-- vfmacc.vv (R184). -/
def execVfmaccVv (d a b : BitVec 5) (m : BitVec 1) (s : State) : Out :=
  floatOp d b m (.vec a) true (fun f r x y o => fma f r false x y o) s

/-- vfmacc.vf (R184). -/
def execVfmaccVf (d a b : BitVec 5) (m : BitVec 1) (s : State) : Out :=
  floatOp d b m (.scal a) true (fun f r x y o => fma f r false x y o) s

/-- vfnmsac.vv (R184). -/
def execVfnmsacVv (d a b : BitVec 5) (m : BitVec 1) (s : State) : Out :=
  floatOp d b m (.vec a) true (fun f r x y o => fma f r true x y o) s

/-- vfnmsac.vf (R184). -/
def execVfnmsacVf (d a b : BitVec 5) (m : BitVec 1) (s : State) : Out :=
  floatOp d b m (.scal a) true (fun f r x y o => fma f r true x y o) s

/-- vfsgnj.vv (R184). -/
def execVfsgnjVv (d a b : BitVec 5) (m : BitVec 1) (s : State) : Out :=
  floatOp d b m (.vec a) false (fun f _ x y _ => (fsgn f x (f.signBit y), 0)) s

/-- vfsgnj.vf (R184). -/
def execVfsgnjVf (d a b : BitVec 5) (m : BitVec 1) (s : State) : Out :=
  floatOp d b m (.scal a) false (fun f _ x y _ => (fsgn f x (f.signBit y), 0)) s

/-- vfsgnjn.vv (R184). -/
def execVfsgnjnVv (d a b : BitVec 5) (m : BitVec 1) (s : State) : Out :=
  floatOp d b m (.vec a) false (fun f _ x y _ => (fsgn f x (!f.signBit y), 0)) s

/-- vfsgnjn.vf (R184). -/
def execVfsgnjnVf (d a b : BitVec 5) (m : BitVec 1) (s : State) : Out :=
  floatOp d b m (.scal a) false (fun f _ x y _ => (fsgn f x (!f.signBit y), 0)) s

/-- vfsgnjx.vv (R184). -/
def execVfsgnjxVv (d a b : BitVec 5) (m : BitVec 1) (s : State) : Out :=
  floatOp d b m (.vec a) false (fun f _ x y _ => (fsgn f x (f.signBit x != f.signBit y), 0)) s

/-- vfsgnjx.vf (R184). -/
def execVfsgnjxVf (d a b : BitVec 5) (m : BitVec 1) (s : State) : Out :=
  floatOp d b m (.scal a) false (fun f _ x y _ => (fsgn f x (f.signBit x != f.signBit y), 0)) s

/-- vfmin.vv (R184). -/
def execVfminVv (d a b : BitVec 5) (m : BitVec 1) (s : State) : Out :=
  anyFloatOp d b m (.vec a) (fun f x y => fminmax f false x y) s

/-- vfmin.vf (R184). -/
def execVfminVf (d a b : BitVec 5) (m : BitVec 1) (s : State) : Out :=
  anyFloatOp d b m (.scal a) (fun f x y => fminmax f false x y) s

/-- vfmax.vv (R184). -/
def execVfmaxVv (d a b : BitVec 5) (m : BitVec 1) (s : State) : Out :=
  anyFloatOp d b m (.vec a) (fun f x y => fminmax f true x y) s

/-- vfmax.vf (R184). -/
def execVfmaxVf (d a b : BitVec 5) (m : BitVec 1) (s : State) : Out :=
  anyFloatOp d b m (.scal a) (fun f x y => fminmax f true x y) s

/-- vfrcp (R159). -/
def execVfrcp (d b : BitVec 5) (m : BitVec 1) (s : State) : Out :=
  floatOp d b m (.imm 0) false (fun f r x _ _ => fapprox f .rcp r.sat x) s

/-- vfrsqrt (R159). -/
def execVfrsqrt (d b : BitVec 5) (m : BitVec 1) (s : State) : Out :=
  floatOp d b m (.imm 0) false (fun f r x _ _ => fapprox f .rsqrt r.sat x) s

/-- vfexp2 (R159). -/
def execVfexp2 (d b : BitVec 5) (m : BitVec 1) (s : State) : Out :=
  floatOp d b m (.imm 0) false (fun f r x _ _ => fapprox f .exp2 r.sat x) s

/-- vfclass (R187). -/
def execVfclass (d b : BitVec 5) (m : BitVec 1) (s : State) : Out :=
  anyFloatOp d b m (.imm 0) (fun f x _ => (fclass f x, 0)) s

/-- vmfeq.vv (R186). -/
def execVmfeqVv (d a b : BitVec 5) (m : BitVec 1) (s : State) : Out :=
  floatCompare d b m (.vec a) .eq s

/-- vmfeq.vf (R186). -/
def execVmfeqVf (d a b : BitVec 5) (m : BitVec 1) (s : State) : Out :=
  floatCompare d b m (.scal a) .eq s

/-- vmfne.vv (R186). -/
def execVmfneVv (d a b : BitVec 5) (m : BitVec 1) (s : State) : Out :=
  floatCompare d b m (.vec a) .ne s

/-- vmfne.vf (R186). -/
def execVmfneVf (d a b : BitVec 5) (m : BitVec 1) (s : State) : Out :=
  floatCompare d b m (.scal a) .ne s

/-- vmflt.vv (R186). -/
def execVmfltVv (d a b : BitVec 5) (m : BitVec 1) (s : State) : Out :=
  floatCompare d b m (.vec a) .lt s

/-- vmflt.vf (R186). -/
def execVmfltVf (d a b : BitVec 5) (m : BitVec 1) (s : State) : Out :=
  floatCompare d b m (.scal a) .lt s

/-- vmfle.vv (R186). -/
def execVmfleVv (d a b : BitVec 5) (m : BitVec 1) (s : State) : Out :=
  floatCompare d b m (.vec a) .le s

/-- vmfle.vf (R186). -/
def execVmfleVf (d a b : BitVec 5) (m : BitVec 1) (s : State) : Out :=
  floatCompare d b m (.scal a) .le s

/-- vmfgt.vv (R186). -/
def execVmfgtVv (d a b : BitVec 5) (m : BitVec 1) (s : State) : Out :=
  floatCompare d b m (.vec a) .gt s

/-- vmfgt.vf (R186). -/
def execVmfgtVf (d a b : BitVec 5) (m : BitVec 1) (s : State) : Out :=
  floatCompare d b m (.scal a) .gt s

/-- vmfge.vv (R186). -/
def execVmfgeVv (d a b : BitVec 5) (m : BitVec 1) (s : State) : Out :=
  floatCompare d b m (.vec a) .ge s

/-- vmfge.vf (R186). -/
def execVmfgeVf (d a b : BitVec 5) (m : BitVec 1) (s : State) : Out :=
  floatCompare d b m (.scal a) .ge s

/-- vmford.vv (R186). -/
def execVmfordVv (d a b : BitVec 5) (m : BitVec 1) (s : State) : Out :=
  floatCompare d b m (.vec a) .ord s

/-- vmford.vf (R186). -/
def execVmfordVf (d a b : BitVec 5) (m : BitVec 1) (s : State) : Out :=
  floatCompare d b m (.scal a) .ord s

end Sys2Proof.Machine
end

