-- ==== Sys2Proof/Machine/VecInt.lean ====
section
/-! DEFINITION. The integer vector instructions (R178 to R182). In a meaning, x is the element of vs2, y the
element of op1 and o the old element of vd. -/

namespace Sys2Proof.Machine

/-- An element-wise integer instruction (R174, R178). `old` says that it reads vd. -/
def intOp (d b : Reg) (m : BitVec 1) (k : Op1) (old : Bool) (f : VEntry → (w x y o : Nat) → ElemOut) (s : State) :
    Out :=
  vInstr k.shape (fun e => do
    let g := lmulOf e.vtype
    vCheck e true (m = 1) ([(d.toNat, g), (b.toNat, g)] ++ k.groups g) true
    let v ← vEnv e (m = 1)
    elementWise v (.elems d.toNat v.sew g)
      ([.elems b.toNat v.sew] ++ k.srcs v.sew ++ if old then [.elems d.toNat v.sew] else [])
      fun i => f e v.sew (v.elem b i) (k.get v v.sew i) (v.elem d i)) s

/-- An integer instruction whose result wraps and raises nothing (R148). -/
def wrapOp (d b : Reg) (m : BitVec 1) (k : Op1) (f : (w x y : Nat) → Int) (s : State) : Out :=
  intOp d b m k false (fun _ w x y _ => plain (wrap w (f w x y))) s

/-- A saturating instruction (R180): the exact result is clamped into a range. -/
def clampTo (w lo hi : Int) (v : Int) : ElemOut :=
  let c := if v < lo then lo else if hi < v then hi else v
  { val := wrap w.toNat c, flags := 0, sat := c ≠ v }

def clampU (w : Nat) (v : Int) : ElemOut := clampTo w 0 (2 ^ w - 1) v

def clampS (w : Nat) (v : Int) : ElemOut := clampTo w (-(2 ^ (w - 1))) (2 ^ (w - 1) - 1) v

/-- The low log2(w) bits of a shift operand (R148). -/
def shiftBy (w y : Nat) : Nat := y % w

/-- The signed quotient toward zero, with R148 for zero and overflow. -/
def quotS (w x y : Nat) : Int := if y % 2 ^ w = 0 then -1 else (signed w x).tdiv (signed w y)

def remS' (w x y : Nat) : Int := if y % 2 ^ w = 0 then x else (signed w x).tmod (signed w y)

def quotU (w x y : Nat) : Int := if y % 2 ^ w = 0 then 2 ^ w - 1 else ((x / y : Nat) : Int)

def remU' (w x y : Nat) : Int := if y % 2 ^ w = 0 then x else ((x % y : Nat) : Int)

/-- The number of 1 bits among the low w bits. -/
def bitCount (w x : Nat) : Nat := ((List.range w).filter x.testBit).length

/-- `vnclipu` and `vnclip` (R180): a source of twice the width, rounded off and clamped. -/
def clipOp (d b : Reg) (m : BitVec 1) (k : Op1) (sgn : Bool) (s : State) : Out :=
  vInstr k.shape (fun e => do
    let g := lmulOf e.vtype
    let sew := sewOf e.vtype
    vCheck e true (m = 1) ([(d.toNat, g), (b.toNat, 2 * g)] ++ k.groups g) (sew < 64 && 2 * g ≤ 8)
    let v ← vEnv e (m = 1)
    elementWise v (.elems d.toNat sew g) ([.elems b.toNat (2 * sew)] ++ k.srcs sew) fun i =>
      let x := getElem v.st b.toNat (2 * sew) i
      let sh := k.get v sew i % (2 * sew)
      if sgn then clampS sew (roundoff e.xrm (signed (2 * sew) x) sh) else clampU sew (roundoff e.xrm x sh)) s

/-- `vmerge` (R179): every element from vstart to vl − 1 is written, from op1 where the mask bit is 1. -/
def mergeOp (d b : Reg) (k : Op1) (s : State) : Out :=
  vInstr k.shape (fun e => do
    let g := lmulOf e.vtype
    vCheck e true true ([(d.toNat, g), (b.toNat, g)] ++ k.groups g) true
    let v ← vEnv e false
    elementWise v (.elems d.toNat v.sew g) ([.bits 0, .elems b.toNat v.sew] ++ k.srcs v.sew) fun i =>
      plain (if maskBit v.st 0 i then k.get v v.sew i else v.elem b i)) s

/-- `vmv` (R179). -/
def moveOp (d : Reg) (m : BitVec 1) (k : Op1) (s : State) : Out :=
  vInstr k.shape (fun e => do
    let g := lmulOf e.vtype
    vCheck e true (m = 1) ([(d.toNat, g)] ++ k.groups g) true
    let v ← vEnv e (m = 1)
    elementWise v (.elems d.toNat v.sew g) (k.srcs v.sew) fun i => plain (k.get v v.sew i)) s

/-- An integer compare (R175, R182): mask bits into one register; the mask rule holds whatever m is. -/
def compareOp (d b : Reg) (m : BitVec 1) (k : Op1) (f : (w x y : Nat) → Bool) (s : State) : Out :=
  vInstr k.shape (fun e => do
    let g := lmulOf e.vtype
    vCheck e true true ([(d.toNat, 1), (b.toNat, g)] ++ k.groups g) true
    let v ← vEnv e (m = 1)
    elementWise v (.bits d.toNat) ([.elems b.toNat v.sew] ++ k.srcs v.sew) fun i =>
      plain (if f v.sew (v.elem b i) (k.get v v.sew i) then 1 else 0)) s

/-- vadd.vv (R178). -/
def execVaddVv (d a b : BitVec 5) (m : BitVec 1) (s : State) : Out :=
  wrapOp d b m (.vec a) (fun _ x y => (x : Int) + y) s

/-- vadd.vx (R178). -/
def execVaddVx (d a b : BitVec 5) (m : BitVec 1) (s : State) : Out :=
  wrapOp d b m (.scal a) (fun _ x y => (x : Int) + y) s

/-- vadd.vi (R178). -/
def execVaddVi (d a b : BitVec 5) (m : BitVec 1) (s : State) : Out :=
  wrapOp d b m (simm a) (fun _ x y => (x : Int) + y) s

/-- vsub.vv (R178). -/
def execVsubVv (d a b : BitVec 5) (m : BitVec 1) (s : State) : Out :=
  wrapOp d b m (.vec a) (fun _ x y => (x : Int) - y) s

/-- vsub.vx (R178). -/
def execVsubVx (d a b : BitVec 5) (m : BitVec 1) (s : State) : Out :=
  wrapOp d b m (.scal a) (fun _ x y => (x : Int) - y) s

/-- vrsub.vx (R178). -/
def execVrsubVx (d a b : BitVec 5) (m : BitVec 1) (s : State) : Out :=
  wrapOp d b m (.scal a) (fun _ x y => (y : Int) - x) s

/-- vrsub.vi (R178). -/
def execVrsubVi (d a b : BitVec 5) (m : BitVec 1) (s : State) : Out :=
  wrapOp d b m (simm a) (fun _ x y => (y : Int) - x) s

/-- vminu.vv (R178). -/
def execVminuVv (d a b : BitVec 5) (m : BitVec 1) (s : State) : Out :=
  wrapOp d b m (.vec a) (fun _ x y => (min x y : Nat)) s

/-- vminu.vx (R178). -/
def execVminuVx (d a b : BitVec 5) (m : BitVec 1) (s : State) : Out :=
  wrapOp d b m (.scal a) (fun _ x y => (min x y : Nat)) s

/-- vmin.vv (R178). -/
def execVminVv (d a b : BitVec 5) (m : BitVec 1) (s : State) : Out :=
  wrapOp d b m (.vec a) (fun w x y => min (signed w x) (signed w y)) s

/-- vmin.vx (R178). -/
def execVminVx (d a b : BitVec 5) (m : BitVec 1) (s : State) : Out :=
  wrapOp d b m (.scal a) (fun w x y => min (signed w x) (signed w y)) s

/-- vmaxu.vv (R178). -/
def execVmaxuVv (d a b : BitVec 5) (m : BitVec 1) (s : State) : Out :=
  wrapOp d b m (.vec a) (fun _ x y => (max x y : Nat)) s

/-- vmaxu.vx (R178). -/
def execVmaxuVx (d a b : BitVec 5) (m : BitVec 1) (s : State) : Out :=
  wrapOp d b m (.scal a) (fun _ x y => (max x y : Nat)) s

/-- vmax.vv (R178). -/
def execVmaxVv (d a b : BitVec 5) (m : BitVec 1) (s : State) : Out :=
  wrapOp d b m (.vec a) (fun w x y => max (signed w x) (signed w y)) s

/-- vmax.vx (R178). -/
def execVmaxVx (d a b : BitVec 5) (m : BitVec 1) (s : State) : Out :=
  wrapOp d b m (.scal a) (fun w x y => max (signed w x) (signed w y)) s

/-- vand.vv (R178). -/
def execVandVv (d a b : BitVec 5) (m : BitVec 1) (s : State) : Out :=
  wrapOp d b m (.vec a) (fun _ x y => (x &&& y : Nat)) s

/-- vand.vx (R178). -/
def execVandVx (d a b : BitVec 5) (m : BitVec 1) (s : State) : Out :=
  wrapOp d b m (.scal a) (fun _ x y => (x &&& y : Nat)) s

/-- vand.vi (R178). -/
def execVandVi (d a b : BitVec 5) (m : BitVec 1) (s : State) : Out :=
  wrapOp d b m (simm a) (fun _ x y => (x &&& y : Nat)) s

/-- vor.vv (R178). -/
def execVorVv (d a b : BitVec 5) (m : BitVec 1) (s : State) : Out :=
  wrapOp d b m (.vec a) (fun _ x y => (x ||| y : Nat)) s

/-- vor.vx (R178). -/
def execVorVx (d a b : BitVec 5) (m : BitVec 1) (s : State) : Out :=
  wrapOp d b m (.scal a) (fun _ x y => (x ||| y : Nat)) s

/-- vor.vi (R178). -/
def execVorVi (d a b : BitVec 5) (m : BitVec 1) (s : State) : Out :=
  wrapOp d b m (simm a) (fun _ x y => (x ||| y : Nat)) s

/-- vxor.vv (R178). -/
def execVxorVv (d a b : BitVec 5) (m : BitVec 1) (s : State) : Out :=
  wrapOp d b m (.vec a) (fun _ x y => (x ^^^ y : Nat)) s

/-- vxor.vx (R178). -/
def execVxorVx (d a b : BitVec 5) (m : BitVec 1) (s : State) : Out :=
  wrapOp d b m (.scal a) (fun _ x y => (x ^^^ y : Nat)) s

/-- vxor.vi (R178). -/
def execVxorVi (d a b : BitVec 5) (m : BitVec 1) (s : State) : Out :=
  wrapOp d b m (simm a) (fun _ x y => (x ^^^ y : Nat)) s

/-- vsll.vv (R178). -/
def execVsllVv (d a b : BitVec 5) (m : BitVec 1) (s : State) : Out :=
  wrapOp d b m (.vec a) (fun w x y => (x * 2 ^ shiftBy w y : Nat)) s

/-- vsll.vx (R178). -/
def execVsllVx (d a b : BitVec 5) (m : BitVec 1) (s : State) : Out :=
  wrapOp d b m (.scal a) (fun w x y => (x * 2 ^ shiftBy w y : Nat)) s

/-- vsll.vi (R178). -/
def execVsllVi (d a b : BitVec 5) (m : BitVec 1) (s : State) : Out :=
  wrapOp d b m (uimm a) (fun w x y => (x * 2 ^ shiftBy w y : Nat)) s

/-- vsrl.vv (R178). -/
def execVsrlVv (d a b : BitVec 5) (m : BitVec 1) (s : State) : Out :=
  wrapOp d b m (.vec a) (fun w x y => (x / 2 ^ shiftBy w y : Nat)) s

/-- vsrl.vx (R178). -/
def execVsrlVx (d a b : BitVec 5) (m : BitVec 1) (s : State) : Out :=
  wrapOp d b m (.scal a) (fun w x y => (x / 2 ^ shiftBy w y : Nat)) s

/-- vsrl.vi (R178). -/
def execVsrlVi (d a b : BitVec 5) (m : BitVec 1) (s : State) : Out :=
  wrapOp d b m (uimm a) (fun w x y => (x / 2 ^ shiftBy w y : Nat)) s

/-- vsra.vv (R178). -/
def execVsraVv (d a b : BitVec 5) (m : BitVec 1) (s : State) : Out :=
  wrapOp d b m (.vec a) (fun w x y => signed w x / (2 ^ shiftBy w y : Nat)) s

/-- vsra.vx (R178). -/
def execVsraVx (d a b : BitVec 5) (m : BitVec 1) (s : State) : Out :=
  wrapOp d b m (.scal a) (fun w x y => signed w x / (2 ^ shiftBy w y : Nat)) s

/-- vsra.vi (R178). -/
def execVsraVi (d a b : BitVec 5) (m : BitVec 1) (s : State) : Out :=
  wrapOp d b m (uimm a) (fun w x y => signed w x / (2 ^ shiftBy w y : Nat)) s

/-- vmul.vv (R178). -/
def execVmulVv (d a b : BitVec 5) (m : BitVec 1) (s : State) : Out :=
  wrapOp d b m (.vec a) (fun _ x y => (x * y : Nat)) s

/-- vmul.vx (R178). -/
def execVmulVx (d a b : BitVec 5) (m : BitVec 1) (s : State) : Out :=
  wrapOp d b m (.scal a) (fun _ x y => (x * y : Nat)) s

/-- vmulh.vv (R178). -/
def execVmulhVv (d a b : BitVec 5) (m : BitVec 1) (s : State) : Out :=
  wrapOp d b m (.vec a) (fun w x y => signed w x * signed w y / (2 ^ w : Nat)) s

/-- vmulh.vx (R178). -/
def execVmulhVx (d a b : BitVec 5) (m : BitVec 1) (s : State) : Out :=
  wrapOp d b m (.scal a) (fun w x y => signed w x * signed w y / (2 ^ w : Nat)) s

/-- vmulhu.vv (R178). -/
def execVmulhuVv (d a b : BitVec 5) (m : BitVec 1) (s : State) : Out :=
  wrapOp d b m (.vec a) (fun w x y => (x * y / 2 ^ w : Nat)) s

/-- vmulhu.vx (R178). -/
def execVmulhuVx (d a b : BitVec 5) (m : BitVec 1) (s : State) : Out :=
  wrapOp d b m (.scal a) (fun w x y => (x * y / 2 ^ w : Nat)) s

/-- vdivu.vv (R178). -/
def execVdivuVv (d a b : BitVec 5) (m : BitVec 1) (s : State) : Out :=
  wrapOp d b m (.vec a) quotU s

/-- vdivu.vx (R178). -/
def execVdivuVx (d a b : BitVec 5) (m : BitVec 1) (s : State) : Out :=
  wrapOp d b m (.scal a) quotU s

/-- vdiv.vv (R178). -/
def execVdivVv (d a b : BitVec 5) (m : BitVec 1) (s : State) : Out :=
  wrapOp d b m (.vec a) quotS s

/-- vdiv.vx (R178). -/
def execVdivVx (d a b : BitVec 5) (m : BitVec 1) (s : State) : Out :=
  wrapOp d b m (.scal a) quotS s

/-- vremu.vv (R178). -/
def execVremuVv (d a b : BitVec 5) (m : BitVec 1) (s : State) : Out :=
  wrapOp d b m (.vec a) remU' s

/-- vremu.vx (R178). -/
def execVremuVx (d a b : BitVec 5) (m : BitVec 1) (s : State) : Out :=
  wrapOp d b m (.scal a) remU' s

/-- vrem.vv (R178). -/
def execVremVv (d a b : BitVec 5) (m : BitVec 1) (s : State) : Out :=
  wrapOp d b m (.vec a) remS' s

/-- vrem.vx (R178). -/
def execVremVx (d a b : BitVec 5) (m : BitVec 1) (s : State) : Out :=
  wrapOp d b m (.scal a) remS' s

/-- vmacc.vv: d + a × b (R178). -/
def execVmaccVv (d a b : BitVec 5) (m : BitVec 1) (s : State) : Out :=
  intOp d b m (.vec a) true (fun _ w x y o => plain (wrap w (o + x * y : Nat))) s

/-- vmacc.vx: d + a × b (R178). -/
def execVmaccVx (d a b : BitVec 5) (m : BitVec 1) (s : State) : Out :=
  intOp d b m (.scal a) true (fun _ w x y o => plain (wrap w (o + x * y : Nat))) s

/-- vsaddu.vv (R180). -/
def execVsadduVv (d a b : BitVec 5) (m : BitVec 1) (s : State) : Out :=
  intOp d b m (.vec a) false (fun _ w x y _ => clampU w (x + y)) s

/-- vsaddu.vx (R180). -/
def execVsadduVx (d a b : BitVec 5) (m : BitVec 1) (s : State) : Out :=
  intOp d b m (.scal a) false (fun _ w x y _ => clampU w (x + y)) s

/-- vsaddu.vi (R180). -/
def execVsadduVi (d a b : BitVec 5) (m : BitVec 1) (s : State) : Out :=
  intOp d b m (simm a) false (fun _ w x y _ => clampU w (x + y)) s

/-- vsadd.vv (R180). -/
def execVsaddVv (d a b : BitVec 5) (m : BitVec 1) (s : State) : Out :=
  intOp d b m (.vec a) false (fun _ w x y _ => clampS w (signed w x + signed w y)) s

/-- vsadd.vx (R180). -/
def execVsaddVx (d a b : BitVec 5) (m : BitVec 1) (s : State) : Out :=
  intOp d b m (.scal a) false (fun _ w x y _ => clampS w (signed w x + signed w y)) s

/-- vsadd.vi (R180). -/
def execVsaddVi (d a b : BitVec 5) (m : BitVec 1) (s : State) : Out :=
  intOp d b m (simm a) false (fun _ w x y _ => clampS w (signed w x + signed w y)) s

/-- vssubu.vv (R180). -/
def execVssubuVv (d a b : BitVec 5) (m : BitVec 1) (s : State) : Out :=
  intOp d b m (.vec a) false (fun _ w x y _ => clampU w ((x : Int) - y)) s

/-- vssubu.vx (R180). -/
def execVssubuVx (d a b : BitVec 5) (m : BitVec 1) (s : State) : Out :=
  intOp d b m (.scal a) false (fun _ w x y _ => clampU w ((x : Int) - y)) s

/-- vssub.vv (R180). -/
def execVssubVv (d a b : BitVec 5) (m : BitVec 1) (s : State) : Out :=
  intOp d b m (.vec a) false (fun _ w x y _ => clampS w (signed w x - signed w y)) s

/-- vssub.vx (R180). -/
def execVssubVx (d a b : BitVec 5) (m : BitVec 1) (s : State) : Out :=
  intOp d b m (.scal a) false (fun _ w x y _ => clampS w (signed w x - signed w y)) s

/-- vnclipu.vv (R180). -/
def execVnclipuVv (d a b : BitVec 5) (m : BitVec 1) (s : State) : Out :=
  clipOp d b m (.vec a) false s

/-- vnclipu.vx (R180). -/
def execVnclipuVx (d a b : BitVec 5) (m : BitVec 1) (s : State) : Out :=
  clipOp d b m (.scal a) false s

/-- vnclipu.vi (R180). -/
def execVnclipuVi (d a b : BitVec 5) (m : BitVec 1) (s : State) : Out :=
  clipOp d b m (uimm a) false s

/-- vnclip.vv (R180). -/
def execVnclipVv (d a b : BitVec 5) (m : BitVec 1) (s : State) : Out :=
  clipOp d b m (.vec a) true s

/-- vnclip.vx (R180). -/
def execVnclipVx (d a b : BitVec 5) (m : BitVec 1) (s : State) : Out :=
  clipOp d b m (.scal a) true s

/-- vnclip.vi (R180). -/
def execVnclipVi (d a b : BitVec 5) (m : BitVec 1) (s : State) : Out :=
  clipOp d b m (uimm a) true s

/-- vcvti: integer width conversion (R181); `n` 1 reads the source signed, w is its width code. -/
def execVcvti (d b : BitVec 5) (m n : BitVec 1) (w : BitVec 3) (s : State) : Out :=
  vInstr noRegs (fun e => do
    let g := lmulOf e.vtype
    let sw := 2 ^ w.toNat
    let v ← vEnv e (m = 1)
    let gs := groupFor v sw
    vCheck e (w ≠ 7) (m = 1) [(d.toNat, g), (b.toNat, gs)] (gs ≤ 8)
    elementWise v (.elems d.toNat v.sew g) [.elems b.toNat sw] fun i =>
      let x := getElem v.st b.toNat sw i
      plain (wrap v.sew (if n = 1 then signed sw x else x))) s

/-- vmerge.vv (R179). -/
def execVmergeVv (d a b : BitVec 5) (s : State) : Out :=
  mergeOp d b (.vec a) s

/-- vmerge.vx (R179). -/
def execVmergeVx (d a b : BitVec 5) (s : State) : Out :=
  mergeOp d b (.scal a) s

/-- vmerge.vi (R179). -/
def execVmergeVi (d a b : BitVec 5) (s : State) : Out :=
  mergeOp d b (simm a) s

/-- vmv.vv (R179). -/
def execVmvVv (d a : BitVec 5) (m : BitVec 1) (s : State) : Out :=
  moveOp d m (.vec a) s

/-- vmv.vx (R179). -/
def execVmvVx (d a : BitVec 5) (m : BitVec 1) (s : State) : Out :=
  moveOp d m (.scal a) s

/-- vmv.vi (R179). -/
def execVmvVi (d a : BitVec 5) (m : BitVec 1) (s : State) : Out :=
  moveOp d m (simm a) s

/-- vabs (R178). -/
def execVabs (d b : BitVec 5) (m : BitVec 1) (s : State) : Out :=
  wrapOp d b m (.imm 0) (fun w x _ => ((signed w x).natAbs : Nat)) s

/-- vbcnt (R178). -/
def execVbcnt (d b : BitVec 5) (m : BitVec 1) (s : State) : Out :=
  wrapOp d b m (.imm 0) (fun w x _ => (bitCount w x : Nat)) s

/-- vmseq.vv (R182). -/
def execVmseqVv (d a b : BitVec 5) (m : BitVec 1) (s : State) : Out :=
  compareOp d b m (.vec a) (fun _ x y => x = y) s

/-- vmseq.vx (R182). -/
def execVmseqVx (d a b : BitVec 5) (m : BitVec 1) (s : State) : Out :=
  compareOp d b m (.scal a) (fun _ x y => x = y) s

/-- vmseq.vi (R182). -/
def execVmseqVi (d a b : BitVec 5) (m : BitVec 1) (s : State) : Out :=
  compareOp d b m (simm a) (fun _ x y => x = y) s

/-- vmsne.vv (R182). -/
def execVmsneVv (d a b : BitVec 5) (m : BitVec 1) (s : State) : Out :=
  compareOp d b m (.vec a) (fun _ x y => x ≠ y) s

/-- vmsne.vx (R182). -/
def execVmsneVx (d a b : BitVec 5) (m : BitVec 1) (s : State) : Out :=
  compareOp d b m (.scal a) (fun _ x y => x ≠ y) s

/-- vmsne.vi (R182). -/
def execVmsneVi (d a b : BitVec 5) (m : BitVec 1) (s : State) : Out :=
  compareOp d b m (simm a) (fun _ x y => x ≠ y) s

/-- vmsltu.vv (R182). -/
def execVmsltuVv (d a b : BitVec 5) (m : BitVec 1) (s : State) : Out :=
  compareOp d b m (.vec a) (fun _ x y => x < y) s

/-- vmsltu.vx (R182). -/
def execVmsltuVx (d a b : BitVec 5) (m : BitVec 1) (s : State) : Out :=
  compareOp d b m (.scal a) (fun _ x y => x < y) s

/-- vmslt.vv (R182). -/
def execVmsltVv (d a b : BitVec 5) (m : BitVec 1) (s : State) : Out :=
  compareOp d b m (.vec a) (fun w x y => signed w x < signed w y) s

/-- vmslt.vx (R182). -/
def execVmsltVx (d a b : BitVec 5) (m : BitVec 1) (s : State) : Out :=
  compareOp d b m (.scal a) (fun w x y => signed w x < signed w y) s

/-- vmsleu.vv (R182). -/
def execVmsleuVv (d a b : BitVec 5) (m : BitVec 1) (s : State) : Out :=
  compareOp d b m (.vec a) (fun _ x y => x ≤ y) s

/-- vmsleu.vx (R182). -/
def execVmsleuVx (d a b : BitVec 5) (m : BitVec 1) (s : State) : Out :=
  compareOp d b m (.scal a) (fun _ x y => x ≤ y) s

/-- vmsleu.vi (R182). -/
def execVmsleuVi (d a b : BitVec 5) (m : BitVec 1) (s : State) : Out :=
  compareOp d b m (simm a) (fun _ x y => x ≤ y) s

/-- vmsle.vv (R182). -/
def execVmsleVv (d a b : BitVec 5) (m : BitVec 1) (s : State) : Out :=
  compareOp d b m (.vec a) (fun w x y => signed w x ≤ signed w y) s

/-- vmsle.vx (R182). -/
def execVmsleVx (d a b : BitVec 5) (m : BitVec 1) (s : State) : Out :=
  compareOp d b m (.scal a) (fun w x y => signed w x ≤ signed w y) s

/-- vmsle.vi (R182). -/
def execVmsleVi (d a b : BitVec 5) (m : BitVec 1) (s : State) : Out :=
  compareOp d b m (simm a) (fun w x y => signed w x ≤ signed w y) s

/-- vmsgtu.vv (R182). -/
def execVmsgtuVv (d a b : BitVec 5) (m : BitVec 1) (s : State) : Out :=
  compareOp d b m (.vec a) (fun _ x y => y < x) s

/-- vmsgtu.vx (R182). -/
def execVmsgtuVx (d a b : BitVec 5) (m : BitVec 1) (s : State) : Out :=
  compareOp d b m (.scal a) (fun _ x y => y < x) s

/-- vmsgtu.vi (R182). -/
def execVmsgtuVi (d a b : BitVec 5) (m : BitVec 1) (s : State) : Out :=
  compareOp d b m (simm a) (fun _ x y => y < x) s

/-- vmsgt.vv (R182). -/
def execVmsgtVv (d a b : BitVec 5) (m : BitVec 1) (s : State) : Out :=
  compareOp d b m (.vec a) (fun w x y => signed w y < signed w x) s

/-- vmsgt.vx (R182). -/
def execVmsgtVx (d a b : BitVec 5) (m : BitVec 1) (s : State) : Out :=
  compareOp d b m (.scal a) (fun w x y => signed w y < signed w x) s

/-- vmsgt.vi (R182). -/
def execVmsgtVi (d a b : BitVec 5) (m : BitVec 1) (s : State) : Out :=
  compareOp d b m (simm a) (fun w x y => signed w y < signed w x) s

end Sys2Proof.Machine
end

