-- ==== Sys2Proof/Machine/VecWindow.lean ====
section
/-! DEFINITION. The window operations (R212 to R215): search, dot product and top-k over rows of SRAM. -/

namespace Sys2Proof.Machine

/-- The fields of `wcfg` (R63). -/
structure WCfg where
  off : Nat
  len : Nat
  wcode : Nat
  typ : Nat
  deriving DecidableEq, Repr

def wcfgOf (c : Nat) : WCfg :=
  { off := natBits c 7 0, len := natBits c 15 8 + 1, wcode := natBits c 18 16, typ := natBits c 21 19 }

def WCfg.width (c : WCfg) : Nat := codedWidth (BitVec.ofNat 3 c.wcode)

/-- No reserved width or type code (R63). -/
def WCfg.legal (c : WCfg) : Bool := c.wcode < 6 && c.typ < 5

/-- The checks of R213: values, mask rule and groups in the order of R68, the field of R63 with subcode 4, and
the combination. -/
def windowCheck (e : VEntry) (c : WCfg) (value mask : Bool) (groups : List (Nat × Nat)) (combo : Bool) : Act Unit := do
  vCheck e value mask groups true
  require (c.off + c.len ≤ 256) 4
  require (c.legal && combo) 5

/-- The address of a window row (R212). -/
def windowAddr (e : VEntry) (j : Nat) : Nat := (e.a.toNat + 256 * j) % 2 ^ 64

/-- Every row below vl lies in SRAM that the strand may read, checked before any effect (R213). Of a row in HBM whose
key slot the context does not own, KEYISO is raised and not ACC: the spec leaves their order open (DESIGN CHOICE, log
79). -/
def windowProbe (e : VEntry) (p : Port) : Act Unit := do
  checkAlign e.a.toNat 256
  (List.range e.vl).forM fun j => mapTrap (fun t => { t with telem := BitVec.ofNat 32 j }) do
    let addr := windowAddr e j
    spaceProbe p e.mtype.toNat addr 256 false true
    if e.mtype.toNat = 0 then
      let pl ← translate p addr .load
      match regionOf pl.pa with
      | .sram _ => pure ()
      | _ => raise causeAcc addr

/-- The field of each active row (R212, R215), with padding where an element would pass the row's end, which the spec
does not give. A poisoned field is reported at the address of its row (R195; DESIGN CHOICE, log 111). -/
def windowRows (v : VEnv) (p : Port) (c : WCfg) : Act (List (Nat × Nat)) := do
  let pad ← freeWordM
  let n := max c.len (accBytes c.width)
  let k := min n (256 - c.off)
  v.actives.mapM fun j => wholeStop j do
    let addr := windowAddr v.e j
    let pl ← spaceAccess p v.e.mtype.toNat (addr + c.off) k true false false
    let s ← getS
    if placePoisoned s pl k then raisePoison p pl.pa addr
    let bs ← readPlace pl k
    pure (j, leNat ((bs ++ leBytes 8 pad.toNat).take n))

/-- A window operation with a scalar operand whose result is a mask. -/
def windowMask (d a b : Reg) (m : BitVec 1) (value : VEntry → Bool) (combo : VEntry → WCfg → Bool)
    (f : VEnv → WCfg → List (Nat × Nat) → List (Nat × Nat)) (s : State) : Out :=
  vInstr { r1 := some a, r2 := some b, seed := fun _ => false, csr := fun _ => .wcfg } (fun e => do
    let c := wcfgOf e.csr.toNat
    windowCheck e c (wholeVector e && value e) true [(d.toNat, 1)] (c.width < 64 && combo e c)
    unlessEmpty e do
      let v ← vEnv e (m = 1)
      let p := strandPort v.st 2
      windowProbe e p
      wholePoison v []
      let rows ← windowRows v p c
      putDst v (.bits d.toNat) (f v c rows)) s

/-- Element l of a field, of w bits. -/
def fieldElem (x w l : Nat) : Nat := natBits x (l * w + w - 1) (l * w)

/-- WSRCH (R214). -/
def execWsrch (d a b : BitVec 5) (_t : BitVec 3) (m : BitVec 1) (s : State) : Out :=
  windowMask d a b m (fun _ => true) (fun _ _ => true) (fun v c rows =>
    let key := v.e.b.toNat % 2 ^ 32 % 2 ^ c.width
    let care := v.e.b.toNat / 2 ^ 32 % 2 ^ c.width
    wholeWrites v fun j =>
      let x := fieldElem (((rows.find? fun r => r.1 = j).map (·.2)).getD 0) c.width 0
      if (x ^^^ key) &&& care = 0 then 1 else 0) s

/-- WTOPK (R214): the selection of R203 by element 0 of each row; every bit below vl is written. -/
def execWtopk (d a b : BitVec 5) (_t : BitVec 3) (m : BitVec 1) (s : State) : Out :=
  windowMask d a b m (fun e => topOperandOk e.b.toNat)
    (fun e c => natBits e.b.toNat 34 33 ≠ 2 || ((c.typ = 2 || c.typ = 3) && (fmtOf (c.typ - 1) c.width).isSome))
    (fun v c rows =>
      let sel := topSelect c.width v.e.b.toNat (rows.map fun r => (r.1, fieldElem r.2 c.width 0))
      ((List.range v.e.vl).map fun i => (i, if sel.contains i then 1 else 0)) ++ tailFrom v v.e.vl) s

/-- Types and widths that `wdot` takes (R214). -/
def wdotOk (c : WCfg) : Bool :=
  (c.typ < 2 && (c.width = 4 || c.width = 8 || c.width = 16)) || (c.typ = 4 && c.width = 1)

/-- The dot product of a field and a query (R214). -/
def wdotRow (c : WCfg) (x : Nat) (q : Nat → Nat) : Nat :=
  let w := c.width
  let n := 8 * c.len / w
  if c.typ = 4 then ((List.range n).filter fun l => fieldElem x w l ≠ q l % 2).length
  else
    let val (y : Nat) : Int := if c.typ = 1 then signed w y else (y % 2 ^ w : Nat)
    wrap 32 ((List.range n).map fun l => val (fieldElem x w l) * val (q l)).sum

/-- WDOT (R214); `b` is the query. Query elements beyond the group are free values: the spec gives none. -/
def execWdot (d a b : BitVec 5) (_t : BitVec 3) (m : BitVec 1) (s : State) : Out :=
  vInstr { r1 := some a, r2 := none, seed := fun _ => false, csr := fun _ => .wcfg } (fun e => do
    let c := wcfgOf e.csr.toNat
    let g := lmulOf e.vtype
    windowCheck e c (wholeVector e) (m = 1) [(d.toNat, g), (b.toNat, g)]
      (natBits e.vtype.toNat 7 6 = 0 && sewOf e.vtype = 32 && wdotOk c)
    unlessEmpty e do
      let v ← vEnv e (m = 1)
      let p := strandPort v.st 2
      windowProbe e p
      let n := 8 * c.len / c.width
      let bad := (List.range (min n v.vmax)).any fun l => (Src.elems b.toNat 32).poisoned v.st l
      wholePoison v []
      match v.actives, bad with
      | i :: _, true => lanePoison i
      | _, _ => pure ()
      let rows ← windowRows v p c
      let free ← freeWordM
      let q (l : Nat) : Nat := if l < v.vmax then v.elem b l else (Config.freeWord (free.toNat + l)).toNat
      putDst v (.elems d.toNat 32 g) (wholeWrites v fun j =>
        wdotRow c (((rows.find? fun r => r.1 = j).map (·.2)).getD 0) q)) s

end Sys2Proof.Machine
end

