-- ==== Sys2Proof/Machine/Dispatch.lean ====
section
/-! DEFINITION. The one match on an instruction: each arm calls the instruction's meaning. -/

namespace Sys2Proof.Machine

def exec (i : Instr) (s : State) : Host.Outcome State Fault Refusal :=
  match i with
  | .lui d im => Sys2Proof.Machine.execLui d im s
  | .auipc d im => Sys2Proof.Machine.execAuipc d im s
  | .jal d im => Sys2Proof.Machine.execJal d im s
  | .jalr d a im => Sys2Proof.Machine.execJalr d a im s
  | .beq a b im => Sys2Proof.Machine.execBeq a b im s
  | .bne a b im => Sys2Proof.Machine.execBne a b im s
  | .blt a b im => Sys2Proof.Machine.execBlt a b im s
  | .bge a b im => Sys2Proof.Machine.execBge a b im s
  | .bltu a b im => Sys2Proof.Machine.execBltu a b im s
  | .bgeu a b im => Sys2Proof.Machine.execBgeu a b im s
  | .lb d a im => Sys2Proof.Machine.execLb d a im s
  | .lh d a im => Sys2Proof.Machine.execLh d a im s
  | .lw d a im => Sys2Proof.Machine.execLw d a im s
  | .ld d a im => Sys2Proof.Machine.execLd d a im s
  | .lbu d a im => Sys2Proof.Machine.execLbu d a im s
  | .lhu d a im => Sys2Proof.Machine.execLhu d a im s
  | .lwu d a im => Sys2Proof.Machine.execLwu d a im s
  | .sb a b im => Sys2Proof.Machine.execSb a b im s
  | .sh a b im => Sys2Proof.Machine.execSh a b im s
  | .sw a b im => Sys2Proof.Machine.execSw a b im s
  | .sd a b im => Sys2Proof.Machine.execSd a b im s
  | .addi d a im => Sys2Proof.Machine.execAddi d a im s
  | .slti d a im => Sys2Proof.Machine.execSlti d a im s
  | .sltiu d a im => Sys2Proof.Machine.execSltiu d a im s
  | .xori d a im => Sys2Proof.Machine.execXori d a im s
  | .ori d a im => Sys2Proof.Machine.execOri d a im s
  | .andi d a im => Sys2Proof.Machine.execAndi d a im s
  | .slli d a h => Sys2Proof.Machine.execSlli d a h s
  | .srli d a h => Sys2Proof.Machine.execSrli d a h s
  | .srai d a h => Sys2Proof.Machine.execSrai d a h s
  | .add d a b => Sys2Proof.Machine.execAdd d a b s
  | .sub d a b => Sys2Proof.Machine.execSub d a b s
  | .sll d a b => Sys2Proof.Machine.execSll d a b s
  | .slt d a b => Sys2Proof.Machine.execSlt d a b s
  | .sltu d a b => Sys2Proof.Machine.execSltu d a b s
  | .xor d a b => Sys2Proof.Machine.execXor d a b s
  | .srl d a b => Sys2Proof.Machine.execSrl d a b s
  | .sra d a b => Sys2Proof.Machine.execSra d a b s
  | .or d a b => Sys2Proof.Machine.execOr d a b s
  | .and d a b => Sys2Proof.Machine.execAnd d a b s
  | .addiw d a im => Sys2Proof.Machine.execAddiw d a im s
  | .slliw d a h => Sys2Proof.Machine.execSlliw d a h s
  | .srliw d a h => Sys2Proof.Machine.execSrliw d a h s
  | .sraiw d a h => Sys2Proof.Machine.execSraiw d a h s
  | .addw d a b => Sys2Proof.Machine.execAddw d a b s
  | .subw d a b => Sys2Proof.Machine.execSubw d a b s
  | .sllw d a b => Sys2Proof.Machine.execSllw d a b s
  | .srlw d a b => Sys2Proof.Machine.execSrlw d a b s
  | .sraw d a b => Sys2Proof.Machine.execSraw d a b s
  | .mul d a b => Sys2Proof.Machine.execMul d a b s
  | .mulh d a b => Sys2Proof.Machine.execMulh d a b s
  | .mulhsu d a b => Sys2Proof.Machine.execMulhsu d a b s
  | .mulhu d a b => Sys2Proof.Machine.execMulhu d a b s
  | .div d a b => Sys2Proof.Machine.execDiv d a b s
  | .divu d a b => Sys2Proof.Machine.execDivu d a b s
  | .rem d a b => Sys2Proof.Machine.execRem d a b s
  | .remu d a b => Sys2Proof.Machine.execRemu d a b s
  | .mulw d a b => Sys2Proof.Machine.execMulw d a b s
  | .divw d a b => Sys2Proof.Machine.execDivw d a b s
  | .divuw d a b => Sys2Proof.Machine.execDivuw d a b s
  | .remw d a b => Sys2Proof.Machine.execRemw d a b s
  | .remuw d a b => Sys2Proof.Machine.execRemuw d a b s
  | .lrW d a q l => Sys2Proof.Machine.execLrW d a q l s
  | .lrD d a q l => Sys2Proof.Machine.execLrD d a q l s
  | .scW d a b q l => Sys2Proof.Machine.execScW d a b q l s
  | .scD d a b q l => Sys2Proof.Machine.execScD d a b q l s
  | .amoswapW d a b q l => Sys2Proof.Machine.execAmoswapW d a b q l s
  | .amoaddW d a b q l => Sys2Proof.Machine.execAmoaddW d a b q l s
  | .amoxorW d a b q l => Sys2Proof.Machine.execAmoxorW d a b q l s
  | .amoandW d a b q l => Sys2Proof.Machine.execAmoandW d a b q l s
  | .amoorW d a b q l => Sys2Proof.Machine.execAmoorW d a b q l s
  | .amominW d a b q l => Sys2Proof.Machine.execAmominW d a b q l s
  | .amomaxW d a b q l => Sys2Proof.Machine.execAmomaxW d a b q l s
  | .amominuW d a b q l => Sys2Proof.Machine.execAmominuW d a b q l s
  | .amomaxuW d a b q l => Sys2Proof.Machine.execAmomaxuW d a b q l s
  | .amoswapD d a b q l => Sys2Proof.Machine.execAmoswapD d a b q l s
  | .amoaddD d a b q l => Sys2Proof.Machine.execAmoaddD d a b q l s
  | .amoxorD d a b q l => Sys2Proof.Machine.execAmoxorD d a b q l s
  | .amoandD d a b q l => Sys2Proof.Machine.execAmoandD d a b q l s
  | .amoorD d a b q l => Sys2Proof.Machine.execAmoorD d a b q l s
  | .amominD d a b q l => Sys2Proof.Machine.execAmominD d a b q l s
  | .amomaxD d a b q l => Sys2Proof.Machine.execAmomaxD d a b q l s
  | .amominuD d a b q l => Sys2Proof.Machine.execAmominuD d a b q l s
  | .amomaxuD d a b q l => Sys2Proof.Machine.execAmomaxuD d a b q l s
  | .fence f p ss => Sys2Proof.Machine.execFence f p ss s
  | .fenceTso => Sys2Proof.Machine.execFenceTso s
  | .ecall => Sys2Proof.Machine.execEcall s
  | .ebreak => Sys2Proof.Machine.execEbreak s
  | .csrrw d a c => Sys2Proof.Machine.execCsrrw d a c s
  | .csrrs d a c => Sys2Proof.Machine.execCsrrs d a c s
  | .csrrc d a c => Sys2Proof.Machine.execCsrrc d a c s
  | .csrrwi d c u => Sys2Proof.Machine.execCsrrwi d c u s
  | .csrrsi d c u => Sys2Proof.Machine.execCsrrsi d c u s
  | .csrrci d c u => Sys2Proof.Machine.execCsrrci d c u s
  | .flagCsrAccess sat wr d => Sys2Proof.Machine.execFlagCsrAccess sat wr d s
  | .vstartWrite v => Sys2Proof.Machine.execVstartWrite v s
  | .vfrmWrite v => Sys2Proof.Machine.execVfrmWrite v s
  | .dwdataAccess wr d => Sys2Proof.Machine.execDwdataAccess wr d s
  | .dwdataiAccess wr d => Sys2Proof.Machine.execDwdataiAccess wr d s
  | .vaddVv d a b m => Sys2Proof.Machine.execVaddVv d a b m s
  | .vaddVx d a b m => Sys2Proof.Machine.execVaddVx d a b m s
  | .vaddVi d a b m => Sys2Proof.Machine.execVaddVi d a b m s
  | .vsubVv d a b m => Sys2Proof.Machine.execVsubVv d a b m s
  | .vsubVx d a b m => Sys2Proof.Machine.execVsubVx d a b m s
  | .vrsubVx d a b m => Sys2Proof.Machine.execVrsubVx d a b m s
  | .vrsubVi d a b m => Sys2Proof.Machine.execVrsubVi d a b m s
  | .vminuVv d a b m => Sys2Proof.Machine.execVminuVv d a b m s
  | .vminuVx d a b m => Sys2Proof.Machine.execVminuVx d a b m s
  | .vminVv d a b m => Sys2Proof.Machine.execVminVv d a b m s
  | .vminVx d a b m => Sys2Proof.Machine.execVminVx d a b m s
  | .vmaxuVv d a b m => Sys2Proof.Machine.execVmaxuVv d a b m s
  | .vmaxuVx d a b m => Sys2Proof.Machine.execVmaxuVx d a b m s
  | .vmaxVv d a b m => Sys2Proof.Machine.execVmaxVv d a b m s
  | .vmaxVx d a b m => Sys2Proof.Machine.execVmaxVx d a b m s
  | .vandVv d a b m => Sys2Proof.Machine.execVandVv d a b m s
  | .vandVx d a b m => Sys2Proof.Machine.execVandVx d a b m s
  | .vandVi d a b m => Sys2Proof.Machine.execVandVi d a b m s
  | .vorVv d a b m => Sys2Proof.Machine.execVorVv d a b m s
  | .vorVx d a b m => Sys2Proof.Machine.execVorVx d a b m s
  | .vorVi d a b m => Sys2Proof.Machine.execVorVi d a b m s
  | .vxorVv d a b m => Sys2Proof.Machine.execVxorVv d a b m s
  | .vxorVx d a b m => Sys2Proof.Machine.execVxorVx d a b m s
  | .vxorVi d a b m => Sys2Proof.Machine.execVxorVi d a b m s
  | .vsllVv d a b m => Sys2Proof.Machine.execVsllVv d a b m s
  | .vsllVx d a b m => Sys2Proof.Machine.execVsllVx d a b m s
  | .vsllVi d a b m => Sys2Proof.Machine.execVsllVi d a b m s
  | .vsrlVv d a b m => Sys2Proof.Machine.execVsrlVv d a b m s
  | .vsrlVx d a b m => Sys2Proof.Machine.execVsrlVx d a b m s
  | .vsrlVi d a b m => Sys2Proof.Machine.execVsrlVi d a b m s
  | .vsraVv d a b m => Sys2Proof.Machine.execVsraVv d a b m s
  | .vsraVx d a b m => Sys2Proof.Machine.execVsraVx d a b m s
  | .vsraVi d a b m => Sys2Proof.Machine.execVsraVi d a b m s
  | .vmulVv d a b m => Sys2Proof.Machine.execVmulVv d a b m s
  | .vmulVx d a b m => Sys2Proof.Machine.execVmulVx d a b m s
  | .vmulhVv d a b m => Sys2Proof.Machine.execVmulhVv d a b m s
  | .vmulhVx d a b m => Sys2Proof.Machine.execVmulhVx d a b m s
  | .vmulhuVv d a b m => Sys2Proof.Machine.execVmulhuVv d a b m s
  | .vmulhuVx d a b m => Sys2Proof.Machine.execVmulhuVx d a b m s
  | .vdivuVv d a b m => Sys2Proof.Machine.execVdivuVv d a b m s
  | .vdivuVx d a b m => Sys2Proof.Machine.execVdivuVx d a b m s
  | .vdivVv d a b m => Sys2Proof.Machine.execVdivVv d a b m s
  | .vdivVx d a b m => Sys2Proof.Machine.execVdivVx d a b m s
  | .vremuVv d a b m => Sys2Proof.Machine.execVremuVv d a b m s
  | .vremuVx d a b m => Sys2Proof.Machine.execVremuVx d a b m s
  | .vremVv d a b m => Sys2Proof.Machine.execVremVv d a b m s
  | .vremVx d a b m => Sys2Proof.Machine.execVremVx d a b m s
  | .vmaccVv d a b m => Sys2Proof.Machine.execVmaccVv d a b m s
  | .vmaccVx d a b m => Sys2Proof.Machine.execVmaccVx d a b m s
  | .vsadduVv d a b m => Sys2Proof.Machine.execVsadduVv d a b m s
  | .vsadduVx d a b m => Sys2Proof.Machine.execVsadduVx d a b m s
  | .vsadduVi d a b m => Sys2Proof.Machine.execVsadduVi d a b m s
  | .vsaddVv d a b m => Sys2Proof.Machine.execVsaddVv d a b m s
  | .vsaddVx d a b m => Sys2Proof.Machine.execVsaddVx d a b m s
  | .vsaddVi d a b m => Sys2Proof.Machine.execVsaddVi d a b m s
  | .vssubuVv d a b m => Sys2Proof.Machine.execVssubuVv d a b m s
  | .vssubuVx d a b m => Sys2Proof.Machine.execVssubuVx d a b m s
  | .vssubVv d a b m => Sys2Proof.Machine.execVssubVv d a b m s
  | .vssubVx d a b m => Sys2Proof.Machine.execVssubVx d a b m s
  | .vnclipuVv d a b m => Sys2Proof.Machine.execVnclipuVv d a b m s
  | .vnclipuVx d a b m => Sys2Proof.Machine.execVnclipuVx d a b m s
  | .vnclipuVi d a b m => Sys2Proof.Machine.execVnclipuVi d a b m s
  | .vnclipVv d a b m => Sys2Proof.Machine.execVnclipVv d a b m s
  | .vnclipVx d a b m => Sys2Proof.Machine.execVnclipVx d a b m s
  | .vnclipVi d a b m => Sys2Proof.Machine.execVnclipVi d a b m s
  | .vcvti d b m ss w => Sys2Proof.Machine.execVcvti d b m ss w s
  | .vmergeVv d a b => Sys2Proof.Machine.execVmergeVv d a b s
  | .vmergeVx d a b => Sys2Proof.Machine.execVmergeVx d a b s
  | .vmergeVi d a b => Sys2Proof.Machine.execVmergeVi d a b s
  | .vmvVv d a m => Sys2Proof.Machine.execVmvVv d a m s
  | .vmvVx d a m => Sys2Proof.Machine.execVmvVx d a m s
  | .vmvVi d a m => Sys2Proof.Machine.execVmvVi d a m s
  | .vabs d b m => Sys2Proof.Machine.execVabs d b m s
  | .vbcnt d b m => Sys2Proof.Machine.execVbcnt d b m s
  | .vmseqVv d a b m => Sys2Proof.Machine.execVmseqVv d a b m s
  | .vmseqVx d a b m => Sys2Proof.Machine.execVmseqVx d a b m s
  | .vmseqVi d a b m => Sys2Proof.Machine.execVmseqVi d a b m s
  | .vmsneVv d a b m => Sys2Proof.Machine.execVmsneVv d a b m s
  | .vmsneVx d a b m => Sys2Proof.Machine.execVmsneVx d a b m s
  | .vmsneVi d a b m => Sys2Proof.Machine.execVmsneVi d a b m s
  | .vmsltuVv d a b m => Sys2Proof.Machine.execVmsltuVv d a b m s
  | .vmsltuVx d a b m => Sys2Proof.Machine.execVmsltuVx d a b m s
  | .vmsltVv d a b m => Sys2Proof.Machine.execVmsltVv d a b m s
  | .vmsltVx d a b m => Sys2Proof.Machine.execVmsltVx d a b m s
  | .vmsleuVv d a b m => Sys2Proof.Machine.execVmsleuVv d a b m s
  | .vmsleuVx d a b m => Sys2Proof.Machine.execVmsleuVx d a b m s
  | .vmsleuVi d a b m => Sys2Proof.Machine.execVmsleuVi d a b m s
  | .vmsleVv d a b m => Sys2Proof.Machine.execVmsleVv d a b m s
  | .vmsleVx d a b m => Sys2Proof.Machine.execVmsleVx d a b m s
  | .vmsleVi d a b m => Sys2Proof.Machine.execVmsleVi d a b m s
  | .vmsgtuVv d a b m => Sys2Proof.Machine.execVmsgtuVv d a b m s
  | .vmsgtuVx d a b m => Sys2Proof.Machine.execVmsgtuVx d a b m s
  | .vmsgtuVi d a b m => Sys2Proof.Machine.execVmsgtuVi d a b m s
  | .vmsgtVv d a b m => Sys2Proof.Machine.execVmsgtVv d a b m s
  | .vmsgtVx d a b m => Sys2Proof.Machine.execVmsgtVx d a b m s
  | .vmsgtVi d a b m => Sys2Proof.Machine.execVmsgtVi d a b m s
  | .vfaddVv d a b m => Sys2Proof.Machine.execVfaddVv d a b m s
  | .vfaddVf d a b m => Sys2Proof.Machine.execVfaddVf d a b m s
  | .vfsubVv d a b m => Sys2Proof.Machine.execVfsubVv d a b m s
  | .vfsubVf d a b m => Sys2Proof.Machine.execVfsubVf d a b m s
  | .vfrsubVf d a b m => Sys2Proof.Machine.execVfrsubVf d a b m s
  | .vfmulVv d a b m => Sys2Proof.Machine.execVfmulVv d a b m s
  | .vfmulVf d a b m => Sys2Proof.Machine.execVfmulVf d a b m s
  | .vfmaccVv d a b m => Sys2Proof.Machine.execVfmaccVv d a b m s
  | .vfmaccVf d a b m => Sys2Proof.Machine.execVfmaccVf d a b m s
  | .vfnmsacVv d a b m => Sys2Proof.Machine.execVfnmsacVv d a b m s
  | .vfnmsacVf d a b m => Sys2Proof.Machine.execVfnmsacVf d a b m s
  | .vfminVv d a b m => Sys2Proof.Machine.execVfminVv d a b m s
  | .vfminVf d a b m => Sys2Proof.Machine.execVfminVf d a b m s
  | .vfmaxVv d a b m => Sys2Proof.Machine.execVfmaxVv d a b m s
  | .vfmaxVf d a b m => Sys2Proof.Machine.execVfmaxVf d a b m s
  | .vfsgnjVv d a b m => Sys2Proof.Machine.execVfsgnjVv d a b m s
  | .vfsgnjVf d a b m => Sys2Proof.Machine.execVfsgnjVf d a b m s
  | .vfsgnjnVv d a b m => Sys2Proof.Machine.execVfsgnjnVv d a b m s
  | .vfsgnjnVf d a b m => Sys2Proof.Machine.execVfsgnjnVf d a b m s
  | .vfsgnjxVv d a b m => Sys2Proof.Machine.execVfsgnjxVv d a b m s
  | .vfsgnjxVf d a b m => Sys2Proof.Machine.execVfsgnjxVf d a b m s
  | .vfrcp d b m => Sys2Proof.Machine.execVfrcp d b m s
  | .vfrsqrt d b m => Sys2Proof.Machine.execVfrsqrt d b m s
  | .vfexp2 d b m => Sys2Proof.Machine.execVfexp2 d b m s
  | .vfclass d b m => Sys2Proof.Machine.execVfclass d b m s
  | .vfcvt d b m k => Sys2Proof.Machine.execVfcvt d b m k s
  | .vmfeqVv d a b m => Sys2Proof.Machine.execVmfeqVv d a b m s
  | .vmfeqVf d a b m => Sys2Proof.Machine.execVmfeqVf d a b m s
  | .vmfneVv d a b m => Sys2Proof.Machine.execVmfneVv d a b m s
  | .vmfneVf d a b m => Sys2Proof.Machine.execVmfneVf d a b m s
  | .vmfltVv d a b m => Sys2Proof.Machine.execVmfltVv d a b m s
  | .vmfltVf d a b m => Sys2Proof.Machine.execVmfltVf d a b m s
  | .vmfleVv d a b m => Sys2Proof.Machine.execVmfleVv d a b m s
  | .vmfleVf d a b m => Sys2Proof.Machine.execVmfleVf d a b m s
  | .vmfgtVv d a b m => Sys2Proof.Machine.execVmfgtVv d a b m s
  | .vmfgtVf d a b m => Sys2Proof.Machine.execVmfgtVf d a b m s
  | .vmfgeVv d a b m => Sys2Proof.Machine.execVmfgeVv d a b m s
  | .vmfgeVf d a b m => Sys2Proof.Machine.execVmfgeVf d a b m s
  | .vmfordVv d a b m => Sys2Proof.Machine.execVmfordVv d a b m s
  | .vmfordVf d a b m => Sys2Proof.Machine.execVmfordVf d a b m s
  | .vsrch d a b m => Sys2Proof.Machine.execVsrch d a b m s
  | .vsrng d a b m => Sys2Proof.Machine.execVsrng d a b m s
  | .vcpop d b m => Sys2Proof.Machine.execVcpop d b m s
  | .vfirst d b m => Sys2Proof.Machine.execVfirst d b m s
  | .vmand d a b => Sys2Proof.Machine.execVmand d a b s
  | .vmor d a b => Sys2Proof.Machine.execVmor d a b s
  | .vmxor d a b => Sys2Proof.Machine.execVmxor d a b s
  | .vmandn d a b => Sys2Proof.Machine.execVmandn d a b s
  | .vmnand d a b => Sys2Proof.Machine.execVmnand d a b s
  | .vmnor d a b => Sys2Proof.Machine.execVmnor d a b s
  | .vmorn d a b => Sys2Proof.Machine.execVmorn d a b s
  | .vmxnor d a b => Sys2Proof.Machine.execVmxnor d a b s
  | .vmsbf d b m => Sys2Proof.Machine.execVmsbf d b m s
  | .vmsif d b m => Sys2Proof.Machine.execVmsif d b m s
  | .vmsof d b m => Sys2Proof.Machine.execVmsof d b m s
  | .viota d b m => Sys2Proof.Machine.execViota d b m s
  | .vid d m => Sys2Proof.Machine.execVid d m s
  | .vcompress d a b => Sys2Proof.Machine.execVcompress d a b s
  | .vcompi d a => Sys2Proof.Machine.execVcompi d a s
  | .vtopk d a b m => Sys2Proof.Machine.execVtopk d a b m s
  | .vlut d a b m => Sys2Proof.Machine.execVlut d a b m s
  | .vbfly d a b m => Sys2Proof.Machine.execVbfly d a b m s
  | .vhad d a b => Sys2Proof.Machine.execVhad d a b s
  | .vxchg d a b => Sys2Proof.Machine.execVxchg d a b s
  | .vslideup d a b m => Sys2Proof.Machine.execVslideup d a b m s
  | .vslidedown d a b m => Sys2Proof.Machine.execVslidedown d a b m s
  | .vrgather d a b m => Sys2Proof.Machine.execVrgather d a b m s
  | .vredsum d a b m => Sys2Proof.Machine.execVredsum d a b m s
  | .vredmax d a b m => Sys2Proof.Machine.execVredmax d a b m s
  | .vredmin d a b m => Sys2Proof.Machine.execVredmin d a b m s
  | .vredmaxu d a b m => Sys2Proof.Machine.execVredmaxu d a b m s
  | .vredminu d a b m => Sys2Proof.Machine.execVredminu d a b m s
  | .vfredsum d a b m => Sys2Proof.Machine.execVfredsum d a b m s
  | .vfredosum d a b m => Sys2Proof.Machine.execVfredosum d a b m s
  | .vfredmax d a b m => Sys2Proof.Machine.execVfredmax d a b m s
  | .vfredmin d a b m => Sys2Proof.Machine.execVfredmin d a b m s
  | .vmvxs d b => Sys2Proof.Machine.execVmvxs d b s
  | .vmvsx d a => Sys2Proof.Machine.execVmvsx d a s
  | .qcomp d b m => Sys2Proof.Machine.execQcomp d b m s
  | .vquant d a b m => Sys2Proof.Machine.execVquant d a b m s
  | .vdequant d b m => Sys2Proof.Machine.execVdequant d b m s
  | .qbind d a => Sys2Proof.Machine.execQbind d a s
  | .qunbind d => Sys2Proof.Machine.execQunbind d s
  | .qmul d a b => Sys2Proof.Machine.execQmul d a b s
  | .qmulx d a b => Sys2Proof.Machine.execQmulx d a b s
  | .qmax d a b => Sys2Proof.Machine.execQmax d a b s
  | .qrcp d b => Sys2Proof.Machine.execQrcp d b s
  | .qcvt d a b => Sys2Proof.Machine.execQcvt d a b s
  | .qmv d b => Sys2Proof.Machine.execQmv d b s
  | .qtag d a => Sys2Proof.Machine.execQtag d a s
  | .qbindt d a b => Sys2Proof.Machine.execQbindt d a b s
  | .qunbindt d => Sys2Proof.Machine.execQunbindt d s
  | .vle d a t m w => Sys2Proof.Machine.execVle d a t m w s
  | .vse d a t m w => Sys2Proof.Machine.execVse d a t m w s
  | .vlse d a b t m w => Sys2Proof.Machine.execVlse d a b t m w s
  | .vsse d a b t m w => Sys2Proof.Machine.execVsse d a b t m w s
  | .vlxe d a b t m w => Sys2Proof.Machine.execVlxe d a b t m w s
  | .vsxe d a b t m w => Sys2Proof.Machine.execVsxe d a b t m w s
  | .vlq d a b t => Sys2Proof.Machine.execVlq d a b t s
  | .vsq d a b t => Sys2Proof.Machine.execVsq d a b t s
  | .qld d a b t => Sys2Proof.Machine.execQld d a b t s
  | .qst d a t => Sys2Proof.Machine.execQst d a t s
  | .wsrch d a b t m => Sys2Proof.Machine.execWsrch d a b t m s
  | .wdot d a b t m => Sys2Proof.Machine.execWdot d a b t m s
  | .wtopk d a b t m => Sys2Proof.Machine.execWtopk d a b t m s
  | .vamoAdd d a b m => Sys2Proof.Machine.execVamoAdd d a b m s
  | .vamoAnd d a b m => Sys2Proof.Machine.execVamoAnd d a b m s
  | .vamoOr d a b m => Sys2Proof.Machine.execVamoOr d a b m s
  | .vamoXor d a b m => Sys2Proof.Machine.execVamoXor d a b m s
  | .vamoSmin d a b m => Sys2Proof.Machine.execVamoSmin d a b m s
  | .vamoSmax d a b m => Sys2Proof.Machine.execVamoSmax d a b m s
  | .vamoUmax d a b m => Sys2Proof.Machine.execVamoUmax d a b m s
  | .vamoSwap d a b m => Sys2Proof.Machine.execVamoSwap d a b m s
  | .vlgl d a b m => Sys2Proof.Machine.execVlgl d a b m s
  | .vssc d a b m => Sys2Proof.Machine.execVssc d a b m s
  | .vfascan d a m => Sys2Proof.Machine.execVfascan d a m s
  | .mld a t e => Sys2Proof.Machine.execMld a t e s
  | .mldg a b t e => Sys2Proof.Machine.execMldg a b t e s
  | .mflip t e => Sys2Proof.Machine.execMflip t e s
  | .mmac a t e => Sys2Proof.Machine.execMmac a t e s
  | .mgrp a b t e => Sys2Proof.Machine.execMgrp a b t e s
  | .mst a b t e => Sys2Proof.Machine.execMst a b t e s
  | .mzero t e => Sys2Proof.Machine.execMzero t e s
  | .mtile a t e => Sys2Proof.Machine.execMtile a t e s
  | .cpy a t => Sys2Proof.Machine.execCpy a t s
  | .cpyx a t => Sys2Proof.Machine.execCpyx a t s
  | .cpyf a t => Sys2Proof.Machine.execCpyf a t s
  | .vsend a b t m => Sys2Proof.Machine.execVsend a b t m s
  | .vrecv d a t => Sys2Proof.Machine.execVrecv d a t s
  | .msgx a b t => Sys2Proof.Machine.execMsgx a b t s
  | .nmq a b t => Sys2Proof.Machine.execNmq a b t s
  | .kvsplice a t => Sys2Proof.Machine.execKvsplice a t s
  | .kvrepair a t => Sys2Proof.Machine.execKvrepair a t s
  | .kvcommit a t => Sys2Proof.Machine.execKvcommit a t s
  | .kvseal a t => Sys2Proof.Machine.execKvseal a t s
  | .kvgather a t => Sys2Proof.Machine.execKvgather a t s
  | .gwalk a t => Sys2Proof.Machine.execGwalk a t s
  | .gins a t => Sys2Proof.Machine.execGins a t s
  | .gdel a t => Sys2Proof.Machine.execGdel a t s
  | .vsetvli d a im => Sys2Proof.Machine.execVsetvli d a im s
  | .vsetivli d im u => Sys2Proof.Machine.execVsetivli d im u s
  | .vsetvl d a b => Sys2Proof.Machine.execVsetvl d a b s
  | .vsetmt d a => Sys2Proof.Machine.execVsetmt d a s
  | .loop a im => Sys2Proof.Machine.execLoop a im s
  | .loopi im u => Sys2Proof.Machine.execLoopi im u s
  | .lpbrk => Sys2Proof.Machine.execLpbrk s
  | .lpidx d l => Sys2Proof.Machine.execLpidx d l s
  | .tkpost q => Sys2Proof.Machine.execTkpost q s
  | .tkwait q => Sys2Proof.Machine.execTkwait q s
  | .bararv a => Sys2Proof.Machine.execBararv a s
  | .barwait a => Sys2Proof.Machine.execBarwait a s
  | .barsync a => Sys2Proof.Machine.execBarsync a s
  | .fenceS im e v ss c => Sys2Proof.Machine.execFenceS im e v ss c s
  | .publish a => Sys2Proof.Machine.execPublish a s
  | .pubwait a => Sys2Proof.Machine.execPubwait a s
  | .yield => Sys2Proof.Machine.execYield s
  | .sexit => Sys2Proof.Machine.execSexit s
  | .launch d a => Sys2Proof.Machine.execLaunch d a s
  | .gsubmit d a b => Sys2Proof.Machine.execGsubmit d a b s
  | .cntwait a b => Sys2Proof.Machine.execCntwait a b s
  | .cntread d a => Sys2Proof.Machine.execCntread d a s
  | .cancel a => Sys2Proof.Machine.execCancel a s
  | .hpart a => Sys2Proof.Machine.execHpart a s
  | .cntnew d a => Sys2Proof.Machine.execCntnew d a s
  | .tret => Sys2Proof.Machine.execTret s
  | .idle => Sys2Proof.Machine.execIdle s
  | .ctxsave a => Sys2Proof.Machine.execCtxsave a s
  | .ctxload a => Sys2Proof.Machine.execCtxload a s
  | .tlbinv a b => Sys2Proof.Machine.execTlbinv a b s
  | .keyinv a => Sys2Proof.Machine.execKeyinv a s
  | .suLd d a im => Sys2Proof.Machine.execSuLd d a im s
  | .suSt d a im => Sys2Proof.Machine.execSuSt d a im s
  | .suAdd d a b => Sys2Proof.Machine.execSuAdd d a b s
  | .suSub d a b => Sys2Proof.Machine.execSuSub d a b s
  | .suMul d a b => Sys2Proof.Machine.execSuMul d a b s
  | .suFma d a b => Sys2Proof.Machine.execSuFma d a b s
  | .suFms d a b => Sys2Proof.Machine.execSuFms d a b s
  | .suMin d a b => Sys2Proof.Machine.execSuMin d a b s
  | .suMax d a b => Sys2Proof.Machine.execSuMax d a b s
  | .suAbs d a => Sys2Proof.Machine.execSuAbs d a s
  | .suCmp d a b r => Sys2Proof.Machine.execSuCmp d a b r s
  | .suSel d a b k => Sys2Proof.Machine.execSuSel d a b k s
  | .suAnd d a b => Sys2Proof.Machine.execSuAnd d a b s
  | .suOr d a b => Sys2Proof.Machine.execSuOr d a b s
  | .suXor d a b => Sys2Proof.Machine.execSuXor d a b s
  | .suCvt d a c => Sys2Proof.Machine.execSuCvt d a c s
  | .suRcp d a => Sys2Proof.Machine.execSuRcp d a s
  | .suRsqrt d a => Sys2Proof.Machine.execSuRsqrt d a s
  | .suBc d a => Sys2Proof.Machine.execSuBc d a s
  | .suMov d a => Sys2Proof.Machine.execSuMov d a s
  | .suLp1 a l => Sys2Proof.Machine.execSuLp1 a l s
  | .suLp2 a l => Sys2Proof.Machine.execSuLp2 a l s
  | .suPadd d a im => Sys2Proof.Machine.execSuPadd d a im s
  | .suEnd => Sys2Proof.Machine.execSuEnd s
  | .loadProgram u => Sys2Proof.Machine.execLoadProgram u s
  | .run u => Sys2Proof.Machine.execRun u s
  | .spill u => Sys2Proof.Machine.execSpill u s
  | .contextReschedule asid => Sys2Proof.Machine.execContextReschedule asid s
  | .launchAccept c => Sys2Proof.Machine.execLaunchAccept c s
  | .graphAccept c => Sys2Proof.Machine.execGraphAccept c s
  | .submissionResult => Sys2Proof.Machine.execSubmissionResult s
  | .jobPacketRead j => Sys2Proof.Machine.execJobPacketRead j s
  | .jobNextPhase c => Sys2Proof.Machine.execJobNextPhase c s
  | .phaseNextSubmission c => Sys2Proof.Machine.execPhaseNextSubmission c s
  | .nodeComplete c node => Sys2Proof.Machine.execNodeComplete c node s
  | .readyPoolDispatch t => Sys2Proof.Machine.execReadyPoolDispatch t s
  | .slotBeginIssue im => Sys2Proof.Machine.execSlotBeginIssue im s
  | .readyEntryAge n => Sys2Proof.Machine.execReadyEntryAge n s
  | .timeSliceExpiry im => Sys2Proof.Machine.execTimeSliceExpiry im s
  | .preemptionRequest im => Sys2Proof.Machine.execPreemptionRequest im s
  | .preemptionStop => Sys2Proof.Machine.execPreemptionStop s
  | .graceExpiry im => Sys2Proof.Machine.execGraceExpiry im s
  | .contextSave im => Sys2Proof.Machine.execContextSave im s
  | .saveComplete im => Sys2Proof.Machine.execSaveComplete im s
  | .saveBegin im => Sys2Proof.Machine.execSaveBegin im s
  | .saveRestart im => Sys2Proof.Machine.execSaveRestart im s
  | .strandRestore im hoop slot => Sys2Proof.Machine.execStrandRestore im hoop slot s
  | .arrayWipe hoop array => Sys2Proof.Machine.execArrayWipe hoop array s
  | .partitionPartApply hoop slot => Sys2Proof.Machine.execPartitionPartApply hoop slot s
  | .strandCancelStop => Sys2Proof.Machine.execStrandCancelStop s
  | .counterIncrement c => Sys2Proof.Machine.execCounterIncrement c s
  | .stall q => Sys2Proof.Machine.execStall q s
  | .waitEnd => Sys2Proof.Machine.execWaitEnd s
  | .feResultWrite => Sys2Proof.Machine.execFeResultWrite s
  | .tokenPush q => Sys2Proof.Machine.execTokenPush q s
  | .tokenMarkerHead q => Sys2Proof.Machine.execTokenMarkerHead q s
  | .commandAccept q => Sys2Proof.Machine.execCommandAccept q s
  | .matrixStep e => Sys2Proof.Machine.execMatrixStep e s
  | .commandRetire q e => Sys2Proof.Machine.execCommandRetire q e s
  | .followOnAccept => Sys2Proof.Machine.execFollowOnAccept s
  | .copyChunk => Sys2Proof.Machine.execCopyChunk s
  | .kvStep => Sys2Proof.Machine.execKvStep s
  | .darnerListWrite sess => Sys2Proof.Machine.execDarnerListWrite sess s
  | .repairSessionAbandon sess => Sys2Proof.Machine.execRepairSessionAbandon sess s
  | .walkerRound => Sys2Proof.Machine.execWalkerRound s
  | .resultRound => Sys2Proof.Machine.execResultRound s
  | .trapTake => Sys2Proof.Machine.execTrapTake s
  | .publishInstallation set => Sys2Proof.Machine.execPublishInstallation set s
  | .pageWalk asid va => Sys2Proof.Machine.execPageWalk asid va s
  | .messageAccept n => Sys2Proof.Machine.execMessageAccept n s
  | .join port h => Sys2Proof.Machine.execJoin port h s
  | .elem port h data => Sys2Proof.Machine.execElem port h data s
  | .accept port h => Sys2Proof.Machine.execAccept port h s
  | .busy port h => Sys2Proof.Machine.execBusy port h s
  | .leave port h => Sys2Proof.Machine.execLeave port h s
  | .elemRetry n => Sys2Proof.Machine.execElemRetry n s
  | .meshCommand h => Sys2Proof.Machine.execMeshCommand h s
  | .meshTranslationRequest h => Sys2Proof.Machine.execMeshTranslationRequest h s
  | .meshTranslationResponse h => Sys2Proof.Machine.execMeshTranslationResponse h s
  | .meshCompletion h => Sys2Proof.Machine.execMeshCompletion h s
  | .meshFaultRecord h => Sys2Proof.Machine.execMeshFaultRecord h s
  | .meshImageData h => Sys2Proof.Machine.execMeshImageData h s
  | .meshCredit router out vc => Sys2Proof.Machine.execMeshCredit router out vc s
  | .bar2Read port off len => Sys2Proof.Machine.execBar2Read port off len s
  | .bar2Write port off data => Sys2Proof.Machine.execBar2Write port off data s
  | .configurationRequest port reg wr => Sys2Proof.Machine.execConfigurationRequest port reg wr s
  | .unsupportedRequest port tag => Sys2Proof.Machine.execUnsupportedRequest port tag s
  | .registerWrite off v => Sys2Proof.Machine.execRegisterWrite off v s
  | .jobQueueDoorbell j tail => Sys2Proof.Machine.execJobQueueDoorbell j tail s
  | .alloc => Sys2Proof.Machine.execAlloc s
  | .erase => Sys2Proof.Machine.execErase s
  | .seal => Sys2Proof.Machine.execSeal s
  | .unseal => Sys2Proof.Machine.execUnseal s
  | .attest => Sys2Proof.Machine.execAttest s
  | .debugAuth => Sys2Proof.Machine.execDebugAuth s
  | .mailboxResponse => Sys2Proof.Machine.execMailboxResponse s
  | .contextInvalidate asid => Sys2Proof.Machine.execContextInvalidate asid s
  | .contextTeardown asid => Sys2Proof.Machine.execContextTeardown asid s
  | .msixSend v data => Sys2Proof.Machine.execMsixSend v data s
  | .msixUnmask v => Sys2Proof.Machine.execMsixUnmask v s
  | .halt win w => Sys2Proof.Machine.execHalt win w s
  | .resume win w => Sys2Proof.Machine.execResume win w s
  | .strandEndRequest w => Sys2Proof.Machine.execStrandEndRequest w s
  | .traceRingEnable w => Sys2Proof.Machine.execTraceRingEnable w s
  | .tabgidelOpen valid serial asids => Sys2Proof.Machine.execTabgidelOpen valid serial asids s
  | .tabgidelAccess off wr => Sys2Proof.Machine.execTabgidelAccess off wr s
  | .sample hoop => Sys2Proof.Machine.execSample hoop s
  | .traceRecordsLost hoop => Sys2Proof.Machine.execTraceRecordsLost hoop s
  | .idleWake im => Sys2Proof.Machine.execIdleWake im s
  | .powerLimit rate => Sys2Proof.Machine.execPowerLimit rate s
  | .thermalWarning die temp => Sys2Proof.Machine.execThermalWarning die temp s
  | .thermalCriticalStop die temp => Sys2Proof.Machine.execThermalCriticalStop die temp s
  | .thermalResume => Sys2Proof.Machine.execThermalResume s
  | .backgroundCheck hoop array row e => Sys2Proof.Machine.execBackgroundCheck hoop array row e s
  | .errorRecordWrite => Sys2Proof.Machine.execErrorRecordWrite s
  | .lastingFault k unit => Sys2Proof.Machine.execLastingFault k unit s
  | .spareReplacement hoop array => Sys2Proof.Machine.execSpareReplacement hoop array s
  | .spareRemap hoop array => Sys2Proof.Machine.execSpareRemap hoop array s
  | .arrayWithdraw hoop array => Sys2Proof.Machine.execArrayWithdraw hoop array s
  | .dieFence die => Sys2Proof.Machine.execDieFence die s
  | .linkTraining port width rate => Sys2Proof.Machine.execLinkTraining port width rate s
  | .channelPowerDownRequest c => Sys2Proof.Machine.execChannelPowerDownRequest c s
  | .channelDrainEnd c => Sys2Proof.Machine.execChannelDrainEnd c s
  | .channelSpillEnd c => Sys2Proof.Machine.execChannelSpillEnd c s
  | .channelWake c => Sys2Proof.Machine.execChannelWake c s
  | .channelRestoreEnd c => Sys2Proof.Machine.execChannelRestoreEnd c s
  | .checkpointRequest stay => Sys2Proof.Machine.execCheckpointRequest stay s
  | .checkpointCut => Sys2Proof.Machine.execCheckpointCut s
  | .checkpointTimeout => Sys2Proof.Machine.execCheckpointTimeout s
  | .checkpointRestore imgs => Sys2Proof.Machine.execCheckpointRestore imgs s
  | .deviceReset image version => Sys2Proof.Machine.execDeviceReset image version s
  | .serviceRelease image version => Sys2Proof.Machine.execServiceRelease image version s
  | .deviceReady descr => Sys2Proof.Machine.execDeviceReady descr s
  | .deviceDescriptionUpdate off data => Sys2Proof.Machine.execDeviceDescriptionUpdate off data s
  | .dutyCycling hoop e => Sys2Proof.Machine.execDutyCycling hoop e s
  | .temperatureFall die temp => Sys2Proof.Machine.execTemperatureFall die temp s
  | .pcieCompletion port => Sys2Proof.Machine.execPcieCompletion port s
  | .meshOtherKind h => Sys2Proof.Machine.execMeshOtherKind h s
  | .garzarOtherType port h => Sys2Proof.Machine.execGarzarOtherType port h s
  | .unknownOpcode => Sys2Proof.Machine.execUnknownOpcode s
  | .mailboxRequestIgnored sequence => Sys2Proof.Machine.execMailboxRequestIgnored sequence s

end Sys2Proof.Machine
end

