-- ==== Sys2Proof/Machine/Fetch.lean ====
section
/-! DEFINITION. Instruction fetch (R66, R134) and how a fetched word is taken: the trap of a word that names no
instruction (R68), and which words the V queue holds. -/

namespace Sys2Proof.Machine

/-- The word at the strand's pc: four bytes through VS with X, as an access of the scalar side. Poison traps at the
instruction (R441). -/
def fetchWord : Act Word32 := do
  let st ← getStrand
  let va := st.pc.toNat
  if va % 4 ≠ 0 then raise causeAlign va
  let p := strandPort st 1
  let pl ← translate p va .fetch
  checkPlace p va 4 false pl
  checkRace p va pl.pa 4 false
  let s ← getS
  if placePoisoned s pl 4 then raisePoison p pl.pa va
  let bs ← readPlace pl 4
  match wordOfBytes bs with
  | some w => pure w
  | none => raise causeAcc va

/-- The subcode of ILL for a word that does not decode: in a system instruction at strand level the level is checked
before a reserved field (R68). -/
def illSubcode (sys : Bool) (e : DecodeError) : Nat :=
  if e = .reservedSystem ∧ !sys then 7 else e.subcode

def illTrap (sys : Bool) (e : DecodeError) : Trap :=
  { cause := causeIll, tval := BitVec.ofNat 64 (illSubcode sys e), telem := 0 }

/-- A word that the V queue executes: OP-VA, OP-VM, and `vsend` and `vrecv` (R33, R78). -/
def isVecWord (w : Word32) : Bool :=
  let f := Fields.ofWord w
  f.op = 0b0001011#7 || f.op = 0b0101011#7 || (f.op = 0b1011011#7 && (f.f7 = 0b0110000#7 || f.f7 = 0b0110001#7))

end Sys2Proof.Machine
end

