-- ==== Sys2Proof/Machine/Turns.lean ====
section
/-! DEFINITION. The turns of a step: the front, the vector side, a stack unit, a change of focus, an event; and the
turn that is taken when the agenda names none. -/

namespace Sys2Proof.Machine

/-- A pre-emption or cancel stops the strand where it stands (R39, R113, R391): at a pre-emption point, or once the
grace is over. An idling front leaves its instruction first (R115). -/
def stopsHere (st : Strand) : Bool := (st.preempt || st.cancelled) && atStopPoint st && !st.idling

/-- The front may issue: the strand runs or waits, no stop or halt is due at this boundary (R391, R461), and element
stepping does not hold it (R468). -/
def frontLive (st : Strand) : Bool :=
  isStrand st && counted st && !stopsHere st && st.haltWait.isNone && !(st.dbgElem && !st.vq.isEmpty)

/-- The fetched word goes to the meaning of its instruction, or raises ILL (R68). -/
noncomputable def issueWord (w : Word32) (s : State) : Out :=
  match decode w with
  | .ok i => exec i { s with fetched := w, actor := .front }
  | .error e => .next (frontTrap (illTrap (sysLevel s.strand) e) s)

/-- The front's next instruction boundary: a trap that is pending, a breakpoint, or the instruction at pc. -/
noncomputable def frontTurn (s : State) : Out :=
  if !counted s.strand || !isStrand s.strand then .next s
  else if s.strand.pending ≠ [] then .next (takePending s)
  else if !frontLive s.strand then .next s
  else match breakAt s s.strand with
    | some off => .next (breakFires off s)
    | none =>
      match fetchWord s with
      | (.ok w, s1) => issueWord w s1
      | (.error (.trap t), s1) => .next (frontTrap t s1)
      | (.error _, _) => .next s

/-- The head of the V queue issues: a marker is popped, an instruction executes, and a word that a handler has edited
into no V instruction raises ILL (R437). -/
noncomputable def vecTurn (s : State) : Out :=
  match s.strand.vq with
  | [] => .next s
  | e :: _ =>
    if !counted s.strand || !isStrand s.strand || s.strand.haltWait.isSome || queueStopped s.strand .v then .next s
    else if isMarker e.word then exec (.tokenMarkerHead 1) s
    else match decode e.word with
      | .ok i =>
        if isVecWord e.word then exec i { s with fetched := e.word, actor := .vec }
        else .next (reportV e (illTrap false .unallocatedFunct) s)
      | .error x => .next (reportV e (illTrap false x) s)

/-- A stack unit starts its next command, or executes the entry at which it stands; an entry past the buffer or a word
that R81 does not list is an illegal op (R317, R322). -/
noncomputable def unitTurn (u : Nat) (s : State) : Out :=
  let x := unitOf s u
  match x.running with
  | none =>
    match (nextCommand u s).map fun c => field c.1.bytes 0 1 with
    | some 1 => exec (.loadProgram u) s
    | some 2 => exec (.run u) s
    | some 3 => exec (.spill u) s
    | _ => .next s
  | some _ =>
    if s.hub.quiesce || !x.started then .next s
    else match x.buf[x.entry]? with
      | none => .next (unitFault u 3 0xFF 0 0 s)
      | some w =>
        match decodeSu w with
        | .ok i => exec i { s with fetched := w, curUnit := u }
        | .error _ => .next (unitFault u 3 x.entry 0 w s)

/-- The strand in focus and the n-th of the pool change places. -/
def focusTurn (n : Nat) (s : State) : Out :=
  match s.pool[n]? with
  | some t => .next { s with strand := t, pool := listSet s.pool n s.strand }
  | none => .fault .noSuchAgent

/-- A turn of the agenda. An event is a row without a word; no agent takes an encoded instruction as an event. -/
noncomputable def takeTurn (t : Turn) (s : State) : Out :=
  match t with
  | .front => frontTurn s
  | .vec => vecTurn s
  | .unit u => if u < 256 then unitTurn u s else .fault .noSuchAgent
  | .focus n => focusTurn n s
  | .ev i => if (encode i).isNone then exec i s else .next s
  | .line l bad => .next (lineCheck l bad s)
  | .firmware f => .next (firmwareAct f s)
  | .hostRead port off => completeRead port off s
  | .pass => .next s

/-- The turns of the strand in focus that may have something to do. -/
noncomputable def strandTurns (s : State) : List Turn :=
  let st := s.strand
  let whenIt (c : Bool) (ts : List Turn) : List Turn := if c then ts else []
  ([whenIt (frontLive st) [.front],
   whenIt (!st.vq.isEmpty) [.vec, .ev (.tokenPush 1)],
   whenIt (st.state = .waiting) [.ev .waitEnd],
   ([0, 1, 2, 3, 4].filterMap fun k =>
    if 2 ^ 32 ≤ st.waits.toList.getD k 0 then some (.ev (.stall (BitVec.ofNat 3 k))) else none),
   whenIt (!st.fePend.isEmpty) [.ev .feResultWrite],
   whenIt (!st.mq.isEmpty) [.ev (.commandAccept 2), .ev (.matrixStep 0), .ev (.matrixStep 1), .ev (.commandRetire 2 0),
    .ev (.commandRetire 2 1), .ev (.tokenMarkerHead 2)],
   whenIt (!st.cq.isEmpty) [.ev (.commandAccept 3), .ev .copyChunk, .ev .followOnAccept, .ev (.matrixStep 0),
    .ev (.matrixStep 1), .ev .kvStep, .ev (.commandRetire 3 0), .ev (.tokenMarkerHead 3)],
   whenIt (!st.nq.isEmpty) [.ev (.commandAccept 4), .ev .walkerRound, .ev .resultRound, .ev (.commandRetire 4 0),
    .ev (.tokenMarkerHead 4)],
   whenIt (!st.pending.isEmpty) [.ev .trapTake],
   whenIt (st.state = .ready) [.ev (.slotBeginIssue st.id)],
   whenIt st.preempt [.ev .preemptionStop, .ev (.graceExpiry st.id)],
   whenIt st.cancelled [.ev .strandCancelStop],
   whenIt (isStrand st && stoppable st) [.ev (.timeSliceExpiry st.id), .ev (.preemptionRequest st.id)],
   whenIt (st.state = .saving) [.ev (.saveBegin st.id), .ev (.contextSave st.id), .ev (.saveComplete st.id),
    .ev (.saveRestart st.id)]] : List (List Turn)).flatten

/-- The turns of the hoops that may have something to do. -/
noncomputable def hoopTurns (h : Nat) (x : Hoop) : List Turn :=
  ((bitsOf x.dirty).map fun a => .ev (.arrayWipe h a)) ++
  (if x.waiting.isSome then (List.range 8).map fun k => .ev (.partitionPartApply h k) else []) ++
  ((bitsOf x.replacing).map fun a => .ev (.spareRemap h a)) ++
  (if x.lost = 0 then [] else [.ev (.traceRecordsLost h)]) ++ [.ev (.sample h)]

/-- The turns of a stack unit and its channel that may have something to do. -/
noncomputable def channelTurns (u : Nat) (x : StackUnit) : List Turn :=
  (if x.running.isSome || !x.queue.isEmpty then [.unit u] else []) ++
  match x.power with
  | .active => []
  | .drain => [.ev (.channelDrainEnd u)]
  | .spill => [.ev (.channelSpillEnd u)]
  | .down => if x.queue.isEmpty then [] else [.ev (.channelWake u)]
  | .restore => [.ev (.channelRestoreEnd u)]

/-- The turns of the hub and the units that may have something to do. -/
noncomputable def deviceTurns (s : State) : List Turn :=
  ([(List.range s.pool.length).map .focus,
   (s.units.flatMap fun (u, x) => channelTurns u x),
   (s.hoops.flatMap fun (h, x) => hoopTurns h x),
   (if s.hub.ready.isEmpty && s.hub.graphs.isEmpty then [] else (poolTargets s).map fun t => .ev (.readyPoolDispatch t)),
   ((List.range s.hub.ready.length).map fun n => .ev (.readyEntryAge n)),
   ((List.range 256).filterMap fun j =>
    let base := 0x40000 + 64 * j
    if natBits (bar0 s (base + 8) 8) 63 63 = 1 && bar0 s (base + 0x18) 2 ≠ bar0 s (base + 0x10) 2 then
      some (.ev (.jobPacketRead j)) else none),
   ((List.range s.hub.sessions.length).flatMap fun n => [.ev (.darnerListWrite n), .ev (.repairSessionAbandon n)]),
   ((List.range 4).filterMap fun d => if s.hub.fencing.getLsbD d then some (.ev (.dieFence d)) else none),
   (if s.hub.quiesce then [.ev .checkpointCut, .ev .checkpointTimeout] else []),
   (if s.hub.reqs.isEmpty then [] else [.ev .submissionResult]),
   (s.hub.incs.map fun x => .ev (.counterIncrement x.1)),
   (if s.hub.records.isEmpty then [] else [.ev .errorRecordWrite]),
   ((List.range s.hub.messages.length).flatMap fun n => [.ev (.messageAccept n), .ev (.elemRetry n)]),
   ((s.hub.launches.filter fun l => !l.accepted).map fun l => .ev (.launchAccept l.counter)),
   ((s.hub.graphs.filter fun g => !g.accepted).map fun g => .ev (.graphAccept g.counter)),
   (s.hub.graphs.flatMap fun g => (g.nodes.filter fun x => x.2 ≠ .complete && x.2 ≠ .blocked).map fun x => .ev (.nodeComplete g.counter x.1)),
   (s.hub.jobs.map fun j => .ev (.jobNextPhase j.counter)),
   (s.hub.phases.map fun p => .ev (.phaseNextSubmission p.counter)),
   ((List.range s.hub.sets.length).map fun n => .ev (.publishInstallation n)),
   (s.hub.irqs.map fun i => .ev (.msixSend i.vector (irqData s i))),
   (if s.hub.mailDone then [.ev .mailboxResponse] else [])] : List (List Turn)).flatten

/-- The turn that is taken next: the agenda's, else one of those that may have something to do, which one the spec
leaves open. -/
noncomputable def nextTurn (s : State) : Turn :=
  match s.agenda with
  | t :: _ => t
  | [] =>
    let found : List Turn := match Config.lineError s.freeCtr with
      | some (l, bad) => [.line l bad]
      | none => []
    let used : List Turn := match Config.rowError s.freeCtr with
      | some (h, a, r, bad) => [.ev (.backgroundCheck h a r (if bad then .uncorrectable else .correctable))]
      | none => []
    let ts := strandTurns s ++ deviceTurns s ++ found ++ used
    ts.getD (Config.freeChoice s.freeCtr % ts.length) .pass

end Sys2Proof.Machine
end

