-- ==== Sys2Proof/Machine/Placement.lean ====
section
/-! DEFINITION. A strand, or a stack unit, placed so that its next instruction is a given word: what a load of a
program from outside the machine leaves. -/

namespace Sys2Proof.Machine

/-- The word of a strand instruction. -/
noncomputable def isStrandWord (w : Word32) : Bool :=
  w.extractLsb' 0 2 = 0b11#2 &&
  match decode w with
  | .ok _ => true
  | .error _ => false

/-- Where the placed program's tables and code lie: a root table, a table, and a page of 256 MiB at address 0. -/
def placedRoot : Nat := 0x2000
def placedTable : Nat := 0x4000
def placedCode : Nat := 0x10000

/-- Context 1 with key slot 1 and its tables: one leaf that maps addresses 0 to 2^28 − 1 onto HBM, readable, writable
and executable (R133, R406, R409). -/
def placeContext (s : State) : State :=
  let s1 := setBar0 0x200020 8 (2 ^ 63 + placedRoot + 1) (setBar0 0x200028 8 1 s)
  let s2 := setKeySlot 1 { loaded := true, owner := 1, epoch := (keySlot s 1).epoch, key := s.hub.nextKey }
    { s1 with hub := { s1.hub with nextKey := s1.hub.nextKey + 1 } }
  hbmWrite 1 placedRoot (leBytes 8 (placedTable / 2 ^ 13 * 2 ^ 10 + 1)) (hbmWrite 1 placedTable (leBytes 8 (0xDF + 2 ^ 10)) s2)

/-- A Running strand of context 1 in slot 0 of hoop 0, with the word at its pc. -/
def placeStrandWord (w : Word32) (s : State) : State :=
  let t : Strand := { Strand.idle with
    count := 1, asid := 1, state := .running, pc := BitVec.ofNat 64 placedCode
    csr := { Csrs.reset with atp := BitVec.ofNat 64 (placedRoot + 1) } }
  { hbmWrite 1 placedCode (Sys2Proof.wordBytes w) (placeContext s) with strand := t, agenda := [.front] }

/-- Stack unit 0 runs a program whose entry 0 is the word. -/
def placeUnitWord (w : Word32) (s : State) : State :=
  let c : SuCmd := { asid := 1, packet := 0, bytes := padTo 64 [2, 0, 0, 0, 0, 0x80], root := BitVec.ofNat 64 placedRoot
                     issuer := none, node := none }
  let u : StackUnit := { StackUnit.reset with
    owner := some 1, running := some c, started := true, buf := StackUnit.reset.buf.set 0 w }
  { setUnit 0 u (placeContext s) with agenda := [.unit 0] }

end Sys2Proof.Machine
end

