-- ==== Sys2Proof/Machine/Settle.lean ====
section
/-! DEFINITION. What a step does beside its turn: time, the watchdog, grace, time slice and slip of each strand, the
energy banks (R471, R472), lanes lost with a fenced die, and the trace records of changes between Running, Waiting
and Halted. -/

namespace Sys2Proof.Machine

/-- The slip class that the ac of a step fall into, as the number of its CSR (R470). Where a load is queued, whether the
sequencer awaits its data at this moment stays open. -/
def slipClass (st : Strand) (free : Nat) : Nat :=
  if st.idling then 4
  else if st.vq.isEmpty then (if st.state = .running then 0 else 4)
  else if loadQueued st ∧ free % 2 = 0 then 2
  else if 64 ≤ st.vq.length then 1
  else if st.state = .running then 3 else 4

/-- Of dt ac, those that such a cause costs a strand, which the spec leaves to timing (R19). -/
def lostAc (s : State) (t : Strand) (dt free : Nat) : Nat :=
  if powerSlowed s t || beingReplaced s t then free / 2 % (dt + 1) else 0

/-- The counters of a strand after dt ac (R38, R386, R391, R470). Those that a power limit or a replacement costs count as
idle and as no wait (R19, R443). -/
def tickStrand (s : State) (dt free : Nat) (t : Strand) : Strand :=
  if !isStrand t then t else
  let live := counted t
  let off := lostAc s t dt free
  let t1 := advanceWaits s t (dt - off)
  let k := slipClass t free
  { t1 with
    slip := if live then t1.slip.mapFinIdx fun i n _ =>
        n + (if i = k then dt - off else 0) + (if i = 4 then off else 0) else t1.slip
    sliceAc := if live then t1.sliceAc + dt else t1.sliceAc
    graceAc := if t1.preempt && t1.state ≠ .halted then t1.graceAc + dt else t1.graceAc }

/-- The bank of a unit that takes the events of an ASID: its own, else bank 15 (R472). -/
def bankFor (s : State) (base : Nat) (asid : BitVec 12) : Nat :=
  ((List.range 15).find? fun k =>
    let w := bar0 s (base + 16 * k) 8
    natBits w 15 15 = 1 && natBits w 11 0 = asid.toNat).getD 15

/-- Events of a class are charged to an ASID at a unit, 48 the hub (R472). -/
def chargeEvents (unit cls : Nat) (asid : BitVec 12) (n : Nat) (s : State) : State :=
  let base := if unit = 48 then 0xE00300 else windowBase unit + 0x500
  let off := base + 16 * bankFor s base asid + 8
  if n = 0 then s else setBar0 off 8 (bar0 s off 8 + (energyWeight s unit cls).toNat * n) s

/-- The front issues one instruction in a turn that leaves it not waiting. -/
def frontIssued (s0 s : State) : Nat := if frontLive s0.strand && s0.strand.pending = [] && s.strand.wait.isNone then 1 else 0

/-- How many bytes the chunk that a turn has copied moved, in units of 512 (R301, R471). -/
def chunkUnits (s0 s : State) : Nat :=
  match copyWork s0.strand with
  | none => 0
  | some e =>
    if s.strand.cq.any fun x => x.seq = e.seq && e.step < x.step then
      match (copyChunks (cmdOf e.word) (copyDesc e.prog.desc) e.prog.list)[e.step]? with
      | some c => (c.2.2 + 511) / 512
      | none => 0
    else 0

/-- The events of a turn at a hoop, by class: what the spec counts is counted, and where the number is one of passes, rows, ac
or fills that the model does not follow, it stays open (R471). -/
def hoopEvents (s0 s : State) (t : Turn) : List (Nat × Nat) :=
  let open_ (cs : List Nat) : List (Nat × Nat) := cs.map fun c => (c, Config.freeChoice (s.freeCtr + c))
  match t with
  | .front => (13, frontIssued s0 s) :: open_ [2, 10, 14, 15]
  | .vec => open_ [0, 1, 2, 3, 9, 10, 11, 12, 14, 15]
  | .ev (.matrixStep _) => open_ [2, 4, 5, 6, 7, 10, 14]
  | .ev .copyChunk => (8, chunkUnits s0 s) :: open_ [2, 10, 14]
  | .ev _ => open_ [1, 2, 9, 10, 14]
  | .unit _ | .focus _ | .line .. | .firmware _ | .hostRead .. | .pass => []

/-- The events of a turn at the hub (R458). -/
def hubEvents (s : State) (t : Turn) : List (Nat × Nat) :=
  let open_ (cs : List Nat) : List (Nat × Nat) := cs.map fun c => (c, Config.freeChoice (s.freeCtr + 16 + c))
  match t with
  | .unit _ => (0, 1) :: open_ [1, 4, 5, 7]
  | .ev .walkerRound => (2, 1) :: open_ [3, 4, 5, 7]
  | .front | .vec | .ev _ => open_ [4, 5, 7]
  | .hostRead .. => open_ [6]
  | .focus _ | .line .. | .firmware _ | .pass => []

/-- A turn's events are charged (R472): to the ASID of the strand, of a stack unit's command, and a wipe and the flits of the
links to ASID 0. -/
def chargeTurn (s0 : State) (t : Turn) (s : State) : State :=
  let asid : BitVec 12 := match t with
    | .unit u => (unitOf s0 u).running.elim 0 SuCmd.asid
    | .ev (.arrayWipe ..) => 0
    | _ => s0.strand.asid
  let h := s0.strand.hoop
  let s1 := if h < 48 then (hoopEvents s0 s t).foldl (init := s) fun s (c, n) => chargeEvents h c asid n s else s
  let s2 := (hubEvents s t).foldl (init := s1) fun s (c, n) => chargeEvents 48 c (if c = 6 ∨ c = 7 then 0 else asid) n s
  { s with mem := s2.mem, freeCtr := s.freeCtr + 32 }

/-- Rows lent from a fenced die read as poisoned until the next set-length instruction drops them (R445). -/
def loseRows (fenced : BitVec 4) (t : Strand) : Strand :=
  if !(isStrand t && t.arrays.any fun x => fenced.getLsbD (x.1 / 12)) then t
  else
    let rows := t.arrays.zipIdx.flatMap fun (x, k) =>
      if fenced.getLsbD (x.1 / 12) then (List.range 512).map fun r => 512 * k + r else []
    { t with vpoison := t.vpoison.map fun m => rows.foldl (init := m) fun m r => smSet m r () }

/-- The records of a strand's change to Running, Waiting or Halted (R475). -/
def recordChange (before : List Strand) (s : State) (t : Strand) : State :=
  match before.find? fun b => b.id = t.id with
  | none => s
  | some b =>
    if b.state = t.state then s
    else match t.state with
      | .running | .waiting => emitChange t b.state t.state 0 s
      | .halted => emitStrand t 9 (0xFF + 256 * (t.pc.toNat % 2 ^ 48)) (emitChange t b.state .halted 0 s)
      | _ => s

/-- The state after a step's turn, from the state before it: dt ac pass, and the turn leaves the agenda. -/
noncomputable def settle (s0 s : State) : State :=
  let dt := Config.stepAc s0.tick
  let free := Config.freeChoice s.freeCtr
  let s1 := (allStrands s).foldl (init := s) fun x t => recordChange (allStrands s0) x t
  let s2 := { s1 with
    strand := loseRows s1.hub.fenced (tickStrand s1 dt free s1.strand)
    pool := s1.pool.map fun t => loseRows s1.hub.fenced (tickStrand s1 dt free t)
    ac := s1.ac + dt, ns := s1.ns + Config.stepNs s0.tick, tick := s1.tick + 1, freeCtr := s1.freeCtr + 1, agenda := s0.agenda.drop 1 }
  chargeTurn s0 (nextTurn s0) s2

end Sys2Proof.Machine
end

