-- ==== Sys2Proof/Machine/Step.lean ====
section
/-! DEFINITION. The step: a turn, and what passes with it. -/

namespace Sys2Proof.Machine

/-- One step of the machine: the next turn is taken and the ac that it takes pass. -/
noncomputable def step (s : State) : Out :=
  match takeTurn (nextTurn s) s with
  | .next s' => .next (settle s s')
  | .fault f => .fault f
  | .refused r => .refused r

/-- The state in which the next step fetches and runs the instruction whose bits are w: for a word of a strand a
strand that stands at it, for a word of a stack unit a unit that stands at it. -/
noncomputable def State.withFetchWord (s : State) (nbits w : Nat) : State :=
  let v := BitVec.ofNat 32 (w % 2 ^ nbits)
  if isStrandWord v then placeStrandWord v s else placeUnitWord v s

end Sys2Proof.Machine
end

