-- ==== Sys2Proof/Safety.lean ====
section
/-! DEFINITION. What counts as a safe state and a safe run, in the terms that statements use. -/

namespace Sys2Proof

open Machine

/-- Memory has its canonical form, and so has the memory of every checkpoint image. -/
def Machine.State.MemInv (s : Machine.State) : Prop :=
  s.mem.wf = true ∧ ∀ i ∈ s.images, i.mem.wf = true

/-- x0 of every strand holds zero (R44), and so does that of every strand in a checkpoint image. -/
def Machine.State.ZeroInv (s : Machine.State) : Prop :=
  (∀ t ∈ s.strand :: s.pool, t.x[0] = 0) ∧ ∀ i ∈ s.images, ∀ t ∈ i.strand :: i.pool, t.x[0] = 0

/-- What holds of every state that a run from reset reaches. -/
def Machine.State.Inv (s : Machine.State) : Prop := s.MemInv ∧ s.ZeroInv

/-- A step that goes on. -/
def Machine.State.goesOn (s : Machine.State) : Prop := ∃ t, Machine.step s = .next t

/-- A run of n steps goes on: none of them ends in a fault or a refusal. -/
def safeRun : Nat → Machine.State → Prop
  | 0, _ => True
  | n + 1, s => ∃ t, Machine.step s = .next t ∧ safeRun n t

end Sys2Proof
end

