-- ==== Sys2Proof/WellFormed.lean ====
section
/-! DEFINITION. Which instructions are well formed: every field holds a value that the tables of the instruction
set, or the size of the part that an event names, allow. -/

namespace Sys2Proof

/-- The fields hold allowed values (R68, R81, R100, R112, R275; R8, R12, R29 for what an event names). An instruction that is not
well formed still has its meaning: it traps, stops its unit, or has no effect. -/
def Instr.wf : Instr → Bool
  | .fence f p s => (f = 0 || f = 8) && !(f = 8 && p = 3 && s = 3)
  | .tkpost q => 1 ≤ q.toNat && q.toNat ≤ 4
  | .tkwait q => 1 ≤ q.toNat && q.toNat ≤ 4
  | .fenceS i e v s c => c.toNat ≤ 4 && !(i = 0 && e = 0 && v = 0 && s = 0)
  | .vcvti _ _ _ _ w => w ≠ 7
  | .vfcvt _ _ _ k => k.extractLsb' 3 2 = 1 || k.extractLsb' 1 2 ≠ 3
  | .vle _ _ _ _ w => w.extractLsb' 1 2 ≠ 3
  | .vse _ _ _ _ w => w.extractLsb' 1 2 ≠ 3
  | .vlse _ _ _ _ _ w => w.extractLsb' 1 2 ≠ 3
  | .vsse _ _ _ _ _ w => w.extractLsb' 1 2 ≠ 3
  | .vlxe _ _ _ _ _ w => w.extractLsb' 1 2 ≠ 3
  | .vsxe _ _ _ _ _ w => w.extractLsb' 1 2 ≠ 3
  | .qcvt _ a _ => a.extractLsb' 2 3 = 0 && a.extractLsb' 0 2 ≠ 3
  | .suLd d a _ => d.toNat < 24 && a.toNat < 8
  | .suSt d a _ => d.toNat < 24 && a.toNat < 8
  | .suAdd d a b => d.toNat < 24 && a.toNat < 24 && b.toNat < 24
  | .suSub d a b => d.toNat < 24 && a.toNat < 24 && b.toNat < 24
  | .suMul d a b => d.toNat < 24 && a.toNat < 24 && b.toNat < 24
  | .suFma d a b => d.toNat < 24 && a.toNat < 24 && b.toNat < 24
  | .suFms d a b => d.toNat < 24 && a.toNat < 24 && b.toNat < 24
  | .suMin d a b => d.toNat < 24 && a.toNat < 24 && b.toNat < 24
  | .suMax d a b => d.toNat < 24 && a.toNat < 24 && b.toNat < 24
  | .suAbs d a => d.toNat < 24 && a.toNat < 24
  | .suCmp d a b r => d.toNat < 4 && a.toNat < 24 && b.toNat < 24 && r ≠ 3
  | .suSel d a b _ => d.toNat < 24 && a.toNat < 24 && b.toNat < 24
  | .suAnd d a b => d.toNat < 24 && a.toNat < 24 && b.toNat < 24
  | .suOr d a b => d.toNat < 24 && a.toNat < 24 && b.toNat < 24
  | .suXor d a b => d.toNat < 24 && a.toNat < 24 && b.toNat < 24
  | .suCvt d a c => d.toNat < 24 && a.toNat < 24 && c.toNat < 6
  | .suRcp d a => d.toNat < 24 && a.toNat < 24
  | .suRsqrt d a => d.toNat < 24 && a.toNat < 24
  | .suBc d a => d.toNat < 24 && a.toNat < 16
  | .suMov d a => d.toNat < 24 && a.toNat < 24
  | .suLp1 a l => a.toNat < 16 && 1 ≤ l.toNat && l.toNat ≤ 96
  | .suLp2 a l => a.toNat < 16 && 1 ≤ l.toNat && l.toNat ≤ 96
  | .suPadd d a i => d.toNat < 8 && a.toNat < 8 && i.toNat % 4 = 0
  | .strandRestore _ hoop slot => hoop < 48 && slot < 8
  | .arrayWipe hoop array => hoop < 48 && array < 256
  | .partitionPartApply hoop slot => hoop < 48 && slot < 8
  | .stall q => q.toNat ≤ 4
  | .tokenPush q => q = 1
  | .tokenMarkerHead q => 1 ≤ q.toNat && q.toNat ≤ 4
  | .commandAccept q => 2 ≤ q.toNat && q.toNat ≤ 4
  | .commandRetire q _ => 2 ≤ q.toNat && q.toNat ≤ 4
  | .join port _ => port < 4
  | .elem port _ _ => port < 4
  | .accept port _ => port < 4
  | .busy port _ => port < 4
  | .leave port _ => port < 4
  | .bar2Read port _ _ => port < 4
  | .bar2Write port _ _ => port < 4
  | .configurationRequest port _ _ => port < 4
  | .unsupportedRequest port _ => port < 4
  | .sample hoop => hoop < 48
  | .thermalWarning die _ => die < 4
  | .thermalCriticalStop die _ => die < 4
  | .backgroundCheck hoop array row _ => hoop < 48 && array < 256 && row < 512
  | .spareReplacement hoop array => hoop < 48 && array < 256
  | .spareRemap hoop array => hoop < 48 && array < 256
  | .arrayWithdraw hoop array => hoop < 48 && array < 256
  | .dieFence die => die < 4
  | .linkTraining port _ _ => port < 4
  | .dutyCycling hoop _ => hoop < 48
  | .temperatureFall die _ => die < 4
  | .pcieCompletion port => port < 4
  | .garzarOtherType port _ => port < 4
  | .lui .. | .auipc .. | .jal .. | .jalr .. | .beq .. | .bne .. | .blt .. | .bge .. | .bltu .. | .bgeu ..
  | .lb .. | .lh .. | .lw .. | .ld .. | .lbu .. | .lhu .. | .lwu .. | .sb .. | .sh .. | .sw .. | .sd ..
  | .addi .. | .slti .. | .sltiu .. | .xori .. | .ori .. | .andi .. | .slli .. | .srli .. | .srai ..
  | .add .. | .sub .. | .sll .. | .slt .. | .sltu .. | .xor .. | .srl .. | .sra .. | .or .. | .and ..
  | .addiw .. | .slliw .. | .srliw .. | .sraiw .. | .addw .. | .subw .. | .sllw .. | .srlw .. | .sraw ..
  | .mul .. | .mulh .. | .mulhsu .. | .mulhu .. | .div .. | .divu .. | .rem .. | .remu .. | .mulw ..
  | .divw .. | .divuw .. | .remw .. | .remuw .. | .lrW .. | .lrD .. | .scW .. | .scD .. | .amoswapW ..
  | .amoaddW .. | .amoxorW .. | .amoandW .. | .amoorW .. | .amominW .. | .amomaxW .. | .amominuW ..
  | .amomaxuW .. | .amoswapD .. | .amoaddD .. | .amoxorD .. | .amoandD .. | .amoorD .. | .amominD ..
  | .amomaxD .. | .amominuD .. | .amomaxuD .. | .fenceTso | .ecall | .ebreak | .csrrw .. | .csrrs ..
  | .csrrc .. | .csrrwi .. | .csrrsi .. | .csrrci .. | .flagCsrAccess .. | .vstartWrite .. | .vfrmWrite ..
  | .dwdataAccess .. | .dwdataiAccess .. | .vaddVv .. | .vaddVx .. | .vaddVi .. | .vsubVv .. | .vsubVx ..
  | .vrsubVx .. | .vrsubVi .. | .vminuVv .. | .vminuVx .. | .vminVv .. | .vminVx .. | .vmaxuVv ..
  | .vmaxuVx .. | .vmaxVv .. | .vmaxVx .. | .vandVv .. | .vandVx .. | .vandVi .. | .vorVv .. | .vorVx ..
  | .vorVi .. | .vxorVv .. | .vxorVx .. | .vxorVi .. | .vsllVv .. | .vsllVx .. | .vsllVi .. | .vsrlVv ..
  | .vsrlVx .. | .vsrlVi .. | .vsraVv .. | .vsraVx .. | .vsraVi .. | .vmulVv .. | .vmulVx .. | .vmulhVv ..
  | .vmulhVx .. | .vmulhuVv .. | .vmulhuVx .. | .vdivuVv .. | .vdivuVx .. | .vdivVv .. | .vdivVx ..
  | .vremuVv .. | .vremuVx .. | .vremVv .. | .vremVx .. | .vmaccVv .. | .vmaccVx .. | .vsadduVv ..
  | .vsadduVx .. | .vsadduVi .. | .vsaddVv .. | .vsaddVx .. | .vsaddVi .. | .vssubuVv .. | .vssubuVx ..
  | .vssubVv .. | .vssubVx .. | .vnclipuVv .. | .vnclipuVx .. | .vnclipuVi .. | .vnclipVv .. | .vnclipVx ..
  | .vnclipVi .. | .vmergeVv .. | .vmergeVx .. | .vmergeVi .. | .vmvVv .. | .vmvVx ..
  | .vmvVi .. | .vabs .. | .vbcnt .. | .vmseqVv .. | .vmseqVx .. | .vmseqVi .. | .vmsneVv .. | .vmsneVx ..
  | .vmsneVi .. | .vmsltuVv .. | .vmsltuVx .. | .vmsltVv .. | .vmsltVx .. | .vmsleuVv .. | .vmsleuVx ..
  | .vmsleuVi .. | .vmsleVv .. | .vmsleVx .. | .vmsleVi .. | .vmsgtuVv .. | .vmsgtuVx .. | .vmsgtuVi ..
  | .vmsgtVv .. | .vmsgtVx .. | .vmsgtVi .. | .vfaddVv .. | .vfaddVf .. | .vfsubVv .. | .vfsubVf ..
  | .vfrsubVf .. | .vfmulVv .. | .vfmulVf .. | .vfmaccVv .. | .vfmaccVf .. | .vfnmsacVv .. | .vfnmsacVf ..
  | .vfminVv .. | .vfminVf .. | .vfmaxVv .. | .vfmaxVf .. | .vfsgnjVv .. | .vfsgnjVf .. | .vfsgnjnVv ..
  | .vfsgnjnVf .. | .vfsgnjxVv .. | .vfsgnjxVf .. | .vfrcp .. | .vfrsqrt .. | .vfexp2 .. | .vfclass ..
  | .vmfeqVv .. | .vmfeqVf .. | .vmfneVv .. | .vmfneVf .. | .vmfltVv .. | .vmfltVf ..
  | .vmfleVv .. | .vmfleVf .. | .vmfgtVv .. | .vmfgtVf .. | .vmfgeVv .. | .vmfgeVf .. | .vmfordVv ..
  | .vmfordVf .. | .vsrch .. | .vsrng .. | .vcpop .. | .vfirst .. | .vmand .. | .vmor .. | .vmxor ..
  | .vmandn .. | .vmnand .. | .vmnor .. | .vmorn .. | .vmxnor .. | .vmsbf .. | .vmsif .. | .vmsof ..
  | .viota .. | .vid .. | .vcompress .. | .vcompi .. | .vtopk .. | .vlut .. | .vbfly .. | .vhad ..
  | .vxchg .. | .vslideup .. | .vslidedown .. | .vrgather .. | .vredsum .. | .vredmax .. | .vredmin ..
  | .vredmaxu .. | .vredminu .. | .vfredsum .. | .vfredosum .. | .vfredmax .. | .vfredmin .. | .vmvxs ..
  | .vmvsx .. | .qcomp .. | .vquant .. | .vdequant .. | .qbind .. | .qunbind .. | .qmul .. | .qmulx ..
  | .qmax .. | .qrcp .. | .qmv .. | .qtag .. | .qbindt .. | .qunbindt .. 
  | .vlq .. | .vsq .. | .qld .. | .qst .. | .wsrch ..
  | .wdot .. | .wtopk .. | .vamoAdd .. | .vamoAnd .. | .vamoOr .. | .vamoXor .. | .vamoSmin ..
  | .vamoSmax .. | .vamoUmax .. | .vamoSwap .. | .vlgl .. | .vssc .. | .vfascan .. | .mld .. | .mldg ..
  | .mflip .. | .mmac .. | .mgrp .. | .mst .. | .mzero .. | .mtile .. | .cpy .. | .cpyx .. | .cpyf ..
  | .vsend .. | .vrecv .. | .msgx .. | .nmq .. | .kvsplice .. | .kvrepair .. | .kvcommit .. | .kvseal ..
  | .kvgather .. | .gwalk .. | .gins .. | .gdel .. | .vsetvli .. | .vsetivli .. | .vsetvl .. | .vsetmt ..
  | .loop .. | .loopi .. | .lpbrk | .lpidx .. | .bararv .. | .barwait .. | .barsync .. | .publish ..
  | .pubwait .. | .yield | .sexit | .launch .. | .gsubmit .. | .cntwait .. | .cntread .. | .cancel ..
  | .hpart .. | .cntnew .. | .tret | .idle | .ctxsave .. | .ctxload .. | .tlbinv .. | .keyinv .. | .suEnd
  | .loadProgram .. | .run .. | .spill .. | .contextReschedule .. | .launchAccept .. | .graphAccept ..
  | .submissionResult | .jobPacketRead .. | .jobNextPhase .. | .phaseNextSubmission .. | .nodeComplete ..
  | .readyPoolDispatch .. | .slotBeginIssue .. | .readyEntryAge .. | .timeSliceExpiry ..
  | .preemptionRequest .. | .preemptionStop | .graceExpiry .. | .contextSave .. | .saveComplete ..
  | .saveBegin .. | .saveRestart .. | .strandCancelStop | .counterIncrement .. | .waitEnd | .feResultWrite
  | .matrixStep .. | .followOnAccept | .copyChunk | .kvStep | .darnerListWrite ..
  | .repairSessionAbandon .. | .walkerRound | .resultRound | .trapTake | .publishInstallation ..
  | .pageWalk .. | .messageAccept .. | .elemRetry .. | .meshCommand .. | .meshTranslationRequest ..
  | .meshTranslationResponse .. | .meshCompletion .. | .meshFaultRecord .. | .meshImageData ..
  | .meshCredit .. | .registerWrite .. | .jobQueueDoorbell .. | .alloc | .erase | .seal | .unseal | .attest
  | .debugAuth | .mailboxResponse | .contextInvalidate .. | .contextTeardown .. | .msixSend ..
  | .msixUnmask .. | .halt .. | .resume .. | .strandEndRequest .. | .traceRingEnable .. | .tabgidelOpen ..
  | .tabgidelAccess .. | .traceRecordsLost .. | .idleWake .. | .powerLimit .. | .thermalResume
  | .errorRecordWrite | .lastingFault .. | .channelPowerDownRequest .. | .channelDrainEnd ..
  | .channelSpillEnd .. | .channelWake .. | .channelRestoreEnd .. | .checkpointRequest .. | .checkpointCut
  | .checkpointTimeout | .checkpointRestore .. | .deviceReset .. | .serviceRelease .. | .deviceReady ..
  | .deviceDescriptionUpdate .. | .meshOtherKind .. | .unknownOpcode | .mailboxRequestIgnored .. => true

end Sys2Proof
end

