-- ==== Sys2Proof/Certificates/Slice0/Obligations.lean ====
section
/-! DEFINITION. The statements for the provers. Each formalises what a rule of spec/ says that an instruction or the
machine does; the definitions in the namespace Claims are the vocabulary that they share. Where a conclusion is an
equation between states, everything that it does not name is as before: every register, every CSR, every byte of memory.
A value or a choice that the spec leaves open stands in the model's counter `freeCtr`; nothing is said of it. -/

open Sys2Proof Sys2Proof.Machine

/-! ## Encoding and the step -/

namespace Sys2Proof.Claims

/-- What a front sees before it fetches: it may issue, no fault is pending, and no breakpoint stands at its pc (R433,
R462). -/
def FrontGoes (s : State) : Prop :=
  frontLive s.strand = true ∧ s.strand.pending = [] ∧ breakAt s s.strand = none

/-- Words written out from the encoding tables (R69 to R81), with the instructions that they stand for. -/
noncomputable def knownWords : List (Nat × Instr) :=
  [(0b1111111_00000_00001_000_00010_0010011, .addi 2 1 (-32)),
   (0b0100000_00011_00010_000_00001_0110011, .sub 1 2 3),
   (0b0000001_00011_00010_101_00001_0110011, .divu 1 2 3),
   (0b0000000_00111_00110_001_01000_1100011, .bne 6 7 4),
   (0b0000000_00101_00010_011_01000_0100011, .sd 2 5 8),
   (0b00000_1_1_01100_01011_010_01010_0101111, .amoaddW 10 11 12 1 1),
   (0b000000000010_00001_010_00101_1110011, .csrrs 5 1 2),
   (0b000000_1_00010_00011_000_00100_0001011, .vaddVv 4 3 2 1),
   (0b0000110_00000_00110_110_01010_1111011, .cntnew 10 6),
   (0b0000110_00000_01010_101_00000_1111011, .barsync 10)]

end Sys2Proof.Claims

/-- Ten words, each written out bit by bit from the spec's tables, decode to the instructions that they stand for. -/
def Obligations.KnownWordsDecode : Prop :=
  ∀ p ∈ Claims.knownWords, decode (BitVec.ofNat 32 p.1) = .ok p.2

/-- Decoding undoes encoding: every well-formed instruction that has a word is read back from it, in the format of the
strands or in that of the stack units. -/
def Obligations.DecodeUndoesEncode : Prop :=
  ∀ (i : Instr) (w : Word32), i.wf = true → encode i = some w →
    (if i.forUnit then decodeSu w else decode w) = .ok i

/-- Encoding undoes decoding: a word that a strand or a stack unit reads as an instruction is that instruction's one
word, so no two words name one instruction and no bit of a word is passed over. -/
def Obligations.EncodeUndoesDecode : Prop :=
  (∀ (w : Word32) (i : Instr), decode w = .ok i → encode i = some w) ∧
  (∀ (w : Word32) (i : Instr), decodeSu w = .ok i → encode i = some w)

/-- A front that may go on runs the word at its pc: the fetch reads it, exec runs what it decodes to with the word
noted, and the step adds the passing of time. A word that names no instruction raises ILL with the subcode of R68. -/
def Obligations.StepRunsTheFrontsInstruction : Prop :=
  ∀ (s s1 : State) (w : Word32), nextTurn s = .front → Claims.FrontGoes s → fetchWord s = (.ok w, s1) →
    (∀ i t, decode w = .ok i → exec i { s1 with fetched := w, actor := .front } = .next t →
      step s = .next (settle s t)) ∧
    (∀ e, decode w = .error e →
      step s = .next (settle s (frontTrap
        { cause := 1, tval := BitVec.ofNat 64 (if e = .reservedSystem ∧ sysLevel s1.strand = false then 7 else e.subcode)
          telem := 0 } s1)))

/-- The head of the V queue runs at a turn of the vector side, a stack unit's entry at a turn of the unit, and an event
at its own turn: the step is exec of the instruction and the passing of time. So is a turn in which the check of a read
of HBM finds an error (log 84), one in which service firmware acts, and a read of BAR0 that the host makes (R420). -/
def Obligations.StepRunsTheOthersInstruction : Prop :=
  (∀ (s t : State) (e : VEntry) (es : List VEntry) (i : Instr), nextTurn s = .vec → s.strand.vq = e :: es →
    counted s.strand = true → isStrand s.strand = true → s.strand.haltWait = none → queueStopped s.strand .v = false →
    isMarker e.word = false → isVecWord e.word = true → decode e.word = .ok i →
    exec i { s with fetched := e.word, actor := .vec } = .next t → step s = .next (settle s t)) ∧
  (∀ (s t : State) (u : Nat) (c : SuCmd) (w : Word32) (i : Instr), nextTurn s = .unit u → u < 256 →
    (unitOf s u).running = some c → s.hub.quiesce = false → (unitOf s u).started = true →
    (unitOf s u).buf[(unitOf s u).entry]? = some w → decodeSu w = .ok i →
    exec i { s with fetched := w, curUnit := u } = .next t → step s = .next (settle s t)) ∧
  (∀ (s t : State) (i : Instr), nextTurn s = .ev i → encode i = none → exec i s = .next t →
    step s = .next (settle s t)) ∧
  (∀ (s : State) (l : Nat) (bad : Bool), nextTurn s = .line l bad → step s = .next (settle s (lineCheck l bad s))) ∧
  (∀ (s : State) (f : FirmwareAct), nextTurn s = .firmware f → step s = .next (settle s (firmwareAct f s))) ∧
  (∀ (s : State) (port off : Nat), nextTurn s = .hostRead port off → respondsAt s off = true →
    step s = .next (settle s { s with out := s.out ++ [⟨port, 3, off, leBytes 8 (hostRead s off)⟩] }))

/-- What reset leaves where the spec gives a value: no strand, vtype with vill, empty scale registers, no token, the
kvdev value, no partition, eight spares, no key, the debug port closed, and n = 8 of the trace output control. -/
def Obligations.ResetValues : Prop :=
  let s := State.reset
  isStrand s.strand = false ∧ s.pool = [] ∧ s.strand.vl = 0 ∧ s.strand.vtype = 0x8000000000000000#64 ∧
  s.strand.mtype = 0 ∧ s.strand.loops = [] ∧ s.strand.empty = 0 ∧ s.strand.resv = none ∧
  (∀ r : Reg, readReg s.strand r = 0) ∧ (∀ a b : Queue, tokens s.strand a b = 0) ∧
  (∀ k : Fin 32, s.strand.q.get k = { entries := [], fmt := 3, len := 0, gen := 0 }) ∧
  (∀ k : Fin 32, s.strand.tags.get k = 0) ∧ s.strand.csr.kvdev = 0x7F800000#64 ∧ s.strand.csr.tstatus = 0 ∧
  (∀ h : Nat, (hoopOf s h).spares = 8 ∧ ∀ k : Fin 8, ((hoopOf s h).grants.get k).enabled = false) ∧
  (∀ k : Nat, (keySlot s k).loaded = false) ∧ s.hub.counters = [] ∧ s.hub.portClosed = true ∧ bar0 s 0xE00101 1 = 8

/-- The state right after reset meets the invariant. -/
def Obligations.ResetMeetsTheInvariant : Prop := State.reset.Inv

/-- Every step keeps memory, and each checkpoint image's memory, in canonical form: keys strictly rising and nothing
listed that an unlisted place reads as, so that equal memories are equal data. -/
def Obligations.StepKeepsMemoryCanonical : Prop :=
  ∀ s t : State, s.MemInv → step s = .next t → t.MemInv

/-- Every step keeps x0 of every strand, and of every strand in a checkpoint image, at zero. -/
def Obligations.StepKeepsX0Zero : Prop :=
  ∀ s t : State, s.ZeroInv → step s = .next t → t.ZeroInv

/-! ## The scalar side -/

namespace Sys2Proof.Claims

/-- Every register of the list is full (R36). -/
def Full (st : Strand) (rs : List Reg) : Prop := ∀ r ∈ rs, isEmpty st r = false

/-- The state after the front has completed an instruction whose only own effect is the strand it leaves. -/
def done (s : State) (st : Strand) : State := advance { s with strand := st }

/-- The state after the front has passed an instruction on to its queue, where it retires (R33, R62). -/
def left (s : State) (st : Strand) : State := leaveFront { s with strand := st }

/-- The state after an instruction whose own effect is one register. -/
def wrote (s : State) (d : Reg) (v : Word) : State := done s (writeReg s.strand d v)

/-- An integer at 64 bits, and at 32 bits sign-extended (R92). -/
def w64 (v : Int) : Word := BitVec.ofInt 64 v
def w32 (v : Int) : Word := BitVec.ofInt 64 (v.bmod (2 ^ 32))

/-- The low 32 bits of a register as an integer. -/
def lo (x : Word) : Nat := x.toNat % 2 ^ 32
def loS (x : Word) : Int := Int.bmod (lo x) (2 ^ 32)

/-- 1 where the condition holds, else 0. -/
def bit (c : Prop) [Decidable c] : Word := if c then 1 else 0

/-- Register forms (R94): the result from x[rs1] and x[rs2]. -/
def registerForms : List ((Reg → Reg → Reg → Instr) × (Word → Word → Word)) :=
  [(.add, fun x y => w64 (x.toInt + y.toInt)), (.sub, fun x y => w64 (x.toInt - y.toInt)),
   (.sll, fun x y => w64 (x.toNat * 2 ^ (y.toNat % 64))), (.slt, fun x y => bit (x.toInt < y.toInt)),
   (.sltu, fun x y => bit (x.toNat < y.toNat)), (.xor, fun x y => x ^^^ y),
   (.srl, fun x y => w64 (x.toNat / 2 ^ (y.toNat % 64))), (.sra, fun x y => w64 (x.toInt / 2 ^ (y.toNat % 64))),
   (.or, fun x y => x ||| y), (.and, fun x y => x &&& y),
   (.addw, fun x y => w32 (x.toInt + y.toInt)), (.subw, fun x y => w32 (x.toInt - y.toInt)),
   (.sllw, fun x y => w32 (x.toNat * 2 ^ (y.toNat % 32))), (.srlw, fun x y => w32 (lo x / 2 ^ (y.toNat % 32))),
   (.sraw, fun x y => w32 (loS x / 2 ^ (y.toNat % 32)))]

/-- Quotient toward zero and remainder with the dividend's sign, with the divisor zero apart (R95). -/
def quot (a b : Int) : Int := if b = 0 then -1 else a.tdiv b
def rest (a b : Int) : Int := if b = 0 then a else a.tmod b

/-- The M extension (R95). -/
def multiplyForms : List ((Reg → Reg → Reg → Instr) × (Word → Word → Word)) :=
  [(.mul, fun x y => w64 (x.toInt * y.toInt)), (.mulh, fun x y => w64 (x.toInt * y.toInt / 2 ^ 64)),
   (.mulhsu, fun x y => w64 (x.toInt * y.toNat / 2 ^ 64)), (.mulhu, fun x y => w64 ((x.toNat * y.toNat / 2 ^ 64 : Nat))),
   (.div, fun x y => w64 (quot x.toInt y.toInt)), (.divu, fun x y => w64 (quot x.toNat y.toNat)),
   (.rem, fun x y => w64 (rest x.toInt y.toInt)), (.remu, fun x y => w64 (rest x.toNat y.toNat)),
   (.mulw, fun x y => w32 (x.toInt * y.toInt)), (.divw, fun x y => w32 (quot (loS x) (loS y))),
   (.divuw, fun x y => w32 (quot (lo x) (lo y))), (.remw, fun x y => w32 (rest (loS x) (loS y))),
   (.remuw, fun x y => w32 (rest (lo x) (lo y)))]

/-- Immediate forms (R94): the result from x[rs1] and the sign-extended immediate. -/
def immediateForms : List ((Reg → Reg → BitVec 12 → Instr) × (Word → Int → Word)) :=
  [(.addi, fun x k => w64 (x.toInt + k)), (.slti, fun x k => bit (x.toInt < k)),
   (.sltiu, fun x k => bit ((x.toNat : Int) < k % 2 ^ 64)), (.xori, fun x k => x ^^^ w64 k), (.ori, fun x k => x ||| w64 k),
   (.andi, fun x k => x &&& w64 k), (.addiw, fun x k => w32 (x.toInt + k))]

/-- Shifts by an immediate amount, of 64 bits and of 32 (R94). -/
def shiftForms64 : List ((Reg → Reg → BitVec 6 → Instr) × (Word → Nat → Word)) :=
  [(.slli, fun x n => w64 (x.toNat * 2 ^ n)), (.srli, fun x n => w64 (x.toNat / 2 ^ n)),
   (.srai, fun x n => w64 (x.toInt / 2 ^ n))]
def shiftForms32 : List ((Reg → Reg → BitVec 5 → Instr) × (Word → Nat → Word)) :=
  [(.slliw, fun x n => w32 (x.toNat * 2 ^ n)), (.srliw, fun x n => w32 (lo x / 2 ^ n)),
   (.sraiw, fun x n => w32 (loS x / 2 ^ n))]

/-- Branches and their conditions (R93). -/
def branchForms : List ((Reg → Reg → BitVec 12 → Instr) × (Word → Word → Bool)) :=
  [(.beq, fun x y => x.toNat = y.toNat), (.bne, fun x y => x.toNat ≠ y.toNat), (.blt, fun x y => x.toInt < y.toInt),
   (.bge, fun x y => y.toInt ≤ x.toInt), (.bltu, fun x y => x.toNat < y.toNat), (.bgeu, fun x y => y.toNat ≤ x.toNat)]

/-- The trap ALIGN at an address (R66, R438). -/
def alignTrap (va : Word) : Trap := { cause := 0x06, tval := va, telem := 0 }

end Sys2Proof.Claims

/-- The multiplications and divisions of R95, division by zero and the overflow of the minimum by minus one included:
none traps; and under OP-32 with funct7 0000001 the functs 001 to 011 are illegal with subcode 1. -/
def Obligations.MultiplyAndDivide : Prop :=
  (∀ p ∈ Claims.multiplyForms, ∀ (d a b : Reg) (s : State), Claims.Full s.strand [a, b, d] → s.strand.dbgStep = false →
    exec (p.1 d a b) s = .next (Claims.wrote s d (p.2 (readReg s.strand a) (readReg s.strand b)))) ∧
  (∀ w : Word32, w.extractLsb' 0 7 = 0b0111011#7 → w.extractLsb' 25 7 = 0b0000001#7 →
    (w.extractLsb' 12 3 = 0b001#3 ∨ w.extractLsb' 12 3 = 0b010#3 ∨ w.extractLsb' 12 3 = 0b011#3) →
    ∃ e, decode w = .error e ∧ e.subcode = 1)

/-- x0 reads as zero, a write of it changes nothing and it is always full; a write of any other register is read back,
and changes no other register and nothing else of the strand. Each register form writes the value of its row of R94 to
x[rd], and nothing else but the front's bookkeeping changes. The immediate forms, the shifts by an amount, LUI and
AUIPC write the values of R93 and R94. -/
def Obligations.ScalarArithmetic : Prop :=
  ((∀ (st : Strand) (d r : Reg) (v : Word),
    readReg st 0 = 0 ∧ isEmpty st 0 = false ∧ writeReg st 0 v = st ∧
    (d ≠ 0 → readReg (writeReg st d v) d = v) ∧
    (r ≠ d → readReg (writeReg st d v) r = readReg st r) ∧
    writeReg st d v = { st with x := (writeReg st d v).x }) : Prop) ∧
  ((∀ p ∈ Claims.registerForms, ∀ (d a b : Reg) (s : State), Claims.Full s.strand [a, b, d] → s.strand.dbgStep = false →
    exec (p.1 d a b) s = .next (Claims.wrote s d (p.2 (readReg s.strand a) (readReg s.strand b)))) : Prop) ∧
  (((∀ p ∈ Claims.immediateForms, ∀ (d a : Reg) (i : BitVec 12) (s : State), Claims.Full s.strand [a, d] →
    s.strand.dbgStep = false → exec (p.1 d a i) s = .next (Claims.wrote s d (p.2 (readReg s.strand a) i.toInt))) ∧
  (∀ p ∈ Claims.shiftForms64, ∀ (d a : Reg) (h : BitVec 6) (s : State), Claims.Full s.strand [a, d] →
    s.strand.dbgStep = false → exec (p.1 d a h) s = .next (Claims.wrote s d (p.2 (readReg s.strand a) h.toNat))) ∧
  (∀ p ∈ Claims.shiftForms32, ∀ (d a : Reg) (h : BitVec 5) (s : State), Claims.Full s.strand [a, d] →
    s.strand.dbgStep = false → exec (p.1 d a h) s = .next (Claims.wrote s d (p.2 (readReg s.strand a) h.toNat))) ∧
  (∀ (d : Reg) (i : BitVec 20) (s : State), Claims.Full s.strand [d] → s.strand.dbgStep = false →
    exec (.lui d i) s = .next (Claims.wrote s d (Claims.w64 (i.toInt * 4096))) ∧
    exec (.auipc d i) s = .next (Claims.wrote s d (s.strand.pc + Claims.w64 (i.toInt * 4096))))) : Prop)

/-- JAL, JALR and the branches go to their target, with the link in x[rd]; a target that is not a multiple of 4 raises
ALIGN with the target in tval, and rd is not written; a branch that is not taken goes on. -/
def Obligations.JumpsAndBranches : Prop :=
  (∀ (d : Reg) (i : BitVec 20) (s : State), Claims.Full s.strand [d] → s.strand.dbgStep = false →
    let t := s.strand.pc + Claims.w64 (i.toInt * 2)
    exec (.jal d i) s = .next (if t.toNat % 4 = 0 then
        jump t { s with strand := writeReg s.strand d (s.strand.pc + 4) }
      else frontTrap (Claims.alignTrap t) s)) ∧
  (∀ (d a : Reg) (i : BitVec 12) (s : State), Claims.Full s.strand [a, d] → s.strand.dbgStep = false →
    let x := (readReg s.strand a + Claims.w64 i.toInt).toNat
    let t := BitVec.ofNat 64 (x / 2 * 2)
    exec (.jalr d a i) s = .next (if t.toNat % 4 = 0 then
        jump t { s with strand := writeReg s.strand d (s.strand.pc + 4) }
      else frontTrap (Claims.alignTrap t) s)) ∧
  (∀ p ∈ Claims.branchForms, ∀ (a b : Reg) (i : BitVec 12) (s : State), Claims.Full s.strand [a, b] →
    s.strand.dbgStep = false →
    let t := s.strand.pc + Claims.w64 (i.toInt * 2)
    exec (p.1 a b i) s = .next (
      if p.2 (readReg s.strand a) (readReg s.strand b) then
        if t.toNat % 4 = 0 then jump t s else frontTrap (Claims.alignTrap t) s
      else advance s))

/-! ## Memory, translation and the accesses of the scalar side -/

namespace Sys2Proof.Claims

/-- A byte as it is read: of HBM under the number of a key, of SRAM without one (R410). -/
def byteAt (m : Mem) (key : Option Nat) (a : Nat) : Byte :=
  match key with
  | some k => keyedByte m k a
  | none => smRead 0 m.bytes a

/-- What a table entry reads as: HBM under the context's base key, which must be the context's, and not poisoned (R407). -/
def entryAt (s : State) (p : Port) (a : Nat) : Option Nat :=
  match regionOf a with
  | .hbm h =>
    let slot := ctxBaseKey s p.asid.toNat
    if keyOk s p slot = true ∧ isPoisoned s.mem h 8 = false then some (leNat (hbmRead s slot h 8)) else none
  | _ => none

/-- A valid entry that points to a table, and one that is a leaf (R133). -/
def isTable (e : Nat) : Bool :=
  natBits e 0 0 = 1 && natBits e 63 54 = 0 && natBits e 9 9 = 0 && natBits e 3 1 = 0 && natBits e 8 4 = 0 && natBits e 19 15 = 0
def isLeaf (e : Nat) : Bool :=
  natBits e 0 0 = 1 && natBits e 63 54 = 0 && natBits e 9 9 = 0 && natBits e 3 1 ≠ 0 && (natBits e 2 2 = 0 || natBits e 1 1 = 1)

/-- The table that a table entry points to. -/
def tableOf (e : Nat) : Nat := natBits e 53 20 * 2 ^ 18 + natBits e 14 10 * 2 ^ 13

/-- The bit A that a walk sets in a leaf (R135). -/
def marked (e : Nat) : Nat := e + (if natBits e 6 6 = 0 then 64 else 0)

/-- The TLB entry of a leaf of 2^bits bytes (R131, R136). -/
def tlbOf (p : Port) (va bits e : Nat) : TlbEntry :=
  { asid := p.asid, global := natBits e 5 5 = 1 ∧ p.asid = 0, va := va / 2 ^ bits * 2 ^ bits, bits := bits
    pa := natBits e 53 20 * 2 ^ 18, pte := BitVec.ofNat 64 e }

/-- A leaf gives the right that an access needs (R133, R134). -/
def grants (p : Port) (k : AccKind) (e : TlbEntry) : Bool :=
  (match k with
    | .load => e.pte.getLsbD 1
    | .store => e.pte.getLsbD 2
    | .fetch => e.pte.getLsbD 3) && (p.sys || e.pte.getLsbD 4)

/-- What a translation by an entry leads to: PF without the right; a write through a clean entry is the page's first. -/
def placeOf (p : Port) (va : Nat) (k : AccKind) (e : TlbEntry) : Except Stop Place :=
  if grants p k e then
    .ok { pa := e.pa + (va - e.va), key := natBits e.pte.toNat 19 10, foreign := e.global && p.asid ≠ 0
          first := if k = .store && (e.pte.getLsbD 2 && !e.pte.getLsbD 7) then some va else none }
  else .error (.trap { cause := 0x04, tval := BitVec.ofNat 64 va, telem := 0 })

/-- An entry after a write through it has set D (R135). -/
def written (p : Port) (va : Nat) (e : TlbEntry) : TlbEntry :=
  if tlbHits p.asid va e && (e.pte.getLsbD 2 && !e.pte.getLsbD 7) then { e with pte := e.pte ||| 0x80 } else e

/-- No older vector memory instruction of the strand may touch one of the bytes (R265). -/
def ClearOfVector (s : State) (va n : Nat) : Prop := ∀ e ∈ s.strand.vq, vMayTouch s va n e = false

/-- Nor does one of them still have to read, which a scalar write waits for (R269, R271). -/
def ClearToWrite (s : State) (va n : Nat) : Prop := ClearOfVector s va n ∧ vReadBusy s.strand = false

/-- The address of a base load or store (R96). -/
def addr (s : State) (a : Reg) (i : BitVec 12) : Nat := (readReg s.strand a + w64 i.toInt).toNat

/-- The loads (R96): size, and how the bytes become a word. -/
def loads : List ((Reg → Reg → BitVec 12 → Instr) × Nat × (Nat → Word)) :=
  [(.lb, 1, fun v => w64 (Int.bmod v (2 ^ 8))), (.lh, 2, fun v => w64 (Int.bmod v (2 ^ 16))),
   (.lw, 4, fun v => w64 (Int.bmod v (2 ^ 32))), (.ld, 8, fun v => w64 v), (.lbu, 1, fun v => w64 v),
   (.lhu, 2, fun v => w64 v), (.lwu, 4, fun v => w64 v)]

/-- The stores (R96). -/
def stores : List ((Reg → Reg → BitVec 12 → Instr) × Nat) := [(.sb, 1), (.sh, 2), (.sw, 4), (.sd, 8)]

/-- The functions of the AMOs on the old value, sign-extended, and the operand (R98). -/
def amos : List (Word → Word → Word) :=
  [fun _ x => x, fun o x => w64 (o.toInt + x.toInt), fun o x => o ^^^ x, fun o x => o &&& x, fun o x => o ||| x,
   fun o x => if x.toInt < o.toInt then x else o, fun o x => if o.toInt < x.toInt then x else o,
   fun o x => BitVec.ofNat 64 (min o.toNat x.toNat), fun o x => BitVec.ofNat 64 (max o.toNat x.toNat)]
def amoWords : List (Reg → Reg → Reg → BitVec 1 → BitVec 1 → Instr) :=
  [.amoswapW, .amoaddW, .amoxorW, .amoandW, .amoorW, .amominW, .amomaxW, .amominuW, .amomaxuW]
def amoDoubles : List (Reg → Reg → Reg → BitVec 1 → BitVec 1 → Instr) :=
  [.amoswapD, .amoaddD, .amoxorD, .amoandD, .amoorD, .amominD, .amomaxD, .amominuD, .amomaxuD]

/-- The AMOs: instruction, size, function. -/
def amoForms : List ((Reg → Reg → Reg → BitVec 1 → BitVec 1 → Instr) × Nat × (Word → Word → Word)) :=
  (amoWords.zip amos).map (fun (i, f) => (i, 4, f)) ++ (amoDoubles.zip amos).map (fun (i, f) => (i, 8, f))

/-- rl = 1 waits until the older vector accesses have retired (R99). -/
def Released (s : State) (l : BitVec 1) : Prop := l = 1 → vMemBusy s.strand = false

/-- The scalar side's checked access to n bytes: translation, permissions, key, watchpoints and races, from s to s1. -/
def Reaches (s s1 : State) (va n : Nat) (rd wr atomic mmio : Bool) (pl : Place) : Prop :=
  access (strandPort s.strand 1) va n rd wr atomic mmio s = (.ok pl, s1)

/-- With rl = 1 the context epoch of race detection advances (R292). -/
def released (l : BitVec 1) (s : State) : State := if l = 1 then advanceEpoch s.strand.asid s else s

/-- With aq = 1 the hoop's stream buffers are invalidated (R99, R123). -/
def acquired (q : BitVec 1) (s : State) : State := if q = 1 then dropBuffers s.strand.hoop s else s

/-- What a write of n bytes at a takes from a strand: its reservation on a 64-byte granule that it meets, but for a write of
its own scalar side (R97), and its links on those granules, but for a write of its own sides (R286). -/
def Loses (p : Port) (a n : Nat) (x y : Strand) : Prop :=
  let meets (g : Nat) : Prop := n ≠ 0 ∧ a / 64 ≤ g ∧ g ≤ (a + n - 1) / 64
  (∀ g, x.resv = some g → (meets g → ¬(p.agent = 1 ∧ p.id = some x.id) → y.resv = none) ∧
    (¬meets g ∨ (p.agent = 1 ∧ p.id = some x.id) → y.resv = some g)) ∧
  (x.resv = none → y.resv = none) ∧
  ∀ g, (meets g → ¬(p.agent ≤ 2 ∧ p.id = some x.id) → smGet y.links g = none) ∧
    (¬meets g ∨ (p.agent ≤ 2 ∧ p.id = some x.id) → smGet y.links g = smGet x.links g)

/-- No channel of HBM is down, or on its way there or back (R446). -/
def ChannelsUp (s : State) : Prop := ∀ x ∈ s.units, x.2.power = .active ∨ x.2.power = .drain

/-- The bytes of HBM or SRAM behind a place that lies in one 4 KiB block. -/
def placeBytes (s : State) (pl : Place) (n : Nat) : List Byte :=
  match regionOf pl.pa with
  | .hbm a => (List.range n).map fun o => keyedByte s.mem (keyName s pl.key) (a + o)
  | _ => (List.range n).map fun o => smRead 0 s.mem.bytes (pl.pa + o)

end Sys2Proof.Claims

/-- Reading bytes back after writing them gives the bytes written, in HBM under any key and in SRAM; every other byte
of a word that is not poisoned reads as before; a write clears the poison of the words it touches, and of a poisoned
word that it covers in part the other bytes become zero. What an access finds at a checked place, and what a write
leaves there: HBM under the place's key and SRAM as bytes of memory, piece by piece of 4 KiB, since both aliases of
HBM are one range within such a block only. A load that meets no poison gives those bytes and one that does raises
POISON at the first poisoned byte; a vector load fills a stream buffer with its block of HBM, and may read the block
as the buffer holds it; a scalar load and a write of HBM invalidate the hoop's stream buffers of their block. A write
takes away the reservations and links that it meets, and nothing else of memory changes, but for D of the page that it
is the first to write. -/
def Obligations.MemoryAndPlaces : Prop :=
  ((∀ (m : Mem) (key : Option Nat) (a : Nat) (bs : List Byte),
    loadBytes (storeBytes m key a bs) key a bs.length = bs ∧
    (∀ i : Nat, ∀ h : i < bs.length, Claims.byteAt (storeBytes m key a bs) key (a + i) = bs[i]) ∧
    (∀ b : Nat, b < a ∨ a + bs.length ≤ b → smGet m.poison (b / 8) = none →
      Claims.byteAt (storeBytes m key a bs) key b = Claims.byteAt m key b) ∧
    (∀ w : Nat, bs ≠ [] → a / 8 ≤ w → w ≤ (a + bs.length - 1) / 8 →
      smGet (storeBytes m key a bs).poison w = none ∧
      (smGet m.poison w ≠ none → ∀ o : Nat, o < 8 → (8 * w + o < a ∨ a + bs.length ≤ 8 * w + o) →
        Claims.byteAt (storeBytes m key a bs) key (8 * w + o) = 0)) ∧
    (m.wf = true → (storeBytes m key a bs).wf = true)) : Prop) ∧
  ((∀ (s : State) (p : Port) (pl : Place) (n : Nat) (bs : List Byte),
    (∀ a, regionOf pl.pa = .hbm a → pl.pa % 4096 + n ≤ 4096 → pl.pa % 4096 + bs.length ≤ 4096 →
      readPlace pl n s = (.ok (Claims.placeBytes s pl n), s) ∧
      (∀ h va, p.id.isSome = true → p.agent = 1 → p.hoop = some h →
        (isPoisoned s.mem a n = false →
          loadPlace p pl n va s = (.ok (Claims.placeBytes s pl n), dropBlocks h a n s)) ∧
        (∀ o, o < n → isPoisoned s.mem a n = true → isPoisoned s.mem (a + o) 1 = true →
          (∀ i, i < o → isPoisoned s.mem (a + i) 1 = false) →
          ∃ t, loadPlace p pl n va s = (.error (.trap { cause := 0x0C, tval := BitVec.ofNat 64 (va + o), telem := 0 }), t))) ∧
      (∀ h va, p.id.isSome = true → p.agent = 2 → p.hoop = some h → isPoisoned s.mem a n = false →
        ((∀ b ∈ (hoopOf s h).buffers, b.block ≠ a / 4096) →
          ∃ t, loadPlace p pl n va s = (.ok (Claims.placeBytes s pl n), t) ∧ t.mem = s.mem ∧ t.strand = s.strand ∧
            ∃ b ∈ (hoopOf t h).buffers, b.block = a / 4096 ∧ b.asid = p.asid ∧ b.key = pl.key) ∧
        (∀ b, (hoopOf s h).buffers = [b] → b.block = a / 4096 → b.asid = p.asid → b.key = pl.key →
          isPoisoned b.asMem a n = false → ∃ t got, loadPlace p pl n va s = (.ok got, t) ∧ t.mem = s.mem ∧
            (got = loadBytes b.asMem (some (keyName s pl.key)) a n ∨ got = Claims.placeBytes s pl n))) ∧
      (pl.first = none → ∃ t, writePlace p pl bs s = (.ok (), t) ∧
        t.mem = storeBytes s.mem (some (keyName s pl.key)) a bs ∧
        t.strand.x = s.strand.x ∧ t.strand.csr = s.strand.csr ∧ t.strand.vq = s.strand.vq ∧ t.hub = s.hub ∧
        Claims.Loses p a bs.length s.strand t.strand ∧ List.Forall₂ (Claims.Loses p a bs.length) s.pool t.pool ∧
        (∀ h, bs ≠ [] → p.id.isSome = true → p.agent ≤ 2 → p.hoop = some h →
          (hoopOf t h).buffers = (hoopOf s h).buffers.filter fun b => b.block ≠ a / 4096))) ∧
    (∀ g, regionOf pl.pa = .sram g → pl.pa % 4096 + n ≤ 4096 → pl.pa % 4096 + bs.length ≤ 4096 →
      readPlace pl n s = (.ok (Claims.placeBytes s pl n), s) ∧
      (∀ va, placePoisoned s pl n = false → loadPlace p pl n va s = (.ok (Claims.placeBytes s pl n), s)) ∧
      (pl.first = none → ∃ t, writePlace p pl bs s = (.ok (), t) ∧ t.mem = storeBytes s.mem none pl.pa bs ∧
        t.strand.x = s.strand.x ∧ t.strand.csr = s.strand.csr ∧ t.strand.vq = s.strand.vq ∧ t.hub = s.hub ∧
        Claims.Loses p pl.pa bs.length s.strand t.strand ∧ List.Forall₂ (Claims.Loses p pl.pa bs.length) s.pool t.pool)) ∧
    (4096 < pl.pa % 4096 + n →
      (∀ q ∈ placePieces pl n, ∃ a, regionOf q.1.pa = .hbm a) →
      readPlace pl n s = (.ok ((placePieces pl n).flatMap fun (q, _, k) => Claims.placeBytes s q k), s)) ∧
    (∀ q ∈ placePieces pl n, q.1.key = pl.key ∧ q.1.pa = pl.pa + q.2.1 ∧ q.1.pa % 4096 + q.2.2 ≤ 4096) ∧
    (∀ va, pl.first = some va → ∃ s1, setDirty p va s = (.ok (), s1) ∧
      writePlace p pl bs s = writePlace p { pl with first := none } bs s1)) : Prop)

/-- A translation that the hoop's TLB serves, or for an element of an indexed access its lane block's bank: the
entry's permission bits decide between the physical address and PF with the address in tval, nothing changes, and an
address of 2^48 or more is PF. An access that it serves and that meets no watchpoint and no race detection leaves the
state as it is. A translation that the TLB does not serve walks the tables from the root (R133): a leaf at the second
level maps 256 MiB and one at the third 256 KiB (of tables in channels that are up: a walk wakes the others, R446);
the walk sets A in the leaf, and the entry goes into the TLB; D is set in the leaf and in the TLB's entries when the
first write is performed (R135). -/
def Obligations.Translation : Prop :=
  (((∀ (s : State) (p : Port) (va : Nat) (k : AccKind), 2 ^ 48 ≤ va →
    translate p va k s = (.error (.trap { cause := 0x04, tval := BitVec.ofNat 64 va, telem := 0 }), s)) ∧
  (∀ (s : State) (p : Port) (h va : Nat) (k : AccKind) (e : TlbEntry), va < 2 ^ 48 → p.hoop = some h →
    (match p.bank with
      | none => (hoopOf s h).tlb
      | some b => smRead [] (hoopOf s b.1).banks b.2).find?
        (fun x => (x.global || x.asid = p.asid) && x.va ≤ va && va < x.va + 2 ^ x.bits) = some e →
    (k = .store → e.pte.getLsbD 2 = true → e.pte.getLsbD 7 = true) →
    translate p va k s = (Claims.placeOf p va k e, s)) ∧
  (∀ (s : State) (p : Port) (va n : Nat) (rd wr mmio : Bool) (pl : Place),
    translate p va (if wr then .store else .load) s = (.ok pl, s) → checkPlace p va n mmio pl s = (.ok (), s) →
    p.id = none ∨ (∀ h k, p.hoop = some h → k < 8 → natBits (bar0 s (windowBase h + 0x200 + 32 * k + 0x10) 8) 0 0 = 0) →
    p.race = 0 → access p va n rd wr false mmio s = (.ok pl, s))) : Prop) ∧
  (((∀ (s : State) (p : Port) (h va slot pte level : Nat), p.hoop = some h → p.bank = none →
    walkFrom p va 3 p.root s = (.ok (slot, pte, level), s) → natBits pte 2 2 = 1 → natBits pte 7 7 = 0 →
    let s1 := (updatePte p slot (pte + 128) s).2
    setDirty p va s =
      (.ok (), setHoop h { hoopOf s1 h with tlb := (hoopOf s1 h).tlb.map (Claims.written p va) } s1)) ∧
  ∀ (s : State) (p : Port) (h va e1 e2 : Nat) (k : AccKind), Claims.ChannelsUp s → va < 2 ^ 48 → p.hoop = some h → p.bank = none →
    (hoopOf s h).tlb.find? (tlbHits p.asid va) = none →
    Claims.entryAt s p (p.root + 8 * natBits va 47 38) = some e1 → Claims.isTable e1 = true →
    let a2 := Claims.tableOf e1 + 8 * natBits va 37 28
    Claims.entryAt s p a2 = some e2 →
    (Claims.isLeaf e2 = true → natBits e2 29 20 = 0 →
      let e := Claims.tlbOf p va 28 (Claims.marked e2)
      let s1 := if Claims.marked e2 = e2 then s else (updatePte p a2 (Claims.marked e2) s).2
      let s2 := setHoop h { hoopOf s1 h with tlb := (e :: (hoopOf s1 h).tlb).take 2048 } s1
      translate p va k s = (Claims.placeOf p va k e, s2)) ∧
    (Claims.isTable e2 = true → ∀ e3, let a3 := Claims.tableOf e2 + 8 * natBits va 27 18
      Claims.entryAt s p a3 = some e3 → Claims.isLeaf e3 = true →
      let e := Claims.tlbOf p va 18 (Claims.marked e3)
      let s1 := if Claims.marked e3 = e3 then s else (updatePte p a3 (Claims.marked e3) s).2
      let s2 := setHoop h { hoopOf s1 h with tlb := (e :: (hoopOf s1 h).tlb).take 2048 } s1
      translate p va k s = (Claims.placeOf p va k e, s2))) : Prop)

/-- A base load whose access passes its checks writes the bytes at its place, extended, to x[rd]; a misaligned one
raises ALIGN with the address. What the checks themselves leave (a TLB entry, A, a race stamp) is s1. A base store
whose access passes its checks writes the low bytes of x[rs2] at its place: they are read back from it, every other
byte of memory (of words not poisoned, under the place's key) reads as before, and no register changes; a misaligned
one raises ALIGN with the address. The first write through a translation sets D before it. -/
def Obligations.LoadsAndStores : Prop :=
  ((∀ p ∈ Claims.loads, ∀ (d a : Reg) (i : BitVec 12) (s : State), Claims.Full s.strand [a, d] → s.strand.dbgStep = false →
    let va := Claims.addr s a i
    let n := p.2.1
    (va % n ≠ 0 → exec (p.1 d a i) s = .next (frontTrap (Claims.alignTrap (BitVec.ofNat 64 va)) s)) ∧
    (∀ s1 s2 pl bs, va % n = 0 → Claims.ClearOfVector s va n → Claims.Reaches s s1 va n true false false true pl →
      loadPlace (strandPort s.strand 1) pl n va s1 = (.ok bs, s2) → s2.strand.dbgStep = false →
      exec (p.1 d a i) s = .next (Claims.wrote s2 d (p.2.2 (leNat bs))))) : Prop) ∧
  ((∀ p ∈ Claims.stores, ∀ (a b : Reg) (i : BitVec 12) (s : State), Claims.Full s.strand [a, b] → s.strand.dbgStep = false →
    let va := Claims.addr s a i
    let n := p.2
    let bs := leBytes n (readReg s.strand b).toNat
    (va % n ≠ 0 → exec (p.1 a b i) s = .next (frontTrap (Claims.alignTrap (BitVec.ofNat 64 va)) s)) ∧
    (∀ s1 pl, va % n = 0 → Claims.ClearToWrite s va n → Claims.Reaches s s1 va n false true false true pl →
      pl.first = none → s1.strand.dbgStep = false → ∃ t, writePlace (strandPort s.strand 1) pl bs s1 = (.ok (), t) ∧
        (t.strand.dbgStep = false → exec (p.1 a b i) s = .next (advance t)) ∧ t.strand.x = s1.strand.x ∧
        (∀ h, regionOf pl.pa = .hbm h → pl.pa % 4096 + n ≤ 4096 → let key := some (keyName s1 pl.key)
          loadBytes t.mem key h n = bs ∧
          ∀ c, c < h ∨ h + n ≤ c → smGet s1.mem.poison (c / 8) = none → Claims.byteAt t.mem key c = Claims.byteAt s1.mem key c) ∧
        (∀ g, regionOf pl.pa = .sram g → pl.pa % 4096 + n ≤ 4096 →
          loadBytes t.mem none pl.pa n = bs ∧
          ∀ c, c < pl.pa ∨ pl.pa + n ≤ c → smGet s1.mem.poison (c / 8) = none →
            Claims.byteAt t.mem none c = Claims.byteAt s1.mem none c)) ∧
    (∀ s1 s2 t pl v, va % n = 0 → Claims.ClearToWrite s va n → Claims.Reaches s s1 va n false true false true pl →
      pl.first = some v → setDirty (strandPort s.strand 1) v s1 = (.ok (), s2) →
      writePlace (strandPort s.strand 1) { pl with first := none } bs s2 = (.ok (), t) → t.strand.dbgStep = false →
      exec (p.1 a b i) s = .next (advance t))) : Prop)

/-- LR reads n bytes sign-extended and reserves their 64-byte granule. SC whose reservation covers the address writes
and gives 0; without one that covers it, it writes nothing and gives 1; the reservation is gone either way. A misaligned one
raises ALIGN. With aq = 1 the hoop's stream buffers are invalidated, and with rl = 1 the older vector accesses have
retired. -/
def Obligations.LoadReservedAndStoreConditional : Prop :=
  (∀ q ∈ [(Instr.lrW, 4, 32), (Instr.lrD, 8, 64)], ∀ (d a : Reg) (aq l : BitVec 1) (s : State),
    Claims.Full s.strand [a, d] → s.strand.dbgStep = false →
    let va := (readReg s.strand a).toNat
    let n := q.2.1
    (va % n ≠ 0 → exec (q.1 d a aq l) s = .next (frontTrap (Claims.alignTrap (BitVec.ofNat 64 va)) s)) ∧
    (∀ s1 s2 pl bs, va % n = 0 → Claims.ClearOfVector s va n → Claims.Released s l →
      Claims.Reaches s s1 va n true false true true pl →
      loadPlace (strandPort s.strand 1) pl n va s1 = (.ok bs, s2) → s2.strand.dbgStep = false →
      s2.strand.asid = s.strand.asid →
      exec (q.1 d a aq l) s = .next (advance (Claims.acquired aq (Claims.released l { s2 with strand :=
        { writeReg s2.strand d (Claims.w64 (Int.bmod (leNat bs) (2 ^ q.2.2))) with
          resv := some (canonical pl.pa / 64) } }))))) ∧
  (∀ q ∈ [(Instr.scW, 4), (Instr.scD, 8)], ∀ (d a b : Reg) (aq l : BitVec 1) (s : State),
    Claims.Full s.strand [a, b, d] → s.strand.dbgStep = false →
    let va := (readReg s.strand a).toNat
    let n := q.2
    (va % n ≠ 0 → exec (q.1 d a b aq l) s = .next (frontTrap (Claims.alignTrap (BitVec.ofNat 64 va)) s)) ∧
    (va % n = 0 → Claims.ClearToWrite s va n → Claims.Released s l → s.strand.resv = none →
      exec (q.1 d a b aq l) s =
        .next (advance (Claims.acquired aq (Claims.released l { s with strand := writeReg s.strand d 1 })))) ∧
    (∀ s0 g r, va % n = 0 → Claims.ClearToWrite s va n → Claims.Released s l → s.strand.resv = some g →
      translate (strandPort s.strand 1) va .load s = (r, s0) → (∀ pl0, r = .ok pl0 → canonical pl0.pa / 64 ≠ g) →
      (∀ e, r = .error e → ∃ x, e = .trap x) → s0.strand.dbgStep = false → s0.strand.asid = s.strand.asid →
      exec (q.1 d a b aq l) s = .next (advance (Claims.acquired aq (Claims.released l { s0 with strand :=
        { writeReg s0.strand d 1 with resv := none } })))) ∧
    (∀ s0 s1 t pl0 pl, va % n = 0 → Claims.ClearToWrite s va n → Claims.Released s l →
      translate (strandPort s.strand 1) va .load s = (.ok pl0, s0) → s.strand.resv = some (canonical pl0.pa / 64) →
      access (strandPort s.strand 1) va n false true true true s0 = (.ok pl, s1) →
      writePlace (strandPort s.strand 1) pl (leBytes n (readReg s.strand b).toNat) s1 = (.ok (), t) →
      t.strand.dbgStep = false → t.strand.asid = s.strand.asid →
      exec (q.1 d a b aq l) s = .next (advance (Claims.acquired aq (Claims.released l { t with strand :=
        { writeReg t.strand d 0 with resv := none } })))))

/-- An AMO replaces the n bytes at its place by the low n bytes of its function of the old value, sign-extended, and the
whole of x[rs2], in one access; x[rd] becomes empty until the old value, sign-extended, returns, and for rd = x0 nothing
returns. A misaligned one raises ALIGN. -/
def Obligations.AtomicMemoryOperations : Prop :=
  ∀ p ∈ Claims.amoForms, ∀ (d a b : Reg) (aq l : BitVec 1) (s : State), Claims.Full s.strand [a, b, d] →
    s.strand.dbgStep = false →
    let va := (readReg s.strand a).toNat
    let n := p.2.1
    (va % n ≠ 0 → exec (p.1 d a b aq l) s = .next (frontTrap (Claims.alignTrap (BitVec.ofNat 64 va)) s)) ∧
    (∀ s1 s2 t pl bs, va % n = 0 → Claims.ClearToWrite s va n → Claims.Released s l →
      Claims.Reaches s s1 va n true true true false pl → loadPlace (strandPort s.strand 1) pl n va s1 = (.ok bs, s2) →
      let old := Claims.w64 (Int.bmod (leNat bs) (256 ^ n))
      writePlace (strandPort s.strand 1) pl (leBytes n (p.2.2 old (readReg s.strand b)).toNat) s2 = (.ok (), t) →
      t.strand.dbgStep = false → t.strand.asid = s.strand.asid →
      exec (p.1 d a b aq l) s = .next (advance (Claims.acquired aq (Claims.released l { t with strand :=
        if d = 0 then t.strand else { setEmpty t.strand d with
          fePend := t.strand.fePend ++ [{ rd := d, val := old, seq := t.strand.nextSeq }] } }))))

/-! ## Control: traps, CSRs, set-length, loops, tokens, submissions, barriers -/

namespace Sys2Proof.Claims

/-- The strand in focus runs, as a strand of its own. -/
def Runs (s : State) : Prop := s.strand.state = .running ∧ s.strand.node = none

/-- A state with another strand in focus. -/
def withStrand (s : State) (st : Strand) : State := { s with strand := st }

/-- No trace records go to the ring in HBM (R458). -/
def RingOff (s : State) : Prop := natBits (bar0 s 0xE00100 8) 1 1 = 0

/-- ILL with a subcode (R68). -/
def ill (n : Nat) : Trap := { cause := 0x01, tval := BitVec.ofNat 64 n, telem := 0 }

/-- ACC with a value (R438). -/
def acc (x : Word) : Trap := { cause := 0x05, tval := x, telem := 0 }

/-- The first register of a list that is empty. -/
def firstEmpty (st : Strand) (rs : List Reg) : Option Reg := rs.find? (isEmpty st)

/-- What a strand has saved when it stops at a trap (R431, R432). -/
def Saved (t : Trap) (st r : Strand) : Prop :=
  r.csr.tcause = t.cause.setWidth 64 ∧ r.csr.tval = t.tval ∧ r.csr.telem = t.telem.setWidth 64 ∧
  r.csr.tstatus = (if sysLevel st then 3 else 2) ∧ r.csr.tpc = BitVec.ofNat 64 (st.pc.toNat % 2 ^ 48) ∧
  r.csr.tvcp = BitVec.ofNat 64 (((st.vq.head?.map VEntry.pc).getD st.pc).toNat % 2 ^ 48) ∧
  r.csr.vstart = (st.vq.head?.map fun e => BitVec.ofNat 64 e.vstart).getD st.csr.vstart ∧
  r.resv = none ∧ r.links = [] ∧ r.pending = [] ∧ r.loops = st.loops ∧ r.wait = none

/-- The strand as it stops, and the machine as it then is: results on their way are written, those of V instructions that
have not retired keep their old values, messages are withdrawn, and the record traced. -/
noncomputable def stopped (t : Trap) (s : State) : State :=
  let st := fillResults (settlePending s.strand)
  let st1 : Strand := { st with
    csr := { st.csr with
      tstatus := if sysLevel st then 3 else 2, tcause := t.cause.setWidth 64, tval := t.tval, telem := t.telem.setWidth 64
      tpc := BitVec.ofNat 64 (st.pc.toNat % 2 ^ 48)
      tvcp := BitVec.ofNat 64 (((st.vq.head?.map VEntry.pc).getD st.pc).toNat % 2 ^ 48)
      vstart := (st.vq.head?.map fun e => BitVec.ofNat 64 e.vstart).getD st.csr.vstart }
    resv := none, links := [], pending := [], wait := none, waits := Vector.replicate 5 0, atLoopPoint := false
    idling := false }
  emitStrand st1 9 (t.cause.toNat + 256 * (st.pc.toNat % 2 ^ 48))
    (withdrawMessages st.id { s with strand := st1 })

/-- A strand that halts at once (R37, R39, R97, R115): results on their way are written, an `idle` ends, and reservation
and links go. -/
def halted (r : HaltReason) (st : Strand) : Strand :=
  let t := settlePending st
  let u := if t.idling then { (advance { State.reset with strand := t }).strand with idling := false } else t
  { u with state := .halted, resumeTo := u.state, haltReason := r, haltWait := none, resv := none, links := [] }

/-- A strand to which a halt comes: one that the hub owes an answer halts when the last has come (R37). -/
def haltedOrDue (r : HaltReason) (st : Strand) : Strand :=
  if st.asked = 0 then halted r st else { st with haltWait := some r }

/-- The state after a write of a CSR that sets the HBM bit of racectl for the first time in its context: the carve-out is
zeroed (R291). -/
def carved (s : State) (n : Nat) (v : Word) : State :=
  if n = 0x111 ∧ v.getLsbD 1 = true ∧ lineRace s s.strand.asid = false then
    { s with mem := zeroCarveOut s.strand.asid s.mem } else s

/-- The places of a queue of a trap image, by its offset, that hold an entry: those whose word is not zero (R434). -/
def usedEntries (img : List Byte) (off n : Nat) : List Nat := (List.range n).filter fun i => field img (off + 32 * i) 4 ≠ 0

/-- What a V entry holds of its instruction: word, vl, operands and pc; and what the image shows of it (R435). -/
def vOperands (e : VEntry) : Word32 × Nat × Word × Word × Word := (e.word, e.vl, e.a, e.b, e.pc)
def imageVOperands (img : List Byte) (i : Nat) : Word32 × Nat × Word × Word × Word :=
  let n (o k : Nat) : Nat := field img (32 * i + o) k
  (BitVec.ofNat 32 (n 0 4), n 4 4, BitVec.ofNat 64 (n 0x10 8), BitVec.ofNat 64 (n 0x18 8), BitVec.ofNat 64 (field img (0xE00 + 8 * i) 6))

/-- What an M, C or N entry holds of its command: word, step and operand A; and what the image shows of it (R436). -/
def cOperands (e : CEntry) : Word32 × Nat × Word := (e.word, e.step, e.a)
def imageCOperands (img : List Byte) (off i : Nat) : Word32 × Nat × Word :=
  let n (o k : Nat) : Nat := field img (off + 32 * i + o) k
  let w : Word32 := BitVec.ofNat 32 (n 0 4)
  (w, if cmdOf w = 0x06 ∨ cmdOf w = 0x48 then 0 else n 4 4 % 2 ^ 24, BitVec.ofNat 64 (n 8 8))

/-- What a trace record may change beside the trace: the count of free values, those of lost records, and the ring in HBM
where it is on (R458, R474). -/
def Traced (u t : State) : Prop :=
  t = { u with trace := t.trace, freeCtr := t.freeCtr, mem := t.mem, hoops := t.hoops
               hub := { u.hub with portLost := t.hub.portLost, ringLost := t.hub.ringLost } } ∧
  (∀ h, hoopOf t h = { hoopOf u h with lost := (hoopOf t h).lost }) ∧
  (RingOff u → t.mem = { u.mem with bar0 := t.mem.bar0 }) ∧
  ∀ off n, off + n ≤ 0x800000 → bar0 t off n = bar0 u off n

/-- A CSR instruction (R102): the instruction, the value written from the old value and the operand, the operand and the
registers that it is read from, and whether it writes whatever its field rs1 or uimm holds. -/
structure CsrForm where
  instr : Reg → BitVec 12 → Reg → Instr
  value : Word → Word → Word
  operand : Strand → Reg → Word
  sources : Reg → List Reg
  always : Bool

def csrForms : List CsrForm :=
  [⟨fun d c a => .csrrw d a c, fun _ x => x, readReg, fun a => [a], true⟩,
   ⟨fun d c a => .csrrs d a c, fun o x => o ||| x, readReg, fun a => [a], false⟩,
   ⟨fun d c a => .csrrc d a c, fun o x => o &&& ~~~x, readReg, fun a => [a], false⟩,
   ⟨fun d c u => .csrrwi d c u, fun _ x => x, fun _ u => u.setWidth 64, fun _ => [], true⟩,
   ⟨fun d c u => .csrrsi d c u, fun o x => o ||| x, fun _ u => u.setWidth 64, fun _ => [], false⟩,
   ⟨fun d c u => .csrrci d c u, fun o x => o &&& ~~~x, fun _ u => u.setWidth 64, fun _ => [], false⟩]

/-- The CSRs that hold what is written, with the bits that they keep (R62, R63). -/
def csrMasks : List (Nat × Word) :=
  [(0x001, 0x1F), (0x003, 3), (0x004, 1), (0x008, 0xFFFFFFFF), (0x010, 0x7FFF), (0x011, 0x3FFFFF), (0x012, 0x73FFFFFFF),
   (0x013, 0xFFFFFFFE), (0x016, 0xFFFFFFFFFFFFFFFF), (0x018, 0xFFFFFFFF), (0x019, 0x3FFF), (0x100, 3), (0x101, 0xFF),
   (0x102, 0xFFFFFFFFFFFFFFFF), (0x103, 0xFFFFFFFFFFFF), (0x104, 0xFFFFFFFFFFFF), (0x105, 0xFFFFFFFFFFFC),
   (0x106, 0xFFFFFFFFFFFFFFFF), (0x107, 0xFFFFFFFF), (0x108, 0xFFFFFFFFFFFFFFFF), (0x110, 0xFFFFFFFFFEFFF), (0x111, 3)]

/-- A CSR that the strand may access at its level (R61). -/
def Allowed (s : State) (n : Nat) : Prop := 0x100 ≤ n → n ≤ 0x1FF → sysLevel s.strand = true

/-- The CSRs whose access waits for older vector instructions: vfflags and vxsat (R61). -/
def Settled (s : State) (n : Nat) : Prop := n = 1 ∨ n = 4 → s.strand.vq = []

/-- What a set-length instruction leaves (R104): from AVL and the vtype source. -/
def setLength (st : Strand) (d : Reg) (avl : Nat) (vt : Word) : Strand :=
  let st0 := if st.zeroed then st else
    { st with v := Vector.replicate 32 [], vpoison := Vector.replicate 32 [], zeroed := true }
  let n := if vtypeLegal vt then min avl (vlmax (512 * st.arrays.length) vt) else 0
  writeReg { st0 with vtype := if vtypeLegal vt then vt else 0x8000000000000000#64, vl := n
                      csr := { st0.csr with vstart := 0 } } d (BitVec.ofNat 64 n)

/-- AVL of the register forms (R104). -/
def avlOf (st : Strand) (d a : Reg) (vt : Word) : Nat :=
  if a ≠ 0 then (readReg st a).toNat else if d ≠ 0 then vlmax (512 * st.arrays.length) vt else st.vl

/-- A counter that the strand may name (R119). -/
def Names (s : State) (x : Word) (c : Counter) : Prop :=
  x.toNat < 4096 ∧ smGet s.hub.counters x.toNat = some c ∧ c.asid = s.strand.asid

/-- x names no counter of the strand's ASID (R119). -/
def NamesNone (s : State) (x : Word) : Prop := ∀ c, ¬ Names s x c

/-- A request to the hub is sent: rd empty, and the hub has it in its list (R36, R117, R121). -/
def asked (s : State) (d : Reg) (k : ObjKind) (a b : Word) (patched : Bool) : State :=
  { s with strand := { setEmpty s.strand d with asked := s.strand.asked + 1 }
           hub := { s.hub with reqs := s.hub.reqs ++ [⟨s.strand.id, d, k, a, b, patched⟩] } }

/-- A handle of a hoop barrier in which the strand takes part, with that barrier (R276). -/
def HoopBarrier (s : State) (x : Word) (b : Nat) (v : Barrier) : Prop :=
  x.toNat = b ∧ b < 16 ∧ (hoopOf s s.strand.hoop).barriers[b]? = some v ∧ v.slots.getLsbD s.strand.slot = true ∧
  v.asid = s.strand.asid

/-- A handle of the launch barrier of the strand's launch (R276). -/
def LaunchBarrier (s : State) (x : Word) (b : Nat) (v : Barrier) : Prop :=
  x.toNat = 256 ∧ (findLaunch s s.strand.id.launch).bind Launch.barrier = some b ∧ smGet s.hub.barriers b = some v

/-- An arrival's effect on a barrier (R277): one more, or the phase completes. -/
def arrived (v : Barrier) : Barrier :=
  if v.count + 1 < v.participants then { v with count := v.count + 1 } else { v with count := 0, phase := !v.phase }

/-- What an arrival at the barrier of pending bit k leaves of the strands (R277): the own bit is set while the phase goes on;
a phase that completes leaves the bit of each of its participants clear. Nothing but pending bits of the others changes, and
memory stays but for the trace ring. -/
def Arrived (s : State) (k : Nat) (pending : Bool) (member : Strand → Prop) (t : State) : Prop :=
  t.strand.barPending.getLsbD k = pending ∧
  (pending = true → t.pool = s.pool) ∧
  (pending = false → ∀ u ∈ t.pool, isStrand u = true → member u → u.barPending.getLsbD k = false) ∧
  (∀ j, j ≠ k → t.strand.barPending.getLsbD j = s.strand.barPending.getLsbD j) ∧
  List.Forall₂ (fun x y => y = { x with barPending := y.barPending } ∧
    ∀ j, j ≠ k → y.barPending.getLsbD j = x.barPending.getLsbD j) s.pool t.pool ∧
  (RingOff s → t.mem.bytes = s.mem.bytes)

end Sys2Proof.Claims

/-- An instruction that reads or writes an empty register waits, Waiting, until it is full, or traps with FE and the
register's number where the bit of xfep is set; here for the register forms, in the order of their fields, which of
several empty registers decides is the model's choice (log 71). A wait for another thing counts anew. In
instruction-step mode the strand stops after its instruction: halted with the reason step, or with the trap STEP. -/
def Obligations.FrontHoldsAndStops : Prop :=
  ((∀ p ∈ Claims.registerForms ++ Claims.multiplyForms, ∀ (d a b r : Reg) (s : State),
    Claims.firstEmpty s.strand [a, b, d] = some r → isQueuedWord s.fetched = false →
    exec (p.1 d a b) s = .next (
      if s.strand.csr.xfep.getLsbD r.toNat then frontTrap { cause := 0x07, tval := BitVec.ofNat 64 r.toNat, telem := 0 } s
      else { s with strand := { s.strand with
        wait := some (.fe r), state := .waiting
        waits := if s.strand.wait = some (.fe r) then s.strand.waits else s.strand.waits.set 0 0 } })) : Prop) ∧
  ((∀ p ∈ Claims.registerForms, ∀ (d a b : Reg) (s : State), Claims.Full s.strand [a, b, d] →
    s.strand.dbgStep = true → s.strand.state = .running →
    let u := Claims.wrote s d (p.2 (readReg s.strand a) (readReg s.strand b))
    exec (p.1 d a b) s = .next (if s.strand.dbgTrap then takeTrap { cause := 0x11, tval := 0, telem := 0 } u
      else { u with strand := Claims.haltedOrDue .step u.strand })) : Prop)

/-- ECALL raises SYS and EBREAK raises BRK, with tval 0; at an armed debugger EBREAK halts the strand instead. A trap
of the front is taken at once when no fault is pending before it. Taking a trap: the strand saves where it stopped,
the level before it and the cause, and enters system level. Without a handler, at system level or with a misaligned
tvq it becomes Faulted, keeps its queues and writes an error record of type 9, and what its V instructions would still
have written is full; otherwise the queue images go to tvq at system level and control to the handler with empty
queues, and an image write that traps makes the strand Faulted. Where it is the image that fails, of a misaligned tvq
too, a record before the other names the first cause and the failed write. -/
def Obligations.TrapsAreTaken : Prop :=
  (((∀ s : State, exec .ecall s = .next (frontTrap { cause := 0x03, tval := 0, telem := 0 } s)) ∧
  (∀ s : State, s.strand.dbgArmed = false → exec .ebreak s = .next (frontTrap { cause := 0x02, tval := 0, telem := 0 } s)) ∧
  (∀ s : State, s.strand.dbgArmed = true → s.strand.state = .running →
    exec .ebreak s = .next { s with strand := Claims.haltedOrDue .ebreak s.strand }) ∧
  (∀ (t : Trap) (s : State), s.strand.pending = [] → frontTrap t s = takeTrap t s) ∧
  (∀ (t : Trap) (s : State) (f : PendingFault), s.strand.pending = [f] → f.seq < s.strand.nextSeq →
    frontTrap t s = takeTrap f.trap s)) : Prop) ∧
  (((∀ (t : Trap) (s : State), s.strand.state ≠ .faulted →
    let st := settlePending s.strand
    let r := takeTrap t s
    (st.csr.tvec = 0 ∨ sysLevel st = true ∨ st.csr.tvq.toNat % 4096 ≠ 0) →
      Claims.Saved t st r.strand ∧ r.strand.state = .faulted ∧ r.strand.pc = st.pc ∧ r.strand.x = st.x ∧
      r.strand.vq = st.vq ∧ r.strand.mq = st.mq ∧ r.strand.cq = st.cq ∧ r.strand.nq = st.nq ∧
      (∀ e ∈ st.vq, isEmpty r.strand (vResultReg e.word) = false) ∧
      (st.csr.tvec = 0 ∨ sysLevel st = true → ∃ e, r.hub.records = s.hub.records ++ [e] ∧ e.typ = 9) ∧
      (st.csr.tvec ≠ 0 → sysLevel st = false → ∃ e f, r.hub.records = s.hub.records ++ [e, f] ∧ e.typ = 9 ∧ f.typ = 9 ∧
        e.detail = leBytes 8 t.cause.toNat ++ leBytes 8 t.tval.toNat ++ leBytes 8 0x06 ++ leBytes 8 st.csr.tvq.toNat)) ∧
  (∀ (t : Trap) (s s2 : State),
    let st := settlePending s.strand
    let s1 := Claims.stopped t s
    st.csr.tvec ≠ 0 → sysLevel st = false → st.csr.tvq.toNat % 4096 = 0 →
    vsWriteBlock { strandPort s1.strand 1 with sys := true, race := 0, id := none } st.csr.tvq.toNat (queueImage s1.strand) s1 = (.ok (), s2) →
    s2.strand.csr = s1.strand.csr → s2.strand.x = s1.strand.x →
    let r := takeTrap t s
    r.strand.csr = s1.strand.csr ∧ r.strand.x = st.x ∧ r.strand.state = .running ∧
    r.strand.pc = BitVec.ofNat 64 (st.csr.tvec.toNat / 4 * 4) ∧ r.strand.vq = [] ∧ r.strand.mq = [] ∧
    r.strand.cq = [] ∧ r.strand.nq = [] ∧ r.mem = s2.mem ∧ r.hub = s2.hub) ∧
  (∀ (t w : Trap) (s s2 : State),
    let st := settlePending s.strand
    let s1 := Claims.stopped t s
    st.csr.tvec ≠ 0 → sysLevel st = false → st.csr.tvq.toNat % 4096 = 0 →
    vsWriteBlock { strandPort s1.strand 1 with sys := true, race := 0, id := none } st.csr.tvq.toNat (queueImage s1.strand) s1 =
      (.error (.trap w), s2) → s2.strand.state ≠ .faulted →
    let r := takeTrap t s
    r.strand.state = .faulted ∧ r.strand.vq = s2.strand.vq ∧
    ∃ e f, r.hub.records = s2.hub.records ++ [e, f] ∧ e.typ = 9 ∧ f.typ = 9 ∧
      e.detail = leBytes 8 t.cause.toNat ++ leBytes 8 t.tval.toNat ++ leBytes 8 w.cause.toNat ++ leBytes 8 w.tval.toNat)) : Prop)

/-- TRET at system level goes back to the level before the trap and to tpc, and puts the images of tvq back into the queues,
ahead of what the handler has left there: every V entry at its captured vstart, entry 0 at the element in vstart, and the M,
C and N entries at their steps (mst and gwalk begin again); a scalar destination of a V entry that has not finished is empty,
and what the handler has taken out of the images is no writer of its set any more. At strand level it is ILL
with subcode 7. -/
def Obligations.ReturningFromATrap : Prop :=
  (∀ s : State, sysLevel s.strand = false → exec .tret s = .next (frontTrap (Claims.ill 7) s)) ∧
  (∀ (s s1 : State) (img : List Byte), sysLevel s.strand = true →
    vsReadBlock { strandPort s.strand 1 with sys := true, race := 0 } s.strand.csr.tvq.toNat 4096 s = (.ok img, s1) →
    s1.strand.dbgStep = false → ∃ t, exec .tret s = .next t ∧ t.strand.pc = s.strand.csr.tpc ∧
      t.strand.csr.tstatus = (s1.strand.csr.tstatus &&& 1) + 2 * (s1.strand.csr.tstatus &&& 1) ∧
      t.strand.csr.vstart = 0 ∧ t.strand.x = s1.strand.x ∧ t.strand.loops = s1.strand.loops ∧ t.mem = s1.mem ∧
      t.hub = { s1.hub with sets := t.hub.sets } ∧ (writersOf s.strand = [] → t.hub = s1.hub) ∧ t.pool = s1.pool ∧
      t.strand.vq.map Claims.vOperands = (Claims.usedEntries img 0 64).map (Claims.imageVOperands img) ++
        s1.strand.vq.map Claims.vOperands ∧
      t.strand.vq.map VEntry.vstart = (Claims.usedEntries img 0 64).map (fun i =>
        if i = 0 then s1.strand.csr.vstart.toNat else field img (32 * i + 8) 4) ++ s1.strand.vq.map VEntry.vstart ∧
      (∀ e ∈ t.strand.vq.take (Claims.usedEntries img 0 64).length, e.done = false → vResultReg e.word ≠ 0 →
        isEmpty t.strand (vResultReg e.word) = true) ∧
      (∀ p ∈ [(Queue.m, 0x800), (Queue.c, 0xA00), (Queue.n, 0xC00)],
        (cmdQueue t.strand p.1).map Claims.cOperands = (Claims.usedEntries img p.2 16).map (Claims.imageCOperands img p.2) ++
          (cmdQueue s1.strand p.1).map Claims.cOperands)) ∧
  (∀ (s s1 : State) (w : Trap), sysLevel s.strand = true →
    vsReadBlock { strandPort s.strand 1 with sys := true, race := 0 } s.strand.csr.tvq.toNat 4096 s = (.error (.trap w), s1) →
    exec .tret s = .next (frontTrap w s1))

/-- A CSR instruction reads the old value into x[rd] and writes the new one, which reads back through the CSR's mask;
csrrs and csrrc with rs1 = x0, and their immediate forms with 0, write nothing; HBM race detection that a context
turns on begins with a zeroed carve-out. An unlisted number is ILL 1, a system CSR at strand level and a write of a
read-only CSR are ILL 7. The accesses that the table names by their effect: vfflags and vxsat wait for the V queue and
are then read and written; vstart and vfrm are written; dwdata and dwdatai reach the own hoop's debug window at
dwaddr, and dwdatai goes on by 8 within it. -/
def Obligations.CsrAccesses : Prop :=
  (((∀ p ∈ Claims.csrForms, ∀ (d a : Reg) (c : BitVec 12) (s : State), Claims.Full s.strand (p.sources a ++ [d]) →
    s.strand.dbgStep = false → Claims.Allowed s c.toNat → Claims.Settled s c.toNat →
    let old := csrRead s s.strand c.toNat
    let new := p.value old (p.operand s.strand a)
    (c.toNat ∈ userCsrs ++ systemCsrs → p.always = true ∨ a ≠ 0 → exec (p.instr d c a) s =
      .next (Claims.done (Claims.carved s c.toNat new) (writeReg (csrWrite c.toNat new s.strand) d old))) ∧
    (c.toNat ∈ userCsrs ++ systemCsrs ++ readOnlyCsrs → p.always = false → a = 0 →
      exec (p.instr d c a) s = .next (Claims.wrote s d old))) ∧
  (∀ p ∈ Claims.csrForms, ∀ (d a : Reg) (c : BitVec 12) (s : State),
    (csrListed c.toNat = false → exec (p.instr d c a) s = .next (frontTrap (Claims.ill 1) s)) ∧
    (csrListed c.toNat = true → 0x100 ≤ c.toNat → c.toNat ≤ 0x1FF → sysLevel s.strand = false →
      exec (p.instr d c a) s = .next (frontTrap (Claims.ill 7) s)) ∧
    (c.toNat ∈ readOnlyCsrs → p.always = true ∨ a ≠ 0 → exec (p.instr d c a) s = .next (frontTrap (Claims.ill 7) s))) ∧
  (∀ p ∈ Claims.csrMasks, ∀ (s : State) (st : Strand) (v : Word), csrRead s (csrWrite p.1 v st) p.1 = v &&& p.2) ∧
  (∀ (s : State) (st : Strand) (v : Word), csrRead s (csrWrite 2 v st) 2 =
    (if v.toNat % 8 = 6 ∨ v.toNat % 8 = 7 then v &&& 8 else v &&& 0xF))) : Prop) ∧
  ((∀ s : State, s.strand.dbgStep = false → counted s.strand = true →
    (∀ (sat : Bool) (wr : Option Word) (d : Reg), isEmpty s.strand d = false →
      let n := if sat then 4 else 1
      (s.strand.vq = [] → exec (.flagCsrAccess sat wr d) s = .next (Claims.done s
        (writeReg ((wr.map fun v => csrWrite n v s.strand).getD s.strand) d (csrRead s s.strand n)))) ∧
      (s.strand.vq ≠ [] → exec (.flagCsrAccess sat wr d) s = .next (frontWait .uncounted s))) ∧
    (∀ v : Word, exec (.vstartWrite v) s = .next (Claims.done s { s.strand with
      csr := { s.strand.csr with vstart := BitVec.ofNat 64 (v.toNat % 2 ^ 32) } })) ∧
    (∀ v : Word, exec (.vfrmWrite v) s = .next (Claims.done s { s.strand with csr := { s.strand.csr with
      vfrm := if 6 ≤ v.toNat % 8 then v &&& 8 else v &&& 0xF } })) ∧
    (sysLevel s.strand = true → ∀ (d : Reg), isEmpty s.strand d = false →
      let off := windowBase s.strand.hoop + natBits s.strand.csr.dwaddr.toNat 16 3 * 8
      let old := BitVec.ofNat 64 (windowRead s (.strand s.strand.asid) off)
      let next (st : Strand) : Strand := { st with csr := { st.csr with
        dwaddr := BitVec.ofNat 64 ((st.csr.dwaddr.toNat + 8) % 0x20000) } }
      exec (.dwdataAccess none d) s = .next (Claims.wrote s d old) ∧
      exec (.dwdataiAccess none d) s = .next (Claims.done s (writeReg (next s.strand) d old)) ∧
      (∀ v : Word, let t := windowWrite (.strand s.strand.asid) off v.toNat s
        t.strand.dbgStep = false →
        exec (.dwdataAccess (some v) d) s = .next (Claims.wrote t d old) ∧
        exec (.dwdataiAccess (some v) d) s = .next (Claims.done t (writeReg (next t.strand) d old)))) ∧
    (sysLevel s.strand = false → ∀ (wr : Option Word) (d : Reg),
      exec (.dwdataAccess wr d) s = .next (frontTrap (Claims.ill 7) s) ∧
      exec (.dwdataiAccess wr d) s = .next (frontTrap (Claims.ill 7) s))) : Prop)

/-- A set-length instruction sets vtype, vl, vstart and x[rd] as R104 says, zeroes every field the first time, waits for
the V queue where a reduced grant is pending, and then applies it first: its rows and no others, every field zero and
every tag clear. vsetmt swaps mtype, and a value above 2 is ILL 6. -/
def Obligations.SettingTheVectorLength : Prop :=
  (∀ s : State, s.strand.dbgStep = false → s.strand.pendingGrant = none →
    (∀ (d a : Reg) (i : BitVec 11), Claims.Full s.strand [a, d] → exec (.vsetvli d a i) s =
      .next (Claims.done s (Claims.setLength s.strand d (Claims.avlOf s.strand d a (i.setWidth 64)) (i.setWidth 64)))) ∧
    (∀ (d : Reg) (i : BitVec 11) (u : BitVec 5), Claims.Full s.strand [d] → exec (.vsetivli d i u) s =
      .next (Claims.done s (Claims.setLength s.strand d u.toNat (i.setWidth 64)))) ∧
    (∀ (d a b : Reg), Claims.Full s.strand [a, b, d] → let vt := readReg s.strand b
      exec (.vsetvl d a b) s = .next (Claims.done s (Claims.setLength s.strand d (Claims.avlOf s.strand d a vt) vt)))) ∧
  (∀ (s : State) (g : List (Nat × Nat)), s.strand.dbgStep = false → s.strand.pendingGrant = some g →
    (∀ (d a : Reg) (i : BitVec 11), Claims.Full s.strand [a, d] →
      (s.strand.vq ≠ [] → exec (.vsetvli d a i) s = .next (frontWait .uncounted s)) ∧
      (s.strand.vq = [] → exec (.vsetvli d a i) s = exec (.vsetvli d a i) (applyGrant s))) ∧
    (∀ (d : Reg) (i : BitVec 11) (u : BitVec 5), Claims.Full s.strand [d] →
      (s.strand.vq ≠ [] → exec (.vsetivli d i u) s = .next (frontWait .uncounted s)) ∧
      (s.strand.vq = [] → exec (.vsetivli d i u) s = exec (.vsetivli d i u) (applyGrant s))) ∧
    (∀ (d a b : Reg), Claims.Full s.strand [a, b, d] →
      (s.strand.vq ≠ [] → exec (.vsetvl d a b) s = .next (frontWait .uncounted s)) ∧
      (s.strand.vq = [] → exec (.vsetvl d a b) s = exec (.vsetvl d a b) (applyGrant s))) ∧
    (applyGrant s).strand.arrays = g ∧ (applyGrant s).strand.pendingGrant = none ∧
    (∀ k : Fin 32, (applyGrant s).strand.v.get k = [] ∧ (applyGrant s).strand.tags.get k = 0) ∧
    (applyGrant s).strand.x = s.strand.x ∧ (applyGrant s).strand.q = s.strand.q ∧ (applyGrant s).mem = s.mem) ∧
  (∀ (s : State) (d a : Reg), s.strand.dbgStep = false → Claims.Full s.strand [a, d] →
    let x := readReg s.strand a
    exec (.vsetmt d a) s = .next (if x.toNat < 3 then
        Claims.done s (writeReg { s.strand with mtype := x.setWidth 2 } d (s.strand.mtype.setWidth 64))
      else frontTrap (Claims.ill 6) s))

/-- An instruction of the front that does not jump goes on at pc + 4 unless it stands at the end PC of the top loop:
then the entry counts down and its index up and control goes back to its start, or, at the last iteration, the entry
is popped and the same holds of the next; a jump leaves the loop stack as it is. An instruction that goes into a queue
does the same, and is counted as retired there. Nothing outside the front's own bookkeeping changes. LOOP and LOOPI
push an entry and go into the body, or past it when the count is 0; a seventh entry, and an end beyond that of the
entry around it, are ILL 6, and so is the offset 0. -/
def Obligations.FrontAndLoops : Prop :=
  (((∀ s : State, (∀ e ∈ s.strand.loops.head?, e.stop.setWidth 64 ≠ s.strand.pc) →
    (advance s).strand.pc = s.strand.pc + 4 ∧ (advance s).strand.loops = s.strand.loops) ∧
  (∀ (s : State) (e : LoopEntry) (es : List LoopEntry), s.strand.loops = e :: es → e.stop.setWidth 64 = s.strand.pc →
    (e.count ≠ 1 → (advance s).strand.pc = e.start.setWidth 64 ∧
      (advance s).strand.loops = { e with count := e.count - 1, index := e.index + 1 } :: es) ∧
    (e.count = 1 →
      (advance s).strand.pc = (advance { s with strand := { s.strand with loops := es } }).strand.pc ∧
      (advance s).strand.loops = (advance { s with strand := { s.strand with loops := es } }).strand.loops)) ∧
  (∀ s : State, ∃ pc loops point state, advance s = { s with strand := { s.strand with
    pc := pc, loops := loops, atLoopPoint := point, state := state, wait := none, waits := s.strand.waits.set 0 0
    skipBreak := false, nextSeq := s.strand.nextSeq + 1, instret := s.strand.instret + 1 } }) ∧
  (∀ s : State, leaveFront s = { advance s with strand := { (advance s).strand with instret := s.strand.instret } }) ∧
  (∀ (s : State) (a : Word), (jump a s).strand.pc = a ∧ (jump a s).strand.loops = s.strand.loops ∧
    ∃ state, jump a s = { s with strand := { s.strand with
      pc := a, atLoopPoint := false, state := state, wait := none, waits := s.strand.waits.set 0 0
      skipBreak := false, nextSeq := s.strand.nextSeq + 1, instret := s.strand.instret + 1 } })) : Prop) ∧
  ((∀ (s : State) (i : BitVec 12), s.strand.dbgStep = false →
    let stop := s.strand.pc + BitVec.ofNat 64 (4 * i.toNat)
    let start (n : Word) : State :=
      if i = 0 then frontTrap (Claims.ill 6) s
      else if n = 0 then jump (stop + 4) s
      else if s.strand.loops.length ≥ 6 ∨ (∃ e ∈ s.strand.loops.head?, e.stop.toNat < stop.toNat) then
        frontTrap (Claims.ill 6) s
      else jump (s.strand.pc + 4) { s with strand := { s.strand with loops :=
        { count := n, index := 0, start := (s.strand.pc + 4).setWidth 48, stop := stop.setWidth 48 } :: s.strand.loops } }
    (∀ a : Reg, Claims.Full s.strand [a] → exec (.loop a i) s = .next (start (readReg s.strand a))) ∧
    (∀ u : BitVec 5, exec (.loopi i u) s = .next (start (u.setWidth 64)))) : Prop)

/-- LPBRK pops the top entry and goes past its end PC; LPIDX reads the index of the entry a number of positions below the
top; where the stack has no such entry each is ILL 6. -/
def Obligations.LoopBreakAndIndex : Prop :=
  ∀ s : State, s.strand.dbgStep = false →
    (∀ e es, s.strand.loops = e :: es →
      exec .lpbrk s = .next (jump (e.stop.setWidth 64 + 4) { s with strand := { s.strand with loops := es } })) ∧
    (s.strand.loops = [] → exec .lpbrk s = .next (frontTrap (Claims.ill 6) s)) ∧
    (∀ (d l : BitVec 5) (e : LoopEntry), isEmpty s.strand d = false → s.strand.loops[l.toNat]? = some e →
      exec (.lpidx d l) s = .next (Claims.wrote s d e.index)) ∧
    (∀ (d l : BitVec 5), s.strand.loops.length ≤ l.toNat → exec (.lpidx d l) s = .next (frontTrap (Claims.ill 6) s))

/-- launch, gsubmit and cntnew leave a request with the hub and x[rd] empty; a packet not aligned to 64 bytes, or a graph
to 128, is ALIGN, and an expected count of 0 or above 32 bits ILL 6. The hub answers the oldest request with the id of a
counter of the strand's ASID, or refused with reason 1 or 2, and the answer is written to x[rd], full. -/
def Obligations.Submissions : Prop :=
  (∀ s : State, s.strand.dbgStep = false →
    (∀ (d a : Reg), Claims.Full s.strand [a, d] → let x := readReg s.strand a
      (x.toNat % 64 = 0 → vMemBusy s.strand = false → exec (.launch d a) s = .next (advance
        (advanceEpoch s.strand.asid (Claims.asked s d .launch x 0 false)))) ∧
      (x.toNat % 64 ≠ 0 → exec (.launch d a) s = .next (frontTrap (Claims.alignTrap x) s)) ∧
      (x ≠ 0 → x.toNat < 2 ^ 32 → exec (.cntnew d a) s = .next (advance (Claims.asked s d .free x 0 false))) ∧
      (x = 0 ∨ 2 ^ 32 ≤ x.toNat → exec (.cntnew d a) s = .next (frontTrap (Claims.ill 6) s))) ∧
    (∀ (d a b : Reg), Claims.Full s.strand [a, b, d] → let x := readReg s.strand a
      (x.toNat % 128 = 0 → vMemBusy s.strand = false → exec (.gsubmit d a b) s = .next (advance
        (advanceEpoch s.strand.asid (Claims.asked s d .graph x (readReg s.strand b) (b ≠ 0))))) ∧
      (x.toNat % 128 ≠ 0 → exec (.gsubmit d a b) s = .next (frontTrap (Claims.alignTrap x) s)))) ∧
  (∀ (s : State) (r : HubReq) (rs : List HubReq), s.hub.reqs = r :: rs → r.strand = s.strand.id → isStrand s.strand = true →
    s.strand.state ≠ .exited → s.strand.cancelled = false → s.strand.haltWait = none →
    ∃ t v, exec .submissionResult s = .next t ∧ t.hub.reqs = rs ∧ t.strand.asked = s.strand.asked - 1 ∧
      t.strand.fePend = s.strand.fePend ++ [{ rd := r.rd, val := v, seq := 0 }] ∧ t.strand.x = s.strand.x ∧
      t.mem = s.mem ∧
      (v.toNat < 4096 → ∃ c, smGet t.hub.counters v.toNat = some c ∧ c.asid = s.strand.asid ∧ c.kind = r.kind ∧ c.count = 0 ∧
        c.final = false ∧ c.cancelled = false ∧ c.rejected = false ∧ t.strand.subs = s.strand.subs ++ [v.toNat]) ∧
      (4096 ≤ v.toNat → v = 0x8000000000001000#64 ∨ v = 0x8000000000002000#64)) ∧
  (∀ (s : State) (w : PendWrite) (ws : List PendWrite), s.strand.fePend = w :: ws → ∃ t, exec .feResultWrite s = .next t ∧
    t.strand.fePend = ws ∧ isEmpty t.strand w.rd = false ∧ (w.rd ≠ 0 → readReg t.strand w.rd = w.val) ∧
    (∀ r, r ≠ w.rd → readReg t.strand r = readReg s.strand r ∧ isEmpty t.strand r = isEmpty s.strand r) ∧
    t = { s with strand := { s.strand with x := t.strand.x, empty := t.strand.empty, fePend := ws } })

/-- cntwait, an acquire, goes on when the count is reached or the counter is final, and else waits; cntread gives the counter's word
through an empty x[rd]; cancel hands the object to the hub; for a counter that is not the strand's each is ACC. A child's
completion counts, and the last one makes the counter final. -/
def Obligations.Counters : Prop :=
  (∀ s : State, s.strand.dbgStep = false →
    (∀ (a b : Reg), Claims.Full s.strand [a, b] → let x := readReg s.strand a; let n := (readReg s.strand b).toNat % 2 ^ 32
      (∀ c, Claims.Names s x c → exec (.cntwait a b) s = .next (
        if c.final = true ∨ n ≤ c.count.toNat then advance (Claims.acquired 1 s) else frontWait (.counter x.toNat n) s)) ∧
      (Claims.NamesNone s x → exec (.cntwait a b) s = .next (frontTrap (Claims.acc x) s))) ∧
    (∀ (d a : Reg), Claims.Full s.strand [a, d] → let x := readReg s.strand a
      (∀ c, Claims.Names s x c → exec (.cntread d a) s = .next (Claims.done (Claims.acquired 1 s) (if d = 0 then s.strand else
        { setEmpty s.strand d with
          fePend := s.strand.fePend ++ [{ rd := d, val := counterWord c, seq := s.strand.nextSeq }] }))) ∧
      (Claims.NamesNone s x → exec (.cntread d a) s = .next (frontTrap (Claims.acc x) s))) ∧
    (∀ a : Reg, Claims.Full s.strand [a] → let x := readReg s.strand a
      (∀ c, Claims.Names s x c → (cancelAll x.toNat s).strand.dbgStep = false →
        exec (.cancel a) s = .next (advance (cancelAll x.toNat s))) ∧
      (∀ c, Claims.Names s x c → c.final = true → s.hub.quiesce = false → exec (.cancel a) s = .next (advance s)) ∧
      (Claims.NamesNone s x → exec (.cancel a) s = .next (frontTrap (Claims.acc x) s)))) ∧
  (∀ c : Counter, counterWord c = BitVec.ofNat 64 ((if c.cancelled then 2 ^ 63 else 0) + (if c.rejected then 2 ^ 62 else 0) +
    2 ^ 56 * c.reason.toNat + (if c.final then 2 ^ 32 else 0) + c.count.toNat)) ∧
  (∀ (s : State) (c : Nat) (v : Counter) (x : Bool), (c, x) ∈ s.hub.incs →
    (∀ y, (c, y) ∈ s.hub.incs → y = x) → smGet s.hub.counters c = some v → v.final = false → v.count ≠ 0xFFFFFFFF#32 →
    ∃ t w, exec (.counterIncrement c) s = .next t ∧ smGet t.hub.counters c = some w ∧ w.count = v.count + 1 ∧
      w.cancelled = (v.cancelled || x) ∧ w.asid = v.asid ∧ w.kind = v.kind ∧
      w.final = decide (v.expected ≤ v.count.toNat + 1) ∧ t.strand = s.strand ∧ (Claims.RingOff s → t.mem.bytes = s.mem.bytes))

/-- bararv counts an arrival and leaves the strand pending, and the last arrival of a phase completes it and clears every
participant's pending bit; barwait, an acquire, goes on unless the strand is pending; barsync does both, and is reissued
for the wait alone once it has arrived; a strand that is still pending waits with each; a barrier of the launch of one
strand is passed at once; a bad handle is ILL 6 and a barrier of others ACC. -/
def Obligations.Barriers : Prop :=
  (∀ (s : State) (a : Reg) (b : Nat) (v : Barrier), Claims.Runs s → s.strand.dbgStep = false → Claims.Full s.strand [a] →
    Claims.HoopBarrier s (readReg s.strand a) b v →
    (s.strand.barPending.getLsbD b = true →
      ∀ i ∈ [Instr.bararv a, .barwait a, .barsync a], exec i s = .next (frontWait (.barrier b) s)) ∧
    (s.strand.barPending.getLsbD b = false → exec (.barwait a) s = .next (advance (Claims.acquired 1 s))) ∧
    (s.strand.barPending.getLsbD b = false → vMemBusy s.strand = false →
      (∃ t, exec (.bararv a) s = .next t ∧ (hoopOf t s.strand.hoop).barriers[b]? = some (Claims.arrived v) ∧
        Claims.Arrived s b (decide (v.count + 1 < v.participants)) (fun u => u.hoop = s.strand.hoop ∧ v.slots.getLsbD u.slot = true) t ∧
        t.strand = { (advance s).strand with barPending := t.strand.barPending }) ∧
      (s.strand.barArrived.contains s.strand.pc = false → isQueuedWord s.fetched = false →
        (v.participants ≤ v.count + 1 → ∃ t, exec (.barsync a) s = .next t ∧
          (hoopOf t s.strand.hoop).barriers[b]? = some (Claims.arrived v) ∧
          Claims.Arrived s b false (fun u => u.hoop = s.strand.hoop ∧ v.slots.getLsbD u.slot = true) t ∧
          t.strand.pc = (advance s).strand.pc ∧ t.strand.x = s.strand.x ∧ (hoopOf t s.strand.hoop).buffers = []) ∧
        (v.count + 1 < v.participants → ∃ t, exec (.barsync a) s = .next t ∧
          (hoopOf t s.strand.hoop).barriers[b]? = some (Claims.arrived v) ∧
          Claims.Arrived s b true (fun _ => True) t ∧ t.strand.x = s.strand.x ∧
          t.strand.barArrived = s.strand.pc :: s.strand.barArrived ∧ t.strand.pc = s.strand.pc ∧ t.strand.state = .waiting))) ∧
    (s.strand.barPending.getLsbD b = false → s.strand.barArrived.contains s.strand.pc = true →
      exec (.barsync a) s = .next (Claims.done (Claims.acquired 1 s) { s.strand with
        barArrived := s.strand.barArrived.filter fun p => p ≠ s.strand.pc }))) ∧
  (∀ (s : State) (a : Reg) (b : Nat) (v : Barrier), Claims.Runs s → s.strand.dbgStep = false → Claims.Full s.strand [a] →
    Claims.LaunchBarrier s (readReg s.strand a) b v →
    (s.strand.barPending.getLsbD 16 = true →
      ∀ i ∈ [Instr.bararv a, .barwait a, .barsync a], exec i s = .next (frontWait (.barrier 16) s)) ∧
    (s.strand.barPending.getLsbD 16 = false → exec (.barwait a) s = .next (advance (Claims.acquired 1 s))) ∧
    (s.strand.barPending.getLsbD 16 = false → vMemBusy s.strand = false →
      (∃ t, exec (.bararv a) s = .next t ∧ smGet t.hub.barriers b = some (Claims.arrived v) ∧
        Claims.Arrived s 16 (decide (v.count + 1 < v.participants)) (fun u => u.id.launch = s.strand.id.launch) t ∧
        t.strand = { (advance s).strand with barPending := t.strand.barPending }) ∧
      (s.strand.barArrived.contains s.strand.pc = false → isQueuedWord s.fetched = false →
        (v.participants ≤ v.count + 1 → ∃ t, exec (.barsync a) s = .next t ∧
          smGet t.hub.barriers b = some (Claims.arrived v) ∧
          Claims.Arrived s 16 false (fun u => u.id.launch = s.strand.id.launch) t ∧
          t.strand.pc = (advance s).strand.pc ∧ t.strand.x = s.strand.x) ∧
        (v.count + 1 < v.participants → ∃ t, exec (.barsync a) s = .next t ∧
          smGet t.hub.barriers b = some (Claims.arrived v) ∧ Claims.Arrived s 16 true (fun _ => True) t ∧
          t.strand.x = s.strand.x ∧ t.strand.barArrived = s.strand.pc :: s.strand.barArrived ∧
          t.strand.pc = s.strand.pc ∧ t.strand.state = .waiting))) ∧
    (s.strand.barPending.getLsbD 16 = false → s.strand.barArrived.contains s.strand.pc = true →
      exec (.barsync a) s = .next (Claims.done (Claims.acquired 1 s) { s.strand with
        barArrived := s.strand.barArrived.filter fun p => p ≠ s.strand.pc }))) ∧
  (∀ (s : State) (a : Reg), s.strand.dbgStep = false → Claims.Full s.strand [a] → (readReg s.strand a).toNat = 256 →
    (findLaunch s s.strand.id.launch).bind Launch.barrier = none → vMemBusy s.strand = false →
    exec (.bararv a) s = .next (advance s) ∧ exec (.barwait a) s = .next (advance (Claims.acquired 1 s)) ∧
    exec (.barsync a) s = .next (Claims.done (Claims.acquired 1 s) { s.strand with
      barArrived := s.strand.barArrived.filter fun p => p ≠ s.strand.pc })) ∧
  (∀ (s : State) (a : Reg), Claims.Full s.strand [a] → let x := readReg s.strand a
    (512 ≤ x.toNat ∨ natBits x.toNat 7 4 ≠ 0 ∨ (natBits x.toNat 8 8 = 1 ∧ natBits x.toNat 3 0 ≠ 0) →
      ∀ i ∈ [Instr.bararv a, .barwait a, .barsync a], exec i s = .next (frontTrap (Claims.ill 6) s)) ∧
    (x.toNat < 16 → (∀ v, (hoopOf s s.strand.hoop).barriers[x.toNat]? = some v →
        v.slots.getLsbD s.strand.slot = false ∨ v.asid ≠ s.strand.asid) →
      ∀ i ∈ [Instr.bararv a, .barwait a, .barsync a], exec i s = .next (frontTrap (Claims.acc x) s)))

/-- A fence has nothing to wait for on the scalar side; fence.s goes on when the vector side, the engine queues and the
ports that it names have performed what is older, waits until then, invalidates the stream buffers for the vector side at
a scope of 3 or more, and is ILL 6 with no side or a scope above 4. yield
goes on, and marks its boundary where a stop is pending. -/
def Obligations.FencesAndYield : Prop :=
  (∀ (h : Nat) (s : State), (hoopOf (dropBuffers h s) h).buffers = [] ∧
    dropBuffers h s = { s with hoops := (dropBuffers h s).hoops }) ∧
  ∀ s : State, s.strand.dbgStep = false →
    (∀ f p q : BitVec 4, exec (.fence f p q) s = .next (advance s)) ∧
    exec .fenceTso s = .next (advance s) ∧
    (s.strand.preempt = false → s.strand.cancelled = false → exec .yield s = .next (advance s)) ∧
    (s.strand.preempt = true ∨ s.strand.cancelled = true → exec .yield s = .next
      { advance s with strand := { (advance s).strand with atLoopPoint := true } }) ∧
    (∀ (i e v c : BitVec 1) (sc : BitVec 5), sc.toNat ≤ 4 → (i = 1 ∨ e = 1 ∨ v = 1 ∨ c = 1) →
      ((v = 1 → vMemBusy s.strand = false) → (e = 1 → s.strand.mq = [] ∧ s.strand.cq = [] ∧ s.strand.nq = []) →
        (sc.toNat = 4 → portsSettled s = true) → exec (.fenceS i e v c sc) s =
          .next (advance (if v = 1 ∧ 3 ≤ sc.toNat then Claims.acquired 1 s else s))) ∧
      ((v = 1 ∧ vMemBusy s.strand = true) ∨ (e = 1 ∧ ¬(s.strand.mq = [] ∧ s.strand.cq = [] ∧ s.strand.nq = [])) ∨
        (sc.toNat = 4 ∧ portsSettled s = false) → exec (.fenceS i e v c sc) s = .next (frontWait .uncounted s))) ∧
    (∀ (i e v c : BitVec 1) (sc : BitVec 5), 4 < sc.toNat ∨ (i = 0 ∧ e = 0 ∧ v = 0 ∧ c = 0) →
      exec (.fenceS i e v c sc) s = .next (frontTrap (Claims.ill 6) s))

/-- sexit ends a strand whose queues, results and submissions are complete: it is Exited, its tokens, reservation and
lanes are released and its launch counts it once; until then it waits. A cancelled strand ends the same way at its next
pre-emption point, counted as cancelled. idle holds the front until a request or a wake event, which service firmware
posts, and is ILL 7 at strand level. -/
def Obligations.StrandsEndAndIdle : Prop :=
  (∀ s : State, Claims.Runs s → exitReady s = true → ∃ t, exec .sexit s = .next t ∧ t.strand.state = .exited ∧
    t.strand.resv = none ∧ t.strand.arrays = [] ∧ (∀ a b, tokens t.strand a b = 0) ∧ t.strand.x = s.strand.x ∧
    t.hub.incs = s.hub.incs ++ [(s.strand.id.launch, false)] ∧ (Claims.RingOff s → t.mem.bytes = s.mem.bytes)) ∧
  (∀ s : State, exitReady s = false → exec .sexit s = .next (frontWait .uncounted s)) ∧
  (∀ s : State, Claims.Runs s → s.strand.cancelled = true →
    (s.strand.loops = [] ∨ s.strand.atLoopPoint = true ∨ (s.strand.preempt = true ∧ s.strand.graceOut = true)) →
    ∃ t, exec .strandCancelStop s = .next t ∧ t.strand.state = .exited ∧ t.strand.vq = [] ∧ t.strand.mq = [] ∧
      t.strand.cq = [] ∧ t.strand.nq = [] ∧ t.hub.incs = s.hub.incs ++ [(s.strand.id.launch, true)] ∧
      (Claims.RingOff s → t.mem.bytes = s.mem.bytes)) ∧
  (∀ s : State, s.strand.dbgStep = false → sysLevel s.strand = true →
    ((s.strand.woken || s.strand.preempt || s.strand.cancelled) = true →
      exec .idle s = .next (Claims.done s { s.strand with woken := false, idling := false })) ∧
    ((s.strand.woken || s.strand.preempt || s.strand.cancelled) = false →
      exec .idle s = .next (frontWait .uncounted { s with strand := { s.strand with idling := true } }))) ∧
  (∀ s : State, sysLevel s.strand = false → exec .idle s = .next (frontTrap (Claims.ill 7) s)) ∧
  (∀ s : State, Claims.Runs s → ∃ t, exec (.idleWake s.strand.id) s = .next t ∧
    t.strand = { s.strand with woken := true } ∧ t.mem = s.mem ∧ t.hub = s.hub)

/-! ## The V queue and the element-wise instructions -/

namespace Sys2Proof.Claims

/-- The vector side issues an entry from the head of the V queue: its pop, if it has one, can be taken, an entry that
writes registers alone finds room for its push (R35, R432), and no element step has performed a part of it (R468). -/
structure Issues (s : State) (e : VEntry) : Prop where
  turn : s.actor = .vec
  head : s.strand.vq.head? = some e
  fresh : e.done = false
  whole : s.strand.dbgElem = false
  unstepped : e.lanes = none
  pop : ∀ q, tkMeaning .v (tkOf e.word) = some (false, q) → e.popped = true ∨ tokens s.strand q .v ≠ 0
  push : holdsForPush s.strand e = false

/-- The entry's type is legal, its vl within VLMAX, the mask rule of R49 holds where it is asked, and nothing is
poisoned. -/
def Typed (st : Strand) (e : VEntry) (masked : Bool) : Prop :=
  vtypeLegal e.vtype = true ∧ e.vl ≤ vlmax (rg st) e.vtype ∧ (masked = true → lmulOf e.vtype ≤ sewOf e.vtype) ∧
  ∀ r, poisonOf st r = []

/-- The alignment and range of groups, given as base and size (R50). -/
def Groups (gs : List (Nat × Nat)) : Prop := ∀ p ∈ gs, p.1 % p.2 = 0 ∧ p.1 + p.2 ≤ 32

/-- The entry's own pop is taken, unless it has been, ahead of all that the entry does: an acquire (R35, R266). -/
def popped (e : VEntry) (s : State) : State :=
  match tkMeaning .v (tkOf e.word) with
  | some (false, q) =>
    if e.popped then s
    else popToken q .v (withStrand s { s.strand with
      waits := s.strand.waits.set 1 0, vq := s.strand.vq.modifyHead fun x => { x with popped := true } })
  | _ => s

/-- A value at element i of a destination under R174: `old` below vstart and where a policy keeps it. -/
def policy {α : Type} (e : VEntry) (takes : Bool) (i : Nat) (old new zero : α) : α :=
  if i < e.vstart then old
  else if i < e.vl then if takes then new else if e.vtype.getLsbD 9 then zero else old
  else if e.vtype.getLsbD 8 then zero else old

/-- Element i takes part (R49). -/
def takes (st : Strand) (masked : Bool) (i : Nat) : Bool := !masked || maskBit st 0 i

/-- t is st but for some registers, whose bindings a write invalidates (R53), and the sticky flags. -/
def OnlyGroup (st t : Strand) (base g : Nat) : Prop :=
  t = { st with v := t.v, tags := t.tags, csr := { st.csr with vfflags := t.csr.vfflags, vxsat := t.csr.vxsat } } ∧
  (∀ q, q < 32 → (q < base ∨ base + g ≤ q) → fieldsOf t q = fieldsOf st q ∧ tagOf t q = tagOf st q) ∧
  (tagOf t base).getLsbD 0 = false ∧ ∀ k, 0 < k → k < g → tagOf t (base + k) = 0

/-- The sticky flags gather what the elements that took part raise (R148, R156). -/
def Raised (st t : Strand) (e : VEntry) (act : Nat → Bool) (f : Nat → ElemOut) : Prop :=
  (∀ k, t.csr.vfflags.getLsbD k = true ↔ st.csr.vfflags.getLsbD k = true ∨
    ∃ i, e.vstart ≤ i ∧ i < e.vl ∧ act i = true ∧ (f i).flags.getLsbD k = true) ∧
  (∀ k, t.csr.vxsat.getLsbD k = true ↔ st.csr.vxsat.getLsbD k = true ∨
    (k = 0 ∧ ∃ i, e.vstart ≤ i ∧ i < e.vl ∧ act i = true ∧ (f i).sat = true))

/-- The effect of R174, from the state s1 that its pop and its accesses leave, on a group of elements of w bits where
`act` says which take part: what each element becomes, and nothing else. -/
def OnElementsOf (s s1 : State) (e : VEntry) (i : Instr) (act : Nat → Bool) (base w g : Nat) (f : Nat → ElemOut) : Prop :=
  (e.vstart < e.vl → ∃ t : Strand, exec i s = .next (retireV (withStrand s1 t)) ∧ OnlyGroup s1.strand t base g ∧
    (∀ k, k < vlmax (rg s.strand) e.vtype → getElem t base w k =
      policy e (act k) k (getElem s.strand base w k) ((f k).val % 2 ^ w) 0) ∧
    Raised s.strand t e act f) ∧
  (e.vl ≤ e.vstart → exec i s = .next (retireV (popped e s)))

/-- The effect of R174 where the mask says which elements take part. -/
def OnElements (s : State) (e : VEntry) (i : Instr) (masked : Bool) (base w g : Nat) (f : Nat → ElemOut) : Prop :=
  OnElementsOf s (popped e s) e i (takes s.strand masked) base w g f

/-- The effect of R175 on the mask bits of a register; bits beyond the slots become zero. -/
def OnMask (s : State) (e : VEntry) (i : Instr) (masked : Bool) (r : Nat) (f : Nat → Bool × Flags) : Prop :=
  (e.vstart < e.vl → ∃ t : Strand, exec i s = .next (retireV (withStrand (popped e s) t)) ∧
    OnlyGroup (popped e s).strand t r 1 ∧
    (∀ k, k < vlmax (rg s.strand) e.vtype →
      maskBit t r k = policy e (takes s.strand masked k) k (maskBit s.strand r k) (f k).1 false) ∧
    (∀ row k, 32 * lmulOf e.vtype / sewOf e.vtype ≤ k → (fieldAt t r row).getLsbD k = false) ∧
    Raised s.strand t e (takes s.strand masked) fun k => { val := 0, flags := (f k).2, sat := false }) ∧
  (e.vl ≤ e.vstart → exec i s = .next (retireV (popped e s)))

/-- The second operand of an instruction: a register, x[rs1], a signed or an unsigned immediate, or none (R72, R174). -/
inductive Kind where
  | vec | scal | simm | uimm | none
  deriving DecidableEq, Repr

/-- Its element i, of w bits. -/
def operand (k : Kind) (st : Strand) (e : VEntry) (a : Reg) (w i : Nat) : Nat :=
  match k with
  | .vec => getElem st a.toNat w i
  | .scal => e.a.toNat % 2 ^ w
  | .simm => (a.toInt % 2 ^ w).toNat
  | .uimm => a.toNat % 2 ^ w
  | .none => 0

def operandGroup (k : Kind) (a : Reg) (g : Nat) : List (Nat × Nat) := if k = .vec then [(a.toNat, g)] else []

/-- A number of w bits in two's complement. -/
def sgn (w x : Nat) : Int := Int.bmod x (2 ^ w)

/-- A result that wraps, and one that is clamped into a range with `vxsat` (R148). -/
def exact (w : Nat) (v : Int) : ElemOut := { val := (v % 2 ^ w).toNat, flags := 0, sat := false }
def clamped (w : Nat) (lo hi v : Int) : ElemOut :=
  let c := max lo (min hi v)
  { val := (c % 2 ^ w).toNat, flags := 0, sat := c ≠ v }
def clampedU (w : Nat) (v : Int) : ElemOut := clamped w 0 (2 ^ w - 1) v
def clampedS (w : Nat) (v : Int) : ElemOut := clamped w (-(2 ^ (w - 1))) (2 ^ (w - 1) - 1) v

/-- The integer instructions of R178 and R180: constructor, second operand, and f of a, b and d at w bits. -/
structure IntForm where
  instr : Reg → Reg → Reg → BitVec 1 → Instr
  kind : Kind
  f : (w a b d : Nat) → ElemOut

/-- The forms of one function. -/
def forms (is : List ((Reg → Reg → Reg → BitVec 1 → Instr) × Kind)) (f : (w a b d : Nat) → ElemOut) : List IntForm :=
  is.map fun p => { instr := p.1, kind := p.2, f := f }

def unary (i : Reg → Reg → BitVec 1 → Instr) : Reg → Reg → Reg → BitVec 1 → Instr := fun d _ b m => i d b m

noncomputable def intForms : List IntForm :=
  forms [(.vaddVv, .vec), (.vaddVx, .scal), (.vaddVi, .simm)] (fun w a b _ => exact w (a + b)) ++
  forms [(.vsubVv, .vec), (.vsubVx, .scal)] (fun w a b _ => exact w (a - b)) ++
  forms [(.vrsubVx, .scal), (.vrsubVi, .simm)] (fun w a b _ => exact w (b - a)) ++
  forms [(.vminuVv, .vec), (.vminuVx, .scal)] (fun w a b _ => exact w (min a b)) ++
  forms [(.vminVv, .vec), (.vminVx, .scal)] (fun w a b _ => exact w (min (sgn w a) (sgn w b))) ++
  forms [(.vmaxuVv, .vec), (.vmaxuVx, .scal)] (fun w a b _ => exact w (max a b)) ++
  forms [(.vmaxVv, .vec), (.vmaxVx, .scal)] (fun w a b _ => exact w (max (sgn w a) (sgn w b))) ++
  forms [(.vandVv, .vec), (.vandVx, .scal), (.vandVi, .simm)] (fun w a b _ => exact w (a &&& b : Nat)) ++
  forms [(.vorVv, .vec), (.vorVx, .scal), (.vorVi, .simm)] (fun w a b _ => exact w (a ||| b : Nat)) ++
  forms [(.vxorVv, .vec), (.vxorVx, .scal), (.vxorVi, .simm)] (fun w a b _ => exact w (a ^^^ b : Nat)) ++
  forms [(.vsllVv, .vec), (.vsllVx, .scal), (.vsllVi, .uimm)] (fun w a b _ => exact w (a * 2 ^ (b % w))) ++
  forms [(.vsrlVv, .vec), (.vsrlVx, .scal), (.vsrlVi, .uimm)] (fun w a b _ => exact w (a / 2 ^ (b % w))) ++
  forms [(.vsraVv, .vec), (.vsraVx, .scal), (.vsraVi, .uimm)] (fun w a b _ => exact w (sgn w a / 2 ^ (b % w))) ++
  forms [(.vmulVv, .vec), (.vmulVx, .scal)] (fun w a b _ => exact w (a * b)) ++
  forms [(.vmulhVv, .vec), (.vmulhVx, .scal)] (fun w a b _ => exact w (sgn w a * sgn w b / 2 ^ w)) ++
  forms [(.vmulhuVv, .vec), (.vmulhuVx, .scal)] (fun w a b _ => exact w (a * b / 2 ^ w)) ++
  forms [(.vdivuVv, .vec), (.vdivuVx, .scal)] (fun w a b _ => exact w (quot a b)) ++
  forms [(.vdivVv, .vec), (.vdivVx, .scal)] (fun w a b _ => exact w (quot (sgn w a) (sgn w b))) ++
  forms [(.vremuVv, .vec), (.vremuVx, .scal)] (fun w a b _ => exact w (rest a b)) ++
  forms [(.vremVv, .vec), (.vremVx, .scal)] (fun w a b _ => exact w (rest (sgn w a) (sgn w b))) ++
  forms [(.vmaccVv, .vec), (.vmaccVx, .scal)] (fun w a b d => exact w (d + a * b)) ++
  forms [(unary .vabs, .none)] (fun w a _ _ => exact w (sgn w a).natAbs) ++
  forms [(unary .vbcnt, .none)] (fun w a _ _ => exact w ((List.range w).countP a.testBit))

noncomputable def saturatingForms : List IntForm :=
  forms [(.vsadduVv, .vec), (.vsadduVx, .scal), (.vsadduVi, .simm)] (fun w a b _ => clampedU w (a + b)) ++
  forms [(.vsaddVv, .vec), (.vsaddVx, .scal), (.vsaddVi, .simm)] (fun w a b _ => clampedS w (sgn w a + sgn w b)) ++
  forms [(.vssubuVv, .vec), (.vssubuVx, .scal)] (fun w a b _ => clampedU w (a - b)) ++
  forms [(.vssubVv, .vec), (.vssubVx, .scal)] (fun w a b _ => clampedS w (sgn w a - sgn w b))

/-- The fixed-point rounding of R149. -/
def rounded (xrm : BitVec 2) (v : Int) (d : Nat) : Int :=
  let q := v / 2 ^ d
  let lost := v % 2 ^ d
  if d = 0 then v
  else if xrm = 0 then (v + 2 ^ (d - 1)) / 2 ^ d
  else if xrm = 1 then if 2 ^ (d - 1) < lost ∨ (lost = 2 ^ (d - 1) ∧ q % 2 = 1) then q + 1 else q
  else if xrm = 2 then q
  else if lost ≠ 0 ∧ q % 2 = 0 then q + 1 else q

/-- The narrowing clips (R180): unsigned or signed. -/
noncomputable def clipForms : List ((Reg → Reg → Reg → BitVec 1 → Instr) × Kind × Bool) :=
  [(.vnclipuVv, .vec, false), (.vnclipuVx, .scal, false), (.vnclipuVi, .uimm, false), (.vnclipVv, .vec, true),
   (.vnclipVx, .scal, true), (.vnclipVi, .uimm, true)]

/-- The integer compares (R182). -/
abbrev CompareForm := (Reg → Reg → Reg → BitVec 1 → Instr) × Kind × ((w a b : Nat) → Bool)
noncomputable def compareForms : List CompareForm :=
  ([(.vmseqVv, .vec, fun _ a b => a = b), (.vmseqVx, .scal, fun _ a b => a = b), (.vmseqVi, .simm, fun _ a b => a = b),
   (.vmsneVv, .vec, fun _ a b => a ≠ b), (.vmsneVx, .scal, fun _ a b => a ≠ b), (.vmsneVi, .simm, fun _ a b => a ≠ b),
   (.vmsltuVv, .vec, fun _ a b => a < b), (.vmsltuVx, .scal, fun _ a b => a < b)] : List CompareForm) ++
  ([(.vmsltVv, .vec, fun w a b => sgn w a < sgn w b), (.vmsltVx, .scal, fun w a b => sgn w a < sgn w b),
   (.vmsleuVv, .vec, fun _ a b => a ≤ b), (.vmsleuVx, .scal, fun _ a b => a ≤ b), (.vmsleuVi, .simm, fun _ a b => a ≤ b),
   (.vmsleVv, .vec, fun w a b => sgn w a ≤ sgn w b), (.vmsleVx, .scal, fun w a b => sgn w a ≤ sgn w b)] : List CompareForm) ++
  ([(.vmsleVi, .simm, fun w a b => sgn w a ≤ sgn w b),
   (.vmsgtuVv, .vec, fun _ a b => b < a), (.vmsgtuVx, .scal, fun _ a b => b < a), (.vmsgtuVi, .simm, fun _ a b => b < a),
   (.vmsgtVv, .vec, fun w a b => sgn w b < sgn w a), (.vmsgtVx, .scal, fun w a b => sgn w b < sgn w a),
   (.vmsgtVi, .simm, fun w a b => sgn w b < sgn w a)] : List CompareForm)

/-- The mask logicals (R199), and the searches (R197): the low and the high half of x[rs1] reduced to w bits. -/
noncomputable def logicForms : List ((Reg → Reg → Reg → Instr) × (Bool → Bool → Bool)) :=
  [(.vmand, fun x y => x && y), (.vmor, fun x y => x || y), (.vmxor, fun x y => x != y), (.vmandn, fun x y => x && !y),
   (.vmnand, fun x y => !(x && y)), (.vmnor, fun x y => !(x || y)), (.vmorn, fun x y => x || !y),
   (.vmxnor, fun x y => x == y)]
noncomputable def searchForms : List ((Reg → Reg → Reg → BitVec 1 → Instr) × ((lo hi x : Nat) → Bool)) :=
  [(.vsrch, fun key care x => (x ^^^ key) &&& care = 0), (.vsrng, fun lo hi x => lo ≤ x && x ≤ hi)]

/-- Which part of a vector word names what: the category or subop, funct6, and mop. -/
def cat (w : Word32) : Nat := (w.extractLsb' 12 3).toNat
def funct6 (w : Word32) : Nat := (w.extractLsb' 26 6).toNat
def mop (w : Word32) : Nat := (w.extractLsb' 29 3).toNat
def isVa (w : Word32) : Bool := w.extractLsb' 0 7 = 0b0001011#7
def isVm (w : Word32) : Bool := w.extractLsb' 0 7 = 0b0101011#7

/-- The forms that read x[rs1]: .vx and .vf, those of R74 and R75 that say so, and all of OP-VM (R70, R74 to R76). -/
def readsFirst (w : Word32) : Bool :=
  isVm w || isVa w && (cat w = 1 || cat w = 4 ||
    cat w = 5 && [0, 1, 19, 20, 21, 22, 23, 24, 25, 27, 28, 29, 30, 31, 32, 33, 34, 35, 38].contains (funct6 w) ||
    cat w = 6 && [6, 11, 12].contains (funct6 w))

/-- The forms that read x[rs2]: a stride, and vlq, vsq, qld, wsrch and wtopk (R76). -/
def readsSecond (w : Word32) : Bool :=
  isVm w && (mop w = 2 || mop w = 3 || mop w = 6 && [0, 1, 2, 4, 6].contains (cat w))

/-- The forms that round under SR when `vfrm` says so: vquant, and a vfcvt that rounds (R154, R157, R228). -/
def takesSeed (st : Strand) (w : Word32) : Bool :=
  isVa w && st.csr.vfrm.toNat % 8 = 5 &&
    (cat w = 6 && funct6 w = 1 || cat w = 3 && funct6 w = 17 && cvtRounds st.vtype (w.extractLsb' 15 5))

/-- The forms that read `qcfg`: vlq, qcomp, vquant, qbind, qbindt, and a vhad that quantises; and `wcfg`: the window
operations (R402). -/
def readsQcfg (st : Strand) (w : Word32) : Bool :=
  isVm w && mop w = 6 && cat w = 0 ||
    isVa w && (cat w = 6 && [0, 1, 3, 12].contains (funct6 w) ||
      cat w = 5 && funct6 w = 22 && (readReg st (w.extractLsb' 15 5)).getLsbD 4)
def readsWcfg (w : Word32) : Bool := isVm w && mop w = 6 && [4, 5, 6].contains (cat w)

/-- qld and qst; and the words whose effect leaves the registers: the stores, vsq, qst and vsend. -/
def streams (w : Word32) : Bool := isVm w && mop w = 6 && [2, 3].contains (cat w)
def writesOut (w : Word32) : Bool :=
  isVm w && ([1, 3, 5].contains (mop w) || mop w = 6 && [1, 3].contains (cat w)) ||
    w.extractLsb' 0 7 = 0b1011011#7 && w.extractLsb' 25 7 = 0x30

end Sys2Proof.Claims

/-- tkpost counts a token from S to the queue and puts a marker there, waiting while the counter is 15; tkwait takes a
token of the queue, waiting while there is none; a marker behind which nothing waits to issue takes the token that
stands for it; a push that waited leaves with its instruction. Nothing but the counter, the queue and a trace record
changes, and the hoop's stream buffers, which a pop, as an acquire, invalidates. What a tk code does in each queue.
The head of the V queue waits while its pop finds no token, or while its push has no room and it writes registers
alone; it retires with its push, or holds the entry, done, until the counter has room, with what it performed behind
its vstart. -/
def Obligations.TokensBetweenQueues : Prop :=
  (((∀ (s : State) (src dst a b : Queue), let t := pushToken src dst s
    tokens t.strand a b = (if a = src ∧ b = dst then tokens s.strand a b + 1 else tokens s.strand a b) ∧
    Claims.Traced (Claims.withStrand s { s.strand with tokens := t.strand.tokens }) t) ∧
  (∀ (s : State) (src dst a b : Queue), let t := popToken src dst s
    tokens t.strand a b = (if a = src ∧ b = dst then tokens s.strand a b - 1 else tokens s.strand a b) ∧
    (hoopOf t s.strand.hoop).buffers = [] ∧
    ∃ u, Claims.Traced (Claims.withStrand s { s.strand with tokens := t.strand.tokens }) u ∧
      t = dropBuffers s.strand.hoop u ∧ ∀ h, hoopOf t h = { hoopOf u h with buffers := (hoopOf t h).buffers } ∧
        (h ≠ s.strand.hoop → hoopOf t h = hoopOf u h)) ∧
  (∀ s : State, s.strand.dbgStep = false →
    (tokens s.strand .s .v ≠ 15 → s.strand.vq.length < 64 → ∃ e, e.word = s.fetched ∧ e.seq = s.strand.nextSeq ∧
      exec (.tkpost 1) s = .next (advance (pushToken .s .v (Claims.withStrand s { s.strand with vq := s.strand.vq ++ [e] })))) ∧
    (∀ (q : Queue) (n : BitVec 5), Queue.ofCode n.toNat = some q → q ≠ .s → q ≠ .v →
      tokens s.strand .s q ≠ 15 → (cmdQueue s.strand q).length < 16 → ∃ e, e.word = s.fetched ∧ e.seq = s.strand.nextSeq ∧
        exec (.tkpost n) s = .next (advance (pushToken .s q (Claims.withStrand s
          (setCmdQueue s.strand q (cmdQueue s.strand q ++ [e])))))) ∧
    (∀ (q : Queue) (n : BitVec 5), Queue.ofCode n.toNat = some q → q ≠ .s →
      (tokens s.strand .s q = 15 → exec (.tkpost n) s = .next (frontWait (.token .s q true) s)) ∧
      (tokens s.strand q .s ≠ 0 → exec (.tkwait n) s = .next (advance (popToken q .s s))) ∧
      (tokens s.strand q .s = 0 → exec (.tkwait n) s = .next (frontWait (.token q .s false) s)))) ∧
  (∀ (s : State) (e : VEntry) (ds es : List VEntry), s.strand.vq = ds ++ e :: es →
    (∀ d ∈ ds, d.done = true ∨ d.begun = true) → e.done = false → e.begun = false → isMarker e.word = true →
    tokens s.strand .s .v ≠ 0 → exec (.tokenMarkerHead 1) s = .next (popToken .s .v (Claims.withStrand s
      { s.strand with vq := ds ++ es, waits := s.strand.waits.set 1 0 }))) ∧
  (∀ (s : State) (q : Queue) (n : BitVec 3) (e : CEntry) (ds es : List CEntry), Queue.ofCode n.toNat = some q → q ≠ .s →
    q ≠ .v → cmdQueue s.strand q = ds ++ e :: es → (∀ d ∈ ds, d.accepted = true) → e.accepted = false →
    isMarker e.word = true → tokens s.strand .s q ≠ 0 →
    exec (.tokenMarkerHead n) s = .next (popToken .s q (Claims.withStrand s (setCmdQueue s.strand q (ds ++ es))))) ∧
  (∀ (s : State) (e : VEntry) (es : List VEntry) (q : Queue), s.strand.vq = e :: es → e.done = true →
    tkMeaning .v (tkOf e.word) = some (true, q) → tokens s.strand .v q ≠ 15 →
    exec (.tokenPush 1) s = .next (pushToken .v q (Claims.withStrand s { s.strand with
      vq := es, waits := s.strand.waits.set 1 0, instret := s.strand.instret + 1 })))) : Prop) ∧
  (((∀ p ∈ [(Queue.v, Queue.m, Queue.c, Queue.n), (.m, .v, .c, .n), (.c, .v, .m, .n), (.n, .v, .m, .c)], ∀ tk : BitVec 3,
    tkMeaning p.1 tk = ([none, some (true, Queue.s), some (true, p.2.1), some (true, p.2.2.1), some (true, p.2.2.2),
      some (false, p.2.1), some (false, p.2.2.1), some (false, p.2.2.2)].getD tk.toNat none)) ∧
  (∀ (s : State) (e : VEntry) (es : List VEntry), s.strand.vq = e :: es →
    let out := Claims.withStrand s { s.strand with
      vq := es, waits := s.strand.waits.set 1 0, instret := s.strand.instret + 1 }
    ((∀ q, tkMeaning .v (tkOf e.word) ≠ some (true, q)) → retireV s = out) ∧
    (∀ q, tkMeaning .v (tkOf e.word) = some (true, q) → tokens s.strand .v q ≠ 15 → retireV s = pushToken .v q out) ∧
    (∀ q, tkMeaning .v (tkOf e.word) = some (true, q) → tokens s.strand .v q = 15 →
      retireV s = Claims.withStrand s { s.strand with vq := { e with
        done := true, vstart := if Claims.streams e.word then e.vstart else max e.vstart e.vl } :: es }) ∧
    (holdsForPush s.strand e = true ↔ (∃ q, tkMeaning .v (tkOf e.word) = some (true, q) ∧ tokens s.strand .v q = 15) ∧
      Claims.writesOut e.word = false) ∧
    (∀ (i : Instr) (w : Word32), encode i = some w → isVecWord w = true → s.actor = .vec →
      (e.done = true → exec i s = .next (retireV s)) ∧
      (e.done = false → holdsForPush s.strand e = true ∨
        (e.popped = false ∧ ∃ q, tkMeaning .v (tkOf e.word) = some (false, q) ∧ tokens s.strand q .v = 0) →
        exec i s = .next s)))) : Prop)

/-- Every instruction of the V queue leaves the front when the queue has room: its entry takes vl, vtype, vstart,
mtype, the rounding controls, x[rs1] and x[rs2] where the form reads them, the seed where it rounds under SR, and the
CSR that it reads; vstart becomes 0, the seed moves on, a result register becomes empty, and the front goes on; it
counts as retired when it leaves the queue. A V entry whose type is illegal raises ILL 2 for the integer instructions
and changes nothing else; the trap waits for the front. -/
def Obligations.VectorInstructionsEnter : Prop :=
  ((∀ (i : Instr) (w : Word32) (s : State), encode i = some w → isVecWord w = true → decode w = .ok i → s.fetched = w →
    s.actor = .front → s.strand.dbgStep = false → (∀ r, isEmpty s.strand r = false) → s.strand.vq.length < 64 →
    let csr := s.strand.csr
    exec i s = .next (Claims.left s (setEmpty { s.strand with
      vq := s.strand.vq ++ [{
        word := w, popped := false, vl := s.strand.vl, vstart := csr.vstart.toNat, vtype := s.strand.vtype
        mtype := s.strand.mtype, frm := csr.vfrm.setWidth 4, xrm := csr.vxrm.setWidth 2
        a := if Claims.readsFirst w then readReg s.strand (w.extractLsb' 15 5) else 0
        b := if Claims.readsSecond w then readReg s.strand (w.extractLsb' 20 5)
          else if Claims.takesSeed s.strand w then csr.srseed else 0
        csr := if Claims.readsQcfg s.strand w then csr.qcfg.setWidth 22
          else if Claims.readsWcfg w then csr.wcfg.setWidth 22 else 0
        pc := s.strand.pc, seq := s.strand.nextSeq, done := false, begun := false, lanes := none }]
      csr := { csr with
        vstart := 0, srseed := if Claims.takesSeed s.strand w then csr.srseed + 0x9E3779B97F4A7C15 else csr.srseed } }
      (vResultReg w)))) : Prop) ∧
  ((∀ p ∈ Claims.intForms ++ Claims.saturatingForms, ∀ (d a b : Reg) (m : BitVec 1) (s : State) (e : VEntry),
    Claims.Issues s e →
    (e.vtype.getLsbD 63 = true → exec (p.instr d a b m) s = .next (reportV e (Claims.ill 2) s)) ∧
    (e.vtype.getLsbD 63 = false → m = 1 → sewOf e.vtype < lmulOf e.vtype →
      exec (p.instr d a b m) s = .next (reportV e (Claims.ill 2) s)) ∧
    (e.vtype.getLsbD 63 = false → m = 0 → d.toNat % lmulOf e.vtype ≠ 0 →
      exec (p.instr d a b m) s = .next (reportV e (Claims.ill 3) s))) : Prop)

/-- The integer instructions of R178 and R180 apply their function of vs2, op1 and the old vd to every element that takes
part, under the policies of R174; the saturating ones set vxsat where an element was clamped. -/
def Obligations.IntegerElements : Prop :=
  ∀ p ∈ Claims.intForms ++ Claims.saturatingForms, ∀ (d a b : Reg) (m : BitVec 1) (s : State) (e : VEntry),
    Claims.Issues s e → Claims.Typed s.strand e (m = 1) →
    let g := lmulOf e.vtype
    let w := sewOf e.vtype
    Claims.Groups ([(d.toNat, g), (b.toNat, g)] ++ Claims.operandGroup p.kind a g) →
    Claims.OnElements s e (p.instr d a b m) (m = 1) d.toNat w g fun i =>
      p.f w (getElem s.strand b.toNat w i) (Claims.operand p.kind s.strand e a w i) (getElem s.strand d.toNat w i)

/-- The narrowing clips round a source of twice the width off and clamp it, with vxsat; vcvti converts between integer
widths; at SEW 64, or with a source group above 8, each raises ILL 5. vmerge takes op1 where the mask bit is 1 and vs2
elsewhere, whatever the mask policy; vmv copies op1; vid writes the element's number. -/
def Obligations.NarrowWidenAndMove : Prop :=
  (((∀ p ∈ Claims.clipForms, ∀ (d a b : Reg) (m : BitVec 1) (s : State) (e : VEntry), Claims.Issues s e →
    Claims.Typed s.strand e (m = 1) →
    let g := lmulOf e.vtype
    let w := sewOf e.vtype
    Claims.Groups ([(d.toNat, g), (b.toNat, 2 * g)] ++ Claims.operandGroup p.2.1 a g) →
    (w < 64 → g < 8 → Claims.OnElements s e (p.1 d a b m) (m = 1) d.toNat w g fun i =>
      let x := getElem s.strand b.toNat (2 * w) i
      let h := Claims.operand p.2.1 s.strand e a w i % (2 * w)
      if p.2.2 then Claims.clampedS w (Claims.rounded e.xrm (Claims.sgn (2 * w) x) h)
      else Claims.clampedU w (Claims.rounded e.xrm x h)) ∧
    (w = 64 ∨ g = 8 → exec (p.1 d a b m) s = .next (reportV e (Claims.ill 5) s))) ∧
  (∀ (d b : Reg) (m n : BitVec 1) (c : BitVec 3) (s : State) (e : VEntry), Claims.Issues s e →
    Claims.Typed s.strand e (m = 1) → c ≠ 7 →
    let g := lmulOf e.vtype
    let w := sewOf e.vtype
    let sw := 2 ^ c.toNat
    let gs := max (if sw = 64 then 2 else 1) (g * sw / w)
    Claims.Groups [(d.toNat, g), (b.toNat, gs)] →
    (gs ≤ 8 → Claims.OnElements s e (.vcvti d b m n c) (m = 1) d.toNat w g fun i =>
      let x := getElem s.strand b.toNat sw i
      Claims.exact w (if n = 1 then Claims.sgn sw x else x)) ∧
    (8 < gs → exec (.vcvti d b m n c) s = .next (reportV e (Claims.ill 5) s)))) : Prop) ∧
  (((∀ p ∈ [(Instr.vmergeVv, Claims.Kind.vec), (.vmergeVx, .scal), (.vmergeVi, .simm)], ∀ (d a b : Reg) (s : State)
    (e : VEntry), Claims.Issues s e → Claims.Typed s.strand e true →
    let g := lmulOf e.vtype
    let w := sewOf e.vtype
    Claims.Groups ([(d.toNat, g), (b.toNat, g)] ++ Claims.operandGroup p.2 a g) →
    Claims.OnElements s e (p.1 d a b) false d.toNat w g fun i => Claims.exact w
      (if maskBit s.strand 0 i then Claims.operand p.2 s.strand e a w i else getElem s.strand b.toNat w i)) ∧
  (∀ p ∈ [(Instr.vmvVv, Claims.Kind.vec), (.vmvVx, .scal), (.vmvVi, .simm)], ∀ (d a : Reg) (m : BitVec 1) (s : State)
    (e : VEntry), Claims.Issues s e → Claims.Typed s.strand e (m = 1) →
    let g := lmulOf e.vtype
    let w := sewOf e.vtype
    Claims.Groups ([(d.toNat, g)] ++ Claims.operandGroup p.2 a g) →
    Claims.OnElements s e (p.1 d a m) (m = 1) d.toNat w g fun i =>
      Claims.exact w (Claims.operand p.2 s.strand e a w i)) ∧
  (∀ (d : Reg) (m : BitVec 1) (s : State) (e : VEntry), Claims.Issues s e → Claims.Typed s.strand e (m = 1) →
    let w := sewOf e.vtype
    Claims.Groups [(d.toNat, lmulOf e.vtype)] →
    Claims.OnElements s e (.vid d m) (m = 1) d.toNat w (lmulOf e.vtype) fun i => Claims.exact w i)) : Prop)

/-- The integer compares, the searches and the mask logicals write mask bits under R175; the searches are ILL 5 at
SEW 64. -/
def Obligations.MaskResults : Prop :=
  (∀ p ∈ Claims.compareForms, ∀ (d a b : Reg) (m : BitVec 1) (s : State) (e : VEntry), Claims.Issues s e →
    Claims.Typed s.strand e true →
    let g := lmulOf e.vtype
    let w := sewOf e.vtype
    Claims.Groups ([(d.toNat, 1), (b.toNat, g)] ++ Claims.operandGroup p.2.1 a g) →
    Claims.OnMask s e (p.1 d a b m) (m = 1) d.toNat fun i =>
      (p.2.2 w (getElem s.strand b.toNat w i) (Claims.operand p.2.1 s.strand e a w i), 0)) ∧
  (∀ p ∈ Claims.searchForms, ∀ (d a b : Reg) (m : BitVec 1) (s : State) (e : VEntry), Claims.Issues s e →
    Claims.Typed s.strand e true →
    let w := sewOf e.vtype
    Claims.Groups [(d.toNat, 1), (b.toNat, lmulOf e.vtype)] →
    (w ≤ 32 → Claims.OnMask s e (p.1 d a b m) (m = 1) d.toNat fun i =>
      (p.2 (e.a.toNat % 2 ^ w) (e.a.toNat / 2 ^ 32 % 2 ^ w) (getElem s.strand b.toNat w i), 0)) ∧
    (w = 64 → exec (p.1 d a b m) s = .next (reportV e (Claims.ill 5) s))) ∧
  (∀ p ∈ Claims.logicForms, ∀ (d a b : Reg) (s : State) (e : VEntry), Claims.Issues s e → Claims.Typed s.strand e true →
    Claims.OnMask s e (p.1 d a b) false d.toNat fun i =>
      (p.2 (maskBit s.strand b.toNat i) (maskBit s.strand a.toNat i), 0))

/-! ## Float numbers and the float instructions -/

namespace Sys2Proof.Claims

/-- A rational with a sign. -/
def rat (neg : Bool) (num den : Nat) : ℚ := (if neg then -1 else 1) * num / den

/-- A code of a format stands for a finite number. -/
def IsFin (f : Fmt) (c : Nat) (q : ℚ) : Prop := ∃ s n d, f.val c = .fin s n d ∧ 0 < d ∧ q = rat s n d

/-- The float formats of R150: exponent bits, fraction bits, bias, and whether there are infinities. -/
def formats : List (Fmt × Nat × Nat × Int × Bool) :=
  [(.fp32, 8, 23, 127, true), (.fp16, 5, 10, 15, true), (.bf16, 8, 7, 127, true), (.e4m3, 4, 3, 7, false),
   (.e5m2, 5, 2, 15, true), (.e2m1, 2, 1, 1, false)]

/-- The flags of a result: NV for a signalling operand. -/
def quietly (f : Fmt) (a b : Nat) : Flags := if f.isSnan a = true ∨ f.isSnan b = true then fNV else 0

/-- The float instructions of R184, R159 and R187, on the codes of vs2, op1 and the old vd. -/
structure FloatForm where
  instr : Reg → Reg → Reg → BitVec 1 → Instr
  kind : Kind
  f : Fmt → Round → (x y d : Nat) → Nat × Flags

def floats (is : List ((Reg → Reg → Reg → BitVec 1 → Instr) × Kind)) (f : Fmt → Round → (x y d : Nat) → Nat × Flags) :
    List FloatForm := is.map fun p => { instr := p.1, kind := p.2, f := f }

/-- With the sign bit of a code replaced. -/
def withSign (f : Fmt) (c : Nat) (neg : Bool) : Nat := c % 2 ^ (f.width - 1) + if neg then 2 ^ (f.width - 1) else 0

/-- What every format but E2M1 implements (R153). -/
noncomputable def arithForms : List FloatForm :=
  floats [(.vfaddVv, .vec), (.vfaddVf, .scal)] (fun f r x y _ => fadd f r x y) ++
  floats [(.vfsubVv, .vec), (.vfsubVf, .scal)] (fun f r x y _ => fsub f r x y) ++
  floats [(.vfrsubVf, .scal)] (fun f r x y _ => fsub f r y x) ++
  floats [(.vfmulVv, .vec), (.vfmulVf, .scal)] (fun f r x y _ => fmul f r x y) ++
  floats [(.vfmaccVv, .vec), (.vfmaccVf, .scal)] (fun f r x y d => fma f r false x y d) ++
  floats [(.vfnmsacVv, .vec), (.vfnmsacVf, .scal)] (fun f r x y d => fma f r true x y d) ++
  floats [(.vfsgnjVv, .vec), (.vfsgnjVf, .scal)] (fun f _ x y _ => (withSign f x (f.signBit y), 0)) ++
  floats [(.vfsgnjnVv, .vec), (.vfsgnjnVf, .scal)] (fun f _ x y _ => (withSign f x (!f.signBit y), 0)) ++
  floats [(.vfsgnjxVv, .vec), (.vfsgnjxVf, .scal)] (fun f _ x y _ => (withSign f x (f.signBit x != f.signBit y), 0)) ++
  floats [(unary .vfrcp, .none)] (fun f r x _ _ => fapprox f .rcp r.sat x) ++
  floats [(unary .vfrsqrt, .none)] (fun f r x _ _ => fapprox f .rsqrt r.sat x) ++
  floats [(unary .vfexp2, .none)] (fun f r x _ _ => fapprox f .exp2 r.sat x)

/-- What every format implements (R153). -/
noncomputable def anyForms : List FloatForm :=
  floats [(.vfminVv, .vec), (.vfminVf, .scal)] (fun f _ x y _ => fminmax f false x y) ++
  floats [(.vfmaxVv, .vec), (.vfmaxVf, .scal)] (fun f _ x y _ => fminmax f true x y) ++
  floats [(unary .vfclass, .none)] (fun f _ x _ _ => (fclass f x, 0))

/-- The float compares (R186). -/
abbrev RelForm := (Reg → Reg → Reg → BitVec 1 → Instr) × Kind × FRel
noncomputable def relForms : List RelForm :=
  ([(.vmfeqVv, .vec, .eq), (.vmfeqVf, .scal, .eq), (.vmfneVv, .vec, .ne), (.vmfneVf, .scal, .ne), (.vmfltVv, .vec, .lt),
    (.vmfltVf, .scal, .lt), (.vmfleVv, .vec, .le)] : List RelForm) ++
  ([(.vmfleVf, .scal, .le), (.vmfgtVv, .vec, .gt), (.vmfgtVf, .scal, .gt), (.vmfgeVv, .vec, .ge), (.vmfgeVf, .scal, .ge),
    (.vmfordVv, .vec, .ord), (.vmfordVf, .scal, .ord)] : List RelForm)

/-- A relation holds between two numbers (R186). -/
def related (r : FRel) (x y : ℚ) : Prop :=
  match r with
  | .eq => x = y
  | .ne => x ≠ y
  | .lt => x < y
  | .le => x ≤ y
  | .gt => x > y
  | .ge => x ≥ y
  | .ord => True

/-- The source of a vfcvt (R188): a format, or an integer width with its sign. -/
def cvtSource (k : BitVec 5) : Fmt := [Fmt.fp32, .bf16, .fp16, .e4m3, .e5m2, .e2m1].getD (k.toNat % 8) .e2m1
def cvtWidth (k : BitVec 5) : Nat := if k.toNat / 8 = 1 then 8 * 2 ^ (k.toNat % 4) else (cvtSource k).width

/-- The rounding of a conversion into a format: under SR with the captured seed and the element's number, where it
narrows or the source is an integer (R157, R158, R189). -/
def cvtRound (e : VEntry) (dst : Fmt) (k : BitVec 5) (i : Nat) : Round :=
  if k.toNat / 8 = 1 ∨ dst.width < (cvtSource k).width ∨ (dst.width = (cvtSource k).width ∧ dst ≠ cvtSource k) then
    roundSr e.frm e.b i
  else roundOf e.frm

/-- The conversion of a code c to a format (R158). -/
def toFormat (e : VEntry) (dst : Fmt) (k : BitVec 5) (i c : Nat) : Nat × Flags :=
  let r := cvtRound e dst k i
  let src := cvtSource k
  if k.toNat / 8 = 1 then
    rnd dst r.mode r.sat (Val.ofInt (if k.toNat % 8 < 4 then (c : Int) else sgn (cvtWidth k) c))
  else if src = dst then (if src.isNanCode c then src.canon else c, if src.isSnan c then fNV else 0)
  else
    let x := rnd dst r.mode r.sat (src.val c)
    (x.1, x.2 ||| if src.isSnan c then fNV else 0)

/-- A float instruction for the formats that implement it, and ILL 5 for the others (R153, R183). -/
def FloatOp (p : FloatForm) (ok : Fmt → Prop) : Prop :=
  ∀ (d a b : Reg) (m : BitVec 1) (s : State) (e : VEntry), Issues s e → Typed s.strand e (m = 1) →
    let g := lmulOf e.vtype
    let w := sewOf e.vtype
    let format := fmtOf (natBits e.vtype.toNat 7 6) w
    Groups ([(d.toNat, g), (b.toNat, g)] ++ operandGroup p.kind a g) →
    (∀ f, format = some f → ok f → OnElements s e (p.instr d a b m) (m = 1) d.toNat w g fun i =>
      let r := p.f f (roundOf e.frm) (getElem s.strand b.toNat w i) (operand p.kind s.strand e a w i)
        (getElem s.strand d.toNat w i)
      { val := r.1, flags := r.2, sat := false }) ∧
    ((∀ f, format = some f → ¬ok f) → exec (p.instr d a b m) s = .next (reportV e (ill 5) s))

end Sys2Proof.Claims

/-- What the codes of the formats stand for (R58, R150, R151): a number by the formula of R150, an infinity or a NaN;
signalling when the fraction's top bit is 0; and the exact sum, product and quotient of numbers. rnd under R154 to
R156, for a finite value that does not overflow: RDN gives the greatest number of the format not above it, RUP the
least not below it, RTZ the nearest of no greater magnitude, RNE and RMM a nearest one; NX is raised exactly when the
result differs. On overflow OF and NX are raised. -/
def Obligations.FloatFormats : Prop :=
  (((∀ p ∈ Claims.formats, ∀ s e m : Nat, let (f, eb, fb, bias, hasInf) := p
    s < 2 → e < 2 ^ eb → m < 2 ^ fb →
    let c := (s * 2 ^ eb + e) * 2 ^ fb + m
    let sign : ℚ := if s = 1 then -1 else 1
    let special := (hasInf = true ∧ e = 2 ^ eb - 1) ∨ (f = .e4m3 ∧ e = 15 ∧ m = 7)
    (¬special → e ≠ 0 → Claims.IsFin f c (sign * 2 ^ ((e : Int) - bias) * (1 + m / 2 ^ fb))) ∧
    (e = 0 → Claims.IsFin f c (sign * 2 ^ (1 - bias) * (m / 2 ^ fb))) ∧
    (hasInf = true → e = 2 ^ eb - 1 → m = 0 → f.val c = .inf (s = 1)) ∧
    (special → m ≠ 0 → f.val c = .nan ∧ f.isNanCode c = true ∧
      (f.isSnan c = true ↔ hasInf = true ∧ m < 2 ^ (fb - 1)))) ∧
  (∀ e m : Nat, e < 8 → m < 32 → let c := e * 32 + m
    (c = 0xFF → Fmt.e3m5.val c = .nan) ∧
    (c ≠ 0xFF → e ≠ 0 → Claims.IsFin .e3m5 c (2 ^ ((e : Int) - 3) * (1 + m / 32))) ∧
    (e = 0 → Claims.IsFin .e3m5 c (m / 128))) ∧
  (∀ t w f, fmtOf t w = some f ↔ (t, w, f) ∈ [(1, 32, Fmt.fp32), (1, 16, .bf16), (1, 8, .e4m3), (1, 4, .e2m1),
    (2, 16, .fp16), (2, 8, .e5m2)]) ∧
  (∀ (dn : Bool) (s t : Bool) (a b c d : Nat), 0 < b → 0 < d →
    let x := Claims.rat s a b
    let y := Claims.rat t c d
    (∃ u n k, Val.add dn (.fin s a b) (.fin t c d) = .fin u n k ∧ 0 < k ∧ Claims.rat u n k = x + y ∧
      (x + y = 0 → u = if s = t then s else dn)) ∧
    (∃ n k, Val.mul (.fin s a b) (.fin t c d) = .fin (s != t) n k ∧ 0 < k ∧ Claims.rat (s != t) n k = x * y) ∧
    (y ≠ 0 → ∃ n k, Val.div (.fin s a b) (.fin t c d) = .fin (s != t) n k ∧ 0 < k ∧
      Claims.rat (s != t) n k = x / y)) ∧
  (∀ p ∈ Claims.formats, p.1 ≠ .e2m1 → ∀ (rm : Round) (a b : Nat),
    (p.1.isNanCode a = true ∨ p.1.isNanCode b = true →
      fadd p.1 rm a b = (p.1.canon, Claims.quietly p.1 a b) ∧ fsub p.1 rm a b = (p.1.canon, Claims.quietly p.1 a b) ∧
      fmul p.1 rm a b = (p.1.canon, Claims.quietly p.1 a b)) ∧
    (∀ x, p.1.val a = .inf x → p.1.val b = .inf !x → fadd p.1 rm a b = (p.1.canon, fNV)) ∧
    (∀ x s d, p.1.val a = .inf x → p.1.val b = .fin s 0 d → fmul p.1 rm a b = (p.1.canon, fNV)))) : Prop) ∧
  ((∀ p ∈ Claims.formats, ∀ (m : Mode) (sat : Bool) (s : Bool) (n d : Nat), 0 < d →
    let f := p.1
    let x := Claims.rat s n d
    let r := rnd f m sat (.fin s n d)
    (r.2.getLsbD 2 = true → r.2.getLsbD 0 = true) ∧
    (r.2.getLsbD 2 = false → ∃ y, Claims.IsFin f r.1 y ∧ (r.2.getLsbD 0 = true ↔ y ≠ x) ∧
      (m = .rdn → y ≤ x ∧ ∀ c z, Claims.IsFin f c z → z ≤ x → z ≤ y) ∧
      (m = .rup → x ≤ y ∧ ∀ c z, Claims.IsFin f c z → x ≤ z → y ≤ z) ∧
      (m = .rtz → |y| ≤ |x| ∧ 0 ≤ x * y ∧ ∀ c z, Claims.IsFin f c z → |z| ≤ |x| → |z| ≤ |y|) ∧
      (m = .rne ∨ m = .rmm → ∀ c z, Claims.IsFin f c z → |x - y| ≤ |x - z|)) ∧
    (∀ c, f.isNanCode c = false → f.val c = .fin s n d → c < 2 ^ f.width → r = (c, 0))) : Prop)

/-- The float instructions work on every element that takes part, in the format that vtype names: arithmetic with one
rounding, minimum, maximum, class, compares into mask bits, and conversions; NaNs compare unordered. Where R153 or R188
does not implement the format they raise ILL 5. -/
def Obligations.FloatElements : Prop :=
  (∀ p ∈ Claims.anyForms, Claims.FloatOp p fun _ => True) ∧ (∀ p ∈ Claims.arithForms, Claims.FloatOp p fun f => f ≠ .e2m1) ∧
  (∀ p ∈ Claims.relForms, ∀ (d a b : Reg) (m : BitVec 1) (s : State) (e : VEntry), Claims.Issues s e →
    Claims.Typed s.strand e true →
    let g := lmulOf e.vtype
    let w := sewOf e.vtype
    Claims.Groups ([(d.toNat, 1), (b.toNat, g)] ++ Claims.operandGroup p.2.1 a g) →
    ∀ f, fmtOf (natBits e.vtype.toNat 7 6) w = some f → Claims.OnMask s e (p.1 d a b m) (m = 1) d.toNat fun i =>
      fcompare f p.2.2 (getElem s.strand b.toNat w i) (Claims.operand p.2.1 s.strand e a w i)) ∧
  (∀ (f : Fmt) (r : FRel) (a b : Nat),
    (f.isNanCode a = true ∨ f.isNanCode b = true → (fcompare f r a b).1 = decide (r = .ne)) ∧
    (∀ x y, Claims.IsFin f a x → Claims.IsFin f b y → ((fcompare f r a b).1 = true ↔ Claims.related r x y)) ∧
    (fcompare f r a b).2 = (if r = .eq ∨ r = .ne ∨ r = .ord then Claims.quietly f a b
      else if f.isNanCode a = true ∨ f.isNanCode b = true then fNV else 0)) ∧
  (∀ (d b : Reg) (m : BitVec 1) (k : BitVec 5) (s : State) (e : VEntry), Claims.Issues s e →
    Claims.Typed s.strand e (m = 1) → (k.toNat / 8 ≠ 1 → k.toNat % 8 < 6) →
    let g := lmulOf e.vtype
    let w := sewOf e.vtype
    let sw := Claims.cvtWidth k
    let gs := max (if sw = 64 then 2 else 1) (g * sw / w)
    let t := natBits e.vtype.toNat 7 6
    Claims.Groups [(d.toNat, g), (b.toNat, gs)] → gs ≤ 8 →
    (k.toNat < 16 → ∀ f, fmtOf t w = some f → Claims.OnElements s e (.vfcvt d b m k) (m = 1) d.toNat w g fun i =>
      let r := Claims.toFormat e f k i (getElem s.strand b.toNat sw i)
      { val := r.1, flags := r.2, sat := false }) ∧
    (16 ≤ k.toNat → t = 0 → 8 ≤ w → Claims.OnElements s e (.vfcvt d b m k) (m = 1) d.toNat w g fun i =>
      let r := toInt w (24 ≤ k.toNat) (modeOf e.frm) ((Claims.cvtSource k).val (getElem s.strand b.toNat sw i))
      { val := r.1, flags := r.2, sat := false }) ∧
    ((k.toNat < 16 ∧ t = 0) ∨ (16 ≤ k.toNat ∧ (t ≠ 0 ∨ w < 8)) →
      exec (.vfcvt d b m k) s = .next (reportV e (Claims.ill 5) s)))

/-! ## Searches, selections, permutes, tables and reductions -/

namespace Sys2Proof.Claims

/-- The places below vl that take part and whose bit of a mask register is 1 (R198, R200). -/
def chosen (st : Strand) (e : VEntry) (masked : Bool) (r : Reg) : List Nat :=
  (List.range e.vl).filter fun i => takes st masked i && maskBit st r.toNat i

/-- The elements below vl that take part. -/
def active (st : Strand) (e : VEntry) (masked : Bool) : List Nat := (List.range e.vl).filter (takes st masked)

/-- What a whole-vector instruction leaves, from the state s1 that its pop leaves: each element of a group of w bits, with
the flags that it raises. -/
def OnWholeOf (s s1 : State) (e : VEntry) (i : Instr) (base w g : Nat) (fl : Flags) (f : Nat → Nat) : Prop :=
  (0 < e.vl → ∃ t : Strand, exec i s = .next (retireV (withStrand s1 t)) ∧ OnlyGroup s1.strand t base g ∧
    t.csr.vfflags = s.strand.csr.vfflags ||| fl.setWidth 64 ∧ t.csr.vxsat = s.strand.csr.vxsat ∧
    ∀ k, k < vlmax (rg s.strand) e.vtype → getElem t base w k = f k) ∧
  (e.vl = 0 → exec i s = .next (retireV (popped e s)))
def OnWhole (s : State) (e : VEntry) := OnWholeOf s (popped e s) e

/-- What one leaves in a mask register; bits beyond the slots become zero (R175, R192). -/
def OnWholeMaskOf (s s1 : State) (e : VEntry) (i : Instr) (r : Nat) (f : Nat → Bool) : Prop :=
  (0 < e.vl → ∃ t : Strand, exec i s = .next (retireV (withStrand s1 t)) ∧ OnlyGroup s1.strand t r 1 ∧
    t.csr = s.strand.csr ∧ (∀ k, k < vlmax (rg s.strand) e.vtype → maskBit t r k = f k) ∧
    ∀ row k, 32 * lmulOf e.vtype / sewOf e.vtype ≤ k → (fieldAt t r row).getLsbD k = false) ∧
  (e.vl = 0 → exec i s = .next (retireV (popped e s)))
def OnWholeMask (s : State) (e : VEntry) := OnWholeMaskOf s (popped e s) e

/-- A result register is written and full, with flags, and nothing else changes (R191). -/
def result (s : State) (d : Reg) (x : Word) (fl : Flags) : State :=
  withStrand s (setFull (writeReg { s.strand with
    csr := { s.strand.csr with vfflags := s.strand.csr.vfflags ||| fl.setWidth 64 } } d x) d)

/-- Every granted array lies on one die (R194). -/
def OneDie (st : Strand) : Prop := ∀ a ∈ st.arrays, ∀ b ∈ st.arrays, a.1 / 12 = b.1 / 12

/-- The trap XDIE at a destination element, with the number of its source (R194). -/
def xdie (i j : Nat) : Trap := { cause := causeXdie, tval := BitVec.ofNat 64 j, telem := BitVec.ofNat 32 i }

/-- The place of a value in the order that a top-k uses (R203): unsigned, signed, or float, where a larger magnitude of a
negative code is smaller; direction 1 reverses it. -/
def standing (w order : Nat) (smallest : Bool) (x : Nat) : Int :=
  let r : Int := if order = 0 then x else if order = 1 then sgn w x
    else if x < 2 ^ (w - 1) then x else -(x - 2 ^ (w - 1)) - 1
  if smallest then -r else r

/-- A selection of the k highest by an order, ties going to the lowest place (R203). -/
def Selects (cand : List Nat) (k : Nat) (h : Nat → Int) (sel : Nat → Bool) : Prop :=
  (cand.filter sel).length = min k cand.length ∧ (∀ i, sel i = true → i ∈ cand) ∧
  ∀ i ∈ cand, ∀ j ∈ cand, sel i = true → sel j = false → h j < h i ∨ (h i = h j ∧ i < j)

/-- The sums of some codes in any order and grouping, with the flags of their additions (R164). -/
inductive Sums (f : Fmt) (rm : Round) : List Nat → Nat → Flags → Prop
  | one (x : Nat) : Sums f rm [x] x 0
  | two (l rest : List Nat) (x y r : Nat) (g : Flags) (h : l.Perm (x :: y :: rest))
      (t : Sums f rm ((fadd f rm x y).1 :: rest) r g) : Sums f rm l r ((fadd f rm x y).2 ||| g)

/-- Codes added one after the other onto a first, each sum rounded (R163). -/
def inOrder (f : Fmt) (rm : Round) (x : Nat) (xs : List Nat) : Nat × Flags :=
  xs.foldl (fun r y => ((fadd f rm r.1 y).1, r.2 ||| (fadd f rm r.1 y).2)) (x, 0)

/-- The partial sums of the arrays that hold an active element: its own, in ascending order (R164). -/
def partials (st : Strand) (f : Fmt) (rm : Round) (act : List Nat) (elem : Nat → Nat) : List (Nat × Flags) :=
  (List.range st.arrays.length).filterMap fun a =>
    match (act.filter fun i => i % rg st / 512 = a).map elem with
    | [] => none
    | x :: xs => some (inOrder f rm x xs)

/-- The integer reductions (R210), with the seed and the elements as integers. -/
noncomputable def intReductions : List ((Reg → Reg → Reg → BitVec 1 → Instr) × Bool × (Int → Int → Int)) :=
  [(.vredsum, true, fun x y => x + y), (.vredmax, true, max), (.vredmin, true, min), (.vredmaxu, false, max),
   (.vredminu, false, min)]

/-- The sign of the element pair (i, j) in a Walsh–Hadamard transform. -/
def hadSign (i j : Nat) : Int := if ((List.range 7).countP fun b => i.testBit b && j.testBit b) % 2 = 0 then 1 else -1

/-- A V instruction of one strand starts at element 0 (R190). -/
def Starts (s : State) (e : VEntry) : Prop := Issues s e ∧ e.vstart = 0

end Sys2Proof.Claims

/-- The mask instructions over a whole vector: vcpop counts and vfirst locates the chosen places, vmsbf, vmsif and vmsof
write bits around the first, viota counts below each place, vcompress and vcompi pack, and vtopk selects the k highest; a
vstart that is not 0 is ILL 6, and a grant over several dies XDIE for the packing. -/
def Obligations.SelectionsOverAVector : Prop :=
  (∀ (d b : Reg) (m : BitVec 1) (s : State) (e : VEntry), Claims.Starts s e → Claims.Typed s.strand e true →
    let c := Claims.chosen s.strand e (m = 1) b
    exec (.vcpop d b m) s = .next (retireV (Claims.result (Claims.popped e s) d (BitVec.ofNat 64 c.length) 0)) ∧
    exec (.vfirst d b m) s = .next (retireV (Claims.result (Claims.popped e s) d ((c.head?.map (BitVec.ofNat 64)).getD (-1)) 0)) ∧
    (∀ p ∈ [((Instr.vmsbf d b m), fun first i => decide (i < first)), (.vmsif d b m, fun first i => decide (i ≤ first)),
        (.vmsof d b m, fun first i => decide (i = first))],
      Claims.OnWholeMask s e p.1 d.toNat fun k => Claims.policy e (Claims.takes s.strand (m = 1) k) k
        (maskBit s.strand d.toNat k) (p.2 (c.head?.getD e.vl) k) false) ∧
    (Claims.Groups [(d.toNat, lmulOf e.vtype)] →
      Claims.OnWhole s e (.viota d b m) d.toNat (sewOf e.vtype) (lmulOf e.vtype) 0 fun k =>
        Claims.policy e (Claims.takes s.strand (m = 1) k) k (getElem s.strand d.toNat (sewOf e.vtype) k)
          ((c.filter (· < k)).length % 2 ^ sewOf e.vtype) 0)) ∧
  (∀ (d a b : Reg) (s : State) (e : VEntry), Claims.Starts s e → Claims.Typed s.strand e true →
    let g := lmulOf e.vtype
    let w := sewOf e.vtype
    let sel := Claims.chosen s.strand e false a
    let rest (k : Nat) : Nat := if e.vtype.getLsbD 8 then 0 else getElem s.strand d.toNat w k
    (Claims.OneDie s.strand →
      (Claims.Groups [(d.toNat, g), (b.toNat, g)] → Claims.OnWhole s e (.vcompress d a b) d.toNat w g 0 fun k =>
        ((sel[k]?).map (getElem s.strand b.toNat w)).getD (rest k)) ∧
      (Claims.Groups [(d.toNat, g)] → Claims.OnWhole s e (.vcompi d a) d.toNat w g 0 fun k =>
        ((sel[k]?).map (· % 2 ^ w)).getD (rest k))) ∧
    (¬Claims.OneDie s.strand → 0 < e.vl → Claims.Groups [(d.toNat, g), (b.toNat, g)] →
      exec (.vcompress d a b) s = .next (reportV e (Claims.xdie 0 0) (Claims.popped e s)))) ∧
  (∀ (d a b : Reg) (m : BitVec 1) (s : State) (e : VEntry), Claims.Starts s e → Claims.Typed s.strand e true →
    Claims.Groups [(b.toNat, lmulOf e.vtype)] → sewOf e.vtype ≤ 32 →
    let x := e.a.toNat
    natBits x 63 35 = 0 → natBits x 34 33 ≠ 3 → (natBits x 34 33 = 2 → natBits e.vtype.toNat 7 6 ≠ 0) →
    ∃ sel, Claims.Selects (Claims.active s.strand e (m = 1)) (x % 2 ^ 32)
      (fun i => Claims.standing (sewOf e.vtype) (natBits x 34 33) (x.testBit 32) (getElem s.strand b.toNat (sewOf e.vtype) i))
        sel ∧
      Claims.OnWholeMask s e (.vtopk d a b m) d.toNat fun k =>
        if k < e.vl then sel k else if e.vtype.getLsbD 8 then false else maskBit s.strand d.toNat k) ∧
  (∀ (d a b : Reg) (m : BitVec 1) (s : State) (e : VEntry), Claims.Issues s e → e.vstart ≠ 0 →
    ∀ i ∈ [Instr.vcpop d b m, .vfirst d b m, .vmsbf d b m, .vmsif d b m, .vmsof d b m, .viota d b m, .vcompress d a b,
      .vcompi d a, .vtopk d a b m, .vmvxs d b], exec i s = .next (reportV e (Claims.ill 6) s))

/-- The permutes: slides, gathers, exchanges and butterflies move or combine elements of vs2, within one die except for
vxchg; vlut looks elements up in a table read from memory; vhad transforms blocks, for integers into their Walsh–Hadamard
sums. -/
def Obligations.PermutesAndTables : Prop :=
  (∀ (d a b : Reg) (m : BitVec 1) (s : State) (e : VEntry), Claims.Issues s e → Claims.Typed s.strand e (m = 1) →
    let g := lmulOf e.vtype
    let w := sewOf e.vtype
    let x := e.a.toNat
    let top := vlmax (rg s.strand) e.vtype
    let elem (i : Nat) := getElem s.strand b.toNat w i
    Claims.OneDie s.strand → Claims.Groups [(d.toNat, g), (b.toNat, g)] →
    Claims.OnElements s e (.vslideup d a b m) (m = 1) d.toNat w g (fun i =>
      Claims.exact w (if x ≤ i then elem (i - x) else getElem s.strand d.toNat w i)) ∧
    Claims.OnElements s e (.vslidedown d a b m) (m = 1) d.toNat w g (fun i =>
      Claims.exact w (if i + x < top then elem (i + x) else 0)) ∧
    (Claims.Groups [(a.toNat, g)] → Claims.OnElements s e (.vrgather d a b m) (m = 1) d.toNat w g (fun i =>
      let j := getElem s.strand a.toNat w i
      Claims.exact w (if j < top then elem j else 0))) ∧
    (∀ k, k < 32 → x = 2 ^ k → natBits e.vtype.toNat 7 6 = 0 →
      let act (i : Nat) : Bool := Claims.takes s.strand (m = 1) i && decide (e.vstart ≤ i ^^^ x) &&
        decide (i ^^^ x < e.vl) && Claims.takes s.strand (m = 1) (i ^^^ x)
      Claims.OnElementsOf s (Claims.popped e s) e (.vbfly d a b m) act d.toNat w g fun i =>
        Claims.exact w (if i < i ^^^ x then (elem i : Int) + elem (i ^^^ x) else (elem (i ^^^ x) : Int) - elem i)) ∧
    (∀ k, k < 32 → x = 2 ^ k → ∀ f, fmtOf (natBits e.vtype.toNat 7 6) w = some f → f ≠ .e2m1 →
      let act (i : Nat) : Bool := Claims.takes s.strand (m = 1) i && decide (e.vstart ≤ i ^^^ x) &&
        decide (i ^^^ x < e.vl) && Claims.takes s.strand (m = 1) (i ^^^ x)
      Claims.OnElementsOf s (Claims.popped e s) e (.vbfly d a b m) act d.toNat w g fun i =>
        let r := if i < i ^^^ x then fadd f (roundOf e.frm) (elem i) (elem (i ^^^ x))
          else fsub f (roundOf e.frm) (elem (i ^^^ x)) (elem i)
        { val := r.1, flags := r.2, sat := false }) ∧
    ((∀ k, k < 32 → x ≠ 2 ^ k) → exec (.vbfly d a b m) s = .next (reportV e (Claims.ill 6) s) ∧
      exec (.vxchg d a b) s = .next (reportV e (Claims.ill 6) s))) ∧
  (∀ (d a b : Reg) (s : State) (e : VEntry), Claims.Issues s e → Claims.Typed s.strand e false →
    let g := lmulOf e.vtype
    let w := sewOf e.vtype
    let x := e.a.toNat
    Claims.Groups [(d.toNat, g), (b.toNat, g)] →
    (∀ k, k < 32 → x = 2 ^ k → Claims.OnElements s e (.vxchg d a b) false d.toNat w g fun i =>
      Claims.exact w (getElem s.strand b.toNat w (if i ^^^ x < e.vl then i ^^^ x else i))) ∧
    (e.vstart = 0 → 1 ≤ x → x ≤ 7 → natBits e.vtype.toNat 7 6 = 0 →
      Claims.OnWhole s e (.vhad d a b) d.toNat w g 0 fun k =>
        if k < e.vl then
          let first := k / 2 ^ x * 2 ^ x
          let sum := ((List.range (2 ^ x)).map fun j =>
            Claims.hadSign (k % 2 ^ x) j * (if first + j < e.vl then (getElem s.strand b.toNat w (first + j) : Int) else 0)).sum
          (sum % 2 ^ w).toNat
        else if e.vtype.getLsbD 8 then 0 else getElem s.strand d.toNat w k)) ∧
  (∀ (d a b : Reg) (m : BitVec 1) (s s1 : State) (e : VEntry) (table : List Byte), Claims.Issues s e →
    Claims.Typed s.strand e (m = 1) →
    let g := lmulOf e.vtype
    let w := sewOf e.vtype
    let k := min w 8
    Claims.Groups [(d.toNat, g), (b.toNat, g)] → w ≤ 32 → e.a.toNat % max 1 (w / 8) = 0 →
    spaceRead (strandPort s.strand 2) e.mtype.toNat e.a.toNat ((2 ^ k * w + 7) / 8)
      (Claims.popped e s) = (.ok table, s1) →
    s1.strand = (Claims.popped e s).strand → Claims.OnElementsOf s s1 e (.vlut d a b m) (Claims.takes s.strand (m = 1)) d.toNat w g fun i =>
      Claims.exact w (leNat table / 2 ^ (getElem s.strand b.toNat w i % 2 ^ k * w)))

/-- The reductions give x[rd] the fold of the seed and every active element, an integer reduction extended from SEW bits, an
ordered float sum in ascending order, an unordered one by some order and grouping of the arrays' own sums; vmvxs reads
element 0 and vmvsx writes it. -/
def Obligations.ReductionsAndScalarMoves : Prop :=
  (∀ p ∈ Claims.intReductions, ∀ (d a b : Reg) (m : BitVec 1) (s : State) (e : VEntry), Claims.Starts s e →
    Claims.Typed s.strand e (m = 1) → Claims.Groups [(b.toNat, lmulOf e.vtype)] →
    let w := sewOf e.vtype
    let num (x : Nat) : Int := if p.2.1 then Claims.sgn w (x % 2 ^ w) else (x % 2 ^ w : Nat)
    let r := ((Claims.active s.strand e (m = 1)).map fun i => num (getElem s.strand b.toNat w i)).foldl p.2.2 (num e.a.toNat)
    exec (p.1 d a b m) s = .next (retireV (Claims.result (Claims.popped e s) d
      (BitVec.ofInt 64 (if p.2.1 then Int.bmod r (2 ^ w) else r)) 0))) ∧
  (∀ (d a b : Reg) (m : BitVec 1) (s : State) (e : VEntry) (f : Fmt), Claims.Starts s e →
    Claims.Typed s.strand e (m = 1) → Claims.Groups [(b.toNat, lmulOf e.vtype)] →
    fmtOf (natBits e.vtype.toNat 7 6) (sewOf e.vtype) = some f → f ≠ .e2m1 →
    let w := sewOf e.vtype
    let act := Claims.active s.strand e (m = 1)
    let xs := act.map (getElem s.strand b.toNat w)
    let seed := e.a.toNat % 2 ^ w
    let minmax (up : Bool) : Nat × Flags :=
      xs.foldl (fun r x => ((fminmax f up r.1 x).1, r.2 ||| (fminmax f up r.1 x).2)) (seed, 0)
    let gives (i : Instr) (r : Nat × Flags) : Prop :=
      exec i s = .next (retireV (Claims.result (Claims.popped e s) d (BitVec.ofNat 64 r.1) r.2))
    gives (.vfredosum d a b m) (Claims.inOrder f (roundOf e.frm) seed xs) ∧
    gives (.vfredmax d a b m) (minmax true) ∧ gives (.vfredmin d a b m) (minmax false) ∧
    (let ps := Claims.partials s.strand f (roundOf e.frm) act (getElem s.strand b.toNat w)
     ∃ r g n, Claims.Sums f (roundOf e.frm) (seed :: ps.map (·.1)) r g ∧
      exec (.vfredsum d a b m) s = .next (retireV { Claims.result (Claims.popped e s) d (BitVec.ofNat 64 r)
        (g ||| ps.foldl (fun x p => x ||| p.2) 0) with freeCtr := n }))) ∧
  (∀ (d b : Reg) (s : State) (e : VEntry), Claims.Starts s e → Claims.Typed s.strand e false →
    Claims.Groups [(b.toNat, lmulOf e.vtype)] → let w := sewOf e.vtype
    exec (.vmvxs d b) s = .next (retireV (Claims.result (Claims.popped e s) d
      (if e.vl = 0 then 0 else BitVec.ofInt 64 (Claims.sgn w (getElem s.strand b.toNat w 0))) 0))) ∧
  (∀ (d a : Reg) (s : State) (e : VEntry), Claims.Starts s e → Claims.Typed s.strand e false →
    Claims.Groups [(d.toNat, lmulOf e.vtype)] → let w := sewOf e.vtype
    Claims.OnWhole s e (.vmvsx d a) d.toNat w (lmulOf e.vtype) 0 fun k =>
      if k = 0 then e.a.toNat % 2 ^ w else if e.vtype.getLsbD 8 then 0 else getElem s.strand d.toNat w k)

/-! ## Vector memory, vector atomics and windows -/

namespace Sys2Proof.Claims

/-- Work done for some numbers in turn, each from the state that the one before left, with what each gives. -/
inductive Passes {α : Type} (work : Nat → Act α) : List Nat → State → List (Nat × α) → State → Prop
  | done (s : State) : Passes work [] s [] s
  | next (i : Nat) (is : List Nat) (s s1 s2 : State) (x : α) (r : List (Nat × α)) (h : work i s = (.ok x, s1))
      (t : Passes work is s1 r s2) : Passes work (i :: is) s ((i, x) :: r) s2

/-- What was given for a number. -/
def look (got : List (Nat × Nat)) (k : Nat) : Nat := ((got.find? fun p => p.1 = k).map (·.2)).getD 0

/-- The elements that an access takes: active, from vstart to vl − 1. -/
def accessed (s : State) (e : VEntry) (masked : Bool) : List Nat :=
  (active s.strand e masked).filter fun i => e.vstart ≤ i

/-- The widths of R76, and the addresses of unit-stride and strided elements, with the bit of a sub-byte one (R139, R141). -/
def width (c : BitVec 3) : Nat := [8, 16, 32, 64, 4, 1].getD c.toNat 1
def unitAt (e : VEntry) (w i : Nat) : Nat × Nat := ((e.a.toNat + i * w / 8) % 2 ^ 64, i * w % 8)
def strideAt (e : VEntry) (_w i : Nat) : Nat × Nat := ((((e.a.toNat : Int) + i * e.b.toInt) % 2 ^ 64).toNat, 0)

/-- The address of an element at an offset from x[rs1] (R139, R283). -/
def offsetAt (s : State) (e : VEntry) (b : Reg) (w i : Nat) : Nat := (e.a.toNat + getElem s.strand b.toNat w i) % 2 ^ 64

/-- The strided and unit-stride forms: load or store, which widths, and the addresses (R139, R140). -/
structure Strided where
  instr : Reg → Reg → Reg → BitVec 3 → BitVec 1 → BitVec 3 → Instr
  load : Bool
  sub : Bool
  at' : VEntry → (w i : Nat) → Nat × Nat

noncomputable def stridedForms : List Strided :=
  [{ instr := fun d a _ t m c => .vle d a t m c, load := true, sub := true, at' := unitAt },
   { instr := fun d a _ t m c => .vse d a t m c, load := false, sub := true, at' := unitAt },
   { instr := .vlse, load := true, sub := false, at' := strideAt },
   { instr := .vsse, load := false, sub := false, at' := strideAt }]

/-- The port of an element of an indexed access: it goes through the TLB bank of its lane block (R136, R138). -/
def bankPort (s : State) (i : Nat) : Port :=
  let loc := (s.strand.arrays[i % rg s.strand / 512]?).getD (0, 0)
  { strandPort s.strand 2 with bank := some (loc.1, loc.2 / 8) }

/-- A probe of an address before anything is accessed (R138, R283). -/
def probe (s : State) (e : VEntry) (n : Nat) (wr memOnly : Bool) (addr : Nat → Nat) (i : Nat) : Act Unit := do
  checkAlign (addr i) n
  spaceProbe (bankPort s i) e.mtype.toNat (addr i) n wr memOnly

/-- The vector side's work on an entry at a state. -/
def env (s : State) (e : VEntry) (masked : Bool) : VEnv :=
  { e := e, st := s.strand, sew := sewOf e.vtype, lmul := lmulOf e.vtype, vmax := vlmax (rg s.strand) e.vtype
    masked := masked }

/-- The functions of vamo on w-bit numbers, the word and the element (R284). -/
noncomputable def vamos : List ((Reg → Reg → Reg → BitVec 1 → Instr) × ((w o x : Nat) → Nat)) :=
  [(.vamoAdd, fun _ o x => o + x), (.vamoAnd, fun _ o x => o &&& x), (.vamoOr, fun _ o x => o ||| x),
   (.vamoXor, fun _ o x => o ^^^ x), (.vamoSmin, fun w o x => if sgn w x < sgn w o then x else o),
   (.vamoSmax, fun w o x => if sgn w o < sgn w x then x else o), (.vamoUmax, fun _ o x => max o x),
   (.vamoSwap, fun _ _ x => x)]

/-- A load from memory itself that notes the line it came from (R286, R288), and a store that needs the link of its line (R287). -/
def linkedLoad (s : State) (e : VEntry) (b : Reg) (i : Nat) : Act (Nat × Nat) := fun s0 =>
  let p := bankPort s i
  let w := sewOf e.vtype
  match spaceAccess p e.mtype.toNat (offsetAt s e b w i) (w / 8) true false true s0 with
  | (.ok pl, s1) =>
    match freshPlace p pl (w / 8) (offsetAt s e b w i) s1 with
    | (.ok bs, s2) => (.ok (leNat bs, canonical pl.pa / 64), s2)
    | (.error r, s2) => (.error r, s2)
  | (.error r, s1) => (.error r, s1)
def linkedStore (s : State) (e : VEntry) (d b : Reg) (i : Nat) : Act Nat := fun s0 =>
  let p := bankPort s i
  let w := sewOf e.vtype
  match spaceAccess p e.mtype.toNat (offsetAt s e b w i) (w / 8) true true true s0 with
  | (.ok pl, s1) =>
    if (smGet s1.strand.links (canonical pl.pa / 64)).isSome then
      (.ok 1, (writePlace p pl (leBytes (w / 8) (getElem s.strand d.toNat w i)) s1).2)
    else (.ok 0, s1)
  | (.error r, s1) => (.error r, s1)

/-- What `wcfg` says: offset, length, width and type (R63). -/
def wOff (e : VEntry) : Nat := natBits e.csr.toNat 7 0
def wLen (e : VEntry) : Nat := natBits e.csr.toNat 15 8 + 1
def wWidth (e : VEntry) : Nat := width (e.csr.extractLsb' 16 3)
def wType (e : VEntry) : Nat := natBits e.csr.toNat 21 19

/-- The access to the field of row j of a window (R212, R215): its value, where nothing of it is poisoned. -/
def rowRead (s : State) (e : VEntry) (j : Nat) : Act Nat := fun s0 =>
  match spaceAccess (strandPort s.strand 2) e.mtype.toNat ((e.a.toNat + 256 * j) % 2 ^ 64 + wOff e) (wLen e)
      true false false s0 with
  | (.ok pl, s1) => if placePoisoned s1 pl (wLen e) then (.error (.wait .uncounted), s1) else
    match readPlace pl (wLen e) s1 with
    | (.ok bs, s2) => (.ok (leNat bs), s2)
    | (.error r, s2) => (.error r, s2)
  | (.error r, s1) => (.error r, s1)

/-- A window that a window operation can read (R212, R213): its field lies in a row and holds an element, every row below
vl passes its checks before any effect, and the field of each active row is read, with what it holds. -/
structure Window (s s0 s1 : State) (e : VEntry) (masked : Bool) (got : List (Nat × Nat)) : Prop where
  base : e.a.toNat % 256 = 0
  field : wOff e + wLen e ≤ 256
  holds : max 1 (wWidth e / 8) ≤ wLen e
  code : natBits e.csr.toNat 18 16 < 6
  type : wType e < 5
  probed : windowProbe e (strandPort s.strand 2) (popped e s) = (.ok (), s0)
  reads : Passes (rowRead s e) (active s.strand e masked) { s0 with freeCtr := s0.freeCtr + 1 } got s1
  same : s1.strand = (popped e s).strand

/-- Element l of a field, of w bits. -/
def part (x w l : Nat) : Nat := x / 2 ^ (l * w) % 2 ^ w

end Sys2Proof.Claims

/-- Vector loads and stores: element after element in ascending order at the addresses of R139, a load's elements under the
policies, and a store's only the active ones, sub-byte elements leaving the other bits of their byte; a misaligned element
is ALIGN before any is performed, a width that is not SEW is ILL 5, and a load that faults at an element keeps what came
before it, with vstart and telem at the element. -/
def Obligations.VectorLoadsAndStores : Prop :=
  (∀ p ∈ Claims.stridedForms, ∀ (d a b : Reg) (t : BitVec 3) (m : BitVec 1) (c : BitVec 3) (s : State) (e : VEntry),
    Claims.Issues s e → Claims.Typed s.strand e (m = 1) → c.toNat < 6 →
    let g := lmulOf e.vtype
    let w := Claims.width c
    let els := Claims.accessed s e (m = 1)
    let port := strandPort s.strand 2
    let at' := p.at' e w
    let q := Claims.popped e s
    Claims.Groups [(d.toNat, g)] →
    (w ≠ sewOf e.vtype ∨ (p.sub = false ∧ w < 8) → exec (p.instr d a b t m c) s = .next (reportV e (Claims.ill 5) s)) ∧
    (w = sewOf e.vtype → p.sub = true ∨ 8 ≤ w →
      (∀ i, els.find? (fun i => (at' i).1 % max 1 (w / 8) ≠ 0) = some i → exec (p.instr d a b t m c) s = .next
        (reportV e { Claims.alignTrap (BitVec.ofNat 64 (at' i).1) with telem := BitVec.ofNat 32 i } q)) ∧
      ((∀ i ∈ els, (at' i).1 % max 1 (w / 8) = 0) →
        (p.load = true → ∀ got s1,
          Claims.Passes (fun i => loadElem port e.mtype.toNat (at' i).1 (at' i).2 w) els q got s1 → s1.strand = q.strand →
          Claims.OnElementsOf s s1 e (p.instr d a b t m c) (Claims.takes s.strand (m = 1)) d.toNat w g fun k =>
            Claims.exact w (Claims.look got k)) ∧
        (p.load = true → ∀ before i after got s1 s2 trap, els = before ++ i :: after →
          Claims.Passes (fun i => loadElem port e.mtype.toNat (at' i).1 (at' i).2 w) before q got s1 →
          loadElem port e.mtype.toNat (at' i).1 (at' i).2 w s1 = (.error (.trap trap), s2) → s2.strand = q.strand →
          trap.cause ≠ 1 → ∃ u : Strand, exec (p.instr d a b t m c) s = .next
              (reportV e { trap with telem := BitVec.ofNat 32 i } (Claims.withStrand s2 u)) ∧
            u.vq = q.strand.vq.modifyHead (fun x => { x with vstart := i, lanes := none }) ∧ u.x = s.strand.x ∧
            ∀ k, k < vlmax (rg s.strand) e.vtype → getElem u d.toNat w k =
              if k < e.vstart ∨ i ≤ k then getElem s.strand d.toNat w k
              else if Claims.takes s.strand (m = 1) k then Claims.look got k
              else if e.vtype.getLsbD 9 then 0 else getElem s.strand d.toNat w k) ∧
        (p.load = false → ∀ got s1,
          Claims.Passes (fun i => storeElem port e.mtype.toNat (at' i).1 (at' i).2 w (getElem s.strand d.toNat w i) false)
            els q got s1 → s1.strand.dbgElem = false →
          exec (p.instr d a b t m c) s = .next (retireV s1))))) ∧
  (∀ (d a b : Reg) (t : BitVec 3) (m : BitVec 1) (c : BitVec 3) (s s0 : State) (e : VEntry) (seen : List (Nat × Unit)),
    Claims.Issues s e → Claims.Typed s.strand e (m = 1) → c.toNat < 4 → 8 ≤ sewOf e.vtype →
    let g := lmulOf e.vtype
    let w := sewOf e.vtype
    let ow := Claims.width c
    let og := max (if ow = 64 then 2 else 1) (g * ow / w)
    let els := Claims.accessed s e (m = 1)
    let at' := Claims.offsetAt s e b ow
    Claims.Groups [(d.toNat, g), (b.toNat, og)] → og ≤ 8 →
    (Claims.Passes (Claims.probe s e (w / 8) false false at') els (Claims.popped e s) seen s0 →
      s0.strand = (Claims.popped e s).strand → ∀ got s1,
      Claims.Passes (fun i => loadElem (Claims.bankPort s i) e.mtype.toNat (at' i) 0 w) els s0 got s1 →
      s1.strand = s0.strand →
      Claims.OnElementsOf s s1 e (.vlxe d a b t m c) (Claims.takes s.strand (m = 1)) d.toNat w g fun k =>
        Claims.exact w (Claims.look got k)) ∧
    (Claims.Passes (Claims.probe s e (w / 8) true false at') els (Claims.popped e s) seen s0 →
      s0.strand = (Claims.popped e s).strand → ∀ got s1,
      Claims.Passes (fun i => storeElem (Claims.bankPort s i) e.mtype.toNat (at' i) 0 w
        (getElem s.strand d.toNat w i) false) els s0 got s1 → s1.strand.dbgElem = false →
      exec (.vsxe d a b t m c) s = .next (retireV s1))) ∧
  (∀ (p : Port) (sp addr bit w x : Nat) (s s1 s2 : State) (pl : Place) (bs : List Byte), 0 < w →
    (spaceAccess p sp addr (max 1 (w / 8)) true false false s = (.ok pl, s1) →
      loadPlace p pl (max 1 (w / 8)) addr s1 = (.ok bs, s2) →
      loadElem p sp addr bit w s = (.ok (leNat bs / 2 ^ bit % 2 ^ w), s2)) ∧
    (spaceAccess p sp addr (max 1 (w / 8)) false true false s = (.ok pl, s1) → 8 ≤ w →
      storeElem p sp addr bit w x false s = writePlace p pl (leBytes (w / 8) x) s1) ∧
    (spaceAccess p sp addr (max 1 (w / 8)) false true false s = (.ok pl, s1) → w < 8 → bit + w ≤ 8 →
      ∀ old : Byte, readPlace pl 1 s1 = (.ok [old], s2) → ∃ new : Byte,
        storeElem p sp addr bit w x false s = writePlace p pl [new] s2 ∧
        ∀ j, j < 8 → new.getLsbD j = if bit ≤ j ∧ j < bit + w then x.testBit (j - bit) else old.getLsbD j))

/-- The vector atomics: vamo updates a word per active element in order and gives the old values, vfascan adds the sum
of the elements to one word and gives prefixes, vlgl loads and links lines, and vssc stores where a line is still
linked, gives the successes in v0, and drops every link. SEW below 32 is ILL 5. The window operations read a field of
each active row of SRAM: wsrch compares its first element with a key under a care mask, wtopk selects the highest, and
wdot multiplies it with a query, or counts the bits that differ. A field beyond the row is ILL 4. -/
def Obligations.AtomicsAndWindows : Prop :=
  (((∀ p ∈ Claims.vamos, ∀ (d a b : Reg) (m : BitVec 1) (s s0 s1 : State) (e : VEntry) (seen : List (Nat × Unit))
    (got : List (Nat × Nat)), Claims.Issues s e → Claims.Typed s.strand e (m = 1) →
    let g := lmulOf e.vtype
    let w := sewOf e.vtype
    let els := Claims.accessed s e (m = 1)
    let at' := Claims.offsetAt s e b w
    Claims.Groups [(d.toNat, g), (b.toNat, g)] →
    (32 ≤ w → Claims.Passes (Claims.probe s e (w / 8) true true at') els (Claims.popped e s) seen s0 →
      Claims.Passes (fun i => atomicUpdate (Claims.env s e (m = 1)) (Claims.bankPort s i) (at' i) false
        fun o => p.2 w o (getElem s.strand d.toNat w i)) els s0 got s1 → s1.strand = (Claims.popped e s).strand →
      Claims.OnElementsOf s s1 e (p.1 d a b m) (Claims.takes s.strand (m = 1)) d.toNat w g fun k =>
        Claims.exact w (Claims.look got k)) ∧
    (w < 32 → exec (p.1 d a b m) s = .next (reportV e (Claims.ill 5) s))) ∧
  (∀ (v : VEnv) (p : Port) (addr : Nat) (bad : Bool) (f : Nat → Nat) (s s1 s2 : State) (pl : Place) (bs : List Byte),
    spaceAccess p v.e.mtype.toNat addr (v.sew / 8) true true true s = (.ok pl, s1) →
    placePoisoned s1 pl (v.sew / 8) = false → readPlace pl (v.sew / 8) s1 = (.ok bs, s2) →
    let out := (writePlace p pl (leBytes (v.sew / 8) (f (leNat bs) % 2 ^ v.sew)) s2).2
    atomicUpdate v p addr bad f s = (.ok (leNat bs), if bad then (carryPoison p pl (v.sew / 8) out).2 else out)) ∧
  (∀ (d a : Reg) (m : BitVec 1) (s s0 s1 : State) (e : VEntry) (old : Nat), Claims.Starts s e →
    Claims.Typed s.strand e (m = 1) → 32 ≤ sewOf e.vtype → Claims.Groups [(d.toNat, lmulOf e.vtype)] →
    let w := sewOf e.vtype
    let act := Claims.active s.strand e (m = 1)
    let sum (l : List Nat) : Nat := (l.map (getElem s.strand d.toNat w)).sum
    act ≠ [] → e.a.toNat % (w / 8) = 0 →
    spaceProbe (strandPort s.strand 2) e.mtype.toNat e.a.toNat (w / 8) true true (Claims.popped e s) = (.ok (), s0) →
    atomicUpdate (Claims.env s e (m = 1)) (strandPort s.strand 2) e.a.toNat false (fun o => o + sum act) s0 = (.ok old, s1) →
    s1.strand = (Claims.popped e s).strand →
    Claims.OnWholeOf s s1 e (.vfascan d a m) d.toNat w (lmulOf e.vtype) 0 fun k =>
      Claims.policy e (Claims.takes s.strand (m = 1) k) k (getElem s.strand d.toNat w k)
        ((old + sum (act.filter (· < k))) % 2 ^ w) 0) ∧
  (∀ (d a b : Reg) (m : BitVec 1) (s s0 s1 : State) (e : VEntry) (seen : List (Nat × Unit))
    (got : List (Nat × Nat × Nat)), Claims.Starts s e → Claims.Typed s.strand e (m = 1) → 32 ≤ sewOf e.vtype → 0 < e.vl →
    let g := lmulOf e.vtype
    let w := sewOf e.vtype
    let act := Claims.active s.strand e (m = 1)
    let lines := got.map fun p => p.2.2
    let q := Claims.popped e s
    Claims.Groups [(d.toNat, g), (b.toNat, g)] →
    Claims.Passes (Claims.probe s e (w / 8) false true (Claims.offsetAt s e b w)) act
      (Claims.withStrand q { q.strand with links := [] }) seen s0 →
    Claims.Passes (Claims.linkedLoad s e b) act s0 got s1 → s1.strand = { q.strand with links := [] } →
    (∀ o, linksAt s1 o + got.length < 64) →
    ∃ t : Strand, exec (.vlgl d a b m) s = .next (retireV (Claims.withStrand s1 t)) ∧
      Claims.OnlyGroup { q.strand with links := t.links } t d.toNat g ∧ t.csr = s.strand.csr ∧
      (∀ l, (smGet t.links l).isSome = true ↔ l ∈ lines) ∧
      ∀ k, k < vlmax (rg s.strand) e.vtype → getElem t d.toNat w k =
        Claims.policy e (Claims.takes s.strand (m = 1) k) k (getElem s.strand d.toNat w k)
          (Claims.look (got.map fun p => (p.1, p.2.1)) k) 0) ∧
  (∀ (d a b : Reg) (m : BitVec 1) (s s0 s1 : State) (e : VEntry) (seen : List (Nat × Unit)) (got : List (Nat × Nat)),
    Claims.Starts s e → Claims.Typed s.strand e true → 32 ≤ sewOf e.vtype → 0 < e.vl →
    let g := lmulOf e.vtype
    let w := sewOf e.vtype
    let act := Claims.active s.strand e (m = 1)
    let q := Claims.popped e s
    Claims.Groups [(d.toNat, g), (b.toNat, g)] →
    Claims.Passes (Claims.probe s e (w / 8) true true (Claims.offsetAt s e b w)) act q seen s0 → s0.strand = q.strand →
    Claims.Passes (Claims.linkedStore s e d b) act s0 got s1 →
    s1.strand = { q.strand with links := s1.strand.links, resv := s1.strand.resv } →
    ∃ t : Strand, exec (.vssc d a b m) s = .next (retireV (Claims.withStrand s1 t)) ∧ t.links = [] ∧
      Claims.OnlyGroup { q.strand with links := [], resv := t.resv } t 0 1 ∧ t.csr = s.strand.csr ∧
      ∀ k, k < vlmax (rg s.strand) e.vtype → maskBit t 0 k = if k < e.vl then decide (Claims.look got k = 1)
        else if e.vtype.getLsbD 8 then false else maskBit s.strand 0 k)) : Prop) ∧
  (((∀ (d a b : Reg) (t : BitVec 3) (m : BitVec 1) (s s0 s1 : State) (e : VEntry) (got : List (Nat × Nat)),
    Claims.Starts s e → Claims.Typed s.strand e true → Claims.Window s s0 s1 e (m = 1) got → Claims.wWidth e < 64 →
    let w := Claims.wWidth e
    let x := e.b.toNat
    (∃ n, Claims.OnWholeMaskOf s { s1 with freeCtr := n } e (.wsrch d a b t m) d.toNat fun k =>
      Claims.policy e (Claims.takes s.strand (m = 1) k) k (maskBit s.strand d.toNat k)
        (decide ((Claims.part (Claims.look got k) w 0 ^^^ x % 2 ^ 32 % 2 ^ w) &&& (x / 2 ^ 32 % 2 ^ w) = 0)) false) ∧
    (natBits x 63 35 = 0 → natBits x 34 33 < 2 → ∃ n sel,
      Claims.Selects (Claims.active s.strand e (m = 1)) (x % 2 ^ 32)
        (fun j => Claims.standing w (natBits x 34 33) (x.testBit 32) (Claims.part (Claims.look got j) w 0)) sel ∧
      Claims.OnWholeMaskOf s { s1 with freeCtr := n } e (.wtopk d a b t m) d.toNat fun k =>
        if k < e.vl then sel k else if e.vtype.getLsbD 8 then false else maskBit s.strand d.toNat k)) ∧
  (∀ (d a b : Reg) (t : BitVec 3) (m : BitVec 1) (s s0 s1 : State) (e : VEntry) (got : List (Nat × Nat)),
    Claims.Starts s e → Claims.Typed s.strand e (m = 1) → Claims.Window s s0 s1 e (m = 1) got → sewOf e.vtype = 32 →
    natBits e.vtype.toNat 7 6 = 0 → Claims.Groups [(d.toNat, lmulOf e.vtype), (b.toNat, lmulOf e.vtype)] →
    let w := Claims.wWidth e
    let n := 8 * Claims.wLen e / w
    n ≤ vlmax (rg s.strand) e.vtype →
    let row (j l : Nat) : Nat := Claims.part (Claims.look got j) w l
    let query (l : Nat) : Nat := getElem s.strand b.toNat 32 l % 2 ^ w
    let whole (f : Nat → Int) : Prop := ∃ c, Claims.OnWholeOf s { s1 with freeCtr := c } e (.wdot d a b t m) d.toNat 32
      (lmulOf e.vtype) 0 fun k => Claims.policy e (Claims.takes s.strand (m = 1) k) k (getElem s.strand d.toNat 32 k)
        (f k % 2 ^ 32).toNat 0
    (w = 4 ∨ w = 8 ∨ w = 16 →
      (Claims.wType e = 0 → whole fun k => ((List.range n).map fun l => (row k l : Int) * query l).sum) ∧
      (Claims.wType e = 1 → whole fun k => ((List.range n).map fun l => Claims.sgn w (row k l) * Claims.sgn w (query l)).sum)) ∧
    (w = 1 → Claims.wType e = 4 → whole fun k => ((List.range n).countP fun l => row k l ≠ query l : Nat))) ∧
  (∀ (d a b : Reg) (t : BitVec 3) (m : BitVec 1) (s : State) (e : VEntry), Claims.Starts s e → Claims.Typed s.strand e true →
    256 < Claims.wOff e + Claims.wLen e → exec (.wsrch d a b t m) s = .next (reportV e (Claims.ill 4) s))) : Prop)

/-! ## The scale register file -/

namespace Sys2Proof.Claims

/-- Value j of a scale register, band b, and what a code stands for (R52, R217). -/
def scaleCode (q : QReg) (j : Nat) : Nat :=
  if q.fmt = 0 then (smRead 0 q.entries (j / 2)).toNat / 256 ^ (j % 2) % 256
  else if q.fmt = 1 then (smRead 0 q.entries j).toNat
  else (smRead 0 q.entries (2 * j)).toNat + 65536 * (smRead 0 q.entries (2 * j + 1)).toNat
def scaleBand (q : QReg) (b : Nat) : Nat := (smRead 0 q.entries (1024 + b)).toNat
def scaleFormat (t : Nat) : Fmt := [Fmt.e3m5, .bf16, .fp32].getD t .fp32

/-- Element width of a data code, the size of its group, and a block size (R53, R216). -/
def dataWidth (d : DFmt) : Nat := if d = .flt .e2m1 then 4 else 8
def codesIn (e : VEntry) (d : DFmt) : Nat := max 1 (lmulOf e.vtype * dataWidth d / sewOf e.vtype)

/-- A register holds some values and bands, of a format (R217). -/
def Holds (q : QReg) (fmt : Nat) (codes bands : List Nat) : Prop :=
  q.fmt.toNat = fmt ∧ q.len = codes.length ∧ (∀ j, j < codes.length → scaleCode q j = codes.getD j 0) ∧
  (fmt = 0 → ∀ b, b < (codes.length + 63) / 64 → scaleBand q b = bands.getD b 0)

/-- A strand after a write of scale register d, whose generation advances: the register holds what was written, the others
are unchanged, and unless the generation wraps no binding becomes stale (R54, R220). -/
def WroteQ (st t : Strand) (d : Reg) (fmt : Nat) (codes bands : List Nat) (fl : Flags) : Prop :=
  t = { st with q := t.q, tags := t.tags, tiles := t.tiles
                csr := { st.csr with vfflags := st.csr.vfflags ||| fl.setWidth 64 } } ∧
  Holds (qRegOf t d.toNat) fmt codes bands ∧ (qRegOf t d.toNat).gen = (qRegOf st d.toNat).gen + 1 ∧
  (∀ r : Reg, r ≠ d → qRegOf t r.toNat = qRegOf st r.toNat) ∧
  ((qRegOf t d.toNat).gen ≠ 0 → t.tags = st.tags ∧ t.tiles = st.tiles) ∧
  ((qRegOf t d.toNat).gen = 0 → ∀ r, r < 32 → tagOf t r =
    if natBits (tagOf st r).toNat 6 2 = d.toNat then tagOf st r ||| 2 else tagOf st r)

/-- An instruction whose only effect is a write of a scale register, from the state s1 that its pop and its accesses
leave. -/
def WritesQ (s s1 : State) (e : VEntry) (i : Instr) (d : Reg) (fmt : Nat) (codes bands : List Nat) (fl : Flags) : Prop :=
  ∃ t, exec i s = .next (retireV (withStrand s1 t)) ∧ WroteQ s1.strand t d fmt codes bands fl

/-- A binding tag: format and block codes, generation, register and the valid bit (R53). -/
def tagWord (dcode bcode gen q : Nat) : Nat := dcode * 2 ^ 22 + bcode * 2 ^ 19 + gen * 2 ^ 7 + q * 4 + 1

/-- The tag of a group is a word, and the tags of its other members are 0; no other tag changes (R219). -/
def Tagged (st t : Strand) (base g : Nat) (w : BitVec 32) : Prop :=
  tagOf t base = w ∧ (∀ k, 0 < k → k < g → tagOf t (base + k) = 0) ∧
  ∀ q, q < 32 → (q < base ∨ base + g ≤ q) → tagOf t q = tagOf st q

/-- A usable binding of a group of codes (R221): valid, not stale, of the register's present generation and long enough. -/
structure Bound (st : Strand) (r : Nat) (blocks : Nat) : Prop where
  valid : (tagOf st r).getLsbD 0 = true
  fresh : (tagOf st r).getLsbD 1 = false
  gen : (qRegOf st (natBits (tagOf st r).toNat 6 2)).gen.toNat = natBits (tagOf st r).toNat 18 7
  long : blocks ≤ (qRegOf st (natBits (tagOf st r).toNat 6 2)).len

/-- The active elements with the values of their codes in a format. -/
def values (s : State) (e : VEntry) (masked : Bool) (b : Reg) (f : Fmt) : List (Nat × Val) :=
  (active s.strand e masked).map fun i => (i, f.val (getElem s.strand b.toNat (sewOf e.vtype) i))

/-- The number of blocks below vl, of a block code (R216). -/
def blocks (e : VEntry) (bcode : Nat) : Nat := (e.vl + 8 * 2 ^ bcode - 1) / (8 * 2 ^ bcode)

/-- A scale derived from the values of a block, for a format without bands (R161): amax over fmax rounded up, the smallest
positive code for 0, the invalid code with NV for a NaN, the largest with OF for an infinity or beyond. -/
def Derived (f : Fmt) (d : DFmt) (vs : List Val) (r : Nat × Flags) : Prop :=
  (vs.any Val.isNan = true → r = (f.canon, fNV)) ∧
  (vs.any Val.isNan = false → (∃ v ∈ vs, ∃ s, v = .inf s) → r = (f.maxCode, fOF)) ∧
  ((∀ v ∈ vs, v.isZero = true) → r = (1, 0)) ∧
  (∀ amax, (∀ v ∈ vs, ∃ s n k, v = .fin s n k ∧ 0 < k ∧ |rat s n k| ≤ amax) →
    (∃ v ∈ vs, ∃ s n k, v = .fin s n k ∧ |rat s n k| = amax) → 0 < amax → r.2 = 0 →
    ∃ y, IsFin f r.1 y ∧ amax / d.fmax ≤ y ∧ ∀ c z, IsFin f c z → amax / d.fmax ≤ z → y ≤ z)

/-- A scale result (R232): rounded into the format, the largest with OF on overflow, and the invalid code with NV for a NaN
or a negative number. -/
def scaled (f : Fmt) (m : Mode) (v : Val) : Nat × Flags :=
  match v with
  | .nan => (f.canon, fNV)
  | .inf neg => if neg then (f.canon, fNV) else (f.maxCode, fOF)
  | .fin neg n _ =>
    if n = 0 then rnd f m false v
    else if neg then (f.canon, fNV)
    else
      let r := rnd f m false v
      if r.2.getLsbD 2 then (f.maxCode, fOF ||| fNX) else r

/-- The union of some flags. -/
def allFlags (l : List (Nat × Flags)) : Flags := l.foldl (fun f x => f ||| x.2) 0

end Sys2Proof.Claims

/-- Loading and storing scale registers and coded groups: qld and qst move values and bands, vlq reads scales, then
codes, and binds them; vsq consumes the binding, writes its scales, then its codes. A format or length that the
operand does not allow is ILL 6, a binding that cannot be consumed STALEQ. Deriving scales and working under them:
qcomp writes one scale per block, vquant writes codes of x over its scale and binds them, vdequant multiplies back,
each for the active elements; qbind, qunbind and qtag write binding tags, qbindt and qunbindt tile bindings; the scale
arithmetic works value by value. -/
def Obligations.ScaleRegisters : Prop :=
  (((∀ (d a b : Reg) (t : BitVec 3) (s s1 : State) (e : VEntry) (codes bands : List Nat), Claims.Starts s e →
    e.vtype.getLsbD 63 = false →
    let x := e.b.toNat
    let fmt := natBits x 13 12
    let n := natBits x 11 0
    let limit := if fmt = 2 then 1024 else 2048
    let banded : Bool := x.testBit 14
    (natBits x 63 15 = 0 → fmt ≠ 3 → 1 ≤ n → n ≤ limit → (banded = true → fmt = 0) →
      readStream (strandPort s.strand 2) e.mtype.toNat e.a.toNat fmt n banded (Claims.popped e s) = (.ok (codes, bands), s1) →
      s1.strand = (Claims.popped e s).strand → codes.length = n → (∀ c ∈ codes, c < 2 ^ (8 * 2 ^ fmt)) → (∀ c ∈ bands, c < 2 ^ 16) →
      Claims.WritesQ s s1 e (.qld d a b t) d fmt codes
        (if banded then bands else List.replicate ((n + 63) / 64) 0x3F80) 0) ∧
    (natBits x 63 15 ≠ 0 ∨ fmt = 3 ∨ n = 0 ∨ limit < n ∨ (banded = true ∧ fmt ≠ 0) →
      exec (.qld d a b t) s = .next (reportV e (Claims.ill 6) s))) ∧
  (∀ (p : Port) (sp addr fmt n : Nat) (s s1 : State) (bs : List Byte), addr % 4 = 0 →
    spaceRead p sp addr (n * 2 ^ fmt) s = (.ok bs, s1) → fmt < 3 → bs.length = n * 2 ^ fmt →
    ∃ codes, readStream p sp addr fmt n false s = (.ok (codes, []), s1) ∧ codes.length = n ∧
      ∀ j, j < n → codes.getD j 0 = leNat ((bs.drop (j * 2 ^ fmt)).take (2 ^ fmt))) ∧
  (∀ (d a : Reg) (t : BitVec 3) (s s1 : State) (e : VEntry), Claims.Starts s e → e.vtype.getLsbD 63 = false →
    let q := qRegOf s.strand d.toNat
    let codes := (List.range q.len).map (Claims.scaleCode q)
    let bands := if q.fmt = 0 then (List.range ((q.len + 63) / 64)).map (Claims.scaleBand q) else []
    (q.fmt ≠ 3 → writeStream (strandPort s.strand 2) e.mtype.toNat e.a.toNat q.fmt.toNat codes bands (Claims.popped e s) = (.ok (), s1) →
      s1.strand.dbgElem = false → exec (.qst d a t) s = .next (retireV s1)) ∧
    (q.fmt = 3 → exec (.qst d a t) s = .next (reportV e (Claims.ill 5) s))) ∧
  (∀ (p : Port) (sp addr fmt : Nat) (codes : List Nat) (s : State), addr % 4 = 0 → fmt < 3 →
    writeStream p sp addr fmt codes [] s = spaceWrite p sp addr ((codes.map (leBytes (2 ^ fmt))).flatten) s) ∧
  (∀ (d a b : Reg) (t : BitVec 3) (s s0 s1 : State) (e : VEntry) (c : QCfg) (codes bands : List Nat)
    (got : List (Nat × Nat)), Claims.Issues s e → Claims.Typed s.strand e false → e.vstart < e.vl →
    qcfgUse false true e.csr.toNat = some c →
    let w := Claims.dataWidth c.data
    let g := Claims.codesIn e c.data
    let n := Claims.blocks e c.bcode
    let banded : Bool := decide (c.data = .flt .e2m1 ∧ c.sfmt = 0)
    Claims.Groups [(d.toNat, g)] → g ≤ 8 → n ≤ (if c.sfmt = 2 then 1024 else 2048) →
    readStream (strandPort s.strand 2) e.mtype.toNat e.b.toNat c.sfmt n banded (Claims.popped e s) = (.ok (codes, bands), s0) →
    s0.strand = (Claims.popped e s).strand → codes.length = n → (∀ x ∈ codes, x < 2 ^ (8 * 2 ^ c.sfmt)) → (∀ x ∈ bands, x < 2 ^ 16) →
    Claims.Passes (fun i => loadElem (strandPort s.strand 2) e.mtype.toNat (Claims.unitAt e w i).1 (Claims.unitAt e w i).2 w)
      (Claims.accessed s e false) s0 got s1 → s1.strand = s0.strand →
    ∃ u : Strand, exec (.vlq d a b t) s = .next (retireV (Claims.withStrand s1 u)) ∧ u.x = s.strand.x ∧
      u.csr = s.strand.csr ∧
      Claims.Holds (qRegOf u d.toNat) c.sfmt codes (if banded then bands else List.replicate ((n + 63) / 64) 0x3F80) ∧
      tagOf u d.toNat = BitVec.ofNat 32
        (Claims.tagWord c.dcode c.bcode ((qRegOf s.strand d.toNat).gen + 1).toNat d.toNat) ∧
      (∀ k, 0 < k → k < g → tagOf u (d.toNat + k) = 0) ∧
      ∀ k, e.vstart ≤ k → k < e.vl → k / rg s.strand < 32 * g / w → getElem u d.toNat w k = Claims.look got k) ∧
  (∀ (d a b : Reg) (t : BitVec 3) (s s0 s1 : State) (e : VEntry) (got : List (Nat × Unit)), Claims.Issues s e →
    Claims.Typed s.strand e false → e.vstart < e.vl →
    let tag := (tagOf s.strand d.toNat).toNat
    let q := qRegOf s.strand (natBits tag 6 2)
    let n := Claims.blocks e (natBits tag 21 19)
    let codes := (List.range (min n q.len)).map (Claims.scaleCode q)
    ∀ data, DFmt.ofCode (natBits tag 24 22) = some data →
    let w := Claims.dataWidth data
    let bands := if data = .flt .e2m1 ∧ q.fmt = 0 then (List.range ((n + 63) / 64)).map (Claims.scaleBand q) else []
    Claims.Groups [(d.toNat, Claims.codesIn e data)] → Claims.codesIn e data ≤ 8 →
    (Claims.Bound s.strand d.toNat n →
      writeStream (strandPort s.strand 2) e.mtype.toNat e.b.toNat q.fmt.toNat codes bands (Claims.popped e s) = (.ok (), s0) →
      Claims.Passes (fun i => storeElem (strandPort s.strand 2) e.mtype.toNat (Claims.unitAt e w i).1
        (Claims.unitAt e w i).2 w (getElem s.strand d.toNat w i) false) (Claims.accessed s e false) s0 got s1 →
      s1.strand.dbgElem = false → exec (.vsq d a b t) s = .next (retireV s1)) ∧
    (tag % 2 = 1 → tag / 2 % 2 = 1 → exec (.vsq d a b t) s = .next (reportV e
      { cause := 0x09, tval := BitVec.ofNat 64 (d.toNat * 256 + 3), telem := 0 } (Claims.popped e s))))) : Prop) ∧
  (((∀ (d b : Reg) (m : BitVec 1) (s : State) (e : VEntry) (c : QCfg), Claims.Starts s e → Claims.Typed s.strand e (m = 1) →
    0 < e.vl → qcfgOf e.csr.toNat = some c → fmtOf (natBits e.vtype.toNat 7 6) (sewOf e.vtype) = some c.src →
    Claims.Groups [(b.toNat, lmulOf e.vtype)] → ¬(c.data = .flt .e2m1 ∧ c.sfmt = 0) →
    let n := Claims.blocks e c.bcode
    n ≤ (if c.sfmt = 2 then 1024 else 2048) →
    ∃ rs : List (Nat × Flags), rs.length = n ∧
      (∀ j, j < n → Claims.Derived (Claims.scaleFormat c.sfmt) c.data
        (((Claims.values s e (m = 1) b c.src).filter fun p => p.1 / (8 * 2 ^ c.bcode) = j).map (·.2)) (rs.getD j (0, 0))) ∧
      Claims.WritesQ s (Claims.popped e s) e (.qcomp d b m) d c.sfmt (rs.map (·.1)) (List.replicate ((n + 63) / 64) 0x3F80)
        (Claims.allFlags rs)) ∧
  (∀ (d a b : Reg) (m : BitVec 1) (s : State) (e : VEntry) (c : QCfg), Claims.Starts s e →
    Claims.Typed s.strand e (m = 1) → 0 < e.vl → qcfgOf e.csr.toNat = some c →
    fmtOf (natBits e.vtype.toNat 7 6) (sewOf e.vtype) = some c.src →
    let w := Claims.dataWidth c.data
    let g := Claims.codesIn e c.data
    let q := qRegOf s.strand a.toNat
    let B := 8 * 2 ^ c.bcode
    let scale (i : Nat) : Val := q.eff (decide (c.data = .flt .e2m1 ∧ c.sfmt = 0)) (i / B)
    let mode (i : Nat) : Mode := if e.frm.toNat % 8 = 5 then .sr (srbits e.b i) else modeOf e.frm
    let one (i : Nat) := quantise c.data (mode i) (c.src.val (getElem s.strand b.toNat (sewOf e.vtype) i)) (scale i)
    Claims.Groups [(d.toNat, g), (b.toNat, lmulOf e.vtype)] → g ≤ 8 → q.fmt.toNat = c.sfmt →
    Claims.blocks e c.bcode ≤ q.len →
    ∃ t : Strand, exec (.vquant d a b m) s = .next (retireV (Claims.withStrand (Claims.popped e s) t)) ∧
      t = { (Claims.popped e s).strand with
        v := t.v, tags := t.tags, csr := { s.strand.csr with vfflags := t.csr.vfflags } } ∧
      Claims.Tagged s.strand t d.toNat g (BitVec.ofNat 32 (Claims.tagWord c.dcode c.bcode q.gen.toNat a.toNat)) ∧
      (∀ k, t.csr.vfflags.getLsbD k = true ↔ s.strand.csr.vfflags.getLsbD k = true ∨
        ∃ i, i < e.vl ∧ Claims.takes s.strand (m = 1) i = true ∧ (one i).2.getLsbD k = true) ∧
      ∀ k, k < e.vl → k / rg s.strand < 32 * g / w → getElem t d.toNat w k =
        if Claims.takes s.strand (m = 1) k then (one k).1 % 2 ^ w
        else if e.vtype.getLsbD 9 then 0 else getElem s.strand d.toNat w k) ∧
  (∀ (d b : Reg) (m : BitVec 1) (s : State) (e : VEntry) (f : Fmt) (data : DFmt), Claims.Starts s e →
    Claims.Typed s.strand e (m = 1) → 0 < e.vl → fmtOf (natBits e.vtype.toNat 7 6) (sewOf e.vtype) = some f →
    let tag := (tagOf s.strand b.toNat).toNat
    let q := qRegOf s.strand (natBits tag 6 2)
    let bcode := natBits tag 21 19
    let w := Claims.dataWidth data
    let scale (i : Nat) : Val := q.eff (decide (data = .flt .e2m1 ∧ q.fmt = 0)) (i / (8 * 2 ^ bcode))
    DFmt.ofCode (natBits tag 24 22) = some data →
    Claims.Groups [(b.toNat, Claims.codesIn e data), (d.toNat, lmulOf e.vtype)] → Claims.codesIn e data ≤ 8 →
    (Claims.Bound s.strand b.toNat (Claims.blocks e bcode) →
      ∃ t : Strand, exec (.vdequant d b m) s = .next (retireV (Claims.withStrand (Claims.popped e s) t)) ∧
        Claims.OnlyGroup (Claims.popped e s).strand t d.toNat (lmulOf e.vtype) ∧
        ∀ k, k < vlmax (rg s.strand) e.vtype → getElem t d.toNat (sewOf e.vtype) k =
          Claims.policy e (Claims.takes s.strand (m = 1) k) k (getElem s.strand d.toNat (sewOf e.vtype) k)
            ((rnd f (modeOf e.frm) (e.frm.getLsbD 3)
              (Val.mul (data.val (getElem s.strand b.toNat w k)) (scale k))).1 % 2 ^ sewOf e.vtype) 0) ∧
    (tag / 2 % 2 = 1 → tag % 2 = 1 → exec (.vdequant d b m) s = .next (reportV e
      { cause := 0x09, tval := BitVec.ofNat 64 (b.toNat * 256 + 3), telem := 0 } (Claims.popped e s)))) ∧
  (∀ (d a : Reg) (s : State) (e : VEntry), Claims.Starts s e → Claims.Typed s.strand e false → 0 < e.vl →
    (∀ c, qcfgUse false false e.csr.toNat = some c → let g := Claims.codesIn e c.data
      Claims.Groups [(d.toNat, g)] → g ≤ 8 → (qRegOf s.strand a.toNat).fmt ≠ 3 →
      ∃ t : Strand, exec (.qbind d a) s = .next (retireV (Claims.withStrand (Claims.popped e s) t)) ∧
        t = { (Claims.popped e s).strand with tags := t.tags } ∧ Claims.Tagged s.strand t d.toNat g
          (BitVec.ofNat 32 (Claims.tagWord c.dcode c.bcode (qRegOf s.strand a.toNat).gen.toNat a.toNat))) ∧
    (let g := ((DFmt.ofCode (natBits e.csr.toNat 2 0)).map (Claims.codesIn e)).getD 1
     (d.toNat % g ≠ 0 → exec (.qbind d a) s = .next (reportV e (Claims.ill 3) s)) ∧
     (Claims.Groups [(d.toNat, g)] → qcfgUse false false e.csr.toNat = none →
       exec (.qbind d a) s = .next (reportV e (Claims.ill 5) s))) ∧
    (∀ data, let tag := tagOf s.strand d.toNat
      tag.getLsbD 0 = true → DFmt.ofCode (natBits tag.toNat 24 22) = some data →
      (Claims.Groups [(d.toNat, Claims.codesIn e data)] → Claims.codesIn e data ≤ 8 →
        ∃ t : Strand, exec (.qunbind d) s = .next (retireV (Claims.withStrand (Claims.popped e s) t)) ∧
          t = { (Claims.popped e s).strand with tags := t.tags } ∧
          Claims.Tagged s.strand t d.toNat (Claims.codesIn e data) 0) ∧
      (d.toNat % Claims.codesIn e data = 0 → 8 < Claims.codesIn e data →
        exec (.qunbind d) s = .next (reportV e (Claims.ill 5) s))) ∧
    ((tagOf s.strand d.toNat).getLsbD 0 = false → ∃ t : Strand,
      exec (.qunbind d) s = .next (retireV (Claims.withStrand (Claims.popped e s) t)) ∧
        t = { (Claims.popped e s).strand with tags := t.tags } ∧ Claims.Tagged s.strand t d.toNat 1 0) ∧
    (∀ data, let x := e.a.toNat
      natBits x 63 25 = 0 → x % 2 = 1 → DFmt.ofCode (natBits x 24 22) = some data → natBits x 21 19 ≤ 4 →
      Claims.Groups [(d.toNat, Claims.codesIn e data)] → Claims.codesIn e data ≤ 8 →
      ∃ t : Strand, exec (.qtag d a) s = .next (retireV (Claims.withStrand (Claims.popped e s) t)) ∧
        t = { (Claims.popped e s).strand with tags := t.tags } ∧
        Claims.Tagged s.strand t d.toNat (Claims.codesIn e data) (BitVec.ofNat 32 x))) ∧
  (∀ (d a b : Reg) (s s1 : State) (e : VEntry) (c : QCfg) (ps ms : List (Nat × Nat)), Claims.Starts s e →
    e.vtype.getLsbD 63 = false → 0 < e.vl → d.toNat < 16 → qcfgUse false false e.csr.toNat = some c →
    let x := e.a.toNat
    let cols := (natBits x 63 56 + 1) * 8
    let rows := (natBits x 55 48 + 1) * 8
    let base := natBits x 47 0
    let q := qRegOf s.strand b.toNat
    base % 256 = 0 → q.fmt ≠ 3 → rows * cols ≤ q.len * (8 * 2 ^ c.bcode) →
    watchedPieces (strandPort s.strand 2) base (rows * cols * Claims.dataWidth c.data / 8) (Claims.popped e s) =
      (.ok (ps, ms), s1) → s1.strand = (Claims.popped e s).strand →
    exec (.qbindt d a b) s = .next (retireV (Claims.withStrand s1 (setTile d.toNat
      { bits := BitVec.ofNat 128 (q.gen.toNat * 2 ^ 108 + b.toNat * 2 ^ 103 + c.bcode * 2 ^ 100 + c.dcode * 2 ^ 97 +
          cols * 2 ^ 81 + rows * 2 ^ 65 + 2 ^ 48 + base), pages := ps, maps := ms } s1.strand))) ∧
    exec (.qunbindt d) s = .next (retireV (Claims.withStrand (Claims.popped e s)
      (setTile d.toNat { bits := 0, pages := [], maps := [] } (Claims.popped e s).strand)))) ∧
  (∀ (d a : Reg) (b : Reg) (s : State) (e : VEntry), Claims.Starts s e → e.vtype.getLsbD 63 = false → 0 < e.vl →
    let x := qRegOf s.strand b.toNat
    let y := qRegOf s.strand a.toNat
    let f := Claims.scaleFormat x.fmt.toNat
    let mode := modeOf e.frm
    let nb := (x.len + 63) / 64
    let codes := (List.range x.len).map (Claims.scaleCode x)
    let bands := if x.fmt = 0 then (List.range nb).map (Claims.scaleBand x) else []
    let codesY := (List.range y.len).map (Claims.scaleCode y)
    let bandsY := if y.fmt = 0 then (List.range nb).map (Claims.scaleBand y) else []
    let gives (i : Instr) (fmt : Nat) (cs bs : List (Nat × Flags)) : Prop :=
      Claims.WritesQ s (Claims.popped e s) e i d fmt (cs.map (·.1)) (bs.map (·.1)) (Claims.allFlags (cs ++ bs))
    let times (f : Fmt) (u v : Nat) : Nat × Flags := Claims.scaled f mode (Val.mul (f.val u) (f.val v))
    let larger (f : Fmt) (u v : Nat) : Nat × Flags :=
      if f.isNanCode u = true ∨ f.isNanCode v = true then
        (f.canon, if (f.isNanCode u = true ∧ f.isNanCode v = true) ∨ f.isSnan u = true ∨ f.isSnan v = true then fNV else 0)
      else Claims.scaled f mode (f.val (fminmax f true u v).1)
    let by' (f : Fmt) (u : Nat) : Nat × Flags :=
      Claims.scaled f mode (Val.mul (f.val u) (Fmt.fp32.val (e.a.toNat % 2 ^ 32)))
    let inverse (f : Fmt) (u : Nat) : Nat × Flags :=
      if (f.val u).isZero = true then (f.maxCode, fDZ) else Claims.scaled f mode (Val.div (.fin false 1 1) (f.val u))
    x.fmt ≠ 3 → x.len ≤ (if x.fmt = 2 then 1024 else 2048) →
    (x.fmt = y.fmt → x.len = y.len →
      gives (.qmul d a b) x.fmt.toNat (List.zipWith (times f) codes codesY) (List.zipWith (times .bf16) bands bandsY) ∧
      gives (.qmax d a b) x.fmt.toNat (List.zipWith (larger f) codes codesY) (List.zipWith (larger .bf16) bands bandsY)) ∧
    (x.fmt ≠ y.fmt ∨ x.len ≠ y.len → exec (.qmul d a b) s = .next (reportV e (Claims.ill 5) s) ∧
      exec (.qmax d a b) s = .next (reportV e (Claims.ill 5) s)) ∧
    gives (.qmulx d a b) x.fmt.toNat (codes.map fun u => if x.fmt = 0 then (u, 0) else by' f u) (bands.map (by' .bf16)) ∧
    gives (.qrcp d b) x.fmt.toNat (codes.map (inverse f)) (bands.map (inverse .bf16)) ∧
    gives (.qmv d b) x.fmt.toNat (codes.map fun u => (u, 0)) (bands.map fun u => (u, 0)) ∧
    (a.toNat < 3 → x.len ≤ (if a.toNat = 2 then 1024 else 2048) →
      gives (.qcvt d a b) a.toNat ((List.range x.len).map fun j =>
          let v := f.val (Claims.scaleCode x j)
          Claims.scaled (Claims.scaleFormat a.toNat) mode
            (if x.fmt = 0 then Val.mul v (Fmt.bf16.val (Claims.scaleBand x (j / 64))) else v))
        (if a.toNat = 0 then (List.replicate nb 0x3F80).map fun u => (u, 0) else [])))) : Prop)

/-! ## The commands of the engines and units -/

namespace Sys2Proof.Claims

/-- The entry that a command leaves in its queue (R33, R241): its word, its operand values, the seed and mcfg that it
captures, its number, and nothing performed. -/
def entry (s : State) (a b seed mcfg : Word) : CEntry :=
  { word := s.fetched, popped := false, step := 0, copied := false, a := a, b := b, aux := seed, mcfg := mcfg
    seq := s.strand.nextSeq, accepted := false, done := false, writer := none, prog := Progress.none }

/-- The CSRs after a command that captures the seed (R157). -/
def seedTaken (c : Csrs) : Csrs := { c with srseed := c.srseed + 0x9E3779B97F4A7C15#64 }

/-- The types of A and B and the accumulator bit that mcfg may hold (R168). -/
def typesOk (m : Word) : Prop :=
  (natBits m.toNat 3 0, natBits m.toNat 7 4, natBits m.toNat 8 8) ∈
    [(0, 0, 0), (1, 1, 0), (2, 2, 0), (2, 3, 0), (3, 2, 0), (3, 3, 0), (4, 4, 0), (4, 2, 0), (5, 5, 1)]

/-- The output types (R63). -/
def outTypeOk (m : Word) : Prop := natBits m.toNat 12 9 ∈ [0, 1, 2, 3, 5, 6, 7]

/-- The index operand of mldg (R251). -/
def indexOk (x : Word) : Prop :=
  x.toNat < 2 ^ 41 ∧ natBits x.toNat 31 25 = 0 ∧ natBits x.toNat 40 32 ≤ 256 ∧ x.toNat % 4 = 0

/-- An M command: the instruction, its registers, and whether it checks the operand types, checks the output type,
keeps mcfg, and captures the seed (R241). -/
structure MForm where
  i : Instr
  r1 : Option Reg
  r2 : Option Reg
  typed : Bool
  out : Bool
  keeps : Bool
  seeds : Bool

/-- The eight M commands on an engine; mst captures the seed where mcfg [34] is 1, mtile always. -/
noncomputable def mForms (a b : Reg) (t : BitVec 3) (e : BitVec 1) (m : Word) : List MForm :=
  [⟨.mld a t e, some a, none, true, false, true, false⟩, ⟨.mldg a b t e, some a, some b, true, false, true, false⟩,
   ⟨.mflip t e, none, none, false, false, false, false⟩, ⟨.mmac a t e, some a, none, true, false, true, false⟩,
   ⟨.mgrp a b t e, some a, some b, true, false, true, false⟩,
   ⟨.mst a b t e, some a, some b, false, true, true, m.getLsbD 34⟩,
   ⟨.mzero t e, none, none, false, false, false, false⟩, ⟨.mtile a t e, some a, none, false, false, true, true⟩]

/-- The strand's slot is granted an engine (R240). -/
def Granted (s : State) (e : Nat) : Prop :=
  ∃ g, (hoopOf s s.strand.hoop).grants[s.strand.slot]? = some g ∧ g.enabled = true ∧ g.engines.getLsbD e = true

/-- A command of the C or N queue: the instruction, its queue, whether it has a second register, the alignment of its
first operand, and whether it keeps mcfg and captures the seed (R298, R311, R320, R339, R363). -/
structure CForm where
  i : Instr
  q : Queue
  two : Bool
  align : Nat
  keeps : Bool

noncomputable def cForms (a b : Reg) (t : BitVec 3) : List CForm :=
  [⟨.cpy a t, .c, false, 64, true⟩, ⟨.cpyx a t, .c, false, 64, true⟩, ⟨.cpyf a t, .c, false, 64, true⟩,
   ⟨.kvsplice a t, .c, false, 64, false⟩, ⟨.kvcommit a t, .c, false, 64, false⟩, ⟨.kvseal a t, .c, false, 64, false⟩,
   ⟨.kvgather a t, .c, false, 64, false⟩, ⟨.gwalk a t, .n, false, 64, false⟩, ⟨.gins a t, .n, false, 64, false⟩,
   ⟨.gdel a t, .n, false, 64, false⟩, ⟨.msgx a b t, .n, true, 1, false⟩, ⟨.nmq a b t, .n, true, 64, false⟩]

/-- An engine of the strand's hoop. -/
def engineIs (s : State) (e : Nat) (m : MatEngine) : Prop := (hoopOf s s.strand.hoop).engines[e]? = some m

/-- It is the strand's turn at an engine of its hoop, of those that want one there: no other that wants it comes before
in the round-robin order from the last one served on (R33, R387). -/
def Turn (s : State) (unit : Nat) (wants : Strand → Bool) : Prop := myTurn s unit wants = true

/-- The engine has served the strand: the next turn goes on from there (R387). -/
def turnTaken (s : State) (unit : Nat) (t : State) : State :=
  let h := hoopOf t s.strand.hoop
  setHoop s.strand.hoop { h with
    served := h.served.setIfInBounds unit (if s.strand.node.isSome then 8 else s.strand.slot) } t

/-- The engine works on entry e of M: it is the turn of its strand, which runs, no fault of the queue is pending, and e is the oldest accepted
entry of the engine that is not finished; the queue holds no marker, and no store before it. -/
structure Working (s : State) (eng : Nat) (e : CEntry) (cmd : Nat) : Prop where
  live : engineLive s = true
  clear : s.strand.pending = []
  only : s.strand.mq = [e]
  acc : e.accepted = true
  undone : e.done = false
  mine : (if e.word.getLsbD 7 then 1 else 0) = eng
  which : natBits e.word.toNat 31 25 = cmd
  strand : isStrand s.strand = true
  hoop : s.strand.hoop < 48
  turn : Turn s eng (matWants eng)

/-- What one step of an M command leaves beside its engine: the entry is finished at its last step, and no register, no
queue but M and, with the trace output closed, no memory changes. -/
def Stepped (s t : State) (e : CEntry) (last : Bool) : Prop :=
  t.strand.mq = [{ e with step := e.step + 1, done := last }] ∧ t.strand.x = s.strand.x ∧ t.strand.csr = s.strand.csr ∧
  t.strand.vq = s.strand.vq ∧ t.strand.cq = s.strand.cq ∧ t.strand.pc = s.strand.pc ∧
  (RingOff s → t.mem.bytes = s.mem.bytes)

end Sys2Proof.Claims

/-- Each M command is checked at the front (types and output type by mcfg, ILL 5; the index of mldg, ILL 6; the grant
of its engine, ACC) and then goes to the M queue, with the operand values, mcfg and the seed that it captures; at 16
entries the front waits. Each command of the C and N queues whose descriptor address is aligned goes to its queue with
its operand values, a copy with mcfg and the seed, kvrepair with kvdev and kvcfg; a misaligned address is ALIGN, a
kvcfg with a reserved value ILL 5, and at 16 entries the front waits. -/
def Obligations.EngineCommandsEnter : Prop :=
  ((∀ (a b : Reg) (t : BitVec 3) (e : BitVec 1) (s : State), let m := s.strand.csr.mcfg
    ∀ f ∈ Claims.mForms a b t e m, Claims.Full s.strand (f.r1.toList ++ f.r2.toList) → s.strand.dbgStep = false →
    let x := (f.r1.map (readReg s.strand)).getD 0
    let y := (f.r2.map (readReg s.strand)).getD 0
    let gather : Prop := f.i = .mldg a b t e
    (gather → ¬ Claims.indexOk y → exec f.i s = .next (frontTrap (Claims.ill 6) s)) ∧
    (gather → Claims.indexOk y → natBits m.toNat 7 4 = 4 → exec f.i s = .next (frontTrap (Claims.ill 5) s)) ∧
    ((gather → Claims.indexOk y) → f.typed = true → ¬ Claims.typesOk m → exec f.i s = .next (frontTrap (Claims.ill 5) s)) ∧
    (f.out = true → ¬ Claims.outTypeOk m → exec f.i s = .next (frontTrap (Claims.ill 5) s)) ∧
    ((gather → Claims.indexOk y ∧ natBits m.toNat 7 4 ≠ 4) → (f.typed = true → Claims.typesOk m) →
      (f.out = true → Claims.outTypeOk m) →
      (¬ Claims.Granted s e.toNat → exec f.i s = .next (frontTrap (Claims.acc (BitVec.ofNat 64 e.toNat)) s)) ∧
      (Claims.Granted s e.toNat →
        (s.strand.mq.length < 16 → exec f.i s = .next (Claims.left s { s.strand with
          mq := s.strand.mq ++ [Claims.entry s x y (if f.seeds then s.strand.csr.srseed else 0) (if f.keeps then m else 0)]
          csr := if f.seeds then Claims.seedTaken s.strand.csr else s.strand.csr })) ∧
        (16 ≤ s.strand.mq.length → exec f.i s = .next (frontWait .uncounted s))))) : Prop) ∧
  (((∀ (a b : Reg) (t : BitVec 3) (s : State), ∀ f ∈ Claims.cForms a b t,
    Claims.Full s.strand (if f.two then [a, b] else [a]) → s.strand.dbgStep = false →
    let x := readReg s.strand a
    let n := Claims.entry s x (if f.two then readReg s.strand b else 0)
      (if f.keeps then s.strand.csr.srseed else 0) (if f.keeps then s.strand.csr.mcfg else 0)
    (x.toNat % f.align ≠ 0 → exec f.i s = .next (frontTrap (Claims.alignTrap x) s)) ∧
    (x.toNat % f.align = 0 →
      (f.q = .c → s.strand.cq.length < 16 → exec f.i s = .next (Claims.left s { s.strand with
        cq := s.strand.cq ++ [n], csr := if f.keeps then Claims.seedTaken s.strand.csr else s.strand.csr })) ∧
      (f.q = .n → s.strand.nq.length < 16 → exec f.i s = .next (Claims.left s { s.strand with nq := s.strand.nq ++ [n] })) ∧
      (f.q = .c → 16 ≤ s.strand.cq.length → exec f.i s = .next (frontWait .uncounted s)) ∧
      (f.q = .n → 16 ≤ s.strand.nq.length → exec f.i s = .next (frontWait .uncounted s)))) ∧
  (∀ (a : Reg) (t : BitVec 3) (s : State), Claims.Full s.strand [a] → s.strand.dbgStep = false →
    let x := readReg s.strand a
    let c := s.strand.csr.kvcfg.toNat
    let ok : Prop := 1 ≤ natBits c 11 8 ∧ natBits c 11 8 ≤ 8 ∧ natBits c 13 12 ≤ 1
    (¬ ok → exec (.kvrepair a t) s = .next (frontTrap (Claims.ill 5) s)) ∧
    (ok → x.toNat % 128 ≠ 0 → exec (.kvrepair a t) s = .next (frontTrap (Claims.alignTrap x) s)) ∧
    (ok → x.toNat % 128 = 0 → s.strand.cq.length < 16 → exec (.kvrepair a t) s = .next (Claims.left s { s.strand with
      cq := s.strand.cq ++ [Claims.entry s x
        (BitVec.ofNat 64 (s.strand.csr.kvdev.toNat % 2 ^ 32 + 2 ^ 32 * (c % 2 ^ 14))) 0 0] })))) : Prop)

/-! ## What the engines do -/

namespace Sys2Proof.Claims

/-- The engine after a step of entry e: it serves the strand's slot and ASID and stands past the step (R240, R466). -/
def served (s : State) (e : CEntry) (m : MatEngine) : MatEngine :=
  { m with cmd := e.word, step := e.step + 1, asid := some s.strand.asid }

/-- A step of an M command on an engine, whose plane and accumulators then stand as given. -/
def EngineSteps (s : State) (eng : BitVec 1) (e : CEntry) (s1 : State) (m : MatEngine) : Prop :=
  ∃ t, exec (.matrixStep eng) s = .next t ∧ engineIs t eng.toNat (served s e m) ∧ Stepped s1 t e true

/-- Value n of a row of bytes of a type: 16, 8 or 4 bits, the lower half of a byte first (R238). -/
def valueAt (t : Nat) (bs : List Byte) (n : Nat) : Nat :=
  if t ≤ 1 then (bs[2 * n]?.getD 0).toNat + 256 * (bs[2 * n + 1]?.getD 0).toNat
  else if t = 4 then (bs[n / 2]?.getD 0).toNat / 16 ^ (n % 2) % 16
  else (bs[n]?.getD 0).toNat

/-- Bytes of an operand row of 256 values (R238). -/
def rowBytes (t : Nat) : Nat := if t ≤ 1 then 512 else if t = 4 then 128 else 256

/-- The LS row at an address is read without change of the state, as some bytes. -/
def RowIs (s : State) (p : Port) (t addr : Nat) (bs : List Byte) : Prop :=
  addr % 128 = 0 ∧ addr < 2 ^ 25 ∧ spaceRead p 1 addr (rowBytes t) s = (.ok bs, s) ∧ bs.length = rowBytes t

/-- The sum of an accumulator and a chunk, rounded to FP32 (R166). -/
def plus (x : BitVec 32) (p : Nat) : BitVec 32 :=
  BitVec.ofNat 32 (rnd .fp32 .rne false (Val.add false (Fmt.fp32.val x.toNat) (Fmt.fp32.val p))).1

/-- The entry e of a queue is its only one, accepted, not finished, of a command number; the strand runs and no fault is
pending. -/
structure Serving (s : State) (q : Queue) (e : CEntry) (cmd : Nat) : Prop where
  live : engineLive s = true
  clear : s.strand.pending = []
  only : cmdQueue s.strand q = [e]
  acc : e.accepted = true
  undone : e.done = false
  which : natBits e.word.toNat 31 25 = cmd

/-- It is the strand's turn at the copy engine, of those that want it and wait on no full table of sets (R301, R387). -/
def CopyTurn (s : State) : Prop := Turn s 2 (copyWants s)

/-- The copy after a chunk: the next one stands, and once none is left a follow-on is presented (R259, R301). -/
def chunkMoved (e : CEntry) (chunks : Nat) : CEntry :=
  { e with step := e.step + 1, prog := { e.prog with pos := if chunks ≤ e.step + 1 then [0] else [] } }

end Sys2Proof.Claims

/-- The steps of the M commands: mld loads the shadow plane, mflip exchanges the planes, mzero clears the
accumulators, mmac streams the activation rows through the active plane, and mst stores the converted accumulators row
by row; each finishes its entry and changes nothing else of the engine. The sum of an output: row by row and column by
column the accumulator becomes the exact wrapped INT32 sum, or the eight chunk products added in order with one
rounding each, from +0 in overwrite mode; a chunk product of unscaled finite values is their exact sum rounded to
FP32. The conversions of the integer accumulator are INT32 as it is, INT8 saturated or wrapped. -/
def Obligations.MatrixEngine : Prop :=
  (((∀ (s : State) (g : BitVec 1) (e : CEntry) (cmd : Nat) (m : MatEngine), Claims.Working s g.toNat e cmd →
    Claims.engineIs s g.toNat m →
    let c := mcfgOf e.mcfg
    let p := strandPort s.strand 3
    (∀ s1 pl, cmd = 1 → loadTile p e.prog s.strand.hoop c.b e.a.toNat s = (.ok pl, s1) → s1.strand = s.strand →
      s1.hoops = s.hoops → Claims.EngineSteps s g e s1 { m with shadow := pl }) ∧
    (cmd = 3 → Claims.EngineSteps s g e s { m with active := m.shadow, shadow := m.active }) ∧
    (∀ s1 acts, cmd = 4 → let tb := (m.active.typ.map BitVec.toNat).getD c.b
      (c.a, tb, if c.int then 1 else 0) ∈ [(0, 0, 0), (1, 1, 0), (2, 2, 0), (2, 3, 0), (3, 2, 0), (3, 3, 0), (4, 4, 0),
        (4, 2, 0), (5, 5, 1)] →
      loadActs p e.prog s.strand.hoop c.a e.a.toNat c.rows s = (.ok acts, s1) → s1.strand = s.strand → s1.hoops = s.hoops →
      Claims.EngineSteps s g e s1 { m with acc := streamRows c.a tb (!c.accumulate) m.active 0 acts m.acc }) ∧
    (∀ s1, cmd = 6 → e.a.toNat % outBytes c.out = 0 → e.b.toNat % outBytes c.out = 0 →
      ((List.range c.rows).forM fun i => (List.range 256).forM fun n =>
        vsWrite p ((e.a.toNat + i * e.b.toNat + n * outBytes c.out) % 2 ^ 64) (leBytes (outBytes c.out)
          (convOut c.out c.int (if c.sr then Mode.sr (srbits e.aux (i * 256 + n)) else Mode.rne) c.sat
            (smRead 0 m.acc (i * 256 + n)))) false) s = (.ok (), s1) →
      s1.strand = s.strand → s1.hoops = s.hoops → Claims.EngineSteps s g e s1 m) ∧
    (cmd = 7 → Claims.EngineSteps s g e s { m with acc := [] })) ∧
  (∀ (p : Port) (prog : Progress) (h t addr : Nat) (s : State) (rows : Nat → List Byte),
    (∀ k < 256, Claims.RowIs s p t (addr + k * Claims.rowBytes t) (rows k)) → ∃ pl, loadTile p prog h t addr s = (.ok pl, s) ∧
      pl.typ = some (BitVec.ofNat 4 t) ∧ (t ∉ [2, 3, 4] → pl.scales = []) ∧
      ∀ k n, k < 256 → n < 256 → smRead 0 pl.w (k * 256 + n) = BitVec.ofNat 16 (Claims.valueAt t (rows k) n)) ∧
  (∀ (p : Port) (prog : Progress) (h t addr n : Nat) (s : State) (rows : Nat → List Byte),
    (∀ k < n, Claims.RowIs s p t (addr + k * Claims.rowBytes t) (rows k)) → ∃ acts, loadActs p prog h t addr n s = (.ok acts, s) ∧
      acts.length = n ∧ ∀ k < n, ∃ r, acts[k]? = some r ∧ r.codes = (List.range 256).map (Claims.valueAt t (rows k)))) : Prop) ∧
  (((∀ (ta tb : Nat) (ow : Bool) (pl : Plane) (base : Nat) (rows : List ActRow) (acc : SMap (BitVec 32)),
    (∀ i n r, n < 256 → rows[i]? = some r → smRead 0 (streamRows ta tb ow pl base rows acc) ((base + i) * 256 + n) =
      accumulate ta tb ow r pl n (smRead 0 acc ((base + i) * 256 + n))) ∧
    (∀ k, k < base * 256 ∨ (base + rows.length) * 256 ≤ k →
      smRead 0 (streamRows ta tb ow pl base rows acc) k = smRead 0 acc k)) ∧
  (∀ (ow : Bool) (r : ActRow) (pl : Plane) (n : Nat) (old : BitVec 32), accumulate 5 5 ow r pl n old = BitVec.ofInt 32
    ((if ow then 0 else old.toInt) + ((List.range 256).map fun k =>
      Claims.sgn 8 (r.codes.getD k 0 % 256) * Claims.sgn 8 ((smRead 0 pl.w (k * 256 + n)).toNat % 256)).sum)) ∧
  (∀ (ta tb : Nat) (ow : Bool) (r : ActRow) (pl : Plane) (n : Nat) (old : BitVec 32), ta ≠ 5 →
    let P := fun j => chunkProduct ta tb r pl n j
    accumulate ta tb ow r pl n old =
      (List.range 8).foldl (fun x j => if ow = true ∧ j = 0 then BitVec.ofNat 32 (P j) else Claims.plus x (P j)) old) ∧
  (∀ (t : Nat) (f : Fmt) (r : ActRow) (pl : Plane) (n j : Nat) (a b : Nat → ℚ), (t, f) ∈ [(0, Fmt.bf16), (1, .fp16)] →
    pl.scales = [] → r.scale = { mu := false, vals := [], band := none } →
    (∀ i < 32, Claims.IsFin f (r.codes.getD (32 * j + i) 0) (a i) ∧
      Claims.IsFin f (smRead 0 pl.w ((32 * j + i) * 256 + n)).toNat (b i)) →
    ∃ neg x d, 0 < d ∧ Claims.rat neg x d = ∑ i ∈ Finset.range 32, a i * b i ∧
      chunkProduct t t r pl n j = (rnd .fp32 .rne false (.fin neg x d)).1) ∧
  (∀ (md : Mode) (sat : Bool) (x : BitVec 32), convOut 7 true md sat x = x.toNat ∧
    convOut 5 true md true x = ((max (-128) (min 127 x.toInt)) % 256).toNat ∧ convOut 5 true md false x = x.toNat % 256 ∧
    convOut 6 false md sat x = (rnd .fp32 md sat (Fmt.fp32.val x.toNat)).1 ∧
    convOut 0 false md sat x = (rnd .bf16 md sat (Fmt.fp32.val x.toNat)).1)) : Prop)

/-- A chunk of a copy: what its source place holds comes to its destination place, or the fill pattern does; the next
chunk then stands, and after the last one the command is finished, or its follow-on is presented and accepted by its engine
as a command of its own. -/
def Obligations.CopySteps : Prop :=
  (∀ (s s1 s2 : State) (e : CEntry) (sp dp : Place) (src dst n : Nat) (bs : List Byte),
    Claims.Serving s .c e 0x20 → Claims.CopyTurn s → e.copied = false → let d := copyDesc e.prog.desc
    (copyChunks 0x20 d e.prog.list)[e.step]? = some (src, dst, n) → let p := strandPort s.strand 4
    (do let a ← spacePlaces p d.srcSpace src n false
        let b ← spacePlaces p d.dstSpace dst n true
        pure (a, b)) s = (.ok ([(sp, src, n)], [(dp, dst, n)]), s1) →
    readPlace sp n s1 = (.ok bs, s1) → poisonedOffsets s1 src [(sp, src, n)] = [] →
    writePlace p dp (bs.take n) s1 = (.ok (), s2) → s2.strand.cq = s.strand.cq →
    exec .copyChunk s = .next (Claims.turnTaken s 2 (Claims.withStrand s2 { s2.strand with
      cq := [Claims.chunkMoved e (copyChunks 0x20 d e.prog.list).length] }))) ∧
  (∀ (s s1 s2 : State) (e : CEntry) (dp : Place) (src dst n : Nat), Claims.Serving s .c e 0x22 → Claims.CopyTurn s →
    e.copied = false → (∀ k < 8, (e.prog.list[8 + k]?).getD 0 = 0) →
    let d := copyDesc e.prog.desc
    (copyChunks 0x22 d e.prog.list)[e.step]? = some (src, dst, n) → let p := strandPort s.strand 4
    spacePlaces p d.dstSpace dst n true s = (.ok [(dp, dst, n)], s1) →
    writePlace p dp (((List.range n).map fun o => (e.prog.list[(src - d.src + o % 8) % 8]?).getD 0).take n) s1 = (.ok (), s2) →
    s2.strand.cq = s.strand.cq →
    exec .copyChunk s = .next (Claims.turnTaken s 2 (Claims.withStrand s2 { s2.strand with
      cq := [Claims.chunkMoved e (copyChunks 0x22 d e.prog.list).length] }))) ∧
  (∀ (s : State) (e : CEntry) (cmd : Nat), cmd ∈ [0x20, 0x21, 0x22] → Claims.Serving s .c e cmd → Claims.CopyTurn s →
    e.copied = false → let d := copyDesc e.prog.desc
    (copyChunks cmd d e.prog.list)[e.step]? = none → d.publishMode ≠ 2 →
    exec .copyChunk s = .next (Claims.turnTaken s 2 (Claims.withStrand s { s.strand with
      cq := [if d.follows then { e with copied := true, step := 0 } else { e with done := true }] }))) ∧
  (∀ (s s1 : State) (e g : CEntry) (cmd : Nat), cmd ∈ [0x20, 0x21, 0x22] → Claims.Serving s .c e cmd → e.copied = true →
    e.prog.pos = [0] → (copyDesc e.prog.desc).follows = true → s.strand.mq = [] → let f := followEntry { e with prog := { e.prog with list := [] } }
    matAccept f s = (.ok g, s1) → s1.strand.cq = s.strand.cq →
    exec .followOnAccept s = .next (Claims.withStrand s1 { s1.strand with cq := [{ e with prog := { e.prog with
      list := g.prog.desc, pos := [1], tiles := g.prog.tiles, qs := g.prog.qs, vals := g.prog.vals } }] })) ∧
  (∀ e : CEntry, let f := followEntry e
    f.word = BitVec.ofNat 32 (leNat ((e.prog.desc.drop 0x28).take 4)) ∧
    f.a = BitVec.ofNat 64 (leNat ((e.prog.desc.drop 0x2C).take 6)) ∧
    f.b = BitVec.ofNat 64 (leNat ((e.prog.desc.drop 0x32).take 8))) ∧
  (∀ (d : CopyDesc) (y z : Nat), y < d.y → z < d.z → ∃ r ∈ copyRows d, r.2.2 = d.x ∧
    (r.1 : Int) = (d.src + z * d.sz + y * d.sy) % 2 ^ 64 ∧ (r.2.1 : Int) = (d.dst + z * d.dz + y * d.dy) % 2 ^ 64) ∧
  (∀ r : CopyRow, ((rowChunks r).map fun x => x.2.2).sum = r.2.2 ∧
    ∀ x ∈ rowChunks r, 0 < x.2.2 ∧ x.2.1 / 4096 = (x.2.1 + x.2.2 - 1) / 4096 ∧ x.1 + r.2.1 = r.1 + x.2.1)

namespace Sys2Proof.Claims

/-- The entry e stands alone in a queue and is not yet accepted; the strand runs, not Halted, has no fault pending and is
not a graph node, and the word has no token code. -/
structure Standing (s : State) (q : Queue) (e : CEntry) (cmd : Nat) : Prop where
  live : engineLive s = true
  clear : s.strand.pending = []
  only : cmdQueue s.strand q = [e]
  notYet : e.accepted = false
  which : natBits e.word.toNat 31 25 = cmd
  op : natBits e.word.toNat 6 0 = 0b1011011
  plain : natBits e.word.toNat 24 20 = 0 ∧ natBits e.word.toNat 11 8 = 0
  free : s.strand.node = none
  run : s.strand.state ≠ .halted
  tk : natBits e.word.toNat 14 12 = 0

/-- The entry e stands alone in a queue, accepted and finished; nothing is still to be waited for. -/
structure Finished (s : State) (q : Queue) (e : CEntry) : Prop where
  live : engineLive s = true
  clear : s.strand.pending = []
  only : cmdQueue s.strand q = [e]
  acc : e.accepted = true
  fin : e.done = true
  op : natBits e.word.toNat 6 0 = 0b1011011
  free : s.strand.node = none
  unset : e.prog.set = 0
  writer : e.writer = none

/-- The walker has served the strand of a state: the next turn goes on from there (R387). -/
def walkerTaken (s t : State) : State :=
  let place := s.strand.hoop % 12 * 9 + (if s.strand.node.isSome then 8 else s.strand.slot)
  { t with hub := { t.hub with walkerServed := t.hub.walkerServed.setIfInBounds (s.strand.hoop / 12) place } }

/-- The distance of two vectors of bytes (R362). -/
def far (metric : Nat) (a b : List Byte) : Int :=
  match metric with
  | 0 => -((a.zip b).map fun p => p.1.toInt * p.2.toInt).sum
  | 1 => ((a.zip b).map fun p => (p.1.toInt - p.2.toInt) ^ 2).sum
  | _ => ((a.zip b).map fun p => (((List.range 8).filter fun i => p.1.getLsbD i != p.2.getLsbD i).length : Int)).sum

end Sys2Proof.Claims

/-- A command that is ready is accepted by its engine or unit: an mflip or mzero takes its engine and captures the scale
state, a copy reads its descriptor, and a command whose pop finds no token waits. A finished command leaves its queue,
counted as retired, with its push; at 15 tokens it stays. At an instruction boundary the front takes the oldest of the
faults reported to it. -/
def Obligations.CommandsAcceptedAndRetired : Prop :=
  (∀ (s : State) (e : CEntry) (cmd : Nat) (m : MatEngine), cmd = 3 ∨ cmd = 7 → Claims.Standing s .m e cmd →
    natBits e.word.toNat 19 15 = 0 → s.strand.cq = [] → let g := natBits e.word.toNat 7 7
    Claims.Granted s g → Claims.engineIs s g m → s.strand.hoop < 48 → ∃ t, exec (.commandAccept 2) s = .next t ∧
      t.strand = { s.strand with mq := [{ e with accepted := true, prog := { e.prog with
        desc := [], tiles := s.strand.tiles.toList, qs := s.strand.q.toList } }] } ∧
      Claims.engineIs t g { m with cmd := e.word, step := e.step, asid := some s.strand.asid } ∧
      t.mem = s.mem ∧ t.hub = s.hub ∧ t.pool = s.pool) ∧
  (∀ (s s1 : State) (e : CEntry) (bs : List Byte), Claims.Standing s .c e 0x20 → natBits e.word.toNat 7 7 = 0 →
    vsReadBlock (strandPort s.strand 4) e.a.toNat 64 s = (.ok bs, s1) → s1.strand = s.strand →
    let d := copyDesc bs
    copyFieldsOk 0x20 bs d = true → d.follows = false → d.publishMode = 0 → tooManyChunks 0x20 d [] = false →
    ∃ t, exec (.commandAccept 3) s = .next t ∧ t.strand = { s1.strand with cq := [{ e with accepted := true, prog :=
        { e.prog with desc := bs, list := [], pos := if e.copied ∨ (copyChunks 0x20 d []).length ≤ e.step then [0] else []
                      tiles := [], qs := [], vals := [(0, BitVec.ofNat 64 (copyChunks 0x20 d []).length)] } }] } ∧
      t.pool = s1.pool ∧ (Claims.RingOff s1 → t.mem.bytes = s1.mem.bytes)) ∧
  (∀ (s : State) (q src : Queue) (n : BitVec 3) (e : CEntry) (es : List CEntry), Queue.ofCode n.toNat = some q → q ≠ .s →
    q ≠ .v → cmdQueue s.strand q = e :: es → e.accepted = false → e.popped = false →
    tkMeaning q (tkOf e.word) = some (false, src) → tokens s.strand src q = 0 → exec (.commandAccept n) s = .next s) ∧
  (∀ (s : State) (e : CEntry), Claims.Finished s .n e → natBits e.word.toNat 31 25 ∉ [0x20, 0x21, 0x22] →
    (tkMeaning .n (tkOf e.word) = none → exec (.commandRetire 4 0) s = .next (Claims.withStrand s
      { s.strand with nq := [], instret := s.strand.instret + 1 })) ∧
    (∀ dst, tkMeaning .n (tkOf e.word) = some (true, dst) → tokens s.strand .n dst ≠ 15 → exec (.commandRetire 4 0) s = .next
      (pushToken .n dst (Claims.withStrand s { s.strand with nq := [], instret := s.strand.instret + 1 }))) ∧
    (∀ dst, tkMeaning .n (tkOf e.word) = some (true, dst) → tokens s.strand .n dst = 15 →
      exec (.commandRetire 4 0) s = .next s)) ∧
  (∀ (s : State) (f : PendingFault), f ∈ s.strand.pending →
    (∀ g ∈ s.strand.pending, g = f ∨ f.seq < g.seq ∨ (f.seq = g.seq ∧ f.elem < g.elem)) → s.strand.node = none →
    s.strand.state = .running ∨ s.strand.state = .waiting → exec .trapTake s = .next (takeTrap f.trap s))

/-- The walker: a round of a search moves every query on and counts as a step where one of them read; the result round
writes the result blocks; gdel sets the tombstone of its record. The distances are those of R362, a candidate goes
before the first that it precedes, and a result block holds its count, hops, visits, flags and k entries. The KV
commands: the address of a block is that of its extent, a step marks or writes the next block and the last one
finishes the command; kvseal seals an open block with codes, scales and a summary and leaves a sealed one alone. The
darner writes a session's next list, with the marked tokens, and pushes a token of C, which waits at 15; a session
whose owner is gone leaves. -/
def Obligations.WalkerAndKvSteps : Prop :=
  (((∀ (s s1 : State) (e : CEntry) (qs : List WalkQuery) (read : Bool), Claims.Serving s .n e 0x48 → walkerTurn s = true →
    e.prog.pos ≠ [1] → walkRound (strandPort s.strand 5) (walkDesc e.prog.desc) e.prog.walk s = (.ok (qs, read), s1) →
    s1.strand.nq = s.strand.nq → exec .walkerRound s = .next (Claims.walkerTaken s (Claims.withStrand s1 { s1.strand with
      nq := [{ e with step := if read then e.step + 1 else e.step
                      prog := { e.prog with walk := qs, pos := if read then [] else [1] } }] }))) ∧
  (∀ (s s1 s2 : State) (e : CEntry) (blocks : List (List Byte)), Claims.Serving s .n e 0x48 → walkerTurn s = true →
    e.prog.pos = [1] → let p := strandPort s.strand 5
    let d := walkDesc e.prog.desc
    (e.prog.walk.zipIdx.mapM fun (x, q) => resultOf p d q x) s = (.ok blocks, s1) →
    vsWriteBlock p d.result blocks.flatten s1 = (.ok (), s2) → s2.strand.nq = s.strand.nq →
    exec .resultRound s = .next (Claims.walkerTaken s (Claims.withStrand s2 { s2.strand with
      nq := [{ e with step := e.step + 1, done := true }] }))) ∧
  (∀ (s s1 s2 : State) (e : CEntry) (r : List Byte), Claims.Serving s .n e 0x4A → walkerTurn s = true →
    let p := strandPort s.strand 5
    let v := leNat ((e.prog.desc.drop 12).take 4)
    let a := leNat (e.prog.desc.take 8) + 256 * v
    readRecord p (leNat (e.prog.desc.take 8)) v s = (.ok r, s1) → s1.strand = s.strand →
    s1.pool = [] → s.strand.dumpedE = [] →
    recMalformed r v = false → recFree r = false → recTombstone r = false →
    walkWrite p (a + 6) [BitVec.ofNat 8 (recFlags r ||| 1)] s1 = (.ok (), s2) → s2.strand.nq = s.strand.nq →
    exec .walkerRound s = .next (Claims.walkerTaken s (Claims.withStrand s2 { s2.strand with
      nq := [{ e with step := 0, done := true }] }))) ∧
  (∀ (m : Nat) (a b : List Byte), distance m a b = Claims.far m a b) ∧
  (∀ (x : Int × Nat) (l : List (Int × Nat)), let lt := fun (a b : Int × Nat) => a.1 < b.1 ∨ (a.1 = b.1 ∧ a.2 < b.2)
    (insertCand x l).Perm (x :: l) ∧ (l.Pairwise lt → (∀ y ∈ l, y ≠ x) → (insertCand x l).Pairwise lt)) ∧
  (∀ (d : WalkDesc) (x : WalkQuery) (kept : List (Int × Nat)), x.hops < 2 ^ 32 → x.visited.length < 2 ^ 32 → d.k ≤ 64 →
    let b := resultBlock d x kept
    let n := min d.k kept.length
    b.length = 16 + 8 * d.k ∧ leNat (b.take 4) = n ∧ leNat ((b.drop 4).take 4) = x.hops ∧
    leNat ((b.drop 8).take 4) = x.visited.length ∧
    leNat ((b.drop 12).take 4) = (if x.limit then 1 else 0) + (if n < d.k then 2 else 0) + (if x.malformed then 4 else 0) ∧
    ∀ j, j < d.k → leNat ((b.drop (16 + 8 * j)).take 4) = match (kept.take d.k)[j]? with
      | some c => c.2 % 2 ^ 32
      | none => 0xFFFFFFFF)) : Prop) ∧
  (((∀ (q : KvSeq) (l h b : Nat) (s : State), (q.n ≤ b → ∃ t, blockAddr q l h b s = (.error (.trap t), s) ∧ t.cause = 0x05) ∧
    (∀ base len stride rest, q.exts = (base, len, stride) :: rest → b < q.n → b < len →
      blockAddr q l h b s = (.ok (base + l * q.ls + b * stride + h * q.bs), s))) ∧
  (∀ (s s1 : State) (e : CEntry) (k : KvStep), Claims.Serving s .c e 0x41 → Claims.CopyTurn s →
    let p := strandPort s.strand 4
    let f := natBits e.b.toNat 39 32
    let r := sessionOf e.prog.desc e.prog.list
    (sessionSteps r f (r.q.nl - f))[e.step]? = some k →
    setRepair p r.q k.l k.h k.b 1 s = (.ok (), s1) → s1.strand.cq = s.strand.cq →
    exec .kvStep s = .next (Claims.turnTaken s 2 (Claims.withStrand s1 { s1.strand with
      cq := [{ e with step := e.step + 1, done := false }] }))) ∧
  (∀ (s s1 : State) (p : Port) (q : KvSeq) (l h b a old st : Nat), blockAddr q l h b s = (.ok a, s) →
    vsReadNat p (a + q.side + 0x30) 1 s = (.ok old, s) → old < 256 → st < 8 →
    vsWriteBlock p (a + q.side + 0x30) [BitVec.ofNat 8 (old % 2 + 2 * st + old / 16 * 16)] s = (.ok (), s1) →
    setRepair p q l h b st s = (.ok (), s1)) ∧
  (∀ (s s1 : State) (e : CEntry) (k : KvStep), Claims.Serving s .c e 0x43 → Claims.CopyTurn s →
    let p := strandPort s.strand 4
    let d := e.prog.desc
    let q := seqOf e.prog.list
    (sealPlan q d)[e.step]? = some k → sealBlock p q k s = (.ok (), s1) →
    s1.strand.cq = s.strand.cq → exec .kvStep s = .next (Claims.turnTaken s 2 (Claims.withStrand s1 { s1.strand with
      cq := [{ e with step := e.step + 1, done := decide ((sealPlan q d).length ≤ e.step + 1) }] }))) ∧
  (∀ (s : State) (p : Port) (q : KvSeq) (k : KvStep) (a : Nat) (blk : List Byte), blockAddr q k.l k.h k.b s = (.ok a, s) →
    vsReadBlock p a q.bs s = (.ok blk, s) → isSealed (repairByte q blk) = true → sealBlock p q k s = (.ok (), s)) ∧
  (∀ (s s1 : State) (n : Nat) (d : Session) (o : Strand) (x : Word) (rest : List Word) (toks : List Nat)
    (bs qb : List Byte) (bits : Nat), s.hub.sessions[n]? = some d → d.pending = x :: rest → d.owner.bind (findStrand s) = some o →
    x ≠ 0xFFFFFFFF#64 → let p := contextPort d.asid d.root.toNat false 4 none
    readSession p d.addr.toNat s = (.ok (bs, qb), s) → let r := sessionOf bs qb
    let q := sessionTarget r.target
    (tokens o .c q = 15 → exec (.darnerListWrite n) s = .next s) ∧
    (tokens o .c q ≠ 15 → splicedTokens p r r.f s = (.ok toks, s) → bitmapOf p r s = (.ok bits, s) →
      let l := markedOf bits toks
      vsWriteBlock p (r.list + 0x4100 * (x.toNat % 2)) (leBytes 4 x.toNat ++ leBytes 4 l.length ++ leBytes 8 0 ++
        (l.map (leBytes 4)).flatten) s = (.ok (), s1) → s1.hub = s.hub →
      ∃ t, exec (.darnerListWrite n) s = .next t ∧ t.hub.sessions = s.hub.sessions.set n { d with pending := rest } ∧
        (Claims.RingOff s1 → t.mem.bytes = s1.mem.bytes))) ∧
  (∀ (s : State) (n : Nat) (d : Session), s.hub.sessions[n]? = some d →
    (∀ o, d.owner.bind (findStrand s) = some o → o.state ≠ .exited → exec (.repairSessionAbandon n) s = .next s) ∧
    (d.owner = none → exec (.repairSessionAbandon n) s = .next s) ∧
    (∀ i, d.owner = some i → (∀ o, findStrand s i = some o → o.state = .exited) → ∃ t, exec (.repairSessionAbandon n) s = .next t ∧
      t.hub.sessions = s.hub.sessions.eraseIdx n ∧ t.strand.x = s.strand.x))) : Prop)

/-! ## Messages and the mesh -/

namespace Sys2Proof.Claims

/-- The 16-byte header of a Garzar message with its entries (R329). -/
def garzar (kind count seq src dst ctx : Nat) (data : List Word) : List Byte :=
  leBytes 1 kind ++ leBytes 1 count ++ leBytes 2 seq ++ leBytes 2 src ++ leBytes 2 dst ++ leBytes 2 ctx ++
    List.replicate 6 0 ++ data.flatMap fun x => leBytes 8 x.toNat

/-- What leaves the device through a link: a message with the vendor ID (R327). -/
def sent (s : State) (port : Nat) (bs : List Byte) : State :=
  { s with out := s.out ++ [{ port := port, kind := 2, addr := Config.vendorId.toNat, data := bs }] }

/-- The hub with other messages, members, discards. -/
def hubNow (s : State) (h : Hub) : State := { s with hub := h }

/-- The device, hoop and slot of a node address (R308). -/
def deviceOf (n : BitVec 16) : Nat := n.toNat / 1024
def ownNode (s : State) : Nat := ownDomain s * 1024 + s.strand.hoop * 16 + s.strand.slot * 2

/-- The strand in focus takes what is sent to a node for a context, and has room (R308). -/
def Receives (s : State) (asid : BitVec 12) (n : BitVec 16) (count : Nat) : Prop :=
  strandAt s (n.toNat / 16 % 64) (n.toNat / 2 % 8) = some s.strand ∧ s.strand.asid = asid ∧
    s.strand.state ≠ .saving ∧ s.strand.recvq.length + count ≤ 4096

/-- Only the receive queue of the strand in focus has grown, beside what `but` allows of the heads of its queues. -/
def Got (s t : State) (data : List Word) : Prop :=
  t.strand.recvq = s.strand.recvq ++ data ∧ t.strand.x = s.strand.x ∧ t.strand.csr = s.strand.csr ∧
  t.strand.pc = s.strand.pc ∧ t.mem = s.mem ∧ t.hoops = s.hoops

/-- The router of a place of the mesh: the hub's ports are at routers 0 and 7 (R324). -/
def routerOf (c : Nat) : Nat := if c = 8 then 0 else if c = 9 then 7 else c

/-- The links of a packet's way, as router and output (R324): into its router, along its row to the column of its
destination, to the other row, and out. Outputs: 0 to the stack and 1 to the hub, 2 one column on, 3 one column back,
4 the other row, 5 from the stack, 6 from the hub. -/
def wayOf (src dst : Nat) : List (Nat × Nat) :=
  let (a, b) := (routerOf src, routerOf dst)
  let row := a - a % 4
  [(a, if src < 8 then 5 else 6)] ++ ((List.range (b % 4 - a % 4)).map fun i => (row + (a % 4 + i), 2)) ++
    ((List.range (a % 4 - b % 4)).map fun i => (row + (a % 4 - i), 3)) ++
    (if a / 4 = b / 4 then [] else [(row + b % 4, 4)]) ++ [(b, if dst < 8 then 0 else 1)]

/-- The key of the free-buffer count of a link and a virtual channel (R326). -/
def countKey (l : Nat × Nat) (vc : Nat) : Nat := l.1 * 16 + l.2 * 2 + vc

/-- The flits of a packet (R325): its header's fields at their offsets, reserved bytes zero, then its payload. -/
def flitsOf (h : MeshHeader) : List (List Byte) :=
  let bs := [h.kind, h.vc, h.dest, h.source, h.unit, h.flits] ++ leBytes 2 h.tag.toNat ++ leBytes 2 h.asid.toNat ++
    List.replicate 6 0 ++ h.payload ++ List.replicate 96 0
  (List.range h.flits.toNat).map fun k => (bs.drop (32 * k)).take 32

/-- The mesh packets of R325 by kind. -/
noncomputable def meshForms : List ((MeshHeader → Instr) × Nat) :=
  [(.meshCommand, 1), (.meshTranslationRequest, 2), (.meshTranslationResponse, 3), (.meshCompletion, 4),
   (.meshFaultRecord, 5), (.meshImageData, 6)]

/-- The flits of a packet stand in the buffers of every link of its way, behind what those hold. -/
def buffered (s t : State) (h : MeshHeader) : Prop :=
  ∀ k, smRead [] t.hub.credits k = smRead [] s.hub.credits k ++
    if k ∈ (wayOf h.source.toNat h.dest.toNat).map (countKey · h.vc.toNat) then flitsOf h else []

/-- Traffic between stack c and the hub uses port A, place 8, for stacks 0, 1, 4 and 5, and port B, place 9, for the
others (R324). -/
def PortFits (c port : Nat) : Prop := (port = 8 ∧ c ∈ [0, 1, 4, 5]) ∨ (port = 9 ∧ c ∈ [2, 3, 6, 7])

/-- A packet whose fields are in range, between two stacks or a stack and its port, and for which every link of its way
has room (R324 to R326). -/
structure Fits (s : State) (h : MeshHeader) : Prop where
  one : 1 ≤ h.flits.toNat
  three : h.flits.toNat ≤ 3
  ends : (h.source.toNat < 8 ∧ h.dest.toNat < 8) ∨ PortFits h.source.toNat h.dest.toNat ∨ PortFits h.dest.toNat h.source.toNat
  vc : h.vc.toNat ≤ 1
  unit : h.unit.toNat < 32 ∨ h.unit = 0xFF
  room : ∀ l ∈ wayOf h.source.toNat h.dest.toNat, (smRead [] s.hub.credits (countKey l h.vc.toNat)).length + h.flits.toNat ≤ 8

end Sys2Proof.Claims

/-- vsend checks its nodes before it sends anything (ACC at the first bad one), then offers its active elements one at
a time to their nodes, and retires when all have been accepted; vrecv takes up to vl entries into its register group
and gives their number, as an acquire, waiting while there is none. A waiting message is accepted by the receive queue
of the addressed slot, which then holds its entries, and leaves the hub. The messages of a Garzar domain: JOIN adds a
member and is answered, ELEM gives its entries to the addressed slot and is answered by ACCEPT or BUSY, ACCEPT ends
the wait of the message it answers, BUSY marks it to be offered again, ELEM_RETRY offers it, LEAVE refuses what waits
for the device, and another type or an unknown context is discarded and counted. A packet of the base-die mesh takes
buffers of every link of its way, column first and then row, for as many flits as it has; one of another kind is
discarded and counted as well; a credit frees one buffer. Nothing else changes: R325 gives no layout for what a packet
carries, and the model takes its effect at the unit that it addresses as that unit's own event. -/
def Obligations.MessagesAndPackets : Prop :=
  (((∀ (s : State) (e : VEntry) (a b : Reg) (t : BitVec 3) (m : BitVec 1), Claims.Issues s e → Claims.Typed s.strand e (m = 1) →
    let w := sewOf e.vtype
    let g := lmulOf e.vtype
    let node := fun i => BitVec.ofNat 16 (getElem s.strand b.toNat w i)
    let act := fun i => Claims.takes s.strand (decide (m = 1)) i
    let q := Claims.popped e s
    w ∈ [16, 32, 64] → Claims.Groups [(a.toNat, g), (b.toNat, g)] →
    (∀ i, e.begun = false → e.vstart = 0 → i < e.vl → act i = true → nodeValid q s.strand.asid (node i) = false →
      (∀ j < i, act j = true → nodeValid q s.strand.asid (node j) = true) → exec (.vsend a b t m) s = .next
        (reportV e { cause := 0x05, tval := BitVec.ofNat 64 (node i).toNat, telem := BitVec.ofNat 32 i } q)) ∧
    (e.begun = true → (∀ x ∈ q.hub.messages, x.sender = s.strand.id → x.queue ≠ .v) →
      ((∀ i, e.vstart ≤ i → i < e.vl → act i = false) → exec (.vsend a b t m) s = .next (retireV q)) ∧
      (∀ i, e.vstart ≤ i → i < e.vl → act i = true → (∀ j, e.vstart ≤ j → j < i → act j = false) →
        (∀ x ∈ q.hub.messages, x.sender = s.strand.id → x.dst ≠ node i) → Claims.deviceOf (node i) = ownDomain q →
        let src := BitVec.ofNat 16 (Claims.ownNode q)
        let key := src.toNat * 65536 + (node i).toNat
        let k := smRead 0 q.hub.sequences key
        exec (.vsend a b t m) s = .next (Claims.hubNow
          (Claims.withStrand q { q.strand with vq := q.strand.vq.modifyHead fun x => { x with vstart := i } })
          { q.hub with
            messages := q.hub.messages ++ [{
              src := src, dst := node i, asid := s.strand.asid, data := [BitVec.ofNat 64 (getElem s.strand a.toNat w i)]
              seq := BitVec.ofNat 16 k, sent := false, busy := false, port := 0, refused := false, sender := s.strand.id
              queue := .v }]
            sequences := smWrite 0 q.hub.sequences key (k + 1) })))) ∧
  (∀ (s : State) (e : VEntry) (d a : Reg) (t : BitVec 3), Claims.Issues s e → Claims.Typed s.strand e false →
    let w := sewOf e.vtype
    let g := lmulOf e.vtype
    let n := min e.vl s.strand.recvq.length
    let q := Claims.popped e s
    8 ≤ w → e.vstart = 0 → Claims.Groups [(a.toNat, g)] →
    (e.vl = 0 → exec (.vrecv d a t) s = .next (retireV (Claims.result q d 0 0))) ∧
    (0 < e.vl → s.strand.recvq = [] → exec (.vrecv d a t) s = .next (Claims.withStrand q { q.strand with
      vq := q.strand.vq.modifyHead fun x => { x with begun := true } })) ∧
    (0 < e.vl → s.strand.recvq ≠ [] → ∃ u : Strand, exec (.vrecv d a t) s = .next (retireV
        (Claims.result (Claims.withStrand (dropBuffers s.strand.hoop q) { u with recvq := s.strand.recvq.drop n }) d
          (BitVec.ofNat 64 n) 0)) ∧
      Claims.OnlyGroup q.strand u a.toNat g ∧ u.csr = s.strand.csr ∧
      ∀ i, i < vlmax (rg s.strand) e.vtype → getElem u a.toNat w i =
        match (s.strand.recvq.take n)[i]? with
        | some x => x.toNat % 2 ^ w
        | none => if e.vtype.getLsbD 8 then 0 else getElem s.strand a.toNat w i)) ∧
  (∀ (s : State) (n : Nat) (m : Msg), s.hub.messages[n]? = some m → m.sent = false →
    (Claims.Receives s m.asid m.dst m.data.length → ∃ t, exec (.messageAccept n) s = .next t ∧
      t.hub.messages = s.hub.messages.eraseIdx n ∧ Claims.Got s t m.data ∧
      (m.sender ≠ s.strand.id → t.strand.vq = s.strand.vq)) ∧
    (strandAt s (m.dst.toNat / 16 % 64) (m.dst.toNat / 2 % 8) = none → exec (.messageAccept n) s = .next s))) : Prop) ∧
  (((∀ (s : State) (port : Nat) (h : GarzarHeader), (contextOfTag s h.context).isSome = true →
    (h.kind = 1 → let d := Claims.deviceOf h.source
      exec (.join port h) s = .next (Claims.sent (Claims.hubNow s { s.hub with
        members := if d ∈ s.hub.members then s.hub.members else s.hub.members ++ [d] }) port
        (Claims.garzar 1 0 h.sequence.toNat (ownDomain s * 1024) h.source.toNat h.context.toNat []))) ∧
    (h.kind = 4 → exec (.busy port h) s = .next (Claims.hubNow s { s.hub with messages := s.hub.messages.map fun m =>
      if m.sent = true ∧ m.seq = h.sequence ∧ m.src = h.source ∧ m.dst = h.dest then { m with busy := true } else m })) ∧
    (h.kind = 5 → let d := Claims.deviceOf h.source
      exec (.leave port h) s = .next (Claims.hubNow s { s.hub with
        members := s.hub.members.filter fun x => x ≠ d
        messages := s.hub.messages.map fun m =>
          if m.sent = true ∧ Claims.deviceOf m.dst = d then { m with refused := true } else m })) ∧
    (∀ m, h.kind = 3 → m ∈ s.hub.messages → m.sent = true → m.seq = h.sequence → m.src = h.source → m.dst = h.dest →
      ∃ t, exec (.accept port h) s = .next t ∧ t.hub.messages = s.hub.messages.filter (fun x =>
        !(x.sent && decide (x.seq = h.sequence) && decide (x.src = h.source) && decide (x.dst = h.dest))) ∧
        Claims.Got s t [] ∧ t.out = s.out)) ∧
  (∀ (s : State) (port : Nat) (h : GarzarHeader),
    (h.kind ∉ [1, 2, 3, 4, 5] → exec (.garzarOtherType port h) s = .next (Claims.hubNow s { s.hub with
      discarded := s.hub.discarded + 1 }))) ∧
  (∀ (s : State) (port : Nat) (h : GarzarHeader) (i : Instr),
    (i, h.kind) ∈ [(Instr.join port h, 1), (.accept port h, 3), (.busy port h, 4), (.leave port h, 5)] ∨
      i = .garzarOtherType port h → contextOfTag s h.context = none →
    exec i s = .next (Claims.hubNow s { s.hub with discarded := s.hub.discarded + 1 })) ∧
  (∀ (s : State) (port : Nat) (h : GarzarHeader) (data : List Word), h.kind = 2 → h.count.toNat = data.length →
    data.length ≤ 64 → let answer := fun k => Claims.garzar k 0 h.sequence.toNat h.source.toNat h.dest.toNat h.context.toNat []
    (contextOfTag s h.context = none → exec (.elem port h data) s = .next (Claims.hubNow s { s.hub with
      discarded := s.hub.discarded + 1 })) ∧
    (∀ asid, contextOfTag s h.context = some asid → Claims.deviceOf h.dest = ownDomain s → h.dest.getLsbD 0 = false →
      (Claims.Receives s asid h.dest data.length → ∃ t, exec (.elem port h data) s = .next (Claims.sent t port (answer 3)) ∧
        Claims.Got s t data ∧ t.hub.messages = s.hub.messages ∧ t.hub.members = s.hub.members) ∧
      (strandAt s (h.dest.toNat / 16 % 64) (h.dest.toNat / 2 % 8) = none →
        exec (.elem port h data) s = .next (Claims.sent s port (answer 4))))) ∧
  (∀ (s : State) (n : Nat) (m : Msg), s.hub.messages[n]? = some m → m.sent = true → m.busy = true → m.refused = false →
    exec (.elemRetry n) s = .next (Claims.sent (Claims.hubNow s { s.hub with
      messages := s.hub.messages.set n { m with busy := false } }) m.port
      (Claims.garzar 2 m.data.length m.seq.toNat m.src.toNat m.dst.toNat (ctxDomain s m.asid.toNat) m.data)))) : Prop) ∧
  (((∀ p ∈ Claims.meshForms, ∀ (h : MeshHeader) (s : State), h.kind.toNat = p.2 → Claims.Fits s h →
    ∃ t, exec (p.1 h) s = .next t ∧ t = Claims.hubNow s { s.hub with credits := t.hub.credits } ∧ Claims.buffered s t h) ∧
  (∀ (h : MeshHeader) (s : State), h.kind.toNat ∉ [1, 2, 3, 4, 5, 6] → Claims.Fits s h →
    ∃ t, exec (.meshOtherKind h) s = .next t ∧ Claims.buffered s t h ∧
      t = Claims.hubNow s { s.hub with credits := t.hub.credits, discarded := s.hub.discarded + 1 }) ∧
  (∀ (r o vc : Nat) (s : State), let key := Claims.countKey (r, o) vc
    ∃ t, exec (.meshCredit r o vc) s = .next t ∧ t = Claims.hubNow s { s.hub with credits := t.hub.credits } ∧
    (smRead [] t.hub.credits key).length = (smRead [] s.hub.credits key).length - 1 ∧
    ∀ k, k ≠ key → smRead [] t.hub.credits k = smRead [] s.hub.credits k)) : Prop)

/-! ## The stack units -/

namespace Sys2Proof.Claims

/-- Lane l of register n of a unit (R314). -/
def lane (u : StackUnit) (n : Reg) (l : Nat) : Nat := (smRead 0 u.n (n.toNat * 64 + l)).toNat

/-- The unit whose turn it is runs a command and stands at an entry. -/
structure UnitRuns (s : State) (u : StackUnit) (c : SuCmd) : Prop where
  own : unitOf s s.curUnit = u
  range : s.curUnit < 256
  cmd : u.running = some c
  on : u.started = true
  flat : u.loop1 = none ∧ u.loop2 = none

/-- The unit after an instruction that changes what `u'` says and goes on to the next entry. -/
def goesOn (s : State) (u u' : StackUnit) : State := setUnit s.curUnit { u' with entry := u.entry + 1 } s

/-- Every lane of one register becomes a function of the lane's number, and no other register changes. -/
def Lanes (u u' : StackUnit) (d : Reg) (f : Nat → Nat) : Prop :=
  (∀ l < 64, lane u' d l = f l % 2 ^ 32) ∧
  (∀ k, k < d.toNat * 64 ∨ d.toNat * 64 + 64 ≤ k → smRead 0 u'.n k = smRead 0 u.n k) ∧ u' = { u with n := u'.n }

/-- RNE without saturation. -/
def nearest : Round := { mode := .rne, sat := false }

/-- The lane instructions of two sources (R316), on the lanes of a, b and the old d. -/
noncomputable def unitForms2 : List ((Reg → Reg → Reg → Instr) × (Nat → Nat → Nat → Nat)) :=
  [(.suAdd, fun x y _ => (fadd .fp32 nearest x y).1), (.suSub, fun x y _ => (fsub .fp32 nearest x y).1),
   (.suMul, fun x y _ => (fmul .fp32 nearest x y).1), (.suFma, fun x y d => (fma .fp32 nearest false x y d).1),
   (.suFms, fun x y d => (fma .fp32 nearest true x y d).1), (.suMin, fun x y _ => (fminmax .fp32 false x y).1),
   (.suMax, fun x y _ => (fminmax .fp32 true x y).1), (.suAnd, fun x y _ => x &&& y), (.suOr, fun x y _ => x ||| y),
   (.suXor, fun x y _ => x ^^^ y)]

/-- Those of one source: the magnitude without its sign, approximations, and a copy. -/
noncomputable def unitForms1 : List ((Reg → Reg → Instr) × (Nat → Nat)) :=
  [(.suAbs, fun x => x % 2 ^ 31), (.suRcp, fun x => (fapprox .fp32 .rcp false x).1),
   (.suRsqrt, fun x => (fapprox .fp32 .rsqrt false x).1), (.suMov, fun x => x)]

/-- The conversions (R316): FP32 to INT32, back, to BF16, from BF16, from FP16, to FP16. -/
def unitConversion (c x : Nat) : Nat :=
  if c = 0 then (toInt 32 true .rne (Fmt.fp32.val x)).1
  else if c = 1 then (rnd .fp32 .rne false (Val.ofInt (sgn 32 x))).1
  else if c = 2 then (rnd .bf16 .rne false (Fmt.fp32.val x)).1
  else if c = 3 then (rnd .fp32 .rne false (Fmt.bf16.val (x % 2 ^ 16))).1
  else if c = 4 then (rnd .fp32 .rne false (Fmt.fp16.val (x % 2 ^ 16))).1
  else (rnd .fp16 .rne false (Fmt.fp32.val x)).1

/-- The relations of cmp (R316). -/
def unitRelation (r : BitVec 2) : FRel := if r = 0 then .eq else if r = 1 then .lt else .le

/-- A command at the head of an idle, active unit's queue, whose context is not descheduled. -/
structure Starts1 (s : State) (n : Nat) (c : SuCmd) (rest : List SuCmd) (type : Nat) : Prop where
  range : n < 256
  idle : (unitOf s n).running = none
  active : (unitOf s n).power = .active
  queue : (unitOf s n).queue = c :: rest
  calm : s.hub.quiesce = false
  on : c.asid ∉ s.hub.descheduled
  type : (c.bytes.take 1).map BitVec.toNat = [type]

/-- The state once a unit holds a command. -/
def holds1 (s : State) (n : Nat) (c : SuCmd) (rest : List SuCmd) : State :=
  setUnit n { unitOf s n with running := some c, started := false, queue := rest, idx1 := 0, idx2 := 0 } s

/-- A unit that the context of a command has taken: one of another owner is zero throughout (R314, R319). -/
def owns1 (c : SuCmd) (u : StackUnit) : StackUnit :=
  if u.owner = some c.asid then u else
    { u with n := [], k := Vector.replicate 4 0, p := Vector.replicate 8 0, c := Vector.replicate 16 0
             buf := Vector.replicate 96 0, owner := some c.asid }

/-- A command is complete (R321): its packet's counter, if it names one, has counted it, no other counter has changed, and
the graph node that posted it runs no more. -/
def Counted (c : SuCmd) (s t : State) : Prop :=
  let w := leNat ((c.bytes.drop 4).take 2)
  (natBits w 15 15 = 1 → t.hub.counters = s.hub.counters) ∧
  (∀ v, natBits w 15 15 = 0 → smGet s.hub.counters (natBits w 11 0) = some v → v.final = false →
    ∃ v', smGet t.hub.counters (natBits w 11 0) = some v' ∧ v'.count = v.count + 1 ∧ v'.cancelled = v.cancelled ∧
      v'.final = decide (v.expected ≤ (v.count + 1).toNat)) ∧
  (∀ k, k ≠ natBits w 11 0 → smGet t.hub.counters k = smGet s.hub.counters k) ∧
  ∀ g n x, c.node = some (g, n) → x ∈ t.hub.graphs → x.counter = g → smGet x.nodes n ≠ some .running

/-- The program of a command is loaded into a unit, which its context has taken first (R319). -/
def Loaded (n : Nat) (c : SuCmd) (s t : State) : Prop :=
  let s0 := setUnit n (owns1 c (unitOf s n)) s
  let len := leNat ((c.bytes.drop 2).take 2)
  ∃ bs s1, unitRead (unitPort c) (leNat ((c.bytes.drop 16).take 8)) (4 * len) s0 = (.ok bs, s1) ∧ s1.units = s0.units ∧
    bs.length = 4 * len ∧
    let word (i : Fin 96) : BitVec 32 :=
      if i.val < len then BitVec.ofNat 32 (leNat ((bs.drop (4 * i)).take 4)) else (unitOf s1 n).buf[i]
    t = setUnit n { unitOf s1 n with buf := Vector.ofFn word } s1

/-- Only one unit of a state is another afterwards. -/
def OnlyUnit (s t : State) (n : Nat) : Prop := t = { s with units := t.units } ∧ ∀ m, m ≠ n → unitOf t m = unitOf s m

end Sys2Proof.Claims

/-- The lane instructions of a stack unit compute every lane of n[d] and nothing else; cmp writes a lane mask, sel
chooses by one, bc gives every lane a counter register, padd a pointer; each goes on to the next entry, and an operand
outside its range stops the unit with cause 3. ld and st move the 256 bytes at p[a] between memory in the unit's own
channel and the lanes of n[d], and move the pointer on by 256 with inc; a misaligned pointer, or one that crosses 4
KiB, is cause 5, a poisoned line cause 1 with the line's address. lp1 and lp2 start loops, or go past the body when
the count is 0; the last entry of a body goes back until the count is used up, with its index; end completes the
command and counts its counter. -/
def Obligations.UnitPrograms : Prop :=
  ((∀ (s : State) (u : StackUnit) (c : SuCmd), Claims.UnitRuns s u c →
    (∀ p ∈ Claims.unitForms2, ∀ d a b : Reg,
      (d.toNat < 24 → a.toNat < 24 → b.toNat < 24 → ∃ u', exec (p.1 d a b) s = .next (Claims.goesOn s u u') ∧
        Claims.Lanes u u' d fun l => p.2 (Claims.lane u a l) (Claims.lane u b l) (Claims.lane u d l)) ∧
      (24 ≤ d.toNat ∨ 24 ≤ a.toNat ∨ 24 ≤ b.toNat →
        exec (p.1 d a b) s = .next (unitFault s.curUnit 3 u.entry 0 s.fetched s))) ∧
    (∀ p ∈ Claims.unitForms1, ∀ d a : Reg,
      (d.toNat < 24 → a.toNat < 24 → ∃ u', exec (p.1 d a) s = .next (Claims.goesOn s u u') ∧
        Claims.Lanes u u' d fun l => p.2 (Claims.lane u a l)) ∧
      (24 ≤ d.toNat ∨ 24 ≤ a.toNat → exec (p.1 d a) s = .next (unitFault s.curUnit 3 u.entry 0 s.fetched s))) ∧
    (∀ (d a : Reg) (k : BitVec 4),
      (d.toNat < 24 → a.toNat < 24 → k.toNat < 6 → ∃ u', exec (.suCvt d a k) s = .next (Claims.goesOn s u u') ∧
        Claims.Lanes u u' d fun l => Claims.unitConversion k.toNat (Claims.lane u a l)) ∧
      (24 ≤ d.toNat ∨ 24 ≤ a.toNat ∨ 6 ≤ k.toNat →
        exec (.suCvt d a k) s = .next (unitFault s.curUnit 3 u.entry 0 s.fetched s))) ∧
    (∀ (d a b : Reg) (k : BitVec 2),
      (d.toNat < 24 → a.toNat < 24 → b.toNat < 24 → ∃ u', exec (.suSel d a b k) s = .next (Claims.goesOn s u u') ∧
        Claims.Lanes u u' d fun l =>
          if (u.k.toList.getD k.toNat 0).getLsbD l then Claims.lane u a l else Claims.lane u b l) ∧
      (24 ≤ d.toNat ∨ 24 ≤ a.toNat ∨ 24 ≤ b.toNat →
        exec (.suSel d a b k) s = .next (unitFault s.curUnit 3 u.entry 0 s.fetched s))) ∧
    (∀ (d a : Reg),
      (d.toNat < 24 → a.toNat < 16 → ∃ u', exec (.suBc d a) s = .next (Claims.goesOn s u u') ∧
        Claims.Lanes u u' d fun _ => (u.c.toList.getD a.toNat 0).toNat) ∧
      (24 ≤ d.toNat ∨ 16 ≤ a.toNat → exec (.suBc d a) s = .next (unitFault s.curUnit 3 u.entry 0 s.fetched s))) ∧
    (∀ (d a b : Reg) (r : BitVec 2),
      (d.toNat < 4 → a.toNat < 24 → b.toNat < 24 → r ≠ 3 →
        ∃ m : BitVec 64, exec (.suCmp d a b r) s = .next (Claims.goesOn s u { u with k := u.k.setIfInBounds d.toNat m }) ∧
          ∀ l < 64, m.getLsbD l =
            (fcompare .fp32 (Claims.unitRelation r) (Claims.lane u a l) (Claims.lane u b l)).1) ∧
      (4 ≤ d.toNat ∨ 24 ≤ a.toNat ∨ 24 ≤ b.toNat ∨ r = 3 →
        exec (.suCmp d a b r) s = .next (unitFault s.curUnit 3 u.entry 0 s.fetched s))) ∧
    (∀ (d a : Reg) (i : BitVec 11),
      (d.toNat < 8 → a.toNat < 8 → i.toNat % 4 = 0 → exec (.suPadd d a i) s = .next (Claims.goesOn s u { u with
        p := u.p.setIfInBounds d.toNat (u.p.toList.getD a.toNat 0 + i.signExtend 48) })) ∧
      (8 ≤ d.toNat ∨ 8 ≤ a.toNat ∨ i.toNat % 4 ≠ 0 →
        exec (.suPadd d a i) s = .next (unitFault s.curUnit 3 u.entry 0 s.fetched s))) ∧
    (∀ (d a : Reg) (i : BitVec 1), 24 ≤ d.toNat ∨ 8 ≤ a.toNat → ∀ x ∈ [Instr.suLd d a i, .suSt d a i],
      exec x s = .next (unitFault s.curUnit 3 u.entry 0 s.fetched s))) : Prop) ∧
  (((∀ (s : State) (u : StackUnit) (c : SuCmd), Claims.UnitRuns s u c →
    (∀ (d a : Reg) (i : BitVec 1), d.toNat < 24 → a.toNat < 8 → let va := (u.p.toList.getD a.toNat 0).toNat
      let moved := fun (x : StackUnit) => if i = 1 then
        { x with p := x.p.setIfInBounds a.toNat (BitVec.ofNat 48 (va + 256)) } else x
      (va % 4 ≠ 0 ∨ 4096 < va % 4096 + 256 → ∀ x ∈ [Instr.suLd d a i, .suSt d a i],
        exec x s = .next (unitFault s.curUnit 5 u.entry va s.fetched s)) ∧
      (∀ s1 s2 pl bs, lanePlace (unitPort c) s.curUnit va false s = (.ok pl, s1) →
        (∀ o < 256, placePoisoned s { pl with pa := pl.pa + o } 1 = false) →
        readPlace pl 256 s1 = (.ok bs, s2) → bs.length = 256 → ∃ u',
        exec (.suLd d a i) s = .next (setUnit s.curUnit { (moved u') with entry := u.entry + 1 } s2) ∧
        Claims.Lanes u u' d fun l => leNat ((bs.drop (4 * l)).take 4)) ∧
      (∀ s1 pl o, lanePlace (unitPort c) s.curUnit va false s = (.ok pl, s1) → o < 256 → va + o < 2 ^ 48 →
        placePoisoned s { pl with pa := pl.pa + o } 1 = true →
        (∀ j < o, placePoisoned s { pl with pa := pl.pa + j } 1 = false) → ∃ s2, exec (.suLd d a i) s = .next
          (unitFault s.curUnit 1 u.entry ((va + o) / 64 * 64) s.fetched s2)) ∧
      (∀ s1 s2 pl, lanePlace (unitPort c) s.curUnit va true s = (.ok pl, s1) →
        writePlace (unitPort c) pl ((List.range 64).flatMap fun l => leBytes 4 (Claims.lane u d l)) s1 = (.ok (), s2) →
        exec (.suSt d a i) s = .next (setUnit s.curUnit { (moved u) with entry := u.entry + 1 } s2))) ∧
    (∀ (a : Reg) (n : BitVec 11), a.toNat < 16 → 1 ≤ n.toNat → u.entry + n.toNat ≤ 95 →
      let k := (u.c.toList.getD a.toNat 0).toNat
      exec (.suLp1 a n) s = .next (setUnit s.curUnit (if k = 0 then
          { u with idx1 := 0, idx2 := 0, entry := u.entry + n.toNat + 1 }
        else { u with idx1 := 0, idx2 := 0, loop1 := some (u.entry + 1, u.entry + n.toNat, k), entry := u.entry + 1 }) s)) ∧
    (∀ (a : Reg) (n : BitVec 11), n.toNat = 0 ∨ 95 < u.entry + n.toNat ∨ 16 ≤ a.toNat →
      ∀ x ∈ [Instr.suLp1 a n, .suLp2 a n], exec x s = .next (unitFault s.curUnit 3 u.entry 0 s.fetched s)) ∧
    (∀ (a : Reg) (n : BitVec 11), exec (.suLp2 a n) s = .next (unitFault s.curUnit 3 u.entry 0 s.fetched s)) ∧
    (∃ t, exec .suEnd s = .next t ∧ (unitOf t s.curUnit).running = none ∧ (unitOf t s.curUnit).n = u.n ∧
      Claims.Counted c s t ∧ t.strand = s.strand ∧ (Claims.RingOff s → t.mem.bytes = s.mem.bytes))) ∧
  (∀ (s : State) (u : StackUnit) (c : SuCmd) (a : Reg) (n : BitVec 11) (f l k : Nat), unitOf s s.curUnit = u →
    s.curUnit < 256 → u.running = some c → u.started = true → u.loop1 = some (f, l, k) → u.loop2 = none → a.toNat < 16 →
    1 ≤ n.toNat → u.entry + n.toNat ≤ min 95 l → let m := (u.c.toList.getD a.toNat 0).toNat
    exec (.suLp1 a n) s = .next (unitFault s.curUnit 3 u.entry 0 s.fetched s) ∧
    exec (.suLp2 a n) s = .next (setUnit s.curUnit (if m = 0 then afterEntry (u.entry + n.toNat) { u with idx2 := 0 }
      else { u with idx2 := 0, loop2 := some (u.entry + 1, u.entry + n.toNat, m), entry := u.entry + 1 }) s)) ∧
  (∀ (u : StackUnit) (f l k : Nat), u.loop1 = some (f, l, k) → u.loop2 = none →
    (∀ i, i ≠ l → afterEntry i u = { u with entry := i + 1 }) ∧
    (1 < k → afterEntry l u = { u with loop1 := some (f, l, k - 1), idx1 := u.idx1 + 1, entry := f }) ∧
    (k ≤ 1 → afterEntry l u = { u with loop1 := none, idx1 := u.idx1 + 1, entry := l + 1 })) ∧
  (∀ (u : StackUnit) (f l k : Nat), u.loop2 = some (f, l, k) →
    (1 < k → afterEntry l u = { u with loop2 := some (f, l, k - 1), idx2 := u.idx2 + 1, entry := f }) ∧
    (k ≤ 1 → afterEntry l u = afterEntry l { u with loop2 := none, idx2 := u.idx2 + 1 }))) : Prop)

/-- A unit takes the commands of its queue one at a time: LOAD PROGRAM puts its words into the buffer, clearing all for a
new owner, and counts its counter; RUN loads the program where it says so, clears n and k unless it keeps them, loads
pointers and counters, and starts at entry 0; SPILL writes the unit's image; a RUN without load, or a SPILL, of a unit that the context does not own is cause 7. A fault leaves the unit
idle, its context descheduled and its strands asked to stop, and is a node fault of the node that posted the command;
rescheduling takes the context off the list. -/
def Obligations.UnitCommands : Prop :=
  (∀ (s : State) (n : Nat) (c : SuCmd) (rest : List SuCmd),
    (∀ s1 : State, Claims.Starts1 s n c rest 1 → leNat ((c.bytes.drop 2).take 2) ≤ 96 →
      Claims.Loaded n c (Claims.holds1 s n c rest) s1 → ∃ t, exec (.loadProgram n) s = .next t ∧
        unitOf t n = { unitOf s1 n with running := none, started := false } ∧ (∀ m, m ≠ n → unitOf t m = unitOf s m) ∧
        Claims.Counted c s1 t ∧ t.strand = s1.strand ∧ (Claims.RingOff s1 → t.mem.bytes = s1.mem.bytes)) ∧
    (∀ (f : Byte) (img : List Byte) (s1 s3 : State), Claims.Starts1 s n c rest 2 → (c.bytes.drop 1).take 1 = [f] →
      let h := Claims.holds1 s n c rest
      (if f.getLsbD 1 then leNat ((c.bytes.drop 2).take 2) ≤ 96 ∧ Claims.Loaded n c h s1
        else s1 = h ∧ (unitOf s n).owner = some c.asid) →
      let s2 := if f.getLsbD 0 then s1 else setUnit n { unitOf s1 n with n := [], k := Vector.replicate 4 0 } s1
      unitRead (unitPort c) (leNat ((c.bytes.drop 24).take 8)) 128 s2 = (.ok img, s3) → s3.units = s2.units →
      (∀ k < 8, (img.drop (8 * k + 6)).take 2 = [0, 0]) → ∃ t u', exec (.run n) s = .next t ∧ unitOf t n = u' ∧
        Claims.OnlyUnit { s3 with units := s.units } t n ∧
        u' = { unitOf s2 n with p := u'.p, c := u'.c, started := true, entry := 0, loop1 := none, loop2 := none } ∧
        (∀ k < 8, u'.p.toList.getD k 0 = BitVec.ofNat 48 (leNat ((img.drop (8 * k)).take 6))) ∧
        ∀ k < 16, u'.c.toList.getD k 0 = BitVec.ofNat 32 (leNat ((img.drop (64 + 4 * k)).take 4))) ∧
    ((unitOf s n).owner ≠ some c.asid →
      (∀ f : Byte, Claims.Starts1 s n c rest 2 → (c.bytes.drop 1).take 1 = [f] → f.getLsbD 1 = false →
        exec (.run n) s = .next (unitFault n 7 0xFF 0 0 (Claims.holds1 s n c rest))) ∧
      (Claims.Starts1 s n c rest 3 → exec (.spill n) s = .next (unitFault n 7 0xFF 0 0 (Claims.holds1 s n c rest)))) ∧
    (∀ s1, Claims.Starts1 s n c rest 3 → (unitOf s n).owner = some c.asid → c.node = none →
      unitOf s1 n = unitOf (Claims.holds1 s n c rest) n →
      unitWrite (unitPort c) (leNat ((c.bytes.drop 24).take 8)) (unitImage (unitOf s n)) (Claims.holds1 s n c rest) =
        (.ok (), s1) → natBits (leNat ((c.bytes.drop 4).take 2)) 15 15 = 1 →
      ∃ t, exec (.spill n) s = .next t ∧ t.mem = s1.mem ∧ t.strand = s1.strand ∧
        unitOf t n = { unitOf s n with running := none, started := false, queue := rest, idx1 := 0, idx2 := 0 })) ∧
  (∀ (s : State) (n cause entry addr : Nat) (w : Word32) (c : SuCmd), (unitOf s n).running = some c → n < 256 →
    ∃ t, (unitOf t n).running = none ∧ c.asid ∈ t.hub.descheduled ∧
      (isStrand s.strand = true → s.strand.asid = c.asid → t.strand.preempt = true) ∧ t.strand.x = s.strand.x ∧
      unitFault n cause entry addr w s = match c.node with
        | some (g, m) => nodeFault g m c.asid cause t
        | none => t) ∧
  (∀ (s : State) (a : BitVec 12), exec (.contextReschedule a) s = .next (Claims.hubNow s { s.hub with
    descheduled := s.hub.descheduled.filter fun x => x ≠ a }))

/-! ## Publish sets, the hoop partition, invalidation, and saves named by system code -/

namespace Sys2Proof.Claims

/-- The trap KEYISO of an operand (R413, R438). -/
def keyiso (n : Word) : Trap := { cause := 0x0F, tval := n, telem := 0 }

/-- No strand stands in a hoop, or lends lanes of it. -/
def Vacant (s : State) (h : Nat) : Prop := ∀ t ∈ s.strand :: s.pool, t.hoop ≠ h ∧ ∀ f ∈ t.followers, f.1 ≠ h

/-- Byte pa of the SRAM window lies in an array (R128, R390). -/
def InArray (h a pa : Nat) : Prop :=
  2 ^ 41 + h * 2 ^ 25 ≤ pa ∧ pa < 2 ^ 41 + (h + 1) * 2 ^ 25 ∧ pa / 256 % 256 = a

/-- An entry of a TLB is used for an address of a context (R131). -/
def Serves (asid : BitVec 12) (va : Nat) (x : TlbEntry) : Prop :=
  (x.asid = asid ∨ x.global = true) ∧ x.va ≤ va ∧ va < x.va + 2 ^ x.bits

/-- A result is written into a set's descriptor, from a state to another (R279, R280): state 4, the reason and the index
of the entry. -/
def Refused (p : Port) (x reason j : Nat) (s t : State) : Prop :=
  vsWriteBlock p (x + 8) (leBytes 4 4 ++ leBytes 4 (reason * 256 + j)) s = (.ok (), t)

/-- An instruction completes with the registers, sets and memory of a state, but for its trace record. -/
def Completes (s : State) (i : Instr) (s1 : State) : Prop :=
  s1.strand.dbgStep = false → ∃ t, exec i s = .next (advance t) ∧ t.strand = s1.strand ∧ t.hub.sets = s1.hub.sets ∧
    (RingOff s1 → t.mem.bytes = s1.mem.bytes)

/-- The header of a descriptor, and its entry j (R279). -/
def count (head : List Byte) : Nat := leNat (head.take 4)
def Reserved (head : List Byte) : Prop := leNat ((head.drop 4).take 4) ≠ 0 ∨ allZero head 16 48 = false
def entryAt' (body : List Byte) (j : Nat) : List Byte := (body.drop (32 * j)).take 32
def destination (body : List Byte) (j : Nat) : Nat := leNat ((entryAt' body j).take 8)

/-- The checks of entry j of a set against those below it. -/
def checked (p : Port) (body : List Byte) (j : Nat) : Act (Except Nat (Nat × Nat × Nat × Nat)) :=
  checkEntry p ((List.range j).map (destination body)) (entryAt' body j)

/-- The entries below a number pass: what each gives, from a state to another. -/
def Pass (p : Port) (body : List Byte) (n : Nat) (s : State) (es : List (Nat × Nat × Nat × Nat)) (t : State) : Prop :=
  ∃ got, Passes (checked p body) (List.range n) s got t ∧ got.map (·.2) = es.map .ok

/-- A new PTE that can be installed at a level (R280, reason 5): a valid leaf with S = 1, no reserved bit, W only with R,
and at level 2 an aligned page. -/
def NewLeaf (pte level : Nat) : Prop :=
  isLeaf pte = true ∧ pte.testBit 8 = true ∧ (level = 2 → natBits pte 29 20 = 0)

/-- The key slot of a new PTE (R280, reason 8): of HBM and the channel view one that the context owns, else slot 0. -/
def KeyFits (s : State) (asid : BitVec 12) (pte : Nat) : Prop :=
  match regionOf (natBits pte 53 20 * 2 ^ 18) with
  | .hbm _ => (keySlot s (natBits pte 19 10)).loaded = true ∧ (keySlot s (natBits pte 19 10)).owner = asid
  | _ => natBits pte 19 10 = 0

end Sys2Proof.Claims

/-- publish validates a set: a bad count (reason 1), a reserved field (2) or a state that is not 0 (7), and then the first
entry that fails, with its index: a reserved field (2), no slot or a misaligned address (3), a slot without S (4), a bad new
PTE (5), a repeated address (6) or a foreign key slot (8), give state 4 and the reason; a set whose entries pass is
tracked as in publication, with state 1. pubwait goes on at state 2, 3 or 4, as an acquire, and else waits. A set in publication whose
writers are gone is installed: it leaves the hub, and no TLB serves a page that it installed; with a writer left nothing
happens. -/
def Obligations.PublishSets : Prop :=
  (∀ (s : State) (a : Reg), Claims.Full s.strand [a] → s.strand.dbgStep = false → let x := (readReg s.strand a).toNat
    let p := strandPort s.strand 1
    (x % 64 ≠ 0 → ∀ i ∈ [Instr.publish a, .pubwait a], exec i s = .next (frontTrap (Claims.alignTrap (readReg s.strand a)) s)) ∧
    (x % 64 = 0 → vMemBusy s.strand = true → exec (.publish a) s = .next (frontWait .uncounted s)) ∧
    (∀ (head : List Byte) (s1 : State), x % 64 = 0 → vMemBusy s.strand = false → vsReadBlock p x 64 s = (.ok head, s1) →
      let n := Claims.count head
      (∀ s2, n = 0 ∨ 64 < n → Claims.Refused p x 1 0 s1 s2 → Claims.Completes s (.publish a) s2) ∧
      (∀ (body : List Byte) (s2 : State), 1 ≤ n → n ≤ 64 → vsReadBlock p (x + 64) (32 * n) s1 = (.ok body, s2) →
        body.length = 32 * n →
        (∀ s3, Claims.Reserved head → Claims.Refused p x 2 0 s2 s3 → Claims.Completes s (.publish a) s3) ∧
        (∀ s3, ¬ Claims.Reserved head → leNat ((head.drop 8).take 4) ≠ 0 → Claims.Refused p x 7 0 s2 s3 →
          Claims.Completes s (.publish a) s3) ∧
        (¬ Claims.Reserved head → leNat ((head.drop 8).take 4) = 0 →
          (∀ j es s3 s4 s5 r, j < n → Claims.Pass p body j s2 es s3 → Claims.checked p body j s3 = (.ok (.error r), s4) →
            Claims.Refused p x r j s4 s5 → Claims.Completes s (.publish a) s5) ∧
          (∀ es s3 s4, Claims.Pass p body n s2 es s3 → s3.hub.sets.length < 256 →
            vsWriteBlock p (x + 8) (leBytes 4 1) s3 = (.ok (), s4) → (∀ d ∈ s4.hub.sets, d.addr.toNat ≠ x) →
            Claims.Completes s (.publish a) (Claims.hubNow s4 { s4.hub with sets := s4.hub.sets ++ [{
              addr := BitVec.ofNat 64 x, asid := p.asid, root := BitVec.ofNat 64 p.root, writers := 0, publishing := true
              owner := s.strand.id, entries := es }] }))))) ∧
    (∀ (v : Nat) (s1 : State), x % 64 = 0 → vsReadNat p (x + 8) 4 s = (.ok v, s1) → s1.strand.dbgStep = false →
      exec (.pubwait a) s = .next (if v = 2 ∨ v = 3 ∨ v = 4 then
        advance (dropBuffers s1.strand.hoop s1) else frontWait (.publish x) s))) ∧
  (∀ (p : Port) (below : List Nat) (bs : List Byte) (s s1 : State), let va := leNat (bs.take 8)
    let pte := leNat ((bs.drop 8).take 8)
    (leNat ((bs.drop 24).take 8) ≠ 0 → checkEntry p below bs s = (.ok (.error 2), s)) ∧
    (leNat ((bs.drop 24).take 8) = 0 →
      (2 ^ 48 ≤ va → checkEntry p below bs s = (.ok (.error 3), s)) ∧
      (va < 2 ^ 48 → findSlot p va 3 p.root s = (.ok none, s1) → checkEntry p below bs s = (.ok (.error 3), s1)) ∧
      (∀ slot level cur, va < 2 ^ 48 → findSlot p va 3 p.root s = (.ok (some (slot, level, cur)), s1) →
        let size := if level = 2 then 28 else 18
        (level = 3 ∨ (level < 3 ∧ va % 2 ^ size ≠ 0) → checkEntry p below bs s = (.ok (.error 3), s1)) ∧
        (level = 1 ∨ level = 2 → va % 2 ^ size = 0 →
          (cur.testBit 8 = false → checkEntry p below bs s = (.ok (.error 4), s1)) ∧
          (cur.testBit 8 = true → ¬ Claims.NewLeaf pte level → checkEntry p below bs s = (.ok (.error 5), s1)) ∧
          (cur.testBit 8 = true → Claims.NewLeaf pte level → va ∈ below →
            checkEntry p below bs s = (.ok (.error 6), s1)) ∧
          (cur.testBit 8 = true → Claims.NewLeaf pte level → va ∉ below → ¬ Claims.KeyFits s1 p.asid pte →
            checkEntry p below bs s = (.ok (.error 8), s1)) ∧
          (cur.testBit 8 = true → Claims.NewLeaf pte level → va ∉ below → Claims.KeyFits s1 p.asid pte →
            checkEntry p below bs s = (.ok (.ok (slot, pte, va, size)), s1)))))) ∧
  (∀ (p : Port) (va n a : Nat) (s s1 : State), let slot := a + 8 * vaIndex va (n + 1)
    (∀ t, readPte p va slot s = (.error (.trap t), s1) → findSlot p va (n + 1) a s = (.ok none, s1)) ∧
    (∀ pte, readPte p va slot s = (.ok pte, s1) →
      findSlot p va (n + 1) a s = if Claims.isTable pte = true ∧ n ≠ 0 then findSlot p va n (Claims.tableOf pte) s1
        else (.ok (some (slot, n + 1, pte)), s1))) ∧
  (∀ (s : State) (n : Nat) (d : PubSet), s.hub.sets[n]? = some d →
    (d.publishing = false ∨ d.writers ≠ 0 → exec (.publishInstallation n) s = .next s) ∧
    (d.publishing = true → d.writers = 0 → unitRuns s d.asid = false → let base := keySlot s (ctxBaseKey s d.asid.toNat)
      base.loaded = true → base.owner = d.asid → (∀ e ∈ d.entries, gatherHolds s d.asid e.2.2.1 (2 ^ e.2.2.2) = false) →
      ∃ t, exec (.publishInstallation n) s = .next t ∧ t.hub.sets = s.hub.sets.eraseIdx n ∧ t.strand.x = s.strand.x ∧
        ∀ e ∈ d.entries, (∃ h, regionOf e.1 = .hbm h) →
          ∀ hp ∈ t.hoops, ∀ x, x ∈ hp.2.tlb ∨ (∃ b ∈ hp.2.banks, x ∈ b.2) → ¬ Claims.Serves d.asid e.2.2.1 x))

/-- hpart answers a descriptor that fails a check with state 3 and the reason, and applies a valid one to a hoop without
strands at once: every slot then has its grant. A dirty array that no strand and no grant of SRAM holds is wiped: its bytes
read zero, unpoisoned, and every other byte as before. Parts that waited take effect together once their slots are free and
no other slot holds what they gain, slots that exchange arrays among them. -/
def Obligations.HoopPartition : Prop :=
  (∀ (s : State) (a : Reg) (bs : List Byte), Claims.Full s.strand [a] → s.strand.dbgStep = false → sysLevel s.strand = true →
    let x := (readReg s.strand a).toNat
    let p := strandPort s.strand 1
    x % 64 = 0 → vsReadBlock p x 512 s = (.ok bs, s) → spaceProbe p 0 (x + 2) 6 true false s = (.ok (), s) →
    (∀ r ix s1, partitionFault s bs = some (r, ix) →
      vsWriteBlock p (x + 2) (leBytes 2 3 ++ leBytes 4 (r * 256 + ix)) s = (.ok (), s1) → s1.strand.dbgStep = false →
      exec (.hpart a) s = .next (advance s1)) ∧
    (∀ h, h = (bs.headD 0).toNat →
      partitionFault s bs = none → bs.length = 512 → Claims.Vacant s h → ∃ t, exec (.hpart a) s = .next (advance t) ∧
        (hoopOf t h).waiting = none ∧ t.strand.x = s.strand.x ∧
        ∀ k < 8, (hoopOf t h).grants.toList[k]? = some (descGrant bs k))) ∧
  (∀ (s : State) (a : Reg), sysLevel s.strand = false → exec (.hpart a) s = .next (frontTrap (Claims.ill 7) s)) ∧
  (∀ (s : State) (h a : Nat), h < 48 → a < 256 → (hoopOf s h).dirty.getLsbD a = true →
    (∀ t ∈ s.strand :: s.pool, (h, a) ∉ t.arrays) → (∀ g ∈ (hoopOf s h).grants.toList, g.sram.getLsbD a = false) →
    ∃ t, exec (.arrayWipe h a) s = .next t ∧
      (∀ pa, Claims.InArray h a pa → smRead 0 t.mem.bytes pa = 0 ∧ smGet t.mem.poison (pa / 8) = none) ∧
      (∀ pa, ¬ Claims.InArray h a pa → smRead 0 t.mem.bytes pa = smRead 0 s.mem.bytes pa) ∧
      (hoopOf t h).dirty.getLsbD a = false ∧ t.strand = s.strand ∧ t.pool = s.pool ∧ t.hub = s.hub) ∧
  (∀ (s : State) (h k : Nat), (hoopOf s h).waiting = none → exec (.partitionPartApply h k) s = .next s) ∧
  (∀ (s : State) (h k : Nat) (w : PartWait), (hoopOf s h).waiting = some w → k < 8 →
    (∀ j < 8, ∀ g, w.slots.toList[j]? = some (some g) → slotOccupied s h j = false ∧
      ∀ i < 8, w.slots.toList[i]? = some none → let o := grantOf s h i
        g.arrays &&& o.arrays = 0 ∧ (g.engines &&& o.engines = 0 ∨ g.asid = o.asid)) →
    ∃ t, exec (.partitionPartApply h k) s = .next t ∧ t.strand.x = s.strand.x ∧
      ∀ j < 8, ∀ g, w.slots.toList[j]? = some (some g) → (hoopOf t h).grants.toList[j]? = some g)

/-- tlbinv drops the entries that serve an address of the context, or all of its, from every TLB and keeps the others;
keyinv erases a key slot of the context and no other, and what stream buffers hold under
it; a context other than the strand's is ACC, another's slot KEYISO, and
a number out of range ILL 6. A page walk of the hub leaves every register. ctxsave stops the strand for its save into the
area it names, ctxload puts a saved strand into the ready pool. At strand level each is ILL 7. -/
def Obligations.InvalidationAndNamedSaves : Prop :=
  (∀ (s : State) (a b : Reg), sysLevel s.strand = false →
    ∀ i ∈ [Instr.tlbinv a b, .keyinv a, .ctxsave a, .ctxload a], exec i s = .next (frontTrap (Claims.ill 7) s)) ∧
  (∀ (s : State) (a b : Reg), sysLevel s.strand = true → Claims.Full s.strand [a, b] → s.strand.dbgStep = false →
    let y := readReg s.strand b
    let all : Prop := a = 0
    let va := (readReg s.strand a).toNat
    (4096 ≤ y.toNat → exec (.tlbinv a b) s = .next (frontTrap (Claims.ill 6) s)) ∧
    (y.toNat < 4096 → y.toNat ≠ s.strand.asid.toNat → exec (.tlbinv a b) s = .next (frontTrap (Claims.acc y) s)) ∧
    (y.toNat = s.strand.asid.toNat → (∀ t ∈ s.strand :: s.pool, t.cq = [] ∧ t.dumpedE = []) → ∃ t, exec (.tlbinv a b) s = .next (advance t) ∧
      t.mem = s.mem ∧ t.strand.x = s.strand.x ∧ ∀ h x, let goes : Prop :=
          (x.asid = s.strand.asid ∨ x.global = true) ∧ (all ∨ x.va ≤ va ∧ va < x.va + 2 ^ x.bits)
        (x ∈ (hoopOf t h).tlb ↔ x ∈ (hoopOf s h).tlb ∧ ¬ goes) ∧
        ∀ b, x ∈ smRead [] (hoopOf t h).banks b ↔ x ∈ smRead [] (hoopOf s h).banks b ∧ ¬ goes)) ∧
  (∀ (s : State) (a : Reg), sysLevel s.strand = true → Claims.Full s.strand [a] → s.strand.dbgStep = false →
    let y := readReg s.strand a
    let k := keySlot s y.toNat
    (y = 0 ∨ 1024 ≤ y.toNat → exec (.keyinv a) s = .next (frontTrap (Claims.ill 6) s)) ∧
    (1 ≤ y.toNat → y.toNat < 1024 → k.owner ≠ s.strand.asid → exec (.keyinv a) s = .next (frontTrap (Claims.keyiso y) s)) ∧
    (1 ≤ y.toNat → y.toNat < 1024 → k.owner = s.strand.asid → ∃ t, exec (.keyinv a) s = .next (advance t) ∧
      keySlot t y.toNat = { loaded := false, owner := 0, epoch := k.epoch + 1, key := 0 } ∧
      (∀ j, j ≠ y.toNat → keySlot t j = keySlot s j) ∧ (∀ h, ∀ b ∈ (hoopOf t h).buffers, b.key ≠ y.toNat) ∧
      t = Claims.hubNow { s with hoops := t.hoops } { s.hub with keys := t.hub.keys }) ∧
    (y.toNat % 4096 ≠ 0 → ∀ i ∈ [Instr.ctxsave a, .ctxload a], exec i s = .next (frontTrap (Claims.alignTrap y) s)) ∧
    (y.toNat % 4096 = 0 → vMemBusy s.strand = false → (∀ r ∈ s.hub.reqs, r.strand ≠ s.strand.id) →
      s.strand.state = .running → ∃ t, exec (.ctxsave a) s = .next t ∧ t.strand.state = .saving ∧
        t.strand.saveArea = some y ∧ t.strand.saveNamed = true ∧ t.strand.resv = none ∧ t.strand.links = [] ∧
        t.strand.pc = (advance s).strand.pc ∧ t.strand.saveSec = 0 ∧ (s.strand.fePend = [] → t.strand.x = s.strand.x) ∧
        (Claims.RingOff s → t.mem.bytes = s.mem.bytes)) ∧
    (∀ (h c : List Byte) (t : Strand), y.toNat % 4096 = 0 → vMemBusy s.strand = false → let p := strandPort s.strand 1
      vsReadBlock p y.toNat 256 s = (.ok h, s) → vsReadBlock p (y.toNat + sectionStart 0 0 4) 256 s = (.ok c, s) →
      leNat ((h.drop 0x26).take 1) = 2 → leNat ((h.drop 0x24).take 2) = s.strand.asid.toNat →
      strandOfArea s s.strand.asid y (leNat ((c.drop 200).take 8) / 2 ^ 16 % 2 ^ 8, leNat ((c.drop 208).take 8)) = some t →
      t.due = false → t.id ≠ s.strand.id → s.hub.ready.length < 16384 → ∃ u, exec (.ctxload a) s = .next (advance u) ∧
        u.hub.ready.map PoolEntry.strand = s.hub.ready.map PoolEntry.strand ++ [some t.id] ∧ u.strand = s.strand ∧
        u.mem = s.mem)) ∧
  (∀ (s : State) (asid : BitVec 12) (va : Word), ∃ t, exec (.pageWalk asid va) s = .next t ∧ t.strand.x = s.strand.x ∧
    t.strand.csr = s.strand.csr ∧ t.strand.pc = s.strand.pc ∧ (ctxValid s asid.toNat = false → t = s))

/-! ## Slots, pre-emption, saves, and the scheduler -/

namespace Sys2Proof.Claims

/-- A strand that stands in a slot and can be stopped (R391). -/
def InSlot (t : Strand) : Prop := t.state = .ready ∨ t.state = .running ∨ t.state = .waiting ∨ t.state = .halted

/-- A strand as a request to stop leaves it: a second request is merged with the first (R393). -/
def requested (t : Strand) : Strand :=
  if t.preempt = true then t else { t with preempt := true, graceOut := false, graceAc := 0 }

/-- Strand i of u is t, and u is otherwise s. -/
def Changed (i : StrandId) (t : Strand) (s u : State) : Prop :=
  findStrand u i = some t ∧ (∀ j, j ≠ i → findStrand u j = findStrand s j) ∧ u = { s with strand := u.strand, pool := u.pool }

/-- An entry of the ready pool belongs to a context. -/
def EntryOf (s : State) (e : PoolEntry) (asid : BitVec 12) : Prop :=
  match e.strand, e.launch with
  | some i, _ => (findStrand s i).map Strand.asid = some asid
  | none, some c => (counterOf s c).map Counter.asid = some asid
  | none, none => (counterOf s e.graph).map Counter.asid = some asid

/-- The condition of a wait of the front is met (R39). -/
def Over (s : State) : WaitKind → Prop
  | .token a b true => tokens s.strand a b ≠ 15
  | .token a b false => tokens s.strand a b ≠ 0
  | .barrier k => s.strand.barPending.getLsbD k = false
  | .fe r => isEmpty s.strand r = false
  | .counter c n => ∀ v, counterOf s c = some v → v.final = true ∨ n ≤ v.count.toNat
  | .publish a => ∀ v, (vsReadNat { strandPort s.strand 1 with race := 0 } (a + 8) 4 s).1 = .ok v → v = 2 ∨ v = 3 ∨ v = 4
  | .message | .uncounted => True

/-- The kind that STALL reports of a wait that the watchdog counts (R38). -/
def kindOf : WaitKind → Option Nat
  | .token _ _ _ => some 0
  | .barrier _ => some 1
  | .fe _ => some 2
  | .counter _ _ => some 3
  | .publish _ => some 3
  | .message => some 4
  | .uncounted => none

/-- The strand in focus has stopped for a save (R391, R392): its registers and memory are as before. -/
def Drained (s t : State) : Prop :=
  t.strand.state = .saving ∧ t.strand.saveSec = 0 ∧ t.strand.saveOff = 0 ∧ t.strand.pc = s.strand.pc ∧ t.strand.resv = none ∧
  t.strand.links = [] ∧ t.strand.wait = none ∧
  t.strand.csr.tvcp = ((s.strand.vq.head?.map VEntry.pc).getD s.strand.pc &&& (2 ^ 48 - 1)) ∧ (s.strand.fePend = [] → t.strand.x = s.strand.x) ∧
  (RingOff s → t.mem.bytes = s.mem.bytes)

/-- An entry of the pool is changed; a job with no entry left in a level leaves its round there (R383). -/
def entrySet (s : State) (n : Nat) (e : PoolEntry) : State :=
  let r := s.hub.ready.set n e
  { s with hub := { s.hub with
      ready := r, deficits := s.hub.deficits.filter fun d => r.any fun x => x.level * 4096 + x.job = d.1 } }

/-- The blocks of lanes that each hoop offers (R421). -/
def blocksOffered (s : State) : List Nat :=
  (List.range 48).map fun h => if hoopPresent s h then bar0 s (0x80 + 8 * h) 8 % 64 else 0

/-- Bytes of a list as a number. -/
def num (bs : List Byte) (off n : Nat) : Nat := leNat ((bs.drop off).take n)

end Sys2Proof.Claims

/-- A Ready strand begins to issue with a new time slice. A strand in a slot is asked to stop when an entry of a
higher level waits that no free place can take, or when its slice is used up while an entry of its level and context
waits; when the grace is over it stops at once. An entry of the pool that has waited 2 ms rises one level, up to 6.
The strand stops for its save at a pre-emption point, and not inside a loop. A Waiting strand runs again when the
condition of its wait is met, and stays as it is when not. A wait that has lasted 2^32 ac and is not over traps STALL
with the kind and the queue in tval: of the front at its instruction, of the V queue at its head; before that nothing
happens. -/
def Obligations.SlotsAndWaits : Prop :=
  (((∀ (s : State) (i : StrandId) (t : Strand), findStrand s i = some t →
    (t.state = .ready → ∃ u, exec (.slotBeginIssue i) s = .next u ∧
      Claims.Changed i { t with state := .running, sliceAc := 0 } s u) ∧
    (t.state ≠ .ready → exec (.slotBeginIssue i) s = .next s) ∧
    (Claims.InSlot t → (∃ e ∈ s.hub.ready, t.level < e.level ∧ ∀ x ∈ poolTargets s, entryTakes s e x = false) → ∃ u, exec (.preemptionRequest i) s = .next u ∧
      Claims.Changed i (Claims.requested t) s u) ∧
    (Claims.InSlot t → s.hub.slice ≤ t.sliceAc → (∃ e ∈ s.hub.ready, e.level = t.level ∧ Claims.EntryOf s e t.asid) →
      ∃ u, exec (.timeSliceExpiry i) s = .next u ∧ Claims.Changed i (Claims.requested t) s u) ∧
    (t.sliceAc < s.hub.slice → exec (.timeSliceExpiry i) s = .next s) ∧
    (t.preempt = true → s.hub.grace ≤ t.graceAc → t.state ≠ .halted →
      ∃ u, exec (.graceExpiry i) s = .next u ∧ Claims.Changed i { t with graceOut := true } s u) ∧
    (t.graceAc < s.hub.grace → exec (.graceExpiry i) s = .next s)) ∧
  (∀ (s : State) (n : Nat) (e : PoolEntry), s.hub.ready[n]? = some e →
    (e.level < 6 → e.age + 1600000 ≤ s.ac → exec (.readyEntryAge n) s =
      .next (Claims.entrySet s n { e with level := e.level + 1, age := e.age + 1600000 })) ∧
    (6 ≤ e.level ∨ s.ac < e.age + 1600000 → exec (.readyEntryAge n) s = .next s)) ∧
  (∀ s : State, s.strand.node = none → s.strand.state = .running ∨ s.strand.state = .waiting → s.strand.preempt = true →
    s.strand.cancelled = false → s.strand.idling = false → s.strand.pending = [] →
    (∀ r ∈ s.hub.reqs, r.strand ≠ s.strand.id) →
    (s.strand.loops = [] ∨ s.strand.atLoopPoint = true ∨ s.strand.graceOut = true →
      ∃ t, exec .preemptionStop s = .next t ∧ Claims.Drained s t) ∧
    (s.strand.loops ≠ [] → s.strand.atLoopPoint = false → s.strand.graceOut = false →
      exec .preemptionStop s = .next s))) : Prop) ∧
  (((∀ (s : State) (k : WaitKind), s.strand.state = .waiting → s.strand.wait = some k →
    (Claims.Over s k → exec .waitEnd s = .next { s with strand := { s.strand with
      state := .running, wait := none, waits := s.strand.waits.set 0 0 } }) ∧
    (¬ Claims.Over s k → exec .waitEnd s = .next s)) ∧
  (∀ s : State, s.strand.state ≠ .waiting → exec .waitEnd s = .next s) ∧
  (∀ (s : State) (k : WaitKind) (c : Nat), s.strand.state = .running ∨ s.strand.state = .waiting → s.strand.node = none →
    s.strand.wait = some k → Claims.kindOf k = some c →
    (Claims.Over s k → exec (.stall 0) s = .next s) ∧
    (¬ Claims.Over s k → 2 ^ 32 ≤ s.strand.waits.get 0 → exec (.stall 0) s = .next (frontTrap
      { cause := 0x12, tval := BitVec.ofNat 64 (c * 16), telem := 0 } s)) ∧
    (s.strand.waits.get 0 < 2 ^ 32 → exec (.stall 0) s = .next s)) ∧
  (∀ (s : State) (e : VEntry) (es : List VEntry) (q : Queue), s.strand.state = .running ∨ s.strand.state = .waiting →
    s.strand.node = none → s.strand.vq = e :: es → e.done = false → isMarker e.word = false → e.popped = false →
    tkMeaning .v (tkOf e.word) = some (false, q) → tokens s.strand q .v = 0 →
    (2 ^ 32 ≤ s.strand.waits.get 1 → exec (.stall 1) s = .next { s with strand := { s.strand with
      pending := s.strand.pending ++ [{
        trap := { cause := 0x12, tval := 1, telem := 0 }, queue := .v, seq := e.seq, elem := 0 }] } }) ∧
    (s.strand.waits.get 1 < 2 ^ 32 → exec (.stall 1) s = .next s)) ∧
  (∀ s : State, s.strand.vq = [] → exec (.stall 1) s = .next s)) : Prop)

/-- Section 1 of a save area holds x1 to x31, the full bits and the pc, and a restore of it gives them back. A save without
a free area leaves a record and waits; with one, its size is checked and its header written. Each section is written at its
place, then the header with state 2, and the strand is Saved and in the ready pool, unless system code named the save. A
stopped save goes on when it is restarted. A slot that is offered to a saved strand restores it: the image's strand is
put, Ready, into the slot with the arrays of its grant. -/
def Obligations.SavesAndRestores : Prop :=
  (∀ t : Strand, (section1 t).length = 512 ∧
    (∀ r : Reg, r ≠ 0 → Claims.num (section1 t) (8 * (r.toNat - 1)) 8 = (readReg t r).toNat) ∧
    Claims.num (section1 t) 248 4 = (~~~t.empty).toNat ∧ Claims.num (section1 t) 252 8 = t.pc.toNat ∧
    (∀ b ∈ (section1 t).drop 260, b = 0)) ∧
  (∀ t t' : Strand, t.x.get 0 = 0 →
    restore1 (section1 t) t' = .ok { t' with x := t.x, empty := t.empty &&& ~~~1#32, pc := t.pc }) ∧
  (∀ (s : State) (i : StrandId) (t : Strand), findStrand s i = some t → t.state = .saving → t.saveSec = 0 →
    (∀ s1, t.saveNamed = false → freeArea (savePort t) (heldAreas s t.asid) 64 0 s = (.ok none, s1) →
      (t.saveStop = true → exec (.saveBegin i) s = .next s1) ∧
      (t.saveStop = false → exec (.saveBegin i) s = .next (saveError { t with savedEngines := enginesToSave s1 t } 3 2
        (updStrand i (fun t => { t with saveStop := true }) s1)))) ∧
    (∀ (a : Word) (h : List Byte) (s2 s3 : State), t.saveNamed = true → t.saveArea = some a →
      let t1 := { t with savedEngines := enginesToSave s t, saveSec := 1, saveOff := 0, saveStop := false, lateLists := [] }
      areaRead (savePort t1) a.toNat 256 (updStrand i (fun _ => t1) s) = (.ok h, s2) →
      requiredSize (rg t1) t1.savedEngines.length ≤ Claims.num h 8 8 →
      writeHeader t1 a.toNat 1 0 0 s2 = (.ok (), s3) → exec (.saveBegin i) s = .next s3)) ∧
  (∀ (s : State) (i : StrandId) (t : Strand) (a : Word), findStrand s i = some t → t.state = .saving → t.saveArea = some a →
    (∀ (t1 : Strand) (s1 : State), t.saveStop = false → 1 ≤ t.saveSec → t.saveSec ≤ 7 → t.saveSec ≠ 5 → t.saveOff = 0 →
      let bs := sectionBytes s t t.saveSec
      let place := a.toNat + sectionStart (rg t) t.savedEngines.length t.saveSec
      pagePieces place bs.length = [(place, bs.length)] → areaWrite (savePort t) place bs s = (.ok (), s1) →
      findStrand s1 i = some t1 → ∃ u, exec (.contextSave i) s = .next u ∧
        Claims.Changed i { t1 with saveSec := t1.saveSec + 1, saveOff := 0 } s1 u) ∧
    (∀ (h : List Byte) (t1 : Strand) (s1 : State), t.saveStop = true →
      areaRead (savePort t) a.toNat 256 s = (.ok h, s1) → requiredSize (rg t) t.savedEngines.length ≤ Claims.num h 8 8 →
      findStrand s1 i = some t1 → ∃ u, exec (.saveRestart i) s = .next u ∧
        Claims.Changed i { t1 with saveStop := false, saveSec := max 1 t1.saveSec } s1 u) ∧
    (∀ (t1 : Strand) (s1 : State), t.saveStop = false → t.saveSec = 9 → writeHeader t a.toNat 2 0 0 s = (.ok (), s1) →
      findStrand s1 i = some t1 → t.due = false → s1.hub.ready.length < 16384 → ∃ u t2, exec (.saveComplete i) s = .next u ∧ findStrand u i = some t2 ∧
        t2.state = .saved ∧ t2.x = t1.x ∧ t2.resv = none ∧ t2.links = [] ∧ t2.followers = [] ∧
        (Claims.RingOff s1 → u.mem.bytes = s1.mem.bytes) ∧
        u.hub.ready.map PoolEntry.strand =
          s1.hub.ready.map PoolEntry.strand ++ (if t.saveNamed then [] else [some i]))) ∧
  (∀ (s : State) (i : StrandId) (h k : Nat) (t : Strand) (e : PoolEntry), findStrand s i = some t → t.state = .saved →
    t.due = true → s.hub.stopped = false → t.arrays.length / 8 ≤ (if spansOf s t then (Claims.blocksOffered s).sum
      else (Claims.blocksOffered s).foldl max 0) → s.hub.graphs = [] → s.hub.ready = [e] → e.strand = some i →
    e.level < 8 → e.job < 4096 → 1 ≤ quantumOf s e.job → (∀ x ∈ s.strand :: s.pool, x.state = .saved → x.due = true →
      x.id = i) →
    slotTakes s t.asid ((findLaunch s i.launch).bind Launch.affinity) h k (t.arrays.length / 8) (spansOf s t) = true →
    ∃ ds tn, exec (.strandRestore i h k) s = .next (restoreInto t h k
      { s with hub := { s.hub with ready := [], deficits := ds, turn := tn } })) ∧
  (∀ (s s1 : State) (i : StrandId) (h k : Nat) (t t1 : Strand) (a : Word) (g : List (Nat × Nat) × List (Nat × Nat)),
    t.saveArea = some a → grantFor s t.asid h k (t.arrays.length / 8) (spansOf s t) = some g →
    readImage t a.toNat s = (.ok (.ok t1), s1) → t1.id = i → t1.node = none → t1.haltDue = none →
    (∃ t0, findStrand s1 i = some t0) → ∃ t2, let u := restoreInto t h k s
      findStrand u i = some t2 ∧ t2.state = .ready ∧ t2.hoop = h ∧ t2.slot = k ∧
      t2.arrays = g.1 ∧ t2.followers = g.2 ∧ t2.x = t1.x ∧ t2.pc = t1.pc ∧ t2.due = false ∧ t2.saveArea = none ∧
      (∀ e ∈ u.hub.ready, e.strand ≠ some i) ∧ (Claims.RingOff s1 → u.mem.bytes = s1.mem.bytes)) ∧
  (∀ (s : State) (i : StrandId) (h k : Nat) (t : Strand), findStrand s i = some t → t.state ≠ .saved →
    exec (.strandRestore i h k) s = .next s)

namespace Sys2Proof.Claims

/-- The reasons of R26 for which a launch packet fails. -/
def PacketFails (s : State) (b : List Byte) : Nat → Prop
  | 1 => num b 0x10 2 = 0 ∨ 192 < num b 0x10 2
  | 2 => (if num b 0x16 2 % 2 = 1 then 1536 else 32) < num b 0x12 2 ∨
      (blocksOffered s).sum < num b 0x12 2
  | 3 => num b 0x16 2 / 4 % 256 ≠ 0
  | 4 => num b 0 8 % 4 ≠ 0
  | 5 => num b 0x18 8 % 16 ≠ 0 ∨ 2 ^ 48 < num b 0x18 8 + num b 0x10 2 * num b 0x14 2 * 1024
  | _ => False

/-- The hoop that a packet prefers: its hint, unless that hoop is absent (R25). -/
def hint (s : State) (b : List Byte) : Option Nat :=
  if num b 0x16 2 / 2 % 2 = 1 ∧ hoopPresent s (num b 0x16 2 / 2 ^ 10) = true then some (num b 0x16 2 / 2 ^ 10) else none

/-- A strand as it is placed (R27). -/
def PlacedFrom (l : Launch) (v : Counter) (n h k : Nat) (g : List (Nat × Nat) × List (Nat × Nat)) (t : Strand) : Prop :=
  t.id = { launch := l.counter, index := n } ∧ t.hoop = h ∧ t.slot = k ∧ t.arrays = g.1 ∧ t.followers = g.2 ∧
  t.asid = v.asid ∧ t.level = v.level ∧ t.state = .ready ∧ t.pc.toNat = num l.bytes 0 8 ∧
  (readReg t 2).toNat = (num l.bytes 0x18 8 + (n + 1) * num l.bytes 0x14 2 * 1024) % 2 ^ 64 ∧
  (readReg t 10).toNat = num l.bytes 8 8 ∧ (readReg t 11).toNat = n % 2 ^ 64 ∧
  (readReg t 12).toNat = num l.bytes 0x10 2 ∧ (readReg t 13).toNat = num l.bytes 0x20 8 ∧
  (readReg t 14).toNat = num l.bytes 0x28 8 ∧ (readReg t 15).toNat = num l.bytes 0x30 8 ∧
  (readReg t 16).toNat = num l.bytes 0x38 8 ∧ readReg t 17 = l.packet ∧
  ∀ r : Reg, r ∈ [1, 3, 4, 5, 6, 7, 8, 9] ∨ 18 ≤ r.toNat → readReg t r = 0

end Sys2Proof.Claims

/-- The scheduler rejects a launch packet with the lowest reason that it meets, or with reason 6 if it cannot be read, and
enters an accepted one in the pool. A graph that is refused has the reason, one that is accepted its nodes. Phases and
submissions start one after the other. A finished node is complete, counted, and makes its successors ready. A free slot
takes the next strand of a launch, with the registers of R27. -/
def Obligations.LaunchesGraphsAndJobs : Prop :=
  (∀ (s : State) (c : Nat) (l : Launch) (v : Counter), findLaunch s c = some l → counterOf s c = some v →
    l.accepted = false → v.final = false → v.cancelled = false → v.kind = .launch →
    let p := hubPort v.asid l.root.toNat
    let refused (r : Nat) (u : State) : Prop :=
      counterOf u c = some { v with rejected := true, reason := BitVec.ofNat 6 r, final := true }
    s.hub.ready.length < 16384 →
    (∀ e s1, vsReadBlock p l.packet.toNat 64 s = (.error e, s1) → counterOf s1 c = some v →
      ∃ u, exec (.launchAccept c) s = .next u ∧ refused 6 u) ∧
    (∀ b r, vsReadBlock p l.packet.toNat 64 s = (.ok b, s) → Claims.PacketFails s b r →
      (∀ q < r, ¬ Claims.PacketFails s b q) → ∃ u, exec (.launchAccept c) s = .next u ∧ refused r u) ∧
    (∀ b, vsReadBlock p l.packet.toNat 64 s = (.ok b, s) → (∀ r, ¬ Claims.PacketFails s b r) →
      (∀ e ∈ s.hub.ready, e.launch ≠ some c) → ∃ u, exec (.launchAccept c) s = .next u ∧
        counterOf u c = some { v with expected := Claims.num b 0x10 2 } ∧
        findLaunch u c = some { l with accepted := true, bytes := b, affinity := Claims.hint s b } ∧
        (u.hub.ready.map fun e => (e.launch, e.strand, e.level, e.age)) =
          (s.hub.ready.map fun e => (e.launch, e.strand, e.level, e.age)) ++ [(some c, none, v.level, s.ac)] ∧
        u.strand = s.strand ∧ u.pool = s.pool ∧ u.mem = s.mem)) ∧
  (∀ (s : State) (c : Nat) (g : Graph) (v : Counter), findGraph s c = some g → counterOf s c = some v →
    g.accepted = false → v.final = false → v.cancelled = false → v.kind = .graph →
    let n := ((otherInstances s g v.asid).filter fun o => o.accepted).length
    let read := readGraph (hubPort v.asid g.root.toNat) g.addr.toNat (g.patchAddr.map BitVec.toNat) n s
    (∀ r s1, read = (.ok (.error r), s1) → counterOf s1 c = some v → ∃ u, exec (.graphAccept c) s = .next u ∧
      counterOf u c = some { v with rejected := true, reason := BitVec.ofNat 6 r, final := true }) ∧
    (∀ h es nodes, read = (.ok (.ok (h, es, nodes)), s) → ∃ s2, exec (.graphAccept c) s = .next (fillPool s2) ∧
      counterOf s2 c = some { v with expected := nodes.length } ∧ (∃ g2, findGraph s2 c = some g2 ∧ g2.accepted = true ∧
        g2.header = h ∧ g2.patch = es ∧ (∀ k r, nodes[k]? = some r → smGet g2.preds k = some (Claims.num r 2 2) ∧
          smGet g2.nodes k = some (if Claims.num r 2 2 = 0 then .ready else .blocked))) ∧ s2.strand = s.strand ∧
      s2.mem = s.mem)) ∧
  (∀ (p : Port) (s s1 : State) (addr n : Nat) (patch : Option Nat) (h : List Byte), vsReadBlock p addr 128 s = (.ok h, s1) →
    Claims.num h 0 4 = 0 ∨ 4096 < Claims.num h 0 4 → readGraph p addr patch n s = (.ok (.error 8), s1)) ∧
  (∀ s : State, 16384 ≤ s.hub.ready.length → fillPool s = s) ∧
  (∀ (s : State) (c : Nat) (v : Counter), counterOf s c = some v → v.final = false →
    (∀ x ∈ s.hub.counters, x.2.parent = some c → x.2.final = true) → (∀ x ∈ s.hub.incs, x.1 ≠ c) →
    (∀ j, s.hub.jobs.find? (fun j => j.counter = c) = some j →
      (v.cancelled = true → exec (.jobNextPhase c) s = .next (Claims.hubNow s { s.hub with
        incs := s.hub.incs ++ List.replicate (j.list.length - j.next) (c, true)
        jobs := s.hub.jobs.map fun x => if x.counter = c then { x with list := x.list.take x.next } else x })) ∧
      (v.cancelled = false → j.list[j.next]? = none → exec (.jobNextPhase c) s = .next s) ∧
      (∀ subs p s1, v.cancelled = false → j.list[j.next]? = some subs →
        allocCounter (newCounter .phase v.asid subs.length (some c) none v.level) s = (.ok (some p), s1) →
        exec (.jobNextPhase c) s = .next { s1 with hub := { s1.hub with
          phases := s1.hub.phases ++ [{ counter := p, list := subs, next := 0 }]
          jobs := s1.hub.jobs.map fun x => if x.counter = c then { x with next := x.next + 1 } else x } })) ∧
    (∀ ph, s.hub.phases.find? (fun p => p.counter = c) = some ph →
      (ph.list[ph.next]? = none → exec (.phaseNextSubmission c) s = .next s) ∧
      (∀ graph patch g s1, ph.list[ph.next]? = some (graph, patch) →
        allocCounter (newCounter .graph v.asid 0 (some c) none v.level) s = (.ok (some g), s1) →
        ∃ u x, exec (.phaseNextSubmission c) s = .next u ∧ u.hub.graphs = s1.hub.graphs ++ [x] ∧ x.counter = g ∧
          x.addr = graph ∧ x.patchAddr = (if patch = 0 then none else some patch) ∧ x.accepted = false ∧ u.strand = s1.strand ∧ u.mem = s1.mem ∧
          u.hub.phases = s1.hub.phases.map fun x => if x.counter = c then { x with next := x.next + 1 } else x))) ∧
  (∀ (s : State) (c n : Nat) (g : Graph) (v : Counter) (bs : List Byte), findGraph s c = some g → counterOf s c = some v →
    v.final = false → v.cancelled = false → smGet g.nodes n = some .finished → smGet g.children n = none →
    let r := smRead [] g.records n
    vsReadBlock (hubPort v.asid g.root.toNat)
      (Claims.num g.header 0x10 8 + 2 * Claims.num r 6 2) (2 * Claims.num r 4 2) s = (.ok bs, s) →
    ∃ s2 g2, exec (.nodeComplete c n) s = .next (fillPool s2) ∧ findGraph s2 c = some g2 ∧
      smGet g2.nodes n = some .complete ∧ s2.hub.incs = s.hub.incs ++ [(c, false)] ∧ s2.strand = s.strand ∧ s2.mem = s.mem ∧
      ∀ m, Claims.num r 4 2 = 1 → Claims.num bs 0 2 = m → m ≠ n → bs.length = 2 →
        smGet g2.preds m = some (smRead 0 g.preds m - 1) ∧
        (smRead 0 g.preds m = 1 → smGet g.nodes m = some .blocked → smGet g2.nodes m = some .ready)) ∧
  (∀ (s : State) (t : Target), s.hub.stopped = true ∨ (s.hub.graphs = [] ∧ s.hub.ready = []) →
    exec (.readyPoolDispatch t) s = .next s) ∧
  (∀ (s : State) (c h k : Nat) (e : PoolEntry) (l : Launch) (v : Counter) (g : List (Nat × Nat) × List (Nat × Nat)),
    s.hub.stopped = false → s.hub.graphs = [] → s.hub.ready = [e] → e.strand = none → e.launch = some c → e.level < 8 →
    (∀ x ∈ s.strand :: s.pool, x.state = .saved → x.due = false) →
    e.job < 4096 → 1 ≤ quantumOf s e.job → findLaunch s c = some l → counterOf s c = some v → l.accepted = true →
    v.final = false → v.cancelled = false → l.placed < l.strands → l.strands < 2 ∨ l.barrier.isSome = true →
    let blocks := Claims.num l.bytes 0x12 2
    let spans := decide (Claims.num l.bytes 0x16 2 % 2 = 1)
    slotTakes s v.asid l.affinity h k blocks spans = true → grantFor s v.asid h k blocks spans = some g →
    ∃ u, exec (.readyPoolDispatch (.slot h k)) s = .next u ∧
      (∃ t ∈ u.strand :: u.pool, Claims.PlacedFrom l v l.placed h k g t) ∧
      (findLaunch u c).map Launch.placed = some (l.placed + 1) ∧ (l.placed + 1 = l.strands ↔ u.hub.ready = [])) ∧
  (∀ (s : State) (j : Nat), let base := 0x40000 + 64 * j
    let cfg := bar0 s (base + 8) 8
    let head := bar0 s (base + 0x18) 2
    let asid := BitVec.ofNat 12 cfg
    (256 ≤ j ∨ s.hub.stopped = true ∨ cfg / 2 ^ 63 % 2 = 0 ∨ head = bar0 s (base + 0x10) 2 ∨
      ctxValid s (cfg % 4096) = false → exec (.jobPacketRead j) s = .next s) ∧
    (∀ (b : List Byte) (c : Nat) (w : List (List (Word × Word))) (s2 s3 s4 : State), j < 256 → s.hub.stopped = false →
      cfg / 2 ^ 63 % 2 = 1 → head ≠ bar0 s (base + 0x10) 2 → ctxValid s (cfg % 4096) = true → s.hub.ready.length < 16384 →
      let p := hubPort asid (ctxRoot s (cfg % 4096))
      let s0 := setBar0 (base + 0x18) 2 (head + 1) s
      let ring := bar0 s base 8 / 2 ^ 6 % 2 ^ 42 * 64
      vsReadBlock p (ring + 64 * (head % 2 ^ (cfg / 2 ^ 16 % 16))) 64 s0 = (.ok b, s0) → jobFieldsOk b = true →
      allocCounter (newCounter .job asid 0 none none (min (cfg / 2 ^ 12 % 8) (ctxLevelCap s (cfg % 4096)))) s0 =
        (.ok (some c), s2) →
      let job : Job := { counter := c, queue := j, list := [], next := 0, root := BitVec.ofNat 64 p.root
                         result := BitVec.ofNat 64 (Claims.num b 0x18 8) }
      vsWriteBlock p (Claims.num b 0x18 8) (leBytes 8 c) { s2 with hub := { s2.hub with jobs := s2.hub.jobs ++ [job] } } =
        (.ok (), s3) → readPhases p (Claims.num b 8 8) (Claims.num b 0x10 2) s3 = (.ok (some w), s4) →
      ∃ u, exec (.jobPacketRead j) s = .next u ∧ u.strand = s4.strand ∧ u.mem = s4.mem ∧
        (∀ v, counterOf s4 c = some v → counterOf u c = some { v with expected := w.length }) ∧
        u.hub.jobs = s4.hub.jobs.map fun x => if x.counter = c then { job with list := w } else x))

/-! ## The host interface and the debug windows -/

namespace Sys2Proof.Claims

/-- A mailbox request stands with an opcode and a length, and has not been carried out (R423). -/
def Requested (s : State) (op n : Nat) : Prop :=
  bar0 s 0x20000 8 ≠ bar0 s 0x20008 8 ∧ s.hub.mailDone = false ∧ bar0 s 0x20100 4 = op ∧ bar0 s 0x20104 4 = n

/-- The response of a request: status, length and payload (R423). The rest of the machine but BAR0 and the hub stays. -/
def Answered (s : State) (status : Nat) (payload : List Byte) (t : State) : Prop :=
  bar0 t 0x20010 4 = status ∧ bar0 t 0x20014 4 = payload.length ∧
  smReadList 0 t.mem.bar0 0x21000 payload.length = payload ∧ t.hub.mailDone = true ∧ t.strand = s.strand ∧ t.pool = s.pool ∧
  t.mem.bytes = s.mem.bytes

/-- The mailbox operations with their opcodes and lengths (R423). -/
def mailOps : List (Instr × Nat × Nat) :=
  [(.alloc, 1, 2), (.erase, 2, 2), (.seal, 3, 2), (.unseal, 4, 128), (.attest, 5, 40), (.debugAuth, 6, 3)]

/-- A cause bit is set and its vector raised (R422). -/
def Caused (s : State) (c : Nat) (t : State) : Prop :=
  bar0 t 0x10008 1 = bar0 s 0x10008 1 ||| 2 ^ c ∧ t.hub.irqs = s.hub.irqs ++ [{
    vector := if c = 1 ∨ c = 3 then bar0 s 0x32 1 else bar0 s 0x31 1, data := none, pended := false, node := none }]

end Sys2Proof.Claims

/-- A request of a wrong length has status 2, an unknown opcode 3. ALLOC loads a fresh key into a free slot, ERASE
clears a loaded slot with the next epoch, SEAL gives a blob that UNSEAL opens into its slot at the same epoch, ATTEST
a report with the nonce, DEBUG_AUTH grants or revokes an ASID. The response sequence follows and sets cause 1; a
request on top of an unanswered one is ignored with cause 3. A BAR2 request through a closed window is refused with a
record; one that passes its checks is performed and, if a read, completed in pieces of at most 1024 bytes.
Configuration (in the layout of log 107, the model's choice), unsupported requests and write completions. The
description and the context table ignore the host's writes, causes are cleared by ones; a doorbell moves a tail, or
sets the queue's error. An invalidated context closes, and is torn down with its TLB entries and keys. An MSI-X
message is sent, or stands pending while its vector is masked. -/
def Obligations.HostInterface : Prop :=
  (((∀ (s : State) (i : Instr) (op n m : Nat), (i, op, n) ∈ Claims.mailOps → Claims.Requested s op m → m ≠ n →
    ∃ t, exec i s = .next t ∧ Claims.Answered s 2 [] t ∧ t.hub.keys = s.hub.keys) ∧
  (∀ (s : State) (i : Instr) (op n : Nat), (i, op, n) ∈ Claims.mailOps → bar0 s 0x20000 8 = bar0 s 0x20008 8 →
    exec i s = .next s) ∧
  (∀ (s : State) (op n : Nat), op = 0 ∨ 6 < op → Claims.Requested s op n →
    ∃ t, exec .unknownOpcode s = .next t ∧ Claims.Answered s 3 [] t ∧ t.hub.keys = s.hub.keys) ∧
  (∀ s : State, Claims.Requested s 1 2 → let asid := bar0 s 0x20108 2
    (4096 ≤ asid → ∃ t, exec .alloc s = .next t ∧ Claims.Answered s 2 [] t ∧ t.hub.keys = s.hub.keys) ∧
    (asid < 4096 → (∀ k, 1 ≤ k → k < 1024 → (keySlot s k).loaded = true) →
      ∃ t, exec .alloc s = .next t ∧ Claims.Answered s 0 [0, 0] t ∧ t.hub.keys = s.hub.keys) ∧
    (asid < 4096 → (∃ k, 1 ≤ k ∧ k < 1024 ∧ (keySlot s k).loaded = false) → ∃ t j, exec .alloc s = .next t ∧
      1 ≤ j ∧ j < 1024 ∧ (keySlot s j).loaded = false ∧ Claims.Answered s 0 (leBytes 2 j) t ∧
      keySlot t j = { keySlot s j with loaded := true, owner := BitVec.ofNat 12 asid, key := s.hub.nextKey } ∧
      (∀ i, i ≠ j → keySlot t i = keySlot s i) ∧ t.hub.nextKey = s.hub.nextKey + 1)) ∧
  (∀ s : State, Claims.Requested s 2 2 → let k := bar0 s 0x20108 2
    (k = 0 ∨ 1024 ≤ k → ∃ t, exec .erase s = .next t ∧ Claims.Answered s 2 [] t ∧ t.hub.keys = s.hub.keys) ∧
    (1 ≤ k → k < 1024 → (keySlot s k).loaded = false →
      ∃ t, exec .erase s = .next t ∧ Claims.Answered s 1 [] t ∧ t.hub.keys = s.hub.keys) ∧
    (1 ≤ k → k < 1024 → (keySlot s k).loaded = true → ∃ t, exec .erase s = .next t ∧ Claims.Answered s 0 [] t ∧
      keySlot t k = { loaded := false, owner := 0, epoch := (keySlot s k).epoch + 1, key := 0 } ∧
      ∀ i, i ≠ k → keySlot t i = keySlot s i)) ∧
  (∀ s : State, Claims.Requested s 3 2 → let k := bar0 s 0x20108 2
    (1 ≤ k → k < 1024 → (keySlot s k).loaded = false →
      ∃ t, exec .seal s = .next t ∧ Claims.Answered s 1 [] t ∧ t.hub.keys = s.hub.keys) ∧
    (1 ≤ k → k < 1024 → (keySlot s k).loaded = true → ∃ t b, exec .seal s = .next t ∧ Claims.Answered s 0 b t ∧
      b.length = 128 ∧ Claims.num b 0 4 = 1 ∧ Claims.num b 4 2 = k ∧ Claims.num b 6 2 = (keySlot s k).owner.toNat ∧
      Claims.num b 8 4 = (keySlot s k).epoch.toNat ∧ t.hub.sealed = s.hub.sealed ++ [(b, (keySlot s k).key)] ∧
      t.hub.keys = s.hub.keys)) ∧
  (∀ (s : State) (key : Nat), Claims.Requested s 4 128 → let b := smReadList 0 s.mem.bar0 0x20108 128
    let k := Claims.num b 4 2
    s.hub.sealed.find? (fun x => x.1 = b) = some (b, key) →
    (k = 0 ∨ 1024 ≤ k ∨ (keySlot s k).loaded = true ∨ (keySlot s k).epoch.toNat ≠ Claims.num b 8 4 →
      ∃ t, exec .unseal s = .next t ∧ Claims.Answered s 1 [] t ∧ t.hub.keys = s.hub.keys) ∧
    (1 ≤ k → k < 1024 → (keySlot s k).loaded = false → (keySlot s k).epoch.toNat = Claims.num b 8 4 →
      ∃ t, exec .unseal s = .next t ∧ Claims.Answered s 0 (leBytes 2 k) t ∧
        keySlot t k = { keySlot s k with loaded := true, owner := BitVec.ofNat 12 (Claims.num b 6 2), key := key } ∧
        ∀ i, i ≠ k → keySlot t i = keySlot s i)) ∧
  (∀ s : State, Claims.Requested s 5 40 → let who := bar0 s 0x20128 8
    (4096 ≤ who → who ≠ 2 ^ 64 - 1 → ∃ t, exec .attest s = .next t ∧ Claims.Answered s 2 [] t) ∧
    (who < 4096 ∨ who = 2 ^ 64 - 1 → ∃ t b, exec .attest s = .next t ∧ Claims.Answered s 0 b t ∧ b.length = 2048 ∧
      Claims.num b 0 4 = 1 ∧ (b.drop 8).take 32 = smReadList 0 s.mem.bar0 0x20108 32 ∧
      (b.drop 40).take 16 = smReadList 0 s.mem.bar0 0x10 16 ∧ t.hub.keys = s.hub.keys)) ∧
  (∀ s : State, Claims.Requested s 6 3 → let asid := bar0 s 0x20108 2
    let item (s : State) (k : Nat) : Nat := bar0 s (0xE00400 + 8 * k) 8
    let flag := bar0 s 0x2010A 1
    (4096 ≤ asid ∨ 1 < flag → ∃ t, exec .debugAuth s = .next t ∧ Claims.Answered s 2 [] t) ∧
    (asid < 4096 → flag = 0 → ∃ t, exec .debugAuth s = .next t ∧ Claims.Answered s 0 [] t ∧
      ∀ k < 64, item t k = if item s k = 2 ^ 15 + asid then 0 else item s k) ∧
    (∀ k, asid < 4096 → flag = 1 → (∀ j < 64, item s j ≠ 2 ^ 15 + asid) → k < 64 → item s k / 2 ^ 15 % 2 = 0 →
      (∀ j < k, item s j / 2 ^ 15 % 2 = 1) → ∃ t, exec .debugAuth s = .next t ∧ Claims.Answered s 0 [] t ∧
        mayUse t .host asid = true ∧ ∀ j < 64, item t j = if j = k then 2 ^ 15 + asid else item s j) ∧
    (asid < 4096 → flag = 1 → (∀ j < 64, item s j ≠ 2 ^ 15 + asid ∧ item s j / 2 ^ 15 % 2 = 1) →
      ∃ t, exec .debugAuth s = .next t ∧ Claims.Answered s 1 [] t)) ∧
  (∀ s : State, (s.hub.mailDone = true → ∃ t, exec .mailboxResponse s = .next t ∧
      bar0 t 0x20008 8 = bar0 s 0x20000 8 ∧ t.hub.mailDone = false ∧ Claims.Caused s 1 t ∧ t.strand = s.strand) ∧
    (s.hub.mailDone = false → exec .mailboxResponse s = .next s)) ∧
  (∀ (s : State) (w : Word), (bar0 s 0x20000 8 ≠ bar0 s 0x20008 8 → ∃ t, exec (.mailboxRequestIgnored w) s = .next t ∧
      bar0 t 0x20000 8 = bar0 s 0x20000 8 ∧ Claims.Caused s 3 t ∧ t.strand = s.strand) ∧
    (bar0 s 0x20000 8 = bar0 s 0x20008 8 → exec (.mailboxRequestIgnored w) s = .next s ∧
      exec (.registerWrite 0x20000 w) s = .next (setBar0 0x20000 8 w.toNat s)))) : Prop) ∧
  (((∀ (s : State) (port off n : Nat) (data : List Byte), respondsAt s 0x50000 = true → bar0 s 0x50000 8 / 2 ^ 63 % 2 = 0 →
    (∃ t r, exec (.bar2Read port off n) s = .next t ∧ t.out = s.out ++ [⟨port, 4, off, []⟩] ∧
      t.hub.records = s.hub.records ++ [r] ∧ r.typ = 13 ∧ t.mem = s.mem ∧ t.strand = s.strand) ∧
    (port < 4 → ∃ t r, exec (.bar2Write port off data) s = .next t ∧ t.out = s.out ∧
      t.hub.records = s.hub.records ++ [r] ∧ r.typ = 13 ∧ t.mem = s.mem ∧ t.strand = s.strand)) ∧
  (∀ (s s1 s2 : State) (port off n : Nat) (data bs : List Byte) (pl : Place) (k : Nat), let p := bar2Port s
    let va := bar2Va s off
    respondsAt s 0x50000 = true →
    (bar2Check p va n true false s = (.ok [(pl, va, k)], s1) → readPlace pl k s1 = (.ok bs, s2) →
      ∃ t cs, exec (.bar2Read port off n) s = .next t ∧ t.out = s2.out ++ cs ∧ t.strand = s2.strand ∧ t.mem = s2.mem ∧
        (cs.map Tlp.data).flatten = bs ∧ (bs.length ≤ 1024 → cs.length = 1) ∧
        (∀ c ∈ cs, c.port = port ∧ c.data.length ≤ 1024 ∧ c.kind = if placePoisoned s2 pl k = true then 6 else 3) ∧
        (placePoisoned s2 pl k = false → t = { s2 with out := t.out })) ∧
    (bar2Check p va data.length false true s = (.ok [(pl, va, data.length)], s1) → writePlace p pl data s1 = (.ok (), s2) →
      port < 4 → exec (.bar2Write port off data) s = .next s2)) ∧
  (∀ (s : State) (port reg tag : Nat) (w : Word32),
    (∃ t, exec (.configurationRequest port reg (some w)) s = .next t ∧ t.out = s.out ++ [⟨port, 3, reg, []⟩] ∧
      t = { s with out := t.out, hub := { s.hub with config := t.hub.config } } ∧
      (∀ r, r ≠ reg → smGet t.hub.config r = smGet s.hub.config r) ∧
      (configReset reg = none → smGet s.hub.config reg = none → t.hub.config = s.hub.config) ∧
      (∀ v, (smGet s.hub.config reg).or (configReset reg) = some v → let m := BitVec.ofNat 32 (configMask s reg)
        smGet t.hub.config reg = some ((w &&& m) ||| (v &&& ~~~m)))) ∧
    (∃ t b, exec (.configurationRequest port reg none) s = .next t ∧ t.out = s.out ++ [⟨port, 3, reg, b⟩] ∧ b.length = 4 ∧
      (∀ v, (smGet s.hub.config reg).or (configReset reg) = some v → Claims.num b 0 4 = v.toNat) ∧
      (reg = 0 → smGet s.hub.config 0 = none → Claims.num b 2 2 = 0x0A48) ∧
      t = { s with out := t.out, freeCtr := t.freeCtr }) ∧
    exec (.unsupportedRequest port tag) s = .next { s with out := s.out ++ [⟨port, 4, tag, []⟩] } ∧
    (∀ n, n = s.out.countP (fun t => t.port = port ∧ t.kind = 1) → exec (.pcieCompletion port) s =
      .next { s with hub := { s.hub with pcieDone := s.hub.pcieDone.setIfInBounds port n } })) ∧
  (∀ (s : State) (off : Nat) (w : Word),
    (off < 0x10000 ∨ (0x200000 ≤ off ∧ off < 0x220000) → exec (.registerWrite off w) s = .next s) ∧
    (0x20100 ≤ off → off < 0x21000 → exec (.registerWrite off w) s = .next (setBar0 (off / 8 * 8) 8 w.toNat s)) ∧
    (∃ t, exec (.registerWrite 0x10008 w) s = .next t ∧
      bar0 t 0x10008 8 = bar0 s 0x10008 8 &&& (~~~w).toNat ∧ t.strand = s.strand)) ∧
  (∀ (s : State) (j : Nat) (tail : BitVec 16), j < 256 → respondsAt s 0x40000 = true → let cfg := bar0 s (0x40008 + 64 * j) 8
    let ahead := (tail.toNat + 2 ^ 16 - bar0 s (0x40018 + 64 * j) 2) % 2 ^ 16
    (cfg / 2 ^ 63 % 2 = 1 → ahead ≤ 2 ^ (cfg / 2 ^ 16 % 16) →
      exec (.jobQueueDoorbell j tail) s = .next (setBar0 (0x40010 + 64 * j) 2 tail.toNat s)) ∧
    (cfg / 2 ^ 63 % 2 = 0 ∨ 2 ^ (cfg / 2 ^ 16 % 16) < ahead → ∃ t, exec (.jobQueueDoorbell j tail) s = .next t ∧
      Claims.Caused s 2 t ∧ bar0 t (0x10020 + j / 8) 1 = bar0 s (0x10020 + j / 8) 1 ||| 2 ^ (j % 8) ∧
      bar0 t (0x40010 + 64 * j) 2 = bar0 s (0x40010 + 64 * j) 2)) ∧
  (∀ (s : State) (asid : BitVec 12),
    (ctxValid s asid.toNat = false ∨ asid ∈ s.hub.closing → exec (.contextInvalidate asid) s = .next s) ∧
    (ctxValid s asid.toNat = true → asid ∉ s.hub.closing →
      (∀ x ∈ s.hub.counters, x.2.kind = .job → x.2.asid = asid → x.2.final = true) →
      exec (.contextInvalidate asid) s = .next { s with hub := { s.hub with closing := s.hub.closing ++ [asid] } }) ∧
    (asid ∉ s.hub.closing ∨ (∃ x ∈ s.hub.counters, x.2.asid = asid ∧ x.2.final = false) →
      exec (.contextTeardown asid) s = .next s) ∧
    (asid ∈ s.hub.closing → (∀ x ∈ s.hub.counters, x.2.asid = asid → x.2.final = true) →
      ∃ t, exec (.contextTeardown asid) s = .next t ∧ asid ∉ t.hub.closing ∧ t.strand = s.strand ∧
        t.mem.bytes = s.mem.bytes ∧ (∀ k < 32, smRead 0 t.mem.bar0 (0x200000 + 32 * asid.toNat + k) = 0) ∧
        (∀ k, (keySlot t k).loaded = true → (keySlot t k).owner ≠ asid) ∧
        ∀ x ∈ t.hoops, ∀ e ∈ x.2.tlb, e.asid ≠ asid)) ∧
  (∀ (s : State) (i : Irq) (rest : List Irq), s.hub.irqs = i :: rest → i.pended = false → i.node = none → i.vector < 64 →
    portsSettled s = true → let data := i.data.getD (BitVec.ofNat 32 (bar0 s (0x30008 + 16 * i.vector) 4))
    (bar0 s (0x3000C + 16 * i.vector) 4 % 2 = 0 → exec (.msixSend i.vector data) s = .next { s with
      out := s.out ++ [⟨0, 1, bar0 s (0x30000 + 16 * i.vector) 8, leBytes 4 data.toNat⟩]
      hub := { s.hub with irqs := rest } }) ∧
    (bar0 s (0x3000C + 16 * i.vector) 4 % 2 = 1 → ∃ t, exec (.msixSend i.vector data) s = .next t ∧ t.out = s.out ∧
      t.hub.irqs = { i with pended := true } :: rest ∧ bar0 t 0x30800 8 = bar0 s 0x30800 8 ||| 2 ^ i.vector)) ∧
  (∀ (s : State) (v : Nat), bar0 s (0x3000C + 16 * v) 4 % 2 = 1 → exec (.msixUnmask v) s = .next s) ∧
  (∀ (s : State) (i : Irq), s.hub.irqs = [i] → i.pended = true → i.node = none → i.vector < 64 →
    bar0 s (0x3000C + 16 * i.vector) 4 % 2 = 0 → portsSettled s = true → ∃ t, exec (.msixUnmask i.vector) s = .next t ∧ t.hub.irqs = [] ∧
      t.out = s.out ++ [⟨0, 1, bar0 s (0x30000 + 16 * i.vector) 8,
        leBytes 4 (i.data.getD (BitVec.ofNat 32 (bar0 s (0x30008 + 16 * i.vector) 4))).toNat⟩] ∧
      bar0 t 0x30800 8 = bar0 s 0x30800 8 &&& (2 ^ 64 - 1 - 2 ^ i.vector))) : Prop)

/-- The host halts and resumes the strands of a group whose ASID it may use, and changes nothing without that. It ends a
Faulted strand by request, with the status of the request. The trace ring starts empty. The port opens for a certificate
that names the device, and then gives what its ASIDs allow. A sample is taken when its period has passed; records lost are
reported once, when there is room for that record. -/
def Obligations.DebugEvents : Prop :=
  (∀ (s : State) (win : Option Nat) (w : Word), (∀ h, win = some h → h < 48) → let base := haltBase win
    let asid := w.toNat / 8 % 512 + bar0 s (base + 8) 8 % 8 * 512
    (w.getLsbD 0 = false → exec (.halt win w) s = .next s) ∧ (w.getLsbD 1 = false → exec (.resume win w) s = .next s) ∧
    (haltAsid s base ≠ 0 → mayUse s .host (haltAsid s base) = false →
      (w.getLsbD 0 = true → exec (.halt win w) s = .next s) ∧ (w.getLsbD 1 = true → exec (.resume win w) s = .next s)) ∧
    (∀ (i : StrandId) (t : Strand), itemOpen s .host (haltAsid s base) = true → mayUse s .host asid = true →
      findStrand s i = some t → haltGroup win asid w.toNat t = true →
      (w.getLsbD 0 = true → w.getLsbD 1 = false → t.state = .ready ∨ t.state = .running ∨ t.state = .waiting →
        (t.asked ≠ 0 → ∃ u, exec (.halt win w) s = .next u ∧ u.mem.bytes = s.mem.bytes ∧
          findStrand u i = some { t with haltWait := some .request }) ∧
        (t.asked = 0 → ∃ u v, exec (.halt win w) s = .next u ∧ u.mem.bytes = s.mem.bytes ∧ findStrand u i = some v ∧
          v.state = .halted ∧ v.haltReason = .request ∧ v.resv = none ∧ v.links = [] ∧ v.fePend = [] ∧ v.idling = false ∧
          (t.idling = false → t.fePend = [] → v = { t with
            state := .halted, resumeTo := t.state, haltReason := .request, haltWait := none, resv := none, links := [] }))) ∧
      (w.getLsbD 0 = true → w.getLsbD 1 = false → t.state = .saving → ∃ u, exec (.halt win w) s = .next u ∧
        u.mem.bytes = s.mem.bytes ∧ findStrand u i = some { t with haltDue := some .request }) ∧
      (w.getLsbD 1 = true → w.getLsbD 0 = false → t.state = .halted → t.editImage = none → t.resumeTo ≠ .idle →
        ∃ u, exec (.resume win w) s = .next u ∧ u.mem.bytes = s.mem.bytes ∧ findStrand u i = some { t with
          state := t.resumeTo, haltReason := .none, skipBreak := true }))) ∧
  (∀ (s : State) (w : Word), let asid := w.toNat / 2 ^ 28 % 4096
    let i : StrandId := { launch := w.toNat % 4096, index := w.toNat / 2 ^ 12 % 2 ^ 16 }
    (w.getLsbD 63 = false → exec (.strandEndRequest w) s = .next s) ∧
    (w.getLsbD 63 = true → itemOpen s .host (bar0 s 0xE00040 8 / 2 ^ 28 % 4096) = true → mayUse s .host asid = true →
      (findStrand s i = none → ∃ u, exec (.strandEndRequest w) s = .next u ∧ bar0 u 0xE00048 8 = 2 ∧ u.strand = s.strand) ∧
      (∀ t, findStrand s i = some t → t.asid.toNat = asid →
        (t.state = .faulted → ∃ u t2, exec (.strandEndRequest w) s = .next u ∧ bar0 u 0xE00048 8 = 1 ∧
          findStrand u i = some t2 ∧ t2.state = .exited) ∧
        (t.state = .saved → t.saveArea = none → ∃ u t2, exec (.strandEndRequest w) s = .next u ∧ bar0 u 0xE00048 8 = 1 ∧
          findStrand u i = some t2 ∧ t2.state = .exited) ∧
        (Claims.InSlot t → ∃ u, exec (.strandEndRequest w) s = .next u ∧ bar0 u 0xE00048 8 = 3 ∧
          findStrand u i = some t)))) ∧
  (∀ (s : State) (w : Word), (w.getLsbD 1 = false → exec (.traceRingEnable w) s = .next s) ∧
    (w.getLsbD 1 = true → bar0 s 0xE00100 8 / 2 % 2 = 0 → ∃ u, exec (.traceRingEnable w) s = .next u ∧
      bar0 u 0xE00100 8 = w.toNat % 4 + w.toNat / 2 ^ 8 % 32 * 2 ^ 8 ∧ bar0 u 0xE00110 8 = 0 ∧ bar0 u 0xE00118 8 = 0 ∧
      u.strand = s.strand)) ∧
  (∀ (s : State) (serial : BitVec 128) (asids : List (BitVec 12)),
    (serial.toNat = bar0 s 0x10 16 → asids.length ≤ 64 → exec (.tabgidelOpen true serial asids) s = .next { s with
      hub := { s.hub with portClosed := false, portAsids := asids } }) ∧
    (∀ v : Bool, v = false ∨ serial.toNat ≠ bar0 s 0x10 16 ∨ 64 < asids.length →
      exec (.tabgidelOpen v serial asids) s = .next s)) ∧
  (∀ (s : State) (off c : Nat) (w : Option Word) (v : Counter),
    (s.hub.portClosed = true → exec (.tabgidelAccess off w) s = .next s) ∧
    (s.hub.portClosed = false → counterOf s c = some v → c < 4096 → exec (.tabgidelAccess (0xE10000 + 8 * c) none) s =
      .next { s with out := s.out ++ [⟨4, 5, 0xE10000 + 8 * c,
        leBytes 8 (if v.asid ∈ s.hub.portAsids then (counterWord v).toNat else 0)⟩] })) ∧
  (∀ (s : State) (h : Nat), h < 48 → let period := bar0 s (windowBase h + 0x300) 8 % 2 ^ 24
    (period = 0 ∨ s.ac < (hoopOf s h).sampledAt + max 64 period → exec (.sample h) s = .next s) ∧
    (period ≠ 0 → (hoopOf s h).sampledAt + max 64 period ≤ s.ac → ∃ t, exec (.sample h) s = .next t ∧
      (hoopOf t h).sampledAt = s.ac ∧ t.strand = s.strand ∧ t.pool = s.pool ∧ (Claims.RingOff s → t.mem.bytes = s.mem.bytes)) ∧
    ((hoopOf s h).lost = 0 → exec (.traceRecordsLost h) s = .next s) ∧
    ((hoopOf s h).lost ≠ 0 → bar0 s (windowBase h + 0x308) 8 / 2 ^ 15 % 2 = 1 → ∃ t,
      exec (.traceRecordsLost h) s = .next t ∧ t.strand = s.strand ∧ t.pool = s.pool ∧
      (portTakes s = true → ringTakes s = true → (hoopOf t h).lost = 0) ∧
      (portTakes s = false ∨ ringTakes s = false → t = { s with freeCtr := t.freeCtr }))) ∧
  (∀ s : State, (s.hub.ringLost = 0 → s.hub.portLost = 0 → exec (.traceRecordsLost 0x3F) s = .next s) ∧
    (s.hub.ringLost ≠ 0 → bar0 s 0xE00100 8 / 2 % 2 = 1 → ringFull s = false → ∃ t,
      exec (.traceRecordsLost 0x3F) s = .next t ∧ t.hub.ringLost = 0 ∧ t.strand = s.strand) ∧
    (s.hub.ringLost = 0 → s.hub.portLost ≠ 0 → bar0 s 0xE00100 8 % 2 = 1 → s.hub.portClosed = false →
      ∃ t, exec (.traceRecordsLost 0x3F) s = .next t ∧
        if Config.portBusy s.freeCtr = true then t = { s with freeCtr := s.freeCtr + 1 }
        else t.hub.portLost = 0 ∧ ∃ r, t.trace = s.trace ++ [r] ∧ r.typ = 15 ∧ r.payload = BitVec.ofNat 64 s.hub.portLost))

/-! ## Power, errors, retirement, channels, checkpoints and boot -/

namespace Sys2Proof.Claims

/-- The change count of the description goes from one even value to the next (R421). -/
def Described (s t : State) : Prop := bar0 t 8 8 = (bar0 s 8 8 + 2) % 2 ^ 64

/-- One error record is added, of a type and severity (R447). -/
def Recorded (s : State) (typ severity : Nat) (t : State) : Prop :=
  ∃ r, t.hub.records = s.hub.records ++ [r] ∧ r.typ = typ ∧ r.severity = severity

/-- The strands in slots are asked to stop (R391, R450). -/
def AllAsked (s t : State) : Prop :=
  ∀ i t0, findStrand s i = some t0 → InSlot t0 → findStrand t i = some (requested t0)

/-- Byte pa of the SRAM window lies on a die (R8, R128). -/
def OnDie (die pa : Nat) : Prop := 2 ^ 41 + die * 12 * 2 ^ 25 ≤ pa ∧ pa < 2 ^ 41 + (die + 1) * 12 * 2 ^ 25

/-- A bit of the status register (R420). -/
def status (s : State) (k : Nat) : Nat := bar0 s 0x10000 8 / 2 ^ k % 2

end Sys2Proof.Claims

/-- Issue rates and duty cycling change timing only. A die at the warning threshold sets cause 4 with a record; at the
critical threshold every strand is asked to stop and dispatch stops, until all dies are below the warning threshold. A
background check poisons the row of an uncorrectable error. The hub writes its oldest record into the ring and sets
cause 0. A kind of error that crosses its limit retires an array, lists a page, or takes a link down. A retired array
is copied to a spare, which then takes its number. Without a spare, an array that a strand holds becomes a pending
reduced grant, and one that nobody holds is withdrawn from every slot. A die that is fenced off loses its strands
first, then its SRAM and what the description offers of it. A port trains up, down or to half its rate. A channel
drains, spills its unit's state image, goes down, and comes back with it; an access to it brings it back. -/
def Obligations.RecoveryPromise : Prop :=
  (((∀ (s : State) (rate h : Nat) (e : BitVec 1),
    exec (.powerLimit rate) s = .next { s with hub := { s.hub with powerRate := rate } } ∧
    (h < 48 → ∃ t, exec (.dutyCycling h e) s = .next t ∧ (hoopOf t h).duty = (hoopOf s h).duty ||| (1#2 <<< e.toNat) ∧
      t = { s with hoops := t.hoops }) ∧
    (48 ≤ h → exec (.dutyCycling h e) s = .next s)) ∧
  (∀ (s : State) (die temp : Nat), let warn := Config.fusedWarning.toNat
    let critical := Config.fusedCritical.toNat
    (4 ≤ die → ∀ i ∈ [Instr.thermalWarning die temp, .temperatureFall die temp, .thermalCriticalStop die temp],
      exec i s = .next s) ∧
    (temp < warn → exec (.thermalWarning die temp) s = .next s) ∧
    (die < 4 → warn ≤ temp → ∃ t, exec (.thermalWarning die temp) s = .next t ∧ t.hub.temps.toList[die]? = some temp ∧
      Claims.Recorded s 7 1 t ∧ Claims.Caused s 4 t ∧ t.strand = s.strand) ∧
    (warn ≤ temp → exec (.temperatureFall die temp) s = .next s) ∧
    (die < 4 → temp < warn → exec (.temperatureFall die temp) s = .next { s with hub := { s.hub with
      temps := s.hub.temps.setIfInBounds die temp } }) ∧
    (temp < critical → exec (.thermalCriticalStop die temp) s = .next s) ∧
    (die < 4 → critical ≤ temp → ∃ t, exec (.thermalCriticalStop die temp) s = .next t ∧ Claims.AllAsked s t ∧
      t.hub.stopped = true ∧ t.hub.thermal = true ∧ Claims.status t 3 = 1 ∧ Claims.Recorded s 7 3 t ∧
      t.mem.bytes = s.mem.bytes)) ∧
  (∀ s : State, (s.hub.thermal = false → exec .thermalResume s = .next s) ∧
    (s.hub.thermal = true → (∀ x ∈ s.hub.temps.toList, x < Config.fusedWarning.toNat) → quiesced s = true → s.hub.deferred = [] →
      ∃ t, exec .thermalResume s = .next t ∧ t.hub.stopped = false ∧ t.hub.thermal = false ∧ t.hub.quiesce = false ∧
        Claims.status t 3 = 0 ∧ Claims.Recorded s 7 3 t ∧ t.strand = s.strand ∧ t.mem.bytes = s.mem.bytes)) ∧
  (∀ (s : State) (h a r : Nat), h < 48 → a < 256 → r < 512 → let word := (2 ^ 41 + h * 2 ^ 25 + r * 2 ^ 16 + a * 2 ^ 8) / 8
    exec (.backgroundCheck h a r .none) s = .next s ∧
    (∃ t, exec (.backgroundCheck h a r .correctable) s = .next t ∧ Claims.Recorded s 1 0 t ∧ t.mem = s.mem ∧
      t.strand = s.strand) ∧
    (∃ t, exec (.backgroundCheck h a r .uncorrectable) s = .next t ∧ Claims.Recorded s 2 1 t ∧ t.mem.bytes = s.mem.bytes ∧
      ∀ w, smGet t.mem.poison w = if word ≤ w ∧ w < word + 32 then some () else smGet s.mem.poison w)) ∧
  (∀ s : State, (s.hub.records = [] → exec .errorRecordWrite s = .next s) ∧
    (∀ e es, s.hub.records = e :: es → let w := bar0 s 0x10100 8
      let place := 0x18000 + 64 * (w % 512)
      ∃ t, exec .errorRecordWrite s = .next t ∧ t.hub.records = es ∧ bar0 t 0x10100 8 = (w + 1) % 2 ^ 64 ∧
        bar0 t place 1 = e.typ % 256 ∧ bar0 t (place + 1) 1 = e.severity % 256 ∧ bar0 t (place + 2) 2 = e.asid.toNat ∧
        bar0 t (place + 4) 1 = e.unit % 256 ∧ bar0 t (place + 5) 1 = e.hoop % 256 ∧ bar0 t (place + 6) 1 = e.slot % 256 ∧
        bar0 t (place + 8) 2 = e.array % 2 ^ 16 ∧ bar0 t (place + 10) 2 = e.row % 2 ^ 16 ∧
        bar0 t (place + 12) 4 = e.events % 2 ^ 32 ∧ bar0 t (place + 16) 8 = e.pa % 2 ^ 64 ∧ Claims.Caused s 0 t ∧
        t.strand = s.strand ∧ t.mem.bytes = s.mem.bytes)) ∧
  (∀ (s : State) (k : ErrorKind) (u : Nat), let n := bar0 s 0x810 4
    (errorCount s k u < (errorLimit s k).1 → exec (.lastingFault k u) s = .next s) ∧
    ((errorLimit s k).1 ≤ errorCount s k u →
      (k = .sramCorrectable ∨ k = .sramUncorrectable → (hoopOf s (u / 256)).withdrawn.getLsbD (u % 256) = false →
        ∃ t, exec (.lastingFault k u) s = .next t ∧ (hoopOf t (u / 256)).retired.getLsbD (u % 256) = true ∧
          t.mem = s.mem ∧ t.strand = s.strand) ∧
      (k = .hbmCorrectable ∨ k = .hbmUncorrectable → n < 4096 → ∃ t, exec (.lastingFault k u) s = .next t ∧
        bar0 t 0x810 4 = n + 1 ∧ bar0 t (0x2200 + 8 * n) 8 = u * 2 ^ 18 % 2 ^ 64 ∧ Claims.Described s t ∧
        t.strand = s.strand) ∧
      (k = .link → u < 4 → ∃ t, exec (.lastingFault k u) s = .next t ∧ bar0 t 0x38 4 / 2 ^ u % 2 = 0 ∧
        Claims.Recorded s 8 2 t ∧ Claims.Described s t)))) : Prop) ∧
  (((∀ (s : State) (h a : Nat), h < 48 → a < 256 → let hp := hoopOf s h
    (hp.retired.getLsbD a = false ∨ hp.replacing.getLsbD a = true ∨ hp.spares = 0 →
      exec (.spareReplacement h a) s = .next s) ∧
    (hp.retired.getLsbD a = true → hp.replacing.getLsbD a = false → hp.spares ≠ 0 →
      ∃ t, exec (.spareReplacement h a) s = .next t ∧ (hoopOf t h).replacing.getLsbD a = true ∧
        t = { s with hoops := t.hoops }) ∧
    (hp.replacing.getLsbD a = false ∨ hp.spares = 0 → exec (.spareRemap h a) s = .next s) ∧
    (hp.replacing.getLsbD a = true → 1 ≤ hp.spares → hp.spares ≤ 8 → ∃ t, exec (.spareRemap h a) s = .next t ∧
      (hoopOf t h).retired.getLsbD a = false ∧ (hoopOf t h).replacing.getLsbD a = false ∧
      (hoopOf t h).spares = hp.spares - 1 ∧ bar0 t (0x80 + 8 * h) 8 / 2 ^ 6 % 16 = hp.spares - 1 ∧ Claims.Recorded s 4 2 t ∧
      Claims.Described s t ∧ t.mem.bytes = s.mem.bytes ∧ t.mem.poison = s.mem.poison ∧ t.strand = s.strand) ∧
    (hp.retired.getLsbD a = false ∨ hp.spares ≠ 0 → exec (.arrayWithdraw h a) s = .next s) ∧
    (hp.retired.getLsbD a = true → hp.spares = 0 →
      (∀ i t b, findStrand s i = some t → resident t = true → (h, b) ∈ t.arrays → b / 8 = a / 8 → t.pendingGrant = none →
        ∃ u, exec (.arrayWithdraw h a) s = .next u ∧ u.mem = s.mem ∧ u.hoops = s.hoops ∧ findStrand u i = some { t with
          pendingGrant := some (t.arrays.filter fun x => ¬ (x.1 = h ∧ x.2 / 8 = a / 8)) }) ∧
      ((∀ t ∈ s.strand :: s.pool, ∀ x ∈ t.arrays, ¬ (x.1 = h ∧ x.2 / 8 = a / 8)) →
        ((∃ g ∈ hp.grants.toList, g.sram.getLsbD a = true) → exec (.arrayWithdraw h a) s = .next s) ∧
        ((∀ g ∈ hp.grants.toList, g.sram.getLsbD a = false) → ∃ t, exec (.arrayWithdraw h a) s = .next t ∧
          (hoopOf t h).withdrawn.getLsbD a = true ∧ (hoopOf t h).retired.getLsbD a = false ∧
          (∀ g ∈ (hoopOf t h).grants.toList, g.lanes.getLsbD (a / 8) = false) ∧ Claims.Recorded s 5 2 t ∧
          Claims.Described s t ∧ t.strand = s.strand ∧ t.mem.bytes = s.mem.bytes)))) ∧
  (∀ (s : State) (die : Nat), (4 ≤ die ∨ s.hub.fenced.getLsbD die = true → exec (.dieFence die) s = .next s) ∧
    (die < 4 → s.hub.fenced.getLsbD die = false →
      (s.hub.fencing.getLsbD die = false → ∃ t, exec (.dieFence die) s = .next t ∧ t.hub.fencing.getLsbD die = true ∧
        t.mem = s.mem ∧ ∀ i t0, findStrand s i = some t0 → Claims.InSlot t0 → t0.hoop / 12 = die →
          findStrand t i = some (Claims.requested t0)) ∧
      (s.hub.fencing.getLsbD die = true →
        (∃ t0 ∈ s.strand :: s.pool, t0.node = none ∧ Claims.InSlot t0 ∧ t0.hoop / 12 = die) →
        exec (.dieFence die) s = .next s) ∧
      (s.hub.fencing.getLsbD die = true → (∀ t0 ∈ s.strand :: s.pool, t0.state = .idle ∨ t0.hoop / 12 ≠ die) →
        (∀ h < 48, h / 12 = die → ∀ g ∈ (hoopOf s h).grants.toList, g.sram = 0) → ∃ t, exec (.dieFence die) s = .next t ∧
          t.hub.fenced.getLsbD die = true ∧ t.hub.fencing.getLsbD die = false ∧ Claims.Described s t ∧
          (∀ pa, Claims.OnDie die pa → smRead 0 t.mem.bytes pa = 0) ∧
          (∀ pa, ¬ Claims.OnDie die pa → smRead 0 t.mem.bytes pa = smRead 0 s.mem.bytes pa) ∧
          (∀ h, h / 12 = die → hoopPresent t h = false) ∧
          ((∀ h < 48, h / 12 = die → (hoopOf s h).withdrawn = 0) → 12 * 256 * 2 ^ 17 ≤ bar0 s 0x808 8 →
            bar0 t 0x808 8 = bar0 s 0x808 8 - 12 * 256 * 2 ^ 17)))) ∧
  (∀ (s : State) (port w rate : Nat), let bit (t : State) (k : Nat) : Nat := bar0 t 0x38 4 / 2 ^ k % 2
    (4 ≤ port → exec (.linkTraining port w rate) s = .next s) ∧
    (port < 4 → ∃ t, exec (.linkTraining port w rate) s = .next t ∧ Claims.Described s t ∧ t.strand = s.strand ∧
      (w = 16 → rate = 128 → bit t port = 1 ∧ bit t (port + 4) = 0 ∧ t.hub.records = s.hub.records) ∧
      (w = 16 → rate = 64 → bit t port = 1 ∧ bit t (port + 4) = 1 ∧ Claims.Recorded s 8 1 t) ∧
      (w = 0 → bit t port = 0 ∧ Claims.Recorded s 8 2 t) ∧
      (w ≠ 0 → ¬ (w = 16 ∧ (rate = 128 ∨ rate = 64)) → bit t port = 0 ∧ Claims.Recorded s 8 1 t))) ∧
  (∀ (s : State) (c : Nat), c < 256 → let u := unitOf s c
    (u.power ≠ .active → exec (.channelPowerDownRequest c) s = .next s) ∧
    (u.power = .active → ∃ t, exec (.channelPowerDownRequest c) s = .next t ∧ t = { s with units := t.units } ∧
      unitOf t c = { u with power := if u.owner.isSome then .drain else .down, wake := decide (u.queue ≠ []) }) ∧
    (u.power = .drain → u.running = none → ∃ t, exec (.channelDrainEnd c) s = .next t ∧ t.strand = s.strand ∧
      readSpill c t = unitImage u ∧ unitOf t c = { u with power := .spill }) ∧
    (u.power ≠ .drain ∨ u.running ≠ none → exec (.channelDrainEnd c) s = .next s) ∧
    (u.power ≠ .spill → exec (.channelSpillEnd c) s = .next s) ∧
    (u.power = .spill → ∃ t, exec (.channelSpillEnd c) s = .next t ∧ readSpill c t = unitImage u ∧ t.strand = s.strand ∧
      unitOf t c = { u with power := if u.wake then .restore else .down }) ∧
    (u.power = .down → ∃ t, exec (.channelWake c) s = .next t ∧ unitOf t c = { u with power := .restore }) ∧
    (u.power = .drain ∨ u.power = .spill → ∃ t, exec (.channelWake c) s = .next t ∧ unitOf t c = { u with wake := true }) ∧
    (u.power = .active ∨ u.power = .restore → exec (.channelWake c) s = .next s) ∧
    (u.power ≠ .restore → exec (.channelRestoreEnd c) s = .next s) ∧
    (u.power = .restore → u.owner = none → ∃ t, exec (.channelRestoreEnd c) s = .next t ∧
      unitOf t c = { u with power := .active, wake := false }) ∧
    (u.power = .restore → u.owner ≠ none →
      let bad := isPoisoned s.mem (spillAddr c 0) 4096 || isPoisoned s.mem (spillAddr c 1) 2592
      (bad = true → ∃ t, exec (.channelRestoreEnd c) s = .next t ∧ unitOf t c = { StackUnit.reset with queue := u.queue } ∧
        Claims.Recorded s 2 1 t) ∧
      (bad = false → ∃ t, exec (.channelRestoreEnd c) s = .next t ∧ (unitOf t c).power = .active ∧ (unitOf t c).wake = false ∧
        (unitOf t c).owner = u.owner ∧ (unitOf t c).queue = u.queue ∧ t.mem = s.mem ∧
        ∀ v, readSpill c s = unitImage v → (unitOf t c).k = v.k ∧ (unitOf t c).p = v.p ∧ (unitOf t c).c = v.c ∧
          (unitOf t c).buf = v.buf ∧ ∀ i < 1536, smRead 0 (unitOf t c).n i = smRead 0 v.n i))) ∧
  (∀ (s : State) (p : Port) (pl : Place) (va n a c : Nat) (m : Bool), regionOf pl.pa = .hbm a → keyOk s p pl.key = true →
    1 ≤ n → a % 4096 + n ≤ 4096 → channelOf a = c →
    ((unitOf s c).power = .active → (∀ x ∈ s.units, x.1 = c → x.2.power = .active) →
      checkPlace p va n m pl s = (.ok (), s)) ∧
    ((unitOf s c).power = .down → (unitOf s c).owner = none → ∃ t, checkPlace p va n m pl s = (.ok (), t) ∧
      unitOf t c = { unitOf s c with power := .active, wake := false } ∧ t = { s with units := t.units }))) : Prop)

/-- A checkpoint stops dispatch and asks every strand to stop; when all are quiet the image holds the state of the cut, and
the device goes on or stays stopped. A save that stops for 2 s makes it fail. A restore brings back what the image holds, its SRAM as
far as its keys are the same, if this device has signed the image. Reset keeps HBM and the sealed blobs; the measured
images (SHAKE256 as log 106 presumes it) and the description bring the device up. -/
def Obligations.CheckpointsAndBoot : Prop :=
  (∀ (s : State) (stay : Bool), (s.hub.quiesce = true ∨ s.hub.stopped = true → exec (.checkpointRequest stay) s = .next s) ∧
    (s.hub.quiesce = false → s.hub.stopped = false → ∃ t, exec (.checkpointRequest stay) s = .next t ∧
      Claims.AllAsked s t ∧ t.hub.stopped = true ∧ t.hub.quiesce = true ∧ t.hub.stay = stay ∧ t.hub.quiescedAt = s.ac ∧
      Claims.status t 2 = 1 ∧ t.mem.bytes = s.mem.bytes)) ∧
  (∀ s : State, (s.hub.quiesce = false ∨ s.hub.thermal = true ∨ quiesced s = false → exec .checkpointCut s = .next s) ∧
    (s.hub.quiesce = true → s.hub.thermal = false → Claims.status s 2 = 1 → quiesced s = true → s.hub.deferred = [] →
      ∃ t img, exec .checkpointCut s = .next t ∧ t.images = s.images ++ [img] ∧ img.seq = s.hub.imageSeq + 1 ∧
        img.strand = s.strand ∧ img.pool = s.pool ∧ img.hoops = s.hoops ∧ img.units = s.units ∧ img.hub = s.hub ∧
        img.serial = bar0 s 0x10 16 ∧ img.signature = imageSignature img ∧
        img.blobs.length = s.hub.keys.countP (fun x => x.2.loaded) ∧
        (∃ cs, t.out = s.out ++ cs ∧ (cs.map Tlp.data).flatten = imageBody img ++ img.signature ∧
          ∀ c ∈ cs, c.kind = 1 ∧ 1 ≤ c.port ∧ c.port ≤ 3 ∧ c.data.length ≤ 1024) ∧
        (s.hub.imageSeq = 0 → img.pages = none) ∧
        (img.pages = none → img.base = 0 ∧ ∀ a < 2 ^ 39, smRead 0 img.mem.bytes a = smRead 0 s.mem.bytes a) ∧
        (img.pages ≠ none → img.base = s.hub.imageSeq) ∧ t.mem.dirty = [] ∧ t.hub.imageSeq = s.hub.imageSeq + 1 ∧
        Claims.status t 2 = 0 ∧ t.strand = s.strand ∧ t.pool = s.pool ∧ t.mem.bytes = s.mem.bytes ∧
        (s.hub.stay = true → t.hub.stopped = s.hub.stopped ∧ Claims.status t 3 = 1) ∧
        (s.hub.stay = false → t.hub.stopped = false ∧ t.hub.quiesce = false ∧ Claims.status t 3 = 0))) ∧
  (∀ s : State, ((∀ t ∈ s.strand :: s.pool, t.state = .saving → t.saveStop = false) →
      exec .checkpointTimeout s = .next s) ∧
    ((∃ t ∈ s.strand :: s.pool, t.node = none ∧ t.state = .saving ∧ t.saveStop = true) → s.hub.quiesce = true →
      s.hub.thermal = false → s.hub.stay = false → s.hub.deferred = [] →
      (s.ac < s.hub.quiescedAt + 1600000000 → exec .checkpointTimeout s = .next s) ∧
      (s.hub.quiescedAt + 1600000000 ≤ s.ac → ∃ t, exec .checkpointTimeout s = .next t ∧ Claims.Recorded s 12 3 t ∧
        t.hub.stopped = false ∧ t.hub.quiesce = false ∧ Claims.status t 2 = 0 ∧ t.strand = s.strand))) ∧
  (∀ (s : State) (n : Nat), (s.images.find? (fun i => i.seq = n) = none → exec (.checkpointRestore [n]) s = .next s) ∧
    exec (.checkpointRestore []) s = .next s ∧
    (∀ i, s.images.find? (fun i => i.seq = n) = some i → i.base ≠ 0 ∨ i.serial ≠ bar0 s 0x10 16 ∨
      i.signature ≠ imageSignature i → exec (.checkpointRestore [n]) s = .next s) ∧
    (∀ i, s.images.find? (fun i => i.seq = n) = some i → i.base = 0 → i.serial = bar0 s 0x10 16 →
      i.signature = imageSignature i → lostGrants s i = [] → i.hub.deferred = [] →
      ∃ t, exec (.checkpointRestore [n]) s = .next t ∧ t.strand = i.strand ∧ t.pool = i.pool ∧ t.units = i.units ∧
        (∀ a < 2 ^ 41, smRead 0 t.mem.bytes a = smRead 0 i.mem.bytes a) ∧
        ((∀ k, keyName (applyImage i s) k = keyName { s with hub := i.hub } k) → t.mem.bytes = i.mem.bytes) ∧
        t.mem.blockKey = i.mem.blockKey ∧ t.hub.counters = i.hub.counters ∧
        (∀ a < 0x10000, smRead 0 t.mem.bar0 a = smRead 0 s.mem.bar0 a) ∧
        t.hub.stopped = false ∧ t.images = s.images)) ∧
  (∀ (s : State) (image : List Byte) (version : Option (BitVec 64)),
    (∃ t, exec (.deviceReset image version) s = .next t ∧ t.strand = State.reset.strand ∧ t.pool = [] ∧
      t.hoops = State.reset.hoops ∧ t.units = State.reset.units ∧ t.hub.counters = State.reset.hub.counters ∧
      t.hub.keys = State.reset.hub.keys ∧ (∀ a < 2 ^ 39, smRead 0 t.mem.bytes a = smRead 0 s.mem.bytes a) ∧
      (∀ a, 2 ^ 39 ≤ a → smRead 0 t.mem.bytes a = 0) ∧ t.hub.sealed = s.hub.sealed ∧
      ((∀ v, version = some v → v < Config.fusedVersion) → Claims.status t 1 = 1) ∧
      (∀ v, version = some v → Config.fusedVersion ≤ v → t.hub.measure.toList[0]? = some (padTo 64 (shake256 image)))) ∧
    (s.hub.measure.toList[0]? = some [] → exec (.serviceRelease image version) s = .next s) ∧
    (∀ m0 m1, s.hub.measure.toList[0]? = some m0 → m0 ≠ [] → s.hub.measure.toList[1]? = some m1 →
      ∃ t, exec (.serviceRelease image version) s = .next t ∧ t.strand = s.strand ∧
        ((∀ v, version = some v → v < Config.fusedVersion) → Claims.status t 1 = 1 ∧ t.hub = s.hub) ∧
        (∀ v, version = some v → Config.fusedVersion ≤ v →
          t.hub.measure.toList[1]? = some (padTo 64 (shake256 (padTo 64 m1 ++ image))) ∧
          t.hub.measure.toList[0]? = some m0 ∧ t.mem = s.mem))) ∧
  (∀ (s : State) (d : List Byte), (s.hub.measure.toList[1]? = some [] ∨ 0x10000 < d.length →
      exec (.deviceReady d) s = .next s) ∧
    (∀ m, s.hub.measure.toList[1]? = some m → m ≠ [] → d.length ≤ 0x10000 → ∃ t, exec (.deviceReady d) s = .next t ∧
      (∀ k < d.length, k < 0x20 ∨ (0x28 ≤ k ∧ k < 0x34) ∨ 0x38 ≤ k → smRead 0 t.mem.bar0 k = d.getD k 0) ∧
      bar0 t 0x20 8 = Config.fusedVersion.toNat ∧
      bar0 t 0x34 2 = Config.fusedWarning.toNat ∧ bar0 t 0x36 2 = Config.fusedCritical.toNat ∧ Claims.status t 0 = 1 ∧ t.hub.fenced = BitVec.ofNat 4 (bar0 t 0x30 1) ∧
      t.strand = s.strand ∧ t.mem.bytes = s.mem.bytes)) ∧
  (∀ (s : State) (off : Nat) (d : List Byte),
    (0x10000 < off + d.length ∨ (off < 16 ∧ 8 < off + d.length) → exec (.deviceDescriptionUpdate off d) s = .next s) ∧
    (off + d.length ≤ 0x10000 → 16 ≤ off ∨ off + d.length ≤ 8 → ∃ t, exec (.deviceDescriptionUpdate off d) s = .next t ∧
      smReadList 0 t.mem.bar0 off d.length = d ∧ Claims.Described s t ∧ t.hub = s.hub ∧ t.strand = s.strand))
end

