-- ==== Sys2Proof/Laws/Act.lean ====
section
/-! SUPPORT. What running an action means, piece by piece, and what the scalar front makes of one. -/

namespace Sys2Proof.Machine

set_option Elab.async false

variable {α β : Type}

/-! ### Actions -/

@[simp] theorem act_pure (a : α) (s : State) : (pure a : Act α) s = (.ok a, s) := rfl

theorem act_bind (m : Act α) (f : α → Act β) (s : State) :
    (m >>= f) s = match m s with
      | (.ok a, s') => f a s'
      | (.error e, s') => (.error e, s') := by
  show (ExceptT.bind m f) s = _
  unfold ExceptT.bind ExceptT.mk
  show (StateT.bind m _) s = _
  unfold StateT.bind
  show (match m s with | (a, s') => ExceptT.bindCont f a s') = _
  rcases m s with ⟨a | a, s'⟩ <;> rfl

/-- An action whose first part answers goes on with the answer. -/
theorem act_bind_ok {m : Act α} {f : α → Act β} {s s' : State} {a : α} (h : m s = (.ok a, s')) :
    (m >>= f) s = f a s' := by rw [act_bind, h]

/-- An action whose first part stops, stops there. -/
theorem act_bind_error {m : Act α} {f : α → Act β} {s s' : State} {e : Stop} (h : m s = (.error e, s')) :
    (m >>= f) s = (.error e, s') := by rw [act_bind, h]

@[simp] theorem act_getS (s : State) : getS s = (.ok s, s) := rfl
@[simp] theorem act_getStrand (s : State) : getStrand s = (.ok s.strand, s) := rfl
@[simp] theorem act_modS (f : State → State) (s : State) : modS f s = (.ok (), f s) := rfl
@[simp] theorem act_modStrand (f : Strand → Strand) (s : State) :
    modStrand f s = (.ok (), { s with strand := f s.strand }) := rfl
@[simp] theorem act_modHub (f : Hub → Hub) (s : State) : modHub f s = (.ok (), { s with hub := f s.hub }) := rfl
@[simp] theorem act_modMem (f : Mem → Mem) (s : State) : modMem f s = (.ok (), { s with mem := f s.mem }) := rfl
@[simp] theorem act_setX (r : Reg) (v : Word) (s : State) :
    setX r v s = (.ok (), { s with strand := writeReg s.strand r v }) := rfl
@[simp] theorem act_stopWith (e : Stop) (s : State) : (stopWith e : Act α) s = (.error e, s) := rfl
@[simp] theorem act_raise (c : BitVec 8) (v : Nat) (s : State) :
    (raise c v : Act α) s = (.error (.trap { cause := c, tval := BitVec.ofNat 64 v, telem := 0 }), s) := rfl
@[simp] theorem act_waitFor (k : WaitKind) (s : State) : (waitFor k : Act α) s = (.error (.wait k), s) := rfl
@[simp] theorem act_ill (n : Nat) (s : State) :
    (ill n : Act α) s = (.error (.trap { cause := causeIll, tval := BitVec.ofNat 64 n, telem := 0 }), s) := rfl

theorem act_require (c : Bool) (n : Nat) (s : State) :
    require c n s = if c then (.ok (), s)
      else (.error (.trap { cause := causeIll, tval := BitVec.ofNat 64 n, telem := 0 }), s) := by
  cases c <;> rfl

@[simp] theorem act_require_true (n : Nat) (s : State) : require true n s = (.ok (), s) := rfl

theorem act_ite (c : Prop) [Decidable c] (m k : Act α) (s : State) :
    (if c then m else k) s = if c then m s else k s := by split <;> rfl

/-! ### The registers that an instruction needs full -/

theorem needFull_ok {rs : List Reg} {s : State} (h : ∀ r ∈ rs, isEmpty s.strand r = false) :
    needFull rs s = (.ok (), s) := by
  induction rs with
  | nil => rfl
  | cons r rs ih =>
    have hr := h r (by simp)
    simp only [needFull, act_bind, act_getStrand, hr]
    exact ih fun q hq => h q (by simp [hq])

/-- The first register of the list that is empty makes the front wait for it (R36). -/
theorem needFull_waits {rs : List Reg} {r : Reg} {qs : List Reg} {s : State}
    (h : ∀ r ∈ rs, isEmpty s.strand r = false) (he : isEmpty s.strand r = true)
    (hp : s.strand.csr.xfep.getLsbD r.toNat = false) :
    needFull (rs ++ r :: qs) s = (.error (.wait (.fe r)), s) := by
  induction rs with
  | nil =>
    simp only [List.nil_append, needFull, act_bind, act_getStrand, he, hp]
    rfl
  | cons q rs ih =>
    have hq := h q (by simp)
    simp only [List.cons_append, needFull, act_bind, act_getStrand, hq]
    exact ih fun p hp => h p (by simp [hp])

/-! ### The front -/

theorem frontStepWith_done {fin : State → State} {m : Act (Option Word)} {s s' : State} (h : m s = (.ok none, s')) :
    frontStepWith fin m s = .next (afterStep (fin s')) := by simp only [frontStepWith, h]

theorem frontStepWith_trap {fin : State → State} {m : Act (Option Word)} {s s' : State} {t : Trap}
    (h : m s = (.error (.trap t), s')) : frontStepWith fin m s = .next (frontTrap t s') := by
  simp only [frontStepWith, h]

theorem frontStepWith_wait {fin : State → State} {m : Act (Option Word)} {s s' : State} {k : WaitKind}
    (h : m s = (.error (.wait k), s')) : frontStepWith fin m s = .next (frontWait k s) := by
  simp only [frontStepWith, h]

theorem frontStep_done {m : Act (Option Word)} {s s' : State} (h : m s = (.ok none, s')) :
    frontStep m s = .next (afterStep (advance s')) := frontStepWith_done h

theorem frontStep_jump {m : Act (Option Word)} {s s' : State} {t : Word} (h : m s = (.ok (some t), s')) :
    frontStep m s = .next (afterStep (jump t s')) := by simp only [frontStep, frontStepWith, h]

theorem frontStep_trap {m : Act (Option Word)} {s s' : State} {t : Trap} (h : m s = (.error (.trap t), s')) :
    frontStep m s = .next (frontTrap t s') := frontStepWith_trap h

theorem frontStep_wait {m : Act (Option Word)} {s s' : State} {k : WaitKind} (h : m s = (.error (.wait k), s')) :
    frontStep m s = .next (frontWait k s) := frontStepWith_wait h

/-- An S instruction whose check passes and whose registers are full does its work. -/
theorem frontInstr_work {c : Act Unit} {rs : List Reg} {w : Act (Option Word)} {s : State}
    (hc : c s = (.ok (), s)) (hr : ∀ r ∈ rs, isEmpty s.strand r = false) :
    frontInstr c rs w s = frontStep w s := by
  have h : (do c; needFull rs; w : Act (Option Word)) s = w s := by
    rw [act_bind_ok hc, act_bind_ok (needFull_ok hr)]
  simp only [frontInstr, frontStep, frontStepWith, h]

/-- An S instruction whose check traps. -/
theorem frontInstr_check {c : Act Unit} {rs : List Reg} {w : Act (Option Word)} {s : State} {t : Trap}
    (hc : c s = (.error (.trap t), s)) : frontInstr c rs w s = .next (frontTrap t s) :=
  frontStep_trap (act_bind_error hc)

/-- An S instruction that computes one register from the strand: the register, then the next pc. -/
theorem writeInstr_ok {d : Reg} {rs : List Reg} {f : Strand → Word} {s : State}
    (hr : ∀ r ∈ rs ++ [d], isEmpty s.strand r = false) :
    writeInstr d rs f s =
      .next (afterStep (advance { s with strand := writeReg s.strand d (f s.strand) })) := by
  unfold writeInstr
  rw [frontInstr_work (act_pure () s) hr]
  exact frontStep_done rfl

end Sys2Proof.Machine
end

