-- ==== Sys2Proof/Laws/Encoding.lean ====
section
/-! SUPPORT. What the encoder's fields read back as, and which table of the decoder a packed word reaches. -/

namespace Sys2Proof.Laws

set_option Elab.async false

/-! ### Pieces and concatenations as numbers -/

theorem toNat_extractLsb' {n : Nat} (x : BitVec n) (s w : Nat) :
    (x.extractLsb' s w).toNat = x.toNat / 2 ^ s % 2 ^ w := by
  simp [BitVec.extractLsb', Nat.shiftRight_eq_div_pow]

theorem toNat_append' {n m : Nat} (x : BitVec n) (y : BitVec m) :
    (x ++ y).toNat = x.toNat * 2 ^ m + y.toNat := by
  rw [BitVec.toNat_append, Nat.shiftLeft_eq, Nat.mul_comm,
    ← Nat.two_pow_add_eq_or_of_lt y.isLt]

/-! ### Pieces of concatenations -/

@[simp] theorem six_one_high (c : BitVec 6) (m : BitVec 1) : (c ++ m).extractLsb' 1 6 = c := by
  revert c m; decide +kernel

@[simp] theorem six_one_low (c : BitVec 6) (m : BitVec 1) : (c ++ m).extractLsb' 0 1 = m := by
  revert c m; decide +kernel

@[simp] theorem five_one_one_high (c : BitVec 5) (q l : BitVec 1) : (c ++ q ++ l).extractLsb' 2 5 = c := by
  revert c q l; decide +kernel

@[simp] theorem five_one_one_mid (c : BitVec 5) (q l : BitVec 1) : (c ++ q ++ l).extractLsb' 1 1 = q := by
  revert c q l; decide +kernel

@[simp] theorem five_one_one_low (c : BitVec 5) (q l : BitVec 1) : (c ++ q ++ l).extractLsb' 0 1 = l := by
  revert c q l; decide +kernel

@[simp] theorem three_three_one_high (c t : BitVec 3) (m : BitVec 1) : (c ++ t ++ m).extractLsb' 4 3 = c := by
  revert c t m; decide +kernel

@[simp] theorem three_three_one_mid (c t : BitVec 3) (m : BitVec 1) : (c ++ t ++ m).extractLsb' 1 3 = t := by
  revert c t m; decide +kernel

@[simp] theorem three_three_one_low (c t : BitVec 3) (m : BitVec 1) : (c ++ t ++ m).extractLsb' 0 1 = m := by
  revert c t m; decide +kernel

@[simp] theorem six_one_mop (c : BitVec 6) (m : BitVec 1) : (c ++ m).extractLsb' 4 3 = c.extractLsb' 3 3 := by
  revert c m; decide +kernel

@[simp] theorem six_one_sub (c : BitVec 6) (m : BitVec 1) : (c ++ m).extractLsb' 1 3 = c.extractLsb' 0 3 := by
  revert c m; decide +kernel

@[simp] theorem one_six_high (c : BitVec 1) (i : BitVec 6) : (c ++ i).extractLsb' 6 1 = c := by
  revert c i; decide +kernel

@[simp] theorem one_six_low (c : BitVec 1) (i : BitVec 6) : (c ++ i).extractLsb' 0 6 = i := by
  revert c i; decide +kernel

@[simp] theorem four_one_high (c : BitVec 4) (m : BitVec 1) : (c ++ m).extractLsb' 1 4 = c := by
  revert c m; decide +kernel

@[simp] theorem four_one_low (c : BitVec 4) (m : BitVec 1) : (c ++ m).extractLsb' 0 1 = m := by
  revert c m; decide +kernel

@[simp] theorem one_one_three_mid (s z : BitVec 1) (w : BitVec 3) : (s ++ z ++ w).extractLsb' 3 1 = z := by
  revert s z w; decide +kernel

@[simp] theorem one_one_three_high (s z : BitVec 1) (w : BitVec 3) : (s ++ z ++ w).extractLsb' 4 1 = s := by
  revert s z w; decide +kernel

@[simp] theorem one_one_three_low (s z : BitVec 1) (w : BitVec 3) : (s ++ z ++ w).extractLsb' 0 3 = w := by
  revert s z w; decide +kernel

@[simp] theorem ones_4 (z i e v s : BitVec 1) : (z ++ i ++ e ++ v ++ s).extractLsb' 4 1 = z := by
  revert z i e v s; decide +kernel

@[simp] theorem ones_3 (z i e v s : BitVec 1) : (z ++ i ++ e ++ v ++ s).extractLsb' 3 1 = i := by
  revert z i e v s; decide +kernel

@[simp] theorem ones_2 (z i e v s : BitVec 1) : (z ++ i ++ e ++ v ++ s).extractLsb' 2 1 = e := by
  revert z i e v s; decide +kernel

@[simp] theorem ones_1 (z i e v s : BitVec 1) : (z ++ i ++ e ++ v ++ s).extractLsb' 1 1 = v := by
  revert z i e v s; decide +kernel

@[simp] theorem ones_0 (z i e v s : BitVec 1) : (z ++ i ++ e ++ v ++ s).extractLsb' 0 1 = s := by
  revert z i e v s; decide +kernel

@[simp] theorem su_10_1_high (c : BitVec 10) (i : BitVec 1) : (c ++ i).extractLsb' 1 10 = c := by
  revert c i; decide +kernel

@[simp] theorem su_10_1_low (c : BitVec 10) (i : BitVec 1) : (c ++ i).extractLsb' 0 1 = i := by
  revert c i; decide +kernel

@[simp] theorem su_9_2_high (c : BitVec 9) (i : BitVec 2) : (c ++ i).extractLsb' 2 9 = c := by
  revert c i; decide +kernel

@[simp] theorem su_9_2_low (c : BitVec 9) (i : BitVec 2) : (c ++ i).extractLsb' 0 2 = i := by
  revert c i; decide +kernel

@[simp] theorem su_7_4_high (c : BitVec 7) (i : BitVec 4) : (c ++ i).extractLsb' 4 7 = c := by
  revert c i; decide +kernel

@[simp] theorem su_7_4_low (c : BitVec 7) (i : BitVec 4) : (c ++ i).extractLsb' 0 4 = i := by
  revert c i; decide +kernel

/-! ### Immediates put together again -/

@[simp] theorem imm_split_5_7 (i : BitVec 12) : i.extractLsb' 5 7 ++ i.extractLsb' 0 5 = i := by
  apply BitVec.eq_of_toNat_eq
  simp only [toNat_append', toNat_extractLsb']
  have := i.isLt
  omega

@[simp] theorem imm_split_5_6 (i : BitVec 11) : i.extractLsb' 5 6 ++ i.extractLsb' 0 5 = i := by
  apply BitVec.eq_of_toNat_eq
  simp only [toNat_append', toNat_extractLsb']
  have := i.isLt
  omega

@[simp] theorem shift_low (c : BitVec 6) (h : BitVec 6) :
    (c ++ h.extractLsb' 5 1).extractLsb' 0 1 ++ h.extractLsb' 0 5 = h := by
  apply BitVec.eq_of_toNat_eq
  simp only [toNat_append', toNat_extractLsb']
  have := c.isLt
  have := h.isLt
  omega

@[simp] theorem shift_split (h : BitVec 6) : h.extractLsb' 5 1 ++ h.extractLsb' 0 5 = h := by
  revert h; decide +kernel

theorem immB_join (i : BitVec 12) : i.extractLsb' 11 1 ++
    (i.extractLsb' 10 1 ++ (i.extractLsb' 4 6 ++ i.extractLsb' 0 4)) = i := by
  apply BitVec.eq_of_toNat_eq
  simp only [toNat_append', toNat_extractLsb']
  have := i.isLt
  omega

theorem immU_join (i : BitVec 20) :
    i.extractLsb' 13 7 ++ (i.extractLsb' 8 5 ++ (i.extractLsb' 3 5 ++ i.extractLsb' 0 3)) = i := by
  apply BitVec.eq_of_toNat_eq
  simp only [toNat_append', toNat_extractLsb']
  have := i.isLt
  omega

theorem immJ_join (i : BitVec 20) : i.extractLsb' 19 1 ++ (i.extractLsb' 14 5 ++ i.extractLsb' 11 3 ++
    (i.extractLsb' 10 1 ++ (i.extractLsb' 4 6 ++ i.extractLsb' 0 4))) = i := by
  apply BitVec.eq_of_toNat_eq
  simp only [toNat_append', toNat_extractLsb']
  have := i.isLt
  omega

theorem fence_imm (f p s : BitVec 4) : (f ++ p.extractLsb' 1 3) ++ (p.extractLsb' 0 1 ++ s) = f ++ p ++ s := by
  apply BitVec.eq_of_toNat_eq
  simp only [toNat_append', toNat_extractLsb']
  have := f.isLt
  have := p.isLt
  have := s.isLt
  omega

theorem fence_high (f p s : BitVec 4) : (f ++ p ++ s).extractLsb' 8 4 = f := by
  apply BitVec.eq_of_toNat_eq
  simp only [toNat_append', toNat_extractLsb']
  have := f.isLt
  have := p.isLt
  have := s.isLt
  omega

theorem fence_mid (f p s : BitVec 4) : (f ++ p ++ s).extractLsb' 4 4 = p := by
  apply BitVec.eq_of_toNat_eq
  simp only [toNat_append', toNat_extractLsb']
  have := f.isLt
  have := p.isLt
  have := s.isLt
  omega

theorem fence_low (f p s : BitVec 4) : (f ++ p ++ s).extractLsb' 0 4 = s := by
  apply BitVec.eq_of_toNat_eq
  simp only [toNat_append', toNat_extractLsb']
  have := f.isLt
  have := p.isLt
  have := s.isLt
  omega

theorem fence_tso (f p s : BitVec 4) : f ++ p ++ s = 0b100000110011#12 → f = 8 ∧ p = 3 ∧ s = 3 := by
  intro h
  have h := congrArg BitVec.toNat h
  simp only [toNat_append'] at h
  have := f.isLt
  have := p.isLt
  have := s.isLt
  refine ⟨BitVec.eq_of_toNat_eq ?_, BitVec.eq_of_toNat_eq ?_, BitVec.eq_of_toNat_eq ?_⟩ <;> simp at h ⊢ <;> omega

/-! ### The six fields of a packed word -/

theorem ofWord_pack (f7 : BitVec 7) (r2 r1 : BitVec 5) (f3 : BitVec 3) (rd : BitVec 5) (op : BitVec 7) :
    Fields.ofWord (Fields.pack f7 r2 r1 f3 rd op) = ⟨f7, r2, r1, f3, rd, op⟩ := by
  have h7 := f7.isLt; have h2 := r2.isLt; have h1 := r1.isLt
  have h3 := f3.isLt; have hd := rd.isLt; have ho := op.isLt
  simp only [Fields.ofWord, Fields.pack, Fields.mk.injEq]
  refine ⟨?_, ?_, ?_, ?_, ?_, ?_⟩ <;>
  · apply BitVec.eq_of_toNat_eq
    simp only [toNat_append', toNat_extractLsb']
    omega

theorem ofWord_packSu (op : BitVec 6) (d a b : BitVec 5) (i : BitVec 11) :
    SuFields.ofWord (SuFields.pack op d a b i) = ⟨op, d, a, b, i⟩ := by
  have h0 := op.isLt; have hd := d.isLt; have ha := a.isLt; have hb := b.isLt; have hi := i.isLt
  simp only [SuFields.ofWord, SuFields.pack, SuFields.mk.injEq]
  refine ⟨?_, ?_, ?_, ?_, ?_⟩ <;>
  · apply BitVec.eq_of_toNat_eq
    simp only [toNat_append', toNat_extractLsb']
    omega

/-! ### The table that a packed word reaches -/

theorem decode_pack (f7 : BitVec 7) (r2 r1 : BitVec 5) (f3 : BitVec 3) (rd : BitVec 5) (op : BitVec 7) :
    decode (Fields.pack f7 r2 r1 f3 rd op) = decodeFields ⟨f7, r2, r1, f3, rd, op⟩ := by
  rw [decode, ofWord_pack]

theorem decodeSu_pack (op : BitVec 6) (d a b : BitVec 5) (i : BitVec 11) :
    decodeSu (SuFields.pack op d a b i) = decodeSuFields ⟨op, d, a, b, i⟩ := by
  rw [decodeSu, ofWord_packSu]

variable (f7 : BitVec 7) (r2 r1 : BitVec 5) (f3 : BitVec 3) (rd : BitVec 5)

theorem decode_pack_Branch : decode (Fields.pack f7 r2 r1 f3 rd 0b1100011#7) = decodeBranch ⟨f7, r2, r1, f3, rd, 0b1100011#7⟩ := by
  rw [decode_pack]; simp [decodeFields]

theorem decode_pack_Load : decode (Fields.pack f7 r2 r1 f3 rd 0b0000011#7) = decodeLoad ⟨f7, r2, r1, f3, rd, 0b0000011#7⟩ := by
  rw [decode_pack]; simp [decodeFields]

theorem decode_pack_Store : decode (Fields.pack f7 r2 r1 f3 rd 0b0100011#7) = decodeStore ⟨f7, r2, r1, f3, rd, 0b0100011#7⟩ := by
  rw [decode_pack]; simp [decodeFields]

theorem decode_pack_OpImm : decode (Fields.pack f7 r2 r1 f3 rd 0b0010011#7) = decodeOpImm ⟨f7, r2, r1, f3, rd, 0b0010011#7⟩ := by
  rw [decode_pack]; simp [decodeFields]

theorem decode_pack_OpImm32 : decode (Fields.pack f7 r2 r1 f3 rd 0b0011011#7) = decodeOpImm32 ⟨f7, r2, r1, f3, rd, 0b0011011#7⟩ := by
  rw [decode_pack]; simp [decodeFields]

theorem decode_pack_Op : decode (Fields.pack f7 r2 r1 f3 rd 0b0110011#7) = decodeOp ⟨f7, r2, r1, f3, rd, 0b0110011#7⟩ := by
  rw [decode_pack]; simp [decodeFields]

theorem decode_pack_Op32 : decode (Fields.pack f7 r2 r1 f3 rd 0b0111011#7) = decodeOp32 ⟨f7, r2, r1, f3, rd, 0b0111011#7⟩ := by
  rw [decode_pack]; simp [decodeFields]

theorem decode_pack_Amo : decode (Fields.pack f7 r2 r1 f3 rd 0b0101111#7) = decodeAmo ⟨f7, r2, r1, f3, rd, 0b0101111#7⟩ := by
  rw [decode_pack]; simp [decodeFields]

theorem decode_pack_MiscMem : decode (Fields.pack f7 r2 r1 f3 rd 0b0001111#7) = decodeMiscMem ⟨f7, r2, r1, f3, rd, 0b0001111#7⟩ := by
  rw [decode_pack]; simp [decodeFields]

theorem decode_pack_System : decode (Fields.pack f7 r2 r1 f3 rd 0b1110011#7) = decodeSystem ⟨f7, r2, r1, f3, rd, 0b1110011#7⟩ := by
  rw [decode_pack]; simp [decodeFields]

theorem decode_pack_Vm : decode (Fields.pack f7 r2 r1 f3 rd 0b0101011#7) = decodeVm ⟨f7, r2, r1, f3, rd, 0b0101011#7⟩ := by
  rw [decode_pack]; simp [decodeFields]

theorem decode_pack_Ex : decode (Fields.pack f7 r2 r1 f3 rd 0b1011011#7) = decodeEx ⟨f7, r2, r1, f3, rd, 0b1011011#7⟩ := by
  rw [decode_pack]; simp [decodeFields]

theorem decode_pack_Cx : decode (Fields.pack f7 r2 r1 f3 rd 0b1111011#7) = decodeCx ⟨f7, r2, r1, f3, rd, 0b1111011#7⟩ := by
  rw [decode_pack]; simp [decodeFields]

theorem decode_pack_IntVv : decode (Fields.pack f7 r2 r1 0b000#3 rd 0b0001011#7) =
    decodeIntVv ⟨f7, r2, r1, 0b000#3, rd, 0b0001011#7⟩ := by
  rw [decode_pack]; simp [decodeFields, decodeVa]

theorem decode_pack_IntVx : decode (Fields.pack f7 r2 r1 0b001#3 rd 0b0001011#7) =
    decodeIntVx ⟨f7, r2, r1, 0b001#3, rd, 0b0001011#7⟩ := by
  rw [decode_pack]; simp [decodeFields, decodeVa]

theorem decode_pack_IntVi : decode (Fields.pack f7 r2 r1 0b010#3 rd 0b0001011#7) =
    decodeIntVi ⟨f7, r2, r1, 0b010#3, rd, 0b0001011#7⟩ := by
  rw [decode_pack]; simp [decodeFields, decodeVa]

theorem decode_pack_FloatVv : decode (Fields.pack f7 r2 r1 0b011#3 rd 0b0001011#7) =
    decodeFloatVv ⟨f7, r2, r1, 0b011#3, rd, 0b0001011#7⟩ := by
  rw [decode_pack]; simp [decodeFields, decodeVa]

theorem decode_pack_FloatVf : decode (Fields.pack f7 r2 r1 0b100#3 rd 0b0001011#7) =
    decodeFloatVf ⟨f7, r2, r1, 0b100#3, rd, 0b0001011#7⟩ := by
  rw [decode_pack]; simp [decodeFields, decodeVa]

theorem decode_pack_MaskAssoc : decode (Fields.pack f7 r2 r1 0b101#3 rd 0b0001011#7) =
    decodeMaskAssoc ⟨f7, r2, r1, 0b101#3, rd, 0b0001011#7⟩ := by
  rw [decode_pack]; simp [decodeFields, decodeVa]

theorem decode_pack_Scale : decode (Fields.pack f7 r2 r1 0b110#3 rd 0b0001011#7) =
    decodeScale ⟨f7, r2, r1, 0b110#3, rd, 0b0001011#7⟩ := by
  rw [decode_pack]; simp [decodeFields, decodeVa]

theorem decode_fence (f p s : BitVec 4) (h : (Instr.fence f p s).wf = true) :
    decode (Fields.pack (f ++ p.extractLsb' 1 3) (p.extractLsb' 0 1 ++ s) 0b00000#5 0b000#3 0b00000#5 0b0001111#7) =
      .ok (.fence f p s) := by
  have ht : f ++ p ++ s ≠ 0b100000110011#12 := fun e => by
    obtain ⟨rfl, rfl, rfl⟩ := fence_tso f p s e
    exact absurd h (by decide)
  have hf : f = 0#4 ∨ f = 8#4 := by
    have h : ((f = 0 || f = 8) && !(f = 8 && p = 3 && s = 3)) = true := h
    simp only [Bool.and_eq_true, Bool.or_eq_true, decide_eq_true_eq] at h
    exact h.1
  rw [decode_pack_MiscMem]
  simp only [decodeMiscMem, Fields.immI, fence_imm, fence_high, fence_mid, fence_low]
  rw [if_neg (by simp), if_neg (by simp), if_neg ht, if_pos hf]
end Sys2Proof.Laws
end

