-- ==== Sys2Proof/Laws/Maps.lean ====
section
/-! SUPPORT. Sparse maps: what a read gives after a write, and that every operation keeps the canonical form; bytes
and numbers. -/

namespace Sys2Proof.Machine

set_option Elab.async false

variable {α : Type}

/-- A fold of steps that each keep a property keeps it. -/
theorem foldl_keeps {α β : Type} (P : β → Prop) (f : β → α → β) (hf : ∀ b a, P b → P (f b a)) :
    ∀ (l : List α) (b : β), P b → P (l.foldl f b) := by
  intro l
  induction l with
  | nil => intro b h; exact h
  | cons a l ih => intro b h; exact ih _ (hf b a h)

/-! ### Reads after writes -/

theorem smGet_smSet_same (m : SMap α) (k : Nat) (v : α) : smGet (smSet m k v) k = some v := by
  induction m with
  | nil => simp [smSet, smGet]
  | cons e m ih =>
    obtain ⟨j, w⟩ := e
    unfold smSet
    split
    · simp [smGet]
    · split
      · simp only [smGet]; rw [if_neg (by assumption)]; exact ih
      · simp [smGet]

theorem smGet_smSet_other (m : SMap α) (j k : Nat) (v : α) (h : j ≠ k) : smGet (smSet m k v) j = smGet m j := by
  induction m with
  | nil => simp [smSet, smGet, Ne.symm h]
  | cons e m ih =>
    obtain ⟨i, w⟩ := e
    unfold smSet
    split
    · rename_i hi; subst hi; simp [smGet, Ne.symm h]
    · split
      · simp only [smGet, ih]
      · simp [smGet, Ne.symm h]

theorem smGet_smDel_same (m : SMap α) (k : Nat) : smGet (smDel m k) k = none := by
  induction m with
  | nil => rfl
  | cons e m ih =>
    obtain ⟨i, w⟩ := e
    unfold smDel
    split
    · exact ih
    · simp only [smGet]; rw [if_neg (by assumption)]; exact ih

theorem smGet_smDel_other (m : SMap α) (j k : Nat) (h : j ≠ k) : smGet (smDel m k) j = smGet m j := by
  induction m with
  | nil => rfl
  | cons e m ih =>
    obtain ⟨i, w⟩ := e
    unfold smDel
    split
    · rename_i hi; subst hi; simp only [smGet]; rw [if_neg (Ne.symm h)]; exact ih
    · simp only [smGet, ih]

/-- A key reads as it was written. -/
theorem smRead_smWrite_same [DecidableEq α] (d : α) (m : SMap α) (k : Nat) (v : α) :
    smRead d (smWrite d m k v) k = v := by
  unfold smWrite smRead
  split
  · rename_i h; subst h; simp [smGet_smDel_same]
  · simp [smGet_smSet_same]

/-- Writing one key leaves the others. -/
theorem smRead_smWrite_other [DecidableEq α] (d : α) (m : SMap α) (j k : Nat) (v : α) (h : j ≠ k) :
    smRead d (smWrite d m k v) j = smRead d m j := by
  unfold smWrite smRead
  split
  · rw [smGet_smDel_other _ _ _ h]
  · rw [smGet_smSet_other _ _ _ _ h]

/-- Consecutive keys, outside the range. -/
theorem smRead_smWriteList_other [DecidableEq α] (d : α) (vs : List α) :
    ∀ (m : SMap α) (k j : Nat), j < k ∨ k + vs.length ≤ j → smRead d (smWriteList d m k vs) j = smRead d m j := by
  induction vs with
  | nil => intro m k j _; rfl
  | cons v vs ih =>
    intro m k j h
    simp only [List.length_cons] at h
    rw [smWriteList, ih _ _ _ (by omega), smRead_smWrite_other _ _ _ _ _ (by omega)]

/-- Consecutive keys, inside the range. -/
theorem smRead_smWriteList_same [DecidableEq α] (d : α) (vs : List α) :
    ∀ (m : SMap α) (k i : Nat) (h : i < vs.length), smRead d (smWriteList d m k vs) (k + i) = vs[i] := by
  induction vs with
  | nil => intro _ _ i h; cases h
  | cons v vs ih =>
    intro m k i h
    cases i with
    | zero =>
      rw [smWriteList, smRead_smWriteList_other _ _ _ _ _ (by omega)]
      simpa using smRead_smWrite_same d m k v
    | succ i =>
      have := ih (smWrite d m k v) (k + 1) i (by simpa using h)
      rw [smWriteList]
      simpa [Nat.add_assoc, Nat.add_comm 1 i] using this

theorem length_smReadList (d : α) (m : SMap α) : ∀ (n k : Nat), (smReadList d m k n).length = n := by
  intro n
  induction n with
  | zero => intro _; rfl
  | succ n ih => intro k; simp [smReadList, ih]

theorem getElem_smReadList (d : α) (m : SMap α) :
    ∀ (n k i : Nat) (h : i < (smReadList d m k n).length), (smReadList d m k n)[i] = smRead d m (k + i) := by
  intro n
  induction n with
  | zero => intro k i h; simp [smReadList] at h
  | succ n ih =>
    intro k i h
    cases i with
    | zero => rfl
    | succ i =>
      have := ih (k + 1) i (by simpa [smReadList] using h)
      simp only [smReadList, List.getElem_cons_succ, this]
      congr 1; omega

/-- A range reads as it was written. -/
theorem smReadList_smWriteList_same [DecidableEq α] (d : α) (m : SMap α) (k : Nat) (vs : List α) :
    smReadList d (smWriteList d m k vs) k vs.length = vs := by
  apply List.ext_getElem (length_smReadList _ _ _ _)
  intro i h _
  rw [getElem_smReadList, smRead_smWriteList_same _ _ _ _ _ (by simpa [length_smReadList] using h)]

/-- A range apart from the one written reads as before. -/
theorem smReadList_smWriteList_other [DecidableEq α] (d : α) (m : SMap α) (j n k : Nat) (vs : List α)
    (h : j + n ≤ k ∨ k + vs.length ≤ j) :
    smReadList d (smWriteList d m k vs) j n = smReadList d m j n := by
  apply List.ext_getElem (by simp [length_smReadList])
  intro i h1 _
  rw [length_smReadList] at h1
  rw [getElem_smReadList, getElem_smReadList, smRead_smWriteList_other _ _ _ _ _ (by omega)]

/-- Every key reads through the function, which fixes the unlisted value. -/
theorem smRead_smMap [DecidableEq α] (d : α) (f : α → α) (m : SMap α) (k : Nat) (h : f d = d) :
    smRead d (smMap d (fun _ v => f v) m) k = f (smRead d m k) := by
  unfold smRead
  induction m with
  | nil => simp [smMap, smGet, h]
  | cons e m ih =>
    obtain ⟨j, v⟩ := e
    unfold smMap
    by_cases hv : f v = d
    · rw [if_pos hv]
      by_cases hk : j = k
      · subst hk; rw [smGet_smDel_same]; simp [smGet, hv]
      · rw [smGet_smDel_other _ _ _ (Ne.symm hk)]; simp only [smGet, hk, if_false]; exact ih
    · rw [if_neg hv]
      by_cases hk : j = k
      · subst hk; simp [smGet]
      · simp only [smGet, hk, if_false]; exact ih

/-! ### The canonical form -/

theorem smRising_iff (m : SMap α) : smRising m = true ↔ m.Pairwise fun a b => a.1 < b.1 := by
  simp [smRising]

theorem smRising_nil : smRising ([] : SMap α) = true := by simp [smRising]

theorem mem_smDel {m : SMap α} {k : Nat} {e : Nat × α} (h : e ∈ smDel m k) : e ∈ m := by
  induction m with
  | nil => exact h
  | cons f m ih =>
    obtain ⟨i, w⟩ := f
    unfold smDel at h
    split at h
    · exact List.mem_cons_of_mem _ (ih h)
    · rcases List.mem_cons.1 h with rfl | h
      · exact List.mem_cons_self
      · exact List.mem_cons_of_mem _ (ih h)

theorem mem_smSet {m : SMap α} {k : Nat} {v : α} {e : Nat × α} (h : e ∈ smSet m k v) : e = (k, v) ∨ e ∈ m := by
  induction m with
  | nil => simpa [smSet] using h
  | cons f m ih =>
    obtain ⟨i, w⟩ := f
    unfold smSet at h
    split at h
    · rcases List.mem_cons.1 h with rfl | h
      · exact .inl rfl
      · exact .inr (List.mem_cons_of_mem _ h)
    · split at h
      · rcases List.mem_cons.1 h with rfl | h
        · exact .inr List.mem_cons_self
        · exact (ih h).imp id (List.mem_cons_of_mem _)
      · rcases List.mem_cons.1 h with rfl | h
        · exact .inl rfl
        · exact .inr h

theorem smRising_smDel {m : SMap α} (k : Nat) (h : smRising m = true) : smRising (smDel m k) = true := by
  rw [smRising_iff] at h ⊢
  induction m with
  | nil => exact h
  | cons f m ih =>
    obtain ⟨i, w⟩ := f
    rw [List.pairwise_cons] at h
    unfold smDel
    split
    · exact ih h.2
    · exact List.pairwise_cons.2 ⟨fun e he => h.1 e (mem_smDel he), ih h.2⟩

theorem smRising_smSet {m : SMap α} (k : Nat) (v : α) (h : smRising m = true) : smRising (smSet m k v) = true := by
  rw [smRising_iff] at h ⊢
  induction m with
  | nil => simp [smSet]
  | cons f m ih =>
    obtain ⟨i, w⟩ := f
    rw [List.pairwise_cons] at h
    unfold smSet
    split
    · rename_i hi; subst hi; exact List.pairwise_cons.2 ⟨h.1, h.2⟩
    · split
      · refine List.pairwise_cons.2 ⟨fun e he => ?_, ih h.2⟩
        rcases mem_smSet he with rfl | he
        · assumption
        · exact h.1 e he
      · rename_i h1 h2
        have h1 : ¬ i = k := h1
        refine List.pairwise_cons.2 ⟨fun e he => ?_, List.pairwise_cons.2 h⟩
        rcases List.mem_cons.1 he with rfl | he
        · show k < i; omega
        · exact Nat.lt_trans (show k < i by omega) (h.1 e he)

theorem smWf_iff [DecidableEq α] (d : α) (m : SMap α) :
    smWf d m = true ↔ smRising m = true ∧ ∀ e ∈ m, e.2 ≠ d := by
  simp [smWf]

theorem smWf_nil [DecidableEq α] (d : α) : smWf d ([] : SMap α) = true := by simp [smWf_iff, smRising]

theorem smWf_smDel [DecidableEq α] {d : α} {m : SMap α} (k : Nat) (h : smWf d m = true) :
    smWf d (smDel m k) = true := by
  rw [smWf_iff] at h ⊢
  exact ⟨smRising_smDel k h.1, fun e he => h.2 e (mem_smDel he)⟩

theorem smWf_smWrite [DecidableEq α] {d : α} {m : SMap α} (k : Nat) (v : α) (h : smWf d m = true) :
    smWf d (smWrite d m k v) = true := by
  unfold smWrite
  split
  · exact smWf_smDel k h
  · rename_i hv
    rw [smWf_iff] at h ⊢
    refine ⟨smRising_smSet k v h.1, fun e he => ?_⟩
    rcases mem_smSet he with rfl | he
    · exact hv
    · exact h.2 e he

theorem smWf_smWriteList [DecidableEq α] {d : α} (vs : List α) :
    ∀ {m : SMap α} (k : Nat), smWf d m = true → smWf d (smWriteList d m k vs) = true := by
  induction vs with
  | nil => intro m k h; exact h
  | cons v vs ih => intro m k h; exact ih (k + 1) (smWf_smWrite k v h)

theorem smRising_filter {m : SMap α} (p : Nat × α → Bool) (h : smRising m = true) : smRising (m.filter p) = true := by
  rw [smRising_iff] at h ⊢
  exact h.filter p

theorem smWf_filter [DecidableEq α] {d : α} {m : SMap α} (p : Nat × α → Bool) (h : smWf d m = true) :
    smWf d (m.filter p) = true := by
  rw [smWf_iff] at h ⊢
  exact ⟨smRising_filter p h.1, fun e he => h.2 e (List.mem_filter.1 he).1⟩

/-! ### Bytes and numbers -/

@[simp] theorem length_leBytes : ∀ (n v : Nat), (leBytes n v).length = n := by
  intro n
  induction n with
  | zero => intro _; rfl
  | succ n ih => intro v; simp [leBytes, ih]

/-- The bytes of a number, read again, give it modulo their width (R4). -/
theorem leNat_leBytes : ∀ (n v : Nat), leNat (leBytes n v) = v % 2 ^ (8 * n) := by
  intro n
  induction n with
  | zero => intro v; simp [leBytes, leNat, Nat.mod_one]
  | succ n ih =>
    intro v
    have : 2 ^ (8 * (n + 1)) = 256 * 2 ^ (8 * n) := by rw [Nat.mul_add, Nat.pow_add]; omega
    rw [leBytes, leNat, ih, this, Nat.mod_mul, BitVec.toNat_ofNat]

end Sys2Proof.Machine
end

