-- ==== Sys2Proof/Laws/Memory.lean ====
section
/-! SUPPORT. Memory: the canonical form is kept by every operation, bytes read as they were written, and bytes apart
from a write read as before. -/

namespace Sys2Proof.Machine

set_option Elab.async false

/-! ### Which units a range touches -/

theorem mem_touched {size a n q : Nat} (_hs : 0 < size) (hn : 0 < n) :
    q ∈ touched size a n ↔ a / size ≤ q ∧ q ≤ (a + n - 1) / size := by
  have hm : a / size ≤ (a + n - 1) / size := Nat.div_le_div_right (by omega)
  unfold touched
  rw [if_neg (by omega)]
  simp only [List.mem_map, List.mem_range]
  constructor
  · rintro ⟨i, hi, rfl⟩; omega
  · intro h; exact ⟨q - a / size, by omega, by omega⟩

theorem touched_of_mem {size a n b : Nat} (hs : 0 < size) (h1 : a ≤ b) (h2 : b < a + n) : b / size ∈ touched size a n :=
  (mem_touched hs (by omega)).2 ⟨Nat.div_le_div_right h1, Nat.div_le_div_right (by omega)⟩

/-! ### The canonical form -/

theorem Mem.wf_iff (m : Mem) : m.wf = true ↔ smWf 0 m.bytes = true ∧ smRising m.blockKey = true ∧
    smRising m.poison = true ∧ smWf 0 m.stamps = true ∧ smRising m.dirty = true ∧ smWf 0 m.bar0 = true := by
  simp [Mem.wf, and_assoc]

theorem Mem.wf_reset : Mem.reset.wf = true := by decide

theorem rekeyBlock_wf {m : Mem} (k l : Nat) (h : m.wf = true) : (rekeyBlock m k l).wf = true := by
  rw [Mem.wf_iff] at h
  obtain ⟨h1, h2, h3⟩ := h
  unfold rekeyBlock
  split
  · split
    · exact (Mem.wf_iff m).2 ⟨h1, h2, h3⟩
    · exact (Mem.wf_iff _).2 ⟨smWf_smWriteList _ _ h1, smRising_smSet _ _ h2, h3⟩
  · exact (Mem.wf_iff _).2 ⟨h1, smRising_smSet _ _ h2, h3⟩

theorem clearPoison_wf {m : Mem} (a n : Nat) (h : m.wf = true) : (clearPoison m a n).wf = true := by
  unfold clearPoison
  refine foldl_keeps (fun m : Mem => m.wf = true) _ (fun m w hm => ?_) _ _ h
  split
  · exact hm
  · rw [Mem.wf_iff] at hm ⊢
    obtain ⟨h1, h2, h3, h4⟩ := hm
    refine ⟨?_, h2, smRising_smDel _ h3, h4⟩
    refine foldl_keeps (fun b => smWf 0 b = true) _ (fun b o hb => ?_) _ _ h1
    split
    · exact hb
    · exact smWf_smDel _ hb

theorem addPoison_wf {m : Mem} (a n : Nat) (h : m.wf = true) : (addPoison m a n).wf = true := by
  rw [Mem.wf_iff] at h
  obtain ⟨h1, h2, h3, h4⟩ := h
  exact (Mem.wf_iff _).2 ⟨h1, h2,
    foldl_keeps (fun b => smRising b = true) _ (fun b w hb => smRising_smSet w () hb) _ _ h3, h4⟩

theorem storeBytes_wf {m : Mem} (k : Option Nat) (a : Nat) (bs : List Byte) (h : m.wf = true) :
    (storeBytes m k a bs).wf = true := by
  have h1 : (match k with
      | some k => (touched 16 a bs.length).foldl (fun m l => rekeyBlock m k l) m
      | none => m).wf = true := by
    cases k with
    | none => exact h
    | some k => exact foldl_keeps (fun m : Mem => m.wf = true) _ (fun m l hm => rekeyBlock_wf k l hm) _ _ h
  have h2 := (Mem.wf_iff _).1 (clearPoison_wf a bs.length h1)
  unfold storeBytes
  refine (Mem.wf_iff _).2 ⟨smWf_smWriteList _ _ h2.1, h2.2.1, h2.2.2.1, h2.2.2.2.1, ?_, h2.2.2.2.2.2⟩
  cases k with
  | none => exact h2.2.2.2.2.1
  | some k => exact foldl_keeps (fun d => smRising d = true) _ (fun d p hd => smRising_smSet p () hd) _ _ h2.2.2.2.2.1

theorem hbmWrite_wf {s : State} (slot a : Nat) (bs : List Byte) (h : s.mem.wf = true) :
    (hbmWrite slot a bs s).mem.wf = true := storeBytes_wf _ _ _ h

theorem setBar0_wf {s : State} (off n v : Nat) (h : s.mem.wf = true) : (setBar0 off n v s).mem.wf = true := by
  rw [Mem.wf_iff] at h
  exact (Mem.wf_iff _).2 ⟨h.1, h.2.1, h.2.2.1, h.2.2.2.1, h.2.2.2.2.1, smWf_smWriteList _ _ h.2.2.2.2.2⟩

theorem stamp_wf {m : Mem} (k : Nat) (v : BitVec 16) (h : m.wf = true) :
    Mem.wf { m with stamps := smWrite 0 m.stamps k v } = true := by
  rw [Mem.wf_iff] at h
  exact (Mem.wf_iff _).2 ⟨h.1, h.2.1, h.2.2.1, smWf_smWrite _ _ h.2.2.2.1, h.2.2.2.2⟩

/-- Entries may be taken out of memory, and of what is kept beside it. -/
theorem filter_wf {m : Mem} (p : Nat × Byte → Bool) (q : Nat × Nat → Bool) (r : Nat × Unit → Bool)
    (c : Nat × BitVec 16 → Bool) (h : m.wf = true) :
    Mem.wf { m with bytes := m.bytes.filter p, blockKey := m.blockKey.filter q, poison := m.poison.filter r
                    stamps := m.stamps.filter c } = true := by
  rw [Mem.wf_iff] at h
  exact (Mem.wf_iff _).2 ⟨smWf_filter p h.1, smRising_filter q h.2.1, smRising_filter r h.2.2.1, smWf_filter c h.2.2.2.1,
    h.2.2.2.2⟩

theorem zeroCarveOut_wf {m : Mem} (asid : BitVec 12) (h : m.wf = true) : (zeroCarveOut asid m).wf = true := by
  rw [Mem.wf_iff] at h
  exact (Mem.wf_iff _).2 ⟨h.1, h.2.1, h.2.2.1, smWf_filter _ h.2.2.2.1, h.2.2.2.2⟩

/-! ### Channels that an access wakes -/

theorem reloadUnit_mem (c : Nat) (s : State) : (reloadUnit c s).mem = s.mem := by
  have h (v : StackUnit) : (setUnit c v s).mem = s.mem := rfl
  unfold reloadUnit
  dsimp only
  split
  · exact h _
  · split
    · exact h { StackUnit.reset with queue := (unitOf s c).queue }
    · exact h _

/-- Waking a channel writes no memory. -/
theorem wakeChannels_mem (a n : Nat) (s : State) : (wakeChannels a n s).mem = s.mem :=
  foldl_keeps (fun t : State => t.mem = s.mem) _ (fun t c h => (reloadUnit_mem c t).trans h) _ _ rfl

/-- An access to channels that are up changes nothing. -/
theorem wakeChannels_up (a n : Nat) (s : State) (h : ∀ x ∈ s.units, x.2.power.asleep = false) : wakeChannels a n s = s := by
  have : s.units.filter (fun x => x.2.power.asleep) = [] := List.filter_eq_nil_iff.2 fun x hx => by simp [h x hx]
  unfold wakeChannels
  rw [this]
  rfl

/-! ### Registers of the bus -/

/-- A register of BAR0 reads as it was written. -/
theorem bar0_setBar0_same (s : State) (off n v : Nat) : bar0 (setBar0 off n v s) off n = v % 2 ^ (8 * n) := by
  show leNat (smReadList 0 (smWriteList 0 s.mem.bar0 off (leBytes n v)) off n) = _
  have h := smReadList_smWriteList_same 0 s.mem.bar0 off (leBytes n v)
  rw [length_leBytes] at h
  rw [h, leNat_leBytes]

/-- Other registers of BAR0 read as before. -/
theorem bar0_setBar0_other (s : State) (j k off n v : Nat) (h : j + k ≤ off ∨ off + n ≤ j) :
    bar0 (setBar0 off n v s) j k = bar0 s j k := by
  show leNat (smReadList 0 (smWriteList 0 s.mem.bar0 off (leBytes n v)) j k) = _
  rw [smReadList_smWriteList_other _ _ _ _ _ _ (by simpa using h)]
  rfl

/-! ### Bytes of SRAM, which no key covers -/

theorem clearPoison_keeps (m : Mem) (a n : Nat) :
    (clearPoison m a n).blockKey = m.blockKey ∧ (clearPoison m a n).bar0 = m.bar0 ∧
      (clearPoison m a n).dirty = m.dirty ∧ (clearPoison m a n).stamps = m.stamps := by
  unfold clearPoison
  refine foldl_keeps (fun x : Mem => x.blockKey = m.blockKey ∧ x.bar0 = m.bar0 ∧ x.dirty = m.dirty ∧ x.stamps = m.stamps) _
    (fun x w hx => ?_) _ _ ⟨rfl, rfl, rfl, rfl⟩
  split <;> exact hx

/-- Clearing poison leaves the bytes of words without poison, and those of the range. -/
theorem clearPoison_byte (m : Mem) (a n b : Nat) (h : smGet m.poison (b / 8) = none ∨ (a ≤ b ∧ b < a + n)) :
    smRead 0 (clearPoison m a n).bytes b = smRead 0 m.bytes b := by
  unfold clearPoison
  generalize touched 8 a n = l
  induction l generalizing m with
  | nil => rfl
  | cons w l ih =>
    rw [List.foldl_cons]
    split
    · exact ih m h
    · rename_i u hw
      have hb : smRead 0 ((List.range 8).foldl (init := m.bytes) fun b o =>
          if a ≤ w * 8 + o ∧ w * 8 + o < a + n then b else smDel b (w * 8 + o)) b = smRead 0 m.bytes b := by
        have : ∀ (r : List Nat) (x : SMap Byte), (∀ o ∈ r, o < 8) →
            smRead 0 (r.foldl (fun b o => if a ≤ w * 8 + o ∧ w * 8 + o < a + n then b else smDel b (w * 8 + o)) x) b
              = smRead 0 x b := by
          intro r
          induction r with
          | nil => intro x _; rfl
          | cons o r ihr =>
            intro x hr
            rw [List.foldl_cons, ihr _ fun p hp => hr p (by simp [hp])]
            split
            · rfl
            · rename_i ho
              have ho8 := hr o (by simp)
              have : b ≠ w * 8 + o := by
                rintro rfl
                rcases h with h | h
                · have : (w * 8 + o) / 8 = w := by omega
                  rw [this, hw] at h; cases h
                · exact ho h
              unfold smRead
              rw [smGet_smDel_other _ _ _ this]
        exact this _ _ (fun o ho => List.mem_range.1 ho)
      rw [ih]
      · exact hb
      · rcases h with h | h
        · refine .inl ?_
          by_cases hbw : b / 8 = w
          · rw [hbw, smGet_smDel_same]
          · rw [smGet_smDel_other _ _ _ hbw]; exact h
        · exact .inr h

/-- SRAM reads as it was written. -/
theorem loadBytes_storeBytes_sram (m : Mem) (a : Nat) (bs : List Byte) :
    loadBytes (storeBytes m none a bs) none a bs.length = bs := smReadList_smWriteList_same _ _ _ _

/-- A byte of SRAM apart from a write reads as before, unless its word was poisoned. -/
theorem sramByte_storeBytes_other (m : Mem) (a b : Nat) (bs : List Byte) (h : b < a ∨ a + bs.length ≤ b)
    (hp : smGet m.poison (b / 8) = none) :
    smRead 0 (storeBytes m none a bs).bytes b = smRead 0 m.bytes b := by
  unfold storeBytes
  rw [smRead_smWriteList_other _ _ _ _ _ h]
  exact clearPoison_byte m a bs.length b (.inl hp)

/-! ### Bytes of HBM, under a key -/

theorem rekeyBlock_blockKey_same (m : Mem) (k l : Nat) : smGet (rekeyBlock m k l).blockKey l = some k := by
  unfold rekeyBlock
  split
  · split
    · rename_i j hj hk; rw [hj, hk]
    · exact smGet_smSet_same _ _ _
  · exact smGet_smSet_same _ _ _

theorem rekeyBlock_blockKey_other (m : Mem) (k l j : Nat) (h : j ≠ l) :
    smGet (rekeyBlock m k l).blockKey j = smGet m.blockKey j := by
  unfold rekeyBlock
  split
  · split
    · rfl
    · exact smGet_smSet_other _ _ _ _ h
  · exact smGet_smSet_other _ _ _ _ h

/-- Bringing a cipher block under a key does not change what the key reads. -/
theorem keyedByte_rekeyBlock (m : Mem) (k l b : Nat) : keyedByte (rekeyBlock m k l) k b = keyedByte m k b := by
  by_cases hl : b / 16 = l
  · subst hl
    have e1 : keyedByte (rekeyBlock m k (b / 16)) k b = smRead 0 (rekeyBlock m k (b / 16)).bytes b := by
      unfold keyedByte
      rw [rekeyBlock_blockKey_same]
      simp
    rw [e1]
    unfold rekeyBlock
    split
    · rename_i j hj
      split
      · rename_i hk
        unfold keyedByte
        rw [hj]
        simp [hk]
      · have := smRead_smWriteList_same 0 ((List.range 16).map fun o => keyedByte m k (b / 16 * 16 + o)) m.bytes
          (b / 16 * 16) (b % 16) (by simp; omega)
        have hb : b / 16 * 16 + b % 16 = b := by omega
        rw [hb] at this
        rw [this]
        simp [hb]
    · rename_i hj
      unfold keyedByte
      rw [hj]
  · have hk := rekeyBlock_blockKey_other m k l (b / 16) hl
    have hby : ∀ c, c / 16 = b / 16 → smRead 0 (rekeyBlock m k l).bytes c = smRead 0 m.bytes c := by
      intro c hc
      unfold rekeyBlock
      split
      · split
        · rfl
        · exact smRead_smWriteList_other _ _ _ _ _ (by simp; omega)
      · rfl
    have hr : smReadList 0 (rekeyBlock m k l).bytes (b / 16 * 16) 16 = smReadList 0 m.bytes (b / 16 * 16) 16 := by
      apply List.ext_getElem (by simp [length_smReadList])
      intro i h1 _
      rw [length_smReadList] at h1
      rw [getElem_smReadList, getElem_smReadList, hby _ (by omega)]
    unfold keyedByte
    rw [hk, hby b rfl, hr]

theorem keyedByte_rekeyBlocks (k b : Nat) (ls : List Nat) :
    ∀ m : Mem, keyedByte (ls.foldl (fun m l => rekeyBlock m k l) m) k b = keyedByte m k b := by
  induction ls with
  | nil => intro m; rfl
  | cons l ls ih => intro m; rw [List.foldl_cons, ih, keyedByte_rekeyBlock]

theorem blockKey_rekeyBlocks_same (k : Nat) (l : Nat) (ls : List Nat) :
    ∀ m : Mem, (l ∈ ls ∨ smGet m.blockKey l = some k) →
      smGet (ls.foldl (fun m l => rekeyBlock m k l) m).blockKey l = some k := by
  induction ls with
  | nil => intro m h; simpa using h
  | cons j ls ih =>
    intro m h
    rw [List.foldl_cons]
    refine ih _ ?_
    by_cases hj : l = j
    · subst hj; exact .inr (rekeyBlock_blockKey_same m k l)
    · rw [rekeyBlock_blockKey_other _ _ _ _ hj]
      rcases h with h | h
      · exact .inl ((List.mem_cons.1 h).resolve_left hj)
      · exact .inr h

theorem poison_rekeyBlocks (k : Nat) (ls : List Nat) :
    ∀ m : Mem, (ls.foldl (fun m l => rekeyBlock m k l) m).poison = m.poison := by
  induction ls with
  | nil => intro m; rfl
  | cons l ls ih =>
    intro m
    rw [List.foldl_cons, ih]
    unfold rekeyBlock
    split
    · split <;> rfl
    · rfl

/-- HBM reads as it was written, under the key that wrote it (R410). -/
theorem loadBytes_storeBytes_hbm (m : Mem) (k a : Nat) (bs : List Byte) :
    loadBytes (storeBytes m (some k) a bs) (some k) a bs.length = bs := by
  apply List.ext_getElem (by simp [loadBytes])
  intro i h1 h2
  have hl : smGet (storeBytes m (some k) a bs).blockKey ((a + i) / 16) = some k := by
    show smGet (clearPoison _ a bs.length).blockKey _ = _
    rw [(clearPoison_keeps _ a bs.length).1]
    exact blockKey_rekeyBlocks_same k _ _ m (.inl (touched_of_mem (by omega) (by omega) (by omega)))
  have : keyedByte (storeBytes m (some k) a bs) k (a + i) = bs[i] := by
    unfold keyedByte
    rw [hl]
    simp only [if_true]
    exact smRead_smWriteList_same _ _ _ _ _ h2
  simpa [loadBytes] using this

/-- A byte of HBM apart from a write reads as before under the key of the write, unless its word was poisoned. -/
theorem keyedByte_storeBytes_other (m : Mem) (k a b : Nat) (bs : List Byte) (h : b < a ∨ a + bs.length ≤ b)
    (hp : smGet m.poison (b / 8) = none) (hn : smGet m.blockKey (b / 16) = some k ∨ b / 16 ∈ touched 16 a bs.length) :
    keyedByte (storeBytes m (some k) a bs) k b = keyedByte m k b := by
  rw [← keyedByte_rekeyBlocks k b (touched 16 a bs.length) m]
  have hl : smGet (storeBytes m (some k) a bs).blockKey (b / 16) = some k := by
    show smGet (clearPoison _ a bs.length).blockKey _ = _
    rw [(clearPoison_keeps _ a bs.length).1]
    exact blockKey_rekeyBlocks_same k _ _ m hn.symm
  have hl' := blockKey_rekeyBlocks_same k (b / 16) (touched 16 a bs.length) m hn.symm
  unfold keyedByte
  rw [hl, hl']
  simp only [if_true]
  show smRead 0 (smWriteList 0 (clearPoison _ a bs.length).bytes a bs) b = _
  rw [smRead_smWriteList_other _ _ _ _ _ h]
  refine clearPoison_byte _ a bs.length b (.inl ?_)
  rw [poison_rekeyBlocks]
  exact hp

end Sys2Proof.Machine
end

