-- ==== Sys2Proof/Laws/Images.lean ====
section
/-! SUPPORT. Wipes, images and restores keep the canonical form of memory. -/

namespace Sys2Proof.Machine

set_option Elab.async false

theorem wipeArray_wf {s : State} (h a : Nat) (hw : s.mem.wf = true) : (wipeArray h a s).mem.wf = true := by
  rw [Mem.wf_iff] at hw
  exact (Mem.wf_iff _).2 ⟨smWf_filter _ hw.1, hw.2.1, smRising_filter _ hw.2.2.1, smWf_filter _ hw.2.2.2.1, hw.2.2.2.2⟩

theorem imageMem_wf {s : State} (pages : Option (List Nat)) (hw : s.mem.wf = true) : (imageMem s pages).wf = true := by
  rw [Mem.wf_iff] at hw
  exact (Mem.wf_iff _).2 ⟨smWf_filter _ hw.1, smRising_filter _ hw.2.1, smRising_filter _ hw.2.2.1, hw.2.2.2⟩

theorem garbleArray_wf {m : Mem} (read write h a : Nat) (hw : m.wf = true) : (garbleArray read write h a m).wf = true := by
  refine foldl_keeps (fun m : Mem => m.wf = true) _ (fun m k hm => ?_) _ _ hw
  rw [Mem.wf_iff] at hm
  exact (Mem.wf_iff _).2 ⟨smWf_smWriteList _ _ hm.1, hm.2⟩

theorem openArrays_wf {s : State} (i : Image) (hw : s.mem.wf = true) : (openArrays i s).mem.wf = true := by
  refine foldl_keeps (fun s : State => s.mem.wf = true) _ (fun s x hs => ?_) _ _ hw
  obtain ⟨h, a, slot⟩ := x
  dsimp only
  split
  · exact hs
  · dsimp only
    exact garbleArray_wf _ _ h a hs

end Sys2Proof.Machine
end

