-- ==== Sys2Proof/Laws/PerInstr.lean ====
section
/-! SUPPORT. Decoding what was encoded, one lemma for each instruction. -/

namespace Sys2Proof.Laws

/-- The word of a well-formed instruction decodes to it, in its own format. An event has no word. -/
def RoundTrip.Statement (i : Instr) : Prop :=
  i.wf = true → ∀ w, encode i = some w → (if i.forUnit then decodeSu w else decode w) = .ok i

namespace RoundTrip

set_option Elab.async false

theorem noWord {i : Instr} (h : encode i = none) : Statement i := by
  intro _ w hw; rw [h] at hw; cases hw

theorem strandWord {i : Instr} {v : Word32} (h : encode i = some v) (hd : i.wf = true → decode v = .ok i)
    (hu : i.forUnit = false := by rfl) : Statement i := by
  intro hw w he
  rw [h] at he
  cases he
  simpa [hu] using hd hw

theorem unitWord {i : Instr} {v : Word32} (h : encode i = some v) (hd : i.wf = true → decodeSu v = .ok i)
    (hu : i.forUnit = true := by rfl) : Statement i := by
  intro hw w he
  rw [h] at he
  cases he
  simpa [hu] using hd hw

theorem lui (d : BitVec 5) (i : BitVec 20) : Statement (.lui d i) :=
  strandWord (v := Fields.pack (i.extractLsb' 13 7) (i.extractLsb' 8 5) (i.extractLsb' 3 5) (i.extractLsb' 0 3) d 0b0110111#7) rfl fun _ => by
    rw [decode_pack]; simp [decodeFields, Fields.immU]; exact immU_join i

theorem auipc (d : BitVec 5) (i : BitVec 20) : Statement (.auipc d i) :=
  strandWord (v := Fields.pack (i.extractLsb' 13 7) (i.extractLsb' 8 5) (i.extractLsb' 3 5) (i.extractLsb' 0 3) d 0b0010111#7) rfl fun _ => by
    rw [decode_pack]; simp [decodeFields, Fields.immU]; exact immU_join i

theorem jal (d : BitVec 5) (i : BitVec 20) : Statement (.jal d i) :=
  strandWord (v := Fields.pack (i.extractLsb' 19 1 ++ i.extractLsb' 4 6) (i.extractLsb' 0 4 ++ i.extractLsb' 10 1) (i.extractLsb' 14 5) (i.extractLsb' 11 3) d 0b1101111#7) rfl fun _ => by
    rw [decode_pack]; simp [decodeFields, Fields.immJ]; exact immJ_join i

theorem jalr (d a : BitVec 5) (i : BitVec 12) : Statement (.jalr d a i) :=
  strandWord (v := Fields.pack (i.extractLsb' 5 7) (i.extractLsb' 0 5) a 0b000#3 d 0b1100111#7) rfl fun _ => by
    rw [decode_pack]; simp [decodeFields, Fields.immI]

theorem beq (a b : BitVec 5) (i : BitVec 12) : Statement (.beq a b i) :=
  strandWord (v := Fields.pack (i.extractLsb' 11 1 ++ i.extractLsb' 4 6) b a 0b000#3 (i.extractLsb' 0 4 ++ i.extractLsb' 10 1) 0b1100011#7) rfl fun _ => by
    rw [decode_pack_Branch]; simp [decodeBranch, Fields.immB]; exact immB_join i

theorem bne (a b : BitVec 5) (i : BitVec 12) : Statement (.bne a b i) :=
  strandWord (v := Fields.pack (i.extractLsb' 11 1 ++ i.extractLsb' 4 6) b a 0b001#3 (i.extractLsb' 0 4 ++ i.extractLsb' 10 1) 0b1100011#7) rfl fun _ => by
    rw [decode_pack_Branch]; simp [decodeBranch, Fields.immB]; exact immB_join i

theorem blt (a b : BitVec 5) (i : BitVec 12) : Statement (.blt a b i) :=
  strandWord (v := Fields.pack (i.extractLsb' 11 1 ++ i.extractLsb' 4 6) b a 0b100#3 (i.extractLsb' 0 4 ++ i.extractLsb' 10 1) 0b1100011#7) rfl fun _ => by
    rw [decode_pack_Branch]; simp [decodeBranch, Fields.immB]; exact immB_join i

theorem bge (a b : BitVec 5) (i : BitVec 12) : Statement (.bge a b i) :=
  strandWord (v := Fields.pack (i.extractLsb' 11 1 ++ i.extractLsb' 4 6) b a 0b101#3 (i.extractLsb' 0 4 ++ i.extractLsb' 10 1) 0b1100011#7) rfl fun _ => by
    rw [decode_pack_Branch]; simp [decodeBranch, Fields.immB]; exact immB_join i

theorem bltu (a b : BitVec 5) (i : BitVec 12) : Statement (.bltu a b i) :=
  strandWord (v := Fields.pack (i.extractLsb' 11 1 ++ i.extractLsb' 4 6) b a 0b110#3 (i.extractLsb' 0 4 ++ i.extractLsb' 10 1) 0b1100011#7) rfl fun _ => by
    rw [decode_pack_Branch]; simp [decodeBranch, Fields.immB]; exact immB_join i

theorem bgeu (a b : BitVec 5) (i : BitVec 12) : Statement (.bgeu a b i) :=
  strandWord (v := Fields.pack (i.extractLsb' 11 1 ++ i.extractLsb' 4 6) b a 0b111#3 (i.extractLsb' 0 4 ++ i.extractLsb' 10 1) 0b1100011#7) rfl fun _ => by
    rw [decode_pack_Branch]; simp [decodeBranch, Fields.immB]; exact immB_join i

theorem lb (d a : BitVec 5) (i : BitVec 12) : Statement (.lb d a i) :=
  strandWord (v := Fields.pack (i.extractLsb' 5 7) (i.extractLsb' 0 5) a 0b000#3 d 0b0000011#7) rfl fun _ => by
    rw [decode_pack_Load]; simp [decodeLoad, Fields.immI]

theorem lh (d a : BitVec 5) (i : BitVec 12) : Statement (.lh d a i) :=
  strandWord (v := Fields.pack (i.extractLsb' 5 7) (i.extractLsb' 0 5) a 0b001#3 d 0b0000011#7) rfl fun _ => by
    rw [decode_pack_Load]; simp [decodeLoad, Fields.immI]

theorem lw (d a : BitVec 5) (i : BitVec 12) : Statement (.lw d a i) :=
  strandWord (v := Fields.pack (i.extractLsb' 5 7) (i.extractLsb' 0 5) a 0b010#3 d 0b0000011#7) rfl fun _ => by
    rw [decode_pack_Load]; simp [decodeLoad, Fields.immI]

theorem ld (d a : BitVec 5) (i : BitVec 12) : Statement (.ld d a i) :=
  strandWord (v := Fields.pack (i.extractLsb' 5 7) (i.extractLsb' 0 5) a 0b011#3 d 0b0000011#7) rfl fun _ => by
    rw [decode_pack_Load]; simp [decodeLoad, Fields.immI]

theorem lbu (d a : BitVec 5) (i : BitVec 12) : Statement (.lbu d a i) :=
  strandWord (v := Fields.pack (i.extractLsb' 5 7) (i.extractLsb' 0 5) a 0b100#3 d 0b0000011#7) rfl fun _ => by
    rw [decode_pack_Load]; simp [decodeLoad, Fields.immI]

theorem lhu (d a : BitVec 5) (i : BitVec 12) : Statement (.lhu d a i) :=
  strandWord (v := Fields.pack (i.extractLsb' 5 7) (i.extractLsb' 0 5) a 0b101#3 d 0b0000011#7) rfl fun _ => by
    rw [decode_pack_Load]; simp [decodeLoad, Fields.immI]

theorem lwu (d a : BitVec 5) (i : BitVec 12) : Statement (.lwu d a i) :=
  strandWord (v := Fields.pack (i.extractLsb' 5 7) (i.extractLsb' 0 5) a 0b110#3 d 0b0000011#7) rfl fun _ => by
    rw [decode_pack_Load]; simp [decodeLoad, Fields.immI]

theorem sb (a b : BitVec 5) (i : BitVec 12) : Statement (.sb a b i) :=
  strandWord (v := Fields.pack (i.extractLsb' 5 7) b a 0b000#3 (i.extractLsb' 0 5) 0b0100011#7) rfl fun _ => by
    rw [decode_pack_Store]; simp [decodeStore, Fields.immS]

theorem sh (a b : BitVec 5) (i : BitVec 12) : Statement (.sh a b i) :=
  strandWord (v := Fields.pack (i.extractLsb' 5 7) b a 0b001#3 (i.extractLsb' 0 5) 0b0100011#7) rfl fun _ => by
    rw [decode_pack_Store]; simp [decodeStore, Fields.immS]

theorem sw (a b : BitVec 5) (i : BitVec 12) : Statement (.sw a b i) :=
  strandWord (v := Fields.pack (i.extractLsb' 5 7) b a 0b010#3 (i.extractLsb' 0 5) 0b0100011#7) rfl fun _ => by
    rw [decode_pack_Store]; simp [decodeStore, Fields.immS]

theorem sd (a b : BitVec 5) (i : BitVec 12) : Statement (.sd a b i) :=
  strandWord (v := Fields.pack (i.extractLsb' 5 7) b a 0b011#3 (i.extractLsb' 0 5) 0b0100011#7) rfl fun _ => by
    rw [decode_pack_Store]; simp [decodeStore, Fields.immS]

theorem addi (d a : BitVec 5) (i : BitVec 12) : Statement (.addi d a i) :=
  strandWord (v := Fields.pack (i.extractLsb' 5 7) (i.extractLsb' 0 5) a 0b000#3 d 0b0010011#7) rfl fun _ => by
    rw [decode_pack_OpImm]; simp [decodeOpImm, Fields.immI]

theorem slti (d a : BitVec 5) (i : BitVec 12) : Statement (.slti d a i) :=
  strandWord (v := Fields.pack (i.extractLsb' 5 7) (i.extractLsb' 0 5) a 0b010#3 d 0b0010011#7) rfl fun _ => by
    rw [decode_pack_OpImm]; simp [decodeOpImm, Fields.immI]

theorem sltiu (d a : BitVec 5) (i : BitVec 12) : Statement (.sltiu d a i) :=
  strandWord (v := Fields.pack (i.extractLsb' 5 7) (i.extractLsb' 0 5) a 0b011#3 d 0b0010011#7) rfl fun _ => by
    rw [decode_pack_OpImm]; simp [decodeOpImm, Fields.immI]

theorem xori (d a : BitVec 5) (i : BitVec 12) : Statement (.xori d a i) :=
  strandWord (v := Fields.pack (i.extractLsb' 5 7) (i.extractLsb' 0 5) a 0b100#3 d 0b0010011#7) rfl fun _ => by
    rw [decode_pack_OpImm]; simp [decodeOpImm, Fields.immI]

theorem ori (d a : BitVec 5) (i : BitVec 12) : Statement (.ori d a i) :=
  strandWord (v := Fields.pack (i.extractLsb' 5 7) (i.extractLsb' 0 5) a 0b110#3 d 0b0010011#7) rfl fun _ => by
    rw [decode_pack_OpImm]; simp [decodeOpImm, Fields.immI]

theorem andi (d a : BitVec 5) (i : BitVec 12) : Statement (.andi d a i) :=
  strandWord (v := Fields.pack (i.extractLsb' 5 7) (i.extractLsb' 0 5) a 0b111#3 d 0b0010011#7) rfl fun _ => by
    rw [decode_pack_OpImm]; simp [decodeOpImm, Fields.immI]

theorem slli (d a : BitVec 5) (h : BitVec 6) : Statement (.slli d a h) :=
  strandWord (v := Fields.pack (0b000000#6 ++ h.extractLsb' 5 1) (h.extractLsb' 0 5) a 0b001#3 d 0b0010011#7) rfl fun _ => by
    rw [decode_pack_OpImm]; simp [decodeOpImm]

theorem srli (d a : BitVec 5) (h : BitVec 6) : Statement (.srli d a h) :=
  strandWord (v := Fields.pack (0b000000#6 ++ h.extractLsb' 5 1) (h.extractLsb' 0 5) a 0b101#3 d 0b0010011#7) rfl fun _ => by
    rw [decode_pack_OpImm]; simp [decodeOpImm]

theorem srai (d a : BitVec 5) (h : BitVec 6) : Statement (.srai d a h) :=
  strandWord (v := Fields.pack (0b010000#6 ++ h.extractLsb' 5 1) (h.extractLsb' 0 5) a 0b101#3 d 0b0010011#7) rfl fun _ => by
    rw [decode_pack_OpImm]; simp [decodeOpImm]

theorem add (d a b : BitVec 5) : Statement (.add d a b) :=
  strandWord (v := Fields.pack 0b0000000#7 b a 0b000#3 d 0b0110011#7) rfl fun _ => by
    rw [decode_pack_Op]; simp [decodeOp]

theorem sub (d a b : BitVec 5) : Statement (.sub d a b) :=
  strandWord (v := Fields.pack 0b0100000#7 b a 0b000#3 d 0b0110011#7) rfl fun _ => by
    rw [decode_pack_Op]; simp [decodeOp]

theorem sll (d a b : BitVec 5) : Statement (.sll d a b) :=
  strandWord (v := Fields.pack 0b0000000#7 b a 0b001#3 d 0b0110011#7) rfl fun _ => by
    rw [decode_pack_Op]; simp [decodeOp]

theorem slt (d a b : BitVec 5) : Statement (.slt d a b) :=
  strandWord (v := Fields.pack 0b0000000#7 b a 0b010#3 d 0b0110011#7) rfl fun _ => by
    rw [decode_pack_Op]; simp [decodeOp]

theorem sltu (d a b : BitVec 5) : Statement (.sltu d a b) :=
  strandWord (v := Fields.pack 0b0000000#7 b a 0b011#3 d 0b0110011#7) rfl fun _ => by
    rw [decode_pack_Op]; simp [decodeOp]

theorem xor (d a b : BitVec 5) : Statement (.xor d a b) :=
  strandWord (v := Fields.pack 0b0000000#7 b a 0b100#3 d 0b0110011#7) rfl fun _ => by
    rw [decode_pack_Op]; simp [decodeOp]

theorem srl (d a b : BitVec 5) : Statement (.srl d a b) :=
  strandWord (v := Fields.pack 0b0000000#7 b a 0b101#3 d 0b0110011#7) rfl fun _ => by
    rw [decode_pack_Op]; simp [decodeOp]

theorem sra (d a b : BitVec 5) : Statement (.sra d a b) :=
  strandWord (v := Fields.pack 0b0100000#7 b a 0b101#3 d 0b0110011#7) rfl fun _ => by
    rw [decode_pack_Op]; simp [decodeOp]

theorem or (d a b : BitVec 5) : Statement (.or d a b) :=
  strandWord (v := Fields.pack 0b0000000#7 b a 0b110#3 d 0b0110011#7) rfl fun _ => by
    rw [decode_pack_Op]; simp [decodeOp]

theorem and (d a b : BitVec 5) : Statement (.and d a b) :=
  strandWord (v := Fields.pack 0b0000000#7 b a 0b111#3 d 0b0110011#7) rfl fun _ => by
    rw [decode_pack_Op]; simp [decodeOp]

theorem addiw (d a : BitVec 5) (i : BitVec 12) : Statement (.addiw d a i) :=
  strandWord (v := Fields.pack (i.extractLsb' 5 7) (i.extractLsb' 0 5) a 0b000#3 d 0b0011011#7) rfl fun _ => by
    rw [decode_pack_OpImm32]; simp [decodeOpImm32, Fields.immI]

theorem slliw (d a h : BitVec 5) : Statement (.slliw d a h) :=
  strandWord (v := Fields.pack 0b0000000#7 h a 0b001#3 d 0b0011011#7) rfl fun _ => by
    rw [decode_pack_OpImm32]; simp [decodeOpImm32]

theorem srliw (d a h : BitVec 5) : Statement (.srliw d a h) :=
  strandWord (v := Fields.pack 0b0000000#7 h a 0b101#3 d 0b0011011#7) rfl fun _ => by
    rw [decode_pack_OpImm32]; simp [decodeOpImm32]

theorem sraiw (d a h : BitVec 5) : Statement (.sraiw d a h) :=
  strandWord (v := Fields.pack 0b0100000#7 h a 0b101#3 d 0b0011011#7) rfl fun _ => by
    rw [decode_pack_OpImm32]; simp [decodeOpImm32]

theorem addw (d a b : BitVec 5) : Statement (.addw d a b) :=
  strandWord (v := Fields.pack 0b0000000#7 b a 0b000#3 d 0b0111011#7) rfl fun _ => by
    rw [decode_pack_Op32]; simp [decodeOp32]

theorem subw (d a b : BitVec 5) : Statement (.subw d a b) :=
  strandWord (v := Fields.pack 0b0100000#7 b a 0b000#3 d 0b0111011#7) rfl fun _ => by
    rw [decode_pack_Op32]; simp [decodeOp32]

theorem sllw (d a b : BitVec 5) : Statement (.sllw d a b) :=
  strandWord (v := Fields.pack 0b0000000#7 b a 0b001#3 d 0b0111011#7) rfl fun _ => by
    rw [decode_pack_Op32]; simp [decodeOp32]

theorem srlw (d a b : BitVec 5) : Statement (.srlw d a b) :=
  strandWord (v := Fields.pack 0b0000000#7 b a 0b101#3 d 0b0111011#7) rfl fun _ => by
    rw [decode_pack_Op32]; simp [decodeOp32]

theorem sraw (d a b : BitVec 5) : Statement (.sraw d a b) :=
  strandWord (v := Fields.pack 0b0100000#7 b a 0b101#3 d 0b0111011#7) rfl fun _ => by
    rw [decode_pack_Op32]; simp [decodeOp32]

theorem mul (d a b : BitVec 5) : Statement (.mul d a b) :=
  strandWord (v := Fields.pack 0b0000001#7 b a 0b000#3 d 0b0110011#7) rfl fun _ => by
    rw [decode_pack_Op]; simp [decodeOp]

theorem mulh (d a b : BitVec 5) : Statement (.mulh d a b) :=
  strandWord (v := Fields.pack 0b0000001#7 b a 0b001#3 d 0b0110011#7) rfl fun _ => by
    rw [decode_pack_Op]; simp [decodeOp]

theorem mulhsu (d a b : BitVec 5) : Statement (.mulhsu d a b) :=
  strandWord (v := Fields.pack 0b0000001#7 b a 0b010#3 d 0b0110011#7) rfl fun _ => by
    rw [decode_pack_Op]; simp [decodeOp]

theorem mulhu (d a b : BitVec 5) : Statement (.mulhu d a b) :=
  strandWord (v := Fields.pack 0b0000001#7 b a 0b011#3 d 0b0110011#7) rfl fun _ => by
    rw [decode_pack_Op]; simp [decodeOp]

theorem div (d a b : BitVec 5) : Statement (.div d a b) :=
  strandWord (v := Fields.pack 0b0000001#7 b a 0b100#3 d 0b0110011#7) rfl fun _ => by
    rw [decode_pack_Op]; simp [decodeOp]

theorem divu (d a b : BitVec 5) : Statement (.divu d a b) :=
  strandWord (v := Fields.pack 0b0000001#7 b a 0b101#3 d 0b0110011#7) rfl fun _ => by
    rw [decode_pack_Op]; simp [decodeOp]

theorem rem (d a b : BitVec 5) : Statement (.rem d a b) :=
  strandWord (v := Fields.pack 0b0000001#7 b a 0b110#3 d 0b0110011#7) rfl fun _ => by
    rw [decode_pack_Op]; simp [decodeOp]

theorem remu (d a b : BitVec 5) : Statement (.remu d a b) :=
  strandWord (v := Fields.pack 0b0000001#7 b a 0b111#3 d 0b0110011#7) rfl fun _ => by
    rw [decode_pack_Op]; simp [decodeOp]

theorem mulw (d a b : BitVec 5) : Statement (.mulw d a b) :=
  strandWord (v := Fields.pack 0b0000001#7 b a 0b000#3 d 0b0111011#7) rfl fun _ => by
    rw [decode_pack_Op32]; simp [decodeOp32]

theorem divw (d a b : BitVec 5) : Statement (.divw d a b) :=
  strandWord (v := Fields.pack 0b0000001#7 b a 0b100#3 d 0b0111011#7) rfl fun _ => by
    rw [decode_pack_Op32]; simp [decodeOp32]

theorem divuw (d a b : BitVec 5) : Statement (.divuw d a b) :=
  strandWord (v := Fields.pack 0b0000001#7 b a 0b101#3 d 0b0111011#7) rfl fun _ => by
    rw [decode_pack_Op32]; simp [decodeOp32]

theorem remw (d a b : BitVec 5) : Statement (.remw d a b) :=
  strandWord (v := Fields.pack 0b0000001#7 b a 0b110#3 d 0b0111011#7) rfl fun _ => by
    rw [decode_pack_Op32]; simp [decodeOp32]

theorem remuw (d a b : BitVec 5) : Statement (.remuw d a b) :=
  strandWord (v := Fields.pack 0b0000001#7 b a 0b111#3 d 0b0111011#7) rfl fun _ => by
    rw [decode_pack_Op32]; simp [decodeOp32]

theorem lrW (d a : BitVec 5) (q l : BitVec 1) : Statement (.lrW d a q l) :=
  strandWord (v := Fields.pack (0b00010#5 ++ q ++ l) 0b00000#5 a 0b010#3 d 0b0101111#7) rfl fun _ => by
    rw [decode_pack_Amo]; simp [decodeAmo]

theorem lrD (d a : BitVec 5) (q l : BitVec 1) : Statement (.lrD d a q l) :=
  strandWord (v := Fields.pack (0b00010#5 ++ q ++ l) 0b00000#5 a 0b011#3 d 0b0101111#7) rfl fun _ => by
    rw [decode_pack_Amo]; simp [decodeAmo]

theorem scW (d a b : BitVec 5) (q l : BitVec 1) : Statement (.scW d a b q l) :=
  strandWord (v := Fields.pack (0b00011#5 ++ q ++ l) b a 0b010#3 d 0b0101111#7) rfl fun _ => by
    rw [decode_pack_Amo]; simp [decodeAmo]

theorem scD (d a b : BitVec 5) (q l : BitVec 1) : Statement (.scD d a b q l) :=
  strandWord (v := Fields.pack (0b00011#5 ++ q ++ l) b a 0b011#3 d 0b0101111#7) rfl fun _ => by
    rw [decode_pack_Amo]; simp [decodeAmo]

theorem amoswapW (d a b : BitVec 5) (q l : BitVec 1) : Statement (.amoswapW d a b q l) :=
  strandWord (v := Fields.pack (0b00001#5 ++ q ++ l) b a 0b010#3 d 0b0101111#7) rfl fun _ => by
    rw [decode_pack_Amo]; simp [decodeAmo]

theorem amoaddW (d a b : BitVec 5) (q l : BitVec 1) : Statement (.amoaddW d a b q l) :=
  strandWord (v := Fields.pack (0b00000#5 ++ q ++ l) b a 0b010#3 d 0b0101111#7) rfl fun _ => by
    rw [decode_pack_Amo]; simp [decodeAmo]

theorem amoxorW (d a b : BitVec 5) (q l : BitVec 1) : Statement (.amoxorW d a b q l) :=
  strandWord (v := Fields.pack (0b00100#5 ++ q ++ l) b a 0b010#3 d 0b0101111#7) rfl fun _ => by
    rw [decode_pack_Amo]; simp [decodeAmo]

theorem amoandW (d a b : BitVec 5) (q l : BitVec 1) : Statement (.amoandW d a b q l) :=
  strandWord (v := Fields.pack (0b01100#5 ++ q ++ l) b a 0b010#3 d 0b0101111#7) rfl fun _ => by
    rw [decode_pack_Amo]; simp [decodeAmo]

theorem amoorW (d a b : BitVec 5) (q l : BitVec 1) : Statement (.amoorW d a b q l) :=
  strandWord (v := Fields.pack (0b01000#5 ++ q ++ l) b a 0b010#3 d 0b0101111#7) rfl fun _ => by
    rw [decode_pack_Amo]; simp [decodeAmo]

theorem amominW (d a b : BitVec 5) (q l : BitVec 1) : Statement (.amominW d a b q l) :=
  strandWord (v := Fields.pack (0b10000#5 ++ q ++ l) b a 0b010#3 d 0b0101111#7) rfl fun _ => by
    rw [decode_pack_Amo]; simp [decodeAmo]

theorem amomaxW (d a b : BitVec 5) (q l : BitVec 1) : Statement (.amomaxW d a b q l) :=
  strandWord (v := Fields.pack (0b10100#5 ++ q ++ l) b a 0b010#3 d 0b0101111#7) rfl fun _ => by
    rw [decode_pack_Amo]; simp [decodeAmo]

theorem amominuW (d a b : BitVec 5) (q l : BitVec 1) : Statement (.amominuW d a b q l) :=
  strandWord (v := Fields.pack (0b11000#5 ++ q ++ l) b a 0b010#3 d 0b0101111#7) rfl fun _ => by
    rw [decode_pack_Amo]; simp [decodeAmo]

theorem amomaxuW (d a b : BitVec 5) (q l : BitVec 1) : Statement (.amomaxuW d a b q l) :=
  strandWord (v := Fields.pack (0b11100#5 ++ q ++ l) b a 0b010#3 d 0b0101111#7) rfl fun _ => by
    rw [decode_pack_Amo]; simp [decodeAmo]

theorem amoswapD (d a b : BitVec 5) (q l : BitVec 1) : Statement (.amoswapD d a b q l) :=
  strandWord (v := Fields.pack (0b00001#5 ++ q ++ l) b a 0b011#3 d 0b0101111#7) rfl fun _ => by
    rw [decode_pack_Amo]; simp [decodeAmo]

theorem amoaddD (d a b : BitVec 5) (q l : BitVec 1) : Statement (.amoaddD d a b q l) :=
  strandWord (v := Fields.pack (0b00000#5 ++ q ++ l) b a 0b011#3 d 0b0101111#7) rfl fun _ => by
    rw [decode_pack_Amo]; simp [decodeAmo]

theorem amoxorD (d a b : BitVec 5) (q l : BitVec 1) : Statement (.amoxorD d a b q l) :=
  strandWord (v := Fields.pack (0b00100#5 ++ q ++ l) b a 0b011#3 d 0b0101111#7) rfl fun _ => by
    rw [decode_pack_Amo]; simp [decodeAmo]

theorem amoandD (d a b : BitVec 5) (q l : BitVec 1) : Statement (.amoandD d a b q l) :=
  strandWord (v := Fields.pack (0b01100#5 ++ q ++ l) b a 0b011#3 d 0b0101111#7) rfl fun _ => by
    rw [decode_pack_Amo]; simp [decodeAmo]

theorem amoorD (d a b : BitVec 5) (q l : BitVec 1) : Statement (.amoorD d a b q l) :=
  strandWord (v := Fields.pack (0b01000#5 ++ q ++ l) b a 0b011#3 d 0b0101111#7) rfl fun _ => by
    rw [decode_pack_Amo]; simp [decodeAmo]

theorem amominD (d a b : BitVec 5) (q l : BitVec 1) : Statement (.amominD d a b q l) :=
  strandWord (v := Fields.pack (0b10000#5 ++ q ++ l) b a 0b011#3 d 0b0101111#7) rfl fun _ => by
    rw [decode_pack_Amo]; simp [decodeAmo]

theorem amomaxD (d a b : BitVec 5) (q l : BitVec 1) : Statement (.amomaxD d a b q l) :=
  strandWord (v := Fields.pack (0b10100#5 ++ q ++ l) b a 0b011#3 d 0b0101111#7) rfl fun _ => by
    rw [decode_pack_Amo]; simp [decodeAmo]

theorem amominuD (d a b : BitVec 5) (q l : BitVec 1) : Statement (.amominuD d a b q l) :=
  strandWord (v := Fields.pack (0b11000#5 ++ q ++ l) b a 0b011#3 d 0b0101111#7) rfl fun _ => by
    rw [decode_pack_Amo]; simp [decodeAmo]

theorem amomaxuD (d a b : BitVec 5) (q l : BitVec 1) : Statement (.amomaxuD d a b q l) :=
  strandWord (v := Fields.pack (0b11100#5 ++ q ++ l) b a 0b011#3 d 0b0101111#7) rfl fun _ => by
    rw [decode_pack_Amo]; simp [decodeAmo]

theorem fence  : Statement (.fence f p s) :=
  strandWord (v := Fields.pack (f ++ p.extractLsb' 1 3) (p.extractLsb' 0 1 ++ s) 0b00000#5 0b000#3 0b00000#5 0b0001111#7) rfl
    (decode_fence f p s)

theorem fenceTso : Statement .fenceTso :=
  strandWord (v := Fields.pack 0b1000001#7 0b10011#5 0b00000#5 0b000#3 0b00000#5 0b0001111#7) rfl fun _ => by
    rw [decode_pack_MiscMem]; simp [decodeMiscMem, Fields.immI]

theorem ecall : Statement .ecall :=
  strandWord (v := Fields.pack 0b0000000#7 0b00000#5 0b00000#5 0b000#3 0b00000#5 0b1110011#7) rfl fun _ => by
    rw [decode_pack_System]; simp [decodeSystem, Fields.immI]

theorem ebreak : Statement .ebreak :=
  strandWord (v := Fields.pack 0b0000000#7 0b00001#5 0b00000#5 0b000#3 0b00000#5 0b1110011#7) rfl fun _ => by
    rw [decode_pack_System]; simp [decodeSystem, Fields.immI]

theorem csrrw (d a : BitVec 5) (c : BitVec 12) : Statement (.csrrw d a c) :=
  strandWord (v := Fields.pack (c.extractLsb' 5 7) (c.extractLsb' 0 5) a 0b001#3 d 0b1110011#7) rfl fun _ => by
    rw [decode_pack_System]; simp [decodeSystem, decodeCsr, Fields.immI]

theorem csrrs (d a : BitVec 5) (c : BitVec 12) : Statement (.csrrs d a c) :=
  strandWord (v := Fields.pack (c.extractLsb' 5 7) (c.extractLsb' 0 5) a 0b010#3 d 0b1110011#7) rfl fun _ => by
    rw [decode_pack_System]; simp [decodeSystem, decodeCsr, Fields.immI]

theorem csrrc (d a : BitVec 5) (c : BitVec 12) : Statement (.csrrc d a c) :=
  strandWord (v := Fields.pack (c.extractLsb' 5 7) (c.extractLsb' 0 5) a 0b011#3 d 0b1110011#7) rfl fun _ => by
    rw [decode_pack_System]; simp [decodeSystem, decodeCsr, Fields.immI]

theorem csrrwi (d : BitVec 5) (c : BitVec 12) (u : BitVec 5) : Statement (.csrrwi d c u) :=
  strandWord (v := Fields.pack (c.extractLsb' 5 7) (c.extractLsb' 0 5) u 0b101#3 d 0b1110011#7) rfl fun _ => by
    rw [decode_pack_System]; simp [decodeSystem, decodeCsr, Fields.immI]

theorem csrrsi (d : BitVec 5) (c : BitVec 12) (u : BitVec 5) : Statement (.csrrsi d c u) :=
  strandWord (v := Fields.pack (c.extractLsb' 5 7) (c.extractLsb' 0 5) u 0b110#3 d 0b1110011#7) rfl fun _ => by
    rw [decode_pack_System]; simp [decodeSystem, decodeCsr, Fields.immI]

theorem csrrci (d : BitVec 5) (c : BitVec 12) (u : BitVec 5) : Statement (.csrrci d c u) :=
  strandWord (v := Fields.pack (c.extractLsb' 5 7) (c.extractLsb' 0 5) u 0b111#3 d 0b1110011#7) rfl fun _ => by
    rw [decode_pack_System]; simp [decodeSystem, decodeCsr, Fields.immI]

theorem flagCsrAccess (sat : Bool) (wr : Option (BitVec 64)) (d : BitVec 5) : Statement (.flagCsrAccess sat wr d) := noWord rfl

theorem vstartWrite (v : BitVec 64) : Statement (.vstartWrite v) := noWord rfl

theorem vfrmWrite (v : BitVec 64) : Statement (.vfrmWrite v) := noWord rfl

theorem dwdataAccess (wr : Option (BitVec 64)) (d : BitVec 5) : Statement (.dwdataAccess wr d) := noWord rfl

theorem dwdataiAccess (wr : Option (BitVec 64)) (d : BitVec 5) : Statement (.dwdataiAccess wr d) := noWord rfl

theorem vaddVv (d a b : BitVec 5) (m : BitVec 1) : Statement (.vaddVv d a b m) :=
  strandWord (v := Fields.pack (0b000000#6 ++ m) b a 0b000#3 d 0b0001011#7) rfl fun _ => by
    rw [decode_pack_IntVv]; simp [decodeIntVv]

theorem vaddVx (d a b : BitVec 5) (m : BitVec 1) : Statement (.vaddVx d a b m) :=
  strandWord (v := Fields.pack (0b000000#6 ++ m) b a 0b001#3 d 0b0001011#7) rfl fun _ => by
    rw [decode_pack_IntVx]; simp [decodeIntVx]

theorem vaddVi (d a b : BitVec 5) (m : BitVec 1) : Statement (.vaddVi d a b m) :=
  strandWord (v := Fields.pack (0b000000#6 ++ m) b a 0b010#3 d 0b0001011#7) rfl fun _ => by
    rw [decode_pack_IntVi]; simp [decodeIntVi]

theorem vsubVv (d a b : BitVec 5) (m : BitVec 1) : Statement (.vsubVv d a b m) :=
  strandWord (v := Fields.pack (0b000001#6 ++ m) b a 0b000#3 d 0b0001011#7) rfl fun _ => by
    rw [decode_pack_IntVv]; simp [decodeIntVv]

theorem vsubVx (d a b : BitVec 5) (m : BitVec 1) : Statement (.vsubVx d a b m) :=
  strandWord (v := Fields.pack (0b000001#6 ++ m) b a 0b001#3 d 0b0001011#7) rfl fun _ => by
    rw [decode_pack_IntVx]; simp [decodeIntVx]

theorem vrsubVx (d a b : BitVec 5) (m : BitVec 1) : Statement (.vrsubVx d a b m) :=
  strandWord (v := Fields.pack (0b000010#6 ++ m) b a 0b001#3 d 0b0001011#7) rfl fun _ => by
    rw [decode_pack_IntVx]; simp [decodeIntVx]

theorem vrsubVi (d a b : BitVec 5) (m : BitVec 1) : Statement (.vrsubVi d a b m) :=
  strandWord (v := Fields.pack (0b000010#6 ++ m) b a 0b010#3 d 0b0001011#7) rfl fun _ => by
    rw [decode_pack_IntVi]; simp [decodeIntVi]

theorem vminuVv (d a b : BitVec 5) (m : BitVec 1) : Statement (.vminuVv d a b m) :=
  strandWord (v := Fields.pack (0b000011#6 ++ m) b a 0b000#3 d 0b0001011#7) rfl fun _ => by
    rw [decode_pack_IntVv]; simp [decodeIntVv]

theorem vminuVx (d a b : BitVec 5) (m : BitVec 1) : Statement (.vminuVx d a b m) :=
  strandWord (v := Fields.pack (0b000011#6 ++ m) b a 0b001#3 d 0b0001011#7) rfl fun _ => by
    rw [decode_pack_IntVx]; simp [decodeIntVx]

theorem vminVv (d a b : BitVec 5) (m : BitVec 1) : Statement (.vminVv d a b m) :=
  strandWord (v := Fields.pack (0b000100#6 ++ m) b a 0b000#3 d 0b0001011#7) rfl fun _ => by
    rw [decode_pack_IntVv]; simp [decodeIntVv]

theorem vminVx (d a b : BitVec 5) (m : BitVec 1) : Statement (.vminVx d a b m) :=
  strandWord (v := Fields.pack (0b000100#6 ++ m) b a 0b001#3 d 0b0001011#7) rfl fun _ => by
    rw [decode_pack_IntVx]; simp [decodeIntVx]

theorem vmaxuVv (d a b : BitVec 5) (m : BitVec 1) : Statement (.vmaxuVv d a b m) :=
  strandWord (v := Fields.pack (0b000101#6 ++ m) b a 0b000#3 d 0b0001011#7) rfl fun _ => by
    rw [decode_pack_IntVv]; simp [decodeIntVv]

theorem vmaxuVx (d a b : BitVec 5) (m : BitVec 1) : Statement (.vmaxuVx d a b m) :=
  strandWord (v := Fields.pack (0b000101#6 ++ m) b a 0b001#3 d 0b0001011#7) rfl fun _ => by
    rw [decode_pack_IntVx]; simp [decodeIntVx]

theorem vmaxVv (d a b : BitVec 5) (m : BitVec 1) : Statement (.vmaxVv d a b m) :=
  strandWord (v := Fields.pack (0b000110#6 ++ m) b a 0b000#3 d 0b0001011#7) rfl fun _ => by
    rw [decode_pack_IntVv]; simp [decodeIntVv]

theorem vmaxVx (d a b : BitVec 5) (m : BitVec 1) : Statement (.vmaxVx d a b m) :=
  strandWord (v := Fields.pack (0b000110#6 ++ m) b a 0b001#3 d 0b0001011#7) rfl fun _ => by
    rw [decode_pack_IntVx]; simp [decodeIntVx]

theorem vandVv (d a b : BitVec 5) (m : BitVec 1) : Statement (.vandVv d a b m) :=
  strandWord (v := Fields.pack (0b000111#6 ++ m) b a 0b000#3 d 0b0001011#7) rfl fun _ => by
    rw [decode_pack_IntVv]; simp [decodeIntVv]

theorem vandVx (d a b : BitVec 5) (m : BitVec 1) : Statement (.vandVx d a b m) :=
  strandWord (v := Fields.pack (0b000111#6 ++ m) b a 0b001#3 d 0b0001011#7) rfl fun _ => by
    rw [decode_pack_IntVx]; simp [decodeIntVx]

theorem vandVi (d a b : BitVec 5) (m : BitVec 1) : Statement (.vandVi d a b m) :=
  strandWord (v := Fields.pack (0b000111#6 ++ m) b a 0b010#3 d 0b0001011#7) rfl fun _ => by
    rw [decode_pack_IntVi]; simp [decodeIntVi]

theorem vorVv (d a b : BitVec 5) (m : BitVec 1) : Statement (.vorVv d a b m) :=
  strandWord (v := Fields.pack (0b001000#6 ++ m) b a 0b000#3 d 0b0001011#7) rfl fun _ => by
    rw [decode_pack_IntVv]; simp [decodeIntVv]

theorem vorVx (d a b : BitVec 5) (m : BitVec 1) : Statement (.vorVx d a b m) :=
  strandWord (v := Fields.pack (0b001000#6 ++ m) b a 0b001#3 d 0b0001011#7) rfl fun _ => by
    rw [decode_pack_IntVx]; simp [decodeIntVx]

theorem vorVi (d a b : BitVec 5) (m : BitVec 1) : Statement (.vorVi d a b m) :=
  strandWord (v := Fields.pack (0b001000#6 ++ m) b a 0b010#3 d 0b0001011#7) rfl fun _ => by
    rw [decode_pack_IntVi]; simp [decodeIntVi]

theorem vxorVv (d a b : BitVec 5) (m : BitVec 1) : Statement (.vxorVv d a b m) :=
  strandWord (v := Fields.pack (0b001001#6 ++ m) b a 0b000#3 d 0b0001011#7) rfl fun _ => by
    rw [decode_pack_IntVv]; simp [decodeIntVv]

theorem vxorVx (d a b : BitVec 5) (m : BitVec 1) : Statement (.vxorVx d a b m) :=
  strandWord (v := Fields.pack (0b001001#6 ++ m) b a 0b001#3 d 0b0001011#7) rfl fun _ => by
    rw [decode_pack_IntVx]; simp [decodeIntVx]

theorem vxorVi (d a b : BitVec 5) (m : BitVec 1) : Statement (.vxorVi d a b m) :=
  strandWord (v := Fields.pack (0b001001#6 ++ m) b a 0b010#3 d 0b0001011#7) rfl fun _ => by
    rw [decode_pack_IntVi]; simp [decodeIntVi]

theorem vsllVv (d a b : BitVec 5) (m : BitVec 1) : Statement (.vsllVv d a b m) :=
  strandWord (v := Fields.pack (0b001010#6 ++ m) b a 0b000#3 d 0b0001011#7) rfl fun _ => by
    rw [decode_pack_IntVv]; simp [decodeIntVv]

theorem vsllVx (d a b : BitVec 5) (m : BitVec 1) : Statement (.vsllVx d a b m) :=
  strandWord (v := Fields.pack (0b001010#6 ++ m) b a 0b001#3 d 0b0001011#7) rfl fun _ => by
    rw [decode_pack_IntVx]; simp [decodeIntVx]

theorem vsllVi (d a b : BitVec 5) (m : BitVec 1) : Statement (.vsllVi d a b m) :=
  strandWord (v := Fields.pack (0b001010#6 ++ m) b a 0b010#3 d 0b0001011#7) rfl fun _ => by
    rw [decode_pack_IntVi]; simp [decodeIntVi]

theorem vsrlVv (d a b : BitVec 5) (m : BitVec 1) : Statement (.vsrlVv d a b m) :=
  strandWord (v := Fields.pack (0b001011#6 ++ m) b a 0b000#3 d 0b0001011#7) rfl fun _ => by
    rw [decode_pack_IntVv]; simp [decodeIntVv]

theorem vsrlVx (d a b : BitVec 5) (m : BitVec 1) : Statement (.vsrlVx d a b m) :=
  strandWord (v := Fields.pack (0b001011#6 ++ m) b a 0b001#3 d 0b0001011#7) rfl fun _ => by
    rw [decode_pack_IntVx]; simp [decodeIntVx]

theorem vsrlVi (d a b : BitVec 5) (m : BitVec 1) : Statement (.vsrlVi d a b m) :=
  strandWord (v := Fields.pack (0b001011#6 ++ m) b a 0b010#3 d 0b0001011#7) rfl fun _ => by
    rw [decode_pack_IntVi]; simp [decodeIntVi]

theorem vsraVv (d a b : BitVec 5) (m : BitVec 1) : Statement (.vsraVv d a b m) :=
  strandWord (v := Fields.pack (0b001100#6 ++ m) b a 0b000#3 d 0b0001011#7) rfl fun _ => by
    rw [decode_pack_IntVv]; simp [decodeIntVv]

theorem vsraVx (d a b : BitVec 5) (m : BitVec 1) : Statement (.vsraVx d a b m) :=
  strandWord (v := Fields.pack (0b001100#6 ++ m) b a 0b001#3 d 0b0001011#7) rfl fun _ => by
    rw [decode_pack_IntVx]; simp [decodeIntVx]

theorem vsraVi (d a b : BitVec 5) (m : BitVec 1) : Statement (.vsraVi d a b m) :=
  strandWord (v := Fields.pack (0b001100#6 ++ m) b a 0b010#3 d 0b0001011#7) rfl fun _ => by
    rw [decode_pack_IntVi]; simp [decodeIntVi]

theorem vmulVv (d a b : BitVec 5) (m : BitVec 1) : Statement (.vmulVv d a b m) :=
  strandWord (v := Fields.pack (0b001101#6 ++ m) b a 0b000#3 d 0b0001011#7) rfl fun _ => by
    rw [decode_pack_IntVv]; simp [decodeIntVv]

theorem vmulVx (d a b : BitVec 5) (m : BitVec 1) : Statement (.vmulVx d a b m) :=
  strandWord (v := Fields.pack (0b001101#6 ++ m) b a 0b001#3 d 0b0001011#7) rfl fun _ => by
    rw [decode_pack_IntVx]; simp [decodeIntVx]

theorem vmulhVv (d a b : BitVec 5) (m : BitVec 1) : Statement (.vmulhVv d a b m) :=
  strandWord (v := Fields.pack (0b001110#6 ++ m) b a 0b000#3 d 0b0001011#7) rfl fun _ => by
    rw [decode_pack_IntVv]; simp [decodeIntVv]

theorem vmulhVx (d a b : BitVec 5) (m : BitVec 1) : Statement (.vmulhVx d a b m) :=
  strandWord (v := Fields.pack (0b001110#6 ++ m) b a 0b001#3 d 0b0001011#7) rfl fun _ => by
    rw [decode_pack_IntVx]; simp [decodeIntVx]

theorem vmulhuVv (d a b : BitVec 5) (m : BitVec 1) : Statement (.vmulhuVv d a b m) :=
  strandWord (v := Fields.pack (0b001111#6 ++ m) b a 0b000#3 d 0b0001011#7) rfl fun _ => by
    rw [decode_pack_IntVv]; simp [decodeIntVv]

theorem vmulhuVx (d a b : BitVec 5) (m : BitVec 1) : Statement (.vmulhuVx d a b m) :=
  strandWord (v := Fields.pack (0b001111#6 ++ m) b a 0b001#3 d 0b0001011#7) rfl fun _ => by
    rw [decode_pack_IntVx]; simp [decodeIntVx]

theorem vdivuVv (d a b : BitVec 5) (m : BitVec 1) : Statement (.vdivuVv d a b m) :=
  strandWord (v := Fields.pack (0b010000#6 ++ m) b a 0b000#3 d 0b0001011#7) rfl fun _ => by
    rw [decode_pack_IntVv]; simp [decodeIntVv]

theorem vdivuVx (d a b : BitVec 5) (m : BitVec 1) : Statement (.vdivuVx d a b m) :=
  strandWord (v := Fields.pack (0b010000#6 ++ m) b a 0b001#3 d 0b0001011#7) rfl fun _ => by
    rw [decode_pack_IntVx]; simp [decodeIntVx]

theorem vdivVv (d a b : BitVec 5) (m : BitVec 1) : Statement (.vdivVv d a b m) :=
  strandWord (v := Fields.pack (0b010001#6 ++ m) b a 0b000#3 d 0b0001011#7) rfl fun _ => by
    rw [decode_pack_IntVv]; simp [decodeIntVv]

theorem vdivVx (d a b : BitVec 5) (m : BitVec 1) : Statement (.vdivVx d a b m) :=
  strandWord (v := Fields.pack (0b010001#6 ++ m) b a 0b001#3 d 0b0001011#7) rfl fun _ => by
    rw [decode_pack_IntVx]; simp [decodeIntVx]

theorem vremuVv (d a b : BitVec 5) (m : BitVec 1) : Statement (.vremuVv d a b m) :=
  strandWord (v := Fields.pack (0b010010#6 ++ m) b a 0b000#3 d 0b0001011#7) rfl fun _ => by
    rw [decode_pack_IntVv]; simp [decodeIntVv]

theorem vremuVx (d a b : BitVec 5) (m : BitVec 1) : Statement (.vremuVx d a b m) :=
  strandWord (v := Fields.pack (0b010010#6 ++ m) b a 0b001#3 d 0b0001011#7) rfl fun _ => by
    rw [decode_pack_IntVx]; simp [decodeIntVx]

theorem vremVv (d a b : BitVec 5) (m : BitVec 1) : Statement (.vremVv d a b m) :=
  strandWord (v := Fields.pack (0b010011#6 ++ m) b a 0b000#3 d 0b0001011#7) rfl fun _ => by
    rw [decode_pack_IntVv]; simp [decodeIntVv]

theorem vremVx (d a b : BitVec 5) (m : BitVec 1) : Statement (.vremVx d a b m) :=
  strandWord (v := Fields.pack (0b010011#6 ++ m) b a 0b001#3 d 0b0001011#7) rfl fun _ => by
    rw [decode_pack_IntVx]; simp [decodeIntVx]

theorem vmaccVv (d a b : BitVec 5) (m : BitVec 1) : Statement (.vmaccVv d a b m) :=
  strandWord (v := Fields.pack (0b010100#6 ++ m) b a 0b000#3 d 0b0001011#7) rfl fun _ => by
    rw [decode_pack_IntVv]; simp [decodeIntVv]

theorem vmaccVx (d a b : BitVec 5) (m : BitVec 1) : Statement (.vmaccVx d a b m) :=
  strandWord (v := Fields.pack (0b010100#6 ++ m) b a 0b001#3 d 0b0001011#7) rfl fun _ => by
    rw [decode_pack_IntVx]; simp [decodeIntVx]

theorem vsadduVv (d a b : BitVec 5) (m : BitVec 1) : Statement (.vsadduVv d a b m) :=
  strandWord (v := Fields.pack (0b010101#6 ++ m) b a 0b000#3 d 0b0001011#7) rfl fun _ => by
    rw [decode_pack_IntVv]; simp [decodeIntVv]

theorem vsadduVx (d a b : BitVec 5) (m : BitVec 1) : Statement (.vsadduVx d a b m) :=
  strandWord (v := Fields.pack (0b010101#6 ++ m) b a 0b001#3 d 0b0001011#7) rfl fun _ => by
    rw [decode_pack_IntVx]; simp [decodeIntVx]

theorem vsadduVi (d a b : BitVec 5) (m : BitVec 1) : Statement (.vsadduVi d a b m) :=
  strandWord (v := Fields.pack (0b010101#6 ++ m) b a 0b010#3 d 0b0001011#7) rfl fun _ => by
    rw [decode_pack_IntVi]; simp [decodeIntVi]

theorem vsaddVv (d a b : BitVec 5) (m : BitVec 1) : Statement (.vsaddVv d a b m) :=
  strandWord (v := Fields.pack (0b010110#6 ++ m) b a 0b000#3 d 0b0001011#7) rfl fun _ => by
    rw [decode_pack_IntVv]; simp [decodeIntVv]

theorem vsaddVx (d a b : BitVec 5) (m : BitVec 1) : Statement (.vsaddVx d a b m) :=
  strandWord (v := Fields.pack (0b010110#6 ++ m) b a 0b001#3 d 0b0001011#7) rfl fun _ => by
    rw [decode_pack_IntVx]; simp [decodeIntVx]

theorem vsaddVi (d a b : BitVec 5) (m : BitVec 1) : Statement (.vsaddVi d a b m) :=
  strandWord (v := Fields.pack (0b010110#6 ++ m) b a 0b010#3 d 0b0001011#7) rfl fun _ => by
    rw [decode_pack_IntVi]; simp [decodeIntVi]

theorem vssubuVv (d a b : BitVec 5) (m : BitVec 1) : Statement (.vssubuVv d a b m) :=
  strandWord (v := Fields.pack (0b010111#6 ++ m) b a 0b000#3 d 0b0001011#7) rfl fun _ => by
    rw [decode_pack_IntVv]; simp [decodeIntVv]

theorem vssubuVx (d a b : BitVec 5) (m : BitVec 1) : Statement (.vssubuVx d a b m) :=
  strandWord (v := Fields.pack (0b010111#6 ++ m) b a 0b001#3 d 0b0001011#7) rfl fun _ => by
    rw [decode_pack_IntVx]; simp [decodeIntVx]

theorem vssubVv (d a b : BitVec 5) (m : BitVec 1) : Statement (.vssubVv d a b m) :=
  strandWord (v := Fields.pack (0b011000#6 ++ m) b a 0b000#3 d 0b0001011#7) rfl fun _ => by
    rw [decode_pack_IntVv]; simp [decodeIntVv]

theorem vssubVx (d a b : BitVec 5) (m : BitVec 1) : Statement (.vssubVx d a b m) :=
  strandWord (v := Fields.pack (0b011000#6 ++ m) b a 0b001#3 d 0b0001011#7) rfl fun _ => by
    rw [decode_pack_IntVx]; simp [decodeIntVx]

theorem vnclipuVv (d a b : BitVec 5) (m : BitVec 1) : Statement (.vnclipuVv d a b m) :=
  strandWord (v := Fields.pack (0b011001#6 ++ m) b a 0b000#3 d 0b0001011#7) rfl fun _ => by
    rw [decode_pack_IntVv]; simp [decodeIntVv]

theorem vnclipuVx (d a b : BitVec 5) (m : BitVec 1) : Statement (.vnclipuVx d a b m) :=
  strandWord (v := Fields.pack (0b011001#6 ++ m) b a 0b001#3 d 0b0001011#7) rfl fun _ => by
    rw [decode_pack_IntVx]; simp [decodeIntVx]

theorem vnclipuVi (d a b : BitVec 5) (m : BitVec 1) : Statement (.vnclipuVi d a b m) :=
  strandWord (v := Fields.pack (0b011001#6 ++ m) b a 0b010#3 d 0b0001011#7) rfl fun _ => by
    rw [decode_pack_IntVi]; simp [decodeIntVi]

theorem vnclipVv (d a b : BitVec 5) (m : BitVec 1) : Statement (.vnclipVv d a b m) :=
  strandWord (v := Fields.pack (0b011010#6 ++ m) b a 0b000#3 d 0b0001011#7) rfl fun _ => by
    rw [decode_pack_IntVv]; simp [decodeIntVv]

theorem vnclipVx (d a b : BitVec 5) (m : BitVec 1) : Statement (.vnclipVx d a b m) :=
  strandWord (v := Fields.pack (0b011010#6 ++ m) b a 0b001#3 d 0b0001011#7) rfl fun _ => by
    rw [decode_pack_IntVx]; simp [decodeIntVx]

theorem vnclipVi (d a b : BitVec 5) (m : BitVec 1) : Statement (.vnclipVi d a b m) :=
  strandWord (v := Fields.pack (0b011010#6 ++ m) b a 0b010#3 d 0b0001011#7) rfl fun _ => by
    rw [decode_pack_IntVi]; simp [decodeIntVi]

theorem vcvti (d b : BitVec 5) (m s : BitVec 1) (w : BitVec 3) : Statement (.vcvti d b m s w) :=
  strandWord (v := Fields.pack (0b011011#6 ++ m) b (s ++ 0b0#1 ++ w) 0b000#3 d 0b0001011#7) rfl fun hw => by
    have hw : decide (w ≠ 7) = true := hw
    simp at hw
    rw [decode_pack_IntVv]; simp [hw, decodeIntVv]

theorem vmergeVv (d a b : BitVec 5) : Statement (.vmergeVv d a b) :=
  strandWord (v := Fields.pack 0b0111001#7 b a 0b000#3 d 0b0001011#7) rfl fun _ => by
    rw [decode_pack_IntVv]; simp [decodeIntVv]

theorem vmergeVx (d a b : BitVec 5) : Statement (.vmergeVx d a b) :=
  strandWord (v := Fields.pack 0b0111001#7 b a 0b001#3 d 0b0001011#7) rfl fun _ => by
    rw [decode_pack_IntVx]; simp [decodeIntVx]

theorem vmergeVi (d a b : BitVec 5) : Statement (.vmergeVi d a b) :=
  strandWord (v := Fields.pack 0b0111001#7 b a 0b010#3 d 0b0001011#7) rfl fun _ => by
    rw [decode_pack_IntVi]; simp [decodeIntVi]

theorem vmvVv (d a : BitVec 5) (m : BitVec 1) : Statement (.vmvVv d a m) :=
  strandWord (v := Fields.pack (0b011101#6 ++ m) 0b00000#5 a 0b000#3 d 0b0001011#7) rfl fun _ => by
    rw [decode_pack_IntVv]; simp [decodeIntVv]

theorem vmvVx (d a : BitVec 5) (m : BitVec 1) : Statement (.vmvVx d a m) :=
  strandWord (v := Fields.pack (0b011101#6 ++ m) 0b00000#5 a 0b001#3 d 0b0001011#7) rfl fun _ => by
    rw [decode_pack_IntVx]; simp [decodeIntVx]

theorem vmvVi (d a : BitVec 5) (m : BitVec 1) : Statement (.vmvVi d a m) :=
  strandWord (v := Fields.pack (0b011101#6 ++ m) 0b00000#5 a 0b010#3 d 0b0001011#7) rfl fun _ => by
    rw [decode_pack_IntVi]; simp [decodeIntVi]

theorem vabs (d b : BitVec 5) (m : BitVec 1) : Statement (.vabs d b m) :=
  strandWord (v := Fields.pack (0b101000#6 ++ m) b 0b00000#5 0b000#3 d 0b0001011#7) rfl fun _ => by
    rw [decode_pack_IntVv]; simp [decodeIntVv]

theorem vbcnt (d b : BitVec 5) (m : BitVec 1) : Statement (.vbcnt d b m) :=
  strandWord (v := Fields.pack (0b101001#6 ++ m) b 0b00000#5 0b000#3 d 0b0001011#7) rfl fun _ => by
    rw [decode_pack_IntVv]; simp [decodeIntVv]

theorem vmseqVv (d a b : BitVec 5) (m : BitVec 1) : Statement (.vmseqVv d a b m) :=
  strandWord (v := Fields.pack (0b100000#6 ++ m) b a 0b000#3 d 0b0001011#7) rfl fun _ => by
    rw [decode_pack_IntVv]; simp [decodeIntVv]

theorem vmseqVx (d a b : BitVec 5) (m : BitVec 1) : Statement (.vmseqVx d a b m) :=
  strandWord (v := Fields.pack (0b100000#6 ++ m) b a 0b001#3 d 0b0001011#7) rfl fun _ => by
    rw [decode_pack_IntVx]; simp [decodeIntVx]

theorem vmseqVi (d a b : BitVec 5) (m : BitVec 1) : Statement (.vmseqVi d a b m) :=
  strandWord (v := Fields.pack (0b100000#6 ++ m) b a 0b010#3 d 0b0001011#7) rfl fun _ => by
    rw [decode_pack_IntVi]; simp [decodeIntVi]

theorem vmsneVv (d a b : BitVec 5) (m : BitVec 1) : Statement (.vmsneVv d a b m) :=
  strandWord (v := Fields.pack (0b100001#6 ++ m) b a 0b000#3 d 0b0001011#7) rfl fun _ => by
    rw [decode_pack_IntVv]; simp [decodeIntVv]

theorem vmsneVx (d a b : BitVec 5) (m : BitVec 1) : Statement (.vmsneVx d a b m) :=
  strandWord (v := Fields.pack (0b100001#6 ++ m) b a 0b001#3 d 0b0001011#7) rfl fun _ => by
    rw [decode_pack_IntVx]; simp [decodeIntVx]

theorem vmsneVi (d a b : BitVec 5) (m : BitVec 1) : Statement (.vmsneVi d a b m) :=
  strandWord (v := Fields.pack (0b100001#6 ++ m) b a 0b010#3 d 0b0001011#7) rfl fun _ => by
    rw [decode_pack_IntVi]; simp [decodeIntVi]

theorem vmsltuVv (d a b : BitVec 5) (m : BitVec 1) : Statement (.vmsltuVv d a b m) :=
  strandWord (v := Fields.pack (0b100010#6 ++ m) b a 0b000#3 d 0b0001011#7) rfl fun _ => by
    rw [decode_pack_IntVv]; simp [decodeIntVv]

theorem vmsltuVx (d a b : BitVec 5) (m : BitVec 1) : Statement (.vmsltuVx d a b m) :=
  strandWord (v := Fields.pack (0b100010#6 ++ m) b a 0b001#3 d 0b0001011#7) rfl fun _ => by
    rw [decode_pack_IntVx]; simp [decodeIntVx]

theorem vmsltVv (d a b : BitVec 5) (m : BitVec 1) : Statement (.vmsltVv d a b m) :=
  strandWord (v := Fields.pack (0b100011#6 ++ m) b a 0b000#3 d 0b0001011#7) rfl fun _ => by
    rw [decode_pack_IntVv]; simp [decodeIntVv]

theorem vmsltVx (d a b : BitVec 5) (m : BitVec 1) : Statement (.vmsltVx d a b m) :=
  strandWord (v := Fields.pack (0b100011#6 ++ m) b a 0b001#3 d 0b0001011#7) rfl fun _ => by
    rw [decode_pack_IntVx]; simp [decodeIntVx]

theorem vmsleuVv (d a b : BitVec 5) (m : BitVec 1) : Statement (.vmsleuVv d a b m) :=
  strandWord (v := Fields.pack (0b100100#6 ++ m) b a 0b000#3 d 0b0001011#7) rfl fun _ => by
    rw [decode_pack_IntVv]; simp [decodeIntVv]

theorem vmsleuVx (d a b : BitVec 5) (m : BitVec 1) : Statement (.vmsleuVx d a b m) :=
  strandWord (v := Fields.pack (0b100100#6 ++ m) b a 0b001#3 d 0b0001011#7) rfl fun _ => by
    rw [decode_pack_IntVx]; simp [decodeIntVx]

theorem vmsleuVi (d a b : BitVec 5) (m : BitVec 1) : Statement (.vmsleuVi d a b m) :=
  strandWord (v := Fields.pack (0b100100#6 ++ m) b a 0b010#3 d 0b0001011#7) rfl fun _ => by
    rw [decode_pack_IntVi]; simp [decodeIntVi]

theorem vmsleVv (d a b : BitVec 5) (m : BitVec 1) : Statement (.vmsleVv d a b m) :=
  strandWord (v := Fields.pack (0b100101#6 ++ m) b a 0b000#3 d 0b0001011#7) rfl fun _ => by
    rw [decode_pack_IntVv]; simp [decodeIntVv]

theorem vmsleVx (d a b : BitVec 5) (m : BitVec 1) : Statement (.vmsleVx d a b m) :=
  strandWord (v := Fields.pack (0b100101#6 ++ m) b a 0b001#3 d 0b0001011#7) rfl fun _ => by
    rw [decode_pack_IntVx]; simp [decodeIntVx]

theorem vmsleVi (d a b : BitVec 5) (m : BitVec 1) : Statement (.vmsleVi d a b m) :=
  strandWord (v := Fields.pack (0b100101#6 ++ m) b a 0b010#3 d 0b0001011#7) rfl fun _ => by
    rw [decode_pack_IntVi]; simp [decodeIntVi]

theorem vmsgtuVv (d a b : BitVec 5) (m : BitVec 1) : Statement (.vmsgtuVv d a b m) :=
  strandWord (v := Fields.pack (0b100110#6 ++ m) b a 0b000#3 d 0b0001011#7) rfl fun _ => by
    rw [decode_pack_IntVv]; simp [decodeIntVv]

theorem vmsgtuVx (d a b : BitVec 5) (m : BitVec 1) : Statement (.vmsgtuVx d a b m) :=
  strandWord (v := Fields.pack (0b100110#6 ++ m) b a 0b001#3 d 0b0001011#7) rfl fun _ => by
    rw [decode_pack_IntVx]; simp [decodeIntVx]

theorem vmsgtuVi (d a b : BitVec 5) (m : BitVec 1) : Statement (.vmsgtuVi d a b m) :=
  strandWord (v := Fields.pack (0b100110#6 ++ m) b a 0b010#3 d 0b0001011#7) rfl fun _ => by
    rw [decode_pack_IntVi]; simp [decodeIntVi]

theorem vmsgtVv (d a b : BitVec 5) (m : BitVec 1) : Statement (.vmsgtVv d a b m) :=
  strandWord (v := Fields.pack (0b100111#6 ++ m) b a 0b000#3 d 0b0001011#7) rfl fun _ => by
    rw [decode_pack_IntVv]; simp [decodeIntVv]

theorem vmsgtVx (d a b : BitVec 5) (m : BitVec 1) : Statement (.vmsgtVx d a b m) :=
  strandWord (v := Fields.pack (0b100111#6 ++ m) b a 0b001#3 d 0b0001011#7) rfl fun _ => by
    rw [decode_pack_IntVx]; simp [decodeIntVx]

theorem vmsgtVi (d a b : BitVec 5) (m : BitVec 1) : Statement (.vmsgtVi d a b m) :=
  strandWord (v := Fields.pack (0b100111#6 ++ m) b a 0b010#3 d 0b0001011#7) rfl fun _ => by
    rw [decode_pack_IntVi]; simp [decodeIntVi]

theorem vfaddVv (d a b : BitVec 5) (m : BitVec 1) : Statement (.vfaddVv d a b m) :=
  strandWord (v := Fields.pack (0b000000#6 ++ m) b a 0b011#3 d 0b0001011#7) rfl fun _ => by
    rw [decode_pack_FloatVv]; simp [decodeFloatVv]

theorem vfaddVf (d a b : BitVec 5) (m : BitVec 1) : Statement (.vfaddVf d a b m) :=
  strandWord (v := Fields.pack (0b000000#6 ++ m) b a 0b100#3 d 0b0001011#7) rfl fun _ => by
    rw [decode_pack_FloatVf]; simp [decodeFloatVf]

theorem vfsubVv (d a b : BitVec 5) (m : BitVec 1) : Statement (.vfsubVv d a b m) :=
  strandWord (v := Fields.pack (0b000001#6 ++ m) b a 0b011#3 d 0b0001011#7) rfl fun _ => by
    rw [decode_pack_FloatVv]; simp [decodeFloatVv]

theorem vfsubVf (d a b : BitVec 5) (m : BitVec 1) : Statement (.vfsubVf d a b m) :=
  strandWord (v := Fields.pack (0b000001#6 ++ m) b a 0b100#3 d 0b0001011#7) rfl fun _ => by
    rw [decode_pack_FloatVf]; simp [decodeFloatVf]

theorem vfrsubVf (d a b : BitVec 5) (m : BitVec 1) : Statement (.vfrsubVf d a b m) :=
  strandWord (v := Fields.pack (0b000010#6 ++ m) b a 0b100#3 d 0b0001011#7) rfl fun _ => by
    rw [decode_pack_FloatVf]; simp [decodeFloatVf]

theorem vfmulVv (d a b : BitVec 5) (m : BitVec 1) : Statement (.vfmulVv d a b m) :=
  strandWord (v := Fields.pack (0b000011#6 ++ m) b a 0b011#3 d 0b0001011#7) rfl fun _ => by
    rw [decode_pack_FloatVv]; simp [decodeFloatVv]

theorem vfmulVf (d a b : BitVec 5) (m : BitVec 1) : Statement (.vfmulVf d a b m) :=
  strandWord (v := Fields.pack (0b000011#6 ++ m) b a 0b100#3 d 0b0001011#7) rfl fun _ => by
    rw [decode_pack_FloatVf]; simp [decodeFloatVf]

theorem vfmaccVv (d a b : BitVec 5) (m : BitVec 1) : Statement (.vfmaccVv d a b m) :=
  strandWord (v := Fields.pack (0b000100#6 ++ m) b a 0b011#3 d 0b0001011#7) rfl fun _ => by
    rw [decode_pack_FloatVv]; simp [decodeFloatVv]

theorem vfmaccVf (d a b : BitVec 5) (m : BitVec 1) : Statement (.vfmaccVf d a b m) :=
  strandWord (v := Fields.pack (0b000100#6 ++ m) b a 0b100#3 d 0b0001011#7) rfl fun _ => by
    rw [decode_pack_FloatVf]; simp [decodeFloatVf]

theorem vfnmsacVv (d a b : BitVec 5) (m : BitVec 1) : Statement (.vfnmsacVv d a b m) :=
  strandWord (v := Fields.pack (0b000101#6 ++ m) b a 0b011#3 d 0b0001011#7) rfl fun _ => by
    rw [decode_pack_FloatVv]; simp [decodeFloatVv]

theorem vfnmsacVf (d a b : BitVec 5) (m : BitVec 1) : Statement (.vfnmsacVf d a b m) :=
  strandWord (v := Fields.pack (0b000101#6 ++ m) b a 0b100#3 d 0b0001011#7) rfl fun _ => by
    rw [decode_pack_FloatVf]; simp [decodeFloatVf]

theorem vfminVv (d a b : BitVec 5) (m : BitVec 1) : Statement (.vfminVv d a b m) :=
  strandWord (v := Fields.pack (0b000110#6 ++ m) b a 0b011#3 d 0b0001011#7) rfl fun _ => by
    rw [decode_pack_FloatVv]; simp [decodeFloatVv]

theorem vfminVf (d a b : BitVec 5) (m : BitVec 1) : Statement (.vfminVf d a b m) :=
  strandWord (v := Fields.pack (0b000110#6 ++ m) b a 0b100#3 d 0b0001011#7) rfl fun _ => by
    rw [decode_pack_FloatVf]; simp [decodeFloatVf]

theorem vfmaxVv (d a b : BitVec 5) (m : BitVec 1) : Statement (.vfmaxVv d a b m) :=
  strandWord (v := Fields.pack (0b000111#6 ++ m) b a 0b011#3 d 0b0001011#7) rfl fun _ => by
    rw [decode_pack_FloatVv]; simp [decodeFloatVv]

theorem vfmaxVf (d a b : BitVec 5) (m : BitVec 1) : Statement (.vfmaxVf d a b m) :=
  strandWord (v := Fields.pack (0b000111#6 ++ m) b a 0b100#3 d 0b0001011#7) rfl fun _ => by
    rw [decode_pack_FloatVf]; simp [decodeFloatVf]

theorem vfsgnjVv (d a b : BitVec 5) (m : BitVec 1) : Statement (.vfsgnjVv d a b m) :=
  strandWord (v := Fields.pack (0b001000#6 ++ m) b a 0b011#3 d 0b0001011#7) rfl fun _ => by
    rw [decode_pack_FloatVv]; simp [decodeFloatVv]

theorem vfsgnjVf (d a b : BitVec 5) (m : BitVec 1) : Statement (.vfsgnjVf d a b m) :=
  strandWord (v := Fields.pack (0b001000#6 ++ m) b a 0b100#3 d 0b0001011#7) rfl fun _ => by
    rw [decode_pack_FloatVf]; simp [decodeFloatVf]

theorem vfsgnjnVv (d a b : BitVec 5) (m : BitVec 1) : Statement (.vfsgnjnVv d a b m) :=
  strandWord (v := Fields.pack (0b001001#6 ++ m) b a 0b011#3 d 0b0001011#7) rfl fun _ => by
    rw [decode_pack_FloatVv]; simp [decodeFloatVv]

theorem vfsgnjnVf (d a b : BitVec 5) (m : BitVec 1) : Statement (.vfsgnjnVf d a b m) :=
  strandWord (v := Fields.pack (0b001001#6 ++ m) b a 0b100#3 d 0b0001011#7) rfl fun _ => by
    rw [decode_pack_FloatVf]; simp [decodeFloatVf]

theorem vfsgnjxVv (d a b : BitVec 5) (m : BitVec 1) : Statement (.vfsgnjxVv d a b m) :=
  strandWord (v := Fields.pack (0b001010#6 ++ m) b a 0b011#3 d 0b0001011#7) rfl fun _ => by
    rw [decode_pack_FloatVv]; simp [decodeFloatVv]

theorem vfsgnjxVf (d a b : BitVec 5) (m : BitVec 1) : Statement (.vfsgnjxVf d a b m) :=
  strandWord (v := Fields.pack (0b001010#6 ++ m) b a 0b100#3 d 0b0001011#7) rfl fun _ => by
    rw [decode_pack_FloatVf]; simp [decodeFloatVf]

theorem vfrcp (d b : BitVec 5) (m : BitVec 1) : Statement (.vfrcp d b m) :=
  strandWord (v := Fields.pack (0b001101#6 ++ m) b 0b00000#5 0b011#3 d 0b0001011#7) rfl fun _ => by
    rw [decode_pack_FloatVv]; simp [decodeFloatVv]

theorem vfrsqrt (d b : BitVec 5) (m : BitVec 1) : Statement (.vfrsqrt d b m) :=
  strandWord (v := Fields.pack (0b001110#6 ++ m) b 0b00000#5 0b011#3 d 0b0001011#7) rfl fun _ => by
    rw [decode_pack_FloatVv]; simp [decodeFloatVv]

theorem vfexp2 (d b : BitVec 5) (m : BitVec 1) : Statement (.vfexp2 d b m) :=
  strandWord (v := Fields.pack (0b001111#6 ++ m) b 0b00000#5 0b011#3 d 0b0001011#7) rfl fun _ => by
    rw [decode_pack_FloatVv]; simp [decodeFloatVv]

theorem vfclass (d b : BitVec 5) (m : BitVec 1) : Statement (.vfclass d b m) :=
  strandWord (v := Fields.pack (0b010000#6 ++ m) b 0b00000#5 0b011#3 d 0b0001011#7) rfl fun _ => by
    rw [decode_pack_FloatVv]; simp [decodeFloatVv]

theorem vfcvt (d b : BitVec 5) (m : BitVec 1) (k : BitVec 5) : Statement (.vfcvt d b m k) :=
  strandWord (v := Fields.pack (0b010001#6 ++ m) b k 0b011#3 d 0b0001011#7) rfl fun hw => by
    have hw : (k.extractLsb' 3 2 = 1 || k.extractLsb' 1 2 ≠ 3) = true := hw
    simp at hw
    rw [decode_pack_FloatVv]; simp [hw, decodeFloatVv]

theorem vmfeqVv (d a b : BitVec 5) (m : BitVec 1) : Statement (.vmfeqVv d a b m) :=
  strandWord (v := Fields.pack (0b100000#6 ++ m) b a 0b011#3 d 0b0001011#7) rfl fun _ => by
    rw [decode_pack_FloatVv]; simp [decodeFloatVv]

theorem vmfeqVf (d a b : BitVec 5) (m : BitVec 1) : Statement (.vmfeqVf d a b m) :=
  strandWord (v := Fields.pack (0b100000#6 ++ m) b a 0b100#3 d 0b0001011#7) rfl fun _ => by
    rw [decode_pack_FloatVf]; simp [decodeFloatVf]

theorem vmfneVv (d a b : BitVec 5) (m : BitVec 1) : Statement (.vmfneVv d a b m) :=
  strandWord (v := Fields.pack (0b100001#6 ++ m) b a 0b011#3 d 0b0001011#7) rfl fun _ => by
    rw [decode_pack_FloatVv]; simp [decodeFloatVv]

theorem vmfneVf (d a b : BitVec 5) (m : BitVec 1) : Statement (.vmfneVf d a b m) :=
  strandWord (v := Fields.pack (0b100001#6 ++ m) b a 0b100#3 d 0b0001011#7) rfl fun _ => by
    rw [decode_pack_FloatVf]; simp [decodeFloatVf]

theorem vmfltVv (d a b : BitVec 5) (m : BitVec 1) : Statement (.vmfltVv d a b m) :=
  strandWord (v := Fields.pack (0b100010#6 ++ m) b a 0b011#3 d 0b0001011#7) rfl fun _ => by
    rw [decode_pack_FloatVv]; simp [decodeFloatVv]

theorem vmfltVf (d a b : BitVec 5) (m : BitVec 1) : Statement (.vmfltVf d a b m) :=
  strandWord (v := Fields.pack (0b100010#6 ++ m) b a 0b100#3 d 0b0001011#7) rfl fun _ => by
    rw [decode_pack_FloatVf]; simp [decodeFloatVf]

theorem vmfleVv (d a b : BitVec 5) (m : BitVec 1) : Statement (.vmfleVv d a b m) :=
  strandWord (v := Fields.pack (0b100011#6 ++ m) b a 0b011#3 d 0b0001011#7) rfl fun _ => by
    rw [decode_pack_FloatVv]; simp [decodeFloatVv]

theorem vmfleVf (d a b : BitVec 5) (m : BitVec 1) : Statement (.vmfleVf d a b m) :=
  strandWord (v := Fields.pack (0b100011#6 ++ m) b a 0b100#3 d 0b0001011#7) rfl fun _ => by
    rw [decode_pack_FloatVf]; simp [decodeFloatVf]

theorem vmfgtVv (d a b : BitVec 5) (m : BitVec 1) : Statement (.vmfgtVv d a b m) :=
  strandWord (v := Fields.pack (0b100100#6 ++ m) b a 0b011#3 d 0b0001011#7) rfl fun _ => by
    rw [decode_pack_FloatVv]; simp [decodeFloatVv]

theorem vmfgtVf (d a b : BitVec 5) (m : BitVec 1) : Statement (.vmfgtVf d a b m) :=
  strandWord (v := Fields.pack (0b100100#6 ++ m) b a 0b100#3 d 0b0001011#7) rfl fun _ => by
    rw [decode_pack_FloatVf]; simp [decodeFloatVf]

theorem vmfgeVv (d a b : BitVec 5) (m : BitVec 1) : Statement (.vmfgeVv d a b m) :=
  strandWord (v := Fields.pack (0b100101#6 ++ m) b a 0b011#3 d 0b0001011#7) rfl fun _ => by
    rw [decode_pack_FloatVv]; simp [decodeFloatVv]

theorem vmfgeVf (d a b : BitVec 5) (m : BitVec 1) : Statement (.vmfgeVf d a b m) :=
  strandWord (v := Fields.pack (0b100101#6 ++ m) b a 0b100#3 d 0b0001011#7) rfl fun _ => by
    rw [decode_pack_FloatVf]; simp [decodeFloatVf]

theorem vmfordVv (d a b : BitVec 5) (m : BitVec 1) : Statement (.vmfordVv d a b m) :=
  strandWord (v := Fields.pack (0b100110#6 ++ m) b a 0b011#3 d 0b0001011#7) rfl fun _ => by
    rw [decode_pack_FloatVv]; simp [decodeFloatVv]

theorem vmfordVf (d a b : BitVec 5) (m : BitVec 1) : Statement (.vmfordVf d a b m) :=
  strandWord (v := Fields.pack (0b100110#6 ++ m) b a 0b100#3 d 0b0001011#7) rfl fun _ => by
    rw [decode_pack_FloatVf]; simp [decodeFloatVf]

theorem vsrch (d a b : BitVec 5) (m : BitVec 1) : Statement (.vsrch d a b m) :=
  strandWord (v := Fields.pack (0b000000#6 ++ m) b a 0b101#3 d 0b0001011#7) rfl fun _ => by
    rw [decode_pack_MaskAssoc]; simp [decodeMaskAssoc]

theorem vsrng (d a b : BitVec 5) (m : BitVec 1) : Statement (.vsrng d a b m) :=
  strandWord (v := Fields.pack (0b000001#6 ++ m) b a 0b101#3 d 0b0001011#7) rfl fun _ => by
    rw [decode_pack_MaskAssoc]; simp [decodeMaskAssoc]

theorem vcpop (d b : BitVec 5) (m : BitVec 1) : Statement (.vcpop d b m) :=
  strandWord (v := Fields.pack (0b000010#6 ++ m) b 0b00000#5 0b101#3 d 0b0001011#7) rfl fun _ => by
    rw [decode_pack_MaskAssoc]; simp [decodeMaskAssoc]

theorem vfirst (d b : BitVec 5) (m : BitVec 1) : Statement (.vfirst d b m) :=
  strandWord (v := Fields.pack (0b000011#6 ++ m) b 0b00000#5 0b101#3 d 0b0001011#7) rfl fun _ => by
    rw [decode_pack_MaskAssoc]; simp [decodeMaskAssoc]

theorem vmand (d a b : BitVec 5) : Statement (.vmand d a b) :=
  strandWord (v := Fields.pack 0b0001000#7 b a 0b101#3 d 0b0001011#7) rfl fun _ => by
    rw [decode_pack_MaskAssoc]; simp [decodeMaskAssoc]

theorem vmor (d a b : BitVec 5) : Statement (.vmor d a b) :=
  strandWord (v := Fields.pack 0b0001010#7 b a 0b101#3 d 0b0001011#7) rfl fun _ => by
    rw [decode_pack_MaskAssoc]; simp [decodeMaskAssoc]

theorem vmxor (d a b : BitVec 5) : Statement (.vmxor d a b) :=
  strandWord (v := Fields.pack 0b0001100#7 b a 0b101#3 d 0b0001011#7) rfl fun _ => by
    rw [decode_pack_MaskAssoc]; simp [decodeMaskAssoc]

theorem vmandn (d a b : BitVec 5) : Statement (.vmandn d a b) :=
  strandWord (v := Fields.pack 0b0001110#7 b a 0b101#3 d 0b0001011#7) rfl fun _ => by
    rw [decode_pack_MaskAssoc]; simp [decodeMaskAssoc]

theorem vmnand (d a b : BitVec 5) : Statement (.vmnand d a b) :=
  strandWord (v := Fields.pack 0b0010000#7 b a 0b101#3 d 0b0001011#7) rfl fun _ => by
    rw [decode_pack_MaskAssoc]; simp [decodeMaskAssoc]

theorem vmnor (d a b : BitVec 5) : Statement (.vmnor d a b) :=
  strandWord (v := Fields.pack 0b0010010#7 b a 0b101#3 d 0b0001011#7) rfl fun _ => by
    rw [decode_pack_MaskAssoc]; simp [decodeMaskAssoc]

theorem vmorn (d a b : BitVec 5) : Statement (.vmorn d a b) :=
  strandWord (v := Fields.pack 0b0010100#7 b a 0b101#3 d 0b0001011#7) rfl fun _ => by
    rw [decode_pack_MaskAssoc]; simp [decodeMaskAssoc]

theorem vmxnor (d a b : BitVec 5) : Statement (.vmxnor d a b) :=
  strandWord (v := Fields.pack 0b0010110#7 b a 0b101#3 d 0b0001011#7) rfl fun _ => by
    rw [decode_pack_MaskAssoc]; simp [decodeMaskAssoc]

theorem vmsbf (d b : BitVec 5) (m : BitVec 1) : Statement (.vmsbf d b m) :=
  strandWord (v := Fields.pack (0b001100#6 ++ m) b 0b00000#5 0b101#3 d 0b0001011#7) rfl fun _ => by
    rw [decode_pack_MaskAssoc]; simp [decodeMaskAssoc]

theorem vmsif (d b : BitVec 5) (m : BitVec 1) : Statement (.vmsif d b m) :=
  strandWord (v := Fields.pack (0b001101#6 ++ m) b 0b00000#5 0b101#3 d 0b0001011#7) rfl fun _ => by
    rw [decode_pack_MaskAssoc]; simp [decodeMaskAssoc]

theorem vmsof (d b : BitVec 5) (m : BitVec 1) : Statement (.vmsof d b m) :=
  strandWord (v := Fields.pack (0b001110#6 ++ m) b 0b00000#5 0b101#3 d 0b0001011#7) rfl fun _ => by
    rw [decode_pack_MaskAssoc]; simp [decodeMaskAssoc]

theorem viota (d b : BitVec 5) (m : BitVec 1) : Statement (.viota d b m) :=
  strandWord (v := Fields.pack (0b001111#6 ++ m) b 0b00000#5 0b101#3 d 0b0001011#7) rfl fun _ => by
    rw [decode_pack_MaskAssoc]; simp [decodeMaskAssoc]

theorem vid (d : BitVec 5) (m : BitVec 1) : Statement (.vid d m) :=
  strandWord (v := Fields.pack (0b010000#6 ++ m) 0b00000#5 0b00000#5 0b101#3 d 0b0001011#7) rfl fun _ => by
    rw [decode_pack_MaskAssoc]; simp [decodeMaskAssoc]

theorem vcompress (d a b : BitVec 5) : Statement (.vcompress d a b) :=
  strandWord (v := Fields.pack 0b0100010#7 b a 0b101#3 d 0b0001011#7) rfl fun _ => by
    rw [decode_pack_MaskAssoc]; simp [decodeMaskAssoc]

theorem vcompi (d a : BitVec 5) : Statement (.vcompi d a) :=
  strandWord (v := Fields.pack 0b0100100#7 0b00000#5 a 0b101#3 d 0b0001011#7) rfl fun _ => by
    rw [decode_pack_MaskAssoc]; simp [decodeMaskAssoc]

theorem vtopk (d a b : BitVec 5) (m : BitVec 1) : Statement (.vtopk d a b m) :=
  strandWord (v := Fields.pack (0b010011#6 ++ m) b a 0b101#3 d 0b0001011#7) rfl fun _ => by
    rw [decode_pack_MaskAssoc]; simp [decodeMaskAssoc]

theorem vlut (d a b : BitVec 5) (m : BitVec 1) : Statement (.vlut d a b m) :=
  strandWord (v := Fields.pack (0b010100#6 ++ m) b a 0b101#3 d 0b0001011#7) rfl fun _ => by
    rw [decode_pack_MaskAssoc]; simp [decodeMaskAssoc]

theorem vbfly (d a b : BitVec 5) (m : BitVec 1) : Statement (.vbfly d a b m) :=
  strandWord (v := Fields.pack (0b010101#6 ++ m) b a 0b101#3 d 0b0001011#7) rfl fun _ => by
    rw [decode_pack_MaskAssoc]; simp [decodeMaskAssoc]

theorem vhad (d a b : BitVec 5) : Statement (.vhad d a b) :=
  strandWord (v := Fields.pack 0b0101100#7 b a 0b101#3 d 0b0001011#7) rfl fun _ => by
    rw [decode_pack_MaskAssoc]; simp [decodeMaskAssoc]

theorem vxchg (d a b : BitVec 5) : Statement (.vxchg d a b) :=
  strandWord (v := Fields.pack 0b0101110#7 b a 0b101#3 d 0b0001011#7) rfl fun _ => by
    rw [decode_pack_MaskAssoc]; simp [decodeMaskAssoc]

theorem vslideup (d a b : BitVec 5) (m : BitVec 1) : Statement (.vslideup d a b m) :=
  strandWord (v := Fields.pack (0b011000#6 ++ m) b a 0b101#3 d 0b0001011#7) rfl fun _ => by
    rw [decode_pack_MaskAssoc]; simp [decodeMaskAssoc]

theorem vslidedown (d a b : BitVec 5) (m : BitVec 1) : Statement (.vslidedown d a b m) :=
  strandWord (v := Fields.pack (0b011001#6 ++ m) b a 0b101#3 d 0b0001011#7) rfl fun _ => by
    rw [decode_pack_MaskAssoc]; simp [decodeMaskAssoc]

theorem vrgather (d a b : BitVec 5) (m : BitVec 1) : Statement (.vrgather d a b m) :=
  strandWord (v := Fields.pack (0b011010#6 ++ m) b a 0b101#3 d 0b0001011#7) rfl fun _ => by
    rw [decode_pack_MaskAssoc]; simp [decodeMaskAssoc]

theorem vredsum (d a b : BitVec 5) (m : BitVec 1) : Statement (.vredsum d a b m) :=
  strandWord (v := Fields.pack (0b011011#6 ++ m) b a 0b101#3 d 0b0001011#7) rfl fun _ => by
    rw [decode_pack_MaskAssoc]; simp [decodeMaskAssoc]

theorem vredmax (d a b : BitVec 5) (m : BitVec 1) : Statement (.vredmax d a b m) :=
  strandWord (v := Fields.pack (0b011100#6 ++ m) b a 0b101#3 d 0b0001011#7) rfl fun _ => by
    rw [decode_pack_MaskAssoc]; simp [decodeMaskAssoc]

theorem vredmin (d a b : BitVec 5) (m : BitVec 1) : Statement (.vredmin d a b m) :=
  strandWord (v := Fields.pack (0b011101#6 ++ m) b a 0b101#3 d 0b0001011#7) rfl fun _ => by
    rw [decode_pack_MaskAssoc]; simp [decodeMaskAssoc]

theorem vredmaxu (d a b : BitVec 5) (m : BitVec 1) : Statement (.vredmaxu d a b m) :=
  strandWord (v := Fields.pack (0b011110#6 ++ m) b a 0b101#3 d 0b0001011#7) rfl fun _ => by
    rw [decode_pack_MaskAssoc]; simp [decodeMaskAssoc]

theorem vredminu (d a b : BitVec 5) (m : BitVec 1) : Statement (.vredminu d a b m) :=
  strandWord (v := Fields.pack (0b011111#6 ++ m) b a 0b101#3 d 0b0001011#7) rfl fun _ => by
    rw [decode_pack_MaskAssoc]; simp [decodeMaskAssoc]

theorem vfredsum (d a b : BitVec 5) (m : BitVec 1) : Statement (.vfredsum d a b m) :=
  strandWord (v := Fields.pack (0b100000#6 ++ m) b a 0b101#3 d 0b0001011#7) rfl fun _ => by
    rw [decode_pack_MaskAssoc]; simp [decodeMaskAssoc]

theorem vfredosum (d a b : BitVec 5) (m : BitVec 1) : Statement (.vfredosum d a b m) :=
  strandWord (v := Fields.pack (0b100001#6 ++ m) b a 0b101#3 d 0b0001011#7) rfl fun _ => by
    rw [decode_pack_MaskAssoc]; simp [decodeMaskAssoc]

theorem vfredmax (d a b : BitVec 5) (m : BitVec 1) : Statement (.vfredmax d a b m) :=
  strandWord (v := Fields.pack (0b100010#6 ++ m) b a 0b101#3 d 0b0001011#7) rfl fun _ => by
    rw [decode_pack_MaskAssoc]; simp [decodeMaskAssoc]

theorem vfredmin (d a b : BitVec 5) (m : BitVec 1) : Statement (.vfredmin d a b m) :=
  strandWord (v := Fields.pack (0b100011#6 ++ m) b a 0b101#3 d 0b0001011#7) rfl fun _ => by
    rw [decode_pack_MaskAssoc]; simp [decodeMaskAssoc]

theorem vmvxs (d b : BitVec 5) : Statement (.vmvxs d b) :=
  strandWord (v := Fields.pack 0b1001010#7 b 0b00000#5 0b101#3 d 0b0001011#7) rfl fun _ => by
    rw [decode_pack_MaskAssoc]; simp [decodeMaskAssoc]

theorem vmvsx (d a : BitVec 5) : Statement (.vmvsx d a) :=
  strandWord (v := Fields.pack 0b1001100#7 0b00000#5 a 0b101#3 d 0b0001011#7) rfl fun _ => by
    rw [decode_pack_MaskAssoc]; simp [decodeMaskAssoc]

theorem qcomp (d b : BitVec 5) (m : BitVec 1) : Statement (.qcomp d b m) :=
  strandWord (v := Fields.pack (0b000000#6 ++ m) b 0b00000#5 0b110#3 d 0b0001011#7) rfl fun _ => by
    rw [decode_pack_Scale]; simp [decodeScale]

theorem vquant (d a b : BitVec 5) (m : BitVec 1) : Statement (.vquant d a b m) :=
  strandWord (v := Fields.pack (0b000001#6 ++ m) b a 0b110#3 d 0b0001011#7) rfl fun _ => by
    rw [decode_pack_Scale]; simp [decodeScale]

theorem vdequant (d b : BitVec 5) (m : BitVec 1) : Statement (.vdequant d b m) :=
  strandWord (v := Fields.pack (0b000010#6 ++ m) b 0b00000#5 0b110#3 d 0b0001011#7) rfl fun _ => by
    rw [decode_pack_Scale]; simp [decodeScale]

theorem qbind (d a : BitVec 5) : Statement (.qbind d a) :=
  strandWord (v := Fields.pack 0b0000110#7 0b00000#5 a 0b110#3 d 0b0001011#7) rfl fun _ => by
    rw [decode_pack_Scale]; simp [decodeScale]

theorem qunbind (d : BitVec 5) : Statement (.qunbind d) :=
  strandWord (v := Fields.pack 0b0001000#7 0b00000#5 0b00000#5 0b110#3 d 0b0001011#7) rfl fun _ => by
    rw [decode_pack_Scale]; simp [decodeScale]

theorem qmul (d a b : BitVec 5) : Statement (.qmul d a b) :=
  strandWord (v := Fields.pack 0b0001010#7 b a 0b110#3 d 0b0001011#7) rfl fun _ => by
    rw [decode_pack_Scale]; simp [decodeScale]

theorem qmulx (d a b : BitVec 5) : Statement (.qmulx d a b) :=
  strandWord (v := Fields.pack 0b0001100#7 b a 0b110#3 d 0b0001011#7) rfl fun _ => by
    rw [decode_pack_Scale]; simp [decodeScale]

theorem qmax (d a b : BitVec 5) : Statement (.qmax d a b) :=
  strandWord (v := Fields.pack 0b0001110#7 b a 0b110#3 d 0b0001011#7) rfl fun _ => by
    rw [decode_pack_Scale]; simp [decodeScale]

theorem qrcp (d b : BitVec 5) : Statement (.qrcp d b) :=
  strandWord (v := Fields.pack 0b0010000#7 b 0b00000#5 0b110#3 d 0b0001011#7) rfl fun _ => by
    rw [decode_pack_Scale]; simp [decodeScale]

theorem qcvt (d a b : BitVec 5) : Statement (.qcvt d a b) :=
  strandWord (v := Fields.pack 0b0010010#7 b a 0b110#3 d 0b0001011#7) rfl fun hw => by
    have hw : (a.extractLsb' 2 3 = 0 && a.extractLsb' 0 2 ≠ 3) = true := hw
    simp at hw
    rw [decode_pack_Scale]; simp [hw, decodeScale]

theorem qmv (d b : BitVec 5) : Statement (.qmv d b) :=
  strandWord (v := Fields.pack 0b0010100#7 b 0b00000#5 0b110#3 d 0b0001011#7) rfl fun _ => by
    rw [decode_pack_Scale]; simp [decodeScale]

theorem qtag (d a : BitVec 5) : Statement (.qtag d a) :=
  strandWord (v := Fields.pack 0b0010110#7 0b00000#5 a 0b110#3 d 0b0001011#7) rfl fun _ => by
    rw [decode_pack_Scale]; simp [decodeScale]

theorem qbindt (d a b : BitVec 5) : Statement (.qbindt d a b) :=
  strandWord (v := Fields.pack 0b0011000#7 b a 0b110#3 d 0b0001011#7) rfl fun _ => by
    rw [decode_pack_Scale]; simp [decodeScale]

theorem qunbindt (d : BitVec 5) : Statement (.qunbindt d) :=
  strandWord (v := Fields.pack 0b0011010#7 0b00000#5 0b00000#5 0b110#3 d 0b0001011#7) rfl fun _ => by
    rw [decode_pack_Scale]; simp [decodeScale]

theorem vle (d a : BitVec 5) (t : BitVec 3) (m : BitVec 1) (w : BitVec 3) : Statement (.vle d a t m w) :=
  strandWord (v := Fields.pack (0b000#3 ++ t ++ m) 0b00000#5 a w d 0b0101011#7) rfl fun hw => by
    have hw : decide (w.extractLsb' 1 2 ≠ 3) = true := hw
    simp at hw
    rw [decode_pack_Vm]; simp [hw, decodeVm, decodeVmWidth]

theorem vse (d a : BitVec 5) (t : BitVec 3) (m : BitVec 1) (w : BitVec 3) : Statement (.vse d a t m w) :=
  strandWord (v := Fields.pack (0b001#3 ++ t ++ m) 0b00000#5 a w d 0b0101011#7) rfl fun hw => by
    have hw : decide (w.extractLsb' 1 2 ≠ 3) = true := hw
    simp at hw
    rw [decode_pack_Vm]; simp [hw, decodeVm, decodeVmWidth]

theorem vlse (d a b : BitVec 5) (t : BitVec 3) (m : BitVec 1) (w : BitVec 3) : Statement (.vlse d a b t m w) :=
  strandWord (v := Fields.pack (0b010#3 ++ t ++ m) b a w d 0b0101011#7) rfl fun hw => by
    have hw : decide (w.extractLsb' 1 2 ≠ 3) = true := hw
    simp at hw
    rw [decode_pack_Vm]; simp [hw, decodeVm, decodeVmWidth]

theorem vsse (d a b : BitVec 5) (t : BitVec 3) (m : BitVec 1) (w : BitVec 3) : Statement (.vsse d a b t m w) :=
  strandWord (v := Fields.pack (0b011#3 ++ t ++ m) b a w d 0b0101011#7) rfl fun hw => by
    have hw : decide (w.extractLsb' 1 2 ≠ 3) = true := hw
    simp at hw
    rw [decode_pack_Vm]; simp [hw, decodeVm, decodeVmWidth]

theorem vlxe (d a b : BitVec 5) (t : BitVec 3) (m : BitVec 1) (w : BitVec 3) : Statement (.vlxe d a b t m w) :=
  strandWord (v := Fields.pack (0b100#3 ++ t ++ m) b a w d 0b0101011#7) rfl fun hw => by
    have hw : decide (w.extractLsb' 1 2 ≠ 3) = true := hw
    simp at hw
    rw [decode_pack_Vm]; simp [hw, decodeVm, decodeVmWidth]

theorem vsxe (d a b : BitVec 5) (t : BitVec 3) (m : BitVec 1) (w : BitVec 3) : Statement (.vsxe d a b t m w) :=
  strandWord (v := Fields.pack (0b101#3 ++ t ++ m) b a w d 0b0101011#7) rfl fun hw => by
    have hw : decide (w.extractLsb' 1 2 ≠ 3) = true := hw
    simp at hw
    rw [decode_pack_Vm]; simp [hw, decodeVm, decodeVmWidth]

theorem vlq (d a b : BitVec 5) (t : BitVec 3) : Statement (.vlq d a b t) :=
  strandWord (v := Fields.pack (0b110#3 ++ t ++ 0b0#1) b a 0b000#3 d 0b0101011#7) rfl fun _ => by
    rw [decode_pack_Vm]; simp [decodeVm, decodeVmScaled]

theorem vsq (d a b : BitVec 5) (t : BitVec 3) : Statement (.vsq d a b t) :=
  strandWord (v := Fields.pack (0b110#3 ++ t ++ 0b0#1) b a 0b001#3 d 0b0101011#7) rfl fun _ => by
    rw [decode_pack_Vm]; simp [decodeVm, decodeVmScaled]

theorem qld (d a b : BitVec 5) (t : BitVec 3) : Statement (.qld d a b t) :=
  strandWord (v := Fields.pack (0b110#3 ++ t ++ 0b0#1) b a 0b010#3 d 0b0101011#7) rfl fun _ => by
    rw [decode_pack_Vm]; simp [decodeVm, decodeVmScaled]

theorem qst (d a : BitVec 5) (t : BitVec 3) : Statement (.qst d a t) :=
  strandWord (v := Fields.pack (0b110#3 ++ t ++ 0b0#1) 0b00000#5 a 0b011#3 d 0b0101011#7) rfl fun _ => by
    rw [decode_pack_Vm]; simp [decodeVm, decodeVmScaled]

theorem wsrch (d a b : BitVec 5) (t : BitVec 3) (m : BitVec 1) : Statement (.wsrch d a b t m) :=
  strandWord (v := Fields.pack (0b110#3 ++ t ++ m) b a 0b100#3 d 0b0101011#7) rfl fun _ => by
    rw [decode_pack_Vm]; simp [decodeVm, decodeVmScaled]

theorem wdot (d a b : BitVec 5) (t : BitVec 3) (m : BitVec 1) : Statement (.wdot d a b t m) :=
  strandWord (v := Fields.pack (0b110#3 ++ t ++ m) b a 0b101#3 d 0b0101011#7) rfl fun _ => by
    rw [decode_pack_Vm]; simp [decodeVm, decodeVmScaled]

theorem wtopk (d a b : BitVec 5) (t : BitVec 3) (m : BitVec 1) : Statement (.wtopk d a b t m) :=
  strandWord (v := Fields.pack (0b110#3 ++ t ++ m) b a 0b110#3 d 0b0101011#7) rfl fun _ => by
    rw [decode_pack_Vm]; simp [decodeVm, decodeVmScaled]

theorem vamoAdd (d a b : BitVec 5) (m : BitVec 1) : Statement (.vamoAdd d a b m) :=
  strandWord (v := Fields.pack (0b111000#6 ++ m) b a 0b000#3 d 0b0101011#7) rfl fun _ => by
    rw [decode_pack_Vm]; simp [decodeVm, decodeVamo]

theorem vamoAnd (d a b : BitVec 5) (m : BitVec 1) : Statement (.vamoAnd d a b m) :=
  strandWord (v := Fields.pack (0b111001#6 ++ m) b a 0b000#3 d 0b0101011#7) rfl fun _ => by
    rw [decode_pack_Vm]; simp [decodeVm, decodeVamo]

theorem vamoOr (d a b : BitVec 5) (m : BitVec 1) : Statement (.vamoOr d a b m) :=
  strandWord (v := Fields.pack (0b111010#6 ++ m) b a 0b000#3 d 0b0101011#7) rfl fun _ => by
    rw [decode_pack_Vm]; simp [decodeVm, decodeVamo]

theorem vamoXor (d a b : BitVec 5) (m : BitVec 1) : Statement (.vamoXor d a b m) :=
  strandWord (v := Fields.pack (0b111011#6 ++ m) b a 0b000#3 d 0b0101011#7) rfl fun _ => by
    rw [decode_pack_Vm]; simp [decodeVm, decodeVamo]

theorem vamoSmin (d a b : BitVec 5) (m : BitVec 1) : Statement (.vamoSmin d a b m) :=
  strandWord (v := Fields.pack (0b111100#6 ++ m) b a 0b000#3 d 0b0101011#7) rfl fun _ => by
    rw [decode_pack_Vm]; simp [decodeVm, decodeVamo]

theorem vamoSmax (d a b : BitVec 5) (m : BitVec 1) : Statement (.vamoSmax d a b m) :=
  strandWord (v := Fields.pack (0b111101#6 ++ m) b a 0b000#3 d 0b0101011#7) rfl fun _ => by
    rw [decode_pack_Vm]; simp [decodeVm, decodeVamo]

theorem vamoUmax (d a b : BitVec 5) (m : BitVec 1) : Statement (.vamoUmax d a b m) :=
  strandWord (v := Fields.pack (0b111110#6 ++ m) b a 0b000#3 d 0b0101011#7) rfl fun _ => by
    rw [decode_pack_Vm]; simp [decodeVm, decodeVamo]

theorem vamoSwap (d a b : BitVec 5) (m : BitVec 1) : Statement (.vamoSwap d a b m) :=
  strandWord (v := Fields.pack (0b111111#6 ++ m) b a 0b000#3 d 0b0101011#7) rfl fun _ => by
    rw [decode_pack_Vm]; simp [decodeVm, decodeVamo]

theorem vlgl (d a b : BitVec 5) (m : BitVec 1) : Statement (.vlgl d a b m) :=
  strandWord (v := Fields.pack (0b111000#6 ++ m) b a 0b001#3 d 0b0101011#7) rfl fun _ => by
    rw [decode_pack_Vm]; simp [decodeVm, decodeVmAtomic]

theorem vssc (d a b : BitVec 5) (m : BitVec 1) : Statement (.vssc d a b m) :=
  strandWord (v := Fields.pack (0b111000#6 ++ m) b a 0b010#3 d 0b0101011#7) rfl fun _ => by
    rw [decode_pack_Vm]; simp [decodeVm, decodeVmAtomic]

theorem vfascan (d a : BitVec 5) (m : BitVec 1) : Statement (.vfascan d a m) :=
  strandWord (v := Fields.pack (0b111000#6 ++ m) 0b00000#5 a 0b011#3 d 0b0101011#7) rfl fun _ => by
    rw [decode_pack_Vm]; simp [decodeVm, decodeVmAtomic]

theorem mld (a : BitVec 5) (t : BitVec 3) (e : BitVec 1) : Statement (.mld a t e) :=
  strandWord (v := Fields.pack 0b0000001#7 0b00000#5 a t (0b0000#4 ++ e) 0b1011011#7) rfl fun _ => by
    rw [decode_pack_Ex]; simp [decodeEx]

theorem mldg (a b : BitVec 5) (t : BitVec 3) (e : BitVec 1) : Statement (.mldg a b t e) :=
  strandWord (v := Fields.pack 0b0000010#7 b a t (0b0000#4 ++ e) 0b1011011#7) rfl fun _ => by
    rw [decode_pack_Ex]; simp [decodeEx]

theorem mflip (t : BitVec 3) (e : BitVec 1) : Statement (.mflip t e) :=
  strandWord (v := Fields.pack 0b0000011#7 0b00000#5 0b00000#5 t (0b0000#4 ++ e) 0b1011011#7) rfl fun _ => by
    rw [decode_pack_Ex]; simp [decodeEx]

theorem mmac (a : BitVec 5) (t : BitVec 3) (e : BitVec 1) : Statement (.mmac a t e) :=
  strandWord (v := Fields.pack 0b0000100#7 0b00000#5 a t (0b0000#4 ++ e) 0b1011011#7) rfl fun _ => by
    rw [decode_pack_Ex]; simp [decodeEx]

theorem mgrp (a b : BitVec 5) (t : BitVec 3) (e : BitVec 1) : Statement (.mgrp a b t e) :=
  strandWord (v := Fields.pack 0b0000101#7 b a t (0b0000#4 ++ e) 0b1011011#7) rfl fun _ => by
    rw [decode_pack_Ex]; simp [decodeEx]

theorem mst (a b : BitVec 5) (t : BitVec 3) (e : BitVec 1) : Statement (.mst a b t e) :=
  strandWord (v := Fields.pack 0b0000110#7 b a t (0b0000#4 ++ e) 0b1011011#7) rfl fun _ => by
    rw [decode_pack_Ex]; simp [decodeEx]

theorem mzero (t : BitVec 3) (e : BitVec 1) : Statement (.mzero t e) :=
  strandWord (v := Fields.pack 0b0000111#7 0b00000#5 0b00000#5 t (0b0000#4 ++ e) 0b1011011#7) rfl fun _ => by
    rw [decode_pack_Ex]; simp [decodeEx]

theorem mtile (a : BitVec 5) (t : BitVec 3) (e : BitVec 1) : Statement (.mtile a t e) :=
  strandWord (v := Fields.pack 0b0001000#7 0b00000#5 a t (0b0000#4 ++ e) 0b1011011#7) rfl fun _ => by
    rw [decode_pack_Ex]; simp [decodeEx]

theorem cpy (a : BitVec 5) (t : BitVec 3) : Statement (.cpy a t) :=
  strandWord (v := Fields.pack 0b0100000#7 0b00000#5 a t 0b00000#5 0b1011011#7) rfl fun _ => by
    rw [decode_pack_Ex]; simp [decodeEx]

theorem cpyx (a : BitVec 5) (t : BitVec 3) : Statement (.cpyx a t) :=
  strandWord (v := Fields.pack 0b0100001#7 0b00000#5 a t 0b00000#5 0b1011011#7) rfl fun _ => by
    rw [decode_pack_Ex]; simp [decodeEx]

theorem cpyf (a : BitVec 5) (t : BitVec 3) : Statement (.cpyf a t) :=
  strandWord (v := Fields.pack 0b0100010#7 0b00000#5 a t 0b00000#5 0b1011011#7) rfl fun _ => by
    rw [decode_pack_Ex]; simp [decodeEx]

theorem vsend (a b : BitVec 5) (t : BitVec 3) (m : BitVec 1) : Statement (.vsend a b t m) :=
  strandWord (v := Fields.pack 0b0110000#7 b a t (0b0000#4 ++ m) 0b1011011#7) rfl fun _ => by
    rw [decode_pack_Ex]; simp [decodeEx]

theorem vrecv (d a : BitVec 5) (t : BitVec 3) : Statement (.vrecv d a t) :=
  strandWord (v := Fields.pack 0b0110001#7 0b00000#5 a t d 0b1011011#7) rfl fun _ => by
    rw [decode_pack_Ex]; simp [decodeEx]

theorem msgx (a b : BitVec 5) (t : BitVec 3) : Statement (.msgx a b t) :=
  strandWord (v := Fields.pack 0b0110010#7 b a t 0b00000#5 0b1011011#7) rfl fun _ => by
    rw [decode_pack_Ex]; simp [decodeEx]

theorem nmq (a b : BitVec 5) (t : BitVec 3) : Statement (.nmq a b t) :=
  strandWord (v := Fields.pack 0b0111000#7 b a t 0b00000#5 0b1011011#7) rfl fun _ => by
    rw [decode_pack_Ex]; simp [decodeEx]

theorem kvsplice (a : BitVec 5) (t : BitVec 3) : Statement (.kvsplice a t) :=
  strandWord (v := Fields.pack 0b1000000#7 0b00000#5 a t 0b00000#5 0b1011011#7) rfl fun _ => by
    rw [decode_pack_Ex]; simp [decodeEx]

theorem kvrepair (a : BitVec 5) (t : BitVec 3) : Statement (.kvrepair a t) :=
  strandWord (v := Fields.pack 0b1000001#7 0b00000#5 a t 0b00000#5 0b1011011#7) rfl fun _ => by
    rw [decode_pack_Ex]; simp [decodeEx]

theorem kvcommit (a : BitVec 5) (t : BitVec 3) : Statement (.kvcommit a t) :=
  strandWord (v := Fields.pack 0b1000010#7 0b00000#5 a t 0b00000#5 0b1011011#7) rfl fun _ => by
    rw [decode_pack_Ex]; simp [decodeEx]

theorem kvseal (a : BitVec 5) (t : BitVec 3) : Statement (.kvseal a t) :=
  strandWord (v := Fields.pack 0b1000011#7 0b00000#5 a t 0b00000#5 0b1011011#7) rfl fun _ => by
    rw [decode_pack_Ex]; simp [decodeEx]

theorem kvgather (a : BitVec 5) (t : BitVec 3) : Statement (.kvgather a t) :=
  strandWord (v := Fields.pack 0b1000100#7 0b00000#5 a t 0b00000#5 0b1011011#7) rfl fun _ => by
    rw [decode_pack_Ex]; simp [decodeEx]

theorem gwalk (a : BitVec 5) (t : BitVec 3) : Statement (.gwalk a t) :=
  strandWord (v := Fields.pack 0b1001000#7 0b00000#5 a t 0b00000#5 0b1011011#7) rfl fun _ => by
    rw [decode_pack_Ex]; simp [decodeEx]

theorem gins (a : BitVec 5) (t : BitVec 3) : Statement (.gins a t) :=
  strandWord (v := Fields.pack 0b1001001#7 0b00000#5 a t 0b00000#5 0b1011011#7) rfl fun _ => by
    rw [decode_pack_Ex]; simp [decodeEx]

theorem gdel (a : BitVec 5) (t : BitVec 3) : Statement (.gdel a t) :=
  strandWord (v := Fields.pack 0b1001010#7 0b00000#5 a t 0b00000#5 0b1011011#7) rfl fun _ => by
    rw [decode_pack_Ex]; simp [decodeEx]

theorem vsetvli (d a : BitVec 5) (i : BitVec 11) : Statement (.vsetvli d a i) :=
  strandWord (v := Fields.pack (0b0#1 ++ i.extractLsb' 5 6) (i.extractLsb' 0 5) a 0b000#3 d 0b1111011#7) rfl fun _ => by
    rw [decode_pack_Cx]; simp [decodeCx]

theorem vsetivli (d : BitVec 5) (i : BitVec 11) (u : BitVec 5) : Statement (.vsetivli d i u) :=
  strandWord (v := Fields.pack (0b0#1 ++ i.extractLsb' 5 6) (i.extractLsb' 0 5) u 0b001#3 d 0b1111011#7) rfl fun _ => by
    rw [decode_pack_Cx]; simp [decodeCx]

theorem vsetvl (d a b : BitVec 5) : Statement (.vsetvl d a b) :=
  strandWord (v := Fields.pack 0b0000000#7 b a 0b010#3 d 0b1111011#7) rfl fun _ => by
    rw [decode_pack_Cx]; simp [decodeCx, decodeCxSet]

theorem vsetmt (d a : BitVec 5) : Statement (.vsetmt d a) :=
  strandWord (v := Fields.pack 0b0000001#7 0b00000#5 a 0b010#3 d 0b1111011#7) rfl fun _ => by
    rw [decode_pack_Cx]; simp [decodeCx, decodeCxSet]

theorem loop (a : BitVec 5) (i : BitVec 12) : Statement (.loop a i) :=
  strandWord (v := Fields.pack (i.extractLsb' 5 7) (i.extractLsb' 0 5) a 0b011#3 0b00000#5 0b1111011#7) rfl fun _ => by
    rw [decode_pack_Cx]; simp [decodeCx, Fields.immI]

theorem loopi (i : BitVec 12) (u : BitVec 5) : Statement (.loopi i u) :=
  strandWord (v := Fields.pack (i.extractLsb' 5 7) (i.extractLsb' 0 5) u 0b100#3 0b00000#5 0b1111011#7) rfl fun _ => by
    rw [decode_pack_Cx]; simp [decodeCx, Fields.immI]

theorem lpbrk : Statement .lpbrk :=
  strandWord (v := Fields.pack 0b0000000#7 0b00000#5 0b00000#5 0b101#3 0b00000#5 0b1111011#7) rfl fun _ => by
    rw [decode_pack_Cx]; simp [decodeCx, decodeCxSync]

theorem lpidx (d l : BitVec 5) : Statement (.lpidx d l) :=
  strandWord (v := Fields.pack 0b0000001#7 l 0b00000#5 0b101#3 d 0b1111011#7) rfl fun _ => by
    rw [decode_pack_Cx]; simp [decodeCx, decodeCxSync]

theorem tkpost (q : BitVec 5) : Statement (.tkpost q) :=
  strandWord (v := Fields.pack 0b0000010#7 q 0b00000#5 0b101#3 0b00000#5 0b1111011#7) rfl fun _ => by
    rw [decode_pack_Cx]; simp [decodeCx, decodeCxSync]

theorem tkwait (q : BitVec 5) : Statement (.tkwait q) :=
  strandWord (v := Fields.pack 0b0000011#7 q 0b00000#5 0b101#3 0b00000#5 0b1111011#7) rfl fun _ => by
    rw [decode_pack_Cx]; simp [decodeCx, decodeCxSync]

theorem bararv (a : BitVec 5) : Statement (.bararv a) :=
  strandWord (v := Fields.pack 0b0000100#7 0b00000#5 a 0b101#3 0b00000#5 0b1111011#7) rfl fun _ => by
    rw [decode_pack_Cx]; simp [decodeCx, decodeCxSync]

theorem barwait (a : BitVec 5) : Statement (.barwait a) :=
  strandWord (v := Fields.pack 0b0000101#7 0b00000#5 a 0b101#3 0b00000#5 0b1111011#7) rfl fun _ => by
    rw [decode_pack_Cx]; simp [decodeCx, decodeCxSync]

theorem barsync (a : BitVec 5) : Statement (.barsync a) :=
  strandWord (v := Fields.pack 0b0000110#7 0b00000#5 a 0b101#3 0b00000#5 0b1111011#7) rfl fun _ => by
    rw [decode_pack_Cx]; simp [decodeCx, decodeCxSync]

theorem fenceS (i e v s : BitVec 1) (c : BitVec 5) : Statement (.fenceS i e v s c) :=
  strandWord (v := Fields.pack 0b0000111#7 (0b0#1 ++ i ++ e ++ v ++ s) c 0b101#3 0b00000#5 0b1111011#7) rfl fun _ => by
    rw [decode_pack_Cx]; simp [decodeCx, decodeCxSync]

theorem publish (a : BitVec 5) : Statement (.publish a) :=
  strandWord (v := Fields.pack 0b0001000#7 0b00000#5 a 0b101#3 0b00000#5 0b1111011#7) rfl fun _ => by
    rw [decode_pack_Cx]; simp [decodeCx, decodeCxSync]

theorem pubwait (a : BitVec 5) : Statement (.pubwait a) :=
  strandWord (v := Fields.pack 0b0001001#7 0b00000#5 a 0b101#3 0b00000#5 0b1111011#7) rfl fun _ => by
    rw [decode_pack_Cx]; simp [decodeCx, decodeCxSync]

theorem yield : Statement .yield :=
  strandWord (v := Fields.pack 0b0001010#7 0b00000#5 0b00000#5 0b101#3 0b00000#5 0b1111011#7) rfl fun _ => by
    rw [decode_pack_Cx]; simp [decodeCx, decodeCxSync]

theorem sexit : Statement .sexit :=
  strandWord (v := Fields.pack 0b0001011#7 0b00000#5 0b00000#5 0b101#3 0b00000#5 0b1111011#7) rfl fun _ => by
    rw [decode_pack_Cx]; simp [decodeCx, decodeCxSync]

theorem launch (d a : BitVec 5) : Statement (.launch d a) :=
  strandWord (v := Fields.pack 0b0000000#7 0b00000#5 a 0b110#3 d 0b1111011#7) rfl fun _ => by
    rw [decode_pack_Cx]; simp [decodeCx, decodeCxGraph]

theorem gsubmit (d a b : BitVec 5) : Statement (.gsubmit d a b) :=
  strandWord (v := Fields.pack 0b0000001#7 b a 0b110#3 d 0b1111011#7) rfl fun _ => by
    rw [decode_pack_Cx]; simp [decodeCx, decodeCxGraph]

theorem cntwait (a b : BitVec 5) : Statement (.cntwait a b) :=
  strandWord (v := Fields.pack 0b0000010#7 b a 0b110#3 0b00000#5 0b1111011#7) rfl fun _ => by
    rw [decode_pack_Cx]; simp [decodeCx, decodeCxGraph]

theorem cntread (d a : BitVec 5) : Statement (.cntread d a) :=
  strandWord (v := Fields.pack 0b0000011#7 0b00000#5 a 0b110#3 d 0b1111011#7) rfl fun _ => by
    rw [decode_pack_Cx]; simp [decodeCx, decodeCxGraph]

theorem cancel (a : BitVec 5) : Statement (.cancel a) :=
  strandWord (v := Fields.pack 0b0000100#7 0b00000#5 a 0b110#3 0b00000#5 0b1111011#7) rfl fun _ => by
    rw [decode_pack_Cx]; simp [decodeCx, decodeCxGraph]

theorem hpart (a : BitVec 5) : Statement (.hpart a) :=
  strandWord (v := Fields.pack 0b0000101#7 0b00000#5 a 0b110#3 0b00000#5 0b1111011#7) rfl fun _ => by
    rw [decode_pack_Cx]; simp [decodeCx, decodeCxGraph]

theorem cntnew (d a : BitVec 5) : Statement (.cntnew d a) :=
  strandWord (v := Fields.pack 0b0000110#7 0b00000#5 a 0b110#3 d 0b1111011#7) rfl fun _ => by
    rw [decode_pack_Cx]; simp [decodeCx, decodeCxGraph]

theorem tret : Statement .tret :=
  strandWord (v := Fields.pack 0b0000000#7 0b00000#5 0b00000#5 0b111#3 0b00000#5 0b1111011#7) rfl fun _ => by
    rw [decode_pack_Cx]; simp [decodeCx, decodeCxSystem]

theorem idle : Statement .idle :=
  strandWord (v := Fields.pack 0b0000001#7 0b00000#5 0b00000#5 0b111#3 0b00000#5 0b1111011#7) rfl fun _ => by
    rw [decode_pack_Cx]; simp [decodeCx, decodeCxSystem]

theorem ctxsave (a : BitVec 5) : Statement (.ctxsave a) :=
  strandWord (v := Fields.pack 0b0000010#7 0b00000#5 a 0b111#3 0b00000#5 0b1111011#7) rfl fun _ => by
    rw [decode_pack_Cx]; simp [decodeCx, decodeCxSystem]

theorem ctxload (a : BitVec 5) : Statement (.ctxload a) :=
  strandWord (v := Fields.pack 0b0000011#7 0b00000#5 a 0b111#3 0b00000#5 0b1111011#7) rfl fun _ => by
    rw [decode_pack_Cx]; simp [decodeCx, decodeCxSystem]

theorem tlbinv (a b : BitVec 5) : Statement (.tlbinv a b) :=
  strandWord (v := Fields.pack 0b0000100#7 b a 0b111#3 0b00000#5 0b1111011#7) rfl fun _ => by
    rw [decode_pack_Cx]; simp [decodeCx, decodeCxSystem]

theorem keyinv (a : BitVec 5) : Statement (.keyinv a) :=
  strandWord (v := Fields.pack 0b0000101#7 0b00000#5 a 0b111#3 0b00000#5 0b1111011#7) rfl fun _ => by
    rw [decode_pack_Cx]; simp [decodeCx, decodeCxSystem]

theorem suLd (d a : BitVec 5) (i : BitVec 1) : Statement (.suLd d a i) :=
  unitWord (v := SuFields.pack 0b000000#6 d a 0b00000#5 (0b0000000000#10 ++ i)) rfl fun _ => by
    rw [decodeSu_pack]; simp [decodeSuFields]

theorem suSt (d a : BitVec 5) (i : BitVec 1) : Statement (.suSt d a i) :=
  unitWord (v := SuFields.pack 0b000001#6 d a 0b00000#5 (0b0000000000#10 ++ i)) rfl fun _ => by
    rw [decodeSu_pack]; simp [decodeSuFields]

theorem suAdd (d a b : BitVec 5) : Statement (.suAdd d a b) :=
  unitWord (v := SuFields.pack 0b000010#6 d a b 0b00000000000#11) rfl fun _ => by
    rw [decodeSu_pack]; simp [decodeSuFields]

theorem suSub (d a b : BitVec 5) : Statement (.suSub d a b) :=
  unitWord (v := SuFields.pack 0b000011#6 d a b 0b00000000000#11) rfl fun _ => by
    rw [decodeSu_pack]; simp [decodeSuFields]

theorem suMul (d a b : BitVec 5) : Statement (.suMul d a b) :=
  unitWord (v := SuFields.pack 0b000100#6 d a b 0b00000000000#11) rfl fun _ => by
    rw [decodeSu_pack]; simp [decodeSuFields]

theorem suFma (d a b : BitVec 5) : Statement (.suFma d a b) :=
  unitWord (v := SuFields.pack 0b000101#6 d a b 0b00000000000#11) rfl fun _ => by
    rw [decodeSu_pack]; simp [decodeSuFields]

theorem suFms (d a b : BitVec 5) : Statement (.suFms d a b) :=
  unitWord (v := SuFields.pack 0b000110#6 d a b 0b00000000000#11) rfl fun _ => by
    rw [decodeSu_pack]; simp [decodeSuFields]

theorem suMin (d a b : BitVec 5) : Statement (.suMin d a b) :=
  unitWord (v := SuFields.pack 0b000111#6 d a b 0b00000000000#11) rfl fun _ => by
    rw [decodeSu_pack]; simp [decodeSuFields]

theorem suMax (d a b : BitVec 5) : Statement (.suMax d a b) :=
  unitWord (v := SuFields.pack 0b001000#6 d a b 0b00000000000#11) rfl fun _ => by
    rw [decodeSu_pack]; simp [decodeSuFields]

theorem suAbs (d a : BitVec 5) : Statement (.suAbs d a) :=
  unitWord (v := SuFields.pack 0b001001#6 d a 0b00000#5 0b00000000000#11) rfl fun _ => by
    rw [decodeSu_pack]; simp [decodeSuFields]

theorem suCmp (d a b : BitVec 5) (r : BitVec 2) : Statement (.suCmp d a b r) :=
  unitWord (v := SuFields.pack 0b001010#6 d a b (0b000000000#9 ++ r)) rfl fun _ => by
    rw [decodeSu_pack]; simp [decodeSuFields]

theorem suSel (d a b : BitVec 5) (k : BitVec 2) : Statement (.suSel d a b k) :=
  unitWord (v := SuFields.pack 0b001011#6 d a b (0b000000000#9 ++ k)) rfl fun _ => by
    rw [decodeSu_pack]; simp [decodeSuFields]

theorem suAnd (d a b : BitVec 5) : Statement (.suAnd d a b) :=
  unitWord (v := SuFields.pack 0b001100#6 d a b 0b00000000000#11) rfl fun _ => by
    rw [decodeSu_pack]; simp [decodeSuFields]

theorem suOr (d a b : BitVec 5) : Statement (.suOr d a b) :=
  unitWord (v := SuFields.pack 0b001101#6 d a b 0b00000000000#11) rfl fun _ => by
    rw [decodeSu_pack]; simp [decodeSuFields]

theorem suXor (d a b : BitVec 5) : Statement (.suXor d a b) :=
  unitWord (v := SuFields.pack 0b001110#6 d a b 0b00000000000#11) rfl fun _ => by
    rw [decodeSu_pack]; simp [decodeSuFields]

theorem suCvt (d a : BitVec 5) (c : BitVec 4) : Statement (.suCvt d a c) :=
  unitWord (v := SuFields.pack 0b001111#6 d a 0b00000#5 (0b0000000#7 ++ c)) rfl fun _ => by
    rw [decodeSu_pack]; simp [decodeSuFields]

theorem suRcp (d a : BitVec 5) : Statement (.suRcp d a) :=
  unitWord (v := SuFields.pack 0b010000#6 d a 0b00000#5 0b00000000000#11) rfl fun _ => by
    rw [decodeSu_pack]; simp [decodeSuFields]

theorem suRsqrt (d a : BitVec 5) : Statement (.suRsqrt d a) :=
  unitWord (v := SuFields.pack 0b010001#6 d a 0b00000#5 0b00000000000#11) rfl fun _ => by
    rw [decodeSu_pack]; simp [decodeSuFields]

theorem suBc (d a : BitVec 5) : Statement (.suBc d a) :=
  unitWord (v := SuFields.pack 0b010010#6 d a 0b00000#5 0b00000000000#11) rfl fun _ => by
    rw [decodeSu_pack]; simp [decodeSuFields]

theorem suMov (d a : BitVec 5) : Statement (.suMov d a) :=
  unitWord (v := SuFields.pack 0b010011#6 d a 0b00000#5 0b00000000000#11) rfl fun _ => by
    rw [decodeSu_pack]; simp [decodeSuFields]

theorem suLp1 (a : BitVec 5) (l : BitVec 11) : Statement (.suLp1 a l) :=
  unitWord (v := SuFields.pack 0b010100#6 0b00000#5 a 0b00000#5 l) rfl fun _ => by
    rw [decodeSu_pack]; simp [decodeSuFields]

theorem suLp2 (a : BitVec 5) (l : BitVec 11) : Statement (.suLp2 a l) :=
  unitWord (v := SuFields.pack 0b010101#6 0b00000#5 a 0b00000#5 l) rfl fun _ => by
    rw [decodeSu_pack]; simp [decodeSuFields]

theorem suPadd (d a : BitVec 5) (i : BitVec 11) : Statement (.suPadd d a i) :=
  unitWord (v := SuFields.pack 0b010110#6 d a 0b00000#5 i) rfl fun _ => by
    rw [decodeSu_pack]; simp [decodeSuFields]

theorem suEnd : Statement .suEnd :=
  unitWord (v := SuFields.pack 0b010111#6 0b00000#5 0b00000#5 0b00000#5 0b00000000000#11) rfl fun _ => by
    rw [decodeSu_pack]; simp [decodeSuFields]

theorem loadProgram (u : Nat) : Statement (.loadProgram u) := noWord rfl

theorem run (u : Nat) : Statement (.run u) := noWord rfl

theorem spill (u : Nat) : Statement (.spill u) := noWord rfl

theorem contextReschedule (asid : BitVec 12) : Statement (.contextReschedule asid) := noWord rfl

theorem launchAccept (c : Nat) : Statement (.launchAccept c) := noWord rfl

theorem graphAccept (c : Nat) : Statement (.graphAccept c) := noWord rfl

theorem submissionResult : Statement .submissionResult := noWord rfl

theorem jobPacketRead (j : Nat) : Statement (.jobPacketRead j) := noWord rfl

theorem jobNextPhase (c : Nat) : Statement (.jobNextPhase c) := noWord rfl

theorem phaseNextSubmission (c : Nat) : Statement (.phaseNextSubmission c) := noWord rfl

theorem nodeComplete (c node : Nat) : Statement (.nodeComplete c node) := noWord rfl

theorem readyPoolDispatch (t : Target) : Statement (.readyPoolDispatch t) := noWord rfl

theorem slotBeginIssue (i : StrandId) : Statement (.slotBeginIssue i) := noWord rfl

theorem readyEntryAge (n : Nat) : Statement (.readyEntryAge n) := noWord rfl

theorem timeSliceExpiry (i : StrandId) : Statement (.timeSliceExpiry i) := noWord rfl

theorem preemptionRequest (i : StrandId) : Statement (.preemptionRequest i) := noWord rfl

theorem preemptionStop : Statement .preemptionStop := noWord rfl

theorem graceExpiry (i : StrandId) : Statement (.graceExpiry i) := noWord rfl

theorem contextSave (i : StrandId) : Statement (.contextSave i) := noWord rfl

theorem saveComplete (i : StrandId) : Statement (.saveComplete i) := noWord rfl

theorem saveBegin (i : StrandId) : Statement (.saveBegin i) := noWord rfl

theorem saveRestart (i : StrandId) : Statement (.saveRestart i) := noWord rfl

theorem strandRestore (i : StrandId) (hoop slot : Nat) : Statement (.strandRestore i hoop slot) := noWord rfl

theorem arrayWipe (hoop array : Nat) : Statement (.arrayWipe hoop array) := noWord rfl

theorem partitionPartApply (hoop slot : Nat) : Statement (.partitionPartApply hoop slot) := noWord rfl

theorem strandCancelStop : Statement .strandCancelStop := noWord rfl

theorem counterIncrement (c : Nat) : Statement (.counterIncrement c) := noWord rfl

theorem stall (q : BitVec 3) : Statement (.stall q) := noWord rfl

theorem waitEnd : Statement .waitEnd := noWord rfl

theorem feResultWrite : Statement .feResultWrite := noWord rfl

theorem tokenPush (q : BitVec 3) : Statement (.tokenPush q) := noWord rfl

theorem tokenMarkerHead (q : BitVec 3) : Statement (.tokenMarkerHead q) := noWord rfl

theorem commandAccept (q : BitVec 3) : Statement (.commandAccept q) := noWord rfl

theorem matrixStep (e : BitVec 1) : Statement (.matrixStep e) := noWord rfl

theorem commandRetire (q : BitVec 3) (e : BitVec 1) : Statement (.commandRetire q e) := noWord rfl

theorem followOnAccept : Statement .followOnAccept := noWord rfl

theorem copyChunk : Statement .copyChunk := noWord rfl

theorem kvStep : Statement .kvStep := noWord rfl

theorem darnerListWrite (sess : Nat) : Statement (.darnerListWrite sess) := noWord rfl

theorem repairSessionAbandon (sess : Nat) : Statement (.repairSessionAbandon sess) := noWord rfl

theorem walkerRound : Statement .walkerRound := noWord rfl

theorem resultRound : Statement .resultRound := noWord rfl

theorem trapTake : Statement .trapTake := noWord rfl

theorem publishInstallation (set : Nat) : Statement (.publishInstallation set) := noWord rfl

theorem pageWalk (asid : BitVec 12) (va : BitVec 64) : Statement (.pageWalk asid va) := noWord rfl

theorem messageAccept (n : Nat) : Statement (.messageAccept n) := noWord rfl

theorem join (port : Nat) (h : GarzarHeader) : Statement (.join port h) := noWord rfl

theorem elem (port : Nat) (h : GarzarHeader) (data : List (BitVec 64)) : Statement (.elem port h data) := noWord rfl

theorem accept (port : Nat) (h : GarzarHeader) : Statement (.accept port h) := noWord rfl

theorem busy (port : Nat) (h : GarzarHeader) : Statement (.busy port h) := noWord rfl

theorem leave (port : Nat) (h : GarzarHeader) : Statement (.leave port h) := noWord rfl

theorem elemRetry (n : Nat) : Statement (.elemRetry n) := noWord rfl

theorem meshCommand (h : MeshHeader) : Statement (.meshCommand h) := noWord rfl

theorem meshTranslationRequest (h : MeshHeader) : Statement (.meshTranslationRequest h) := noWord rfl

theorem meshTranslationResponse (h : MeshHeader) : Statement (.meshTranslationResponse h) := noWord rfl

theorem meshCompletion (h : MeshHeader) : Statement (.meshCompletion h) := noWord rfl

theorem meshFaultRecord (h : MeshHeader) : Statement (.meshFaultRecord h) := noWord rfl

theorem meshImageData (h : MeshHeader) : Statement (.meshImageData h) := noWord rfl

theorem meshCredit (router out vc : Nat) : Statement (.meshCredit router out vc) := noWord rfl

theorem bar2Read (port off len : Nat) : Statement (.bar2Read port off len) := noWord rfl

theorem bar2Write (port : Nat) (off : Nat) (data : List (BitVec 8)) : Statement (.bar2Write port off data) := noWord rfl

theorem configurationRequest (port : Nat) (reg : Nat) (wr : Option (BitVec 32)) : Statement (.configurationRequest port reg wr) := noWord rfl

theorem unsupportedRequest (port tag : Nat) : Statement (.unsupportedRequest port tag) := noWord rfl

theorem registerWrite (off : Nat) (v : BitVec 64) : Statement (.registerWrite off v) := noWord rfl

theorem jobQueueDoorbell (j : Nat) (tail : BitVec 16) : Statement (.jobQueueDoorbell j tail) := noWord rfl

theorem alloc : Statement .alloc := noWord rfl

theorem erase : Statement .erase := noWord rfl

theorem attest : Statement .attest := noWord rfl

theorem debugAuth : Statement .debugAuth := noWord rfl

theorem mailboxResponse : Statement .mailboxResponse := noWord rfl

theorem contextInvalidate (asid : BitVec 12) : Statement (.contextInvalidate asid) := noWord rfl

theorem contextTeardown (asid : BitVec 12) : Statement (.contextTeardown asid) := noWord rfl

theorem msixSend (v : Nat) (data : BitVec 32) : Statement (.msixSend v data) := noWord rfl

theorem msixUnmask (v : Nat) : Statement (.msixUnmask v) := noWord rfl

theorem halt (win : Option Nat) (w : BitVec 64) : Statement (.halt win w) := noWord rfl

theorem resume (win : Option Nat) (w : BitVec 64) : Statement (.resume win w) := noWord rfl

theorem strandEndRequest (w : BitVec 64) : Statement (.strandEndRequest w) := noWord rfl

theorem traceRingEnable (w : BitVec 64) : Statement (.traceRingEnable w) := noWord rfl

theorem tabgidelOpen (valid : Bool) (serial : BitVec 128) (asids : List (BitVec 12)) : Statement (.tabgidelOpen valid serial asids) := noWord rfl

theorem tabgidelAccess (off : Nat) (wr : Option (BitVec 64)) : Statement (.tabgidelAccess off wr) := noWord rfl

theorem sample (hoop : Nat) : Statement (.sample hoop) := noWord rfl

theorem traceRecordsLost (hoop : Nat) : Statement (.traceRecordsLost hoop) := noWord rfl

theorem idleWake (i : StrandId) : Statement (.idleWake i) := noWord rfl

theorem powerLimit (rate : Nat) : Statement (.powerLimit rate) := noWord rfl

theorem thermalWarning (die temp : Nat) : Statement (.thermalWarning die temp) := noWord rfl

theorem thermalCriticalStop (die temp : Nat) : Statement (.thermalCriticalStop die temp) := noWord rfl

theorem thermalResume : Statement .thermalResume := noWord rfl

theorem backgroundCheck (hoop array row : Nat) (e : StorageError) : Statement (.backgroundCheck hoop array row e) := noWord rfl

theorem errorRecordWrite : Statement .errorRecordWrite := noWord rfl

theorem lastingFault (k : ErrorKind) (unit : Nat) : Statement (.lastingFault k unit) := noWord rfl

theorem spareReplacement (hoop array : Nat) : Statement (.spareReplacement hoop array) := noWord rfl

theorem spareRemap (hoop array : Nat) : Statement (.spareRemap hoop array) := noWord rfl

theorem arrayWithdraw (hoop array : Nat) : Statement (.arrayWithdraw hoop array) := noWord rfl

theorem dieFence (die : Nat) : Statement (.dieFence die) := noWord rfl

theorem linkTraining (port width rate : Nat) : Statement (.linkTraining port width rate) := noWord rfl

theorem channelPowerDownRequest (c : Nat) : Statement (.channelPowerDownRequest c) := noWord rfl

theorem channelDrainEnd (c : Nat) : Statement (.channelDrainEnd c) := noWord rfl

theorem channelSpillEnd (c : Nat) : Statement (.channelSpillEnd c) := noWord rfl

theorem channelWake (c : Nat) : Statement (.channelWake c) := noWord rfl

theorem channelRestoreEnd (c : Nat) : Statement (.channelRestoreEnd c) := noWord rfl

theorem checkpointRequest (stay : Bool) : Statement (.checkpointRequest stay) := noWord rfl

theorem checkpointCut : Statement .checkpointCut := noWord rfl

theorem checkpointTimeout : Statement .checkpointTimeout := noWord rfl

theorem checkpointRestore (imgs : List Nat) : Statement (.checkpointRestore imgs) := noWord rfl

theorem deviceReset (image : List (BitVec 8)) (version : Option (BitVec 64)) : Statement (.deviceReset image version) := noWord rfl

theorem serviceRelease (image : List (BitVec 8)) (version : Option (BitVec 64)) : Statement (.serviceRelease image version) := noWord rfl

theorem deviceReady (descr : List (BitVec 8)) : Statement (.deviceReady descr) := noWord rfl

theorem deviceDescriptionUpdate (off : Nat) (data : List (BitVec 8)) : Statement (.deviceDescriptionUpdate off data) := noWord rfl

theorem dutyCycling (hoop : Nat) (e : BitVec 1) : Statement (.dutyCycling hoop e) := noWord rfl

theorem temperatureFall (die temp : Nat) : Statement (.temperatureFall die temp) := noWord rfl

theorem pcieCompletion (port : Nat) : Statement (.pcieCompletion port) := noWord rfl

theorem meshOtherKind (h : MeshHeader) : Statement (.meshOtherKind h) := noWord rfl

theorem garzarOtherType (port : Nat) (h : GarzarHeader) : Statement (.garzarOtherType port h) := noWord rfl

theorem unknownOpcode : Statement .unknownOpcode := noWord rfl

theorem mailboxRequestIgnored (sequence : BitVec 64) : Statement (.mailboxRequestIgnored sequence) := noWord rfl

end RoundTrip

theorem RoundTrip.seal : RoundTrip.Statement .seal := RoundTrip.noWord rfl
theorem RoundTrip.unseal : RoundTrip.Statement .unseal := RoundTrip.noWord rfl

end Sys2Proof.Laws
end

