-- ==== Sys2Proof/Laws/State.lean ====
section
/-! SUPPORT. What each update of the state leaves as it was and what it sets, field by field. -/

namespace Sys2Proof.Machine

set_option Elab.async false

/-! ### Updates of a strand -/

@[simp] theorem writeReg_id (t : Strand) (r : Reg) (v : Word) : (writeReg t r v).id = t.id := by unfold writeReg; split <;> rfl
@[simp] theorem writeReg_count (t : Strand) (r : Reg) (v : Word) : (writeReg t r v).count = t.count := by unfold writeReg; split <;> rfl
@[simp] theorem writeReg_asid (t : Strand) (r : Reg) (v : Word) : (writeReg t r v).asid = t.asid := by unfold writeReg; split <;> rfl
@[simp] theorem writeReg_hoop (t : Strand) (r : Reg) (v : Word) : (writeReg t r v).hoop = t.hoop := by unfold writeReg; split <;> rfl
@[simp] theorem writeReg_slot (t : Strand) (r : Reg) (v : Word) : (writeReg t r v).slot = t.slot := by unfold writeReg; split <;> rfl
@[simp] theorem writeReg_level (t : Strand) (r : Reg) (v : Word) : (writeReg t r v).level = t.level := by unfold writeReg; split <;> rfl
@[simp] theorem writeReg_state (t : Strand) (r : Reg) (v : Word) : (writeReg t r v).state = t.state := by unfold writeReg; split <;> rfl
@[simp] theorem writeReg_resumeTo (t : Strand) (r : Reg) (v : Word) : (writeReg t r v).resumeTo = t.resumeTo := by unfold writeReg; split <;> rfl
@[simp] theorem writeReg_haltReason (t : Strand) (r : Reg) (v : Word) : (writeReg t r v).haltReason = t.haltReason := by unfold writeReg; split <;> rfl
@[simp] theorem writeReg_wait (t : Strand) (r : Reg) (v : Word) : (writeReg t r v).wait = t.wait := by unfold writeReg; split <;> rfl
@[simp] theorem writeReg_pc (t : Strand) (r : Reg) (v : Word) : (writeReg t r v).pc = t.pc := by unfold writeReg; split <;> rfl
@[simp] theorem writeReg_empty (t : Strand) (r : Reg) (v : Word) : (writeReg t r v).empty = t.empty := by unfold writeReg; split <;> rfl
@[simp] theorem writeReg_loops (t : Strand) (r : Reg) (v : Word) : (writeReg t r v).loops = t.loops := by unfold writeReg; split <;> rfl
@[simp] theorem writeReg_csr (t : Strand) (r : Reg) (v : Word) : (writeReg t r v).csr = t.csr := by unfold writeReg; split <;> rfl
@[simp] theorem writeReg_vl (t : Strand) (r : Reg) (v : Word) : (writeReg t r v).vl = t.vl := by unfold writeReg; split <;> rfl
@[simp] theorem writeReg_vtype (t : Strand) (r : Reg) (v : Word) : (writeReg t r v).vtype = t.vtype := by unfold writeReg; split <;> rfl
@[simp] theorem writeReg_mtype (t : Strand) (r : Reg) (v : Word) : (writeReg t r v).mtype = t.mtype := by unfold writeReg; split <;> rfl
@[simp] theorem writeReg_zeroed (t : Strand) (r : Reg) (v : Word) : (writeReg t r v).zeroed = t.zeroed := by unfold writeReg; split <;> rfl
@[simp] theorem writeReg_v (t : Strand) (r : Reg) (v : Word) : (writeReg t r v).v = t.v := by unfold writeReg; split <;> rfl
@[simp] theorem writeReg_vpoison (t : Strand) (r : Reg) (v : Word) : (writeReg t r v).vpoison = t.vpoison := by unfold writeReg; split <;> rfl
@[simp] theorem writeReg_tags (t : Strand) (r : Reg) (v : Word) : (writeReg t r v).tags = t.tags := by unfold writeReg; split <;> rfl
@[simp] theorem writeReg_q (t : Strand) (r : Reg) (v : Word) : (writeReg t r v).q = t.q := by unfold writeReg; split <;> rfl
@[simp] theorem writeReg_tiles (t : Strand) (r : Reg) (v : Word) : (writeReg t r v).tiles = t.tiles := by unfold writeReg; split <;> rfl
@[simp] theorem writeReg_arrays (t : Strand) (r : Reg) (v : Word) : (writeReg t r v).arrays = t.arrays := by unfold writeReg; split <;> rfl
@[simp] theorem writeReg_followers (t : Strand) (r : Reg) (v : Word) : (writeReg t r v).followers = t.followers := by unfold writeReg; split <;> rfl
@[simp] theorem writeReg_pendingGrant (t : Strand) (r : Reg) (v : Word) : (writeReg t r v).pendingGrant = t.pendingGrant := by unfold writeReg; split <;> rfl
@[simp] theorem writeReg_tokens (t : Strand) (r : Reg) (v : Word) : (writeReg t r v).tokens = t.tokens := by unfold writeReg; split <;> rfl
@[simp] theorem writeReg_vq (t : Strand) (r : Reg) (v : Word) : (writeReg t r v).vq = t.vq := by unfold writeReg; split <;> rfl
@[simp] theorem writeReg_mq (t : Strand) (r : Reg) (v : Word) : (writeReg t r v).mq = t.mq := by unfold writeReg; split <;> rfl
@[simp] theorem writeReg_cq (t : Strand) (r : Reg) (v : Word) : (writeReg t r v).cq = t.cq := by unfold writeReg; split <;> rfl
@[simp] theorem writeReg_nq (t : Strand) (r : Reg) (v : Word) : (writeReg t r v).nq = t.nq := by unfold writeReg; split <;> rfl
@[simp] theorem writeReg_dumpedV (t : Strand) (r : Reg) (v : Word) : (writeReg t r v).dumpedV = t.dumpedV := by unfold writeReg; split <;> rfl
@[simp] theorem writeReg_dumpedE (t : Strand) (r : Reg) (v : Word) : (writeReg t r v).dumpedE = t.dumpedE := by unfold writeReg; split <;> rfl
@[simp] theorem writeReg_lateLists (t : Strand) (r : Reg) (v : Word) : (writeReg t r v).lateLists = t.lateLists := by unfold writeReg; split <;> rfl
@[simp] theorem writeReg_nextSeq (t : Strand) (r : Reg) (v : Word) : (writeReg t r v).nextSeq = t.nextSeq := by unfold writeReg; split <;> rfl
@[simp] theorem writeReg_pending (t : Strand) (r : Reg) (v : Word) : (writeReg t r v).pending = t.pending := by unfold writeReg; split <;> rfl
@[simp] theorem writeReg_fePend (t : Strand) (r : Reg) (v : Word) : (writeReg t r v).fePend = t.fePend := by unfold writeReg; split <;> rfl
@[simp] theorem writeReg_asked (t : Strand) (r : Reg) (v : Word) : (writeReg t r v).asked = t.asked := by unfold writeReg; split <;> rfl
@[simp] theorem writeReg_haltWait (t : Strand) (r : Reg) (v : Word) : (writeReg t r v).haltWait = t.haltWait := by unfold writeReg; split <;> rfl
@[simp] theorem writeReg_resv (t : Strand) (r : Reg) (v : Word) : (writeReg t r v).resv = t.resv := by unfold writeReg; split <;> rfl
@[simp] theorem writeReg_links (t : Strand) (r : Reg) (v : Word) : (writeReg t r v).links = t.links := by unfold writeReg; split <;> rfl
@[simp] theorem writeReg_recvq (t : Strand) (r : Reg) (v : Word) : (writeReg t r v).recvq = t.recvq := by unfold writeReg; split <;> rfl
@[simp] theorem writeReg_barPending (t : Strand) (r : Reg) (v : Word) : (writeReg t r v).barPending = t.barPending := by unfold writeReg; split <;> rfl
@[simp] theorem writeReg_barArrived (t : Strand) (r : Reg) (v : Word) : (writeReg t r v).barArrived = t.barArrived := by unfold writeReg; split <;> rfl
@[simp] theorem writeReg_waits (t : Strand) (r : Reg) (v : Word) : (writeReg t r v).waits = t.waits := by unfold writeReg; split <;> rfl
@[simp] theorem writeReg_startAc (t : Strand) (r : Reg) (v : Word) : (writeReg t r v).startAc = t.startAc := by unfold writeReg; split <;> rfl
@[simp] theorem writeReg_instret (t : Strand) (r : Reg) (v : Word) : (writeReg t r v).instret = t.instret := by unfold writeReg; split <;> rfl
@[simp] theorem writeReg_slip (t : Strand) (r : Reg) (v : Word) : (writeReg t r v).slip = t.slip := by unfold writeReg; split <;> rfl
@[simp] theorem writeReg_subs (t : Strand) (r : Reg) (v : Word) : (writeReg t r v).subs = t.subs := by unfold writeReg; split <;> rfl
@[simp] theorem writeReg_cancelled (t : Strand) (r : Reg) (v : Word) : (writeReg t r v).cancelled = t.cancelled := by unfold writeReg; split <;> rfl
@[simp] theorem writeReg_preempt (t : Strand) (r : Reg) (v : Word) : (writeReg t r v).preempt = t.preempt := by unfold writeReg; split <;> rfl
@[simp] theorem writeReg_graceOut (t : Strand) (r : Reg) (v : Word) : (writeReg t r v).graceOut = t.graceOut := by unfold writeReg; split <;> rfl
@[simp] theorem writeReg_atLoopPoint (t : Strand) (r : Reg) (v : Word) : (writeReg t r v).atLoopPoint = t.atLoopPoint := by unfold writeReg; split <;> rfl
@[simp] theorem writeReg_skipBreak (t : Strand) (r : Reg) (v : Word) : (writeReg t r v).skipBreak = t.skipBreak := by unfold writeReg; split <;> rfl
@[simp] theorem writeReg_idling (t : Strand) (r : Reg) (v : Word) : (writeReg t r v).idling = t.idling := by unfold writeReg; split <;> rfl
@[simp] theorem writeReg_woken (t : Strand) (r : Reg) (v : Word) : (writeReg t r v).woken = t.woken := by unfold writeReg; split <;> rfl
@[simp] theorem writeReg_dbgStep (t : Strand) (r : Reg) (v : Word) : (writeReg t r v).dbgStep = t.dbgStep := by unfold writeReg; split <;> rfl
@[simp] theorem writeReg_dbgElem (t : Strand) (r : Reg) (v : Word) : (writeReg t r v).dbgElem = t.dbgElem := by unfold writeReg; split <;> rfl
@[simp] theorem writeReg_dbgTrap (t : Strand) (r : Reg) (v : Word) : (writeReg t r v).dbgTrap = t.dbgTrap := by unfold writeReg; split <;> rfl
@[simp] theorem writeReg_dbgArmed (t : Strand) (r : Reg) (v : Word) : (writeReg t r v).dbgArmed = t.dbgArmed := by unfold writeReg; split <;> rfl
@[simp] theorem writeReg_editImage (t : Strand) (r : Reg) (v : Word) : (writeReg t r v).editImage = t.editImage := by unfold writeReg; split <;> rfl
@[simp] theorem writeReg_saveArea (t : Strand) (r : Reg) (v : Word) : (writeReg t r v).saveArea = t.saveArea := by unfold writeReg; split <;> rfl
@[simp] theorem writeReg_saveNamed (t : Strand) (r : Reg) (v : Word) : (writeReg t r v).saveNamed = t.saveNamed := by unfold writeReg; split <;> rfl
@[simp] theorem writeReg_saveSec (t : Strand) (r : Reg) (v : Word) : (writeReg t r v).saveSec = t.saveSec := by unfold writeReg; split <;> rfl
@[simp] theorem writeReg_saveOff (t : Strand) (r : Reg) (v : Word) : (writeReg t r v).saveOff = t.saveOff := by unfold writeReg; split <;> rfl
@[simp] theorem writeReg_saveStop (t : Strand) (r : Reg) (v : Word) : (writeReg t r v).saveStop = t.saveStop := by unfold writeReg; split <;> rfl
@[simp] theorem writeReg_savedEngines (t : Strand) (r : Reg) (v : Word) : (writeReg t r v).savedEngines = t.savedEngines := by unfold writeReg; split <;> rfl
@[simp] theorem writeReg_haltDue (t : Strand) (r : Reg) (v : Word) : (writeReg t r v).haltDue = t.haltDue := by unfold writeReg; split <;> rfl
@[simp] theorem writeReg_due (t : Strand) (r : Reg) (v : Word) : (writeReg t r v).due = t.due := by unfold writeReg; split <;> rfl
@[simp] theorem writeReg_graceAc (t : Strand) (r : Reg) (v : Word) : (writeReg t r v).graceAc = t.graceAc := by unfold writeReg; split <;> rfl
@[simp] theorem writeReg_sliceAc (t : Strand) (r : Reg) (v : Word) : (writeReg t r v).sliceAc = t.sliceAc := by unfold writeReg; split <;> rfl
@[simp] theorem writeReg_node (t : Strand) (r : Reg) (v : Word) : (writeReg t r v).node = t.node := by unfold writeReg; split <;> rfl
@[simp] theorem setEmpty_id (t : Strand) (r : Reg) : (setEmpty t r).id = t.id := by unfold setEmpty; split <;> rfl
@[simp] theorem setEmpty_count (t : Strand) (r : Reg) : (setEmpty t r).count = t.count := by unfold setEmpty; split <;> rfl
@[simp] theorem setEmpty_asid (t : Strand) (r : Reg) : (setEmpty t r).asid = t.asid := by unfold setEmpty; split <;> rfl
@[simp] theorem setEmpty_hoop (t : Strand) (r : Reg) : (setEmpty t r).hoop = t.hoop := by unfold setEmpty; split <;> rfl
@[simp] theorem setEmpty_slot (t : Strand) (r : Reg) : (setEmpty t r).slot = t.slot := by unfold setEmpty; split <;> rfl
@[simp] theorem setEmpty_level (t : Strand) (r : Reg) : (setEmpty t r).level = t.level := by unfold setEmpty; split <;> rfl
@[simp] theorem setEmpty_state (t : Strand) (r : Reg) : (setEmpty t r).state = t.state := by unfold setEmpty; split <;> rfl
@[simp] theorem setEmpty_resumeTo (t : Strand) (r : Reg) : (setEmpty t r).resumeTo = t.resumeTo := by unfold setEmpty; split <;> rfl
@[simp] theorem setEmpty_haltReason (t : Strand) (r : Reg) : (setEmpty t r).haltReason = t.haltReason := by unfold setEmpty; split <;> rfl
@[simp] theorem setEmpty_wait (t : Strand) (r : Reg) : (setEmpty t r).wait = t.wait := by unfold setEmpty; split <;> rfl
@[simp] theorem setEmpty_pc (t : Strand) (r : Reg) : (setEmpty t r).pc = t.pc := by unfold setEmpty; split <;> rfl
@[simp] theorem setEmpty_x (t : Strand) (r : Reg) : (setEmpty t r).x = t.x := by unfold setEmpty; split <;> rfl
@[simp] theorem setEmpty_loops (t : Strand) (r : Reg) : (setEmpty t r).loops = t.loops := by unfold setEmpty; split <;> rfl
@[simp] theorem setEmpty_csr (t : Strand) (r : Reg) : (setEmpty t r).csr = t.csr := by unfold setEmpty; split <;> rfl
@[simp] theorem setEmpty_vl (t : Strand) (r : Reg) : (setEmpty t r).vl = t.vl := by unfold setEmpty; split <;> rfl
@[simp] theorem setEmpty_vtype (t : Strand) (r : Reg) : (setEmpty t r).vtype = t.vtype := by unfold setEmpty; split <;> rfl
@[simp] theorem setEmpty_mtype (t : Strand) (r : Reg) : (setEmpty t r).mtype = t.mtype := by unfold setEmpty; split <;> rfl
@[simp] theorem setEmpty_zeroed (t : Strand) (r : Reg) : (setEmpty t r).zeroed = t.zeroed := by unfold setEmpty; split <;> rfl
@[simp] theorem setEmpty_v (t : Strand) (r : Reg) : (setEmpty t r).v = t.v := by unfold setEmpty; split <;> rfl
@[simp] theorem setEmpty_vpoison (t : Strand) (r : Reg) : (setEmpty t r).vpoison = t.vpoison := by unfold setEmpty; split <;> rfl
@[simp] theorem setEmpty_tags (t : Strand) (r : Reg) : (setEmpty t r).tags = t.tags := by unfold setEmpty; split <;> rfl
@[simp] theorem setEmpty_q (t : Strand) (r : Reg) : (setEmpty t r).q = t.q := by unfold setEmpty; split <;> rfl
@[simp] theorem setEmpty_tiles (t : Strand) (r : Reg) : (setEmpty t r).tiles = t.tiles := by unfold setEmpty; split <;> rfl
@[simp] theorem setEmpty_arrays (t : Strand) (r : Reg) : (setEmpty t r).arrays = t.arrays := by unfold setEmpty; split <;> rfl
@[simp] theorem setEmpty_followers (t : Strand) (r : Reg) : (setEmpty t r).followers = t.followers := by unfold setEmpty; split <;> rfl
@[simp] theorem setEmpty_pendingGrant (t : Strand) (r : Reg) : (setEmpty t r).pendingGrant = t.pendingGrant := by unfold setEmpty; split <;> rfl
@[simp] theorem setEmpty_tokens (t : Strand) (r : Reg) : (setEmpty t r).tokens = t.tokens := by unfold setEmpty; split <;> rfl
@[simp] theorem setEmpty_vq (t : Strand) (r : Reg) : (setEmpty t r).vq = t.vq := by unfold setEmpty; split <;> rfl
@[simp] theorem setEmpty_mq (t : Strand) (r : Reg) : (setEmpty t r).mq = t.mq := by unfold setEmpty; split <;> rfl
@[simp] theorem setEmpty_cq (t : Strand) (r : Reg) : (setEmpty t r).cq = t.cq := by unfold setEmpty; split <;> rfl
@[simp] theorem setEmpty_nq (t : Strand) (r : Reg) : (setEmpty t r).nq = t.nq := by unfold setEmpty; split <;> rfl
@[simp] theorem setEmpty_dumpedV (t : Strand) (r : Reg) : (setEmpty t r).dumpedV = t.dumpedV := by unfold setEmpty; split <;> rfl
@[simp] theorem setEmpty_dumpedE (t : Strand) (r : Reg) : (setEmpty t r).dumpedE = t.dumpedE := by unfold setEmpty; split <;> rfl
@[simp] theorem setEmpty_lateLists (t : Strand) (r : Reg) : (setEmpty t r).lateLists = t.lateLists := by unfold setEmpty; split <;> rfl
@[simp] theorem setEmpty_nextSeq (t : Strand) (r : Reg) : (setEmpty t r).nextSeq = t.nextSeq := by unfold setEmpty; split <;> rfl
@[simp] theorem setEmpty_pending (t : Strand) (r : Reg) : (setEmpty t r).pending = t.pending := by unfold setEmpty; split <;> rfl
@[simp] theorem setEmpty_fePend (t : Strand) (r : Reg) : (setEmpty t r).fePend = t.fePend := by unfold setEmpty; split <;> rfl
@[simp] theorem setEmpty_asked (t : Strand) (r : Reg) : (setEmpty t r).asked = t.asked := by unfold setEmpty; split <;> rfl
@[simp] theorem setEmpty_haltWait (t : Strand) (r : Reg) : (setEmpty t r).haltWait = t.haltWait := by unfold setEmpty; split <;> rfl
@[simp] theorem setEmpty_resv (t : Strand) (r : Reg) : (setEmpty t r).resv = t.resv := by unfold setEmpty; split <;> rfl
@[simp] theorem setEmpty_links (t : Strand) (r : Reg) : (setEmpty t r).links = t.links := by unfold setEmpty; split <;> rfl
@[simp] theorem setEmpty_recvq (t : Strand) (r : Reg) : (setEmpty t r).recvq = t.recvq := by unfold setEmpty; split <;> rfl
@[simp] theorem setEmpty_barPending (t : Strand) (r : Reg) : (setEmpty t r).barPending = t.barPending := by unfold setEmpty; split <;> rfl
@[simp] theorem setEmpty_barArrived (t : Strand) (r : Reg) : (setEmpty t r).barArrived = t.barArrived := by unfold setEmpty; split <;> rfl
@[simp] theorem setEmpty_waits (t : Strand) (r : Reg) : (setEmpty t r).waits = t.waits := by unfold setEmpty; split <;> rfl
@[simp] theorem setEmpty_startAc (t : Strand) (r : Reg) : (setEmpty t r).startAc = t.startAc := by unfold setEmpty; split <;> rfl
@[simp] theorem setEmpty_instret (t : Strand) (r : Reg) : (setEmpty t r).instret = t.instret := by unfold setEmpty; split <;> rfl
@[simp] theorem setEmpty_slip (t : Strand) (r : Reg) : (setEmpty t r).slip = t.slip := by unfold setEmpty; split <;> rfl
@[simp] theorem setEmpty_subs (t : Strand) (r : Reg) : (setEmpty t r).subs = t.subs := by unfold setEmpty; split <;> rfl
@[simp] theorem setEmpty_cancelled (t : Strand) (r : Reg) : (setEmpty t r).cancelled = t.cancelled := by unfold setEmpty; split <;> rfl
@[simp] theorem setEmpty_preempt (t : Strand) (r : Reg) : (setEmpty t r).preempt = t.preempt := by unfold setEmpty; split <;> rfl
@[simp] theorem setEmpty_graceOut (t : Strand) (r : Reg) : (setEmpty t r).graceOut = t.graceOut := by unfold setEmpty; split <;> rfl
@[simp] theorem setEmpty_atLoopPoint (t : Strand) (r : Reg) : (setEmpty t r).atLoopPoint = t.atLoopPoint := by unfold setEmpty; split <;> rfl
@[simp] theorem setEmpty_skipBreak (t : Strand) (r : Reg) : (setEmpty t r).skipBreak = t.skipBreak := by unfold setEmpty; split <;> rfl
@[simp] theorem setEmpty_idling (t : Strand) (r : Reg) : (setEmpty t r).idling = t.idling := by unfold setEmpty; split <;> rfl
@[simp] theorem setEmpty_woken (t : Strand) (r : Reg) : (setEmpty t r).woken = t.woken := by unfold setEmpty; split <;> rfl
@[simp] theorem setEmpty_dbgStep (t : Strand) (r : Reg) : (setEmpty t r).dbgStep = t.dbgStep := by unfold setEmpty; split <;> rfl
@[simp] theorem setEmpty_dbgElem (t : Strand) (r : Reg) : (setEmpty t r).dbgElem = t.dbgElem := by unfold setEmpty; split <;> rfl
@[simp] theorem setEmpty_dbgTrap (t : Strand) (r : Reg) : (setEmpty t r).dbgTrap = t.dbgTrap := by unfold setEmpty; split <;> rfl
@[simp] theorem setEmpty_dbgArmed (t : Strand) (r : Reg) : (setEmpty t r).dbgArmed = t.dbgArmed := by unfold setEmpty; split <;> rfl
@[simp] theorem setEmpty_editImage (t : Strand) (r : Reg) : (setEmpty t r).editImage = t.editImage := by unfold setEmpty; split <;> rfl
@[simp] theorem setEmpty_saveArea (t : Strand) (r : Reg) : (setEmpty t r).saveArea = t.saveArea := by unfold setEmpty; split <;> rfl
@[simp] theorem setEmpty_saveNamed (t : Strand) (r : Reg) : (setEmpty t r).saveNamed = t.saveNamed := by unfold setEmpty; split <;> rfl
@[simp] theorem setEmpty_saveSec (t : Strand) (r : Reg) : (setEmpty t r).saveSec = t.saveSec := by unfold setEmpty; split <;> rfl
@[simp] theorem setEmpty_saveOff (t : Strand) (r : Reg) : (setEmpty t r).saveOff = t.saveOff := by unfold setEmpty; split <;> rfl
@[simp] theorem setEmpty_saveStop (t : Strand) (r : Reg) : (setEmpty t r).saveStop = t.saveStop := by unfold setEmpty; split <;> rfl
@[simp] theorem setEmpty_savedEngines (t : Strand) (r : Reg) : (setEmpty t r).savedEngines = t.savedEngines := by unfold setEmpty; split <;> rfl
@[simp] theorem setEmpty_haltDue (t : Strand) (r : Reg) : (setEmpty t r).haltDue = t.haltDue := by unfold setEmpty; split <;> rfl
@[simp] theorem setEmpty_due (t : Strand) (r : Reg) : (setEmpty t r).due = t.due := by unfold setEmpty; split <;> rfl
@[simp] theorem setEmpty_graceAc (t : Strand) (r : Reg) : (setEmpty t r).graceAc = t.graceAc := by unfold setEmpty; split <;> rfl
@[simp] theorem setEmpty_sliceAc (t : Strand) (r : Reg) : (setEmpty t r).sliceAc = t.sliceAc := by unfold setEmpty; split <;> rfl
@[simp] theorem setEmpty_node (t : Strand) (r : Reg) : (setEmpty t r).node = t.node := by unfold setEmpty; split <;> rfl
@[simp] theorem setFull_id (t : Strand) (r : Reg) : (setFull t r).id = t.id := rfl
@[simp] theorem setFull_count (t : Strand) (r : Reg) : (setFull t r).count = t.count := rfl
@[simp] theorem setFull_asid (t : Strand) (r : Reg) : (setFull t r).asid = t.asid := rfl
@[simp] theorem setFull_hoop (t : Strand) (r : Reg) : (setFull t r).hoop = t.hoop := rfl
@[simp] theorem setFull_slot (t : Strand) (r : Reg) : (setFull t r).slot = t.slot := rfl
@[simp] theorem setFull_level (t : Strand) (r : Reg) : (setFull t r).level = t.level := rfl
@[simp] theorem setFull_state (t : Strand) (r : Reg) : (setFull t r).state = t.state := rfl
@[simp] theorem setFull_resumeTo (t : Strand) (r : Reg) : (setFull t r).resumeTo = t.resumeTo := rfl
@[simp] theorem setFull_haltReason (t : Strand) (r : Reg) : (setFull t r).haltReason = t.haltReason := rfl
@[simp] theorem setFull_wait (t : Strand) (r : Reg) : (setFull t r).wait = t.wait := rfl
@[simp] theorem setFull_pc (t : Strand) (r : Reg) : (setFull t r).pc = t.pc := rfl
@[simp] theorem setFull_x (t : Strand) (r : Reg) : (setFull t r).x = t.x := rfl
@[simp] theorem setFull_loops (t : Strand) (r : Reg) : (setFull t r).loops = t.loops := rfl
@[simp] theorem setFull_csr (t : Strand) (r : Reg) : (setFull t r).csr = t.csr := rfl
@[simp] theorem setFull_vl (t : Strand) (r : Reg) : (setFull t r).vl = t.vl := rfl
@[simp] theorem setFull_vtype (t : Strand) (r : Reg) : (setFull t r).vtype = t.vtype := rfl
@[simp] theorem setFull_mtype (t : Strand) (r : Reg) : (setFull t r).mtype = t.mtype := rfl
@[simp] theorem setFull_zeroed (t : Strand) (r : Reg) : (setFull t r).zeroed = t.zeroed := rfl
@[simp] theorem setFull_v (t : Strand) (r : Reg) : (setFull t r).v = t.v := rfl
@[simp] theorem setFull_vpoison (t : Strand) (r : Reg) : (setFull t r).vpoison = t.vpoison := rfl
@[simp] theorem setFull_tags (t : Strand) (r : Reg) : (setFull t r).tags = t.tags := rfl
@[simp] theorem setFull_q (t : Strand) (r : Reg) : (setFull t r).q = t.q := rfl
@[simp] theorem setFull_tiles (t : Strand) (r : Reg) : (setFull t r).tiles = t.tiles := rfl
@[simp] theorem setFull_arrays (t : Strand) (r : Reg) : (setFull t r).arrays = t.arrays := rfl
@[simp] theorem setFull_followers (t : Strand) (r : Reg) : (setFull t r).followers = t.followers := rfl
@[simp] theorem setFull_pendingGrant (t : Strand) (r : Reg) : (setFull t r).pendingGrant = t.pendingGrant := rfl
@[simp] theorem setFull_tokens (t : Strand) (r : Reg) : (setFull t r).tokens = t.tokens := rfl
@[simp] theorem setFull_vq (t : Strand) (r : Reg) : (setFull t r).vq = t.vq := rfl
@[simp] theorem setFull_mq (t : Strand) (r : Reg) : (setFull t r).mq = t.mq := rfl
@[simp] theorem setFull_cq (t : Strand) (r : Reg) : (setFull t r).cq = t.cq := rfl
@[simp] theorem setFull_nq (t : Strand) (r : Reg) : (setFull t r).nq = t.nq := rfl
@[simp] theorem setFull_dumpedV (t : Strand) (r : Reg) : (setFull t r).dumpedV = t.dumpedV := rfl
@[simp] theorem setFull_dumpedE (t : Strand) (r : Reg) : (setFull t r).dumpedE = t.dumpedE := rfl
@[simp] theorem setFull_lateLists (t : Strand) (r : Reg) : (setFull t r).lateLists = t.lateLists := rfl
@[simp] theorem setFull_nextSeq (t : Strand) (r : Reg) : (setFull t r).nextSeq = t.nextSeq := rfl
@[simp] theorem setFull_pending (t : Strand) (r : Reg) : (setFull t r).pending = t.pending := rfl
@[simp] theorem setFull_fePend (t : Strand) (r : Reg) : (setFull t r).fePend = t.fePend := rfl
@[simp] theorem setFull_asked (t : Strand) (r : Reg) : (setFull t r).asked = t.asked := rfl
@[simp] theorem setFull_haltWait (t : Strand) (r : Reg) : (setFull t r).haltWait = t.haltWait := rfl
@[simp] theorem setFull_resv (t : Strand) (r : Reg) : (setFull t r).resv = t.resv := rfl
@[simp] theorem setFull_links (t : Strand) (r : Reg) : (setFull t r).links = t.links := rfl
@[simp] theorem setFull_recvq (t : Strand) (r : Reg) : (setFull t r).recvq = t.recvq := rfl
@[simp] theorem setFull_barPending (t : Strand) (r : Reg) : (setFull t r).barPending = t.barPending := rfl
@[simp] theorem setFull_barArrived (t : Strand) (r : Reg) : (setFull t r).barArrived = t.barArrived := rfl
@[simp] theorem setFull_waits (t : Strand) (r : Reg) : (setFull t r).waits = t.waits := rfl
@[simp] theorem setFull_startAc (t : Strand) (r : Reg) : (setFull t r).startAc = t.startAc := rfl
@[simp] theorem setFull_instret (t : Strand) (r : Reg) : (setFull t r).instret = t.instret := rfl
@[simp] theorem setFull_slip (t : Strand) (r : Reg) : (setFull t r).slip = t.slip := rfl
@[simp] theorem setFull_subs (t : Strand) (r : Reg) : (setFull t r).subs = t.subs := rfl
@[simp] theorem setFull_cancelled (t : Strand) (r : Reg) : (setFull t r).cancelled = t.cancelled := rfl
@[simp] theorem setFull_preempt (t : Strand) (r : Reg) : (setFull t r).preempt = t.preempt := rfl
@[simp] theorem setFull_graceOut (t : Strand) (r : Reg) : (setFull t r).graceOut = t.graceOut := rfl
@[simp] theorem setFull_atLoopPoint (t : Strand) (r : Reg) : (setFull t r).atLoopPoint = t.atLoopPoint := rfl
@[simp] theorem setFull_skipBreak (t : Strand) (r : Reg) : (setFull t r).skipBreak = t.skipBreak := rfl
@[simp] theorem setFull_idling (t : Strand) (r : Reg) : (setFull t r).idling = t.idling := rfl
@[simp] theorem setFull_woken (t : Strand) (r : Reg) : (setFull t r).woken = t.woken := rfl
@[simp] theorem setFull_dbgStep (t : Strand) (r : Reg) : (setFull t r).dbgStep = t.dbgStep := rfl
@[simp] theorem setFull_dbgElem (t : Strand) (r : Reg) : (setFull t r).dbgElem = t.dbgElem := rfl
@[simp] theorem setFull_dbgTrap (t : Strand) (r : Reg) : (setFull t r).dbgTrap = t.dbgTrap := rfl
@[simp] theorem setFull_dbgArmed (t : Strand) (r : Reg) : (setFull t r).dbgArmed = t.dbgArmed := rfl
@[simp] theorem setFull_editImage (t : Strand) (r : Reg) : (setFull t r).editImage = t.editImage := rfl
@[simp] theorem setFull_saveArea (t : Strand) (r : Reg) : (setFull t r).saveArea = t.saveArea := rfl
@[simp] theorem setFull_saveNamed (t : Strand) (r : Reg) : (setFull t r).saveNamed = t.saveNamed := rfl
@[simp] theorem setFull_saveSec (t : Strand) (r : Reg) : (setFull t r).saveSec = t.saveSec := rfl
@[simp] theorem setFull_saveOff (t : Strand) (r : Reg) : (setFull t r).saveOff = t.saveOff := rfl
@[simp] theorem setFull_saveStop (t : Strand) (r : Reg) : (setFull t r).saveStop = t.saveStop := rfl
@[simp] theorem setFull_savedEngines (t : Strand) (r : Reg) : (setFull t r).savedEngines = t.savedEngines := rfl
@[simp] theorem setFull_haltDue (t : Strand) (r : Reg) : (setFull t r).haltDue = t.haltDue := rfl
@[simp] theorem setFull_due (t : Strand) (r : Reg) : (setFull t r).due = t.due := rfl
@[simp] theorem setFull_graceAc (t : Strand) (r : Reg) : (setFull t r).graceAc = t.graceAc := rfl
@[simp] theorem setFull_sliceAc (t : Strand) (r : Reg) : (setFull t r).sliceAc = t.sliceAc := rfl
@[simp] theorem setFull_node (t : Strand) (r : Reg) : (setFull t r).node = t.node := rfl
@[simp] theorem setTokens_id (t : Strand) (a b : Queue) (v : BitVec 4) : (setTokens t a b v).id = t.id := rfl
@[simp] theorem setTokens_count (t : Strand) (a b : Queue) (v : BitVec 4) : (setTokens t a b v).count = t.count := rfl
@[simp] theorem setTokens_asid (t : Strand) (a b : Queue) (v : BitVec 4) : (setTokens t a b v).asid = t.asid := rfl
@[simp] theorem setTokens_hoop (t : Strand) (a b : Queue) (v : BitVec 4) : (setTokens t a b v).hoop = t.hoop := rfl
@[simp] theorem setTokens_slot (t : Strand) (a b : Queue) (v : BitVec 4) : (setTokens t a b v).slot = t.slot := rfl
@[simp] theorem setTokens_level (t : Strand) (a b : Queue) (v : BitVec 4) : (setTokens t a b v).level = t.level := rfl
@[simp] theorem setTokens_state (t : Strand) (a b : Queue) (v : BitVec 4) : (setTokens t a b v).state = t.state := rfl
@[simp] theorem setTokens_resumeTo (t : Strand) (a b : Queue) (v : BitVec 4) : (setTokens t a b v).resumeTo = t.resumeTo := rfl
@[simp] theorem setTokens_haltReason (t : Strand) (a b : Queue) (v : BitVec 4) : (setTokens t a b v).haltReason = t.haltReason := rfl
@[simp] theorem setTokens_wait (t : Strand) (a b : Queue) (v : BitVec 4) : (setTokens t a b v).wait = t.wait := rfl
@[simp] theorem setTokens_pc (t : Strand) (a b : Queue) (v : BitVec 4) : (setTokens t a b v).pc = t.pc := rfl
@[simp] theorem setTokens_x (t : Strand) (a b : Queue) (v : BitVec 4) : (setTokens t a b v).x = t.x := rfl
@[simp] theorem setTokens_empty (t : Strand) (a b : Queue) (v : BitVec 4) : (setTokens t a b v).empty = t.empty := rfl
@[simp] theorem setTokens_loops (t : Strand) (a b : Queue) (v : BitVec 4) : (setTokens t a b v).loops = t.loops := rfl
@[simp] theorem setTokens_csr (t : Strand) (a b : Queue) (v : BitVec 4) : (setTokens t a b v).csr = t.csr := rfl
@[simp] theorem setTokens_vl (t : Strand) (a b : Queue) (v : BitVec 4) : (setTokens t a b v).vl = t.vl := rfl
@[simp] theorem setTokens_vtype (t : Strand) (a b : Queue) (v : BitVec 4) : (setTokens t a b v).vtype = t.vtype := rfl
@[simp] theorem setTokens_mtype (t : Strand) (a b : Queue) (v : BitVec 4) : (setTokens t a b v).mtype = t.mtype := rfl
@[simp] theorem setTokens_zeroed (t : Strand) (a b : Queue) (v : BitVec 4) : (setTokens t a b v).zeroed = t.zeroed := rfl
@[simp] theorem setTokens_v (t : Strand) (a b : Queue) (v : BitVec 4) : (setTokens t a b v).v = t.v := rfl
@[simp] theorem setTokens_vpoison (t : Strand) (a b : Queue) (v : BitVec 4) : (setTokens t a b v).vpoison = t.vpoison := rfl
@[simp] theorem setTokens_tags (t : Strand) (a b : Queue) (v : BitVec 4) : (setTokens t a b v).tags = t.tags := rfl
@[simp] theorem setTokens_q (t : Strand) (a b : Queue) (v : BitVec 4) : (setTokens t a b v).q = t.q := rfl
@[simp] theorem setTokens_tiles (t : Strand) (a b : Queue) (v : BitVec 4) : (setTokens t a b v).tiles = t.tiles := rfl
@[simp] theorem setTokens_arrays (t : Strand) (a b : Queue) (v : BitVec 4) : (setTokens t a b v).arrays = t.arrays := rfl
@[simp] theorem setTokens_followers (t : Strand) (a b : Queue) (v : BitVec 4) : (setTokens t a b v).followers = t.followers := rfl
@[simp] theorem setTokens_pendingGrant (t : Strand) (a b : Queue) (v : BitVec 4) : (setTokens t a b v).pendingGrant = t.pendingGrant := rfl
@[simp] theorem setTokens_vq (t : Strand) (a b : Queue) (v : BitVec 4) : (setTokens t a b v).vq = t.vq := rfl
@[simp] theorem setTokens_mq (t : Strand) (a b : Queue) (v : BitVec 4) : (setTokens t a b v).mq = t.mq := rfl
@[simp] theorem setTokens_cq (t : Strand) (a b : Queue) (v : BitVec 4) : (setTokens t a b v).cq = t.cq := rfl
@[simp] theorem setTokens_nq (t : Strand) (a b : Queue) (v : BitVec 4) : (setTokens t a b v).nq = t.nq := rfl
@[simp] theorem setTokens_dumpedV (t : Strand) (a b : Queue) (v : BitVec 4) : (setTokens t a b v).dumpedV = t.dumpedV := rfl
@[simp] theorem setTokens_dumpedE (t : Strand) (a b : Queue) (v : BitVec 4) : (setTokens t a b v).dumpedE = t.dumpedE := rfl
@[simp] theorem setTokens_lateLists (t : Strand) (a b : Queue) (v : BitVec 4) : (setTokens t a b v).lateLists = t.lateLists := rfl
@[simp] theorem setTokens_nextSeq (t : Strand) (a b : Queue) (v : BitVec 4) : (setTokens t a b v).nextSeq = t.nextSeq := rfl
@[simp] theorem setTokens_pending (t : Strand) (a b : Queue) (v : BitVec 4) : (setTokens t a b v).pending = t.pending := rfl
@[simp] theorem setTokens_fePend (t : Strand) (a b : Queue) (v : BitVec 4) : (setTokens t a b v).fePend = t.fePend := rfl
@[simp] theorem setTokens_asked (t : Strand) (a b : Queue) (v : BitVec 4) : (setTokens t a b v).asked = t.asked := rfl
@[simp] theorem setTokens_haltWait (t : Strand) (a b : Queue) (v : BitVec 4) : (setTokens t a b v).haltWait = t.haltWait := rfl
@[simp] theorem setTokens_resv (t : Strand) (a b : Queue) (v : BitVec 4) : (setTokens t a b v).resv = t.resv := rfl
@[simp] theorem setTokens_links (t : Strand) (a b : Queue) (v : BitVec 4) : (setTokens t a b v).links = t.links := rfl
@[simp] theorem setTokens_recvq (t : Strand) (a b : Queue) (v : BitVec 4) : (setTokens t a b v).recvq = t.recvq := rfl
@[simp] theorem setTokens_barPending (t : Strand) (a b : Queue) (v : BitVec 4) : (setTokens t a b v).barPending = t.barPending := rfl
@[simp] theorem setTokens_barArrived (t : Strand) (a b : Queue) (v : BitVec 4) : (setTokens t a b v).barArrived = t.barArrived := rfl
@[simp] theorem setTokens_waits (t : Strand) (a b : Queue) (v : BitVec 4) : (setTokens t a b v).waits = t.waits := rfl
@[simp] theorem setTokens_startAc (t : Strand) (a b : Queue) (v : BitVec 4) : (setTokens t a b v).startAc = t.startAc := rfl
@[simp] theorem setTokens_instret (t : Strand) (a b : Queue) (v : BitVec 4) : (setTokens t a b v).instret = t.instret := rfl
@[simp] theorem setTokens_slip (t : Strand) (a b : Queue) (v : BitVec 4) : (setTokens t a b v).slip = t.slip := rfl
@[simp] theorem setTokens_subs (t : Strand) (a b : Queue) (v : BitVec 4) : (setTokens t a b v).subs = t.subs := rfl
@[simp] theorem setTokens_cancelled (t : Strand) (a b : Queue) (v : BitVec 4) : (setTokens t a b v).cancelled = t.cancelled := rfl
@[simp] theorem setTokens_preempt (t : Strand) (a b : Queue) (v : BitVec 4) : (setTokens t a b v).preempt = t.preempt := rfl
@[simp] theorem setTokens_graceOut (t : Strand) (a b : Queue) (v : BitVec 4) : (setTokens t a b v).graceOut = t.graceOut := rfl
@[simp] theorem setTokens_atLoopPoint (t : Strand) (a b : Queue) (v : BitVec 4) : (setTokens t a b v).atLoopPoint = t.atLoopPoint := rfl
@[simp] theorem setTokens_skipBreak (t : Strand) (a b : Queue) (v : BitVec 4) : (setTokens t a b v).skipBreak = t.skipBreak := rfl
@[simp] theorem setTokens_idling (t : Strand) (a b : Queue) (v : BitVec 4) : (setTokens t a b v).idling = t.idling := rfl
@[simp] theorem setTokens_woken (t : Strand) (a b : Queue) (v : BitVec 4) : (setTokens t a b v).woken = t.woken := rfl
@[simp] theorem setTokens_dbgStep (t : Strand) (a b : Queue) (v : BitVec 4) : (setTokens t a b v).dbgStep = t.dbgStep := rfl
@[simp] theorem setTokens_dbgElem (t : Strand) (a b : Queue) (v : BitVec 4) : (setTokens t a b v).dbgElem = t.dbgElem := rfl
@[simp] theorem setTokens_dbgTrap (t : Strand) (a b : Queue) (v : BitVec 4) : (setTokens t a b v).dbgTrap = t.dbgTrap := rfl
@[simp] theorem setTokens_dbgArmed (t : Strand) (a b : Queue) (v : BitVec 4) : (setTokens t a b v).dbgArmed = t.dbgArmed := rfl
@[simp] theorem setTokens_editImage (t : Strand) (a b : Queue) (v : BitVec 4) : (setTokens t a b v).editImage = t.editImage := rfl
@[simp] theorem setTokens_saveArea (t : Strand) (a b : Queue) (v : BitVec 4) : (setTokens t a b v).saveArea = t.saveArea := rfl
@[simp] theorem setTokens_saveNamed (t : Strand) (a b : Queue) (v : BitVec 4) : (setTokens t a b v).saveNamed = t.saveNamed := rfl
@[simp] theorem setTokens_saveSec (t : Strand) (a b : Queue) (v : BitVec 4) : (setTokens t a b v).saveSec = t.saveSec := rfl
@[simp] theorem setTokens_saveOff (t : Strand) (a b : Queue) (v : BitVec 4) : (setTokens t a b v).saveOff = t.saveOff := rfl
@[simp] theorem setTokens_saveStop (t : Strand) (a b : Queue) (v : BitVec 4) : (setTokens t a b v).saveStop = t.saveStop := rfl
@[simp] theorem setTokens_savedEngines (t : Strand) (a b : Queue) (v : BitVec 4) : (setTokens t a b v).savedEngines = t.savedEngines := rfl
@[simp] theorem setTokens_haltDue (t : Strand) (a b : Queue) (v : BitVec 4) : (setTokens t a b v).haltDue = t.haltDue := rfl
@[simp] theorem setTokens_due (t : Strand) (a b : Queue) (v : BitVec 4) : (setTokens t a b v).due = t.due := rfl
@[simp] theorem setTokens_graceAc (t : Strand) (a b : Queue) (v : BitVec 4) : (setTokens t a b v).graceAc = t.graceAc := rfl
@[simp] theorem setTokens_sliceAc (t : Strand) (a b : Queue) (v : BitVec 4) : (setTokens t a b v).sliceAc = t.sliceAc := rfl
@[simp] theorem setTokens_node (t : Strand) (a b : Queue) (v : BitVec 4) : (setTokens t a b v).node = t.node := rfl
@[simp] theorem setCmdQueue_id (t : Strand) (q : Queue) (l : List CEntry) : (setCmdQueue t q l).id = t.id := by cases q <;> rfl
@[simp] theorem setCmdQueue_count (t : Strand) (q : Queue) (l : List CEntry) : (setCmdQueue t q l).count = t.count := by cases q <;> rfl
@[simp] theorem setCmdQueue_asid (t : Strand) (q : Queue) (l : List CEntry) : (setCmdQueue t q l).asid = t.asid := by cases q <;> rfl
@[simp] theorem setCmdQueue_hoop (t : Strand) (q : Queue) (l : List CEntry) : (setCmdQueue t q l).hoop = t.hoop := by cases q <;> rfl
@[simp] theorem setCmdQueue_slot (t : Strand) (q : Queue) (l : List CEntry) : (setCmdQueue t q l).slot = t.slot := by cases q <;> rfl
@[simp] theorem setCmdQueue_level (t : Strand) (q : Queue) (l : List CEntry) : (setCmdQueue t q l).level = t.level := by cases q <;> rfl
@[simp] theorem setCmdQueue_state (t : Strand) (q : Queue) (l : List CEntry) : (setCmdQueue t q l).state = t.state := by cases q <;> rfl
@[simp] theorem setCmdQueue_resumeTo (t : Strand) (q : Queue) (l : List CEntry) : (setCmdQueue t q l).resumeTo = t.resumeTo := by cases q <;> rfl
@[simp] theorem setCmdQueue_haltReason (t : Strand) (q : Queue) (l : List CEntry) : (setCmdQueue t q l).haltReason = t.haltReason := by cases q <;> rfl
@[simp] theorem setCmdQueue_wait (t : Strand) (q : Queue) (l : List CEntry) : (setCmdQueue t q l).wait = t.wait := by cases q <;> rfl
@[simp] theorem setCmdQueue_pc (t : Strand) (q : Queue) (l : List CEntry) : (setCmdQueue t q l).pc = t.pc := by cases q <;> rfl
@[simp] theorem setCmdQueue_x (t : Strand) (q : Queue) (l : List CEntry) : (setCmdQueue t q l).x = t.x := by cases q <;> rfl
@[simp] theorem setCmdQueue_empty (t : Strand) (q : Queue) (l : List CEntry) : (setCmdQueue t q l).empty = t.empty := by cases q <;> rfl
@[simp] theorem setCmdQueue_loops (t : Strand) (q : Queue) (l : List CEntry) : (setCmdQueue t q l).loops = t.loops := by cases q <;> rfl
@[simp] theorem setCmdQueue_csr (t : Strand) (q : Queue) (l : List CEntry) : (setCmdQueue t q l).csr = t.csr := by cases q <;> rfl
@[simp] theorem setCmdQueue_vl (t : Strand) (q : Queue) (l : List CEntry) : (setCmdQueue t q l).vl = t.vl := by cases q <;> rfl
@[simp] theorem setCmdQueue_vtype (t : Strand) (q : Queue) (l : List CEntry) : (setCmdQueue t q l).vtype = t.vtype := by cases q <;> rfl
@[simp] theorem setCmdQueue_mtype (t : Strand) (q : Queue) (l : List CEntry) : (setCmdQueue t q l).mtype = t.mtype := by cases q <;> rfl
@[simp] theorem setCmdQueue_zeroed (t : Strand) (q : Queue) (l : List CEntry) : (setCmdQueue t q l).zeroed = t.zeroed := by cases q <;> rfl
@[simp] theorem setCmdQueue_v (t : Strand) (q : Queue) (l : List CEntry) : (setCmdQueue t q l).v = t.v := by cases q <;> rfl
@[simp] theorem setCmdQueue_vpoison (t : Strand) (q : Queue) (l : List CEntry) : (setCmdQueue t q l).vpoison = t.vpoison := by cases q <;> rfl
@[simp] theorem setCmdQueue_tags (t : Strand) (q : Queue) (l : List CEntry) : (setCmdQueue t q l).tags = t.tags := by cases q <;> rfl
@[simp] theorem setCmdQueue_q (t : Strand) (q : Queue) (l : List CEntry) : (setCmdQueue t q l).q = t.q := by cases q <;> rfl
@[simp] theorem setCmdQueue_tiles (t : Strand) (q : Queue) (l : List CEntry) : (setCmdQueue t q l).tiles = t.tiles := by cases q <;> rfl
@[simp] theorem setCmdQueue_arrays (t : Strand) (q : Queue) (l : List CEntry) : (setCmdQueue t q l).arrays = t.arrays := by cases q <;> rfl
@[simp] theorem setCmdQueue_followers (t : Strand) (q : Queue) (l : List CEntry) : (setCmdQueue t q l).followers = t.followers := by cases q <;> rfl
@[simp] theorem setCmdQueue_pendingGrant (t : Strand) (q : Queue) (l : List CEntry) : (setCmdQueue t q l).pendingGrant = t.pendingGrant := by cases q <;> rfl
@[simp] theorem setCmdQueue_tokens (t : Strand) (q : Queue) (l : List CEntry) : (setCmdQueue t q l).tokens = t.tokens := by cases q <;> rfl
@[simp] theorem setCmdQueue_vq (t : Strand) (q : Queue) (l : List CEntry) : (setCmdQueue t q l).vq = t.vq := by cases q <;> rfl
@[simp] theorem setCmdQueue_dumpedV (t : Strand) (q : Queue) (l : List CEntry) : (setCmdQueue t q l).dumpedV = t.dumpedV := by cases q <;> rfl
@[simp] theorem setCmdQueue_dumpedE (t : Strand) (q : Queue) (l : List CEntry) : (setCmdQueue t q l).dumpedE = t.dumpedE := by cases q <;> rfl
@[simp] theorem setCmdQueue_lateLists (t : Strand) (q : Queue) (l : List CEntry) : (setCmdQueue t q l).lateLists = t.lateLists := by cases q <;> rfl
@[simp] theorem setCmdQueue_nextSeq (t : Strand) (q : Queue) (l : List CEntry) : (setCmdQueue t q l).nextSeq = t.nextSeq := by cases q <;> rfl
@[simp] theorem setCmdQueue_pending (t : Strand) (q : Queue) (l : List CEntry) : (setCmdQueue t q l).pending = t.pending := by cases q <;> rfl
@[simp] theorem setCmdQueue_fePend (t : Strand) (q : Queue) (l : List CEntry) : (setCmdQueue t q l).fePend = t.fePend := by cases q <;> rfl
@[simp] theorem setCmdQueue_asked (t : Strand) (q : Queue) (l : List CEntry) : (setCmdQueue t q l).asked = t.asked := by cases q <;> rfl
@[simp] theorem setCmdQueue_haltWait (t : Strand) (q : Queue) (l : List CEntry) : (setCmdQueue t q l).haltWait = t.haltWait := by cases q <;> rfl
@[simp] theorem setCmdQueue_resv (t : Strand) (q : Queue) (l : List CEntry) : (setCmdQueue t q l).resv = t.resv := by cases q <;> rfl
@[simp] theorem setCmdQueue_links (t : Strand) (q : Queue) (l : List CEntry) : (setCmdQueue t q l).links = t.links := by cases q <;> rfl
@[simp] theorem setCmdQueue_recvq (t : Strand) (q : Queue) (l : List CEntry) : (setCmdQueue t q l).recvq = t.recvq := by cases q <;> rfl
@[simp] theorem setCmdQueue_barPending (t : Strand) (q : Queue) (l : List CEntry) : (setCmdQueue t q l).barPending = t.barPending := by cases q <;> rfl
@[simp] theorem setCmdQueue_barArrived (t : Strand) (q : Queue) (l : List CEntry) : (setCmdQueue t q l).barArrived = t.barArrived := by cases q <;> rfl
@[simp] theorem setCmdQueue_waits (t : Strand) (q : Queue) (l : List CEntry) : (setCmdQueue t q l).waits = t.waits := by cases q <;> rfl
@[simp] theorem setCmdQueue_startAc (t : Strand) (q : Queue) (l : List CEntry) : (setCmdQueue t q l).startAc = t.startAc := by cases q <;> rfl
@[simp] theorem setCmdQueue_instret (t : Strand) (q : Queue) (l : List CEntry) : (setCmdQueue t q l).instret = t.instret := by cases q <;> rfl
@[simp] theorem setCmdQueue_slip (t : Strand) (q : Queue) (l : List CEntry) : (setCmdQueue t q l).slip = t.slip := by cases q <;> rfl
@[simp] theorem setCmdQueue_subs (t : Strand) (q : Queue) (l : List CEntry) : (setCmdQueue t q l).subs = t.subs := by cases q <;> rfl
@[simp] theorem setCmdQueue_cancelled (t : Strand) (q : Queue) (l : List CEntry) : (setCmdQueue t q l).cancelled = t.cancelled := by cases q <;> rfl
@[simp] theorem setCmdQueue_preempt (t : Strand) (q : Queue) (l : List CEntry) : (setCmdQueue t q l).preempt = t.preempt := by cases q <;> rfl
@[simp] theorem setCmdQueue_graceOut (t : Strand) (q : Queue) (l : List CEntry) : (setCmdQueue t q l).graceOut = t.graceOut := by cases q <;> rfl
@[simp] theorem setCmdQueue_atLoopPoint (t : Strand) (q : Queue) (l : List CEntry) : (setCmdQueue t q l).atLoopPoint = t.atLoopPoint := by cases q <;> rfl
@[simp] theorem setCmdQueue_skipBreak (t : Strand) (q : Queue) (l : List CEntry) : (setCmdQueue t q l).skipBreak = t.skipBreak := by cases q <;> rfl
@[simp] theorem setCmdQueue_idling (t : Strand) (q : Queue) (l : List CEntry) : (setCmdQueue t q l).idling = t.idling := by cases q <;> rfl
@[simp] theorem setCmdQueue_woken (t : Strand) (q : Queue) (l : List CEntry) : (setCmdQueue t q l).woken = t.woken := by cases q <;> rfl
@[simp] theorem setCmdQueue_dbgStep (t : Strand) (q : Queue) (l : List CEntry) : (setCmdQueue t q l).dbgStep = t.dbgStep := by cases q <;> rfl
@[simp] theorem setCmdQueue_dbgElem (t : Strand) (q : Queue) (l : List CEntry) : (setCmdQueue t q l).dbgElem = t.dbgElem := by cases q <;> rfl
@[simp] theorem setCmdQueue_dbgTrap (t : Strand) (q : Queue) (l : List CEntry) : (setCmdQueue t q l).dbgTrap = t.dbgTrap := by cases q <;> rfl
@[simp] theorem setCmdQueue_dbgArmed (t : Strand) (q : Queue) (l : List CEntry) : (setCmdQueue t q l).dbgArmed = t.dbgArmed := by cases q <;> rfl
@[simp] theorem setCmdQueue_editImage (t : Strand) (q : Queue) (l : List CEntry) : (setCmdQueue t q l).editImage = t.editImage := by cases q <;> rfl
@[simp] theorem setCmdQueue_saveArea (t : Strand) (q : Queue) (l : List CEntry) : (setCmdQueue t q l).saveArea = t.saveArea := by cases q <;> rfl
@[simp] theorem setCmdQueue_saveNamed (t : Strand) (q : Queue) (l : List CEntry) : (setCmdQueue t q l).saveNamed = t.saveNamed := by cases q <;> rfl
@[simp] theorem setCmdQueue_saveSec (t : Strand) (q : Queue) (l : List CEntry) : (setCmdQueue t q l).saveSec = t.saveSec := by cases q <;> rfl
@[simp] theorem setCmdQueue_saveOff (t : Strand) (q : Queue) (l : List CEntry) : (setCmdQueue t q l).saveOff = t.saveOff := by cases q <;> rfl
@[simp] theorem setCmdQueue_saveStop (t : Strand) (q : Queue) (l : List CEntry) : (setCmdQueue t q l).saveStop = t.saveStop := by cases q <;> rfl
@[simp] theorem setCmdQueue_savedEngines (t : Strand) (q : Queue) (l : List CEntry) : (setCmdQueue t q l).savedEngines = t.savedEngines := by cases q <;> rfl
@[simp] theorem setCmdQueue_haltDue (t : Strand) (q : Queue) (l : List CEntry) : (setCmdQueue t q l).haltDue = t.haltDue := by cases q <;> rfl
@[simp] theorem setCmdQueue_due (t : Strand) (q : Queue) (l : List CEntry) : (setCmdQueue t q l).due = t.due := by cases q <;> rfl
@[simp] theorem setCmdQueue_graceAc (t : Strand) (q : Queue) (l : List CEntry) : (setCmdQueue t q l).graceAc = t.graceAc := by cases q <;> rfl
@[simp] theorem setCmdQueue_sliceAc (t : Strand) (q : Queue) (l : List CEntry) : (setCmdQueue t q l).sliceAc = t.sliceAc := by cases q <;> rfl
@[simp] theorem setCmdQueue_node (t : Strand) (q : Queue) (l : List CEntry) : (setCmdQueue t q l).node = t.node := by cases q <;> rfl

/-! ### Updates of the state -/

@[simp] theorem setHoop_strand (h : Nat) (v : Hoop) (s : State) : (setHoop h v s).strand = s.strand := rfl
@[simp] theorem setHoop_pool (h : Nat) (v : Hoop) (s : State) : (setHoop h v s).pool = s.pool := rfl
@[simp] theorem setHoop_units (h : Nat) (v : Hoop) (s : State) : (setHoop h v s).units = s.units := rfl
@[simp] theorem setHoop_hub (h : Nat) (v : Hoop) (s : State) : (setHoop h v s).hub = s.hub := rfl
@[simp] theorem setHoop_mem (h : Nat) (v : Hoop) (s : State) : (setHoop h v s).mem = s.mem := rfl
@[simp] theorem setHoop_out (h : Nat) (v : Hoop) (s : State) : (setHoop h v s).out = s.out := rfl
@[simp] theorem setHoop_trace (h : Nat) (v : Hoop) (s : State) : (setHoop h v s).trace = s.trace := rfl
@[simp] theorem setHoop_images (h : Nat) (v : Hoop) (s : State) : (setHoop h v s).images = s.images := rfl
@[simp] theorem setHoop_ac (h : Nat) (v : Hoop) (s : State) : (setHoop h v s).ac = s.ac := rfl
@[simp] theorem setHoop_ns (h : Nat) (v : Hoop) (s : State) : (setHoop h v s).ns = s.ns := rfl
@[simp] theorem setHoop_agenda (h : Nat) (v : Hoop) (s : State) : (setHoop h v s).agenda = s.agenda := rfl
@[simp] theorem setHoop_actor (h : Nat) (v : Hoop) (s : State) : (setHoop h v s).actor = s.actor := rfl
@[simp] theorem setHoop_fetched (h : Nat) (v : Hoop) (s : State) : (setHoop h v s).fetched = s.fetched := rfl
@[simp] theorem setHoop_curUnit (h : Nat) (v : Hoop) (s : State) : (setHoop h v s).curUnit = s.curUnit := rfl
@[simp] theorem setHoop_freeCtr (h : Nat) (v : Hoop) (s : State) : (setHoop h v s).freeCtr = s.freeCtr := rfl
@[simp] theorem setHoop_tick (h : Nat) (v : Hoop) (s : State) : (setHoop h v s).tick = s.tick := rfl
@[simp] theorem setUnit_strand (u : Nat) (v : StackUnit) (s : State) : (setUnit u v s).strand = s.strand := rfl
@[simp] theorem setUnit_pool (u : Nat) (v : StackUnit) (s : State) : (setUnit u v s).pool = s.pool := rfl
@[simp] theorem setUnit_hoops (u : Nat) (v : StackUnit) (s : State) : (setUnit u v s).hoops = s.hoops := rfl
@[simp] theorem setUnit_hub (u : Nat) (v : StackUnit) (s : State) : (setUnit u v s).hub = s.hub := rfl
@[simp] theorem setUnit_mem (u : Nat) (v : StackUnit) (s : State) : (setUnit u v s).mem = s.mem := rfl
@[simp] theorem setUnit_out (u : Nat) (v : StackUnit) (s : State) : (setUnit u v s).out = s.out := rfl
@[simp] theorem setUnit_trace (u : Nat) (v : StackUnit) (s : State) : (setUnit u v s).trace = s.trace := rfl
@[simp] theorem setUnit_images (u : Nat) (v : StackUnit) (s : State) : (setUnit u v s).images = s.images := rfl
@[simp] theorem setUnit_ac (u : Nat) (v : StackUnit) (s : State) : (setUnit u v s).ac = s.ac := rfl
@[simp] theorem setUnit_ns (u : Nat) (v : StackUnit) (s : State) : (setUnit u v s).ns = s.ns := rfl
@[simp] theorem setUnit_agenda (u : Nat) (v : StackUnit) (s : State) : (setUnit u v s).agenda = s.agenda := rfl
@[simp] theorem setUnit_actor (u : Nat) (v : StackUnit) (s : State) : (setUnit u v s).actor = s.actor := rfl
@[simp] theorem setUnit_fetched (u : Nat) (v : StackUnit) (s : State) : (setUnit u v s).fetched = s.fetched := rfl
@[simp] theorem setUnit_curUnit (u : Nat) (v : StackUnit) (s : State) : (setUnit u v s).curUnit = s.curUnit := rfl
@[simp] theorem setUnit_freeCtr (u : Nat) (v : StackUnit) (s : State) : (setUnit u v s).freeCtr = s.freeCtr := rfl
@[simp] theorem setUnit_tick (u : Nat) (v : StackUnit) (s : State) : (setUnit u v s).tick = s.tick := rfl
@[simp] theorem setBar0_strand (off n v : Nat) (s : State) : (setBar0 off n v s).strand = s.strand := rfl
@[simp] theorem setBar0_pool (off n v : Nat) (s : State) : (setBar0 off n v s).pool = s.pool := rfl
@[simp] theorem setBar0_hoops (off n v : Nat) (s : State) : (setBar0 off n v s).hoops = s.hoops := rfl
@[simp] theorem setBar0_units (off n v : Nat) (s : State) : (setBar0 off n v s).units = s.units := rfl
@[simp] theorem setBar0_hub (off n v : Nat) (s : State) : (setBar0 off n v s).hub = s.hub := rfl
@[simp] theorem setBar0_out (off n v : Nat) (s : State) : (setBar0 off n v s).out = s.out := rfl
@[simp] theorem setBar0_trace (off n v : Nat) (s : State) : (setBar0 off n v s).trace = s.trace := rfl
@[simp] theorem setBar0_images (off n v : Nat) (s : State) : (setBar0 off n v s).images = s.images := rfl
@[simp] theorem setBar0_ac (off n v : Nat) (s : State) : (setBar0 off n v s).ac = s.ac := rfl
@[simp] theorem setBar0_ns (off n v : Nat) (s : State) : (setBar0 off n v s).ns = s.ns := rfl
@[simp] theorem setBar0_agenda (off n v : Nat) (s : State) : (setBar0 off n v s).agenda = s.agenda := rfl
@[simp] theorem setBar0_actor (off n v : Nat) (s : State) : (setBar0 off n v s).actor = s.actor := rfl
@[simp] theorem setBar0_fetched (off n v : Nat) (s : State) : (setBar0 off n v s).fetched = s.fetched := rfl
@[simp] theorem setBar0_curUnit (off n v : Nat) (s : State) : (setBar0 off n v s).curUnit = s.curUnit := rfl
@[simp] theorem setBar0_freeCtr (off n v : Nat) (s : State) : (setBar0 off n v s).freeCtr = s.freeCtr := rfl
@[simp] theorem setBar0_tick (off n v : Nat) (s : State) : (setBar0 off n v s).tick = s.tick := rfl
@[simp] theorem setKeySlot_strand (k : Nat) (v : KeySlot) (s : State) : (setKeySlot k v s).strand = s.strand := rfl
@[simp] theorem setKeySlot_pool (k : Nat) (v : KeySlot) (s : State) : (setKeySlot k v s).pool = s.pool := rfl
@[simp] theorem setKeySlot_hoops (k : Nat) (v : KeySlot) (s : State) : (setKeySlot k v s).hoops = s.hoops := rfl
@[simp] theorem setKeySlot_units (k : Nat) (v : KeySlot) (s : State) : (setKeySlot k v s).units = s.units := rfl
@[simp] theorem setKeySlot_mem (k : Nat) (v : KeySlot) (s : State) : (setKeySlot k v s).mem = s.mem := rfl
@[simp] theorem setKeySlot_out (k : Nat) (v : KeySlot) (s : State) : (setKeySlot k v s).out = s.out := rfl
@[simp] theorem setKeySlot_trace (k : Nat) (v : KeySlot) (s : State) : (setKeySlot k v s).trace = s.trace := rfl
@[simp] theorem setKeySlot_images (k : Nat) (v : KeySlot) (s : State) : (setKeySlot k v s).images = s.images := rfl
@[simp] theorem setKeySlot_ac (k : Nat) (v : KeySlot) (s : State) : (setKeySlot k v s).ac = s.ac := rfl
@[simp] theorem setKeySlot_ns (k : Nat) (v : KeySlot) (s : State) : (setKeySlot k v s).ns = s.ns := rfl
@[simp] theorem setKeySlot_agenda (k : Nat) (v : KeySlot) (s : State) : (setKeySlot k v s).agenda = s.agenda := rfl
@[simp] theorem setKeySlot_actor (k : Nat) (v : KeySlot) (s : State) : (setKeySlot k v s).actor = s.actor := rfl
@[simp] theorem setKeySlot_fetched (k : Nat) (v : KeySlot) (s : State) : (setKeySlot k v s).fetched = s.fetched := rfl
@[simp] theorem setKeySlot_curUnit (k : Nat) (v : KeySlot) (s : State) : (setKeySlot k v s).curUnit = s.curUnit := rfl
@[simp] theorem setKeySlot_freeCtr (k : Nat) (v : KeySlot) (s : State) : (setKeySlot k v s).freeCtr = s.freeCtr := rfl
@[simp] theorem setKeySlot_tick (k : Nat) (v : KeySlot) (s : State) : (setKeySlot k v s).tick = s.tick := rfl
@[simp] theorem addErr_strand (e : ErrRec) (s : State) : (addErr e s).strand = s.strand := rfl
@[simp] theorem addErr_pool (e : ErrRec) (s : State) : (addErr e s).pool = s.pool := rfl
@[simp] theorem addErr_hoops (e : ErrRec) (s : State) : (addErr e s).hoops = s.hoops := rfl
@[simp] theorem addErr_units (e : ErrRec) (s : State) : (addErr e s).units = s.units := rfl
@[simp] theorem addErr_mem (e : ErrRec) (s : State) : (addErr e s).mem = s.mem := rfl
@[simp] theorem addErr_out (e : ErrRec) (s : State) : (addErr e s).out = s.out := rfl
@[simp] theorem addErr_trace (e : ErrRec) (s : State) : (addErr e s).trace = s.trace := rfl
@[simp] theorem addErr_images (e : ErrRec) (s : State) : (addErr e s).images = s.images := rfl
@[simp] theorem addErr_ac (e : ErrRec) (s : State) : (addErr e s).ac = s.ac := rfl
@[simp] theorem addErr_ns (e : ErrRec) (s : State) : (addErr e s).ns = s.ns := rfl
@[simp] theorem addErr_agenda (e : ErrRec) (s : State) : (addErr e s).agenda = s.agenda := rfl
@[simp] theorem addErr_actor (e : ErrRec) (s : State) : (addErr e s).actor = s.actor := rfl
@[simp] theorem addErr_fetched (e : ErrRec) (s : State) : (addErr e s).fetched = s.fetched := rfl
@[simp] theorem addErr_curUnit (e : ErrRec) (s : State) : (addErr e s).curUnit = s.curUnit := rfl
@[simp] theorem addErr_freeCtr (e : ErrRec) (s : State) : (addErr e s).freeCtr = s.freeCtr := rfl
@[simp] theorem addErr_tick (e : ErrRec) (s : State) : (addErr e s).tick = s.tick := rfl
@[simp] theorem postIrq_strand (v : Nat) (d : Option Word32) (n : Option (Nat × Nat)) (s : State) : (postIrq v d n s).strand = s.strand := rfl
@[simp] theorem postIrq_pool (v : Nat) (d : Option Word32) (n : Option (Nat × Nat)) (s : State) : (postIrq v d n s).pool = s.pool := rfl
@[simp] theorem postIrq_hoops (v : Nat) (d : Option Word32) (n : Option (Nat × Nat)) (s : State) : (postIrq v d n s).hoops = s.hoops := rfl
@[simp] theorem postIrq_units (v : Nat) (d : Option Word32) (n : Option (Nat × Nat)) (s : State) : (postIrq v d n s).units = s.units := rfl
@[simp] theorem postIrq_mem (v : Nat) (d : Option Word32) (n : Option (Nat × Nat)) (s : State) : (postIrq v d n s).mem = s.mem := rfl
@[simp] theorem postIrq_out (v : Nat) (d : Option Word32) (n : Option (Nat × Nat)) (s : State) : (postIrq v d n s).out = s.out := rfl
@[simp] theorem postIrq_trace (v : Nat) (d : Option Word32) (n : Option (Nat × Nat)) (s : State) : (postIrq v d n s).trace = s.trace := rfl
@[simp] theorem postIrq_images (v : Nat) (d : Option Word32) (n : Option (Nat × Nat)) (s : State) : (postIrq v d n s).images = s.images := rfl
@[simp] theorem postIrq_ac (v : Nat) (d : Option Word32) (n : Option (Nat × Nat)) (s : State) : (postIrq v d n s).ac = s.ac := rfl
@[simp] theorem postIrq_ns (v : Nat) (d : Option Word32) (n : Option (Nat × Nat)) (s : State) : (postIrq v d n s).ns = s.ns := rfl
@[simp] theorem postIrq_agenda (v : Nat) (d : Option Word32) (n : Option (Nat × Nat)) (s : State) : (postIrq v d n s).agenda = s.agenda := rfl
@[simp] theorem postIrq_actor (v : Nat) (d : Option Word32) (n : Option (Nat × Nat)) (s : State) : (postIrq v d n s).actor = s.actor := rfl
@[simp] theorem postIrq_fetched (v : Nat) (d : Option Word32) (n : Option (Nat × Nat)) (s : State) : (postIrq v d n s).fetched = s.fetched := rfl
@[simp] theorem postIrq_curUnit (v : Nat) (d : Option Word32) (n : Option (Nat × Nat)) (s : State) : (postIrq v d n s).curUnit = s.curUnit := rfl
@[simp] theorem postIrq_freeCtr (v : Nat) (d : Option Word32) (n : Option (Nat × Nat)) (s : State) : (postIrq v d n s).freeCtr = s.freeCtr := rfl
@[simp] theorem postIrq_tick (v : Nat) (d : Option Word32) (n : Option (Nat × Nat)) (s : State) : (postIrq v d n s).tick = s.tick := rfl
@[simp] theorem setCause_strand (c : Nat) (s : State) : (setCause c s).strand = s.strand := rfl
@[simp] theorem setCause_pool (c : Nat) (s : State) : (setCause c s).pool = s.pool := rfl
@[simp] theorem setCause_hoops (c : Nat) (s : State) : (setCause c s).hoops = s.hoops := rfl
@[simp] theorem setCause_units (c : Nat) (s : State) : (setCause c s).units = s.units := rfl
@[simp] theorem setCause_out (c : Nat) (s : State) : (setCause c s).out = s.out := rfl
@[simp] theorem setCause_trace (c : Nat) (s : State) : (setCause c s).trace = s.trace := rfl
@[simp] theorem setCause_images (c : Nat) (s : State) : (setCause c s).images = s.images := rfl
@[simp] theorem setCause_ac (c : Nat) (s : State) : (setCause c s).ac = s.ac := rfl
@[simp] theorem setCause_ns (c : Nat) (s : State) : (setCause c s).ns = s.ns := rfl
@[simp] theorem setCause_agenda (c : Nat) (s : State) : (setCause c s).agenda = s.agenda := rfl
@[simp] theorem setCause_actor (c : Nat) (s : State) : (setCause c s).actor = s.actor := rfl
@[simp] theorem setCause_fetched (c : Nat) (s : State) : (setCause c s).fetched = s.fetched := rfl
@[simp] theorem setCause_curUnit (c : Nat) (s : State) : (setCause c s).curUnit = s.curUnit := rfl
@[simp] theorem setCause_freeCtr (c : Nat) (s : State) : (setCause c s).freeCtr = s.freeCtr := rfl
@[simp] theorem setCause_tick (c : Nat) (s : State) : (setCause c s).tick = s.tick := rfl
@[simp] theorem advanceEpoch_strand (a : BitVec 12) (s : State) : (advanceEpoch a s).strand = s.strand := rfl
@[simp] theorem advanceEpoch_pool (a : BitVec 12) (s : State) : (advanceEpoch a s).pool = s.pool := rfl
@[simp] theorem advanceEpoch_hoops (a : BitVec 12) (s : State) : (advanceEpoch a s).hoops = s.hoops := rfl
@[simp] theorem advanceEpoch_units (a : BitVec 12) (s : State) : (advanceEpoch a s).units = s.units := rfl
@[simp] theorem advanceEpoch_mem (a : BitVec 12) (s : State) : (advanceEpoch a s).mem = s.mem := rfl
@[simp] theorem advanceEpoch_out (a : BitVec 12) (s : State) : (advanceEpoch a s).out = s.out := rfl
@[simp] theorem advanceEpoch_trace (a : BitVec 12) (s : State) : (advanceEpoch a s).trace = s.trace := rfl
@[simp] theorem advanceEpoch_images (a : BitVec 12) (s : State) : (advanceEpoch a s).images = s.images := rfl
@[simp] theorem advanceEpoch_ac (a : BitVec 12) (s : State) : (advanceEpoch a s).ac = s.ac := rfl
@[simp] theorem advanceEpoch_ns (a : BitVec 12) (s : State) : (advanceEpoch a s).ns = s.ns := rfl
@[simp] theorem advanceEpoch_agenda (a : BitVec 12) (s : State) : (advanceEpoch a s).agenda = s.agenda := rfl
@[simp] theorem advanceEpoch_actor (a : BitVec 12) (s : State) : (advanceEpoch a s).actor = s.actor := rfl
@[simp] theorem advanceEpoch_fetched (a : BitVec 12) (s : State) : (advanceEpoch a s).fetched = s.fetched := rfl
@[simp] theorem advanceEpoch_curUnit (a : BitVec 12) (s : State) : (advanceEpoch a s).curUnit = s.curUnit := rfl
@[simp] theorem advanceEpoch_freeCtr (a : BitVec 12) (s : State) : (advanceEpoch a s).freeCtr = s.freeCtr := rfl
@[simp] theorem advanceEpoch_tick (a : BitVec 12) (s : State) : (advanceEpoch a s).tick = s.tick := rfl
@[simp] theorem hbmWrite_strand (k a : Nat) (bs : List Byte) (s : State) : (hbmWrite k a bs s).strand = s.strand := rfl
@[simp] theorem hbmWrite_pool (k a : Nat) (bs : List Byte) (s : State) : (hbmWrite k a bs s).pool = s.pool := rfl
@[simp] theorem hbmWrite_hoops (k a : Nat) (bs : List Byte) (s : State) : (hbmWrite k a bs s).hoops = s.hoops := rfl
@[simp] theorem hbmWrite_units (k a : Nat) (bs : List Byte) (s : State) : (hbmWrite k a bs s).units = s.units := rfl
@[simp] theorem hbmWrite_hub (k a : Nat) (bs : List Byte) (s : State) : (hbmWrite k a bs s).hub = s.hub := rfl
@[simp] theorem hbmWrite_out (k a : Nat) (bs : List Byte) (s : State) : (hbmWrite k a bs s).out = s.out := rfl
@[simp] theorem hbmWrite_trace (k a : Nat) (bs : List Byte) (s : State) : (hbmWrite k a bs s).trace = s.trace := rfl
@[simp] theorem hbmWrite_images (k a : Nat) (bs : List Byte) (s : State) : (hbmWrite k a bs s).images = s.images := rfl
@[simp] theorem hbmWrite_ac (k a : Nat) (bs : List Byte) (s : State) : (hbmWrite k a bs s).ac = s.ac := rfl
@[simp] theorem hbmWrite_ns (k a : Nat) (bs : List Byte) (s : State) : (hbmWrite k a bs s).ns = s.ns := rfl
@[simp] theorem hbmWrite_agenda (k a : Nat) (bs : List Byte) (s : State) : (hbmWrite k a bs s).agenda = s.agenda := rfl
@[simp] theorem hbmWrite_actor (k a : Nat) (bs : List Byte) (s : State) : (hbmWrite k a bs s).actor = s.actor := rfl
@[simp] theorem hbmWrite_fetched (k a : Nat) (bs : List Byte) (s : State) : (hbmWrite k a bs s).fetched = s.fetched := rfl
@[simp] theorem hbmWrite_curUnit (k a : Nat) (bs : List Byte) (s : State) : (hbmWrite k a bs s).curUnit = s.curUnit := rfl
@[simp] theorem hbmWrite_freeCtr (k a : Nat) (bs : List Byte) (s : State) : (hbmWrite k a bs s).freeCtr = s.freeCtr := rfl
@[simp] theorem hbmWrite_tick (k a : Nat) (bs : List Byte) (s : State) : (hbmWrite k a bs s).tick = s.tick := rfl
@[simp] theorem advance_pool (s : State) : (advance s).pool = s.pool := rfl
@[simp] theorem advance_hoops (s : State) : (advance s).hoops = s.hoops := rfl
@[simp] theorem advance_units (s : State) : (advance s).units = s.units := rfl
@[simp] theorem advance_hub (s : State) : (advance s).hub = s.hub := rfl
@[simp] theorem advance_mem (s : State) : (advance s).mem = s.mem := rfl
@[simp] theorem advance_out (s : State) : (advance s).out = s.out := rfl
@[simp] theorem advance_trace (s : State) : (advance s).trace = s.trace := rfl
@[simp] theorem advance_images (s : State) : (advance s).images = s.images := rfl
@[simp] theorem advance_ac (s : State) : (advance s).ac = s.ac := rfl
@[simp] theorem advance_ns (s : State) : (advance s).ns = s.ns := rfl
@[simp] theorem advance_agenda (s : State) : (advance s).agenda = s.agenda := rfl
@[simp] theorem advance_actor (s : State) : (advance s).actor = s.actor := rfl
@[simp] theorem advance_fetched (s : State) : (advance s).fetched = s.fetched := rfl
@[simp] theorem advance_curUnit (s : State) : (advance s).curUnit = s.curUnit := rfl
@[simp] theorem advance_freeCtr (s : State) : (advance s).freeCtr = s.freeCtr := rfl
@[simp] theorem advance_tick (s : State) : (advance s).tick = s.tick := rfl
@[simp] theorem jump_pool (t : Word) (s : State) : (jump t s).pool = s.pool := rfl
@[simp] theorem jump_hoops (t : Word) (s : State) : (jump t s).hoops = s.hoops := rfl
@[simp] theorem jump_units (t : Word) (s : State) : (jump t s).units = s.units := rfl
@[simp] theorem jump_hub (t : Word) (s : State) : (jump t s).hub = s.hub := rfl
@[simp] theorem jump_mem (t : Word) (s : State) : (jump t s).mem = s.mem := rfl
@[simp] theorem jump_out (t : Word) (s : State) : (jump t s).out = s.out := rfl
@[simp] theorem jump_trace (t : Word) (s : State) : (jump t s).trace = s.trace := rfl
@[simp] theorem jump_images (t : Word) (s : State) : (jump t s).images = s.images := rfl
@[simp] theorem jump_ac (t : Word) (s : State) : (jump t s).ac = s.ac := rfl
@[simp] theorem jump_ns (t : Word) (s : State) : (jump t s).ns = s.ns := rfl
@[simp] theorem jump_agenda (t : Word) (s : State) : (jump t s).agenda = s.agenda := rfl
@[simp] theorem jump_actor (t : Word) (s : State) : (jump t s).actor = s.actor := rfl
@[simp] theorem jump_fetched (t : Word) (s : State) : (jump t s).fetched = s.fetched := rfl
@[simp] theorem jump_curUnit (t : Word) (s : State) : (jump t s).curUnit = s.curUnit := rfl
@[simp] theorem jump_freeCtr (t : Word) (s : State) : (jump t s).freeCtr = s.freeCtr := rfl
@[simp] theorem jump_tick (t : Word) (s : State) : (jump t s).tick = s.tick := rfl
@[simp] theorem frontWait_pool (k : WaitKind) (s : State) : (frontWait k s).pool = s.pool := rfl
@[simp] theorem frontWait_hoops (k : WaitKind) (s : State) : (frontWait k s).hoops = s.hoops := rfl
@[simp] theorem frontWait_units (k : WaitKind) (s : State) : (frontWait k s).units = s.units := rfl
@[simp] theorem frontWait_hub (k : WaitKind) (s : State) : (frontWait k s).hub = s.hub := rfl
@[simp] theorem frontWait_mem (k : WaitKind) (s : State) : (frontWait k s).mem = s.mem := rfl
@[simp] theorem frontWait_out (k : WaitKind) (s : State) : (frontWait k s).out = s.out := rfl
@[simp] theorem frontWait_trace (k : WaitKind) (s : State) : (frontWait k s).trace = s.trace := rfl
@[simp] theorem frontWait_images (k : WaitKind) (s : State) : (frontWait k s).images = s.images := rfl
@[simp] theorem frontWait_ac (k : WaitKind) (s : State) : (frontWait k s).ac = s.ac := rfl
@[simp] theorem frontWait_ns (k : WaitKind) (s : State) : (frontWait k s).ns = s.ns := rfl
@[simp] theorem frontWait_agenda (k : WaitKind) (s : State) : (frontWait k s).agenda = s.agenda := rfl
@[simp] theorem frontWait_actor (k : WaitKind) (s : State) : (frontWait k s).actor = s.actor := rfl
@[simp] theorem frontWait_fetched (k : WaitKind) (s : State) : (frontWait k s).fetched = s.fetched := rfl
@[simp] theorem frontWait_curUnit (k : WaitKind) (s : State) : (frontWait k s).curUnit = s.curUnit := rfl
@[simp] theorem frontWait_freeCtr (k : WaitKind) (s : State) : (frontWait k s).freeCtr = s.freeCtr := rfl
@[simp] theorem frontWait_tick (k : WaitKind) (s : State) : (frontWait k s).tick = s.tick := rfl
@[simp] theorem skipNext_pool (s : State) : (skipNext s).pool = s.pool := rfl
@[simp] theorem skipNext_hoops (s : State) : (skipNext s).hoops = s.hoops := rfl
@[simp] theorem skipNext_units (s : State) : (skipNext s).units = s.units := rfl
@[simp] theorem skipNext_hub (s : State) : (skipNext s).hub = s.hub := rfl
@[simp] theorem skipNext_mem (s : State) : (skipNext s).mem = s.mem := rfl
@[simp] theorem skipNext_out (s : State) : (skipNext s).out = s.out := rfl
@[simp] theorem skipNext_trace (s : State) : (skipNext s).trace = s.trace := rfl
@[simp] theorem skipNext_images (s : State) : (skipNext s).images = s.images := rfl
@[simp] theorem skipNext_ac (s : State) : (skipNext s).ac = s.ac := rfl
@[simp] theorem skipNext_ns (s : State) : (skipNext s).ns = s.ns := rfl
@[simp] theorem skipNext_agenda (s : State) : (skipNext s).agenda = s.agenda := rfl
@[simp] theorem skipNext_actor (s : State) : (skipNext s).actor = s.actor := rfl
@[simp] theorem skipNext_fetched (s : State) : (skipNext s).fetched = s.fetched := rfl
@[simp] theorem skipNext_curUnit (s : State) : (skipNext s).curUnit = s.curUnit := rfl
@[simp] theorem skipNext_freeCtr (s : State) : (skipNext s).freeCtr = s.freeCtr := rfl
@[simp] theorem skipNext_tick (s : State) : (skipNext s).tick = s.tick := rfl
@[simp] theorem withdrawMessages_strand (i : StrandId) (s : State) : (withdrawMessages i s).strand = s.strand := rfl
@[simp] theorem withdrawMessages_pool (i : StrandId) (s : State) : (withdrawMessages i s).pool = s.pool := rfl
@[simp] theorem withdrawMessages_hoops (i : StrandId) (s : State) : (withdrawMessages i s).hoops = s.hoops := rfl
@[simp] theorem withdrawMessages_units (i : StrandId) (s : State) : (withdrawMessages i s).units = s.units := rfl
@[simp] theorem withdrawMessages_mem (i : StrandId) (s : State) : (withdrawMessages i s).mem = s.mem := rfl
@[simp] theorem withdrawMessages_out (i : StrandId) (s : State) : (withdrawMessages i s).out = s.out := rfl
@[simp] theorem withdrawMessages_trace (i : StrandId) (s : State) : (withdrawMessages i s).trace = s.trace := rfl
@[simp] theorem withdrawMessages_images (i : StrandId) (s : State) : (withdrawMessages i s).images = s.images := rfl
@[simp] theorem withdrawMessages_ac (i : StrandId) (s : State) : (withdrawMessages i s).ac = s.ac := rfl
@[simp] theorem withdrawMessages_ns (i : StrandId) (s : State) : (withdrawMessages i s).ns = s.ns := rfl
@[simp] theorem withdrawMessages_agenda (i : StrandId) (s : State) : (withdrawMessages i s).agenda = s.agenda := rfl
@[simp] theorem withdrawMessages_actor (i : StrandId) (s : State) : (withdrawMessages i s).actor = s.actor := rfl
@[simp] theorem withdrawMessages_fetched (i : StrandId) (s : State) : (withdrawMessages i s).fetched = s.fetched := rfl
@[simp] theorem withdrawMessages_curUnit (i : StrandId) (s : State) : (withdrawMessages i s).curUnit = s.curUnit := rfl
@[simp] theorem withdrawMessages_freeCtr (i : StrandId) (s : State) : (withdrawMessages i s).freeCtr = s.freeCtr := rfl
@[simp] theorem withdrawMessages_tick (i : StrandId) (s : State) : (withdrawMessages i s).tick = s.tick := rfl
@[simp] theorem updStrands_hoops (p : Strand → Bool) (f : Strand → Strand) (s : State) : (updStrands p f s).hoops = s.hoops := rfl
@[simp] theorem updStrands_units (p : Strand → Bool) (f : Strand → Strand) (s : State) : (updStrands p f s).units = s.units := rfl
@[simp] theorem updStrands_hub (p : Strand → Bool) (f : Strand → Strand) (s : State) : (updStrands p f s).hub = s.hub := rfl
@[simp] theorem updStrands_mem (p : Strand → Bool) (f : Strand → Strand) (s : State) : (updStrands p f s).mem = s.mem := rfl
@[simp] theorem updStrands_out (p : Strand → Bool) (f : Strand → Strand) (s : State) : (updStrands p f s).out = s.out := rfl
@[simp] theorem updStrands_trace (p : Strand → Bool) (f : Strand → Strand) (s : State) : (updStrands p f s).trace = s.trace := rfl
@[simp] theorem updStrands_images (p : Strand → Bool) (f : Strand → Strand) (s : State) : (updStrands p f s).images = s.images := rfl
@[simp] theorem updStrands_ac (p : Strand → Bool) (f : Strand → Strand) (s : State) : (updStrands p f s).ac = s.ac := rfl
@[simp] theorem updStrands_ns (p : Strand → Bool) (f : Strand → Strand) (s : State) : (updStrands p f s).ns = s.ns := rfl
@[simp] theorem updStrands_agenda (p : Strand → Bool) (f : Strand → Strand) (s : State) : (updStrands p f s).agenda = s.agenda := rfl
@[simp] theorem updStrands_actor (p : Strand → Bool) (f : Strand → Strand) (s : State) : (updStrands p f s).actor = s.actor := rfl
@[simp] theorem updStrands_fetched (p : Strand → Bool) (f : Strand → Strand) (s : State) : (updStrands p f s).fetched = s.fetched := rfl
@[simp] theorem updStrands_curUnit (p : Strand → Bool) (f : Strand → Strand) (s : State) : (updStrands p f s).curUnit = s.curUnit := rfl
@[simp] theorem updStrands_freeCtr (p : Strand → Bool) (f : Strand → Strand) (s : State) : (updStrands p f s).freeCtr = s.freeCtr := rfl
@[simp] theorem updStrands_tick (p : Strand → Bool) (f : Strand → Strand) (s : State) : (updStrands p f s).tick = s.tick := rfl
@[simp] theorem updStrand_hoops (i : StrandId) (f : Strand → Strand) (s : State) : (updStrand i f s).hoops = s.hoops := rfl
@[simp] theorem updStrand_units (i : StrandId) (f : Strand → Strand) (s : State) : (updStrand i f s).units = s.units := rfl
@[simp] theorem updStrand_hub (i : StrandId) (f : Strand → Strand) (s : State) : (updStrand i f s).hub = s.hub := rfl
@[simp] theorem updStrand_mem (i : StrandId) (f : Strand → Strand) (s : State) : (updStrand i f s).mem = s.mem := rfl
@[simp] theorem updStrand_out (i : StrandId) (f : Strand → Strand) (s : State) : (updStrand i f s).out = s.out := rfl
@[simp] theorem updStrand_trace (i : StrandId) (f : Strand → Strand) (s : State) : (updStrand i f s).trace = s.trace := rfl
@[simp] theorem updStrand_images (i : StrandId) (f : Strand → Strand) (s : State) : (updStrand i f s).images = s.images := rfl
@[simp] theorem updStrand_ac (i : StrandId) (f : Strand → Strand) (s : State) : (updStrand i f s).ac = s.ac := rfl
@[simp] theorem updStrand_ns (i : StrandId) (f : Strand → Strand) (s : State) : (updStrand i f s).ns = s.ns := rfl
@[simp] theorem updStrand_agenda (i : StrandId) (f : Strand → Strand) (s : State) : (updStrand i f s).agenda = s.agenda := rfl
@[simp] theorem updStrand_actor (i : StrandId) (f : Strand → Strand) (s : State) : (updStrand i f s).actor = s.actor := rfl
@[simp] theorem updStrand_fetched (i : StrandId) (f : Strand → Strand) (s : State) : (updStrand i f s).fetched = s.fetched := rfl
@[simp] theorem updStrand_curUnit (i : StrandId) (f : Strand → Strand) (s : State) : (updStrand i f s).curUnit = s.curUnit := rfl
@[simp] theorem updStrand_freeCtr (i : StrandId) (f : Strand → Strand) (s : State) : (updStrand i f s).freeCtr = s.freeCtr := rfl
@[simp] theorem updStrand_tick (i : StrandId) (f : Strand → Strand) (s : State) : (updStrand i f s).tick = s.tick := rfl
@[simp] theorem setBar0_mem_bytes (off n v : Nat) (s : State) : (setBar0 off n v s).mem.bytes = s.mem.bytes := rfl
@[simp] theorem setBar0_mem_blockKey (off n v : Nat) (s : State) : (setBar0 off n v s).mem.blockKey = s.mem.blockKey := rfl
@[simp] theorem setBar0_mem_poison (off n v : Nat) (s : State) : (setBar0 off n v s).mem.poison = s.mem.poison := rfl
@[simp] theorem setBar0_mem_stamps (off n v : Nat) (s : State) : (setBar0 off n v s).mem.stamps = s.mem.stamps := rfl
@[simp] theorem setBar0_mem_dirty (off n v : Nat) (s : State) : (setBar0 off n v s).mem.dirty = s.mem.dirty := rfl
@[simp] theorem addErr_hub_counters (e : ErrRec) (s : State) : (addErr e s).hub.counters = s.hub.counters := rfl
@[simp] theorem addErr_hub_incs (e : ErrRec) (s : State) : (addErr e s).hub.incs = s.hub.incs := rfl
@[simp] theorem addErr_hub_launches (e : ErrRec) (s : State) : (addErr e s).hub.launches = s.hub.launches := rfl
@[simp] theorem addErr_hub_graphs (e : ErrRec) (s : State) : (addErr e s).hub.graphs = s.hub.graphs := rfl
@[simp] theorem addErr_hub_phases (e : ErrRec) (s : State) : (addErr e s).hub.phases = s.hub.phases := rfl
@[simp] theorem addErr_hub_jobs (e : ErrRec) (s : State) : (addErr e s).hub.jobs = s.hub.jobs := rfl
@[simp] theorem addErr_hub_ready (e : ErrRec) (s : State) : (addErr e s).hub.ready = s.hub.ready := rfl
@[simp] theorem addErr_hub_deficits (e : ErrRec) (s : State) : (addErr e s).hub.deficits = s.hub.deficits := rfl
@[simp] theorem addErr_hub_turn (e : ErrRec) (s : State) : (addErr e s).hub.turn = s.hub.turn := rfl
@[simp] theorem addErr_hub_quanta (e : ErrRec) (s : State) : (addErr e s).hub.quanta = s.hub.quanta := rfl
@[simp] theorem addErr_hub_grace (e : ErrRec) (s : State) : (addErr e s).hub.grace = s.hub.grace := rfl
@[simp] theorem addErr_hub_slice (e : ErrRec) (s : State) : (addErr e s).hub.slice = s.hub.slice := rfl
@[simp] theorem addErr_hub_irqs (e : ErrRec) (s : State) : (addErr e s).hub.irqs = s.hub.irqs := rfl
@[simp] theorem addErr_hub_reqs (e : ErrRec) (s : State) : (addErr e s).hub.reqs = s.hub.reqs := rfl
@[simp] theorem addErr_hub_barriers (e : ErrRec) (s : State) : (addErr e s).hub.barriers = s.hub.barriers := rfl
@[simp] theorem addErr_hub_sets (e : ErrRec) (s : State) : (addErr e s).hub.sets = s.hub.sets := rfl
@[simp] theorem addErr_hub_keys (e : ErrRec) (s : State) : (addErr e s).hub.keys = s.hub.keys := rfl
@[simp] theorem addErr_hub_nextKey (e : ErrRec) (s : State) : (addErr e s).hub.nextKey = s.hub.nextKey := rfl
@[simp] theorem addErr_hub_sealed (e : ErrRec) (s : State) : (addErr e s).hub.sealed = s.hub.sealed := rfl
@[simp] theorem addErr_hub_mailDone (e : ErrRec) (s : State) : (addErr e s).hub.mailDone = s.hub.mailDone := rfl
@[simp] theorem addErr_hub_closing (e : ErrRec) (s : State) : (addErr e s).hub.closing = s.hub.closing := rfl
@[simp] theorem addErr_hub_weights (e : ErrRec) (s : State) : (addErr e s).hub.weights = s.hub.weights := rfl
@[simp] theorem addErr_hub_portLost (e : ErrRec) (s : State) : (addErr e s).hub.portLost = s.hub.portLost := rfl
@[simp] theorem addErr_hub_ringLost (e : ErrRec) (s : State) : (addErr e s).hub.ringLost = s.hub.ringLost := rfl
@[simp] theorem addErr_hub_epochs (e : ErrRec) (s : State) : (addErr e s).hub.epochs = s.hub.epochs := rfl
@[simp] theorem addErr_hub_sessions (e : ErrRec) (s : State) : (addErr e s).hub.sessions = s.hub.sessions := rfl
@[simp] theorem addErr_hub_messages (e : ErrRec) (s : State) : (addErr e s).hub.messages = s.hub.messages := rfl
@[simp] theorem addErr_hub_sequences (e : ErrRec) (s : State) : (addErr e s).hub.sequences = s.hub.sequences := rfl
@[simp] theorem addErr_hub_members (e : ErrRec) (s : State) : (addErr e s).hub.members = s.hub.members := rfl
@[simp] theorem addErr_hub_stopped (e : ErrRec) (s : State) : (addErr e s).hub.stopped = s.hub.stopped := rfl
@[simp] theorem addErr_hub_quiesce (e : ErrRec) (s : State) : (addErr e s).hub.quiesce = s.hub.quiesce := rfl
@[simp] theorem addErr_hub_thermal (e : ErrRec) (s : State) : (addErr e s).hub.thermal = s.hub.thermal := rfl
@[simp] theorem addErr_hub_stay (e : ErrRec) (s : State) : (addErr e s).hub.stay = s.hub.stay := rfl
@[simp] theorem addErr_hub_imageSeq (e : ErrRec) (s : State) : (addErr e s).hub.imageSeq = s.hub.imageSeq := rfl
@[simp] theorem addErr_hub_quiescedAt (e : ErrRec) (s : State) : (addErr e s).hub.quiescedAt = s.hub.quiescedAt := rfl
@[simp] theorem addErr_hub_deferred (e : ErrRec) (s : State) : (addErr e s).hub.deferred = s.hub.deferred := rfl
@[simp] theorem addErr_hub_fenced (e : ErrRec) (s : State) : (addErr e s).hub.fenced = s.hub.fenced := rfl
@[simp] theorem addErr_hub_fencing (e : ErrRec) (s : State) : (addErr e s).hub.fencing = s.hub.fencing := rfl
@[simp] theorem addErr_hub_descheduled (e : ErrRec) (s : State) : (addErr e s).hub.descheduled = s.hub.descheduled := rfl
@[simp] theorem addErr_hub_errors (e : ErrRec) (s : State) : (addErr e s).hub.errors = s.hub.errors := rfl
@[simp] theorem addErr_hub_errorLimits (e : ErrRec) (s : State) : (addErr e s).hub.errorLimits = s.hub.errorLimits := rfl
@[simp] theorem addErr_hub_portClosed (e : ErrRec) (s : State) : (addErr e s).hub.portClosed = s.hub.portClosed := rfl
@[simp] theorem addErr_hub_portAsids (e : ErrRec) (s : State) : (addErr e s).hub.portAsids = s.hub.portAsids := rfl
@[simp] theorem addErr_hub_measure (e : ErrRec) (s : State) : (addErr e s).hub.measure = s.hub.measure := rfl
@[simp] theorem addErr_hub_credits (e : ErrRec) (s : State) : (addErr e s).hub.credits = s.hub.credits := rfl
@[simp] theorem addErr_hub_discarded (e : ErrRec) (s : State) : (addErr e s).hub.discarded = s.hub.discarded := rfl
@[simp] theorem addErr_hub_pcieDone (e : ErrRec) (s : State) : (addErr e s).hub.pcieDone = s.hub.pcieDone := rfl
@[simp] theorem addErr_hub_temps (e : ErrRec) (s : State) : (addErr e s).hub.temps = s.hub.temps := rfl
@[simp] theorem addErr_hub_config (e : ErrRec) (s : State) : (addErr e s).hub.config = s.hub.config := rfl
@[simp] theorem addErr_hub_walkerServed (e : ErrRec) (s : State) : (addErr e s).hub.walkerServed = s.hub.walkerServed := rfl
@[simp] theorem addErr_hub_powerRate (e : ErrRec) (s : State) : (addErr e s).hub.powerRate = s.hub.powerRate := rfl
@[simp] theorem postIrq_hub_counters (v : Nat) (d : Option Word32) (n : Option (Nat × Nat)) (s : State) : (postIrq v d n s).hub.counters = s.hub.counters := rfl
@[simp] theorem postIrq_hub_incs (v : Nat) (d : Option Word32) (n : Option (Nat × Nat)) (s : State) : (postIrq v d n s).hub.incs = s.hub.incs := rfl
@[simp] theorem postIrq_hub_launches (v : Nat) (d : Option Word32) (n : Option (Nat × Nat)) (s : State) : (postIrq v d n s).hub.launches = s.hub.launches := rfl
@[simp] theorem postIrq_hub_graphs (v : Nat) (d : Option Word32) (n : Option (Nat × Nat)) (s : State) : (postIrq v d n s).hub.graphs = s.hub.graphs := rfl
@[simp] theorem postIrq_hub_phases (v : Nat) (d : Option Word32) (n : Option (Nat × Nat)) (s : State) : (postIrq v d n s).hub.phases = s.hub.phases := rfl
@[simp] theorem postIrq_hub_jobs (v : Nat) (d : Option Word32) (n : Option (Nat × Nat)) (s : State) : (postIrq v d n s).hub.jobs = s.hub.jobs := rfl
@[simp] theorem postIrq_hub_ready (v : Nat) (d : Option Word32) (n : Option (Nat × Nat)) (s : State) : (postIrq v d n s).hub.ready = s.hub.ready := rfl
@[simp] theorem postIrq_hub_deficits (v : Nat) (d : Option Word32) (n : Option (Nat × Nat)) (s : State) : (postIrq v d n s).hub.deficits = s.hub.deficits := rfl
@[simp] theorem postIrq_hub_turn (v : Nat) (d : Option Word32) (n : Option (Nat × Nat)) (s : State) : (postIrq v d n s).hub.turn = s.hub.turn := rfl
@[simp] theorem postIrq_hub_quanta (v : Nat) (d : Option Word32) (n : Option (Nat × Nat)) (s : State) : (postIrq v d n s).hub.quanta = s.hub.quanta := rfl
@[simp] theorem postIrq_hub_grace (v : Nat) (d : Option Word32) (n : Option (Nat × Nat)) (s : State) : (postIrq v d n s).hub.grace = s.hub.grace := rfl
@[simp] theorem postIrq_hub_slice (v : Nat) (d : Option Word32) (n : Option (Nat × Nat)) (s : State) : (postIrq v d n s).hub.slice = s.hub.slice := rfl
@[simp] theorem postIrq_hub_reqs (v : Nat) (d : Option Word32) (n : Option (Nat × Nat)) (s : State) : (postIrq v d n s).hub.reqs = s.hub.reqs := rfl
@[simp] theorem postIrq_hub_barriers (v : Nat) (d : Option Word32) (n : Option (Nat × Nat)) (s : State) : (postIrq v d n s).hub.barriers = s.hub.barriers := rfl
@[simp] theorem postIrq_hub_sets (v : Nat) (d : Option Word32) (n : Option (Nat × Nat)) (s : State) : (postIrq v d n s).hub.sets = s.hub.sets := rfl
@[simp] theorem postIrq_hub_keys (v : Nat) (d : Option Word32) (n : Option (Nat × Nat)) (s : State) : (postIrq v d n s).hub.keys = s.hub.keys := rfl
@[simp] theorem postIrq_hub_nextKey (v : Nat) (d : Option Word32) (n : Option (Nat × Nat)) (s : State) : (postIrq v d n s).hub.nextKey = s.hub.nextKey := rfl
@[simp] theorem postIrq_hub_sealed (v : Nat) (d : Option Word32) (n : Option (Nat × Nat)) (s : State) : (postIrq v d n s).hub.sealed = s.hub.sealed := rfl
@[simp] theorem postIrq_hub_mailDone (v : Nat) (d : Option Word32) (n : Option (Nat × Nat)) (s : State) : (postIrq v d n s).hub.mailDone = s.hub.mailDone := rfl
@[simp] theorem postIrq_hub_closing (v : Nat) (d : Option Word32) (n : Option (Nat × Nat)) (s : State) : (postIrq v d n s).hub.closing = s.hub.closing := rfl
@[simp] theorem postIrq_hub_weights (v : Nat) (d : Option Word32) (n : Option (Nat × Nat)) (s : State) : (postIrq v d n s).hub.weights = s.hub.weights := rfl
@[simp] theorem postIrq_hub_portLost (v : Nat) (d : Option Word32) (n : Option (Nat × Nat)) (s : State) : (postIrq v d n s).hub.portLost = s.hub.portLost := rfl
@[simp] theorem postIrq_hub_ringLost (v : Nat) (d : Option Word32) (n : Option (Nat × Nat)) (s : State) : (postIrq v d n s).hub.ringLost = s.hub.ringLost := rfl
@[simp] theorem postIrq_hub_epochs (v : Nat) (d : Option Word32) (n : Option (Nat × Nat)) (s : State) : (postIrq v d n s).hub.epochs = s.hub.epochs := rfl
@[simp] theorem postIrq_hub_records (v : Nat) (d : Option Word32) (n : Option (Nat × Nat)) (s : State) : (postIrq v d n s).hub.records = s.hub.records := rfl
@[simp] theorem postIrq_hub_sessions (v : Nat) (d : Option Word32) (n : Option (Nat × Nat)) (s : State) : (postIrq v d n s).hub.sessions = s.hub.sessions := rfl
@[simp] theorem postIrq_hub_messages (v : Nat) (d : Option Word32) (n : Option (Nat × Nat)) (s : State) : (postIrq v d n s).hub.messages = s.hub.messages := rfl
@[simp] theorem postIrq_hub_sequences (v : Nat) (d : Option Word32) (n : Option (Nat × Nat)) (s : State) : (postIrq v d n s).hub.sequences = s.hub.sequences := rfl
@[simp] theorem postIrq_hub_members (v : Nat) (d : Option Word32) (n : Option (Nat × Nat)) (s : State) : (postIrq v d n s).hub.members = s.hub.members := rfl
@[simp] theorem postIrq_hub_stopped (v : Nat) (d : Option Word32) (n : Option (Nat × Nat)) (s : State) : (postIrq v d n s).hub.stopped = s.hub.stopped := rfl
@[simp] theorem postIrq_hub_quiesce (v : Nat) (d : Option Word32) (n : Option (Nat × Nat)) (s : State) : (postIrq v d n s).hub.quiesce = s.hub.quiesce := rfl
@[simp] theorem postIrq_hub_thermal (v : Nat) (d : Option Word32) (n : Option (Nat × Nat)) (s : State) : (postIrq v d n s).hub.thermal = s.hub.thermal := rfl
@[simp] theorem postIrq_hub_stay (v : Nat) (d : Option Word32) (n : Option (Nat × Nat)) (s : State) : (postIrq v d n s).hub.stay = s.hub.stay := rfl
@[simp] theorem postIrq_hub_imageSeq (v : Nat) (d : Option Word32) (n : Option (Nat × Nat)) (s : State) : (postIrq v d n s).hub.imageSeq = s.hub.imageSeq := rfl
@[simp] theorem postIrq_hub_quiescedAt (v : Nat) (d : Option Word32) (n : Option (Nat × Nat)) (s : State) : (postIrq v d n s).hub.quiescedAt = s.hub.quiescedAt := rfl
@[simp] theorem postIrq_hub_deferred (v : Nat) (d : Option Word32) (n : Option (Nat × Nat)) (s : State) : (postIrq v d n s).hub.deferred = s.hub.deferred := rfl
@[simp] theorem postIrq_hub_fenced (v : Nat) (d : Option Word32) (n : Option (Nat × Nat)) (s : State) : (postIrq v d n s).hub.fenced = s.hub.fenced := rfl
@[simp] theorem postIrq_hub_fencing (v : Nat) (d : Option Word32) (n : Option (Nat × Nat)) (s : State) : (postIrq v d n s).hub.fencing = s.hub.fencing := rfl
@[simp] theorem postIrq_hub_descheduled (v : Nat) (d : Option Word32) (n : Option (Nat × Nat)) (s : State) : (postIrq v d n s).hub.descheduled = s.hub.descheduled := rfl
@[simp] theorem postIrq_hub_errors (v : Nat) (d : Option Word32) (n : Option (Nat × Nat)) (s : State) : (postIrq v d n s).hub.errors = s.hub.errors := rfl
@[simp] theorem postIrq_hub_errorLimits (v : Nat) (d : Option Word32) (n : Option (Nat × Nat)) (s : State) : (postIrq v d n s).hub.errorLimits = s.hub.errorLimits := rfl
@[simp] theorem postIrq_hub_portClosed (v : Nat) (d : Option Word32) (n : Option (Nat × Nat)) (s : State) : (postIrq v d n s).hub.portClosed = s.hub.portClosed := rfl
@[simp] theorem postIrq_hub_portAsids (v : Nat) (d : Option Word32) (n : Option (Nat × Nat)) (s : State) : (postIrq v d n s).hub.portAsids = s.hub.portAsids := rfl
@[simp] theorem postIrq_hub_measure (v : Nat) (d : Option Word32) (n : Option (Nat × Nat)) (s : State) : (postIrq v d n s).hub.measure = s.hub.measure := rfl
@[simp] theorem postIrq_hub_credits (v : Nat) (d : Option Word32) (n : Option (Nat × Nat)) (s : State) : (postIrq v d n s).hub.credits = s.hub.credits := rfl
@[simp] theorem postIrq_hub_discarded (v : Nat) (d : Option Word32) (n : Option (Nat × Nat)) (s : State) : (postIrq v d n s).hub.discarded = s.hub.discarded := rfl
@[simp] theorem postIrq_hub_pcieDone (v : Nat) (d : Option Word32) (n : Option (Nat × Nat)) (s : State) : (postIrq v d n s).hub.pcieDone = s.hub.pcieDone := rfl
@[simp] theorem postIrq_hub_temps (v : Nat) (d : Option Word32) (n : Option (Nat × Nat)) (s : State) : (postIrq v d n s).hub.temps = s.hub.temps := rfl
@[simp] theorem postIrq_hub_config (v : Nat) (d : Option Word32) (n : Option (Nat × Nat)) (s : State) : (postIrq v d n s).hub.config = s.hub.config := rfl
@[simp] theorem postIrq_hub_walkerServed (v : Nat) (d : Option Word32) (n : Option (Nat × Nat)) (s : State) : (postIrq v d n s).hub.walkerServed = s.hub.walkerServed := rfl
@[simp] theorem postIrq_hub_powerRate (v : Nat) (d : Option Word32) (n : Option (Nat × Nat)) (s : State) : (postIrq v d n s).hub.powerRate = s.hub.powerRate := rfl
@[simp] theorem advanceEpoch_hub_counters (a : BitVec 12) (s : State) : (advanceEpoch a s).hub.counters = s.hub.counters := rfl
@[simp] theorem advanceEpoch_hub_incs (a : BitVec 12) (s : State) : (advanceEpoch a s).hub.incs = s.hub.incs := rfl
@[simp] theorem advanceEpoch_hub_launches (a : BitVec 12) (s : State) : (advanceEpoch a s).hub.launches = s.hub.launches := rfl
@[simp] theorem advanceEpoch_hub_graphs (a : BitVec 12) (s : State) : (advanceEpoch a s).hub.graphs = s.hub.graphs := rfl
@[simp] theorem advanceEpoch_hub_phases (a : BitVec 12) (s : State) : (advanceEpoch a s).hub.phases = s.hub.phases := rfl
@[simp] theorem advanceEpoch_hub_jobs (a : BitVec 12) (s : State) : (advanceEpoch a s).hub.jobs = s.hub.jobs := rfl
@[simp] theorem advanceEpoch_hub_ready (a : BitVec 12) (s : State) : (advanceEpoch a s).hub.ready = s.hub.ready := rfl
@[simp] theorem advanceEpoch_hub_deficits (a : BitVec 12) (s : State) : (advanceEpoch a s).hub.deficits = s.hub.deficits := rfl
@[simp] theorem advanceEpoch_hub_turn (a : BitVec 12) (s : State) : (advanceEpoch a s).hub.turn = s.hub.turn := rfl
@[simp] theorem advanceEpoch_hub_quanta (a : BitVec 12) (s : State) : (advanceEpoch a s).hub.quanta = s.hub.quanta := rfl
@[simp] theorem advanceEpoch_hub_grace (a : BitVec 12) (s : State) : (advanceEpoch a s).hub.grace = s.hub.grace := rfl
@[simp] theorem advanceEpoch_hub_slice (a : BitVec 12) (s : State) : (advanceEpoch a s).hub.slice = s.hub.slice := rfl
@[simp] theorem advanceEpoch_hub_irqs (a : BitVec 12) (s : State) : (advanceEpoch a s).hub.irqs = s.hub.irqs := rfl
@[simp] theorem advanceEpoch_hub_reqs (a : BitVec 12) (s : State) : (advanceEpoch a s).hub.reqs = s.hub.reqs := rfl
@[simp] theorem advanceEpoch_hub_barriers (a : BitVec 12) (s : State) : (advanceEpoch a s).hub.barriers = s.hub.barriers := rfl
@[simp] theorem advanceEpoch_hub_sets (a : BitVec 12) (s : State) : (advanceEpoch a s).hub.sets = s.hub.sets := rfl
@[simp] theorem advanceEpoch_hub_keys (a : BitVec 12) (s : State) : (advanceEpoch a s).hub.keys = s.hub.keys := rfl
@[simp] theorem advanceEpoch_hub_nextKey (a : BitVec 12) (s : State) : (advanceEpoch a s).hub.nextKey = s.hub.nextKey := rfl
@[simp] theorem advanceEpoch_hub_sealed (a : BitVec 12) (s : State) : (advanceEpoch a s).hub.sealed = s.hub.sealed := rfl
@[simp] theorem advanceEpoch_hub_mailDone (a : BitVec 12) (s : State) : (advanceEpoch a s).hub.mailDone = s.hub.mailDone := rfl
@[simp] theorem advanceEpoch_hub_closing (a : BitVec 12) (s : State) : (advanceEpoch a s).hub.closing = s.hub.closing := rfl
@[simp] theorem advanceEpoch_hub_weights (a : BitVec 12) (s : State) : (advanceEpoch a s).hub.weights = s.hub.weights := rfl
@[simp] theorem advanceEpoch_hub_portLost (a : BitVec 12) (s : State) : (advanceEpoch a s).hub.portLost = s.hub.portLost := rfl
@[simp] theorem advanceEpoch_hub_ringLost (a : BitVec 12) (s : State) : (advanceEpoch a s).hub.ringLost = s.hub.ringLost := rfl
@[simp] theorem advanceEpoch_hub_records (a : BitVec 12) (s : State) : (advanceEpoch a s).hub.records = s.hub.records := rfl
@[simp] theorem advanceEpoch_hub_sessions (a : BitVec 12) (s : State) : (advanceEpoch a s).hub.sessions = s.hub.sessions := rfl
@[simp] theorem advanceEpoch_hub_messages (a : BitVec 12) (s : State) : (advanceEpoch a s).hub.messages = s.hub.messages := rfl
@[simp] theorem advanceEpoch_hub_sequences (a : BitVec 12) (s : State) : (advanceEpoch a s).hub.sequences = s.hub.sequences := rfl
@[simp] theorem advanceEpoch_hub_members (a : BitVec 12) (s : State) : (advanceEpoch a s).hub.members = s.hub.members := rfl
@[simp] theorem advanceEpoch_hub_stopped (a : BitVec 12) (s : State) : (advanceEpoch a s).hub.stopped = s.hub.stopped := rfl
@[simp] theorem advanceEpoch_hub_quiesce (a : BitVec 12) (s : State) : (advanceEpoch a s).hub.quiesce = s.hub.quiesce := rfl
@[simp] theorem advanceEpoch_hub_thermal (a : BitVec 12) (s : State) : (advanceEpoch a s).hub.thermal = s.hub.thermal := rfl
@[simp] theorem advanceEpoch_hub_stay (a : BitVec 12) (s : State) : (advanceEpoch a s).hub.stay = s.hub.stay := rfl
@[simp] theorem advanceEpoch_hub_imageSeq (a : BitVec 12) (s : State) : (advanceEpoch a s).hub.imageSeq = s.hub.imageSeq := rfl
@[simp] theorem advanceEpoch_hub_quiescedAt (a : BitVec 12) (s : State) : (advanceEpoch a s).hub.quiescedAt = s.hub.quiescedAt := rfl
@[simp] theorem advanceEpoch_hub_deferred (a : BitVec 12) (s : State) : (advanceEpoch a s).hub.deferred = s.hub.deferred := rfl
@[simp] theorem advanceEpoch_hub_fenced (a : BitVec 12) (s : State) : (advanceEpoch a s).hub.fenced = s.hub.fenced := rfl
@[simp] theorem advanceEpoch_hub_fencing (a : BitVec 12) (s : State) : (advanceEpoch a s).hub.fencing = s.hub.fencing := rfl
@[simp] theorem advanceEpoch_hub_descheduled (a : BitVec 12) (s : State) : (advanceEpoch a s).hub.descheduled = s.hub.descheduled := rfl
@[simp] theorem advanceEpoch_hub_errors (a : BitVec 12) (s : State) : (advanceEpoch a s).hub.errors = s.hub.errors := rfl
@[simp] theorem advanceEpoch_hub_errorLimits (a : BitVec 12) (s : State) : (advanceEpoch a s).hub.errorLimits = s.hub.errorLimits := rfl
@[simp] theorem advanceEpoch_hub_portClosed (a : BitVec 12) (s : State) : (advanceEpoch a s).hub.portClosed = s.hub.portClosed := rfl
@[simp] theorem advanceEpoch_hub_portAsids (a : BitVec 12) (s : State) : (advanceEpoch a s).hub.portAsids = s.hub.portAsids := rfl
@[simp] theorem advanceEpoch_hub_measure (a : BitVec 12) (s : State) : (advanceEpoch a s).hub.measure = s.hub.measure := rfl
@[simp] theorem advanceEpoch_hub_credits (a : BitVec 12) (s : State) : (advanceEpoch a s).hub.credits = s.hub.credits := rfl
@[simp] theorem advanceEpoch_hub_discarded (a : BitVec 12) (s : State) : (advanceEpoch a s).hub.discarded = s.hub.discarded := rfl
@[simp] theorem advanceEpoch_hub_pcieDone (a : BitVec 12) (s : State) : (advanceEpoch a s).hub.pcieDone = s.hub.pcieDone := rfl
@[simp] theorem advanceEpoch_hub_temps (a : BitVec 12) (s : State) : (advanceEpoch a s).hub.temps = s.hub.temps := rfl
@[simp] theorem advanceEpoch_hub_config (a : BitVec 12) (s : State) : (advanceEpoch a s).hub.config = s.hub.config := rfl
@[simp] theorem advanceEpoch_hub_walkerServed (a : BitVec 12) (s : State) : (advanceEpoch a s).hub.walkerServed = s.hub.walkerServed := rfl
@[simp] theorem advanceEpoch_hub_powerRate (a : BitVec 12) (s : State) : (advanceEpoch a s).hub.powerRate = s.hub.powerRate := rfl
@[simp] theorem setKeySlot_hub_counters (k : Nat) (v : KeySlot) (s : State) : (setKeySlot k v s).hub.counters = s.hub.counters := rfl
@[simp] theorem setKeySlot_hub_incs (k : Nat) (v : KeySlot) (s : State) : (setKeySlot k v s).hub.incs = s.hub.incs := rfl
@[simp] theorem setKeySlot_hub_launches (k : Nat) (v : KeySlot) (s : State) : (setKeySlot k v s).hub.launches = s.hub.launches := rfl
@[simp] theorem setKeySlot_hub_graphs (k : Nat) (v : KeySlot) (s : State) : (setKeySlot k v s).hub.graphs = s.hub.graphs := rfl
@[simp] theorem setKeySlot_hub_phases (k : Nat) (v : KeySlot) (s : State) : (setKeySlot k v s).hub.phases = s.hub.phases := rfl
@[simp] theorem setKeySlot_hub_jobs (k : Nat) (v : KeySlot) (s : State) : (setKeySlot k v s).hub.jobs = s.hub.jobs := rfl
@[simp] theorem setKeySlot_hub_ready (k : Nat) (v : KeySlot) (s : State) : (setKeySlot k v s).hub.ready = s.hub.ready := rfl
@[simp] theorem setKeySlot_hub_deficits (k : Nat) (v : KeySlot) (s : State) : (setKeySlot k v s).hub.deficits = s.hub.deficits := rfl
@[simp] theorem setKeySlot_hub_turn (k : Nat) (v : KeySlot) (s : State) : (setKeySlot k v s).hub.turn = s.hub.turn := rfl
@[simp] theorem setKeySlot_hub_quanta (k : Nat) (v : KeySlot) (s : State) : (setKeySlot k v s).hub.quanta = s.hub.quanta := rfl
@[simp] theorem setKeySlot_hub_grace (k : Nat) (v : KeySlot) (s : State) : (setKeySlot k v s).hub.grace = s.hub.grace := rfl
@[simp] theorem setKeySlot_hub_slice (k : Nat) (v : KeySlot) (s : State) : (setKeySlot k v s).hub.slice = s.hub.slice := rfl
@[simp] theorem setKeySlot_hub_irqs (k : Nat) (v : KeySlot) (s : State) : (setKeySlot k v s).hub.irqs = s.hub.irqs := rfl
@[simp] theorem setKeySlot_hub_reqs (k : Nat) (v : KeySlot) (s : State) : (setKeySlot k v s).hub.reqs = s.hub.reqs := rfl
@[simp] theorem setKeySlot_hub_barriers (k : Nat) (v : KeySlot) (s : State) : (setKeySlot k v s).hub.barriers = s.hub.barriers := rfl
@[simp] theorem setKeySlot_hub_sets (k : Nat) (v : KeySlot) (s : State) : (setKeySlot k v s).hub.sets = s.hub.sets := rfl
@[simp] theorem setKeySlot_hub_nextKey (k : Nat) (v : KeySlot) (s : State) : (setKeySlot k v s).hub.nextKey = s.hub.nextKey := rfl
@[simp] theorem setKeySlot_hub_sealed (k : Nat) (v : KeySlot) (s : State) : (setKeySlot k v s).hub.sealed = s.hub.sealed := rfl
@[simp] theorem setKeySlot_hub_mailDone (k : Nat) (v : KeySlot) (s : State) : (setKeySlot k v s).hub.mailDone = s.hub.mailDone := rfl
@[simp] theorem setKeySlot_hub_closing (k : Nat) (v : KeySlot) (s : State) : (setKeySlot k v s).hub.closing = s.hub.closing := rfl
@[simp] theorem setKeySlot_hub_weights (k : Nat) (v : KeySlot) (s : State) : (setKeySlot k v s).hub.weights = s.hub.weights := rfl
@[simp] theorem setKeySlot_hub_portLost (k : Nat) (v : KeySlot) (s : State) : (setKeySlot k v s).hub.portLost = s.hub.portLost := rfl
@[simp] theorem setKeySlot_hub_ringLost (k : Nat) (v : KeySlot) (s : State) : (setKeySlot k v s).hub.ringLost = s.hub.ringLost := rfl
@[simp] theorem setKeySlot_hub_epochs (k : Nat) (v : KeySlot) (s : State) : (setKeySlot k v s).hub.epochs = s.hub.epochs := rfl
@[simp] theorem setKeySlot_hub_records (k : Nat) (v : KeySlot) (s : State) : (setKeySlot k v s).hub.records = s.hub.records := rfl
@[simp] theorem setKeySlot_hub_sessions (k : Nat) (v : KeySlot) (s : State) : (setKeySlot k v s).hub.sessions = s.hub.sessions := rfl
@[simp] theorem setKeySlot_hub_messages (k : Nat) (v : KeySlot) (s : State) : (setKeySlot k v s).hub.messages = s.hub.messages := rfl
@[simp] theorem setKeySlot_hub_sequences (k : Nat) (v : KeySlot) (s : State) : (setKeySlot k v s).hub.sequences = s.hub.sequences := rfl
@[simp] theorem setKeySlot_hub_members (k : Nat) (v : KeySlot) (s : State) : (setKeySlot k v s).hub.members = s.hub.members := rfl
@[simp] theorem setKeySlot_hub_stopped (k : Nat) (v : KeySlot) (s : State) : (setKeySlot k v s).hub.stopped = s.hub.stopped := rfl
@[simp] theorem setKeySlot_hub_quiesce (k : Nat) (v : KeySlot) (s : State) : (setKeySlot k v s).hub.quiesce = s.hub.quiesce := rfl
@[simp] theorem setKeySlot_hub_thermal (k : Nat) (v : KeySlot) (s : State) : (setKeySlot k v s).hub.thermal = s.hub.thermal := rfl
@[simp] theorem setKeySlot_hub_stay (k : Nat) (v : KeySlot) (s : State) : (setKeySlot k v s).hub.stay = s.hub.stay := rfl
@[simp] theorem setKeySlot_hub_imageSeq (k : Nat) (v : KeySlot) (s : State) : (setKeySlot k v s).hub.imageSeq = s.hub.imageSeq := rfl
@[simp] theorem setKeySlot_hub_quiescedAt (k : Nat) (v : KeySlot) (s : State) : (setKeySlot k v s).hub.quiescedAt = s.hub.quiescedAt := rfl
@[simp] theorem setKeySlot_hub_deferred (k : Nat) (v : KeySlot) (s : State) : (setKeySlot k v s).hub.deferred = s.hub.deferred := rfl
@[simp] theorem setKeySlot_hub_fenced (k : Nat) (v : KeySlot) (s : State) : (setKeySlot k v s).hub.fenced = s.hub.fenced := rfl
@[simp] theorem setKeySlot_hub_fencing (k : Nat) (v : KeySlot) (s : State) : (setKeySlot k v s).hub.fencing = s.hub.fencing := rfl
@[simp] theorem setKeySlot_hub_descheduled (k : Nat) (v : KeySlot) (s : State) : (setKeySlot k v s).hub.descheduled = s.hub.descheduled := rfl
@[simp] theorem setKeySlot_hub_errors (k : Nat) (v : KeySlot) (s : State) : (setKeySlot k v s).hub.errors = s.hub.errors := rfl
@[simp] theorem setKeySlot_hub_errorLimits (k : Nat) (v : KeySlot) (s : State) : (setKeySlot k v s).hub.errorLimits = s.hub.errorLimits := rfl
@[simp] theorem setKeySlot_hub_portClosed (k : Nat) (v : KeySlot) (s : State) : (setKeySlot k v s).hub.portClosed = s.hub.portClosed := rfl
@[simp] theorem setKeySlot_hub_portAsids (k : Nat) (v : KeySlot) (s : State) : (setKeySlot k v s).hub.portAsids = s.hub.portAsids := rfl
@[simp] theorem setKeySlot_hub_measure (k : Nat) (v : KeySlot) (s : State) : (setKeySlot k v s).hub.measure = s.hub.measure := rfl
@[simp] theorem setKeySlot_hub_credits (k : Nat) (v : KeySlot) (s : State) : (setKeySlot k v s).hub.credits = s.hub.credits := rfl
@[simp] theorem setKeySlot_hub_discarded (k : Nat) (v : KeySlot) (s : State) : (setKeySlot k v s).hub.discarded = s.hub.discarded := rfl
@[simp] theorem setKeySlot_hub_pcieDone (k : Nat) (v : KeySlot) (s : State) : (setKeySlot k v s).hub.pcieDone = s.hub.pcieDone := rfl
@[simp] theorem setKeySlot_hub_temps (k : Nat) (v : KeySlot) (s : State) : (setKeySlot k v s).hub.temps = s.hub.temps := rfl
@[simp] theorem setKeySlot_hub_config (k : Nat) (v : KeySlot) (s : State) : (setKeySlot k v s).hub.config = s.hub.config := rfl
@[simp] theorem setKeySlot_hub_walkerServed (k : Nat) (v : KeySlot) (s : State) : (setKeySlot k v s).hub.walkerServed = s.hub.walkerServed := rfl
@[simp] theorem setKeySlot_hub_powerRate (k : Nat) (v : KeySlot) (s : State) : (setKeySlot k v s).hub.powerRate = s.hub.powerRate := rfl

/-! ### What completing an instruction does to the strand -/

@[simp] theorem advance_strand_id (s : State) : (advance s).strand.id = s.strand.id := rfl
@[simp] theorem advance_strand_count (s : State) : (advance s).strand.count = s.strand.count := rfl
@[simp] theorem advance_strand_asid (s : State) : (advance s).strand.asid = s.strand.asid := rfl
@[simp] theorem advance_strand_hoop (s : State) : (advance s).strand.hoop = s.strand.hoop := rfl
@[simp] theorem advance_strand_slot (s : State) : (advance s).strand.slot = s.strand.slot := rfl
@[simp] theorem advance_strand_level (s : State) : (advance s).strand.level = s.strand.level := rfl
@[simp] theorem advance_strand_resumeTo (s : State) : (advance s).strand.resumeTo = s.strand.resumeTo := rfl
@[simp] theorem advance_strand_haltReason (s : State) : (advance s).strand.haltReason = s.strand.haltReason := rfl
@[simp] theorem advance_strand_x (s : State) : (advance s).strand.x = s.strand.x := rfl
@[simp] theorem advance_strand_empty (s : State) : (advance s).strand.empty = s.strand.empty := rfl
@[simp] theorem advance_strand_csr (s : State) : (advance s).strand.csr = s.strand.csr := rfl
@[simp] theorem advance_strand_vl (s : State) : (advance s).strand.vl = s.strand.vl := rfl
@[simp] theorem advance_strand_vtype (s : State) : (advance s).strand.vtype = s.strand.vtype := rfl
@[simp] theorem advance_strand_mtype (s : State) : (advance s).strand.mtype = s.strand.mtype := rfl
@[simp] theorem advance_strand_zeroed (s : State) : (advance s).strand.zeroed = s.strand.zeroed := rfl
@[simp] theorem advance_strand_v (s : State) : (advance s).strand.v = s.strand.v := rfl
@[simp] theorem advance_strand_vpoison (s : State) : (advance s).strand.vpoison = s.strand.vpoison := rfl
@[simp] theorem advance_strand_tags (s : State) : (advance s).strand.tags = s.strand.tags := rfl
@[simp] theorem advance_strand_q (s : State) : (advance s).strand.q = s.strand.q := rfl
@[simp] theorem advance_strand_tiles (s : State) : (advance s).strand.tiles = s.strand.tiles := rfl
@[simp] theorem advance_strand_arrays (s : State) : (advance s).strand.arrays = s.strand.arrays := rfl
@[simp] theorem advance_strand_followers (s : State) : (advance s).strand.followers = s.strand.followers := rfl
@[simp] theorem advance_strand_pendingGrant (s : State) : (advance s).strand.pendingGrant = s.strand.pendingGrant := rfl
@[simp] theorem advance_strand_tokens (s : State) : (advance s).strand.tokens = s.strand.tokens := rfl
@[simp] theorem advance_strand_vq (s : State) : (advance s).strand.vq = s.strand.vq := rfl
@[simp] theorem advance_strand_mq (s : State) : (advance s).strand.mq = s.strand.mq := rfl
@[simp] theorem advance_strand_cq (s : State) : (advance s).strand.cq = s.strand.cq := rfl
@[simp] theorem advance_strand_nq (s : State) : (advance s).strand.nq = s.strand.nq := rfl
@[simp] theorem advance_strand_dumpedV (s : State) : (advance s).strand.dumpedV = s.strand.dumpedV := rfl
@[simp] theorem advance_strand_dumpedE (s : State) : (advance s).strand.dumpedE = s.strand.dumpedE := rfl
@[simp] theorem advance_strand_lateLists (s : State) : (advance s).strand.lateLists = s.strand.lateLists := rfl
@[simp] theorem advance_strand_pending (s : State) : (advance s).strand.pending = s.strand.pending := rfl
@[simp] theorem advance_strand_fePend (s : State) : (advance s).strand.fePend = s.strand.fePend := rfl
@[simp] theorem advance_strand_asked (s : State) : (advance s).strand.asked = s.strand.asked := rfl
@[simp] theorem advance_strand_haltWait (s : State) : (advance s).strand.haltWait = s.strand.haltWait := rfl
@[simp] theorem advance_strand_resv (s : State) : (advance s).strand.resv = s.strand.resv := rfl
@[simp] theorem advance_strand_links (s : State) : (advance s).strand.links = s.strand.links := rfl
@[simp] theorem advance_strand_recvq (s : State) : (advance s).strand.recvq = s.strand.recvq := rfl
@[simp] theorem advance_strand_barPending (s : State) : (advance s).strand.barPending = s.strand.barPending := rfl
@[simp] theorem advance_strand_barArrived (s : State) : (advance s).strand.barArrived = s.strand.barArrived := rfl
@[simp] theorem advance_strand_startAc (s : State) : (advance s).strand.startAc = s.strand.startAc := rfl
@[simp] theorem advance_strand_slip (s : State) : (advance s).strand.slip = s.strand.slip := rfl
@[simp] theorem advance_strand_subs (s : State) : (advance s).strand.subs = s.strand.subs := rfl
@[simp] theorem advance_strand_cancelled (s : State) : (advance s).strand.cancelled = s.strand.cancelled := rfl
@[simp] theorem advance_strand_preempt (s : State) : (advance s).strand.preempt = s.strand.preempt := rfl
@[simp] theorem advance_strand_graceOut (s : State) : (advance s).strand.graceOut = s.strand.graceOut := rfl
@[simp] theorem advance_strand_idling (s : State) : (advance s).strand.idling = s.strand.idling := rfl
@[simp] theorem advance_strand_woken (s : State) : (advance s).strand.woken = s.strand.woken := rfl
@[simp] theorem advance_strand_dbgStep (s : State) : (advance s).strand.dbgStep = s.strand.dbgStep := rfl
@[simp] theorem advance_strand_dbgElem (s : State) : (advance s).strand.dbgElem = s.strand.dbgElem := rfl
@[simp] theorem advance_strand_dbgTrap (s : State) : (advance s).strand.dbgTrap = s.strand.dbgTrap := rfl
@[simp] theorem advance_strand_dbgArmed (s : State) : (advance s).strand.dbgArmed = s.strand.dbgArmed := rfl
@[simp] theorem advance_strand_editImage (s : State) : (advance s).strand.editImage = s.strand.editImage := rfl
@[simp] theorem advance_strand_saveArea (s : State) : (advance s).strand.saveArea = s.strand.saveArea := rfl
@[simp] theorem advance_strand_saveNamed (s : State) : (advance s).strand.saveNamed = s.strand.saveNamed := rfl
@[simp] theorem advance_strand_saveSec (s : State) : (advance s).strand.saveSec = s.strand.saveSec := rfl
@[simp] theorem advance_strand_saveOff (s : State) : (advance s).strand.saveOff = s.strand.saveOff := rfl
@[simp] theorem advance_strand_saveStop (s : State) : (advance s).strand.saveStop = s.strand.saveStop := rfl
@[simp] theorem advance_strand_savedEngines (s : State) : (advance s).strand.savedEngines = s.strand.savedEngines := rfl
@[simp] theorem advance_strand_haltDue (s : State) : (advance s).strand.haltDue = s.strand.haltDue := rfl
@[simp] theorem advance_strand_due (s : State) : (advance s).strand.due = s.strand.due := rfl
@[simp] theorem advance_strand_graceAc (s : State) : (advance s).strand.graceAc = s.strand.graceAc := rfl
@[simp] theorem advance_strand_sliceAc (s : State) : (advance s).strand.sliceAc = s.strand.sliceAc := rfl
@[simp] theorem advance_strand_node (s : State) : (advance s).strand.node = s.strand.node := rfl
@[simp] theorem jump_strand_id (t : Word) (s : State) : (jump t s).strand.id = s.strand.id := rfl
@[simp] theorem jump_strand_count (t : Word) (s : State) : (jump t s).strand.count = s.strand.count := rfl
@[simp] theorem jump_strand_asid (t : Word) (s : State) : (jump t s).strand.asid = s.strand.asid := rfl
@[simp] theorem jump_strand_hoop (t : Word) (s : State) : (jump t s).strand.hoop = s.strand.hoop := rfl
@[simp] theorem jump_strand_slot (t : Word) (s : State) : (jump t s).strand.slot = s.strand.slot := rfl
@[simp] theorem jump_strand_level (t : Word) (s : State) : (jump t s).strand.level = s.strand.level := rfl
@[simp] theorem jump_strand_resumeTo (t : Word) (s : State) : (jump t s).strand.resumeTo = s.strand.resumeTo := rfl
@[simp] theorem jump_strand_haltReason (t : Word) (s : State) : (jump t s).strand.haltReason = s.strand.haltReason := rfl
@[simp] theorem jump_strand_x (t : Word) (s : State) : (jump t s).strand.x = s.strand.x := rfl
@[simp] theorem jump_strand_empty (t : Word) (s : State) : (jump t s).strand.empty = s.strand.empty := rfl
@[simp] theorem jump_strand_loops (t : Word) (s : State) : (jump t s).strand.loops = s.strand.loops := rfl
@[simp] theorem jump_strand_csr (t : Word) (s : State) : (jump t s).strand.csr = s.strand.csr := rfl
@[simp] theorem jump_strand_vl (t : Word) (s : State) : (jump t s).strand.vl = s.strand.vl := rfl
@[simp] theorem jump_strand_vtype (t : Word) (s : State) : (jump t s).strand.vtype = s.strand.vtype := rfl
@[simp] theorem jump_strand_mtype (t : Word) (s : State) : (jump t s).strand.mtype = s.strand.mtype := rfl
@[simp] theorem jump_strand_zeroed (t : Word) (s : State) : (jump t s).strand.zeroed = s.strand.zeroed := rfl
@[simp] theorem jump_strand_v (t : Word) (s : State) : (jump t s).strand.v = s.strand.v := rfl
@[simp] theorem jump_strand_vpoison (t : Word) (s : State) : (jump t s).strand.vpoison = s.strand.vpoison := rfl
@[simp] theorem jump_strand_tags (t : Word) (s : State) : (jump t s).strand.tags = s.strand.tags := rfl
@[simp] theorem jump_strand_q (t : Word) (s : State) : (jump t s).strand.q = s.strand.q := rfl
@[simp] theorem jump_strand_tiles (t : Word) (s : State) : (jump t s).strand.tiles = s.strand.tiles := rfl
@[simp] theorem jump_strand_arrays (t : Word) (s : State) : (jump t s).strand.arrays = s.strand.arrays := rfl
@[simp] theorem jump_strand_followers (t : Word) (s : State) : (jump t s).strand.followers = s.strand.followers := rfl
@[simp] theorem jump_strand_pendingGrant (t : Word) (s : State) : (jump t s).strand.pendingGrant = s.strand.pendingGrant := rfl
@[simp] theorem jump_strand_tokens (t : Word) (s : State) : (jump t s).strand.tokens = s.strand.tokens := rfl
@[simp] theorem jump_strand_vq (t : Word) (s : State) : (jump t s).strand.vq = s.strand.vq := rfl
@[simp] theorem jump_strand_mq (t : Word) (s : State) : (jump t s).strand.mq = s.strand.mq := rfl
@[simp] theorem jump_strand_cq (t : Word) (s : State) : (jump t s).strand.cq = s.strand.cq := rfl
@[simp] theorem jump_strand_nq (t : Word) (s : State) : (jump t s).strand.nq = s.strand.nq := rfl
@[simp] theorem jump_strand_dumpedV (t : Word) (s : State) : (jump t s).strand.dumpedV = s.strand.dumpedV := rfl
@[simp] theorem jump_strand_dumpedE (t : Word) (s : State) : (jump t s).strand.dumpedE = s.strand.dumpedE := rfl
@[simp] theorem jump_strand_lateLists (t : Word) (s : State) : (jump t s).strand.lateLists = s.strand.lateLists := rfl
@[simp] theorem jump_strand_pending (t : Word) (s : State) : (jump t s).strand.pending = s.strand.pending := rfl
@[simp] theorem jump_strand_fePend (t : Word) (s : State) : (jump t s).strand.fePend = s.strand.fePend := rfl
@[simp] theorem jump_strand_asked (t : Word) (s : State) : (jump t s).strand.asked = s.strand.asked := rfl
@[simp] theorem jump_strand_haltWait (t : Word) (s : State) : (jump t s).strand.haltWait = s.strand.haltWait := rfl
@[simp] theorem jump_strand_resv (t : Word) (s : State) : (jump t s).strand.resv = s.strand.resv := rfl
@[simp] theorem jump_strand_links (t : Word) (s : State) : (jump t s).strand.links = s.strand.links := rfl
@[simp] theorem jump_strand_recvq (t : Word) (s : State) : (jump t s).strand.recvq = s.strand.recvq := rfl
@[simp] theorem jump_strand_barPending (t : Word) (s : State) : (jump t s).strand.barPending = s.strand.barPending := rfl
@[simp] theorem jump_strand_barArrived (t : Word) (s : State) : (jump t s).strand.barArrived = s.strand.barArrived := rfl
@[simp] theorem jump_strand_startAc (t : Word) (s : State) : (jump t s).strand.startAc = s.strand.startAc := rfl
@[simp] theorem jump_strand_slip (t : Word) (s : State) : (jump t s).strand.slip = s.strand.slip := rfl
@[simp] theorem jump_strand_subs (t : Word) (s : State) : (jump t s).strand.subs = s.strand.subs := rfl
@[simp] theorem jump_strand_cancelled (t : Word) (s : State) : (jump t s).strand.cancelled = s.strand.cancelled := rfl
@[simp] theorem jump_strand_preempt (t : Word) (s : State) : (jump t s).strand.preempt = s.strand.preempt := rfl
@[simp] theorem jump_strand_graceOut (t : Word) (s : State) : (jump t s).strand.graceOut = s.strand.graceOut := rfl
@[simp] theorem jump_strand_idling (t : Word) (s : State) : (jump t s).strand.idling = s.strand.idling := rfl
@[simp] theorem jump_strand_woken (t : Word) (s : State) : (jump t s).strand.woken = s.strand.woken := rfl
@[simp] theorem jump_strand_dbgStep (t : Word) (s : State) : (jump t s).strand.dbgStep = s.strand.dbgStep := rfl
@[simp] theorem jump_strand_dbgElem (t : Word) (s : State) : (jump t s).strand.dbgElem = s.strand.dbgElem := rfl
@[simp] theorem jump_strand_dbgTrap (t : Word) (s : State) : (jump t s).strand.dbgTrap = s.strand.dbgTrap := rfl
@[simp] theorem jump_strand_dbgArmed (t : Word) (s : State) : (jump t s).strand.dbgArmed = s.strand.dbgArmed := rfl
@[simp] theorem jump_strand_editImage (t : Word) (s : State) : (jump t s).strand.editImage = s.strand.editImage := rfl
@[simp] theorem jump_strand_saveArea (t : Word) (s : State) : (jump t s).strand.saveArea = s.strand.saveArea := rfl
@[simp] theorem jump_strand_saveNamed (t : Word) (s : State) : (jump t s).strand.saveNamed = s.strand.saveNamed := rfl
@[simp] theorem jump_strand_saveSec (t : Word) (s : State) : (jump t s).strand.saveSec = s.strand.saveSec := rfl
@[simp] theorem jump_strand_saveOff (t : Word) (s : State) : (jump t s).strand.saveOff = s.strand.saveOff := rfl
@[simp] theorem jump_strand_saveStop (t : Word) (s : State) : (jump t s).strand.saveStop = s.strand.saveStop := rfl
@[simp] theorem jump_strand_savedEngines (t : Word) (s : State) : (jump t s).strand.savedEngines = s.strand.savedEngines := rfl
@[simp] theorem jump_strand_haltDue (t : Word) (s : State) : (jump t s).strand.haltDue = s.strand.haltDue := rfl
@[simp] theorem jump_strand_due (t : Word) (s : State) : (jump t s).strand.due = s.strand.due := rfl
@[simp] theorem jump_strand_graceAc (t : Word) (s : State) : (jump t s).strand.graceAc = s.strand.graceAc := rfl
@[simp] theorem jump_strand_sliceAc (t : Word) (s : State) : (jump t s).strand.sliceAc = s.strand.sliceAc := rfl
@[simp] theorem jump_strand_node (t : Word) (s : State) : (jump t s).strand.node = s.strand.node := rfl

@[simp] theorem advance_strand_pc (s : State) : (advance s).strand.pc = (loopEnd s.strand.pc s.strand.loops).1 := rfl
@[simp] theorem advance_strand_instret (s : State) : (advance s).strand.instret = s.strand.instret + 1 := rfl
@[simp] theorem jump_strand_pc (t : Word) (s : State) : (jump t s).strand.pc = t := rfl
@[simp] theorem jump_strand_instret (t : Word) (s : State) : (jump t s).strand.instret = s.strand.instret + 1 := rfl

/-! ### Registers -/

@[simp] theorem readReg_zero (t : Strand) : readReg t 0 = 0 := rfl

@[simp] theorem writeReg_zero (t : Strand) (v : Word) : writeReg t 0 v = t := rfl

/-- A register reads as it was written (R44). -/
theorem readReg_writeReg_same (t : Strand) (r : Reg) (v : Word) (h : r ≠ 0) : readReg (writeReg t r v) r = v := by
  unfold readReg writeReg
  rw [if_neg h, if_neg h]
  show (t.x.set r.toNat v r.isLt)[r.toNat]'r.isLt = v
  simp

/-- Writing one register leaves the others (R44). -/
theorem readReg_writeReg_other (t : Strand) (r q : Reg) (v : Word) (h : q ≠ r) :
    readReg (writeReg t r v) q = readReg t q := by
  have hn : r.toNat ≠ q.toNat := fun e => h (BitVec.eq_of_toNat_eq e.symm)
  unfold readReg writeReg
  split
  · rfl
  · split
    · rfl
    · show (t.x.set r.toNat v r.isLt)[q.toNat]'q.isLt = t.x[q.toNat]'q.isLt
      simp [hn]

theorem isEmpty_writeReg (t : Strand) (r q : Reg) (v : Word) : isEmpty (writeReg t r v) q = isEmpty t q := by
  simp [isEmpty]

@[simp] theorem isEmpty_zero (t : Strand) : isEmpty t 0 = false := rfl

end Sys2Proof.Machine
end

