-- ==== Sys2Proof/Laws/Vector.lean ====
section
/-! SUPPORT. Vector registers: an element reads as it was written, other elements read as before, and what a list of
writes leaves. -/

namespace Sys2Proof.Machine

set_option Elab.async false

/-! ### Fields -/

theorem natBits_eq (x lo w : Nat) (hw : 0 < w) : natBits x (lo + w - 1) lo = x / 2 ^ lo % 2 ^ w := by
  unfold natBits
  congr 2
  omega

theorem testBit_pow_sub_one_mul (w off j : Nat) : ((2 ^ w - 1) * 2 ^ off).testBit j = 
    (decide (off ≤ j) && decide (j < off + w)) := by
  rw [← Nat.shiftLeft_eq, Nat.testBit_shiftLeft, Nat.testBit_two_pow_sub_one]
  by_cases h : off ≤ j <;> simp [h]; omega

theorem testBit_putBits (old : BitVec 32) (off w v j : Nat) (h : off + w ≤ 32) :
    (putBits old off w v).toNat.testBit j =
      if off ≤ j ∧ j < off + w then v.testBit (j - off) else old.toNat.testBit j := by
  rw [BitVec.testBit_toNat]
  unfold putBits
  by_cases hj : j < 32
  · simp only [BitVec.getLsbD_or, BitVec.getLsbD_and, BitVec.getLsbD_not, BitVec.getLsbD_ofNat, hj, decide_true,
      Bool.true_and, testBit_pow_sub_one_mul, BitVec.testBit_toNat]
    by_cases h1 : off ≤ j <;> by_cases h2 : j < off + w <;>
      simp [h1, h2, ← Nat.shiftLeft_eq, Nat.testBit_shiftLeft]
  · have h1 : ¬ (off ≤ j ∧ j < off + w) := by omega
    rw [if_neg h1, BitVec.getLsbD_of_ge _ _ (by omega), BitVec.testBit_toNat, BitVec.getLsbD_of_ge _ _ (by omega)]

/-- The bits that were put into a field. -/
theorem bits_putBits_same (old : BitVec 32) (off w v : Nat) (hw : 0 < w) (h : off + w ≤ 32) :
    natBits (putBits old off w v).toNat (off + w - 1) off = v % 2 ^ w := by
  rw [natBits_eq _ _ _ hw]
  apply Nat.eq_of_testBit_eq
  intro j
  rw [Nat.testBit_mod_two_pow, Nat.testBit_mod_two_pow, Nat.testBit_div_two_pow, testBit_putBits _ _ _ _ _ h]
  by_cases hj : j < w
  · rw [if_pos (by omega)]; simp [hj]
  · simp [hj]

/-- Bits of a field apart from those that were put into it. -/
theorem bits_putBits_other (old : BitVec 32) (off w v lo k : Nat) (hk : 0 < k) (h : off + w ≤ 32)
    (hd : lo + k ≤ off ∨ off + w ≤ lo) :
    natBits (putBits old off w v).toNat (lo + k - 1) lo = natBits old.toNat (lo + k - 1) lo := by
  rw [natBits_eq _ _ _ hk, natBits_eq _ _ _ hk]
  apply Nat.eq_of_testBit_eq
  intro j
  rw [Nat.testBit_mod_two_pow, Nat.testBit_mod_two_pow, Nat.testBit_div_two_pow, Nat.testBit_div_two_pow,
    testBit_putBits _ _ _ _ _ h]
  by_cases hj : j < k
  · rw [if_neg (by omega)]
  · simp [hj]

theorem fieldsOf_setFields_same (st : Strand) (r : Nat) (m : SMap (BitVec 32)) : fieldsOf (setFields r m st) r = m := by
  simp [fieldsOf, setFields]

theorem fieldsOf_setFields_other (st : Strand) (r q : Nat) (m : SMap (BitVec 32)) (h : q % 32 ≠ r % 32) :
    fieldsOf (setFields r m st) q = fieldsOf st q := by
  simp only [fieldsOf, setFields]
  exact Vector.getElem_set_ne _ _ (Ne.symm h)

theorem fieldAt_setField_same (st : Strand) (r row : Nat) (x : BitVec 32) : fieldAt (setField st r row x) r row = x := by
  rw [fieldAt, setField, fieldsOf_setFields_same, smRead_smWrite_same]

theorem fieldAt_setField_other (st : Strand) (r row q row' : Nat) (x : BitVec 32)
    (h : q % 32 ≠ r % 32 ∨ row' ≠ row) : fieldAt (setField st r row x) q row' = fieldAt st q row' := by
  unfold fieldAt setField
  by_cases hq : q % 32 = r % 32
  · have e1 : ∀ t : Strand, fieldsOf t q = fieldsOf t r := by
      intro t; unfold fieldsOf; congr 1
    rw [e1, e1, fieldsOf_setFields_same, smRead_smWrite_other _ _ _ _ _ (h.resolve_left (by simp [hq]))]
  · rw [fieldsOf_setFields_other _ _ _ _ hq]

@[simp] theorem rg_setField (st : Strand) (r row : Nat) (x : BitVec 32) : rg (setField st r row x) = rg st := rfl

@[simp] theorem rg_setElem (st : Strand) (b w i x : Nat) : rg (setElem st b w i x) = rg st := by
  unfold setElem; dsimp only; split <;> rfl

/-! ### Elements -/

/-- A width that an element can have. -/
def widthOk (w : Nat) : Prop := w = 1 ∨ w = 2 ∨ w = 4 ∨ w = 8 ∨ w = 16 ∨ w = 32 ∨ w = 64

/-- Element i of width w lies in the group of g registers at a base (R47, R50). -/
def inGroupOf (st : Strand) (base w g i : Nat) : Prop :=
  base + g ≤ 32 ∧ 0 < rg st ∧ if w = 64 then 2 * (i / rg st) + 1 < g else i / rg st / (32 / w) < g

theorem getElem_setElem_same (st : Strand) (base w g i x : Nat) (hw : widthOk w) (hi : inGroupOf st base w g i) :
    getElem (setElem st base w i x) base w i = x % 2 ^ w := by
  obtain ⟨hb, hr, hg⟩ := hi
  by_cases h64 : w = 64
  · subst h64
    simp only [if_true] at hg
    unfold getElem
    simp only [rg_setElem]
    unfold setElem
    simp only [show ¬ (64 ≤ 32) by omega, if_false]
    rw [fieldAt_setField_same, fieldAt_setField_other _ _ _ _ _ _ (.inl (by omega)), fieldAt_setField_same]
    simp only [BitVec.toNat_ofNat]
    omega
  · have hw32 : w ≤ 32 ∧ 0 < w ∧ 32 / w * w = 32 := by
      rcases hw with rfl | rfl | rfl | rfl | rfl | rfl | rfl <;> simp_all
    obtain ⟨h1, h2, h3⟩ := hw32
    unfold getElem
    simp only [rg_setElem, h1, if_true]
    unfold setElem
    simp only [h1, if_true]
    rw [fieldAt_setField_same]
    refine bits_putBits_same _ _ _ _ h2 ?_
    have hk : 0 < 32 / w := Nat.div_pos h1 h2
    have := Nat.mod_lt (i / rg st) hk
    calc i / rg st % (32 / w) * w + w = (i / rg st % (32 / w) + 1) * w := by rw [Nat.add_mul, Nat.one_mul]
      _ ≤ 32 / w * w := Nat.mul_le_mul_right _ this
      _ = 32 := h3

theorem getElem_setElem_other (st : Strand) (base w g i j x : Nat) (hw : widthOk w) (hi : inGroupOf st base w g i)
    (hj : inGroupOf st base w g j) (hne : i ≠ j) :
    getElem (setElem st base w i x) base w j = getElem st base w j := by
  obtain ⟨hb, hr, hg⟩ := hi
  obtain ⟨-, -, hg'⟩ := hj
  have hsplit : i % rg st ≠ j % rg st ∨ i / rg st ≠ j / rg st := by
    by_contra hcon
    push Not at hcon
    apply hne
    rw [← Nat.div_add_mod i (rg st), ← Nat.div_add_mod j (rg st), hcon.1, hcon.2]
  by_cases h64 : w = 64
  · subst h64
    simp only [if_true] at hg hg'
    unfold getElem
    simp only [rg_setElem]
    unfold setElem
    simp only [show ¬ (64 ≤ 32) by omega, if_false]
    have key : ∀ a b, a < 2 → b < 2 →
        (base + 2 * (j / rg st) + b) % 32 ≠ (base + 2 * (i / rg st) + a) % 32 ∨ j % rg st ≠ i % rg st ∨
          (i / rg st = j / rg st) := by
      intro a b ha hb'
      rcases hsplit with h | h
      · exact .inr (.inl (Ne.symm h))
      · exact .inl (by omega)
    rcases hsplit with h | h
    · rw [fieldAt_setField_other _ _ _ _ _ _ (.inr (Ne.symm h)), fieldAt_setField_other _ _ _ _ _ _ (.inr (Ne.symm h)),
        fieldAt_setField_other _ _ _ _ _ _ (.inr (Ne.symm h)), fieldAt_setField_other _ _ _ _ _ _ (.inr (Ne.symm h))]
    · rw [fieldAt_setField_other _ _ _ _ _ _ (.inl (by omega)), fieldAt_setField_other _ _ _ _ _ _ (.inl (by omega)),
        fieldAt_setField_other _ _ _ _ _ _ (.inl (by omega)), fieldAt_setField_other _ _ _ _ _ _ (.inl (by omega))]
  · have hw32 : w ≤ 32 ∧ 0 < w ∧ 32 / w * w = 32 := by
      rcases hw with rfl | rfl | rfl | rfl | rfl | rfl | rfl <;> simp_all
    obtain ⟨h1, h2, h3⟩ := hw32
    simp only [h64, if_false] at hg hg'
    have hk : 0 < 32 / w := Nat.div_pos h1 h2
    unfold getElem
    simp only [rg_setElem, h1, if_true]
    unfold setElem
    simp only [h1, if_true]
    by_cases hrow : j % rg st = i % rg st
    · have hs : i / rg st ≠ j / rg st := hsplit.resolve_left (by simp [hrow])
      by_cases hreg : i / rg st / (32 / w) = j / rg st / (32 / w)
      · rw [← hreg, hrow, fieldAt_setField_same]
        have hm : i / rg st % (32 / w) ≠ j / rg st % (32 / w) := by
          intro hm
          apply hs
          rw [← Nat.div_add_mod (i / rg st) (32 / w), ← Nat.div_add_mod (j / rg st) (32 / w), hreg, hm]
        have hbound : ∀ q, q < 32 / w → q * w + w ≤ 32 := by
          intro q hq
          calc q * w + w = (q + 1) * w := by rw [Nat.add_mul, Nat.one_mul]
            _ ≤ 32 / w * w := Nat.mul_le_mul_right _ hq
            _ = 32 := h3
        refine bits_putBits_other _ _ _ _ _ _ h2 (hbound _ (Nat.mod_lt _ hk)) ?_
        rcases Nat.lt_or_gt_of_ne hm with hlt | hgt
        · right
          calc i / rg st % (32 / w) * w + w = (i / rg st % (32 / w) + 1) * w := by rw [Nat.add_mul, Nat.one_mul]
            _ ≤ _ := Nat.mul_le_mul_right _ hlt
        · left
          calc j / rg st % (32 / w) * w + w = (j / rg st % (32 / w) + 1) * w := by rw [Nat.add_mul, Nat.one_mul]
            _ ≤ _ := Nat.mul_le_mul_right _ hgt
      · have hne : (base + j / rg st / (32 / w)) % 32 ≠ (base + i / rg st / (32 / w)) % 32 := by
          generalize i / rg st / (32 / w) = a at *
          generalize j / rg st / (32 / w) = b at *
          omega
        rw [fieldAt_setField_other _ _ _ _ _ _ (.inl hne)]
    · rw [fieldAt_setField_other _ _ _ _ _ _ (.inr hrow)]

/-- The element-wise writes of a destination. -/
def setElems (base w : Nat) (ws : List (Nat × Nat)) (st : Strand) : Strand :=
  ws.foldl (fun t p => setElem t base w p.1 p.2) st

theorem rg_setElems (base w : Nat) (ws : List (Nat × Nat)) : ∀ st, rg (setElems base w ws st) = rg st := by
  induction ws with
  | nil => intro st; rfl
  | cons p ws ih =>
    intro st
    show rg (setElems base w ws (setElem st base w p.1 p.2)) = _
    rw [ih, rg_setElem]

theorem inGroupOf_congr {st st' : Strand} (h : rg st' = rg st) (base w g i : Nat) :
    inGroupOf st' base w g i ↔ inGroupOf st base w g i := by
  unfold inGroupOf; rw [h]

/-- An element that no write names keeps its value. -/
theorem getElem_setElems_none (base w g j : Nat) (hw : widthOk w) (ws : List (Nat × Nat)) :
    ∀ st, inGroupOf st base w g j → (∀ p ∈ ws, inGroupOf st base w g p.1) → (∀ p ∈ ws, p.1 ≠ j) →
      getElem (setElems base w ws st) base w j = getElem st base w j := by
  induction ws with
  | nil => intro st _ _ _; rfl
  | cons p ws ih =>
    intro st hj hg hn
    have hr : rg (setElem st base w p.1 p.2) = rg st := rg_setElem _ _ _ _ _
    show getElem (setElems base w ws (setElem st base w p.1 p.2)) base w j = _
    rw [ih _ ((inGroupOf_congr hr _ _ _ _).2 hj)
      (fun q hq => (inGroupOf_congr hr _ _ _ _).2 (hg q (List.mem_cons_of_mem _ hq)))
      (fun q hq => hn q (List.mem_cons_of_mem _ hq))]
    exact getElem_setElem_other _ _ _ _ _ _ _ hw (hg p List.mem_cons_self) hj (hn p List.mem_cons_self)

/-- An element that one write names has its value, cut to the width. -/
theorem getElem_setElems_some (base w g j x : Nat) (hw : widthOk w) (ws : List (Nat × Nat)) :
    ∀ st, (∀ p ∈ ws, inGroupOf st base w g p.1) → (ws.map (·.1)).Nodup → (j, x) ∈ ws →
      getElem (setElems base w ws st) base w j = x % 2 ^ w := by
  induction ws with
  | nil => intro st _ _ h; cases h
  | cons p ws ih =>
    intro st hg hd hm
    have hr : rg (setElem st base w p.1 p.2) = rg st := rg_setElem _ _ _ _ _
    rw [List.map_cons, List.nodup_cons] at hd
    show getElem (setElems base w ws (setElem st base w p.1 p.2)) base w j = _
    have hg' : ∀ q ∈ ws, inGroupOf (setElem st base w p.1 p.2) base w g q.1 := fun q hq =>
      (inGroupOf_congr hr _ _ _ _).2 (hg q (List.mem_cons_of_mem _ hq))
    rcases List.mem_cons.1 hm with rfl | hm
    · rw [getElem_setElems_none base w g j hw ws _ ((inGroupOf_congr hr _ _ _ _).2 (hg _ List.mem_cons_self)) hg'
        (fun q hq he => hd.1 (List.mem_map.2 ⟨q, hq, he⟩))]
      exact getElem_setElem_same _ _ _ _ _ _ hw (hg _ List.mem_cons_self)
    · exact ih _ hg' hd.2 hm

/-! ### What the bookkeeping of a destination leaves alone -/

theorem getElem_congr {st st' : Strand} (hv : st'.v = st.v) (ha : st'.arrays = st.arrays) (b w i : Nat) :
    getElem st' b w i = getElem st b w i := by
  have hr : rg st' = rg st := by unfold rg; rw [ha]
  have hf : ∀ r row, fieldAt st' r row = fieldAt st r row := by
    intro r row; unfold fieldAt fieldsOf; simp only [hv]
  unfold getElem
  simp only [hr, hf]

theorem maskBit_congr {st st' : Strand} (hv : st'.v = st.v) (ha : st'.arrays = st.arrays) (r i : Nat) :
    maskBit st' r i = maskBit st r i := by
  have hr : rg st' = rg st := by unfold rg; rw [ha]
  unfold maskBit fieldAt fieldsOf
  simp only [hv, hr]

theorem settleDst_keeps (st : Strand) (d : Dst) (slots : Nat) (ws : List Nat) :
    (settleDst st d slots ws).v = st.v ∧ (settleDst st d slots ws).arrays = st.arrays := by
  unfold settleDst
  cases d with
  | bits r => exact ⟨rfl, rfl⟩
  | elems base w g =>
    refine foldl_keeps (fun t : Strand => t.v = st.v ∧ t.arrays = st.arrays) _ (fun t k ht => ?_) _ _ ⟨rfl, rfl⟩
    exact ht

theorem clearTags_keeps (st : Strand) (base g : Nat) :
    (clearTags base g st).v = st.v ∧ (clearTags base g st).arrays = st.arrays := by
  unfold clearTags
  generalize span 1 g = l
  have : ∀ (l : List Nat) (t : Strand), (l.foldl (fun t k => setTag (base + k) 0 t) t).v = t.v ∧
      (l.foldl (fun t k => setTag (base + k) 0 t) t).arrays = t.arrays := by
    intro l
    induction l with
    | nil => intro t; exact ⟨rfl, rfl⟩
    | cons k l ih => intro t; exact ih _
  exact this l _

theorem Dst.clearTags_keeps (d : Dst) (st : Strand) :
    (d.clearTags st).v = st.v ∧ (d.clearTags st).arrays = st.arrays := by
  cases d <;> exact Machine.clearTags_keeps _ _ _

/-- Elements after the writes of a destination, its flags and its tags. -/
theorem getElem_written (st : Strand) (base w g slots i : Nat) (ws : List (Nat × Nat)) (fl : Flags) (sat : Bool) :
    getElem ((Dst.elems base w g).clearTags (raiseFlags fl sat (writeDst st (.elems base w g) slots ws))) base w i =
      getElem (setElems base w ws st) base w i := by
  have h1 := Dst.clearTags_keeps (.elems base w g) (raiseFlags fl sat (writeDst st (.elems base w g) slots ws))
  rw [getElem_congr h1.1 h1.2]
  have h2 := settleDst_keeps (setElems base w ws st) (.elems base w g) slots (ws.map (·.1))
  exact getElem_congr h2.1 h2.2 _ _ _

end Sys2Proof.Machine
end

