-- ==== Sys2Proof/Laws/VecRun.lean ====
section
/-! SUPPORT. What issuing from the V queue does: the checks, an element-wise effect, and retirement. -/

namespace Sys2Proof.Machine

set_option Elab.async false

/-! ### The checks of R68 -/

theorem checkGroups_ok {gs : List (Nat × Nat)} (s : State) (ha : ∀ p ∈ gs, p.1 % p.2 = 0)
    (hr : ∀ p ∈ gs, p.1 + p.2 ≤ 32) : checkGroups gs s = (.ok (), s) := by
  have h1 : (gs.all fun (r, g) => decide (r % g = 0)) = true := by
    rw [List.all_eq_true]; rintro ⟨r, g⟩ hp; simpa using ha _ hp
  have h2 : (gs.all fun (r, g) => decide (r + g ≤ 32)) = true := by
    rw [List.all_eq_true]; rintro ⟨r, g⟩ hp; simpa using hr _ hp
  unfold checkGroups
  rw [h1, h2, act_bind_ok (act_require_true 3 s), act_require_true]

/-- Every check passes. -/
theorem vCheck_ok {e : VEntry} {value mask combo : Bool} {gs : List (Nat × Nat)} (s : State) (hv : value = true)
    (hi : e.vtype.getLsbD 63 = false) (hm : mask = true → 32 * lmulOf e.vtype ≤ 32 * sewOf e.vtype)
    (ha : ∀ p ∈ gs, p.1 % p.2 = 0) (hr : ∀ p ∈ gs, p.1 + p.2 ≤ 32) (hc : combo = true) :
    vCheck e value mask gs combo s = (.ok (), s) := by
  have h2 : (!mask || decide (32 * lmulOf e.vtype ≤ 32 * sewOf e.vtype)) = true := by
    cases mask with
    | false => rfl
    | true => simpa using hm rfl
  subst hv hc
  unfold vCheck
  rw [hi, h2, act_bind_ok (act_require_true 6 s)]
  rw [show (!false) = true from rfl, act_bind_ok (act_require_true 2 s), act_bind_ok (act_require_true 2 s),
    act_bind_ok (checkGroups_ok s ha hr), act_require_true]

/-! ### The element-wise effect -/

/-- What the elements from vstart to vl − 1 compute (R174). -/
def runOuts (v : VEnv) (act : Nat → Bool) (f : Nat → Option ElemOut) : List (Nat × ElemOut) :=
  (span v.e.vstart v.e.vl).filterMap fun i =>
    if act i then (f i).map fun o => (i, o) else if v.zeroMasked then some (i, plain 0) else none

/-- The values that they write, the tail included (R174). -/
def runWrites (v : VEnv) (act : Nat → Bool) (f : Nat → Option ElemOut) : List (Nat × Nat) :=
  (runOuts v act f).map (fun o => (o.1, o.2.val)) ++
    if v.zeroTail then (span v.e.vl v.vmax).map fun i => (i, 0) else []

/-- The strand after them: the destination, the flags of every element, and the tags that the write clears. -/
def runStrand (v : VEnv) (d : Dst) (act : Nat → Bool) (f : Nat → Option ElemOut) (st : Strand) : Strand :=
  d.clearTags (raiseFlags (joinFlags ((runOuts v act f).map (·.2))) ((runOuts v act f).any fun o => o.2.sat)
    (writeDst st d v.slots (runWrites v act f)))

theorem mem_span {a b i : Nat} : i ∈ span a b ↔ a ≤ i ∧ i < b := by
  simp only [span, List.mem_map, List.mem_range]
  constructor
  · rintro ⟨j, hj, rfl⟩; omega
  · intro h; exact ⟨i - a, by omega, by omega⟩

theorem nodup_span (a b : Nat) : (span a b).Nodup := by
  unfold span
  exact (List.nodup_range).map (fun i j h => by simpa using h)

theorem elementRun_ok {v : VEnv} {d : Dst} {act poisoned : Nat → Bool} {f : Nat → Option ElemOut} {s : State}
    (hlt : v.e.vstart < v.e.vl) (hs : v.st.dbgElem = false)
    (hp : ∀ i, v.e.vstart ≤ i → i < v.e.vl → poisoned i = false) :
    elementRun v d act poisoned f s = (.ok (), { s with strand := runStrand v d act f s.strand }) := by
  have hstep : stepEnd v = v.e.vl := by unfold stepEnd; rw [hs]; rfl
  have hbad : (span v.e.vstart v.e.vl).find? poisoned = none := by
    rw [List.find?_eq_none]
    intro i hi
    rw [mem_span] at hi
    simp [hp i hi.1 hi.2]
  unfold elementRun
  rw [if_neg (by omega)]
  simp only [hstep, hbad, Option.getD_none, true_and, Nat.lt_irrefl, if_false]
  rw [act_bind]
  simp only [act_modStrand]
  rfl

/-- Nothing is done when no element is left (R59, R106). -/
theorem elementRun_empty {v : VEnv} {d : Dst} {act poisoned : Nat → Bool} {f : Nat → Option ElemOut} {s : State}
    (h : v.e.vl ≤ v.e.vstart) : elementRun v d act poisoned f s = (.ok (), s) := by
  unfold elementRun
  rw [if_pos h]
  rfl

theorem nodup_runWrites (v : VEnv) (act : Nat → Bool) (f : Nat → Option ElemOut) (_h : v.e.vstart ≤ v.e.vl) :
    ((runWrites v act f).map (·.1)).Nodup := by
  have hsub : (runOuts v act f).map (·.1) |>.Sublist (span v.e.vstart v.e.vl) := by
    unfold runOuts
    generalize span v.e.vstart v.e.vl = l
    induction l with
    | nil => exact List.Sublist.refl _
    | cons i l ih =>
      rw [List.filterMap_cons]
      split
      · exact ih.cons _
      · rename_i p hp
        have : p.1 = i := by
          split at hp
          · cases hf : f i with
            | none => simp [hf] at hp
            | some o => simp [hf] at hp; rw [← hp]
          · split at hp
            · simp at hp; rw [← hp]
            · cases hp
        rw [List.map_cons, this]
        exact ih.cons_cons _
  unfold runWrites
  rw [List.map_append, List.map_map]
  refine List.Nodup.append (hsub.nodup (nodup_span _ _)) ?_ ?_
  · split
    · rw [List.map_map]; simpa [Function.comp_def] using nodup_span v.e.vl v.vmax
    · simp
  · intro i h1 h2
    have h1 := (mem_span.1 (hsub.subset (by simpa [Function.comp_def] using h1)))
    split at h2
    · rw [List.map_map] at h2
      have := mem_span.1 (by simpa [Function.comp_def] using h2)
      omega
    · simp at h2

theorem mem_runWrites (v : VEnv) (act : Nat → Bool) (f : Nat → Option ElemOut) (i x : Nat) :
    (i, x) ∈ runWrites v act f ↔
      (v.e.vstart ≤ i ∧ i < v.e.vl ∧ ((act i = true ∧ ∃ o, f i = some o ∧ x = o.val) ∨
        (act i = false ∧ v.zeroMasked = true ∧ x = 0))) ∨
      (v.zeroTail = true ∧ v.e.vl ≤ i ∧ i < v.vmax ∧ x = 0) := by
  unfold runWrites runOuts
  rw [List.mem_append]
  refine or_congr ?_ ?_
  · constructor
    · intro h
      obtain ⟨p, hp, he⟩ := List.mem_map.1 h
      obtain ⟨j, hj, hf⟩ := List.mem_filterMap.1 hp
      rw [mem_span] at hj
      split at hf
      · rename_i ha
        cases ho : f j with
        | none => simp [ho] at hf
        | some o =>
          simp [ho] at hf
          subst hf
          cases he
          exact ⟨hj.1, hj.2, .inl ⟨ha, o, ho, rfl⟩⟩
      · rename_i ha
        split at hf
        · rename_i hz
          simp at hf
          subst hf
          cases he
          exact ⟨hj.1, hj.2, .inr ⟨by simpa using ha, hz, rfl⟩⟩
        · cases hf
    · rintro ⟨h1, h2, h3⟩
      rcases h3 with ⟨ha, o, ho, rfl⟩ | ⟨ha, hz, rfl⟩
      · exact List.mem_map.2 ⟨(i, o), List.mem_filterMap.2 ⟨i, mem_span.2 ⟨h1, h2⟩, by simp [ha, ho]⟩, rfl⟩
      · exact List.mem_map.2 ⟨(i, plain 0), List.mem_filterMap.2 ⟨i, mem_span.2 ⟨h1, h2⟩, by simp [ha, hz]⟩, rfl⟩
  · split
    · rename_i hz
      simp only [hz, true_and, List.mem_map, mem_span, Prod.mk.injEq]
      constructor
      · rintro ⟨j, ⟨h1, h2⟩, rfl, rfl⟩; exact ⟨h1, h2, rfl⟩
      · rintro ⟨h1, h2, rfl⟩; exact ⟨i, ⟨h1, h2⟩, rfl, rfl⟩
    · rename_i hz
      simp [hz]

/-- Element i of a destination after an element-wise effect (R174): its old value before vstart, the result where it is
active, the policies elsewhere. -/
theorem getElem_run (v : VEnv) (st : Strand) (base w g i : Nat) (act : Nat → Bool) (f : Nat → ElemOut) (hw : widthOk w)
    (hle : v.e.vstart ≤ v.e.vl) (hvl : v.e.vl ≤ v.vmax) (hg : ∀ j, j < v.vmax → inGroupOf st base w g j)
    (hi : i < v.vmax) :
    getElem (setElems base w (runWrites v act fun i => some (f i)) st) base w i =
      if i < v.e.vstart then getElem st base w i
      else if i < v.e.vl then
        if act i then (f i).val % 2 ^ w else if v.zeroMasked then 0 else getElem st base w i
      else if v.zeroTail then 0 else getElem st base w i := by
  have hall : ∀ p ∈ runWrites v act (fun i => some (f i)), inGroupOf st base w g p.1 := by
    rintro ⟨j, x⟩ hp
    rcases (mem_runWrites _ _ _ _ _).1 hp with h | h
    · exact hg _ (by omega)
    · exact hg _ h.2.2.1
  have hnd := nodup_runWrites v act (fun i => some (f i)) hle
  have some (x : Nat) (h : (i, x) ∈ runWrites v act fun i => some (f i)) :=
    getElem_setElems_some base w g i x hw _ st hall hnd h
  have none (h : ∀ p ∈ runWrites v act (fun i => Option.some (f i)), p.1 ≠ i) :=
    getElem_setElems_none base w g i hw _ st (hg i hi) hall h
  split
  · refine none ?_
    rintro ⟨j, x⟩ hp rfl
    rcases (mem_runWrites _ _ _ _ _).1 hp with h | h <;> omega
  · split
    · split
      · rename_i ha
        exact some _ ((mem_runWrites _ _ _ _ _).2 (.inl ⟨by omega, by omega, .inl ⟨ha, f i, rfl, rfl⟩⟩))
      · rename_i ha
        split
        · rename_i hz
          have := some 0 ((mem_runWrites _ _ _ _ _).2 (.inl ⟨by omega, by omega, .inr ⟨by simpa using ha, hz, rfl⟩⟩))
          simpa using this
        · rename_i hz
          refine none ?_
          rintro ⟨j, x⟩ hp rfl
          rcases (mem_runWrites _ _ _ _ _).1 hp with ⟨_, _, h | h⟩ | h
          · exact ha h.1
          · exact hz h.2.1
          · omega
    · split
      · rename_i hz
        have := some 0 ((mem_runWrites _ _ _ _ _).2 (.inr ⟨hz, by omega, hi, rfl⟩))
        simpa using this
      · rename_i hz
        refine none ?_
        rintro ⟨j, x⟩ hp rfl
        rcases (mem_runWrites _ _ _ _ _).1 hp with h | h
        · omega
        · exact hz h.1

/-! ### Where the elements of a legal type lie -/

/-- The widths and groups of a legal type (R57, R58). -/
theorem legal_cases {vt : Word} (h : vtypeLegal vt = true) :
    (sewOf vt = 1 ∨ sewOf vt = 2 ∨ sewOf vt = 4 ∨ sewOf vt = 8 ∨ sewOf vt = 16 ∨ sewOf vt = 32 ∨ sewOf vt = 64) ∧
    (lmulOf vt = 1 ∨ lmulOf vt = 2 ∨ lmulOf vt = 4 ∨ lmulOf vt = 8) ∧ (sewOf vt = 64 → lmulOf vt ≠ 1) := by
  unfold vtypeLegal at h
  simp only [Bool.and_eq_true, decide_eq_true_eq] at h
  obtain ⟨⟨⟨-, h5⟩, h2⟩, hf⟩ := h
  have h6 : natBits vt.toNat 7 6 < 4 := Nat.mod_lt _ (by decide)
  have hl : lmulOf vt = 1 → natBits vt.toNat 2 0 = 0 := by
    unfold lmulOf
    generalize natBits vt.toNat 2 0 = n at *
    rcases (show n = 0 ∨ n = 1 ∨ n = 2 ∨ n = 3 by omega) with rfl | rfl | rfl | rfl <;> simp
  have hs : sewOf vt = 64 → natBits vt.toNat 5 3 = 6 := by
    unfold sewOf
    generalize natBits vt.toNat 5 3 = n at *
    rcases (show n = 0 ∨ n = 1 ∨ n = 2 ∨ n = 3 ∨ n = 4 ∨ n = 5 ∨ n = 6 by omega) with
      rfl | rfl | rfl | rfl | rfl | rfl | rfl <;> simp
  refine ⟨?_, ?_, fun h64 h1 => ?_⟩
  · unfold sewOf
    generalize natBits vt.toNat 5 3 = n at *
    rcases (show n = 0 ∨ n = 1 ∨ n = 2 ∨ n = 3 ∨ n = 4 ∨ n = 5 ∨ n = 6 by omega) with
      rfl | rfl | rfl | rfl | rfl | rfl | rfl <;> simp
  · unfold lmulOf
    generalize natBits vt.toNat 2 0 = n at *
    rcases (show n = 0 ∨ n = 1 ∨ n = 2 ∨ n = 3 by omega) with rfl | rfl | rfl | rfl <;> simp
  · have := hs h64
    have := hl h1
    generalize natBits vt.toNat 5 3 = n at *
    generalize natBits vt.toNat 2 0 = m at *
    generalize natBits vt.toNat 7 6 = k at *
    subst n m
    rcases (show k = 0 ∨ k = 1 ∨ k = 2 ∨ k = 3 by omega) with rfl | rfl | rfl | rfl <;> simp at hf

theorem widthOk_sew {vt : Word} (h : vtypeLegal vt = true) : widthOk (sewOf vt) := (legal_cases h).1

theorem slot_lt {rows sl i : Nat} (h : i < rows * sl) : i / rows < sl := by
  rw [Nat.mul_comm] at h
  exact Nat.div_lt_of_lt_mul (by rwa [Nat.mul_comm] at h)

/-- Every element below VLMAX lies in its group (R47, R48). -/
theorem inGroupOf_sew {st : Strand} {vt : Word} {base i : Nat} (h : vtypeLegal vt = true)
    (hb : base + lmulOf vt ≤ 32) (hi : i < vlmax (rg st) vt) : inGroupOf st base (sewOf vt) (lmulOf vt) i := by
  obtain ⟨hs, hl, h64⟩ := legal_cases h
  have hr : 0 < rg st := by
    rcases Nat.eq_zero_or_pos (rg st) with h0 | h0
    · rw [h0] at hi; unfold vlmax at hi; split at hi <;> simp at hi
    · exact h0
  refine ⟨hb, hr, ?_⟩
  unfold vlmax at hi
  by_cases hw : sewOf vt = 64
  · rw [if_pos hw] at hi ⊢
    have hl' := h64 hw
    have : rg st * lmulOf vt / 2 = rg st * (lmulOf vt / 2) := by
      rcases hl with h | h | h | h
      · exact absurd h hl'
      all_goals rw [h]; omega
    rw [this] at hi
    have := slot_lt hi
    rcases hl with h | h | h | h
    · exact absurd h hl'
    all_goals rw [h] at this ⊢; omega
  · rw [if_neg hw] at hi ⊢
    rw [Nat.mul_assoc] at hi
    exact Nat.div_lt_of_lt_mul (slot_lt hi)

/-- The slots of a row (R169) hold every element below VLMAX. -/
theorem slot_sew {st : Strand} {vt : Word} {i : Nat} (h : vtypeLegal vt = true) (hi : i < vlmax (rg st) vt) :
    i / rg st < 32 * lmulOf vt / sewOf vt := by
  obtain ⟨hs, hl, h64⟩ := legal_cases h
  unfold vlmax at hi
  by_cases hw : sewOf vt = 64
  · rw [if_pos hw] at hi
    rw [hw]
    have : rg st * lmulOf vt / 2 = rg st * (lmulOf vt / 2) := by
      rcases hl with h | h | h | h
      · exact absurd h (h64 hw)
      all_goals rw [h]; omega
    rw [this] at hi
    have := slot_lt hi
    rcases hl with h | h | h | h <;> rw [h] at this ⊢ <;> omega
  · rw [if_neg hw, Nat.mul_assoc] at hi
    have := slot_lt hi
    rcases hs with h | h | h | h | h | h | h
    all_goals first
      | exact absurd h hw
      | rw [h] at this ⊢; omega

/-! ### Mask bits -/

theorem testBit_put_one (old : BitVec 32) (off x j : Nat) (h : off < 32) :
    (putBits old off 1 x).getLsbD j = if j = off then decide (x % 2 = 1) else old.getLsbD j := by
  rw [← BitVec.testBit_toNat, testBit_putBits _ _ _ _ _ (by omega)]
  by_cases hj : j = off
  · rw [if_pos (by omega), if_pos hj, hj, Nat.sub_self, Nat.testBit_zero]
  · rw [if_neg (by omega), if_neg hj, BitVec.testBit_toNat]

theorem maskBit_set_same (st : Strand) (r i x n : Nat) (hn : rg st = n) (h : i / n < 32) :
    maskBit (setField st r (i % n) (putBits (fieldAt st r (i % n)) (i / n) 1 x)) r i = decide (x % 2 = 1) := by
  subst hn
  unfold maskBit
  rw [rg_setField, fieldAt_setField_same, testBit_put_one _ _ _ _ h, if_pos rfl]

theorem maskBit_set_other (st : Strand) (r i j x n : Nat) (hn : rg st = n) (h : i / n < 32) (hne : j ≠ i) :
    maskBit (setField st r (i % n) (putBits (fieldAt st r (i % n)) (i / n) 1 x)) r j = maskBit st r j := by
  subst hn
  unfold maskBit
  rw [rg_setField]
  by_cases hrow : j % rg st = i % rg st
  · rw [hrow, fieldAt_setField_same, testBit_put_one _ _ _ _ h, if_neg]
    intro hs
    apply hne
    rw [← Nat.div_add_mod j (rg st), ← Nat.div_add_mod i (rg st), hrow, hs]
  · rw [fieldAt_setField_other _ _ _ _ _ _ (.inr hrow)]

theorem maskBit_setBits_none (r j n : Nat) (ws : List (Nat × Nat)) :
    ∀ st, rg st = n → (∀ p ∈ ws, p.1 / n < 32) → (∀ p ∈ ws, p.1 ≠ j) →
      maskBit (ws.foldl (fun t p => setField t r (p.1 % n) (putBits (fieldAt t r (p.1 % n)) (p.1 / n) 1 p.2)) st) r j
        = maskBit st r j := by
  induction ws with
  | nil => intro st _ _ _; rfl
  | cons p ws ih =>
    intro st hn hs hd
    rw [List.foldl_cons, ih _ (by rw [rg_setField]; exact hn) (fun q hq => hs q (List.mem_cons_of_mem _ hq))
      (fun q hq => hd q (List.mem_cons_of_mem _ hq))]
    exact maskBit_set_other _ _ _ _ _ _ hn (hs p List.mem_cons_self) (Ne.symm (hd p List.mem_cons_self))

theorem maskBit_setBits_some (r j x n : Nat) (ws : List (Nat × Nat)) :
    ∀ st, rg st = n → (∀ p ∈ ws, p.1 / n < 32) → (ws.map (·.1)).Nodup → (j, x) ∈ ws →
      maskBit (ws.foldl (fun t p => setField t r (p.1 % n) (putBits (fieldAt t r (p.1 % n)) (p.1 / n) 1 p.2)) st) r j
        = decide (x % 2 = 1) := by
  induction ws with
  | nil => intro st _ _ _ h; cases h
  | cons p ws ih =>
    intro st hn hs hd hm
    rw [List.map_cons, List.nodup_cons] at hd
    rw [List.foldl_cons]
    have hs' : ∀ q ∈ ws, q.1 / n < 32 := fun q hq => hs q (List.mem_cons_of_mem _ hq)
    rcases List.mem_cons.1 hm with rfl | hm
    · rw [maskBit_setBits_none r j n ws _ (by rw [rg_setField]; exact hn) hs'
        (fun q hq he => hd.1 (List.mem_map.2 ⟨q, hq, he⟩))]
      exact maskBit_set_same _ _ _ _ _ hn (hs _ List.mem_cons_self)
    · exact ih _ (by rw [rg_setField]; exact hn) hs' hd.2 hm

theorem fieldAt_smMap (st : Strand) (r q row : Nat) (g : BitVec 32 → BitVec 32) (hg : g 0 = 0) :
    fieldAt (setFields r (smMap 0 (fun _ f => g f) (fieldsOf st r)) st) q row =
      if q % 32 = r % 32 then g (fieldAt st q row) else fieldAt st q row := by
  by_cases hq : q % 32 = r % 32
  · have e1 : ∀ t : Strand, fieldsOf t q = fieldsOf t r := by
      intro t; unfold fieldsOf; congr 1
    rw [if_pos hq]
    unfold fieldAt
    rw [e1, e1, fieldsOf_setFields_same, smRead_smMap _ _ _ _ hg]
  · rw [if_neg hq]
    unfold fieldAt
    rw [fieldsOf_setFields_other _ _ _ _ hq]

/-- The low bits of a field that the slots keep. -/
theorem getLsbD_low (x : BitVec 32) (n k : Nat) (hk : k < 32) :
    (x &&& BitVec.ofNat 32 (2 ^ n - 1)).getLsbD k = (x.getLsbD k && decide (k < n)) := by
  rw [BitVec.getLsbD_and, BitVec.getLsbD_ofNat, Nat.testBit_two_pow_sub_one]
  simp only [hk, decide_true, Bool.true_and]

/-- The strand before the writes of a mask destination: bits beyond the slots are zero (R175). -/
def cutMask (r slots : Nat) (st : Strand) : Strand :=
  setFields r (smMap 0 (fun _ f => f &&& BitVec.ofNat 32 (2 ^ slots - 1)) (fieldsOf st r)) st

theorem fieldAt_cutMask (st : Strand) (r slots q row : Nat) : fieldAt (cutMask r slots st) q row =
    if q % 32 = r % 32 then fieldAt st q row &&& BitVec.ofNat 32 (2 ^ slots - 1) else fieldAt st q row :=
  fieldAt_smMap st r q row (fun f => f &&& BitVec.ofNat 32 (2 ^ slots - 1)) (by simp)

/-- The writes of a mask destination, each in its slot. -/
def putMask (r n : Nat) (ws : List (Nat × Nat)) (st : Strand) : Strand :=
  ws.foldl (fun t p => setField t r (p.1 % n) (putBits (fieldAt t r (p.1 % n)) (p.1 / n) 1 p.2)) st

theorem maskBit_cutMask (st : Strand) (r slots j : Nat) (hj : j / rg st < slots) (hs : slots ≤ 32) :
    maskBit (cutMask r slots st) r j = maskBit st r j := by
  have hr : rg (cutMask r slots st) = rg st := rfl
  unfold maskBit
  rw [hr, fieldAt_cutMask, if_pos rfl, getLsbD_low _ _ _ (by omega)]
  simp [hj]

/-- Bit i of a mask destination after an element-wise effect (R175). -/
theorem maskBit_run (v : VEnv) (st : Strand) (r slots i : Nat) (act : Nat → Bool) (f : Nat → ElemOut)
    (hle : v.e.vstart ≤ v.e.vl) (hvl : v.e.vl ≤ v.vmax) (hs : slots ≤ 32)
    (hg : ∀ j, j < v.vmax → j / rg st < slots) (hi : i < v.vmax) :
    maskBit (putMask r (rg st) (runWrites v act fun i => some (f i)) (cutMask r slots st)) r i =
      if i < v.e.vstart then maskBit st r i
      else if i < v.e.vl then
        if act i then decide ((f i).val % 2 = 1) else if v.zeroMasked then false else maskBit st r i
      else if v.zeroTail then false else maskBit st r i := by
  have hall : ∀ p ∈ runWrites v act (fun i => some (f i)), p.1 / rg st < 32 := by
    rintro ⟨j, x⟩ hp
    rcases (mem_runWrites _ _ _ _ _).1 hp with h | h
    · exact Nat.lt_of_lt_of_le (hg _ (by omega)) hs
    · exact Nat.lt_of_lt_of_le (hg _ h.2.2.1) hs
  have hnd := nodup_runWrites v act (fun i => some (f i)) hle
  have hcut := maskBit_cutMask st r slots i (hg i hi) hs
  have some (x : Nat) (h : (i, x) ∈ runWrites v act fun i => some (f i)) :=
    maskBit_setBits_some r i x (rg st) _ (cutMask r slots st) rfl hall hnd h
  have none (h : ∀ p ∈ runWrites v act (fun i => Option.some (f i)), p.1 ≠ i) :=
    (maskBit_setBits_none r i (rg st) _ (cutMask r slots st) rfl hall h).trans hcut
  unfold putMask
  split
  · refine none ?_
    rintro ⟨j, x⟩ hp rfl
    rcases (mem_runWrites _ _ _ _ _).1 hp with h | h <;> omega
  · split
    · split
      · rename_i ha
        exact some _ ((mem_runWrites _ _ _ _ _).2 (.inl ⟨by omega, by omega, .inl ⟨ha, f i, rfl, rfl⟩⟩))
      · rename_i ha
        split
        · rename_i hz
          have := some 0 ((mem_runWrites _ _ _ _ _).2 (.inl ⟨by omega, by omega, .inr ⟨by simpa using ha, hz, rfl⟩⟩))
          simpa using this
        · rename_i hz
          refine none ?_
          rintro ⟨j, x⟩ hp rfl
          rcases (mem_runWrites _ _ _ _ _).1 hp with ⟨_, _, h | h⟩ | h
          · exact ha h.1
          · exact hz h.2.1
          · omega
    · split
      · rename_i hz
        have := some 0 ((mem_runWrites _ _ _ _ _).2 (.inr ⟨hz, by omega, hi, rfl⟩))
        simpa using this
      · rename_i hz
        refine none ?_
        rintro ⟨j, x⟩ hp rfl
        rcases (mem_runWrites _ _ _ _ _).1 hp with h | h
        · omega
        · exact hz h.1

/-- Bits of a mask destination beyond the slots are zero after it (R175). -/
theorem beyond_putMask (r slots n : Nat) (ws : List (Nat × Nat)) (hs : slots ≤ 32) :
    ∀ st, (∀ p ∈ ws, p.1 / n < slots) → (∀ row k, slots ≤ k → (fieldAt st r row).getLsbD k = false) →
      ∀ row k, slots ≤ k → (fieldAt (putMask r n ws st) r row).getLsbD k = false := by
  induction ws with
  | nil => intro st _ h; exact h
  | cons p ws ih =>
    intro st hp h
    have hp0 := hp p List.mem_cons_self
    refine ih _ (fun q hq => hp q (List.mem_cons_of_mem _ hq)) (fun row k hk => ?_)
    by_cases hrow : row = p.1 % n
    · subst hrow
      rw [fieldAt_setField_same, testBit_put_one _ _ _ _ (by omega), if_neg (by omega)]
      exact h _ _ hk
    · rw [fieldAt_setField_other _ _ _ _ _ _ (.inr hrow)]
      exact h _ _ hk

theorem writeDst_bits (st : Strand) (r slots : Nat) (ws : List (Nat × Nat)) :
    writeDst st (.bits r) slots ws = settleDst (putMask r (rg st) ws (cutMask r slots st)) (.bits r) slots (ws.map (·.1)) :=
  rfl

theorem writeDst_elems (st : Strand) (base w g slots : Nat) (ws : List (Nat × Nat)) :
    writeDst st (.elems base w g) slots ws = settleDst (setElems base w ws st) (.elems base w g) slots (ws.map (·.1)) :=
  rfl

/-! ### Registers that a destination does not name -/

theorem fieldsOf_setElem (st : Strand) (base w g i x q : Nat) (hw : widthOk w) (hi : inGroupOf st base w g i)
    (hq : q < 32) (h : q < base ∨ base + g ≤ q) : fieldsOf (setElem st base w i x) q = fieldsOf st q := by
  obtain ⟨hb, -, hg⟩ := hi
  unfold setElem
  dsimp only
  split
  · rename_i hw32
    have h64 : w ≠ 64 := by omega
    rw [if_neg h64] at hg
    refine fieldsOf_setFields_other _ _ _ _ ?_
    generalize i / rg st / (32 / w) = a at *
    omega
  · rename_i hw32
    have h64 : w = 64 := by rcases hw with h | h | h | h | h | h | h <;> omega
    rw [if_pos h64] at hg
    unfold setField
    rw [fieldsOf_setFields_other _ _ _ _ (by omega), fieldsOf_setFields_other _ _ _ _ (by omega)]

theorem fieldsOf_setElems (base w g q : Nat) (hw : widthOk w) (hq : q < 32) (h : q < base ∨ base + g ≤ q)
    (ws : List (Nat × Nat)) :
    ∀ st, (∀ p ∈ ws, inGroupOf st base w g p.1) → fieldsOf (setElems base w ws st) q = fieldsOf st q := by
  induction ws with
  | nil => intro st _; rfl
  | cons p ws ih =>
    intro st hp
    have hr : rg (setElem st base w p.1 p.2) = rg st := rg_setElem _ _ _ _ _
    show fieldsOf (setElems base w ws (setElem st base w p.1 p.2)) q = _
    rw [ih _ (fun a ha => (inGroupOf_congr hr _ _ _ _).2 (hp a (List.mem_cons_of_mem _ ha)))]
    exact fieldsOf_setElem _ _ _ _ _ _ _ hw (hp p List.mem_cons_self) hq h

theorem fieldsOf_putMask (r n q : Nat) (h : q % 32 ≠ r % 32) (ws : List (Nat × Nat)) :
    ∀ st, fieldsOf (putMask r n ws st) q = fieldsOf st q := by
  induction ws with
  | nil => intro st; rfl
  | cons p ws ih =>
    intro st
    show fieldsOf (putMask r n ws _) q = _
    rw [ih]
    exact fieldsOf_setFields_other _ _ _ _ h

theorem fieldsOf_congr {st st' : Strand} (hv : st'.v = st.v) (q : Nat) : fieldsOf st' q = fieldsOf st q := by
  unfold fieldsOf; simp only [hv]

end Sys2Proof.Machine
end

