-- ==== Sys2Proof/Tests/Slice0.lean ====
section
/-! SUPPORT. Small tests: words of the spec's own examples, ill-formed terms, single steps, and the witnesses of the
hypotheses of the statements. -/

namespace Sys2Proof.Tests

set_option Elab.async false

open Sys2Proof.Machine

/-! ## Words of the spec's worked encodings (R82 to R91 and the examples of each chapter) -/

theorem test_decode_vadd : decode 0x0042020B#32 = .ok (.vaddVv 4 4 4 0) := by decide +kernel
theorem test_decode_vfadd : decode 0x0242B30B#32 = .ok (.vfaddVv 6 5 4 1) := by decide +kernel
theorem test_decode_vmflt : decode 0x8842B00B#32 = .ok (.vmfltVv 0 5 4 0) := by decide +kernel
theorem test_decode_vsrch : decode 0x0083500B#32 = .ok (.vsrch 0 6 8 0) := by decide +kernel
theorem test_decode_vle32 : decode 0x0005A22B#32 = .ok (.vle 4 11 0 0 2) := by decide +kernel
theorem test_decode_vse32 : decode 0x2807222B#32 = .ok (.vse 4 14 2 0 2) := by decide +kernel
theorem test_decode_mld : decode 0x0203D0DB#32 = .ok (.mld 7 5 1) := by decide +kernel
theorem test_decode_vsetvli : decode 0x028502FB#32 = .ok (.vsetvli 5 10 0x028) := by decide +kernel
theorem test_decode_loopi : decode 0x0034407B#32 = .ok (.loopi 3 8) := by decide +kernel
theorem test_decode_fences : decode 0x0E31D07B#32 = .ok (.fenceS 0 0 1 1 3) := by decide +kernel
theorem test_decode_addi : decode 0xFFF30313#32 = .ok (.addi 6 6 0xFFF) := by decide +kernel
theorem test_decode_fma : decodeSu 0x14611000#32 = .ok (.suFma 3 1 2) := by decide +kernel
theorem test_decode_lp1 : decodeSu 0x50020005#32 = .ok (.suLp1 2 5) := by decide +kernel
theorem test_decode_cntnew : decode 0x0C03657B#32 = .ok (.cntnew 10 6) := by decide +kernel
theorem test_decode_vcvti : decode 0x6C49840B#32 = .ok (.vcvti 8 4 0 1 3) := by decide +kernel
theorem test_decode_vcpop : decode 0x0800550B#32 = .ok (.vcpop 10 0 0) := by decide +kernel
theorem test_decode_vmand : decode 0x1021D08B#32 = .ok (.vmand 1 3 2) := by decide +kernel
theorem test_decode_vtopk : decode 0x4C83500B#32 = .ok (.vtopk 0 6 8 0) := by decide +kernel
theorem test_decode_qcomp : decode 0x0000600B#32 = .ok (.qcomp 0 0 0) := by decide +kernel
theorem test_decode_mldg : decode 0x05C8505B#32 = .ok (.mldg 16 28 5 0) := by decide +kernel
theorem test_decode_wsrch : decode 0xC075C02B#32 = .ok (.wsrch 0 11 7 0 0) := by decide +kernel

/-! ## One word for each encoded constructor, its fields laid out from the tables of R69 to R81 -/

noncomputable def words_base : List (Nat × Instr) :=
  [(0xA5C962B7, .lui 5 679062), (0xA5C96297, .auipc 5 679062), (0x92D4B1EF, .jal 3 679062),
   (0xC9628367, .jalr 6 5 3222), (0x0560000F, .fence 0 5 6), (0x8330000F, .fenceTso)]
theorem test_words_base : ∀ p ∈ words_base, decode (BitVec.ofNat 32 p.1) = .ok p.2 := by decide +kernel

noncomputable def words_branches : List (Nat × Instr) :=
  [(0xCA518C63, .beq 3 5 2652), (0xCA519C63, .bne 3 5 2652), (0xCA51CC63, .blt 3 5 2652),
   (0xCA51DC63, .bge 3 5 2652), (0xCA51EC63, .bltu 3 5 2652), (0xCA51FC63, .bgeu 3 5 2652)]
theorem test_words_branches : ∀ p ∈ words_branches, decode (BitVec.ofNat 32 p.1) = .ok p.2 := by decide +kernel

noncomputable def words_loads : List (Nat × Instr) :=
  [(0xC9628303, .lb 6 5 3222), (0xC9629303, .lh 6 5 3222), (0xC962A303, .lw 6 5 3222), (0xC962B303, .ld 6 5 3222),
   (0xC962C303, .lbu 6 5 3222), (0xC962D303, .lhu 6 5 3222), (0xC962E303, .lwu 6 5 3222)]
theorem test_words_loads : ∀ p ∈ words_loads, decode (BitVec.ofNat 32 p.1) = .ok p.2 := by decide +kernel

noncomputable def words_stores : List (Nat × Instr) :=
  [(0xA4518E23, .sb 3 5 2652), (0xA4519E23, .sh 3 5 2652), (0xA451AE23, .sw 3 5 2652), (0xA451BE23, .sd 3 5 2652)]
theorem test_words_stores : ∀ p ∈ words_stores, decode (BitVec.ofNat 32 p.1) = .ok p.2 := by decide +kernel

noncomputable def words_imm : List (Nat × Instr) :=
  [(0xC9628313, .addi 6 5 3222), (0xC962A313, .slti 6 5 3222), (0xC962B313, .sltiu 6 5 3222),
   (0xC962C313, .xori 6 5 3222), (0xC962E313, .ori 6 5 3222), (0xC962F313, .andi 6 5 3222),
   (0x03629313, .slli 6 5 54), (0x0362D313, .srli 6 5 54), (0x4362D313, .srai 6 5 54)]
theorem test_words_imm : ∀ p ∈ words_imm, decode (BitVec.ofNat 32 p.1) = .ok p.2 := by decide +kernel

noncomputable def words_op : List (Nat × Instr) :=
  [(0x00328333, .add 6 5 3), (0x40328333, .sub 6 5 3), (0x00329333, .sll 6 5 3), (0x0032A333, .slt 6 5 3),
   (0x0032B333, .sltu 6 5 3), (0x0032C333, .xor 6 5 3), (0x0032D333, .srl 6 5 3), (0x4032D333, .sra 6 5 3),
   (0x0032E333, .or 6 5 3), (0x0032F333, .and 6 5 3), (0x02328333, .mul 6 5 3), (0x02329333, .mulh 6 5 3),
   (0x0232A333, .mulhsu 6 5 3), (0x0232B333, .mulhu 6 5 3), (0x0232C333, .div 6 5 3), (0x0232D333, .divu 6 5 3),
   (0x0232E333, .rem 6 5 3), (0x0232F333, .remu 6 5 3)]
theorem test_words_op : ∀ p ∈ words_op, decode (BitVec.ofNat 32 p.1) = .ok p.2 := by decide +kernel

noncomputable def words_imm32 : List (Nat × Instr) :=
  [(0xC962831B, .addiw 6 5 3222), (0x0032931B, .slliw 6 5 3), (0x0032D31B, .srliw 6 5 3),
   (0x4032D31B, .sraiw 6 5 3)]
theorem test_words_imm32 : ∀ p ∈ words_imm32, decode (BitVec.ofNat 32 p.1) = .ok p.2 := by decide +kernel

noncomputable def words_op32 : List (Nat × Instr) :=
  [(0x0032833B, .addw 6 5 3), (0x4032833B, .subw 6 5 3), (0x0032933B, .sllw 6 5 3), (0x0032D33B, .srlw 6 5 3),
   (0x4032D33B, .sraw 6 5 3), (0x0232833B, .mulw 6 5 3), (0x0232C33B, .divw 6 5 3), (0x0232D33B, .divuw 6 5 3),
   (0x0232E33B, .remw 6 5 3), (0x0232F33B, .remuw 6 5 3)]
theorem test_words_op32 : ∀ p ∈ words_op32, decode (BitVec.ofNat 32 p.1) = .ok p.2 := by decide +kernel

noncomputable def words_amo : List (Nat × Instr) :=
  [(0x160323AF, .lrW 7 6 1 1), (0x160333AF, .lrD 7 6 1 1), (0x1E63A1AF, .scW 3 7 6 1 1),
   (0x1E63B1AF, .scD 3 7 6 1 1), (0x0E63A1AF, .amoswapW 3 7 6 1 1), (0x0663A1AF, .amoaddW 3 7 6 1 1),
   (0x2663A1AF, .amoxorW 3 7 6 1 1), (0x6663A1AF, .amoandW 3 7 6 1 1), (0x4663A1AF, .amoorW 3 7 6 1 1),
   (0x8663A1AF, .amominW 3 7 6 1 1), (0xA663A1AF, .amomaxW 3 7 6 1 1), (0xC663A1AF, .amominuW 3 7 6 1 1),
   (0xE663A1AF, .amomaxuW 3 7 6 1 1), (0x0E63B1AF, .amoswapD 3 7 6 1 1), (0x0663B1AF, .amoaddD 3 7 6 1 1),
   (0x2663B1AF, .amoxorD 3 7 6 1 1), (0x6663B1AF, .amoandD 3 7 6 1 1), (0x4663B1AF, .amoorD 3 7 6 1 1),
   (0x8663B1AF, .amominD 3 7 6 1 1), (0xA663B1AF, .amomaxD 3 7 6 1 1), (0xC663B1AF, .amominuD 3 7 6 1 1),
   (0xE663B1AF, .amomaxuD 3 7 6 1 1)]
theorem test_words_amo : ∀ p ∈ words_amo, decode (BitVec.ofNat 32 p.1) = .ok p.2 := by decide +kernel

noncomputable def words_system : List (Nat × Instr) :=
  [(0x00000073, .ecall), (0x00100073, .ebreak), (0xC9629373, .csrrw 6 5 3222), (0xC962A373, .csrrs 6 5 3222),
   (0xC962B373, .csrrc 6 5 3222), (0xC962D373, .csrrwi 6 3222 5), (0xC962E373, .csrrsi 6 3222 5),
   (0xC962F373, .csrrci 6 3222 5)]
theorem test_words_system : ∀ p ∈ words_system, decode (BitVec.ofNat 32 p.1) = .ok p.2 := by decide +kernel

noncomputable def words_va_1 : List (Nat × Instr) :=
  [(0x0253038B, .vaddVv 7 6 5 1), (0x0253138B, .vaddVx 7 6 5 1), (0x0253238B, .vaddVi 7 6 5 1),
   (0x0653038B, .vsubVv 7 6 5 1), (0x0653138B, .vsubVx 7 6 5 1), (0x0A53138B, .vrsubVx 7 6 5 1),
   (0x0A53238B, .vrsubVi 7 6 5 1), (0x0E53038B, .vminuVv 7 6 5 1), (0x0E53138B, .vminuVx 7 6 5 1),
   (0x1253038B, .vminVv 7 6 5 1), (0x1253138B, .vminVx 7 6 5 1), (0x1653038B, .vmaxuVv 7 6 5 1),
   (0x1653138B, .vmaxuVx 7 6 5 1), (0x1A53038B, .vmaxVv 7 6 5 1), (0x1A53138B, .vmaxVx 7 6 5 1),
   (0x1E53038B, .vandVv 7 6 5 1), (0x1E53138B, .vandVx 7 6 5 1), (0x1E53238B, .vandVi 7 6 5 1),
   (0x2253038B, .vorVv 7 6 5 1), (0x2253138B, .vorVx 7 6 5 1), (0x2253238B, .vorVi 7 6 5 1),
   (0x2653038B, .vxorVv 7 6 5 1), (0x2653138B, .vxorVx 7 6 5 1), (0x2653238B, .vxorVi 7 6 5 1),
   (0x2A53038B, .vsllVv 7 6 5 1), (0x2A53138B, .vsllVx 7 6 5 1), (0x2A53238B, .vsllVi 7 6 5 1),
   (0x2E53038B, .vsrlVv 7 6 5 1), (0x2E53138B, .vsrlVx 7 6 5 1), (0x2E53238B, .vsrlVi 7 6 5 1),
   (0x3253038B, .vsraVv 7 6 5 1), (0x3253138B, .vsraVx 7 6 5 1), (0x3253238B, .vsraVi 7 6 5 1),
   (0x3653038B, .vmulVv 7 6 5 1), (0x3653138B, .vmulVx 7 6 5 1), (0x3A53038B, .vmulhVv 7 6 5 1),
   (0x3A53138B, .vmulhVx 7 6 5 1), (0x3E53038B, .vmulhuVv 7 6 5 1), (0x3E53138B, .vmulhuVx 7 6 5 1),
   (0x4253038B, .vdivuVv 7 6 5 1), (0x4253138B, .vdivuVx 7 6 5 1), (0x4653038B, .vdivVv 7 6 5 1),
   (0x4653138B, .vdivVx 7 6 5 1), (0x4A53038B, .vremuVv 7 6 5 1), (0x4A53138B, .vremuVx 7 6 5 1),
   (0x4E53038B, .vremVv 7 6 5 1), (0x4E53138B, .vremVx 7 6 5 1), (0x5253038B, .vmaccVv 7 6 5 1)]
theorem test_words_va_1 : ∀ p ∈ words_va_1, decode (BitVec.ofNat 32 p.1) = .ok p.2 := by decide +kernel

noncomputable def words_va_2 : List (Nat × Instr) :=
  [(0x5253138B, .vmaccVx 7 6 5 1), (0x5653038B, .vsadduVv 7 6 5 1), (0x5653138B, .vsadduVx 7 6 5 1),
   (0x5653238B, .vsadduVi 7 6 5 1), (0x5A53038B, .vsaddVv 7 6 5 1), (0x5A53138B, .vsaddVx 7 6 5 1),
   (0x5A53238B, .vsaddVi 7 6 5 1), (0x5E53038B, .vssubuVv 7 6 5 1), (0x5E53138B, .vssubuVx 7 6 5 1),
   (0x6253038B, .vssubVv 7 6 5 1), (0x6253138B, .vssubVx 7 6 5 1), (0x6653038B, .vnclipuVv 7 6 5 1),
   (0x6653138B, .vnclipuVx 7 6 5 1), (0x6653238B, .vnclipuVi 7 6 5 1), (0x6A53038B, .vnclipVv 7 6 5 1),
   (0x6A53138B, .vnclipVx 7 6 5 1), (0x6A53238B, .vnclipVi 7 6 5 1), (0x6E5A818B, .vcvti 3 5 1 1 5),
   (0x7232830B, .vmergeVv 6 5 3), (0x7232930B, .vmergeVx 6 5 3), (0x7232A30B, .vmergeVi 6 5 3),
   (0x7602830B, .vmvVv 6 5 1), (0x7602930B, .vmvVx 6 5 1), (0x7602A30B, .vmvVi 6 5 1), (0xA250030B, .vabs 6 5 1),
   (0xA650030B, .vbcnt 6 5 1), (0x8253038B, .vmseqVv 7 6 5 1), (0x8253138B, .vmseqVx 7 6 5 1),
   (0x8253238B, .vmseqVi 7 6 5 1), (0x8653038B, .vmsneVv 7 6 5 1), (0x8653138B, .vmsneVx 7 6 5 1),
   (0x8653238B, .vmsneVi 7 6 5 1), (0x8A53038B, .vmsltuVv 7 6 5 1), (0x8A53138B, .vmsltuVx 7 6 5 1),
   (0x8E53038B, .vmsltVv 7 6 5 1), (0x8E53138B, .vmsltVx 7 6 5 1), (0x9253038B, .vmsleuVv 7 6 5 1),
   (0x9253138B, .vmsleuVx 7 6 5 1), (0x9253238B, .vmsleuVi 7 6 5 1), (0x9653038B, .vmsleVv 7 6 5 1),
   (0x9653138B, .vmsleVx 7 6 5 1), (0x9653238B, .vmsleVi 7 6 5 1), (0x9A53038B, .vmsgtuVv 7 6 5 1),
   (0x9A53138B, .vmsgtuVx 7 6 5 1), (0x9A53238B, .vmsgtuVi 7 6 5 1), (0x9E53038B, .vmsgtVv 7 6 5 1),
   (0x9E53138B, .vmsgtVx 7 6 5 1), (0x9E53238B, .vmsgtVi 7 6 5 1)]
theorem test_words_va_2 : ∀ p ∈ words_va_2, decode (BitVec.ofNat 32 p.1) = .ok p.2 := by decide +kernel

noncomputable def words_va_3 : List (Nat × Instr) :=
  [(0x0253338B, .vfaddVv 7 6 5 1), (0x0253438B, .vfaddVf 7 6 5 1), (0x0653338B, .vfsubVv 7 6 5 1),
   (0x0653438B, .vfsubVf 7 6 5 1), (0x0A53438B, .vfrsubVf 7 6 5 1), (0x0E53338B, .vfmulVv 7 6 5 1),
   (0x0E53438B, .vfmulVf 7 6 5 1), (0x1253338B, .vfmaccVv 7 6 5 1), (0x1253438B, .vfmaccVf 7 6 5 1),
   (0x1653338B, .vfnmsacVv 7 6 5 1), (0x1653438B, .vfnmsacVf 7 6 5 1), (0x1A53338B, .vfminVv 7 6 5 1),
   (0x1A53438B, .vfminVf 7 6 5 1), (0x1E53338B, .vfmaxVv 7 6 5 1), (0x1E53438B, .vfmaxVf 7 6 5 1),
   (0x2253338B, .vfsgnjVv 7 6 5 1), (0x2253438B, .vfsgnjVf 7 6 5 1), (0x2653338B, .vfsgnjnVv 7 6 5 1),
   (0x2653438B, .vfsgnjnVf 7 6 5 1), (0x2A53338B, .vfsgnjxVv 7 6 5 1), (0x2A53438B, .vfsgnjxVf 7 6 5 1),
   (0x3650330B, .vfrcp 6 5 1), (0x3A50330B, .vfrsqrt 6 5 1), (0x3E50330B, .vfexp2 6 5 1),
   (0x4250330B, .vfclass 6 5 1), (0x4652B38B, .vfcvt 7 5 1 5), (0x8253338B, .vmfeqVv 7 6 5 1),
   (0x8253438B, .vmfeqVf 7 6 5 1), (0x8653338B, .vmfneVv 7 6 5 1), (0x8653438B, .vmfneVf 7 6 5 1),
   (0x8A53338B, .vmfltVv 7 6 5 1), (0x8A53438B, .vmfltVf 7 6 5 1), (0x8E53338B, .vmfleVv 7 6 5 1),
   (0x8E53438B, .vmfleVf 7 6 5 1), (0x9253338B, .vmfgtVv 7 6 5 1), (0x9253438B, .vmfgtVf 7 6 5 1),
   (0x9653338B, .vmfgeVv 7 6 5 1), (0x9653438B, .vmfgeVf 7 6 5 1), (0x9A53338B, .vmfordVv 7 6 5 1),
   (0x9A53438B, .vmfordVf 7 6 5 1), (0x0253538B, .vsrch 7 6 5 1), (0x0653538B, .vsrng 7 6 5 1),
   (0x0A50530B, .vcpop 6 5 1), (0x0E50530B, .vfirst 6 5 1), (0x1032D30B, .vmand 6 5 3), (0x1432D30B, .vmor 6 5 3),
   (0x1832D30B, .vmxor 6 5 3), (0x1C32D30B, .vmandn 6 5 3)]
theorem test_words_va_3 : ∀ p ∈ words_va_3, decode (BitVec.ofNat 32 p.1) = .ok p.2 := by decide +kernel

noncomputable def words_va_4 : List (Nat × Instr) :=
  [(0x2032D30B, .vmnand 6 5 3), (0x2432D30B, .vmnor 6 5 3), (0x2832D30B, .vmorn 6 5 3),
   (0x2C32D30B, .vmxnor 6 5 3), (0x3250530B, .vmsbf 6 5 1), (0x3650530B, .vmsif 6 5 1),
   (0x3A50530B, .vmsof 6 5 1), (0x3E50530B, .viota 6 5 1), (0x4200528B, .vid 5 1), (0x4432D30B, .vcompress 6 5 3),
   (0x4801D28B, .vcompi 5 3), (0x4E53538B, .vtopk 7 6 5 1), (0x5253538B, .vlut 7 6 5 1),
   (0x5653538B, .vbfly 7 6 5 1), (0x5832D30B, .vhad 6 5 3), (0x5C32D30B, .vxchg 6 5 3),
   (0x6253538B, .vslideup 7 6 5 1), (0x6653538B, .vslidedown 7 6 5 1), (0x6A53538B, .vrgather 7 6 5 1),
   (0x6E53538B, .vredsum 7 6 5 1), (0x7253538B, .vredmax 7 6 5 1), (0x7653538B, .vredmin 7 6 5 1),
   (0x7A53538B, .vredmaxu 7 6 5 1), (0x7E53538B, .vredminu 7 6 5 1), (0x8253538B, .vfredsum 7 6 5 1),
   (0x8653538B, .vfredosum 7 6 5 1), (0x8A53538B, .vfredmax 7 6 5 1), (0x8E53538B, .vfredmin 7 6 5 1),
   (0x9430528B, .vmvxs 5 3), (0x9801D28B, .vmvsx 5 3), (0x0250630B, .qcomp 6 5 1), (0x0653638B, .vquant 7 6 5 1),
   (0x0A50630B, .vdequant 6 5 1), (0x0C01E28B, .qbind 5 3), (0x1000618B, .qunbind 3), (0x1432E30B, .qmul 6 5 3),
   (0x1832E30B, .qmulx 6 5 3), (0x1C32E30B, .qmax 6 5 3), (0x2030628B, .qrcp 5 3), (0x2431630B, .qcvt 6 2 3),
   (0x2830628B, .qmv 5 3), (0x2C01E28B, .qtag 5 3), (0x3032E30B, .qbindt 6 5 3), (0x3400618B, .qunbindt 3)]
theorem test_words_va_4 : ∀ p ∈ words_va_4, decode (BitVec.ofNat 32 p.1) = .ok p.2 := by decide +kernel

noncomputable def words_vm : List (Nat × Instr) :=
  [(0x0E0321AB, .vle 3 6 3 1 2), (0x2E0321AB, .vse 3 6 3 1 2), (0x4E63A2AB, .vlse 5 7 6 3 1 2),
   (0x6E63A2AB, .vsse 5 7 6 3 1 2), (0x8E63A2AB, .vlxe 5 7 6 3 1 2), (0xAE63A2AB, .vsxe 5 7 6 3 1 2),
   (0xCC5303AB, .vlq 7 6 5 3), (0xCC5313AB, .vsq 7 6 5 3), (0xCC5323AB, .qld 7 6 5 3), (0xCC02B32B, .qst 6 5 3),
   (0xCE63C1AB, .wsrch 3 7 6 3 1), (0xCE63D1AB, .wdot 3 7 6 3 1), (0xCE63E1AB, .wtopk 3 7 6 3 1),
   (0xE25303AB, .vamoAdd 7 6 5 1), (0xE65303AB, .vamoAnd 7 6 5 1), (0xEA5303AB, .vamoOr 7 6 5 1),
   (0xEE5303AB, .vamoXor 7 6 5 1), (0xF25303AB, .vamoSmin 7 6 5 1), (0xF65303AB, .vamoSmax 7 6 5 1),
   (0xFA5303AB, .vamoUmax 7 6 5 1), (0xFE5303AB, .vamoSwap 7 6 5 1), (0xE25313AB, .vlgl 7 6 5 1),
   (0xE25323AB, .vssc 7 6 5 1), (0xE202B32B, .vfascan 6 5 1)]
theorem test_words_vm : ∀ p ∈ words_vm, decode (BitVec.ofNat 32 p.1) = .ok p.2 := by decide +kernel

noncomputable def words_ex : List (Nat × Instr) :=
  [(0x0201D0DB, .mld 3 5 1), (0x0432E0DB, .mldg 5 3 6 1), (0x060030DB, .mflip 3 1), (0x0801D0DB, .mmac 3 5 1),
   (0x0A32E0DB, .mgrp 5 3 6 1), (0x0C32E0DB, .mst 5 3 6 1), (0x0E0030DB, .mzero 3 1), (0x1001D0DB, .mtile 3 5 1),
   (0x4001D05B, .cpy 3 5), (0x4201D05B, .cpyx 3 5), (0x4401D05B, .cpyf 3 5), (0x6032E0DB, .vsend 5 3 6 1),
   (0x6201D35B, .vrecv 6 3 5), (0x6432E05B, .msgx 5 3 6), (0x7032E05B, .nmq 5 3 6), (0x8001D05B, .kvsplice 3 5),
   (0x8201D05B, .kvrepair 3 5), (0x8401D05B, .kvcommit 3 5), (0x8601D05B, .kvseal 3 5),
   (0x8801D05B, .kvgather 3 5), (0x9001D05B, .gwalk 3 5), (0x9201D05B, .gins 3 5), (0x9401D05B, .gdel 3 5)]
theorem test_words_ex : ∀ p ∈ words_ex, decode (BitVec.ofNat 32 p.1) = .ok p.2 := by decide +kernel

noncomputable def words_cx : List (Nat × Instr) :=
  [(0x4962837B, .vsetvli 6 5 1174), (0x4962937B, .vsetivli 6 1174 5), (0x0032A37B, .vsetvl 6 5 3),
   (0x0201A2FB, .vsetmt 5 3), (0xC962B07B, .loop 5 3222), (0xC962C07B, .loopi 3222 5), (0x0000507B, .lpbrk),
   (0x023052FB, .lpidx 5 3), (0x0430507B, .tkpost 3), (0x0630507B, .tkwait 3), (0x0801D07B, .bararv 3),
   (0x0A01D07B, .barwait 3), (0x0C01D07B, .barsync 3), (0x0EF1D07B, .fenceS 1 1 1 1 3), (0x1001D07B, .publish 3),
   (0x1201D07B, .pubwait 3), (0x1400507B, .yield), (0x1600507B, .sexit), (0x0001E2FB, .launch 5 3),
   (0x0232E37B, .gsubmit 6 5 3), (0x0432E07B, .cntwait 5 3), (0x0601E2FB, .cntread 5 3), (0x0801E07B, .cancel 3),
   (0x0A01E07B, .hpart 3), (0x0C01E2FB, .cntnew 5 3), (0x0000707B, .tret), (0x0200707B, .idle),
   (0x0401F07B, .ctxsave 3), (0x0601F07B, .ctxload 3), (0x0832F07B, .tlbinv 5 3), (0x0A01F07B, .keyinv 3)]
theorem test_words_cx : ∀ p ∈ words_cx, decode (BitVec.ofNat 32 p.1) = .ok p.2 := by decide +kernel

noncomputable def words_unit : List (Nat × Instr) :=
  [(0x00650001, .suLd 3 5 1), (0x04650001, .suSt 3 5 1), (0x08653000, .suAdd 3 5 6), (0x0C653000, .suSub 3 5 6),
   (0x10653000, .suMul 3 5 6), (0x14653000, .suFma 3 5 6), (0x18653000, .suFms 3 5 6), (0x1C653000, .suMin 3 5 6),
   (0x20653000, .suMax 3 5 6), (0x24650000, .suAbs 3 5), (0x28653002, .suCmp 3 5 6 2),
   (0x2C653002, .suSel 3 5 6 2), (0x30653000, .suAnd 3 5 6), (0x34653000, .suOr 3 5 6),
   (0x38653000, .suXor 3 5 6), (0x3C650006, .suCvt 3 5 6), (0x40650000, .suRcp 3 5), (0x44650000, .suRsqrt 3 5),
   (0x48650000, .suBc 3 5), (0x4C650000, .suMov 3 5), (0x50030025, .suLp1 3 37), (0x54030025, .suLp2 3 37),
   (0x58650524, .suPadd 3 5 1316), (0x5C000000, .suEnd)]
theorem test_words_unit : ∀ p ∈ words_unit, decodeSu (BitVec.ofNat 32 p.1) = .ok p.2 := by decide +kernel

/-! ## An ill-formed term for each check of the fields -/

noncomputable def illFormed1 : List Instr :=
  [.fence 1 3 3, .fence 8 3 3, .tkpost 0, .tkpost 5, .tkwait 0, .fenceS 0 0 0 0 1, .fenceS 1 0 0 0 5, .vcvti 1 2 0 0 7,
   .vfcvt 1 2 0 6, .vle 1 2 0 0 6, .vse 1 2 0 0 7, .vlse 1 2 3 0 0 6, .vsse 1 2 3 0 0 6, .vlxe 1 2 3 0 0 6,
   .vsxe 1 2 3 0 0 6, .qcvt 1 3 0, .qcvt 1 4 0, .suLd 24 0 0, .suSt 0 8 0, .suAdd 24 0 0, .suSub 0 24 0, .suMul 0 0 24,
   .suFma 24 0 0, .suFms 0 24 0, .suMin 0 0 24, .suMax 24 0 0, .suAbs 0 24]
noncomputable def illFormed2 : List Instr :=
  [.suCmp 4 0 0 0, .suCmp 0 0 0 3, .suSel 24 0 0 0, .suAnd 24 0 0, .suOr 0 24 0, .suXor 0 0 24, .suCvt 0 0 6,
   .suRcp 24 0, .suRsqrt 0 24, .suBc 0 16, .suMov 0 24, .suLp1 0 0, .suLp2 0 97, .suPadd 0 0 2, .stall 5, .tokenPush 2,
   .tokenMarkerHead 0, .commandAccept 1, .commandRetire 5 0, .arrayWipe 48 0, .partitionPartApply 0 8, .sample 48,
   .thermalWarning 4 0, .thermalCriticalStop 4 0, .backgroundCheck 0 0 512 .none, .spareReplacement 0 256]
noncomputable def illFormed3 : List Instr :=
  [.spareRemap 48 0, .arrayWithdraw 48 0, .dieFence 4, .dutyCycling 48 1, .temperatureFall 4 0, .pcieCompletion 4,
   .bar2Read 4 0 1, .bar2Write 4 0 [], .configurationRequest 4 0 none, .unsupportedRequest 4 0,
   .strandRestore ⟨0, 0⟩ 48 0, .linkTraining 4 1 1]
theorem test_wf_1 : ∀ i ∈ illFormed1, i.wf = false := by decide +kernel
theorem test_wf_2 : ∀ i ∈ illFormed2, i.wf = false := by decide +kernel
theorem test_wf_3 : ∀ i ∈ illFormed3, i.wf = false := by decide +kernel

/-! ## Single steps from reset, with a word placed where the step fetches it -/

/-- The strand after one step. -/
noncomputable def after (w : Nat) : Option Strand :=
  match step (State.reset.withFetchWord 32 w) with
  | .next t => some t.strand
  | _ => none

/-- addi x1, x0, -1 (R94). -/
theorem test_step_addi : (after 0xFFF00093).map (readReg · 1) = some 0xFFFFFFFFFFFFFFFF#64 := by decide +kernel
/-- addi x0, x0, 5 writes nothing (R44). -/
theorem test_step_x0 : (after 0x00500013).map (readReg · 0) = some 0#64 := by decide +kernel
/-- lui x2, 0x80000 sign-extends (R93). -/
theorem test_step_lui : (after 0x80000137).map (readReg · 2) = some 0xFFFFFFFF80000000#64 := by decide +kernel
/-- divu by zero gives all ones (R95). -/
theorem test_step_divu : (after 0x0200D1B3).map (readReg · 3) = some 0xFFFFFFFFFFFFFFFF#64 := by decide +kernel

/-! ## Witnesses: states that meet the hypotheses of the statements -/

/-- A strand of context 1 that runs in slot 0 of hoop 0, and the machine with it: addresses 0 to 2^28 − 1 are HBM. -/
noncomputable def strand0 : Strand := { Strand.idle with
  count := 1, asid := 1, state := .running, pc := 0x10000#64, csr := { Csrs.reset with atp := 0x2001#64 } }
noncomputable def front : State := { State.reset.withFetchWord 32 0x00000013 with strand := strand0 }

/-- The page of the TLB that maps them. -/
def page0 : TlbEntry := { asid := 1, global := false, va := 0, bits := 28, pa := 0, pte := 0x4DF#64 }

/-- Another strand, other memory, another hub, hoop 0 or BAR0 in it. -/
noncomputable def withSt (st : Strand) : State := { front with strand := st }
noncomputable def withHub (h : Hub) : State := { front with hub := h }
noncomputable def withHoop (h : Hoop) : State := { front with hoops := [(0, h)] }

/-- A result that is a value for which a condition holds. -/
def gives {α : Type} (p : Except Stop α × State) (c : α → State → Bool) : Bool :=
  match p with
  | (.ok a, s) => c a s
  | _ => false
def traps {α : Type} (p : Except Stop α × State) : Bool :=
  match p with
  | (.error (.trap _), _) => true
  | _ => false

theorem of_gives {α : Type} {p : Except Stop α × State} {c : α → State → Bool} (h : gives p c = true) :
    ∃ a s, p = (.ok a, s) ∧ c a s = true := by
  rcases p with ⟨r, s⟩
  cases r with
  | ok a => exact ⟨a, s, rfl, h⟩
  | error e => cases h
/-- A result that is a trap for which a condition holds. -/
def trapping {α : Type} (p : Except Stop α × State) (c : Trap → State → Bool) : Bool :=
  match p with
  | (.error (.trap t), s) => c t s
  | _ => false
theorem of_trapping {α : Type} {p : Except Stop α × State} {c : Trap → State → Bool} (h : trapping p c = true) :
    ∃ t s, p = (.error (.trap t), s) ∧ c t s = true := by
  rcases p with ⟨_ | _, s⟩
  · rename_i e
    cases e with
    | trap t => exact ⟨t, s, rfl, h⟩
    | _ => cases h
  · cases h
theorem of_traps {α : Type} {p : Except Stop α × State} (h : traps p = true) : ∃ t s, p = (.error (.trap t), s) := by
  rcases p with ⟨r, s⟩
  cases r with
  | ok a => cases h
  | error e =>
    cases e with
    | trap t => exact ⟨t, s, rfl⟩
    | _ => cases h

theorem witness_DecodeUndoesEncode : (Sys2Proof.Instr.addi 1 0 5).wf = true ∧
    Sys2Proof.encode (.addi 1 0 5) = some 0x00500093#32 := by decide +kernel
theorem witness_EncodeUndoesDecode : decode 0x00500093#32 = .ok (.addi 1 0 5) ∧
    decodeSu 0x5C000000#32 = .ok .suEnd := by decide +kernel
theorem witness_StepRunsTheFrontsInstruction : nextTurn front = .front ∧ Claims.FrontGoes front ∧
    ∃ w s1, fetchWord front = (.ok w, s1) ∧ w = 0x00000013#32 :=
  ⟨by decide +kernel, by unfold Claims.FrontGoes; decide +kernel,
   have ⟨a, s, h, g⟩ := of_gives (c := fun w _ => w = 0x00000013#32) (p := fetchWord front) (by decide +kernel)
   ⟨a, s, h, by simpa using g⟩⟩
theorem witness_StepKeepsMemoryCanonical : State.reset.MemInv := by
  unfold State.MemInv; decide +kernel
theorem witness_StepKeepsX0Zero : State.reset.ZeroInv := by
  unfold State.ZeroInv; decide +kernel

/-- Registers of a strand at reset are full; register 1 of the second is empty, and the third steps. -/
noncomputable def holed : Strand := setEmpty strand0 1
theorem witness_ScalarArithmetic : Claims.Full front.strand [1, 2, 3] ∧ front.strand.dbgStep = false := by
  unfold Claims.Full; decide +kernel
theorem witness_MultiplyAndDivide : Claims.Full front.strand [31, 30, 0] ∧ front.strand.dbgStep = false ∧
    (0x0220903B#32).extractLsb' 0 7 = 0b0111011#7 ∧ (0x0220903B#32).extractLsb' 25 7 = 0b0000001#7 := by
  unfold Claims.Full; decide +kernel
theorem witness_JumpsAndBranches : Claims.Full front.strand [5, 31] ∧ front.strand.dbgStep = false := by
  unfold Claims.Full; decide +kernel
theorem witness_FrontHoldsAndStops : Claims.firstEmpty holed [2, 1, 3] = some 1 ∧ isQueuedWord front.fetched = false ∧
    (let st := { strand0 with dbgStep := true }
     Claims.Full st [1, 2, 3] ∧ st.dbgStep = true ∧ st.state = .running) := by
  unfold Claims.Full; decide +kernel

/-! ### Memory -/

theorem witness_MemoryAndPlaces : regionOf 0x100 = .hbm 0x100 ∧ regionOf (2 ^ 41 + 8) = .sram 8 ∧ Mem.reset.wf = true ∧
    smGet Mem.reset.poison 3 = none ∧ smGet { Mem.reset with poison := [(3, ())] }.poison 3 ≠ none := by decide +kernel

/-- A page in the TLB; a table of the third level below the second entry of the second. -/
noncomputable def served : State := withHoop { Hoop.reset with tlb := [page0] }
noncomputable def deep : State :=
  { hbmWrite 1 0x4008 (leBytes 8 (0x6000 / 2 ^ 13 * 2 ^ 10 + 1)) (hbmWrite 1 0x6000 (leBytes 8 0x4DF) front) with
    strand := strand0 }
noncomputable def port0 : Port := strandPort strand0 1
/-- The page in a bank, and a clean page in the tables: a store through it is its first. -/
noncomputable def banked : State := withHoop { Hoop.reset with banks := [(1, [page0])] }
noncomputable def clean : State := { hbmWrite 1 0x4000 (leBytes 8 0x45F) front with strand := strand0 }

theorem witness_Translation :
    (hoopOf served 0).tlb.find? (fun x => (x.global || x.asid = port0.asid) && x.va ≤ 0x123 && 0x123 < x.va + 2 ^ x.bits) =
      some page0 ∧ port0.hoop = some 0 ∧ (page0.pte.getLsbD 2 = true → page0.pte.getLsbD 7 = true) ∧
    (∃ pl s, translate port0 0x123 .store served = (.ok pl, s) ∧ s = served ∧
      (checkPlace port0 0x123 1 true pl served).1.isOk = true ∧ port0.race = 0) ∧
    (hoopOf front 0).tlb.find? (tlbHits port0.asid 0x123) = none ∧
    (∃ e1 e2, Claims.entryAt front port0 (port0.root + 8 * natBits 0x123 47 38) = some e1 ∧ Claims.isTable e1 = true ∧
      Claims.entryAt front port0 (Claims.tableOf e1 + 8 * natBits 0x123 37 28) = some e2 ∧ Claims.isLeaf e2 = true ∧
      natBits e2 29 20 = 0) ∧
    (∃ e1 e2 e3, Claims.entryAt deep port0 (port0.root + 8 * natBits 0x10000123 47 38) = some e1 ∧
      Claims.isTable e1 = true ∧ Claims.entryAt deep port0 (Claims.tableOf e1 + 8 * natBits 0x10000123 37 28) = some e2 ∧
      Claims.isTable e2 = true ∧ Claims.entryAt deep port0 (Claims.tableOf e2 + 8 * natBits 0x10000123 27 18) = some e3 ∧
      Claims.isLeaf e3 = true) ∧
    (smRead [] (hoopOf banked 0).banks 1).find?
      (fun x => (x.global || x.asid = 1) && x.va ≤ 0x123 && 0x123 < x.va + 2 ^ x.bits) = some page0 ∧
    (∃ x s, walkFrom port0 0x123 3 port0.root clean = (.ok x, s) ∧ s = clean ∧ natBits x.2.1 2 2 = 1 ∧
      natBits x.2.1 7 7 = 0) :=
  ⟨by decide +kernel, by decide +kernel, by decide +kernel,
   have ⟨a, s, h, g⟩ := of_gives (p := translate port0 0x123 .store served)
     (c := fun pl s => s = served ∧ (checkPlace port0 0x123 1 true pl served).1.isOk = true ∧ port0.race = 0)
     (by decide +kernel)
   ⟨a, s, h, by simpa using g⟩,
   by decide +kernel,
   ⟨0x801, 0x4DF, by decide +kernel⟩, ⟨0x801, 0xC01, 0x4DF, by decide +kernel⟩,
   by decide +kernel,
   have ⟨a, s, h, g⟩ := of_gives (p := walkFrom port0 0x123 3 port0.root clean)
     (c := fun x s => s = clean ∧ natBits x.2.1 2 2 = 1 ∧ natBits x.2.1 7 7 = 0) (by decide +kernel)
   ⟨a, s, h, of_decide_eq_true g⟩⟩

/-- The channels of those machines are up; the sides of a strand have buffers. -/
theorem witness_PlacesAndWalks : Claims.ChannelsUp front ∧ Claims.ChannelsUp deep ∧ port0.id.isSome = true ∧ port0.agent ≤ 2 ∧
    port0.hoop = some 0 := by unfold Claims.ChannelsUp; decide +kernel

/-- An access of a strand to 8 bytes at address 0, with what the statements ask of it. -/
def Met (wr at' mmio : Bool) : Prop :=
  ∃ s1 s2 t pl bs, Claims.Reaches front s1 0 8 (!wr || at') wr at' mmio pl ∧ pl.first = none ∧ s1.strand = strand0 ∧
    loadPlace (strandPort front.strand 1) pl 8 0 s1 = (.ok bs, s2) ∧ s2.strand = strand0 ∧
    writePlace port0 pl (leBytes 8 7) s2 = (.ok (), t) ∧ t.strand.dbgStep = false ∧ t.strand.asid = 1 ∧
    regionOf pl.pa = .hbm 0 ∧ pl.pa % 4096 + 8 ≤ 4096
theorem reach0 (wr at' mmio : Bool) (h : gives (access port0 0 8 (!wr || at') wr at' mmio front) (fun pl s1 =>
      s1.strand = strand0 && gives (loadPlace port0 pl 8 0 s1) (fun _ s2 => s2.strand = strand0 &&
        gives (writePlace port0 pl (leBytes 8 7) s2) fun _ t => !t.strand.dbgStep && t.strand.asid = 1) &&
      pl.first = none && regionOf pl.pa = .hbm 0 && decide (pl.pa % 4096 + 8 ≤ 4096)) = true) : Met wr at' mmio := by
  obtain ⟨pl, s1, h1, g⟩ := of_gives h
  simp only [Bool.and_eq_true, decide_eq_true_eq] at g
  obtain ⟨⟨⟨⟨g1, g2⟩, g3⟩, g4⟩, g5⟩ := g
  obtain ⟨bs, s2, h2, k2⟩ := of_gives g2
  simp only [Bool.and_eq_true, decide_eq_true_eq] at k2
  obtain ⟨u, t, h3, k3⟩ := of_gives k2.2
  simp only [Bool.and_eq_true, decide_eq_true_eq, Bool.not_eq_true'] at k3
  exact ⟨s1, s2, t, pl, bs, h1, g3, g1, h2, k2.1, h3, k3.1, k3.2, g4, g5⟩

theorem first0 : ∃ s1 s2 t pl, Claims.Reaches clean s1 0 8 false true false true pl ∧ pl.first = some 0 ∧
    setDirty (strandPort clean.strand 1) 0 s1 = (.ok (), s2) ∧
    writePlace (strandPort clean.strand 1) { pl with first := none } (leBytes 8 7) s2 = (.ok (), t) ∧
    t.strand.dbgStep = false := by
  obtain ⟨pl, s1, h1, g⟩ := of_gives (p := access (strandPort clean.strand 1) 0 8 false true false true clean)
    (c := fun pl s1 => pl.first = some 0 ∧ gives (setDirty (strandPort clean.strand 1) 0 s1) (fun _ s2 =>
      gives (writePlace (strandPort clean.strand 1) { pl with first := none } (leBytes 8 7) s2) fun _ t =>
        !t.strand.dbgStep) = true) (by decide +kernel)
  obtain ⟨g1, g2⟩ := of_decide_eq_true g
  obtain ⟨u, s2, h2, k⟩ := of_gives g2
  obtain ⟨v, t, h3, k3⟩ := of_gives k
  exact ⟨s1, s2, t, pl, h1, g1, h2, h3, by simpa using k3⟩

theorem witness_LoadsAndStores : Claims.Full front.strand [0, 1] ∧ front.strand.dbgStep = false ∧
    Claims.addr front 0 0 = 0 ∧ Claims.addr front 0 7 % 8 ≠ 0 ∧ Claims.ClearOfVector front 0 8 ∧
    Claims.ClearToWrite front 0 8 ∧ Met false false true ∧ Met true false true ∧
    Claims.ClearToWrite clean 0 8 ∧ ∃ s1 s2 t pl, Claims.Reaches clean s1 0 8 false true false true pl ∧ pl.first = some 0 ∧
      setDirty (strandPort clean.strand 1) 0 s1 = (.ok (), s2) ∧
      writePlace (strandPort clean.strand 1) { pl with first := none } (leBytes 8 7) s2 = (.ok (), t) ∧
      t.strand.dbgStep = false :=
  ⟨by unfold Claims.Full; decide +kernel, by decide +kernel, by decide +kernel, by decide +kernel,
   by unfold Claims.ClearOfVector; decide +kernel, by unfold Claims.ClearToWrite Claims.ClearOfVector; decide +kernel,
   reach0 false false true (by decide +kernel), reach0 true false true (by decide +kernel),
   by unfold Claims.ClearToWrite Claims.ClearOfVector; decide +kernel, first0⟩

/-- A strand with a reservation of the granule of address 0. -/
noncomputable def reserved : State := withSt { strand0 with resv := some 0 }
theorem witness_LoadReservedAndStoreConditional : Claims.Full front.strand [0, 2, 3] ∧ front.strand.dbgStep = false ∧
    (readReg front.strand 0).toNat = 0 ∧ Claims.ClearToWrite front 0 8 ∧ Claims.Released front 1 ∧
    front.strand.resv = none ∧
    Met false true true ∧
    (∃ pl s0, translate (strandPort reserved.strand 1) 0 .load reserved = (.ok pl, s0) ∧
      reserved.strand.resv = some (canonical pl.pa / 64) ∧
      gives (access (strandPort reserved.strand 1) 0 8 false true true true s0) (fun pl s1 =>
        gives (writePlace (strandPort reserved.strand 1) pl (leBytes 8 0) s1) fun _ t =>
          !t.strand.dbgStep && t.strand.asid = 1) = true) ∧
    ∃ pl s0, translate (strandPort reserved.strand 1) 64 .load reserved = (.ok pl, s0) ∧ canonical pl.pa / 64 ≠ 0 ∧
      s0.strand.dbgStep = false ∧ s0.strand.asid = 1 := by
  refine ⟨by unfold Claims.Full; decide +kernel, by decide +kernel, by decide +kernel,
    by unfold Claims.ClearToWrite Claims.ClearOfVector; decide +kernel, by unfold Claims.Released; decide +kernel, by decide +kernel,
    reach0 false true true ?_, ?_, ?_⟩
  · decide +kernel
  · obtain ⟨a, s, h, g⟩ := of_gives (p := translate (strandPort reserved.strand 1) 0 .load reserved)
      (c := fun pl s0 => reserved.strand.resv = some (canonical pl.pa / 64) ∧
        gives (access (strandPort reserved.strand 1) 0 8 false true true true s0) (fun pl s1 =>
        gives (writePlace (strandPort reserved.strand 1) pl (leBytes 8 0) s1) fun _ t =>
          !t.strand.dbgStep && t.strand.asid = 1) = true) (by decide +kernel)
    exact ⟨a, s, h, by simpa using g⟩
  · obtain ⟨a, s, h, g⟩ := of_gives (p := translate (strandPort reserved.strand 1) 64 .load reserved)
      (c := fun pl s0 => canonical pl.pa / 64 ≠ 0 ∧ s0.strand.dbgStep = false ∧ s0.strand.asid = 1) (by decide +kernel)
    exact ⟨a, s, h, by simpa using g⟩

theorem witness_AtomicMemoryOperations : Claims.Full front.strand [0, 2, 3] ∧ front.strand.dbgStep = false ∧
    (readReg front.strand 0).toNat % 8 = 0 ∧ Claims.ClearToWrite front 0 8 ∧ Claims.Released front 1 ∧
    Met true true false :=
  ⟨by unfold Claims.Full; decide +kernel, by decide +kernel, by decide +kernel,
   by unfold Claims.ClearToWrite Claims.ClearOfVector; decide +kernel, by unfold Claims.Released; decide +kernel,
   reach0 true true false (by decide +kernel)⟩

/-! ### Control -/

/-- A strand with a handler and a place for its queue images; one whose place is not mapped; one at system level. -/
noncomputable def handled : Strand := { strand0 with csr := { strand0.csr with tvec := 0x8000#64, tvq := 0x20000#64 } }
noncomputable def lost : Strand := { strand0 with csr := { strand0.csr with tvec := 0x8000#64, tvq := 0x7F0000000000#64 } }
noncomputable def system : Strand := { handled with csr := { handled.csr with tstatus := 3#64 } }
noncomputable def systemLost : Strand := { lost with csr := { lost.csr with tstatus := 3#64 } }
def trap0 : Trap := { cause := 3, tval := 0, telem := 0 }
noncomputable def sysPort (st : Strand) : Port := { strandPort st 1 with sys := true, race := 0, id := none }

theorem witness_TrapsAreTaken :
    (let st := { strand0 with dbgArmed := true }; st.dbgArmed = true ∧ st.state = .running) ∧
    (let f : PendingFault := { trap := trap0, queue := .v, seq := 4, elem := 0 }
     let st := { strand0 with pending := [f], nextSeq := 5 }; st.pending = [f] ∧ f.seq < st.nextSeq) ∧
    (strand0.state ≠ .faulted ∧ (settlePending strand0).csr.tvec = 0) ∧
    (let st := settlePending handled
     st.csr.tvec ≠ 0 ∧ sysLevel st = false ∧ st.csr.tvq.toNat % 4096 = 0 ∧ ∃ u s2,
      let s1 := Claims.stopped trap0 (withSt handled)
      vsWriteBlock (sysPort s1.strand) st.csr.tvq.toNat (queueImage s1.strand) s1 = (.ok u, s2) ∧
        s2.strand.csr = s1.strand.csr ∧ s2.strand.x = s1.strand.x) ∧
    (let st := settlePending lost
     st.csr.tvec ≠ 0 ∧ sysLevel st = false ∧ st.csr.tvq.toNat % 4096 = 0 ∧ ∃ w s2,
      let s1 := Claims.stopped trap0 (withSt lost)
      vsWriteBlock (sysPort s1.strand) st.csr.tvq.toNat (queueImage s1.strand) s1 = (.error (.trap w), s2)) := by
  refine ⟨by decide +kernel, by decide +kernel, by decide +kernel, ⟨by decide +kernel, by decide +kernel,
    by decide +kernel, ?_⟩, ⟨by decide +kernel, by decide +kernel, by decide +kernel, ?_⟩⟩
  · have ⟨a, s, h, g⟩ := of_gives (p := (let s1 := Claims.stopped trap0 (withSt handled)
        vsWriteBlock (sysPort s1.strand) 0x20000 (queueImage s1.strand) s1))
      (c := fun _ s2 => s2.strand.csr = (Claims.stopped trap0 (withSt handled)).strand.csr ∧
        s2.strand.x = (Claims.stopped trap0 (withSt handled)).strand.x) (by decide +kernel)
    exact ⟨a, s, h, by simpa using g⟩
  · exact of_traps (by decide +kernel)

/-- At strand level with a handler, but a place for the images that is not aligned. -/
noncomputable def askew : Strand := { handled with csr := { handled.csr with tvq := 0x20008#64 } }
theorem witness_TrapsAreTaken2 : (let st := settlePending askew
      askew.state ≠ .faulted ∧ st.csr.tvq.toNat % 4096 ≠ 0 ∧ st.csr.tvec ≠ 0 ∧ sysLevel st = false) ∧
    (settlePending system).csr.tvec ≠ 0 ∧ sysLevel (settlePending system) = true ∧ system.vq = [] ∧
    (∃ w s2, vsWriteBlock (sysPort (Claims.stopped trap0 (withSt lost)).strand) (settlePending lost).csr.tvq.toNat
        (queueImage (Claims.stopped trap0 (withSt lost)).strand) (Claims.stopped trap0 (withSt lost)) = (.error (.trap w), s2) ∧
      s2.strand.state ≠ .faulted) := by
  refine ⟨by decide +kernel, by decide +kernel, by decide +kernel, by decide +kernel, ?_⟩
  obtain ⟨w, s2, h, k⟩ := of_trapping (p := vsWriteBlock (sysPort (Claims.stopped trap0 (withSt lost)).strand)
    (settlePending lost).csr.tvq.toNat (queueImage (Claims.stopped trap0 (withSt lost)).strand)
    (Claims.stopped trap0 (withSt lost))) (c := fun _ s2 => s2.strand.state ≠ .faulted) (by decide +kernel)
  exact ⟨w, s2, h, of_decide_eq_true k⟩

theorem witness_ReturningFromATrap : sysLevel strand0 = false ∧ sysLevel system = true ∧
    (∃ img s1, vsReadBlock (sysPort system) system.csr.tvq.toNat 4096 (withSt system) = (.ok img, s1) ∧
      s1.strand.dbgStep = false) ∧
    ∃ w s1, vsReadBlock (sysPort systemLost) systemLost.csr.tvq.toNat 4096 (withSt systemLost) = (.error (.trap w), s1) := by
  refine ⟨by decide +kernel, by decide +kernel, ?_, of_traps (by decide +kernel)⟩
  have ⟨a, s, h, g⟩ := of_gives (p := vsReadBlock (sysPort system) system.csr.tvq.toNat 4096 (withSt system))
    (c := fun _ s1 => s1.strand.dbgStep = false) (by decide +kernel)
  exact ⟨a, s, h, by simpa using g⟩

theorem witness_CsrAccesses : Claims.Full front.strand [1, 2] ∧ front.strand.dbgStep = false ∧
    Claims.Allowed front 0x008 ∧ Claims.Settled front 1 ∧ 0x008 ∈ userCsrs ++ systemCsrs ∧ csrListed 0x7FF = false ∧
    csrListed 0x100 = true ∧ (∃ n ∈ readOnlyCsrs, n < 4096) ∧ sysLevel front.strand = false ∧
    counted front.strand = true ∧ front.strand.vq = [] ∧ sysLevel system = true ∧
    (windowWrite (.strand 1) (windowBase 0) 0 (withSt system)).strand.dbgStep = false := by
  unfold Claims.Full Claims.Allowed Claims.Settled; decide +kernel

theorem witness_SettingTheVectorLength : Claims.Full front.strand [1, 2, 3] ∧ front.strand.dbgStep = false ∧
    front.strand.pendingGrant = none ∧
    (let st := { strand0 with pendingGrant := some [(0, 8)] }; st.pendingGrant = some [(0, 8)] ∧ st.vq = []) := by
  unfold Claims.Full; decide +kernel

/-- A loop entry whose end is the pc, and a strand in its body. -/
def loop0 : LoopEntry := { count := 1, index := 2, start := 0xFF00#48, stop := 0x10000#48 }
noncomputable def looping : Strand := { strand0 with loops := [loop0] }
theorem witness_FrontAndLoops : (∀ e ∈ strand0.loops.head?, e.stop.setWidth 64 ≠ strand0.pc) ∧
    looping.loops = [loop0] ∧ loop0.stop.setWidth 64 = looping.pc ∧ loop0.count = 1 ∧
    { loop0 with count := 3 }.count ≠ 1 ∧ Claims.Full looping [4] ∧ looping.dbgStep = false := by
  unfold Claims.Full; decide +kernel
theorem witness_LoopBreakAndIndex : looping.dbgStep = false ∧ looping.loops = loop0 :: [] ∧ strand0.loops = [] ∧
    isEmpty looping 3 = false ∧ looping.loops[(0#5).toNat]? = some loop0 ∧ looping.loops.length ≤ (1#5).toNat := by
  decide +kernel

/-- A counter of the strand's ASID, and a request of the strand. -/
def counter0 : Counter := { kind := .free, asid := 1, cancelled := false, rejected := false, reason := 0, final := false,
                            count := 0, expected := 2, parent := none, owner := none, job := none, level := 0 }
def request0 : HubReq := { strand := ⟨0, 0⟩, rd := 3, kind := .free, a := 2, b := 0, patched := false }
noncomputable def counting : Hub := { front.hub with counters := [(0, counter0)], incs := [(0, false)] }

theorem witness_Submissions : Claims.Full strand0 [1, 2, 3] ∧ strand0.dbgStep = false ∧ vMemBusy strand0 = false ∧
    (readReg strand0 1).toNat % 128 = 0 ∧ request0.strand = strand0.id ∧ isStrand strand0 = true ∧
    strand0.state ≠ .exited ∧ strand0.cancelled = false ∧ strand0.haltWait = none ∧ { front.hub with reqs := [request0] }.reqs = request0 :: [] ∧
    { strand0 with fePend := [⟨3, 7, 0⟩] }.fePend = ⟨3, 7, 0⟩ :: [] := by
  unfold Claims.Full; decide +kernel
theorem witness_Counters : Claims.Full strand0 [1, 2] ∧ strand0.dbgStep = false ∧
    Claims.Names (withHub counting) (readReg strand0 1) counter0 ∧ Claims.NamesNone front (readReg strand0 1) ∧
    (cancelAll 0 (withHub counting)).strand.dbgStep = false ∧ (0, false) ∈ counting.incs ∧
    (∀ y, (0, y) ∈ counting.incs → y = false) ∧ smGet counting.counters 0 = some counter0 ∧ counter0.final = false ∧
    counter0.count ≠ 0xFFFFFFFF#32 := by
  refine ⟨by unfold Claims.Full; decide +kernel, by decide +kernel, by unfold Claims.Names; decide +kernel, ?_,
    by and_intros <;> decide +kernel⟩
  rintro c ⟨_, h, _⟩
  have : smGet front.hub.counters (readReg front.strand 1).toNat = none := by decide +kernel
  exact absurd (this ▸ h) nofun

/-- A hoop barrier of two participants in which slot 0 takes part, and a strand of a launch with a launch barrier. -/
def barrier0 : Barrier := { slots := 1, asid := 1, participants := 2, count := 0, phase := false }
noncomputable def barred : State := withHoop { Hoop.reset with barriers := Hoop.reset.barriers.set 0 barrier0 }
def launch0 : Launch := { counter := 0, packet := 0, accepted := true, bytes := [], placed := 1, barrier := some 5
                          affinity := none, root := 0x2000, sysLevel := false }
noncomputable def launched : State := { front with
  strand := writeReg strand0 1 256, hub := { front.hub with launches := [launch0], barriers := [(5, barrier0)] } }

theorem witness_Barriers : Claims.Runs barred ∧ barred.strand.dbgStep = false ∧ Claims.Full barred.strand [1] ∧
    Claims.HoopBarrier barred (readReg barred.strand 1) 0 barrier0 ∧ barred.strand.barPending.getLsbD 0 = false ∧
    vMemBusy barred.strand = false ∧ barred.strand.barArrived = [] ∧ isQueuedWord barred.fetched = false ∧
    ({ barred.strand with barArrived := [barred.strand.pc] }).barArrived.contains barred.strand.pc = true ∧
    Claims.LaunchBarrier launched (readReg launched.strand 1) 5 barrier0 ∧ launched.strand.barPending.getLsbD 16 = false ∧
    (let s := withSt (writeReg strand0 1 256)
     (readReg s.strand 1).toNat = 256 ∧ (findLaunch s s.strand.id.launch).bind Launch.barrier = none) ∧
    (∀ v, (hoopOf front 0).barriers[(readReg front.strand 1).toNat]? = some v → v.slots.getLsbD 0 = false) := by
  refine ⟨by unfold Claims.Runs; decide +kernel, by decide +kernel, by unfold Claims.Full; decide +kernel,
    by unfold Claims.HoopBarrier; decide +kernel, by decide +kernel, by decide +kernel, by decide +kernel,
    by decide +kernel, by decide +kernel,
    by unfold Claims.LaunchBarrier; decide +kernel, by decide +kernel, by decide +kernel, ?_⟩
  intro v h
  have : (hoopOf front 0).barriers[(readReg front.strand 1).toNat]? = some Barrier.reset := by decide +kernel
  rw [this] at h
  cases h; decide +kernel

/-- The launch barrier while it pends, and on its last arrival; the strand has not arrived there yet, or it has. -/
noncomputable def pends : State := { launched with strand := { launched.strand with barPending := 1#17 <<< 16 } }
noncomputable def lastOne : State :=
  { launched with hub := { launched.hub with barriers := [(5, { barrier0 with count := 1 })] } }
noncomputable def lastHere : State :=
  withHoop { Hoop.reset with barriers := Hoop.reset.barriers.set 0 { barrier0 with count := 1 } }
theorem witness_Barriers2 : Claims.Runs pends ∧ Claims.Full pends.strand [1] ∧
    Claims.LaunchBarrier pends (readReg pends.strand 1) 5 barrier0 ∧ pends.strand.barPending.getLsbD 16 = true ∧
    Claims.LaunchBarrier lastOne (readReg lastOne.strand 1) 5 { barrier0 with count := 1 } ∧
    barrier0.participants ≤ 1 + 1 ∧ barrier0.count + 1 < barrier0.participants ∧
    launched.strand.barArrived.contains launched.strand.pc = false ∧ isQueuedWord launched.fetched = false ∧
    ({ launched.strand with barArrived := [launched.strand.pc] }).barArrived.contains launched.strand.pc = true ∧
    Claims.HoopBarrier lastHere (readReg lastHere.strand 1) 0 { barrier0 with count := 1 } ∧
    ({ barred.strand with barPending := 1 }).barPending.getLsbD 0 = true := by
  unfold Claims.Runs Claims.Full Claims.LaunchBarrier Claims.HoopBarrier; decide +kernel

theorem witness_FencesAndYield : strand0.dbgStep = false ∧ strand0.preempt = false ∧ strand0.cancelled = false ∧
    vMemBusy strand0 = false ∧ portsSettled front = true ∧ strand0.mq = [] ∧ strand0.cq = [] ∧ strand0.nq = [] := by
  decide +kernel
theorem witness_StrandsEndAndIdle : Claims.Runs front ∧ exitReady front = true ∧
    exitReady (withSt { strand0 with fePend := [⟨3, 7, 0⟩] }) = false ∧
    Claims.Runs (withSt { strand0 with cancelled := true }) ∧ strand0.loops = [] ∧ system.dbgStep = false ∧
    sysLevel system = true ∧ (system.woken || system.preempt || system.cancelled) = false := by
  unfold Claims.Runs; decide +kernel

/-! ### The V queue -/

/-- An entry of the V queue, of a word, a vtype and vl; a strand with one granted array and the entry at the head; and
the machine with it, in a hoop whose slot 0 has every array and both engines. -/
def ventry (w : Word32) (vt : Word) (vl : Nat) : VEntry :=
  { word := w, popped := false, vl := vl, vstart := 0, vtype := vt, mtype := 0, csr := 0, frm := 0, xrm := 0, a := 0, b := 0
    pc := 0, seq := 0, done := false, begun := false, lanes := none }
noncomputable def vstrand (e : VEntry) : Strand := { strand0 with arrays := [(0, 8)], vq := [e] }
def grant0 : SlotGrant := { enabled := true, asid := 1, engines := 3, sram := BitVec.allOnes 256, lanes := BitVec.allOnes 32 }
def sramPage : TlbEntry := { asid := 1, global := false, va := 2 ^ 28, bits := 28, pa := 2 ^ 41, pte := 0xDF#64 }
def hoop0 : Hoop := { Hoop.reset with grants := Hoop.reset.grants.set 0 grant0, tlb := [page0, sramPage] }
noncomputable def vstate (e : VEntry) : State :=
  { setBar0 0x28 8 1 front with strand := vstrand e, actor := .vec, hoops := [(0, hoop0)] }

theorem issues {e : VEntry} (h : e.done = false) (k : tkMeaning .v (tkOf e.word) = none) (l : e.lanes = none := by rfl) :
    Claims.Issues (vstate e) e :=
  { turn := rfl, head := rfl, fresh := h, whole := rfl, unstepped := l
    pop := fun q j => by rw [k] at j; cases j
    push := by simp [holdsForPush, pushBlocked, vPush, k] }
theorem starts {e : VEntry} (h : e.done = false) (k : tkMeaning .v (tkOf e.word) = none) (z : e.vstart = 0)
    (l : e.lanes = none := by rfl) : Claims.Starts (vstate e) e := ⟨issues h k l, z⟩
theorem typed {e : VEntry} (m : Bool) (h : vtypeLegal e.vtype = true) (k : e.vl ≤ vlmax 512 e.vtype)
    (l : lmulOf e.vtype ≤ sewOf e.vtype) : Claims.Typed (vstate e).strand e m :=
  ⟨h, k, fun _ => l, fun r => by
    show (Vector.replicate 32 ([] : SMap Unit))[r % 32]'_ = []
    simp⟩
theorem oneDie (e : VEntry) : Claims.OneDie (vstate e).strand := by
  unfold Claims.OneDie; exact (by decide +kernel : ∀ a ∈ [((0 : Nat), (8 : Nat))], ∀ b ∈ [((0 : Nat), (8 : Nat))], a.1 / 12 = b.1 / 12)

/-- An entry without a pop takes none. -/
theorem popped_same {e : VEntry} {s : State} (k : tkMeaning .v (tkOf e.word) = none) : Claims.popped e s = s := by
  unfold Claims.popped; rw [k]

/-- Entries of three elements: integers of 32 and 16 bits, groups of two, FP32. -/
def i32 : VEntry := ventry 0x0053038B 0x28 3
def i16 : VEntry := ventry 0x0053038B 0x20 3
def i32x2 : VEntry := ventry 0x0053038B 0x29 3
def f32 : VEntry := ventry 0x0253338B 0x68 3

theorem witness_TokensBetweenQueues : strand0.dbgStep = false ∧ tokens strand0 .s .v ≠ 15 ∧ strand0.vq.length < 64 ∧
    Queue.ofCode (2#5).toNat = some .m ∧ (cmdQueue strand0 .m).length < 16 ∧ tokens strand0 .m .s = 0 ∧
    tokens (setTokens strand0 .s .v 15) .s .v = 15 ∧
    (let e := ventry 0x0410507B 0x28 3; (vstrand e).vq = e :: [] ∧ e.done = false ∧
      isMarker e.word = true) ∧ tkMeaning .v (tkOf 0x0E0321AB#32) = some (true, .c) ∧
    tkMeaning .v (tkOf 0x160321AB#32) = some (false, .m) ∧ tkMeaning .v (tkOf 0x0253038B#32) = none := by decide +kernel

/-- A load with a push to C, while that counter is full; one with a pop from M, which has none. -/
noncomputable def pusher : State :=
  withSt (setTokens { strand0 with vq := [ventry 0x0E0321AB 0x28 3] } .v .c 15)
noncomputable def popper : State := withSt { strand0 with vq := [ventry 0x160321AB 0x28 3] }
theorem witness_TokensBetweenQueues2 : pusher.strand.vq = ventry 0x0E0321AB 0x28 3 :: [] ∧
    holdsForPush pusher.strand (ventry 0x0E0321AB 0x28 3) = true ∧ tokens pusher.strand .v .c = 15 ∧
    tokens strand0 .v .c ≠ 15 ∧ Claims.writesOut 0x0E0321AB#32 = false ∧ isVecWord 0x0E0321AB#32 = true ∧
    (∃ i, Sys2Proof.encode i = some 0x0E0321AB#32) ∧ tkMeaning .v (tkOf 0x160321AB#32) = some (false, .m) ∧
    tokens popper.strand .m .v = 0 ∧ ({ popper with actor := .vec }).actor = .vec := by
  refine ⟨by decide +kernel, by decide +kernel, by decide +kernel, by decide +kernel, by decide +kernel, by decide +kernel,
    ?_, by decide +kernel, by decide +kernel, rfl⟩
  have h : ((decode 0x0E0321AB#32).toOption.any fun i => Sys2Proof.encode i = some 0x0E0321AB#32) = true := by decide +kernel
  obtain ⟨i, -, k⟩ := (Option.any_eq_true _ _).1 h
  exact ⟨i, of_decide_eq_true k⟩

theorem witness_VectorInstructionsEnter : Sys2Proof.encode (.vaddVv 7 6 5 1) = some 0x0253038B#32 ∧
    isVecWord 0x0253038B#32 = true ∧ decode 0x0253038B#32 = .ok (.vaddVv 7 6 5 1) ∧ strand0.dbgStep = false ∧
    (∀ r, isEmpty strand0 r = false) ∧ strand0.vq.length < 64 ∧
    (let e := ventry 0x0253038B 0x8000000000000000 0; Claims.Issues (vstate e) e ∧ e.vtype.getLsbD 63 = true) ∧
    Claims.Issues (vstate i32x2) i32x2 ∧ i32x2.vtype.getLsbD 63 = false ∧ (3#5).toNat % lmulOf i32x2.vtype ≠ 0 ∧
    (let e := ventry 0x0253038B 0x03 0; Claims.Issues (vstate e) e ∧ sewOf e.vtype < lmulOf e.vtype) :=
  ⟨by decide +kernel, by decide +kernel, by decide +kernel, by decide +kernel, by decide +kernel, by decide +kernel,
   ⟨issues rfl (by decide +kernel), by decide +kernel⟩, issues rfl (by decide +kernel), by decide +kernel,
   by decide +kernel, issues rfl (by decide +kernel), by decide +kernel⟩

theorem witness_IntegerElements : Claims.Issues (vstate i32x2) i32x2 ∧ Claims.Typed (vstate i32x2).strand i32x2 true ∧
    Claims.Groups ([(4, 2), (6, 2)] ++ Claims.operandGroup .vec 30 2) ∧ i32x2.vstart < i32x2.vl :=
  ⟨issues rfl (by decide +kernel), typed _ (by decide +kernel) (by decide +kernel) (by decide +kernel),
   by unfold Claims.Groups; decide +kernel, by decide +kernel⟩
theorem witness_NarrowWidenAndMove : Claims.Issues (vstate i16) i16 ∧ Claims.Typed (vstate i16).strand i16 true ∧
    Claims.Groups ([(3, 1), (6, 2)] ++ Claims.operandGroup .scal 31 1) ∧ sewOf i16.vtype < 64 ∧ lmulOf i16.vtype < 8 ∧
    (let e := ventry 0x6653038B 0x31 3; Claims.Issues (vstate e) e ∧ Claims.Typed (vstate e).strand e true ∧
      sewOf e.vtype = 64) ∧
    Claims.Groups [(3, 1), (6, max 1 (1 * 8 / 16))] :=
  ⟨issues rfl (by decide +kernel), typed _ (by decide +kernel) (by decide +kernel) (by decide +kernel),
   by unfold Claims.Groups; decide +kernel, by decide +kernel, by decide +kernel,
   ⟨issues rfl (by decide +kernel), typed _ (by decide +kernel) (by decide +kernel) (by decide +kernel), by decide +kernel⟩,
   by unfold Claims.Groups; decide +kernel⟩
theorem witness_MaskResults : Claims.Issues (vstate i32) i32 ∧ Claims.Typed (vstate i32).strand i32 true ∧
    Claims.Groups ([(0, 1), (31, 1)] ++ Claims.operandGroup .vec 30 1) ∧ sewOf i32.vtype ≤ 32 :=
  ⟨issues rfl (by decide +kernel), typed _ (by decide +kernel) (by decide +kernel) (by decide +kernel),
   by unfold Claims.Groups; decide +kernel, by decide +kernel⟩
theorem witness_FloatFormats : (Fmt.fp32, 8, 23, 127, true) ∈ Claims.formats ∧ Fmt.fp32.val 0x7F800000 = .inf false ∧
    (Fmt.fp32.val 0).isZero = true ∧ Fmt.fp32.isNanCode 0x7FC00000 = true ∧
    (rnd .fp32 .rne false (.fin false 1 3)).2.getLsbD 2 = false ∧
    (rnd .fp32 .rne false (.fin false (2 ^ 200) 1)).2.getLsbD 2 = true := by decide +kernel
theorem witness_FloatElements : Claims.Issues (vstate f32) f32 ∧ Claims.Typed (vstate f32).strand f32 true ∧
    Claims.Groups ([(7, 1), (5, 1)] ++ Claims.operandGroup .vec 6 1) ∧
    fmtOf (natBits f32.vtype.toNat 7 6) (sewOf f32.vtype) = some .fp32 ∧
    (let e := ventry 0x0253338B 0x28 3; Claims.Issues (vstate e) e ∧ Claims.Typed (vstate e).strand e true ∧
      fmtOf (natBits e.vtype.toNat 7 6) (sewOf e.vtype) = none ∧ natBits e.vtype.toNat 7 6 = 0) ∧
    Claims.cvtWidth 8 = 8 ∧ Claims.cvtSource 17 = .bf16 :=
  ⟨issues rfl (by decide +kernel), typed _ (by decide +kernel) (by decide +kernel) (by decide +kernel),
   by unfold Claims.Groups; decide +kernel, by decide +kernel,
   ⟨issues rfl (by decide +kernel), typed _ (by decide +kernel) (by decide +kernel) (by decide +kernel), by decide +kernel,
    by decide +kernel⟩, by decide +kernel, by decide +kernel⟩
theorem witness_SelectionsOverAVector : Claims.Starts (vstate i32) i32 ∧ Claims.Typed (vstate i32).strand i32 true ∧
    Claims.OneDie (vstate i32).strand ∧ Claims.Groups [(3, 1), (6, 1)] ∧ natBits i32.a.toNat 63 35 = 0 ∧
    (let e := { i32 with vstart := 1 }; Claims.Issues (vstate e) e ∧ e.vstart ≠ 0) :=
  ⟨starts rfl (by decide +kernel) rfl, typed _ (by decide +kernel) (by decide +kernel) (by decide +kernel), oneDie _,
   by unfold Claims.Groups; decide +kernel, by decide +kernel, issues rfl (by decide +kernel), by decide +kernel⟩

/-- Two operands of a butterfly, a transform and a table of 8 elements. -/
def shifted : VEntry := { i32 with a := 2 }
def tabled : VEntry := { ventry 0x5253538B 0x18 3 with a := 0x10000000 }
theorem witness_PermutesAndTables : Claims.Issues (vstate shifted) shifted ∧
    Claims.Typed (vstate shifted).strand shifted true ∧ Claims.OneDie (vstate shifted).strand ∧
    Claims.Groups [(3, 1), (6, 1)] ∧ shifted.a.toNat = 2 ^ 1 ∧ (∀ k, k < 32 → i32.a.toNat ≠ 2 ^ k) ∧
    fmtOf (natBits f32.vtype.toNat 7 6) (sewOf f32.vtype) = some .fp32 ∧ shifted.vstart = 0 ∧
    natBits shifted.vtype.toNat 7 6 = 0 ∧ Claims.Issues (vstate tabled) tabled ∧
    Claims.Typed (vstate tabled).strand tabled true ∧
    ∃ table s1, spaceRead (strandPort (vstate tabled).strand 2) tabled.mtype.toNat tabled.a.toNat ((2 ^ 8 * 8 + 7) / 8)
      (vstate tabled) = (.ok table, s1) ∧ s1.strand = (vstate tabled).strand := by
  refine ⟨issues rfl (by decide +kernel), typed _ (by decide +kernel) (by decide +kernel) (by decide +kernel), oneDie _,
    by unfold Claims.Groups; decide +kernel, by decide +kernel, by decide +kernel, by decide +kernel, by decide +kernel,
    by decide +kernel, issues rfl (by decide +kernel),
    typed _ (by decide +kernel) (by decide +kernel) (by decide +kernel), ?_⟩
  have ⟨a, s, h, g⟩ := of_gives (p := spaceRead (strandPort (vstate tabled).strand 2) tabled.mtype.toNat tabled.a.toNat
    ((2 ^ 8 * 8 + 7) / 8) (vstate tabled)) (c := fun _ s1 => s1.strand = (vstate tabled).strand) (by decide +kernel)
  exact ⟨a, s, h, by simpa using g⟩
theorem witness_ReductionsAndScalarMoves : Claims.Starts (vstate f32) f32 ∧ Claims.Typed (vstate f32).strand f32 true ∧
    Claims.Groups [(5, 1)] ∧ fmtOf (natBits f32.vtype.toNat 7 6) (sewOf f32.vtype) = some .fp32 :=
  ⟨starts rfl (by decide +kernel) rfl, typed _ (by decide +kernel) (by decide +kernel) (by decide +kernel),
   by unfold Claims.Groups; decide +kernel, by decide +kernel⟩

/-! ### Vector memory and scale registers -/

/-- Work done in turn, as far as it succeeds. -/
def passes {α : Type} (work : Nat → Act α) : List Nat → State → Option (List (Nat × α) × State)
  | [], s => some ([], s)
  | i :: is, s =>
    match work i s with
    | (.ok x, s1) => (passes work is s1).map fun p => ((i, x) :: p.1, p.2)
    | (.error _, _) => none

theorem passes_sound {α : Type} (work : Nat → Act α) : ∀ (is : List Nat) (s s1 : State) (r : List (Nat × α)),
    passes work is s = some (r, s1) → Claims.Passes work is s r s1
  | [], s, s1, r, h => by
    simp only [passes, Option.some.injEq, Prod.mk.injEq] at h
    obtain ⟨rfl, rfl⟩ := h
    exact .done s
  | i :: is, s, s1, r, h => by
    unfold passes at h
    split at h
    · rename_i x s2 hx
      simp only [Option.map_eq_some_iff] at h
      obtain ⟨⟨r', s'⟩, h1, h2⟩ := h
      simp only [Prod.mk.injEq] at h2
      obtain ⟨rfl, rfl⟩ := h2
      exact .next i is s s2 s' x r' hx (passes_sound work is s2 s' r' h1)
    · cases h

/-- They succeed, and a condition holds of what they give and leave. -/
def passing {α : Type} (p : Option (List (Nat × α) × State)) (c : List (Nat × α) → State → Bool) : Bool :=
  match p with
  | some (r, s) => c r s
  | none => false
theorem of_passing {α : Type} {work : Nat → Act α} {is : List Nat} {s : State} {c : List (Nat × α) → State → Bool}
    (h : passing (passes work is s) c = true) : ∃ r s1, Claims.Passes work is s r s1 ∧ c r s1 = true := by
  unfold passing at h
  split at h
  · rename_i r s1 e
    exact ⟨r, s1, passes_sound work is s s1 r e, h⟩
  · cases h

/-- Entries with an address, in the strand's space and in the hoop's SRAM. -/
def loads32 : VEntry := { ventry 0x020321AB 0x28 3 with a := 0x10000000 }
noncomputable def port2 : Port := strandPort (vstate loads32).strand 2

theorem witness_VectorLoadsAndStores : Claims.Issues (vstate loads32) loads32 ∧
    Claims.Typed (vstate loads32).strand loads32 true ∧ Claims.Groups [(3, 1), (6, 1)] ∧
    Claims.width 2 = sewOf loads32.vtype ∧
    (∀ i ∈ Claims.accessed (vstate loads32) loads32 false, (Claims.unitAt loads32 32 i).1 % 4 = 0) ∧
    (∃ got s1, Claims.Passes (fun i => loadElem port2 0 (Claims.unitAt loads32 32 i).1 (Claims.unitAt loads32 32 i).2 32)
      (Claims.accessed (vstate loads32) loads32 false) (vstate loads32) got s1 ∧ s1.strand = (vstate loads32).strand) ∧
    (∃ got s1, Claims.Passes (fun i => storeElem port2 0 (Claims.unitAt loads32 32 i).1 (Claims.unitAt loads32 32 i).2 32 9
      false) (Claims.accessed (vstate loads32) loads32 false) (vstate loads32) got s1 ∧ s1.strand.dbgElem = false) ∧
    (∃ seen s0, Claims.Passes (Claims.probe (vstate loads32) loads32 4 true false
        (Claims.offsetAt (vstate loads32) loads32 6 32)) (Claims.accessed (vstate loads32) loads32 false) (vstate loads32)
        seen s0 ∧ ∃ got s1, Claims.Passes (fun i => loadElem (Claims.bankPort (vstate loads32) i) 0
        (Claims.offsetAt (vstate loads32) loads32 6 32 i) 0 32) (Claims.accessed (vstate loads32) loads32 false) s0 got s1 ∧
      s1.strand = (vstate loads32).strand) ∧
    (let e := { loads32 with a := 0x10000001 }
     (Claims.accessed (vstate e) e false).find? (fun i => (Claims.unitAt e 32 i).1 % 4 ≠ 0) = some 0) := by
  refine ⟨issues rfl (by decide +kernel), typed _ (by decide +kernel) (by decide +kernel) (by decide +kernel),
    by unfold Claims.Groups; decide +kernel, by decide +kernel, by decide +kernel, ?_, ?_, ?_, by decide +kernel⟩
  · have ⟨r, s1, h, g⟩ := of_passing (c := fun _ s1 => s1.strand = (vstate loads32).strand)
      (work := fun i => loadElem port2 0 (Claims.unitAt loads32 32 i).1 (Claims.unitAt loads32 32 i).2 32)
      (is := Claims.accessed (vstate loads32) loads32 false) (s := vstate loads32) (by decide +kernel)
    exact ⟨r, s1, h, by simpa using g⟩
  · have ⟨r, s1, h, g⟩ := of_passing (c := fun _ s1 => s1.strand.dbgElem = false)
      (work := fun i => storeElem port2 0 (Claims.unitAt loads32 32 i).1 (Claims.unitAt loads32 32 i).2 32 9 false)
      (is := Claims.accessed (vstate loads32) loads32 false) (s := vstate loads32) (by decide +kernel)
    exact ⟨r, s1, h, by simpa using g⟩
  · have ⟨r, s0, h, g⟩ := of_passing (c := fun _ s0 => passing (passes (fun i =>
        loadElem (Claims.bankPort (vstate loads32) i) 0 (Claims.offsetAt (vstate loads32) loads32 6 32 i) 0 32)
        (Claims.accessed (vstate loads32) loads32 false) s0) fun _ s1 => s1.strand = (vstate loads32).strand)
      (work := Claims.probe (vstate loads32) loads32 4 true false (Claims.offsetAt (vstate loads32) loads32 6 32))
      (is := Claims.accessed (vstate loads32) loads32 false) (s := vstate loads32) (by decide +kernel)
    have ⟨got, s1, h1, g1⟩ := of_passing g
    exact ⟨r, s0, h, got, s1, h1, of_decide_eq_true g1⟩

/-- A window of three rows of SRAM, of 4 bytes at offset 8. -/
def window0 : VEntry := { ventry 0xC263C1AB 0x28 3 with mtype := 1, csr := 0x020308#22 }
/-- The same entry at an address that is not mapped. -/
def loadsNowhere : VEntry := { loads32 with a := 0x7F0000000000 }
theorem witness_VectorLoadsAndStores2 : Claims.popped loads32 (vstate loads32) = vstate loads32 ∧
    Claims.Issues (vstate loadsNowhere) loadsNowhere ∧
    Claims.accessed (vstate loadsNowhere) loadsNowhere false = [] ++ 0 :: [1, 2] ∧
    ∃ trap s2, loadElem (strandPort (vstate loadsNowhere).strand 2) 0 (Claims.unitAt loadsNowhere 32 0).1
        (Claims.unitAt loadsNowhere 32 0).2 32 (vstate loadsNowhere) = (.error (.trap trap), s2) ∧
      s2.strand = (vstate loadsNowhere).strand ∧ trap.cause ≠ 1 := by
  refine ⟨popped_same (by decide +kernel), issues rfl (by decide +kernel), by decide +kernel, ?_⟩
  obtain ⟨t, s2, h, k⟩ := of_trapping (p := loadElem (strandPort (vstate loadsNowhere).strand 2) 0
    (Claims.unitAt loadsNowhere 32 0).1 (Claims.unitAt loadsNowhere 32 0).2 32 (vstate loadsNowhere))
    (c := fun t s2 => s2.strand = (vstate loadsNowhere).strand ∧ t.cause ≠ 1) (by decide +kernel)
  have k := of_decide_eq_true k
  exact ⟨t, s2, h, k.1, k.2⟩

theorem witness_AtomicsAndWindows : Claims.Starts (vstate loads32) loads32 ∧
    Claims.Typed (vstate loads32).strand loads32 true ∧ Claims.Groups [(3, 1), (6, 1)] ∧ 32 ≤ sewOf loads32.vtype ∧
    Claims.active (vstate loads32).strand loads32 false ≠ [] ∧
    (∃ got s1, Claims.Passes (fun i => atomicUpdate (Claims.env (vstate loads32) loads32 false) (Claims.bankPort (vstate loads32) i)
        (Claims.offsetAt (vstate loads32) loads32 6 32 i) false fun o => o + 5) (Claims.accessed (vstate loads32) loads32 false)
        (vstate loads32) got s1 ∧ s1.strand = (vstate loads32).strand) ∧
    (∃ got s1, Claims.Passes (Claims.linkedLoad (vstate loads32) loads32 6) (Claims.active (vstate loads32).strand loads32 false)
        (vstate loads32) got s1 ∧ s1.strand = { (vstate loads32).strand with links := [] } ∧ s1.pool = [] ∧
        got.length = 3) ∧
    (∃ got s1, Claims.Passes (Claims.linkedStore (vstate loads32) loads32 3 6)
        (Claims.active (vstate loads32).strand loads32 false) (vstate loads32) got s1 ∧
        s1.strand = { (vstate loads32).strand with links := s1.strand.links, resv := s1.strand.resv }) ∧
    (∃ s0 s1 got, Claims.Window (vstate window0) s0 s1 window0 false got) ∧ Claims.wWidth window0 = 32 ∧
    Claims.Starts (vstate window0) window0 ∧
    (let e := { window0 with csr := 0x0203FE#22 }; 256 < Claims.wOff e + Claims.wLen e) := by
  refine ⟨starts rfl (by decide +kernel) rfl, typed _ (by decide +kernel) (by decide +kernel) (by decide +kernel),
    by unfold Claims.Groups; decide +kernel, by decide +kernel, by decide +kernel, ?_, ?_, ?_, ?_, by decide +kernel,
    starts rfl (by decide +kernel) rfl, by decide +kernel⟩
  · have ⟨r, s1, h, g⟩ := of_passing (c := fun _ s1 => s1.strand = (vstate loads32).strand)
      (work := fun i => atomicUpdate (Claims.env (vstate loads32) loads32 false) (Claims.bankPort (vstate loads32) i)
        (Claims.offsetAt (vstate loads32) loads32 6 32 i) false fun o => o + 5)
      (is := Claims.accessed (vstate loads32) loads32 false) (s := vstate loads32) (by decide +kernel)
    exact ⟨r, s1, h, by simpa using g⟩
  · have ⟨r, s1, h, g⟩ := of_passing (c := fun got s1 => s1.strand = { (vstate loads32).strand with links := [] } ∧
        s1.pool = [] ∧ got.length = 3) (work := Claims.linkedLoad (vstate loads32) loads32 6)
      (is := Claims.active (vstate loads32).strand loads32 false) (s := vstate loads32) (by decide +kernel)
    exact ⟨r, s1, h, by simpa using g⟩
  · have ⟨r, s1, h, g⟩ := of_passing (c := fun _ s1 => s1.strand =
        { (vstate loads32).strand with links := s1.strand.links, resv := s1.strand.resv })
      (work := Claims.linkedStore (vstate loads32) loads32 3 6)
      (is := Claims.active (vstate loads32).strand loads32 false) (s := vstate loads32) (by decide +kernel)
    exact ⟨r, s1, h, by simpa using g⟩
  · have ⟨u, s0, h0, g0⟩ := of_gives (p := windowProbe window0 (strandPort (vstate window0).strand 2) (vstate window0))
      (c := fun _ s0 => passing (passes (Claims.rowRead (vstate window0) window0)
        (Claims.active (vstate window0).strand window0 false) { s0 with freeCtr := s0.freeCtr + 1 })
        (fun _ s1 => s1.strand = (vstate window0).strand)) (by decide +kernel)
    have ⟨r, s1, h, g⟩ := of_passing g0
    exact ⟨s0, s1, r, by decide +kernel, by decide +kernel, by decide +kernel, by decide +kernel, by decide +kernel, h0, h,
      of_decide_eq_true g⟩

/-- A scale register of one code, a group bound to it, and entries that name the format FP8 with blocks of 8. -/
def scale0 : QReg := { entries := [(0, 0x3F80)], fmt := 1, len := 1, gen := 0 }
def scaled0 : VEntry := { ventry 0x0250630B 0x68 3 with csr := 0x003200#22, a := 0x10000000, b := 0x1001 }
noncomputable def scaling : State := { vstate scaled0 with strand := { vstrand scaled0 with
  q := strand0.q.set 2 scale0, tags := strand0.tags.set 6 (BitVec.ofNat 32 (Claims.tagWord 0 0 0 2)) } }
noncomputable def port3 : Port := strandPort scaling.strand 2
theorem witness_ScaleRegisters : Claims.Starts scaling scaled0 ∧ Claims.Typed scaling.strand scaled0 true ∧ 0 < scaled0.vl ∧
    qcfgUse false true scaled0.csr.toNat = some { dcode := 0, data := .flt .e4m3, src := .fp32, bcode := 0, sfmt := 1 } ∧
    qcfgUse false false scaled0.csr.toNat ≠ none ∧ Claims.codesIn scaled0 (.flt .e4m3) ≤ 8 ∧
    fmtOf (natBits scaled0.vtype.toNat 7 6) (sewOf scaled0.vtype) = some .fp32 ∧ Claims.Groups [(6, 1), (7, 1)] ∧
    natBits scaled0.b.toNat 63 15 = 0 ∧ natBits scaled0.b.toNat 13 12 = 1 ∧ natBits scaled0.b.toNat 11 0 = 1 ∧
    (∃ cs s1, readStream port3 0 0x10000000 1 1 false scaling = (.ok cs, s1) ∧ s1.strand = scaling.strand ∧ cs.1.length = 1) ∧
    (∃ u s1, writeStream port3 0 0x10000000 1 [0x3F80] [] scaling = (.ok u, s1) ∧ s1.strand.dbgElem = false) ∧
    Claims.Bound scaling.strand 6 (Claims.blocks scaled0 0) ∧ (qRegOf scaling.strand 2).fmt ≠ 3 ∧
    DFmt.ofCode (natBits (tagOf scaling.strand 6).toNat 24 22) = some (.flt .e4m3) ∧
    (∃ ps s1, watchedPieces port3 0x10000000 64 scaling = (.ok ps, s1) ∧ s1.strand = scaling.strand) ∧
    (∃ got s1, Claims.Passes (fun i => loadElem port3 0 (Claims.unitAt scaled0 8 i).1 (Claims.unitAt scaled0 8 i).2 8)
      (Claims.accessed scaling scaled0 false) scaling got s1 ∧ s1.strand = scaling.strand) := by
  refine ⟨⟨⟨rfl, rfl, rfl, rfl, rfl, fun q j => ?_, by decide +kernel⟩, rfl⟩, ⟨by decide +kernel, by decide +kernel, fun _ => by decide +kernel, fun r => ?_⟩,
    by decide +kernel, by decide +kernel, by decide +kernel, by decide +kernel, by decide +kernel, by unfold Claims.Groups; decide +kernel, by decide +kernel,
    by decide +kernel, by decide +kernel, ?_, ?_, by constructor <;> decide +kernel,
    by decide +kernel, by decide +kernel, ?_, ?_⟩
  · have : tkMeaning .v (tkOf scaled0.word) = none := by decide +kernel
    rw [this] at j; cases j
  · show (Vector.replicate 32 ([] : SMap Unit))[r % 32]'_ = []
    simp
  · have ⟨a, s, h, g⟩ := of_gives (p := readStream port3 0 0x10000000 1 1 false scaling)
      (c := fun cs s1 => s1.strand = scaling.strand ∧ cs.1.length = 1) (by decide +kernel)
    exact ⟨a, s, h, by simpa using g⟩
  · have ⟨a, s, h, g⟩ := of_gives (p := writeStream port3 0 0x10000000 1 [0x3F80] [] scaling)
      (c := fun _ s1 => s1.strand.dbgElem = false) (by decide +kernel)
    exact ⟨a, s, h, by simpa using g⟩
  · have ⟨a, s, h, g⟩ := of_gives (p := watchedPieces port3 0x10000000 64 scaling)
      (c := fun _ s1 => s1.strand = scaling.strand) (by decide +kernel)
    exact ⟨a, s, h, by simpa using g⟩
  · have ⟨r, s1, h, g⟩ := of_passing (c := fun _ s1 => s1.strand = scaling.strand)
      (work := fun i => loadElem port3 0 (Claims.unitAt scaled0 8 i).1 (Claims.unitAt scaled0 8 i).2 8)
      (is := Claims.accessed scaling scaled0 false) (s := scaling) (by decide +kernel)
    exact ⟨r, s1, h, by simpa using g⟩

/-- An entry whose code group has two registers, and one whose qcfg names no format. -/
def grouped0 : VEntry := { ventry 0x0250630B 0x6B 3 with csr := 0x003200#22 }
theorem witness_ScaleRegisters2 : Claims.Issues (vstate grouped0) grouped0 ∧
    ((DFmt.ofCode (natBits grouped0.csr.toNat 2 0)).map (Claims.codesIn grouped0)).getD 1 = 2 ∧ (7#5).toNat % 2 ≠ 0 ∧
    (let e := { scaled0 with csr := 0x3FFFFF#22 }; Claims.Issues (vstate e) e ∧ qcfgUse false false e.csr.toNat = none ∧
      Claims.Groups [((7#5).toNat, ((DFmt.ofCode (natBits e.csr.toNat 2 0)).map (Claims.codesIn e)).getD 1)]) ∧
    (tagOf (vstate i32).strand 6).getLsbD 0 = false ∧ Claims.popped scaled0 scaling = scaling :=
  ⟨issues rfl (by decide +kernel), by decide +kernel, by decide +kernel,
   ⟨issues rfl (by decide +kernel), by decide +kernel, by unfold Claims.Groups; decide +kernel⟩, by decide +kernel,
   popped_same (by decide +kernel)⟩

/-! ### The engines -/

/-- An entry of a command queue, and a strand of hoop 0 with it in a queue. -/
def centry (w : Word32) (acc fin : Bool) : CEntry :=
  { word := w, popped := false, step := 0, copied := false, a := 0x100, b := 0x40, aux := 0, mcfg := 0xF55, seq := 0
    accepted := acc, done := fin, writer := none, prog := Progress.none }
noncomputable def cstate (q : Queue) (e : CEntry) : State :=
  { vstate i32 with strand := setCmdQueue (vstrand i32) q [e], actor := .front }
noncomputable def port4 : Port := strandPort strand0 4

theorem witness_EngineCommandsEnter : Claims.Full (vstate i32).strand [1, 2] ∧ (vstate i32).strand.dbgStep = false ∧
    Claims.indexOk 0 ∧ ¬ Claims.indexOk 3 ∧ Claims.typesOk 0 ∧ ¬ Claims.typesOk 0xF ∧ Claims.outTypeOk 0 ∧
    ¬ Claims.outTypeOk 0x800 ∧ Claims.Granted (vstate i32) 1 ∧ (hoopOf front 0).grants[0]? = some SlotGrant.none ∧
    (vstate i32).strand.mq.length < 16 ∧ (readReg strand0 1).toNat % 64 = 0 := by
  refine ⟨by unfold Claims.Full; decide +kernel, by decide +kernel, by unfold Claims.indexOk; decide +kernel,
    by unfold Claims.indexOk; decide +kernel, by unfold Claims.typesOk; decide +kernel,
    by unfold Claims.typesOk; decide +kernel, by unfold Claims.outTypeOk; decide +kernel,
    by unfold Claims.outTypeOk; decide +kernel, ⟨grant0, by decide +kernel, by decide +kernel, by decide +kernel⟩,
    by decide +kernel, by decide +kernel, by decide +kernel⟩

/-- Accepted mzero, mmac, mst and mld. -/
def mzero0 : CEntry := centry 0x0E00005B true false
def mmac0 : CEntry := centry 0x0800005B true false
def mst0 : CEntry := { centry 0x0C00005B true false with a := 0x10000000 }
def mld0 : CEntry := { centry 0x0200005B true false with mcfg := 0x044 }
/-- Writes that leave the state as it is do so one after the other. -/
theorem forM_same {f : Nat → Act Unit} {s : State} : ∀ l : List Nat, (∀ n ∈ l, f n s = (.ok (), s)) →
    l.forM f s = (.ok (), s)
  | [], _ => rfl
  | n :: l, h => by
    have h1 := h n List.mem_cons_self
    have h2 := forM_same l fun m hm => h m (List.mem_cons_of_mem n hm)
    show (f n >>= fun _ => l.forM f) s = _
    simp only [bind, ExceptT.bind, ExceptT.mk, StateT.bind, ExceptT.bindCont, h1]
    exact h2
theorem of_gives_same {m : Act Unit} {s : State} (h : gives (m s) (fun _ s1 => s1 = s) = true) : m s = (.ok (), s) := by
  obtain ⟨u, s1, h1, h2⟩ := of_gives h
  rw [h1, of_decide_eq_true h2]
theorem working {e : CEntry} {cmd : Nat} (h : e.accepted = true ∧ e.done = false ∧
    (if e.word.getLsbD 7 then 1 else 0) = 0 ∧ natBits e.word.toNat 31 25 = cmd ∧
    myTurn (cstate .m e) 0 (matWants 0) = true) : Claims.Working (cstate .m e) 0 e cmd :=
  { live := rfl, clear := rfl, only := rfl, acc := h.1, undone := h.2.1, mine := h.2.2.1, which := h.2.2.2.1, turn := h.2.2.2.2
    strand := rfl, hoop := (by decide : (0 : Nat) < 48) }
/-- Sixty-four results of mst leave the state as it is. -/
noncomputable def mstSame (lo : Nat) : Bool := (List.range 64).all fun n =>
  gives (vsWrite (strandPort (cstate .m mst0).strand 3) ((0x10000000 + 0 * 0x40 + (lo + n) * 4) % 2 ^ 64)
    (leBytes 4 (convOut 7 true Mode.rne false (smRead 0 MatEngine.reset.acc (0 * 256 + (lo + n))))) false (cstate .m mst0))
    (fun _ s1 => s1 = cstate .m mst0)
theorem mst_0 : mstSame 0 = true := by decide +kernel
theorem mst_1 : mstSame 64 = true := by decide +kernel
theorem mst_2 : mstSame 128 = true := by decide +kernel
theorem mst_3 : mstSame 192 = true := by decide +kernel
theorem witness_MatrixEngine : Claims.Working (cstate .m mzero0) 0 mzero0 7 ∧
    Claims.engineIs (cstate .m mzero0) 0 MatEngine.reset ∧ Claims.Working (cstate .m mmac0) 0 mmac0 4 ∧
    (∃ acts s1, loadActs (strandPort (cstate .m mmac0).strand 3) mmac0.prog 0 5 0x100 1 (cstate .m mmac0) = (.ok acts, s1) ∧
      s1.strand = (cstate .m mmac0).strand ∧ s1.hoops = (cstate .m mmac0).hoops) ∧
    Claims.Working (cstate .m mst0) 0 mst0 6 ∧
    (let s := cstate .m mst0
     ((List.range 1).forM fun i => (List.range 256).forM fun n =>
        vsWrite (strandPort s.strand 3) ((0x10000000 + i * 0x40 + n * 4) % 2 ^ 64) (leBytes 4
          (convOut 7 true Mode.rne false (smRead 0 MatEngine.reset.acc (i * 256 + n)))) false) s = (.ok (), s)) ∧
    Claims.Working (cstate .m mld0) 0 mld0 1 ∧
    (∃ pl s1, loadTile (strandPort (cstate .m mld0).strand 3) mld0.prog 0 4 0x100 (cstate .m mld0) = (.ok pl, s1) ∧
      s1.strand = (cstate .m mld0).strand ∧ s1.hoops = (cstate .m mld0).hoops) ∧
    (∃ bs s1, spaceRead (strandPort (cstate .m mld0).strand 3) 1 0x100 (Claims.rowBytes 4) (cstate .m mld0) = (.ok bs, s1) ∧
      bs.length = Claims.rowBytes 4) := by
  refine ⟨working (by decide +kernel), by unfold Claims.engineIs; decide +kernel, working (by decide +kernel), ?_,
    working (by decide +kernel), ?_, working (by decide +kernel), ?_, ?_⟩
  · have ⟨a, s, h, g⟩ := of_gives (p := loadActs (strandPort (cstate .m mmac0).strand 3) mmac0.prog 0 5 0x100 1 (cstate .m mmac0))
      (c := fun _ s1 => s1.strand = (cstate .m mmac0).strand ∧ s1.hoops = (cstate .m mmac0).hoops) (by decide +kernel)
    exact ⟨a, s, h, by simpa using g⟩
  · refine forM_same _ fun i hi => ?_
    obtain rfl : i = 0 := by simpa using hi
    refine forM_same _ fun n hn => of_gives_same ?_
    have hn := List.mem_range.1 hn
    have get : ∀ lo, mstSame lo = true → lo ≤ n → n < lo + 64 → gives (vsWrite (strandPort (cstate .m mst0).strand 3)
        ((0x10000000 + 0 * 0x40 + n * 4) % 2 ^ 64) (leBytes 4 (convOut 7 true Mode.rne false
          (smRead 0 MatEngine.reset.acc (0 * 256 + n)))) false (cstate .m mst0)) (fun _ s1 => s1 = cstate .m mst0) = true := by
      intro lo h1 h2 h3
      have g := List.all_eq_true.1 h1 (n - lo) (List.mem_range.2 (by omega))
      rwa [Nat.add_sub_cancel' h2] at g
    obtain h | h | h | h : n < 64 ∨ (64 ≤ n ∧ n < 128) ∨ (128 ≤ n ∧ n < 192) ∨ 192 ≤ n := by omega
    · exact get 0 mst_0 (by omega) (by omega)
    · exact get 64 mst_1 h.1 (by omega)
    · exact get 128 mst_2 h.1 (by omega)
    · exact get 192 mst_3 h (by omega)
  · have ⟨a, s, h, g⟩ := of_gives (p := loadTile (strandPort (cstate .m mld0).strand 3) mld0.prog 0 4 0x100 (cstate .m mld0))
      (c := fun _ s1 => s1.strand = (cstate .m mld0).strand ∧ s1.hoops = (cstate .m mld0).hoops) (by decide +kernel)
    exact ⟨a, s, h, by simpa using g⟩
  · have ⟨a, s, h, g⟩ := of_gives (p := spaceRead (strandPort (cstate .m mld0).strand 3) 1 0x100 (Claims.rowBytes 4)
      (cstate .m mld0)) (c := fun bs _ => bs.length = Claims.rowBytes 4) (by decide +kernel)
    exact ⟨a, s, h, by simpa using g⟩

/-- Memory with some bytes at some addresses, and a command queue over it. -/
noncomputable def seeded (l : List (Nat × List Byte)) (q : Queue) (e : CEntry) : State :=
  { l.foldl (fun s p => hbmWrite 1 p.1 p.2 s) (cstate q e) with strand := setCmdQueue (vstrand i32) q [e] }

/-- The descriptor of a copy of 64 bytes from 0x20000 to 0x30000. -/
def copyBytes : List Byte := leBytes 6 0x20000 ++ leBytes 6 0x30000 ++ leBytes 4 64 ++ leBytes 2 1 ++ leBytes 2 1 ++
  List.replicate 44 0
def copying : CEntry := { centry 0x4000005B true false with prog := { Progress.none with desc := copyBytes } }
def filling : CEntry := { centry 0x4400005B true false with prog := { Progress.none with desc := copyBytes, list := leBytes 8 7 } }
def copied0 : CEntry := { copying with step := 1 }
/-- A copy whose follow-on is an mzero of engine 0. -/
def following : CEntry := { copying with copied := true, prog := { Progress.none with
  pos := [0], desc := copyBytes.take 0x24 ++ leBytes 4 16 ++ leBytes 4 0x0E00005B ++ List.replicate 20 0 } }
theorem serving {q : Queue} {e : CEntry} {cmd : Nat} {s : State} (h : engineLive s = true ∧ s.strand.pending = [] ∧
    cmdQueue s.strand q = [e] ∧ e.accepted = true ∧ e.done = false ∧ natBits e.word.toNat 31 25 = cmd) :
    Claims.Serving s q e cmd := ⟨h.1, h.2.1, h.2.2.1, h.2.2.2.1, h.2.2.2.2.1, h.2.2.2.2.2⟩
theorem copyTurns : Claims.CopyTurn (cstate .c copying) ∧ Claims.CopyTurn (cstate .c filling) ∧
    Claims.CopyTurn (cstate .c copied0) := by unfold Claims.CopyTurn Claims.Turn; decide +kernel
theorem witness_CopySteps : (Claims.CopyTurn (cstate .c copying) ∧ Claims.CopyTurn (cstate .c filling) ∧
    Claims.CopyTurn (cstate .c copied0)) ∧ (∀ k < 8, (filling.prog.list[8 + k]?).getD 0 = 0) ∧ Claims.Serving (cstate .c copying) .c copying 0x20 ∧ copying.copied = false ∧
    (copyChunks 0x20 (copyDesc copyBytes) [])[0]? = some (0x20000, 0x30000, 64) ∧
    (∃ sp dp s1, (do let a ← spacePlaces port4 0 0x20000 64 false
                     let b ← spacePlaces port4 0 0x30000 64 true
                     pure (a, b)) (cstate .c copying) = (.ok ([(sp, 0x20000, 64)], [(dp, 0x30000, 64)]), s1) ∧
      gives (readPlace sp 64 s1) (fun bs s => s = s1 ∧ bs.length = 64) = true ∧
      poisonedOffsets s1 0x20000 [(sp, 0x20000, 64)] = [] ∧
      gives (writePlace port4 dp (List.replicate 64 0) s1) (fun _ s2 => s2.strand.cq = [copying]) = true) ∧
    Claims.Serving (cstate .c filling) .c filling 0x22 ∧
    (∃ dp s1, spacePlaces port4 0 0x30000 64 true (cstate .c filling) = (.ok [(dp, 0x30000, 64)], s1) ∧
      gives (writePlace port4 dp (List.replicate 64 0) s1) (fun _ s2 => s2.strand.cq = [filling]) = true) ∧
    Claims.Serving (cstate .c copied0) .c copied0 0x20 ∧ (copyChunks 0x20 (copyDesc copyBytes) [])[copied0.step]? = none ∧
    (copyDesc copyBytes).publishMode ≠ 2 ∧ Claims.Serving (cstate .c following) .c following 0x20 ∧
    following.prog.pos = [0] ∧ (copyDesc following.prog.desc).follows = true ∧ (cstate .c following).strand.mq = [] ∧
    (∃ g s1, matAccept (followEntry following) (cstate .c following) = (.ok g, s1) ∧ s1.strand.cq = [following]) := by
  refine ⟨copyTurns, by decide +kernel, serving (by decide +kernel), by decide +kernel, by decide +kernel, ?_, serving (by decide +kernel), ?_,
    serving (by decide +kernel), by decide +kernel, by decide +kernel, serving (by decide +kernel),
    by decide +kernel, by decide +kernel, by decide +kernel, ?_⟩
  · have ⟨a, s, h, g⟩ := of_gives (p := (do let a ← spacePlaces port4 0 0x20000 64 false
                                            let b ← spacePlaces port4 0 0x30000 64 true
                                            pure (a, b)) (cstate .c copying))
      (c := fun r s1 => match r with
        | ([(sp, n, 64)], [(dp, m, 64)]) => n = 0x20000 ∧ m = 0x30000 ∧
          gives (readPlace sp 64 s1) (fun bs s => s = s1 ∧ bs.length = 64) = true ∧
          poisonedOffsets s1 0x20000 [(sp, 0x20000, 64)] = [] ∧
          gives (writePlace port4 dp (List.replicate 64 0) s1) (fun _ s2 => s2.strand.cq = [copying]) = true
        | _ => false) (by decide +kernel)
    split at g
    · rename_i sp n dp m
      obtain ⟨rfl, rfl, k⟩ := of_decide_eq_true g
      exact ⟨sp, dp, s, h, k⟩
    · cases g
  · have ⟨a, s, h, g⟩ := of_gives (p := spacePlaces port4 0 0x30000 64 true (cstate .c filling))
      (c := fun r s1 => match r with
        | [(dp, m, 64)] => m = 0x30000 ∧
          gives (writePlace port4 dp (List.replicate 64 0) s1) (fun _ s2 => s2.strand.cq = [filling]) = true
        | _ => false) (by decide +kernel)
    split at g
    · obtain ⟨rfl, k⟩ := of_decide_eq_true g
      exact ⟨_, s, h, k⟩
    · cases g
  · have ⟨a, s, h, g⟩ := of_gives (p := matAccept (followEntry following) (cstate .c following))
      (c := fun _ s1 => s1.strand.cq = [following]) (by decide +kernel)
    exact ⟨a, s, h, by simpa using g⟩

/-- Commands that stand, and one that is finished. -/
def mflip1 : CEntry := centry 0x0600005B false false
def cpy1 : CEntry := centry 0x4000005B false false
def popping : CEntry := centry 0x4000505B false false
def gdel1 : CEntry := centry 0x9400005B true true
noncomputable def toCopy : State := seeded [(0x100, copyBytes)] .c cpy1
theorem witness_CommandsAcceptedAndRetired : Claims.Standing (cstate .m mflip1) .m mflip1 3 ∧
    natBits mflip1.word.toNat 19 15 = 0 ∧ (cstate .m mflip1).strand.cq = [] ∧ Claims.Granted (cstate .m mflip1) 0 ∧
    Claims.engineIs (cstate .m mflip1) 0 MatEngine.reset ∧ Claims.Standing toCopy .c cpy1 0x20 ∧
    (∃ bs s1, vsReadBlock (strandPort toCopy.strand 4) cpy1.a.toNat 64 toCopy = (.ok bs, s1) ∧ bs = copyBytes ∧
      s1.strand = toCopy.strand) ∧
    copyFieldsOk 0x20 copyBytes (copyDesc copyBytes) = true ∧ (copyDesc copyBytes).follows = false ∧
    (copyDesc copyBytes).publishMode = 0 ∧ tooManyChunks 0x20 (copyDesc copyBytes) [] = false ∧
    tkMeaning .c (tkOf popping.word) = some (false, .v) ∧ tokens (cstate .c popping).strand .v .c = 0 ∧
    Claims.Finished (cstate .n gdel1) .n gdel1 ∧ tkMeaning .n (tkOf gdel1.word) = none := by
  refine ⟨⟨?_, ?_, ?_, ?_, ?_, ?_, ?_, ?_, ?_, ?_⟩, by decide +kernel, by decide +kernel,
    ⟨grant0, by decide +kernel, by decide +kernel, by decide +kernel⟩, by unfold Claims.engineIs; decide +kernel,
    ⟨?_, ?_, ?_, ?_, ?_, ?_, ?_, ?_, ?_, ?_⟩, ?_, by decide +kernel, by decide +kernel, by decide +kernel, by decide +kernel,
    by decide +kernel, by decide +kernel, ⟨?_, ?_, ?_, ?_, ?_, ?_, ?_, ?_, ?_⟩, by decide +kernel⟩
  case refine_21 =>
    have ⟨a, s, h, g⟩ := of_gives (p := vsReadBlock (strandPort toCopy.strand 4) cpy1.a.toNat 64 toCopy)
      (c := fun bs s1 => bs = copyBytes ∧ s1.strand = toCopy.strand) (by decide +kernel)
    exact ⟨a, s, h, by simpa using g⟩
  all_goals decide +kernel

/-- A search of one query over one record, and its second round; a deletion. -/
def walkBytes : List Byte := leBytes 8 0x40000 ++ leBytes 8 0x50000 ++ leBytes 4 1 ++ leBytes 2 64 ++ leBytes 2 64 ++
  [0, 1] ++ leBytes 2 1 ++ [1, 0] ++ leBytes 2 1 ++ leBytes 8 0 ++ leBytes 8 0x60000 ++ leBytes 8 0 ++ leBytes 8 0x70000
def query0 : WalkQuery := { visited := [], cands := [], best := [], hops := 0, limit := false, malformed := false, stopped := false }
def walking : CEntry := { centry 0x9000005B true false with prog := { Progress.none with desc := walkBytes, walk := [query0] } }
def resulting : CEntry := { walking with prog := { walking.prog with pos := [1] } }
def deleting : CEntry := { centry 0x9400005B true false with prog := { Progress.none with desc := leBytes 8 0x40000 ++ leBytes 8 0 } }

/-- Memory with a sealed block at 0, a sequence of it at 0x8000, and a repair session over it at 0x9000. -/
noncomputable def kvMem : Mem :=
  { Mem.reset with
    bytes := [(0x2000, 1), (0x2001, 8), (0x4000, 0xDF), (0x4001, 4), (0x4130, 1), (0x8000, 0x80), (0x8004, 1), (0x8006, 1), (0x800A, 1), (0x8028, 1), (0x8048, 1), (0x804D, 0x42),
      (0x9001, 0x80), (0x900C, 1), (0x9012, 8), (0x901A, 6)]
    bar0 := front.mem.bar0 }
def seqBytes : List Byte := [0x80, 0, 0, 0, 1, 0, 1, 0, 0, 0, 1] ++ List.replicate 29 0 ++ [1] ++ List.replicate 23 0 ++
  leBytes 8 0 ++ leBytes 4 1 ++ leBytes 4 0x4200
def sessionBytes : List Byte := leBytes 8 0x8000 ++ leBytes 4 0 ++ leBytes 4 1 ++ leBytes 8 0x80000 ++ leBytes 8 0x60000 ++
  List.replicate 96 0
def seq0 : KvSeq := seqOf seqBytes
def record0 : SessRec := sessionOf sessionBytes seqBytes
def repairing : CEntry := { centry 0x8200005B true false with
  a := 0x9000, b := 0, prog := { Progress.none with desc := sessionBytes, list := seqBytes } }
def sealing : CEntry := { centry 0x8600005B true false with prog := { Progress.none with
  desc := leBytes 8 0x8000 ++ leBytes 4 0 ++ leBytes 4 1 ++ leBytes 2 0 ++ leBytes 2 1, list := seqBytes } }
noncomputable def kvState (e : CEntry) : State := { cstate .c e with mem := kvMem }
def session0 : Session := { addr := 0x9000, asid := 1, root := 0x2000, owner := some ⟨0, 0⟩, pending := [0]
                            place := 0, set := 0, layer := 0 }
noncomputable def darning : State := { kvState repairing with hub := { front.hub with sessions := [session0] } }
noncomputable def darnPort : Port := contextPort 1 0x2000 false 4 none

/-- A sealed block is read and left alone. -/
theorem seal_left {p : Port} {q : KvSeq} {k : KvStep} {a : Nat} {blk : List Byte} {s s1 s2 : State}
    (h : blockAddr q k.l k.h k.b s = (.ok a, s1)) (r : vsReadBlock p a q.bs s1 = (.ok blk, s2))
    (b : isSealed (repairByte q blk) = true) : sealBlock p q k s = (.ok (), s2) := by
  unfold sealBlock
  simp only [bind, ExceptT.bind, ExceptT.mk, StateT.bind, ExceptT.bindCont, h, r, b, if_true]
  rfl
theorem sealed_mark {blk : List Byte} (h : (blk.drop 16688).take 1 = [1]) : isSealed (repairByte seq0 blk) = true := by
  have o : seq0.side + 0x30 = 16688 := by decide +kernel
  unfold repairByte field
  rw [o, h]
  decide
theorem seal_same : sealBlock (strandPort (kvState sealing).strand 4) seq0 ⟨0, 0, 0⟩ (kvState sealing) =
    (.ok (), kvState sealing) := by
  obtain ⟨a, s, h, g⟩ := of_gives (p := blockAddr seq0 0 0 0 (kvState sealing)) (c := fun a s => a = 0 ∧ s = kvState sealing)
    (by decide +kernel)
  obtain ⟨rfl, rfl⟩ := of_decide_eq_true g
  obtain ⟨blk, s, k, j⟩ := of_gives (p := vsReadBlock (strandPort (kvState sealing).strand 4) 0 seq0.bs (kvState sealing))
    (c := fun blk s => s = kvState sealing ∧ (blk.drop 16688).take 1 = [1]) (by decide +kernel)
  obtain ⟨rfl, j2⟩ := of_decide_eq_true j
  exact seal_left h k (sealed_mark j2)
theorem turns11 : walkerTurn (cstate .n walking) = true ∧ walkerTurn (cstate .n resulting) = true ∧
    walkerTurn (cstate .n deleting) = true ∧ Claims.CopyTurn (kvState repairing) ∧ Claims.CopyTurn (kvState sealing) := by
  unfold Claims.CopyTurn Claims.Turn; decide +kernel
theorem witness_WalkerAndKvSteps : (walkerTurn (cstate .n walking) = true ∧ walkerTurn (cstate .n resulting) = true ∧
    walkerTurn (cstate .n deleting) = true ∧ Claims.CopyTurn (kvState repairing) ∧ Claims.CopyTurn (kvState sealing)) ∧
    Claims.Serving (cstate .n walking) .n walking 0x48 ∧ walking.prog.pos ≠ [1] ∧
    (∃ r s1, walkRound (strandPort (cstate .n walking).strand 5) (walkDesc walkBytes) walking.prog.walk (cstate .n walking) =
      (.ok r, s1) ∧ s1.strand.nq = [walking] ∧ r.2 = true) ∧
    Claims.Serving (cstate .n resulting) .n resulting 0x48 ∧ resulting.prog.pos = [1] ∧
    (∃ blocks s1, (resulting.prog.walk.zipIdx.mapM fun (x, q) =>
        resultOf (strandPort (cstate .n resulting).strand 5) (walkDesc walkBytes) q x) (cstate .n resulting) = (.ok blocks, s1) ∧
      gives (vsWriteBlock (strandPort (cstate .n resulting).strand 5) (walkDesc walkBytes).result blocks.flatten s1)
        (fun _ s2 => s2.strand.nq = [resulting]) = true) ∧
    Claims.Serving (cstate .n deleting) .n deleting 0x4A ∧
    (∃ r s1, readRecord (strandPort (cstate .n deleting).strand 5) 0x40000 0 (cstate .n deleting) = (.ok r, s1) ∧
      s1.strand = (cstate .n deleting).strand ∧ s1.pool = [] ∧ s1.strand.dumpedE = [] ∧ recMalformed r 0 = false ∧
      recFree r = false ∧ recTombstone r = false ∧ gives (walkWrite (strandPort (cstate .n deleting).strand 5) (0x40000 + 6)
        [BitVec.ofNat 8 (recFlags r ||| 1)] s1) (fun _ s2 => s2.strand.nq = [deleting]) = true) ∧
    Claims.Serving (kvState repairing) .c repairing 0x41 ∧
    (sessionSteps record0 0 (record0.q.nl - 0))[repairing.step]?.isSome = true ∧
    gives (setRepair (strandPort (kvState repairing).strand 4) record0.q 0 0 0 1 (kvState repairing))
      (fun _ s2 => s2.strand.cq = [repairing]) = true ∧
    Claims.Serving (kvState sealing) .c sealing 0x43 ∧ (sealPlan seq0 sealing.prog.desc)[sealing.step]?.isSome = true ∧
    sealBlock (strandPort (kvState sealing).strand 4) seq0 ⟨0, 0, 0⟩ (kvState sealing) = (.ok (), kvState sealing) ∧
    (∃ bs qb, readSession darnPort session0.addr.toNat darning = (.ok (bs, qb), darning) ∧ sessionOf bs qb = record0) ∧
    gives (splicedTokens darnPort record0 record0.f darning) (fun _ s2 => s2 = darning) = true ∧
    gives (bitmapOf darnPort record0 darning) (fun _ s2 => s2 = darning) = true ∧
    darning.hub.sessions[0]? = some session0 ∧ (session0.owner.bind (findStrand darning)).isSome = true ∧
    tokens darning.strand .c (sessionTarget 0) ≠ 15 ∧ (some ⟨9, 9⟩ : Option StrandId).bind (findStrand darning) = none := by
  refine ⟨turns11, serving (by decide +kernel), by decide +kernel, ?_, serving (by decide +kernel), by decide +kernel, ?_,
    serving (by decide +kernel), ?_, serving (by decide +kernel), by decide +kernel, by decide +kernel,
    serving (by decide +kernel), by decide +kernel, seal_same, ?_, by and_intros <;> decide +kernel⟩
  · have ⟨a, s, h, g⟩ := of_gives (p := walkRound (strandPort (cstate .n walking).strand 5) (walkDesc walkBytes)
      walking.prog.walk (cstate .n walking)) (c := fun r s1 => s1.strand.nq = [walking] ∧ r.2 = true) (by decide +kernel)
    exact ⟨a, s, h, of_decide_eq_true g⟩
  · have ⟨a, s, h, g⟩ := of_gives (p := (resulting.prog.walk.zipIdx.mapM fun (x, q) =>
        resultOf (strandPort (cstate .n resulting).strand 5) (walkDesc walkBytes) q x) (cstate .n resulting))
      (c := fun blocks s1 => gives (vsWriteBlock (strandPort (cstate .n resulting).strand 5) (walkDesc walkBytes).result
        blocks.flatten s1) (fun _ s2 => s2.strand.nq = [resulting])) (by decide +kernel)
    exact ⟨a, s, h, g⟩
  · have ⟨a, s, h, g⟩ := of_gives (p := readRecord (strandPort (cstate .n deleting).strand 5) 0x40000 0 (cstate .n deleting))
      (c := fun r s1 => s1.strand = (cstate .n deleting).strand ∧ s1.pool = [] ∧ s1.strand.dumpedE = [] ∧
        recMalformed r 0 = false ∧ recFree r = false ∧
        recTombstone r = false ∧ gives (walkWrite (strandPort (cstate .n deleting).strand 5) (0x40000 + 6)
        [BitVec.ofNat 8 (recFlags r ||| 1)] s1) (fun _ s2 => s2.strand.nq = [deleting]) = true) (by decide +kernel)
    exact ⟨a, s, h, of_decide_eq_true g⟩
  · have ⟨a, s, h, g⟩ := of_gives (p := readSession darnPort session0.addr.toNat darning)
      (c := fun x s1 => s1 = darning ∧ x.1 = sessionBytes ∧ x.2 = seqBytes) (by decide +kernel)
    obtain ⟨e, k1, k2⟩ := of_decide_eq_true g
    subst e
    exact ⟨a.1, a.2, h, by rw [k1, k2]; rfl⟩

/-! ### Messages -/

def message0 (sent busy : Bool) : Msg :=
  { src := 0, dst := 0, asid := 1, data := [7], seq := 3, sent := sent, busy := busy, port := 0, refused := false
    sender := ⟨9, 9⟩, queue := .n }
def header0 (kind : BitVec 8) : Sys2Proof.GarzarHeader :=
  { kind := kind, count := 1, sequence := 3, source := 0, dest := 0, context := 5 }
noncomputable def domained : State := { vstate i32 with hub := { front.hub with messages := [message0 true true] } }
noncomputable def e64 : VEntry := ventry 0x6032E0DB 0x31 3
/-- No context is valid at reset. -/
theorem noContext : contextOfTag State.reset 5 = none := by
  have e : State.reset.mem.bar0 = [(0xE00101, 8)] := by decide +kernel
  have r (k : Nat) (hk : k < 0xE00101) : smRead (0 : Byte) [(0xE00101, 8)] k = 0 := by
    unfold smRead smGet; rw [if_neg (by omega)]; rfl
  have h (a : Nat) (ha : a ∈ List.range 4096) : ctxValid State.reset a = false := by
    have ha := List.mem_range.1 ha
    have w : ctxWord State.reset a 0 = 0 := by
      unfold ctxWord bar0
      rw [e]
      simp only [smReadList]
      repeat rw [r _ (by omega)]
      rfl
    unfold ctxValid
    simp [w, natBits]
  unfold contextOfTag
  rw [List.find?_eq_none.2 fun a ha => by simp [h a ha]]
  rfl
/-- Context 1 belongs to a domain as its context 5. -/
noncomputable def joined : State := setBar0 0x200038 8 (5 * 2 ^ 48) (setBar0 0x200028 8 (2 ^ 32)
  (setBar0 0x200020 8 (2 ^ 63 + 0x2001) front))
theorem witness_MessagesAndPackets : Claims.Issues (vstate i32) i32 ∧ Claims.Typed (vstate i32).strand i32 true ∧
    sewOf i32.vtype ∈ [16, 32, 64] ∧ Claims.Groups [(4, 1), (6, 1)] ∧ i32.begun = false ∧ 0 < i32.vl ∧
    (vstate i32).strand.recvq = [] ∧ Claims.Receives (vstate i32) 1 0 1 ∧ (message0 false false).sent = false ∧
    (∃ m, (domained.hub.messages[0]? = some m ∧ m.sent = true ∧ m.busy = true ∧ m.refused = false) ∧
      m.seq = (header0 3).sequence ∧ m.src = (header0 3).source ∧ m.dst = (header0 3).dest) ∧
    contextOfTag State.reset 5 = none ∧ contextOfTag joined 5 = some 1 ∧
    Claims.Fits front { kind := 1, flits := 1, vc := 0, source := 0, dest := 5, unit := 0, tag := 0, asid := 1, payload := [] } := by
  refine ⟨issues rfl (by decide +kernel), typed _ (by decide +kernel) (by decide +kernel) (by decide +kernel),
    by decide +kernel, by unfold Claims.Groups; decide +kernel, by decide +kernel, by decide +kernel, by decide +kernel,
    by unfold Claims.Receives; decide +kernel, by decide +kernel, ⟨message0 true true, by decide +kernel⟩,
    noContext, by decide +kernel, ⟨?_, ?_, ?_, ?_, ?_, ?_⟩⟩
  case refine_3 => exact .inl (by decide +kernel)
  all_goals decide +kernel

/-! ### Turns, stack units and publish sets -/

/-- The machine answers a next state. -/
def answers (o : Out) : Bool :=
  match o with
  | .next _ => true
  | _ => false
theorem of_answers {o : Out} (h : answers o = true) : ∃ t, o = .next t := by
  cases o with
  | next t => exact ⟨t, rfl⟩
  | _ => cases h

/-- A command of context 1 with some bytes, and unit 3 with it. -/
def cmd0 (bs : List Byte) : SuCmd :=
  { asid := 1, packet := 0x100, bytes := bs ++ List.replicate (64 - bs.length) 0, root := 0x2000, issuer := none, node := none }
def unit0 : StackUnit := { StackUnit.reset with
  running := some (cmd0 [2]), started := true, owner := some 1, p := StackUnit.reset.p.set 0 0x3000
  buf := StackUnit.reset.buf.set 0 0x5C000000 }
noncomputable def withUnit (u : StackUnit) : State := { front with units := [(3, u)], curUnit := 3 }
noncomputable def atVec : State := { vstate i32 with agenda := [.vec] }
noncomputable def atUnit : State := { withUnit unit0 with agenda := [.unit 3] }

theorem witness_StepRunsTheOthersInstruction : (nextTurn atVec = .vec ∧ atVec.strand.vq = i32 :: [] ∧
      counted atVec.strand = true ∧ isStrand atVec.strand = true ∧ atVec.strand.haltWait = none ∧
      queueStopped atVec.strand .v = false ∧ isMarker i32.word = false ∧ isVecWord i32.word = true ∧
      ∃ i, decode i32.word = .ok i ∧ ∃ t, exec i { atVec with fetched := i32.word, actor := .vec } = .next t) ∧
    (nextTurn atUnit = .unit 3 ∧ (unitOf atUnit 3).running = some (cmd0 [2]) ∧ atUnit.hub.quiesce = false ∧
      (unitOf atUnit 3).started = true ∧ (unitOf atUnit 3).buf[(unitOf atUnit 3).entry]? = some 0x5C000000 ∧
      decodeSu 0x5C000000 = .ok .suEnd ∧
      ∃ t, exec .suEnd { atUnit with fetched := 0x5C000000, curUnit := 3 } = .next t) ∧
    (let s := { front with agenda := [.ev .thermalResume] }
     nextTurn s = .ev .thermalResume ∧ encode .thermalResume = none ∧ ∃ t, exec .thermalResume s = .next t) ∧
    nextTurn { front with agenda := [.line 0 false] } = .line 0 false ∧
    nextTurn { front with agenda := [.firmware (.setGrace 900)] } = .firmware (.setGrace 900) ∧
    (let s := { front with agenda := [.hostRead 0 0] }; nextTurn s = .hostRead 0 0 ∧ respondsAt s 0 = true) := by
  refine ⟨⟨rfl, rfl, by decide +kernel, by decide +kernel, rfl, by decide +kernel, by decide +kernel, by decide +kernel,
    .vaddVv 7 6 5 0, by decide +kernel, of_answers (by decide +kernel)⟩,
    ⟨rfl, by decide +kernel, by decide +kernel, by decide +kernel, by decide +kernel, by decide +kernel,
     of_answers (by decide +kernel)⟩, ⟨rfl, by decide +kernel, of_answers (by decide +kernel)⟩, rfl, rfl, rfl,
    by decide +kernel⟩

noncomputable def poisoned : State := { withUnit unit0 with mem := { front.mem with poison := [(0x3040 / 8, ())] } }
noncomputable def unitPort0 : Port := unitPort (cmd0 [2])
theorem runs0 (u : StackUnit) (h : u.running = some (cmd0 [2]) ∧ u.started = true ∧ u.loop1 = none ∧ u.loop2 = none)
    : Claims.UnitRuns (withUnit u) u (cmd0 [2]) :=
  ⟨rfl, (by decide : 3 < 256), h.1, h.2.1, h.2.2⟩
def looped : StackUnit := { unit0 with loop1 := some (1, 5, 3), entry := 2 }
theorem witness_UnitPrograms : Claims.UnitRuns (withUnit unit0) unit0 (cmd0 [2]) ∧ (23#5).toNat < 24 ∧ 24 ≤ (24#5).toNat ∧
    (unit0.p.toList.getD (0#5).toNat 0).toNat % 4 = 0 ∧
    (let u := { unit0 with p := unit0.p.set 0 0x3001 }; Claims.UnitRuns (withUnit u) u (cmd0 [2]) ∧
      (u.p.toList.getD (0#5).toNat 0).toNat % 4 ≠ 0) ∧
    (∃ s1 s2 pl bs, lanePlace unitPort0 3 0x3000 false (withUnit unit0) = (.ok pl, s1) ∧
      (∀ o < 256, placePoisoned (withUnit unit0) { pl with pa := pl.pa + o } 1 = false) ∧
      readPlace pl 256 s1 = (.ok bs, s2) ∧ bs.length = 256) ∧
    (∃ s1 pl, lanePlace unitPort0 3 0x3000 false poisoned = (.ok pl, s1) ∧
      placePoisoned poisoned { pl with pa := pl.pa + 0x40 } 1 = true ∧
      ∀ j < 0x40, placePoisoned poisoned { pl with pa := pl.pa + j } 1 = false) ∧
    (∃ s1 s2 pl, lanePlace unitPort0 3 0x3000 true (withUnit unit0) = (.ok pl, s1) ∧ writePlace unitPort0 pl
      ((List.range 64).flatMap fun l => leBytes 4 (Claims.lane unit0 0 l)) s1 = (.ok (), s2)) ∧
    unit0.entry + (95#11).toNat ≤ 95 ∧ 95 < unit0.entry + (96#11).toNat ∧
    ((withUnit looped).curUnit < 256 ∧ looped.loop1 = some (1, 5, 3) ∧ looped.loop2 = none ∧
      looped.entry + (3#11).toNat ≤ min 95 5 ∧
      (let u := { looped with c := looped.c.set 0 2 }; (u.c.toList.getD (0#5).toNat 0).toNat ≠ 0)) ∧
    ({ looped with loop2 := some (2, 3, 2) }).loop2 = some (2, 3, 2) := by
  refine ⟨runs0 _ (by decide +kernel), by decide, by decide, by decide +kernel,
    ⟨runs0 _ (by decide +kernel), by decide +kernel⟩, ?_, ?_, ?_, by decide +kernel, by decide +kernel, by decide +kernel, rfl⟩
  · obtain ⟨pl, s1, h, g⟩ := of_gives (p := lanePlace unitPort0 3 0x3000 false (withUnit unit0))
      (c := fun pl s1 => (List.range 256).all (fun o => !placePoisoned (withUnit unit0) { pl with pa := pl.pa + o } 1) &&
        gives (readPlace pl 256 s1) (fun bs _ => bs.length = 256)) (by decide +kernel)
    simp only [Bool.and_eq_true, List.all_eq_true, List.mem_range, Bool.not_eq_true'] at g
    obtain ⟨g1, g2⟩ := g
    obtain ⟨bs, s2, k, k1⟩ := of_gives g2
    exact ⟨s1, s2, pl, bs, h, g1, k, of_decide_eq_true k1⟩
  · obtain ⟨pl, s1, h, g⟩ := of_gives (p := lanePlace unitPort0 3 0x3000 false poisoned)
      (c := fun pl _ => placePoisoned poisoned { pl with pa := pl.pa + 0x40 } 1 &&
        (List.range 0x40).all fun j => !placePoisoned poisoned { pl with pa := pl.pa + j } 1) (by decide +kernel)
    simp only [Bool.and_eq_true, List.all_eq_true, List.mem_range, Bool.not_eq_true'] at g
    exact ⟨s1, pl, h, g⟩
  · obtain ⟨pl, s1, h, g⟩ := of_gives (p := lanePlace unitPort0 3 0x3000 true (withUnit unit0))
      (c := fun pl s1 => gives (writePlace unitPort0 pl
        ((List.range 64).flatMap fun l => leBytes 4 (Claims.lane unit0 0 l)) s1) (fun _ _ => true)) (by decide +kernel)
    obtain ⟨u, s2, k, -⟩ := of_gives g
    exact ⟨s1, s2, pl, h, k⟩

/-- A counter that the packet of the command names, and the ranges that operands leave. -/
theorem witness_UnitPrograms2 : (let s := { withUnit unit0 with hub := counting }
     Claims.UnitRuns s unit0 (cmd0 [2]) ∧ natBits (leNat (((cmd0 [2]).bytes.drop 4).take 2)) 15 15 = 0 ∧
      smGet s.hub.counters (natBits (leNat (((cmd0 [2]).bytes.drop 4).take 2)) 11 0) = some counter0 ∧ counter0.final = false) ∧
    natBits (leNat ((cmd0 [2, 0, 0, 0, 0, 0x80]).bytes.drop 4 |>.take 2)) 15 15 = 1 ∧
    ({ cmd0 [2] with node := some (7, 0) }).node = some (7, 0) ∧ 16 ≤ (16#5).toNat ∧ 6 ≤ (6#4).toNat ∧ 4 ≤ (4#5).toNat ∧
    8 ≤ (8#5).toNat ∧ (2#11).toNat % 4 ≠ 0 ∧ (5#4).toNat < 6 ∧ (3#5).toNat < 4 ∧ (2#2) ≠ 3#2 ∧ (4#11).toNat % 4 = 0 ∧
    ((withUnit looped).curUnit < 256 ∧ (looped.c.toList.getD (0#5).toNat 0).toNat = 0) := by
  refine ⟨⟨⟨rfl, by decide, rfl, rfl, rfl, rfl⟩, ?_⟩, ?_⟩ <;> decide +kernel

/-- Commands that wait at an idle unit. -/
def load1 : SuCmd := cmd0 ([1, 0, 1, 0] ++ List.replicate 12 0 ++ leBytes 8 0x3000)
def run1 : SuCmd := cmd0 [2]
def spill1 : SuCmd := cmd0 ([3, 0, 0, 0, 0, 0x80] ++ List.replicate 18 0 ++ leBytes 8 0x20000)
noncomputable def queued (c : SuCmd) (owner : Option (BitVec 12)) : State :=
  withUnit { StackUnit.reset with queue := [c], owner := owner }
theorem starts1 {c : SuCmd} {o : Option (BitVec 12)} {n : Nat} (h : (c.bytes.take 1).map BitVec.toNat = [n])
    (k : c.asid ∉ front.hub.descheduled) (e : unitOf (queued c o) 3 = { StackUnit.reset with queue := [c], owner := o }) :
    Claims.Starts1 (queued c o) 3 c [] n :=
  { range := by decide, idle := by rw [e]; rfl, active := by rw [e]; rfl, queue := by rw [e], calm := rfl, on := k, type := h }
/-- RUN with its program, and RUN that keeps n and k. -/
def run2 : SuCmd := cmd0 [2, 2, 1, 0]
def run3 : SuCmd := cmd0 [2, 1]
noncomputable def held (c : SuCmd) (o : Option (BitVec 12)) : State := Claims.holds1 (queued c o) 3 c []
/-- The program words that a command loads are read, and no unit changes. -/
theorem loads1 {n : Nat} {c : SuCmd} {s : State} {len : Nat} (l : leNat ((c.bytes.drop 2).take 2) = len)
    (h : gives (unitRead (unitPort c) (leNat ((c.bytes.drop 16).take 8)) (4 * len) (setUnit n (Claims.owns1 c (unitOf s n)) s))
      (fun bs s1 => s1.units = (setUnit n (Claims.owns1 c (unitOf s n)) s).units ∧ bs.length = 4 * len) = true) :
    ∃ t, Claims.Loaded n c s t := by
  subst l
  obtain ⟨bs, s1, k, g⟩ := of_gives h
  obtain ⟨g1, g2⟩ := of_decide_eq_true g
  exact ⟨_, bs, s1, k, g1, g2, rfl⟩
/-- The 128 bytes of pointers and counters of a RUN are read. -/
def ReadsPointers (c : SuCmd) (s2 : State) : Prop :=
  ∃ img s3, unitRead (unitPort c) (leNat ((c.bytes.drop 24).take 8)) 128 s2 = (.ok img, s3) ∧ s3.units = s2.units ∧
    ∀ k < 8, (img.drop (8 * k + 6)).take 2 = [0, 0]
theorem readsPointers {c : SuCmd} {s2 : State} (h : gives (unitRead (unitPort c) (leNat ((c.bytes.drop 24).take 8)) 128 s2)
      (fun img s3 => s3.units = s2.units && (List.range 8).all fun k => (img.drop (8 * k + 6)).take 2 = [0, 0]) = true) :
    ReadsPointers c s2 := by
  obtain ⟨img, s3, k, g⟩ := of_gives h
  simp only [Bool.and_eq_true, List.all_eq_true, List.mem_range, decide_eq_true_eq] at g
  exact ⟨img, s3, k, g⟩
noncomputable def loaded2 : State :=
  let s0 := setUnit 3 (Claims.owns1 run2 (unitOf (held run2 none) 3)) (held run2 none)
  setUnit 3 { unitOf s0 3 with buf := Vector.ofFn fun i => if i.val < 1 then (0x5C000000 : BitVec 32) else (unitOf s0 3).buf[i] } s0
theorem witness_UnitCommands : Claims.Starts1 (queued load1 none) 3 load1 [] 1 ∧
    Claims.Starts1 (queued load1 (some 1)) 3 load1 [] 1 ∧ leNat ((load1.bytes.drop 2).take 2) ≤ 96 ∧
    (∃ t, Claims.Loaded 3 load1 (held load1 none) t) ∧ (∃ t, Claims.Loaded 3 load1 (held load1 (some 1)) t) ∧
    Claims.Starts1 (queued run1 (some 1)) 3 run1 [] 2 ∧ (run1.bytes.drop 1).take 1 = [0] ∧ (0#8).getLsbD 1 = false ∧
    ReadsPointers run1 (setUnit 3 { unitOf (held run1 (some 1)) 3 with n := [], k := Vector.replicate 4 0 } (held run1 (some 1))) ∧
    (unitOf (queued run1 none) 3).owner ≠ some run1.asid ∧ Claims.Starts1 (queued run1 none) 3 run1 [] 2 := by
  refine ⟨starts1 ?_ ?_ ?_, starts1 ?_ ?_ ?_, ?_, loads1 (len := 1) ?_ ?_, loads1 (len := 1) ?_ ?_, starts1 ?_ ?_ ?_, ?_, ?_,
    readsPointers ?_, ?_, starts1 ?_ ?_ ?_⟩ <;> decide +kernel
theorem witness_UnitCommands2 : Claims.Starts1 (queued run2 none) 3 run2 [] 2 ∧ (run2.bytes.drop 1).take 1 = [2] ∧
    (2#8).getLsbD 1 = true ∧ leNat ((run2.bytes.drop 2).take 2) ≤ 96 ∧ (∃ t, Claims.Loaded 3 run2 (held run2 none) t) ∧
    Claims.Starts1 (queued run3 (some 1)) 3 run3 [] 2 ∧ (run3.bytes.drop 1).take 1 = [1] ∧ (1#8).getLsbD 0 = true ∧
    (1#8).getLsbD 1 = false ∧ (unitOf (queued run3 (some 1)) 3).owner = some run3.asid ∧
    ReadsPointers run3 (held run3 (some 1)) ∧ ReadsPointers run2 (setUnit 3 { unitOf loaded2 3 with
      n := [], k := Vector.replicate 4 0 } loaded2) := by
  refine ⟨starts1 ?_ ?_ ?_, ?_, ?_, ?_, loads1 (len := 1) ?_ ?_, starts1 ?_ ?_ ?_, ?_, ?_, ?_, ?_, readsPointers ?_,
    readsPointers ?_⟩ <;> decide +kernel
theorem witness_UnitCommands3 : Claims.Starts1 (queued spill1 none) 3 spill1 [] 3 ∧
    Claims.Starts1 (queued spill1 (some 1)) 3 spill1 [] 3 ∧
    spill1.node = none ∧ natBits (leNat ((spill1.bytes.drop 4).take 2)) 15 15 = 1 ∧
    (∃ s1, unitWrite (unitPort spill1) (leNat ((spill1.bytes.drop 24).take 8)) (unitImage (unitOf (queued spill1 (some 1)) 3))
        (Claims.holds1 (queued spill1 (some 1)) 3 spill1 []) = (.ok (), s1) ∧
      unitOf s1 3 = unitOf (Claims.holds1 (queued spill1 (some 1)) 3 spill1 []) 3) ∧
    (unitOf (withUnit unit0) 3).running = some (cmd0 [2]) ∧ isStrand (withUnit unit0).strand = true ∧
    (withUnit unit0).strand.asid = (cmd0 [2]).asid := by
  refine ⟨starts1 ?_ ?_ ?_, starts1 ?_ ?_ ?_, rfl, ?_, ?_, ?_⟩
  case refine_8 =>
    have ⟨a, s1, h, g⟩ := of_gives (p := unitWrite (unitPort spill1) (leNat ((spill1.bytes.drop 24).take 8))
      (unitImage (unitOf (queued spill1 (some 1)) 3)) (Claims.holds1 (queued spill1 (some 1)) 3 spill1 []))
      (c := fun _ s1 => unitOf s1 3 = unitOf (Claims.holds1 (queued spill1 (some 1)) 3 spill1 []) 3) (by decide +kernel)
    exact ⟨s1, h, of_decide_eq_true g⟩
  all_goals decide +kernel


/-! ### Publish sets, partitions and named saves -/

/-- A machine whose hoop holds the page of addresses 0 to 2^28 in its TLB, with a second leaf in the tables that a
publish set may replace, and bytes at 0x20000; the strand at system level. -/
noncomputable def placed (bs : List Byte) (r : Word) : State :=
  let s := hbmWrite 1 0x4008 (leBytes 8 0x5DF) (hbmWrite 1 0x20000 bs (setBar0 0x28 8 3 front))
  { s with strand := writeReg (writeReg system 1 r) 2 1, hoops := [(0, hoop0)] }
def setBytes : List Byte := leBytes 4 1 ++ List.replicate 60 0 ++ leBytes 8 (2 ^ 28) ++ leBytes 8 0x5DF ++ List.replicate 16 0
def newEntry : Nat × Nat × Nat × Nat := (0x4008, 0x5DF, 2 ^ 28, 28)
noncomputable def publishing : State := placed setBytes 0x20000
noncomputable def port1 : Port := strandPort publishing.strand 1
def set0 (n : Nat) : PubSet :=
  { addr := 0x20000, asid := 1, root := 0x2000, writers := n, publishing := true, owner := ⟨0, 0⟩, entries := [newEntry] }

/-- Blocks that are read without a change of state. -/
theorem same_read {α : Type} {m : Act α} {s : State} {c : α → Bool} (h : gives (m s) (fun a s1 => s1 = s && c a) = true) :
    ∃ a, m s = (.ok a, s) ∧ c a = true := by
  obtain ⟨a, s1, k, g⟩ := of_gives h
  simp only [Bool.and_eq_true, decide_eq_true_eq] at g
  obtain ⟨rfl, g⟩ := g
  exact ⟨a, k, g⟩

/-- A descriptor of one entry with another word 4, state and entry. -/
def descriptor (res state : Nat) (va pte more : Nat) : List Byte :=
  leBytes 4 1 ++ leBytes 4 res ++ leBytes 4 state ++ List.replicate 52 0 ++ leBytes 8 va ++ leBytes 8 pte ++ List.replicate 8 0 ++
    leBytes 8 more
theorem witness_PublishSets : Claims.Full publishing.strand [1] ∧ publishing.strand.dbgStep = false ∧
    (readReg (placed [] 4).strand 1).toNat % 64 ≠ 0 ∧ (readReg publishing.strand 1).toNat % 64 = 0 ∧
    vMemBusy publishing.strand = false ∧ vMemBusy (vstate loads32).strand = true ∧
    (∃ v s1, vsReadNat port1 0x20008 4 publishing = (.ok v, s1) ∧ s1.strand.dbgStep = false) := by
  refine ⟨by unfold Claims.Full; decide +kernel, by decide +kernel, by decide +kernel, by decide +kernel, by decide +kernel,
    by decide +kernel, ?_⟩
  obtain ⟨v, s1, h, g⟩ := of_gives (p := vsReadNat port1 0x20008 4 publishing) (c := fun _ s1 => s1.strand.dbgStep = false)
    (by decide +kernel)
  exact ⟨v, s1, h, of_decide_eq_true g⟩
/-- The result of a set is written into the machine with a descriptor. -/
theorem refused {d : List Byte} {r j : Nat} (h : gives (vsWriteBlock port1 (0x20000 + 8) (leBytes 4 4 ++ leBytes 4 (r * 256 + j))
    (placed d 0x20000)) (fun _ s1 => s1.strand.dbgStep = false) = true) :
    ∃ s2, Claims.Refused port1 0x20000 r j (placed d 0x20000) s2 ∧ s2.strand.dbgStep = false := by
  obtain ⟨u, s1, k, g⟩ := of_gives h
  exact ⟨s1, k, of_decide_eq_true g⟩
/-- The header and the body of a descriptor are read from there. -/
def Reads (d : List Byte) : Prop := vsReadBlock port1 0x20000 64 (placed d 0x20000) = (.ok (d.take 64), placed d 0x20000) ∧
  vsReadBlock port1 (0x20000 + 64) (32 * 1) (placed d 0x20000) = (.ok (d.drop 64), placed d 0x20000)
theorem reads {d : List Byte} (h : gives (vsReadBlock port1 0x20000 64 (placed d 0x20000)) (fun a s1 => s1 = placed d 0x20000 && a = d.take 64) = true)
    (k : gives (vsReadBlock port1 (0x20000 + 64) (32 * 1) (placed d 0x20000)) (fun a s1 => s1 = placed d 0x20000 && a = d.drop 64) = true) : Reads d := by
  obtain ⟨a, h1, h2⟩ := same_read (m := vsReadBlock port1 0x20000 64) (c := fun a => a = d.take 64) h
  obtain ⟨b, k1, k2⟩ := same_read (m := vsReadBlock port1 (0x20000 + 64) (32 * 1)) (c := fun a => a = d.drop 64) k
  rw [of_decide_eq_true h2] at h1
  rw [of_decide_eq_true k2] at k1
  exact ⟨h1, k1⟩
noncomputable def empty0 : List Byte := List.replicate 96 0
theorem witness_PublishSets2 : (Reads empty0 ∧ Claims.count (empty0.take 64) = 0 ∧
      ∃ s2, Claims.Refused port1 0x20000 1 0 (placed empty0 0x20000) s2 ∧ s2.strand.dbgStep = false) ∧
    (let d := descriptor 1 0 0 0 0; Reads d ∧ Claims.count (d.take 64) = 1 ∧ Claims.Reserved (d.take 64) ∧ (d.drop 64).length = 32 ∧
      ∃ s3, Claims.Refused port1 0x20000 2 0 (placed d 0x20000) s3 ∧ s3.strand.dbgStep = false) ∧
    (let d := descriptor 0 1 0 0 0; Reads d ∧ Claims.count (d.take 64) = 1 ∧ leNat (((d.take 64).drop 8).take 4) ≠ 0 ∧
      ∃ s3, Claims.Refused port1 0x20000 7 0 (placed d 0x20000) s3 ∧ s3.strand.dbgStep = false) ∧
    ¬ Claims.Reserved ((descriptor 0 1 0 0 0).take 64) := by
  refine ⟨⟨reads ?_ ?_, ?_, refused ?_⟩, ⟨reads ?_ ?_, ?_, .inl ?_, ?_, refused ?_⟩, ⟨reads ?_ ?_, ?_, ?_, refused ?_⟩, ?last⟩
  case last => rintro (h | h) <;> revert h <;> decide +kernel
  all_goals decide +kernel
/-- An entry that fails, and one that passes. -/
theorem witness_PublishSets3 : (let d := descriptor 0 0 0 0 1
      Reads d ∧ leNat (((d.take 64).drop 8).take 4) = 0 ∧ Claims.Pass port1 (d.drop 64) 0 (placed d 0x20000) [] (placed d 0x20000) ∧
      Claims.checked port1 (d.drop 64) 0 (placed d 0x20000) = (.ok (.error 2), placed d 0x20000) ∧
      ∃ s5, Claims.Refused port1 0x20000 2 0 (placed d 0x20000) s5 ∧ s5.strand.dbgStep = false) ∧
    Reads setBytes ∧ Claims.Pass port1 (setBytes.drop 64) 1 publishing [newEntry] publishing ∧ publishing.hub.sets.length < 256 ∧
    ∃ s4, vsWriteBlock port1 (0x20000 + 8) (leBytes 4 1) publishing = (.ok (), s4) ∧ s4.hub.sets = [] ∧
      s4.strand.dbgStep = false := by
  refine ⟨⟨reads ?_ ?_, ?_, ⟨[], .done _, rfl⟩, ?_, refused ?_⟩, reads ?_ ?_, ?_, ?_, ?_⟩
  case refine_4 =>
    obtain ⟨a, h, g⟩ := same_read (m := Claims.checked port1 ((descriptor 0 0 0 0 1).drop 64) 0)
      (s := placed (descriptor 0 0 0 0 1) 0x20000) (c := fun a => match a with
        | .error r => r = 2
        | .ok _ => false) (by decide +kernel)
    cases a with
    | ok e => cases g
    | error r => rw [of_decide_eq_true g] at h; exact h
  case refine_8 =>
    obtain ⟨got, s1, h, g⟩ := of_passing (work := Claims.checked port1 (setBytes.drop 64)) (is := List.range 1) (s := publishing)
      (c := fun got s1 => s1 = publishing && match got with
        | [(0, .ok e)] => e = newEntry
        | _ => false) (by decide +kernel)
    simp only [Bool.and_eq_true, decide_eq_true_eq] at g
    obtain ⟨rfl, g⟩ := g
    refine ⟨got, h, ?_⟩
    split at g
    · rw [of_decide_eq_true g]; rfl
    · cases g
  case refine_10 =>
    obtain ⟨u, s1, m, n⟩ := of_gives (p := vsWriteBlock port1 (0x20000 + 8) (leBytes 4 1) publishing)
      (c := fun _ s1 => s1.hub.sets = [] ∧ s1.strand.dbgStep = false) (by decide +kernel)
    exact ⟨s1, m, of_decide_eq_true n⟩
  all_goals decide +kernel

/-- What the slot of an address is: at the second level its leaf, at the third nothing, and none where the root cannot be
read. -/
noncomputable def slotIs (p : Port) (va : Nat) (r : Option (Nat × Nat × Nat)) : Bool :=
  gives (findSlot p va 3 p.root publishing) fun a s1 => s1 = publishing && a = r
theorem slot_of {p : Port} {va : Nat} {r : Option (Nat × Nat × Nat)} (h : slotIs p va r = true) :
    findSlot p va 3 p.root publishing = (.ok r, publishing) := by
  obtain ⟨a, k, g⟩ := same_read (m := findSlot p va 3 p.root) (c := fun a => a = r) h
  rw [of_decide_eq_true g] at k
  exact k
def entryBytes (va pte more : Nat) : List Byte := leBytes 8 va ++ leBytes 8 pte ++ List.replicate 8 0 ++ leBytes 8 more
theorem witness_PublishSets4 :
    (∀ va pte more, va < 2 ^ 64 → more < 2 ^ 64 → (entryBytes va pte more).length = 32) ∧
    leNat (((entryBytes 0 0 1).drop 24).take 8) ≠ 0 ∧ leNat (((entryBytes 0 0 0).drop 24).take 8) = 0 ∧
    2 ^ 48 ≤ leNat ((entryBytes (2 ^ 48) 0 0).take 8) ∧
    findSlot { port1 with root := 2 ^ 45 } 0 3 (2 ^ 45) publishing = (.ok none, publishing) ∧
    findSlot port1 (2 ^ 40) 3 port1.root publishing = (.ok (some (0x2000 + 8 * 4, 3, 0)), publishing) ∧
    findSlot port1 (2 ^ 28 + 1) 3 port1.root publishing = (.ok (some (0x4008, 2, 0x5DF)), publishing) ∧
    findSlot port1 (2 ^ 28) 3 port1.root publishing = (.ok (some (0x4008, 2, 0x5DF)), publishing) ∧
    findSlot port1 0 3 port1.root publishing = (.ok (some (0x4000, 2, 0x4DF)), publishing) ∧
    (2 ^ 28 + 1) % 2 ^ 28 ≠ 0 ∧ Nat.testBit 0x4DF 8 = false ∧ Nat.testBit 0x5DF 8 = true ∧
    ¬ Claims.NewLeaf 0 2 ∧ Claims.NewLeaf 0x5DF 2 ∧ ¬ Claims.KeyFits publishing 1 0x9DF ∧ Claims.KeyFits publishing 1 0x5DF ∧
    Claims.NewLeaf 0x9DF 2 := by
  refine ⟨fun va pte more _ _ => by simp [entryBytes, leBytes], ?_, ?_, ?_, slot_of ?_, slot_of ?_, slot_of ?_, slot_of ?_,
    slot_of ?_, ?_, ?_, ?_, ?_, ?_, ?_, ?_, ?_⟩
  case refine_12 => rintro ⟨h, -⟩; revert h; decide +kernel
  case refine_13 => exact ⟨by decide +kernel, by decide +kernel, fun _ => by decide +kernel⟩
  case refine_16 => exact ⟨by decide +kernel, by decide +kernel, fun _ => by decide +kernel⟩
  case refine_14 =>
    unfold Claims.KeyFits
    rw [show regionOf (natBits 0x9DF 53 20 * 2 ^ 18) = .hbm 0 by decide +kernel]
    rintro ⟨h, -⟩; revert h; decide +kernel
  case refine_15 =>
    unfold Claims.KeyFits
    rw [show regionOf (natBits 0x5DF 53 20 * 2 ^ 18) = .hbm 0 by decide +kernel]
    exact ⟨by decide +kernel, by decide +kernel⟩
  all_goals decide +kernel
theorem witness_PublishSets5 : (let s (n : Nat) : State := withHub { front.hub with sets := [set0 n] }
     (s 1).hub.sets[0]? = some (set0 1) ∧ (s 0).hub.sets[0]? = some (set0 0) ∧ unitRuns (s 0) 1 = false ∧
      (let base := keySlot (s 0) (ctxBaseKey (s 0) (1#12).toNat); base.loaded = true ∧ base.owner = 1) ∧
      (∀ e ∈ (set0 0).entries, gatherHolds (s 0) 1 e.2.2.1 (2 ^ e.2.2.2) = false) ∧
      ∀ e ∈ (set0 0).entries, ∃ h, regionOf e.1 = .hbm h) ∧
    (∃ pte, readPte port1 0 port1.root publishing = (.ok pte, publishing) ∧ Claims.isTable pte = true) ∧
    ∃ t s1, readPte port1 0 (2 ^ 45) publishing = (.error (.trap t), s1) := by
  refine ⟨⟨rfl, rfl, ?_, ?_, ?_, ?_⟩, ?_, of_traps ?_⟩
  case refine_4 =>
    intro e he
    simp only [set0, List.mem_singleton] at he
    subst he
    exact ⟨0x4008, by decide +kernel⟩
  case refine_5 =>
    obtain ⟨a, k, g⟩ := same_read (m := readPte port1 0 port1.root) (s := publishing) (c := Claims.isTable) (by decide +kernel)
    exact ⟨a, k, g⟩
  all_goals decide +kernel

/-- The same machine with its strand in hoop 1, and hoop 0 vacant. -/
noncomputable def elsewhere : State :=
  { placed [] 0x20000 with strand := { (placed [] 0x20000).strand with hoop := 1 }, hoops := [(1, hoop0)] }
noncomputable def absent : State := { elsewhere with mem := { elsewhere.mem with bar0 := front.mem.bar0 } }
def part0 : PartWait := { desc := 0, asid := 1, root := 0x2000, slots := (Vector.replicate 8 none).set 2 (some grant0)
                          bars := Vector.replicate 16 none }
theorem witness_HoopPartition : Claims.Full elsewhere.strand [1] ∧ elsewhere.strand.dbgStep = false ∧
    sysLevel elsewhere.strand = true ∧ sysLevel front.strand = false ∧
    (∀ s ∈ [elsewhere, absent], let p := strandPort s.strand 1
      ∃ bs, vsReadBlock p 0x20000 512 s = (.ok bs, s) ∧ spaceProbe p 0 0x20002 6 true false s = (.ok (), s) ∧
        bs = List.replicate 512 0) ∧
    partitionFault absent (List.replicate 512 0) = some (1, 0) ∧
    (∃ s1, vsWriteBlock (strandPort absent.strand 1) 0x20002 (leBytes 2 3 ++ leBytes 4 (1 * 256 + 0)) absent = (.ok (), s1) ∧
      s1.strand.dbgStep = false) ∧
    partitionFault elsewhere (List.replicate 512 0) = none ∧ Claims.Vacant elsewhere 0 ∧
    (∀ k < 8, (hoopOf elsewhere 0).grants.toList[k]? = some SlotGrant.none) ∧
    (let s := withHoop { Hoop.reset with dirty := 1#256 <<< 255 }
     (hoopOf s 0).dirty.getLsbD 255 = true ∧ (∀ t ∈ s.strand :: s.pool, (0, 255) ∉ t.arrays) ∧
      ∀ g ∈ (hoopOf s 0).grants.toList, g.sram.getLsbD 255 = false) ∧
    (hoopOf front 0).waiting = none ∧
    (let s := withHoop { Hoop.reset with waiting := some part0 }
     (hoopOf s 0).waiting = some part0 ∧ part0.slots.toList[2]? = some (some grant0) ∧ 
      ∀ j < 8, ∀ g, part0.slots.toList[j]? = some (some g) → slotOccupied s 0 j = false ∧
        ∀ i < 8, part0.slots.toList[i]? = some none → let o := grantOf s 0 i
          g.arrays &&& o.arrays = 0 ∧ (g.engines &&& o.engines = 0 ∨ g.asid = o.asid)) := by
  refine ⟨by unfold Claims.Full; decide +kernel, by decide +kernel, by decide +kernel, by decide +kernel, ?_,
    by decide +kernel, ?_, by decide +kernel, by unfold Claims.Vacant; decide +kernel, ?_, by decide +kernel, by decide +kernel,
    by decide +kernel, by decide +kernel, fun j hj g hg => ?_⟩
  · intro s hs p
    obtain ⟨bs, h, g⟩ := same_read (m := vsReadBlock p 0x20000 512) (s := s) (c := fun bs => bs = List.replicate 512 0) (by
      simp only [List.mem_cons, List.not_mem_nil, or_false] at hs
      rcases hs with rfl | rfl
      · decide +kernel
      · decide +kernel)
    refine ⟨bs, h, ?_, of_decide_eq_true g⟩
    exact of_gives_same (by
      simp only [List.mem_cons, List.not_mem_nil, or_false] at hs
      rcases hs with rfl | rfl
      · decide +kernel
      · decide +kernel)
  · obtain ⟨u, s1, h, g⟩ := of_gives (p := vsWriteBlock (strandPort absent.strand 1) 0x20002
      (leBytes 2 3 ++ leBytes 4 (1 * 256 + 0)) absent) (c := fun _ s1 => s1.strand.dbgStep = false) (by decide +kernel)
    exact ⟨s1, h, of_decide_eq_true g⟩
  · exact fun k hk => (by decide +kernel : ∀ k ∈ List.range 8, (hoopOf elsewhere 0).grants.toList[k]? = some SlotGrant.none) k
      (List.mem_range.2 hk)
  · have h : ∀ j < 8, ∀ g ∈ (part0.slots.toList[j]?).join,
        slotOccupied (withHoop { Hoop.reset with waiting := some part0 }) 0 j = false ∧
        ∀ i < 8, part0.slots.toList[i]? = some none →
          let o := grantOf (withHoop { Hoop.reset with waiting := some part0 }) 0 i
          g.arrays &&& o.arrays = 0 ∧ (g.engines &&& o.engines = 0 ∨ g.asid = o.asid) := by decide +kernel
    exact h j hj g (by rw [hg]; rfl)

/-- A save area of a strand at 0x20000. -/
def areaBytes : List Byte := List.replicate 0x24 0 ++ [1, 0, 2] ++ List.replicate 0xD9 0
def saved0 : Strand := { Strand.idle with
  id := ⟨7, 0⟩, asid := 1, state := .saved, saveArea := some 0x20000 }
noncomputable def holding : State := { placed areaBytes 0x20000 with pool := [saved0] }
noncomputable def keyed : State := { placed [] 5 with hub := { front.hub with keys := [(5, ⟨true, 1, 3, 9⟩), (6, ⟨true, 2, 3, 9⟩)] } }
theorem witness_InvalidationAndNamedSaves : (sysLevel front.strand = false ∧ sysLevel holding.strand = true ∧
    Claims.Full holding.strand [1, 2] ∧ holding.strand.dbgStep = false ∧
    4096 ≤ (readReg holding.strand 1).toNat ∧ (readReg keyed.strand 1).toNat < 4096 ∧
    (readReg keyed.strand 1).toNat ≠ keyed.strand.asid.toNat ∧ (readReg holding.strand 2).toNat = holding.strand.asid.toNat ∧
    (∀ t ∈ holding.strand :: holding.pool, t.cq = [] ∧ t.dumpedE = []) ∧ readReg holding.strand 0 = 0 ∧
    1 ≤ (readReg keyed.strand 1).toNat ∧ (keySlot keyed 5).owner = keyed.strand.asid ∧
    (let s : State := { keyed with strand := writeReg keyed.strand 1 6 }
     (readReg s.strand 1).toNat < 1024 ∧ (keySlot s 6).owner ≠ s.strand.asid) ∧
    (readReg keyed.strand 1).toNat % 4096 ≠ 0 ∧ (readReg holding.strand 1).toNat % 4096 = 0 ∧
    vMemBusy holding.strand = false ∧ (∀ r ∈ holding.hub.reqs, r.strand ≠ holding.strand.id) ∧
    holding.strand.state = .running) ∧
    (let p := strandPort holding.strand 1
     ∃ h c, vsReadBlock p 0x20000 256 holding = (.ok h, holding) ∧
      vsReadBlock p (0x20000 + sectionStart 0 0 4) 256 holding = (.ok c, holding) ∧
      leNat ((h.drop 0x26).take 1) = 2 ∧ leNat ((h.drop 0x24).take 2) = holding.strand.asid.toNat ∧
      strandOfArea holding holding.strand.asid 0x20000
        (leNat ((c.drop 200).take 8) / 2 ^ 16 % 2 ^ 8, leNat ((c.drop 208).take 8)) = some saved0) ∧
    saved0.due = false ∧ saved0.id ≠ holding.strand.id ∧ ctxValid front 2 = false := by
  refine ⟨by unfold Claims.Full; and_intros <;> decide +kernel, ?_, by and_intros <;> decide +kernel⟩
  obtain ⟨h, k, g⟩ := same_read (m := vsReadBlock (strandPort holding.strand 1) 0x20000 256) (s := holding)
    (c := fun h => leNat ((h.drop 0x26).take 1) = 2 ∧ leNat ((h.drop 0x24).take 2) = holding.strand.asid.toNat)
    (by decide +kernel)
  obtain ⟨c, l, j⟩ := same_read (m := vsReadBlock (strandPort holding.strand 1) (0x20000 + sectionStart 0 0 4) 256)
    (s := holding) (c := fun c => strandOfArea holding holding.strand.asid 0x20000
        (leNat ((c.drop 200).take 8) / 2 ^ 16 % 2 ^ 8, leNat ((c.drop 208).take 8)) = some saved0) (by decide +kernel)
  obtain ⟨g1, g2⟩ := of_decide_eq_true g
  exact ⟨h, c, k, l, g1, g2, of_decide_eq_true j⟩

/-! ### Slots, waits and saves -/

/-- A strand in the pool, an entry of the ready pool for it, and a machine with both. -/
noncomputable def other (state : RunState) : Strand := { strand0 with id := ⟨7, 0⟩, hoop := 1, state := state }
def entry0 (i : Option StrandId) (l : Option Nat) (level : Nat) : PoolEntry :=
  { graph := 0, node := 0, strand := i, launch := l, level := level, job := 0, age := 0 }
noncomputable def pooled (t : Strand) (es : List PoolEntry) : State :=
  { front with pool := [t], ac := 1600000, hub := { front.hub with ready := es } }
theorem witness_SlotsAndWaits :
    (findStrand (pooled (other .ready) []) ⟨7, 0⟩ = some (other .ready) ∧ (other .ready).state = .ready) ∧
    (other .running).state ≠ .ready ∧
    (let s := pooled (other .running) [entry0 (some ⟨8, 0⟩) none 1]
     findStrand s ⟨7, 0⟩ = some (other .running) ∧ Claims.InSlot (other .running) ∧
      ∃ e ∈ s.hub.ready, (other .running).level < e.level ∧ ∀ x ∈ poolTargets s, entryTakes s e x = false) ∧
    (let t := { other .running with sliceAc := 8000000 }
     let s := pooled t [entry0 (some ⟨7, 0⟩) none 0]
     findStrand s ⟨7, 0⟩ = some t ∧ Claims.InSlot t ∧ s.hub.slice ≤ t.sliceAc ∧
      ∃ e ∈ s.hub.ready, e.level = t.level ∧ Claims.EntryOf s e t.asid) ∧
    (other .running).sliceAc < front.hub.slice ∧
    (let t := { other .running with preempt := true, graceAc := 40000 }
     findStrand (pooled t []) ⟨7, 0⟩ = some t ∧ t.preempt = true ∧ front.hub.grace ≤ t.graceAc ∧ t.state ≠ .halted) ∧
    (other .running).graceAc < front.hub.grace ∧
    (let s := pooled (other .saved) [entry0 none none 5, entry0 none none 6]
     (s.hub.ready[0]? = some (entry0 none none 5) ∧ (entry0 none none 5).level < 6 ∧ (entry0 none none 5).age + 1600000 ≤ s.ac) ∧
      s.hub.ready[1]? = some (entry0 none none 6) ∧ 6 ≤ (entry0 none none 6).level) ∧
    (∀ l ∈ [[], [loop0]], ∀ p ∈ [true, false], let s := withSt { strand0 with preempt := true, loops := l, atLoopPoint := p }
      s.strand.node = none ∧ (s.strand.state = .running ∨ s.strand.state = .waiting) ∧ s.strand.preempt = true ∧
      s.strand.cancelled = false ∧ s.strand.idling = false ∧ s.strand.pending = [] ∧
      (∀ r ∈ s.hub.reqs, r.strand ≠ s.strand.id) ∧ s.strand.graceOut = false) ∧
    (let s := withSt { strand0 with state := .waiting, wait := some (.token .s .v true) }
     s.strand.state = .waiting ∧ Claims.Over s (.token .s .v true) ∧ s.strand.node = none ∧
      s.strand.wait = some (.token .s .v true) ∧ Claims.kindOf (.token .s .v true) = some 0) ∧
    (let s := withSt { strand0 with state := .waiting, wait := some (.fe 3), empty := 8, waits := strand0.waits.set 0 (2 ^ 32) }
     s.strand.wait = some (.fe 3) ∧ ¬ Claims.Over s (.fe 3) ∧ Claims.kindOf (.fe 3) = some 2 ∧
      2 ^ 32 ≤ s.strand.waits.get 0) ∧
    strand0.state ≠ .waiting ∧
    (let e := ventry 0x160321AB 0x28 3
     let t := { vstrand e with waits := strand0.waits.set 1 (2 ^ 32 - 1) }
     t.vq = e :: [] ∧ e.done = false ∧ isMarker e.word = false ∧ e.popped = false ∧
      tkMeaning .v (tkOf e.word) = some (false, .m) ∧ tokens t .m .v = 0 ∧ t.waits.get 1 < 2 ^ 32) := by
  refine ⟨by decide +kernel, by decide +kernel, ⟨by decide +kernel, by unfold Claims.InSlot; decide +kernel, by decide +kernel⟩,
    ⟨by decide +kernel, by unfold Claims.InSlot; decide +kernel, by decide +kernel,
     ⟨_, List.mem_singleton.2 rfl, rfl, (by decide +kernel : (findStrand (pooled { other .running with sliceAc := 8000000 }
      [entry0 (some ⟨7, 0⟩) none 0]) ⟨7, 0⟩).map Strand.asid = some 1)⟩⟩, by decide +kernel, by decide +kernel,
    by decide +kernel, by decide +kernel, by decide +kernel, by unfold Claims.Over; decide +kernel,
    by unfold Claims.Over; decide +kernel, by decide +kernel, by decide +kernel⟩

/-- A strand that is being saved into an area of a mapped page, in a machine whose hoop maps it. -/
noncomputable def saver (sec : Nat) (stop : Bool) : Strand := { strand0 with
  state := .saving, saveArea := some 0x40000, saveNamed := true, saveSec := sec, saveStop := stop }
def headBytes : List Byte := List.replicate 8 0 ++ leBytes 8 0x400000 ++ List.replicate 240 0
noncomputable def saving (t : Strand) : State :=
  { hbmWrite 1 0x40000 headBytes front with strand := t, hoops := [(0, hoop0)] }
noncomputable def begun : Strand := { saver 0 false with savedEngines := enginesToSave (saving (saver 0 false)) (saver 0 false)
                                                         saveSec := 1, saveOff := 0, saveStop := false, lateLists := [] }
theorem witness_SavesAndRestores : strand0.x.get 0 = 0 ∧
    (let t := { saver 0 false with saveNamed := false, saveArea := none }
     findStrand (saving t) ⟨0, 0⟩ = some t ∧ t.state = .saving ∧ t.saveSec = 0) ∧
    (∀ b ∈ [true, false], ∃ s1, let t := { saver 0 b with saveNamed := false, saveArea := none }
     freeArea (savePort t) (heldAreas (saving t) t.asid) 64 0 (saving t) = (.ok none, s1)) ∧
    (let t := saver 0 false
     findStrand (saving t) ⟨0, 0⟩ = some t ∧ t.saveNamed = true ∧ ∃ h s2 s3,
      areaRead (savePort begun) 0x40000 256 (updStrand ⟨0, 0⟩ (fun _ => begun) (saving t)) = (.ok h, s2) ∧
      requiredSize (rg begun) begun.savedEngines.length ≤ Claims.num h 8 8 ∧
      writeHeader begun 0x40000 1 0 0 s2 = (.ok (), s3)) ∧
    (let t := saver 1 false
     let bs := sectionBytes (saving t) t 1
     let place := 0x40000 + sectionStart (rg t) t.savedEngines.length 1
     t.saveStop = false ∧ 1 ≤ t.saveSec ∧ t.saveSec ≤ 7 ∧ t.saveSec ≠ 5 ∧ t.saveOff = 0 ∧
      pagePieces place bs.length = [(place, bs.length)] ∧ ∃ s1 t1,
        areaWrite (savePort t) place bs (saving t) = (.ok (), s1) ∧ findStrand s1 ⟨0, 0⟩ = some t1) ∧
    (let t := saver 3 true
     t.saveStop = true ∧ ∃ h s1 t1, areaRead (savePort t) 0x40000 256 (saving t) = (.ok h, s1) ∧
      requiredSize (rg t) t.savedEngines.length ≤ Claims.num h 8 8 ∧ findStrand s1 ⟨0, 0⟩ = some t1) ∧
    (let t := saver 9 false
     t.saveStop = false ∧ t.saveSec = 9 ∧ t.due = false ∧ ∃ s1 t1, writeHeader t 0x40000 2 0 0 (saving t) = (.ok (), s1) ∧
      findStrand s1 ⟨0, 0⟩ = some t1 ∧ s1.hub.ready.length < 16384) ∧
    (other .running).state ≠ .saved := by
  refine ⟨by decide +kernel, by decide +kernel, ?_, ⟨by decide +kernel, by decide +kernel, ?_⟩, ⟨by decide +kernel,
    by decide +kernel, by decide +kernel, by decide +kernel, by decide +kernel, by decide +kernel, ?_⟩,
    ⟨by decide +kernel, ?_⟩, ⟨by decide +kernel, by decide +kernel, by decide +kernel, ?_⟩, by decide +kernel⟩
  · intro b hb
    obtain ⟨r, s1, h, g⟩ := of_gives (p := freeArea (savePort { saver 0 b with saveNamed := false, saveArea := none })
      (heldAreas (saving { saver 0 b with saveNamed := false, saveArea := none }) 1) 64 0
      (saving { saver 0 b with saveNamed := false, saveArea := none })) (c := fun r _ => r = none) (by
        revert b
        decide +kernel)
    obtain rfl := of_decide_eq_true g
    exact ⟨s1, h⟩
  · obtain ⟨h, s2, k, g⟩ := of_gives (p := areaRead (savePort begun) 0x40000 256
      (updStrand ⟨0, 0⟩ (fun _ => begun) (saving (saver 0 false))))
      (c := fun h s2 => decide (requiredSize (rg begun) begun.savedEngines.length ≤ Claims.num h 8 8) &&
        gives (writeHeader begun 0x40000 1 0 0 s2) fun _ _ => true) (by decide +kernel)
    simp only [Bool.and_eq_true, decide_eq_true_eq] at g
    obtain ⟨u, s3, l, -⟩ := of_gives g.2
    exact ⟨h, s2, s3, k, g.1, l⟩
  · obtain ⟨u, s1, k, g⟩ := of_gives (p := areaWrite (savePort (saver 1 false))
      (0x40000 + sectionStart (rg (saver 1 false)) (saver 1 false).savedEngines.length 1)
      (sectionBytes (saving (saver 1 false)) (saver 1 false) 1) (saving (saver 1 false)))
      (c := fun _ s1 => (findStrand s1 ⟨0, 0⟩).isSome) (by decide +kernel)
    obtain ⟨t1, g⟩ := Option.isSome_iff_exists.1 g
    exact ⟨s1, t1, k, g⟩
  · obtain ⟨h, s1, k, g⟩ := of_gives (p := areaRead (savePort (saver 3 true)) 0x40000 256 (saving (saver 3 true)))
      (c := fun h s1 => decide (requiredSize (rg (saver 3 true)) (saver 3 true).savedEngines.length ≤ Claims.num h 8 8) &&
        (findStrand s1 ⟨0, 0⟩).isSome) (by decide +kernel)
    simp only [Bool.and_eq_true, decide_eq_true_eq] at g
    obtain ⟨t1, j⟩ := Option.isSome_iff_exists.1 g.2
    exact ⟨h, s1, t1, k, g.1, j⟩
  · obtain ⟨u, s1, k, g⟩ := of_gives (p := writeHeader (saver 9 false) 0x40000 2 0 0 (saving (saver 9 false)))
      (c := fun _ s1 => (findStrand s1 ⟨0, 0⟩).isSome && decide (s1.hub.ready.length < 16384)) (by decide +kernel)
    simp only [Bool.and_eq_true, decide_eq_true_eq] at g
    obtain ⟨t1, j⟩ := Option.isSome_iff_exists.1 g.1
    exact ⟨s1, t1, k, j, g.2⟩

/-- A saved strand with an image of zeros behind its header; it is read without its bytes being computed one by one. -/
noncomputable def imageHead : List Byte := [1, 0, 0, 0] ++ List.replicate 4 0 ++ leBytes 8 (requiredSize 0 0) ++
  leBytes 8 (requiredSize 0 0) ++ List.replicate 12 0 ++ leBytes 2 1 ++ [2] ++ List.replicate 217 0
noncomputable def savedOne : Strand := { other .saved with saveArea := some 0x40000, due := true }
noncomputable def imaging : State := { setBar0 0x28 8 1 (hbmWrite 1 0x40000 imageHead front) with
  strand := Strand.idle, pool := [savedOne], hub := { front.hub with ready := [entry0 (some ⟨7, 0⟩) none 0] }
  hoops := [(0, { Hoop.reset with grants := Hoop.reset.grants.set 0 { grant0 with lanes := 1, sram := 0 } }),
    (1, { Hoop.reset with tlb := [page0] })] }
noncomputable def areaPort : Port := savePort savedOne

theorem get_none {α : Type} (m : SMap α) (k b : Nat) (h : b ≤ k) (hm : ∀ x ∈ m, x.1 < b) : smGet m k = none := by
  induction m with
  | nil => rfl
  | cons x m ih =>
    have h1 := hm x (List.mem_cons_self ..)
    have h2 : ¬ x.1 = k := by omega
    simp only [smGet, h2, if_false]
    exact ih fun y hy => hm y (List.mem_cons_of_mem _ hy)
theorem zero_byte (key a : Nat) (h : 0x40100 ≤ a) : keyedByte imaging.mem key a = 0 := by
  have hb : ∀ x ∈ imaging.mem.blockKey, x.1 < 0x4010 := by decide +kernel
  have hm : ∀ x ∈ imaging.mem.bytes, x.1 < 0x40100 := by decide +kernel
  simp only [keyedByte, get_none _ _ _ (by omega : 0x4010 ≤ a / 16) hb, smRead, get_none _ _ _ h hm, Option.getD_none]
theorem zero_piece (q : Place) (k va a : Nat) (h : regionOf q.pa = .hbm a) (ha : 0x40100 ≤ a) :
    loadPiece areaPort q k va imaging = (.ok (List.replicate k 0), imaging) := by
  have hp : imaging.mem.poison = [] := by decide +kernel
  have hq : placePoisoned imaging q k = false := by
    simp [placePoisoned, isPoisoned, hp, smGet]
    intro a b c _
    split <;> simp
  have hs : areaPort.sideHoop = none := rfl
  have hl : hbmRead imaging q.key a k = List.replicate k 0 := by
    simp only [hbmRead, loadBytes]
    refine List.eq_replicate_iff.2 ⟨by simp, fun b hb => ?_⟩
    obtain ⟨o, -, rfl⟩ := List.mem_map.1 hb
    exact zero_byte _ _ (by omega)
  unfold loadPiece
  simp only [h, hs, bind, ExceptT.bind, ExceptT.mk, StateT.bind, ExceptT.bindCont, getS, hq, Bool.false_eq_true, if_false]
  simp only [readPiece, h, hl]
theorem map_same {α β : Type} (f : α → Act β) (g : α → β) (s : State) (xs : List α)
    (h : ∀ x ∈ xs, f x s = (.ok (g x), s)) : xs.mapM f s = (.ok (xs.map g), s) := by
  induction xs with
  | nil => rfl
  | cons x xs ih =>
    have h1 := h x (List.mem_cons_self ..)
    have h2 := ih fun y hy => h y (List.mem_cons_of_mem _ hy)
    simp only [List.mapM_cons, bind, ExceptT.bind, ExceptT.mk, StateT.bind, ExceptT.bindCont, h1, h2, pure, ExceptT.pure, StateT.pure, List.map_cons]
theorem zero_place (pl : Place) (n va : Nat) (h : ∀ x ∈ placePieces pl n, ∃ a, regionOf x.1.pa = .hbm a ∧ 0x40100 ≤ a)
    (hn : ((placePieces pl n).map fun x => x.2.2).sum = n) :
    loadPlace areaPort pl n va imaging = (.ok (List.replicate n 0), imaging) := by
  have one : ∀ x ∈ placePieces pl n, loadPiece areaPort x.1 x.2.2 (va + x.2.1) imaging =
      (.ok (List.replicate x.2.2 0), imaging) := fun x hx =>
    have ⟨a, ha, hb⟩ := h x hx
    zero_piece _ _ _ a ha hb
  have all : ((placePieces pl n).mapM fun x => loadPiece areaPort x.1 x.2.2 (va + x.2.1)) imaging =
      (.ok ((placePieces pl n).map fun x => List.replicate x.2.2 0), imaging) := map_same _ _ _ _ one
  have join : ∀ xs : List (Place × Nat × Nat), (xs.map fun x => List.replicate x.2.2 (0 : Byte)).flatten =
      List.replicate ((xs.map fun x => x.2.2).sum) 0 := by
    intro xs
    induction xs with
    | nil => rfl
    | cons x xs ih => rw [List.map_cons, List.flatten_cons, ih, List.map_cons, List.sum_cons, List.replicate_append_replicate]
  unfold loadPlace
  rcases e : placePieces pl n with _ | ⟨⟨q, o, k⟩, _ | ⟨y, ys⟩⟩ <;> rw [e] at one all hn
  · simp at hn
    subst hn
    rfl
  · obtain ⟨a, ha, hb⟩ := h (q, o, k) (e ▸ List.mem_singleton_self _)
    simp only [List.map_cons, List.map_nil, List.sum_cons, List.sum_nil, Nat.add_zero] at hn
    subst hn
    exact zero_piece q k va a ha hb
  · simp only [bind, ExceptT.bind, ExceptT.mk, StateT.bind, ExceptT.bindCont, all, pure, ExceptT.pure, StateT.pure, join, hn]

/-- A part of the area lies in one page of HBM. -/
noncomputable def areaOk (a n : Nat) : Bool := pagePieces a n = [(a, n)] && gives (inHbm areaPort a n .load imaging) (fun _ s => s = imaging) &&
  gives (access areaPort a n true false false false imaging) fun pl s => s = imaging &&
    ((placePieces pl n).map fun x => x.2.2).sum = n && (placePieces pl n).all fun x =>
      match regionOf x.1.pa with
      | .hbm a => 0x40100 ≤ a
      | _ => false
theorem zero_area (a n : Nat) (h : areaOk a n = true) :
    areaRead areaPort a n imaging = (.ok (List.replicate n 0), imaging) := by
  simp only [areaOk, Bool.and_eq_true, decide_eq_true_eq] at h
  obtain ⟨⟨h1, h2⟩, h3⟩ := h
  obtain ⟨u, s, h2, k⟩ := of_gives h2
  obtain rfl := of_decide_eq_true k
  obtain ⟨pl, s, h3, k⟩ := of_gives h3
  simp only [Bool.and_eq_true, decide_eq_true_eq, List.all_eq_true] at k
  obtain ⟨⟨rfl, k2⟩, k3⟩ := k
  have l := zero_place pl n a (fun x hx => by
    have := k3 x hx
    split at this
    · rename_i b e
      exact ⟨b, e, of_decide_eq_true this⟩
    · cases this) k2
  simp only [areaRead, vsReadBlock, vsRead, h1, List.mapM_cons, List.mapM_nil, bind, ExceptT.bind, ExceptT.mk, StateT.bind,
    ExceptT.bindCont, h2, h3, l, pure, ExceptT.pure, StateT.pure, List.flatten_cons, List.flatten_nil, List.append_nil]
theorem area_sections : ∀ n ∈ [1, 2, 3, 4, 5, 6, 7], areaOk (0x40000 + sectionStart 0 0 n) (sectionSize 0 0 n) = true := by
  decide +kernel

/-- What the sections of an image of zeros leave of the strand. -/
def Keeps (t u : Strand) : Prop :=
  u.id = t.id ∧ u.node = t.node ∧ u.haltDue = t.haltDue ∧ u.tokens = t.tokens ∧ u.lateLists = t.lateLists
def zeros (n : Nat) : List Byte := List.replicate n 0
theorem zeros_part (n k m : Nat) (h : k + m ≤ n) : ((zeros n).drop k).take m = zeros m := by
  rw [zeros, List.drop_replicate, List.take_replicate, Nat.min_eq_left (by omega)]
  rfl
theorem num_zeros (n : Nat) : leNat (zeros n) = 0 := by
  induction n with
  | zero => rfl
  | succ n ih =>
    show 0 + 256 * leNat (zeros n) = 0
    omega
theorem field_zeros (n k m : Nat) (h : k + m ≤ n) : field (zeros n) k m = 0 := by
  rw [field, zeros_part n k m h, num_zeros]
theorem all_zeros (n k m : Nat) (h : k + m ≤ n) : allZero (zeros n) k m = true := by
  rw [allZero, zeros_part n k m h]
  simp [zeros]
theorem same_ok (a : List Byte) (r : Nat) : failIf (decide (a ≠ a)) r = .ok () := by simp [failIf]
theorem zero_one (t : Strand) : ∃ u, restore1 (zeros 512) t = .ok u ∧ Keeps t u := by
  unfold restore1
  rw [show failIf (!allZero (zeros 512) 260 252) 20 = .ok () by decide +kernel]
  exact ⟨_, rfl, rfl, rfl, rfl, rfl, rfl⟩
theorem zero_two (t : Strand) : ∃ u, restore2 (zeros 256) t = .ok u ∧ Keeps t u := by
  have n : field (zeros 256) 0 8 = 0 := field_zeros _ _ _ (by omega)
  have e : section2 { t with loops := [] } = zeros 256 := by
    simp only [section2]
    decide +kernel
  refine ⟨{ t with loops := [] }, ?_, rfl, rfl, rfl, rfl, rfl⟩
  simp only [restore2, n, List.range_zero, List.map_nil, List.reverse_nil, e, same_ok]
  rfl
theorem foldl_keeps {α : Type} (f : Strand → α → Strand) (h : ∀ t x, Keeps t (f t x)) (xs : List α) :
    ∀ t, Keeps t (xs.foldl f t) := by
  induction xs with
  | nil => exact fun t => ⟨rfl, rfl, rfl, rfl, rfl⟩
  | cons x xs ih =>
    intro t
    obtain ⟨a1, a2, a3, a4, a5⟩ := h t x
    obtain ⟨b1, b2, b3, b4, b5⟩ := ih (f t x)
    exact ⟨b1.trans a1, b2.trans a2, b3.trans a3, b4.trans a4, b5.trans a5⟩
theorem setEmpty_keeps (t : Strand) (r : Reg) : Keeps t (setEmpty t r) := by
  unfold setEmpty
  split <;> exact ⟨rfl, rfl, rfl, rfl, rfl⟩
theorem zero_three (t : Strand) : ∃ u, restore3 (zeros 4096) t = .ok u ∧ Keeps t u := by
  have a : (((chunksOf 32 64 (zeros 4096)).zip (chunksOf 8 64 ((zeros 4096).drop 0xE00))).any fun (e, x) =>
    if usedEntry e then vEntryBytes (vEntryOf e x none) ≠ e || vEntryExt (vEntryOf e x none) ≠ x
    else !(e ++ x).all (· = 0)) = false := by decide +kernel
  have b : ((chunksOf 32 48 ((zeros 4096).drop 0x800)).any fun e =>
      if usedEntry e then cEntryBytes (cEntryOf e none) ≠ e else !e.all (· = 0)) = false := by decide +kernel
  refine ⟨requeue (zeros 4096) t, ?_, ?_⟩
  · simp only [restore3, a, b]
    rfl
  · simp only [requeue, reissue]
    exact foldl_keeps _ (fun t e => setEmpty_keeps t _) _ _
theorem csrWrite_keeps (n : Nat) (v : Word) (t : Strand) : Keeps t (csrWrite n v t) := by
  unfold csrWrite
  split <;> exact ⟨rfl, rfl, rfl, rfl, rfl⟩
theorem zero_four (s : State) (t : Strand) : ∃ u, restore4 s (zeros 256) t = .ok u ∧ Keeps t u := by
  have a : ((savedCsrs.zipIdx.map fun (n, k) => (n, BitVec.ofNat 64 (field (zeros 256) (8 * k) 8))).any fun (n, v) =>
    n < 0xC00 && csrStore n v ≠ v) = false := by decide +kernel
  have b (n : Nat) (h : n = 0xC20 ∨ n = 0xC21 ∨ n = 0xC23) : (((savedCsrs.zipIdx.map fun (n, k) =>
      (n, BitVec.ofNat 64 (field (zeros 256) (8 * k) 8))).find? fun x => x.1 = n).map (·.2)).getD (0 : Word) = 0 := by
    rcases h with rfl | rfl | rfl <;> decide +kernel
  have c : (2 ^ 32 ≤ (0 : Word).toNat || (!vtypeLegal (0 : Word) && (0 : Word) ≠ vill) || 4 ≤ (0 : Word).toNat) = false := by
    decide +kernel
  have k := foldl_keeps (fun (t : Strand) (x : Nat × Word) => csrWrite x.1 x.2 t) (fun t x => csrWrite_keeps x.1 x.2 t)
    (savedCsrs.zipIdx.map fun (n, k) => (n, BitVec.ofNat 64 (field (zeros 256) (8 * k) 8))) t
  obtain ⟨k1, k2, k3, k4, k5⟩ := k
  simp only [restore4, a, b _ (.inl rfl), b _ (.inr (.inl rfl)), b _ (.inr (.inr rfl)), c]
  exact ⟨_, rfl, k1, k2, k3, k4, k5⟩
theorem map_zeros (n : Nat) : (chunksOf 2 n (zeros (2 * n))).map (fun e => BitVec.ofNat 16 (leNat e)) = List.replicate n 0 := by
  induction n with
  | zero => rfl
  | succ n ih =>
    have e : zeros (2 * (n + 1)) = 0 :: 0 :: zeros (2 * n) := by
      simp only [zeros, Nat.mul_add, Nat.mul_one, List.replicate_succ]
    rw [e]
    show BitVec.ofNat 16 (leNat [0, 0]) :: (chunksOf 2 n (zeros (2 * n))).map _ = _
    rw [ih]
    rfl
theorem write_zeros (n : Nat) : ∀ k, smWriteList (0 : BitVec 16) [] k (List.replicate n 0) = [] := by
  induction n with
  | zero => exact fun k => rfl
  | succ n ih => exact fun k => ih (k + 1)
theorem flat_zeros {α : Type} (f : α → List Byte) (h : ∀ a, f a = zeros 2) (xs : List α) :
    (xs.map f).flatten = zeros (2 * xs.length) := by
  induction xs with
  | nil => rfl
  | cons x xs ih =>
    rw [List.map_cons, List.flatten_cons, ih, h, zeros, zeros, List.replicate_append_replicate, List.length_cons]
    congr 1
    omega
theorem q_zeros : qOf (zeros 8) (zeros 4096) = .ok { entries := [], fmt := BitVec.ofNat 2 0, len := 0, gen := BitVec.ofNat 12 0 } := by
  have f : field (zeros 8) 0 8 = 0 := field_zeros _ _ _ (by omega)
  have e : smWriteList (0 : BitVec 16) [] 0 ((chunksOf 2 2048 (zeros 4096)).map fun e => BitVec.ofNat 16 (leNat e)) = [] := by
    rw [map_zeros 2048, write_zeros]
  have b : qBytes { entries := [], fmt := BitVec.ofNat 2 0, len := 0, gen := BitVec.ofNat 12 0 } = zeros 4096 := by
    rw [qBytes, flat_zeros _ _ (List.range 2048), List.length_range]
    intro k
    have z : ({ entries := [], fmt := BitVec.ofNat 2 0, len := 0, gen := BitVec.ofNat 12 0 } : QReg).entry k = 0 := rfl
    rw [z, ite_self]
    rfl
  have h : qHeader { entries := [], fmt := BitVec.ofNat 2 0, len := 0, gen := BitVec.ofNat 12 0 } = zeros 8 := by decide +kernel
  have z (a b : Nat) : natBits 0 a b = 0 := by simp [natBits]
  have c : (decide (qHeader { entries := [], fmt := BitVec.ofNat 2 0, len := 0, gen := BitVec.ofNat 12 0 } ≠ zeros 8) ||
      decide (qBytes { entries := [], fmt := BitVec.ofNat 2 0, len := 0, gen := BitVec.ofNat 12 0 } ≠ zeros 4096)) = false := by
    rw [b, h]
    simp
  simp only [qOf, f, z, e, c]
  rfl
theorem mapM_same {α β : Type} (f : α → Restoring β) (g : α → β) (xs : List α) (h : ∀ x ∈ xs, f x = .ok (g x)) :
    xs.mapM f = .ok (xs.map g) := by
  induction xs with
  | nil => rfl
  | cons x xs ih =>
    rw [List.mapM_cons, h x (List.mem_cons_self ..), ih fun y hy => h y (List.mem_cons_of_mem _ hy)]
    rfl
theorem zero_five (t : Strand) : ∃ u, restore5 (zeros 134144) 0 t = .ok u ∧ Keeps t u := by
  have f (k m : Nat) (h : k + m ≤ 134144) : field (zeros 134144) k m = 0 := field_zeros _ _ _ h
  have u (n : Nat) (h : n < 32) : ((zeros 134144).drop (0x20400 + n * (64 + 4 * 0))).take (64 + 4 * 0) = zeros 64 :=
    zeros_part _ _ _ (by omega)
  have g1 : ((List.range 16).any fun k => natBits (field (zeros 134144) (0x40 + 16 * k) 16) 127 120 ≠ 0 ||
      natBits (field (zeros 134144) (0x40 + 16 * k) 16) 64 50 ≠ 0) = false := by
    rw [List.any_eq_false]
    intro k hk
    rw [f _ _ (by have := List.mem_range.1 hk; omega)]
    decide
  have g2 : ((List.range 32).any fun n => natBits (field (((zeros 134144).drop (0x20400 + n * (64 + 4 * 0))).take
      (64 + 4 * 0)) 0 4) 31 25 ≠ 0) = false := by
    rw [List.any_eq_false]
    intro k hk
    rw [u k (List.mem_range.1 hk), field_zeros _ _ _ (by omega)]
    decide
  have g3 : ((List.range 32).any fun n => !allZero (((zeros 134144).drop (0x20400 + n * (64 + 4 * 0))).take (64 + 4 * 0))
      4 60) = false := by
    rw [List.any_eq_false]
    intro k hk
    rw [u k (List.mem_range.1 hk), all_zeros _ _ _ (by omega)]
    decide
  have g4 : (!allZero (zeros 134144) 4 60 || !allZero (zeros 134144) 0x240 448) = false := by
    rw [all_zeros _ _ _ (by omega), all_zeros _ _ _ (by omega)]
    rfl
  have m := mapM_same (fun n => qOf (((zeros 134144).drop (0x140 + 8 * n)).take 8)
      (((zeros 134144).drop (0x400 + 4096 * n)).take 4096)) (fun _ => { entries := [], fmt := BitVec.ofNat 2 0, len := 0, gen := BitVec.ofNat 12 0 })
      (List.range 32) fun n hn => by
    have := List.mem_range.1 hn
    rw [zeros_part _ _ _ (by omega), zeros_part _ _ _ (by omega), q_zeros]
  unfold restore5
  simp only [f 0 4 (by omega), g1, g2, g3, g4, m]
  exact ⟨_, rfl, rfl, rfl, rfl, rfl, rfl⟩
theorem zero_six (t : Strand) (h : t.tokens = Vector.replicate 25 0) (k : t.lateLists = []) :
    ∃ u, restore6 (zeros 256) t = .ok u ∧ Keeps t u := by
  have g : tokenOrder.zipIdx.foldl (fun t ((q, r), k) => setTokens t q r (BitVec.ofNat 4 (field (zeros 256) k 1))) t = t := by
    have one : ∀ x ∈ tokenOrder.zipIdx, setTokens t x.1.1 x.1.2 (BitVec.ofNat 4 (field (zeros 256) x.2 1)) = t := by
      intro x hx
      have hk : x.2 < 20 := (by decide : ∀ x ∈ tokenOrder.zipIdx, x.2 < 20) x hx
      rw [field_zeros _ _ _ (by omega), setTokens, h]
      have : (Vector.replicate 25 (0 : BitVec 4)).set (tokenIx x.1.1 x.1.2).val (BitVec.ofNat 4 0) (tokenIx x.1.1 x.1.2).isLt =
          Vector.replicate 25 0 := by
        ext i hi
        simp
      rw [this, ← h]
    revert one
    generalize tokenOrder.zipIdx = xs
    intro one
    induction xs with
    | nil => rfl
    | cons x xs ih =>
      rw [List.foldl_cons]
      have e := one x (List.mem_cons_self ..)
      simp only at e ⊢
      rw [e]
      exact ih fun y hy => one y (List.mem_cons_of_mem _ hy)
  have e : section6 { t with barPending := BitVec.ofNat 17 (field (zeros 256) 20 2 + field (zeros 256) 22 1 * 2 ^ 16)
                             lateLists := [] } = zeros 256 := by
    simp only [section6, tokens, h]
    decide +kernel
  refine ⟨{ t with barPending := BitVec.ofNat 17 (field (zeros 256) 20 2 + field (zeros 256) 22 1 * 2 ^ 16)
                   lateLists := [] }, ?_, rfl, rfl, rfl, rfl, k.symm⟩
  simp only [restore6, g, k, List.foldl_nil, e, same_ok]
  rfl
theorem zero_seven (t : Strand) : ∃ u, restore7 (zeros 33024) t = .ok u ∧ Keeps t u := by
  have n : field (zeros 33024) 0 8 = 0 := field_zeros _ _ _ (by omega)
  have e : section7 { t with recvq := [] } = zeros 33024 := by
    have l : leBytes 8 0 = zeros 8 := by decide +kernel
    simp only [section7, padTo, List.length_nil, l, List.map_nil, List.flatten_nil, List.append_nil]
    simp only [zeros, List.length_replicate, List.replicate_append_replicate, List.take_replicate]
    rfl
  refine ⟨{ t with recvq := [] }, ?_, rfl, rfl, rfl, rfl, rfl⟩
  simp only [restore7, n, chunksOf, List.map_nil, e, same_ok]
  rfl
theorem zero_section (s : State) (n : Nat) (hn : n ∈ [1, 2, 3, 4, 5, 6, 7, 8]) (t : Strand)
    (h : t.tokens = Vector.replicate 25 0) (k : t.lateLists = []) :
    ∃ u, restoreSection s 0 n (zeros (sectionSize 0 0 n)) t = .ok u ∧ Keeps t u := by
  simp only [List.mem_cons, List.not_mem_nil, or_false] at hn
  rcases hn with rfl | rfl | rfl | rfl | rfl | rfl | rfl | rfl
  exacts [zero_one t, zero_two t, zero_three t, zero_four s t, zero_five t, zero_six t h k, zero_seven t,
    ⟨t, rfl, rfl, rfl, rfl, rfl, rfl⟩]
theorem section_read (n : Nat) (hn : n ∈ [1, 2, 3, 4, 5, 6, 7, 8]) :
    areaRead areaPort (0x40000 + sectionStart 0 0 n) (sectionSize 0 0 n) imaging =
      (.ok (zeros (sectionSize 0 0 n)), imaging) := by
  by_cases h : n = 8
  · subst h
    rfl
  · refine zero_area _ _ (area_sections n ?_)
    simp only [List.mem_cons, List.not_mem_nil, or_false] at hn ⊢
    omega
theorem zero_body : ∀ (ns : List Nat) (t : Strand), (∀ n ∈ ns, n ∈ [1, 2, 3, 4, 5, 6, 7, 8]) →
    t.tokens = Vector.replicate 25 0 → t.lateLists = [] →
    ∃ u, restoreBody 0x40000 0 0 areaPort ns t imaging = (.ok (.ok u), imaging) ∧ Keeps t u := by
  intro ns
  induction ns with
  | nil => exact fun t _ _ _ => ⟨t, rfl, rfl, rfl, rfl, rfl, rfl⟩
  | cons n ns ih =>
    intro t hn h k
    have hm := hn n (List.mem_cons_self ..)
    obtain ⟨u, hu, k1, k2, k3, k4, k5⟩ := zero_section imaging n hm t h k
    obtain ⟨w, hw, l1, l2, l3, l4, l5⟩ := ih u (fun m hm => hn m (List.mem_cons_of_mem _ hm)) (k4.trans h) (k5.trans k)
    refine ⟨w, ?_, l1.trans k1, l2.trans k2, l3.trans k3, l4.trans k4, l5.trans k5⟩
    have a := section_read n hm
    unfold restoreBody
    simp only [tryTrap, bind, ExceptT.bind, ExceptT.mk, StateT.bind, ExceptT.bindCont, a, getS]
    simp only [hu]
    exact hw
theorem head_read : areaRead areaPort 0x40000 256 imaging = (.ok imageHead, imaging) := by
  obtain ⟨h, s, a, g⟩ := of_gives (p := areaRead areaPort 0x40000 256 imaging) (c := fun h s => s = imaging &&
    h = imageHead) (by decide +kernel)
  simp only [Bool.and_eq_true, decide_eq_true_eq] at g
  obtain ⟨rfl, rfl⟩ := g
  exact a
theorem head_ok : ∃ u, headerChecks imageHead savedOne = .ok u := by
  have c : (headerChecks imageHead savedOne).isOk = true := by decide +kernel
  cases e : headerChecks imageHead savedOne with
  | error r => rw [e] at c; cases c
  | ok u => exact ⟨u, rfl⟩
theorem head_fields : natBits (field imageHead 0x34 4) 0 0 + natBits (field imageHead 0x34 4) 1 1 = 0 ∧
    field imageHead 0x30 4 / 512 = 0 := by decide +kernel
/-- A read image whose header names no engine and no reduced grant is the body's. -/
theorem read_of {t : Strand} {a : Nat} {s : State} {h : List Byte} {c : Unit} (l : areaRead (savePort t) a 256 s = (.ok h, s))
    (k : headerChecks h t = .ok c) (m : natBits (field h 0x34 4) 0 0 + natBits (field h 0x34 4) 1 1 = 0 ∧
      field h 0x30 4 / 512 = 0) (e : t.savedEngines = []) :
    readImage t a s = restoreBody a (rg t) 0 (savePort t) [1, 2, 3, 4, 5, 6, 7, 8]
      { t with savedEngines := [], pendingGrant := none } s := by
  unfold readImage
  simp only [tryTrap, bind, ExceptT.bind, ExceptT.mk, StateT.bind, ExceptT.bindCont, l, k, m.1, m.2, e, List.filter_nil, if_true]
theorem image_read : ∃ u, readImage savedOne 0x40000 imaging = (.ok (.ok u), imaging) ∧ u.id = ⟨7, 0⟩ ∧ u.node = none ∧
    u.haltDue = none := by
  obtain ⟨c, k⟩ := head_ok
  obtain ⟨u, h, k1, k2, k3, -⟩ := zero_body [1, 2, 3, 4, 5, 6, 7, 8]
    { savedOne with savedEngines := [], pendingGrant := none } (fun n h => h) (by decide +kernel) rfl
  exact ⟨u, (read_of head_read k head_fields rfl).trans h, k1, k2, k3⟩
theorem witness_SavesAndRestores2 :
    (findStrand imaging ⟨7, 0⟩ = some savedOne ∧ savedOne.state = .saved ∧ savedOne.due = true ∧ imaging.hub.stopped = false ∧
      savedOne.arrays.length / 8 ≤ (if spansOf imaging savedOne then (Claims.blocksOffered imaging).sum
        else (Claims.blocksOffered imaging).foldl max 0) ∧ imaging.hub.graphs = [] ∧
      imaging.hub.ready = [entry0 (some ⟨7, 0⟩) none 0] ∧ 1 ≤ quantumOf imaging 0 ∧
      (∀ x ∈ imaging.strand :: imaging.pool, x.state = .saved → x.due = true → x.id = ⟨7, 0⟩) ∧
      slotTakes imaging savedOne.asid ((findLaunch imaging 7).bind Launch.affinity) 0 0 (savedOne.arrays.length / 8)
        (spansOf imaging savedOne) = true) ∧
    (∃ g t1, savedOne.saveArea = some 0x40000 ∧
      grantFor imaging savedOne.asid 0 0 (savedOne.arrays.length / 8) (spansOf imaging savedOne) = some g ∧
      readImage savedOne 0x40000 imaging = (.ok (.ok t1), imaging) ∧ t1.id = ⟨7, 0⟩ ∧ t1.node = none ∧ t1.haltDue = none ∧
      ∃ t0, findStrand imaging ⟨7, 0⟩ = some t0) := by
  refine ⟨by decide +kernel, ?_⟩
  obtain ⟨g, hg⟩ := Option.isSome_iff_exists.1 (by decide +kernel :
    (grantFor imaging savedOne.asid 0 0 (savedOne.arrays.length / 8) (spansOf imaging savedOne)).isSome = true)
  obtain ⟨u, hu, k⟩ := image_read
  exact ⟨g, u, rfl, hg, hu, k.1, k.2.1, k.2.2, savedOne, by decide +kernel⟩

/-! ### Launches, graphs and jobs -/

/-- A launch, a graph and a job of counter 0 that have not been accepted, over memory with some bytes at 0x20000. -/
def launchBytes : List Byte := List.replicate 16 0 ++ [1] ++ List.replicate 47 0
def launch1 (acc : Bool) : Launch :=
  { counter := 0, packet := 0x20000, accepted := acc, bytes := launchBytes, placed := 0, barrier := none
    affinity := none, root := 0x2000, sysLevel := false }
def graph0 : Graph :=
  { counter := 0, addr := 0x20000, patchAddr := none, accepted := false, header := [], patch := [], preds := [], nodes := []
    children := [], records := [], root := 0x2000 }
def graphBytes : List Byte := leBytes 4 1 ++ leBytes 4 0 ++ leBytes 8 0x20080 ++ List.replicate 112 0 ++ [7] ++ List.replicate 127 0
def countOf (k : ObjKind) : Counter := { counter0 with kind := k }
noncomputable def hubbed (bs : List Byte) (k : ObjKind) (h : Hub) : State :=
  { hbmWrite 1 0x20000 bs front with hub := { h with counters := [(0, countOf k)], keys := front.hub.keys } }
/-- A graph whose node 1 is finished, with node 0 as its successor. -/
def graph1 : Graph := { graph0 with
  accepted := true, preds := [(0, 1)], nodes := [(0, .blocked), (1, .finished)], records := [(1, [7, 0, 0, 0, 1, 0, 0, 0])] }
noncomputable def launching (bs : List Byte) : State := hubbed bs .launch { front.hub with launches := [launch1 false] }
noncomputable def lostLaunch : State :=
  hubbed [] .launch { front.hub with launches := [{ launch1 false with packet := 0x7F0000000000 }] }
noncomputable def graphing (bs : List Byte) : State := hubbed bs .graph { front.hub with graphs := [graph0] }
noncomputable def finishing : State := hubbed [] .graph { front.hub with graphs := [graph1] }
def job0 (l : List (List (Word × Word))) : Job := { counter := 0, queue := 0, list := l, next := 0, result := 0, root := 0x2000 }
def phase0 (l : List (Word × Word)) : Phase := { counter := 0, list := l, next := 0 }
/-- The context may hold counters. -/
noncomputable def quota (s : State) : State := setBar0 0x200028 8 (2 ^ 20 + 1) s
noncomputable def jobbed (l : List (List (Word × Word))) : State :=
  quota (hubbed [] .job { front.hub with jobs := [job0 l] })
noncomputable def phased (l : List (Word × Word)) : State :=
  quota (hubbed [] .phase { front.hub with phases := [phase0 l] })
/-- A slot with one lane block is free, and a launch of one strand waits. -/
noncomputable def dispatching : State := { setBar0 0x28 8 1 (hubbed [] .launch
    { front.hub with launches := [launch1 true], ready := [entry0 none (some 0) 0] }) with
  strand := Strand.idle
  hoops := [(0, { Hoop.reset with grants := Hoop.reset.grants.set 0 { grant0 with lanes := 1, sram := 0 } })] }
/-- A job packet waits in queue 0; its result word lies in a window of the context. -/
def packetBytes : List Byte :=
  [1] ++ List.replicate 7 0 ++ leBytes 8 0x20100 ++ leBytes 8 1 ++ leBytes 8 (2 ^ 28) ++ List.replicate 32 0
def phaseBytes : List Byte := leBytes 8 0x20200 ++ leBytes 4 1 ++ leBytes 4 0
noncomputable def posted : State :=
  setBar0 0x60000 8 (2 ^ 63 + 1) (setBar0 0x60008 8 20 (setBar0 0x40000 8 0x20000 (setBar0 0x40008 8 (2 ^ 63 + 2 ^ 16 + 1)
    (setBar0 0x40010 2 1 (quota (hbmWrite 1 0x4008 (leBytes 8 (2 ^ 53 + 0xDF)) (hbmWrite 1 0x20100 phaseBytes
      (hbmWrite 1 0x20000 packetBytes front))))))))
noncomputable def postedPort : Port := hubPort 1 (ctxRoot posted 1)

/-- A result that is no value, in a state for which a condition holds. -/
def stops {α : Type} (p : Except Stop α × State) (c : State → Bool) : Bool :=
  match p with
  | (.error _, s) => c s
  | _ => false
theorem of_stops {α : Type} {p : Except Stop α × State} {c : State → Bool} (h : stops p c = true) :
    ∃ e s, p = (.error e, s) ∧ c s = true := by
  rcases p with ⟨r, s⟩
  cases r with
  | ok a => cases h
  | error e => exact ⟨e, s, rfl, h⟩

/-- A counter is free for the context. -/
theorem allocates (v : Counter) (s : State) (h : freeCounters s v.asid ≠ [])
    (k : heldCounters s v.asid < ctxQuota s v.asid.toNat) : ∃ c s1, allocCounter v s = (.ok (some c), s1) := by
  have l : ¬ ctxQuota s v.asid.toNat ≤ heldCounters s v.asid := by omega
  have e : ∃ r, allocCounter v s = r ∧ ∃ c s1, r = (.ok (some c), s1) := by
    refine ⟨_, rfl, ?_⟩
    unfold allocCounter
    simp only [bind, ExceptT.bind, ExceptT.mk, StateT.bind, ExceptT.bindCont, getS, h, l, or_self, if_false]
    exact ⟨_, _, rfl⟩
  obtain ⟨r, rfl, e⟩ := e
  exact e
/-- A packet of one strand fails for no reason. -/
theorem sound (r : Nat) : ¬ Claims.PacketFails (launching launchBytes) launchBytes r := by
  match r with
  | 0 => exact not_false
  | 1 | 2 | 3 | 4 | 5 => simp only [Claims.PacketFails]; decide +kernel
  | n + 6 => exact not_false

theorem witness_LaunchesGraphsAndJobs :
    ((∀ s ∈ [launching [], launching launchBytes], findLaunch s 0 = some (launch1 false)) ∧
      findLaunch lostLaunch 0 = some { launch1 false with packet := 0x7F0000000000 } ∧
      ∀ s ∈ [launching [], launching launchBytes, lostLaunch], counterOf s 0 = some (countOf .launch) ∧ s.hub.ready = []) ∧
    (∃ e s1, vsReadBlock (hubPort 1 0x2000) 0x7F0000000000 64 lostLaunch = (.error e, s1) ∧
      counterOf s1 0 = some (countOf .launch)) ∧
    (∃ b, vsReadBlock (hubPort 1 0x2000) 0x20000 64 (launching []) = (.ok b, launching []) ∧
      Claims.PacketFails (launching []) b 1 ∧ ∀ q < 1, ¬ Claims.PacketFails (launching []) b q) ∧
    (∃ b, vsReadBlock (hubPort 1 0x2000) 0x20000 64 (launching launchBytes) = (.ok b, launching launchBytes) ∧
      (∀ r, ¬ Claims.PacketFails (launching launchBytes) b r)) ∧
    (∀ s ∈ [graphing [], graphing graphBytes], findGraph s 0 = some graph0 ∧ counterOf s 0 = some (countOf .graph)) ∧
    (∃ h s1, vsReadBlock (hubPort 1 0x2000) 0x20000 128 (graphing []) = (.ok h, s1) ∧ Claims.num h 0 4 = 0) ∧
    (∃ r s1, readGraph (hubPort 1 0x2000) 0x20000 none 0 (graphing []) = (.ok (.error r), s1) ∧
      counterOf s1 0 = some (countOf .graph)) ∧
    (∃ x, readGraph (hubPort 1 0x2000) 0x20000 none 0 (graphing graphBytes) = (.ok (.ok x), graphing graphBytes)) ∧
    16384 ≤ { front.hub with ready := List.replicate 16384 (entry0 none none 0) }.ready.length ∧
    (∀ s ∈ [jobbed [], jobbed [[(0x20000, 0)]], phased [], phased [(0x20000, 0)]],
      ((counterOf s 0).any fun v => !v.final && !v.cancelled) = true ∧
      (∀ x ∈ s.hub.counters, x.2.parent = some 0 → x.2.final = true) ∧ s.hub.incs = []) ∧
    (jobbed []).hub.jobs.find? (fun j => j.counter = 0) = some (job0 []) ∧
    (∃ p s1, allocCounter (newCounter .phase 1 1 (some 0) none 0) (jobbed [[(0x20000, 0)]]) = (.ok (some p), s1)) ∧
    (∃ g s1, allocCounter (newCounter .graph 1 0 (some 0) none 0) (phased [(0x20000, 0)]) = (.ok (some g), s1)) ∧
    (findGraph finishing 0 = some graph1 ∧ smGet graph1.nodes 1 = some .finished ∧ smGet graph1.children 1 = none ∧
      ∃ bs, vsReadBlock (hubPort 1 0x2000) (Claims.num graph1.header 0x10 8 + 2 * Claims.num (smRead [] graph1.records 1) 6 2)
        (2 * Claims.num (smRead [] graph1.records 1) 4 2) finishing = (.ok bs, finishing) ∧ bs.length = 2 ∧
        Claims.num bs 0 2 = 0 ∧ smRead 0 graph1.preds 0 = 1 ∧ smGet graph1.nodes 0 = some .blocked) ∧
    (front.hub.graphs = [] ∧ front.hub.ready = []) ∧
    (dispatching.hub.ready = [entry0 none (some 0) 0] ∧ 1 ≤ quantumOf dispatching 0 ∧
      findLaunch dispatching 0 = some (launch1 true) ∧ (launch1 true).placed < (launch1 true).strands ∧
      (launch1 true).strands < 2 ∧ slotTakes dispatching 1 none 0 0 0 false = true ∧
      (∀ x ∈ dispatching.strand :: dispatching.pool, x.state = .saved → x.due = false) ∧
      ∃ g, grantFor dispatching 1 0 0 0 false = some g) ∧
    (bar0 posted 0x40008 8 / 2 ^ 63 % 2 = 1 ∧ bar0 posted 0x40018 2 ≠ bar0 posted 0x40010 2 ∧ ctxValid posted 1 = true ∧
      let s0 := setBar0 0x40018 2 1 posted
      ∃ b s2, vsReadBlock postedPort 0x20000 64 s0 = (.ok b, s0) ∧ jobFieldsOk b = true ∧ Claims.num b 0x18 8 = 2 ^ 28 ∧
        ∃ c, allocCounter (newCounter .job 1 0 none none 0) s0 = (.ok (some c), s2) ∧
        ∃ s3 s4 w, vsWriteBlock postedPort (2 ^ 28) (leBytes 8 c) { s2 with hub := { s2.hub with
            jobs := s2.hub.jobs ++ [{ job0 [] with counter := c, result := 2 ^ 28 }] } } = (.ok (), s3) ∧
          readPhases postedPort 0x20100 1 s3 = (.ok (some w), s4)) := by
  refine ⟨by decide +kernel, ?_, ?_, ?_, by decide +kernel, ?_, ?_, ?_, ?_, by decide +kernel, by decide +kernel, ?_, ?_,
    ⟨by decide +kernel, by decide +kernel, by decide +kernel, ?_⟩, by decide +kernel,
    ⟨by decide +kernel, by decide +kernel, by decide +kernel, by decide +kernel, by decide +kernel, by decide +kernel, by decide +kernel, ?_⟩,
    ⟨by decide +kernel, by decide +kernel, by decide +kernel, ?_⟩⟩
  · obtain ⟨e, s1, h, g⟩ := of_stops (p := vsReadBlock (hubPort 1 0x2000) 0x7F0000000000 64 lostLaunch)
      (c := fun s1 => counterOf s1 0 = some (countOf .launch)) (by decide +kernel)
    exact ⟨e, s1, h, of_decide_eq_true g⟩
  · obtain ⟨b, h, g⟩ := same_read (m := vsReadBlock (hubPort 1 0x2000) 0x20000 64) (s := launching [])
      (c := fun b => Claims.num b 0x10 2 = 0) (by decide +kernel)
    refine ⟨b, h, .inl (of_decide_eq_true g), fun q hq => ?_⟩
    obtain rfl : q = 0 := by omega
    exact not_false
  · obtain ⟨b, h, g⟩ := same_read (m := vsReadBlock (hubPort 1 0x2000) 0x20000 64) (s := launching launchBytes)
      (c := fun b => b = launchBytes) (by decide +kernel)
    obtain rfl := of_decide_eq_true g
    exact ⟨_, h, sound⟩
  · obtain ⟨h, s1, k, g⟩ := of_gives (p := vsReadBlock (hubPort 1 0x2000) 0x20000 128 (graphing []))
      (c := fun h _ => Claims.num h 0 4 = 0) (by decide +kernel)
    exact ⟨h, s1, k, of_decide_eq_true g⟩
  · obtain ⟨r, s1, k, g⟩ := of_gives (p := readGraph (hubPort 1 0x2000) 0x20000 none 0 (graphing []))
      (c := fun r s1 => !r.isOk && counterOf s1 0 = some (countOf .graph)) (by decide +kernel)
    simp only [Bool.and_eq_true, decide_eq_true_eq] at g
    cases r with
    | error r => exact ⟨r, s1, k, g.2⟩
    | ok x => cases g.1
  · obtain ⟨r, k, g⟩ := same_read (m := readGraph (hubPort 1 0x2000) 0x20000 none 0) (s := graphing graphBytes)
      (c := fun r => r.isOk) (by decide +kernel)
    cases r with
    | error r => cases g
    | ok x => exact ⟨x, k⟩
  · show 16384 ≤ (List.replicate 16384 (entry0 none none 0)).length
    rw [List.length_replicate]
  · exact allocates _ _ (by decide +kernel) (by decide +kernel)
  · exact allocates _ _ (by decide +kernel) (by decide +kernel)
  · obtain ⟨bs, k, g⟩ := same_read (m := vsReadBlock (hubPort 1 0x2000)
      (Claims.num graph1.header 0x10 8 + 2 * Claims.num (smRead [] graph1.records 1) 6 2)
      (2 * Claims.num (smRead [] graph1.records 1) 4 2)) (s := finishing)
      (c := fun bs => bs.length = 2 ∧ Claims.num bs 0 2 = 0) (by decide +kernel)
    obtain ⟨g1, g2⟩ := of_decide_eq_true g
    exact ⟨bs, k, g1, g2, by decide +kernel, by decide +kernel⟩
  · exact Option.isSome_iff_exists.1 (by decide +kernel)
  · intro s0
    obtain ⟨b, k, g⟩ := same_read (m := vsReadBlock postedPort 0x20000 64) (s := s0)
      (c := fun b => jobFieldsOk b = true ∧ Claims.num b 0x18 8 = 2 ^ 28) (by decide +kernel)
    obtain ⟨g1, g2⟩ := of_decide_eq_true g
    obtain ⟨c, s2, l, j⟩ := of_gives (p := allocCounter (newCounter .job 1 0 none none 0) s0) (c := fun c s2 => match c with
      | some c => gives (vsWriteBlock postedPort (2 ^ 28) (leBytes 8 c) { s2 with hub := { s2.hub with
          jobs := s2.hub.jobs ++ [{ job0 [] with counter := c, result := 2 ^ 28 }] } }) fun _ s3 =>
            gives (readPhases postedPort 0x20100 1 s3) fun w _ => w.isSome
      | none => false) (by decide +kernel)
    cases c with
    | none => cases j
    | some c =>
      obtain ⟨u, s3, m, i⟩ := of_gives j
      obtain ⟨w, s4, n, o⟩ := of_gives i
      cases w with
      | none => cases o
      | some w => exact ⟨b, s2, k, g1, g2, c, l, s3, s4, w, m, n⟩

/-! ### The host, the debugger and recovery -/

/-- BAR0 with some fields written, and a mailbox request over it. -/
noncomputable def withBar (l : List (Nat × Nat × Nat)) : State := l.foldl (fun s x => setBar0 x.1 x.2.1 x.2.2 s) front
def ask (op n : Nat) : List (Nat × Nat × Nat) := [(0x20000, 8, 1), (0x20100, 4, op), (0x20104, 4, n)]
noncomputable def asking (op n : Nat) (l : List (Nat × Nat × Nat)) : State := withBar (ask op n ++ l)
theorem requested {s : State} {op n : Nat} (h : bar0 s 0x20000 8 = 1 ∧ bar0 s 0x20008 8 = 0 ∧ s.hub.mailDone = false ∧
    bar0 s 0x20100 4 = op ∧ bar0 s 0x20104 4 = n) : Claims.Requested s op n :=
  ⟨by rw [h.1, h.2.1]; decide, h.2.2⟩
/-- Every key slot loaded; a sealed blob of slot 5. -/
def fullKeys : SMap KeySlot := (List.range 1024).map fun k => (k, ⟨true, 1, 0, 1⟩)
theorem get_mapped (v : KeySlot) (k : Nat) : ∀ l : List Nat, k ∈ l → smGet (l.map fun j => (j, v)) k = some v
  | [], h => nomatch h
  | j :: l, h => by
    show (if j = k then some v else smGet (l.map fun j => (j, v)) k) = some v
    split
    · rfl
    · rename_i n
      exact get_mapped v k l ((List.mem_cons.1 h).resolve_left fun e => n e.symm)
noncomputable def filled : State := { asking 1 2 [] with hub := { front.hub with keys := fullKeys } }
theorem full_keys (k : Nat) (_ : 1 ≤ k) (h2 : k < 1024) : (keySlot filled k).loaded = true := by
  have h : filled.hub.keys = fullKeys := by simp only [filled]
  unfold keySlot smRead
  rw [h, fullKeys, get_mapped _ k _ (List.mem_range.2 h2)]
  rfl
def blob (k e : Nat) : List Byte := leBytes 4 1 ++ leBytes 2 k ++ leBytes 2 1 ++ leBytes 4 e ++ List.replicate 116 0
noncomputable def unsealing (k e : Nat) : State :=
  let s := asking 4 128 [(0x20108, 128, leNat (blob k e))]
  { s with hub := { s.hub with sealed := [(blob k e, 9)] } }
/-- The debug list with every item, or all but item 0, in use. -/
noncomputable def debugging (f : Byte) (n : Nat) : State := { front with mem := { front.mem with
  bar0 := [(0x20000, 1), (0x20100, 6), (0x20104, 3), (0x20108, 1)] ++ (if f = 0 then [] else [(0x2010A, f)]) ++
    (List.range 64).flatMap fun k => if n ≤ k then [(0xE00400 + 8 * k, BitVec.ofNat 8 (100 + k)), (0xE00401 + 8 * k, 0x80)] else [] } }
def debugItems (x : Byte × Nat) : Prop :=
  let s := debugging x.1 x.2
  Claims.Requested s 6 3 ∧ bar0 s 0x20108 2 = 1 ∧ bar0 s 0x2010A 1 = x.1.toNat ∧
    (List.range 64).map (fun j => bar0 s (0xE00400 + 8 * j) 8) =
      (List.range 64).map fun j => if x.2 ≤ j then 2 ^ 15 + 100 + j else 0
noncomputable def irq0 (p : Bool) : Irq := { vector := 3, data := none, pended := p, node := none }
noncomputable def raising (p : Bool) (mask : Nat) : State :=
  let s := withBar [(0x3003C, 4, mask)]
  { s with hub := { s.hub with irqs := [irq0 p] } }
noncomputable def windowed : State := withBar [(0x50000, 8, 2 ^ 63 + 2 ^ 32 + 1)]
noncomputable def spoiled : State := { windowed with mem := { windowed.mem with poison := [(2 ^ 18 / 8, ())] } }

theorem debug_0 : debugItems (0, 64) := by unfold debugItems Claims.Requested; exact by decide +kernel
theorem debug_1 : debugItems (1, 0) := by unfold debugItems Claims.Requested; exact by decide +kernel
theorem debug_2 : debugItems (1, 1) := by unfold debugItems Claims.Requested; exact by decide +kernel
theorem debug_3 : debugItems (2, 64) := by unfold debugItems Claims.Requested; exact by decide +kernel
theorem witness_HostInterface :
    ((.alloc, 1, 2) ∈ Claims.mailOps ∧ Claims.Requested (asking 1 3 []) 1 3 ∧ bar0 front 0x20000 8 = bar0 front 0x20008 8 ∧
      Claims.Requested (asking 0 2 []) 0 2 ∧ Claims.Requested (asking 7 2 []) 7 2) ∧
    (Claims.Requested (asking 1 2 [(0x20108, 2, 4096)]) 1 2 ∧ 4096 ≤ bar0 (asking 1 2 [(0x20108, 2, 4096)]) 0x20108 2 ∧
      (Claims.Requested filled 1 2 ∧ bar0 filled 0x20108 2 < 4096 ∧ ∀ k, 1 ≤ k → k < 1024 → (keySlot filled k).loaded = true) ∧
      bar0 (asking 1 2 []) 0x20108 2 < 4096 ∧ (keySlot (asking 1 2 []) 2).loaded = false) ∧
    (∀ k ∈ [0, 1, 2], let s := asking 2 2 [(0x20108, 2, k)]
      Claims.Requested s 2 2 ∧ bar0 s 0x20108 2 = k ∧ (keySlot s k).loaded = (k = 1)) ∧
    (∀ k ∈ [1, 2], let s := asking 3 2 [(0x20108, 2, k)]
      Claims.Requested s 3 2 ∧ bar0 s 0x20108 2 = k ∧ (keySlot s k).loaded = (k = 1)) ∧
    (∀ k ∈ [1, 5], ∀ e ∈ [0, 1], let s := unsealing k e
      Claims.Requested s 4 128 ∧ s.hub.sealed.find? (fun x => x.1 = smReadList 0 s.mem.bar0 0x20108 128) = some (blob k e, 9) ∧
      Claims.num (blob k e) 4 2 = k ∧ Claims.num (blob k e) 8 4 = e ∧ (keySlot s 5).epoch = 0 ∧ (keySlot s 5).loaded = false ∧
      (keySlot s 1).loaded = true) ∧
    (∀ w ∈ [4096, 0, 2 ^ 64 - 1], let s := asking 5 40 [(0x20128, 8, w)]
      Claims.Requested s 5 40 ∧ bar0 s 0x20128 8 = w) ∧
    (debugItems (0, 64) ∧ debugItems (1, 0) ∧ debugItems (1, 1) ∧ debugItems (2, 64)) ∧
    ({ front.hub with mailDone := true }).mailDone = true ∧ bar0 (asking 1 2 []) 0x20000 8 ≠ bar0 (asking 1 2 []) 0x20008 8 ∧
    (respondsAt front 0x50000 = true ∧ bar0 front 0x50000 8 / 2 ^ 63 % 2 = 0 ∧ respondsAt windowed 0x50000 = true) ∧
    (∀ s ∈ [windowed, spoiled], ∃ pl s1 bs s2, bar2Check (bar2Port s) (bar2Va s 0) 8 true false s =
        (.ok [(pl, bar2Va s 0, 8)], s1) ∧ readPlace pl 8 s1 = (.ok bs, s2) ∧
        (placePoisoned s2 pl 8 = true ↔ s = spoiled)) ∧
    (∃ pl s1 s2, bar2Check (bar2Port windowed) (bar2Va windowed 0) 2 false true windowed =
        (.ok [(pl, bar2Va windowed 0, 2)], s1) ∧ writePlace (bar2Port windowed) pl [1, 2] s1 = (.ok (), s2)) ∧
    (let s := withBar [(0x40008, 8, 2 ^ 63 + 2 ^ 16 + 1)]
     respondsAt s 0x40000 = true ∧ bar0 s 0x40008 8 / 2 ^ 63 % 2 = 1 ∧
      ((2#16).toNat + 2 ^ 16 - bar0 s 0x40018 2) % 2 ^ 16 = 2 ^ (bar0 s 0x40008 8 / 2 ^ 16 % 16) ∧
      2 ^ (bar0 s 0x40008 8 / 2 ^ 16 % 16) < ((3#16).toNat + 2 ^ 16 - bar0 s 0x40018 2) % 2 ^ 16 ∧
      bar0 front 0x40008 8 / 2 ^ 63 % 2 = 0) ∧
    (ctxValid front 2 = false ∧ ctxValid front 1 = true ∧ 1 ∉ front.hub.closing ∧ front.hub.counters = [] ∧
      1 ∈ ({ front.hub with closing := [1] } : Hub).closing) ∧
    (∀ p, (raising p 0).hub.irqs = irq0 p :: [] ∧ (irq0 p).vector < 64) ∧ portsSettled (raising false 0) = true ∧
    bar0 (raising false 0) 0x3003C 4 % 2 = 0 ∧ bar0 (raising false 1) 0x3003C 4 % 2 = 1 ∧
    portsSettled (raising true 0) = true ∧ (configReset 1 = none ∧ smGet front.hub.config 1 = none) ∧
    (smGet front.hub.config 4).or (configReset 4) = some 4 ∧ smGet front.hub.config 0 = none := by
  refine ⟨⟨by decide +kernel, requested (by decide +kernel), by decide +kernel, requested (by decide +kernel),
    requested (by decide +kernel)⟩, ⟨requested (by decide +kernel), by decide +kernel, ⟨requested (by decide +kernel),
    by decide +kernel, full_keys⟩, by decide +kernel, by decide +kernel⟩, ?_, ?_, ?_, ?_,
    ⟨debug_0, debug_1, debug_2, debug_3⟩, rfl, by decide +kernel,
    by decide +kernel, ?_, ?_, by decide +kernel, by decide +kernel,
    fun p => ⟨by unfold raising; simp only, (by decide : 3 < 64)⟩, by decide +kernel, by decide +kernel, by decide +kernel, by decide +kernel, by decide +kernel, by decide +kernel,
    by decide +kernel⟩
  · unfold Claims.Requested; exact by decide +kernel
  · unfold Claims.Requested; exact by decide +kernel
  · unfold Claims.Requested; exact by decide +kernel
  · unfold Claims.Requested; exact by decide +kernel
  · intro s hs
    obtain ⟨r, s1, h, g⟩ := of_gives (p := bar2Check (bar2Port s) (bar2Va s 0) 8 true false s)
      (c := fun r s1 => match r with
        | [(pl, va, k)] => va = bar2Va s 0 ∧ k = 8 ∧ gives (readPlace pl 8 s1) (fun _ s2 =>
            placePoisoned s2 pl 8 = true ↔ s = spoiled) = true
        | _ => false) (by
      simp only [List.mem_cons, List.not_mem_nil, or_false] at hs
      rcases hs with rfl | rfl
      · decide +kernel
      · decide +kernel)
    split at g
    · obtain ⟨e1, e2, g1⟩ := of_decide_eq_true g
      subst e1
      subst e2
      obtain ⟨bs, s2, k, j⟩ := of_gives g1
      exact ⟨_, s1, bs, s2, h, k, of_decide_eq_true j⟩
    · cases g
  · obtain ⟨r, s1, h, g⟩ := of_gives (p := bar2Check (bar2Port windowed) (bar2Va windowed 0) 2 false true windowed)
      (c := fun r s1 => match r with
        | [(pl, va, k)] => va = bar2Va windowed 0 ∧ k = 2 ∧ gives (writePlace (bar2Port windowed) pl [1, 2] s1)
            (fun _ _ => true) = true
        | _ => false) (by decide +kernel)
    split at g
    · obtain ⟨e1, e2, g1⟩ := of_decide_eq_true g
      subst e1
      subst e2
      obtain ⟨u, s2, k, -⟩ := of_gives g1
      exact ⟨_, s1, s2, h, k⟩
    · cases g

/-- The host may use context 1, and a strand of it is in some state in the pool. -/
noncomputable def debugged (t : Strand) (l : List (Nat × Nat × Nat)) : State :=
  { withBar ((0xE00400, 8, 2 ^ 15 + 1) :: l) with pool := [t] }
/-- Words that halt, resume and end: group slot 0 of context 1; launch 7, index 0 of context 1. -/
def haltWord : Word := 0x1009
def resumeWord : Word := 0x100A
def endWord : Word := BitVec.ofNat 64 (2 ^ 63 + 2 ^ 28 + 7)
theorem debugs {t : Strand} (h : t.id = ⟨7, 0⟩) (k : isStrand t = true) : findStrand (debugged t []) ⟨7, 0⟩ = some t := by
  have l : allStrands (debugged t []) = [strand0, t] := by
    show [strand0, t].filter isStrand = _
    simp [show isStrand strand0 = true by decide +kernel, k]
  have n : strand0.id ≠ ⟨7, 0⟩ := by decide
  unfold findStrand
  simp [l, h, n]
theorem groups {t : Strand} (h : t.asid = 1 ∧ t.slot = 0 ∧ isStrand t = true ∧ resident t = true ∧ t.id = ⟨7, 0⟩) :
    haltGroup none 1 haltWord.toNat t = true ∧ haltGroup none 1 resumeWord.toNat t = true := by
  unfold haltGroup inGroup
  simp [h.1, h.2.1, h.2.2.1, h.2.2.2.1, h.2.2.2.2]
  decide
theorem witness_DebugEvents : (∀ h, (some 47 : Option Nat) = some h → h < 48) ∧
    (let s := withBar [(0xE00000, 8, 8)]; haltAsid s 0xE00000 ≠ 0 ∧ mayUse s .host (haltAsid s 0xE00000) = false) ∧
    (let s := debugged (other .ready) []
     itemOpen s .host (haltAsid s (haltBase none)) = true ∧ bar0 s (haltBase none + 8) 8 = 0 ∧
      mayUse s .host (haltWord.toNat / 8 % 512) = true ∧ mayUse s .host (resumeWord.toNat / 8 % 512) = true) ∧
    (∀ t ∈ [other .ready, { other .waiting with asked := 1 }, other .saving, { other .halted with resumeTo := .running }],
      haltGroup none 1 haltWord.toNat t = true ∧ haltGroup none 1 resumeWord.toNat t = true ∧
      findStrand (debugged t []) ⟨7, 0⟩ = some t) ∧
    (other .halted).editImage = none ∧ haltWord.getLsbD 0 = true ∧ haltWord.getLsbD 1 = false ∧
    resumeWord.getLsbD 1 = true ∧ resumeWord.getLsbD 0 = false ∧
    (let s := debugged (other .faulted) []
     endWord.getLsbD 63 = true ∧ itemOpen s .host (bar0 s 0xE00040 8 / 2 ^ 28 % 4096) = true ∧
      mayUse s .host (endWord.toNat / 2 ^ 28 % 4096) = true ∧ endWord.toNat % 4096 = 7 ∧
      endWord.toNat / 2 ^ 12 % 2 ^ 16 = 0 ∧ (other .faulted).asid.toNat = endWord.toNat / 2 ^ 28 % 4096) ∧
    (∀ t ∈ [other .faulted, { other .saved with saveArea := none }, other .running],
      findStrand (debugged t []) ⟨7, 0⟩ = some t) ∧
    Claims.InSlot (other .running) ∧ findStrand (debugged (other .running) []) ⟨8, 0⟩ = none ∧
    ((2#64).getLsbD 1 = true ∧ bar0 front 0xE00100 8 / 2 % 2 = 0) ∧
    (BitVec.toNat (w := 128) 0 = bar0 front 0x10 16 ∧ ([] : List (BitVec 12)).length ≤ 64) ∧
    (front.hub.portClosed = true ∧ (let s := withHub { counting with portClosed := false }
      s.hub.portClosed = false ∧ counterOf s 0 = some counter0)) ∧
    (let s := { withBar [(windowBase 0 + 0x300, 8, 64), (windowBase 0 + 0x308, 8, 2 ^ 15)] with
       ac := 64, hoops := [(0, { Hoop.reset with lost := 1 })] }
     bar0 s (windowBase 0 + 0x300) 8 % 2 ^ 24 ≠ 0 ∧
      (hoopOf s 0).sampledAt + max 64 (bar0 s (windowBase 0 + 0x300) 8 % 2 ^ 24) ≤ s.ac ∧ (hoopOf s 0).lost ≠ 0 ∧
      bar0 s (windowBase 0 + 0x308) 8 / 2 ^ 15 % 2 = 1 ∧ portTakes s = true ∧ ringTakes s = true) ∧
    ringTakes (withBar [(0xE00100, 8, 2), (0xE00110, 8, 256)]) = false ∧
    (let s := { withBar [(0xE00100, 8, 1)] with hub := { front.hub with portLost := 2, portClosed := false } }
     s.hub.ringLost = 0 ∧ s.hub.portLost ≠ 0 ∧ bar0 s 0xE00100 8 % 2 = 1 ∧ s.hub.portClosed = false) ∧
    (hoopOf front 0).lost = 0 ∧ front.hub.ringLost = 0 ∧ front.hub.portLost = 0 ∧
    ringFull (withHub { front.hub with ringLost := 1 }) = false := by
  refine ⟨fun h e => by cases e; decide, by decide +kernel, by decide +kernel, ?_, by decide +kernel, by decide +kernel,
    by decide +kernel, by decide +kernel, by decide +kernel, by decide +kernel, ?_, by unfold Claims.InSlot; decide +kernel,
    ?_, by and_intros <;> decide +kernel⟩
  · intro t ht
    simp only [List.mem_cons, List.not_mem_nil, or_false] at ht
    have h : t.asid = 1 ∧ t.slot = 0 ∧ isStrand t = true ∧ resident t = true ∧ t.id = ⟨7, 0⟩ := by
      rcases ht with rfl | rfl | rfl | rfl <;> exact ⟨rfl, rfl, rfl, rfl, rfl⟩
    have g := groups h
    exact ⟨g.1, g.2, debugs h.2.2.2.2 h.2.2.1⟩
  · intro t ht
    simp only [List.mem_cons, List.not_mem_nil, or_false] at ht
    rcases ht with rfl | rfl | rfl <;> exact debugs rfl rfl
  · have l : allStrands (debugged (other .running) []) = [strand0, other .running] := by
      show [strand0, other .running].filter isStrand = _
      decide +kernel
    unfold findStrand
    rw [l]
    rfl

/-- Hoop 0 with array 255 retired, spares or none. -/
def retiring (spares : Nat) (rep : BitVec 256) (g : BitVec 256) : Hoop :=
  { Hoop.reset with retired := 1#256 <<< 255, replacing := rep, spares := spares
                    grants := Hoop.reset.grants.set 0 { SlotGrant.none with sram := g } }
noncomputable def channel (u : StackUnit) : State := { front with units := [(3, u)] }
def errLimits (k : ErrorKind) : Nat × Nat := Hub.reset.errorLimits.toList.getD (errorCode k) (1, 0)
noncomputable def erring (k : ErrorKind) : State :=
  withHub { front.hub with errors := List.replicate 8 (errorCode k, 0, 0) }
/-- The thresholds are fused values of the device, so that some temperatures are named by them here. -/
theorem witness_RecoveryPromise :
    (∃ temp, Config.fusedWarning.toNat ≤ temp) ∧ (∃ temp, Config.fusedCritical.toNat ≤ temp) ∧
    front.hub.thermal = false ∧ ({ front.hub with thermal := true }).deferred = [] ∧
    (let s := { withHub { front.hub with thermal := true } with strand := Strand.idle }
     s.hub.thermal = true ∧ quiesced s = true ∧ s.hub.deferred = []) ∧
    front.hub.records = [] ∧ (let s := withHub { front.hub with records := [errRec 1 0 1 []] }
      s.hub.records = errRec 1 0 1 [] :: []) ∧
    (∀ k ∈ [ErrorKind.sramCorrectable, .sramUncorrectable, .hbmCorrectable, .hbmUncorrectable, .link],
      (errorLimit (erring k) k).1 ≤ errorCount (erring k) k 0 ∧ errorCount front k 0 < (errorLimit front k).1 ∧
      (hoopOf (erring k) 0).withdrawn.getLsbD 0 = false ∧ bar0 (erring k) 0x810 4 < 4096) ∧
    (let s := withHoop (retiring 1 0 0)
     (hoopOf s 0).retired.getLsbD 255 = true ∧ (hoopOf s 0).replacing.getLsbD 255 = false ∧ (hoopOf s 0).spares ≠ 0 ∧
      (hoopOf s 0).retired.getLsbD 254 = false) ∧
    (let s := withHoop (retiring 8 (1#256 <<< 255) 0)
     (hoopOf s 0).replacing.getLsbD 255 = true ∧ 1 ≤ (hoopOf s 0).spares ∧ (hoopOf s 0).spares ≤ 8) ∧
    (let s := withHoop (retiring 0 0 0)
     (hoopOf s 0).retired.getLsbD 255 = true ∧ (hoopOf s 0).spares = 0 ∧
      (∀ t ∈ s.strand :: s.pool, ∀ x ∈ t.arrays, ¬ (x.1 = 0 ∧ x.2 / 8 = 255 / 8)) ∧
      ∀ g ∈ (hoopOf s 0).grants.toList, g.sram.getLsbD 255 = false) ∧
    ((hoopOf (withHoop (retiring 0 0 (BitVec.allOnes 256))) 0).grants.toList.any fun g => g.sram.getLsbD 255) = true ∧
    (let t := { other .running with arrays := [(0, 248)] }
     let s := { withHoop (retiring 0 0 0) with pool := [t] }
     findStrand s ⟨7, 0⟩ = some t ∧ resident t = true ∧ (0, 248) ∈ t.arrays ∧ 248 / 8 = 255 / 8 ∧ t.pendingGrant = none) ∧
    (front.hub.fenced.getLsbD 3 = false ∧ front.hub.fencing.getLsbD 3 = false ∧
      findStrand (pooled { other .running with hoop := 47 } []) ⟨7, 0⟩ = some { other .running with hoop := 47 } ∧
      Claims.InSlot { other .running with hoop := 47 } ∧ 47 / 12 = 3) ∧
    (let s := withHub { front.hub with fencing := 8 }
     s.hub.fencing.getLsbD 3 = true ∧ (∀ t ∈ s.strand :: s.pool, t.state = .idle ∨ t.hoop / 12 ≠ 3) ∧
      (∀ h < 48, h / 12 = 3 → ∀ g ∈ (hoopOf s h).grants.toList, g.sram = 0) ∧ ∀ h < 48, h / 12 = 3 → (hoopOf s h).withdrawn = 0) ∧
    12 * 256 * 2 ^ 17 ≤ bar0 (withBar [(0x808, 8, 48 * 256 * 2 ^ 17)]) 0x808 8 ∧
    (∀ p ∈ [Power.active, .drain, .spill, .down, .restore], let u := { StackUnit.reset with power := p, owner := some 1 }
      unitOf (channel u) 3 = u ∧ u.running = none) ∧
    (unitOf (channel { StackUnit.reset with power := .restore }) 3).owner = none ∧
    (let s := channel { StackUnit.reset with power := .restore, owner := some 1 }
     (unitOf s 3).owner ≠ none ∧ (isPoisoned s.mem (spillAddr 3 0) 4096 || isPoisoned s.mem (spillAddr 3 1) 2592) = false) ∧
    (let s := channel { StackUnit.reset with power := .restore, owner := some 1 }
     let s := { s with mem := { s.mem with poison := [(spillAddr 3 0 / 8, ())] } }
     (isPoisoned s.mem (spillAddr 3 0) 4096 || isPoisoned s.mem (spillAddr 3 1) 2592) = true) ∧
    (∀ p ∈ [Power.active, .down], let s := channel { StackUnit.reset with power := p }
      regionOf 0x3000 = .hbm 0x3000 ∧ keyOk s (strandPort strand0 1) 1 = true ∧ channelOf 0x3000 = 3 ∧
      (unitOf s 3).power = p ∧ (unitOf s 3).owner = none ∧ (p = .active → ∀ x ∈ s.units, x.1 = 3 → x.2.power = .active)) := by
  refine ⟨⟨_, Nat.le_refl _⟩, ⟨_, Nat.le_refl _⟩, by decide +kernel, by decide +kernel, by decide +kernel, by decide +kernel,
    rfl, by decide +kernel, by decide +kernel, by decide +kernel, by decide +kernel, by decide +kernel, by decide +kernel,
    ⟨by decide +kernel, by decide +kernel, by decide +kernel, by unfold Claims.InSlot; decide +kernel, by decide⟩,
    by and_intros <;> decide +kernel⟩

/-- A base image of the machine as it stands after a cut, which this device signed, and a machine that has it. -/
noncomputable def unsigned0 : Image :=
  { seq := 1, base := 0, serial := 0, pages := none, blobs := [], signature := [], strand := Strand.idle, pool := [], hoops := []
    units := [], hub := front.hub, mem := front.mem }
noncomputable def image0 : Image := { unsigned0 with signature := imageSignature unsigned0 }
/-- The signature is no part of what is signed. -/
theorem body_signed (i : Image) (b : List Byte) : imageSignature { i with signature := b } = imageSignature i := rfl
noncomputable def imaged : State := { front with images := [image0, { image0 with seq := 2, base := 1, pages := some [] }] }
noncomputable def quiet (stay : Bool) : State :=
  let s := withBar [(0x10000, 8, 4)]
  { s with strand := Strand.idle, hub := { s.hub with quiesce := true, stopped := true, stay := stay } }
noncomputable def stuck (ac : Nat) : State :=
  let s := withBar [(0x10000, 8, 4)]
  { s with pool := [{ other .saving with saveStop := true }], ac := ac, hub := { s.hub with quiesce := true } }
noncomputable def measured : State :=
  withHub { front.hub with measure := (front.hub.measure.set 0 [1]).set 1 [2] }
theorem witness_CheckpointsAndBoot : front.hub.quiesce = false ∧ front.hub.stopped = false ∧
    (∀ b ∈ [true, false], let s := quiet b
      s.hub.quiesce = true ∧ s.hub.thermal = false ∧ Claims.status s 2 = 1 ∧ quiesced s = true ∧ s.hub.deferred = [] ∧
      s.hub.stay = b ∧ s.hub.imageSeq = 0) ∧
    quiesced (stuck 0) = false ∧ (∀ t ∈ front.strand :: front.pool, t.state = .saving → t.saveStop = false) ∧
    (∀ ac ∈ [1599999999, 1600000000], let s := stuck ac
      (∃ t ∈ s.strand :: s.pool, t.node = none ∧ t.state = .saving ∧ t.saveStop = true) ∧ s.hub.quiesce = true ∧
      s.hub.thermal = false ∧ s.hub.stay = false ∧ s.hub.deferred = [] ∧ (s.ac < s.hub.quiescedAt + 1600000000 ↔ ac = 1599999999)) ∧
    imaged.images.find? (fun i => i.seq = 3) = none ∧
    (imaged.images.find? (fun i => i.seq = 2)).any (fun i => i.base ≠ 0) = true ∧
    (∃ i, imaged.images.find? (fun i => i.seq = 1) = some i ∧ i.base = 0 ∧ i.serial = bar0 imaged 0x10 16 ∧
      i.signature = imageSignature i ∧ lostGrants imaged i = [] ∧ i.hub.deferred = []) ∧
    (∃ v, Config.fusedVersion ≤ v) ∧ front.hub.measure.toList[0]? = some [] ∧ front.hub.measure.toList[1]? = some [] ∧
    (measured.hub.measure.toList[0]? = some [1] ∧ measured.hub.measure.toList[1]? = some [2]) ∧
    ([0#8] : List Byte).length ≤ 0x10000 := by
  refine ⟨by decide +kernel, by decide +kernel, by decide +kernel, by decide +kernel, by decide +kernel, by decide +kernel,
    rfl, rfl, ⟨image0, rfl, rfl, by decide +kernel, ?_, by decide +kernel, by decide +kernel⟩, ⟨_, BitVec.le_refl _⟩,
    by and_intros <;> decide +kernel⟩
  exact (body_signed unsigned0 _).symm

end Sys2Proof.Tests
end

/-! # The host interface (R406 to R429): the mailbox, BAR0 and BAR2, contexts and interrupts

Rules for the registers of BAR0, the key slots and the messages to a port stand first; the forms of the host interface
follow, each by the lemmas that say what it does. -/

/-! ## The forms of the host interface, as the dispatch runs them -/

namespace Sys2Proof.Machine

theorem exec_alloc (s : State) : exec .alloc s = execAlloc s := rfl
theorem exec_erase (s : State) : exec .erase s = execErase s := rfl
theorem exec_seal (s : State) : exec .seal s = execSeal s := rfl
theorem exec_unseal (s : State) : exec .unseal s = execUnseal s := rfl
theorem exec_attest (s : State) : exec .attest s = execAttest s := rfl
theorem exec_debugAuth (s : State) : exec .debugAuth s = execDebugAuth s := rfl
theorem exec_unknownOpcode (s : State) : exec .unknownOpcode s = execUnknownOpcode s := rfl
theorem exec_mailboxResponse (s : State) : exec .mailboxResponse s = execMailboxResponse s := rfl
theorem exec_mailboxRequestIgnored (w : Word) (s : State) :
    exec (.mailboxRequestIgnored w) s = execMailboxRequestIgnored w s := rfl
theorem exec_registerWrite (off : Nat) (w : Word) (s : State) :
    exec (.registerWrite off w) s = execRegisterWrite off w s := rfl
theorem exec_jobQueueDoorbell (j : Nat) (tail : BitVec 16) (s : State) :
    exec (.jobQueueDoorbell j tail) s = execJobQueueDoorbell j tail s := rfl
theorem exec_bar2Read (port off n : Nat) (s : State) : exec (.bar2Read port off n) s = execBar2Read port off n s := rfl
theorem exec_bar2Write (port off : Nat) (data : List Byte) (s : State) :
    exec (.bar2Write port off data) s = execBar2Write port off data s := rfl
theorem exec_configurationRequest (port reg : Nat) (wr : Option Word32) (s : State) :
    exec (.configurationRequest port reg wr) s = execConfigurationRequest port reg wr s := rfl
theorem exec_unsupportedRequest (port tag : Nat) (s : State) :
    exec (.unsupportedRequest port tag) s = execUnsupportedRequest port tag s := rfl
theorem exec_pcieCompletion (port : Nat) (s : State) : exec (.pcieCompletion port) s = execPcieCompletion port s := rfl
theorem exec_contextInvalidate (asid : BitVec 12) (s : State) :
    exec (.contextInvalidate asid) s = execContextInvalidate asid s := rfl
theorem exec_contextTeardown (asid : BitVec 12) (s : State) :
    exec (.contextTeardown asid) s = execContextTeardown asid s := rfl
theorem exec_msixSend (v : Nat) (data : BitVec 32) (s : State) : exec (.msixSend v data) s = execMsixSend v data s := rfl
theorem exec_msixUnmask (v : Nat) (s : State) : exec (.msixUnmask v) s = execMsixUnmask v s := rfl

/-! ## Registers of BAR0, and fields of byte strings (R4, R420) -/

theorem natBits_bit (v i : Nat) : natBits v i i = v / 2 ^ i % 2 := by
  unfold natBits
  rw [Nat.add_sub_cancel_left, Nat.pow_one]

theorem leNat_lt (bs : List Byte) : leNat bs < 2 ^ (8 * bs.length) := by
  induction bs with
  | nil => exact Nat.one_pos
  | cons b bs ih =>
    have hb := b.isLt
    have hp : 2 ^ (8 * (bs.length + 1)) = 256 * 2 ^ (8 * bs.length) := by rw [Nat.mul_add, Nat.pow_add]; omega
    rw [leNat, List.length_cons, hp]
    omega

theorem leBytes_zero (n : Nat) : leBytes n 0 = List.replicate n 0 := by
  induction n with
  | zero => rfl
  | succ n ih => rw [leBytes, List.replicate_succ, Nat.zero_div, ih]; rfl

/-- A part of a range that was read is the range of that part. -/
theorem smReadList_part {α : Type} (d : α) (m : SMap α) (k : Nat) {n a b : Nat} (h : a + b ≤ n) :
    ((smReadList d m k n).drop a).take b = smReadList d m (k + a) b := by
  have hn := length_smReadList d m n k
  have hb := length_smReadList d m b (k + a)
  refine List.ext_getElem (by rw [List.length_take, List.length_drop]; omega) fun i h1 h2 => ?_
  rw [List.getElem_take, List.getElem_drop, getElem_smReadList, getElem_smReadList, Nat.add_assoc]

theorem bar0_lt (s : State) (off n : Nat) : bar0 s off n < 2 ^ (8 * n) := by
  simpa [bar0, length_smReadList] using leNat_lt (smReadList 0 s.mem.bar0 off n)

theorem bar0_setBar0_of_lt {s : State} {off n v : Nat} (h : v < 2 ^ (8 * n)) :
    bar0 (setBar0 off n v s) off n = v := by rw [bar0_setBar0_same, Nat.mod_eq_of_lt h]

/-- A register with a bit set still fits. -/
theorem bar0_or_bit_lt (s : State) (off : Nat) {n i : Nat} (h : i < 8 * n) : bar0 s off n ||| 2 ^ i < 2 ^ (8 * n) :=
  Nat.or_lt_two_pow (bar0_lt s off n) (Nat.pow_lt_pow_right Nat.one_lt_two h)

/-- A field after the bytes `a` lies in what follows them. -/
theorem field_append_right {a b : List Byte} {off n : Nat} (h : a.length ≤ off) :
    field (a ++ b) off n = field b (off - a.length) n := by
  unfold field
  rw [List.drop_append, List.drop_eq_nil_of_le h, List.nil_append]

/-- A field that was written as a number reads as it. -/
theorem field_leBytes {b : List Byte} {n v : Nat} (h : v < 2 ^ (8 * n)) : field (leBytes n v ++ b) 0 n = v := by
  unfold field
  rw [List.drop_zero, List.take_left' (length_leBytes n v), leNat_leBytes, Nat.mod_eq_of_lt h]

theorem length_padTo (n : Nat) (bs : List Byte) : (padTo n bs).length = n := by
  unfold padTo
  rw [List.length_take, List.length_append, List.length_replicate]
  omega

/-- Padding leaves the bytes at the front that fit. -/
theorem padTo_append {n : Nat} {a b : List Byte} (h : a.length ≤ n) : padTo n (a ++ b) = a ++ padTo (n - a.length) b := by
  unfold padTo
  rw [List.append_assoc, List.take_append, List.take_of_length_le h, List.length_append, Nat.sub_sub]

/-! ## Key slots (R409, R412, R413) -/

theorem keySlot_setKeySlot_same (s : State) (k : Nat) (v : KeySlot) : keySlot (setKeySlot k v s) k = v :=
  smRead_smWrite_same _ _ _ _

theorem keySlot_setKeySlot_other (s : State) {i k : Nat} (v : KeySlot) (h : i ≠ k) :
    keySlot (setKeySlot k v s) i = keySlot s i := smRead_smWrite_other _ _ _ _ _ h

theorem keySlot_eraseKey_same (s : State) (k : Nat) :
    keySlot (eraseKey k s) k = { loaded := false, owner := 0, epoch := (keySlot s k).epoch + 1, key := 0 } :=
  keySlot_setKeySlot_same s k _

theorem keySlot_eraseKey_other (s : State) {i k : Nat} (h : i ≠ k) : keySlot (eraseKey k s) i = keySlot s i :=
  keySlot_setKeySlot_other s _ h

theorem mem_of_smGet {α : Type} {m : SMap α} {k : Nat} {v : α} (h : smGet m k = some v) : (k, v) ∈ m := by
  induction m with
  | nil => cases h
  | cons e m ih =>
    obtain ⟨j, w⟩ := e
    unfold smGet at h
    split at h
    · next hj => cases h; subst hj; exact List.mem_cons_self
    · exact List.mem_cons_of_mem _ (ih h)

/-- A loaded slot is listed. -/
theorem mem_keys_of_loaded {s : State} {k : Nat} (h : (keySlot s k).loaded = true) : (k, keySlot s k) ∈ s.hub.keys := by
  unfold keySlot smRead at *
  cases hg : smGet s.hub.keys k with
  | none => rw [hg] at h; cases h
  | some v => exact mem_of_smGet hg

/-! ## Cause bits (R422) -/

/-- A cause set in a state whose status page, vectors and messages are those of an earlier one. -/
theorem caused_setCause {s u : State} {c : Nat} (hc : c < 8) (hb : bar0 u 0x10008 1 = bar0 s 0x10008 1)
    (h1 : bar0 u 0x31 1 = bar0 s 0x31 1) (h2 : bar0 u 0x32 1 = bar0 s 0x32 1) (hi : u.hub.irqs = s.hub.irqs) :
    Claims.Caused s c (setCause c u) := by
  refine ⟨?_, ?_⟩
  · rw [← hb]
    exact bar0_setBar0_of_lt (bar0_or_bit_lt u 0x10008 hc)
  · rw [← hi, ← h1, ← h2]
    rfl

/-- Setting a cause leaves the other registers. -/
theorem bar0_setCause_other (s : State) (c : Nat) {j k : Nat} (h : j + k ≤ 0x10008 ∨ 0x10009 ≤ j) :
    bar0 (setCause c s) j k = bar0 s j k := bar0_setBar0_other s j k 0x10008 1 _ h

/-! ## The mailbox (R412, R418, R423) -/

@[simp] theorem keySlot_respond (st : Nat) (pl : List Byte) (s : State) (k : Nat) :
    keySlot (respond st pl s) k = keySlot s k := rfl

/-- A response without a payload writes nothing beyond its status and length. -/
theorem bar0_respond_nil (st : Nat) (s : State) {j k : Nat} (h : 0x20018 ≤ j) :
    bar0 (respond st [] s) j k = bar0 s j k := by
  refine (bar0_setBar0_other _ j k 0x20014 4 _ (.inr (by omega))).trans ?_
  exact bar0_setBar0_other _ j k 0x20010 4 _ (.inr (by omega))

/-- The response to a request, given in a state that has the strands and bytes of the one it was read in. -/
theorem answered_respond {s u : State} {st : Nat} {pl : List Byte} (hst : st < 2 ^ 32) (hpl : pl.length < 2 ^ 32)
    (hs : u.strand = s.strand) (hp : u.pool = s.pool) (hb : u.mem.bytes = s.mem.bytes) :
    Claims.Answered s st pl (respond st pl u) := by
  refine ⟨?_, bar0_setBar0_of_lt hpl, ?_, rfl, hs, hp, hb⟩
  · refine (bar0_setBar0_other _ 0x20010 4 0x20014 4 _ (.inl (by omega))).trans ?_
    exact bar0_setBar0_of_lt hst
  · refine (smReadList_smWriteList_other 0 _ _ _ _ _ (.inr ?_)).trans ?_
    · rw [length_leBytes]; omega
    refine (smReadList_smWriteList_other 0 _ _ _ _ _ (.inr ?_)).trans ?_
    · rw [length_leBytes]; omega
    exact smReadList_smWriteList_same 0 u.mem.bar0 0x21000 pl

theorem answered_respond_self {s : State} {st : Nat} {pl : List Byte} (hst : st < 2 ^ 32) (hpl : pl.length < 2 ^ 32) :
    Claims.Answered s st pl (respond st pl s) := answered_respond hst hpl rfl rfl rfl

/-- What a request that is refused, or that changes nothing, leads to. -/
theorem answers_self {i : Instr} {s : State} {st : Nat} {pl : List Byte} (h : exec i s = .next (respond st pl s))
    (hst : st < 2 ^ 32) (hpl : pl.length < 2 ^ 32) :
    ∃ t, exec i s = .next t ∧ Claims.Answered s st pl t ∧ t.hub.keys = s.hub.keys :=
  ⟨_, h, answered_respond_self hst hpl, rfl⟩

/-- A field of the request is a register of the mailbox. -/
theorem field_requestBytes (s : State) {m off n : Nat} (h : off + n ≤ m) :
    field (requestBytes s m) off n = bar0 s (0x20108 + off) n := by
  unfold field requestBytes bar0
  rw [smReadList_part 0 _ _ h]

section
variable {s : State} {op n m : Nat} {work : List Byte → State → State}

theorem requested_of_Requested (h : Claims.Requested s op m) : requested s op = true := by
  obtain ⟨hseq, hdone, hop, -⟩ := h
  simp [requested, mailBusy, hseq, hdone, hop]

/-- A request of the right length is carried out. -/
theorem request_works (h : Claims.Requested s op n) : request op n work s = .next (work (requestBytes s n) s) := by
  have ⟨_, _, _, hlen⟩ := h
  unfold request
  rw [requested_of_Requested h, if_neg (by simp), if_neg (not_not_intro hlen)]

/-- A request of a wrong length has status 2. -/
theorem request_wrongLength (h : Claims.Requested s op m) (hm : m ≠ n) :
    request op n work s = .next (respond 2 [] s) := by
  have ⟨_, _, _, hlen⟩ := h
  unfold request
  rw [requested_of_Requested h, if_neg (by simp), if_pos (by rw [hlen]; exact hm)]

/-- Nothing is done while no request stands. -/
theorem request_idle (h : bar0 s 0x20000 8 = bar0 s 0x20008 8) : request op n work s = .next s := by
  have hr : requested s op = false := by simp [requested, mailBusy, h]
  unfold request
  rw [hr]
  rfl

end

/-- Each mailbox operation is a request with its opcode and length. -/
theorem exec_mailOp {i : Instr} {op n : Nat} (h : (i, op, n) ∈ Claims.mailOps) :
    ∃ work, ∀ s, exec i s = request op n work s := by
  simp only [Claims.mailOps, List.mem_cons, Prod.mk.injEq, List.not_mem_nil, or_false] at h
  obtain ⟨rfl, rfl, rfl⟩ | ⟨rfl, rfl, rfl⟩ | ⟨rfl, rfl, rfl⟩ | ⟨rfl, rfl, rfl⟩ | ⟨rfl, rfl, rfl⟩ | ⟨rfl, rfl, rfl⟩ := h
  · exact ⟨_, exec_alloc⟩
  · exact ⟨_, exec_erase⟩
  · exact ⟨_, exec_seal⟩
  · exact ⟨_, exec_unseal⟩
  · exact ⟨_, exec_attest⟩
  · exact ⟨_, exec_debugAuth⟩

theorem mailOp_wrongLength {s : State} {i : Instr} {op n m : Nat} (hi : (i, op, n) ∈ Claims.mailOps)
    (h : Claims.Requested s op m) (hm : m ≠ n) :
    ∃ t, exec i s = .next t ∧ Claims.Answered s 2 [] t ∧ t.hub.keys = s.hub.keys := by
  obtain ⟨work, hw⟩ := exec_mailOp hi
  exact answers_self ((hw s).trans (request_wrongLength h hm)) (by decide) (by decide)

theorem mailOp_idle {s : State} {i : Instr} {op n : Nat} (hi : (i, op, n) ∈ Claims.mailOps)
    (h : bar0 s 0x20000 8 = bar0 s 0x20008 8) : exec i s = .next s := by
  obtain ⟨work, hw⟩ := exec_mailOp hi
  exact (hw s).trans (request_idle h)

theorem unknownOpcode_answers {s : State} {op n : Nat} (ho : op = 0 ∨ 6 < op) (h : Claims.Requested s op n) :
    ∃ t, exec .unknownOpcode s = .next t ∧ Claims.Answered s 3 [] t ∧ t.hub.keys = s.hub.keys := by
  obtain ⟨hseq, hdone, hop, -⟩ := h
  refine answers_self ((exec_unknownOpcode s).trans ?_) (by decide) (by decide)
  simp [execUnknownOpcode, mailBusy, hseq, hdone, hop, ho]

/-! ### ALLOC -/

/-- The slots that a key can be loaded into. -/
def freeSlots (s : State) : List Nat := (List.range 1024).filter fun k => k ≠ 0 && !(keySlot s k).loaded

theorem mem_freeSlots {s : State} {k : Nat} :
    k ∈ freeSlots s ↔ 1 ≤ k ∧ k < 1024 ∧ (keySlot s k).loaded = false := by
  simp only [freeSlots, List.mem_filter, List.mem_range, Bool.and_eq_true, decide_eq_true_eq, Bool.not_eq_true',
    Nat.one_le_iff_ne_zero]
  exact and_left_comm

/-- The free slot that the device takes. -/
def chosenSlot (s : State) : Nat := (freeSlots s).getD (Config.freeChoice s.freeCtr % (freeSlots s).length) 0

theorem chosenSlot_mem {s : State} (h : freeSlots s ≠ []) : chosenSlot s ∈ freeSlots s := by
  have hl := Nat.mod_lt (Config.freeChoice s.freeCtr) (List.length_pos_iff.2 h)
  unfold chosenSlot
  rw [List.getD_eq_getElem _ _ hl]
  exact List.getElem_mem hl

/-- The state after a slot has been given a fresh key. -/
def allocated (k asid : Nat) (s : State) : State :=
  setKeySlot k { keySlot s k with loaded := true, owner := BitVec.ofNat 12 asid, key := s.hub.nextKey }
    { s with freeCtr := s.freeCtr + 1, hub := { s.hub with nextKey := s.hub.nextKey + 1 } }

theorem alloc_eq {s : State} (h : Claims.Requested s 1 2) :
    exec .alloc s = .next (
      if 4096 ≤ bar0 s 0x20108 2 then respond 2 [] s
      else if freeSlots s = [] then respond 0 (leBytes 2 0) s
      else respond 0 (leBytes 2 (chosenSlot s)) (allocated (chosenSlot s) (bar0 s 0x20108 2) s)) := by
  rw [exec_alloc, ← field_requestBytes s (m := 2) (off := 0) (n := 2) (Nat.le_refl 2)]
  exact request_works h

theorem alloc_badAsid {s : State} (h : Claims.Requested s 1 2) (ha : 4096 ≤ bar0 s 0x20108 2) :
    ∃ t, exec .alloc s = .next t ∧ Claims.Answered s 2 [] t ∧ t.hub.keys = s.hub.keys :=
  answers_self (by rw [alloc_eq h, if_pos ha]) (by decide) (by decide)

theorem alloc_full {s : State} (h : Claims.Requested s 1 2) (ha : bar0 s 0x20108 2 < 4096)
    (hf : ∀ k, 1 ≤ k → k < 1024 → (keySlot s k).loaded = true) :
    ∃ t, exec .alloc s = .next t ∧ Claims.Answered s 0 [0, 0] t ∧ t.hub.keys = s.hub.keys := by
  have hnil : freeSlots s = [] := by
    refine List.eq_nil_iff_forall_not_mem.2 fun k hk => ?_
    obtain ⟨h1, h2, hl⟩ := mem_freeSlots.1 hk
    rw [hf k h1 h2] at hl
    cases hl
  refine answers_self ?_ (by decide) (by decide)
  rw [alloc_eq h, if_neg (Nat.not_le.2 ha), if_pos hnil]
  rfl

theorem alloc_loads {s : State} (h : Claims.Requested s 1 2) (ha : bar0 s 0x20108 2 < 4096)
    (hf : ∃ k, 1 ≤ k ∧ k < 1024 ∧ (keySlot s k).loaded = false) :
    ∃ t j, exec .alloc s = .next t ∧ 1 ≤ j ∧ j < 1024 ∧ (keySlot s j).loaded = false ∧
      Claims.Answered s 0 (leBytes 2 j) t ∧
      keySlot t j = { keySlot s j with
        loaded := true, owner := BitVec.ofNat 12 (bar0 s 0x20108 2), key := s.hub.nextKey } ∧
      (∀ i, i ≠ j → keySlot t i = keySlot s i) ∧ t.hub.nextKey = s.hub.nextKey + 1 := by
  obtain ⟨k, hk⟩ := hf
  have hne : freeSlots s ≠ [] := List.ne_nil_of_mem (mem_freeSlots.2 hk)
  obtain ⟨h1, h2, hl⟩ := mem_freeSlots.1 (chosenSlot_mem hne)
  refine ⟨respond 0 (leBytes 2 (chosenSlot s)) (allocated (chosenSlot s) (bar0 s 0x20108 2) s), chosenSlot s,
    by rw [alloc_eq h, if_neg (Nat.not_le.2 ha), if_neg hne], h1, h2, hl,
    answered_respond (by decide) (by simp) rfl rfl rfl, ?_, fun i hi => ?_, rfl⟩
  · exact (keySlot_respond _ _ _ _).trans (keySlot_setKeySlot_same _ _ _)
  · exact (keySlot_respond _ _ _ _).trans (keySlot_setKeySlot_other _ _ hi)

/-! ### ERASE, SEAL and UNSEAL -/

theorem slotArg_requestBytes (s : State) :
    slotArg (requestBytes s 2) =
      if 1 ≤ bar0 s 0x20108 2 ∧ bar0 s 0x20108 2 ≤ 1023 then some (bar0 s 0x20108 2) else none := by
  unfold slotArg
  rw [field_requestBytes s (Nat.le_refl 2)]

theorem slotArg_ok {s : State} (h1 : 1 ≤ bar0 s 0x20108 2) (h2 : bar0 s 0x20108 2 < 1024) :
    slotArg (requestBytes s 2) = some (bar0 s 0x20108 2) := by
  rw [slotArg_requestBytes, if_pos ⟨h1, Nat.le_of_lt_succ h2⟩]

theorem slotArg_bad {s : State} (h : bar0 s 0x20108 2 = 0 ∨ 1024 ≤ bar0 s 0x20108 2) :
    slotArg (requestBytes s 2) = none := by
  rw [slotArg_requestBytes, if_neg (by omega)]

theorem erase_badSlot {s : State} (h : Claims.Requested s 2 2) (hk : bar0 s 0x20108 2 = 0 ∨ 1024 ≤ bar0 s 0x20108 2) :
    ∃ t, exec .erase s = .next t ∧ Claims.Answered s 2 [] t ∧ t.hub.keys = s.hub.keys := by
  refine answers_self ((exec_erase s).trans ((request_works h).trans ?_)) (by decide) (by decide)
  simp only [slotArg_bad hk]

section
variable {s : State} (h1 : 1 ≤ bar0 s 0x20108 2) (h2 : bar0 s 0x20108 2 < 1024)
include h1 h2

theorem erase_unloaded (h : Claims.Requested s 2 2) (hl : (keySlot s (bar0 s 0x20108 2)).loaded = false) :
    ∃ t, exec .erase s = .next t ∧ Claims.Answered s 1 [] t ∧ t.hub.keys = s.hub.keys := by
  refine answers_self ((exec_erase s).trans ((request_works h).trans ?_)) (by decide) (by decide)
  simp [slotArg_ok h1 h2, hl]

theorem erase_clears (h : Claims.Requested s 2 2) (hl : (keySlot s (bar0 s 0x20108 2)).loaded = true) :
    ∃ t, exec .erase s = .next t ∧ Claims.Answered s 0 [] t ∧ keySlot t (bar0 s 0x20108 2) =
        { loaded := false, owner := 0, epoch := (keySlot s (bar0 s 0x20108 2)).epoch + 1, key := 0 } ∧
      ∀ i, i ≠ bar0 s 0x20108 2 → keySlot t i = keySlot s i := by
  refine ⟨respond 0 [] (eraseKey (bar0 s 0x20108 2) s), (exec_erase s).trans ((request_works h).trans ?_),
    answered_respond (by decide) (by decide) rfl rfl rfl, ?_, fun i hi => ?_⟩
  · simp [slotArg_ok h1 h2, hl]
  · rw [keySlot_respond, keySlot_eraseKey_same]
  · rw [keySlot_respond, keySlot_eraseKey_other _ hi]

theorem seal_unloaded (h : Claims.Requested s 3 2) (hl : (keySlot s (bar0 s 0x20108 2)).loaded = false) :
    ∃ t, exec .seal s = .next t ∧ Claims.Answered s 1 [] t ∧ t.hub.keys = s.hub.keys := by
  refine answers_self ((exec_seal s).trans ((request_works h).trans ?_)) (by decide) (by decide)
  simp [slotArg_ok h1 h2, hl]

end

theorem length_sealedBlob (s : State) (k : Nat) : (sealedBlob s k).length = 128 := by
  simp [sealedBlob, length_padTo]

/-- The header of a blob: version, slot, owner and epoch (R423). -/
theorem sealedBlob_header (s : State) (k : Nat) : ∃ rest, sealedBlob s k =
    leBytes 4 1 ++ (leBytes 2 k ++ (leBytes 2 (keySlot s k).owner.toNat ++
      (leBytes 4 (keySlot s k).epoch.toNat ++ rest))) := by
  simp only [sealedBlob, List.append_assoc]
  exact ⟨_, rfl⟩

theorem sealedBlob_fields (s : State) {k : Nat} (hk : k < 1024) :
    Claims.num (sealedBlob s k) 0 4 = 1 ∧ Claims.num (sealedBlob s k) 4 2 = k ∧
      Claims.num (sealedBlob s k) 6 2 = (keySlot s k).owner.toNat ∧
      Claims.num (sealedBlob s k) 8 4 = (keySlot s k).epoch.toNat := by
  obtain ⟨rest, hb⟩ := sealedBlob_header s k
  have ho := (keySlot s k).owner.isLt
  rw [hb]
  refine ⟨field_leBytes (by decide), ?_, ?_, ?_⟩
  · exact (field_append_right (by simp)).trans (field_leBytes (by omega))
  · refine (field_append_right (by simp)).trans ((field_append_right (by simp)).trans (field_leBytes (by omega)))
  · refine (field_append_right (by simp)).trans ((field_append_right (by simp)).trans ?_)
    exact (field_append_right (by simp)).trans (field_leBytes (keySlot s k).epoch.isLt)

/-- The state after a slot has been sealed. -/
def sealedSlot (k : Nat) (s : State) : State :=
  { s with
    freeCtr := s.freeCtr + 1
    hub := { s.hub with sealed := s.hub.sealed ++ [(sealedBlob s k, (keySlot s k).key)] } }

theorem seal_answers {s : State} (h1 : 1 ≤ bar0 s 0x20108 2) (h2 : bar0 s 0x20108 2 < 1024)
    (h : Claims.Requested s 3 2) (hl : (keySlot s (bar0 s 0x20108 2)).loaded = true) :
    ∃ t b, exec .seal s = .next t ∧ Claims.Answered s 0 b t ∧ b.length = 128 ∧ Claims.num b 0 4 = 1 ∧
      Claims.num b 4 2 = bar0 s 0x20108 2 ∧ Claims.num b 6 2 = (keySlot s (bar0 s 0x20108 2)).owner.toNat ∧
      Claims.num b 8 4 = (keySlot s (bar0 s 0x20108 2)).epoch.toNat ∧
      t.hub.sealed = s.hub.sealed ++ [(b, (keySlot s (bar0 s 0x20108 2)).key)] ∧ t.hub.keys = s.hub.keys := by
  have hlen := length_sealedBlob s (bar0 s 0x20108 2)
  obtain ⟨hv, hk, ho, he⟩ := sealedBlob_fields s h2
  refine ⟨respond 0 (sealedBlob s (bar0 s 0x20108 2)) (sealedSlot (bar0 s 0x20108 2) s), _,
    (exec_seal s).trans ((request_works h).trans ?_),
    answered_respond (by decide) (by rw [hlen]; decide) rfl rfl rfl, hlen, hv, hk, ho, he, rfl, rfl⟩
  simp [slotArg_ok h1 h2, hl, sealedSlot]

/-- The state after a blob's key has been loaded into its slot. -/
def unsealed (b : List Byte) (key : Nat) (s : State) : State :=
  setKeySlot (Claims.num b 4 2) { keySlot s (Claims.num b 4 2) with
    loaded := true, owner := BitVec.ofNat 12 (Claims.num b 6 2), key := key } s

section
variable {s : State} {b : List Byte} {key : Nat} (hf : s.hub.sealed.find? (fun x => x.1 = b) = some (b, key))
include hf

theorem openBlob_sealed : openBlob s b = some key := by
  unfold openBlob
  rw [hf]

variable (h : Claims.Requested s 4 128) (hb : requestBytes s 128 = b)
include h hb

theorem unseal_refused (hr : Claims.num b 4 2 = 0 ∨ 1024 ≤ Claims.num b 4 2 ∨
      (keySlot s (Claims.num b 4 2)).loaded = true ∨
      (keySlot s (Claims.num b 4 2)).epoch.toNat ≠ Claims.num b 8 4) :
    ∃ t, exec .unseal s = .next t ∧ Claims.Answered s 1 [] t ∧ t.hub.keys = s.hub.keys := by
  have hn : unsealBlob b s = none := by
    unfold unsealBlob
    rw [openBlob_sealed hf]
    exact if_pos hr
  refine answers_self ((exec_unseal s).trans ((request_works h).trans ?_)) (by decide) (by decide)
  simp only [hb, hn]

theorem unseal_loads (h1 : 1 ≤ Claims.num b 4 2) (h2 : Claims.num b 4 2 < 1024)
    (hl : (keySlot s (Claims.num b 4 2)).loaded = false)
    (he : (keySlot s (Claims.num b 4 2)).epoch.toNat = Claims.num b 8 4) :
    ∃ t, exec .unseal s = .next t ∧ Claims.Answered s 0 (leBytes 2 (Claims.num b 4 2)) t ∧
      keySlot t (Claims.num b 4 2) = { keySlot s (Claims.num b 4 2) with
        loaded := true, owner := BitVec.ofNat 12 (Claims.num b 6 2), key := key } ∧
      ∀ i, i ≠ Claims.num b 4 2 → keySlot t i = keySlot s i := by
  have hn : unsealBlob b s = some (unsealed b key s) := by
    unfold unsealBlob
    rw [openBlob_sealed hf]
    refine if_neg ?_
    rintro (h0 | h3 | h4 | h5)
    · exact absurd h0 (Nat.ne_of_gt h1)
    · exact absurd h2 (Nat.not_lt.2 h3)
    · exact absurd (hl.symm.trans h4) (by decide)
    · exact h5 he
  refine ⟨respond 0 (leBytes 2 (Claims.num b 4 2)) (unsealed b key s), (exec_unseal s).trans ((request_works h).trans ?_),
    answered_respond (by decide) (by simp) rfl rfl rfl, ?_, fun i hi => ?_⟩
  · simp only [hb, hn]
    rfl
  · exact (keySlot_respond _ _ _ _).trans (keySlot_setKeySlot_same _ _ _)
  · exact (keySlot_respond _ _ _ _).trans (keySlot_setKeySlot_other _ _ hi)

end

/-! ### ATTEST -/

/-- A report begins with its version, its length, the nonce and the device's serial number (R418). -/
theorem attestReport_header (s : State) {nonce : List Byte} (who : Nat) (hn : nonce.length = 32) :
    ∃ rest, attestReport s nonce who =
      leBytes 4 1 ++ (leBytes 4 2048 ++ (nonce ++ (smReadList 0 s.mem.bar0 0x10 16 ++ rest))) := by
  have hs := length_smReadList 0 s.mem.bar0 16 0x10
  unfold attestReport
  simp only [List.append_assoc]
  rw [padTo_append (by simp), padTo_append (by simp), padTo_append (by simp [hn]), padTo_append (by rw [hs]; simp [hn])]
  simp only [List.append_assoc]
  exact ⟨_, rfl⟩

theorem length_attestReport (s : State) (nonce : List Byte) (who : Nat) : (attestReport s nonce who).length = 2048 := by
  simp only [attestReport, List.length_append, length_padTo]

theorem attestReport_fields (s : State) {nonce : List Byte} (who : Nat) (hn : nonce.length = 32) :
    Claims.num (attestReport s nonce who) 0 4 = 1 ∧ ((attestReport s nonce who).drop 8).take 32 = nonce ∧
      ((attestReport s nonce who).drop 40).take 16 = smReadList 0 s.mem.bar0 0x10 16 := by
  have hs := length_smReadList 0 s.mem.bar0 16 0x10
  obtain ⟨rest, hr⟩ := attestReport_header s who hn
  rw [hr]
  refine ⟨field_leBytes (by decide), ?_, ?_⟩
  · rw [← List.append_assoc, List.drop_left' (by simp), List.take_left' hn]
  · rw [← List.append_assoc, ← List.append_assoc, List.drop_left' (by simp [hn]), List.take_left' hs]

theorem attest_eq {s : State} (h : Claims.Requested s 5 40) :
    exec .attest s = .next (
      if 4096 ≤ bar0 s 0x20128 8 ∧ bar0 s 0x20128 8 ≠ 2 ^ 64 - 1 then respond 2 [] s
      else respond 0 (attestReport s (smReadList 0 s.mem.bar0 0x20108 32) (bar0 s 0x20128 8)) s) := by
  have hn : (requestBytes s 40).take 32 = smReadList 0 s.mem.bar0 0x20108 32 :=
    smReadList_part 0 s.mem.bar0 0x20108 (n := 40) (a := 0) (b := 32) (by decide)
  rw [exec_attest, ← field_requestBytes s (m := 40) (off := 32) (n := 8) (Nat.le_refl 40), ← hn]
  exact request_works h

theorem attest_badAsid {s : State} (h : Claims.Requested s 5 40) (h1 : 4096 ≤ bar0 s 0x20128 8)
    (h2 : bar0 s 0x20128 8 ≠ 2 ^ 64 - 1) : ∃ t, exec .attest s = .next t ∧ Claims.Answered s 2 [] t :=
  ⟨_, by rw [attest_eq h, if_pos ⟨h1, h2⟩], answered_respond_self (by decide) (by decide)⟩

theorem attest_reports {s : State} (h : Claims.Requested s 5 40)
    (hw : bar0 s 0x20128 8 < 4096 ∨ bar0 s 0x20128 8 = 2 ^ 64 - 1) :
    ∃ t b, exec .attest s = .next t ∧ Claims.Answered s 0 b t ∧ b.length = 2048 ∧ Claims.num b 0 4 = 1 ∧
      (b.drop 8).take 32 = smReadList 0 s.mem.bar0 0x20108 32 ∧
      (b.drop 40).take 16 = smReadList 0 s.mem.bar0 0x10 16 ∧ t.hub.keys = s.hub.keys := by
  have hlen := length_attestReport s (smReadList 0 s.mem.bar0 0x20108 32) (bar0 s 0x20128 8)
  obtain ⟨hv, hn, hs⟩ := attestReport_fields s (bar0 s 0x20128 8) (length_smReadList 0 s.mem.bar0 32 0x20108)
  exact ⟨_, _, by rw [attest_eq h, if_neg (by omega)], answered_respond_self (by decide) (by rw [hlen]; decide),
    hlen, hv, hn, hs, rfl⟩

/-! ### DEBUG_AUTH -/

/-- The entries of the authorisation table are registers apart from each other. -/
theorem authEntry_setBar0 (s : State) {k v : Nat} (j : Nat) (hv : v < 2 ^ 64) :
    authEntry (setBar0 (0xE00400 + 8 * k) 8 v s) j = if j = k then v else authEntry s j := by
  unfold authEntry
  split
  · next hj => subst hj; exact bar0_setBar0_of_lt hv
  · exact bar0_setBar0_other _ _ _ _ _ _ (by omega)

/-- Entries of the authorisation table are cleared. -/
def clearEntries (l : List Nat) (s : State) : State := l.foldl (fun s k => setBar0 (0xE00400 + 8 * k) 8 0 s) s

theorem authEntry_clearEntries (l : List Nat) (s : State) (j : Nat) :
    authEntry (clearEntries l s) j = if j ∈ l then 0 else authEntry s j := by
  induction l generalizing s with
  | nil => rfl
  | cons k l ih =>
    refine (ih _).trans ?_
    rw [authEntry_setBar0 s j (by decide)]
    by_cases hl : j ∈ l <;> by_cases hk : j = k <;> simp [hl, hk]

theorem clearEntries_frame (l : List Nat) (s : State) : (clearEntries l s).strand = s.strand ∧
    (clearEntries l s).pool = s.pool ∧ (clearEntries l s).mem.bytes = s.mem.bytes :=
  foldl_keeps (fun t : State => t.strand = s.strand ∧ t.pool = s.pool ∧ t.mem.bytes = s.mem.bytes)
    (fun s k => setBar0 (0xE00400 + 8 * k) 8 0 s) (fun _ _ ht => ht) l s ⟨rfl, rfl, rfl⟩

/-- The entries by which the host may debug a context. -/
def heldEntries (s : State) (asid : Nat) : List Nat := (List.range 64).filter fun k => authEntry s k = 2 ^ 15 + asid

theorem mem_heldEntries {s : State} {asid k : Nat} :
    k ∈ heldEntries s asid ↔ k < 64 ∧ authEntry s k = 2 ^ 15 + asid := by simp [heldEntries]

section
variable {s : State} (h : Claims.Requested s 6 3)
include h

theorem debugAuth_eq : exec .debugAuth s = .next (
    if 4096 ≤ bar0 s 0x20108 2 ∨ 1 < bar0 s 0x2010A 1 then respond 2 [] s
    else if bar0 s 0x2010A 1 = 0 then respond 0 [] (clearEntries (heldEntries s (bar0 s 0x20108 2)) s)
    else if heldEntries s (bar0 s 0x20108 2) ≠ [] then respond 0 [] s
    else ((List.range 64).find? fun k => natBits (authEntry s k) 15 15 = 0).elim (respond 1 [] s)
      fun k => respond 0 [] (setBar0 (0xE00400 + 8 * k) 8 (2 ^ 15 + bar0 s 0x20108 2) s)) := by
  rw [← field_requestBytes s (m := 3) (off := 0) (n := 2) (by decide),
    ← field_requestBytes s (m := 3) (off := 2) (n := 1) (by decide)]
  refine (exec_debugAuth s).trans ((request_works h).trans ?_)
  cases (List.range 64).find? fun k => natBits (authEntry s k) 15 15 = 0 <;> rfl

theorem debugAuth_badRequest (hb : 4096 ≤ bar0 s 0x20108 2 ∨ 1 < bar0 s 0x2010A 1) :
    ∃ t, exec .debugAuth s = .next t ∧ Claims.Answered s 2 [] t :=
  ⟨_, by rw [debugAuth_eq h, if_pos hb], answered_respond_self (by decide) (by decide)⟩

theorem debugAuth_revokes (ha : bar0 s 0x20108 2 < 4096) (hf : bar0 s 0x2010A 1 = 0) :
    ∃ t, exec .debugAuth s = .next t ∧ Claims.Answered s 0 [] t ∧
      ∀ k < 64, authEntry t k = if authEntry s k = 2 ^ 15 + bar0 s 0x20108 2 then 0 else authEntry s k := by
  obtain ⟨hs, hp, hb⟩ := clearEntries_frame (heldEntries s (bar0 s 0x20108 2)) s
  refine ⟨_, by rw [debugAuth_eq h, if_neg (by omega), if_pos hf],
    answered_respond (by decide) (by decide) hs hp hb, fun k hk => ?_⟩
  refine (bar0_respond_nil 0 _ (by omega)).trans ((authEntry_clearEntries _ s k).trans ?_)
  simp only [mem_heldEntries, hk, true_and]

section
variable (ha : bar0 s 0x20108 2 < 4096) (hf : bar0 s 0x2010A 1 = 1)
  (hn : ∀ j < 64, authEntry s j ≠ 2 ^ 15 + bar0 s 0x20108 2)
include ha hf hn

/-- A grant to a context that has none takes the first entry that is not in use. -/
theorem debugAuth_grant_eq : exec .debugAuth s = .next (
    ((List.range 64).find? fun k => natBits (authEntry s k) 15 15 = 0).elim (respond 1 [] s)
      fun k => respond 0 [] (setBar0 (0xE00400 + 8 * k) 8 (2 ^ 15 + bar0 s 0x20108 2) s)) := by
  have hnil : heldEntries s (bar0 s 0x20108 2) = [] := List.eq_nil_iff_forall_not_mem.2 fun k hk =>
    let ⟨hlt, heq⟩ := mem_heldEntries.1 hk
    hn k hlt heq
  rw [debugAuth_eq h, if_neg (by omega), if_neg (by omega), if_neg (not_not_intro hnil)]

theorem debugAuth_grants {k : Nat} (hk : k < 64) (hfree : authEntry s k / 2 ^ 15 % 2 = 0)
    (hbelow : ∀ j < k, authEntry s j / 2 ^ 15 % 2 = 1) :
    ∃ t, exec .debugAuth s = .next t ∧ Claims.Answered s 0 [] t ∧ mayUse t .host (bar0 s 0x20108 2) = true ∧
      ∀ j < 64, authEntry t j = if j = k then 2 ^ 15 + bar0 s 0x20108 2 else authEntry s j := by
  have hfind : ((List.range 64).find? fun k => natBits (authEntry s k) 15 15 = 0) = some k := by
    refine List.find?_range_eq_some.2 ⟨?_, List.mem_range.2 hk, fun j hj => ?_⟩
    · rw [natBits_bit, hfree]; rfl
    · rw [natBits_bit, hbelow j hj]; rfl
  have hentry (j : Nat) : authEntry (respond 0 [] (setBar0 (0xE00400 + 8 * k) 8 (2 ^ 15 + bar0 s 0x20108 2) s)) j =
      if j = k then 2 ^ 15 + bar0 s 0x20108 2 else authEntry s j :=
    (bar0_respond_nil 0 _ (by omega)).trans (authEntry_setBar0 s j (by omega))
  refine ⟨respond 0 [] (setBar0 (0xE00400 + 8 * k) 8 (2 ^ 15 + bar0 s 0x20108 2) s),
    by rw [debugAuth_grant_eq h ha hf hn, hfind]; rfl,
    answered_respond (by decide) (by decide) rfl rfl rfl, ?_, fun j _ => hentry j⟩
  refine List.any_eq_true.2 ⟨k, List.mem_range.2 hk, ?_⟩
  have hv := hentry k
  rw [if_pos rfl] at hv
  unfold authEntry at hv
  simp only [hv, natBits]
  simp only [Bool.and_eq_true, decide_eq_true_eq]
  omega

theorem debugAuth_full (hu : ∀ j < 64, authEntry s j / 2 ^ 15 % 2 = 1) :
    ∃ t, exec .debugAuth s = .next t ∧ Claims.Answered s 1 [] t := by
  have hfind : ((List.range 64).find? fun k => natBits (authEntry s k) 15 15 = 0) = none := by
    refine List.find?_range_eq_none.2 fun j hj => ?_
    rw [natBits_bit, hu j hj]; rfl
  exact ⟨_, by rw [debugAuth_grant_eq h ha hf hn, hfind]; rfl, answered_respond_self (by decide) (by decide)⟩

end
end

/-! ### The response and the request sequence -/

theorem mailboxResponse_follows {s : State} (h : s.hub.mailDone = true) :
    ∃ t, exec .mailboxResponse s = .next t ∧ bar0 t 0x20008 8 = bar0 s 0x20000 8 ∧ t.hub.mailDone = false ∧
      Claims.Caused s 1 t ∧ t.strand = s.strand := by
  refine ⟨_, (exec_mailboxResponse s).trans (if_pos h), ?_, rfl, caused_setCause (by decide) ?_ ?_ ?_ rfl, rfl⟩
  · exact (bar0_setCause_other _ 1 (.inr (by decide))).trans (bar0_setBar0_of_lt (bar0_lt s 0x20000 8))
  all_goals exact bar0_setBar0_other _ _ _ _ _ _ (.inl (by decide))

theorem mailboxResponse_idle {s : State} (h : s.hub.mailDone = false) : exec .mailboxResponse s = .next s :=
  (exec_mailboxResponse s).trans (if_neg (by rw [h]; decide))

theorem mailboxRequestIgnored_causes {s : State} (w : Word) (h : bar0 s 0x20000 8 ≠ bar0 s 0x20008 8) :
    ∃ t, exec (.mailboxRequestIgnored w) s = .next t ∧ bar0 t 0x20000 8 = bar0 s 0x20000 8 ∧ Claims.Caused s 3 t ∧
      t.strand = s.strand := by
  have hb : mailBusy s = true := decide_eq_true h
  have hw : mailWrite w.toNat s = setCause 3 s := if_pos hb
  exact ⟨_, (exec_mailboxRequestIgnored w s).trans ((if_pos hb).trans (congrArg _ hw)),
    bar0_setCause_other s 3 (.inr (by decide)),
    caused_setCause (by decide) rfl rfl rfl rfl, rfl⟩

theorem mailBusy_eq_false {s : State} (h : bar0 s 0x20000 8 = bar0 s 0x20008 8) : mailBusy s = false :=
  decide_eq_false (not_not_intro h)

theorem mailboxRequestIgnored_idle {s : State} (w : Word) (h : bar0 s 0x20000 8 = bar0 s 0x20008 8) :
    exec (.mailboxRequestIgnored w) s = .next s :=
  (exec_mailboxRequestIgnored w s).trans (if_neg (by rw [mailBusy_eq_false h]; decide))

/-! ## Messages of the device to a port (R327) -/

theorem sendTlp_eq (port kind addr : Nat) (bs : List Byte) (s : State) :
    sendTlp port kind addr bs s = { s with out := s.out ++ [⟨port, kind, addr, bs⟩] } := rfl

/-- The pieces of a completion hold its bytes, if the fuel covers them. -/
theorem flatten_payloads (fuel off : Nat) (bs : List Byte) (h : bs.length ≤ fuel) :
    ((payloads fuel off bs).map Prod.snd).flatten = bs := by
  induction fuel generalizing off bs with
  | zero => rw [List.eq_nil_of_length_eq_zero (Nat.le_zero.1 h)]; rfl
  | succ fuel ih =>
    cases bs with
    | nil => rfl
    | cons b bs =>
      have hl : ((b :: bs).drop 1024).length ≤ fuel := by
        rw [List.length_drop]
        rw [List.length_cons] at h ⊢
        omega
      rw [payloads, List.map_cons, List.flatten_cons, ih _ _ hl, List.take_append_drop]
      exact List.cons_ne_nil b bs

theorem length_of_mem_payloads {fuel off : Nat} {bs : List Byte} {x : Nat × List Byte} (h : x ∈ payloads fuel off bs) :
    x.2.length ≤ 1024 := by
  induction fuel generalizing off bs with
  | zero => cases h
  | succ fuel ih =>
    cases bs with
    | nil => cases h
    | cons b bs =>
      rw [payloads] at h
      · rcases List.mem_cons.1 h with rfl | h
        · exact List.length_take_le _ _
        · exact ih h
      · exact List.cons_ne_nil b bs

theorem foldl_sendTlp (port kind addr : Nat) (l : List (Nat × List Byte)) (s : State) :
    l.foldl (fun s x => sendTlp port kind (addr + x.1) x.2 s) s =
      { s with out := s.out ++ l.map fun x => ⟨port, kind, addr + x.1, x.2⟩ } := by
  induction l generalizing s with
  | nil => rw [List.map_nil, List.append_nil]; rfl
  | cons x l ih => rw [List.foldl_cons, ih, sendTlp_eq, List.map_cons, List.append_assoc]; rfl

/-- The messages that complete a request. -/
def completionTlps (port kind addr : Nat) (bs : List Byte) : List Tlp :=
  if bs.length ≤ 1024 then [⟨port, kind, addr, bs⟩]
  else (payloads bs.length 0 bs).map fun x => ⟨port, kind, addr + x.1, x.2⟩

theorem sendCompletion_eq (port kind addr : Nat) (bs : List Byte) (s : State) :
    sendCompletion port kind addr bs s = { s with out := s.out ++ completionTlps port kind addr bs } := by
  unfold sendCompletion completionTlps
  split
  · rfl
  · exact foldl_sendTlp port kind addr _ s

theorem completionTlps_data (port kind addr : Nat) (bs : List Byte) :
    ((completionTlps port kind addr bs).map Tlp.data).flatten = bs := by
  unfold completionTlps
  split
  · simp
  · rw [List.map_map]
    exact flatten_payloads _ 0 bs (Nat.le_refl _)

theorem length_completionTlps {port kind addr : Nat} {bs : List Byte} (h : bs.length ≤ 1024) :
    (completionTlps port kind addr bs).length = 1 := by
  unfold completionTlps
  rw [if_pos h]
  rfl

theorem mem_completionTlps {port kind addr : Nat} {bs : List Byte} {c : Tlp} (h : c ∈ completionTlps port kind addr bs) :
    c.port = port ∧ c.data.length ≤ 1024 ∧ c.kind = kind := by
  unfold completionTlps at h
  split at h
  · next hl => rw [List.mem_singleton.1 h]; exact ⟨rfl, hl, rfl⟩
  · obtain ⟨x, hx, rfl⟩ := List.mem_map.1 h
    exact ⟨rfl, length_of_mem_payloads hx, rfl⟩

/-! ## BAR2 (R427) -/

/-- A window that is not enabled refuses every access. -/
theorem bar2Check_closed {s : State} (p : Port) (va n : Nat) (rd wr : Bool) (h : bar0 s 0x50000 8 / 2 ^ 63 % 2 = 0) :
    ∃ t : Trap, runAct (bar2Check p va n rd wr) s = (.error (.trap t), s) := by
  have hc : natBits (bar0 s 0x50000 8) 63 63 = 0 ∨ (!ctxValid s p.asid.toNat) = true := .inl ((natBits_bit _ _).trans h)
  refine ⟨{ cause := causeAcc, tval := BitVec.ofNat 64 va, telem := 0 }, ?_⟩
  unfold runAct bar2Check
  rw [act_bind_ok (act_getS s), if_pos hc]
  exact act_bind_error (act_raise causeAcc va s)

/-- An action over one element runs once. -/
theorem mapM_singleton_ok {α β : Type} {f : α → Act β} {x : α} {y : β} {s s' : State} (h : f x s = (.ok y, s')) :
    ([x].mapM f : Act (List β)) s = (.ok [y], s') := by
  rw [List.mapM_cons, act_bind_ok h]
  rfl

theorem forM_singleton_ok {α : Type} {f : α → Act Unit} {x : α} {s s' : State} (h : f x s = (.ok (), s')) :
    ([x].forM f : Act Unit) s = (.ok (), s') := act_bind_ok h

section
variable {s : State} (hr : respondsAt s 0x50000 = true)
include hr

theorem bar2Read_closed (port off n : Nat) (hc : bar0 s 0x50000 8 / 2 ^ 63 % 2 = 0) :
    ∃ t r, exec (.bar2Read port off n) s = .next t ∧ t.out = s.out ++ [⟨port, 4, off, []⟩] ∧
      t.hub.records = s.hub.records ++ [r] ∧ r.typ = 13 ∧ t.mem = s.mem ∧ t.strand = s.strand := by
  obtain ⟨t, ht⟩ := bar2Check_closed (bar2Port s) (bar2Va s off) n true false hc
  refine ⟨sendTlp port 4 off [] (bar2Refused (bar2Port s) t.tval.toNat s), _, ?_, rfl, rfl, rfl, rfl, rfl⟩
  rw [exec_bar2Read]
  simp [execBar2Read, hr, ht]

theorem bar2Write_closed {port : Nat} (off : Nat) (data : List Byte) (hp : port < 4)
    (hc : bar0 s 0x50000 8 / 2 ^ 63 % 2 = 0) :
    ∃ t r, exec (.bar2Write port off data) s = .next t ∧ t.out = s.out ∧
      t.hub.records = s.hub.records ++ [r] ∧ r.typ = 13 ∧ t.mem = s.mem ∧ t.strand = s.strand := by
  obtain ⟨t, ht⟩ := bar2Check_closed (bar2Port s) (bar2Va s off) data.length false true hc
  refine ⟨bar2Refused (bar2Port s) t.tval.toNat s, _, ?_, rfl, rfl, rfl, rfl, rfl⟩
  rw [exec_bar2Write]
  simp [execBar2Write, hr, ht, hp]

/-- A read that passes its checks within one page is completed with its bytes, and noted when they are poisoned. -/
theorem bar2Read_eq {s1 s2 : State} {port off n va k : Nat} {pl : Place} {bs : List Byte}
    (hc : bar2Check (bar2Port s) (bar2Va s off) n true false s = (.ok [(pl, va, k)], s1))
    (hb : readPlace pl k s1 = (.ok bs, s2)) :
    exec (.bar2Read port off n) s = .next (
      if placePoisoned s2 pl k = true then
        sendCompletion port 6 off bs (runAct (notePoison (bar2Port s) 0 pl.pa) s2).2
      else sendCompletion port 3 off bs s2) := by
  have hm : runAct ([(pl, va, k)].mapM fun (x : Place × Nat × Nat) => readPlace x.1 x.2.2) s1 = (.ok [bs], s2) :=
    mapM_singleton_ok hb
  rw [exec_bar2Read]
  unfold runAct at hm
  simp only [execBar2Read, hr, runAct, hc, hm, List.flatten_singleton]
  rw [if_neg (by decide), List.find?_singleton]
  cases placePoisoned s2 pl k <;> rfl

theorem bar2Read_completes {s1 s2 : State} {port off n va k : Nat} {pl : Place} {bs : List Byte}
    (hc : bar2Check (bar2Port s) (bar2Va s off) n true false s = (.ok [(pl, va, k)], s1))
    (hb : readPlace pl k s1 = (.ok bs, s2)) :
    ∃ t cs, exec (.bar2Read port off n) s = .next t ∧ t.out = s2.out ++ cs ∧ t.strand = s2.strand ∧ t.mem = s2.mem ∧
      (cs.map Tlp.data).flatten = bs ∧ (bs.length ≤ 1024 → cs.length = 1) ∧
      (∀ c ∈ cs, c.port = port ∧ c.data.length ≤ 1024 ∧ c.kind = if placePoisoned s2 pl k = true then 6 else 3) ∧
      (placePoisoned s2 pl k = false → t = { s2 with out := t.out }) := by
  rw [bar2Read_eq hr hc hb]
  by_cases hp : placePoisoned s2 pl k = true
  · simp only [if_pos hp, sendCompletion_eq]
    exact ⟨_, _, rfl, rfl, rfl, rfl, completionTlps_data .., length_completionTlps, fun c => mem_completionTlps,
      fun h => absurd (hp.symm.trans h) (by decide)⟩
  · simp only [if_neg hp, sendCompletion_eq]
    exact ⟨_, _, rfl, rfl, rfl, rfl, completionTlps_data .., length_completionTlps, fun c => mem_completionTlps,
      fun _ => rfl⟩

theorem bar2Write_performs {s1 s2 : State} {port off : Nat} {data : List Byte} {pl : Place}
    (hc : bar2Check (bar2Port s) (bar2Va s off) data.length false true s = (.ok [(pl, bar2Va s off, data.length)], s1))
    (hw : writePlace (bar2Port s) pl data s1 = (.ok (), s2)) (hp : port < 4) :
    exec (.bar2Write port off data) s = .next s2 := by
  have hm : runAct ([(pl, bar2Va s off, data.length)].forM fun (x : Place × Nat × Nat) =>
      writePlace (bar2Port s) x.1 ((data.drop (x.2.1 - bar2Va s off)).take x.2.2)) s1 = (.ok (), s2) := by
    refine forM_singleton_ok ?_
    simpa using hw
  rw [exec_bar2Write]
  unfold runAct at hm
  simp only [execBar2Write, hr, runAct, hc, hm]
  exact if_neg (by simp [hp])

end

/-! ## Configuration (R419) and write completions (R264) -/

theorem configurationWrite (s : State) (port reg : Nat) (w : Word32) :
    ∃ t, exec (.configurationRequest port reg (some w)) s = .next t ∧ t.out = s.out ++ [⟨port, 3, reg, []⟩] ∧
      t = { s with out := t.out, hub := { s.hub with config := t.hub.config } } ∧
      (∀ r, r ≠ reg → smGet t.hub.config r = smGet s.hub.config r) ∧
      (configReset reg = none → smGet s.hub.config reg = none → t.hub.config = s.hub.config) ∧
      (∀ v, (smGet s.hub.config reg).or (configReset reg) = some v → let m := BitVec.ofNat 32 (configMask s reg)
        smGet t.hub.config reg = some ((w &&& m) ||| (v &&& ~~~m))) := by
  rw [exec_configurationRequest]
  unfold execConfigurationRequest
  cases hv : (smGet s.hub.config reg).or (configReset reg) with
  | none =>
    exact ⟨_, rfl, rfl, rfl, fun _ _ => rfl, fun _ _ => rfl, fun v h => nomatch h⟩
  | some v =>
    refine ⟨_, rfl, rfl, rfl, fun r hr => smGet_smSet_other _ _ _ _ hr, fun h1 h2 => ?_, fun u hu => ?_⟩
    · rw [h1, h2] at hv; cases hv
    · cases hu; exact smGet_smSet_same _ _ _

/-- The bytes of a number from the m-th on are those of the number without its lowest m bytes. -/
theorem leBytes_add (m n v : Nat) : leBytes (m + n) v = leBytes m v ++ leBytes n (v / 256 ^ m) := by
  induction m generalizing v with
  | zero => rw [Nat.zero_add, Nat.pow_zero, Nat.div_one]; rfl
  | succ m ih => rw [Nat.succ_add, leBytes, ih, leBytes, List.cons_append, Nat.div_div_eq_div_mul, Nat.pow_succ']

/-- The first configuration register holds the device ID above the vendor ID (R419). -/
theorem deviceId_bytes (vendor : BitVec 16) :
    Claims.num (leBytes 4 (BitVec.ofNat 32 (vendor.toNat + 0x0A48 * 2 ^ 16)).toNat) 2 2 = 0x0A48 := by
  have hv := vendor.isLt
  have hid : (vendor.toNat + 0x0A48 * 2 ^ 16) % 2 ^ 32 / 256 ^ 2 = 0x0A48 := by omega
  rw [BitVec.toNat_ofNat, leBytes_add 2 2, hid]
  exact (field_append_right (by simp)).trans (field_leBytes (b := []) (by decide))

theorem configurationRead (s : State) (port reg : Nat) :
    ∃ t b, exec (.configurationRequest port reg none) s = .next t ∧ t.out = s.out ++ [⟨port, 3, reg, b⟩] ∧ b.length = 4 ∧
      (∀ v, (smGet s.hub.config reg).or (configReset reg) = some v → Claims.num b 0 4 = v.toNat) ∧
      (reg = 0 → smGet s.hub.config 0 = none → Claims.num b 2 2 = 0x0A48) ∧
      t = { s with out := t.out, freeCtr := t.freeCtr } := by
  rw [exec_configurationRequest]
  refine ⟨_, leBytes 4 (((smGet s.hub.config reg).or (configReset reg)).getD
    ((Config.freeWord s.freeCtr).setWidth 32)).toNat, rfl, rfl, length_leBytes _ _, fun v hv => ?_, fun h0 hn => ?_, rfl⟩
  · rw [hv, ← List.append_nil (leBytes _ _)]
    exact field_leBytes v.isLt
  · subst h0
    rw [hn]
    exact deviceId_bytes Config.vendorId

theorem pcieCompletion_counts (s : State) (port : Nat) :
    exec (.pcieCompletion port) s = .next { s with hub := { s.hub with
      pcieDone := s.hub.pcieDone.setIfInBounds port (s.out.countP fun t => t.port = port ∧ t.kind = 1) } } := by
  rw [exec_pcieCompletion, List.countP_eq_length_filter]
  simp only [execPcieCompletion, Bool.decide_and]

/-! ## The registers of BAR0 (R420, R424) -/

theorem announce_nil (kind : Nat) (s : State) : announce kind [] s = s := by
  unfold announce
  split <;> rfl

/-- A write by the host outside the domain table, at an offset where the device answers, is the register's own. -/
theorem registerWrite_eq {s : State} {off : Nat} (w : Word) (hr : respondsAt s off = true)
    (hd : off < 0x61000 ∨ 0x61400 ≤ off) : exec (.registerWrite off w) s = .next (registerWrite off w.toNat s) := by
  have hm (s1 : State) : newMember off s s1 = [] := if_neg (by omega)
  rw [exec_registerWrite, execRegisterWrite, if_pos hr, hm, announce_nil]

theorem registerWrite_readOnly {s : State} {off : Nat} (w : Word)
    (h : off < 0x10000 ∨ (0x200000 ≤ off ∧ off < 0x220000)) :
    exec (.registerWrite off w) s = .next s := by
  have ho : hostReadOnly (off / 8 * 8) = true := by
    simp only [hostReadOnly, Bool.or_eq_true, Bool.and_eq_true, decide_eq_true_eq]
    omega
  have hw : registerWrite off w.toNat s = s := if_pos ho
  have hm : newMember off s s = [] := if_neg (by omega)
  rw [exec_registerWrite, execRegisterWrite, hw, hm, announce_nil, ite_self]

/-- The device answers at its status and its mailbox even in recovery (R417). -/
theorem respondsAt_mailbox (s : State) {off : Nat} (h1 : 0x10000 ≤ off) (h2 : off < 0x30000) :
    respondsAt s off = true := by
  simp [respondsAt, h1, h2]

theorem registerWrite_request {s : State} {off : Nat} (w : Word) (h1 : 0x20100 ≤ off) (h2 : off < 0x21000) :
    exec (.registerWrite off w) s = .next (setBar0 (off / 8 * 8) 8 w.toNat s) := by
  have hm : registerMask (off / 8 * 8) = 2 ^ 64 - 1 := if_pos (by omega)
  have hw : w.toNat &&& (2 ^ 64 - 1) = w.toNat := by rw [Nat.and_two_pow_sub_one_eq_mod, Nat.mod_eq_of_lt w.isLt]
  have ho : hostReadOnly (off / 8 * 8) = false := by
    simp only [hostReadOnly, Bool.or_eq_false_iff, Bool.and_eq_false_iff, decide_eq_false_iff_not]
    omega
  rw [registerWrite_eq w (respondsAt_mailbox s (by omega) (by omega)) (.inl (by omega))]
  unfold registerWrite
  simp only [ho, hm, hw]
  rw [if_neg (by decide), if_neg (by omega), if_neg (by omega), if_neg (by omega), if_neg (by omega), if_neg (by decide)]

theorem registerWrite_causes (s : State) (w : Word) :
    ∃ t, exec (.registerWrite 0x10008 w) s = .next t ∧ bar0 t 0x10008 8 = bar0 s 0x10008 8 &&& (~~~w).toNat ∧
      t.strand = s.strand := by
  have hw : registerWrite 0x10008 w.toNat s = setBar0 0x10008 8 (bar0 s 0x10008 8 &&& (~~~w).toNat) s := by
    rw [BitVec.toNat_not, ← Nat.mod_eq_of_lt w.isLt]
    simp [registerWrite, hostReadOnly]
  refine ⟨setBar0 0x10008 8 (bar0 s 0x10008 8 &&& (~~~w).toNat) s, ?_, bar0_setBar0_of_lt ?_, rfl⟩
  · rw [registerWrite_eq w (respondsAt_mailbox s (by decide) (by decide)) (.inl (by decide)), hw]
  · exact Nat.lt_of_le_of_lt Nat.and_le_left (bar0_lt s 0x10008 8)

theorem registerWrite_sequence {s : State} (w : Word) (h : bar0 s 0x20000 8 = bar0 s 0x20008 8) :
    exec (.registerWrite 0x20000 w) s = .next (setBar0 0x20000 8 w.toNat s) := by
  rw [registerWrite_eq w (respondsAt_mailbox s (by decide) (by decide)) (.inl (by decide))]
  simp [registerWrite, hostReadOnly, mailWrite, mailBusy_eq_false h]

section
variable {s : State} {j : Nat} (hj : j < 256) (hr : respondsAt s 0x40000 = true)
include hj hr

theorem jobQueueDoorbell_eq (tail : BitVec 16) : exec (.jobQueueDoorbell j tail) s = .next (
    if bar0 s (0x40008 + 64 * j) 8 / 2 ^ 63 % 2 = 0 ∨ 2 ^ (bar0 s (0x40008 + 64 * j) 8 / 2 ^ 16 % 16) <
        (tail.toNat + 2 ^ 16 - bar0 s (0x40018 + 64 * j) 2) % 2 ^ 16 then
      setCause 2 (setBar0 (0x10020 + j / 8) 1 (bar0 s (0x10020 + j / 8) 1 ||| 2 ^ (j % 8)) s)
    else setBar0 (0x40010 + 64 * j) 2 tail.toNat s) := by
  have h1 : 0x40000 + 64 * j + 8 = 0x40008 + 64 * j := by omega
  have h2 : 0x40000 + 64 * j + 0x10 = 0x40010 + 64 * j := by omega
  have h3 : 0x40000 + 64 * j + 0x18 = 0x40018 + 64 * j := by omega
  rw [exec_jobQueueDoorbell, execJobQueueDoorbell, if_pos ⟨hj, hr⟩, doorbell]
  simp only [h1, h2, h3, natBits_bit]
  rfl

theorem jobQueueDoorbell_moves (tail : BitVec 16) (hv : bar0 s (0x40008 + 64 * j) 8 / 2 ^ 63 % 2 = 1)
    (ha : (tail.toNat + 2 ^ 16 - bar0 s (0x40018 + 64 * j) 2) % 2 ^ 16 ≤
      2 ^ (bar0 s (0x40008 + 64 * j) 8 / 2 ^ 16 % 16)) :
    exec (.jobQueueDoorbell j tail) s = .next (setBar0 (0x40010 + 64 * j) 2 tail.toNat s) := by
  rw [jobQueueDoorbell_eq hj hr, if_neg]
  rintro (h0 | hlt)
  · rw [hv] at h0; cases h0
  · exact absurd ha (Nat.not_le.2 hlt)

theorem jobQueueDoorbell_error (tail : BitVec 16) (he : bar0 s (0x40008 + 64 * j) 8 / 2 ^ 63 % 2 = 0 ∨
      2 ^ (bar0 s (0x40008 + 64 * j) 8 / 2 ^ 16 % 16) < (tail.toNat + 2 ^ 16 - bar0 s (0x40018 + 64 * j) 2) % 2 ^ 16) :
    ∃ t, exec (.jobQueueDoorbell j tail) s = .next t ∧ Claims.Caused s 2 t ∧
      bar0 t (0x10020 + j / 8) 1 = bar0 s (0x10020 + j / 8) 1 ||| 2 ^ (j % 8) ∧
      bar0 t (0x40010 + 64 * j) 2 = bar0 s (0x40010 + 64 * j) 2 := by
  refine ⟨setCause 2 (setBar0 (0x10020 + j / 8) 1 (bar0 s (0x10020 + j / 8) 1 ||| 2 ^ (j % 8)) s),
    by rw [jobQueueDoorbell_eq hj hr, if_pos he], caused_setCause (by decide) ?_ ?_ ?_ rfl, ?_, ?_⟩
  · exact bar0_setBar0_other _ _ _ _ _ _ (.inl (by omega))
  · exact bar0_setBar0_other _ _ _ _ _ _ (.inl (by omega))
  · exact bar0_setBar0_other _ _ _ _ _ _ (.inl (by omega))
  · exact (bar0_setCause_other _ 2 (.inr (by omega))).trans
      (bar0_setBar0_of_lt (bar0_or_bit_lt s _ (n := 1) (by omega)))
  · exact (bar0_setCause_other _ 2 (.inr (by omega))).trans (bar0_setBar0_other _ _ _ _ _ _ (.inr (by omega)))

end

/-! ## Contexts (R406) -/

theorem smRead_setBar0_zero (s : State) (off : Nat) {n k : Nat} (h : k < n) :
    smRead 0 (setBar0 off n 0 s).mem.bar0 (off + k) = 0 := by
  have hk : k < (leBytes n 0).length := by rw [length_leBytes]; exact h
  refine (smRead_smWriteList_same 0 (leBytes n 0) s.mem.bar0 off k hk).trans ?_
  simp only [leBytes_zero, List.getElem_replicate]

theorem contextInvalidate_idle {s : State} {asid : BitVec 12} (h : ctxValid s asid.toNat = false ∨ asid ∈ s.hub.closing) :
    exec (.contextInvalidate asid) s = .next s := by
  rw [exec_contextInvalidate, execContextInvalidate, invalidateContext, if_pos]
  exact h.imp (fun hv => by rw [hv]; rfl) List.contains_iff_mem.2

/-- A context whose jobs are final has none to cancel. -/
theorem contextInvalidate_closes {s : State} {asid : BitVec 12} (hv : ctxValid s asid.toNat = true)
    (hc : asid ∉ s.hub.closing)
    (hj : ∀ x ∈ s.hub.counters, x.2.kind = .job → x.2.asid = asid → x.2.final = true) :
    exec (.contextInvalidate asid) s = .next { s with hub := { s.hub with closing := s.hub.closing ++ [asid] } } := by
  have hnil : (s.hub.counters.filter fun x => x.2.kind = .job && x.2.asid = asid && !x.2.final) = [] := by
    refine List.filter_eq_nil_iff.2 fun x hx hp => ?_
    simp only [Bool.and_eq_true, decide_eq_true_eq, Bool.not_eq_true'] at hp
    obtain ⟨⟨hk, ha⟩, hf⟩ := hp
    rw [hj x hx hk ha] at hf
    cases hf
  rw [exec_contextInvalidate, execContextInvalidate, invalidateContext, if_neg (by simp [hv, hc])]
  simp only [hnil, List.foldl_nil]

/-- Key slots are erased one after the other. -/
def eraseKeys (l : List (Nat × KeySlot)) (s : State) : State := l.foldl (fun s x => eraseKey x.1 s) s

/-- A slot that is loaded after an erasure was not erased. -/
theorem keySlot_eraseKeys {l : List (Nat × KeySlot)} {s : State} {k : Nat}
    (h : (keySlot (eraseKeys l s) k).loaded = true) :
    keySlot (eraseKeys l s) k = keySlot s k ∧ ∀ x ∈ l, x.1 ≠ k := by
  induction l generalizing s with
  | nil => exact ⟨rfl, fun _ hx => nomatch hx⟩
  | cons y l ih =>
    obtain ⟨heq, hl⟩ := ih (s := eraseKey y.1 s) h
    have heq : keySlot (eraseKeys (y :: l) s) k = keySlot (eraseKey y.1 s) k := heq
    have hy : y.1 ≠ k := by
      rintro rfl
      rw [heq, keySlot_eraseKey_same] at h
      cases h
    exact ⟨heq.trans (keySlot_eraseKey_other s hy.symm), List.forall_mem_cons.2 ⟨hy, hl⟩⟩

theorem eraseKeys_frame (l : List (Nat × KeySlot)) (s : State) :
    (eraseKeys l s).strand = s.strand ∧ (eraseKeys l s).mem = s.mem := by
  induction l generalizing s with
  | nil => exact ⟨rfl, rfl⟩
  | cons x l ih => exact ih (eraseKey x.1 s)

/-- No TLB holds an entry of the context. -/
def tlbsWithout (asid : BitVec 12) (s : State) : Prop := ∀ x ∈ s.hoops, ∀ e ∈ x.2.tlb, e.asid ≠ asid

theorem tlbsWithout_dropTlb (asid : BitVec 12) (s : State) : tlbsWithout asid (dropTlb (fun e => e.asid = asid) s) := by
  intro x hx e he
  obtain ⟨y, -, rfl⟩ := List.mem_map.1 hx
  simpa using (List.mem_filter.1 he).2

theorem tlbsWithout_eraseKey {asid : BitVec 12} {s : State} (k : Nat) (h : tlbsWithout asid s) :
    tlbsWithout asid (eraseKey k s) := by
  intro x hx
  obtain ⟨y, hy, rfl⟩ := List.mem_map.1 hx
  exact h y hy

theorem tlbsWithout_eraseKeys {asid : BitVec 12} {s : State} (l : List (Nat × KeySlot)) (h : tlbsWithout asid s) :
    tlbsWithout asid (eraseKeys l s) :=
  foldl_keeps (tlbsWithout asid) _ (fun _ x ht => tlbsWithout_eraseKey x.1 ht) l s h

theorem contextTeardown_idle {s : State} {asid : BitVec 12}
    (h : asid ∉ s.hub.closing ∨ ∃ x ∈ s.hub.counters, x.2.asid = asid ∧ x.2.final = false) :
    exec (.contextTeardown asid) s = .next s := by
  rw [exec_contextTeardown, execContextTeardown, if_pos]
  refine h.imp (fun hc => by simp [hc]) ?_
  rintro ⟨x, hx, ha, hf⟩
  exact List.any_eq_true.2 ⟨x, hx, by simp [ha, hf]⟩

/-- The keys that a context owns. -/
def keysOf (asid : BitVec 12) (s : State) : List (Nat × KeySlot) :=
  s.hub.keys.filter fun x => x.2.loaded && x.2.owner = asid

/-- The state that a context's end leaves. -/
def tornDown (asid : BitVec 12) (s : State) : State :=
  let u := eraseKeys (keysOf asid s) (dropTlb (fun e => e.asid = asid) s)
  setBar0 (0x200000 + 32 * asid.toNat) 32 0
    { u with hub := { u.hub with closing := u.hub.closing.filter fun a => a ≠ asid } }

theorem tornDown_frame (asid : BitVec 12) (s : State) :
    (tornDown asid s).strand = s.strand ∧ (tornDown asid s).mem.bytes = s.mem.bytes := by
  obtain ⟨hs, hm⟩ := eraseKeys_frame (keysOf asid s) (dropTlb (fun e => e.asid = asid) s)
  unfold tornDown
  rw [setBar0_strand, setBar0_mem_bytes, hs, hm]
  exact ⟨rfl, rfl⟩

theorem contextTeardown_eq {s : State} {asid : BitVec 12} (hc : asid ∈ s.hub.closing)
    (hf : ∀ x ∈ s.hub.counters, x.2.asid = asid → x.2.final = true) :
    exec (.contextTeardown asid) s = .next (tornDown asid s) := by
  rw [exec_contextTeardown, execContextTeardown, if_neg]
  · rfl
  rintro (h | h)
  · simp [hc] at h
  · obtain ⟨x, hx, hp⟩ := List.any_eq_true.1 h
    simp only [Bool.and_eq_true, decide_eq_true_eq, Bool.not_eq_true'] at hp
    rw [hf x hx hp.1] at hp
    exact absurd hp.2 (by decide)

/-- A slot that is loaded after the end of a context is not the context's. -/
theorem keySlot_tornDown_owner {s : State} {asid : BitVec 12} {k : Nat}
    (h : (keySlot (tornDown asid s) k).loaded = true) :
    (keySlot (tornDown asid s) k).owner ≠ asid := by
  obtain ⟨heq, hl⟩ := keySlot_eraseKeys (l := keysOf asid s) (s := dropTlb (fun e => e.asid = asid) s) h
  have heq : keySlot (tornDown asid s) k = keySlot s k := heq
  rw [heq] at h ⊢
  intro ho
  exact hl (k, keySlot s k) (List.mem_filter.2 ⟨mem_keys_of_loaded h, by simp [h, ho]⟩) rfl

theorem contextTeardown_ends {s : State} {asid : BitVec 12} (hc : asid ∈ s.hub.closing)
    (hf : ∀ x ∈ s.hub.counters, x.2.asid = asid → x.2.final = true) :
    ∃ t, exec (.contextTeardown asid) s = .next t ∧ asid ∉ t.hub.closing ∧ t.strand = s.strand ∧
      t.mem.bytes = s.mem.bytes ∧ (∀ k < 32, smRead 0 t.mem.bar0 (0x200000 + 32 * asid.toNat + k) = 0) ∧
      (∀ k, (keySlot t k).loaded = true → (keySlot t k).owner ≠ asid) ∧
      ∀ x ∈ t.hoops, ∀ e ∈ x.2.tlb, e.asid ≠ asid := by
  obtain ⟨hs, hm⟩ := tornDown_frame asid s
  refine ⟨tornDown asid s, contextTeardown_eq hc hf, fun h => ?_, hs, hm, fun k hk => ?_,
    fun k => keySlot_tornDown_owner, tlbsWithout_eraseKeys _ (tlbsWithout_dropTlb asid s)⟩
  · simpa using (List.mem_filter.1 h).2
  · unfold tornDown
    exact smRead_setBar0_zero _ _ hk

/-! ## Interrupts (R426) -/

/-- The address and the data of a vector, and its mask, lie below the pending bits. -/
theorem bar0_setPending_vector {s : State} {v : Nat} (on : Bool) {off n : Nat} (h : off + n ≤ 0x30800) :
    bar0 (setPending v on s) off n = bar0 s off n := bar0_setBar0_other _ _ _ _ _ _ (.inl h)

theorem vectorMasked_eq (s : State) (v : Nat) : vectorMasked s v = decide (bar0 s (0x3000C + 16 * v) 4 % 2 = 1) := by
  unfold vectorMasked
  rw [natBits_bit, Nat.pow_zero, Nat.div_one]

theorem irqData_congr {s u : State} {i : Irq}
    (h : bar0 u (0x30008 + 16 * i.vector) 4 = bar0 s (0x30008 + 16 * i.vector) 4) :
    irqData u i = irqData s i := by
  unfold irqData
  rw [h]

/-- A message without a HOST node only goes out. -/
theorem sendIrq_noNode {i : Irq} (s : State) (hn : i.node = none) :
    sendIrq i s = sendTlp 0 1 (bar0 s (0x30000 + 16 * i.vector) 8) (leBytes 4 (irqData s i).toNat) s := by
  unfold sendIrq
  rw [hn]

section
variable {s : State} {i : Irq} (hp : portsSettled s = true)
include hp

/-- The oldest message, if it is not pending, is the one that is sent. -/
theorem msixSend_eq {rest : List Irq} (hi : s.hub.irqs = i :: rest) (hf : i.pended = false) :
    exec (.msixSend i.vector (irqData s i)) s = .next (
      if vectorMasked s i.vector then
        setPending i.vector true { s with hub := { s.hub with irqs := { i with pended := true } :: rest } }
      else sendIrq i { s with hub := { s.hub with irqs := rest } }) := by
  have hx : (s.hub.irqs.findIdx? fun x => x.vector = i.vector && !x.pended && irqData s x = irqData s i) = some 0 := by
    rw [hi, List.findIdx?_cons, if_pos (by simp [hf])]
  have hg : s.hub.irqs[0]? = some i := by rw [hi]; rfl
  rw [exec_msixSend]
  simp only [execMsixSend, hx, hg, hp]
  rw [hi]
  cases vectorMasked s i.vector <;> rfl

theorem msixSend_sends {rest : List Irq} (hi : s.hub.irqs = i :: rest) (hf : i.pended = false) (hn : i.node = none)
    (hm : bar0 s (0x3000C + 16 * i.vector) 4 % 2 = 0) :
    exec (.msixSend i.vector (irqData s i)) s = .next { s with
      out := s.out ++ [⟨0, 1, bar0 s (0x30000 + 16 * i.vector) 8, leBytes 4 (irqData s i).toNat⟩]
      hub := { s.hub with irqs := rest } } := by
  rw [msixSend_eq hp hi hf, vectorMasked_eq, hm, if_neg (by decide), sendIrq_noNode _ hn]
  rfl

theorem msixSend_pends {rest : List Irq} (hi : s.hub.irqs = i :: rest) (hf : i.pended = false) (hv : i.vector < 64)
    (hm : bar0 s (0x3000C + 16 * i.vector) 4 % 2 = 1) :
    ∃ t, exec (.msixSend i.vector (irqData s i)) s = .next t ∧ t.out = s.out ∧
      t.hub.irqs = { i with pended := true } :: rest ∧ bar0 t 0x30800 8 = bar0 s 0x30800 8 ||| 2 ^ i.vector := by
  refine ⟨setPending i.vector true { s with hub := { s.hub with irqs := { i with pended := true } :: rest } },
    by rw [msixSend_eq hp hi hf, vectorMasked_eq, hm, if_pos (by decide)], rfl, rfl, ?_⟩
  exact bar0_setBar0_of_lt (bar0_or_bit_lt s 0x30800 hv)

theorem msixUnmask_sends (hi : s.hub.irqs = [i]) (hf : i.pended = true) (hn : i.node = none) (hv : i.vector < 64)
    (hm : bar0 s (0x3000C + 16 * i.vector) 4 % 2 = 0) :
    ∃ t, exec (.msixUnmask i.vector) s = .next t ∧ t.hub.irqs = [] ∧
      t.out = s.out ++ [⟨0, 1, bar0 s (0x30000 + 16 * i.vector) 8, leBytes 4 (irqData s i).toNat⟩] ∧
      bar0 t 0x30800 8 = bar0 s 0x30800 8 &&& (2 ^ 64 - 1 - 2 ^ i.vector) := by
  have hdue : (s.hub.irqs.filter fun x => x.vector = i.vector && x.pended) = [i] := by rw [hi]; simp [hf]
  have hrest : (s.hub.irqs.filter fun x => !(x.vector = i.vector && x.pended)) = [] := by rw [hi]; simp [hf]
  have hmask : vectorMasked s i.vector = false := by rw [vectorMasked_eq, hm]; rfl
  obtain ⟨u, hu⟩ : ∃ u, u = setPending i.vector false { s with hub := { s.hub with irqs := [] } } := ⟨_, rfl⟩
  have hvec (off n : Nat) (h : off + n ≤ 0x30800) : bar0 u off n = bar0 s off n := by
    rw [hu, bar0_setPending_vector false h]
    rfl
  have haddr := hvec (0x30000 + 16 * i.vector) 8 (by omega)
  have hdata : irqData u i = irqData s i := irqData_congr (hvec (0x30008 + 16 * i.vector) 4 (by omega))
  refine ⟨sendTlp 0 1 (bar0 u (0x30000 + 16 * i.vector) 8) (leBytes 4 (irqData u i).toNat) u, ?_, ?_, ?_, ?_⟩
  · rw [exec_msixUnmask, ← sendIrq_noNode u hn, hu]
    simp only [execMsixUnmask, hdue, hrest, hmask, hp]
    rfl
  · rw [hu]; rfl
  · rw [haddr, hdata, hu]; rfl
  · rw [hu]
    exact bar0_setBar0_of_lt (Nat.lt_of_le_of_lt Nat.and_le_left (bar0_lt s 0x30800 8))

end

theorem msixUnmask_masked {s : State} {v : Nat} (h : bar0 s (0x3000C + 16 * v) 4 % 2 = 1) :
    exec (.msixUnmask v) s = .next s := by
  rw [exec_msixUnmask, execMsixUnmask, vectorMasked_eq, h]
  exact if_pos (.inl rfl)

end Sys2Proof.Machine

namespace Sys2Proof.Proofs

open Sys2Proof.Machine

/-- Settles O57: each operation of the mailbox and each form of the bus by the lemma that says what it does. -/
theorem hostInterface : Obligations.HostInterface := by
  unfold Obligations.HostInterface
  refine ⟨⟨?wrongLength, ?idle, ?unknown, ?alloc, ?erase, ?sealing, ?unsealing, ?attest, ?debugAuth, ?response, ?ignored⟩,
    ?closed, ?checked, ?requests, ?registers, ?doorbell, ?contexts, ?send, ?masked, ?unmask⟩
  case wrongLength => exact fun s i op n m hi h hm => mailOp_wrongLength hi h hm
  case idle => exact fun s i op n hi h => mailOp_idle hi h
  case unknown => exact fun s op n ho h => unknownOpcode_answers ho h
  case alloc => exact fun s h => ⟨alloc_badAsid h, alloc_full h, alloc_loads h⟩
  case erase =>
    exact fun s h => ⟨erase_badSlot h, fun h1 h2 => erase_unloaded h1 h2 h, fun h1 h2 => erase_clears h1 h2 h⟩
  case sealing => exact fun s h => ⟨fun h1 h2 => seal_unloaded h1 h2 h, fun h1 h2 => seal_answers h1 h2 h⟩
  case unsealing => exact fun s key h hf => ⟨unseal_refused hf h rfl, unseal_loads hf h rfl⟩
  case attest => exact fun s h => ⟨attest_badAsid h, attest_reports h⟩
  case debugAuth =>
    exact fun s h => ⟨debugAuth_badRequest h, debugAuth_revokes h,
      fun k ha hf hn hk hfree hbelow => debugAuth_grants h ha hf hn hk hfree hbelow,
      fun ha hf hu => debugAuth_full h ha hf (fun j hj => (hu j hj).1) fun j hj => (hu j hj).2⟩
  case response => exact fun s => ⟨mailboxResponse_follows, mailboxResponse_idle⟩
  case ignored =>
    exact fun s w => ⟨mailboxRequestIgnored_causes w,
      fun h => ⟨mailboxRequestIgnored_idle w h, registerWrite_sequence w h⟩⟩
  case closed =>
    exact fun s port off n data hr hc => ⟨bar2Read_closed hr port off n hc, fun hp => bar2Write_closed hr off data hp hc⟩
  case checked =>
    exact fun s s1 s2 port off n data bs pl k hr => ⟨bar2Read_completes hr, bar2Write_performs hr⟩
  case requests =>
    exact fun s port reg tag w => ⟨configurationWrite s port reg w, configurationRead s port reg,
      exec_unsupportedRequest port tag s, fun n hn => hn ▸ pcieCompletion_counts s port⟩
  case registers =>
    exact fun s off w => ⟨registerWrite_readOnly w, registerWrite_request w, registerWrite_causes s w⟩
  case doorbell => exact fun s j tail hj hr => ⟨jobQueueDoorbell_moves hj hr tail, jobQueueDoorbell_error hj hr tail⟩
  case contexts =>
    exact fun s asid => ⟨contextInvalidate_idle, contextInvalidate_closes, contextTeardown_idle, contextTeardown_ends⟩
  case send =>
    exact fun s i rest hi hf hn hv hp => ⟨msixSend_sends hp hi hf hn, msixSend_pends hp hi hf hv⟩
  case masked => exact fun s v h => msixUnmask_masked h
  case unmask => exact fun s i hi hf hn hv hm hp => msixUnmask_sends hp hi hf hn hv hm

end Sys2Proof.Proofs

/-! # Power, temperature, errors, retirement, ports and channels (R16 to R19, R327, R421, R439 to R454)

Rules for bits, for the description and for what a request to stop does to the strands come first; then a section for each
group of events, and the statement assembled from them. -/

/-! ## The forms of recovery, as the dispatch runs them -/

namespace Sys2Proof.Machine

theorem exec_powerLimit (rate : Nat) (s : State) : exec (.powerLimit rate) s = execPowerLimit rate s := rfl
theorem exec_dutyCycling (h : Nat) (e : BitVec 1) (s : State) : exec (.dutyCycling h e) s = execDutyCycling h e s := rfl
theorem exec_thermalWarning (die temp : Nat) (s : State) :
    exec (.thermalWarning die temp) s = execThermalWarning die temp s := rfl
theorem exec_temperatureFall (die temp : Nat) (s : State) :
    exec (.temperatureFall die temp) s = execTemperatureFall die temp s := rfl
theorem exec_thermalCriticalStop (die temp : Nat) (s : State) :
    exec (.thermalCriticalStop die temp) s = execThermalCriticalStop die temp s := rfl
theorem exec_thermalResume (s : State) : exec .thermalResume s = execThermalResume s := rfl
theorem exec_backgroundCheck (h a r : Nat) (e : StorageError) (s : State) :
    exec (.backgroundCheck h a r e) s = execBackgroundCheck h a r e s := rfl
theorem exec_errorRecordWrite (s : State) : exec .errorRecordWrite s = execErrorRecordWrite s := rfl
theorem exec_lastingFault (k : ErrorKind) (u : Nat) (s : State) :
    exec (.lastingFault k u) s = execLastingFault k u s := rfl
theorem exec_spareReplacement (h a : Nat) (s : State) :
    exec (.spareReplacement h a) s = execSpareReplacement h a s := rfl
theorem exec_spareRemap (h a : Nat) (s : State) : exec (.spareRemap h a) s = execSpareRemap h a s := rfl
theorem exec_arrayWithdraw (h a : Nat) (s : State) : exec (.arrayWithdraw h a) s = execArrayWithdraw h a s := rfl
theorem exec_dieFence (die : Nat) (s : State) : exec (.dieFence die) s = execDieFence die s := rfl
theorem exec_linkTraining (port w rate : Nat) (s : State) :
    exec (.linkTraining port w rate) s = execLinkTraining port w rate s := rfl
theorem exec_channelPowerDownRequest (c : Nat) (s : State) :
    exec (.channelPowerDownRequest c) s = execChannelPowerDownRequest c s := rfl
theorem exec_channelDrainEnd (c : Nat) (s : State) : exec (.channelDrainEnd c) s = execChannelDrainEnd c s := rfl
theorem exec_channelSpillEnd (c : Nat) (s : State) : exec (.channelSpillEnd c) s = execChannelSpillEnd c s := rfl
theorem exec_channelWake (c : Nat) (s : State) : exec (.channelWake c) s = execChannelWake c s := rfl
theorem exec_channelRestoreEnd (c : Nat) (s : State) :
    exec (.channelRestoreEnd c) s = execChannelRestoreEnd c s := rfl

/-! ## Bits, hoops, units and records -/

/-- A bit of a word that has been set in it. -/
theorem getLsbD_setBit {w i : Nat} (x : BitVec w) (h : i < w) : (x ||| (1#w <<< i)).getLsbD i = true := by simp [h]

/-- A bit of a word that has been cleared in it. -/
theorem getLsbD_clearBit {w i : Nat} (x : BitVec w) : (x &&& ~~~(1#w <<< i)).getLsbD i = false := by
  by_cases h : i < w <;> simp [h]

theorem bit_eq_testBit (v i : Nat) : v / 2 ^ i % 2 = (v.testBit i).toNat := (Nat.toNat_testBit v i).symm

theorem bit_or_pow (v i : Nat) : (v ||| 2 ^ i) / 2 ^ i % 2 = 1 := by
  rw [bit_eq_testBit, Nat.testBit_or, Nat.testBit_two_pow_self, Bool.or_true]
  rfl

/-- A mask that leaves out a number leaves out its bits. -/
theorem bit_and_mask {v n x i : Nat} (hx : x < 2 ^ n) (hi : x.testBit i = true) :
    (v &&& (2 ^ n - 1 - x)) / 2 ^ i % 2 = 0 := by
  have hm : (2 ^ n - 1 - x).testBit i = false := by
    rw [Nat.sub_sub, Nat.add_comm 1 x, Nat.testBit_two_pow_sub_succ hx, hi]
    simp
  rw [bit_eq_testBit, Nat.testBit_and, hm, Bool.and_false]
  rfl

theorem hoopOf_setHoop_same (h : Nat) (v : Hoop) (s : State) : hoopOf (setHoop h v s) h = v :=
  smRead_smWrite_same _ _ _ _

theorem unitOf_setUnit_same (u : Nat) (v : StackUnit) (s : State) : unitOf (setUnit u v s) u = v :=
  smRead_smWrite_same _ _ _ _

/-- A record that names its hoop is of the type and severity that it was made with. -/
@[simp] theorem ofHoop_typ (e : ErrRec) (h : Nat) : (e.ofHoop h).typ = e.typ := by unfold ErrRec.ofHoop; split <;> rfl
@[simp] theorem ofHoop_severity (e : ErrRec) (h : Nat) : (e.ofHoop h).severity = e.severity := by
  unfold ErrRec.ofHoop; split <;> rfl

/-! ## The status and the change count of the description (R420, R421) -/

theorem status_setStatus_on {k : Nat} (s : State) (h : k < 64) : Claims.status (setStatus k true s) k = 1 := by
  have hb : bar0 (setStatus k true s) 0x10000 8 = bar0 s 0x10000 8 ||| 2 ^ k :=
    bar0_setBar0_of_lt (bar0_or_bit_lt s 0x10000 h)
  unfold Claims.status
  rw [hb, bit_or_pow]

theorem status_setStatus_off {k : Nat} (s : State) (h : k < 64) : Claims.status (setStatus k false s) k = 0 := by
  have hb : bar0 (setStatus k false s) 0x10000 8 = bar0 s 0x10000 8 &&& (2 ^ 64 - 1 - 2 ^ k) :=
    bar0_setBar0_of_lt (Nat.lt_of_le_of_lt Nat.and_le_left (bar0_lt s 0x10000 8))
  unfold Claims.status
  rw [hb]
  exact bit_and_mask (Nat.pow_lt_pow_right Nat.one_lt_two h) Nat.testBit_two_pow_self

/-- A description that is rewritten in a state with the change count of an earlier one. -/
theorem described_describe {s u : State} {f : State → State} (h : bar0 u 8 8 = bar0 s 8 8) :
    Claims.Described s (describe f u) := by
  unfold Claims.Described
  rw [← h]
  exact bar0_setBar0_same (f u) 8 8 _

/-- A record is no part of the description. -/
theorem described_addErr {s t : State} (e : ErrRec) (h : Claims.Described s t) : Claims.Described s (addErr e t) := h

/-- The change count is all that a rewriting adds to what it writes. -/
theorem bar0_describe_other (f : State → State) (s : State) {j k : Nat} (h : j + k ≤ 8 ∨ 16 ≤ j) :
    bar0 (describe f s) j k = bar0 (f s) j k := bar0_setBar0_other _ _ _ _ _ _ h

@[simp] theorem describe_strand (f : State → State) (s : State) : (describe f s).strand = (f s).strand := rfl
@[simp] theorem describe_hoops (f : State → State) (s : State) : (describe f s).hoops = (f s).hoops := rfl
@[simp] theorem describe_hub (f : State → State) (s : State) : (describe f s).hub = (f s).hub := rfl
@[simp] theorem describe_bytes (f : State → State) (s : State) : (describe f s).mem.bytes = (f s).mem.bytes := rfl
@[simp] theorem describe_poison (f : State → State) (s : State) : (describe f s).mem.poison = (f s).mem.poison := rfl

/-! ## Strands that are changed in place, and requests to stop (R391, R393) -/

/-- A change of strand records that keeps their names is seen where they are looked up. -/
theorem findStrand_updStrands {p : Strand → Bool} {f : Strand → Strand} (hid : ∀ t, (f t).id = t.id)
    (hst : ∀ t, isStrand (f t) = isStrand t) (s : State) (i : StrandId) :
    findStrand (updStrands p f s) i = (findStrand s i).map fun t => if p t then f t else t := by
  have hall : allStrands (updStrands p f s) = (allStrands s).map fun t => if p t then f t else t := by
    show ((s.strand :: s.pool).map fun t => if p t then f t else t).filter isStrand = _
    rw [List.filter_map]
    congr 1
    refine List.filter_congr fun t _ => ?_
    show isStrand (if p t then f t else t) = isStrand t
    split
    · exact hst t
    · rfl
  unfold findStrand
  rw [hall, List.find?_map]
  congr 2
  funext t
  show decide ((if p t then f t else t).id = i) = decide (t.id = i)
  split
  · rw [hid]
  · rfl

theorem mem_allStrands {s : State} {t : Strand} : t ∈ allStrands s ↔ t ∈ s.strand :: s.pool ∧ isStrand t = true :=
  List.mem_filter

/-- A strand that is found is one, and has the name it was looked up by. -/
theorem mem_of_findStrand {s : State} {i : StrandId} {t : Strand} (h : findStrand s i = some t) :
    t ∈ allStrands s ∧ t.id = i :=
  ⟨List.mem_of_find?_eq_some h, of_decide_eq_true (List.find?_some (p := fun t : Strand => decide (t.id = i)) h)⟩

theorem stoppable_iff (t : Strand) : stoppable t = true ↔ Claims.InSlot t := by
  unfold stoppable Claims.InSlot
  cases t.state <;> simp

theorem isStrand_of_InSlot {t : Strand} (h : Claims.InSlot t) (hn : t.node = none) : isStrand t = true := by
  unfold isStrand
  rw [hn]
  rcases h with h | h | h | h <;> rw [h] <;> rfl

theorem resident_of_InSlot {t : Strand} (h : Claims.InSlot t) : resident t = true := by
  unfold resident
  rcases h with h | h | h | h <;> rw [h]

theorem requested_id (t : Strand) : (Claims.requested t).id = t.id := by unfold Claims.requested; split <;> rfl

theorem isStrand_requested (t : Strand) : isStrand (Claims.requested t) = isStrand t := by
  unfold Claims.requested; split <;> rfl

/-- A second request is merged with the first (R393). -/
theorem requested_requested (t : Strand) : Claims.requested (Claims.requested t) = Claims.requested t := by
  unfold Claims.requested
  split <;> simp_all

theorem findStrand_requestStop (j : StrandId) (s : State) (i : StrandId) :
    findStrand (requestStop j s) i = if i = j then (findStrand s i).map Claims.requested else findStrand s i := by
  refine (findStrand_updStrands (f := Claims.requested) requested_id isStrand_requested s i).trans ?_
  cases hf : findStrand s i with
  | none => simp
  | some t =>
    obtain ⟨hm, hid⟩ := mem_of_findStrand hf
    have hst := (mem_allStrands.1 hm).2
    by_cases hij : i = j <;> simp [hst, hid, hij]

/-- Requests to stop reach the strands of a list one after the other. -/
def requestStops (l : List Strand) (s : State) : State := l.foldl (fun s t => requestStop t.id s) s

theorem findStrand_requestStops (l : List Strand) (s : State) (i : StrandId) :
    findStrand (requestStops l s) i =
      if i ∈ l.map Strand.id then (findStrand s i).map Claims.requested else findStrand s i := by
  induction l generalizing s with
  | nil => rfl
  | cons t l ih =>
    have h : findStrand (requestStops (t :: l) s) i = _ := ih (requestStop t.id s)
    rw [h, findStrand_requestStop]
    have hmerge : ((findStrand s i).map Claims.requested).map Claims.requested = (findStrand s i).map Claims.requested := by
      simp [Option.map_map, Function.comp_def, requested_requested]
    by_cases hi : i = t.id
    · rw [if_pos hi, hmerge, ite_self, if_pos (by simp [hi])]
    · simp [hi]

/-- Requests to stop change strand records only. -/
theorem requestStops_frame (l : List Strand) (s : State) :
    (requestStops l s).hub = s.hub ∧ (requestStops l s).mem = s.mem :=
  foldl_keeps (fun u : State => u.hub = s.hub ∧ u.mem = s.mem) (fun u (t : Strand) => requestStop t.id u) (fun _ _ h => h) l s
    ⟨rfl, rfl⟩

/-- A strand of the list that can be found is asked to stop. -/
theorem findStrand_requestStops_mem {l : List Strand} {s : State} {i : StrandId} {t : Strand}
    (hf : findStrand s i = some t) (hl : t ∈ l) : findStrand (requestStops l s) i = some (Claims.requested t) := by
  rw [findStrand_requestStops, if_pos, hf]
  · rfl
  · exact List.mem_map.2 ⟨t, hl, (mem_of_findStrand hf).2⟩

/-! ## Power and temperature (R16 to R19, R454) -/

theorem dutyCycling_sets {h : Nat} (hh : h < 48) (e : BitVec 1) (s : State) :
    ∃ t, exec (.dutyCycling h e) s = .next t ∧ (hoopOf t h).duty = (hoopOf s h).duty ||| (1#2 <<< e.toNat) ∧
      t = { s with hoops := t.hoops } := by
  refine ⟨setHoop h { hoopOf s h with duty := (hoopOf s h).duty ||| (1#2 <<< e.toNat) } s, ?_, ?_, rfl⟩
  · rw [exec_dutyCycling, execDutyCycling, if_pos hh]
  · rw [hoopOf_setHoop_same]

theorem dutyCycling_idle {h : Nat} (hh : 48 ≤ h) (e : BitVec 1) (s : State) : exec (.dutyCycling h e) s = .next s := by
  rw [exec_dutyCycling, execDutyCycling, if_neg (Nat.not_lt.2 hh)]

theorem thermal_noDie {die : Nat} (h : 4 ≤ die) (temp : Nat) (s : State) :
    ∀ i ∈ [Instr.thermalWarning die temp, .temperatureFall die temp, .thermalCriticalStop die temp],
      exec i s = .next s := by
  simp only [List.mem_cons, List.not_mem_nil, or_false, forall_eq_or_imp, forall_eq]
  refine ⟨?_, ?_, ?_⟩
  · exact if_neg fun hc => Nat.not_lt.2 h hc.1
  · exact if_neg fun hc => Nat.not_lt.2 h hc.1
  · exact if_pos (.inl h)

section
variable {die temp : Nat}

theorem thermalWarning_cool (h : temp < Config.fusedWarning.toNat) (s : State) :
    exec (.thermalWarning die temp) s = .next s := if_neg fun hc => Nat.not_le.2 h hc.2

theorem temperatureFall_warm (h : Config.fusedWarning.toNat ≤ temp) (s : State) :
    exec (.temperatureFall die temp) s = .next s := if_neg fun hc => Nat.not_lt.2 h hc.2

theorem thermalCriticalStop_cool (h : temp < Config.fusedCritical.toNat) (s : State) :
    exec (.thermalCriticalStop die temp) s = .next s := if_pos (.inr h)

theorem temperatureFall_sets (hd : die < 4) (h : temp < Config.fusedWarning.toNat) (s : State) :
    exec (.temperatureFall die temp) s = .next { s with hub := { s.hub with
      temps := s.hub.temps.setIfInBounds die temp } } := if_pos ⟨hd, h⟩

theorem thermalWarning_warns (hd : die < 4) (h : Config.fusedWarning.toNat ≤ temp) (s : State) :
    ∃ t, exec (.thermalWarning die temp) s = .next t ∧ t.hub.temps.toList[die]? = some temp ∧
      Claims.Recorded s 7 1 t ∧ Claims.Caused s 4 t ∧ t.strand = s.strand := by
  refine ⟨setCause 4 (thermalRecord 1 die temp warnLevel (setTemp die temp s)), if_pos ⟨hd, h⟩, ?_, ⟨_, rfl, rfl, rfl⟩,
    caused_setCause (by decide) rfl rfl rfl rfl, rfl⟩
  show (s.hub.temps.setIfInBounds die temp).toList[die]? = some temp
  simp [hd]

/-- Steps 1 and 2 of a checkpoint ask the strands that can be stopped (R450). -/
theorem quiesce_eq (s : State) : quiesce s = requestStops ((allStrands s).filter stoppable)
    { s with hub := { s.hub with stopped := true, quiesce := true, quiescedAt := s.ac } } := rfl

theorem allAsked_quiesce (s : State) : Claims.AllAsked s (quiesce s) := by
  intro i t hf hs
  rw [quiesce_eq]
  exact findStrand_requestStops_mem hf
    (List.mem_filter.2 ⟨(mem_of_findStrand hf).1, (stoppable_iff t).2 hs⟩)

theorem thermalCriticalStop_stops (hd : die < 4) (h : Config.fusedCritical.toNat ≤ temp) (s : State) :
    ∃ t, exec (.thermalCriticalStop die temp) s = .next t ∧ Claims.AllAsked s t ∧
      t.hub.stopped = true ∧ t.hub.thermal = true ∧ Claims.status t 3 = 1 ∧ Claims.Recorded s 7 3 t ∧
      t.mem.bytes = s.mem.bytes := by
  obtain ⟨u, hu⟩ : ∃ u, u = thermalRecord 3 die temp criticalLevel (setTemp die temp s) := ⟨_, rfl⟩
  obtain ⟨e, he, htyp, hsev⟩ : Claims.Recorded s 7 3 u := by rw [hu]; exact ⟨_, rfl, rfl, rfl⟩
  obtain ⟨hhub, hmem⟩ : (quiesce u).hub = { u.hub with stopped := true, quiesce := true, quiescedAt := u.ac } ∧
      (quiesce u).mem = u.mem := by rw [quiesce_eq]; exact requestStops_frame _ _
  refine ⟨setStatus 3 true { quiesce u with hub := { (quiesce u).hub with thermal := true } }, ?_, ?_, ?_, rfl,
    status_setStatus_on _ (by decide), ⟨e, ?_, htyp, hsev⟩, ?_⟩
  · rw [exec_thermalCriticalStop, execThermalCriticalStop, if_neg, hu]
    rintro (hc | hc)
    · exact Nat.not_le.2 hd hc
    · exact Nat.not_le.2 hc h
  · intro i t hf hs
    exact allAsked_quiesce u i t (by rw [hu]; exact hf) hs
  · show (quiesce u).hub.stopped = true
    rw [hhub]
  · show (quiesce u).hub.records = _
    rw [hhub]
    exact he
  · show (quiesce u).mem.bytes = s.mem.bytes
    rw [hmem, hu]
    rfl

end

theorem thermalResume_idle {s : State} (h : s.hub.thermal = false) : exec .thermalResume s = .next s := by
  rw [exec_thermalResume, execThermalResume, h]
  exact if_neg fun hc => Bool.noConfusion hc.1

/-- Without cancels that waited, the device only goes on. -/
theorem resumeDevice_eq {s : State} (h : s.hub.deferred = []) :
    resumeDevice s = setStatus 3 false { s with hub := { s.hub with
      stopped := false, quiesce := false, thermal := false, stay := false, deferred := [] } } := by
  simp only [resumeDevice, h, List.foldl_nil]

theorem thermalResume_resumes {s : State} (ht : s.hub.thermal = true)
    (hc : ∀ x ∈ s.hub.temps.toList, x < Config.fusedWarning.toNat) (hq : quiesced s = true) (hd : s.hub.deferred = []) :
    ∃ t, exec .thermalResume s = .next t ∧ t.hub.stopped = false ∧ t.hub.thermal = false ∧ t.hub.quiesce = false ∧
      Claims.status t 3 = 0 ∧ Claims.Recorded s 7 3 t ∧ t.strand = s.strand ∧ t.mem.bytes = s.mem.bytes := by
  have hcool : s.hub.temps.toList.all (· < warnLevel) = true :=
    List.all_eq_true.2 fun x hx => decide_eq_true (hc x hx)
  refine ⟨resumeDevice (thermalRecord 3 0xFF (s.hub.temps.toList.foldl max 0) warnLevel s), if_pos ⟨ht, hcool, hq⟩, ?_⟩
  rw [resumeDevice_eq (s := thermalRecord _ _ _ _ s) hd]
  exact ⟨rfl, rfl, rfl, status_setStatus_off _ (by decide), ⟨_, rfl, rfl, rfl⟩, rfl, rfl⟩

end Sys2Proof.Machine

/-! ## Error records and storage errors (R422, R439, R440, R442, R447) -/

namespace Sys2Proof.Machine

@[simp] theorem setCause_bytes (c : Nat) (s : State) : (setCause c s).mem.bytes = s.mem.bytes := rfl

/-- A record added to a state with the records of an earlier one. -/
theorem recorded_addErr {s u : State} (e : ErrRec) (h : u.hub.records = s.hub.records) :
    Claims.Recorded s e.typ e.severity (addErr e u) := ⟨e, congrArg (· ++ [e]) h, rfl, rfl⟩

@[simp] theorem bar0_addErr (e : ErrRec) (s : State) (j k : Nat) : bar0 (addErr e s) j k = bar0 s j k := rfl

/-- The words that a range touches are poisoned, and no others (R440). -/
theorem smGet_addPoison (m : Mem) (a n w : Nat) :
    smGet (addPoison m a n).poison w = if w ∈ touched 8 a n then some () else smGet m.poison w := by
  show smGet ((touched 8 a n).foldl (fun p w => smSet p w ()) m.poison) w = _
  generalize touched 8 a n = l
  generalize m.poison = p
  induction l generalizing p with
  | nil => rfl
  | cons v l ih =>
    rw [List.foldl_cons, ih]
    by_cases hl : w ∈ l
    · rw [if_pos hl, if_pos (List.mem_cons_of_mem v hl)]
    · by_cases hv : w = v
      · rw [if_neg hl, if_pos (by rw [hv]; exact List.mem_cons_self), hv, smGet_smSet_same]
      · rw [if_neg hl, if_neg (by simp [hv, hl]), smGet_smSet_other _ _ _ _ hv]

theorem addPoison_bytes (m : Mem) (a n : Nat) : (addPoison m a n).bytes = m.bytes := rfl

/-- The 32 words of a row. -/
theorem mem_touched_row (h a r w : Nat) : w ∈ touched 8 (rowAddr h a r) 256 ↔
    (2 ^ 41 + h * 2 ^ 25 + r * 2 ^ 16 + a * 2 ^ 8) / 8 ≤ w ∧
      w < (2 ^ 41 + h * 2 ^ 25 + r * 2 ^ 16 + a * 2 ^ 8) / 8 + 32 := by
  rw [mem_touched (by decide) (by decide)]
  unfold rowAddr
  omega

theorem backgroundCheck_clean (h a r : Nat) (s : State) : exec (.backgroundCheck h a r .none) s = .next s := by
  rw [exec_backgroundCheck, execBackgroundCheck]
  exact ite_self _

section
variable {h a r : Nat} (hh : h < 48) (ha : a < 256) (hr : r < 512) (s : State)
include hh ha hr

/-- The row that is checked exists. -/
theorem row_inRange : ¬ (48 ≤ h ∨ 256 ≤ a ∨ 512 ≤ r) := by omega

theorem backgroundCheck_corrects : ∃ t, exec (.backgroundCheck h a r .correctable) s = .next t ∧
    Claims.Recorded s 1 0 t ∧ t.mem = s.mem ∧ t.strand = s.strand :=
  ⟨_, if_neg (row_inRange hh ha hr), ⟨_, rfl, ofHoop_typ _ _, ofHoop_severity _ _⟩, rfl, rfl⟩

theorem backgroundCheck_marks : ∃ t, exec (.backgroundCheck h a r .uncorrectable) s = .next t ∧
    Claims.Recorded s 2 1 t ∧ t.mem = addPoison s.mem (rowAddr h a r) 256 :=
  ⟨_, if_neg (row_inRange hh ha hr), ⟨_, rfl, ofHoop_typ _ _, ofHoop_severity _ _⟩, rfl⟩

theorem backgroundCheck_poisons {word : Nat} (hw : (2 ^ 41 + h * 2 ^ 25 + r * 2 ^ 16 + a * 2 ^ 8) / 8 = word) :
    ∃ t, exec (.backgroundCheck h a r .uncorrectable) s = .next t ∧ Claims.Recorded s 2 1 t ∧
      t.mem.bytes = s.mem.bytes ∧
      ∀ w, smGet t.mem.poison w = if word ≤ w ∧ w < word + 32 then some () else smGet s.mem.poison w := by
  obtain ⟨t, he, hrec, hm⟩ := backgroundCheck_marks hh ha hr s
  refine ⟨t, he, hrec, by rw [hm, addPoison_bytes], fun w => ?_⟩
  simp only [hm, smGet_addPoison, mem_touched_row, hw]

end

/-- A part of a range that was written reads as that part of what was written. -/
theorem leNat_smReadList_part {m : SMap Byte} {k off n : Nat} {bs : List Byte} (h : off + n ≤ bs.length) :
    leNat (smReadList 0 (smWriteList 0 m k bs) (k + off) n) = field bs off n := by
  unfold field
  rw [← smReadList_part 0 _ k h, smReadList_smWriteList_same]

/-- The first field of a record reads modulo its width. -/
theorem field_leBytes_mod (n v : Nat) (b : List Byte) : field (leBytes n v ++ b) 0 n = v % 2 ^ (8 * n) := by
  unfold field
  rw [List.drop_zero, List.take_left' (length_leBytes n v), leNat_leBytes]

/-- A later field is read past the first. -/
theorem field_leBytes_skip {k off : Nat} (h : k ≤ off) (v n : Nat) (b : List Byte) :
    field (leBytes k v ++ b) off n = field b (off - k) n := by
  rw [field_append_right (by rw [length_leBytes]; exact h), length_leBytes]

theorem length_recordBytes (e : ErrRec) (time : Word) : (recordBytes e time).length = 64 := by
  simp [recordBytes, length_padTo]

/-- The fields of a record (R447). -/
theorem recordBytes_fields (e : ErrRec) (time : Word) : let b := recordBytes e time
    field b 0 1 = e.typ % 256 ∧ field b 1 1 = e.severity % 256 ∧ field b 2 2 = e.asid.toNat ∧
    field b 4 1 = e.unit % 256 ∧ field b 5 1 = e.hoop % 256 ∧ field b 6 1 = e.slot % 256 ∧
    field b 8 2 = e.array % 2 ^ 16 ∧ field b 10 2 = e.row % 2 ^ 16 ∧ field b 12 4 = e.events % 2 ^ 32 ∧
    field b 16 8 = e.pa % 2 ^ 64 := by
  have ha : e.asid.toNat < 65536 := Nat.lt_trans e.asid.isLt (by decide)
  simp only [recordBytes, List.append_assoc]
  refine ⟨?_, ?_, ?_, ?_, ?_, ?_, ?_, ?_, ?_, ?_⟩ <;> simp [field_leBytes_skip, field_leBytes_mod, ha]

theorem errorRecordWrite_idle {s : State} (h : s.hub.records = []) : exec .errorRecordWrite s = .next s := by
  rw [exec_errorRecordWrite, execErrorRecordWrite, h]

/-- The state with the oldest record in the ring and not yet counted. -/
def recordPlaced (e : ErrRec) (es : List ErrRec) (s : State) : State :=
  { s with
    hub := { s.hub with records := es }
    mem := { s.mem with
      bar0 := smWriteList 0 s.mem.bar0 (0x18000 + 64 * (bar0 s 0x10100 8 % 512)) (recordBytes e (timeNow s)) } }

theorem errorRecordWrite_eq {s : State} {e : ErrRec} {es : List ErrRec} (h : s.hub.records = e :: es) :
    exec .errorRecordWrite s =
      .next (setCause 0 (setBar0 0x10100 8 (bar0 s 0x10100 8 + 1) (recordPlaced e es s))) := by
  rw [exec_errorRecordWrite, execErrorRecordWrite, h]
  rfl

theorem recordPlaced_bytes (e : ErrRec) (es : List ErrRec) (s : State) :
    (recordPlaced e es s).mem.bytes = s.mem.bytes := by dsimp only [recordPlaced]

/-- The ring lies above the registers of the status page. -/
theorem bar0_recordPlaced_low (e : ErrRec) (es : List ErrRec) (s : State) {j k : Nat} (h : j + k ≤ 0x18000) :
    bar0 (recordPlaced e es s) j k = bar0 s j k :=
  congrArg leNat (smReadList_smWriteList_other 0 s.mem.bar0 j k _ _ (.inl (by omega)))

theorem errorRecordWrite_writes {s : State} {e : ErrRec} {es : List ErrRec} {w place : Nat}
    (h : s.hub.records = e :: es) (hw : bar0 s 0x10100 8 = w) (hplace : 0x18000 + 64 * (w % 512) = place) :
    ∃ t, exec .errorRecordWrite s = .next t ∧ t.hub.records = es ∧ bar0 t 0x10100 8 = (w + 1) % 2 ^ 64 ∧
      bar0 t place 1 = e.typ % 256 ∧ bar0 t (place + 1) 1 = e.severity % 256 ∧ bar0 t (place + 2) 2 = e.asid.toNat ∧
      bar0 t (place + 4) 1 = e.unit % 256 ∧ bar0 t (place + 5) 1 = e.hoop % 256 ∧ bar0 t (place + 6) 1 = e.slot % 256 ∧
      bar0 t (place + 8) 2 = e.array % 2 ^ 16 ∧ bar0 t (place + 10) 2 = e.row % 2 ^ 16 ∧
      bar0 t (place + 12) 4 = e.events % 2 ^ 32 ∧ bar0 t (place + 16) 8 = e.pa % 2 ^ 64 ∧ Claims.Caused s 0 t ∧
      t.strand = s.strand ∧ t.mem.bytes = s.mem.bytes := by
  obtain ⟨t, ht⟩ : ∃ t, t = setCause 0 (setBar0 0x10100 8 (w + 1) (recordPlaced e es s)) := ⟨_, rfl⟩
  have hlow (j k : Nat) (hj : j + k ≤ 0x10100) :
      bar0 (setBar0 0x10100 8 (w + 1) (recordPlaced e es s)) j k = bar0 s j k := by
    rw [bar0_setBar0_other _ _ _ _ _ _ (.inl hj), bar0_recordPlaced_low _ _ _ (by omega)]
  have hfield (off n : Nat) (hn : off + n ≤ 64) :
      bar0 t (place + off) n = field (recordBytes e (timeNow s)) off n := by
    rw [ht, bar0_setCause_other _ _ (.inr (by omega)), bar0_setBar0_other _ _ _ _ _ _ (.inr (by omega)), ← hplace, ← hw]
    exact leNat_smReadList_part (by rw [length_recordBytes]; exact hn)
  obtain ⟨h0, h1, h2, h4, h5, h6, h8, h10, h12, h16⟩ := recordBytes_fields e (timeNow s)
  refine ⟨t, by rw [errorRecordWrite_eq h, hw, ht], by rw [ht]; rfl, ?_, (hfield 0 1 (by decide)).trans h0,
    (hfield 1 1 (by decide)).trans h1, (hfield 2 2 (by decide)).trans h2, (hfield 4 1 (by decide)).trans h4,
    (hfield 5 1 (by decide)).trans h5, (hfield 6 1 (by decide)).trans h6, (hfield 8 2 (by decide)).trans h8,
    (hfield 10 2 (by decide)).trans h10, (hfield 12 4 (by decide)).trans h12, (hfield 16 8 (by decide)).trans h16,
    ?_, by rw [ht]; rfl, by rw [ht, setCause_bytes, setBar0_mem_bytes, recordPlaced_bytes]⟩
  · rw [ht, bar0_setCause_other _ _ (.inr (by decide)), bar0_setBar0_same]
  · rw [ht]
    exact caused_setCause (by decide) (hlow _ _ (by decide)) (hlow _ _ (by decide)) (hlow _ _ (by decide)) rfl

/-! ### Kinds of errors that cross their limits (R442) -/

section
variable {s : State} {k : ErrorKind} {u : Nat}

theorem lastingFault_few (h : errorCount s k u < (errorLimit s k).1) : exec (.lastingFault k u) s = .next s := if_pos h

variable (h : (errorLimit s k).1 ≤ errorCount s k u)
include h

theorem lastingFault_retires (hk : k = .sramCorrectable ∨ k = .sramUncorrectable)
    (hw : (hoopOf s (u / 256)).withdrawn.getLsbD (u % 256) = false) :
    ∃ t, exec (.lastingFault k u) s = .next t ∧ (hoopOf t (u / 256)).retired.getLsbD (u % 256) = true ∧
      t.mem = s.mem ∧ t.strand = s.strand := by
  have hw' : (hoopOf (clearErrors k u s) (u / 256)).withdrawn.getLsbD (u % 256) = false := hw
  refine ⟨setHoop (u / 256) { hoopOf s (u / 256) with
    retired := (hoopOf s (u / 256)).retired ||| (1#256 <<< (u % 256)) } (clearErrors k u s), ?_, ?_, rfl, rfl⟩
  · rw [exec_lastingFault, execLastingFault, if_neg (Nat.not_lt.2 h)]
    rcases hk with rfl | rfl
    · exact if_neg (by rw [hw']; decide)
    · exact if_neg (by rw [hw']; decide)
  · rw [hoopOf_setHoop_same]
    exact getLsbD_setBit _ (Nat.mod_lt u (by decide))

/-- The list of pages with one more entry (R421). -/
def listPage (n u : Nat) (s : State) : State := setBar0 0x810 4 (n + 1) (setBar0 (0x2200 + 8 * n) 8 (u * 2 ^ 18) s)

theorem lastingFault_lists (hk : k = .hbmCorrectable ∨ k = .hbmUncorrectable) (hn : bar0 s 0x810 4 < 4096) :
    let n := bar0 s 0x810 4
    ∃ t, exec (.lastingFault k u) s = .next t ∧ bar0 t 0x810 4 = n + 1 ∧
      bar0 t (0x2200 + 8 * n) 8 = u * 2 ^ 18 % 2 ^ 64 ∧ Claims.Described s t ∧ t.strand = s.strand := by
  intro n
  refine ⟨describe (listPage n u) (clearErrors k u s), ?_, ?_, ?_, described_describe rfl, rfl⟩
  · rw [exec_lastingFault, execLastingFault, if_neg (Nat.not_lt.2 h)]
    rcases hk with rfl | rfl
    · exact if_neg (Nat.not_le.2 hn)
    · exact if_neg (Nat.not_le.2 hn)
  · rw [bar0_describe_other _ _ (.inr (by decide))]
    exact bar0_setBar0_of_lt (by omega)
  · rw [bar0_describe_other _ _ (.inr (by omega)), listPage, bar0_setBar0_other _ _ _ _ _ _ (.inr (by omega))]
    exact bar0_setBar0_same _ _ _ _

end

/-! ### Ports (R327, R448) -/

/-- The register of links with both bits of a port cleared. -/
def portCleared (port : Nat) (s : State) : Nat := bar0 s 0x38 4 &&& (2 ^ 32 - 1 - 2 ^ port - 2 ^ (port + 4))

theorem portCleared_lt (port : Nat) (s : State) : portCleared port s < 2 ^ 32 :=
  Nat.lt_of_le_of_lt Nat.and_le_left (bar0_lt s 0x38 4)

theorem portCleared_bits {port : Nat} (h : port < 4) (s : State) :
    portCleared port s / 2 ^ port % 2 = 0 ∧ portCleared port s / 2 ^ (port + 4) % 2 = 0 := by
  have hx : 2 ^ port + 2 ^ (port + 4) < 2 ^ 32 ∧ (2 ^ port + 2 ^ (port + 4)).testBit port = true ∧
      (2 ^ port + 2 ^ (port + 4)).testBit (port + 4) = true := by
    revert h port
    decide
  obtain ⟨hlt, h0, h4⟩ := hx
  unfold portCleared
  rw [Nat.sub_sub _ (2 ^ port)]
  exact ⟨bit_and_mask hlt h0, bit_and_mask hlt h4⟩

/-- The register with both bits of a port clear, once the port is up, at half rate (b = 1) or not. -/
theorem port_up_bits {y port b : Nat} (hb : b ≤ 1) (h0 : y / 2 ^ port % 2 = 0) (h4 : y / 2 ^ (port + 4) % 2 = 0) :
    (y + 2 ^ port + b * 2 ^ (port + 4)) / 2 ^ port % 2 = 1 ∧
      (y + 2 ^ port + b * 2 ^ (port + 4)) / 2 ^ (port + 4) % 2 = b := by
  have hp : 0 < 2 ^ port := Nat.two_pow_pos port
  have hq : (y + 2 ^ port + b * 2 ^ (port + 4)) / 2 ^ port = y / 2 ^ port + (1 + 16 * b) := by
    have hs : y + 2 ^ port + b * 2 ^ (port + 4) = y + 2 ^ port * (1 + 16 * b) := by rw [Nat.pow_add]; ring
    rw [hs, Nat.add_mul_div_left _ _ hp]
  rw [Nat.pow_add, ← Nat.div_div_eq_div_mul] at h4 ⊢
  rw [← Nat.pow_add, hq]
  omega

theorem port_up_lt {y port b : Nat} (h : port < 4) (hb : b ≤ 1) (hy : y < 2 ^ 32) (h0 : y / 2 ^ port % 2 = 0)
    (h4 : y / 2 ^ (port + 4) % 2 = 0) : y + 2 ^ port + b * 2 ^ (port + 4) < 2 ^ 32 := by
  obtain rfl | rfl | rfl | rfl : port = 0 ∨ port = 1 ∨ port = 2 ∨ port = 3 := by omega
  all_goals omega

theorem portDown_eq (port w rate : Nat) (s : State) : portDown port w rate s =
    addErr { errRec 8 2 0 (leBytes 1 w ++ leBytes 2 rate) with channel := port }
      (describe (setBar0 0x38 4 (portCleared port s)) s) := rfl

theorem portDown_down {port : Nat} (h : port < 4) (w rate : Nat) {s u : State} (hm : u.mem = s.mem)
    (hr : u.hub.records = s.hub.records) :
    bar0 (portDown port w rate u) 0x38 4 / 2 ^ port % 2 = 0 ∧ Claims.Recorded s 8 2 (portDown port w rate u) ∧
      Claims.Described s (portDown port w rate u) := by
  rw [portDown_eq]
  refine ⟨?_, recorded_addErr _ (by simp [hr]), described_addErr _ (described_describe ?_)⟩
  · rw [bar0_addErr, bar0_describe_other _ _ (.inr (by decide)), bar0_setBar0_of_lt (portCleared_lt port u)]
    exact (portCleared_bits h u).1
  · unfold bar0
    rw [hm]

theorem lastingFault_link {s : State} {u : Nat} (h : (errorLimit s .link).1 ≤ errorCount s .link u) (hu : u < 4) :
    ∃ t, exec (.lastingFault .link u) s = .next t ∧ bar0 t 0x38 4 / 2 ^ u % 2 = 0 ∧
      Claims.Recorded s 8 2 t ∧ Claims.Described s t := by
  refine ⟨portDown u 0 0 (clearErrors .link u s), ?_, portDown_down hu 0 0 rfl rfl⟩
  rw [exec_lastingFault, execLastingFault, if_neg (Nat.not_lt.2 h)]
  exact if_pos hu

theorem linkTraining_noPort {port : Nat} (h : 4 ≤ port) (w rate : Nat) (s : State) :
    exec (.linkTraining port w rate) s = .next s := if_pos h

/-- Whether the port was up. -/
def portWas (port : Nat) (s : State) : Bool := natBits (bar0 s 0x38 4) port port = 1

/-- The error of a port, if it counts. -/
def linkCounted (counts : Bool) (port : Nat) (s : State) : State := if counts then countError .link port s else s

@[simp] theorem linkCounted_mem (counts : Bool) (port : Nat) (s : State) :
    (linkCounted counts port s).mem = s.mem := by cases counts <;> rfl
@[simp] theorem linkCounted_strand (counts : Bool) (port : Nat) (s : State) :
    (linkCounted counts port s).strand = s.strand := by cases counts <;> rfl
@[simp] theorem linkCounted_records (counts : Bool) (port : Nat) (s : State) :
    (linkCounted counts port s).hub.records = s.hub.records := by cases counts <;> rfl

section
variable {port : Nat} (hp : port < 4) (s : State)
include hp

/-- A port that comes up, at the full rate (b = 0) or at half of it. -/
theorem describe_portUp {b : Nat} (hb : b ≤ 1) {u : State} (hu : u.mem = s.mem) :
    let t := describe (setBar0 0x38 4 (portCleared port s + 2 ^ port + b * 2 ^ (port + 4))) u
    Claims.Described s t ∧ bar0 t 0x38 4 / 2 ^ port % 2 = 1 ∧ bar0 t 0x38 4 / 2 ^ (port + 4) % 2 = b := by
  obtain ⟨h0, h4⟩ := portCleared_bits hp s
  refine ⟨described_describe (by unfold bar0; rw [hu]), ?_⟩
  rw [bar0_describe_other _ _ (.inr (by decide)),
    bar0_setBar0_of_lt (port_up_lt hp hb (portCleared_lt port s) h0 h4)]
  exact port_up_bits hb h0 h4

theorem linkTraining_full : ∃ t, exec (.linkTraining port 16 128) s = .next t ∧ Claims.Described s t ∧
    t.strand = s.strand ∧ bar0 t 0x38 4 / 2 ^ port % 2 = 1 ∧ bar0 t 0x38 4 / 2 ^ (port + 4) % 2 = 0 ∧
    t.hub.records = s.hub.records := by
  obtain ⟨hd, h0, h4⟩ := describe_portUp hp s (b := 0) (by decide) (linkCounted_mem (portWas port s || false) port s)
  rw [Nat.zero_mul] at hd h0 h4
  exact ⟨describe (setBar0 0x38 4 (portCleared port s + 2 ^ port + 0)) (linkCounted (portWas port s || false) port s),
    if_neg (Nat.not_le.2 hp), hd, by simp, h0, h4, by simp⟩

theorem linkTraining_half : ∃ t, exec (.linkTraining port 16 64) s = .next t ∧ Claims.Described s t ∧
    t.strand = s.strand ∧ bar0 t 0x38 4 / 2 ^ port % 2 = 1 ∧ bar0 t 0x38 4 / 2 ^ (port + 4) % 2 = 1 ∧
    Claims.Recorded s 8 1 t := by
  obtain ⟨hd, h0, h4⟩ := describe_portUp hp s (b := 1) (by decide) (linkCounted_mem (portWas port s || true) port s)
  rw [Nat.one_mul] at hd h0 h4
  obtain ⟨u, hu⟩ : ∃ u, u = linkCounted (portWas port s || true) port s := ⟨_, rfl⟩
  rw [← hu] at hd h0 h4
  refine ⟨addErr { errRec 8 1 0 (leBytes 1 16 ++ leBytes 2 64) with channel := port, events := errorCount u .link port }
    (describe (setBar0 0x38 4 (portCleared port s + 2 ^ port + 2 ^ (port + 4))) u), ?_, described_addErr _ hd,
    by simp [hu], h0, h4, recorded_addErr _ (by simp [hu])⟩
  rw [hu]
  exact if_neg (Nat.not_le.2 hp)

theorem linkTraining_down (rate : Nat) : ∃ t, exec (.linkTraining port 0 rate) s = .next t ∧ Claims.Described s t ∧
    t.strand = s.strand ∧ bar0 t 0x38 4 / 2 ^ port % 2 = 0 ∧ Claims.Recorded s 8 2 t := by
  obtain ⟨h0, hrec, hd⟩ := portDown_down hp 0 rate (linkCounted_mem (portWas port s || false) port s)
    (linkCounted_records _ _ _)
  exact ⟨portDown port 0 rate (linkCounted (portWas port s || false) port s), if_neg (Nat.not_le.2 hp), hd,
    by simp [portDown_eq], h0, hrec⟩

theorem linkTraining_fails {w rate : Nat} (hw : w ≠ 0) (hn : ¬ (w = 16 ∧ (rate = 128 ∨ rate = 64))) :
    ∃ t, exec (.linkTraining port w rate) s = .next t ∧ Claims.Described s t ∧
      t.strand = s.strand ∧ bar0 t 0x38 4 / 2 ^ port % 2 = 0 ∧ Claims.Recorded s 8 1 t := by
  have hfull : (decide (w = 16) && decide (rate = 128)) = false := by
    rw [← Bool.decide_and]
    exact decide_eq_false fun h => hn ⟨h.1, .inl h.2⟩
  have hslow : (decide (w = 16) && decide (rate = 64)) = false := by
    rw [← Bool.decide_and]
    exact decide_eq_false fun h => hn ⟨h.1, .inr h.2⟩
  obtain ⟨u, hu⟩ : ∃ u, u = linkCounted (portWas port s || false) port s := ⟨_, rfl⟩
  have hm : u.mem = s.mem := by rw [hu, linkCounted_mem]
  refine ⟨addErr { errRec 8 1 0 (leBytes 1 w ++ leBytes 2 rate) with channel := port }
    (describe (setBar0 0x38 4 (portCleared port s)) u), ?_, described_addErr _ (described_describe ?_), by simp [hu], ?_,
    recorded_addErr _ (by simp [hu])⟩
  · rw [exec_linkTraining, execLinkTraining, if_neg (Nat.not_le.2 hp), hu]
    simp only [hfull, hslow, if_neg hw]
    rfl
  · unfold bar0
    rw [hm]
  · rw [bar0_addErr, bar0_describe_other _ _ (.inr (by decide)), bar0_setBar0_of_lt (portCleared_lt port s)]
    exact (portCleared_bits hp s).1

/-- A training ends in one of four ways: at the full rate, at half of it, down, or not at a rate of the port's. -/
theorem linkTraining_trains (w rate : Nat) : ∃ t, exec (.linkTraining port w rate) s = .next t ∧
    Claims.Described s t ∧ t.strand = s.strand ∧
    (w = 16 → rate = 128 → bar0 t 0x38 4 / 2 ^ port % 2 = 1 ∧ bar0 t 0x38 4 / 2 ^ (port + 4) % 2 = 0 ∧
      t.hub.records = s.hub.records) ∧
    (w = 16 → rate = 64 → bar0 t 0x38 4 / 2 ^ port % 2 = 1 ∧ bar0 t 0x38 4 / 2 ^ (port + 4) % 2 = 1 ∧
      Claims.Recorded s 8 1 t) ∧
    (w = 0 → bar0 t 0x38 4 / 2 ^ port % 2 = 0 ∧ Claims.Recorded s 8 2 t) ∧
    (w ≠ 0 → ¬ (w = 16 ∧ (rate = 128 ∨ rate = 64)) → bar0 t 0x38 4 / 2 ^ port % 2 = 0 ∧ Claims.Recorded s 8 1 t) := by
  by_cases hn : w ≠ 0 ∧ ¬ (w = 16 ∧ (rate = 128 ∨ rate = 64))
  · obtain ⟨t, he, hd, hs, hb⟩ := linkTraining_fails hp s hn.1 hn.2
    exact ⟨t, he, hd, hs, fun h h' => absurd ⟨h, .inl h'⟩ hn.2, fun h h' => absurd ⟨h, .inr h'⟩ hn.2,
      fun h => absurd h hn.1, fun _ _ => hb⟩
  · obtain rfl | ⟨rfl, rfl | rfl⟩ : w = 0 ∨ w = 16 ∧ (rate = 128 ∨ rate = 64) := by omega
    · obtain ⟨t, he, hd, hs, hb⟩ := linkTraining_down hp s rate
      exact ⟨t, he, hd, hs, fun h => absurd h (by decide), fun h => absurd h (by decide), fun _ => hb,
        fun h => absurd rfl h⟩
    · obtain ⟨t, he, hd, hs, hb⟩ := linkTraining_full hp s
      exact ⟨t, he, hd, hs, fun _ _ => hb, fun _ h => absurd h (by decide), fun h => absurd h (by decide),
        fun _ h => absurd ⟨rfl, .inl rfl⟩ h⟩
    · obtain ⟨t, he, hd, hs, hb⟩ := linkTraining_half hp s
      exact ⟨t, he, hd, hs, fun _ h => absurd h (by decide), fun _ _ => hb, fun h => absurd h (by decide),
        fun _ h => absurd ⟨rfl, .inr rfl⟩ h⟩

end

end Sys2Proof.Machine

/-! ## Retired arrays (R443, R444) -/

namespace Sys2Proof.Machine

/-- The hoop whose array a spare has replaced. -/
def spareTaken (a : Nat) (hp : Hoop) : Hoop :=
  { hp with retired := hp.retired &&& ~~~(1#256 <<< a), replacing := hp.replacing &&& ~~~(1#256 <<< a)
            spares := hp.spares - 1 }

/-- The word of a hoop in the description with a number of spares (R421). -/
def sparesWord (w n : Nat) : Nat := w - natBits w 9 6 * 2 ^ 6 + n * 2 ^ 6

theorem sparesWord_spares {w n : Nat} (hn : n < 16) : sparesWord w n / 2 ^ 6 % 16 = n := by
  unfold sparesWord natBits
  omega

theorem sparesWord_lt {w n : Nat} (hw : w < 2 ^ 64) (hn : n < 16) : sparesWord w n < 2 ^ 64 := by
  unfold sparesWord natBits
  omega

/-- A hoop without an array: withdrawn, no longer retired, and its lane block in no grant. -/
def arrayLost (a : Nat) (hp : Hoop) : Hoop :=
  { hp with withdrawn := hp.withdrawn ||| (1#256 <<< a), retired := hp.retired &&& ~~~(1#256 <<< a)
            grants := hp.grants.map fun g => { g with lanes := g.lanes &&& ~~~(1#32 <<< (a / 8)) } }

/-- The part of the description that a withdrawn array changes: the word of its hoop, its bit and the arrays left. -/
def describeArray (h a w byte : Nat) (s : State) : State :=
  setBar0 (0x80 + 8 * h) 8 w (setBar0 (0x200 + 32 * h + a / 8) 1 (byte ||| 2 ^ (a % 8))
    (setBar0 0x808 8 (bar0 s 0x808 8 - 2 ^ 17) s))

theorem describeArray_frame (h a w byte : Nat) (s : State) : (describeArray h a w byte s).hoops = s.hoops ∧
    (describeArray h a w byte s).hub = s.hub ∧ (describeArray h a w byte s).strand = s.strand ∧
    (describeArray h a w byte s).mem.bytes = s.mem.bytes := by
  unfold describeArray
  refine ⟨?_, ?_, ?_, ?_⟩
  · rw [setBar0_hoops, setBar0_hoops, setBar0_hoops]
  · rw [setBar0_hub, setBar0_hub, setBar0_hub]
  · rw [setBar0_strand, setBar0_strand, setBar0_strand]
  · rw [setBar0_mem_bytes, setBar0_mem_bytes, setBar0_mem_bytes]

theorem withdraw_eq (h a : Nat) (s : State) : ∃ e w byte, e.typ = 5 ∧ e.severity = 2 ∧ withdraw h a s =
    addErr e (describe (describeArray h a w byte) (setHoop h (arrayLost a (hoopOf s h)) s)) :=
  ⟨_, _, _, ofHoop_typ _ _, ofHoop_severity _ _, rfl⟩

section
variable {h a : Nat} (hh : h < 48) (ha : a < 256) {s : State}

/-! ### Spares (R443) -/

theorem spareReplacement_idle (hn : (hoopOf s h).retired.getLsbD a = false ∨ (hoopOf s h).replacing.getLsbD a = true ∨
    (hoopOf s h).spares = 0) : exec (.spareReplacement h a) s = .next s := by
  refine if_pos ?_
  rcases hn with hn | hn | hn <;> simp [hn]

theorem spareRemap_idle (hn : (hoopOf s h).replacing.getLsbD a = false ∨ (hoopOf s h).spares = 0) :
    exec (.spareRemap h a) s = .next s := by
  refine if_pos ?_
  rcases hn with hn | hn <;> simp [hn]

theorem arrayWithdraw_idle (hn : (hoopOf s h).retired.getLsbD a = false ∨ (hoopOf s h).spares ≠ 0) :
    exec (.arrayWithdraw h a) s = .next s := by
  refine if_pos ?_
  rcases hn with hn | hn <;> simp [hn]

section
include hh ha

theorem spareReplacement_begins (hr : (hoopOf s h).retired.getLsbD a = true)
    (hp : (hoopOf s h).replacing.getLsbD a = false) (hs : (hoopOf s h).spares ≠ 0) :
    ∃ t, exec (.spareReplacement h a) s = .next t ∧ (hoopOf t h).replacing.getLsbD a = true ∧
      t = { s with hoops := t.hoops } := by
  refine ⟨setHoop h { hoopOf s h with replacing := (hoopOf s h).replacing ||| (1#256 <<< a) } s, if_neg ?_, ?_, rfl⟩
  · rw [hr, hp]
    simp [hs, hh, ha]
  · rw [hoopOf_setHoop_same]
    exact getLsbD_setBit _ ha

theorem spareRemap_takes (hr : (hoopOf s h).replacing.getLsbD a = true) (h1 : 1 ≤ (hoopOf s h).spares)
    (h8 : (hoopOf s h).spares ≤ 8) : ∃ t, exec (.spareRemap h a) s = .next t ∧
      (hoopOf t h).retired.getLsbD a = false ∧ (hoopOf t h).replacing.getLsbD a = false ∧
      (hoopOf t h).spares = (hoopOf s h).spares - 1 ∧
      bar0 t (0x80 + 8 * h) 8 / 2 ^ 6 % 16 = (hoopOf s h).spares - 1 ∧ Claims.Recorded s 4 2 t ∧
      Claims.Described s t ∧ t.mem.bytes = s.mem.bytes ∧ t.mem.poison = s.mem.poison ∧ t.strand = s.strand := by
  obtain ⟨hp, hhp⟩ : ∃ hp, hoopOf s h = hp := ⟨_, rfl⟩
  rw [hhp] at hr h1 h8 ⊢
  obtain ⟨u, hu⟩ : ∃ u, u = setHoop h (spareTaken a hp) s := ⟨_, rfl⟩
  obtain ⟨v, hv⟩ : ∃ v, v = sparesWord (bar0 u (0x80 + 8 * h) 8) (hp.spares - 1) := ⟨_, rfl⟩
  obtain ⟨t, ht⟩ : ∃ t, t = describe (setBar0 (0x80 + 8 * h) 8 v) u := ⟨_, rfl⟩
  obtain ⟨e, he, htyp, hsev⟩ : ∃ e, e = { (errRec 4 2 0 (leBytes 1 (8 - hp.spares))).ofHoop h with array := a } ∧
      e.typ = 4 ∧ e.severity = 2 := ⟨_, rfl, ofHoop_typ _ _, ofHoop_severity _ _⟩
  have hhoop : hoopOf (addErr e t) h = spareTaken a hp := by
    have : (addErr e t).hoops = u.hoops := by simp [ht]
    unfold hoopOf
    rw [this, hu]
    exact hoopOf_setHoop_same _ _ _
  refine ⟨addErr e t, ?_, ?_, ?_, ?_, ?_, ?_, described_addErr _ ?_, by simp [ht, hu], by simp [ht, hu], by simp [ht, hu]⟩
  · rw [exec_spareRemap, execSpareRemap, hhp, if_neg (by simp [hr, hh, ha]; omega), he, ht, hv, hu]
    rfl
  · rw [hhoop]
    exact getLsbD_clearBit _
  · rw [hhoop]
    exact getLsbD_clearBit _
  · rw [hhoop]
    rfl
  · rw [bar0_addErr, ht, bar0_describe_other _ _ (.inr (by omega)), hv,
      bar0_setBar0_of_lt (n := 8) (sparesWord_lt (bar0_lt _ _ 8) (by omega)), sparesWord_spares (by omega)]
  · rw [← htyp, ← hsev]
    exact recorded_addErr _ (by simp [ht, hu])
  · rw [ht]
    exact described_describe (by rw [hu]; rfl)

/-! ### Lane blocks that strands hold, and withdrawal (R444) -/

theorem arrayWithdraw_eq (hr : (hoopOf s h).retired.getLsbD a = true) (hs : (hoopOf s h).spares = 0) :
    exec (.arrayWithdraw h a) s =
      if (allStrands s).any fun t => resident t && t.arrays.any fun x => x.1 = h && x.2 / 8 = a / 8 then
        .next (reclaimBlock h (a / 8) s)
      else if (hoopOf s h).grants.toList.any fun g => g.sram.getLsbD a then .next s
      else .next (withdraw h a s) := by
  rw [exec_arrayWithdraw, execArrayWithdraw]
  exact if_neg (by simp [hr, hs, hh, ha])

/-- The grant that the loss of a lane block leaves to a strand. -/
def withoutBlock (h b : Nat) (t : Strand) : Strand :=
  { t with pendingGrant := some ((t.pendingGrant.getD t.arrays).filter fun x => !(x.1 = h && x.2 / 8 = b)) }

theorem arrayWithdraw_reclaims (hr : (hoopOf s h).retired.getLsbD a = true) (hs : (hoopOf s h).spares = 0)
    {i : StrandId} {t : Strand} {b : Nat} (hf : findStrand s i = some t) (hres : resident t = true)
    (hb : (h, b) ∈ t.arrays) (hba : b / 8 = a / 8) (hg : t.pendingGrant = none) :
    ∃ u, exec (.arrayWithdraw h a) s = .next u ∧ u.mem = s.mem ∧ u.hoops = s.hoops ∧ findStrand u i = some { t with
      pendingGrant := some (t.arrays.filter fun x => ¬ (x.1 = h ∧ x.2 / 8 = a / 8)) } := by
  obtain ⟨hm, -⟩ := mem_of_findStrand hf
  have hany : (t.arrays.any fun x => x.1 = h && x.2 / 8 = a / 8) = true :=
    List.any_eq_true.2 ⟨(h, b), hb, by simp [hba]⟩
  refine ⟨reclaimBlock h (a / 8) s, ?_, rfl, rfl, ?_⟩
  · rw [arrayWithdraw_eq hh ha hr hs]
    exact if_pos (List.any_eq_true.2 ⟨t, hm, by rw [hres, hany]; rfl⟩)
  · refine (findStrand_updStrands (f := withoutBlock h (a / 8)) (fun _ => rfl) (fun _ => rfl) s i).trans ?_
    rw [hf, Option.map_some, if_pos]
    · simp only [withoutBlock, hg, Option.getD_none, decide_not, Bool.decide_and]
    · rw [(mem_allStrands.1 hm).2, hres, hany]
      rfl

section
variable (hr : (hoopOf s h).retired.getLsbD a = true) (hs : (hoopOf s h).spares = 0)
  (hfree : ∀ t ∈ s.strand :: s.pool, ∀ x ∈ t.arrays, ¬ (x.1 = h ∧ x.2 / 8 = a / 8))
include hr hs hfree

/-- No strand holds the lane block. -/
theorem arrayWithdraw_unheld : exec (.arrayWithdraw h a) s =
    if (hoopOf s h).grants.toList.any fun g => g.sram.getLsbD a then .next s else .next (withdraw h a s) := by
  rw [arrayWithdraw_eq hh ha hr hs, if_neg]
  intro hany
  obtain ⟨t, ht, hp⟩ := List.any_eq_true.1 hany
  obtain ⟨x, hx, hxp⟩ := List.any_eq_true.1 (Bool.and_eq_true _ _ ▸ hp).2
  exact hfree t (mem_allStrands.1 ht).1 x hx (by simpa using hxp)

theorem arrayWithdraw_granted (hg : ∃ g ∈ (hoopOf s h).grants.toList, g.sram.getLsbD a = true) :
    exec (.arrayWithdraw h a) s = .next s := by
  rw [arrayWithdraw_unheld hh ha hr hs hfree, if_pos (List.any_eq_true.2 hg)]

theorem arrayWithdraw_withdraws (hg : ∀ g ∈ (hoopOf s h).grants.toList, g.sram.getLsbD a = false) :
    ∃ t, exec (.arrayWithdraw h a) s = .next t ∧ (hoopOf t h).withdrawn.getLsbD a = true ∧
      (hoopOf t h).retired.getLsbD a = false ∧ (∀ g ∈ (hoopOf t h).grants.toList, g.lanes.getLsbD (a / 8) = false) ∧
      Claims.Recorded s 5 2 t ∧ Claims.Described s t ∧ t.strand = s.strand ∧ t.mem.bytes = s.mem.bytes := by
  obtain ⟨e, w, byte, htyp, hsev, heq⟩ := withdraw_eq h a s
  obtain ⟨u, hu⟩ : ∃ u, u = setHoop h (arrayLost a (hoopOf s h)) s := ⟨_, rfl⟩
  rw [← hu] at heq
  obtain ⟨hhoops, hhub, hstrand, hbytes⟩ := describeArray_frame h a w byte u
  have hhoop : hoopOf (withdraw h a s) h = arrayLost a (hoopOf s h) := by
    unfold hoopOf
    rw [heq, addErr_hoops, describe_hoops, hhoops, hu]
    exact hoopOf_setHoop_same _ _ _
  refine ⟨withdraw h a s, ?_, ?_, ?_, ?_, ?_, ?_, by rw [heq, addErr_strand, describe_strand, hstrand, hu]; rfl,
    by rw [heq, addErr_mem, describe_bytes, hbytes, hu]; rfl⟩
  · rw [arrayWithdraw_unheld hh ha hr hs hfree, if_neg]
    intro hany
    obtain ⟨g, hm, hgs⟩ := List.any_eq_true.1 hany
    exact Bool.noConfusion (hgs.symm.trans (hg g hm))
  · rw [hhoop]
    exact getLsbD_setBit _ ha
  · rw [hhoop]
    exact getLsbD_clearBit _
  · rw [hhoop]
    intro g hm
    obtain ⟨g0, -, rfl⟩ := List.mem_map.1 (Vector.toList_map ▸ hm)
    exact getLsbD_clearBit _
  · rw [heq, ← htyp, ← hsev]
    exact recorded_addErr _ (by rw [describe_hub, hhub, hu]; rfl)
  · rw [heq]
    exact described_addErr _ (described_describe (by rw [hu]; rfl))

end
end
end

end Sys2Proof.Machine

/-! ## Dies that are fenced off (R445) -/

namespace Sys2Proof.Machine

/-- What is kept of a map by a test of its keys. -/
theorem smRead_filter {α : Type} (d : α) (p : Nat → Bool) (m : SMap α) (k : Nat) :
    smRead d (m.filter fun e => p e.1) k = if p k then smRead d m k else d := by
  unfold smRead
  induction m with
  | nil => simp [smGet]
  | cons e m ih =>
    obtain ⟨j, v⟩ := e
    by_cases hj : j = k
    · subst hj
      cases hp : p j <;> simp_all [smGet]
    · cases hp : p j <;> simp_all [smGet]

/-- The strands that are led from a die and can still be stopped or saved. -/
def ledFrom (die : Nat) (s : State) : List Strand :=
  (allStrands s).filter fun t => resident t && onDie die t.hoop && t.state ≠ .faulted

theorem mem_ledFrom {die : Nat} {s : State} {t : Strand} (hm : t ∈ allStrands s) (hs : Claims.InSlot t)
    (hd : t.hoop / 12 = die) : t ∈ ledFrom die s := by
  refine List.mem_filter.2 ⟨hm, ?_⟩
  have hf : t.state ≠ .faulted := by rcases hs with h | h | h | h <;> rw [h] <;> decide
  simp [resident_of_InSlot hs, onDie, hd, hf]

theorem dieFence_idle {die : Nat} {s : State} (h : 4 ≤ die ∨ s.hub.fenced.getLsbD die = true) :
    exec (.dieFence die) s = .next s := if_pos h

section
variable {die : Nat} {s : State} (hd : die < 4) (hn : s.hub.fenced.getLsbD die = false)
include hd hn

theorem dieFence_eq : exec (.dieFence die) s =
    if !s.hub.fencing.getLsbD die then
      .next (requestStops ((ledFrom die s).filter stoppable)
        { s with hub := { s.hub with fencing := s.hub.fencing ||| (1#4 <<< die) } })
    else if (ledFrom die s).all fun t => t.state = .saving && t.saveStop then .next (fenceDie die s)
    else .next s := by
  refine if_neg ?_
  rw [hn]
  rintro (h | h)
  · exact Nat.not_le.2 hd h
  · cases h

/-- A die begins to be fenced off: its strands are asked to stop. -/
theorem dieFence_begins (hf : s.hub.fencing.getLsbD die = false) :
    ∃ t, exec (.dieFence die) s = .next t ∧ t.hub.fencing.getLsbD die = true ∧ t.mem = s.mem ∧
      ∀ i t0, findStrand s i = some t0 → Claims.InSlot t0 → t0.hoop / 12 = die →
        findStrand t i = some (Claims.requested t0) := by
  obtain ⟨u, hu⟩ : ∃ u : State, u = { s with hub := { s.hub with fencing := s.hub.fencing ||| (1#4 <<< die) } } :=
    ⟨_, rfl⟩
  obtain ⟨hhub, hmem⟩ := requestStops_frame ((ledFrom die s).filter stoppable) u
  refine ⟨requestStops ((ledFrom die s).filter stoppable) u, ?_, ?_, ?_, fun i t0 hfind hslot hdie => ?_⟩
  · rw [dieFence_eq hd hn, hf, hu]
    rfl
  · rw [hhub, hu]
    exact getLsbD_setBit _ hd
  · rw [hmem, hu]
  · have hfu : findStrand u i = some t0 := by rw [hu]; exact hfind
    exact findStrand_requestStops_mem hfu (List.mem_filter.2
      ⟨mem_ledFrom (mem_of_findStrand hfind).1 hslot hdie, (stoppable_iff t0).2 hslot⟩)

/-- A die is not fenced off while a strand stands in a slot of it. -/
theorem dieFence_waits (hf : s.hub.fencing.getLsbD die = true)
    (ht : ∃ t0 ∈ s.strand :: s.pool, t0.node = none ∧ Claims.InSlot t0 ∧ t0.hoop / 12 = die) :
    exec (.dieFence die) s = .next s := by
  obtain ⟨t0, hm, hnode, hslot, hdie⟩ := ht
  have hall : ((ledFrom die s).all fun t => t.state = .saving && t.saveStop) = false := by
    refine Bool.eq_false_iff.2 fun h => ?_
    have hsav := List.all_eq_true.1 h t0
      (mem_ledFrom (mem_allStrands.2 ⟨hm, isStrand_of_InSlot hslot hnode⟩) hslot hdie)
    rcases hslot with hs | hs | hs | hs <;> simp [hs] at hsav
  rw [dieFence_eq hd hn, hf, hall]
  rfl

end

/-! ### What a die takes with it -/

/-- A byte of memory lies in the SRAM of a die (R8, R128). -/
def lostWith (die pa : Nat) : Bool := match regionOf pa with
  | .sram gs => onDie die (gs / 2 ^ 25)
  | _ => false

theorem regionOf_eq_sram {pa gs : Nat} :
    regionOf pa = .sram gs ↔ 2 ^ 41 ≤ pa ∧ pa < 2 ^ 41 + 2 ^ 31 ∧ pa - 2 ^ 41 = gs := by
  unfold regionOf
  split_ifs <;> simp only [Region.sram.injEq, false_iff] <;> omega

theorem lostWith_iff {die : Nat} (hd : die < 4) (pa : Nat) : lostWith die pa = true ↔ Claims.OnDie die pa := by
  unfold lostWith Claims.OnDie onDie
  split
  · next gs hr =>
    obtain ⟨h1, h2, rfl⟩ := regionOf_eq_sram.1 hr
    rw [decide_eq_true_iff]
    omega
  · next hr =>
    refine ⟨fun h => (Bool.false_ne_true h).elim, fun h => ?_⟩
    exact (hr _ (regionOf_eq_sram.2 ⟨by omega, by omega, rfl⟩)).elim

/-- The strands whose saves have stopped on the die are faulted. -/
def faultStuck (die : Nat) (s : State) : State :=
  ((allStrands s).filter fun t => resident t && onDie die t.hoop && t.state = .saving).foldl (init := s) fun s t =>
    saveError t 3 0 (faultedRecord t (setRunState t.id .faulted 0 s))

/-- The node commands of the die are placed elsewhere. -/
def moveNodes (die : Nat) (s : State) : State :=
  updStrands (fun t => t.node.isSome && t.state = .running && onDie die t.hoop) (moveNode s die) s

/-- The arrays of the die become reduced grants of the strands that hold them. -/
def reclaimDie (die : Nat) (s : State) : State :=
  updStrands (fun t => isStrand t && resident t && t.arrays.any fun x => onDie die x.1)
    (fun t => { t with pendingGrant := some ((t.pendingGrant.getD t.arrays).filter fun x => !onDie die x.1) }) s

/-- The contexts with SRAM grants on the die. -/
def dieHolders (die : Nat) (s : State) : List (BitVec 12) :=
  (((List.range 48).filter (onDie die)).flatMap fun h =>
    ((hoopOf s h).grants.toList.filter fun g => g.enabled && g.sram ≠ 0).map SlotGrant.asid).eraseDups

/-- The SRAM of the die is gone, and the die is fenced. -/
def loseDie (die : Nat) (s : State) : State :=
  { s with
    mem := { s.mem with bytes := s.mem.bytes.filter fun e => !lostWith die e.1
                        poison := s.mem.poison.filter fun e => !lostWith die (8 * e.1) }
    hub := { s.hub with fenced := s.hub.fenced ||| (1#4 <<< die), fencing := s.hub.fencing &&& ~~~(1#4 <<< die) } }

/-- The hoops of a die offer no lane blocks. -/
def describeHoops (die : Nat) (s : State) : State :=
  ((List.range 48).filter (onDie die)).foldl (init := s) fun s h =>
    setBar0 (0x80 + 8 * h) 1 (bar0 s (0x80 + 8 * h) 1 &&& 0xC0) s

/-- The arrays that a die still offers. -/
def dieArrays (die : Nat) (s : State) : Nat :=
  (((List.range 48).filter (onDie die)).map fun h => 256 - (bitsOf (hoopOf s h).withdrawn).length).sum

/-- The part of the description that a fenced die changes (R421, R445). -/
def describeDie (die : Nat) (s : State) : State :=
  let hoops := bar0 s 0x28 8 &&& (2 ^ 64 - 1 - (2 ^ 12 - 1) * 2 ^ (12 * die))
  let walker := bar0 s (0x40 + 4 * die) 4 ||| 2 ^ 31
  let u := describeHoops die s
  setBar0 0x808 8 (bar0 u 0x808 8 - 2 ^ 17 * dieArrays die s) <|
    setBar0 0x28 8 hoops (setBar0 0x30 1 u.hub.fenced.toNat (setBar0 (0x40 + 4 * die) 4 walker u))

/-- A fenced die is recorded, with what the device still offers (R448). -/
def recordDie (die : Nat) (s : State) : State :=
  addErr { errRec 6 3 0 (leBytes 1 0) with unit := die } (addErr (errRec 5 2 0 (capacityDetail s)) s)

/-- With its last die the device leaves its domain (R329). -/
def leaveWithLast (s : State) : State := if s.hub.fenced = 15 then announceLeave s else s

theorem fenceDie_eq (die : Nat) (s : State) :
    let u := reclaimDie die (moveNodes die (faultStuck die s))
    fenceDie die s = leaveWithLast ((dieHolders die u).foldl (fun s a => cancelJobs a s)
      (recordDie die (describe (describeDie die) (loseDie die u)))) := rfl

theorem announce_frame (k : Nat) (devices : List Nat) (s : State) :
    (announce k devices s).hub = s.hub ∧ (announce k devices s).mem = s.mem := by
  unfold announce
  split
  · exact ⟨rfl, rfl⟩
  · refine foldl_keeps (fun t : State => t.hub = s.hub ∧ t.mem = s.mem) _ (fun t d h => ?_) _ s ⟨rfl, rfl⟩
    exact h

theorem leaveWithLast_frame (s : State) : (leaveWithLast s).hub = s.hub ∧ (leaveWithLast s).mem = s.mem := by
  unfold leaveWithLast
  split
  · exact announce_frame 5 _ s
  · exact ⟨rfl, rfl⟩

/-- The word of each hoop of the die is all that is changed. -/
theorem describeHoops_frame (die : Nat) (s : State) :
    (describeHoops die s).hub = s.hub ∧ (describeHoops die s).mem.bytes = s.mem.bytes ∧
      ∀ j k, j + k ≤ 0x80 ∨ 0x200 ≤ j → bar0 (describeHoops die s) j k = bar0 s j k := by
  refine List.foldlRecOn (motive := fun t : State => t.hub = s.hub ∧ t.mem.bytes = s.mem.bytes ∧
    ∀ j k, j + k ≤ 0x80 ∨ 0x200 ≤ j → bar0 t j k = bar0 s j k) _ _ ⟨rfl, rfl, fun _ _ _ => rfl⟩ ?_
  rintro t ⟨hhub, hbytes, hbar⟩ h hm
  have hh : h < 48 := List.mem_range.1 (List.mem_filter.1 hm).1
  refine ⟨by rw [setBar0_hub, hhub], by rw [setBar0_mem_bytes, hbytes], fun j k hj => ?_⟩
  rw [bar0_setBar0_other _ _ _ _ _ _ (by omega), hbar j k hj]

theorem describeDie_frame (die : Nat) (s : State) :
    (describeDie die s).hub = s.hub ∧ (describeDie die s).mem.bytes = s.mem.bytes := by
  obtain ⟨hhub, hbytes, -⟩ := describeHoops_frame die s
  unfold describeDie
  refine ⟨?_, ?_⟩
  · rw [setBar0_hub, setBar0_hub, setBar0_hub, setBar0_hub, hhub]
  · rw [setBar0_mem_bytes, setBar0_mem_bytes, setBar0_mem_bytes, setBar0_mem_bytes, hbytes]

/-- The arrays that are left when those of the die are gone. -/
theorem bar0_describeDie_arrays (die : Nat) (s : State) :
    bar0 (describeDie die s) 0x808 8 = bar0 s 0x808 8 - 2 ^ 17 * dieArrays die s := by
  have hb : bar0 (describeHoops die s) 0x808 8 = bar0 s 0x808 8 := (describeHoops_frame die s).2.2 _ _ (.inr (by decide))
  unfold describeDie
  rw [bar0_setBar0_of_lt (Nat.lt_of_le_of_lt (Nat.sub_le _ _) (bar0_lt _ _ 8)), hb]

/-- A die none of whose arrays has been withdrawn offers 12 hoops of 256 arrays. -/
theorem dieArrays_full {die : Nat} (hd : die < 4) {s : State}
    (hw : ∀ h < 48, h / 12 = die → (hoopOf s h).withdrawn = 0) : dieArrays die s = 12 * 256 := by
  have hlen : ∀ die < 4, ((List.range 48).filter (onDie die)).length = 12 := by decide
  have hmap : (((List.range 48).filter (onDie die)).map fun h => 256 - (bitsOf (hoopOf s h).withdrawn).length) =
      ((List.range 48).filter (onDie die)).map fun _ => 256 := by
    refine List.map_congr_left fun h hm => ?_
    obtain ⟨hr, hdie⟩ := List.mem_filter.1 hm
    rw [hw h (List.mem_range.1 hr) (of_decide_eq_true hdie)]
    rfl
  unfold dieArrays
  rw [hmap, List.map_const', List.sum_replicate, hlen die hd]
  rfl

/-- The state that the fencing of a die leaves, apart from what becomes of strands and jobs. -/
def fencedOff (die : Nat) (s : State) : State :=
  leaveWithLast (recordDie die (describe (describeDie die) (loseDie die s)))

theorem fencedOff_dies (die : Nat) (s : State) :
    (fencedOff die s).hub.fenced = s.hub.fenced ||| (1#4 <<< die) ∧
      (fencedOff die s).hub.fencing = s.hub.fencing &&& ~~~(1#4 <<< die) := by
  have hhub := (describeDie_frame die (loseDie die s)).1
  unfold fencedOff
  rw [(leaveWithLast_frame _).1, recordDie, addErr_hub_fenced, addErr_hub_fenced, addErr_hub_fencing, addErr_hub_fencing,
    describe_hub, hhub]
  exact ⟨rfl, rfl⟩

theorem fencedOff_mem (die : Nat) (s : State) :
    (fencedOff die s).mem = (describe (describeDie die) (loseDie die s)).mem := (leaveWithLast_frame _).2

theorem smRead_fencedOff (die : Nat) (s : State) (pa : Nat) : smRead 0 (fencedOff die s).mem.bytes pa =
    if !lostWith die pa then smRead 0 s.mem.bytes pa else 0 := by
  rw [fencedOff_mem, describe_bytes, (describeDie_frame die (loseDie die s)).2]
  exact smRead_filter 0 (fun pa => !lostWith die pa) s.mem.bytes pa

theorem bar0_fencedOff (die : Nat) (s : State) (j k : Nat) :
    bar0 (fencedOff die s) j k = bar0 (describe (describeDie die) (loseDie die s)) j k := by
  unfold bar0
  rw [fencedOff_mem]

theorem bar0_loseDie (die : Nat) (s : State) (j k : Nat) : bar0 (loseDie die s) j k = bar0 s j k := rfl

section
variable {die : Nat} {s : State} (hled : ∀ t0 ∈ s.strand :: s.pool, t0.state = .idle ∨ t0.hoop / 12 ≠ die)
include hled

/-- No strand in a slot is led from the die. -/
theorem resident_elsewhere {t : Strand} (hm : t ∈ allStrands s) : (resident t && onDie die t.hoop) = false := by
  rcases hled t (mem_allStrands.1 hm).1 with h | h <;> simp [resident, onDie, h]

theorem ledFrom_eq_nil : ledFrom die s = [] := by
  refine List.filter_eq_nil_iff.2 fun t hm => ?_
  rw [resident_elsewhere hled hm]
  simp

theorem faultStuck_eq_self : faultStuck die s = s := by
  unfold faultStuck
  rw [List.filter_eq_nil_iff.2, List.foldl_nil]
  intro t hm
  rw [resident_elsewhere hled hm]
  simp

variable (hg : ∀ h < 48, h / 12 = die → ∀ g ∈ (hoopOf s h).grants.toList, g.sram = 0)
include hg

/-- Without strands and grants on the die, no job is cancelled with it. -/
theorem fenceDie_deserted : ∃ u, u.mem = s.mem ∧ u.hub = s.hub ∧ u.hoops = s.hoops ∧ fenceDie die s = fencedOff die u := by
  have hholders : dieHolders die (reclaimDie die (moveNodes die s)) = [] := by
    have hnil : (((List.range 48).filter (onDie die)).flatMap fun h =>
        ((hoopOf s h).grants.toList.filter fun g => g.enabled && g.sram ≠ 0).map SlotGrant.asid) = [] := by
      refine List.flatMap_eq_nil_iff.2 fun h hm => ?_
      obtain ⟨hr, hdie⟩ := List.mem_filter.1 hm
      rw [List.map_eq_nil_iff, List.filter_eq_nil_iff]
      intro g hgm
      simp [hg h (List.mem_range.1 hr) (of_decide_eq_true hdie) g hgm]
    exact congrArg List.eraseDups hnil
  refine ⟨reclaimDie die (moveNodes die s), rfl, rfl, rfl, ?_⟩
  rw [fenceDie_eq, faultStuck_eq_self hled, hholders]
  rfl

theorem dieFence_fences (hd : die < 4) (hn : s.hub.fenced.getLsbD die = false)
    (hf : s.hub.fencing.getLsbD die = true) :
    ∃ t, exec (.dieFence die) s = .next t ∧
      t.hub.fenced.getLsbD die = true ∧ t.hub.fencing.getLsbD die = false ∧ Claims.Described s t ∧
      (∀ pa, Claims.OnDie die pa → smRead 0 t.mem.bytes pa = 0) ∧
      (∀ pa, ¬ Claims.OnDie die pa → smRead 0 t.mem.bytes pa = smRead 0 s.mem.bytes pa) ∧
      (∀ h, h / 12 = die → hoopPresent t h = false) ∧
      ((∀ h < 48, h / 12 = die → (hoopOf s h).withdrawn = 0) → 12 * 256 * 2 ^ 17 ≤ bar0 s 0x808 8 →
        bar0 t 0x808 8 = bar0 s 0x808 8 - 12 * 256 * 2 ^ 17) := by
  obtain ⟨u, humem, huhub, huhoops, hfence⟩ := fenceDie_deserted hled hg
  obtain ⟨hfenced, hfencing⟩ := fencedOff_dies die u
  have hbar (j k : Nat) : bar0 (loseDie die u) j k = bar0 s j k := by
    rw [bar0_loseDie]
    unfold bar0
    rw [humem]
  refine ⟨fencedOff die u, ?_, ?_, ?_, ?_, fun pa hpa => ?_, fun pa hpa => ?_, fun h hdie => ?_, fun hw _ => ?_⟩
  · rw [dieFence_eq hd hn, hf, ledFrom_eq_nil hled, ← hfence]
    rfl
  · rw [hfenced]
    exact getLsbD_setBit _ hd
  · rw [hfencing]
    exact getLsbD_clearBit _
  · unfold Claims.Described
    rw [bar0_fencedOff]
    exact described_describe (hbar 8 8)
  · rw [smRead_fencedOff, (lostWith_iff hd pa).2 hpa]
    rfl
  · rw [smRead_fencedOff, Bool.eq_false_iff.2 fun h => hpa ((lostWith_iff hd pa).1 h), humem]
    rfl
  · unfold hoopPresent
    rw [hfenced, hdie, getLsbD_setBit _ hd]
    simp
  · have hfull : dieArrays die (loseDie die u) = 12 * 256 := by
      refine dieArrays_full hd fun h hh hdie => ?_
      unfold hoopOf at hw ⊢
      rw [← hw h hh hdie, ← huhoops]
      rfl
    rw [bar0_fencedOff, bar0_describe_other _ _ (.inr (by decide)), bar0_describeDie_arrays, hbar, hfull, Nat.mul_comm]

end

end Sys2Proof.Machine

/-! ## State images of units and their spill areas (R319, R446) -/

namespace Sys2Proof.Machine

/-- Numbers of k bytes each, one after the other. -/
def packed {α : Type} (k : Nat) (f : α → Nat) (l : List α) : List Byte := (l.map fun x => leBytes k (f x)).flatten

theorem length_packed {α : Type} (k : Nat) (f : α → Nat) (l : List α) : (packed k f l).length = k * l.length := by
  induction l with
  | nil => rfl
  | cons x l ih =>
    have hc : packed k f (x :: l) = leBytes k (f x) ++ packed k f l := rfl
    rw [hc, List.length_append, length_leBytes, ih, List.length_cons, Nat.mul_succ, Nat.add_comm]

/-- Each number reads as it was packed, modulo its width. -/
theorem field_packed {α : Type} {k : Nat} (f : α → Nat) {l : List α} (b : List Byte) {i : Nat} (h : i < l.length) :
    field (packed k f l ++ b) (k * i) k = f l[i] % 2 ^ (8 * k) := by
  induction l generalizing i with
  | nil => cases h
  | cons x l ih =>
    have hc : packed k f (x :: l) ++ b = leBytes k (f x) ++ (packed k f l ++ b) := List.append_assoc _ _ _
    rw [hc]
    cases i with
    | zero => exact field_leBytes_mod k (f x) _
    | succ i =>
      rw [field_leBytes_skip (Nat.le_mul_of_pos_right k (Nat.succ_pos i)), Nat.mul_succ, Nat.add_sub_cancel]
      exact ih (Nat.lt_of_succ_lt_succ h)

/-- Past packed numbers come those that follow. -/
theorem field_packed_skip {α : Type} {k n off m : Nat} (f : α → Nat) (l : List α) (b : List Byte) (h : k * l.length = n) :
    field (packed k f l ++ b) (n + off) m = field b off m := by
  have hn : (packed k f l).length = n := (length_packed k f l).trans h
  rw [field_append_right (by omega), hn, Nat.add_sub_cancel_left]

theorem unitImage_eq (u : StackUnit) : unitImage u =
    packed 4 (fun i => (smRead 0 u.n i).toNat) (List.range 1536) ++ (packed 8 BitVec.toNat u.k.toList ++
      (packed 8 BitVec.toNat u.p.toList ++ (packed 4 BitVec.toNat u.c.toList ++
        (packed 4 BitVec.toNat u.buf.toList ++ [])))) := by
  simp only [unitImage, packed, List.append_assoc, List.append_nil]

theorem length_unitImage (u : StackUnit) : (unitImage u).length = 6688 := by
  simp [unitImage_eq, length_packed]

/-- The fields of a state image (R319). -/
theorem unitImage_fields (u : StackUnit) :
    (∀ i < 1536, field (unitImage u) (4 * i) 4 = (smRead 0 u.n i).toNat) ∧
    (∀ i (h : i < 4), field (unitImage u) (6144 + 8 * i) 8 = u.k[i].toNat) ∧
    (∀ i (h : i < 8), field (unitImage u) (6176 + 8 * i) 8 = u.p[i].toNat) ∧
    (∀ i (h : i < 16), field (unitImage u) (6240 + 4 * i) 4 = u.c[i].toNat) ∧
    (∀ i (h : i < 96), field (unitImage u) (6304 + 4 * i) 4 = u.buf[i].toNat) := by
  rw [unitImage_eq]
  refine ⟨fun i h => ?_, fun i h => ?_, fun i h => ?_, fun i h => ?_, fun i h => ?_⟩
  · rw [field_packed _ _ (by simpa using h), List.getElem_range]
    exact Nat.mod_eq_of_lt (smRead 0 u.n i).isLt
  · rw [field_packed_skip (n := 6144) _ _ _ (by simp), field_packed _ _ (by simpa using h), Vector.getElem_toList]
    exact Nat.mod_eq_of_lt (u.k[i]).isLt
  · rw [show 6176 + 8 * i = 6144 + (32 + 8 * i) by omega, field_packed_skip (n := 6144) _ _ _ (by simp),
      field_packed_skip (n := 32) _ _ _ (by simp), field_packed _ _ (by simpa using h), Vector.getElem_toList]
    exact Nat.mod_eq_of_lt (Nat.lt_trans (u.p[i]).isLt (by decide))
  · rw [show 6240 + 4 * i = 6144 + (32 + (64 + 4 * i)) by omega, field_packed_skip (n := 6144) _ _ _ (by simp),
      field_packed_skip (n := 32) _ _ _ (by simp), field_packed_skip (n := 64) _ _ _ (by simp),
      field_packed _ _ (by simpa using h), Vector.getElem_toList]
    exact Nat.mod_eq_of_lt (u.c[i]).isLt
  · rw [show 6304 + 4 * i = 6144 + (32 + (64 + (64 + 4 * i))) by omega, field_packed_skip (n := 6144) _ _ _ (by simp),
      field_packed_skip (n := 32) _ _ _ (by simp), field_packed_skip (n := 64) _ _ _ (by simp),
      field_packed_skip (n := 64) _ _ _ (by simp), field_packed _ _ (by simpa using h), Vector.getElem_toList]
    exact Nat.mod_eq_of_lt (u.buf[i]).isLt

/-- The keys of a range that are written one after the other. -/
theorem smRead_foldl_smWrite {α : Type} [DecidableEq α] (d : α) (f : Nat → α) (m : SMap α) (n : Nat) {j : Nat} (h : j < n) :
    smRead d ((List.range n).foldl (fun m i => smWrite d m i (f i)) m) j = f j := by
  induction n with
  | zero => cases h
  | succ n ih =>
    rw [List.range_succ, List.foldl_append, List.foldl_cons, List.foldl_nil]
    by_cases hj : j = n
    · rw [hj, smRead_smWrite_same]
    · rw [smRead_smWrite_other _ _ _ _ _ hj, ih (by omega)]

/-- An image holds nothing of a unit's owner and queue. -/
theorem unitOfImage_frame (bs : List Byte) (u : StackUnit) :
    (unitOfImage bs u).owner = u.owner ∧ (unitOfImage bs u).queue = u.queue := by
  simp only [unitOfImage, and_self]

theorem unitOfImage_n (bs : List Byte) (u : StackUnit) : (unitOfImage bs u).n =
    (List.range 1536).foldl (fun m i => smWrite 0 m i (BitVec.ofNat 32 (field bs (4 * i) 4))) [] := by
  simp only [unitOfImage]

/-- A unit takes its registers from an image as the unit that was saved had them. -/
theorem unitOfImage_unitImage (v u : StackUnit) :
    (unitOfImage (unitImage v) u).k = v.k ∧ (unitOfImage (unitImage v) u).p = v.p ∧
    (unitOfImage (unitImage v) u).c = v.c ∧ (unitOfImage (unitImage v) u).buf = v.buf ∧
    ∀ i < 1536, smRead 0 (unitOfImage (unitImage v) u).n i = smRead 0 v.n i := by
  obtain ⟨hn, hk, hp, hc, hb⟩ := unitImage_fields v
  refine ⟨Vector.ext fun i hi => ?_, Vector.ext fun i hi => ?_, Vector.ext fun i hi => ?_, Vector.ext fun i hi => ?_,
    fun i hi => ?_⟩
  · simp [unitOfImage, hk i hi]
  · simp [unitOfImage, hp i hi]
  · simp [unitOfImage, hc i hi]
  · simp [unitOfImage, hb i hi]
  · rw [unitOfImage_n, smRead_foldl_smWrite 0 (fun i => BitVec.ofNat 32 (field (unitImage v) (4 * i) 4)) [] 1536 hi,
      hn i hi, BitVec.ofNat_toNat, BitVec.setWidth_eq]

/-! ### Writes of HBM apart from each other -/

/-- The words that a write touches are poisoned no more (R440). -/
theorem poison_clearPoison {m : Mem} {a n w : Nat} (h : w ∈ touched 8 a n) : smGet (clearPoison m a n).poison w = none := by
  have key : ∀ (l : List Nat) (m : Mem), w ∈ l ∨ smGet m.poison w = none →
      smGet (l.foldl (init := m) fun m w =>
        match smGet m.poison w with
        | none => m
        | some _ =>
          { m with poison := smDel m.poison w
                   bytes := (List.range 8).foldl (init := m.bytes) fun b o =>
                     if a ≤ w * 8 + o ∧ w * 8 + o < a + n then b else smDel b (w * 8 + o) }).poison w = none := by
    intro l
    induction l with
    | nil => intro m h; simpa using h
    | cons v l ih =>
      intro m h
      rw [List.foldl_cons]
      refine ih _ ?_
      by_cases hv : w = v
      · subst hv
        right
        split
        · assumption
        · exact smGet_smDel_same _ _
      · refine h.imp (fun hm => (List.mem_cons.1 hm).resolve_left hv) fun hm => ?_
        split
        · exact hm
        · exact (smGet_smDel_other _ _ _ hv).trans hm
  exact key _ m (.inl h)

/-- The cipher blocks of a write are under its key (R411). -/
theorem blockKey_storeBytes {m : Mem} {k a l : Nat} {bs : List Byte} (h : l ∈ touched 16 a bs.length) :
    smGet (storeBytes m (some k) a bs).blockKey l = some k := by
  show smGet (clearPoison _ a bs.length).blockKey l = _
  rw [(clearPoison_keeps _ a bs.length).1]
  exact blockKey_rekeyBlocks_same k l _ m (.inl h)

/-- A range of HBM that was written reads as written after a write apart from it. -/
theorem loadBytes_storeBytes_apart (m : Mem) (k : Nat) {a b : Nat} {bs cs : List Byte}
    (h : a + bs.length ≤ b ∨ b + cs.length ≤ a) :
    loadBytes (storeBytes (storeBytes m (some k) a bs) (some k) b cs) (some k) a bs.length = bs := by
  have hkeep : loadBytes (storeBytes (storeBytes m (some k) a bs) (some k) b cs) (some k) a bs.length =
      loadBytes (storeBytes m (some k) a bs) (some k) a bs.length := by
    refine List.map_congr_left fun i hi => ?_
    have hi := List.mem_range.1 hi
    refine keyedByte_storeBytes_other _ k b (a + i) cs (by omega) ?_ (.inl ?_)
    · exact poison_clearPoison (touched_of_mem (by decide) (by omega) (by omega))
    · exact blockKey_storeBytes (touched_of_mem (by decide) (by omega) (by omega))
  rw [hkeep, loadBytes_storeBytes_hbm]

/-- The parts of a spill area lie a stripe of channels apart. -/
theorem spillAddr_next (c : Nat) : spillAddr c 1 = spillAddr c 0 + 2 ^ 20 := by
  unfold spillAddr interleave
  omega

/-- A spill area reads as it was written. -/
theorem readSpill_writeSpill (c : Nat) {bs : List Byte} (h : bs.length = 6688) (s : State) :
    readSpill c (writeSpill c bs s) = bs := by
  have h0 : (bs.take 4096).length = 4096 := by rw [List.length_take]; omega
  have h1 : (bs.drop 4096).length = 2592 := by rw [List.length_drop]; omega
  have hfirst := loadBytes_storeBytes_apart s.mem (keyName s 0) (a := spillAddr c 0) (b := spillAddr c 1)
    (bs := bs.take 4096) (cs := bs.drop 4096) (by rw [spillAddr_next, h0]; omega)
  have hsecond := loadBytes_storeBytes_hbm (storeBytes s.mem (some (keyName s 0)) (spillAddr c 0) (bs.take 4096))
    (keyName s 0) (spillAddr c 1) (bs.drop 4096)
  rw [h0] at hfirst
  rw [h1] at hsecond
  have hread : readSpill c (writeSpill c bs s) = bs.take 4096 ++ bs.drop 4096 := congrArg₂ (· ++ ·) hfirst hsecond
  rw [hread, List.take_append_drop]

theorem writeSpill_strand (c : Nat) (bs : List Byte) (s : State) : (writeSpill c bs s).strand = s.strand := rfl

theorem unitOf_writeSpill (c d : Nat) (bs : List Byte) (s : State) : unitOf (writeSpill d bs s) c = unitOf s c := rfl

/-- A change of a unit leaves the spill areas. -/
theorem readSpill_setUnit (c d : Nat) (v : StackUnit) (s : State) : readSpill c (setUnit d v s) = readSpill c s := rfl

/-! ## Channels (R446) -/

section
variable {c : Nat} {s : State}

/-! ### Down -/

theorem channelPowerDownRequest_merged (h : (unitOf s c).power ≠ .active) :
    exec (.channelPowerDownRequest c) s = .next s := if_pos (.inr h)

theorem channelPowerDownRequest_begins (hc : c < 256) (h : (unitOf s c).power = .active) :
    ∃ t, exec (.channelPowerDownRequest c) s = .next t ∧ t = { s with units := t.units } ∧
      unitOf t c = { unitOf s c with
        power := if (unitOf s c).owner.isSome then .drain else .down, wake := decide ((unitOf s c).queue ≠ []) } := by
  refine ⟨setUnit c { unitOf s c with
    power := if (unitOf s c).owner.isSome then .drain else .down, wake := !(unitOf s c).queue.isEmpty } s, ?_, rfl, ?_⟩
  · refine if_neg ?_
    rw [h]
    rintro (hn | hn)
    · exact Nat.not_le.2 hc hn
    · exact hn rfl
  · rw [unitOf_setUnit_same]
    cases (unitOf s c).queue <;> rfl

theorem channelDrainEnd_spills (h : (unitOf s c).power = .drain) (hr : (unitOf s c).running = none) :
    ∃ t, exec (.channelDrainEnd c) s = .next t ∧ t.strand = s.strand ∧ readSpill c t = unitImage (unitOf s c) ∧
      unitOf t c = { unitOf s c with power := .spill } :=
  ⟨setPower c .spill (writeSpill c (unitImage (unitOf s c)) s), if_pos ⟨h, by rw [hr]; rfl⟩,
    by rw [setPower, setUnit_strand, writeSpill_strand],
    by rw [setPower, readSpill_setUnit, readSpill_writeSpill c (length_unitImage _)],
    by rw [setPower, unitOf_setUnit_same, unitOf_writeSpill]⟩

theorem channelDrainEnd_idle (h : (unitOf s c).power ≠ .drain ∨ (unitOf s c).running ≠ none) :
    exec (.channelDrainEnd c) s = .next s := by
  refine if_neg ?_
  rintro ⟨hp, hr⟩
  rcases h with h | h
  · exact h hp
  · exact h (Option.isNone_iff_eq_none.1 hr)

theorem channelSpillEnd_idle (h : (unitOf s c).power ≠ .spill) : exec (.channelSpillEnd c) s = .next s := if_pos h

theorem channelSpillEnd_ends (h : (unitOf s c).power = .spill) :
    ∃ t, exec (.channelSpillEnd c) s = .next t ∧ readSpill c t = unitImage (unitOf s c) ∧ t.strand = s.strand ∧
      unitOf t c = { unitOf s c with power := if (unitOf s c).wake then .restore else .down } :=
  ⟨setUnit c { unitOf s c with power := if (unitOf s c).wake then .restore else .down }
    (writeSpill c (unitImage (unitOf s c)) s), if_neg (not_not_intro h),
    by rw [readSpill_setUnit, readSpill_writeSpill c (length_unitImage _)], by rw [setUnit_strand, writeSpill_strand],
    unitOf_setUnit_same _ _ _⟩

/-! ### Up again -/

theorem channelWake_restores (h : (unitOf s c).power = .down) :
    ∃ t, exec (.channelWake c) s = .next t ∧ unitOf t c = { unitOf s c with power := .restore } := by
  refine ⟨setPower c .restore s, ?_, unitOf_setUnit_same _ _ _⟩
  rw [exec_channelWake]
  simp only [execChannelWake, h]

theorem channelWake_remembers (h : (unitOf s c).power = .drain ∨ (unitOf s c).power = .spill) :
    ∃ t, exec (.channelWake c) s = .next t ∧ unitOf t c = { unitOf s c with wake := true } := by
  refine ⟨setUnit c { unitOf s c with wake := true } s, ?_, unitOf_setUnit_same _ _ _⟩
  rw [exec_channelWake]
  rcases h with h | h <;> simp only [execChannelWake, h]

theorem channelWake_idle (h : (unitOf s c).power = .active ∨ (unitOf s c).power = .restore) :
    exec (.channelWake c) s = .next s := by
  rw [exec_channelWake]
  rcases h with h | h <;> simp only [execChannelWake, h]

theorem channelRestoreEnd_idle (h : (unitOf s c).power ≠ .restore) : exec (.channelRestoreEnd c) s = .next s := if_neg h

/-- A unit without an owner has no image to reload. -/
theorem reloadUnit_free (h : (unitOf s c).owner = none) :
    reloadUnit c s = setUnit c { unitOf s c with power := .active, wake := false } s := by
  unfold reloadUnit
  exact if_pos (by rw [h]; rfl)

theorem channelRestoreEnd_free (h : (unitOf s c).power = .restore) (ho : (unitOf s c).owner = none) :
    ∃ t, exec (.channelRestoreEnd c) s = .next t ∧ unitOf t c = { unitOf s c with power := .active, wake := false } := by
  refine ⟨reloadUnit c s, if_pos h, ?_⟩
  rw [reloadUnit_free ho, unitOf_setUnit_same]

theorem owner_isNone_eq_false (ho : (unitOf s c).owner ≠ none) : ¬ (unitOf s c).owner.isNone = true :=
  fun h => ho (Option.isNone_iff_eq_none.1 h)

theorem channelRestoreEnd_lost (h : (unitOf s c).power = .restore) (ho : (unitOf s c).owner ≠ none)
    (hb : (isPoisoned s.mem (spillAddr c 0) 4096 || isPoisoned s.mem (spillAddr c 1) 2592) = true) :
    ∃ t, exec (.channelRestoreEnd c) s = .next t ∧
      unitOf t c = { StackUnit.reset with queue := (unitOf s c).queue } ∧ Claims.Recorded s 2 1 t := by
  obtain ⟨e, htyp, hsev, heq⟩ : ∃ e : ErrRec, e.typ = 2 ∧ e.severity = 1 ∧
      reloadUnit c s = addErr e (setUnit c { StackUnit.reset with queue := (unitOf s c).queue } s) := by
    refine ⟨_, ?_, ?_, (if_neg (owner_isNone_eq_false ho)).trans (if_pos hb)⟩ <;> rfl
  refine ⟨reloadUnit c s, if_pos h, ?_, ?_⟩
  · rw [heq]
    exact unitOf_setUnit_same _ _ _
  · rw [heq, ← htyp, ← hsev]
    exact recorded_addErr e rfl

theorem channelRestoreEnd_reloads (h : (unitOf s c).power = .restore) (ho : (unitOf s c).owner ≠ none)
    (hb : (isPoisoned s.mem (spillAddr c 0) 4096 || isPoisoned s.mem (spillAddr c 1) 2592) = false) :
    ∃ t, exec (.channelRestoreEnd c) s = .next t ∧ (unitOf t c).power = .active ∧ (unitOf t c).wake = false ∧
      (unitOf t c).owner = (unitOf s c).owner ∧ (unitOf t c).queue = (unitOf s c).queue ∧ t.mem = s.mem ∧
      ∀ v, readSpill c s = unitImage v → (unitOf t c).k = v.k ∧ (unitOf t c).p = v.p ∧ (unitOf t c).c = v.c ∧
        (unitOf t c).buf = v.buf ∧ ∀ i < 1536, smRead 0 (unitOf t c).n i = smRead 0 v.n i := by
  obtain ⟨w, hw⟩ : ∃ w, w = unitOfImage (readSpill c s) (unitOf s c) := ⟨_, rfl⟩
  obtain ⟨howner, hqueue⟩ := unitOfImage_frame (readSpill c s) (unitOf s c)
  rw [← hw] at howner hqueue
  have heq : reloadUnit c s = setUnit c { w with power := .active, wake := false } s := by
    rw [hw]
    exact (if_neg (owner_isNone_eq_false ho)).trans (if_neg (by rw [hb]; decide))
  have hunit : unitOf (reloadUnit c s) c = { w with power := .active, wake := false } := by
    rw [heq, unitOf_setUnit_same]
  refine ⟨reloadUnit c s, if_pos h, by rw [hunit], by rw [hunit], by rw [hunit, ← howner], by rw [hunit, ← hqueue],
    reloadUnit_mem c s, fun v hv => ?_⟩
  have hregs := unitOfImage_unitImage v (unitOf s c)
  rw [← hv, ← hw] at hregs
  rw [hunit]
  exact hregs

/-! ### Accesses (R446) -/

/-- An access within 4 KiB touches the channel of its first byte only. -/
theorem touchesChannel {a n d : Nat} (hn : 1 ≤ n) (ha : a % 4096 + n ≤ 4096) :
    ((touched 4096 a n).any fun b => channelOf (b * 4096) = d) = decide (channelOf a = d) := by
  have hb : channelOf (a / 4096 * 4096) = channelOf a := by
    unfold channelOf natBits
    omega
  rw [Bool.eq_iff_iff, List.any_eq_true, decide_eq_true_iff, ← hb]
  constructor
  · rintro ⟨b, hm, hd⟩
    obtain ⟨h1, h2⟩ := (mem_touched (by decide) hn).1 hm
    obtain rfl : b = a / 4096 := by omega
    exact of_decide_eq_true hd
  · intro hd
    exact ⟨a / 4096, (mem_touched (by decide) hn).2 ⟨Nat.le_refl _, by omega⟩, decide_eq_true hd⟩

/-- The units that an access within one channel wakes: those listed for that channel and asleep. -/
theorem wakeChannels_eq {a n : Nat} (hn : 1 ≤ n) (ha : a % 4096 + n ≤ 4096) (s : State) :
    wakeChannels a n s = (((s.units.filter fun x => x.2.power.asleep).map (·.1)).filter fun d =>
      channelOf a = d).foldl (fun s d => reloadUnit d s) s := by
  unfold wakeChannels
  simp only [touchesChannel hn ha]

theorem checkPlace_hbm {p : Port} {pl : Place} {va n a : Nat} {m : Bool} (hr : regionOf pl.pa = .hbm a)
    (hk : keyOk s p pl.key = true) : checkPlace p va n m pl s = (.ok (), wakeChannels a n s) := by
  unfold checkPlace
  simp only [hr, hk, if_true]

/-- A channel that is up is left as it is. -/
theorem wakeChannels_active {a n : Nat} (hn : 1 ≤ n) (ha : a % 4096 + n ≤ 4096) (hc : channelOf a = c)
    (hu : ∀ x ∈ s.units, x.1 = c → x.2.power = .active) : wakeChannels a n s = s := by
  rw [wakeChannels_eq hn ha, List.filter_eq_nil_iff.2, List.foldl_nil]
  intro d hd hcd
  obtain ⟨x, hx, rfl⟩ := List.mem_map.1 hd
  obtain ⟨hxm, hxp⟩ := List.mem_filter.1 hx
  rw [hu x hxm ((of_decide_eq_true hcd).symm.trans hc)] at hxp
  cases hxp

/-- A channel that is down, with a unit that nobody owns, comes up. -/
theorem wakeChannels_down {a n : Nat} (hn : 1 ≤ n) (ha : a % 4096 + n ≤ 4096) (hc : channelOf a = c)
    (hp : (unitOf s c).power = .down) (ho : (unitOf s c).owner = none) :
    unitOf (wakeChannels a n s) c = { unitOf s c with power := .active, wake := false } ∧
      wakeChannels a n s = { s with units := (wakeChannels a n s).units } := by
  obtain ⟨v, hv⟩ : ∃ v, v = { unitOf s c with power := Power.active, wake := false } := ⟨_, rfl⟩
  obtain ⟨l, hl⟩ : ∃ l, l = ((s.units.filter fun x => x.2.power.asleep).map (·.1)).filter fun d => channelOf a = d :=
    ⟨_, rfl⟩
  have hall : ∀ d ∈ l, d = c := by
    rw [hl]
    intro d hd
    exact (of_decide_eq_true (List.mem_filter.1 hd).2).symm.trans hc
  have hmem : (c, unitOf s c) ∈ s.units := by
    unfold unitOf smRead at *
    cases hg : smGet s.units c with
    | none => rw [hg] at hp; cases hp
    | some w => exact mem_of_smGet hg
  have hin : c ∈ l := by
    rw [hl]
    refine List.mem_filter.2 ⟨List.mem_map.2 ⟨(c, unitOf s c), List.mem_filter.2 ⟨hmem, ?_⟩, rfl⟩, decide_eq_true hc⟩
    show (unitOf s c).power.asleep = true
    rw [hp]
    rfl
  rw [wakeChannels_eq hn ha, ← hl, ← hv]
  obtain ⟨d, l, rfl⟩ := List.exists_cons_of_ne_nil (List.ne_nil_of_mem hin)
  rw [List.foldl_cons, hall d List.mem_cons_self, reloadUnit_free ho, ← hv]
  refine List.foldlRecOn (motive := fun t : State => unitOf t c = v ∧ t = { s with units := t.units }) l _
    ⟨unitOf_setUnit_same _ _ _, rfl⟩ ?_
  rintro t ⟨hu, ht⟩ d hd
  have ho' : (unitOf t c).owner = none := by rw [hu, hv]; exact ho
  have hsame : { unitOf t c with power := Power.active, wake := false } = v := by rw [hu, hv]
  rw [hall d (List.mem_cons_of_mem _ hd), reloadUnit_free ho', hsame]
  exact ⟨unitOf_setUnit_same _ _ _, by rw [ht]; rfl⟩

end

end Sys2Proof.Machine

namespace Sys2Proof.Proofs

open Sys2Proof.Machine

/-- Settles O59: each form of power, temperature, errors, retirement, ports and channels by the lemmas that say what it
does. -/
theorem recoveryPromise : Obligations.RecoveryPromise := by
  unfold Obligations.RecoveryPromise
  refine ⟨⟨?power, ?temperature, ?resume, ?check, ?record, ?lasting⟩, ⟨?arrays, ?die, ?link, ?channel, ?access⟩⟩
  case power => exact fun s rate h e => ⟨exec_powerLimit rate s, fun hh => dutyCycling_sets hh e s,
    fun hh => dutyCycling_idle hh e s⟩
  case temperature =>
    exact fun s die temp => ⟨fun hd => thermal_noDie hd temp s, fun h => thermalWarning_cool h s,
      fun hd h => thermalWarning_warns hd h s, fun h => temperatureFall_warm h s,
      fun hd h => temperatureFall_sets hd h s, fun h => thermalCriticalStop_cool h s,
      fun hd h => thermalCriticalStop_stops hd h s⟩
  case resume => exact fun s => ⟨thermalResume_idle, thermalResume_resumes⟩
  case check =>
    exact fun s h a r hh ha hr => ⟨backgroundCheck_clean h a r s, backgroundCheck_corrects hh ha hr s,
      backgroundCheck_poisons hh ha hr s rfl⟩
  case record => exact fun s => ⟨errorRecordWrite_idle, fun e es h => errorRecordWrite_writes h rfl rfl⟩
  case lasting =>
    refine fun s k u => ⟨lastingFault_few, fun h => ⟨lastingFault_retires h, lastingFault_lists h, ?_⟩⟩
    rintro rfl hu
    exact lastingFault_link h hu
  case arrays =>
    exact fun s h a hh ha => ⟨spareReplacement_idle, spareReplacement_begins hh ha, spareRemap_idle,
      spareRemap_takes hh ha, arrayWithdraw_idle, fun hr hs =>
        ⟨fun i t b hf hres hb hba hg => arrayWithdraw_reclaims hh ha hr hs hf hres hb hba hg, fun hfree =>
          ⟨arrayWithdraw_granted hh ha hr hs hfree, arrayWithdraw_withdraws hh ha hr hs hfree⟩⟩⟩
  case die =>
    exact fun s die => ⟨dieFence_idle, fun hd hn =>
      ⟨dieFence_begins hd hn, dieFence_waits hd hn, fun hf hled hg => dieFence_fences hled hg hd hn hf⟩⟩
  case link =>
    exact fun s port w rate => ⟨fun h => linkTraining_noPort h w rate s, fun h => linkTraining_trains h s w rate⟩
  case channel =>
    exact fun s c hc => ⟨channelPowerDownRequest_merged, channelPowerDownRequest_begins hc, channelDrainEnd_spills,
      channelDrainEnd_idle, channelSpillEnd_idle, channelSpillEnd_ends, channelWake_restores, channelWake_remembers,
      channelWake_idle, channelRestoreEnd_idle, channelRestoreEnd_free, fun h ho =>
        ⟨channelRestoreEnd_lost h ho, channelRestoreEnd_reloads h ho⟩⟩
  case access =>
    intro s p pl va n a c m hr hk hn ha hc
    rw [checkPlace_hbm hr hk]
    refine ⟨fun _ hu => by rw [wakeChannels_active hn ha hc hu], fun hp ho => ?_⟩
    obtain ⟨hunit, hrest⟩ := wakeChannels_down hn ha hc hp ho
    exact ⟨_, rfl, hunit, hrest⟩

end Sys2Proof.Proofs

/-! # The execution model: the step and the reset state (R33, R34, R391) -/

namespace Sys2Proof.Machine

/-- A step whose turn answers adds the passing of time. -/
theorem step_eq_settle {s t : State} {turn : Turn} (hn : nextTurn s = turn) (ht : takeTurn turn s = .next t) :
    step s = .next (settle s t) := by
  simp only [step, hn, ht]

/-- What a front that may go on does: it fetches, and issues what it has fetched (R33). -/
theorem frontTurn_issues {s s1 : State} {w : Word32} (hg : Claims.FrontGoes s) (hf : fetchWord s = (.ok w, s1)) :
    frontTurn s = issueWord w s1 := by
  obtain ⟨hlive, hpending, hbreak⟩ := hg
  have hrun : (!counted s.strand || !isStrand s.strand) = false := by
    simp only [frontLive, Bool.and_eq_true] at hlive
    simp [hlive]
  simp [frontTurn, hrun, hpending, hlive, hbreak, hf]

theorem issueWord_exec {s : State} {w : Word32} {i : Instr} (h : decode w = .ok i) :
    issueWord w s = exec i { s with fetched := w, actor := .front } := by simp only [issueWord, h]

theorem issueWord_traps {s : State} {w : Word32} {e : DecodeError} (h : decode w = .error e) :
    issueWord w s = .next (frontTrap
      { cause := 1
        tval := BitVec.ofNat 64 (if e = .reservedSystem ∧ sysLevel s.strand = false then 7 else e.subcode)
        telem := 0 } s) := by
  simp only [issueWord, h, illTrap, illSubcode, Bool.not_eq_true', causeIll]

/-- The vector side runs the head of its queue (R33). -/
theorem vecTurn_exec {s : State} {e : VEntry} {es : List VEntry} {i : Instr} (hq : s.strand.vq = e :: es)
    (hc : counted s.strand = true) (hs : isStrand s.strand = true) (hh : s.strand.haltWait = none)
    (hstop : queueStopped s.strand .v = false) (hm : isMarker e.word = false) (hv : isVecWord e.word = true)
    (hd : decode e.word = .ok i) : vecTurn s = exec i { s with fetched := e.word, actor := .vec } := by
  simp [vecTurn, hq, hc, hs, hh, hstop, hm, hv, hd]

/-- A stack unit runs the entry at which it stands (R317). -/
theorem unitTurn_exec {s : State} {u : Nat} {c : SuCmd} {w : Word32} {i : Instr} (hr : (unitOf s u).running = some c)
    (hq : s.hub.quiesce = false) (hs : (unitOf s u).started = true) (hw : (unitOf s u).buf[(unitOf s u).entry]? = some w)
    (hd : decodeSu w = .ok i) : unitTurn u s = exec i { s with fetched := w, curUnit := u } := by
  simp [unitTurn, hr, hq, hs, hw, hd]

/-- A read of BAR0 by the host is completed with its bytes (R420). -/
theorem completeRead_answers {s : State} {port off : Nat} (h : respondsAt s off = true) :
    completeRead port off s = .next { s with out := s.out ++ [⟨port, 3, off, leBytes 8 (hostRead s off)⟩] } := by
  rw [completeRead, if_pos h, sendTlp_eq]

/-- No slot of a hoop has a grant after reset (R388). -/
theorem hoopReset_disabled : ∀ k : Fin 8, (Hoop.reset.grants.get k).enabled = false := by decide +kernel

end Sys2Proof.Machine

namespace Sys2Proof.Proofs

open Sys2Proof.Machine

/-- Settles O4: the front's turn fetches and issues, and the word decodes or does not. -/
theorem stepRunsTheFrontsInstruction : Obligations.StepRunsTheFrontsInstruction := by
  intro s s1 w hn hg hf
  have hturn : takeTurn .front s = issueWord w s1 := frontTurn_issues hg hf
  exact ⟨fun i t hd hx => step_eq_settle hn (by rw [hturn, issueWord_exec hd, hx]),
    fun e hd => step_eq_settle hn (by rw [hturn, issueWord_traps hd])⟩

/-- Settles O5: one turn for each agent, by the lemma that says what the turn runs. -/
theorem stepRunsTheOthersInstruction : Obligations.StepRunsTheOthersInstruction := by
  refine ⟨?vec, ?unit, ?event, ?line, ?firmware, ?read⟩
  case vec =>
    exact fun s t e es i hn hq hc hs hh hstop hm hv hd hx =>
      step_eq_settle hn (by rw [takeTurn, vecTurn_exec hq hc hs hh hstop hm hv hd, hx])
  case unit =>
    exact fun s t u c w i hn hu hr hq hs hw hd hx =>
      step_eq_settle hn (by rw [takeTurn, if_pos hu, unitTurn_exec hr hq hs hw hd, hx])
  case event =>
    exact fun s t i hn he hx => step_eq_settle hn (by rw [takeTurn, if_pos (by rw [he]; rfl), hx])
  case line => exact fun s l bad hn => step_eq_settle hn rfl
  case firmware => exact fun s f hn => step_eq_settle hn rfl
  case read => exact fun s port off hn hr => step_eq_settle hn (completeRead_answers hr)

/-- Settles O6: the reset state is a constant, read off field by field. -/
theorem resetValues : Obligations.ResetValues := by
  refine ⟨rfl, rfl, rfl, rfl, rfl, rfl, rfl, rfl, ?regs, ?tokens, ?scales, ?tags, rfl, rfl, ?hoops, fun k => rfl, rfl, rfl,
    rfl⟩
  case regs => decide +kernel
  case tokens => exact fun a b => by cases a <;> cases b <;> rfl
  case scales => decide +kernel
  case tags => decide +kernel
  case hoops => exact fun h => ⟨rfl, hoopReset_disabled⟩

end Sys2Proof.Proofs

/-! # The scalar front: empty registers and instruction-step mode (R36, R467) -/

namespace Sys2Proof.Machine

/-! ## The register forms (R94): each is `opRR` of the function that the claims name -/

/-- A result of 32 bits that an integer names is that integer, sign-extended from its low 32 bits (R92). -/
theorem sextW_eq_w32 {v : Word32} {z : Int} (h : v = BitVec.ofInt 32 z) : sextW v = Claims.w32 z := by
  rw [Claims.w32, ← BitVec.toInt_ofInt, ← h]
  rfl

theorem lowW_eq_ofNat (x : Word) : lowW x = BitVec.ofNat 32 x.toNat := rfl

theorem lowW_eq_ofInt (x : Word) : lowW x = BitVec.ofInt 32 x.toInt := by
  apply BitVec.eq_of_toInt_eq
  rw [BitVec.toInt_ofInt, BitVec.toInt_eq_toNat_bmod x, lowW_eq_ofNat, BitVec.toInt_ofNat']
  exact (Int.bmod_bmod_of_dvd (by decide)).symm

theorem lowW_toNat (x : Word) : (lowW x).toNat = Claims.lo x := rfl

theorem lowW_toInt (x : Word) : (lowW x).toInt = Claims.loS x := BitVec.toInt_eq_toNat_bmod _

theorem lowW_add (x y : Word) : lowW x + lowW y = BitVec.ofInt 32 (x.toInt + y.toInt) := by
  rw [lowW_eq_ofInt, lowW_eq_ofInt, BitVec.ofInt_add]

theorem lowW_sub (x y : Word) : lowW x - lowW y = BitVec.ofInt 32 (x.toInt - y.toInt) := by
  rw [lowW_eq_ofInt, lowW_eq_ofInt, sub_eq_add_neg x.toInt, BitVec.ofInt_add, BitVec.ofInt_neg, ← BitVec.sub_eq_add_neg]

theorem lowW_shl (x : Word) (n : Nat) : lowW x <<< n = BitVec.ofInt 32 (x.toNat * 2 ^ n) := by
  apply BitVec.eq_of_toNat_eq
  rw [lowW_eq_ofNat, BitVec.toNat_shiftLeft, Nat.shiftLeft_eq, BitVec.toNat_ofNat, Nat.mod_mul_mod]
  norm_cast

section
variable {w : Nat} (x y : BitVec w)

theorem add_eq_ofInt : x + y = BitVec.ofInt w (x.toInt + y.toInt) := by
  rw [BitVec.ofInt_add, BitVec.ofInt_toInt, BitVec.ofInt_toInt]

theorem sub_eq_ofInt : x - y = BitVec.ofInt w (x.toInt - y.toInt) := by
  rw [BitVec.sub_eq_add_neg, sub_eq_add_neg, BitVec.ofInt_add, BitVec.ofInt_neg, BitVec.ofInt_toInt, BitVec.ofInt_toInt]

theorem shl_eq_ofInt (n : Nat) : x <<< n = BitVec.ofInt w (x.toNat * 2 ^ n) := by
  apply BitVec.eq_of_toNat_eq
  rw [BitVec.toNat_shiftLeft, Nat.shiftLeft_eq]
  norm_cast

theorem shr_eq_ofInt (n : Nat) : x >>> n = BitVec.ofInt w (x.toNat / 2 ^ n) := by
  apply BitVec.eq_of_toNat_eq
  have : x.toNat / 2 ^ n < 2 ^ w := lt_of_le_of_lt (Nat.div_le_self _ _) x.isLt
  rw [BitVec.toNat_ushiftRight, Nat.shiftRight_eq_div_pow]
  norm_cast
  rw [BitVec.ofInt_natCast, BitVec.toNat_ofNat, Nat.mod_eq_of_lt this]

theorem sshr_eq_ofInt (n : Nat) : x.sshiftRight n = BitVec.ofInt w (x.toInt / 2 ^ n) := by
  rw [BitVec.sshiftRight, Int.shiftRight_eq_div_pow]
  norm_cast

end

theorem lowW_sshr (x : Word) (n : Nat) : (lowW x).sshiftRight n = BitVec.ofInt 32 (Claims.loS x / 2 ^ n) := by
  rw [sshr_eq_ofInt, lowW_toInt]

theorem boolWord_decide (c : Prop) [Decidable c] : boolWord (decide c) = Claims.bit c := by
  simp only [boolWord, Claims.bit, decide_eq_true_eq]

theorem opRR_congr {d a b : Reg} {f g : Word → Word → Word} (h : ∀ x y, f x y = g x y) (s : State) :
    opRR d a b f s = opRR d a b g s := by rw [funext₂ h]

/-- Each register form is `opRR` of its function in the claims. -/
theorem exec_registerForm {p : (Reg → Reg → Reg → Instr) × (Word → Word → Word)} (hp : p ∈ Claims.registerForms)
    (d a b : Reg) (s : State) : exec (p.1 d a b) s = opRR d a b p.2 s := by
  simp only [Claims.registerForms, List.mem_cons, List.not_mem_nil, or_false] at hp
  rcases hp with rfl | rfl | rfl | rfl | rfl | rfl | rfl | rfl | rfl | rfl | rfl | rfl | rfl | rfl | rfl
  · exact opRR_congr (f := (· + ·)) add_eq_ofInt s
  · exact opRR_congr (f := (· - ·)) sub_eq_ofInt s
  · exact opRR_congr (f := fun x y => x <<< (y.toNat % 64)) (fun x y => shl_eq_ofInt x _) s
  · exact opRR_congr (f := fun x y => boolWord (x.slt y)) (fun x y => boolWord_decide _) s
  · exact opRR_congr (f := fun x y => boolWord (x.ult y)) (fun x y => boolWord_decide _) s
  · rfl
  · exact opRR_congr (f := fun x y => x >>> (y.toNat % 64)) (fun x y => shr_eq_ofInt x _) s
  · exact opRR_congr (f := fun x y => x.sshiftRight (y.toNat % 64)) (fun x y => sshr_eq_ofInt x _) s
  · rfl
  · rfl
  · exact opRR_congr (f := fun x y => sextW (lowW x + lowW y)) (fun x y => sextW_eq_w32 (lowW_add x y)) s
  · exact opRR_congr (f := fun x y => sextW (lowW x - lowW y)) (fun x y => sextW_eq_w32 (lowW_sub x y)) s
  · exact opRR_congr (f := fun x y => sextW (lowW x <<< (y.toNat % 32))) (fun x y => sextW_eq_w32 (lowW_shl x _)) s
  · exact opRR_congr (f := fun x y => sextW (lowW x >>> (y.toNat % 32)))
      (fun x y => sextW_eq_w32 (shr_eq_ofInt (lowW x) _)) s
  · exact opRR_congr (f := fun x y => sextW ((lowW x).sshiftRight (y.toNat % 32))) (fun x y => sextW_eq_w32 (lowW_sshr x _)) s

/-- A form of the M extension is `opRR` of some function of its operands. -/
theorem exec_multiplyForm {p : (Reg → Reg → Reg → Instr) × (Word → Word → Word)} (hp : p ∈ Claims.multiplyForms) :
    ∃ f, ∀ d a b s, exec (p.1 d a b) s = opRR d a b f s := by
  simp only [Claims.multiplyForms, List.mem_cons, List.not_mem_nil, or_false] at hp
  rcases hp with rfl | rfl | rfl | rfl | rfl | rfl | rfl | rfl | rfl | rfl | rfl | rfl | rfl
  · exact ⟨(· * ·), fun d a b s => rfl⟩
  · exact ⟨fun x y => mulHigh x.toInt y.toInt, fun d a b s => rfl⟩
  · exact ⟨fun x y => mulHigh x.toInt y.toNat, fun d a b s => rfl⟩
  · exact ⟨fun x y => mulHigh x.toNat y.toNat, fun d a b s => rfl⟩
  · exact ⟨divS, fun d a b s => rfl⟩
  · exact ⟨divU, fun d a b s => rfl⟩
  · exact ⟨remS, fun d a b s => rfl⟩
  · exact ⟨remU, fun d a b s => rfl⟩
  · exact ⟨fun x y => sextW (lowW x * lowW y), fun d a b s => rfl⟩
  · exact ⟨fun x y => sextW (divS (lowW x) (lowW y)), fun d a b s => rfl⟩
  · exact ⟨fun x y => sextW (divU (lowW x) (lowW y)), fun d a b s => rfl⟩
  · exact ⟨fun x y => sextW (remS (lowW x) (lowW y)), fun d a b s => rfl⟩
  · exact ⟨fun x y => sextW (remU (lowW x) (lowW y)), fun d a b s => rfl⟩

/-! ## Empty registers hold the front -/

/-- The first empty register of a list decides between FE and the wait (R36). -/
theorem needFull_firstEmpty {rs : List Reg} {r : Reg} {s : State} (h : Claims.firstEmpty s.strand rs = some r) :
    needFull rs s = (.error (if s.strand.csr.xfep.getLsbD r.toNat then
      .trap { cause := 0x07, tval := BitVec.ofNat 64 r.toNat, telem := 0 } else .wait (.fe r)), s) := by
  induction rs with
  | nil => cases h
  | cons q qs ih =>
    rw [needFull, act_bind_ok (act_getStrand s)]
    by_cases he : isEmpty s.strand q = true
    · obtain rfl : q = r := by simpa [Claims.firstEmpty, he] using h
      rw [if_pos he]
      by_cases hx : s.strand.csr.xfep.getLsbD q.toNat = true
      · rw [if_pos hx, if_pos hx]
        rfl
      · rw [if_neg hx, if_neg hx]
        rfl
    · rw [if_neg he]
      exact ih (by simpa [Claims.firstEmpty, he] using h)

section
variable {c : Act Unit} {rs : List Reg} {w : Act (Option Word)} {s : State} (hc : c s = (.ok (), s))
include hc

/-- An S instruction whose check passes and that finds a register empty traps with FE or waits, as `needFull` says. -/
theorem frontInstr_needTraps {t : Trap} (hn : needFull rs s = (.error (.trap t), s)) :
    frontInstr c rs w s = .next (frontTrap t s) :=
  frontStep_trap ((act_bind_ok hc).trans (act_bind_error hn))

theorem frontInstr_needWaits {k : WaitKind} (hn : needFull rs s = (.error (.wait k), s)) :
    frontInstr c rs w s = .next (frontWait k s) :=
  frontStep_wait ((act_bind_ok hc).trans (act_bind_error hn))

end

/-- A register form with an empty register does not reach its work (R36). -/
theorem opRR_held {d a b r : Reg} {f : Word → Word → Word} {s : State}
    (h : Claims.firstEmpty s.strand [a, b, d] = some r) (hq : isQueuedWord s.fetched = false) :
    opRR d a b f s = .next (
      if s.strand.csr.xfep.getLsbD r.toNat then frontTrap { cause := 0x07, tval := BitVec.ofNat 64 r.toNat, telem := 0 } s
      else { s with strand := { s.strand with
        wait := some (.fe r), state := .waiting
        waits := if s.strand.wait = some (.fe r) then s.strand.waits else s.strand.waits.set 0 0 } }) := by
  have hneed := needFull_firstEmpty h
  by_cases hx : s.strand.csr.xfep.getLsbD r.toNat = true
  · rw [if_pos hx] at hneed ⊢
    exact frontInstr_needTraps (act_pure () s) hneed
  · rw [if_neg hx] at hneed ⊢
    refine (frontInstr_needWaits (act_pure () s) hneed).trans ?_
    rw [frontWait, hq]
    rfl

/-! ## Instruction-step mode -/

/-- A halt of a running strand, as the claims write it (R39, R97, R115). -/
theorem haltStrand_running {t : Strand} (h : t.state = .running) (r : HaltReason) :
    haltStrand r t = Claims.haltedOrDue r t := by
  rw [haltStrand, h, Claims.haltedOrDue]
  by_cases ha : t.asked = 0
  · simp only [ha, ne_eq, not_true_eq_false, if_false, if_true]
    rfl
  · simp only [ne_eq, ha, not_false_eq_true, if_true, if_false, ← h]

/-- A running strand in instruction-step mode stops after its instruction: STEP, or a halt (R467). -/
theorem afterStep_stops {u : State} (hd : u.strand.dbgStep = true) (hr : u.strand.state = .running) :
    afterStep u = if u.strand.dbgTrap then takeTrap { cause := 0x11, tval := 0, telem := 0 } u
      else { u with strand := Claims.haltedOrDue .step u.strand } := by
  rw [afterStep, if_pos ⟨hd, hr⟩, haltStrand_running hr]
  rfl

theorem afterStep_free {u : State} (h : u.strand.dbgStep = false) : afterStep u = u := by
  rw [afterStep, if_neg (by simp [h])]

/-- A register form whose registers are full writes its result and goes on (R94). -/
theorem opRR_full {d a b : Reg} {f : Word → Word → Word} {s : State} (h : Claims.Full s.strand [a, b, d]) :
    opRR d a b f s = .next (afterStep (Claims.wrote s d (f (readReg s.strand a) (readReg s.strand b)))) :=
  writeInstr_ok h

end Sys2Proof.Machine

namespace Sys2Proof.Proofs

open Sys2Proof.Machine

/-- Settles O18: the forms are `opRR`, which an empty register holds and instruction-step mode stops. -/
theorem frontHoldsAndStops : Obligations.FrontHoldsAndStops := by
  refine ⟨fun p hp d a b r s hr hq => ?held, fun p hp d a b s hfull hd hrun => ?stops⟩
  case held =>
    rcases List.mem_append.1 hp with hp | hp
    · rw [exec_registerForm hp, opRR_held hr hq]
    · obtain ⟨f, hf⟩ := exec_multiplyForm hp
      rw [hf, opRR_held hr hq]
  case stops =>
    have hrun' : (Claims.wrote s d (p.2 (readReg s.strand a) (readReg s.strand b))).strand.state = .running := by
      simp [Claims.wrote, Claims.done, advance, advanceStrand, hrun, issued]
    rw [exec_registerForm hp, opRR_full hfull, afterStep_stops (by simpa [Claims.wrote, Claims.done] using hd) hrun']
    simp [Claims.wrote, Claims.done]

end Sys2Proof.Proofs

/-! # Trace records (R458, R473 to R475): what writing one changes

`Recorded` is the claims' `Traced` with one thing more, that the trace output control stays, so that records follow one
another. -/

namespace Sys2Proof.Machine

/-- What a trace record may change in a state, taken over from another one. -/
def retrace (u t : State) : State :=
  { u with trace := t.trace, freeCtr := t.freeCtr, mem := t.mem, hoops := t.hoops
           hub := { u.hub with portLost := t.hub.portLost, ringLost := t.hub.ringLost } }

/-- Some trace records have been written. -/
structure Recorded (u t : State) : Prop where
  traced : Claims.Traced u t
  control : bar0 t 0xE00100 8 = bar0 u 0xE00100 8

theorem hoopOf_setHoop_other {h k : Nat} (v : Hoop) (s : State) (hk : k ≠ h) : hoopOf (setHoop h v s) k = hoopOf s k :=
  smRead_smWrite_other _ _ _ _ _ hk

theorem bar0_congr {s t : State} (h : t.mem.bar0 = s.mem.bar0) (off n : Nat) : bar0 t off n = bar0 s off n := by
  rw [bar0, bar0, h]

theorem ringOff_congr {s t : State} (h : bar0 t 0xE00100 8 = bar0 s 0xE00100 8) : Claims.RingOff t ↔ Claims.RingOff s := by
  rw [Claims.RingOff, Claims.RingOff, h]

theorem Recorded.refl (s : State) : Recorded s s where
  traced := ⟨rfl, fun _ => rfl, fun _ => rfl, fun _ _ _ => rfl⟩
  control := rfl

theorem Recorded.trans {s t u : State} (h1 : Recorded s t) (h2 : Recorded t u) : Recorded s u where
  traced := by
    obtain ⟨eq1, hoop1, off1, low1⟩ := h1.traced
    obtain ⟨eq2, hoop2, off2, low2⟩ := h2.traced
    have heq : u = retrace s u := by
      have e1 : t = retrace s t := eq1
      calc u = retrace t u := eq2
        _ = retrace (retrace s t) u := by rw [← e1]
        _ = retrace s u := rfl
    refine ⟨heq, fun h => ?_, fun hr => ?_,
      fun off n hn => (low2 off n hn).trans (low1 off n hn)⟩
    · exact (hoop2 h).trans (congrArg (fun x => { x with lost := (hoopOf u h).lost }) (hoop1 h))
    · exact (off2 ((ringOff_congr h1.control).2 hr)).trans (congrArg (fun x => { x with bar0 := u.mem.bar0 }) (off1 hr))
  control := h2.control.trans h1.control

section
variable {u t : State} (h : Recorded u t)
include h

theorem Recorded.eq : t = retrace u t := h.traced.1
theorem Recorded.strand : t.strand = u.strand := by rw [h.eq]; rfl
theorem Recorded.pool : t.pool = u.pool := by rw [h.eq]; rfl
theorem Recorded.units : t.units = u.units := by rw [h.eq]; rfl
theorem Recorded.hub : t.hub = { u.hub with portLost := t.hub.portLost, ringLost := t.hub.ringLost } :=
  congrArg State.hub h.eq
theorem Recorded.ringOff : Claims.RingOff t ↔ Claims.RingOff u := ringOff_congr h.control
theorem Recorded.bytes (hr : Claims.RingOff u) : t.mem.bytes = u.mem.bytes := by
  rw [h.traced.2.2.1 hr]

end

/-! ## The writers of records -/

theorem storeBytes_bar0 (m : Mem) (key : Option Nat) (a : Nat) (bs : List Byte) : (storeBytes m key a bs).bar0 = m.bar0 := by
  have hrekey : ∀ (k l : Nat) (m : Mem), (rekeyBlock m k l).bar0 = m.bar0 := fun k l m => by
    unfold rekeyBlock
    split
    · split <;> rfl
    · rfl
  show (clearPoison _ a bs.length).bar0 = m.bar0
  rw [(clearPoison_keeps _ a bs.length).2.1]
  cases key with
  | none => rfl
  | some k => exact foldl_keeps (fun x : Mem => x.bar0 = m.bar0) _ (fun x l hx => (hrekey k l x).trans hx) _ _ rfl

/-- A counter of BAR0 that lies above the windows and beside the control is counted on. -/
theorem recorded_setBar0 {off n v : Nat} (h1 : 0x800000 ≤ off) (h2 : off + n ≤ 0xE00100 ∨ 0xE00108 ≤ off) (s : State) :
    Recorded s (setBar0 off n v s) where
  traced := ⟨rfl, fun _ => rfl, fun _ => rfl, fun j k hk => bar0_setBar0_other s j k off n v (.inl (by omega))⟩
  control := bar0_setBar0_other s _ _ off n v h2.symm

theorem recorded_portTrace (r : TraceRec) (s : State) : Recorded s (portTrace r s) := by
  unfold portTrace
  split
  · exact .refl s
  · split
    · refine .trans ?_ (recorded_setBar0 (off := 0xE00120) (by decide) (.inr (by decide)) _)
      exact ⟨⟨rfl, fun _ => rfl, fun _ => rfl, fun _ _ _ => rfl⟩, rfl⟩
    · exact ⟨⟨rfl, fun _ => rfl, fun _ => rfl, fun _ _ _ => rfl⟩, rfl⟩

theorem recorded_ringTrace (r : TraceRec) (s : State) : Recorded s (ringTrace r s) := by
  unfold ringTrace
  split
  · exact .refl s
  next hon =>
    split
    · refine .trans ?_ (recorded_setBar0 (off := 0xE00128) (by decide) (.inr (by decide)) _)
      exact ⟨⟨rfl, fun _ => rfl, fun _ => rfl, fun _ _ _ => rfl⟩, rfl⟩
    · refine .trans ?_ (recorded_setBar0 (off := 0xE00110) (by decide) (.inr (by decide)) _)
      split
      next a _ =>
        have hbar (off n : Nat) : bar0 (hbmWrite (ctxBaseKey s 0) a (traceBytes r) s) off n = bar0 s off n :=
          bar0_congr (storeBytes_bar0 _ _ _ _) off n
        exact ⟨⟨rfl, fun _ => rfl, fun hoff => absurd hoff hon, fun off n _ => hbar off n⟩, hbar _ _⟩
      · exact .refl s

theorem recorded_writeTrace (r : TraceRec) (s : State) : Recorded s (writeTrace r s) :=
  (recorded_portTrace r s).trans (recorded_ringTrace r _)

theorem recorded_emitHub (typ payload : Nat) (s : State) : Recorded s (emitHub typ payload s) := recorded_writeTrace _ s

theorem recorded_loseRecord (h : Nat) (s : State) :
    Recorded s (setHoop h { hoopOf s h with lost := (hoopOf s h).lost + 1 } s) where
  traced := by
    refine ⟨rfl, fun k => ?_, fun _ => rfl, fun _ _ _ => rfl⟩
    by_cases hk : k = h
    · subst hk
      rw [hoopOf_setHoop_same]
    · rw [hoopOf_setHoop_other _ _ hk]
  control := rfl

theorem recorded_emitHoop (h slot : Nat) (asid : BitVec 12) (typ payload : Nat) (s : State) :
    Recorded s (emitHoop h slot asid typ payload s) := by
  simp only [emitHoop]
  split
  · have hfree : Recorded s { s with freeCtr := s.freeCtr + 1 } := ⟨⟨rfl, fun _ => rfl, fun _ => rfl, fun _ _ _ => rfl⟩, rfl⟩
    refine hfree.trans ?_
    split
    · have hw : windowBase h = 0x800000 + 0x20000 * h := rfl
      exact (recorded_loseRecord h _).trans (recorded_setBar0 (by omega) (by omega) _)
    · exact recorded_writeTrace _ _
  · exact .refl s

theorem recorded_emitStrand (t : Strand) (typ payload : Nat) (s : State) : Recorded s (emitStrand t typ payload s) :=
  recorded_emitHoop _ _ _ _ _ s

/-- Records written one after another, one for each element of a list. -/
theorem recorded_foldl {α : Type} {f : State → α → State} (hf : ∀ s x, Recorded s (f s x)) (l : List α) (s : State) :
    Recorded s (l.foldl f s) := by
  induction l generalizing s with
  | nil => exact .refl s
  | cons x xs ih => exact (hf s x).trans (ih _)

theorem recorded_emitChange (t : Strand) (old new : RunState) (cause : Nat) (s : State) :
    Recorded s (emitChange t old new cause s) :=
  (recorded_emitStrand t _ _ s).trans (recorded_foldl (fun _ _ => recorded_emitHoop _ _ _ _ _ _) _ _)

theorem recorded_emitSlip (t : Strand) (s : State) : Recorded s (emitSlip t s) :=
  recorded_foldl (fun _ _ => recorded_emitStrand _ _ _ _) _ _

theorem recorded_emitPhase (t : Strand) (handle : Nat) (v : Barrier) (s : State) : Recorded s (emitPhase t handle v s) := by
  unfold emitPhase
  split
  · exact .refl s
  · exact recorded_emitStrand _ _ _ _

end Sys2Proof.Machine

/-! # Submissions, counters and cancels (R40 to R42, R117 to R121) -/

namespace Sys2Proof.Machine

/-! ## An S instruction outside instruction-step mode -/

section
variable {c : Act Unit} {rs : List Reg} {w : Act (Option Word)} {s s' : State} (hc : c s = (.ok (), s))
  (hr : Claims.Full s.strand rs)
include hc hr

/-- Its work is done, and the front goes on. -/
theorem frontInstr_done (hw : w s = (.ok none, s')) (hd : s'.strand.dbgStep = false) :
    frontInstr c rs w s = .next (advance s') := by
  rw [frontInstr_work hc hr, frontStep_done hw, afterStep_free (u := advance s') hd]

/-- Its work traps. -/
theorem frontInstr_traps {t : Trap} (hw : w s = (.error (.trap t), s')) : frontInstr c rs w s = .next (frontTrap t s') := by
  rw [frontInstr_work hc hr, frontStep_trap hw]

/-- Its work waits. -/
theorem frontInstr_waits {k : WaitKind} (hw : w s = (.error (.wait k), s')) :
    frontInstr c rs w s = .next (frontWait k s) := by
  rw [frontInstr_work hc hr, frontStep_wait hw]

end

/-! ## Requests to the hub -/

theorem askHub_asks (s : State) (d : Reg) (k : ObjKind) (a b : Word) (p : Bool) :
    askHub ⟨s.strand.id, d, k, a, b, p⟩ s = (.ok (), Claims.asked s d k a b p) := rfl

theorem checkAlign_ok {va n : Nat} (h : va % n = 0) (s : State) : checkAlign va n s = (.ok (), s) := by
  rw [checkAlign, if_pos h]
  rfl

theorem checkAlign_traps {x : Word} {n : Nat} (h : x.toNat % n ≠ 0) (s : State) :
    checkAlign x.toNat n s = (.error (.trap (Claims.alignTrap x)), s) := by
  rw [checkAlign, if_neg h, act_raise, BitVec.ofNat_toNat, BitVec.setWidth_eq]
  rfl

section
variable {s : State} {d a b : Reg} (hd : s.strand.dbgStep = false)

section
variable (hr : Claims.Full s.strand [a, d])
include hr

include hd in
theorem launch_asks (ha : (readReg s.strand a).toNat % 64 = 0) (hv : vMemBusy s.strand = false) :
    exec (.launch d a) s = .next (advance (advanceEpoch s.strand.asid
      (Claims.asked s d .launch (readReg s.strand a) 0 false))) := by
  refine frontInstr_done (act_pure () s) hr
    (s' := advanceEpoch s.strand.asid (Claims.asked s d .launch (readReg s.strand a) 0 false)) ?_ ((setEmpty_dbgStep s.strand d).trans hd)
  simp only [act_bind, act_getStrand, checkAlign_ok ha, hv]
  rfl

theorem launch_align (ha : (readReg s.strand a).toNat % 64 ≠ 0) :
    exec (.launch d a) s = .next (frontTrap (Claims.alignTrap (readReg s.strand a)) s) := by
  refine frontInstr_traps (act_pure () s) hr (s' := s) ?_
  simp only [act_bind, act_getStrand, checkAlign_traps ha]

include hd in
theorem cntnew_asks (h0 : readReg s.strand a ≠ 0) (hx : (readReg s.strand a).toNat < 2 ^ 32) :
    exec (.cntnew d a) s = .next (advance (Claims.asked s d .free (readReg s.strand a) 0 false)) := by
  refine frontInstr_done (act_pure () s) hr (s' := Claims.asked s d .free (readReg s.strand a) 0 false) ?_
    ((setEmpty_dbgStep s.strand d).trans hd)
  have hreq : (readReg s.strand a ≠ 0 && (readReg s.strand a).toNat < 2 ^ 32) = true := by
    rw [Bool.and_eq_true, decide_eq_true_eq, decide_eq_true_eq]
    exact ⟨h0, hx⟩
  simp only [act_bind, act_getStrand, hreq, act_require_true]
  rfl

theorem cntnew_badCount (h : readReg s.strand a = 0 ∨ 2 ^ 32 ≤ (readReg s.strand a).toNat) :
    exec (.cntnew d a) s = .next (frontTrap (Claims.ill 6) s) := by
  refine frontInstr_traps (act_pure () s) hr (s' := s) ?_
  have hreq : (readReg s.strand a ≠ 0 && (readReg s.strand a).toNat < 2 ^ 32) = false := by
    rw [Bool.and_eq_false_iff, decide_eq_false_iff_not, decide_eq_false_iff_not]
    exact h.imp not_not.2 Nat.not_lt.2
  simp only [act_bind, act_getStrand, hreq, act_require]
  rfl

end

section
variable (hr : Claims.Full s.strand [a, b, d])
include hr

include hd in
theorem gsubmit_asks (ha : (readReg s.strand a).toNat % 128 = 0) (hv : vMemBusy s.strand = false) :
    exec (.gsubmit d a b) s = .next (advance (advanceEpoch s.strand.asid
      (Claims.asked s d .graph (readReg s.strand a) (readReg s.strand b) (b ≠ 0)))) := by
  refine frontInstr_done (act_pure () s) hr (s' := advanceEpoch s.strand.asid
    (Claims.asked s d .graph (readReg s.strand a) (readReg s.strand b) (b ≠ 0))) ?_ ((setEmpty_dbgStep s.strand d).trans hd)
  simp only [act_bind, act_getStrand, checkAlign_ok ha, hv]
  rfl

theorem gsubmit_align (ha : (readReg s.strand a).toNat % 128 ≠ 0) :
    exec (.gsubmit d a b) s = .next (frontTrap (Claims.alignTrap (readReg s.strand a)) s) := by
  refine frontInstr_traps (act_pure () s) hr (s' := s) ?_
  simp only [act_bind, act_getStrand, checkAlign_traps ha]

end

end

/-! ## The hub's answer -/

theorem findStrand_self {s : State} (h : isStrand s.strand = true) : findStrand s s.strand.id = some s.strand := by
  rw [findStrand, allStrands, List.filter_cons_of_pos h, List.find?_cons_of_pos (by simp)]

theorem updStrand_focus {s : State} {i : StrandId} (f : Strand → Strand) (h : isStrand s.strand = true)
    (hi : i = s.strand.id) : (updStrand i f s).strand = f s.strand := by
  subst hi
  rw [updStrand, updStrands]
  simp [h]

theorem forgetObject_strand {s : State} (c : Nat) (h : s.strand.state ≠ .exited) : (forgetObject c s).strand = s.strand := by
  simp [forgetObject, h]

theorem getD_mem_of_lt {α : Type} {l : List α} {k : Nat} (d : α) (h : k < l.length) : l[k]?.getD d ∈ l := by
  rw [List.getElem?_eq_getElem h]
  exact List.getElem_mem h

/-- An allocation gives a free id to its counter, or refuses (R118, R121). -/
theorem allocCounter_cases (v : Counter) (s : State) : allocCounter v s = (.ok none, s) ∨
    ∃ c ∈ freeCounters s v.asid, allocCounter v s =
      (.ok (some c), setCounter c v (forgetObject c { s with freeCtr := s.freeCtr + 1 })) := by
  rw [allocCounter, act_bind_ok (act_getS s)]
  split
  · exact .inl rfl
  next h =>
    refine .inr ⟨(freeCounters s v.asid)[Config.freeChoice s.freeCtr % (freeCounters s v.asid).length]?.getD 0, ?_, rfl⟩
    exact getD_mem_of_lt 0 (Nat.mod_lt _ (List.length_pos_of_ne_nil fun h0 => h (.inl h0)))

theorem lt_of_mem_freeCounters {s : State} {asid : BitVec 12} {c : Nat} (h : c ∈ freeCounters s asid) : c < 4096 := by
  simp only [freeCounters, List.mem_filter, List.mem_range] at h
  exact h.1

theorem refusedWord_toNat {why : Nat} (h : why < 64) : (refusedWord why).toNat = 2 ^ 63 + why * 2 ^ 12 := by
  rw [refusedWord, BitVec.toNat_ofNat, Nat.mod_eq_of_lt (by omega)]

theorem answered_strand {t : Strand} (r : HubReq) (v : Word) (h : t.haltWait = none) :
    answered r v t = { t with fePend := t.fePend ++ [{ rd := r.rd, val := v, seq := 0 }], asked := t.asked - 1 } := by
  rw [answered]
  simp only [h]

/-- The counter that an accepted request of the strand in focus gets, before its first child (R40, R121). -/
def requestCounter (r : HubReq) (s : State) : Counter :=
  { newCounter r.kind s.strand.asid (if r.kind = .free then r.a.toNat else 0) none (some r.strand) s.strand.level with
    job := if r.kind = .free then some (jobOf s 64 r.strand.launch) else none }

/-- The state in which the hub has taken the oldest request off its list. -/
def requestTaken (rs : List HubReq) (s : State) : State := { s with hub := { s.hub with reqs := rs } }

/-- The state in which the hub has recorded an accepted request under a counter. -/
def requestAccepted (r : HubReq) (c root : Nat) (s : State) : State :=
  submit r c (BitVec.ofNat 64 root) (updStrand r.strand (fun t => { t with subs := t.subs ++ [c] })
    (setCounter c (requestCounter r s) (forgetObject c { s with freeCtr := s.freeCtr + 1 })))

section
variable {s : State} {r : HubReq} {rs : List HubReq} (hq : s.hub.reqs = r :: rs) (hs : r.strand = s.strand.id)
  (his : isStrand s.strand = true)
include hq hs his

/-- Whether an answer is refused for the pool, refused for the counters, or a counter (R117). -/
theorem submissionResult_cases (hc : s.strand.cancelled = false) (hx : s.strand.state ≠ .exited) :
    (∃ why, (why = 1 ∨ why = 2) ∧
      exec .submissionResult s = .next (updStrand r.strand (answered r (refusedWord why)) (requestTaken rs s))) ∨
    ∃ c < 4096, ∃ root, exec .submissionResult s =
      .next (updStrand r.strand (answered r (BitVec.ofNat 64 c)) (requestAccepted r c root (requestTaken rs s))) := by
  have hfind : findStrand s r.strand = some s.strand := hs ▸ findStrand_self his
  have hnot : requestCancelled s r = false := by simp [requestCancelled, hfind, hc, hx]
  by_cases hfull : r.kind ≠ .free ∧ 16384 ≤ s.hub.ready.length
  · refine .inl ⟨2, .inr rfl, ?_⟩
    show execSubmissionResult s = _
    simp only [execSubmissionResult, hq, if_pos hfull]
    rfl
  · rcases allocCounter_cases (requestCounter r (requestTaken rs s)) (requestTaken rs s) with ha | ⟨c, hmem, ha⟩
    · refine .inl ⟨1, .inl rfl, ?_⟩
      show execSubmissionResult s = _
      unfold requestCounter requestTaken at ha
      simp only [execSubmissionResult, hq, hfind, if_neg hfull, runAct, ha]
      rfl
    · refine .inr ⟨c, lt_of_mem_freeCounters hmem, natBits s.strand.csr.atp.toNat 51 13 * 2 ^ 13, ?_⟩
      show execSubmissionResult s = _
      unfold requestCounter requestTaken at ha
      simp only [execSubmissionResult, hq, hfind, if_neg hfull, runAct, ha, hnot, Bool.false_and, Bool.false_eq_true, if_false]
      rfl

end

/-- The strand gets its answer, and the count of what the hub owes it falls. -/
theorem strand_answer {s : State} {r : HubReq} (v : Word) (hs : r.strand = s.strand.id) (his : isStrand s.strand = true)
    (hw : s.strand.haltWait = none) : (updStrand r.strand (answered r v) s).strand = { s.strand with
      fePend := s.strand.fePend ++ [{ rd := r.rd, val := v, seq := 0 }], asked := s.strand.asked - 1 } := by
  rw [updStrand_focus _ his hs, answered_strand r v hw]

theorem submit_strand (r : HubReq) (c : Nat) (root : Word) (s : State) : (submit r c root s).strand = s.strand := by
  unfold submit; split <;> rfl

theorem submit_counters (r : HubReq) (c : Nat) (root : Word) (s : State) :
    (submit r c root s).hub.counters = s.hub.counters ∧ (submit r c root s).hub.reqs = s.hub.reqs ∧
      (submit r c root s).mem = s.mem := by
  unfold submit; split <;> exact ⟨rfl, rfl, rfl⟩

section
variable {s : State} {r : HubReq} (c root : Nat) (hs : r.strand = s.strand.id) (his : isStrand s.strand = true)
  (hx : s.strand.state ≠ .exited)

include hs his hx in
theorem requestAccepted_strand : (requestAccepted r c root s).strand = { s.strand with subs := s.strand.subs ++ [c] } := by
  have hstrand : (setCounter c (requestCounter r s) (forgetObject c { s with freeCtr := s.freeCtr + 1 })).strand = s.strand :=
    forgetObject_strand c hx
  rw [requestAccepted, submit_strand, updStrand_focus _ (by rw [hstrand]; exact his) (by rw [hstrand]; exact hs), hstrand]

theorem requestAccepted_frame : smGet (requestAccepted r c root s).hub.counters c = some (requestCounter r s) ∧
    (requestAccepted r c root s).hub.reqs = s.hub.reqs ∧ (requestAccepted r c root s).mem = s.mem := by
  obtain ⟨hcounters, hreqs, hmem⟩ := submit_counters r c (BitVec.ofNat 64 root)
    (updStrand r.strand (fun t => { t with subs := t.subs ++ [c] })
      (setCounter c (requestCounter r s) (forgetObject c { s with freeCtr := s.freeCtr + 1 })))
  refine ⟨?_, hreqs, hmem⟩
  rw [requestAccepted, hcounters]
  exact smGet_smSet_same _ _ _

end

/-- The hub answers the oldest request (R117, R121). -/
theorem submissionResult_answers {s : State} {r : HubReq} {rs : List HubReq} (hq : s.hub.reqs = r :: rs)
    (hs : r.strand = s.strand.id) (his : isStrand s.strand = true) (hx : s.strand.state ≠ .exited)
    (hc : s.strand.cancelled = false) (hw : s.strand.haltWait = none) :
    ∃ t v, exec .submissionResult s = .next t ∧ t.hub.reqs = rs ∧ t.strand.asked = s.strand.asked - 1 ∧
      t.strand.fePend = s.strand.fePend ++ [{ rd := r.rd, val := v, seq := 0 }] ∧ t.strand.x = s.strand.x ∧
      t.mem = s.mem ∧
      (v.toNat < 4096 → ∃ c, smGet t.hub.counters v.toNat = some c ∧ c.asid = s.strand.asid ∧ c.kind = r.kind ∧ c.count = 0 ∧
        c.final = false ∧ c.cancelled = false ∧ c.rejected = false ∧ t.strand.subs = s.strand.subs ++ [v.toNat]) ∧
      (4096 ≤ v.toNat → v = 0x8000000000001000#64 ∨ v = 0x8000000000002000#64) := by
  rcases submissionResult_cases hq hs his hc hx with ⟨why, hwhy, hexec⟩ | ⟨c, hlt, root, hexec⟩
  · have hstrand := strand_answer (s := requestTaken rs s) (refusedWord why) hs his hw
    refine ⟨_, refusedWord why, hexec, rfl, by rw [hstrand]; rfl, by rw [hstrand]; rfl, by rw [hstrand]; rfl, rfl,
      fun h => ?_, fun _ => ?_⟩
    · rw [refusedWord_toNat (by omega)] at h
      omega
    · rcases hwhy with rfl | rfl
      · exact .inl rfl
      · exact .inr rfl
  · have hacc := requestAccepted_strand (s := requestTaken rs s) c root hs his hx
    obtain ⟨hcounter, hreqs, hmem⟩ := requestAccepted_frame (s := requestTaken rs s) (r := r) c root
    have hstrand := strand_answer (s := requestAccepted r c root (requestTaken rs s)) (BitVec.ofNat 64 c)
      (by rw [hacc]; exact hs) (by rw [hacc]; exact his) (by rw [hacc]; exact hw)
    rw [hacc] at hstrand
    have hnat : (BitVec.ofNat 64 c).toNat = c := by rw [BitVec.toNat_ofNat, Nat.mod_eq_of_lt (by omega)]
    refine ⟨_, BitVec.ofNat 64 c, hexec, hreqs, by rw [hstrand]; rfl, by rw [hstrand]; rfl, by rw [hstrand]; rfl, hmem,
      fun _ => ?_, fun h => ?_⟩
    · rw [hnat, hstrand]
      exact ⟨_, hcounter, rfl, rfl, rfl, rfl, rfl, rfl, rfl⟩
    · rw [hnat] at h
      omega

/-! ## The results of the front -/

theorem isEmpty_setFull (t : Strand) (r q : Reg) : isEmpty (setFull t r) q = if q = r then false else isEmpty t q := by
  have hq : q.toNat < 32 := q.isLt
  have hbit : (1#32 <<< r.toNat).getLsbD q.toNat = decide (q = r) := by
    rw [← BitVec.twoPow_eq, BitVec.getLsbD_twoPow]
    have hr : (r.toNat = q.toNat) ↔ (q = r) := ⟨fun h => (BitVec.eq_of_toNat_eq h).symm, fun h => by rw [h]⟩
    rw [decide_eq_true (show r.toNat < 32 from r.isLt), Bool.true_and]
    exact decide_eq_decide.mpr hr
  unfold isEmpty setFull
  rw [BitVec.getLsbD_and, BitVec.getLsbD_not, hbit, decide_eq_true hq]
  by_cases h : q = r
  · simp [h]
  · simp [h]

/-- The oldest result on its way is written, full (R36). -/
theorem feResultWrite_writes {s : State} {w : PendWrite} {ws : List PendWrite} (h : s.strand.fePend = w :: ws) :
    ∃ t, exec .feResultWrite s = .next t ∧ t.strand.fePend = ws ∧ isEmpty t.strand w.rd = false ∧
    (w.rd ≠ 0 → readReg t.strand w.rd = w.val) ∧
    (∀ r, r ≠ w.rd → readReg t.strand r = readReg s.strand r ∧ isEmpty t.strand r = isEmpty s.strand r) ∧
    t = { s with strand := { s.strand with x := t.strand.x, empty := t.strand.empty, fePend := ws } } := by
  have hexec : exec .feResultWrite s =
      .next { s with strand := { setFull (writeReg s.strand w.rd w.val) w.rd with fePend := ws } } := by
    show execFeResultWrite s = _
    simp only [execFeResultWrite, h]
  refine ⟨_, hexec, rfl, ?_, fun h0 => readReg_writeReg_same _ _ _ h0, fun r hr => ⟨readReg_writeReg_other _ _ _ _ hr, ?_⟩, ?_⟩
  · exact (isEmpty_setFull _ _ _).trans (if_pos rfl)
  · exact (isEmpty_setFull _ _ _).trans ((if_neg hr).trans (isEmpty_writeReg _ _ _ _))
  · unfold writeReg setFull
    split <;> rfl

end Sys2Proof.Machine

namespace Sys2Proof.Proofs

open Sys2Proof.Machine

/-- Settles O25: the three submitting forms by their work, the hub's answer by what the allocation gives. -/
theorem submissions : Obligations.Submissions := by
  refine ⟨fun s hd => ⟨fun d a hr => ⟨launch_asks hd hr, launch_align hr, cntnew_asks hd hr, cntnew_badCount hr⟩,
      fun d a b hr => ⟨gsubmit_asks hd hr, gsubmit_align hr⟩⟩,
    fun s r rs hq hs his hx hc hw => submissionResult_answers hq hs his hx hc hw, fun s w ws h => feResultWrite_writes h⟩

end Sys2Proof.Proofs

/-! # Counters (R40 to R42, R119 to R121) -/

namespace Sys2Proof.Machine

/-! ## What a strand may name -/

theorem ownCounter_names {s : State} {x : Word} {c : Counter} (h : Claims.Names s x c) :
    ownCounter s s.strand.asid x = some c := by
  obtain ⟨hx, hc, ha⟩ := h
  have hx' : x.toNat < 2 ^ 12 := hx
  rw [ownCounter, if_pos hx', counterOf, hc]
  exact if_pos ha

theorem ownCounter_none {s : State} {x : Word} (h : Claims.NamesNone s x) : ownCounter s s.strand.asid x = none := by
  unfold ownCounter
  split
  next hx =>
    split
    next c hc => exact if_neg fun ha => h c ⟨hx, hc, ha⟩
    · rfl
  · rfl

theorem dropBuffers_strand (h : Nat) (s : State) : (dropBuffers h s).strand = s.strand := by
  unfold dropBuffers
  split <;> rfl

theorem dropBuffers_withStrand (h : Nat) (s : State) (st : Strand) :
    dropBuffers h { s with strand := st } = { dropBuffers h s with strand := st } := by
  show (if (hoopOf s h).buffers = [] then { s with strand := st } else
    setHoop h { hoopOf s h with buffers := [] } { s with strand := st }) = _
  unfold dropBuffers
  split <;> rfl

/-- An acquire after a change of the strand alone. -/
theorem acquire_withStrand (s : State) (st : Strand) (h : st.hoop = s.strand.hoop) :
    acquire { s with strand := st } = (.ok (), { dropBuffers s.strand.hoop s with strand := st }) := by
  show (Except.ok (), dropBuffers st.hoop { s with strand := st }) = _
  rw [h, dropBuffers_withStrand]

theorem raise_acc (x : Word) (s : State) :
    (raise causeAcc x.toNat : Act (Option Word)) s = (.error (.trap (Claims.acc x)), s) := by
  rw [act_raise, BitVec.ofNat_toNat, BitVec.setWidth_eq]
  rfl

theorem natBits_low32 (n : Nat) : natBits n 31 0 = n % 2 ^ 32 := by
  rw [natBits, pow_zero, Nat.div_one]

section
variable {s : State} {a b d : Reg} {c : Counter} (hd : s.strand.dbgStep = false)

section
variable (hr : Claims.Full s.strand [a, b])
include hr

include hd in
/-- cntwait goes on, as an acquire (R119, R123). -/
theorem cntwait_passes (hn : Claims.Names s (readReg s.strand a) c)
    (hc : c.final = true ∨ (readReg s.strand b).toNat % 2 ^ 32 ≤ c.count.toNat) :
    exec (.cntwait a b) s = .next (advance (Claims.acquired 1 s)) := by
  refine frontInstr_done (act_pure () s) hr (s' := dropBuffers s.strand.hoop s) ?_
    ((congrArg Strand.dbgStep (dropBuffers_strand _ s)).trans hd)
  simp only [act_bind, act_getStrand, act_getS, ownCounter_names hn, natBits_low32, if_pos hc]
  rfl

/-- cntwait waits for the counter. -/
theorem cntwait_waits (hn : Claims.Names s (readReg s.strand a) c)
    (hc : ¬(c.final = true ∨ (readReg s.strand b).toNat % 2 ^ 32 ≤ c.count.toNat)) :
    exec (.cntwait a b) s =
      .next (frontWait (.counter (readReg s.strand a).toNat ((readReg s.strand b).toNat % 2 ^ 32)) s) := by
  refine frontInstr_waits (act_pure () s) hr (s' := s) ?_
  simp only [act_bind, act_getStrand, act_getS, ownCounter_names hn, natBits_low32, if_neg hc]
  rfl

theorem cntwait_acc (hn : Claims.NamesNone s (readReg s.strand a)) :
    exec (.cntwait a b) s = .next (frontTrap (Claims.acc (readReg s.strand a)) s) := by
  refine frontInstr_traps (act_pure () s) hr (s' := s) ?_
  simp only [act_bind, act_getStrand, act_getS, ownCounter_none hn, raise_acc]

end

section
variable (hr : Claims.Full s.strand [a, d])
include hr

include hd in
/-- cntread leaves rd empty until the counter's word arrives, and is an acquire (R119). -/
theorem cntread_asks (hn : Claims.Names s (readReg s.strand a) c) :
    exec (.cntread d a) s = .next (Claims.done (Claims.acquired 1 s) (if d = 0 then s.strand else
        { setEmpty s.strand d with
          fePend := s.strand.fePend ++ [{ rd := d, val := counterWord c, seq := s.strand.nextSeq }] })) := by
  refine frontInstr_done (act_pure () s) hr (s' := { dropBuffers s.strand.hoop s with strand := if d = 0 then s.strand else
    { setEmpty s.strand d with
      fePend := s.strand.fePend ++ [{ rd := d, val := counterWord c, seq := s.strand.nextSeq }] } }) ?_ ?_
  · by_cases h0 : d = 0
    · simp only [act_bind, act_getStrand, act_getS, ownCounter_names hn, h0, if_true]
      rw [if_neg (not_not.2 rfl), act_bind, acquire_withStrand s s.strand rfl]
      rfl
    · simp only [act_bind, act_getStrand, act_getS, ownCounter_names hn, if_neg h0, if_pos h0]
      rw [act_modStrand]
      dsimp only
      rw [acquire_withStrand s _ (by simp)]
      rfl
  · by_cases h0 : d = 0
    · rw [if_pos h0]
      exact hd
    · rw [if_neg h0]
      exact (setEmpty_dbgStep s.strand d).trans hd

theorem cntread_acc (hn : Claims.NamesNone s (readReg s.strand a)) :
    exec (.cntread d a) s = .next (frontTrap (Claims.acc (readReg s.strand a)) s) := by
  refine frontInstr_traps (act_pure () s) hr (s' := s) ?_
  simp only [act_bind, act_getStrand, act_getS, ownCounter_none hn, raise_acc]

end

section
variable (hr : Claims.Full s.strand [a])
include hr

theorem cancel_asks (hn : Claims.Names s (readReg s.strand a) c)
    (hd : (cancelAll (readReg s.strand a).toNat s).strand.dbgStep = false) :
    exec (.cancel a) s = .next (advance (cancelAll (readReg s.strand a).toNat s)) := by
  refine frontInstr_done (act_pure () s) hr (s' := cancelAll (readReg s.strand a).toNat s) ?_ hd
  simp only [act_bind, act_getStrand, act_getS, ownCounter_names hn]
  rfl

theorem cancel_acc (hn : Claims.NamesNone s (readReg s.strand a)) :
    exec (.cancel a) s = .next (frontTrap (Claims.acc (readReg s.strand a)) s) := by
  refine frontInstr_traps (act_pure () s) hr (s' := s) ?_
  simp only [act_bind, act_getStrand, act_getS, ownCounter_none hn, raise_acc]

end

end

/-- A final object is unaffected by a cancel (R120). -/
theorem cancelAll_final {s : State} {i : Nat} {c : Counter} (hc : smGet s.hub.counters i = some c) (hf : c.final = true)
    (hq : s.hub.quiesce = false) : cancelAll i s = s := by
  have ht : cancelTree i s = s := by
    simp only [cancelTree, counterOf, hc, hf, if_true]
  rw [cancelAll, hq, ht]
  rfl

/-! ## The counting of children -/

/-- The counters and the strand in focus stand as before, and memory does where no ring writes into it. -/
structure CountersKept (u t : State) : Prop where
  counters : t.hub.counters = u.hub.counters
  strand : t.strand = u.strand
  bytes : Claims.RingOff u → t.mem.bytes = u.mem.bytes

theorem countersKept_countFinal {u s : State} (v : Counter) (x : Bool) (h : CountersKept u s) :
    CountersKept u (countFinal v x s) := by
  obtain ⟨hc, hst, hb⟩ := h
  unfold countFinal
  split <;> exact ⟨hc, hst, hb⟩

theorem countersKept_emitHub {u s : State} (typ payload : Nat) (hc : s.hub.counters = u.hub.counters)
    (hst : s.strand = u.strand) (hm : s.mem = u.mem) : CountersKept u (emitHub typ payload s) := by
  have hrec := recorded_emitHub typ payload s
  refine ⟨(congrArg Hub.counters hrec.hub).trans hc, hrec.strand.trans hst, fun hr => ?_⟩
  have hroff : Claims.RingOff s := (ringOff_congr (bar0_congr (congrArg Mem.bar0 hm) _ _)).2 hr
  exact (hrec.bytes hroff).trans (congrArg Mem.bytes hm)

theorem countersKept_counterFinal (c : Nat) (v : Counter) (s : State) : CountersKept s (counterFinal c v s) := by
  unfold counterFinal
  split
  · apply countersKept_emitHub
    · dsimp only [dropEntries]
      split <;> rfl
    · dsimp only [dropEntries]
      split <;> rfl
    · dsimp only [dropEntries]
      split <;> rfl
  · split
    next j hj =>
      dsimp only
      split <;> exact ⟨rfl, rfl, fun _ => rfl⟩
    · exact ⟨rfl, rfl, fun _ => rfl⟩
  · exact ⟨rfl, rfl, fun _ => rfl⟩

/-- A counter that is not final counts one more child (R41). -/
theorem incCounter_counts {s : State} {c : Nat} {v : Counter} (x : Bool) (hc : smGet s.hub.counters c = some v)
    (hf : v.final = false) (hmax : v.count ≠ 0xFFFFFFFF#32) :
    ∃ w, smGet (incCounter c x s).hub.counters c = some w ∧ w.count = v.count + 1 ∧ w.cancelled = (v.cancelled || x) ∧
      w.asid = v.asid ∧ w.kind = v.kind ∧ w.final = decide (v.expected ≤ v.count.toNat + 1) ∧
      (incCounter c x s).strand = s.strand ∧ (Claims.RingOff s → (incCounter c x s).mem.bytes = s.mem.bytes) := by
  have hcount : (v.count + 1).toNat = v.count.toNat + 1 := by
    have hlt := v.count.isLt
    bv_omega
  have hkept : CountersKept (advanceEpoch v.asid (setCounter c { v with
      count := v.count + 1, cancelled := v.cancelled || x, final := decide (v.expected ≤ (v.count + 1).toNat) } s))
      (incCounter c x s) := by
    simp only [incCounter, counterOf, hc, hf]
    rw [if_neg Bool.false_ne_true]
    split
    · exact countersKept_countFinal _ _ (countersKept_counterFinal _ _ _)
    · exact ⟨rfl, rfl, fun _ => rfl⟩
  obtain ⟨hcs, hst, hb⟩ := hkept
  refine ⟨_, (congrArg (smGet · c) hcs).trans (smGet_smSet_same _ _ _), rfl, rfl, rfl, rfl, ?_, hst, hb⟩
  rw [hcount]

/-- COUNTER_INCREMENT counts the oldest completion that waits for the counter (R41, R43). -/
theorem counterIncrement_counts {s : State} {c : Nat} {x : Bool} (hx : (c, x) ∈ s.hub.incs)
    (hall : ∀ y, (c, y) ∈ s.hub.incs → y = x) :
    ∃ incs, exec (.counterIncrement c) s = .next (incCounter c x { s with hub := { s.hub with incs := incs } }) := by
  have hsome : (s.hub.incs.findIdx? fun p => p.1 = c).isSome := by
    rw [List.findIdx?_isSome, List.any_eq_true]
    exact ⟨(c, x), hx, decide_eq_true rfl⟩
  obtain ⟨k, hk⟩ := Option.isSome_iff_exists.mp hsome
  obtain ⟨hlt, heq, _⟩ := List.findIdx?_eq_some_iff_getElem.mp hk
  have hy : s.hub.incs[k].2 = x := by
    refine hall _ ?_
    rw [← of_decide_eq_true heq]
    exact List.getElem_mem hlt
  refine ⟨listDel s.hub.incs k, ?_⟩
  show execCounterIncrement c s = _
  simp only [execCounterIncrement, hk, List.getElem?_eq_getElem hlt, Option.map_some, Option.getD_some, hy]

end Sys2Proof.Machine

namespace Sys2Proof.Proofs

open Sys2Proof.Machine

/-- Settles O26: the three forms by their work, the word by its definition, a counted child by what `incCounter` keeps. -/
theorem counters : Obligations.Counters := by
  refine ⟨fun s hd => ⟨fun a b hr => ⟨fun c hn => ?_, cntwait_acc hr⟩, fun d a hr => ⟨fun c hn => cntread_asks hd hr hn, cntread_acc hr⟩,
    fun a hr => ⟨fun c hn hcd => cancel_asks hr hn hcd, fun c hn hf hq => ?_, cancel_acc hr⟩⟩, fun c => ?_,
    fun s c v x hx hall hc hf hmax => ?_⟩
  · split
    next h => exact cntwait_passes hd hr hn h
    next h => exact cntwait_waits hr hn h
  · have hkeep := cancelAll_final hn.2.1 hf hq
    exact (cancel_asks hr hn (by rw [hkeep]; exact hd)).trans (by rw [hkeep])
  · rw [counterWord, Nat.mul_comm]
  · obtain ⟨incs, hexec⟩ := counterIncrement_counts hx hall
    obtain ⟨w, hw⟩ := incCounter_counts (s := { s with hub := { s.hub with incs := incs } }) x hc hf hmax
    obtain ⟨hget, hcount, hcan, hasid, hkind, hfinal, hst, hb⟩ := hw
    exact ⟨_, w, hexec, hget, hcount, hcan, hasid, hkind, hfinal, hst, hb⟩

end Sys2Proof.Proofs

/-! # The end of a cancelled strand that has issued a publish set (R42, R282) -/

namespace Sys2Proof.Machine

/-- A publish set that the strand 0 of launch 0 has issued, not installed yet. -/
def issuedSet : PubSet :=
  { addr := 0x20000, asid := 1, root := 0x2000, writers := 0, publishing := false, owner := ⟨0, 0⟩, entries := [] }

/-- Its issuer, which runs outside every loop and has been cancelled. -/
noncomputable def cancelledStrand : Strand :=
  { Strand.idle with state := .running, asid := 1, cancelled := true, csr := { Csrs.reset with atp := 0x2001#64 } }

/-- The machine with both; its tables map the addresses 0 to 2^28 − 1 to HBM. -/
noncomputable def cancelledIssuer : State :=
  let s := State.reset.withFetchWord 32 0x00000013
  { s with strand := cancelledStrand, hub := { s.hub with sets := [issuedSet] } }

theorem cancelledIssuer_stops : exec .strandCancelStop cancelledIssuer =
    .next (endStrand cancelledStrand.id true 0x14 cancelledIssuer) := by
  show execStrandCancelStop cancelledIssuer = _
  unfold execStrandCancelStop
  exact if_pos (by decide +kernel)

/-- The discard of the set writes its state 3 into memory. -/
theorem cancelledIssuer_writes :
    (endStrand cancelledStrand.id true 0x14 cancelledIssuer).mem.bytes ≠ cancelledIssuer.mem.bytes := by
  decide +kernel

theorem cancelledIssuer_ringOff : Claims.RingOff cancelledIssuer := by
  unfold Claims.RingOff
  decide +kernel

end Sys2Proof.Machine

namespace Sys2Proof.Proofs

open Sys2Proof.Machine

/-- Refutes O29: as a cancelled strand ends, the publish sets that it has issued are discarded, and state 3 is written into
each (R282), so memory does not stay as it was although no trace records go to the ring. -/
theorem not_strandsEndAndIdle : ¬ Obligations.StrandsEndAndIdle := by
  intro h
  obtain ⟨_, _, hcancel, _⟩ := h
  obtain ⟨t, ht, _, _, _, _, _, _, hbytes⟩ :=
    hcancel cancelledIssuer ⟨by decide +kernel, by decide +kernel⟩ (by decide +kernel) (.inl (by decide +kernel))
  obtain rfl : _ = t := by simpa using cancelledIssuer_stops.symm.trans ht
  exact cancelledIssuer_writes (hbytes cancelledIssuer_ringOff)

end Sys2Proof.Proofs

/-! # A stack unit's word that reads as one of the V queue (R33, R81) -/

namespace Sys2Proof.Machine

/-- The bits of a stack unit's `padd` with immediate 11, which as a strand word are of OP-VA. -/
def unitWord : Word32 := SuFields.pack 0b010110#6 0 0 0 0b00000001011#11

theorem encode_unitWord : encode (.suPadd 0 0 0b00000001011#11) = some unitWord := rfl

theorem isVecWord_unitWord : isVecWord unitWord = true := by decide +kernel

/-- An entry that has performed its effects, whose word has no tk field. -/
def doneEntry : VEntry := { captureV Strand.idle 0 0 0 .none with done := true }

/-- A turn of the vector side with that entry alone in the V queue; no stack unit runs. -/
noncomputable def doneHead : State :=
  { State.reset with strand := { Strand.idle with vq := [doneEntry] }, actor := .vec }

/-- A unit's instruction does nothing where the unit has no command. -/
theorem suInstr_idle {legal : Bool} {work : SuCmd → StackUnit → Act StackUnit} {next : Nat → StackUnit → StackUnit} {s : State}
    (h : (unitOf s s.curUnit).running = none) : suInstr legal work next s = .next s := by
  simp only [suInstr, h]

theorem doneHead_suPadd : exec (.suPadd 0 0 0b00000001011#11) doneHead = .next doneHead := by
  have hidle : (unitOf doneHead doneHead.curUnit).running = none := by decide +kernel
  show execSuPadd 0 0 0b00000001011#11 doneHead = _
  rw [execSuPadd, suInstr_idle hidle]

theorem doneHead_retires : (retireV doneHead).strand.vq = [] := by decide +kernel

end Sys2Proof.Machine

namespace Sys2Proof.Proofs

open Sys2Proof.Machine

/-- Refutes O30: that every instruction whose word is one of the V queue retires a head that is done fails of a stack unit's
`padd` with immediate 11: its low seven bits are those of OP-VA, and the instruction does not touch the V queue. -/
theorem not_tokensBetweenQueues : ¬ Obligations.TokensBetweenQueues := by
  intro h
  obtain ⟨_, _, hheads⟩ := h
  obtain ⟨_, _, _, _, hturn⟩ := hheads doneHead doneEntry [] rfl
  have hretire := (hturn (.suPadd 0 0 0b00000001011#11) unitWord encode_unitWord isVecWord_unitWord rfl).1 rfl
  rw [doneHead_suPadd] at hretire
  have hsame : doneHead = retireV doneHead := by simpa using hretire
  have hvq : doneHead.strand.vq = [] := (congrArg (fun s : State => s.strand.vq) hsame).trans doneHead_retires
  exact List.cons_ne_nil _ _ hvq

end Sys2Proof.Proofs

/-! # `vhad` under stochastic rounding as it enters the V queue (R106, R157, R402) -/

namespace Sys2Proof.Machine

/-- vhad x0, x1, v0, and its word. -/
noncomputable def hadInstr : Instr := .vhad 0 1 0
def hadWord : Word32 := Fields.pack 0b0101100#7 0 1 0b101#3 0 0b0001011#7

/-- A strand whose x1 asks `vhad` to quantise, with rounding under SR. -/
noncomputable def quantisingStrand : Strand :=
  { writeReg Strand.idle 1 16 with csr := { Csrs.reset with vfrm := 5 } }

/-- A turn of the front with that strand, at that word. -/
noncomputable def quantising : State :=
  { State.reset with strand := quantisingStrand, actor := .front, fetched := hadWord }

/-- The seed that an instruction leaves. -/
def seedAfter (o : Out) : Option Word :=
  match o with
  | .next t => some t.strand.csr.srseed
  | _ => none

/-- The model's `vhad` that quantises takes the seed and moves it on, as `vquant` does. -/
theorem quantising_seed : seedAfter (exec hadInstr quantising) = some (quantising.strand.csr.srseed + seedStep) := by
  decide +kernel

theorem quantising_takesNoSeed : Claims.takesSeed quantising.strand hadWord = false := by decide +kernel

end Sys2Proof.Machine

namespace Sys2Proof.Proofs

open Sys2Proof.Machine

/-- Refutes O31: a `vhad` that quantises rounds under SR too, and so takes the seed and moves it on, while the statement
names `vquant` and `vfcvt` alone. -/
theorem not_vectorInstructionsEnter : ¬ Obligations.VectorInstructionsEnter := by
  intro h
  have henter := h.1 hadInstr hadWord quantising rfl (by decide +kernel) (by decide +kernel) rfl rfl rfl (by decide +kernel)
    (by decide +kernel)
  rw [quantising_takesNoSeed] at henter
  have hseed : some (quantising.strand.csr.srseed + seedStep) = some quantising.strand.csr.srseed :=
    quantising_seed.symm.trans (congrArg seedAfter henter)
  exact absurd hseed (by decide +kernel)

end Sys2Proof.Proofs

/-! # Commands: acceptance, retirement and the oldest fault (R35, R242, R298, R433) -/

namespace Sys2Proof.Machine

/-! ## The fields of a command word -/

theorem cmdOf_eq_natBits (w : Word32) : cmdOf w = natBits w.toNat 31 25 := Laws.toNat_extractLsb' w 25 7

theorem engineOf_eq_natBits (w : Word32) : engineOf w = natBits w.toNat 7 7 := by
  have hbit : w.getLsbD 7 = decide (w.toNat / 2 ^ 7 % 2 = 1) := by
    rw [BitVec.getLsbD, Nat.testBit_eq_decide_div_mod_eq]
  have hlt : w.toNat / 2 ^ 7 % 2 < 2 := Nat.mod_lt _ (by decide)
  simp only [engineOf, hbit, decide_eq_true_eq, natBits]
  split <;> omega

/-- The fields of a word whose bits are given as numbers. -/
theorem field_eq_of_natBits {w : Word32} {lo n v : Nat} (h : w.toNat / 2 ^ lo % 2 ^ n = v) :
    w.extractLsb' lo n = BitVec.ofNat n v := by
  apply BitVec.eq_of_toNat_eq
  rw [Laws.toNat_extractLsb', BitVec.toNat_ofNat, ← h, Nat.mod_mod]

/-! ## The command that stands ready -/

section
variable {s : State} {q : Queue} {e : CEntry} {cmd : Nat} (h : Claims.Standing s q e cmd)
include h

theorem standing_op : (Fields.ofWord e.word).op = 0b1011011#7 := field_eq_of_natBits h.op

theorem standing_tkOf : tkOf e.word = 0 := by
  have hf3 : (Fields.ofWord e.word).f3 = 0 := field_eq_of_natBits h.tk
  simp [tkOf, standing_op h, hf3]

theorem standing_notMarker : isMarker e.word = false := by
  simp [isMarker, standing_op h]

theorem standing_cmdOf : cmdOf e.word = cmd := (cmdOf_eq_natBits e.word).trans h.which

theorem standing_notStopped : queueStopped s.strand q = false := by
  rw [queueStopped, h.clear, List.any_nil]

/-- It is acceptable, with no pop, where its unit is ready. -/
theorem acceptable_standing (hu : unitReady s.strand q e = true) : acceptable q s.strand = some (e, none) := by
  have hfind : (cmdQueue s.strand q).find? (fun e => !e.accepted) = some e := by
    rw [h.only, List.find?_cons_of_pos (by simp [h.notYet])]
  have hmeaning : tkMeaning q (tkOf e.word) = none := by rw [standing_tkOf h]; rfl
  have hpop : (if e.popped then none else (none : Option Queue)) = none := ite_self _
  simp only [acceptable, hfind, hmeaning, hpop, standing_notMarker h, standing_notStopped h, hu, h.run]
  rfl

/-- The check of its word passes. -/
theorem recheck_standing (hl : listedCmd q cmd = true) (hz : cmdZeros e.word = true) (t : State) :
    recheckCommand q e.word t = (.ok (), t) := by
  simp only [recheckCommand, standing_op h, standing_cmdOf h, hl, hz, decide_true, Bool.and_self, act_bind, act_require_true]

/-- COMMAND_ACCEPT hands it to its unit. -/
theorem accept_standing {n : BitVec 3} {t : State} (hn : Queue.ofCode n.toNat = some q) (hs : q ≠ .s) (hv : q ≠ .v)
    (hu : unitReady s.strand q e = true) (hl : listedCmd q cmd = true) (hz : cmdZeros e.word = true)
    (h32 : cmd ≠ 0x32) (h38 : cmd ≠ 0x38) (hw : acceptEntry q e s = (.ok (), t)) : exec (.commandAccept n) s = .next t := by
  have hturn : acceptTurn s e = true := by simp [acceptTurn, standing_cmdOf h, h32, h38]
  have hentry : ({ e with popped := e.popped || (none : Option Queue).isSome } : CEntry) = e := by
    rw [Option.isSome_none, Bool.or_false]
  show execCommandAccept n s = _
  simp only [execCommandAccept, hn]
  cases q with
  | s => exact absurd rfl hs
  | v => exact absurd rfl hv
  | _ =>
    simp only [acceptable_standing h hu, h.live, hturn, hentry, standing_cmdOf h, h32, h38]
    simp only [engineWork, act_bind, recheck_standing h hl hz, hw]
    rfl

end

/-- The change of an entry that stands alone in its queue. -/
theorem setEntry_only {st : Strand} {q : Queue} {e : CEntry} (f : CEntry → CEntry) (h : cmdQueue st q = [e]) :
    setEntry q e.seq f st = setCmdQueue st q [f e] := by
  rw [setEntry, h, listUpd, List.map_singleton, if_pos (decide_eq_true rfl)]

/-! ## mflip and mzero (R252, R254) -/

section
variable {s : State} {e : CEntry} {cmd : Nat} (h : Claims.Standing s .m e cmd) (hcmd : cmd = 3 ∨ cmd = 7)
include h hcmd

theorem cmdZeros_exchange (hr1 : natBits e.word.toNat 19 15 = 0) : cmdZeros e.word = true := by
  obtain ⟨hr2, hrd⟩ := h.plain
  have h1 : (Fields.ofWord e.word).r1 = 0 := field_eq_of_natBits hr1
  have h2 : (Fields.ofWord e.word).r2 = 0 := field_eq_of_natBits hr2
  have h3 : e.word.extractLsb' 8 4 = 0 := field_eq_of_natBits hrd
  have hle : cmd ≤ 8 := by omega
  simp [cmdZeros, standing_cmdOf h, h1, h2, h3, hle]

omit hcmd in
theorem unitReady_exchange (hcq : s.strand.cq = []) : unitReady s.strand .m e = true := by
  have hmq : s.strand.mq = [e] := h.only
  simp [unitReady, matReady, memoryOrder, olderDone, cmdQueue, presented, hmq, hcq]

/-- The engine takes it, and captures the scale state. -/
theorem acceptEntry_exchange {m : MatEngine} (hg : Claims.Granted s (natBits e.word.toNat 7 7))
    (hm : Claims.engineIs s (natBits e.word.toNat 7 7) m) :
    acceptEntry .m e s = (.ok (), { setHoop s.strand.hoop { hoopOf s s.strand.hoop with
        engines := (hoopOf s s.strand.hoop).engines.setIfInBounds (natBits e.word.toNat 7 7)
          { m with cmd := e.word, step := e.step, asid := some s.strand.asid } } s with
      strand := { s.strand with mq := [{ e with accepted := true, prog := { e.prog with
        desc := [], tiles := s.strand.tiles.toList, qs := s.strand.q.toList } }] } }) := by
  obtain ⟨g, hgrant, hen, hbit⟩ := hg
  have hcheck : matCheck cmd (natBits e.word.toNat 7 7) e.mcfg e.b s.strand s = (.ok (), s) := by
    rcases hcmd with rfl | rfl <;> simp [matCheck, act_bind, hgrant, hen, hbit]
  have hengine : ((hoopOf s s.strand.hoop).engines[natBits e.word.toNat 7 7]?).getD MatEngine.reset = m :=
    (congrArg (·.getD MatEngine.reset) hm).trans rfl
  have haccept : matAccept e s = (.ok { e with accepted := true, prog := { e.prog with
      desc := [], tiles := s.strand.tiles.toList, qs := s.strand.q.toList } },
      setHoop s.strand.hoop { hoopOf s s.strand.hoop with
        engines := (hoopOf s s.strand.hoop).engines.setIfInBounds (natBits e.word.toNat 7 7)
          { m with cmd := e.word, step := e.step, asid := some s.strand.asid } } s) := by
    rcases hcmd with rfl | rfl <;>
    · simp only [matAccept, captureScales, enginePort, modEngine, modHoop, standing_cmdOf h, engineOf_eq_natBits, act_bind,
        act_getStrand, act_pure, act_modS, hengine]
      rfl
  simp only [acceptEntry, standing_cmdOf h, engineOf_eq_natBits, act_bind, act_getStrand, hcheck, haccept, modEntry,
    act_modStrand]
  rw [setHoop_strand, setEntry_only _ h.only]
  rfl

/-- Acceptance of an exchange of planes or a clearing (R242, R249, R252). -/
theorem exchange_accepted {m : MatEngine} (hr1 : natBits e.word.toNat 19 15 = 0) (hcq : s.strand.cq = [])
    (hg : Claims.Granted s (natBits e.word.toNat 7 7)) (hm : Claims.engineIs s (natBits e.word.toNat 7 7) m) :
    ∃ t, exec (.commandAccept 2) s = .next t ∧
      t.strand = { s.strand with mq := [{ e with accepted := true, prog := { e.prog with
        desc := [], tiles := s.strand.tiles.toList, qs := s.strand.q.toList } }] } ∧
      Claims.engineIs t (natBits e.word.toNat 7 7) { m with cmd := e.word, step := e.step, asid := some s.strand.asid } ∧
      t.mem = s.mem ∧ t.hub = s.hub ∧ t.pool = s.pool := by
  have hlisted : listedCmd .m cmd = true := by rcases hcmd with rfl | rfl <;> rfl
  refine ⟨_, accept_standing h rfl (by decide) (by decide) (unitReady_exchange h hcq) hlisted (cmdZeros_exchange h hcmd hr1)
    (by omega) (by omega) (acceptEntry_exchange h hcmd hg hm), rfl, ?_, rfl, rfl, rfl⟩
  have hlt : natBits e.word.toNat 7 7 < 2 := Nat.mod_lt _ (by decide)
  show (hoopOf (setHoop s.strand.hoop _ s) s.strand.hoop).engines[natBits e.word.toNat 7 7]? = _
  rw [hoopOf_setHoop_same]
  exact Vector.getElem?_setIfInBounds_self_of_lt hlt

end

/-! ## Copies (R298 to R300) -/

section
variable {s s1 : State} {e : CEntry} {bs : List Byte} (h : Claims.Standing s .c e 0x20)
include h

theorem cmdZeros_copy (h7 : natBits e.word.toNat 7 7 = 0) : cmdZeros e.word = true := by
  obtain ⟨hr2, hrd⟩ := h.plain
  have h2 : (Fields.ofWord e.word).r2 = 0 := field_eq_of_natBits hr2
  have h3 : (Fields.ofWord e.word).rd = 0 := field_eq_of_natBits (v := 0) (by simp only [natBits] at h7 hrd; omega)
  simp [cmdZeros, standing_cmdOf h, h2, h3]

theorem unitReady_copy : unitReady s.strand .c e = true := by
  have hcq : s.strand.cq = [e] := h.only
  simp [unitReady, olderBusy, cmdQueue, hcq]

/-- A copy is accepted with its descriptor and its chunks counted. -/
theorem copy_accepted (h7 : natBits e.word.toNat 7 7 = 0)
    (hread : vsReadBlock (strandPort s.strand 4) e.a.toNat 64 s = (.ok bs, s1)) (hst : s1.strand = s.strand)
    (hok : copyFieldsOk 0x20 bs (copyDesc bs) = true) (hfollow : (copyDesc bs).follows = false)
    (hmode : (copyDesc bs).publishMode = 0) (hmany : tooManyChunks 0x20 (copyDesc bs) [] = false) :
    ∃ t, exec (.commandAccept 3) s = .next t ∧ t.strand = { s1.strand with cq := [{ e with accepted := true, prog :=
        { e.prog with desc := bs, list := [], pos := if e.copied ∨ (copyChunks 0x20 (copyDesc bs) []).length ≤ e.step then [0] else []
                      tiles := [], qs := [], vals := [(0, BitVec.ofNat 64 (copyChunks 0x20 (copyDesc bs) []).length)] } }] } ∧
      t.pool = s1.pool ∧ (Claims.RingOff s1 → t.mem.bytes = s1.mem.bytes) := by
  have hnode : s1.strand.node = none := (congrArg Strand.node hst).trans h.free
  have hspace (n : Nat) : spaceAllowed s1.strand n = true := by rw [spaceAllowed, hnode]
  have hcq : cmdQueue s1.strand .c = [e] := (congrArg (cmdQueue · .c) hst).trans h.only
  have hrec (payload : Nat) := recorded_emitStrand s1.strand 5 payload s1
  have hstart : copyAccept e s = modEntry .c e.seq (fun x => { x with accepted := true, prog := { x.prog with
      desc := bs, list := [], pos := if e.copied || (copyChunks 0x20 (copyDesc bs) []).length ≤ e.step then [0] else []
      tiles := [], qs := [], vals := [(0, BitVec.ofNat 64 (copyChunks 0x20 (copyDesc bs) []).length)] } })
      (emitStrand s1.strand 5 (natBits e.a.toNat 47 6 * 2 ^ 6 +
        min 0xFFFF (copyChunks 0x20 (copyDesc bs) []).length * 2 ^ 48) s1) := by
    simp only [copyAccept, enginePort, standing_cmdOf h, act_bind, act_getStrand, act_pure, hread, hok, act_require_true, hfollow,
      hspace, Bool.false_and, Bool.not_false, Bool.and_self]
    simp only [Bool.false_eq_true, if_false, act_bind, act_pure, hmany, Bool.not_false, act_require_true, joinSet, hmode, ne_eq,
      not_true_eq_false, decide_false, Bool.false_and, act_getStrand, act_modS]
  have haccept : acceptEntry .c e s = copyAccept e s := by
    simp only [acceptEntry, standing_cmdOf h]
    rfl
  refine ⟨_, accept_standing h rfl (by decide) (by decide) (unitReady_copy h) rfl (cmdZeros_copy h h7) (by decide) (by decide)
    (haccept.trans hstart), ?_, (hrec _).pool, (hrec _).bytes⟩
  show setEntry .c e.seq _ (emitStrand s1.strand 5 _ s1).strand = _
  rw [(hrec _).strand, setEntry_only _ hcq]
  simp only [setCmdQueue, Bool.or_eq_true, decide_eq_true_eq]

end

/-! ## Pops without a token, and retirement (R35) -/

/-- A command whose pop finds no token waits. -/
theorem commandAccept_blocked {s : State} {q src : Queue} {n : BitVec 3} {e : CEntry} {es : List CEntry}
    (hn : Queue.ofCode n.toNat = some q) (hs : q ≠ .s) (hv : q ≠ .v) (hq : cmdQueue s.strand q = e :: es)
    (ha : e.accepted = false) (hp : e.popped = false) (htk : tkMeaning q (tkOf e.word) = some (false, src))
    (h0 : tokens s.strand src q = 0) : exec (.commandAccept n) s = .next s := by
  have hfind : (cmdQueue s.strand q).find? (fun e => !e.accepted) = some e := by
    rw [hq, List.find?_cons_of_pos (by simp [ha])]
  have hnone : acceptable q s.strand = none := by
    simp [acceptable, hfind, hp, htk, h0]
  show execCommandAccept n s = _
  simp only [execCommandAccept, hn]
  cases q with
  | s => exact absurd rfl hs
  | v => exact absurd rfl hv
  | _ => simp only [hnone]

section
variable {s : State} {e : CEntry} (h : Claims.Finished s .n e)
include h

theorem finished_retiring : retiringEntry s.strand .n 0 = some e := by
  have hop : (Fields.ofWord e.word).op = 0b1011011#7 := field_eq_of_natBits h.op
  have hmarker : isMarker e.word = false := by simp [isMarker, hop]
  rw [retiringEntry, h.only]
  simp [h.acc, h.fin, hmarker]

theorem finished_settled : settled .n e s = (.ok true, s) := by
  have hset : publishedSet e = none := by
    rw [publishedSet, h.unset]
    rfl
  simp only [settled, walkSettled, hset, act_pure]

/-- Its queue without it. -/
theorem finished_leaves : setCmdQueue s.strand .n ((cmdQueue s.strand .n).filter fun x => x.seq ≠ e.seq) =
    { s.strand with nq := [] } := by
  rw [h.only, List.filter_cons_of_neg (by simp), List.filter_nil]
  rfl

section
variable (hcmd : natBits e.word.toNat 31 25 ∉ [0x20, 0x21, 0x22])
include hcmd

omit h in
theorem finished_notCopy : ¬(0x20 ≤ cmdOf e.word ∧ cmdOf e.word ≤ 0x22) := by
  rw [cmdOf_eq_natBits]
  simp only [List.mem_cons, List.not_mem_nil, or_false, not_or] at hcmd
  omega

/-- It leaves its queue, counted as retired, with its push where it has one (R35). -/
theorem commandRetire_leaves {push : Option Queue} (hpush : tkMeaning .n (tkOf e.word) = push.map (true, ·))
    (hroom : ∀ dst, push = some dst → tokens s.strand .n dst ≠ 15) : exec (.commandRetire 4 0) s =
    .next (push.elim id (pushToken .n) (Claims.withStrand s { s.strand with nq := [], instret := s.strand.instret + 1 })) := by
  have hq : Queue.ofCode (4 : BitVec 3).toNat = some .n := rfl
  have hstop : queueStopped s.strand .n = false := by rw [queueStopped, h.clear, List.any_nil]
  show execCommandRetire 4 0 s = _
  simp only [execCommandRetire, hq]
  rw [show (0 : BitVec 1).toNat = 0 from rfl, finished_retiring h]
  generalize ht : push.elim id (pushToken .n) _ = t
  cases push with
  | none =>
    simp only [hpush, Option.map_none, h.live, hstop, engineWork, act_bind, finished_settled h, h.writer,
      if_neg (finished_notCopy hcmd), h.free, Bool.not_true, Bool.or_false, Bool.false_eq_true, if_false, act_pure,
      act_getStrand, act_modStrand]
    rw [finished_leaves h]
    exact congrArg _ ht
  | some dst =>
    simp only [hpush, Option.map_some, h.live, hstop, engineWork, act_bind, finished_settled h, h.writer,
      if_neg (finished_notCopy hcmd), h.free, Bool.not_true, Bool.or_false, Bool.false_eq_true, if_false, act_pure,
      act_getStrand, act_modStrand, hroom dst rfl, decide_false]
    rw [finished_leaves h]
    exact congrArg _ ht

omit hcmd in
/-- It stays while the counter of its push holds 15. -/
theorem commandRetire_full {dst : Queue} (htk : tkMeaning .n (tkOf e.word) = some (true, dst))
    (hfull : tokens s.strand .n dst = 15) : exec (.commandRetire 4 0) s = .next s := by
  have hq : Queue.ofCode (4 : BitVec 3).toNat = some .n := rfl
  show execCommandRetire 4 0 s = _
  simp only [execCommandRetire, hq]
  rw [show (0 : BitVec 1).toNat = 0 from rfl, finished_retiring h]
  simp only [htk, hfull, decide_true, Bool.true_or, if_true]

end

end

/-! ## The oldest fault (R433) -/

/-- The oldest fault of a list is one of it. -/
theorem oldestFault_mem {l : List PendingFault} {f : PendingFault} (h : oldestFault l = some f) : f ∈ l := by
  induction l with
  | nil => cases h
  | cons g gs ih =>
    rw [oldestFault] at h
    cases hgs : oldestFault gs with
    | none =>
      rw [hgs] at h
      exact List.mem_cons.2 (.inl (Option.some.inj h).symm)
    | some k =>
      simp only [hgs] at h ih
      split at h
      · exact List.mem_cons_of_mem _ (ih h)
      · exact List.mem_cons.2 (.inl (Option.some.inj h).symm)

/-- A fault older than every other one is the oldest. -/
theorem oldestFault_eq {l : List PendingFault} {f : PendingFault} (hf : f ∈ l)
    (hmin : ∀ g ∈ l, g = f ∨ f.seq < g.seq ∨ (f.seq = g.seq ∧ f.elem < g.elem)) : oldestFault l = some f := by
  induction l with
  | nil => cases hf
  | cons g gs ih =>
    rw [oldestFault]
    by_cases hmem : f ∈ gs
    · rw [ih hmem fun k hk => hmin k (List.mem_cons_of_mem _ hk)]
      rcases hmin g List.mem_cons_self with rfl | hold
      · exact ite_self _
      · exact if_pos hold
    · obtain rfl : f = g := (List.mem_cons.1 hf).resolve_right hmem
      cases hgs : oldestFault gs with
      | none => rfl
      | some k =>
        have hk := oldestFault_mem hgs
        refine if_neg fun hlt => ?_
        rcases hmin k (List.mem_cons_of_mem _ hk) with rfl | hold
        · exact hmem hk
        · omega

/-- The front takes the oldest fault at an instruction boundary. -/
theorem trapTake_takes {s : State} {f : PendingFault} (hf : f ∈ s.strand.pending)
    (hmin : ∀ g ∈ s.strand.pending, g = f ∨ f.seq < g.seq ∨ (f.seq = g.seq ∧ f.elem < g.elem))
    (hnode : s.strand.node = none) (hrun : s.strand.state = .running ∨ s.strand.state = .waiting) :
    exec .trapTake s = .next (takeTrap f.trap s) := by
  have hold := oldestFault_eq hf hmin
  show execTrapTake s = _
  rcases hrun with hrun | hrun <;> simp only [execTrapTake, takePending, hold, hnode, hrun]

end Sys2Proof.Machine

namespace Sys2Proof.Proofs

open Sys2Proof.Machine

/-- Settles O46: an exchange and a copy by their acceptance, a waiting pop, retirement with and without a push, and the
oldest fault by induction on the list of faults. -/
theorem commandsAcceptedAndRetired : Obligations.CommandsAcceptedAndRetired := by
  refine ⟨fun s e cmd m hcmd h hr1 hcq hg hm _ => exchange_accepted h hcmd hr1 hcq hg hm,
    fun s s1 e bs h h7 hread hst hok hfollow hmode hmany => copy_accepted h h7 hread hst hok hfollow hmode hmany,
    fun s q src n e es hn hs hv hq ha hp htk h0 => commandAccept_blocked hn hs hv hq ha hp htk h0,
    fun s e h hcmd => ⟨fun htk => ?_, fun dst htk hroom => ?_, fun dst htk hfull => commandRetire_full h htk hfull⟩,
    fun s f hf hmin hnode hrun => trapTake_takes hf hmin hnode hrun⟩
  · exact commandRetire_leaves h hcmd (push := none) htk (fun dst hd => by cases hd)
  · exact commandRetire_leaves h hcmd (push := some dst) htk (fun d hd => by cases hd; exact hroom)

end Sys2Proof.Proofs

/-! # Strands in their slots (O54): one strand is changed and the rest stays -/

namespace Sys2Proof.Machine

/-- A change of one strand that leaves it a strand of the same name is seen where it is looked up, and only there. -/
theorem findStrand_updStrand {f : Strand → Strand} (hid : ∀ t, (f t).id = t.id)
    (hst : ∀ t, isStrand t = true → isStrand (f t) = true) (s : State) (i j : StrandId) :
    findStrand (updStrand i f s) j = if j = i then (findStrand s j).map f else findStrand s j := by
  let p : Strand → Bool := fun t => isStrand t && t.id = i
  let g : Strand → Strand := fun t => if isStrand t = true then f t else t
  have hpg (t : Strand) : (if p t then g t else t) = if p t then f t else t := by
    by_cases ht : isStrand t = true <;> simp [p, g, ht]
  have hsame : updStrand i f s = updStrands p g s := by
    have hpool : s.pool.map (fun t => if p t then f t else t) = s.pool.map fun t => if p t then g t else t :=
      List.map_congr_left fun t _ => (hpg t).symm
    show ({ s with strand := if p s.strand then f s.strand else s.strand, pool := listUpd p f s.pool } : State) =
      { s with strand := if p s.strand then g s.strand else s.strand, pool := listUpd p g s.pool }
    rw [listUpd, listUpd, hpool, hpg]
  rw [hsame, findStrand_updStrands (fun t => by simp only [g]; split <;> simp [hid])
    (fun t => by simp only [g]; split <;> simp_all)]
  cases hf : findStrand s j with
  | none => simp
  | some t =>
    obtain ⟨hm, hname⟩ := mem_of_findStrand hf
    have ht := (mem_allStrands.1 hm).2
    by_cases hij : j = i <;> simp [p, g, ht, hname, hij]

theorem changed_updStrand {s : State} {i : StrandId} {t : Strand} {f : Strand → Strand} (hf : findStrand s i = some t)
    (hid : ∀ t, (f t).id = t.id) (hst : ∀ t, isStrand t = true → isStrand (f t) = true) :
    Claims.Changed i (f t) s (updStrand i f s) := by
  refine ⟨?_, fun j hj => ?_, rfl⟩
  · rw [findStrand_updStrand hid hst, if_pos rfl, hf]; rfl
  · rw [findStrand_updStrand hid hst, if_neg hj]

theorem Changed.trans {i : StrandId} {t v : Strand} {s u w : State} (h1 : Claims.Changed i t s u)
    (h2 : Claims.Changed i v u w) : Claims.Changed i v s w := by
  obtain ⟨-, others1, eq1⟩ := h1
  obtain ⟨found2, others2, eq2⟩ := h2
  refine ⟨found2, fun j hj => (others2 j hj).trans (others1 j hj), ?_⟩
  rw [eq2, eq1]

theorem changed_requestStop {s : State} {i : StrandId} {t : Strand} (hf : findStrand s i = some t) :
    Claims.Changed i (Claims.requested t) s (requestStop i s) :=
  changed_updStrand hf requested_id fun t ht => (isStrand_requested t).trans ht

/-- A record without a node is a strand in every state but Idle. -/
theorem isStrand_withState {t : Strand} (h : isStrand t = true) {st : RunState} (hs : st ≠ .idle) :
    isStrand { t with state := st } = true := by
  simp only [isStrand, Bool.and_eq_true] at h ⊢
  exact ⟨decide_eq_true hs, h.2⟩

/-! ## Issue, requests to stop, and the grace -/

theorem slotBeginIssue_runs {s : State} {i : StrandId} {t : Strand} (hf : findStrand s i = some t) (hr : t.state = .ready) :
    ∃ u, exec (.slotBeginIssue i) s = .next u ∧ Claims.Changed i { t with state := .running, sliceAc := 0 } s u := by
  have hrun := changed_updStrand (f := fun t => { t with state := .running }) hf (fun _ => rfl)
    fun t ht => isStrand_withState ht (by decide)
  refine ⟨_, ?_, Changed.trans hrun (changed_updStrand (f := fun t => { t with sliceAc := 0 }) hrun.1
    (fun _ => rfl) fun _ ht => ht)⟩
  show execSlotBeginIssue i s = _
  simp only [execSlotBeginIssue, setRunState, hf, hr, if_true]

theorem slotBeginIssue_notReady {s : State} {i : StrandId} {t : Strand} (hf : findStrand s i = some t)
    (hr : t.state ≠ .ready) : exec (.slotBeginIssue i) s = .next s := by
  show execSlotBeginIssue i s = _
  simp only [execSlotBeginIssue, hf, hr, if_false]

/-- An entry of a higher level that no free place can take may pre-empt (R386). -/
theorem mayPreempt_higher {s : State} {t : Strand}
    (h : ∃ e ∈ s.hub.ready, t.level < e.level ∧ ∀ x ∈ poolTargets s, entryTakes s e x = false) : mayPreempt s t = true := by
  obtain ⟨e, he, hlevel, hno⟩ := h
  have hany : s.hub.ready.any (fun e => decide (t.level < e.level) && !((poolTargets s).any (entryTakes s e))) = true := by
    refine List.any_eq_true.2 ⟨e, he, ?_⟩
    simpa [hlevel] using hno
  simp only [mayPreempt, hany, Bool.true_or]

theorem preemptionRequest_requests {s : State} {i : StrandId} {t : Strand} (hf : findStrand s i = some t)
    (hs : Claims.InSlot t)
    (he : ∃ e ∈ s.hub.ready, t.level < e.level ∧ ∀ x ∈ poolTargets s, entryTakes s e x = false) :
    ∃ u, exec (.preemptionRequest i) s = .next u ∧ Claims.Changed i (Claims.requested t) s u := by
  refine ⟨_, ?_, changed_requestStop hf⟩
  show execPreemptionRequest i s = _
  simp only [execPreemptionRequest, hf]
  exact if_pos ⟨(stoppable_iff t).2 hs, mayPreempt_higher he⟩

theorem peerWaits_iff (s : State) (t : Strand) :
    peerWaits s t = true ↔ ∃ e ∈ s.hub.ready, e.level = t.level ∧ Claims.EntryOf s e t.asid := by
  rw [peerWaits, List.any_eq_true]
  refine exists_congr fun e => and_congr_right fun _ => ?_
  rw [Bool.and_eq_true, decide_eq_true_iff]
  refine and_congr_right fun _ => ?_
  rw [Claims.EntryOf]
  cases e.strand with
  | some i => simp [Option.any_eq_true]
  | none => cases e.launch <;> simp [Option.any_eq_true]

theorem timeSliceExpiry_requests {s : State} {i : StrandId} {t : Strand} (hf : findStrand s i = some t)
    (hs : Claims.InSlot t) (hslice : s.hub.slice ≤ t.sliceAc)
    (he : ∃ e ∈ s.hub.ready, e.level = t.level ∧ Claims.EntryOf s e t.asid) :
    ∃ u, exec (.timeSliceExpiry i) s = .next u ∧ Claims.Changed i (Claims.requested t) s u := by
  refine ⟨_, ?_, changed_requestStop hf⟩
  show execTimeSliceExpiry i s = _
  simp only [execTimeSliceExpiry, hf]
  exact if_pos ⟨(stoppable_iff t).2 hs, hslice, (peerWaits_iff s t).2 he⟩

theorem timeSliceExpiry_early {s : State} {i : StrandId} {t : Strand} (hf : findStrand s i = some t)
    (hslice : t.sliceAc < s.hub.slice) : exec (.timeSliceExpiry i) s = .next s := by
  show execTimeSliceExpiry i s = _
  simp only [execTimeSliceExpiry, hf]
  exact if_neg fun h => absurd h.2.1 (Nat.not_le.2 hslice)

theorem graceExpiry_stops {s : State} {i : StrandId} {t : Strand} (hf : findStrand s i = some t) (hp : t.preempt = true)
    (hg : s.hub.grace ≤ t.graceAc) (hh : t.state ≠ .halted) :
    ∃ u, exec (.graceExpiry i) s = .next u ∧ Claims.Changed i { t with graceOut := true } s u := by
  refine ⟨_, ?_, changed_updStrand (f := fun t => { t with graceOut := true }) hf (fun _ => rfl) fun _ ht => ht⟩
  show execGraceExpiry i s = _
  simp only [execGraceExpiry, hf]
  exact if_pos (by simp [hp, hg, hh])

theorem graceExpiry_early {s : State} {i : StrandId} {t : Strand} (hf : findStrand s i = some t)
    (hg : t.graceAc < s.hub.grace) : exec (.graceExpiry i) s = .next s := by
  show execGraceExpiry i s = _
  simp only [execGraceExpiry, hf]
  exact if_neg (by simp [Nat.not_le.2 hg])

/-! ## Ageing (R384) -/

theorem listSet_eq_set {α : Type} (l : List α) (n : Nat) (x : α) : listSet l n x = l.set n x := by
  induction l generalizing n with
  | nil => rfl
  | cons y ys ih =>
    cases n with
    | zero => rfl
    | succ n => exact congrArg (y :: ·) (ih n)

theorem readyEntryAge_rises {s : State} {n : Nat} {e : PoolEntry} (he : s.hub.ready[n]? = some e) (hl : e.level < 6)
    (ha : e.age + 1600000 ≤ s.ac) : exec (.readyEntryAge n) s =
      .next (Claims.entrySet s n { e with level := e.level + 1, age := e.age + 1600000 }) := by
  have hall (l : List PoolEntry) : (l.filter fun _ => !false) = l := List.filter_eq_self.2 fun _ _ => rfl
  show execReadyEntryAge n s = _
  simp only [execReadyEntryAge, he, hl, ha, and_self, if_true, dropEntries, listSet_eq_set, hall, Claims.entrySet]

theorem readyEntryAge_stays {s : State} {n : Nat} {e : PoolEntry} (he : s.hub.ready[n]? = some e)
    (h : 6 ≤ e.level ∨ s.ac < e.age + 1600000) : exec (.readyEntryAge n) s = .next s := by
  show execReadyEntryAge n s = _
  simp only [execReadyEntryAge, he]
  exact if_neg (by omega)

/-! ## The stop for a save (R391, R392) -/

/-- The results that the front still owes change registers and full bits alone. -/
theorem settlePending_registers (st : Strand) :
    ∃ x e, settlePending st = { st with x := x, empty := e, fePend := [] } := by
  have h : ∃ x e, st.fePend.foldl (fun t w => setFull (writeReg t w.rd w.val) w.rd) st = { st with x := x, empty := e } := by
    refine foldl_keeps (fun t : Strand => ∃ x e, t = { st with x := x, empty := e }) _ ?_ _ _ ⟨st.x, st.empty, rfl⟩
    rintro t w ⟨x, e, rfl⟩
    refine ⟨if w.rd = 0 then x else x.set w.rd.toNat w.val w.rd.isLt, e &&& ~~~(1#32 <<< w.rd.toNat), ?_⟩
    by_cases hr : w.rd = 0 <;> simp only [setFull, writeReg, hr, if_true, if_false]
  obtain ⟨x, e, hx⟩ := h
  exact ⟨x, e, congrArg (fun t : Strand => { t with fePend := [] }) hx⟩

theorem settlePending_of_none {st : Strand} (h : st.fePend = []) : settlePending st = st := by
  rw [settlePending, h]
  exact congrArg (fun l => { st with fePend := l }) h.symm

/-- The strand has drained and is about to enter Saving: what `drain` does but for the change of state and its record. -/
def drainStart (s : State) : State :=
  let st := settlePending s.strand
  let telem := ((sendElement st).map (BitVec.ofNat 64)).getD st.csr.telem
  let tvcp := ((st.vq.head?).map VEntry.pc).getD st.pc &&& (2 ^ 48 - 1)
  withdrawMessages st.id { s with strand := { st with
    csr := { st.csr with telem := telem, tvcp := tvcp }, cq := st.cq.map restartGather
    resv := none, links := [], wait := none, waits := Vector.replicate 5 0, atLoopPoint := false
    saveSec := 0, saveOff := 0, saveStop := false } }

theorem drain_eq (s : State) : drain s = enterState .saving 0 (drainStart s) := rfl

theorem drain_drained {s : State} (h : s.strand.state = .running ∨ s.strand.state = .waiting) :
    Claims.Drained s (drain s) := by
  obtain ⟨x, e, hset⟩ := settlePending_registers s.strand
  have hx : s.strand.fePend = [] → x = s.strand.x := fun h0 => by
    rw [settlePending_of_none h0] at hset
    exact (congrArg Strand.x hset).symm
  have hstate : (drainStart s).strand.state = s.strand.state := (congrArg Strand.state hset).trans rfl
  have hne : (drainStart s).strand.state ≠ .saving := by rw [hstate]; rcases h with h | h <;> rw [h] <;> decide
  have hrec : Recorded { drainStart s with strand := { (drainStart s).strand with state := .saving } } (drain s) := by
    rw [drain_eq, enterState, if_neg hne]
    exact recorded_emitChange _ _ _ _ _
  have hstrand : (drain s).strand = { (drainStart s).strand with state := .saving } := hrec.strand
  have hbytes : Claims.RingOff s → (drain s).mem.bytes = s.mem.bytes := hrec.bytes
  simp only [drainStart, hset] at hstrand
  exact ⟨congrArg Strand.state hstrand, congrArg Strand.saveSec hstrand, congrArg Strand.saveOff hstrand,
    (congrArg Strand.pc hstrand).trans rfl, congrArg Strand.resv hstrand, congrArg Strand.links hstrand, congrArg Strand.wait hstrand,
    congrArg (fun t => t.csr.tvcp) hstrand, fun h0 => (congrArg Strand.x hstrand).trans (hx h0), hbytes⟩

/-- The pre-emption points of R391, as the model tests them. -/
theorem preemptionStop_tests {s : State} (hn : s.strand.node = none)
    (hs : s.strand.state = .running ∨ s.strand.state = .waiting) (hp : s.strand.preempt = true)
    (hc : s.strand.cancelled = false) (hi : s.strand.idling = false) (hf : s.strand.pending = [])
    (hr : ∀ r ∈ s.hub.reqs, r.strand ≠ s.strand.id) :
    exec .preemptionStop s =
      if s.strand.loops = [] ∨ s.strand.atLoopPoint = true ∨ s.strand.graceOut = true then .next (drain s) else .next s := by
  have hreq : noRequests s = true := by
    simpa [noRequests] using hr
  show execPreemptionStop s = _
  rcases hs with hs | hs <;> simp [execPreemptionStop, hs, hn, hp, hc, hi, hf, hreq, or_assoc]

/-! ## Waits and stalls (R38, R39) -/

theorem kindOf_eq_code (k : WaitKind) : Claims.kindOf k = k.code := by cases k <;> rfl

theorem waitOver_iff (s : State) (k : WaitKind) : waitOver s s.strand k = true ↔ Claims.Over s k := by
  cases k with
  | token a b push => cases push <;> simp [waitOver, Claims.Over]
  | barrier k => simp [waitOver, Claims.Over]
  | fe r => simp [waitOver, Claims.Over]
  | counter c n => simp [waitOver, Claims.Over, Option.all_eq_true]
  | publish a =>
    rw [waitOver, Claims.Over, runAct]
    cases (vsReadNat { strandPort s.strand 1 with race := 0 } (a + 8) 4 s).1 with
    | ok v => simp [or_assoc]
    | error e => simp
  | message => simp [waitOver, Claims.Over]
  | uncounted => simp [waitOver, Claims.Over]

theorem waitEnd_waiting {s : State} {k : WaitKind} (hs : s.strand.state = .waiting) (hw : s.strand.wait = some k) :
    exec .waitEnd s = if waitOver s s.strand k = true then .next { s with strand := { s.strand with
      state := .running, wait := none, waits := s.strand.waits.set 0 0 } } else .next s := by
  show execWaitEnd s = _
  rw [execWaitEnd, hs, hw]

theorem waitEnd_otherwise {s : State} (hs : s.strand.state ≠ .waiting) : exec .waitEnd s = .next s := by
  show execWaitEnd s = _
  rw [execWaitEnd]
  split
  · contradiction
  · rfl

/-- The wait of the front that stands at queue S, while it is not over. -/
theorem queueWait_front {s : State} {k : WaitKind} (hw : s.strand.wait = some k) :
    queueWait s s.strand .s = if waitOver s s.strand k = true then none else k.code := by
  rw [queueWait, hw]
  by_cases h : waitOver s s.strand k = true <;> simp [Option.filter, h]

/-- The head of the V queue waits for its pop. -/
theorem queueWait_pop {s : State} {e : VEntry} {es : List VEntry} {q : Queue} (hv : s.strand.vq = e :: es)
    (hd : e.done = false) (hm : isMarker e.word = false) (hp : e.popped = false)
    (htk : tkMeaning .v (tkOf e.word) = some (false, q)) (h0 : tokens s.strand q .v = 0) :
    queueWait s s.strand .v = some 0 := by
  have hwait : waitingPop s.strand .v e.word e.popped = true := by simp [waitingPop, hp, htk, h0]
  simp [queueWait, vecWait, hv, hd, hm, hwait]

section
variable {s : State} (hs : s.strand.state = .running ∨ s.strand.state = .waiting) (hn : s.strand.node = none)
include hs

theorem counted_live : counted s.strand = true := by
  rw [counted]; rcases hs with hs | hs <;> rw [hs] <;> rfl

include hn

theorem isStrand_live : isStrand s.strand = true := by
  rw [isStrand, hn]; rcases hs with hs | hs <;> rw [hs] <;> rfl

end

theorem waits_getD (st : Strand) (k : Fin 5) : st.waits.toList.getD k.val 0 = st.waits.get k := by
  simp [Vector.get, List.getD_eq_getElem?_getD]

/-- No wait counts at a queue: nothing happens. -/
theorem stall_none {s : State} {n : BitVec 3} {q : Queue} (hq : Queue.ofCode n.toNat = some q)
    (h : queueWait s s.strand q = none) : exec (.stall n) s = .next s := by
  show execStall n s = _
  simp only [execStall, hq, h]

theorem stall_early {s : State} {n : BitVec 3} {q : Queue} (hq : Queue.ofCode n.toNat = some q)
    (h : s.strand.waits.toList.getD q.code 0 < 2 ^ 32) : exec (.stall n) s = .next s := by
  show execStall n s = _
  simp only [execStall, hq]
  split
  · rfl
  · exact if_pos (by simp only [h, decide_true, Bool.or_true])

theorem stall_front {s : State} {c : Nat} (hs : s.strand.state = .running ∨ s.strand.state = .waiting)
    (hn : s.strand.node = none) (hw : queueWait s s.strand .s = some c) (ht : 2 ^ 32 ≤ s.strand.waits.get 0) :
    exec (.stall 0) s = .next (frontTrap { cause := 0x12, tval := BitVec.ofNat 64 (c * 16), telem := 0 } s) := by
  have hlong : ¬ s.strand.waits.toList.getD Queue.s.code 0 < 2 ^ 32 := by
    have := waits_getD s.strand 0
    exact Nat.not_lt.2 (this ▸ ht)
  show execStall 0 s = _
  simp only [execStall, show Queue.ofCode (BitVec.toNat (0 : BitVec 3)) = some .s from rfl, hw,
    counted_live hs, isStrand_live hs hn, hlong, Bool.not_true, Bool.false_or, decide_false]
  rfl

theorem stall_head {s : State} {e : VEntry} {es : List VEntry} (hs : s.strand.state = .running ∨ s.strand.state = .waiting)
    (hn : s.strand.node = none) (hv : s.strand.vq = e :: es) (hw : queueWait s s.strand .v = some 0)
    (ht : 2 ^ 32 ≤ s.strand.waits.get 1) :
    exec (.stall 1) s = .next (reportV e { cause := 0x12, tval := 1, telem := 0 } s) := by
  have hlong : ¬ s.strand.waits.toList.getD Queue.v.code 0 < 2 ^ 32 := by
    have := waits_getD s.strand 1
    exact Nat.not_lt.2 (this ▸ ht)
  show execStall 1 s = _
  simp only [execStall, show Queue.ofCode (BitVec.toNat (1 : BitVec 3)) = some .v from rfl, hw,
    counted_live hs, isStrand_live hs hn, hlong, Bool.not_true, Bool.false_or, decide_false, hv]
  rfl

end Sys2Proof.Machine

namespace Sys2Proof.Proofs

open Sys2Proof.Machine

/-- Settles O54: the slots by the one strand that each event changes, the stop for a save by the strand that `drain`
leaves, and the waits by the model's test for their end, which is the claim's. -/
theorem slotsAndWaits : Obligations.SlotsAndWaits := by
  refine ⟨⟨fun s i t hf => ⟨slotBeginIssue_runs hf, slotBeginIssue_notReady hf, preemptionRequest_requests hf,
      timeSliceExpiry_requests hf, timeSliceExpiry_early hf, graceExpiry_stops hf, graceExpiry_early hf⟩,
    fun s n e he => ⟨readyEntryAge_rises he, readyEntryAge_stays he⟩, fun s hn hs hp hc hi hf hr => ?_⟩,
    fun s k hs hw => ?_, fun s hs => waitEnd_otherwise hs, fun s k c hs hn hw hk => ?_,
    fun s e es q hs hn hv hd hm hp htk h0 => ?_, fun s hv => ?_⟩
  · have htests := preemptionStop_tests hn hs hp hc hi hf hr
    refine ⟨fun h => ⟨drain s, htests.trans (if_pos h), drain_drained hs⟩, fun hl ha hg => htests.trans (if_neg ?_)⟩
    simp [hl, ha, hg]
  · rw [waitEnd_waiting hs hw]
    exact ⟨fun h => if_pos ((waitOver_iff s k).2 h), fun h => if_neg (mt (waitOver_iff s k).1 h)⟩
  · have hq := queueWait_front hw
    refine ⟨fun h => stall_none (q := .s) rfl (hq.trans (if_pos ((waitOver_iff s k).2 h))), fun h ht => ?_,
      fun ht => stall_early (q := .s) rfl ((waits_getD s.strand 0).symm ▸ ht)⟩
    exact stall_front hs hn (hq.trans ((if_neg (mt (waitOver_iff s k).1 h)).trans ((kindOf_eq_code k).symm.trans hk))) ht
  · exact ⟨stall_head hs hn hv (queueWait_pop hv hd hm hp htk h0),
      fun ht => stall_early (q := .v) rfl ((waits_getD s.strand 1).symm ▸ ht)⟩
  · exact stall_none (q := .v) rfl (by simp [queueWait, vecWait, hv])

end Sys2Proof.Proofs

/-! # Dispatch with an empty pool (O56): a saved strand that is due enters it -/

namespace Sys2Proof.Proofs

open Sys2Proof.Machine

/-- A strand that is Saved and due, as one that became due while the ready pool was full (R383). -/
noncomputable def dueStrand : Strand := { Strand.idle with state := .saved, due := true }

/-- No graph and no entry of the ready pool, and the strand that is due. -/
noncomputable def dueState : State := { State.reset with strand := dueStrand }

/-- The hub has nothing to take of it: the turn only lets the strand's entry into the pool. -/
theorem dispatch_dueState :
    ∃ u, exec (.readyPoolDispatch .hub) dueState = .next u ∧ u.hub.ready.map PoolEntry.strand = [some dueStrand.id] := by
  have hpool : (fillPool dueState).hub.ready.map PoolEntry.strand = [some dueStrand.id] := by decide +kernel
  have hnone : (offeredEntry .hub (fillPool dueState) 8).isNone = true := by decide +kernel
  refine ⟨fillPool dueState, ?_, hpool⟩
  show execReadyPoolDispatch .hub dueState = _
  rw [execReadyPoolDispatch, if_neg (by decide +kernel)]
  simp only [Option.isNone_iff_eq_none.1 hnone]

/-- Refutes O56: with no graph, and an empty ready pool, a turn of dispatch is said to leave the state as it is; a Saved
strand that is due and has no entry enters the pool in it. -/
theorem not_launchesGraphsAndJobs : ¬ Obligations.LaunchesGraphsAndJobs := by
  intro h
  obtain ⟨-, -, -, -, -, -, hempty, -⟩ := h
  obtain ⟨u, hexec, hready⟩ := dispatch_dueState
  have hsame : u = dueState :=
    Host.Outcome.next.inj (hexec.symm.trans (hempty dueState .hub (.inr ⟨by decide +kernel, by decide +kernel⟩)))
  have hnil : dueState.hub.ready = [] := by decide +kernel
  rw [hsame, hnil] at hready
  exact List.cons_ne_nil _ _ hready.symm

end Sys2Proof.Proofs

/-! # Words and instructions (R66 to R81): a word that reads as an instruction is that instruction's one word

Each table of the decoder is taken at fields that are written as its operands make them up, so that a row's instruction
and the word that the encoder gives it are laid side by side. -/

namespace Sys2Proof.Laws

/-! ## What a decoder's answer must be -/

/-- Whatever instruction a decoder's answer holds, this is its word. -/
def WordOf (w : Word32) (r : Except DecodeError Instr) : Prop := ∀ i, r = .ok i → encode i = some w

section
variable {w : Word32} {i : Instr} {e : DecodeError}

theorem WordOf.ok (h : encode i = some w) : WordOf w (.ok i) := by
  rintro _ ⟨⟩
  exact h

theorem WordOf.error : WordOf w (.error e) := by
  rintro _ ⟨⟩

theorem WordOf.ite {c : Prop} [Decidable c] {r q : Except DecodeError Instr} (hr : c → WordOf w r) (hq : ¬c → WordOf w q) :
    WordOf w (if c then r else q) := by
  split
  · exact hr ‹c›
  · exact hq ‹¬c›

/-- A row whose reserved fields are tested. -/
theorem WordOf.guard {c : Prop} [Decidable c] (h : c → encode i = some w) : WordOf w (if c then .ok i else .error e) :=
  .ite (fun hc => .ok (h hc)) fun _ => .error

end

/-! ### Fields as the operands make them up -/

/-- A field is two pieces side by side. -/
theorem exists_append {n m : Nat} (x : BitVec (n + m)) : ∃ (a : BitVec n) (b : BitVec m), x = a ++ b :=
  ⟨x.extractLsb' m n, x.extractLsb' 0 m, BitVec.extractLsb'_append_extractLsb'.symm⟩

/-- Two fields are the pieces of one value. -/
theorem exists_pieces {n m : Nat} (a : BitVec n) (b : BitVec m) :
    ∃ x : BitVec (n + m), a = x.extractLsb' m n ∧ b = x.extractLsb' 0 m := by
  have ha := a.isLt
  have hb := b.isLt
  refine ⟨a ++ b, BitVec.eq_of_toNat_eq ?_, BitVec.eq_of_toNat_eq ?_⟩
  · rw [toNat_extractLsb', toNat_append', Nat.add_comm, Nat.add_mul_div_right _ _ (Nat.two_pow_pos m),
      Nat.div_eq_of_lt hb, Nat.zero_add, Nat.mod_eq_of_lt ha]
  · rw [toNat_extractLsb', toNat_append', Nat.pow_zero, Nat.div_one, Nat.mul_add_mod_of_lt hb]

theorem exists_immB (f7 : BitVec 7) (rd : BitVec 5) : ∃ i : BitVec 12,
    f7 = i.extractLsb' 11 1 ++ i.extractLsb' 4 6 ∧ rd = i.extractLsb' 0 4 ++ i.extractLsb' 10 1 := by
  obtain ⟨s, h, rfl⟩ := exists_append (n := 1) (m := 6) f7
  obtain ⟨l, b, rfl⟩ := exists_append (n := 4) (m := 1) rd
  have hs := s.isLt; have hh := h.isLt; have hl := l.isLt; have hb := b.isLt
  refine ⟨s ++ (b ++ (h ++ l)), BitVec.eq_of_toNat_eq ?_, BitVec.eq_of_toNat_eq ?_⟩ <;>
  · simp only [toNat_append', toNat_extractLsb']
    omega

theorem exists_immU (f7 : BitVec 7) (r2 r1 : BitVec 5) (f3 : BitVec 3) : ∃ i : BitVec 20,
    f7 = i.extractLsb' 13 7 ∧ r2 = i.extractLsb' 8 5 ∧ r1 = i.extractLsb' 3 5 ∧ f3 = i.extractLsb' 0 3 := by
  have h7 := f7.isLt; have h2 := r2.isLt; have h1 := r1.isLt; have h3 := f3.isLt
  refine ⟨f7 ++ (r2 ++ (r1 ++ f3)), ?_, ?_, ?_, ?_⟩ <;>
  · apply BitVec.eq_of_toNat_eq
    simp only [toNat_append', toNat_extractLsb']
    omega

theorem exists_immJ (f7 : BitVec 7) (r2 r1 : BitVec 5) (f3 : BitVec 3) : ∃ i : BitVec 20,
    f7 = i.extractLsb' 19 1 ++ i.extractLsb' 4 6 ∧ r2 = i.extractLsb' 0 4 ++ i.extractLsb' 10 1 ∧
      r1 = i.extractLsb' 14 5 ∧ f3 = i.extractLsb' 11 3 := by
  obtain ⟨s, h, rfl⟩ := exists_append (n := 1) (m := 6) f7
  obtain ⟨l, b, rfl⟩ := exists_append (n := 4) (m := 1) r2
  have hs := s.isLt; have hh := h.isLt; have hl := l.isLt; have hb := b.isLt
  have h1 := r1.isLt; have h3 := f3.isLt
  refine ⟨s ++ ((r1 ++ f3) ++ (b ++ (h ++ l))), ?_, ?_, ?_, ?_⟩ <;>
  · apply BitVec.eq_of_toNat_eq
    simp only [toNat_append', toNat_extractLsb']
    omega

/-- The amount of a shift by an immediate, with what stands above it in funct7. -/
theorem exists_shamt (f7 : BitVec 7) (r2 : BitVec 5) :
    ∃ (c h : BitVec 6), f7 = c ++ h.extractLsb' 5 1 ∧ r2 = h.extractLsb' 0 5 := by
  obtain ⟨c, z, rfl⟩ := exists_append (n := 6) (m := 1) f7
  obtain ⟨h, rfl, rfl⟩ := exists_pieces z r2
  exact ⟨c, h, rfl, rfl⟩

/-- The fields of `fence`, which cross the edge of funct7. -/
theorem exists_fence (f7 : BitVec 7) (r2 : BitVec 5) :
    ∃ f p s : BitVec 4, f7 = f ++ p.extractLsb' 1 3 ∧ r2 = p.extractLsb' 0 1 ++ s := by
  obtain ⟨f, u, rfl⟩ := exists_append (n := 4) (m := 3) f7
  obtain ⟨v, s, rfl⟩ := exists_append (n := 1) (m := 4) r2
  obtain ⟨p, rfl, rfl⟩ := exists_pieces u v
  exact ⟨f, p, s, rfl, rfl⟩

/-! ### The base tables -/

section
variable (f7 : BitVec 7) (r2 r1 : BitVec 5) (f3 : BitVec 3) (rd : BitVec 5)

theorem wordOf_branch : WordOf (Fields.pack f7 r2 r1 f3 rd 0b1100011#7) (decodeBranch ⟨f7, r2, r1, f3, rd, 0b1100011#7⟩) := by
  obtain ⟨i, rfl, rfl⟩ := exists_immB f7 rd
  simp only [decodeBranch, Fields.immB, one_six_high, one_six_low, four_one_high, four_one_low, immB_join]
  split
  case h_7 => exact .error
  all_goals exact .ok rfl

theorem wordOf_load : WordOf (Fields.pack f7 r2 r1 f3 rd 0b0000011#7) (decodeLoad ⟨f7, r2, r1, f3, rd, 0b0000011#7⟩) := by
  obtain ⟨i, rfl, rfl⟩ := exists_pieces f7 r2
  simp only [decodeLoad, Fields.immI, imm_split_5_7]
  split
  case h_8 => exact .error
  all_goals exact .ok rfl

theorem wordOf_store : WordOf (Fields.pack f7 r2 r1 f3 rd 0b0100011#7) (decodeStore ⟨f7, r2, r1, f3, rd, 0b0100011#7⟩) := by
  obtain ⟨i, rfl, rfl⟩ := exists_pieces f7 rd
  simp only [decodeStore, Fields.immS, imm_split_5_7]
  split
  case h_5 => exact .error
  all_goals exact .ok rfl

/-- The shifts of OP-IMM (R94) read bit 5 of their amount in funct7; the other rows read an I immediate. -/
theorem wordOf_opImm : WordOf (Fields.pack f7 r2 r1 f3 rd 0b0010011#7) (decodeOpImm ⟨f7, r2, r1, f3, rd, 0b0010011#7⟩) := by
  simp only [decodeOpImm]
  split
  case h_2 =>
    obtain ⟨c, h, rfl, rfl⟩ := exists_shamt f7 r2
    simp only [six_one_high, six_one_low, shift_split]
    exact .guard (by rintro rfl; rfl)
  case h_6 =>
    obtain ⟨c, h, rfl, rfl⟩ := exists_shamt f7 r2
    simp only [six_one_high, six_one_low, shift_split]
    exact .ite (by rintro rfl; exact .ok rfl) fun _ => .guard (by rintro rfl; rfl)
  all_goals
    obtain ⟨i, rfl, rfl⟩ := exists_pieces f7 r2
    simp only [Fields.immI, imm_split_5_7]
    exact .ok rfl

theorem wordOf_opImm32 : WordOf (Fields.pack f7 r2 r1 f3 rd 0b0011011#7)
    (decodeOpImm32 ⟨f7, r2, r1, f3, rd, 0b0011011#7⟩) := by
  simp only [decodeOpImm32]
  split
  case h_1 =>
    obtain ⟨i, rfl, rfl⟩ := exists_pieces f7 r2
    simp only [Fields.immI, imm_split_5_7]
    exact .ok rfl
  case h_2 => exact .guard (by rintro rfl; rfl)
  case h_3 => exact .ite (by rintro rfl; exact .ok rfl) fun _ => .guard (by rintro rfl; rfl)
  case h_4 => exact .error

theorem wordOf_op : WordOf (Fields.pack f7 r2 r1 f3 rd 0b0110011#7) (decodeOp ⟨f7, r2, r1, f3, rd, 0b0110011#7⟩) := by
  obtain ⟨k, rfl, rfl⟩ := exists_pieces f7 f3
  simp only [decodeOp, BitVec.extractLsb'_append_extractLsb']
  split
  case h_19 => exact .error
  all_goals exact .ok rfl

theorem wordOf_op32 : WordOf (Fields.pack f7 r2 r1 f3 rd 0b0111011#7) (decodeOp32 ⟨f7, r2, r1, f3, rd, 0b0111011#7⟩) := by
  obtain ⟨k, rfl, rfl⟩ := exists_pieces f7 f3
  simp only [decodeOp32, BitVec.extractLsb'_append_extractLsb']
  split
  case h_11 => exact .error
  all_goals exact .ok rfl

theorem wordOf_amo : WordOf (Fields.pack f7 r2 r1 f3 rd 0b0101111#7) (decodeAmo ⟨f7, r2, r1, f3, rd, 0b0101111#7⟩) := by
  obtain ⟨cq, l, rfl⟩ := exists_append (n := 6) (m := 1) f7
  obtain ⟨c, q, rfl⟩ := exists_append (n := 5) (m := 1) cq
  obtain ⟨k, rfl, rfl⟩ := exists_pieces c f3
  simp only [decodeAmo, five_one_one_high, five_one_one_mid, five_one_one_low, BitVec.extractLsb'_append_extractLsb']
  split
  case h_5 | h_6 => exact .guard (by rintro rfl; rfl)
  case h_23 => exact .error
  all_goals exact .ok rfl

theorem wordOf_csr : WordOf (Fields.pack f7 r2 r1 f3 rd 0b1110011#7) (decodeCsr ⟨f7, r2, r1, f3, rd, 0b1110011#7⟩) := by
  obtain ⟨i, rfl, rfl⟩ := exists_pieces f7 r2
  simp only [decodeCsr, Fields.immI, imm_split_5_7]
  split
  case h_7 => exact .error
  all_goals exact .ok rfl

/-- MISC-MEM (R100): `fence.tso` is the one word that `fence` leaves out. -/
theorem wordOf_miscMem : WordOf (Fields.pack f7 r2 r1 f3 rd 0b0001111#7) (decodeMiscMem ⟨f7, r2, r1, f3, rd, 0b0001111#7⟩) := by
  obtain ⟨f, p, s, rfl, rfl⟩ := exists_fence f7 r2
  simp only [decodeMiscMem, Fields.immI, fence_imm, fence_high, fence_mid, fence_low]
  refine .ite (fun _ => .error) fun h3 => .ite (fun _ => .error) fun hr => ?_
  obtain rfl : f3 = 0b000#3 := not_not.1 h3
  obtain ⟨rfl, rfl⟩ : rd = 0#5 ∧ r1 = 0#5 := by simpa [not_or] using hr
  refine .ite (fun htso => .ok ?_) fun _ => .guard fun _ => rfl
  obtain ⟨rfl, rfl, rfl⟩ := fence_tso f p s htso
  rfl

theorem wordOf_system : WordOf (Fields.pack f7 r2 r1 f3 rd 0b1110011#7) (decodeSystem ⟨f7, r2, r1, f3, rd, 0b1110011#7⟩) := by
  refine .ite (fun h3 => ?_) fun _ => wordOf_csr f7 r2 r1 f3 rd
  obtain rfl : f3 = 0b000#3 := h3
  obtain ⟨i, rfl, rfl⟩ := exists_pieces f7 r2
  simp only [Fields.immI, imm_split_5_7]
  split
  case h_1 | h_2 => exact .guard (by rintro ⟨rfl, rfl⟩; rfl)
  case h_3 => exact .error

/-! ### The vector tables -/

theorem wordOf_intVv : WordOf (Fields.pack f7 r2 r1 0b000#3 rd 0b0001011#7)
    (decodeIntVv ⟨f7, r2, r1, 0b000#3, rd, 0b0001011#7⟩) := by
  obtain ⟨c, m, rfl⟩ := exists_append (n := 6) (m := 1) f7
  simp only [decodeIntVv, six_one_high, six_one_low]
  split
  case h_27 =>
    obtain ⟨sz, k, rfl⟩ := exists_append (n := 2) (m := 3) r1
    obtain ⟨s, z, rfl⟩ := exists_append (n := 1) (m := 1) sz
    simp only [one_one_three_mid, one_one_three_high, one_one_three_low]
    exact .guard (by rintro ⟨rfl, -⟩; rfl)
  case h_28 | h_29 | h_38 | h_39 => exact .guard (by rintro rfl; rfl)
  case h_40 => exact .error
  all_goals exact .ok rfl

theorem wordOf_intVx : WordOf (Fields.pack f7 r2 r1 0b001#3 rd 0b0001011#7)
    (decodeIntVx ⟨f7, r2, r1, 0b001#3, rd, 0b0001011#7⟩) := by
  obtain ⟨c, m, rfl⟩ := exists_append (n := 6) (m := 1) f7
  simp only [decodeIntVx, six_one_high, six_one_low]
  split
  case h_28 | h_29 => exact .guard (by rintro rfl; rfl)
  case h_38 => exact .error
  all_goals exact .ok rfl

theorem wordOf_intVi : WordOf (Fields.pack f7 r2 r1 0b010#3 rd 0b0001011#7)
    (decodeIntVi ⟨f7, r2, r1, 0b010#3, rd, 0b0001011#7⟩) := by
  obtain ⟨c, m, rfl⟩ := exists_append (n := 6) (m := 1) f7
  simp only [decodeIntVi, six_one_high, six_one_low]
  split
  case h_13 | h_14 => exact .guard (by rintro rfl; rfl)
  case h_21 => exact .error
  all_goals exact .ok rfl

theorem wordOf_floatVv : WordOf (Fields.pack f7 r2 r1 0b011#3 rd 0b0001011#7)
    (decodeFloatVv ⟨f7, r2, r1, 0b011#3, rd, 0b0001011#7⟩) := by
  obtain ⟨c, m, rfl⟩ := exists_append (n := 6) (m := 1) f7
  simp only [decodeFloatVv, six_one_high, six_one_low]
  split
  case h_11 | h_12 | h_13 | h_14 => exact .guard (by rintro rfl; rfl)
  case h_15 => exact .guard fun _ => rfl
  case h_23 => exact .error
  all_goals exact .ok rfl

theorem wordOf_floatVf : WordOf (Fields.pack f7 r2 r1 0b100#3 rd 0b0001011#7)
    (decodeFloatVf ⟨f7, r2, r1, 0b100#3, rd, 0b0001011#7⟩) := by
  obtain ⟨c, m, rfl⟩ := exists_append (n := 6) (m := 1) f7
  simp only [decodeFloatVf, six_one_high, six_one_low]
  split
  case h_19 => exact .error
  all_goals exact .ok rfl

theorem wordOf_maskAssoc : WordOf (Fields.pack f7 r2 r1 0b101#3 rd 0b0001011#7)
    (decodeMaskAssoc ⟨f7, r2, r1, 0b101#3, rd, 0b0001011#7⟩) := by
  obtain ⟨c, m, rfl⟩ := exists_append (n := 6) (m := 1) f7
  simp only [decodeMaskAssoc, six_one_high, six_one_low]
  split
  case h_3 | h_4 | h_5 | h_6 | h_7 | h_8 | h_9 | h_10 | h_11 | h_12 | h_13 | h_14 | h_15 | h_16 | h_18 | h_23 | h_24 =>
    exact .guard (by rintro rfl; rfl)
  case h_17 | h_19 | h_37 | h_38 => exact .guard (by rintro ⟨rfl, rfl⟩; rfl)
  case h_39 => exact .error
  all_goals exact .ok rfl

theorem wordOf_scale : WordOf (Fields.pack f7 r2 r1 0b110#3 rd 0b0001011#7)
    (decodeScale ⟨f7, r2, r1, 0b110#3, rd, 0b0001011#7⟩) := by
  obtain ⟨c, m, rfl⟩ := exists_append (n := 6) (m := 1) f7
  simp only [decodeScale, six_one_high, six_one_low]
  split
  case h_2 => exact .ok rfl
  case h_1 | h_3 | h_6 | h_7 | h_8 | h_13 => exact .guard (by rintro rfl; rfl)
  case h_4 | h_9 | h_11 | h_12 => exact .guard (by rintro ⟨rfl, rfl⟩; rfl)
  case h_5 | h_14 => exact .guard (by rintro ⟨rfl, rfl, rfl⟩; rfl)
  case h_10 => exact .guard (by rintro ⟨rfl, -⟩; rfl)
  case h_15 => exact .error

theorem wordOf_va : WordOf (Fields.pack f7 r2 r1 f3 rd 0b0001011#7) (decodeVa ⟨f7, r2, r1, f3, rd, 0b0001011#7⟩) := by
  simp only [decodeVa]
  split
  · exact wordOf_intVv f7 r2 r1 rd
  · exact wordOf_intVx f7 r2 r1 rd
  · exact wordOf_intVi f7 r2 r1 rd
  · exact wordOf_floatVv f7 r2 r1 rd
  · exact wordOf_floatVf f7 r2 r1 rd
  · exact wordOf_maskAssoc f7 r2 r1 rd
  · exact wordOf_scale f7 r2 r1 rd
  · exact .error

/-! ### Vector memory: mop, type and mask stand in funct7 (R76) -/

variable (c t : BitVec 3) (m : BitVec 1)

theorem wordOf_vmWidth : WordOf (Fields.pack (c ++ t ++ m) r2 r1 f3 rd 0b0101011#7)
    (decodeVmWidth ⟨c ++ t ++ m, r2, r1, f3, rd, 0b0101011#7⟩) := by
  simp only [decodeVmWidth, three_three_one_high, three_three_one_mid, three_three_one_low]
  split
  case h_1 | h_2 => exact .guard (by rintro ⟨rfl, -⟩; rfl)
  case h_7 => exact .error
  all_goals exact .guard fun _ => rfl

theorem wordOf_vmScaled : WordOf (Fields.pack (0b110#3 ++ t ++ m) r2 r1 f3 rd 0b0101011#7)
    (decodeVmScaled ⟨0b110#3 ++ t ++ m, r2, r1, f3, rd, 0b0101011#7⟩) := by
  simp only [decodeVmScaled, three_three_one_mid, three_three_one_low]
  split
  case h_1 | h_2 | h_3 => exact .guard (by rintro rfl; rfl)
  case h_4 => exact .guard (by rintro ⟨rfl, rfl⟩; rfl)
  case h_8 => exact .error
  all_goals exact .ok rfl

theorem wordOf_vamo : WordOf (Fields.pack (0b111#3 ++ t ++ m) r2 r1 0b000#3 rd 0b0101011#7)
    (decodeVamo ⟨0b111#3 ++ t ++ m, r2, r1, 0b000#3, rd, 0b0101011#7⟩) := by
  simp only [decodeVamo, three_three_one_mid, three_three_one_low]
  split
  case h_9 => exact .error
  all_goals exact .ok rfl

theorem wordOf_vmAtomic : WordOf (Fields.pack (0b111#3 ++ t ++ m) r2 r1 f3 rd 0b0101011#7)
    (decodeVmAtomic ⟨0b111#3 ++ t ++ m, r2, r1, f3, rd, 0b0101011#7⟩) := by
  simp only [decodeVmAtomic, three_three_one_mid, three_three_one_low]
  split
  case h_1 | h_2 => exact .guard (by rintro rfl; rfl)
  case h_3 => exact .guard (by rintro ⟨rfl, rfl⟩; rfl)
  case h_4 => exact .error

theorem wordOf_vm : WordOf (Fields.pack f7 r2 r1 f3 rd 0b0101011#7) (decodeVm ⟨f7, r2, r1, f3, rd, 0b0101011#7⟩) := by
  obtain ⟨ct, m, rfl⟩ := exists_append (n := 6) (m := 1) f7
  obtain ⟨c, t, rfl⟩ := exists_append (n := 3) (m := 3) ct
  simp only [decodeVm, three_three_one_high]
  split
  · exact wordOf_vmScaled r2 r1 f3 rd t m
  · refine .ite (fun h3 => ?_) fun _ => wordOf_vmAtomic r2 r1 f3 rd t m
    obtain rfl : f3 = 0b000#3 := h3
    exact wordOf_vamo r2 r1 rd t m
  · exact wordOf_vmWidth r2 r1 f3 rd c t m

/-! ### Engine commands and control -/

theorem wordOf_ex : WordOf (Fields.pack f7 r2 r1 f3 rd 0b1011011#7) (decodeEx ⟨f7, r2, r1, f3, rd, 0b1011011#7⟩) := by
  simp only [decodeEx]
  split
  case h_1 | h_4 | h_8 =>
    obtain ⟨z, e, rfl⟩ := exists_append (n := 4) (m := 1) rd
    simp only [four_one_high, four_one_low]
    exact .guard (by rintro ⟨rfl, rfl⟩; rfl)
  case h_3 | h_7 =>
    obtain ⟨z, e, rfl⟩ := exists_append (n := 4) (m := 1) rd
    simp only [four_one_high, four_one_low]
    exact .guard (by rintro ⟨rfl, rfl, rfl⟩; rfl)
  case h_2 | h_5 | h_6 | h_12 =>
    obtain ⟨z, e, rfl⟩ := exists_append (n := 4) (m := 1) rd
    simp only [four_one_high, four_one_low]
    exact .guard (by rintro rfl; rfl)
  case h_13 | h_14 | h_15 => exact .guard (by rintro rfl; rfl)
  case h_24 => exact .error
  all_goals exact .guard (by rintro ⟨rfl, rfl⟩; rfl)

theorem wordOf_cxSet : WordOf (Fields.pack f7 r2 r1 0b010#3 rd 0b1111011#7)
    (decodeCxSet ⟨f7, r2, r1, 0b010#3, rd, 0b1111011#7⟩) := by
  simp only [decodeCxSet]
  split
  · exact .ok rfl
  · exact .guard (by rintro rfl; rfl)
  · exact .error

/-- Synchronisation (R80): `fence.s` has four bits of r2 for its sides and scopes. -/
theorem wordOf_cxSync : WordOf (Fields.pack f7 r2 r1 0b101#3 rd 0b1111011#7)
    (decodeCxSync ⟨f7, r2, r1, 0b101#3, rd, 0b1111011#7⟩) := by
  simp only [decodeCxSync]
  split
  case h_1 | h_11 | h_12 => exact .guard (by rintro ⟨rfl, rfl, rfl⟩; rfl)
  case h_2 => exact .guard (by rintro rfl; rfl)
  case h_8 =>
    obtain ⟨ziev, s, rfl⟩ := exists_append (n := 4) (m := 1) r2
    obtain ⟨zie, v, rfl⟩ := exists_append (n := 3) (m := 1) ziev
    obtain ⟨zi, e, rfl⟩ := exists_append (n := 2) (m := 1) zie
    obtain ⟨z, i, rfl⟩ := exists_append (n := 1) (m := 1) zi
    simp only [ones_4, ones_3, ones_2, ones_1, ones_0]
    exact .guard (by rintro ⟨rfl, rfl⟩; rfl)
  case h_13 => exact .error
  all_goals exact .guard (by rintro ⟨rfl, rfl⟩; rfl)

theorem wordOf_cxGraph : WordOf (Fields.pack f7 r2 r1 0b110#3 rd 0b1111011#7)
    (decodeCxGraph ⟨f7, r2, r1, 0b110#3, rd, 0b1111011#7⟩) := by
  simp only [decodeCxGraph]
  split
  case h_2 => exact .ok rfl
  case h_1 | h_3 | h_4 | h_7 => exact .guard (by rintro rfl; rfl)
  case h_5 | h_6 => exact .guard (by rintro ⟨rfl, rfl⟩; rfl)
  case h_8 => exact .error

theorem wordOf_cxSystem : WordOf (Fields.pack f7 r2 r1 0b111#3 rd 0b1111011#7)
    (decodeCxSystem ⟨f7, r2, r1, 0b111#3, rd, 0b1111011#7⟩) := by
  simp only [decodeCxSystem]
  split
  case h_1 | h_2 => exact .guard (by rintro ⟨rfl, rfl, rfl⟩; rfl)
  case h_3 | h_4 | h_6 => exact .guard (by rintro ⟨rfl, rfl⟩; rfl)
  case h_5 => exact .guard (by rintro rfl; rfl)
  case h_7 => exact .error

theorem wordOf_cx : WordOf (Fields.pack f7 r2 r1 f3 rd 0b1111011#7) (decodeCx ⟨f7, r2, r1, f3, rd, 0b1111011#7⟩) := by
  simp only [decodeCx]
  split
  case h_3 => exact wordOf_cxSet f7 r2 r1 rd
  case h_6 => exact wordOf_cxSync f7 r2 r1 rd
  case h_7 => exact wordOf_cxGraph f7 r2 r1 rd
  case h_8 => exact wordOf_cxSystem f7 r2 r1 rd
  case h_4 | h_5 =>
    obtain ⟨i, rfl, rfl⟩ := exists_pieces f7 r2
    simp only [Fields.immI, imm_split_5_7]
    exact .guard (by rintro rfl; rfl)
  all_goals
    obtain ⟨z, u, rfl⟩ := exists_append (n := 1) (m := 6) f7
    obtain ⟨i, rfl, rfl⟩ := exists_pieces u r2
    simp only [one_six_high, one_six_low, imm_split_5_6]
    exact .guard (by rintro rfl; rfl)

/-! ### Every word of a strand -/

variable (op : BitVec 7)

theorem wordOf_fields : WordOf (Fields.pack f7 r2 r1 f3 rd op) (decodeFields ⟨f7, r2, r1, f3, rd, op⟩) := by
  simp only [decodeFields]
  split
  case h_1 | h_2 =>
    obtain ⟨i, rfl, rfl, rfl, rfl⟩ := exists_immU f7 r2 r1 f3
    simp only [Fields.immU, immU_join]
    exact .ok rfl
  case h_3 =>
    obtain ⟨i, rfl, rfl, rfl, rfl⟩ := exists_immJ f7 r2 r1 f3
    simp only [Fields.immJ, one_six_high, one_six_low, four_one_high, four_one_low, immJ_join]
    exact .ok rfl
  case h_4 =>
    obtain ⟨i, rfl, rfl⟩ := exists_pieces f7 r2
    simp only [Fields.immI, imm_split_5_7]
    exact .guard (by rintro rfl; rfl)
  case h_5 => exact wordOf_branch f7 r2 r1 f3 rd
  case h_6 => exact wordOf_load f7 r2 r1 f3 rd
  case h_7 => exact wordOf_store f7 r2 r1 f3 rd
  case h_8 => exact wordOf_opImm f7 r2 r1 f3 rd
  case h_9 => exact wordOf_opImm32 f7 r2 r1 f3 rd
  case h_10 => exact wordOf_op f7 r2 r1 f3 rd
  case h_11 => exact wordOf_op32 f7 r2 r1 f3 rd
  case h_12 => exact wordOf_amo f7 r2 r1 f3 rd
  case h_13 => exact wordOf_miscMem f7 r2 r1 f3 rd
  case h_14 => exact wordOf_system f7 r2 r1 f3 rd
  case h_15 => exact wordOf_va f7 r2 r1 f3 rd
  case h_16 => exact wordOf_vm f7 r2 r1 f3 rd
  case h_17 => exact wordOf_ex f7 r2 r1 f3 rd
  case h_18 => exact wordOf_cx f7 r2 r1 f3 rd
  case h_19 => exact .ite (fun _ => .error) fun _ => .error

end

theorem pack_ofWord (w : Word32) : ∃ f7 r2 r1 f3 rd op, w = Fields.pack f7 r2 r1 f3 rd op := by
  obtain ⟨f7, w, rfl⟩ := exists_append (n := 7) (m := 25) w
  obtain ⟨r2, w, rfl⟩ := exists_append (n := 5) (m := 20) w
  obtain ⟨r1, w, rfl⟩ := exists_append (n := 5) (m := 15) w
  obtain ⟨f3, w, rfl⟩ := exists_append (n := 3) (m := 12) w
  obtain ⟨rd, op, rfl⟩ := exists_append (n := 5) (m := 7) w
  exact ⟨f7, r2, r1, f3, rd, op, rfl⟩

theorem wordOf_decode (w : Word32) : WordOf w (decode w) := by
  obtain ⟨f7, r2, r1, f3, rd, op, rfl⟩ := pack_ofWord w
  rw [decode_pack]
  exact wordOf_fields f7 r2 r1 f3 rd op

/-! ### Every word of a stack unit (R81) -/

theorem wordOf_suFields (op : BitVec 6) (d a b : BitVec 5) (i : BitVec 11) :
    WordOf (SuFields.pack op d a b i) (decodeSuFields ⟨op, d, a, b, i⟩) := by
  simp only [decodeSuFields]
  split
  case h_1 | h_2 =>
    obtain ⟨z, k, rfl⟩ := exists_append (n := 10) (m := 1) i
    simp only [su_10_1_high, su_10_1_low]
    exact .guard (by rintro ⟨rfl, rfl⟩; rfl)
  case h_11 | h_12 =>
    obtain ⟨z, k, rfl⟩ := exists_append (n := 9) (m := 2) i
    simp only [su_9_2_high, su_9_2_low]
    exact .guard (by rintro rfl; rfl)
  case h_16 =>
    obtain ⟨z, k, rfl⟩ := exists_append (n := 7) (m := 4) i
    simp only [su_7_4_high, su_7_4_low]
    exact .guard (by rintro ⟨rfl, rfl⟩; rfl)
  case h_10 | h_17 | h_18 | h_19 | h_20 | h_21 | h_22 => exact .guard (by rintro ⟨rfl, rfl⟩; rfl)
  case h_24 => exact .guard (by rintro ⟨rfl, rfl, rfl, rfl⟩; rfl)
  case h_25 => exact .error
  all_goals exact .guard (by rintro rfl; rfl)

theorem wordOf_decodeSu (w : Word32) : WordOf w (decodeSu w) := by
  obtain ⟨op, w, rfl⟩ := exists_append (n := 6) (m := 26) w
  obtain ⟨d, w, rfl⟩ := exists_append (n := 5) (m := 21) w
  obtain ⟨a, w, rfl⟩ := exists_append (n := 5) (m := 16) w
  obtain ⟨b, i, rfl⟩ := exists_append (n := 5) (m := 11) w
  have h := wordOf_suFields op d a b i
  rwa [← decodeSu_pack] at h

/-! ## Every instruction's word is read back -/

/-- The lemma of each instruction that has a word; an event has none. -/
theorem roundTrip (i : Instr) : RoundTrip.Statement i := by
  cases i with
  | lui => exact RoundTrip.lui _ _ | auipc => exact RoundTrip.auipc _ _ | jal => exact RoundTrip.jal _ _
  | jalr => exact RoundTrip.jalr _ _ _ | beq => exact RoundTrip.beq _ _ _ | bne => exact RoundTrip.bne _ _ _
  | blt => exact RoundTrip.blt _ _ _ | bge => exact RoundTrip.bge _ _ _ | bltu => exact RoundTrip.bltu _ _ _
  | bgeu => exact RoundTrip.bgeu _ _ _ | lb => exact RoundTrip.lb _ _ _ | lh => exact RoundTrip.lh _ _ _
  | lw => exact RoundTrip.lw _ _ _ | ld => exact RoundTrip.ld _ _ _ | lbu => exact RoundTrip.lbu _ _ _
  | lhu => exact RoundTrip.lhu _ _ _ | lwu => exact RoundTrip.lwu _ _ _ | sb => exact RoundTrip.sb _ _ _
  | sh => exact RoundTrip.sh _ _ _ | sw => exact RoundTrip.sw _ _ _ | sd => exact RoundTrip.sd _ _ _
  | addi => exact RoundTrip.addi _ _ _ | slti => exact RoundTrip.slti _ _ _ | sltiu => exact RoundTrip.sltiu _ _ _
  | xori => exact RoundTrip.xori _ _ _ | ori => exact RoundTrip.ori _ _ _ | andi => exact RoundTrip.andi _ _ _
  | slli => exact RoundTrip.slli _ _ _ | srli => exact RoundTrip.srli _ _ _ | srai => exact RoundTrip.srai _ _ _
  | add => exact RoundTrip.add _ _ _ | sub => exact RoundTrip.sub _ _ _ | sll => exact RoundTrip.sll _ _ _
  | slt => exact RoundTrip.slt _ _ _ | sltu => exact RoundTrip.sltu _ _ _ | xor => exact RoundTrip.xor _ _ _
  | srl => exact RoundTrip.srl _ _ _ | sra => exact RoundTrip.sra _ _ _ | or => exact RoundTrip.or _ _ _
  | and => exact RoundTrip.and _ _ _ | addiw => exact RoundTrip.addiw _ _ _ | slliw => exact RoundTrip.slliw _ _ _
  | srliw => exact RoundTrip.srliw _ _ _ | sraiw => exact RoundTrip.sraiw _ _ _
  | addw => exact RoundTrip.addw _ _ _ | subw => exact RoundTrip.subw _ _ _ | sllw => exact RoundTrip.sllw _ _ _
  | srlw => exact RoundTrip.srlw _ _ _ | sraw => exact RoundTrip.sraw _ _ _ | mul => exact RoundTrip.mul _ _ _
  | mulh => exact RoundTrip.mulh _ _ _ | mulhsu => exact RoundTrip.mulhsu _ _ _
  | mulhu => exact RoundTrip.mulhu _ _ _ | div => exact RoundTrip.div _ _ _ | divu => exact RoundTrip.divu _ _ _
  | rem => exact RoundTrip.rem _ _ _ | remu => exact RoundTrip.remu _ _ _ | mulw => exact RoundTrip.mulw _ _ _
  | divw => exact RoundTrip.divw _ _ _ | divuw => exact RoundTrip.divuw _ _ _ | remw => exact RoundTrip.remw _ _ _
  | remuw => exact RoundTrip.remuw _ _ _ | lrW => exact RoundTrip.lrW _ _ _ _ | lrD => exact RoundTrip.lrD _ _ _ _
  | scW => exact RoundTrip.scW _ _ _ _ _ | scD => exact RoundTrip.scD _ _ _ _ _
  | amoswapW => exact RoundTrip.amoswapW _ _ _ _ _ | amoaddW => exact RoundTrip.amoaddW _ _ _ _ _
  | amoxorW => exact RoundTrip.amoxorW _ _ _ _ _ | amoandW => exact RoundTrip.amoandW _ _ _ _ _
  | amoorW => exact RoundTrip.amoorW _ _ _ _ _ | amominW => exact RoundTrip.amominW _ _ _ _ _
  | amomaxW => exact RoundTrip.amomaxW _ _ _ _ _ | amominuW => exact RoundTrip.amominuW _ _ _ _ _
  | amomaxuW => exact RoundTrip.amomaxuW _ _ _ _ _ | amoswapD => exact RoundTrip.amoswapD _ _ _ _ _
  | amoaddD => exact RoundTrip.amoaddD _ _ _ _ _ | amoxorD => exact RoundTrip.amoxorD _ _ _ _ _
  | amoandD => exact RoundTrip.amoandD _ _ _ _ _ | amoorD => exact RoundTrip.amoorD _ _ _ _ _
  | amominD => exact RoundTrip.amominD _ _ _ _ _ | amomaxD => exact RoundTrip.amomaxD _ _ _ _ _
  | amominuD => exact RoundTrip.amominuD _ _ _ _ _ | amomaxuD => exact RoundTrip.amomaxuD _ _ _ _ _
  | fence => exact RoundTrip.fence | fenceTso => exact RoundTrip.fenceTso | ecall => exact RoundTrip.ecall
  | ebreak => exact RoundTrip.ebreak | csrrw => exact RoundTrip.csrrw _ _ _ | csrrs => exact RoundTrip.csrrs _ _ _
  | csrrc => exact RoundTrip.csrrc _ _ _ | csrrwi => exact RoundTrip.csrrwi _ _ _
  | csrrsi => exact RoundTrip.csrrsi _ _ _ | csrrci => exact RoundTrip.csrrci _ _ _
  | vaddVv => exact RoundTrip.vaddVv _ _ _ _ | vaddVx => exact RoundTrip.vaddVx _ _ _ _
  | vaddVi => exact RoundTrip.vaddVi _ _ _ _ | vsubVv => exact RoundTrip.vsubVv _ _ _ _
  | vsubVx => exact RoundTrip.vsubVx _ _ _ _ | vrsubVx => exact RoundTrip.vrsubVx _ _ _ _
  | vrsubVi => exact RoundTrip.vrsubVi _ _ _ _ | vminuVv => exact RoundTrip.vminuVv _ _ _ _
  | vminuVx => exact RoundTrip.vminuVx _ _ _ _ | vminVv => exact RoundTrip.vminVv _ _ _ _
  | vminVx => exact RoundTrip.vminVx _ _ _ _ | vmaxuVv => exact RoundTrip.vmaxuVv _ _ _ _
  | vmaxuVx => exact RoundTrip.vmaxuVx _ _ _ _ | vmaxVv => exact RoundTrip.vmaxVv _ _ _ _
  | vmaxVx => exact RoundTrip.vmaxVx _ _ _ _ | vandVv => exact RoundTrip.vandVv _ _ _ _
  | vandVx => exact RoundTrip.vandVx _ _ _ _ | vandVi => exact RoundTrip.vandVi _ _ _ _
  | vorVv => exact RoundTrip.vorVv _ _ _ _ | vorVx => exact RoundTrip.vorVx _ _ _ _
  | vorVi => exact RoundTrip.vorVi _ _ _ _ | vxorVv => exact RoundTrip.vxorVv _ _ _ _
  | vxorVx => exact RoundTrip.vxorVx _ _ _ _ | vxorVi => exact RoundTrip.vxorVi _ _ _ _
  | vsllVv => exact RoundTrip.vsllVv _ _ _ _ | vsllVx => exact RoundTrip.vsllVx _ _ _ _
  | vsllVi => exact RoundTrip.vsllVi _ _ _ _ | vsrlVv => exact RoundTrip.vsrlVv _ _ _ _
  | vsrlVx => exact RoundTrip.vsrlVx _ _ _ _ | vsrlVi => exact RoundTrip.vsrlVi _ _ _ _
  | vsraVv => exact RoundTrip.vsraVv _ _ _ _ | vsraVx => exact RoundTrip.vsraVx _ _ _ _
  | vsraVi => exact RoundTrip.vsraVi _ _ _ _ | vmulVv => exact RoundTrip.vmulVv _ _ _ _
  | vmulVx => exact RoundTrip.vmulVx _ _ _ _ | vmulhVv => exact RoundTrip.vmulhVv _ _ _ _
  | vmulhVx => exact RoundTrip.vmulhVx _ _ _ _ | vmulhuVv => exact RoundTrip.vmulhuVv _ _ _ _
  | vmulhuVx => exact RoundTrip.vmulhuVx _ _ _ _ | vdivuVv => exact RoundTrip.vdivuVv _ _ _ _
  | vdivuVx => exact RoundTrip.vdivuVx _ _ _ _ | vdivVv => exact RoundTrip.vdivVv _ _ _ _
  | vdivVx => exact RoundTrip.vdivVx _ _ _ _ | vremuVv => exact RoundTrip.vremuVv _ _ _ _
  | vremuVx => exact RoundTrip.vremuVx _ _ _ _ | vremVv => exact RoundTrip.vremVv _ _ _ _
  | vremVx => exact RoundTrip.vremVx _ _ _ _ | vmaccVv => exact RoundTrip.vmaccVv _ _ _ _
  | vmaccVx => exact RoundTrip.vmaccVx _ _ _ _ | vsadduVv => exact RoundTrip.vsadduVv _ _ _ _
  | vsadduVx => exact RoundTrip.vsadduVx _ _ _ _ | vsadduVi => exact RoundTrip.vsadduVi _ _ _ _
  | vsaddVv => exact RoundTrip.vsaddVv _ _ _ _ | vsaddVx => exact RoundTrip.vsaddVx _ _ _ _
  | vsaddVi => exact RoundTrip.vsaddVi _ _ _ _ | vssubuVv => exact RoundTrip.vssubuVv _ _ _ _
  | vssubuVx => exact RoundTrip.vssubuVx _ _ _ _ | vssubVv => exact RoundTrip.vssubVv _ _ _ _
  | vssubVx => exact RoundTrip.vssubVx _ _ _ _ | vnclipuVv => exact RoundTrip.vnclipuVv _ _ _ _
  | vnclipuVx => exact RoundTrip.vnclipuVx _ _ _ _ | vnclipuVi => exact RoundTrip.vnclipuVi _ _ _ _
  | vnclipVv => exact RoundTrip.vnclipVv _ _ _ _ | vnclipVx => exact RoundTrip.vnclipVx _ _ _ _
  | vnclipVi => exact RoundTrip.vnclipVi _ _ _ _ | vcvti => exact RoundTrip.vcvti _ _ _ _ _
  | vmergeVv => exact RoundTrip.vmergeVv _ _ _ | vmergeVx => exact RoundTrip.vmergeVx _ _ _
  | vmergeVi => exact RoundTrip.vmergeVi _ _ _ | vmvVv => exact RoundTrip.vmvVv _ _ _
  | vmvVx => exact RoundTrip.vmvVx _ _ _ | vmvVi => exact RoundTrip.vmvVi _ _ _
  | vabs => exact RoundTrip.vabs _ _ _ | vbcnt => exact RoundTrip.vbcnt _ _ _
  | vmseqVv => exact RoundTrip.vmseqVv _ _ _ _ | vmseqVx => exact RoundTrip.vmseqVx _ _ _ _
  | vmseqVi => exact RoundTrip.vmseqVi _ _ _ _ | vmsneVv => exact RoundTrip.vmsneVv _ _ _ _
  | vmsneVx => exact RoundTrip.vmsneVx _ _ _ _ | vmsneVi => exact RoundTrip.vmsneVi _ _ _ _
  | vmsltuVv => exact RoundTrip.vmsltuVv _ _ _ _ | vmsltuVx => exact RoundTrip.vmsltuVx _ _ _ _
  | vmsltVv => exact RoundTrip.vmsltVv _ _ _ _ | vmsltVx => exact RoundTrip.vmsltVx _ _ _ _
  | vmsleuVv => exact RoundTrip.vmsleuVv _ _ _ _ | vmsleuVx => exact RoundTrip.vmsleuVx _ _ _ _
  | vmsleuVi => exact RoundTrip.vmsleuVi _ _ _ _ | vmsleVv => exact RoundTrip.vmsleVv _ _ _ _
  | vmsleVx => exact RoundTrip.vmsleVx _ _ _ _ | vmsleVi => exact RoundTrip.vmsleVi _ _ _ _
  | vmsgtuVv => exact RoundTrip.vmsgtuVv _ _ _ _ | vmsgtuVx => exact RoundTrip.vmsgtuVx _ _ _ _
  | vmsgtuVi => exact RoundTrip.vmsgtuVi _ _ _ _ | vmsgtVv => exact RoundTrip.vmsgtVv _ _ _ _
  | vmsgtVx => exact RoundTrip.vmsgtVx _ _ _ _ | vmsgtVi => exact RoundTrip.vmsgtVi _ _ _ _
  | vfaddVv => exact RoundTrip.vfaddVv _ _ _ _ | vfaddVf => exact RoundTrip.vfaddVf _ _ _ _
  | vfsubVv => exact RoundTrip.vfsubVv _ _ _ _ | vfsubVf => exact RoundTrip.vfsubVf _ _ _ _
  | vfrsubVf => exact RoundTrip.vfrsubVf _ _ _ _ | vfmulVv => exact RoundTrip.vfmulVv _ _ _ _
  | vfmulVf => exact RoundTrip.vfmulVf _ _ _ _ | vfmaccVv => exact RoundTrip.vfmaccVv _ _ _ _
  | vfmaccVf => exact RoundTrip.vfmaccVf _ _ _ _ | vfnmsacVv => exact RoundTrip.vfnmsacVv _ _ _ _
  | vfnmsacVf => exact RoundTrip.vfnmsacVf _ _ _ _ | vfminVv => exact RoundTrip.vfminVv _ _ _ _
  | vfminVf => exact RoundTrip.vfminVf _ _ _ _ | vfmaxVv => exact RoundTrip.vfmaxVv _ _ _ _
  | vfmaxVf => exact RoundTrip.vfmaxVf _ _ _ _ | vfsgnjVv => exact RoundTrip.vfsgnjVv _ _ _ _
  | vfsgnjVf => exact RoundTrip.vfsgnjVf _ _ _ _ | vfsgnjnVv => exact RoundTrip.vfsgnjnVv _ _ _ _
  | vfsgnjnVf => exact RoundTrip.vfsgnjnVf _ _ _ _ | vfsgnjxVv => exact RoundTrip.vfsgnjxVv _ _ _ _
  | vfsgnjxVf => exact RoundTrip.vfsgnjxVf _ _ _ _ | vfrcp => exact RoundTrip.vfrcp _ _ _
  | vfrsqrt => exact RoundTrip.vfrsqrt _ _ _ | vfexp2 => exact RoundTrip.vfexp2 _ _ _
  | vfclass => exact RoundTrip.vfclass _ _ _ | vfcvt => exact RoundTrip.vfcvt _ _ _ _
  | vmfeqVv => exact RoundTrip.vmfeqVv _ _ _ _ | vmfeqVf => exact RoundTrip.vmfeqVf _ _ _ _
  | vmfneVv => exact RoundTrip.vmfneVv _ _ _ _ | vmfneVf => exact RoundTrip.vmfneVf _ _ _ _
  | vmfltVv => exact RoundTrip.vmfltVv _ _ _ _ | vmfltVf => exact RoundTrip.vmfltVf _ _ _ _
  | vmfleVv => exact RoundTrip.vmfleVv _ _ _ _ | vmfleVf => exact RoundTrip.vmfleVf _ _ _ _
  | vmfgtVv => exact RoundTrip.vmfgtVv _ _ _ _ | vmfgtVf => exact RoundTrip.vmfgtVf _ _ _ _
  | vmfgeVv => exact RoundTrip.vmfgeVv _ _ _ _ | vmfgeVf => exact RoundTrip.vmfgeVf _ _ _ _
  | vmfordVv => exact RoundTrip.vmfordVv _ _ _ _ | vmfordVf => exact RoundTrip.vmfordVf _ _ _ _
  | vsrch => exact RoundTrip.vsrch _ _ _ _ | vsrng => exact RoundTrip.vsrng _ _ _ _
  | vcpop => exact RoundTrip.vcpop _ _ _ | vfirst => exact RoundTrip.vfirst _ _ _
  | vmand => exact RoundTrip.vmand _ _ _ | vmor => exact RoundTrip.vmor _ _ _
  | vmxor => exact RoundTrip.vmxor _ _ _ | vmandn => exact RoundTrip.vmandn _ _ _
  | vmnand => exact RoundTrip.vmnand _ _ _ | vmnor => exact RoundTrip.vmnor _ _ _
  | vmorn => exact RoundTrip.vmorn _ _ _ | vmxnor => exact RoundTrip.vmxnor _ _ _
  | vmsbf => exact RoundTrip.vmsbf _ _ _ | vmsif => exact RoundTrip.vmsif _ _ _
  | vmsof => exact RoundTrip.vmsof _ _ _ | viota => exact RoundTrip.viota _ _ _ | vid => exact RoundTrip.vid _ _
  | vcompress => exact RoundTrip.vcompress _ _ _ | vcompi => exact RoundTrip.vcompi _ _
  | vtopk => exact RoundTrip.vtopk _ _ _ _ | vlut => exact RoundTrip.vlut _ _ _ _
  | vbfly => exact RoundTrip.vbfly _ _ _ _ | vhad => exact RoundTrip.vhad _ _ _
  | vxchg => exact RoundTrip.vxchg _ _ _ | vslideup => exact RoundTrip.vslideup _ _ _ _
  | vslidedown => exact RoundTrip.vslidedown _ _ _ _ | vrgather => exact RoundTrip.vrgather _ _ _ _
  | vredsum => exact RoundTrip.vredsum _ _ _ _ | vredmax => exact RoundTrip.vredmax _ _ _ _
  | vredmin => exact RoundTrip.vredmin _ _ _ _ | vredmaxu => exact RoundTrip.vredmaxu _ _ _ _
  | vredminu => exact RoundTrip.vredminu _ _ _ _ | vfredsum => exact RoundTrip.vfredsum _ _ _ _
  | vfredosum => exact RoundTrip.vfredosum _ _ _ _ | vfredmax => exact RoundTrip.vfredmax _ _ _ _
  | vfredmin => exact RoundTrip.vfredmin _ _ _ _ | vmvxs => exact RoundTrip.vmvxs _ _
  | vmvsx => exact RoundTrip.vmvsx _ _ | qcomp => exact RoundTrip.qcomp _ _ _
  | vquant => exact RoundTrip.vquant _ _ _ _ | vdequant => exact RoundTrip.vdequant _ _ _
  | qbind => exact RoundTrip.qbind _ _ | qunbind => exact RoundTrip.qunbind _ | qmul => exact RoundTrip.qmul _ _ _
  | qmulx => exact RoundTrip.qmulx _ _ _ | qmax => exact RoundTrip.qmax _ _ _ | qrcp => exact RoundTrip.qrcp _ _
  | qcvt => exact RoundTrip.qcvt _ _ _ | qmv => exact RoundTrip.qmv _ _ | qtag => exact RoundTrip.qtag _ _
  | qbindt => exact RoundTrip.qbindt _ _ _ | qunbindt => exact RoundTrip.qunbindt _
  | vle => exact RoundTrip.vle _ _ _ _ _ | vse => exact RoundTrip.vse _ _ _ _ _
  | vlse => exact RoundTrip.vlse _ _ _ _ _ _ | vsse => exact RoundTrip.vsse _ _ _ _ _ _
  | vlxe => exact RoundTrip.vlxe _ _ _ _ _ _ | vsxe => exact RoundTrip.vsxe _ _ _ _ _ _
  | vlq => exact RoundTrip.vlq _ _ _ _ | vsq => exact RoundTrip.vsq _ _ _ _ | qld => exact RoundTrip.qld _ _ _ _
  | qst => exact RoundTrip.qst _ _ _ | wsrch => exact RoundTrip.wsrch _ _ _ _ _
  | wdot => exact RoundTrip.wdot _ _ _ _ _ | wtopk => exact RoundTrip.wtopk _ _ _ _ _
  | vamoAdd => exact RoundTrip.vamoAdd _ _ _ _ | vamoAnd => exact RoundTrip.vamoAnd _ _ _ _
  | vamoOr => exact RoundTrip.vamoOr _ _ _ _ | vamoXor => exact RoundTrip.vamoXor _ _ _ _
  | vamoSmin => exact RoundTrip.vamoSmin _ _ _ _ | vamoSmax => exact RoundTrip.vamoSmax _ _ _ _
  | vamoUmax => exact RoundTrip.vamoUmax _ _ _ _ | vamoSwap => exact RoundTrip.vamoSwap _ _ _ _
  | vlgl => exact RoundTrip.vlgl _ _ _ _ | vssc => exact RoundTrip.vssc _ _ _ _
  | vfascan => exact RoundTrip.vfascan _ _ _ | mld => exact RoundTrip.mld _ _ _
  | mldg => exact RoundTrip.mldg _ _ _ _ | mflip => exact RoundTrip.mflip _ _ | mmac => exact RoundTrip.mmac _ _ _
  | mgrp => exact RoundTrip.mgrp _ _ _ _ | mst => exact RoundTrip.mst _ _ _ _ | mzero => exact RoundTrip.mzero _ _
  | mtile => exact RoundTrip.mtile _ _ _ | cpy => exact RoundTrip.cpy _ _ | cpyx => exact RoundTrip.cpyx _ _
  | cpyf => exact RoundTrip.cpyf _ _ | vsend => exact RoundTrip.vsend _ _ _ _
  | vrecv => exact RoundTrip.vrecv _ _ _ | msgx => exact RoundTrip.msgx _ _ _ | nmq => exact RoundTrip.nmq _ _ _
  | kvsplice => exact RoundTrip.kvsplice _ _ | kvrepair => exact RoundTrip.kvrepair _ _
  | kvcommit => exact RoundTrip.kvcommit _ _ | kvseal => exact RoundTrip.kvseal _ _
  | kvgather => exact RoundTrip.kvgather _ _ | gwalk => exact RoundTrip.gwalk _ _
  | gins => exact RoundTrip.gins _ _ | gdel => exact RoundTrip.gdel _ _ | vsetvli => exact RoundTrip.vsetvli _ _ _
  | vsetivli => exact RoundTrip.vsetivli _ _ _ | vsetvl => exact RoundTrip.vsetvl _ _ _
  | vsetmt => exact RoundTrip.vsetmt _ _ | loop => exact RoundTrip.loop _ _ | loopi => exact RoundTrip.loopi _ _
  | lpbrk => exact RoundTrip.lpbrk | lpidx => exact RoundTrip.lpidx _ _ | tkpost => exact RoundTrip.tkpost _
  | tkwait => exact RoundTrip.tkwait _ | bararv => exact RoundTrip.bararv _ | barwait => exact RoundTrip.barwait _
  | barsync => exact RoundTrip.barsync _ | fenceS => exact RoundTrip.fenceS _ _ _ _ _
  | publish => exact RoundTrip.publish _ | pubwait => exact RoundTrip.pubwait _ | yield => exact RoundTrip.yield
  | sexit => exact RoundTrip.sexit | launch => exact RoundTrip.launch _ _
  | gsubmit => exact RoundTrip.gsubmit _ _ _ | cntwait => exact RoundTrip.cntwait _ _
  | cntread => exact RoundTrip.cntread _ _ | cancel => exact RoundTrip.cancel _ | hpart => exact RoundTrip.hpart _
  | cntnew => exact RoundTrip.cntnew _ _ | tret => exact RoundTrip.tret | idle => exact RoundTrip.idle
  | ctxsave => exact RoundTrip.ctxsave _ | ctxload => exact RoundTrip.ctxload _
  | tlbinv => exact RoundTrip.tlbinv _ _ | keyinv => exact RoundTrip.keyinv _ | suLd => exact RoundTrip.suLd _ _ _
  | suSt => exact RoundTrip.suSt _ _ _ | suAdd => exact RoundTrip.suAdd _ _ _
  | suSub => exact RoundTrip.suSub _ _ _ | suMul => exact RoundTrip.suMul _ _ _
  | suFma => exact RoundTrip.suFma _ _ _ | suFms => exact RoundTrip.suFms _ _ _
  | suMin => exact RoundTrip.suMin _ _ _ | suMax => exact RoundTrip.suMax _ _ _
  | suAbs => exact RoundTrip.suAbs _ _ | suCmp => exact RoundTrip.suCmp _ _ _ _
  | suSel => exact RoundTrip.suSel _ _ _ _ | suAnd => exact RoundTrip.suAnd _ _ _
  | suOr => exact RoundTrip.suOr _ _ _ | suXor => exact RoundTrip.suXor _ _ _
  | suCvt => exact RoundTrip.suCvt _ _ _ | suRcp => exact RoundTrip.suRcp _ _
  | suRsqrt => exact RoundTrip.suRsqrt _ _ | suBc => exact RoundTrip.suBc _ _ | suMov => exact RoundTrip.suMov _ _
  | suLp1 => exact RoundTrip.suLp1 _ _ | suLp2 => exact RoundTrip.suLp2 _ _
  | suPadd => exact RoundTrip.suPadd _ _ _ | suEnd => exact RoundTrip.suEnd
  | _ => exact RoundTrip.noWord rfl

end Sys2Proof.Laws

namespace Sys2Proof.Proofs

/-- Settles O3: both decoders, table by table. -/
theorem encodeUndoesDecode : Obligations.EncodeUndoesDecode := ⟨Laws.wordOf_decode, Laws.wordOf_decodeSu⟩

/-- Settles O2: the round trips of the single instructions, put together. -/
theorem decodeUndoesEncode : Obligations.DecodeUndoesEncode := fun i w hwf hw => Laws.roundTrip i hwf w hw

/-- Settles O1: the ten words are the encoder's, so they decode to their instructions. -/
theorem knownWordsDecode : Obligations.KnownWordsDecode := by
  have hword : ∀ p ∈ Claims.knownWords,
      p.2.wf = true ∧ encode p.2 = some (BitVec.ofNat 32 p.1) ∧ p.2.forUnit = false := by decide +kernel
  intro p hp
  obtain ⟨hwf, henc, hstrand⟩ := hword p hp
  have h := decodeUndoesEncode p.2 _ hwf henc
  rwa [if_neg (by rw [hstrand]; exact Bool.false_ne_true)] at h

end Sys2Proof.Proofs

/-! # Jumps and branches (R66, R93) -/

namespace Sys2Proof.Machine

/-! ## Offsets and targets -/

/-- A sign-extended field is its integer at 64 bits (R92). -/
theorem signExtend_eq_w64 {n : Nat} (i : BitVec n) : i.signExtend 64 = Claims.w64 i.toInt := rfl

/-- An offset is held without its bit 0 (R69). -/
theorem offset_eq_w64 {n : Nat} (i : BitVec n) : (i ++ 0#1).signExtend 64 = Claims.w64 (i.toInt * 2) := by
  rw [signExtend_eq_w64, BitVec.toInt_append_zero, Int.mul_comm]
  rfl

/-- JALR clears bit 0 of its target. -/
theorem and_not_one (x : Word) : x &&& ~~~1 = BitVec.ofNat 64 (x.toNat / 2 * 2) := by
  have hmask : (~~~1 : Word) = BitVec.allOnes 64 <<< 1 := by decide
  apply BitVec.eq_of_toNat_eq
  rw [hmask, ← BitVec.shiftLeft_ushiftRight, BitVec.toNat_shiftLeft, BitVec.toNat_ushiftRight, Nat.shiftLeft_eq,
    Nat.shiftRight_eq_div_pow, BitVec.toNat_ofNat, Nat.pow_one]

/-! ## Control transfers of the front -/

section
variable {c : Act Unit} {rs : List Reg} {w : Act (Option Word)} {s s' : State}

/-- An S instruction whose work ends in a jump, outside instruction-step mode. -/
theorem frontInstr_jumps {t : Word} (hc : c s = (.ok (), s)) (hr : Claims.Full s.strand rs) (hw : w s = (.ok (some t), s'))
    (hd : s'.strand.dbgStep = false) : frontInstr c rs w s = .next (jump t s') := by
  rw [frontInstr_work hc hr, frontStep_jump hw, afterStep_free (u := jump t s') hd]

end

section
variable {rs : List Reg} {s : State} (hr : Claims.Full s.strand rs) (hd : s.strand.dbgStep = false)

theorem checkTarget_aligned {t : Word} (h : t.toNat % 4 = 0) (s : State) : checkTarget t s = (.ok (), s) := by
  rw [checkTarget, if_pos h]
  rfl

theorem checkTarget_misaligned {t : Word} (h : ¬ t.toNat % 4 = 0) (s : State) :
    checkTarget t s = (.error (.trap (Claims.alignTrap t)), s) := by
  rw [checkTarget, if_neg h, act_raise, BitVec.ofNat_toNat, BitVec.setWidth_eq]
  rfl

include hr hd

/-- A jump with a link checks its target before it writes x[rd] (R66). -/
theorem frontInstr_linkTo (d : Reg) (f : Strand → Word) :
    frontInstr (pure ()) rs (linkTo d f) s = .next (if (f s.strand).toNat % 4 = 0 then
        jump (f s.strand) { s with strand := writeReg s.strand d (s.strand.pc + 4) }
      else frontTrap (Claims.alignTrap (f s.strand)) s) := by
  split
  next h =>
    refine frontInstr_jumps (act_pure () s) hr ?_ (by simpa using hd)
    rw [linkTo, act_bind_ok (act_getStrand s), act_bind_ok (checkTarget_aligned h s), act_bind_ok (act_modStrand _ s)]
    rfl
  next h =>
    refine frontInstr_traps (act_pure () s) hr ?_
    rw [linkTo, act_bind_ok (act_getStrand s), act_bind_error (checkTarget_misaligned h s)]

end

/-- A branch checks its target only where it is taken (R93). -/
theorem branch_full {a b : Reg} {s : State} (hr : Claims.Full s.strand [a, b]) (hd : s.strand.dbgStep = false)
    (i : BitVec 12) (c : Word → Word → Bool) :
    branch a b i c s = .next (
      if c (readReg s.strand a) (readReg s.strand b) then
        if (s.strand.pc + Claims.w64 (i.toInt * 2)).toNat % 4 = 0 then jump (s.strand.pc + Claims.w64 (i.toInt * 2)) s
        else frontTrap (Claims.alignTrap (s.strand.pc + Claims.w64 (i.toInt * 2))) s
      else advance s) := by
  rw [branch, offset_eq_w64]
  split
  next hc =>
    split
    next h =>
      refine frontInstr_jumps (act_pure () s) hr ?_ hd
      rw [act_bind_ok (act_getStrand s), if_pos hc, act_bind_ok (checkTarget_aligned h s)]
      rfl
    next h =>
      refine frontInstr_traps (act_pure () s) hr ?_
      rw [act_bind_ok (act_getStrand s), if_pos hc, act_bind_error (checkTarget_misaligned h s)]
  next hc =>
    refine frontInstr_done (act_pure () s) hr ?_ hd
    rw [act_bind_ok (act_getStrand s), if_neg hc]
    rfl

theorem branch_congr {a b : Reg} {i : BitVec 12} {c e : Word → Word → Bool} (h : ∀ x y, c x y = e x y) (s : State) :
    branch a b i c s = branch a b i e s := by rw [funext₂ h]

/-- Each branch is `branch` of its condition in the claims. -/
theorem exec_branchForm {p : (Reg → Reg → BitVec 12 → Instr) × (Word → Word → Bool)} (hp : p ∈ Claims.branchForms)
    (a b : Reg) (i : BitVec 12) (s : State) : exec (p.1 a b i) s = branch a b i p.2 s := by
  have hne (x y : Word) : decide (x ≠ y) = decide (x.toNat ≠ y.toNat) := decide_eq_decide.2 BitVec.toNat_inj.not.symm
  have heq (x y : Word) : decide (x = y) = decide (x.toNat = y.toNat) := decide_eq_decide.2 BitVec.toNat_inj.symm
  have hge (x y : Word) : (!x.slt y) = decide (y.toInt ≤ x.toInt) :=
    (decide_not (p := x.toInt < y.toInt)).symm.trans (decide_eq_decide.2 not_lt)
  have hgeu (x y : Word) : (!x.ult y) = decide (y.toNat ≤ x.toNat) :=
    (decide_not (p := x.toNat < y.toNat)).symm.trans (decide_eq_decide.2 not_lt)
  simp only [Claims.branchForms, List.mem_cons, List.not_mem_nil, or_false] at hp
  rcases hp with rfl | rfl | rfl | rfl | rfl | rfl
  · exact branch_congr (c := fun x y => decide (x = y)) heq s
  · exact branch_congr (c := fun x y => decide (x ≠ y)) hne s
  · rfl
  · exact branch_congr (c := fun x y => !x.slt y) hge s
  · rfl
  · exact branch_congr (c := fun x y => !x.ult y) hgeu s

end Sys2Proof.Machine

namespace Sys2Proof.Proofs

open Sys2Proof.Machine

/-- Settles O12: the two jumps by `linkTo`, the branches by `branch`. -/
theorem jumpsAndBranches : Obligations.JumpsAndBranches := by
  refine ⟨fun d i s hr hd => ?_, fun d a i s hr hd => ?_, fun p hp a b i s hr hd => ?_⟩
  · rw [← offset_eq_w64]
    exact frontInstr_linkTo hr hd d fun st => st.pc + (i ++ 0#1).signExtend 64
  · dsimp only
    rw [← signExtend_eq_w64, ← and_not_one]
    exact frontInstr_linkTo hr hd d fun st => (readReg st a + i.signExtend 64) &&& ~~~1
  · rw [exec_branchForm hp]
    exact branch_full hr hd i p.2

end Sys2Proof.Proofs

/-! # Base loads and stores (R92, R96) -/

namespace Sys2Proof.Machine

/-! ## Bytes of HBM apart from a write -/

/-- Clearing poison leaves the bytes of every word that the range does not touch. -/
theorem clearPoison_byte_untouched (m : Mem) {a n b : Nat} (h : b / 8 ∉ touched 8 a n) :
    smRead 0 (clearPoison m a n).bytes b = smRead 0 m.bytes b := by
  unfold clearPoison
  generalize touched 8 a n = l at h
  induction l generalizing m with
  | nil => rfl
  | cons w l ih =>
    rw [List.mem_cons, not_or] at h
    obtain ⟨hw, hl⟩ := h
    rw [List.foldl_cons, ih _ hl]
    split
    · rfl
    · refine List.foldlRecOn (motive := fun x => smRead 0 x b = smRead 0 m.bytes b) _ _ rfl fun x hx o ho => ?_
      have ho8 := List.mem_range.1 ho
      split
      · exact hx
      · rw [smRead, smGet_smDel_other _ _ _ (by omega)]
        exact hx

theorem rekeyBlock_byte_other (m : Mem) (k : Nat) {l b : Nat} (h : b / 16 ≠ l) :
    smRead 0 (rekeyBlock m k l).bytes b = smRead 0 m.bytes b := by
  unfold rekeyBlock
  split
  · split
    · rfl
    · exact smRead_smWriteList_other _ _ _ _ _ (by simp; omega)
  · rfl

/-- Cipher blocks that are not brought under a key keep their own key and their bytes. -/
theorem rekeyBlocks_untouched (k : Nat) {b : Nat} {ls : List Nat} (h : b / 16 ∉ ls) (m : Mem) :
    smGet (ls.foldl (fun m l => rekeyBlock m k l) m).blockKey (b / 16) = smGet m.blockKey (b / 16) ∧
      smRead 0 (ls.foldl (fun m l => rekeyBlock m k l) m).bytes b = smRead 0 m.bytes b := by
  refine List.foldlRecOn (motive := fun x : Mem => smGet x.blockKey (b / 16) = smGet m.blockKey (b / 16) ∧
    smRead 0 x.bytes b = smRead 0 m.bytes b) _ _ ⟨rfl, rfl⟩ fun x hx l hl => ?_
  have hne : b / 16 ≠ l := fun he => h (he ▸ hl)
  exact ⟨(rekeyBlock_blockKey_other x k l _ hne).trans hx.1, (rekeyBlock_byte_other x k hne).trans hx.2⟩

theorem storeBytes_untouched (m : Mem) (k : Nat) {a b : Nat} {bs : List Byte} (hbs : 0 < bs.length)
    (h : b / 16 ∉ touched 16 a bs.length) :
    smGet (storeBytes m (some k) a bs).blockKey (b / 16) = smGet m.blockKey (b / 16) ∧
      smRead 0 (storeBytes m (some k) a bs).bytes b = smRead 0 m.bytes b := by
  have hblock := mt (mem_touched (size := 16) (by decide) hbs).2 h
  have hword : b / 8 ∉ touched 8 a bs.length := fun hw => by
    have := (mem_touched (size := 8) (by decide) hbs).1 hw
    omega
  obtain ⟨hkey, hbyte⟩ := rekeyBlocks_untouched k h m
  constructor
  · show smGet (clearPoison _ a bs.length).blockKey _ = _
    rw [(clearPoison_keeps _ a bs.length).1, hkey]
  · show smRead 0 (smWriteList 0 (clearPoison _ a bs.length).bytes a bs) b = _
    rw [smRead_smWriteList_other _ _ _ _ _ (by omega), clearPoison_byte_untouched _ hword, hbyte]

/-- A byte of HBM apart from a write reads as before under the key of the write, unless its word was poisoned. -/
theorem keyedByte_storeBytes_apart (m : Mem) (k : Nat) {a b : Nat} {bs : List Byte} (hbs : 0 < bs.length)
    (h : b < a ∨ a + bs.length ≤ b) (hp : smGet m.poison (b / 8) = none) :
    keyedByte (storeBytes m (some k) a bs) k b = keyedByte m k b := by
  by_cases hb : b / 16 ∈ touched 16 a bs.length
  · exact keyedByte_storeBytes_other m k a b bs h hp (.inr hb)
  have hstored (c : Nat) (hc : c / 16 = b / 16) := storeBytes_untouched m k (b := c) hbs (hc ▸ hb)
  have hblock : smReadList 0 (storeBytes m (some k) a bs).bytes (b / 16 * 16) 16 = smReadList 0 m.bytes (b / 16 * 16) 16 := by
    apply List.ext_getElem (by simp [length_smReadList])
    intro i hi _
    rw [length_smReadList] at hi
    rw [getElem_smReadList, getElem_smReadList, (hstored _ (by omega)).2]
  rw [keyedByte, keyedByte, (hstored b rfl).1, (hstored b rfl).2, hblock]

/-! ## Writes of a place -/

theorem updStrands_x {p : Strand → Bool} {f : Strand → Strand} (h : ∀ t, (f t).x = t.x) (s : State) :
    (updStrands p f s).strand.x = s.strand.x := by
  unfold updStrands
  dsimp only
  split
  · exact h _
  · rfl

theorem markTiles_x (a n : Nat) (t : Strand) : (markTiles a n t).x = t.x := by
  unfold markTiles
  split <;> rfl

@[simp] theorem noteWrite_x (p : Port) (a n : Nat) (s : State) : (noteWrite p a n s).strand.x = s.strand.x := by
  refine updStrands_x (fun t => ?_) s
  rw [← markTiles_x a n t]
  dsimp only
  generalize markTiles a n t = u
  split
  · split <;> split <;> rfl
  · split <;> rfl

@[simp] theorem noteWrite_mem (p : Port) (a n : Nat) (s : State) : (noteWrite p a n s).mem = s.mem := rfl

@[simp] theorem dropBlocks_strand (h a n : Nat) (s : State) : (dropBlocks h a n s).strand = s.strand := by
  unfold dropBlocks
  split <;> rfl

@[simp] theorem dropBlocks_mem (h a n : Nat) (s : State) : (dropBlocks h a n s).mem = s.mem := by
  unfold dropBlocks
  split <;> rfl

theorem doorbell_strand (j tail : Nat) (s : State) : (doorbell j tail s).strand = s.strand := by
  unfold doorbell
  dsimp only
  split
  · rw [setCause_strand, setBar0_strand]
  · rw [setBar0_strand]

theorem jobQueueWrite_strand (off v : Nat) (s : State) : (jobQueueWrite off v s).strand = s.strand := by
  obtain ⟨j, r, h⟩ : ∃ j r, jobQueueWrite off v s = if r = 0x10 then doorbell j (v % 2 ^ 16) s
      else if r = 0 ∨ r = 8 then setBar0 (0x40000 + 64 * j + r) 8 (v &&& jobQueueMask r) s else s := ⟨_, _, rfl⟩
  rw [h]
  split
  · exact doorbell_strand j _ s
  · split
    · exact setBar0_strand _ _ _ s
    · rfl

@[simp] theorem mmioWrite_strand (off : Nat) (bs : List Byte) (s : State) : (mmioWrite off bs s).strand = s.strand := by
  by_cases h : 0x40000 ≤ off ∧ off < 0x44000
  · obtain ⟨v, hv⟩ : ∃ v, mmioWrite off bs s = jobQueueWrite (off / 8 * 8) v s := ⟨_, if_pos h⟩
    rw [hv, jobQueueWrite_strand]
  · rw [mmioWrite, if_neg h]

/-- No write changes a register of the strand in focus. -/
theorem writePiece_x (p : Port) (pl : Place) (bs : List Byte) (s : State) :
    (writePiece p pl bs s).strand.x = s.strand.x := by
  unfold writePiece
  split
  · split <;> simp
  · simp
  · simp
  · simp
  · rfl

/-- What a write of HBM or SRAM leaves in memory. -/
theorem writePiece_hbm {p : Port} {pl : Place} {bs : List Byte} {s : State} {a : Nat} (h : regionOf pl.pa = .hbm a) :
    (writePiece p pl bs s).mem = storeBytes s.mem (some (keyName s pl.key)) a bs := by
  simp only [writePiece, h]
  split <;> simp [hbmWrite]

theorem writePiece_sram {p : Port} {pl : Place} {bs : List Byte} {s : State} {g : Nat} (h : regionOf pl.pa = .sram g) :
    (writePiece p pl bs s).mem = storeBytes s.mem none pl.pa bs := by
  simp only [writePiece, h, noteWrite_mem]

/-- The bytes of a place, once D of its page is set. -/
def writePieces (p : Port) (pl : Place) (bs : List Byte) (s : State) : State :=
  (placePieces pl bs.length).foldl (init := s) fun s q => writePiece p q.1 ((bs.drop q.2.1).take q.2.2) s

theorem writePlace_later {p : Port} {pl : Place} (h : pl.first = none) (bs : List Byte) (s : State) :
    writePlace p pl bs s = (.ok (), writePieces p pl bs s) := by
  simp only [writePlace, h]
  rfl

theorem writePieces_x (p : Port) (pl : Place) (bs : List Byte) (s : State) :
    (writePieces p pl bs s).strand.x = s.strand.x :=
  foldl_keeps (fun t : State => t.strand.x = s.strand.x) _ (fun t q ht => (writePiece_x p q.1 _ t).trans ht) _ _ rfl

/-- Within a block of 4 KiB a place is one piece (R129). -/
theorem writePieces_block {p : Port} {pl : Place} {bs : List Byte} (h : pl.pa % 4096 + bs.length ≤ 4096) (s : State) :
    writePieces p pl bs s = writePiece p pl bs s := by
  simp [writePieces, placePieces, blockPieces, h]

/-- A write does not see that it is its translation's first. -/
theorem writePieces_first (p : Port) (pl : Place) (f : Option Nat) (bs : List Byte) (s : State) :
    writePieces p { pl with first := f } bs s = writePieces p pl bs s := by
  simp only [writePieces, placePieces, List.foldl_map]
  rfl

/-- The first write through a translation sets D before it (R135). -/
theorem writePlace_first {p : Port} {pl : Place} {v : Nat} {bs : List Byte} {s s1 : State} (h : pl.first = some v)
    (hd : setDirty p v s = (.ok (), s1)) : writePlace p pl bs s = writePlace p { pl with first := none } bs s1 := by
  rw [writePlace_later (pl := { pl with first := none }) rfl, writePieces_first]
  simp only [writePlace, h]
  rw [act_bind_ok hd]
  rfl

/-! ## The front's part of a load and of a store -/

theorem signed_eq_bmod {w : Nat} (hw : 0 < w) (v : Nat) : signed w v = Int.bmod v (2 ^ w) := by
  obtain ⟨k, rfl⟩ : ∃ k, w = k + 1 := ⟨w - 1, by omega⟩
  have hpow : 2 ^ (k + 1) = 2 * 2 ^ k := Nat.pow_succ'
  have hcast : (2 : Int) ^ (k + 1) = (2 * 2 ^ k : Nat) := by
    push_cast
    exact pow_succ' 2 k
  rw [signed, Int.bmod, Nat.add_sub_cancel, hcast, hpow, ← Int.natCast_emod]
  have hm := Nat.two_pow_pos k
  generalize 2 ^ k = m at hm
  have hlt := Nat.mod_lt v (show 0 < 2 * m by omega)
  generalize v % (2 * m) = r at hlt
  split <;> split <;> omega

theorem sextBytes_eq_w64 {n : Nat} (hn : 0 < n) (v : Nat) : sextBytes n v = Claims.w64 (Int.bmod v (2 ^ (8 * n))) := by
  rw [sextBytes, signed_eq_bmod (by omega)]
  rfl

theorem zextBytes_eq_w64 (v : Nat) : zextBytes v = Claims.w64 v := (BitVec.ofInt_natCast 64 v).symm

theorem checkAlign_aligned {va n : Nat} (h : va % n = 0) (s : State) : checkAlign va n s = (.ok (), s) := by
  rw [checkAlign, if_pos h]
  rfl

theorem checkAlign_misaligned {va n : Nat} (h : va % n ≠ 0) (s : State) :
    checkAlign va n s = (.error (.trap (Claims.alignTrap (BitVec.ofNat 64 va))), s) := by
  rw [checkAlign, if_neg h]
  rfl

theorem waitV_passes {s : State} {va n : Nat} (h : Claims.ClearOfVector s va n) : waitV va n s = (.ok (), s) := by
  have hany : s.strand.vq.any (vMayTouch s va n) = false := List.any_eq_false.2 fun e he => by simp [h e he]
  rw [waitV, act_bind_ok (act_getS s), hany]
  rfl

theorem waitVReads_passes {s : State} (h : vReadBusy s.strand = false) : waitVReads s = (.ok (), s) := by
  rw [waitVReads, act_bind_ok (act_getStrand s), h]
  rfl

section
variable {a : Reg} {i : BitVec 12} {n : Nat} {s : State}

theorem loadInstr_misaligned {d : Reg} {ext : Nat → Word} (hr : Claims.Full s.strand [a, d])
    (h : Claims.addr s a i % n ≠ 0) :
    loadInstr d a i n ext s = .next (frontTrap (Claims.alignTrap (BitVec.ofNat 64 (Claims.addr s a i))) s) := by
  refine frontInstr_traps (act_pure () s) hr ?_
  rw [act_bind_ok (act_getStrand s)]
  exact act_bind_error (checkAlign_misaligned h s)

/-- A load reads the bytes at its place and extends them (R96). -/
theorem loadInstr_reads {d : Reg} {ext : Nat → Word} {s1 s2 : State} {pl : Place} {bs : List Byte}
    (hr : Claims.Full s.strand [a, d]) (h : Claims.addr s a i % n = 0) (hv : Claims.ClearOfVector s (Claims.addr s a i) n)
    (hacc : Claims.Reaches s s1 (Claims.addr s a i) n true false false true pl)
    (hload : loadPlace (strandPort s.strand 1) pl n (Claims.addr s a i) s1 = (.ok bs, s2)) (hd : s2.strand.dbgStep = false) :
    loadInstr d a i n ext s = .next (Claims.wrote s2 d (ext (leNat bs))) := by
  have hread : vsRead (strandPort s.strand 1) (Claims.addr s a i) n true s = (.ok bs, s2) :=
    (act_bind_ok hacc).trans hload
  refine frontInstr_done (s' := { s2 with strand := writeReg s2.strand d (ext (leNat bs)) }) (act_pure () s) hr ?_
    (by simpa using hd)
  rw [act_bind_ok (act_getStrand s)]
  refine (act_bind_ok (checkAlign_aligned h s)).trans ?_
  refine (act_bind_ok (waitV_passes hv)).trans ?_
  exact act_bind_ok hread

theorem storeInstr_misaligned {b : Reg} (hr : Claims.Full s.strand [a, b]) (h : Claims.addr s a i % n ≠ 0) :
    storeInstr a b i n s = .next (frontTrap (Claims.alignTrap (BitVec.ofNat 64 (Claims.addr s a i))) s) := by
  refine frontInstr_traps (act_pure () s) hr ?_
  rw [act_bind_ok (act_getStrand s)]
  exact act_bind_error (checkAlign_misaligned h s)

/-- A store writes the low bytes of x[rs2] at its place (R96). -/
theorem storeInstr_writes {b : Reg} {s1 t : State} {pl : Place} (hr : Claims.Full s.strand [a, b])
    (h : Claims.addr s a i % n = 0) (hv : Claims.ClearToWrite s (Claims.addr s a i) n)
    (hacc : Claims.Reaches s s1 (Claims.addr s a i) n false true false true pl)
    (hwrite : writePlace (strandPort s.strand 1) pl (leBytes n (readReg s.strand b).toNat) s1 = (.ok (), t))
    (hd : t.strand.dbgStep = false) : storeInstr a b i n s = .next (advance t) := by
  obtain ⟨hbytes, hidle⟩ := hv
  have hvs : vsWrite (strandPort s.strand 1) (Claims.addr s a i) (leBytes n (readReg s.strand b).toNat) true s =
      (.ok (), t) := by
    rw [vsWrite, length_leBytes]
    exact (act_bind_ok hacc).trans hwrite
  refine frontInstr_done (act_pure () s) hr ?_ hd
  rw [act_bind_ok (act_getStrand s)]
  refine (act_bind_ok (checkAlign_aligned h s)).trans ?_
  refine (act_bind_ok (waitV_passes hbytes)).trans ?_
  refine (act_bind_ok (waitVReads_passes hidle)).trans ?_
  exact act_bind_ok hvs

end

/-- Each load is `loadInstr` of its size and its extension in the claims. -/
theorem exec_loadForm {p : (Reg → Reg → BitVec 12 → Instr) × Nat × (Nat → Word)} (hp : p ∈ Claims.loads)
    (d a : Reg) (i : BitVec 12) (s : State) : exec (p.1 d a i) s = loadInstr d a i p.2.1 p.2.2 s := by
  have hz : zextBytes = fun v : Nat => Claims.w64 v := funext zextBytes_eq_w64
  have hs (n : Nat) (hn : 0 < n) : sextBytes n = fun v : Nat => Claims.w64 (Int.bmod v (2 ^ (8 * n))) :=
    funext (sextBytes_eq_w64 hn)
  simp only [Claims.loads, List.mem_cons, List.not_mem_nil, or_false] at hp
  rcases hp with rfl | rfl | rfl | rfl | rfl | rfl | rfl
  · exact congrArg (loadInstr d a i 1 · s) (hs 1 (by decide))
  · exact congrArg (loadInstr d a i 2 · s) (hs 2 (by decide))
  · exact congrArg (loadInstr d a i 4 · s) (hs 4 (by decide))
  · exact congrArg (loadInstr d a i 8 · s) hz
  · exact congrArg (loadInstr d a i 1 · s) hz
  · exact congrArg (loadInstr d a i 2 · s) hz
  · exact congrArg (loadInstr d a i 4 · s) hz

/-- Each store is `storeInstr` of its size, which is not 0. -/
theorem exec_storeForm {p : (Reg → Reg → BitVec 12 → Instr) × Nat} (hp : p ∈ Claims.stores) :
    0 < p.2 ∧ ∀ (a b : Reg) (i : BitVec 12) (s : State), exec (p.1 a b i) s = storeInstr a b i p.2 s := by
  simp only [Claims.stores, List.mem_cons, List.not_mem_nil, or_false] at hp
  rcases hp with rfl | rfl | rfl | rfl <;> exact ⟨by decide, fun _ _ _ _ => rfl⟩

/-- What a write within a block of HBM or of SRAM leaves in memory, as the claims read it. -/
theorem writePieces_reads {p : Port} {pl : Place} {bs : List Byte} {s : State} (hbs : 0 < bs.length)
    (hblock : pl.pa % 4096 + bs.length ≤ 4096) :
    (∀ h, regionOf pl.pa = .hbm h → let key := some (keyName s pl.key)
      loadBytes (writePieces p pl bs s).mem key h bs.length = bs ∧
      ∀ c, c < h ∨ h + bs.length ≤ c → smGet s.mem.poison (c / 8) = none →
        Claims.byteAt (writePieces p pl bs s).mem key c = Claims.byteAt s.mem key c) ∧
    (∀ g, regionOf pl.pa = .sram g → loadBytes (writePieces p pl bs s).mem none pl.pa bs.length = bs ∧
      ∀ c, c < pl.pa ∨ pl.pa + bs.length ≤ c → smGet s.mem.poison (c / 8) = none →
        Claims.byteAt (writePieces p pl bs s).mem none c = Claims.byteAt s.mem none c) := by
  rw [writePieces_block hblock]
  refine ⟨fun h hreg => ?_, fun g hreg => ?_⟩
  · rw [writePiece_hbm hreg]
    exact ⟨loadBytes_storeBytes_hbm _ _ _ _, fun c hc hp => keyedByte_storeBytes_apart _ _ hbs hc hp⟩
  · rw [writePiece_sram hreg]
    exact ⟨loadBytes_storeBytes_sram _ _ _, fun c hc hp => sramByte_storeBytes_other _ _ _ _ hc hp⟩

end Sys2Proof.Machine

namespace Sys2Proof.Proofs

open Sys2Proof.Machine

/-- Settles O15: the loads by `loadInstr`, the stores by `storeInstr` and what a write leaves at its place. -/
theorem loadsAndStores : Obligations.LoadsAndStores := by
  refine ⟨fun p hp d a i s hr _ => ?_, fun p hp a b i s hr _ => ?_⟩
  · rw [exec_loadForm hp]
    exact ⟨loadInstr_misaligned hr, fun s1 s2 pl bs h hv hacc hload hd => loadInstr_reads hr h hv hacc hload hd⟩
  · obtain ⟨hsize, hform⟩ := exec_storeForm hp
    rw [hform]
    refine ⟨storeInstr_misaligned hr, fun s1 pl h hv hacc hfirst _ => ?_, fun s1 s2 t pl v h hv hacc hfirst hdirty hw hd => ?_⟩
    · have hw := writePlace_later (p := strandPort s.strand 1) hfirst (leBytes p.2 (readReg s.strand b).toNat) s1
      have hlen : (leBytes p.2 (readReg s.strand b).toNat).length = p.2 := length_leBytes _ _
      have hreads := writePieces_reads (p := strandPort s.strand 1) (pl := pl) (s := s1) (hlen.symm ▸ hsize)
      rw [hlen] at hreads
      refine ⟨_, hw, fun hd => storeInstr_writes hr h hv hacc hw hd, writePieces_x _ _ _ _,
        fun a ha hblock => ?_, fun g hg hblock => ?_⟩
      · obtain ⟨hhbm, _⟩ := hreads hblock
        exact hhbm a ha
      · obtain ⟨_, hsram⟩ := hreads hblock
        exact hsram g hg
    · exact storeInstr_writes hr h hv hacc ((writePlace_first hfirst hdirty).trans hw) hd

end Sys2Proof.Proofs

/-! # The programs of the stack units (R314 to R318, R321) -/

namespace Sys2Proof.Machine

/-! ## What an instruction of a unit leads to -/

section
variable {s s' : State} {u u' : StackUnit} {c : SuCmd} {legal : Bool} {work : SuCmd → StackUnit → Act StackUnit}
  {next : Nat → StackUnit → StackUnit} (hown : unitOf s s.curUnit = u) (hcmd : u.running = some c) (hon : u.started = true)
include hown hcmd hon

/-- An operand outside its range stops the unit (R81, R322). -/
theorem suInstr_illegal (hl : legal = false) :
    suInstr legal work next s = .next (unitFault s.curUnit 3 u.entry 0 s.fetched s) := by
  simp only [suInstr, hown, hcmd, hon, hl, Bool.not_true, Bool.not_false, if_true, if_false, Bool.false_eq_true]

theorem suInstr_done (hl : legal = true) (hw : work c u s = (.ok u', s')) :
    suInstr legal work next s = .next (setUnit s.curUnit (next u.entry u') s') := by
  simp only [suInstr, hown, hcmd, hon, hl, hw, Bool.not_true, if_false, Bool.false_eq_true]

theorem suInstr_fault {cause : BitVec 8} {addr : Nat} (hl : legal = true) (haddr : addr < 2 ^ 48)
    (hw : work c u s = (.error (.trap { cause := cause, tval := BitVec.ofNat 64 addr, telem := 0 }), s')) :
    suInstr legal work next s = .next (unitFault s.curUnit cause.toNat u.entry addr s.fetched s') := by
  have htval : (BitVec.ofNat 64 addr).toNat = addr := by
    rw [BitVec.toNat_ofNat, Nat.mod_eq_of_lt (by omega)]
  simp only [suInstr, hown, hcmd, hon, hl, hw, Bool.not_true, if_false, Bool.false_eq_true, htval]

end

/-- Outside a loop the next entry follows (R317). -/
theorem afterEntry_flat {u : StackUnit} (h1 : u.loop1 = none) (h2 : u.loop2 = none) (i : Nat) :
    afterEntry i u = { u with entry := i + 1 } := by
  simp only [afterEntry, h1, h2]

/-! ## Registers of a unit -/

theorem vector_getD {α : Type} {n : Nat} (v : Vector α n) (k : Nat) (x : α) : v.toList.getD k x = (v[k]?).getD x := by
  simp [List.getD_eq_getElem?_getD]

theorem preg_eq (u : StackUnit) (k : Nat) : u.preg k = (u.p.toList.getD k 0).toNat := by rw [vector_getD]; rfl
theorem creg_eq (u : StackUnit) (k : Nat) : u.creg k = u.c.toList.getD k 0 := by rw [vector_getD]; rfl
theorem kreg_eq (u : StackUnit) (k : Nat) : u.kreg k = u.k.toList.getD k 0 := by rw [vector_getD]; rfl

/-- Writing the lanes of a register writes them and nothing else (R314). -/
theorem lanes_setLanes (u : StackUnit) (d : Reg) (f : Nat → Nat) : Claims.Lanes u (u.setLanes d.toNat f) d f := by
  refine ⟨fun l hl => ?_, fun k hk => ?_, rfl⟩
  · have hlane := smRead_smWriteList_same 0 ((List.range 64).map fun l => BitVec.ofNat 32 (f l)) u.n (d.toNat * 64) l
      (by simpa using hl)
    rw [List.getElem_map, List.getElem_range] at hlane
    show (smRead 0 (smWriteList 0 u.n _ _) (d.toNat * 64 + l)).toNat = _
    rw [hlane, BitVec.toNat_ofNat]
  · exact smRead_smWriteList_other _ _ _ _ _ (by simpa using hk)

theorem lanes_congr {u u' : StackUnit} {d : Reg} {f g : Nat → Nat} (h : ∀ l, f l = g l) (hf : Claims.Lanes u u' d f) :
    Claims.Lanes u u' d g := funext h ▸ hf

/-- The bits of a mask added up stay below the next one. -/
theorem sum_bits_lt (c : Nat → Bool) (n : Nat) : ((List.range n).map fun i => if c i then 2 ^ i else 0).sum < 2 ^ n := by
  induction n with
  | zero => simp
  | succ n ih =>
    rw [List.range_succ, List.map_append, List.sum_append, List.map_singleton, List.sum_singleton, Nat.pow_succ]
    split <;> omega

/-- The bits of a mask, added up. -/
theorem testBit_sum (c : Nat → Bool) (n l : Nat) :
    (((List.range n).map fun i => if c i then 2 ^ i else 0).sum).testBit l = (decide (l < n) && c l) := by
  induction n with
  | zero => simp
  | succ n ih =>
    have hlt := sum_bits_lt c n
    rw [List.range_succ, List.map_append, List.sum_append, List.map_singleton, List.sum_singleton]
    cases hc : c n with
    | false =>
      rw [if_neg (by simp), Nat.add_zero, ih]
      rcases eq_or_ne l n with rfl | hne
      · simp [hc]
      · rw [decide_eq_decide.2 (show l < n + 1 ↔ l < n by omega)]
    | true =>
      rw [if_pos rfl, Nat.add_comm]
      rcases lt_trichotomy l n with hl | rfl | hl
      · rw [Nat.testBit_two_pow_add_gt hl, ih, decide_eq_true hl, decide_eq_true (hl.trans (Nat.lt_succ_self n))]
      · rw [Nat.testBit_two_pow_add_eq, Nat.testBit_lt_two_pow hlt, hc]
        simp
      · have hbig : 2 ^ n + ((List.range n).map fun i => if c i then 2 ^ i else 0).sum < 2 ^ l :=
          calc _ < 2 ^ (n + 1) := by rw [Nat.pow_succ]; omega
            _ ≤ 2 ^ l := Nat.pow_le_pow_right (by decide) hl
        rw [Nat.testBit_lt_two_pow hbig, decide_eq_false (by omega), Bool.false_and]

/-! ## The lane instructions (R316) -/

section
variable {s : State} {u : StackUnit} {c : SuCmd} (hu : Claims.UnitRuns s u c) {legal : Bool} {d : Reg}
include hu

theorem unit_illegal {work : SuCmd → StackUnit → Act StackUnit} {next : Nat → StackUnit → StackUnit} (hl : legal = false) :
    suInstr legal work next s = .next (unitFault s.curUnit 3 u.entry 0 s.fetched s) :=
  suInstr_illegal hu.own hu.cmd hu.on hl

/-- An instruction whose work is a change of the unit outside its loops goes on to the next entry. -/
theorem unit_goesOn {f : StackUnit → StackUnit} (hl : legal = true) (h1 : (f u).loop1 = u.loop1) (h2 : (f u).loop2 = u.loop2) :
    suInstr legal (fun _ u => pure (f u)) afterEntry s = .next (Claims.goesOn s u (f u)) := by
  rw [suInstr_done hu.own hu.cmd hu.on hl (act_pure (f u) s), afterEntry_flat (h1.trans hu.flat.1) (h2.trans hu.flat.2)]
  rfl

theorem unit_setLanes {f : StackUnit → Nat → Nat} (hl : legal = true) :
    ∃ u', suInstr legal (fun _ u => pure (u.setLanes d.toNat (f u))) afterEntry s = .next (Claims.goesOn s u u') ∧
      Claims.Lanes u u' d (f u) :=
  ⟨_, unit_goesOn hu (f := fun u => u.setLanes d.toNat (f u)) hl rfl rfl, lanes_setLanes u d (f u)⟩

end

theorem regsN_iff (rs : List Reg) : regsN rs = true ↔ ∀ r ∈ rs, r.toNat < 24 := by simp [regsN]
theorem regsN_false_iff (rs : List Reg) : regsN rs = false ↔ ∃ r ∈ rs, 24 ≤ r.toNat := by simp [regsN]

/-- Each lane instruction of two sources is `suLanes` of its function in the claims. -/
theorem exec_unitForm2 {p : (Reg → Reg → Reg → Instr) × (Nat → Nat → Nat → Nat)} (hp : p ∈ Claims.unitForms2) (d a b : Reg)
    (s : State) : exec (p.1 d a b) s =
      suLanes d [a, b] (fun u l => p.2 (Claims.lane u a l) (Claims.lane u b l) (Claims.lane u d l)) s := by
  simp only [Claims.unitForms2, List.mem_cons, List.not_mem_nil, or_false] at hp
  rcases hp with rfl | rfl | rfl | rfl | rfl | rfl | rfl | rfl | rfl | rfl <;> rfl

theorem exec_unitForm1 {p : (Reg → Reg → Instr) × (Nat → Nat)} (hp : p ∈ Claims.unitForms1) (d a : Reg) (s : State) :
    exec (p.1 d a) s = suLanes d [a] (fun u l => p.2 (Claims.lane u a l)) s := by
  simp only [Claims.unitForms1, List.mem_cons, List.not_mem_nil, or_false] at hp
  rcases hp with rfl | rfl | rfl | rfl <;> rfl

/-- The six conversions are those of the claims. -/
theorem suConvert_eq (c x : Nat) : suConvert c x = Claims.unitConversion c x := by
  have hsigned : signed 32 x = Claims.sgn 32 x := signed_eq_bmod (by decide) x
  unfold suConvert Claims.unitConversion
  rw [hsigned]
  split <;> simp_all

/-- The mask that cmp writes: bit l says what holds of lane l. -/
def compareMask (u : StackUnit) (a b : Reg) (r : BitVec 2) : BitVec 64 :=
  BitVec.ofNat 64 ((List.range 64).map fun l =>
    if (fcompare .fp32 (Claims.unitRelation r) (Claims.lane u a l) (Claims.lane u b l)).1 then 2 ^ l else 0).sum

section
variable {s : State} {u : StackUnit} {c : SuCmd} (hu : Claims.UnitRuns s u c)
include hu

theorem suLanes_computes {d : Reg} {srcs : List Reg} (f : StackUnit → Nat → Nat) (hr : ∀ r ∈ d :: srcs, r.toNat < 24) :
    ∃ u', suLanes d srcs f s = .next (Claims.goesOn s u u') ∧ Claims.Lanes u u' d (f u) :=
  unit_setLanes hu ((regsN_iff _).2 hr)

theorem suLanes_illegal {d : Reg} {srcs : List Reg} (f : StackUnit → Nat → Nat) (hr : ∃ r ∈ d :: srcs, 24 ≤ r.toNat) :
    suLanes d srcs f s = .next (unitFault s.curUnit 3 u.entry 0 s.fetched s) :=
  unit_illegal hu ((regsN_false_iff _).2 hr)

theorem suCvt_converts {d a : Reg} {k : BitVec 4} (hd : d.toNat < 24) (ha : a.toNat < 24) (hk : k.toNat < 6) :
    ∃ u', exec (.suCvt d a k) s = .next (Claims.goesOn s u u') ∧
      Claims.Lanes u u' d fun l => Claims.unitConversion k.toNat (Claims.lane u a l) := by
  have hlegal : (regsN [d, a] && decide (k.toNat < 6)) = true := by simp [regsN, hd, ha, hk]
  obtain ⟨u', hexec, hlanes⟩ := unit_setLanes hu (f := fun u l => suConvert k.toNat (u.lane a.toNat l)) hlegal
  exact ⟨u', hexec, lanes_congr (fun l => suConvert_eq _ _) hlanes⟩

theorem suSel_chooses {d a b : Reg} {k : BitVec 2} (hd : d.toNat < 24) (ha : a.toNat < 24) (hb : b.toNat < 24) :
    ∃ u', exec (.suSel d a b k) s = .next (Claims.goesOn s u u') ∧ Claims.Lanes u u' d fun l =>
      if (u.k.toList.getD k.toNat 0).getLsbD l then Claims.lane u a l else Claims.lane u b l := by
  rw [← kreg_eq]
  exact suLanes_computes hu (fun u l => if (u.kreg k.toNat).getLsbD l then Claims.lane u a l else Claims.lane u b l)
    (by simp [hd, ha, hb])

theorem suBc_copies {d a : Reg} (hd : d.toNat < 24) (ha : a.toNat < 16) :
    ∃ u', exec (.suBc d a) s = .next (Claims.goesOn s u u') ∧
      Claims.Lanes u u' d fun _ => (u.c.toList.getD a.toNat 0).toNat := by
  rw [← creg_eq]
  exact unit_setLanes hu (f := fun u _ => (u.creg a.toNat).toNat) (by simp [regsN, hd, ha])

/-- cmp writes bit l of its mask from lane l. -/
theorem suCmp_compares {d a b : Reg} {r : BitVec 2} (hd : d.toNat < 4) (ha : a.toNat < 24) (hb : b.toNat < 24) (hr : r ≠ 3) :
    ∃ m : BitVec 64, exec (.suCmp d a b r) s = .next (Claims.goesOn s u { u with k := u.k.setIfInBounds d.toNat m }) ∧
      ∀ l < 64, m.getLsbD l = (fcompare .fp32 (Claims.unitRelation r) (Claims.lane u a l) (Claims.lane u b l)).1 := by
  have hlegal : (regsN [a, b] && decide (d.toNat < 4) && decide (r ≠ 3)) = true := by
    rw [decide_eq_true hr]
    simp [regsN, hd, ha, hb]
  refine ⟨compareMask u a b r, ?_, fun l hl => ?_⟩
  · show execSuCmp d a b r s = _
    exact unit_goesOn hu (f := fun u => { u with k := u.k.setIfInBounds d.toNat (compareMask u a b r) }) hlegal rfl rfl
  rw [compareMask, BitVec.getLsbD_ofNat, decide_eq_true hl, Bool.true_and, testBit_sum, decide_eq_true hl,
    Bool.true_and]

theorem suPadd_adds {d a : Reg} {i : BitVec 11} (hd : d.toNat < 8) (ha : a.toNat < 8) (hi : i.toNat % 4 = 0) :
    exec (.suPadd d a i) s = .next (Claims.goesOn s u { u with
      p := u.p.setIfInBounds d.toNat (u.p.toList.getD a.toNat 0 + i.signExtend 48) }) := by
  have hp : BitVec.ofNat 48 (u.preg a.toNat) = u.p.toList.getD a.toNat 0 := by
    rw [preg_eq, BitVec.ofNat_toNat, BitVec.setWidth_eq]
  rw [← hp]
  exact unit_goesOn hu (f := fun u => { u with
    p := u.p.setIfInBounds d.toNat (BitVec.ofNat 48 (u.preg a.toNat) + i.signExtend 48) }) (by simp [hd, ha, hi]) rfl rfl

/-! ### An operand outside its range (R81) -/

theorem suCvt_illegal {d a : Reg} {k : BitVec 4} (h : 24 ≤ d.toNat ∨ 24 ≤ a.toNat ∨ 6 ≤ k.toNat) :
    exec (.suCvt d a k) s = .next (unitFault s.curUnit 3 u.entry 0 s.fetched s) := by
  show execSuCvt d a k s = _
  exact unit_illegal hu (by simp [regsN]; omega)

theorem suSel_illegal {d a b : Reg} {k : BitVec 2} (h : 24 ≤ d.toNat ∨ 24 ≤ a.toNat ∨ 24 ≤ b.toNat) :
    exec (.suSel d a b k) s = .next (unitFault s.curUnit 3 u.entry 0 s.fetched s) := by
  show execSuSel d a b k s = _
  exact suLanes_illegal hu _ (by simpa using h)

theorem suBc_illegal {d a : Reg} (h : 24 ≤ d.toNat ∨ 16 ≤ a.toNat) :
    exec (.suBc d a) s = .next (unitFault s.curUnit 3 u.entry 0 s.fetched s) := by
  show execSuBc d a s = _
  exact unit_illegal hu (by simp [regsN]; omega)

theorem suCmp_illegal {d a b : Reg} {r : BitVec 2} (h : 4 ≤ d.toNat ∨ 24 ≤ a.toNat ∨ 24 ≤ b.toNat ∨ r = 3) :
    exec (.suCmp d a b r) s = .next (unitFault s.curUnit 3 u.entry 0 s.fetched s) := by
  show execSuCmp d a b r s = _
  exact unit_illegal hu (by simp [regsN] at h ⊢; grind)

theorem suPadd_illegal {d a : Reg} {i : BitVec 11} (h : 8 ≤ d.toNat ∨ 8 ≤ a.toNat ∨ i.toNat % 4 ≠ 0) :
    exec (.suPadd d a i) s = .next (unitFault s.curUnit 3 u.entry 0 s.fetched s) := by
  show execSuPadd d a i s = _
  exact unit_illegal hu (by simp; omega)

theorem suLd_suSt_illegal {d a : Reg} {i : BitVec 1} (h : 24 ≤ d.toNat ∨ 8 ≤ a.toNat) :
    ∀ x ∈ [Instr.suLd d a i, .suSt d a i], exec x s = .next (unitFault s.curUnit 3 u.entry 0 s.fetched s) := by
  have hlegal : (regsN [d] && decide (a.toNat < 8)) = false := by simp [regsN]; omega
  simp only [List.forall_mem_cons, List.not_mem_nil, IsEmpty.forall_iff, implies_true, and_true]
  constructor
  · show execSuLd d a i s = _
    exact unit_illegal hu hlegal
  · show execSuSt d a i s = _
    exact unit_illegal hu hlegal

end

/-! ## Loads and stores of a unit (R315, R316) -/

/-- `inc` moves the pointer on by the 256 bytes of an access at va. -/
def incremented (a : Reg) (i : BitVec 1) (va : Nat) (u : StackUnit) : StackUnit :=
  if i = 1 then { u with p := u.p.setIfInBounds a.toNat (BitVec.ofNat 48 (va + 256)) } else u

theorem afterEntry_incremented {u : StackUnit} (h1 : u.loop1 = none) (h2 : u.loop2 = none) (a : Reg) (i : BitVec 1)
    (va e : Nat) : afterEntry e (incremented a i va u) = { (incremented a i va u) with entry := e + 1 } := by
  refine afterEntry_flat ?_ ?_ e
  · unfold incremented
    split <;> exact h1
  · unfold incremented
    split <;> exact h2

theorem lanePlace_misaligned (p : Port) (un : Nat) {va : Nat} (wr : Bool) (h : va % 4 ≠ 0 ∨ 4096 < va % 4096 + 256)
    (s : State) : lanePlace p un va wr s = (.error (.trap { cause := 5, tval := BitVec.ofNat 64 va, telem := 0 }), s) := by
  rw [lanePlace, if_pos h]
  exact act_bind_error (act_raise 5 va s)

section
variable {s s1 s2 : State} {u : StackUnit} {c : SuCmd} (hu : Claims.UnitRuns s u c) {d a : Reg} {i : BitVec 1}
  (hd : d.toNat < 24) (ha : a.toNat < 8) {pl : Place}
include hu hd ha

theorem suLd_suSt_misaligned (h : u.preg a.toNat % 4 ≠ 0 ∨ 4096 < u.preg a.toNat % 4096 + 256) :
    ∀ x ∈ [Instr.suLd d a i, .suSt d a i], exec x s =
      .next (unitFault s.curUnit 5 u.entry (u.preg a.toNat) s.fetched s) := by
  have hva : u.preg a.toNat < 2 ^ 48 := BitVec.isLt _
  have hlegal : (regsN [d] && decide (a.toNat < 8)) = true := by simp [regsN, hd, ha]
  have hfault (wr : Bool) := lanePlace_misaligned (unitPort c) s.curUnit wr h s
  simp only [List.forall_mem_cons, List.not_mem_nil, IsEmpty.forall_iff, implies_true, and_true]
  constructor
  · show execSuLd d a i s = _
    refine suInstr_fault hu.own hu.cmd hu.on (cause := 5) hlegal hva ?_
    exact (act_bind_ok (act_getS s)).trans (act_bind_error (hfault false))
  · show execSuSt d a i s = _
    refine suInstr_fault hu.own hu.cmd hu.on (cause := 5) hlegal hva ?_
    exact (act_bind_ok (act_getS s)).trans (act_bind_error (hfault true))

/-- A load whose bytes hold no poison moves them to the lanes. -/
theorem suLd_loads {bs : List Byte} (hpl : lanePlace (unitPort c) s.curUnit (u.preg a.toNat) false s = (.ok pl, s1))
    (hclean : ∀ o < 256, placePoisoned s { pl with pa := pl.pa + o } 1 = false)
    (hread : readPlace pl 256 s1 = (.ok bs, s2)) :
    let u1 := incremented a i (u.preg a.toNat) (u.setLanes d.toNat fun l => field bs (4 * l) 4)
    exec (.suLd d a i) s = .next (setUnit s.curUnit { u1 with entry := u.entry + 1 } s2) := by
  have hlegal : (regsN [d] && decide (a.toNat < 8)) = true := by simp [regsN, hd, ha]
  have hnone : (List.range 256).find? (fun o => placePoisoned s { pl with pa := pl.pa + o } 1) = none :=
    List.find?_eq_none.2 fun o ho => by simp [hclean o (List.mem_range.1 ho)]
  intro u1
  have hnext : afterEntry u.entry u1 = { u1 with entry := u.entry + 1 } :=
    afterEntry_incremented (u := u.setLanes d.toNat fun l => field bs (4 * l) 4) hu.flat.1 hu.flat.2 a i _ _
  rw [← hnext]
  show execSuLd d a i s = _
  refine suInstr_done hu.own hu.cmd hu.on hlegal ?_
  refine (act_bind_ok (act_getS s)).trans ?_
  refine (act_bind_ok hpl).trans ?_
  rw [hnone]
  exact act_bind_ok hread

/-- The first poisoned byte of a load stops the unit with the address of its line (R332). -/
theorem suLd_poisoned {o : Nat} (hpl : lanePlace (unitPort c) s.curUnit (u.preg a.toNat) false s = (.ok pl, s1))
    (ho : o < 256) (hva : u.preg a.toNat + o < 2 ^ 48) (hpoison : placePoisoned s { pl with pa := pl.pa + o } 1 = true)
    (hclean : ∀ j < o, placePoisoned s { pl with pa := pl.pa + j } 1 = false) :
    ∃ s2, exec (.suLd d a i) s =
      .next (unitFault s.curUnit 1 u.entry ((u.preg a.toNat + o) / 64 * 64) s.fetched s2) := by
  have hlegal : (regsN [d] && decide (a.toNat < 8)) = true := by simp [regsN, hd, ha]
  have hsome : (List.range 256).find? (fun o => placePoisoned s { pl with pa := pl.pa + o } 1) = some o :=
    List.find?_range_eq_some.2 ⟨hpoison, List.mem_range.2 ho, fun j hj => by simp [hclean j hj]⟩
  obtain ⟨s2, hnote⟩ : ∃ s2, notePoison (unitPort c) 1 (pl.pa + o) s1 = (.ok (), s2) := ⟨_, rfl⟩
  refine ⟨s2, ?_⟩
  show execSuLd d a i s = _
  refine suInstr_fault hu.own hu.cmd hu.on (cause := 1) hlegal (by omega) ?_
  refine (act_bind_ok (act_getS s)).trans ?_
  refine (act_bind_ok hpl).trans ?_
  rw [hsome]
  exact (act_bind_ok hnote).trans (act_bind_error (act_raise 1 _ s2))

theorem suSt_stores (hpl : lanePlace (unitPort c) s.curUnit (u.preg a.toNat) true s = (.ok pl, s1))
    (hwrite : writePlace (unitPort c) pl ((List.range 64).flatMap fun l => leBytes 4 (Claims.lane u d l)) s1 = (.ok (), s2)) :
    exec (.suSt d a i) s =
      .next (setUnit s.curUnit { (incremented a i (u.preg a.toNat) u) with entry := u.entry + 1 } s2) := by
  have hlegal : (regsN [d] && decide (a.toNat < 8)) = true := by simp [regsN, hd, ha]
  rw [← afterEntry_incremented hu.flat.1 hu.flat.2]
  show execSuSt d a i s = _
  refine suInstr_done hu.own hu.cmd hu.on hlegal ?_
  refine (act_bind_ok (act_getS s)).trans ?_
  refine (act_bind_ok hpl).trans ?_
  exact act_bind_ok hwrite

end

/-! ## Loops (R317) -/

/-- Inside a body of level 1 alone. -/
theorem afterEntry_inside1 {u : StackUnit} {f l k i : Nat} (h1 : u.loop1 = some (f, l, k)) (h2 : u.loop2 = none)
    (hi : i ≠ l) : afterEntry i u = { u with entry := i + 1 } := by
  simp only [afterEntry, h1, h2, if_neg hi]

theorem afterEntry_again1 {u : StackUnit} {f l k : Nat} (h1 : u.loop1 = some (f, l, k)) (h2 : u.loop2 = none) (hk : 1 < k) :
    afterEntry l u = { u with loop1 := some (f, l, k - 1), idx1 := u.idx1 + 1, entry := f } := by
  simp only [afterEntry, h1, h2, if_true, if_neg (show ¬ k ≤ 1 by omega)]

theorem afterEntry_last1 {u : StackUnit} {f l k : Nat} (h1 : u.loop1 = some (f, l, k)) (h2 : u.loop2 = none) (hk : k ≤ 1) :
    afterEntry l u = { u with loop1 := none, idx1 := u.idx1 + 1, entry := l + 1 } := by
  simp only [afterEntry, h1, h2, if_true, if_pos hk]

theorem afterEntry_again2 {u : StackUnit} {f l k : Nat} (h2 : u.loop2 = some (f, l, k)) (hk : 1 < k) :
    afterEntry l u = { u with loop2 := some (f, l, k - 1), idx2 := u.idx2 + 1, entry := f } := by
  simp only [afterEntry, h2, if_true, if_neg (show ¬ k ≤ 1 by omega)]

/-- A body of level 2 that is used up leaves its last entry to the body of level 1. -/
theorem afterEntry_last2 {u : StackUnit} {f l k : Nat} (h2 : u.loop2 = some (f, l, k)) (hk : k ≤ 1) :
    afterEntry l u = afterEntry l { u with loop2 := none, idx2 := u.idx2 + 1 } := by
  simp only [afterEntry, h2, if_true, if_pos hk]

section
variable {s : State} {u : StackUnit} {c : SuCmd} {a : Reg} {n : BitVec 11} (hown : unitOf s s.curUnit = u)
  (hcmd : u.running = some c) (hon : u.started = true)
include hown hcmd hon

theorem suLp1_illegal (h : n.toNat = 0 ∨ 95 < u.entry + n.toNat ∨ 16 ≤ a.toNat ∨ u.loop1.isNone = false) :
    exec (.suLp1 a n) s = .next (unitFault s.curUnit 3 u.entry 0 s.fetched s) := by
  show execSuLp1 a n s = _
  unfold execSuLp1
  rw [hown]
  refine suInstr_illegal hown hcmd hon ?_
  rcases h with h | h | h | h
  · simp [h]
  · simp; omega
  · simp; omega
  · simp [h]

theorem suLp1_starts (h1 : u.loop1 = none) (ha : a.toNat < 16) (hn : 1 ≤ n.toNat) (he : u.entry + n.toNat ≤ 95) :
    exec (.suLp1 a n) s = .next (setUnit s.curUnit (if (u.creg a.toNat).toNat = 0 then
        { u with idx1 := 0, idx2 := 0, entry := u.entry + n.toNat + 1 }
      else { u with idx1 := 0, idx2 := 0, loop1 := some (u.entry + 1, u.entry + n.toNat, (u.creg a.toNat).toNat)
                    entry := u.entry + 1 }) s) := by
  show execSuLp1 a n s = _
  unfold execSuLp1
  rw [hown]
  refine suInstr_done hown hcmd hon (u' := { u with idx1 := 0, idx2 := 0 }) ?_ rfl
  rw [h1]
  simp
  omega

theorem suLp2_illegal (h : n.toNat = 0 ∨ 95 < u.entry + n.toNat ∨ 16 ≤ a.toNat ∨ u.loop1 = none) :
    exec (.suLp2 a n) s = .next (unitFault s.curUnit 3 u.entry 0 s.fetched s) := by
  show execSuLp2 a n s = _
  unfold execSuLp2
  rw [hown]
  refine suInstr_illegal hown hcmd hon ?_
  rcases h with h | h | h | h
  · simp [h]
  · simp; omega
  · simp; omega
  · simp [h]

theorem suLp2_starts {f l k : Nat} (h1 : u.loop1 = some (f, l, k)) (h2 : u.loop2 = none) (ha : a.toNat < 16)
    (hn : 1 ≤ n.toNat) (he : u.entry + n.toNat ≤ min 95 l) :
    exec (.suLp2 a n) s = .next (setUnit s.curUnit (if (u.creg a.toNat).toNat = 0 then
        afterEntry (u.entry + n.toNat) { u with idx2 := 0 }
      else { u with idx2 := 0, loop2 := some (u.entry + 1, u.entry + n.toNat, (u.creg a.toNat).toNat)
                    entry := u.entry + 1 }) s) := by
  show execSuLp2 a n s = _
  unfold execSuLp2
  rw [hown]
  refine suInstr_done hown hcmd hon (u' := { u with idx2 := 0 }) ?_ rfl
  rw [h1, h2]
  simp
  omega

end

/-! ## The end of a command (R316, R321) -/

theorem countFinal_units (v : Counter) (x : Bool) (s : State) : (countFinal v x s).units = s.units := by
  unfold countFinal
  split <;> rfl

theorem counterFinal_units (c : Nat) (v : Counter) (s : State) : (counterFinal c v s).units = s.units := by
  unfold counterFinal
  split
  · refine (recorded_emitHub _ _ _).units.trans ?_
    dsimp only [dropEntries]
    split <;> rfl
  · split
    · dsimp only
      split <;> rfl
    · rfl
  · rfl

/-- The record of a counter with one more child counted (R41). -/
def withChild (v : Counter) (x : Bool) : Counter :=
  { v with count := v.count + 1, cancelled := v.cancelled || x, final := decide (v.expected ≤ (v.count + 1).toNat) }

section
variable {s : State} {c : Nat} {v : Counter} (x : Bool)

theorem incCounter_none (hc : smGet s.hub.counters c = none) : incCounter c x s = s := by
  simp only [incCounter, counterOf, hc]

theorem incCounter_final (hc : smGet s.hub.counters c = some v) (hf : v.final = true) : incCounter c x s = s := by
  simp only [incCounter, counterOf, hc, hf, if_true]

theorem incCounter_live (hc : smGet s.hub.counters c = some v) (hf : v.final = false) :
    let s1 := advanceEpoch v.asid (setCounter c (withChild v x) s)
    CountersKept s1 (incCounter c x s) ∧ (incCounter c x s).units = s.units := by
  simp only [incCounter, counterOf, hc, hf]
  rw [if_neg Bool.false_ne_true]
  split
  · exact ⟨countersKept_countFinal _ _ (countersKept_counterFinal _ _ _),
      (countFinal_units _ _ _).trans (counterFinal_units _ _ _)⟩
  · exact ⟨⟨rfl, rfl, fun _ => rfl⟩, rfl⟩

/-- What counting a child leaves as it is: the units, the strand in focus, the other counters, and memory where no ring
writes into it. -/
structure CountKeeps (c : Nat) (s t : State) : Prop where
  units : t.units = s.units
  strand : t.strand = s.strand
  others : ∀ k, k ≠ c → smGet t.hub.counters k = smGet s.hub.counters k
  bytes : Claims.RingOff s → t.mem.bytes = s.mem.bytes

theorem CountKeeps.refl (c : Nat) (s : State) : CountKeeps c s s := ⟨rfl, rfl, fun _ _ => rfl, fun _ => rfl⟩

theorem incCounter_keeps (c : Nat) (x : Bool) (s : State) : CountKeeps c s (incCounter c x s) := by
  cases hc : smGet s.hub.counters c with
  | none =>
    rw [incCounter_none x hc]
    exact .refl c s
  | some v =>
    cases hf : v.final with
    | true =>
      rw [incCounter_final x hc hf]
      exact .refl c s
    | false =>
      obtain ⟨⟨hcounters, hstrand, hbytes⟩, hunits⟩ := incCounter_live x hc hf
      exact ⟨hunits, hstrand, fun k hk => (congrArg (smGet · k) hcounters).trans (smGet_smSet_other _ _ _ _ hk), hbytes⟩

theorem smGet_incCounter (hc : smGet s.hub.counters c = some v) (hf : v.final = false) :
    smGet (incCounter c x s).hub.counters c = some (withChild v x) := by
  obtain ⟨⟨hcounters, _, _⟩, _⟩ := incCounter_live x hc hf
  exact (congrArg (smGet · c) hcounters).trans (smGet_smSet_same _ _ _)

end

/-! ### The node that posted the command -/

theorem nodeFinished_not_running (g n : Nat) (s : State) {x : Graph} (hx : x ∈ (nodeFinished g n s).hub.graphs)
    (hg : x.counter = g) : smGet x.nodes n ≠ some .running := by
  obtain ⟨y, _, hy⟩ := List.mem_map.1 (show x ∈ listUpd _ _ s.hub.graphs from hx)
  have hcounter : y.counter = x.counter := by
    rw [← hy]
    split
    · split <;> rfl
    · rfl
  rw [← hy, if_pos (by simp [hcounter, hg])]
  split
  · rw [smGet_smSet_same]
    decide
  next hrun => exact hrun

/-- What the end of a command does beside its unit: its counter is counted, and its node has finished. -/
def reported (c : SuCmd) (s : State) : State :=
  let s1 := (packetCounter c.bytes).elim s fun k => incCounter k false s
  c.node.elim s1 fun p => nodeFinished p.1 p.2 s1

theorem unitComplete_running {un : Nat} {s : State} {c : SuCmd} (hc : (unitOf s un).running = some c) :
    unitComplete un s = reported c (setUnit un { unitOf s un with running := none, started := false } s) := by
  simp only [unitComplete, hc, reported]
  cases packetCounter c.bytes <;> cases c.node <;> rfl

/-- The counter that a packet names, by the bytes of its field. -/
theorem packetCounter_eq (bs : List Byte) : packetCounter bs =
    if natBits (leNat ((bs.drop 4).take 2)) 15 15 = 1 then none else some (natBits (leNat ((bs.drop 4).take 2)) 11 0) := rfl

/-- The counters of a state after the end of a command. -/
theorem reported_counters (c : SuCmd) (s : State) : (reported c s).hub.counters =
    ((packetCounter c.bytes).elim s fun k => incCounter k false s).hub.counters := by
  unfold reported
  cases c.node <;> rfl

theorem reported_keeps (c : SuCmd) (s : State) :
    CountKeeps (natBits (leNat ((c.bytes.drop 4).take 2)) 11 0) s (reported c s) := by
  have hcount : CountKeeps (natBits (leNat ((c.bytes.drop 4).take 2)) 11 0) s
      ((packetCounter c.bytes).elim s fun k => incCounter k false s) := by
    rw [packetCounter_eq]
    split
    · exact .refl _ s
    · exact incCounter_keeps _ _ s
  obtain ⟨hunits, hstrand, hothers, hbytes⟩ := hcount
  unfold reported
  cases c.node <;> exact ⟨hunits, hstrand, hothers, hbytes⟩

theorem reported_counted (c : SuCmd) (s : State) : Claims.Counted c s (reported c s) := by
  refine ⟨fun hnone => ?_, fun v hnamed hv hlive => ?_, (reported_keeps c s).others, fun g n x hnode hx hg => ?_⟩
  · rw [reported_counters, packetCounter_eq, if_pos hnone]
    rfl
  · refine ⟨withChild v false, ?_, rfl, Bool.or_false _, rfl⟩
    rw [reported_counters, packetCounter_eq, if_neg (by rw [hnamed]; decide)]
    exact smGet_incCounter false hv hlive
  · unfold reported at hx
    rw [hnode] at hx
    exact nodeFinished_not_running g n _ hx hg

/-- end completes the command of the unit, whose registers stand as they were. -/
theorem suEnd_completes {s : State} {u : StackUnit} {c : SuCmd} (hu : Claims.UnitRuns s u c) :
    ∃ t, exec .suEnd s = .next t ∧ unitOf t s.curUnit = { u with running := none, started := false } ∧
      Claims.Counted c s t ∧ t.strand = s.strand ∧ (Claims.RingOff s → t.mem.bytes = s.mem.bytes) := by
  have hrun : (unitOf s s.curUnit).running = some c := hu.own ▸ hu.cmd
  have hon : (unitOf s s.curUnit).started = true := hu.own ▸ hu.on
  have hexec : exec .suEnd s = .next (unitComplete s.curUnit s) := by
    show execSuEnd s = _
    unfold execSuEnd
    exact if_pos ⟨by rw [hrun]; rfl, hon⟩
  rw [unitComplete_running hrun, hu.own] at hexec
  obtain ⟨hunits, hstrand, _, hbytes⟩ := reported_keeps c (setUnit s.curUnit { u with running := none, started := false } s)
  refine ⟨_, hexec, ?_, reported_counted c _, hstrand, hbytes⟩
  rw [unitOf, hunits]
  exact unitOf_setUnit_same _ _ s

end Sys2Proof.Machine

namespace Sys2Proof.Proofs

open Sys2Proof.Machine

/-- Settles O49: the lane instructions by the function of each, loads and stores by the place of their 256 bytes, the loops
by `afterEntry`, and `end` by what the completion of a command reports. -/
theorem unitPrograms : Obligations.UnitPrograms := by
  refine ⟨fun s u c hu => ⟨?_, ?_, ?_, ?_, ?_, ?_, ?_, fun d a i h => suLd_suSt_illegal hu h⟩,
    fun s u c hu => ⟨fun d a i hd ha => ?_, fun a n ha hn he => ?_, fun a n h => ?_, fun a n => ?_, ?_⟩,
    fun s u c a n f l k hown _ hcmd hon h1 h2 ha hn he => ⟨?_, ?_⟩, fun u f l k h1 h2 => ?_, fun u f l k h2 => ?_⟩
  · intro p hp d a b
    rw [exec_unitForm2 hp]
    exact ⟨fun hd ha hb => suLanes_computes hu (fun u l => p.2 (Claims.lane u a l) (Claims.lane u b l) (Claims.lane u d l))
      (by simp [hd, ha, hb]), fun h => suLanes_illegal hu _ (by simpa using h)⟩
  · intro p hp d a
    rw [exec_unitForm1 hp]
    exact ⟨fun hd ha => suLanes_computes hu (fun u l => p.2 (Claims.lane u a l)) (by simp [hd, ha]),
      fun h => suLanes_illegal hu _ (by simpa using h)⟩
  · exact fun d a k => ⟨suCvt_converts hu, suCvt_illegal hu⟩
  · exact fun d a b k => ⟨suSel_chooses hu, suSel_illegal hu⟩
  · exact fun d a => ⟨suBc_copies hu, suBc_illegal hu⟩
  · exact fun d a b r => ⟨suCmp_compares hu, suCmp_illegal hu⟩
  · exact fun d a i => ⟨suPadd_adds hu, suPadd_illegal hu⟩
  · rw [← preg_eq]
    exact ⟨suLd_suSt_misaligned hu hd ha,
      fun s1 s2 pl bs hpl hclean hread _ => ⟨_, suLd_loads hu hd ha hpl hclean hread, lanes_setLanes u d _⟩,
      fun s1 pl o hpl ho hva hpoison hclean => suLd_poisoned hu hd ha hpl ho hva hpoison hclean,
      fun s1 s2 pl hpl hwrite => suSt_stores hu hd ha hpl hwrite⟩
  · rw [← creg_eq]
    exact suLp1_starts hu.own hu.cmd hu.on hu.flat.1 ha hn he
  · simp only [List.forall_mem_cons, List.not_mem_nil, IsEmpty.forall_iff, implies_true, and_true]
    exact ⟨suLp1_illegal hu.own hu.cmd hu.on (by omega), suLp2_illegal hu.own hu.cmd hu.on (by omega)⟩
  · exact suLp2_illegal hu.own hu.cmd hu.on (.inr (.inr (.inr hu.flat.1)))
  · obtain ⟨t, hexec, hunit, hrest⟩ := suEnd_completes hu
    exact ⟨t, hexec, by rw [hunit], by rw [hunit], hrest⟩
  · exact suLp1_illegal hown hcmd hon (.inr (.inr (.inr (by rw [h1]; rfl))))
  · rw [← creg_eq]
    exact suLp2_starts hown hcmd hon h1 h2 ha hn he
  · exact ⟨fun i hi => afterEntry_inside1 h1 h2 hi, afterEntry_again1 h1 h2, afterEntry_last1 h1 h2⟩
  · exact ⟨afterEntry_again2 h2, afterEntry_last2 h2⟩

end Sys2Proof.Proofs

/-! # The M extension (R95) -/

namespace Sys2Proof.Machine

/-! ## Quotients and remainders (R95): by zero the claims set them apart as the model does -/

section
variable {w : Nat} (x y : BitVec w)

theorem mul_eq_ofInt : x * y = BitVec.ofInt w (x.toInt * y.toInt) := by
  rw [BitVec.ofInt_mul, BitVec.ofInt_toInt, BitVec.ofInt_toInt]

theorem allOnes_eq_ofInt : BitVec.allOnes w = BitVec.ofInt w (-1) := by
  rw [← BitVec.neg_one_eq_allOnes, BitVec.ofInt_neg]
  rfl

theorem toInt_eq_zero_iff : y.toInt = 0 ↔ y = 0 := by
  rw [← BitVec.toInt_zero (w := w)]
  exact BitVec.toInt_inj

theorem toNat_cast_eq_zero_iff : (y.toNat : Int) = 0 ↔ y = 0 := by
  rw [Int.natCast_eq_zero]
  exact BitVec.toNat_inj (y := 0#w)

theorem divS_eq_ofInt : divS x y = BitVec.ofInt w (Claims.quot x.toInt y.toInt) := by
  simp only [divS, Claims.quot, toInt_eq_zero_iff]
  split
  · exact allOnes_eq_ofInt
  · apply BitVec.eq_of_toInt_eq
    rw [BitVec.toInt_sdiv, BitVec.toInt_ofInt]

theorem remS_eq_ofInt : remS x y = BitVec.ofInt w (Claims.rest x.toInt y.toInt) := by
  simp only [remS, Claims.rest, toInt_eq_zero_iff]
  split
  · rw [BitVec.ofInt_toInt]
  · rw [← BitVec.toInt_srem, BitVec.ofInt_toInt]

theorem divU_eq_ofInt : divU x y = BitVec.ofInt w (Claims.quot x.toNat y.toNat) := by
  simp only [divU, Claims.quot, toNat_cast_eq_zero_iff]
  split
  · exact allOnes_eq_ofInt
  · rw [← Int.ofNat_tdiv, ← BitVec.toNat_udiv, BitVec.ofInt_natCast, BitVec.ofNat_toNat, BitVec.setWidth_eq]

theorem remU_eq_ofInt : remU x y = BitVec.ofInt w (Claims.rest x.toNat y.toNat) := by
  simp only [remU, Claims.rest, toNat_cast_eq_zero_iff]
  split
  · rw [BitVec.ofInt_natCast, BitVec.ofNat_toNat, BitVec.setWidth_eq]
  · rw [← Int.ofNat_tmod, ← BitVec.toNat_umod, BitVec.ofInt_natCast, BitVec.ofNat_toNat, BitVec.setWidth_eq]

end

theorem lowW_mul (x y : Word) : lowW x * lowW y = BitVec.ofInt 32 (x.toInt * y.toInt) := by
  rw [lowW_eq_ofInt, lowW_eq_ofInt, BitVec.ofInt_mul]

theorem mulHigh_toNat (x y : Word) : mulHigh x.toNat y.toNat = Claims.w64 (x.toNat * y.toNat / 2 ^ 64 : Nat) := by
  rw [mulHigh, Claims.w64]
  norm_cast

/-- Each form of the M extension is `opRR` of its function in the claims. -/
theorem exec_multiplyForm_eq {p : (Reg → Reg → Reg → Instr) × (Word → Word → Word)} (hp : p ∈ Claims.multiplyForms)
    (d a b : Reg) (s : State) : exec (p.1 d a b) s = opRR d a b p.2 s := by
  simp only [Claims.multiplyForms, List.mem_cons, List.not_mem_nil, or_false] at hp
  rcases hp with rfl | rfl | rfl | rfl | rfl | rfl | rfl | rfl | rfl | rfl | rfl | rfl | rfl
  · exact opRR_congr (f := (· * ·)) mul_eq_ofInt s
  · rfl
  · rfl
  · exact opRR_congr (f := fun x y => mulHigh x.toNat y.toNat) mulHigh_toNat s
  · exact opRR_congr (f := divS) divS_eq_ofInt s
  · exact opRR_congr (f := divU) divU_eq_ofInt s
  · exact opRR_congr (f := remS) remS_eq_ofInt s
  · exact opRR_congr (f := remU) remU_eq_ofInt s
  · exact opRR_congr (f := fun x y => sextW (lowW x * lowW y)) (fun x y => sextW_eq_w32 (lowW_mul x y)) s
  · refine opRR_congr (f := fun x y => sextW (divS (lowW x) (lowW y))) (fun x y => sextW_eq_w32 ?_) s
    rw [divS_eq_ofInt, lowW_toInt, lowW_toInt]
  · exact opRR_congr (f := fun x y => sextW (divU (lowW x) (lowW y)))
      (fun x y => sextW_eq_w32 (divU_eq_ofInt (lowW x) (lowW y))) s
  · refine opRR_congr (f := fun x y => sextW (remS (lowW x) (lowW y))) (fun x y => sextW_eq_w32 ?_) s
    rw [remS_eq_ofInt, lowW_toInt, lowW_toInt]
  · exact opRR_congr (f := fun x y => sextW (remU (lowW x) (lowW y)))
      (fun x y => sextW_eq_w32 (remU_eq_ofInt (lowW x) (lowW y))) s

/-- The functs 001 to 011 of OP-32 under funct7 0000001 name no instruction. -/
theorem decodeOp32_unallocated {f : Fields} (h7 : f.f7 = 0b0000001#7)
    (h3 : f.f3 = 0b001#3 ∨ f.f3 = 0b010#3 ∨ f.f3 = 0b011#3) : decodeOp32 f = .error .unallocatedFunct := by
  rcases h3 with h3 | h3 | h3 <;> simp [decodeOp32, h7, h3]

theorem decode_op32 {w : Word32} (h : w.extractLsb' 0 7 = 0b0111011#7) : decode w = decodeOp32 (Fields.ofWord w) := by
  have hop : (Fields.ofWord w).op = 0b0111011#7 := h
  simp only [decode, decodeFields, hop]

end Sys2Proof.Machine

namespace Sys2Proof.Proofs

open Sys2Proof.Machine

/-- Settles O10: the forms are `opRR` of the claims' functions, and the table of OP-32 has no row for the other functs. -/
theorem multiplyAndDivide : Obligations.MultiplyAndDivide := by
  refine ⟨fun p hp d a b s hr hd => ?_, fun w hop h7 h3 => ⟨.unallocatedFunct, ?_, rfl⟩⟩
  · rw [exec_multiplyForm_eq hp, opRR_full hr, afterStep_free (by simpa [Claims.wrote, Claims.done] using hd)]
  · rw [decode_op32 hop]
    exact decodeOp32_unallocated h7 h3

end Sys2Proof.Proofs

/-! # LR, SC and the AMOs (R97 to R99) -/

namespace Sys2Proof.Machine

/-! ## What rl and aq add to an access (R99) -/

@[simp] theorem acquired_strand (q : BitVec 1) (s : State) : (Claims.acquired q s).strand = s.strand := by
  unfold Claims.acquired
  split
  · exact dropBuffers_strand _ _
  · rfl

@[simp] theorem released_strand (l : BitVec 1) (s : State) : (Claims.released l s).strand = s.strand := by
  unfold Claims.released
  split <;> rfl

theorem waitRelease_passes {l : BitVec 1} {s : State} (h : Claims.Released s l) : waitRelease l s = (.ok (), s) := by
  have hbusy : ¬(l = 1 ∧ vMemBusy s.strand = true) := fun hl => by simp [h hl.1] at hl
  rw [waitRelease, act_bind_ok (act_getStrand s), if_neg hbusy]
  rfl

/-- With rl the epoch advances and with aq the buffers go, once the access is made. -/
theorem epochThenAcquire {asid : BitVec 12} {t : State} (h : t.strand.asid = asid) (q l : BitVec 1) :
    (do
      if l = 1 then modS (advanceEpoch asid)
      acquireIf q
      pure none : Act (Option Word)) t = (.ok none, Claims.acquired q (Claims.released l t)) := by
  subst h
  by_cases hl : l = 1 <;> by_cases hq : q = 1 <;>
    simp only [hl, hq, if_true, if_false, acquireIf, Claims.acquired, Claims.released] <;> rfl

/-! ## LR and SC -/

section
variable {a d : Reg} {q l : BitVec 1} {n : Nat} {s : State}

theorem loadReserved_misaligned (hr : Claims.Full s.strand [a, d]) (h : (readReg s.strand a).toNat % n ≠ 0) :
    loadReserved d a q l n s = .next (frontTrap (Claims.alignTrap (BitVec.ofNat 64 (readReg s.strand a).toNat)) s) := by
  refine frontInstr_traps (act_pure () s) hr ?_
  rw [act_bind_ok (act_getStrand s)]
  exact act_bind_error (checkAlign_misaligned h s)

/-- LR reads and reserves the granule of its place (R97). -/
theorem loadReserved_reads {s1 s2 : State} {pl : Place} {bs : List Byte} (hr : Claims.Full s.strand [a, d])
    (h : (readReg s.strand a).toNat % n = 0) (hv : Claims.ClearOfVector s (readReg s.strand a).toNat n)
    (hrel : Claims.Released s l) (hacc : Claims.Reaches s s1 (readReg s.strand a).toNat n true false true true pl)
    (hload : loadPlace (strandPort s.strand 1) pl n (readReg s.strand a).toNat s1 = (.ok bs, s2))
    (hd : s2.strand.dbgStep = false) (hasid : s2.strand.asid = s.strand.asid) :
    loadReserved d a q l n s = .next (advance (Claims.acquired q (Claims.released l { s2 with strand :=
      { writeReg s2.strand d (sextBytes n (leNat bs)) with resv := some (canonical pl.pa / 64) } }))) := by
  refine frontInstr_done (act_pure () s) hr ?_ (by simpa using hd)
  rw [act_bind_ok (act_getStrand s)]
  refine (act_bind_ok (checkAlign_aligned h s)).trans ?_
  refine (act_bind_ok (waitV_passes hv)).trans ?_
  refine (act_bind_ok (waitRelease_passes hrel)).trans ?_
  refine (act_bind_ok hacc).trans ?_
  refine (act_bind_ok hload).trans ?_
  exact epochThenAcquire (by simpa using hasid) q l

end

section
variable {a b d : Reg} {q l : BitVec 1} {n : Nat} {s : State}

theorem storeConditional_misaligned (hr : Claims.Full s.strand [a, b, d]) (h : (readReg s.strand a).toNat % n ≠ 0) :
    storeConditional d a b q l n s =
      .next (frontTrap (Claims.alignTrap (BitVec.ofNat 64 (readReg s.strand a).toNat)) s) := by
  refine frontInstr_traps (act_pure () s) hr ?_
  rw [act_bind_ok (act_getStrand s)]
  exact act_bind_error (checkAlign_misaligned h s)

/-- The test of SC: the reservation of the strand covers the address (R97). -/
def covers (st : Strand) (va : Nat) : Act Bool :=
  match st.resv with
  | none => pure false
  | some g => do
    match ← tryTrap (translate (strandPort st 1) va .load) with
    | .ok pl => pure (decide (canonical pl.pa / 64 = g))
    | .error _ => pure false

/-- What SC does after its test: it writes where that holds, and clears the reservation. -/
def settleConditional (st : Strand) (d b : Reg) (q l : BitVec 1) (n va : Nat) (c : Bool) : Act (Option Word) := do
  if c then
    let pl ← access (strandPort st 1) va n false true true true
    writePlace (strandPort st 1) pl (leBytes n (readReg st b).toNat)
  modStrand fun st => { writeReg st d (boolWord (!c)) with resv := none }
  if l = 1 then modS (advanceEpoch st.asid)
  acquireIf q
  pure none

theorem tryTrap_ok {α : Type} {m : Act α} {s s' : State} {x : α} (h : m s = (.ok x, s')) :
    tryTrap m s = (.ok (.ok x), s') := by rw [tryTrap, h]

theorem tryTrap_trap {α : Type} {m : Act α} {s s' : State} {x : Trap} (h : m s = (.error (.trap x), s')) :
    tryTrap m s = (.ok (.error x), s') := by rw [tryTrap, h]

section
variable {s0 : State} {va : Nat}

theorem covers_unreserved (h : s.strand.resv = none) : covers s.strand va s = (.ok false, s) := by
  rw [covers, h]
  rfl

section
variable {g : Nat} (hg : s.strand.resv = some g)
include hg

theorem covers_translated {pl : Place} (h : translate (strandPort s.strand 1) va .load s = (.ok pl, s0)) :
    covers s.strand va s = (.ok (decide (canonical pl.pa / 64 = g)), s0) := by
  simp only [covers, hg]
  rw [act_bind_ok (tryTrap_ok h)]
  rfl

theorem covers_untranslated {x : Trap} (h : translate (strandPort s.strand 1) va .load s = (.error (.trap x), s0)) :
    covers s.strand va s = (.ok false, s0) := by
  simp only [covers, hg]
  rw [act_bind_ok (tryTrap_trap h)]
  rfl

end

theorem settleConditional_fails (hasid : s0.strand.asid = s.strand.asid) :
    settleConditional s.strand d b q l n va false s0 = (.ok none, Claims.acquired q (Claims.released l
      { s0 with strand := { writeReg s0.strand d 1 with resv := none } })) :=
  epochThenAcquire (t := { s0 with strand := { writeReg s0.strand d 1 with resv := none } }) (by simpa using hasid) q l

theorem settleConditional_writes {s1 t : State} {pl : Place}
    (hacc : access (strandPort s.strand 1) va n false true true true s0 = (.ok pl, s1))
    (hw : writePlace (strandPort s.strand 1) pl (leBytes n (readReg s.strand b).toNat) s1 = (.ok (), t))
    (hasid : t.strand.asid = s.strand.asid) :
    settleConditional s.strand d b q l n va true s0 = (.ok none, Claims.acquired q (Claims.released l
      { t with strand := { writeReg t.strand d 0 with resv := none } })) :=
  (act_bind_ok hacc).trans ((act_bind_ok hw).trans
    (epochThenAcquire (t := { t with strand := { writeReg t.strand d 0 with resv := none } }) (by simpa using hasid) q l))

end

section
variable (hr : Claims.Full s.strand [a, b, d]) (h : (readReg s.strand a).toNat % n = 0)
  (hv : Claims.ClearToWrite s (readReg s.strand a).toNat n) (hrel : Claims.Released s l)
include hr h hv hrel

/-- SC is its test and what follows it. -/
theorem storeConditional_settles {c : Bool} {s0 t : State}
    (hc : covers s.strand (readReg s.strand a).toNat s = (.ok c, s0))
    (ht : settleConditional s.strand d b q l n (readReg s.strand a).toNat c s0 = (.ok none, t))
    (hd : t.strand.dbgStep = false) : storeConditional d a b q l n s = .next (advance t) := by
  obtain ⟨hbytes, hidle⟩ := hv
  refine frontInstr_done (act_pure () s) hr ?_ hd
  rw [act_bind_ok (act_getStrand s)]
  refine (act_bind_ok (checkAlign_aligned h s)).trans ?_
  refine (act_bind_ok (waitV_passes hbytes)).trans ?_
  refine (act_bind_ok (waitVReads_passes hidle)).trans ?_
  refine (act_bind_ok (waitRelease_passes hrel)).trans ?_
  cases hresv : s.strand.resv with
  | none =>
    simp only [covers, hresv] at hc ⊢
    obtain ⟨⟨⟩, rfl⟩ := Prod.mk.inj hc
    exact ht
  | some g =>
    simp only [covers, hresv] at hc ⊢
    rw [act_bind] at hc ⊢
    rcases htry : tryTrap (translate (strandPort s.strand 1) (readReg s.strand a).toNat .load) s with ⟨x | r | pl, s'⟩ <;>
      simp only [htry] at hc ⊢
    · cases hc
    all_goals
      obtain ⟨⟨⟩, rfl⟩ := Prod.mk.inj hc
      exact ht

theorem storeConditional_unreserved (hresv : s.strand.resv = none) (hd : s.strand.dbgStep = false) :
    storeConditional d a b q l n s =
      .next (advance (Claims.acquired q (Claims.released l { s with strand := writeReg s.strand d 1 }))) := by
  have hst : { writeReg s.strand d 1 with resv := none } = writeReg s.strand d 1 := by
    rw [← hresv, ← writeReg_resv s.strand d 1]
  rw [storeConditional_settles hr h hv hrel (covers_unreserved hresv) (settleConditional_fails rfl) (by simpa using hd), hst]

theorem storeConditional_uncovered {s0 : State} {g : Nat} {r : Except Stop Place} (hg : s.strand.resv = some g)
    (htr : translate (strandPort s.strand 1) (readReg s.strand a).toNat .load s = (r, s0))
    (hother : ∀ pl, r = .ok pl → canonical pl.pa / 64 ≠ g) (htrap : ∀ e, r = .error e → ∃ x, e = .trap x)
    (hd : s0.strand.dbgStep = false) (hasid : s0.strand.asid = s.strand.asid) :
    storeConditional d a b q l n s = .next (advance (Claims.acquired q (Claims.released l { s0 with strand :=
      { writeReg s0.strand d 1 with resv := none } }))) := by
  refine storeConditional_settles hr h hv hrel (c := false) (s0 := s0) ?_ (settleConditional_fails hasid) (by simpa using hd)
  match r with
  | .ok pl => rw [covers_translated hg htr, decide_eq_false (hother pl rfl)]
  | .error e =>
    obtain ⟨x, rfl⟩ := htrap e rfl
    exact covers_untranslated hg htr

theorem storeConditional_covered {s0 s1 t : State} {pl0 pl : Place}
    (htr : translate (strandPort s.strand 1) (readReg s.strand a).toNat .load s = (.ok pl0, s0))
    (hg : s.strand.resv = some (canonical pl0.pa / 64))
    (hacc : access (strandPort s.strand 1) (readReg s.strand a).toNat n false true true true s0 = (.ok pl, s1))
    (hw : writePlace (strandPort s.strand 1) pl (leBytes n (readReg s.strand b).toNat) s1 = (.ok (), t))
    (hd : t.strand.dbgStep = false) (hasid : t.strand.asid = s.strand.asid) :
    storeConditional d a b q l n s = .next (advance (Claims.acquired q (Claims.released l { t with strand :=
      { writeReg t.strand d 0 with resv := none } }))) := by
  refine storeConditional_settles hr h hv hrel (c := true) (s0 := s0) ?_
    (settleConditional_writes hacc hw hasid) (by simpa using hd)
  rw [covers_translated hg htr, decide_eq_true rfl]

end

/-! ## AMOs (R98) -/

theorem amo_misaligned {op : AmoOp} (hr : Claims.Full s.strand [a, b, d]) (h : (readReg s.strand a).toNat % n ≠ 0) :
    amo op d a b q l n s = .next (frontTrap (Claims.alignTrap (BitVec.ofNat 64 (readReg s.strand a).toNat)) s) := by
  refine frontInstr_traps (act_pure () s) hr ?_
  rw [act_bind_ok (act_getStrand s)]
  exact act_bind_error (checkAlign_misaligned h s)

/-- The strand that an AMO leaves: x[rd] empty until the old value comes (R36, R98). -/
def awaiting (d : Reg) (old : Word) (st : Strand) : Strand :=
  if d = 0 then st else
    { setEmpty st d with fePend := st.fePend ++ [{ rd := d, val := old, seq := st.nextSeq }] }

theorem awaiting_keeps (d : Reg) (old : Word) (st : Strand) :
    (awaiting d old st).dbgStep = st.dbgStep ∧ (awaiting d old st).asid = st.asid := by
  unfold awaiting
  split <;> simp

theorem amo_performs {op : AmoOp} {s1 s2 t : State} {pl : Place} {bs : List Byte} (hr : Claims.Full s.strand [a, b, d])
    (h : (readReg s.strand a).toNat % n = 0) (hv : Claims.ClearToWrite s (readReg s.strand a).toNat n)
    (hrel : Claims.Released s l) (hacc : Claims.Reaches s s1 (readReg s.strand a).toNat n true true true false pl)
    (hload : loadPlace (strandPort s.strand 1) pl n (readReg s.strand a).toNat s1 = (.ok bs, s2))
    (hw : writePlace (strandPort s.strand 1) pl
      (leBytes n (amoFun op (sextBytes n (leNat bs)) (readReg s.strand b)).toNat) s2 = (.ok (), t))
    (hd : t.strand.dbgStep = false) (hasid : t.strand.asid = s.strand.asid) :
    amo op d a b q l n s = .next (advance (Claims.acquired q (Claims.released l
      { t with strand := awaiting d (sextBytes n (leNat bs)) t.strand }))) := by
  obtain ⟨hbytes, hidle⟩ := hv
  obtain ⟨hstep, hctx⟩ := awaiting_keeps d (sextBytes n (leNat bs)) t.strand
  refine frontInstr_done (act_pure () s) hr ?_ (by simpa [hstep] using hd)
  rw [act_bind_ok (act_getStrand s)]
  refine (act_bind_ok (checkAlign_aligned h s)).trans ?_
  refine (act_bind_ok (waitV_passes hbytes)).trans ?_
  refine (act_bind_ok (waitVReads_passes hidle)).trans ?_
  refine (act_bind_ok (waitRelease_passes hrel)).trans ?_
  refine (act_bind_ok hacc).trans ?_
  refine (act_bind_ok hload).trans ?_
  refine (act_bind_ok hw).trans ?_
  rw [← epochThenAcquire (t := { t with strand := awaiting d (sextBytes n (leNat bs)) t.strand }) (hctx.trans hasid) q l]
  by_cases h0 : d = 0
  · rw [if_neg (not_not.2 h0), awaiting, if_pos h0]
  · rw [if_pos h0, awaiting, if_neg h0]
    rfl

end

theorem amoFun_add (o x : Word) : amoFun .add o x = Claims.w64 (o.toInt + x.toInt) := add_eq_ofInt o x

theorem amoFun_minu (o x : Word) : amoFun .minu o x = BitVec.ofNat 64 (min o.toNat x.toNat) := by
  have hlt : x.ult o = true ↔ x.toNat < o.toNat := BitVec.ult_iff_lt
  simp only [amoFun, hlt]
  split
  next h => rw [Nat.min_eq_right h.le, BitVec.ofNat_toNat, BitVec.setWidth_eq]
  next h => rw [Nat.min_eq_left (Nat.not_lt.1 h), BitVec.ofNat_toNat, BitVec.setWidth_eq]

theorem amoFun_maxu (o x : Word) : amoFun .maxu o x = BitVec.ofNat 64 (max o.toNat x.toNat) := by
  have hlt : o.ult x = true ↔ o.toNat < x.toNat := BitVec.ult_iff_lt
  simp only [amoFun, hlt]
  split
  next h => rw [Nat.max_eq_right h.le, BitVec.ofNat_toNat, BitVec.setWidth_eq]
  next h => rw [Nat.max_eq_left (Nat.not_lt.1 h), BitVec.ofNat_toNat, BitVec.setWidth_eq]

theorem amoFun_min (o x : Word) : amoFun .min o x = if x.toInt < o.toInt then x else o := by
  simp only [amoFun, BitVec.slt_iff_toInt_lt]

theorem amoFun_max (o x : Word) : amoFun .max o x = if o.toInt < x.toInt then x else o := by
  simp only [amoFun, BitVec.slt_iff_toInt_lt]

/-- The operations of the AMOs, in the order of the claims' functions. -/
def amoOps : List AmoOp := [.swap, .add, .xor, .and, .or, .min, .max, .minu, .maxu]

theorem amos_eq : Claims.amos = amoOps.map amoFun := by
  simp only [Claims.amos, amoOps, List.map_cons, List.map_nil, List.cons.injEq, and_true]
  exact ⟨rfl, (funext₂ amoFun_add).symm, rfl, rfl, rfl, (funext₂ amoFun_min).symm, (funext₂ amoFun_max).symm,
    (funext₂ amoFun_minu).symm, (funext₂ amoFun_maxu).symm⟩

/-- Each AMO of the claims is `amo` of its operation and its size. -/
theorem exec_amoForm {p : (Reg → Reg → Reg → BitVec 1 → BitVec 1 → Instr) × Nat × (Word → Word → Word)}
    (hp : p ∈ Claims.amoForms) : ∃ op, p.2.2 = amoFun op ∧ 0 < p.2.1 ∧
      ∀ d a b q l s, exec (p.1 d a b q l) s = amo op d a b q l p.2.1 s := by
  rw [Claims.amoForms, amos_eq] at hp
  simp only [Claims.amoWords, Claims.amoDoubles, amoOps, List.map_cons, List.map_nil, List.zip_cons_cons, List.zip_nil_left,
    List.cons_append, List.nil_append, List.mem_cons, List.not_mem_nil, or_false] at hp
  rcases hp with rfl | rfl | rfl | rfl | rfl | rfl | rfl | rfl | rfl | rfl | rfl | rfl | rfl | rfl | rfl | rfl | rfl | rfl <;>
    exact ⟨_, rfl, by decide, fun _ _ _ _ _ _ => rfl⟩

theorem sextBytes_eq_bmod256 {n : Nat} (hn : 0 < n) (v : Nat) : sextBytes n v = Claims.w64 (Int.bmod v (256 ^ n)) := by
  rw [sextBytes_eq_w64 hn, Nat.pow_mul]

/-- Each LR of the claims is `loadReserved` of its size, and its word the bytes sign-extended. -/
theorem exec_loadReservedForm {p : (Reg → Reg → BitVec 1 → BitVec 1 → Instr) × Nat × Nat}
    (hp : p ∈ [(Instr.lrW, 4, 32), (Instr.lrD, 8, 64)]) :
    (∀ d a q l s, exec (p.1 d a q l) s = loadReserved d a q l p.2.1 s) ∧
      ∀ v : Nat, sextBytes p.2.1 v = Claims.w64 (Int.bmod v (2 ^ p.2.2)) := by
  simp only [List.mem_cons, List.not_mem_nil, or_false] at hp
  rcases hp with rfl | rfl
  · exact ⟨fun _ _ _ _ _ => rfl, sextBytes_eq_w64 (by decide)⟩
  · exact ⟨fun _ _ _ _ _ => rfl, sextBytes_eq_w64 (by decide)⟩

theorem exec_storeConditionalForm {p : (Reg → Reg → Reg → BitVec 1 → BitVec 1 → Instr) × Nat}
    (hp : p ∈ [(Instr.scW, 4), (Instr.scD, 8)]) (d a b : Reg) (q l : BitVec 1) (s : State) :
    exec (p.1 d a b q l) s = storeConditional d a b q l p.2 s := by
  simp only [List.mem_cons, List.not_mem_nil, or_false] at hp
  rcases hp with rfl | rfl <;> rfl

end Sys2Proof.Machine

namespace Sys2Proof.Proofs

open Sys2Proof.Machine

/-- Settles O16: LR by `loadReserved`, SC by its test of the reservation and what follows it. -/
theorem loadReservedAndStoreConditional : Obligations.LoadReservedAndStoreConditional := by
  refine ⟨fun p hp d a q l s hr _ => ?_, fun p hp d a b q l s hr hd => ?_⟩
  · obtain ⟨hform, hword⟩ := exec_loadReservedForm hp
    rw [hform]
    refine ⟨loadReserved_misaligned hr, fun s1 s2 pl bs h hv hrel hacc hload hd hasid => ?_⟩
    rw [loadReserved_reads hr h hv hrel hacc hload hd hasid, hword]
  · rw [exec_storeConditionalForm hp]
    exact ⟨storeConditional_misaligned hr, fun h hv hrel hresv => storeConditional_unreserved hr h hv hrel hresv hd,
      fun s0 g r h hv hrel hg htr hother htrap hd hasid => storeConditional_uncovered hr h hv hrel hg htr hother htrap hd hasid,
      fun s0 s1 t pl0 pl h hv hrel htr hg hacc hw hd hasid => storeConditional_covered hr h hv hrel htr hg hacc hw hd hasid⟩

/-- Settles O17: each AMO is `amo` of its operation, whose function is the claims'. -/
theorem atomicMemoryOperations : Obligations.AtomicMemoryOperations := by
  intro p hp d a b q l s hr _
  obtain ⟨op, hfun, hsize, hform⟩ := exec_amoForm hp
  rw [hform]
  refine ⟨amo_misaligned hr, fun s1 s2 t pl bs h hv hrel hacc hload hw hd hasid => ?_⟩
  rw [hfun, ← sextBytes_eq_bmod256 hsize] at hw
  rw [amo_performs hr h hv hrel hacc hload hw hd hasid, sextBytes_eq_bmod256 hsize]
  rfl

end Sys2Proof.Proofs

/-! # Breaking a loop and reading its index (R110) -/

namespace Sys2Proof.Machine

section
variable {s : State} (hd : s.strand.dbgStep = false)

include hd in
theorem lpbrk_pops {e : LoopEntry} {es : List LoopEntry} (h : s.strand.loops = e :: es) :
    exec .lpbrk s = .next (jump (e.stop.setWidth 64 + 4) { s with strand := { s.strand with loops := es } }) := by
  refine frontInstr_jumps (act_pure () s) (rs := []) (by simp [Claims.Full]) ?_ hd
  simp only [act_bind, act_getStrand, h]
  rfl

theorem lpbrk_empty (h : s.strand.loops = []) : exec .lpbrk s = .next (frontTrap (Claims.ill 6) s) := by
  refine frontInstr_traps (act_pure () s) (rs := []) (by simp [Claims.Full]) (s' := s) ?_
  simp only [act_bind, act_getStrand, h]
  rfl

include hd in
theorem lpidx_reads {d l : BitVec 5} {e : LoopEntry} (hfull : isEmpty s.strand d = false)
    (h : s.strand.loops[l.toNat]? = some e) : exec (.lpidx d l) s = .next (Claims.wrote s d e.index) := by
  obtain ⟨hlt, -⟩ := List.getElem?_eq_some_iff.1 h
  refine frontInstr_done (rs := [d]) (s' := { s with strand := writeReg s.strand d e.index }) ?_
    (by simpa [Claims.Full] using hfull) ?_ (by simpa using hd)
  · simp only [act_bind, act_getStrand, hlt, decide_true, act_require_true]
  · simp only [act_bind, act_getStrand, h]
    rfl

theorem lpidx_beyond {d l : BitVec 5} (h : s.strand.loops.length ≤ l.toNat) :
    exec (.lpidx d l) s = .next (frontTrap (Claims.ill 6) s) := by
  refine frontInstr_check ?_
  simp only [act_bind, act_getStrand, Nat.not_lt.2 h, decide_false, act_require]
  rfl

end

end Sys2Proof.Machine

namespace Sys2Proof.Proofs

open Sys2Proof.Machine

/-- Settles O24: LPBRK by the stack that it finds, LPIDX by the entry that the stack holds at its level. -/
theorem loopBreakAndIndex : Obligations.LoopBreakAndIndex := fun _ hd =>
  ⟨fun _ _ h => lpbrk_pops hd h, lpbrk_empty, fun _ _ _ hfull h => lpidx_reads hd hfull h, fun _ _ h => lpidx_beyond h⟩

end Sys2Proof.Proofs

/-! # Fences and yield (R100, R113, R274) -/

namespace Sys2Proof.Machine

/-- An acquire empties the hoop's stream buffers (R123). -/
theorem dropBuffers_empties (h : Nat) (s : State) : (hoopOf (dropBuffers h s) h).buffers = [] := by
  unfold dropBuffers
  split
  next he => exact he
  next => rw [hoopOf_setHoop_same]

theorem dropBuffers_hoopsOnly (h : Nat) (s : State) : dropBuffers h s = { s with hoops := (dropBuffers h s).hoops } := by
  unfold dropBuffers
  split <;> rfl

section
variable {s : State} (hd : s.strand.dbgStep = false)
include hd

/-- An S instruction that has nothing of its own to do. -/
theorem frontInstr_nothing : frontInstr (pure ()) [] (pure none) s = .next (advance s) :=
  frontInstr_done (act_pure () s) (by simp [Claims.Full]) (act_pure none s) hd

/-- yield marks its boundary where a stop is pending (R113). -/
theorem yield_marks : exec .yield s = .next { advance s with strand := { (advance s).strand with
    atLoopPoint := (advance s).strand.atLoopPoint || (s.strand.cancelled || s.strand.preempt) } } := by
  show execYield s = _
  rw [execYield, frontInstr_nothing hd]
  simp

theorem yield_plain (hp : s.strand.preempt = false) (hc : s.strand.cancelled = false) :
    exec .yield s = .next (advance s) := by
  rw [yield_marks hd, hp, hc, Bool.or_false, Bool.or_false]

theorem yield_pending (h : s.strand.preempt = true ∨ s.strand.cancelled = true) :
    exec .yield s = .next { advance s with strand := { (advance s).strand with atLoopPoint := true } } := by
  have hstop : (s.strand.cancelled || s.strand.preempt) = true := by rcases h with h | h <;> simp [h]
  rw [yield_marks hd, hstop, Bool.or_true]

end

/-! ## fence.s -/

/-- The vector side, the engine queues and the ports that a fence names have performed what is older (R274). -/
def fenceReady (e v : BitVec 1) (sc : BitVec 5) (s : State) : Prop :=
  (v = 1 → vMemBusy s.strand = false) ∧ (e = 1 → s.strand.mq = [] ∧ s.strand.cq = [] ∧ s.strand.nq = []) ∧
    (sc.toNat = 4 → portsSettled s = true)

section
variable {i e v c : BitVec 1} {sc : BitVec 5} {s : State}

/-- A fence names a side, and a scope of the spec. -/
def fenceNamed (i e v c : BitVec 1) (sc : BitVec 5) : Bool := sc.toNat ≤ 4 && !(i = 0 && e = 0 && v = 0 && c = 0)

theorem fenceNamed_passes (hsc : sc.toNat ≤ 4) (h : i = 1 ∨ e = 1 ∨ v = 1 ∨ c = 1) (s : State) :
    require (fenceNamed i e v c sc) 6 s = (.ok (), s) := by
  have hnamed : fenceNamed i e v c sc = true := by
    rw [fenceNamed, decide_eq_true hsc]
    rcases h with rfl | rfl | rfl | rfl <;> simp
  rw [hnamed, act_require_true]

theorem fenceNamed_refused (h : 4 < sc.toNat ∨ (i = 0 ∧ e = 0 ∧ v = 0 ∧ c = 0)) (s : State) :
    require (fenceNamed i e v c sc) 6 s = (.error (.trap (Claims.ill 6)), s) := by
  have hunnamed : fenceNamed i e v c sc = false := by
    rcases h with h | ⟨rfl, rfl, rfl, rfl⟩
    · rw [fenceNamed, decide_eq_false (Nat.not_le.2 h), Bool.false_and]
    · simp [fenceNamed]
  rw [hunnamed]
  rfl

theorem fenceS_refused (h : 4 < sc.toNat ∨ (i = 0 ∧ e = 0 ∧ v = 0 ∧ c = 0)) :
    exec (.fenceS i e v c sc) s = .next (frontTrap (Claims.ill 6) s) :=
  frontInstr_check (fenceNamed_refused h s)

section
variable (hsc : sc.toNat ≤ 4) (hside : i = 1 ∨ e = 1 ∨ v = 1 ∨ c = 1)
include hsc hside

theorem fenceS_passes (hd : s.strand.dbgStep = false) (h : fenceReady e v sc s) :
    exec (.fenceS i e v c sc) s = .next (advance (if v = 1 ∧ 3 ≤ sc.toNat then Claims.acquired 1 s else s)) := by
  obtain ⟨hv, he, hp⟩ := h
  have hv' : ¬(v = 1 ∧ vMemBusy s.strand = true) := fun h => by simp [hv h.1] at h
  have he' : ¬(e = 1 ∧ (!(s.strand.mq.isEmpty && s.strand.cq.isEmpty && s.strand.nq.isEmpty)) = true) := fun h => by
    obtain ⟨hm, hc, hn⟩ := he h.1
    simp [hm, hc, hn] at h
  have hp' : ¬(sc.toNat = 4 ∧ (!portsSettled s) = true) := fun h => by simp [hp h.1] at h
  refine frontInstr_done (rs := []) (s' := if v = 1 ∧ 3 ≤ sc.toNat then Claims.acquired 1 s else s)
    (fenceNamed_passes hsc hside s) (by simp [Claims.Full]) ?_ ?_
  · simp only [act_bind, act_getStrand, act_getS, if_neg hv', if_neg he', if_neg hp']
    split <;> rfl
  · split
    · exact (congrArg Strand.dbgStep (dropBuffers_strand _ s)).trans hd
    · exact hd

theorem fenceS_waits (h : ¬fenceReady e v sc s) : exec (.fenceS i e v c sc) s = .next (frontWait .uncounted s) := by
  refine frontInstr_waits (rs := []) (fenceNamed_passes hsc hside s) (by simp [Claims.Full]) (s' := s) ?_
  simp only [act_bind, act_getStrand]
  by_cases hv : v = 1 ∧ vMemBusy s.strand = true
  · rw [if_pos hv]
    rfl
  by_cases he : e = 1 ∧ (!(s.strand.mq.isEmpty && s.strand.cq.isEmpty && s.strand.nq.isEmpty)) = true
  · rw [if_neg hv, if_pos he]
    rfl
  have hp : sc.toNat = 4 ∧ (!portsSettled s) = true := by
    by_contra hp
    exact h ⟨fun h1 => by simpa [h1] using hv, fun h1 => by simpa [h1, and_assoc] using he,
      fun h1 => by simpa [h1] using hp⟩
  rw [if_neg hv, if_neg he, act_bind_ok (act_getS s), if_pos hp]
  rfl

end

end

end Sys2Proof.Machine

namespace Sys2Proof.Proofs

open Sys2Proof.Machine

/-- Settles O28: fence and yield do nothing of their own; fence.s goes on or waits by what its sides have performed. -/
theorem fencesAndYield : Obligations.FencesAndYield := by
  refine ⟨fun h s => ⟨dropBuffers_empties h s, dropBuffers_hoopsOnly h s⟩, fun s hd => ⟨
    fun _ _ _ => frontInstr_nothing hd, frontInstr_nothing hd, yield_plain hd, yield_pending hd,
    fun i e v c sc hsc hside => ⟨fun hv he hp => ?_, fun h => ?_⟩, fun i e v c sc h => fenceS_refused h⟩⟩
  · exact fenceS_passes hsc hside hd ⟨hv, he, hp⟩
  · refine fenceS_waits hsc hside fun ⟨hv, he, hp⟩ => ?_
    rcases h with ⟨h1, h2⟩ | ⟨h1, h2⟩ | ⟨h1, h2⟩
    · exact Bool.false_ne_true ((hv h1).symm.trans h2)
    · exact h2 (he h1)
    · exact Bool.false_ne_true (h2.symm.trans (hp h1))

end Sys2Proof.Proofs

/-! # Taking a trap (R101, R431 to R434) -/

namespace Sys2Proof.Machine

/-! ## System calls -/

theorem ecall_traps (s : State) : exec .ecall s = .next (frontTrap { cause := 0x03, tval := 0, telem := 0 } s) :=
  frontInstr_traps (act_pure () s) (rs := []) (by simp [Claims.Full]) rfl

theorem ebreak_traps {s : State} (h : s.strand.dbgArmed = false) :
    exec .ebreak s = .next (frontTrap { cause := 0x02, tval := 0, telem := 0 } s) := by
  refine frontInstr_traps (act_pure () s) (rs := []) (by simp [Claims.Full]) (s' := s) ?_
  simp only [act_bind, act_getStrand, h]
  rfl

/-- An S instruction whose work brings a halt on the strand. -/
theorem frontInstr_halts {c : Act Unit} {rs : List Reg} {w : Act (Option Word)} {s s' : State} {r : HaltReason}
    (hc : c s = (.ok (), s)) (hr : Claims.Full s.strand rs) (hw : w s = (.error (.halt r), s')) :
    frontInstr c rs w s = .next { s' with strand := haltStrand r s'.strand } := by
  rw [frontInstr_work hc hr, frontStep, frontStepWith, hw]

theorem ebreak_halts {s : State} (h : s.strand.dbgArmed = true) (hrun : s.strand.state = .running) :
    exec .ebreak s = .next { s with strand := Claims.haltedOrDue .ebreak s.strand } := by
  rw [← haltStrand_running hrun]
  refine frontInstr_halts (act_pure () s) (rs := []) (by simp [Claims.Full]) ?_
  simp only [act_bind, act_getStrand, h]
  rfl

/-! ## What a strand saves as it stops -/

theorem tstatus_shifted (x : Word) : (x >>> 1 &&& 1) ||| 2 = if x.getLsbD 1 = true then 3 else 2 := by
  rw [show (1 : Word) = 1#64 from rfl, BitVec.and_one_eq_setWidth_ofBool_getLsbD, BitVec.getLsbD_ushiftRight]
  cases x.getLsbD (1 + 0) <;> rfl

theorem and_low48 (x : Word) : x &&& (2 ^ 48 - 1) = BitVec.ofNat 64 (x.toNat % 2 ^ 48) := by
  apply BitVec.eq_of_toNat_eq
  have hmask : (2 ^ 48 - 1 : Word).toNat = 2 ^ 48 - 1 := rfl
  rw [BitVec.toNat_and, hmask, Nat.and_two_pow_sub_one_eq_mod, BitVec.toNat_ofNat]
  omega

theorem and_not_three (x : Word) : x &&& ~~~3 = BitVec.ofNat 64 (x.toNat / 4 * 4) := by
  have hmask : (~~~3 : Word) = BitVec.allOnes 64 <<< 2 := by decide
  apply BitVec.eq_of_toNat_eq
  rw [hmask, ← BitVec.shiftLeft_ushiftRight, BitVec.toNat_shiftLeft, BitVec.toNat_ushiftRight, Nat.shiftLeft_eq,
    Nat.shiftRight_eq_div_pow, BitVec.toNat_ofNat]

/-- Results of V instructions that have not retired change full bits alone. -/
theorem fillResults_empty (st : Strand) : ∃ e, fillResults st = { st with empty := e } :=
  foldl_keeps (fun t : Strand => ∃ e, t = { st with empty := e }) _
    (by rintro t v ⟨e, rfl⟩; exact ⟨_, rfl⟩) _ _ ⟨st.empty, rfl⟩

/-- The strand that stops, once its results are settled (R431, R432). -/
def stoppedStrand (t : Trap) (u : Strand) : Strand :=
  let tvcp := match u.vq with
    | e :: _ => e.pc
    | [] => u.pc
  let vstart := match u.vq with
    | e :: _ => BitVec.ofNat 64 e.vstart
    | [] => u.csr.vstart
  { u with
    csr := { u.csr with
      tstatus := (u.csr.tstatus >>> 1 &&& 1) ||| 2, tcause := t.cause.setWidth 64, tval := t.tval
      telem := t.telem.setWidth 64, tpc := u.pc &&& (2 ^ 48 - 1), tvcp := tvcp &&& (2 ^ 48 - 1), vstart := vstart }
    resv := none, links := [], pending := [], wait := none, waits := Vector.replicate 5 0, atLoopPoint := false
    idling := false }

/-- The strand that stops, as the claims write it. -/
theorem stoppedStrand_eq (t : Trap) (u : Strand) : stoppedStrand t u = { u with
    csr := { u.csr with
      tstatus := if sysLevel u then 3 else 2, tcause := t.cause.setWidth 64, tval := t.tval, telem := t.telem.setWidth 64
      tpc := BitVec.ofNat 64 (u.pc.toNat % 2 ^ 48)
      tvcp := BitVec.ofNat 64 (((u.vq.head?.map VEntry.pc).getD u.pc).toNat % 2 ^ 48)
      vstart := (u.vq.head?.map fun e => BitVec.ofNat 64 e.vstart).getD u.csr.vstart }
    resv := none, links := [], pending := [], wait := none, waits := Vector.replicate 5 0, atLoopPoint := false
    idling := false } := by
  rw [stoppedStrand, tstatus_shifted, and_low48, and_low48]
  cases u.vq <;> rfl

theorem stopped_eq (t : Trap) (s : State) :
    let u := fillResults (settlePending s.strand)
    Claims.stopped t s = emitStrand (stoppedStrand t u) 9 (t.cause.toNat + 256 * ((stoppedStrand t u).csr.tpc.toNat % 2 ^ 48))
      (withdrawMessages u.id { s with strand := stoppedStrand t u }) := by
  intro u
  have htpc : (stoppedStrand t u).csr.tpc.toNat % 2 ^ 48 = u.pc.toNat % 2 ^ 48 := by
    have hlow : (stoppedStrand t u).csr.tpc = BitVec.ofNat 64 (u.pc.toNat % 2 ^ 48) := and_low48 _
    rw [hlow, BitVec.toNat_ofNat]
    omega
  rw [htpc, stoppedStrand_eq]
  rfl

theorem stopped_strand (t : Trap) (s : State) :
    (Claims.stopped t s).strand = stoppedStrand t (fillResults (settlePending s.strand)) := by
  rw [stopped_eq]
  exact (recorded_emitStrand _ _ _ _).strand

/-- The write of a stopped strand's queue images (R434). -/
def writeImages (st : Strand) (tvq : Word) : Act Unit :=
  vsWriteBlock { strandPort st 1 with sys := true, race := 0, id := none } tvq.toNat (queueImage st)

/-- What follows the write of the images: the handler is entered, or the strand is Faulted. -/
def afterImages (t : Trap) (tvec : Word) : Except Stop Unit × State → State
  | (.ok _, s) =>
    enterState .running 0 { s with strand := { dumpQueues s.strand with pc := tvec &&& ~~~3, skipBreak := false } }
  | (.error (.trap w), s) => imageFailed t w.cause w.tval s
  | (.error _, s) => becomeFaulted s

/-- What becomes of a strand `st` that has stopped: it is Faulted, or its queue images are written and its handler is
entered. -/
def enterHandler (t : Trap) (wasSys : Bool) (st : Strand) (s : State) : State :=
  if st.csr.tvec = 0 ∨ wasSys then becomeFaulted s
  else if st.csr.tvq.toNat % 4096 ≠ 0 then imageFailed t causeAlign st.csr.tvq s
  else afterImages t st.csr.tvec (writeImages st st.csr.tvq s)

theorem takeTrap_eq (t : Trap) (s : State) : takeTrap t s =
    enterHandler t (sysLevel (fillResults (settlePending s.strand))) (Claims.stopped t s).strand (Claims.stopped t s) := by
  rw [stopped_strand, stopped_eq]
  generalize hu : fillResults (settlePending s.strand) = u
  unfold enterHandler takeTrap
  rw [hu]
  rfl

/-! ## The results that a stop leaves full (R191, R432) -/

/-- Registers that are made full one after another are full, and those that were full stay so. -/
theorem isEmpty_foldl_setFull (l : List VEntry) (st : Strand) (r : Reg)
    (h : isEmpty st r = false ∨ r ∈ l.map fun e => vResultReg e.word) :
    isEmpty (l.foldl (fun t e => setFull t (vResultReg e.word)) st) r = false := by
  induction l generalizing st with
  | nil => simpa using h
  | cons e l ih =>
    refine ih _ ?_
    rw [isEmpty_setFull]
    by_cases hr : r = vResultReg e.word
    · exact .inl (if_pos hr)
    · rw [if_neg hr]
      exact h.imp id fun hm => (List.mem_cons.1 hm).resolve_left hr

theorem isEmpty_fillResults {st : Strand} {e : VEntry} (he : e ∈ st.vq) :
    isEmpty (fillResults st) (vResultReg e.word) = false :=
  isEmpty_foldl_setFull st.vq st _ (.inr (List.mem_map_of_mem he))

theorem saved_stoppedStrand (t : Trap) (st : Strand) : Claims.Saved t st (stoppedStrand t (fillResults st)) := by
  obtain ⟨e, he⟩ := fillResults_empty st
  rw [stoppedStrand_eq, he]
  exact ⟨rfl, rfl, rfl, rfl, rfl, rfl, rfl, rfl, rfl, rfl, rfl, rfl⟩

/-- A stop changes nothing else of a strand but the full bits of its results. -/
theorem stoppedStrand_keeps (t : Trap) (st : Strand) :
    let r := stoppedStrand t (fillResults st)
    r.state = st.state ∧ r.pc = st.pc ∧ r.x = st.x ∧ r.vq = st.vq ∧ r.mq = st.mq ∧ r.cq = st.cq ∧ r.nq = st.nq ∧
      r.csr.tvec = st.csr.tvec ∧ r.csr.tvq = st.csr.tvq := by
  obtain ⟨e, he⟩ := fillResults_empty st
  rw [he]
  exact ⟨rfl, rfl, rfl, rfl, rfl, rfl, rfl, rfl, rfl⟩

theorem Recorded.records {u v : State} (h : Recorded u v) : v.hub.records = u.hub.records := by rw [h.hub]

theorem stopped_records (t : Trap) (s : State) : (Claims.stopped t s).hub.records = s.hub.records := by
  rw [stopped_eq]
  exact (recorded_emitStrand _ _ _ _).records

/-! ## Becoming Faulted (R431, R448) -/

theorem strandErr_fields (typ severity : Nat) (st : Strand) (detail : List Byte) :
    (strandErr typ severity st detail).typ = typ ∧ (strandErr typ severity st detail).detail = detail := by
  unfold strandErr ErrRec.ofHoop
  dsimp only
  split
  · split <;> exact ⟨rfl, rfl⟩
  · exact ⟨rfl, rfl⟩

theorem enterState_recorded (new : RunState) (cause : Nat) (s : State) :
    Recorded { s with strand := { s.strand with state := new } } (enterState new cause s) := by
  unfold enterState
  split
  next h =>
    subst h
    exact .refl s
  next =>
    dsimp only
    split
    · exact .refl _
    · exact recorded_emitChange _ _ _ _ _

/-- A record of type 9 is queued, and nothing of the strand but its state changes. -/
theorem becomeFaulted_records (s : State) : (becomeFaulted s).strand = { s.strand with state := .faulted } ∧
    ∃ f, (becomeFaulted s).hub.records = s.hub.records ++ [f] ∧ f.typ = 9 := by
  have hrec := enterState_recorded .faulted s.strand.csr.tcause.toNat s
  obtain ⟨htyp, -⟩ := strandErr_fields 9 1 s.strand (faultedDetail s.strand)
  exact ⟨hrec.strand, _, congrArg (· ++ [_]) hrec.records, htyp⟩

theorem imageFailed_records (t : Trap) (cause : BitVec 8) (addr : Word) (s : State) :
    (imageFailed t cause addr s).strand = { s.strand with state := .faulted } ∧
    ∃ e f, (imageFailed t cause addr s).hub.records = s.hub.records ++ [e, f] ∧ e.typ = 9 ∧ f.typ = 9 ∧
      e.detail = leBytes 8 t.cause.toNat ++ leBytes 8 t.tval.toNat ++ leBytes 8 cause.toNat ++ leBytes 8 addr.toNat := by
  obtain ⟨e, he⟩ : ∃ e, e = strandErr 9 1 s.strand (leBytes 8 t.cause.toNat ++ leBytes 8 t.tval.toNat ++
    leBytes 8 cause.toNat ++ leBytes 8 addr.toNat) := ⟨_, rfl⟩
  obtain ⟨htyp, hdetail⟩ := strandErr_fields 9 1 s.strand (leBytes 8 t.cause.toNat ++ leBytes 8 t.tval.toNat ++
    leBytes 8 cause.toNat ++ leBytes 8 addr.toNat)
  rw [← he] at htyp hdetail
  obtain ⟨hstrand, f, hrec, hf⟩ := becomeFaulted_records (addErr e s)
  rw [imageFailed, ← he]
  refine ⟨hstrand, e, f, hrec.trans ?_, htyp, hf, hdetail⟩
  exact List.append_assoc _ [e] [f]

/-! ## The ways in which a trap ends -/

section
variable {t : Trap} {s : State}

/-- The handler's level and images are those of the strand as its results settle. -/
theorem takeTrap_settled (t : Trap) (s : State) :
    takeTrap t s = enterHandler t (sysLevel (settlePending s.strand)) (Claims.stopped t s).strand (Claims.stopped t s) := by
  obtain ⟨e, he⟩ := fillResults_empty (settlePending s.strand)
  rw [takeTrap_eq, he]
  rfl

theorem takeTrap_noHandler (h : (settlePending s.strand).csr.tvec = 0 ∨ sysLevel (settlePending s.strand) = true) :
    takeTrap t s = becomeFaulted (Claims.stopped t s) := by
  obtain ⟨-, -, -, -, -, -, -, htvec, -⟩ := stoppedStrand_keeps t (settlePending s.strand)
  rw [takeTrap_settled, enterHandler, stopped_strand, if_pos (by rwa [htvec])]

section
variable (hvec : (settlePending s.strand).csr.tvec ≠ 0) (hsys : sysLevel (settlePending s.strand) = false)
include hvec hsys

/-- A strand with a handler, below system level. -/
theorem takeTrap_handler : takeTrap t s =
    if (settlePending s.strand).csr.tvq.toNat % 4096 ≠ 0 then
      imageFailed t causeAlign (settlePending s.strand).csr.tvq (Claims.stopped t s)
    else afterImages t (settlePending s.strand).csr.tvec
      (writeImages (Claims.stopped t s).strand (settlePending s.strand).csr.tvq (Claims.stopped t s)) := by
  obtain ⟨-, -, -, -, -, -, -, htvec, htvq⟩ := stoppedStrand_keeps t (settlePending s.strand)
  rw [← stopped_strand] at htvec htvq
  rw [takeTrap_settled, enterHandler, htvec, htvq, if_neg (not_or.2 ⟨hvec, ne_true_of_eq_false hsys⟩)]

theorem takeTrap_misaligned (h : (settlePending s.strand).csr.tvq.toNat % 4096 ≠ 0) :
    takeTrap t s = imageFailed t causeAlign (settlePending s.strand).csr.tvq (Claims.stopped t s) := by
  rw [takeTrap_handler hvec hsys, if_pos h]

theorem takeTrap_images (h : (settlePending s.strand).csr.tvq.toNat % 4096 = 0) {r : Except Stop Unit × State}
    (hw : writeImages (Claims.stopped t s).strand (settlePending s.strand).csr.tvq (Claims.stopped t s) = r) :
    takeTrap t s = afterImages t (settlePending s.strand).csr.tvec r := by
  rw [takeTrap_handler hvec hsys, if_neg (not_not.2 h), hw]

end
end

/-! ## Faults of the front among those pending (R433) -/

/-- A strand with other faults pending. -/
def withPending (l : List PendingFault) (st : Strand) : Strand := { st with pending := l }

theorem settlePending_withPending (l : List PendingFault) (st : Strand) :
    settlePending (withPending l st) = withPending l (settlePending st) := by
  have hfold := List.foldl_hom (l := st.fePend) (init := st) (withPending l)
    (g₁ := fun t w => setFull (writeReg t w.rd w.val) w.rd) (g₂ := fun t w => setFull (writeReg t w.rd w.val) w.rd)
    fun t w => by unfold writeReg; split <;> rfl
  exact congrArg (fun t : Strand => { t with fePend := [] }) hfold

theorem fillResults_withPending (l : List PendingFault) (st : Strand) :
    fillResults (withPending l st) = withPending l (fillResults st) :=
  List.foldl_hom (l := st.vq) (withPending l) fun _ _ => rfl

/-- A trap does not see the faults that are pending: it takes them all away. -/
theorem takeTrap_withPending (t : Trap) (s : State) (l : List PendingFault) :
    takeTrap t { s with strand := withPending l s.strand } = takeTrap t s := by
  have hfill : fillResults (settlePending (withPending l s.strand)) = withPending l (fillResults (settlePending s.strand)) := by
    rw [settlePending_withPending, fillResults_withPending]
  have hstopped : Claims.stopped t { s with strand := withPending l s.strand } = Claims.stopped t s := by
    rw [stopped_eq, stopped_eq, hfill]
    rfl
  rw [takeTrap_eq, takeTrap_eq, hstopped, hfill]
  rfl

/-- With nothing pending before it, a trap of the front is taken at once. -/
theorem frontTrap_takes {t : Trap} {s : State} (h : s.strand.pending = []) : frontTrap t s = takeTrap t s := by
  have hold : oldestFault (s.strand.pending ++ [⟨t, .s, s.strand.nextSeq, 0⟩]) = some ⟨t, .s, s.strand.nextSeq, 0⟩ := by
    rw [h]
    rfl
  rw [frontTrap, takePending, hold]
  exact takeTrap_withPending t s _

/-- An older fault is taken before it. -/
theorem frontTrap_older {t : Trap} {s : State} {f : PendingFault} (h : s.strand.pending = [f])
    (hseq : f.seq < s.strand.nextSeq) : frontTrap t s = takeTrap f.trap s := by
  have hold : oldestFault (s.strand.pending ++ [⟨t, .s, s.strand.nextSeq, 0⟩]) = some f := by
    rw [h]
    refine oldestFault_eq (by simp) fun g hg => ?_
    rcases List.mem_cons.1 hg with rfl | hg
    · exact .inl rfl
    · obtain rfl := List.mem_singleton.1 hg
      exact .inr (.inl hseq)
  rw [frontTrap, takePending, hold]
  exact takeTrap_withPending f.trap s _

/-! ## What the ways of a trap leave -/

theorem enterState_running (cause : Nat) (s : State) :
    enterState .running cause s = { s with strand := { s.strand with state := .running } } := by
  unfold enterState
  split
  next h => rw [← h]
  next => rfl

theorem dumpQueues_keeps (st : Strand) : (dumpQueues st).csr = st.csr ∧ (dumpQueues st).x = st.x := by
  obtain ⟨e, he⟩ := fillResults_empty st
  unfold dumpQueues
  rw [he]
  exact ⟨rfl, rfl⟩

section
variable {t : Trap} {s : State}

/-- A strand that stops and becomes Faulted. -/
theorem faulted_stopped {r : State} (h : r.strand = { (Claims.stopped t s).strand with state := .faulted }) :
    let st := settlePending s.strand
    Claims.Saved t st r.strand ∧ r.strand.state = .faulted ∧ r.strand.pc = st.pc ∧ r.strand.x = st.x ∧
      r.strand.vq = st.vq ∧ r.strand.mq = st.mq ∧ r.strand.cq = st.cq ∧ r.strand.nq = st.nq ∧
      ∀ e ∈ st.vq, isEmpty r.strand (vResultReg e.word) = false := by
  intro st
  obtain ⟨-, hpc, hx, hvq, hmq, hcq, hnq, -, -⟩ := stoppedStrand_keeps t st
  rw [h, stopped_strand]
  exact ⟨saved_stoppedStrand t st, rfl, hpc, hx, hvq, hmq, hcq, hnq, fun e he => isEmpty_fillResults he⟩

theorem takeTrap_faults (hno : (settlePending s.strand).csr.tvec = 0 ∨ sysLevel (settlePending s.strand) = true ∨
    (settlePending s.strand).csr.tvq.toNat % 4096 ≠ 0) :
    (takeTrap t s).strand = { (Claims.stopped t s).strand with state := .faulted } := by
  by_cases hh : (settlePending s.strand).csr.tvec = 0 ∨ sysLevel (settlePending s.strand) = true
  · rw [takeTrap_noHandler hh]
    exact (becomeFaulted_records _).1
  · obtain ⟨hvec, hsys⟩ := not_or.1 hh
    rw [takeTrap_misaligned hvec (eq_false_of_ne_true hsys) ((hno.resolve_left hvec).resolve_left hsys)]
    exact (imageFailed_records _ _ _ _).1

theorem takeTrap_noHandler_records (h : (settlePending s.strand).csr.tvec = 0 ∨ sysLevel (settlePending s.strand) = true) :
    ∃ e, (takeTrap t s).hub.records = s.hub.records ++ [e] ∧ e.typ = 9 := by
  rw [takeTrap_noHandler h, ← stopped_records t s]
  exact (becomeFaulted_records _).2

theorem takeTrap_misaligned_records (hvec : (settlePending s.strand).csr.tvec ≠ 0)
    (hsys : sysLevel (settlePending s.strand) = false) (hq : (settlePending s.strand).csr.tvq.toNat % 4096 ≠ 0) :
    ∃ e f, (takeTrap t s).hub.records = s.hub.records ++ [e, f] ∧ e.typ = 9 ∧ f.typ = 9 ∧
      e.detail = leBytes 8 t.cause.toNat ++ leBytes 8 t.tval.toNat ++ leBytes 8 0x06 ++
        leBytes 8 (settlePending s.strand).csr.tvq.toNat := by
  rw [takeTrap_misaligned hvec hsys hq, ← stopped_records t s]
  exact (imageFailed_records _ _ _ _).2

end

end Sys2Proof.Machine

namespace Sys2Proof.Proofs

open Sys2Proof.Machine

/-- Settles O19: the calls by their causes, and a trap by the strand as it stops and by what becomes of that. -/
theorem trapsAreTaken : Obligations.TrapsAreTaken := by
  refine ⟨⟨ecall_traps, fun s => ebreak_traps, fun s => ebreak_halts, fun t s => frontTrap_takes,
      fun t s f => frontTrap_older⟩,
    fun t s _ hno => ?faulted, fun t s s2 hvec hsys hq hw hcsr hx => ?handled, fun t w s s2 hvec hsys hq hw _ => ?unwritten⟩
  case faulted =>
    obtain ⟨hsaved, hstate, hpc, hx, hvq, hmq, hcq, hnq, hfull⟩ := faulted_stopped (takeTrap_faults (t := t) hno)
    refine ⟨hsaved, hstate, hpc, hx, hvq, hmq, hcq, hnq, hfull, takeTrap_noHandler_records, fun hvec hsys => ?_⟩
    exact takeTrap_misaligned_records hvec hsys ((hno.resolve_left hvec).resolve_left (ne_true_of_eq_false hsys))
  case handled =>
    dsimp only
    obtain ⟨hcsr', hx'⟩ := dumpQueues_keeps s2.strand
    obtain ⟨-, -, hkept, -⟩ := stoppedStrand_keeps t (settlePending s.strand)
    have hstopped := congrArg Strand.x (stopped_strand t s)
    rw [takeTrap_images hvec hsys hq hw, afterImages, and_not_three, enterState_running]
    exact ⟨hcsr'.trans hcsr, hx'.trans (hx.trans (hstopped.trans hkept)), rfl, rfl, rfl, rfl, rfl, rfl, rfl, rfl⟩
  case unwritten =>
    dsimp only
    rw [takeTrap_images hvec hsys hq hw, afterImages]
    obtain ⟨hstrand, hrec⟩ := imageFailed_records t w.cause w.tval s2
    exact ⟨by rw [hstrand], by rw [hstrand], hrec⟩

end Sys2Proof.Proofs

/-! # Memory and places (R97, R123, R128, R286, R410, R440) -/

namespace Sys2Proof.Machine

/-! ## What a write leaves in memory -/

theorem storeBytes_nil (m : Mem) (key : Option Nat) (a : Nat) : storeBytes m key a [] = m := by cases key <;> rfl

theorem byteAt_storeBytes_same (m : Mem) (key : Option Nat) (a : Nat) (bs : List Byte) {i : Nat} (h : i < bs.length) :
    Claims.byteAt (storeBytes m key a bs) key (a + i) = bs[i] := by
  cases key with
  | none => exact smRead_smWriteList_same _ _ _ _ _ h
  | some k =>
    have hread := loadBytes_storeBytes_hbm m k a bs
    calc Claims.byteAt (storeBytes m (some k) a bs) (some k) (a + i)
        = (loadBytes (storeBytes m (some k) a bs) (some k) a bs.length)[i]'(by rwa [hread]) := by
          simp [loadBytes, Claims.byteAt]
      _ = bs[i] := by simp only [hread]

theorem loadBytes_storeBytes (m : Mem) (key : Option Nat) (a : Nat) (bs : List Byte) :
    loadBytes (storeBytes m key a bs) key a bs.length = bs := by
  cases key with
  | none => exact loadBytes_storeBytes_sram m a bs
  | some k => exact loadBytes_storeBytes_hbm m k a bs

theorem byteAt_storeBytes_apart (m : Mem) (key : Option Nat) {a b : Nat} (bs : List Byte) (h : b < a ∨ a + bs.length ≤ b)
    (hp : smGet m.poison (b / 8) = none) : Claims.byteAt (storeBytes m key a bs) key b = Claims.byteAt m key b := by
  cases key with
  | none => exact sramByte_storeBytes_other m a b bs h hp
  | some k =>
    by_cases hbs : bs = []
    · rw [hbs, storeBytes_nil]
    · exact keyedByte_storeBytes_apart m k (List.length_pos_of_ne_nil hbs) h hp

/-! ## Words that a write frees of poison (R440) -/

/-- The bytes of a word without those that a write does not cover. -/
def dropUncovered (a n w : Nat) (b : SMap Byte) : SMap Byte := (List.range 8).foldl (init := b) fun b o =>
  if a ≤ w * 8 + o ∧ w * 8 + o < a + n then b else smDel b (w * 8 + o)

theorem smRead_smDel_zero {b : SMap Byte} {c : Nat} (k : Nat) (h : smRead 0 b c = 0) : smRead 0 (smDel b k) c = 0 := by
  by_cases hc : c = k
  · rw [smRead, hc, smGet_smDel_same]
    rfl
  · rw [smRead, smGet_smDel_other _ _ _ hc]
    exact h

/-- A fold whose steps keep a property has it once one of its elements brings it about. -/
theorem foldl_reaches {α β : Type} (P : β → Prop) (f : β → α → β) (hkeep : ∀ b x, P b → P (f b x)) {a : α}
    {l : List α} (ha : a ∈ l) (hit : ∀ b, P (f b a)) (b : β) : P (l.foldl f b) := by
  obtain ⟨l1, l2, rfl⟩ := List.append_of_mem ha
  rw [List.foldl_append, List.foldl_cons]
  exact foldl_keeps P f hkeep l2 _ (hit _)

theorem dropUncovered_keeps_zero (a n w : Nat) {b : SMap Byte} {c : Nat} (h : smRead 0 b c = 0) :
    smRead 0 (dropUncovered a n w b) c = 0 := by
  refine foldl_keeps (fun b => smRead 0 b c = 0) _ (fun b o hb => ?_) _ _ h
  split
  · exact hb
  · exact smRead_smDel_zero _ hb

theorem dropUncovered_zero {a n w o : Nat} (ho : o < 8) (hout : ¬(a ≤ w * 8 + o ∧ w * 8 + o < a + n)) (b : SMap Byte) :
    smRead 0 (dropUncovered a n w b) (w * 8 + o) = 0 := by
  refine foldl_reaches (fun b => smRead 0 b (w * 8 + o) = 0) _ (fun b x hb => ?_) (List.mem_range.2 ho) (fun b => ?_) b
  · split
    · exact hb
    · exact smRead_smDel_zero _ hb
  · rw [if_neg hout, smRead, smGet_smDel_same]
    rfl

/-- One word of a range loses its poison. -/
def clearWord (a n : Nat) (m : Mem) (w : Nat) : Mem :=
  match smGet m.poison w with
  | none => m
  | some _ => { m with poison := smDel m.poison w, bytes := dropUncovered a n w m.bytes }

theorem clearPoison_eq (m : Mem) (a n : Nat) : clearPoison m a n = (touched 8 a n).foldl (clearWord a n) m := rfl

theorem clearWord_keeps_zero (a n w : Nat) {m : Mem} {c : Nat} (h : smRead 0 m.bytes c = 0) :
    smRead 0 (clearWord a n m w).bytes c = 0 := by
  unfold clearWord
  split
  · exact h
  · exact dropUncovered_keeps_zero a n w h

theorem clearWord_zero {a n w o : Nat} {m : Mem} (hp : smGet m.poison w ≠ none) (ho : o < 8)
    (hout : ¬(a ≤ w * 8 + o ∧ w * 8 + o < a + n)) : smRead 0 (clearWord a n m w).bytes (w * 8 + o) = 0 := by
  unfold clearWord
  split
  next h => exact absurd h hp
  next => exact dropUncovered_zero ho hout _

theorem clearWord_poison_other (a n : Nat) {v w : Nat} (h : w ≠ v) (m : Mem) :
    smGet (clearWord a n m v).poison w = smGet m.poison w := by
  unfold clearWord
  split
  · rfl
  · exact smGet_smDel_other _ _ _ h

/-- Of a poisoned word that a write covers in part the other bytes become zero. -/
theorem clearPoison_zero {m : Mem} {a n w o : Nat} (hw : w ∈ touched 8 a n) (hp : smGet m.poison w ≠ none) (ho : o < 8)
    (hout : ¬(a ≤ w * 8 + o ∧ w * 8 + o < a + n)) : smRead 0 (clearPoison m a n).bytes (w * 8 + o) = 0 := by
  obtain ⟨before, after, hsplit, hfirst⟩ := List.eq_append_cons_of_mem hw
  have hleft : smGet (before.foldl (clearWord a n) m).poison w ≠ none :=
    List.foldlRecOn (motive := fun x : Mem => smGet x.poison w ≠ none) before _ hp fun x hx v hv => by
      rwa [clearWord_poison_other a n fun h : w = v => hfirst (h ▸ hv)]
  rw [clearPoison_eq, hsplit, List.foldl_append, List.foldl_cons]
  exact foldl_keeps (fun x : Mem => smRead 0 x.bytes (w * 8 + o) = 0) _ (fun x v hx => clearWord_keeps_zero a n v hx) _ _
    (clearWord_zero hleft ho hout)

theorem storeBytes_poison {m : Mem} {a w : Nat} {bs : List Byte} (key : Option Nat) (hw : w ∈ touched 8 a bs.length) :
    smGet (storeBytes m key a bs).poison w = none :=
  poison_clearPoison hw

theorem storeBytes_freed {m : Mem} {a w o : Nat} {bs : List Byte} (key : Option Nat) (hbs : 0 < bs.length)
    (hw : w ∈ touched 8 a bs.length) (hp : smGet m.poison w ≠ none) (ho : o < 8)
    (hout : 8 * w + o < a ∨ a + bs.length ≤ 8 * w + o) : Claims.byteAt (storeBytes m key a bs) key (8 * w + o) = 0 := by
  rw [Nat.mul_comm 8 w] at hout ⊢
  have hcovered : ¬(a ≤ w * 8 + o ∧ w * 8 + o < a + bs.length) := by omega
  cases key with
  | none => exact (smRead_smWriteList_other _ _ _ _ _ hout).trans (clearPoison_zero hw hp ho hcovered)
  | some k =>
    obtain ⟨hlo, hhi⟩ := (mem_touched (by decide) hbs).1 hw
    have hblock : (w * 8 + o) / 16 ∈ touched 16 a bs.length := (mem_touched (by decide) hbs).2 (by omega)
    show keyedByte _ k _ = 0
    rw [keyedByte, blockKey_storeBytes hblock]
    refine (if_pos rfl).trans ((smRead_smWriteList_other _ _ _ _ _ hout).trans (clearPoison_zero hw ?_ ho hcovered))
    rwa [poison_rekeyBlocks]

/-! ## Reads of a place (R128, R129) -/

section
variable {p : Port} {pl : Place} {n : Nat} {s : State}

/-- Within a block of 4 KiB a place is one piece. -/
theorem placePieces_block (h : pl.pa % 4096 + n ≤ 4096) : placePieces pl n = [(pl, 0, n)] := by
  simp [placePieces, blockPieces, h]

theorem readPiece_hbm {a : Nat} (h : regionOf pl.pa = .hbm a) (n : Nat) (s : State) :
    readPiece pl n s = (.ok (Claims.placeBytes s pl n), s) := by
  simp only [readPiece, Claims.placeBytes, h]
  rfl

theorem readPiece_sram {g : Nat} (h : regionOf pl.pa = .sram g) (n : Nat) (s : State) :
    readPiece pl n s = (.ok (Claims.placeBytes s pl n), s) := by
  have hbytes : smReadList 0 s.mem.bytes pl.pa n = (List.range n).map fun o => smRead 0 s.mem.bytes (pl.pa + o) := by
    refine List.ext_getElem (by simp [length_smReadList]) fun i _ _ => ?_
    rw [getElem_smReadList]
    simp
  simp only [readPiece, Claims.placeBytes, h, ← hbytes]
  rfl

theorem readPlace_block (h : pl.pa % 4096 + n ≤ 4096) (s : State) : readPlace pl n s = readPiece pl n s := by
  rw [readPlace, placePieces_block h]

theorem loadPlace_block (h : pl.pa % 4096 + n ≤ 4096) (p : Port) (va : Nat) (s : State) :
    loadPlace p pl n va s = loadPiece p pl n va s := by
  rw [loadPlace, placePieces_block h]

theorem mapM_readPiece (ps : List (Place × Nat × Nat)) (h : ∀ q ∈ ps, ∃ a, regionOf q.1.pa = .hbm a) (s : State) :
    (ps.mapM fun q => readPiece q.1 q.2.2) s = (.ok (ps.map fun q => Claims.placeBytes s q.1 q.2.2), s) := by
  induction ps with
  | nil => rfl
  | cons q ps ih =>
    obtain ⟨a, ha⟩ := h q List.mem_cons_self
    rw [List.mapM_cons, act_bind_ok (readPiece_hbm ha q.2.2 s), act_bind_ok (ih fun x hx => h x (List.mem_cons_of_mem _ hx))]
    rfl

/-- A place of HBM is read piece by piece. -/
theorem readPlace_pieces (h : ∀ q ∈ placePieces pl n, ∃ a, regionOf q.1.pa = .hbm a) (s : State) :
    readPlace pl n s = (.ok ((placePieces pl n).flatMap fun q => Claims.placeBytes s q.1 q.2.2), s) := by
  unfold readPlace
  generalize placePieces pl n = ps at h
  match ps, h with
  | [], _ => rfl
  | [(q, _, k)], h =>
    obtain ⟨a, ha⟩ := h _ List.mem_cons_self
    rw [List.flatMap_singleton]
    exact readPiece_hbm ha k s
  | q :: r :: ps, h =>
    rw [List.flatMap_def]
    exact act_bind_ok (mapM_readPiece (q :: r :: ps) h s)

/-- Each piece lies in one block of 4 KiB, under the key of the place. -/
theorem placePieces_inside {q : Place × Nat × Nat} (h : q ∈ placePieces pl n) :
    q.1.key = pl.key ∧ q.1.pa = pl.pa + q.2.1 ∧ q.1.pa % 4096 + q.2.2 ≤ 4096 := by
  obtain ⟨⟨b, k⟩, hb, rfl⟩ := List.mem_map.1 h
  dsimp only
  unfold blockPieces at hb
  split at hb
  next hone =>
    obtain ⟨rfl, rfl⟩ := Prod.mk.inj (List.mem_singleton.1 hb)
    exact ⟨rfl, by omega, hone⟩
  next hmany =>
    obtain ⟨j, hj, hbk⟩ := List.mem_map.1 hb
    obtain ⟨rfl, rfl⟩ := Prod.mk.inj hbk
    obtain ⟨hlo, hhi⟩ := (mem_touched (by decide) (by omega)).1 hj
    exact ⟨rfl, by omega, by omega⟩

end

/-! ## Poison that a load meets (R440, R441) -/

theorem firstPoison_clean {m : Mem} {a n : Nat} (h : isPoisoned m a n = false) : firstPoison m a n = none := by
  rw [firstPoison, h]
  rfl

theorem firstPoison_first {m : Mem} {a n o : Nat} (ho : o < n) (h : isPoisoned m a n = true)
    (hat : isPoisoned m (a + o) 1 = true) (hbefore : ∀ i, i < o → isPoisoned m (a + i) 1 = false) :
    firstPoison m a n = some o := by
  rw [firstPoison, if_pos h, List.find?_range_eq_some]
  exact ⟨hat, List.mem_range.2 ho, fun i hi => by rw [hbefore i hi]; rfl⟩

theorem raisePoison_traps {α : Type} (p : Port) (pa tval : Nat) (s : State) : ∃ t, (raisePoison p pa tval : Act α) s =
    (.error (.trap { cause := 0x0C, tval := BitVec.ofNat 64 tval, telem := 0 }), t) := ⟨_, rfl⟩

theorem sideHoop_side {p : Port} {h : Nat} (hid : p.id.isSome = true) (hagent : p.agent ≤ 2) (hhoop : p.hoop = some h) :
    p.sideHoop = some h := by
  rw [Port.sideHoop, hid, decide_eq_true hagent, hhoop]
  rfl

@[simp] theorem dropBlocks_hub (h a n : Nat) (s : State) : (dropBlocks h a n s).hub = s.hub := by
  unfold dropBlocks
  split <;> rfl

theorem keyName_congr {s t : State} (h : t.hub.keys = s.hub.keys) (k : Nat) : keyName t k = keyName s k := by
  rw [keyName, keyName, keySlot, keySlot, h]

/-- The bytes of a place are those of memory under its key. -/
theorem placeBytes_congr {s t : State} (hm : t.mem = s.mem) (hk : t.hub = s.hub) (pl : Place) (n : Nat) :
    Claims.placeBytes t pl n = Claims.placeBytes s pl n := by
  unfold Claims.placeBytes
  rw [hm, keyName_congr (congrArg Hub.keys hk)]

/-! ## Scalar loads -/

section
variable {p : Port} {pl : Place} {n h a : Nat} {s : State} (hreg : regionOf pl.pa = .hbm a) (hid : p.id.isSome = true)
  (hagent : p.agent = 1) (hhoop : p.hoop = some h) (va : Nat)
include hreg hid hagent hhoop

theorem loadPiece_scalar_reads (hclean : isPoisoned s.mem a n = false) :
    loadPiece p pl n va s = (.ok (Claims.placeBytes s pl n), dropBlocks h a n s) := by
  have hfirst : firstPoison (dropBlocks h a n s).mem a n = none := by
    rw [dropBlocks_mem]
    exact firstPoison_clean hclean
  have hread := readPiece_hbm hreg n (dropBlocks h a n s)
  rw [placeBytes_congr (dropBlocks_mem h a n s) (dropBlocks_hub h a n s)] at hread
  simp only [loadPiece, hreg, sideHoop_side hid (by omega) hhoop, hagent]
  rw [if_neg (by decide), act_bind_ok (act_modS _ s), act_bind_ok (act_getS _), hfirst]
  exact hread

theorem loadPiece_scalar_poisoned {o : Nat} (hfirst : firstPoison s.mem a n = some o) : ∃ t, loadPiece p pl n va s =
    (.error (.trap { cause := 0x0C, tval := BitVec.ofNat 64 (va + o), telem := 0 }), t) := by
  obtain ⟨t, ht⟩ := raisePoison_traps (α := List Byte) p (pl.pa + o) (va + o) (dropBlocks h a n s)
  refine ⟨t, ?_⟩
  simp only [loadPiece, hreg, sideHoop_side hid (by omega) hhoop, hagent]
  rw [if_neg (by decide), act_bind_ok (act_modS _ s), act_bind_ok (act_getS _), dropBlocks_mem, hfirst]
  exact ht

end

theorem loadPiece_sram {p : Port} {pl : Place} {n g : Nat} {s : State} (hreg : regionOf pl.pa = .sram g)
    (hclean : placePoisoned s pl n = false) (va : Nat) :
    loadPiece p pl n va s = (.ok (Claims.placeBytes s pl n), s) := by
  simp only [loadPiece, hreg]
  rw [act_bind_ok (act_getS s), hclean]
  exact readPiece_sram hreg n s

/-! ## Stream buffers (R123) -/

theorem smGet_filter {α : Type} (f : Nat → Bool) (m : SMap α) (k : Nat) :
    smGet (m.filter fun e => f e.1) k = if f k then smGet m k else none := by
  induction m with
  | nil => simp [smGet]
  | cons e m ih =>
    obtain ⟨j, v⟩ := e
    by_cases hj : j = k
    · subst hj
      cases hf : f j <;> simp_all [smGet]
    · cases hf : f j <;> simp_all [smGet]

theorem smGet_smSlice {α : Type} (m : SMap α) (lo hi k : Nat) :
    smGet (smSlice m lo hi) k = if lo ≤ k && k < hi then smGet m k else none :=
  smGet_filter (fun k => lo ≤ k && k < hi) m k

theorem smGet_smSlice_inside {α : Type} (m : SMap α) {lo hi k : Nat} (h : lo ≤ k ∧ k < hi) :
    smGet (smSlice m lo hi) k = smGet m k := by
  rw [smGet_smSlice, if_pos (by simpa using h)]

section
variable {s : State} {asid : BitVec 12} {key block : Nat}

theorem fill_byte {c : Nat} (h : c / 4096 = block) :
    smRead 0 (StreamBuf.fill s asid key block).asMem.bytes c = smRead 0 s.mem.bytes c :=
  congrArg (Option.getD · 0) (smGet_smSlice_inside s.mem.bytes (by omega))

/-- A fresh buffer reads as its block of memory. -/
theorem fill_keyedByte {c : Nat} (k : Nat) (h : c / 4096 = block) :
    keyedByte (StreamBuf.fill s asid key block).asMem k c = keyedByte s.mem k c := by
  have hkey : smGet (StreamBuf.fill s asid key block).asMem.blockKey (c / 16) = smGet s.mem.blockKey (c / 16) :=
    smGet_smSlice_inside _ (by omega)
  have hlist : smReadList 0 (StreamBuf.fill s asid key block).asMem.bytes (c / 16 * 16) 16 =
      smReadList 0 s.mem.bytes (c / 16 * 16) 16 := by
    refine List.ext_getElem (by simp [length_smReadList]) fun i hi _ => ?_
    rw [length_smReadList] at hi
    rw [getElem_smReadList, getElem_smReadList, fill_byte (by omega)]
  rw [keyedByte, keyedByte, hkey, fill_byte h, hlist]

theorem fill_loadBytes {a n : Nat} (k : Nat) (h : a % 4096 + n ≤ 4096) :
    loadBytes (StreamBuf.fill s asid key (a / 4096)).asMem (some k) a n = loadBytes s.mem (some k) a n :=
  List.map_congr_left fun o ho => fill_keyedByte k (by have := List.mem_range.1 ho; omega)

theorem fill_clean {a n : Nat} (h : isPoisoned s.mem a n = false) :
    isPoisoned (StreamBuf.fill s asid key block).asMem a n = false := by
  rw [isPoisoned, List.any_eq_false] at h ⊢
  intro w hw hp
  have hslice : smGet (StreamBuf.fill s asid key block).asMem.poison w = _ := smGet_smSlice s.mem.poison _ _ w
  rw [hslice] at hp
  split at hp
  · exact h w hw hp
  · cases hp

end

/-- A buffer of a hoop that serves a load. -/
def ownBuffer (asid : BitVec 12) (key block : Nat) (b : StreamBuf) : Bool :=
  b.block = block && b.asid = asid && b.key = key

/-- The state after a hoop has filled a buffer. -/
def filled (h : Nat) (asid : BitVec 12) (key block : Nat) (s s1 : State) : State :=
  setHoop h { hoopOf s1 h with buffers := (StreamBuf.fill s asid key block ::
    (hoopOf s1 h).buffers.filter fun b => !ownBuffer asid key block b).take 8 } s1

/-- The state after a free choice. -/
def picked (s : State) : State := { s with freeCtr := s.freeCtr + 1 }

section
variable {h : Nat} {asid : BitVec 12} {key block : Nat} {s : State}

theorem streamBlock_fills (hnone : (hoopOf s h).buffers.find? (ownBuffer asid key block) = none) :
    streamBlock h asid key block s = (.ok (StreamBuf.fill s asid key block), filled h asid key block s s) := by
  unfold ownBuffer at hnone
  rw [streamBlock, act_bind_ok (act_getS s)]
  simp only [hnone]
  rfl

/-- A buffer that holds the block serves the load, or memory is read again. -/
theorem streamBlock_serves {b : StreamBuf} (hsome : (hoopOf s h).buffers.find? (ownBuffer asid key block) = some b) :
    streamBlock h asid key block s = (.ok b, picked s) ∨
      streamBlock h asid key block s = (.ok (StreamBuf.fill s asid key block), filled h asid key block s (picked s)) := by
  unfold ownBuffer at hsome
  by_cases hc : Config.freeChoice s.freeCtr % 2 = 0
  · left
    rw [streamBlock, act_bind_ok (act_getS s)]
    simp only [hsome]
    rw [act_bind_ok (show pick 2 s = (.ok (Config.freeChoice s.freeCtr % 2), picked s) from rfl), if_pos hc]
    rfl
  · right
    rw [streamBlock, act_bind_ok (act_getS s)]
    simp only [hsome]
    rw [act_bind_ok (show pick 2 s = (.ok (Config.freeChoice s.freeCtr % 2), picked s) from rfl), if_neg hc]
    rfl

end

/-! ## Vector loads -/

section
variable {p : Port} {pl : Place} {n h a : Nat} {s : State} (hreg : regionOf pl.pa = .hbm a) (hid : p.id.isSome = true)
  (hagent : p.agent = 2) (hhoop : p.hoop = some h) (va : Nat)
include hreg hid hagent hhoop

/-- A vector load reads the buffer that serves it. -/
theorem loadPiece_vector {b : StreamBuf} {t : State} (hb : streamBlock h p.asid pl.key (a / 4096) s = (.ok b, t))
    (hclean : isPoisoned b.asMem a n = false) (hhub : t.hub = s.hub) :
    loadPiece p pl n va s = (.ok (loadBytes b.asMem (some (keyName s pl.key)) a n), t) := by
  simp only [loadPiece, hreg, sideHoop_side hid (by omega) hhoop, hagent, if_true]
  rw [act_bind_ok hb, act_bind_ok (act_getS t), firstPoison_clean hclean,
    keyName_congr (congrArg Hub.keys hhub)]
  rfl

section
variable (hblock : a % 4096 + n ≤ 4096) (hclean : isPoisoned s.mem a n = false)
include hblock hclean

/-- Through a fresh buffer a vector load reads memory. -/
theorem loadPiece_vector_fresh {t : State} (hb : streamBlock h p.asid pl.key (a / 4096) s =
    (.ok (StreamBuf.fill s p.asid pl.key (a / 4096)), t)) (hhub : t.hub = s.hub) :
    loadPiece p pl n va s = (.ok (Claims.placeBytes s pl n), t) := by
  have hbytes : loadBytes s.mem (some (keyName s pl.key)) a n = Claims.placeBytes s pl n := by
    simp only [Claims.placeBytes, hreg]
    rfl
  rw [loadPiece_vector hreg hid hagent hhoop va hb (fill_clean hclean) hhub, fill_loadBytes _ hblock, hbytes]

theorem loadPiece_vector_fills (hother : ∀ b ∈ (hoopOf s h).buffers, b.block ≠ a / 4096) :
    ∃ t, loadPiece p pl n va s = (.ok (Claims.placeBytes s pl n), t) ∧ t.mem = s.mem ∧ t.strand = s.strand ∧
      ∃ b ∈ (hoopOf t h).buffers, b.block = a / 4096 ∧ b.asid = p.asid ∧ b.key = pl.key := by
  have hnone : (hoopOf s h).buffers.find? (ownBuffer p.asid pl.key (a / 4096)) = none :=
    List.find?_eq_none.2 fun b hb => by simp [ownBuffer, hother b hb]
  refine ⟨_, loadPiece_vector_fresh hreg hid hagent hhoop va hblock hclean (streamBlock_fills hnone) rfl, rfl, rfl,
    StreamBuf.fill s p.asid pl.key (a / 4096), ?_, rfl, rfl, rfl⟩
  rw [filled, hoopOf_setHoop_same]
  exact List.mem_cons_self

theorem loadPiece_vector_serves {b : StreamBuf} (hbuf : (hoopOf s h).buffers = [b]) (hb1 : b.block = a / 4096)
    (hb2 : b.asid = p.asid) (hb3 : b.key = pl.key) (hbclean : isPoisoned b.asMem a n = false) :
    ∃ t got, loadPiece p pl n va s = (.ok got, t) ∧ t.mem = s.mem ∧
      (got = loadBytes b.asMem (some (keyName s pl.key)) a n ∨ got = Claims.placeBytes s pl n) := by
  have hsome : (hoopOf s h).buffers.find? (ownBuffer p.asid pl.key (a / 4096)) = some b := by
    simp [hbuf, ownBuffer, hb1, hb2, hb3]
  rcases streamBlock_serves hsome with hserve | hserve
  · exact ⟨_, _, loadPiece_vector hreg hid hagent hhoop va hserve hbclean rfl, rfl, .inl rfl⟩
  · exact ⟨_, _, loadPiece_vector_fresh hreg hid hagent hhoop va hblock hclean hserve rfl, rfl, .inr rfl⟩

end

end

/-- Both aliases of HBM keep the place in a block of 4 KiB (R129). -/
theorem regionOf_hbm_low {pa a : Nat} (h : regionOf pa = .hbm a) : a % 4096 = pa % 4096 := by
  unfold regionOf at h
  split at h
  · rw [Region.hbm.inj h]
  · split at h
    · rw [← Region.hbm.inj h]
      simp only [interleave, natBits]
      omega
    · split at h
      · cases h
      · split at h
        · cases h
        · split at h <;> cases h

/-! ## What a write takes from the strands (R97, R286) -/

/-- A strand without a reservation on one of the granules, unless the write is of its own scalar side. -/
def dropResv (p : Port) (a n : Nat) (t : Strand) : Strand :=
  match t.resv with
  | some g => if (touched 64 a n).contains g && !(p.agent = 1 && p.id = some t.id) then { t with resv := none } else t
  | none => t

/-- A strand without links on the granules, unless the write is of its own sides. -/
def dropLinks (own : Bool) (a n : Nat) (t : Strand) : Strand :=
  if own || t.links.isEmpty then t else
    { t with links := (touched 64 a n).foldl (init := t.links) fun l k => smDel l k }

/-- What a write leaves of each strand. -/
def writtenPast (p : Port) (a n : Nat) (x : Strand) : Strand :=
  dropLinks (p.agent ≤ 2 && p.id = some (markTiles a n x).id) a n (dropResv p a n (markTiles a n x))

theorem noteWrite_eq (p : Port) (a n : Nat) (s : State) :
    noteWrite p a n s = updStrands (fun _ => true) (writtenPast p a n) s := rfl

theorem markTiles_tiles (a n : Nat) (t : Strand) : ∃ e, markTiles a n t = { t with tiles := e } := by
  unfold markTiles
  split
  · exact ⟨t.tiles, rfl⟩
  · exact ⟨_, rfl⟩

theorem dropResv_resv (p : Port) (a n : Nat) (t : Strand) : ∃ r, dropResv p a n t = { t with resv := r } := by
  unfold dropResv
  split
  · split
    · exact ⟨none, rfl⟩
    · exact ⟨t.resv, rfl⟩
  · exact ⟨t.resv, rfl⟩

theorem dropLinks_links (own : Bool) (a n : Nat) (t : Strand) : ∃ l, dropLinks own a n t = { t with links := l } := by
  unfold dropLinks
  split
  · exact ⟨t.links, rfl⟩
  · exact ⟨_, rfl⟩

theorem writtenPast_frame (p : Port) (a n : Nat) (x : Strand) :
    ∃ e r l, writtenPast p a n x = { x with tiles := e, resv := r, links := l } := by
  obtain ⟨e, he⟩ := markTiles_tiles a n x
  obtain ⟨r, hr⟩ := dropResv_resv p a n (markTiles a n x)
  obtain ⟨l, hl⟩ := dropLinks_links (p.agent ≤ 2 && p.id = some (markTiles a n x).id) a n
    (dropResv p a n (markTiles a n x))
  exact ⟨e, r, l, by rw [writtenPast, hl, hr, he]⟩

theorem smGet_foldl_smDel (ls : List Nat) (m : SMap Unit) (g : Nat) :
    smGet (ls.foldl (fun l k => smDel l k) m) g = if g ∈ ls then none else smGet m g := by
  induction ls generalizing m with
  | nil => simp
  | cons k ls ih =>
    rw [List.foldl_cons, ih]
    by_cases hg : g = k
    · subst hg
      simp [smGet_smDel_same]
    · simp [smGet_smDel_other _ _ _ hg, hg]

/-- The granules that a write meets, as the claims name them. -/
theorem mem_touched_iff {a n g : Nat} : g ∈ touched 64 a n ↔ n ≠ 0 ∧ a / 64 ≤ g ∧ g ≤ (a + n - 1) / 64 := by
  by_cases hn : n = 0
  · simp [touched, hn]
  · rw [mem_touched (by decide) (Nat.pos_of_ne_zero hn)]
    simp [hn]

theorem dropResv_none {p : Port} {a n : Nat} {t : Strand} (h : t.resv = none) : (dropResv p a n t).resv = none := by
  rw [dropResv, h]
  exact h

theorem dropResv_some {p : Port} {a n g : Nat} {t : Strand} (h : t.resv = some g) : (dropResv p a n t).resv =
    if g ∈ touched 64 a n ∧ ¬(p.agent = 1 ∧ p.id = some t.id) then none else some g := by
  have hmeets : ((touched 64 a n).contains g && !(p.agent = 1 && p.id = some t.id)) = true ↔
      g ∈ touched 64 a n ∧ ¬(p.agent = 1 ∧ p.id = some t.id) := by simp [imp_iff_not_or]
  simp only [dropResv, h, hmeets]
  split
  · rfl
  · exact h

theorem smGet_dropLinks (own : Bool) (a n g : Nat) (t : Strand) : smGet (dropLinks own a n t).links g =
    if g ∈ touched 64 a n ∧ own = false then none else smGet t.links g := by
  unfold dropLinks
  cases own
  · split
    next hnone =>
      have hl : t.links = [] := List.isEmpty_iff.1 (by simpa using hnone)
      rw [hl]
      exact (ite_self none).symm
    next =>
      rw [smGet_foldl_smDel]
      simp
  · simp

theorem loses_writtenPast (p : Port) (a n : Nat) (x : Strand) : Claims.Loses p a n x (writtenPast p a n x) := by
  obtain ⟨e, he⟩ := markTiles_tiles a n x
  obtain ⟨r, hr⟩ := dropResv_resv p a n (markTiles a n x)
  obtain ⟨l, hl⟩ := dropLinks_links (p.agent ≤ 2 && p.id = some (markTiles a n x).id) a n
    (dropResv p a n (markTiles a n x))
  have hid : (markTiles a n x).id = x.id := by rw [he]
  have hresv : (writtenPast p a n x).resv = (dropResv p a n (markTiles a n x)).resv := by rw [writtenPast, hl]
  have hresv0 : (markTiles a n x).resv = x.resv := by rw [he]
  have hlinks (g : Nat) : smGet (writtenPast p a n x).links g =
      if g ∈ touched 64 a n ∧ ¬(p.agent ≤ 2 ∧ p.id = some x.id) then none else smGet x.links g := by
    rw [writtenPast, smGet_dropLinks, hr, hid, he]
    simp
  unfold Claims.Loses
  simp only [← mem_touched_iff]
  refine ⟨fun g hg => ?_, fun hnone => ?_, fun g => ?_⟩
  · rw [hresv, dropResv_some (hresv0.trans hg), hid]
    exact ⟨fun hm hown => if_pos ⟨hm, hown⟩, fun hkept => if_neg fun hc => hkept.elim (· hc.1) hc.2⟩
  · rw [hresv, dropResv_none (hresv0.trans hnone)]
  · rw [hlinks]
    exact ⟨fun hm hown => if_pos ⟨hm, hown⟩, fun hkept => if_neg fun hc => hkept.elim (· hc.1) hc.2⟩

theorem noteWrite_loses (p : Port) (a n : Nat) (s : State) :
    Claims.Loses p a n s.strand (noteWrite p a n s).strand ∧
      List.Forall₂ (Claims.Loses p a n) s.pool (noteWrite p a n s).pool := by
  refine ⟨loses_writtenPast p a n s.strand, ?_⟩
  rw [noteWrite_eq]
  show List.Forall₂ _ s.pool (s.pool.map fun x => if true = true then writtenPast p a n x else x)
  rw [List.forall₂_map_right_iff]
  exact List.forall₂_same.2 fun x _ => loses_writtenPast p a n x

/-- A write changes registers, CSRs and queues of no strand, nor the hub. -/
theorem noteWrite_frame (p : Port) (a n : Nat) (s : State) : (noteWrite p a n s).strand.x = s.strand.x ∧
    (noteWrite p a n s).strand.csr = s.strand.csr ∧ (noteWrite p a n s).strand.vq = s.strand.vq ∧
    (noteWrite p a n s).hub = s.hub := by
  obtain ⟨e, r, l, h⟩ := writtenPast_frame p a n s.strand
  have hst : (noteWrite p a n s).strand = { s.strand with tiles := e, resv := r, links := l } := h
  rw [hst]
  exact ⟨rfl, rfl, rfl, rfl⟩

@[simp] theorem dropBlocks_pool (h a n : Nat) (s : State) : (dropBlocks h a n s).pool = s.pool := by
  unfold dropBlocks
  split <;> rfl

theorem dropBlocks_buffers {h a n : Nat} (hn : 0 < n) (hblock : a % 4096 + n ≤ 4096) (s : State) :
    (hoopOf (dropBlocks h a n s) h).buffers = (hoopOf s h).buffers.filter fun b => b.block ≠ a / 4096 := by
  have hkeep (b : StreamBuf) : (!(touched 4096 a n).contains b.block) = decide (b.block ≠ a / 4096) := by
    have hone : b.block ∈ touched 4096 a n ↔ b.block = a / 4096 := by
      rw [mem_touched (by decide) hn]
      omega
    simp [hone]
  unfold dropBlocks
  split
  next hnone => rw [hnone, List.filter_nil]
  next =>
    rw [hoopOf_setHoop_same]
    exact List.filter_congr fun b _ => hkeep b

/-- What a write of a place leaves: the bytes, and of the strands their reservations and links. -/
structure Written (p : Port) (a : Nat) (bs : List Byte) (m : Mem) (s t : State) : Prop where
  mem : t.mem = m
  x : t.strand.x = s.strand.x
  csr : t.strand.csr = s.strand.csr
  vq : t.strand.vq = s.strand.vq
  hub : t.hub = s.hub
  focus : Claims.Loses p a bs.length s.strand t.strand
  pool : List.Forall₂ (Claims.Loses p a bs.length) s.pool t.pool

/-- A write that is noted, of memory alone. -/
theorem written_noteWrite (p : Port) (a : Nat) (bs : List Byte) (m : Mem) (s : State) :
    Written p a bs m s (noteWrite p a bs.length { s with mem := m }) := by
  obtain ⟨hx, hcsr, hvq, hhub⟩ := noteWrite_frame p a bs.length { s with mem := m }
  obtain ⟨hfocus, hpool⟩ := noteWrite_loses p a bs.length { s with mem := m }
  exact ⟨rfl, hx, hcsr, hvq, hhub, hfocus, hpool⟩

theorem Written.dropBlocks {p : Port} {a : Nat} {bs : List Byte} {m : Mem} {s t : State} (h : Written p a bs m s t)
    (k b n : Nat) : Written p a bs m s (dropBlocks k b n t) where
  mem := (dropBlocks_mem k b n t).trans h.mem
  x := (congrArg Strand.x (dropBlocks_strand k b n t)).trans h.x
  csr := (congrArg Strand.csr (dropBlocks_strand k b n t)).trans h.csr
  vq := (congrArg Strand.vq (dropBlocks_strand k b n t)).trans h.vq
  hub := (dropBlocks_hub k b n t).trans h.hub
  focus := by rw [dropBlocks_strand]; exact h.focus
  pool := by rw [dropBlocks_pool]; exact h.pool

section
variable {p : Port} {pl : Place} {bs : List Byte} {s : State}

theorem written_hbm {a : Nat} (hreg : regionOf pl.pa = .hbm a) :
    Written p a bs (storeBytes s.mem (some (keyName s pl.key)) a bs) s (writePiece p pl bs s) := by
  simp only [writePiece, hreg]
  have h := written_noteWrite p a bs (storeBytes s.mem (some (keyName s pl.key)) a bs) s
  split
  · exact h.dropBlocks _ _ _
  · exact h

theorem written_sram {g : Nat} (hreg : regionOf pl.pa = .sram g) :
    Written p pl.pa bs (storeBytes s.mem none pl.pa bs) s (writePiece p pl bs s) := by
  simp only [writePiece, hreg]
  exact written_noteWrite p pl.pa bs _ s

/-- A write of HBM invalidates the stream buffer of its block (R123, R269). -/
theorem writePiece_buffers {a h : Nat} (hreg : regionOf pl.pa = .hbm a) (hblock : a % 4096 + bs.length ≤ 4096)
    (hbs : bs ≠ []) (hid : p.id.isSome = true) (hagent : p.agent ≤ 2) (hhoop : p.hoop = some h) :
    (hoopOf (writePiece p pl bs s) h).buffers = (hoopOf s h).buffers.filter fun b => b.block ≠ a / 4096 := by
  simp only [writePiece, hreg, sideHoop_side hid hagent hhoop]
  rw [dropBlocks_buffers (List.length_pos_of_ne_nil hbs) hblock]
  rfl

theorem writePlace_block (hfirst : pl.first = none) (hblock : pl.pa % 4096 + bs.length ≤ 4096) :
    writePlace p pl bs s = (.ok (), writePiece p pl bs s) := by
  rw [writePlace_later hfirst, writePieces_block hblock]

end

/-! ## The first write of a page (R135) -/

/-- An action whose stops are traps alone. -/
def OnlyTraps {α : Type} (m : Act α) : Prop := ∀ s s' e, m s = (.error e, s') → ∃ t, e = .trap t

theorem OnlyTraps.pure {α : Type} (x : α) : OnlyTraps (pure x : Act α) := fun _ _ _ h => by cases h

theorem OnlyTraps.raise {α : Type} (c : BitVec 8) (v : Nat) : OnlyTraps (raise c v : Act α) := fun s s' e h => by
  rw [act_raise] at h
  obtain ⟨h, -⟩ := Prod.mk.inj h
  exact ⟨_, (Except.error.inj h).symm⟩

theorem OnlyTraps.bind {α β : Type} {m : Act α} {f : α → Act β} (hm : OnlyTraps m) (hf : ∀ x, OnlyTraps (f x)) :
    OnlyTraps (m >>= f) := fun s s' e h => by
  rw [act_bind] at h
  split at h
  next x t _ => exact hf x t s' e h
  next k t heq =>
    obtain ⟨h, -⟩ := Prod.mk.inj h
    obtain rfl := Except.error.inj h
    exact hm s t k heq

theorem OnlyTraps.ite {α : Type} {c : Prop} [Decidable c] {m k : Act α} (hm : OnlyTraps m) (hk : OnlyTraps k) :
    OnlyTraps (if c then m else k) := by
  split
  · exact hm
  · exact hk

theorem readPte_onlyTraps (p : Port) (va a : Nat) : OnlyTraps (readPte p va a) := fun s s' e h => by
  unfold readPte at h
  split at h
  · dsimp only at h
    split at h
    · exact OnlyTraps.raise _ _ s s' e h
    · split at h
      · obtain ⟨t, ht⟩ := raisePoison_traps (α := Nat) p ‹Nat› va s
        rw [ht] at h
        obtain ⟨h, -⟩ := Prod.mk.inj h
        exact ⟨_, (Except.error.inj h).symm⟩
      · cases h
  · exact OnlyTraps.raise _ _ s s' e h

theorem walkFrom_onlyTraps (p : Port) (va level a : Nat) : OnlyTraps (walkFrom p va level a) := by
  induction level generalizing a with
  | zero => exact .raise _ _
  | succ level ih =>
    refine .bind (readPte_onlyTraps p va _) fun pte => .ite (.raise _ _) (.ite (.ite (.raise _ _) (ih _)) ?_)
    exact .ite (.raise _ _) (.ite (.raise _ _) (.ite (.raise _ _) (.pure _)))

/-- An action that does not stop. -/
def Goes {α : Type} (m : Act α) : Prop := ∀ s, ∃ x s', m s = (.ok x, s')

theorem Goes.bind {α β : Type} {m : Act α} {f : α → Act β} (hm : Goes m) (hf : ∀ x, Goes (f x)) : Goes (m >>= f) := by
  intro s
  obtain ⟨x, s', h⟩ := hm s
  obtain ⟨y, t, ht⟩ := hf x s'
  exact ⟨y, t, (act_bind_ok h).trans ht⟩

theorem OnlyTraps.goes_tryTrap {α : Type} {m : Act α} (h : OnlyTraps m) : Goes (tryTrap m) := fun s => by
  rcases hm : m s with ⟨e | x, s'⟩
  · obtain ⟨t, rfl⟩ := h s s' e hm
    exact ⟨_, s', tryTrap_trap hm⟩
  · exact ⟨_, s', tryTrap_ok hm⟩

theorem setDirty_goes (p : Port) (va : Nat) : Goes (setDirty p va) := by
  refine .bind (walkFrom_onlyTraps p va 3 p.root).goes_tryTrap fun r => ?_
  rcases r with e | ⟨slot, pte, l⟩
  · exact fun s => ⟨(), s, rfl⟩
  dsimp only
  split <;> cases p.hoop <;> cases p.bank <;> exact fun s => ⟨(), _, rfl⟩

end Sys2Proof.Machine

namespace Sys2Proof.Proofs

open Sys2Proof.Machine

/-- Settles O13: memory by what a write leaves of bytes and poison, a place of HBM or SRAM by its one piece, the rest by
its pieces. -/
theorem memoryAndPlaces : Obligations.MemoryAndPlaces := by
  refine ⟨fun m key a bs => ⟨loadBytes_storeBytes m key a bs, fun i hi => byteAt_storeBytes_same m key a bs hi,
    fun b hb hp => byteAt_storeBytes_apart m key bs hb hp, fun w hbs hlo hhi => ?words, storeBytes_wf key a bs⟩,
    fun s p pl n bs => ⟨fun a hreg hn hbs => ?hbm, fun g hreg hn hbs => ?sram, fun _ hq => readPlace_pieces hq s,
      fun q hq => placePieces_inside hq, fun va hfirst => ?first⟩⟩
  case words =>
    have hlen := List.length_pos_of_ne_nil hbs
    have hw := (mem_touched (size := 8) (by decide) hlen).2 ⟨hlo, hhi⟩
    exact ⟨storeBytes_poison key hw, fun hp o ho hout => storeBytes_freed key hlen hw hp ho hout⟩
  case hbm =>
    have hlow := regionOf_hbm_low hreg
    have hn' : a % 4096 + n ≤ 4096 := hlow ▸ hn
    rw [readPlace_block hn]
    simp only [loadPlace_block hn]
    refine ⟨readPiece_hbm hreg n s, fun h va hid hagent hhoop =>
      ⟨loadPiece_scalar_reads hreg hid hagent hhoop va, fun o ho hpois hat hbefore =>
        loadPiece_scalar_poisoned hreg hid hagent hhoop va (firstPoison_first ho hpois hat hbefore)⟩,
      fun h va hid hagent hhoop hclean => ⟨loadPiece_vector_fills hreg hid hagent hhoop va hn' hclean,
        fun b hbuf h1 h2 h3 hb => loadPiece_vector_serves hreg hid hagent hhoop va hn' hclean hbuf h1 h2 h3 hb⟩,
      fun hfirst => ⟨writePiece p pl bs s, writePlace_block hfirst hbs, ?_⟩⟩
    have hw := written_hbm (p := p) (bs := bs) (s := s) hreg
    exact ⟨hw.mem, hw.x, hw.csr, hw.vq, hw.hub, hw.focus, hw.pool,
      fun h hne hid hagent hhoop => writePiece_buffers hreg (hlow ▸ hbs) hne hid hagent hhoop⟩
  case sram =>
    rw [readPlace_block hn]
    simp only [loadPlace_block hn]
    refine ⟨readPiece_sram hreg n s, fun va hclean => loadPiece_sram hreg hclean va,
      fun hfirst => ⟨writePiece p pl bs s, writePlace_block hfirst hbs, ?_⟩⟩
    have hw := written_sram (p := p) (bs := bs) (s := s) hreg
    exact ⟨hw.mem, hw.x, hw.csr, hw.vq, hw.hub, hw.focus, hw.pool⟩
  case first =>
    obtain ⟨⟨⟩, s1, hs1⟩ := setDirty_goes p va s
    exact ⟨s1, hs1, writePlace_first hfirst hs1⟩

end Sys2Proof.Proofs
